-- ==== Sys2Proof/Word.lean ====
section
/-!
DEFINITION. The word types and the plainest arithmetic on them (spec/00 R3, spec/03 R47).
-/
namespace Sys2Proof

/-- One 32-bit register (R21). -/
abbrev Word := BitVec 32
/-- A register pair (R22). -/
abbrev DWord := BitVec 64
/-- One byte (R3). -/
abbrev Byte := BitVec 8
/-- One instruction word (R47). -/
abbrev IWord := BitVec 96
/-- A virtual byte address, 42 bits (R33). -/
abbrev VAddr := BitVec 42
/-- A set of threads of one warp: thread `t` is bit `t` (R153). -/
abbrev TMask := BitVec 128

end Sys2Proof
end

