-- ==== Sys2Proof/Syntax.lean ====
section
/-!
DEFINITION. The instructions of Rolalmori and the machine's events, as syntax: one constructor per row of the opcode
table (spec/03 R60, spec/95). An instruction carries its header, its operand fields and its modifiers by name; an event
carries what the outside world or an engine supplies with it.
-/
namespace Sys2Proof

/-- TYPE codes 0x0 to 0xF in order (R56). -/
inductive Ty where
  | w32 | uw32 | i64 | ui64 | h2 | uh2 | b4 | ub4 | n8 | f32 | f16x2 | bf16x2 | e4m3x4 | e5m2x4 | e2m1x8 | s24
  deriving DecidableEq, Repr

/-- A word of an array with ECC, where an error is found (R343, R344): a scratchpad word of a gang, a live barrier object, a word of
global memory in a home slice, a base-die buffer word, a frame-table entry, a main register of a thread, a scalar register, an o or l
register of a thread (o0 to o7, l0, l1). -/
inductive ArrayWord where
  | pad (gid gc word : Nat)
  | obj (gid gc off : Nat)
  | slice (word : Nat)
  | buffer (word : Nat)
  | frame (fn : Nat)
  | main (gid wi t i : Nat)
  | scalar (gid wi i : Nat)
  | own (gid wi t i : Nat)
  deriving DecidableEq, Repr

/-- Rounding modes, codes 000 to 011 (R57). -/
inductive Rnd where
  | rne | rz | ru | rd
  deriving DecidableEq, Repr

/-- Conditions, codes 000 to 111; `un` and `ord` in fcmp only (R99). -/
inductive Cond where
  | eq | ne | lt | le | gt | ge | un | ord
  deriving DecidableEq, Repr

/-- How a compare combines with its guard (R99). -/
inductive Cmb where
  | set | and | or
  deriving DecidableEq, Repr

/-- The block divisor of scl and msca (R130, R289). -/
inductive Div where
  | d1 | d16 | d32
  deriving DecidableEq, Repr

/-- Selector modes of shfl and shflw (R160). -/
inductive Shf where
  | pick | rot | flip | seg
  deriving DecidableEq, Repr

/-- Summaries of vote (R161). -/
inductive Vote where
  | count | mask | low | high
  deriving DecidableEq, Repr

/-- Operations of rdx (R163). -/
inductive Rdx where
  | add | min | max | and | or | xor
  deriving DecidableEq, Repr

/-- Operations of join (R165). -/
inductive JoinOp where
  | set | or | andn
  deriving DecidableEq, Repr

/-- Access sizes, codes 0x0 to 0x6 (R58). -/
inductive Sz where
  | b8z | b8s | b16z | b16s | b32 | b64 | b128
  deriving DecidableEq, Repr

/-- The allowed space and scope pairs (R58). -/
inductive Spc where
  | sp | gw | glDev | glSys | pw
  deriving DecidableEq, Repr

/-- Scopes, codes 00 to 11 (R58). -/
inductive Scope where
  | core | clu | dev | sys
  deriving DecidableEq, Repr

/-- Operations of atom and ared, codes 000 to 111 (R240). -/
inductive AOp where
  | add | min | max | and | or | xor | xchg | incw
  deriving DecidableEq, Repr

/-- What an arrival releases (R247). -/
inductive ArrRel where
  | bound | all | nrel
  deriving DecidableEq, Repr

/-- Fence kinds (R237). -/
inductive Fence where
  | acq | rel | ar | sc
  deriving DecidableEq, Repr

/-- Copy spaces, codes 00 to 11 (R262). -/
inductive CSpc where
  | sp | gw | gl | bb
  deriving DecidableEq, Repr

/-- What ckill abandons (R282). -/
inductive Kill where
  | own | block | draft
  deriving DecidableEq, Repr

/-- Accumulator formats of mxm and mxc (R289). -/
inductive Acc where
  | af32 | af16 | abf16 | aw32
  deriving DecidableEq, Repr

/-- Constants of mxc (R291). -/
inductive Konst where
  | ones | id | perm
  deriving DecidableEq, Repr

/-- Operations of nred (R367). -/
inductive NOp where
  | add | min | max
  deriving DecidableEq, Repr

/-- Rotation length of ncvt (R367). -/
inductive NOrd where
  | none | n16 | n32
  deriving DecidableEq, Repr

/-- The header of every word: E, GN and GI (R48). -/
structure Hdr where
  e  : Bool
  gn : Bool
  gi : BitVec 3
  deriving DecidableEq, Repr

/-- One operand field (R49): `w` is the W bit of classes m and s. -/
inductive Opnd where
  | none
  | m (i : BitVec 8) (w : Bool)
  | o (i : BitVec 3)
  | l (i : BitVec 1)
  | s (i : BitVec 6) (w : Bool)
  | sr (i : BitVec 8)
  | win (i : BitVec 3)
  | imm
  deriving DecidableEq, Repr

/-- The operand fields of a V or M word (R52, R53). -/
structure VOps where
  d   : Opnd
  a   : Opnd
  b   : Opnd
  c   : Opnd
  imm : BitVec 21
  deriving DecidableEq, Repr

/-- The operand fields of a J word (R54). -/
structure JOps where
  d    : Opnd
  a    : Opnd
  off  : BitVec 21
  slot : BitVec 3
  deriving DecidableEq, Repr

/-- The operand fields of a K word (R55). -/
structure KOps where
  d   : Opnd
  imm : Word
  deriving DecidableEq, Repr

/-- The instructions of the opcode map (R60) and the events of the table. -/
inductive Instr where
  -- Group 0: control (R84 to R89)
  | bra (h : Hdr) (x : JOps)
  | brx (h : Hdr) (x : VOps)
  | call (h : Hdr) (x : JOps)
  | callx (h : Hdr) (x : VOps)
  | ret (h : Hdr) (x : VOps)
  | loopd (h : Hdr) (x : JOps)
  | exit (h : Hdr) (x : VOps)
  | nop (h : Hdr) (x : VOps)
  -- Group 1: integer arithmetic (R90 to R94)
  | iadd (h : Hdr) (x : VOps) (ty : Ty) (sat : Bool)
  | isub (h : Hdr) (x : VOps) (ty : Ty) (sat : Bool)
  | iaddc (h : Hdr) (x : VOps) (ty : Ty) (ci : Option (BitVec 3)) (co : BitVec 3)
  | isubb (h : Hdr) (x : VOps) (ty : Ty) (ci : Option (BitVec 3)) (co : BitVec 3)
  | imul (h : Hdr) (x : VOps) (ty : Ty)
  | imulh (h : Hdr) (x : VOps) (ty : Ty)
  | imad (h : Hdr) (x : VOps) (ty : Ty)
  | imad64 (h : Hdr) (x : VOps) (ty : Ty)
  | iabs (h : Hdr) (x : VOps) (ty : Ty) (sat : Bool)
  | imin (h : Hdr) (x : VOps) (ty : Ty)
  | imax (h : Hdr) (x : VOps) (ty : Ty)
  | lea (h : Hdr) (x : VOps) (ty : Ty) (sh : BitVec 3)
  | idiv (h : Hdr) (x : VOps) (ty : Ty)
  | irem (h : Hdr) (x : VOps) (ty : Ty)
  -- Group 2: logic and bits (R95 to R98)
  | and (h : Hdr) (x : VOps) (ty : Ty)
  | or (h : Hdr) (x : VOps) (ty : Ty)
  | xor (h : Hdr) (x : VOps) (ty : Ty)
  | andn (h : Hdr) (x : VOps) (ty : Ty)
  | lmux (h : Hdr) (x : VOps) (ty : Ty) (f1 f0 : BitVec 4)
  | shl (h : Hdr) (x : VOps) (ty : Ty)
  | shr (h : Hdr) (x : VOps) (ty : Ty)
  | sar (h : Hdr) (x : VOps) (ty : Ty)
  | rotl (h : Hdr) (x : VOps) (ty : Ty)
  | fsh (h : Hdr) (x : VOps) (ty : Ty)
  | bfx (h : Hdr) (x : VOps) (ty : Ty)
  | bfi (h : Hdr) (x : VOps) (ty : Ty)
  | popc (h : Hdr) (x : VOps) (ty : Ty)
  | clz (h : Hdr) (x : VOps) (ty : Ty)
  | brev (h : Hdr) (x : VOps) (ty : Ty)
  | bperm (h : Hdr) (x : VOps) (ty : Ty)
  -- Group 3: compares, guards, moves (R99 to R105)
  | icmp (h : Hdr) (x : VOps) (ty : Ty) (cond : Cond) (dg : BitVec 3) (cmb : Cmb)
  | ucmp (h : Hdr) (x : VOps) (ty : Ty) (cond : Cond) (dg : BitVec 3) (cmb : Cmb)
  | fcmp (h : Hdr) (x : VOps) (cond : Cond) (dg : BitVec 3) (cmb : Cmb)
  | gop (h : Hdr) (x : VOps)
  | gpack (h : Hdr) (x : VOps)
  | gunpk (h : Hdr) (x : VOps)
  | sel (h : Hdr) (x : VOps) (ty : Ty) (sg : BitVec 3) (sn : Bool)
  | mov (h : Hdr) (x : VOps) (ty : Ty)
  | movi (h : Hdr) (x : KOps)
  | movsp (h : Hdr) (x : VOps)
  | wrsp (h : Hdr) (x : VOps)
  -- Group 4: float (R133 to R137)
  | fadd (h : Hdr) (x : VOps) (rnd : Rnd)
  | fsub (h : Hdr) (x : VOps) (rnd : Rnd)
  | fmul (h : Hdr) (x : VOps) (rnd : Rnd)
  | ffma (h : Hdr) (x : VOps) (rnd : Rnd)
  | fmin (h : Hdr) (x : VOps)
  | fmax (h : Hdr) (x : VOps)
  | fdiv (h : Hdr) (x : VOps) (rnd : Rnd)
  | frcp (h : Hdr) (x : VOps) (rnd : Rnd)
  | fsqrt (h : Hdr) (x : VOps) (rnd : Rnd)
  | frsq (h : Hdr) (x : VOps) (rnd : Rnd)
  | fexp2 (h : Hdr) (x : VOps) (rnd : Rnd)
  | flog2 (h : Hdr) (x : VOps) (rnd : Rnd)
  | frnd (h : Hdr) (x : VOps) (rnd : Rnd)
  | fclass (h : Hdr) (x : VOps)
  | fscale (h : Hdr) (x : VOps) (rnd : Rnd)
  | hadd2 (h : Hdr) (x : VOps) (ty : Ty) (rnd : Rnd)
  | hmul2 (h : Hdr) (x : VOps) (ty : Ty) (rnd : Rnd)
  | hfma2 (h : Hdr) (x : VOps) (ty : Ty) (rnd : Rnd)
  | hmin2 (h : Hdr) (x : VOps) (ty : Ty)
  | hmax2 (h : Hdr) (x : VOps) (ty : Ty)
  -- Group 5: packed integers and dot products (R138 to R141)
  | vadd2 (h : Hdr) (x : VOps) (ty : Ty) (sat : Bool)
  | vsub2 (h : Hdr) (x : VOps) (ty : Ty) (sat : Bool)
  | vmin2 (h : Hdr) (x : VOps) (ty : Ty)
  | vmax2 (h : Hdr) (x : VOps) (ty : Ty)
  | vabsd2 (h : Hdr) (x : VOps) (ty : Ty)
  | acs2 (h : Hdr) (x : VOps) (ty : Ty)
  | vadd4 (h : Hdr) (x : VOps) (ty : Ty) (sat : Bool)
  | vsub4 (h : Hdr) (x : VOps) (ty : Ty) (sat : Bool)
  | vmin4 (h : Hdr) (x : VOps) (ty : Ty)
  | vmax4 (h : Hdr) (x : VOps) (ty : Ty)
  | dot4 (h : Hdr) (x : VOps) (ty : Ty) (bt : Option Ty)
  | dot8 (h : Hdr) (x : VOps) (ty : Ty) (bt : Option Ty)
  -- Group 6: conversion and quantisation (R142 to R151)
  | cvt (h : Hdr) (x : VOps) (ty src : Ty) (rnd : Rnd)
  | cvtp (h : Hdr) (x : VOps) (ty : Ty) (rnd : Rnd)
  | cvtn (h : Hdr) (x : VOps) (ty src : Ty) (rnd : Rnd)
  | cvtw (h : Hdr) (x : VOps) (ty src : Ty)
  | hqs (h : Hdr) (x : VOps) (ty : Ty) (n32 : Bool)
  | hq (h : Hdr) (x : VOps) (ty : Ty) (n32 : Bool)
  | hdq (h : Hdr) (x : VOps) (ty : Ty) (n32 : Bool) (rnd : Rnd)
  | scl (h : Hdr) (x : VOps) (ty : Ty) (rnd : Rnd) (div : Div)
  -- Group 7: warp (R156 to R167)
  | shfl (h : Hdr) (x : VOps) (ty : Ty) (mode : Shf) (full : Bool)
  | shflw (h : Hdr) (x : VOps) (ty : Ty) (mode : Shf) (full : Bool)
  | vote (h : Hdr) (x : VOps) (mode : Vote) (full : Bool)
  | wsync (h : Hdr) (x : VOps) (full : Bool)
  | rdx (h : Hdr) (x : VOps) (ty : Ty) (rop : Rdx) (full : Bool)
  | join (h : Hdr) (x : VOps) (jop : JoinOp) (jn : BitVec 4)
  | jwait (h : Hdr) (x : VOps) (jn : BitVec 4)
  | jwaitt (h : Hdr) (x : VOps) (jn : BitVec 4)
  | jget (h : Hdr) (x : VOps) (jn : BitVec 4)
  | jset (h : Hdr) (x : VOps) (jn : BitVec 4)
  | bcast (h : Hdr) (x : VOps) (ty : Ty) (full : Bool)
  | vread (h : Hdr) (x : VOps) (ty : Ty) (full : Bool)
  -- Group 8: memory (R106 to R110, R235)
  | ld (h : Hdr) (x : VOps) (sz : Sz) (spc : Spc) (win : BitVec 3)
  | st (h : Hdr) (x : VOps) (sz : Sz) (spc : Spc) (ga : Bool)
  | ldo (h : Hdr) (x : VOps) (sz : Sz) (spc : Spc)
  | sto (h : Hdr) (x : VOps) (sz : Sz) (spc : Spc) (ga : Bool)
  | pf (h : Hdr) (x : VOps) (sys wr : Bool)
  -- Group 9: atomics (R240 to R242)
  | atom (h : Hdr) (x : VOps) (ty : Ty) (aop : AOp) (spc : Spc) (ga : Bool)
  | ared (h : Hdr) (x : VOps) (ty : Ty) (aop : AOp) (spc : Spc) (ga : Bool)
  | acas (h : Hdr) (x : VOps) (ty : Ty) (spc : Spc) (ga : Bool)
  -- Group A: barriers and fences (R236 to R255)
  | binit (h : Hdr) (x : VOps) (gw : Bool) (scope : Scope) (keep full : Bool)
  | binitRetire (h : Hdr) (x : VOps) (gw : Bool) (scope : Scope)
  | barr (h : Hdr) (x : VOps) (gw : Bool) (rel : ArrRel)
  | bexp (h : Hdr) (x : VOps) (gw : Bool) (arr : Bool)
  | bwait (h : Hdr) (x : VOps) (gw : Bool)
  | bwaitt (h : Hdr) (x : VOps) (gw : Bool)
  | bstat (h : Hdr) (x : VOps) (gw : Bool)
  | bind (h : Hdr) (x : VOps) (gw : Bool)
  | unbind (h : Hdr) (x : VOps) (gw : Bool)
  | fence (h : Hdr) (x : VOps) (scope : Scope) (kind : Fence)
  | fencex (h : Hdr) (x : VOps) (scope : Scope)
  | fencerec (h : Hdr) (x : VOps) (gl all : Bool)
  -- Group B: copies, bobbins and drafts (R257 to R282)
  | cpy (h : Hdr) (x : VOps) (dsp ssp : CSpc) (ga sys : Bool)
  | cpyt (h : Hdr) (x : VOps) (lgw store rgl ga sys : Bool)
  | cpyg (h : Hdr) (x : VOps) (dsp ssp : CSpc) (ga sys : Bool)
  | cpyn (h : Hdr) (x : VOps) (ssp : CSpc) (sys : Bool)
  | bget (h : Hdr) (x : VOps) (gw : Bool)
  | bputGet (h : Hdr) (x : VOps) (gw : Bool)
  | bputPut (h : Hdr) (x : VOps) (gw : Bool)
  | bfree (h : Hdr) (x : VOps) (gw : Bool)
  | bbindRq (h : Hdr) (x : VOps) (gw : Bool)
  | bbindOff (h : Hdr) (x : VOps) (gw : Bool)
  | dadv (h : Hdr) (x : VOps)
  | dstat (h : Hdr) (x : VOps)
  | ckill (h : Hdr) (x : VOps) (which : Kill)
  -- Group C: matrix (R284 to R301)
  | mxm (h : Hdr) (x : VOps) (ty : Ty) (acc : Acc) (part pt solo : Bool)
  | mxc (h : Hdr) (x : VOps) (ty : Ty) (tr : Bool) (acc : Acc) (part pt solo : Bool) (konst : Konst)
  | msca (h : Hdr) (x : VOps) (ty : Ty) (pt keep : Bool) (div : Div)
  | mzero (h : Hdr) (x : VOps) (ty : Ty) (pt tile solo : Bool)
  | ldf (h : Hdr) (x : VOps) (ty : Ty) (c solo : Bool)
  | stf (h : Hdr) (x : VOps) (ty : Ty) (c solo : Bool)
  | mxrd (h : Hdr) (x : VOps) (ty : Ty) (pt keep : Bool)
  -- Group D: relay and near memory (R362 to R369)
  | relay (h : Hdr) (x : VOps)
  | nget (h : Hdr) (x : VOps) (ty : Ty)
  | nred (h : Hdr) (x : VOps) (ty : Ty) (nop : NOp)
  | ncvt (h : Hdr) (x : VOps) (ty : Ty) (ord : NOrd) (src : Ty)
  -- Group E: system (R313 to R324)
  | trapSw (h : Hdr) (x : VOps)
  | trapHset (h : Hdr) (x : VOps)
  | trapHget (h : Hdr) (x : VOps)
  | rte (h : Hdr) (x : VOps) (skip : Bool)
  | rdf (h : Hdr) (x : VOps)
  | brkHit (h : Hdr) (x : VOps)
  | brkBp (h : Hdr) (x : VOps)
  | brkWp (h : Hdr) (x : VOps)
  | setroot (h : Hdr) (x : VOps)
  | retype (h : Hdr) (x : VOps)
  | tinv (h : Hdr) (x : VOps)
  | evtack (h : Hdr) (x : VOps)
  | yld (h : Hdr) (x : VOps)
  | launch (h : Hdr) (x : VOps)
  | opreq (h : Hdr) (x : VOps)
  -- Events (spec/95)
  | killComplete (gid : Nat)
  | registerFill (id part : Nat)
  | stallDataArrival (gid wi : Nat)
  | strideSlot (core q : Nat)
  | jwaittExpiry (gid wi t : Nat)
  | bwaittExpiry (gid wi t : Nat)
  | bytesCounted (core slot : Nat) (pieces : List Nat)
  | commandEnd (core slot : Nat)
  | receiveLanding (core bind : Nat)
  | messageArrival (world queue : Nat) (sender : Nat × Word) (payload : List Byte)
  | teamCommandStart (gid team : Nat)
  | matrixCommandStart (core q id : Nat)
  | matrixCommandEnd (core q id detections : Nat)
  | storeAtHome (id part : Nat)
  | hotWordRetire (addr : Nat) (ids : List Nat)
  | invalidation (die line : Nat)
  | invalidationAck (die line : Nat)
  | storeAck (id : Nat)
  | negativeAck (id : Nat)
  | ackTimeout (id : Nat)
  | bridgeFailure (bridge : Nat) (dropped : List Nat) (cmds : List (Nat × Nat))
  | releaseMarker (id : Nat)
  | relayArrival (gid wi : Nat)
  | tableStoreAdmission (gid wi : Nat)
  | purge (slice frame : Nat)
  | tinvComplete (id : Nat)
  | setrootComplete (id : Nat)
  | retypeAtHome (id : Nat)
  | frameMigration (frame : Nat)
  | migrationSwitch (frame : Nat)
  | dispatchRound (prefs : List (List Nat))
  | launchCompletion (lid : Nat)
  | clockGate (core : Nat)
  | wake (core : Nat)
  | preemptRequest (gid : Nat) (notice : Option Nat) (frames : List Nat)
  | noticeExpiry (gid : Nat)
  | sealGang (gid : Nat)
  | resume (gid : Nat) (cores : List Nat)
  | opEvacuateScratchpad
  | opEvacuateSlices
  | opSwitch
  | rowRetire (slice : Bool) (unit row : Nat)
  | softPpr (line : Nat) (hard : Bool)
  | softPprComplete (line : Nat)
  | scrub (core : Nat) (found : List (ArrayWord × Bool))
  | patrol (line : Nat) (found : List (Nat × Bool)) (tag : Bool)
  | spareTakeover (isUnit : Bool) (part : Nat) (dead : Bool)
  | environmentalAlarm (cond die : Nat)
  | alarmResend
  | controlTakeover
  | baseRd (stack port addr len world : Nat)
  | baseWr (stack port addr len world : Nat)
  | baseWrm (stack port addr len world : Nat) (mask : TMask)
  | baseRsp (stack port tag : Nat)
  | baseAck (stack port tag : Nat)
  | flitData (link : Nat) (ok : Bool)
  | flitIdle (link : Nat) (ok : Bool)
  | flitMarker (link : Nat) (ok : Bool)
  | flitNak (link : Nat × Bool)
  | flitVoid (link : Nat) (ok : Bool)
  | keyLoad (link : Nat)
  | linkFailure (link : Nat)
  | functionLevelReset (world : Nat) (lost : List Nat)
  | queueOpen (world queue : Nat) (send : Bool) (peer : Nat) (rod : Bool)
  | queueClose (world queue : Nat) (send : Bool)
  | deviceReset
  | keysAndFill
  | imageVerify
  | resetGo
  | responseWrite (cls : BitVec 2)
  | registerWrite (addr : Nat) (val : Word)
  | attestationRequest (nonce : List Byte)
  | logHeadAdvance (die n : Nat)
  | linkTraining (link : Nat)
  | newWorldKey (world : Nat)
  | grantOwnerChange (stack grant world : Nat)
  | launchQueueWrite (world queue record : Nat) (root : Option Nat)
  | enrolment (owner port flowMin : Nat) (keyHashes : List (List Byte)) (module_ : Bool)
  deriving DecidableEq, Repr

end Sys2Proof
end

