-- ==== Sys2Proof/WellFormed.lean ====
section
/-!
DEFINITION. Which instructions a word may hold: for each instruction the operand fields it uses, their classes and widths
(spec/03 R49 to R51, R64), the modifier values its description lists (R56 to R59), the use it makes of IMM21, and who may
execute it (R62). `Instr.wf` joins the checks; Decode reports each one that fails under its own fault.
-/
namespace Sys2Proof

/-- Operand classes, codes 000 to 111 (R49). -/
inductive Cls where
  | none | m | o | l | s | sr | win | imm
  deriving DecidableEq, Repr

/-- The class an operand field holds. -/
def Opnd.cls : Opnd → Cls
  | .none => .none
  | .m _ _ => .m
  | .o _ => .o
  | .l _ => .l
  | .s _ _ => .s
  | .sr _ => .sr
  | .win _ => .win
  | .imm => .imm

/-- What an instruction makes of one operand field (R50): the classes it accepts and the registers it names. -/
inductive Use where
  | unused
  | must (cs : List Cls) (n : Nat)
  | may (cs : List Cls) (n : Nat)
  deriving DecidableEq, Repr

/-- What an instruction makes of IMM21: the value of its immediate or window operand and else zero (R50), a byte offset
(R53), or fields of its own, whose bits the mask gives. -/
inductive ImmUse where
  | value
  | offset
  | own (mask : BitVec 21)
  deriving DecidableEq, Repr

/-- The operand fields of one instruction. -/
structure Shape where
  d   : Use := .unused
  a   : Use := .unused
  b   : Use := .unused
  c   : Use := .unused
  imm : ImmUse := .value
  deriving DecidableEq, Repr

/-- Who decodes: the registers per thread of the launch, and whether it runs at firmware privilege and on a control core
(R22, R62). -/
structure DecCtx where
  n   : Nat
  fw  : Bool
  ctl : Bool
  deriving DecidableEq, Repr

namespace Cls

/-- Any source (R49). -/
def src : List Cls := [.m, .o, .l, .s, .sr, .win, .imm]
/-- Sources of a scalar-unit instruction (R64). -/
def scalarSrc : List Cls := [.s, .sr, .win, .imm]
/-- Ordinary destinations (R131). -/
def dst : List Cls := [.m, .o, .l, .s]
/-- Per-thread destinations. -/
def dstT : List Cls := [.m, .o, .l]
/-- Destinations of long-latency producers (R83). -/
def longDst : List Cls := [.m, .s]
/-- Sources of an M word, which takes no immediate or window (R53). -/
def srcM : List Cls := [.m, .o, .l, .s]
/-- Sources of an instruction that keeps fields of its own in IMM21 (R131, R236, R313). -/
def srcOwn : List Cls := [.m, .o, .l, .s, .sr]
/-- Sources of instructions that may wait, which take no o or l (R156, R258). -/
def srcWait : List Cls := [.m, .s, .sr, .win, .imm]
/-- Sources of commands with a counter in IMM21 (R258, R259). -/
def srcCmd : List Cls := [.m, .s, .sr]

end Cls

/-- Registers an operand of this type names (R56, R51). -/
def Ty.words : Ty → Nat
  | .i64 => 2
  | .ui64 => 2
  | _ => 1

/-- Registers an access of this size names (R107). -/
def Sz.words : Sz → Nat
  | .b64 => 2
  | .b128 => 4
  | _ => 1

/-- Registers the address of a space takes (R106). -/
def Spc.addrWords : Spc → Nat
  | .glDev => 2
  | .glSys => 2
  | _ => 1

/-- Registers an address takes in a copy space (R263). -/
def CSpc.addrWords : CSpc → Nat
  | .sp => 1
  | .gw => 1
  | .gl => 2
  | .bb => 2

/-- Whether the space is global. -/
def Spc.isGl : Spc → Bool
  | .glDev => true
  | .glSys => true
  | _ => false

/-- Whether a load of this space has a fixed latency (R107). -/
def Spc.fixed : Spc → Bool
  | .sp => true
  | .pw => true
  | _ => false

/-- Registers of an A or B fragment (R287). -/
def Ty.fragWords : Ty → Nat
  | .e2m1x8 => 1
  | .n8 => 1
  | .f16x2 => 4
  | .bf16x2 => 4
  | _ => 2

/-- Registers of a C group: 16-bit elements take half (R287). -/
def cWords (half solo : Bool) : Nat :=
  match half, solo with
  | false, false => 32
  | true, false => 16
  | false, true => 8
  | true, true => 4

/-- Whether an accumulator format is 16 bits wide. -/
def Acc.half : Acc → Bool
  | .af16 => true
  | .abf16 => true
  | _ => false

/-- Whether a C group of this type packs two elements a register. -/
def Ty.half : Ty → Bool
  | .f16x2 => true
  | .bf16x2 => true
  | _ => false

namespace Shape

/-- The classes left to sources once the destination is known: a scalar destination admits only scalar sources (R64). -/
def srcs (d : Opnd) (cs : List Cls) : List Cls :=
  if d.cls = .s then cs.filter (Cls.scalarSrc.contains ·) else cs

/-- An arithmetic form with n source fields of the given widths. -/
def arith (d : Opnd) (dw : Nat) (ws : List Nat) (ds : List Cls := Cls.dst) (ss : List Cls := Cls.src) : Shape :=
  let f := fun k => match ws[k]? with | some w => Use.must (srcs d ss) w | none => .unused
  { d := .must ds dw, a := f 0, b := f 1, c := f 2 }

/-- A compare: no destination register (R99). -/
def compare (w : Nat) : Shape := { a := .must Cls.src w, b := .must Cls.src w }

/-- The membership field of a synchronising instruction (R156). -/
def member (full : Bool) : Use := if full then .unused else .must [.m, .s] 4

/-- The four own bits of a command counter and of the matrix counter are its whole field (R259). -/
def counterMask (imm : BitVec 21) : BitVec 21 :=
  if imm.getLsbD 20 then (if imm.getLsbD 19 then 0x1FFFFC else 0x19FFFC) else 0

/-- A barrier instruction on the object at A (R245). -/
def barrier (d : Opnd) (ud ub uc : Use) : Shape :=
  let f := fun u => match u with
    | Use.must cs n => Use.must (srcs d cs) n
    | Use.may cs n => Use.may (srcs d cs) n
    | Use.unused => Use.unused
  { d := ud, a := .must (srcs d Cls.src) 1, b := f ub, c := f uc }

/-- A bobbin instruction on the descriptor at A (R274, R258). -/
def bobbin (d : Opnd) (ud ub : Use) : Shape :=
  let f := fun u => match u with
    | Use.must cs n => Use.must (srcs d cs) n
    | Use.may cs n => Use.may (srcs d cs) n
    | Use.unused => Use.unused
  { d := ud, a := .must (srcs d Cls.srcWait) 1, b := f ub }

/-- The width of the record field that rdf names: 0 where SEL is reserved (R309). -/
def rdfWords (imm : BitVec 21) : Nat :=
  match imm.toNat % 32 with
  | 0 | 1 | 2 | 3 | 6 => 1
  | 4 => 2
  | 5 => 4
  | k => if 8 ≤ k ∧ k ≤ 17 then 1 else 0

end Shape

open Cls Shape in
/-- The fields of each instruction; an event has none. -/
def Instr.shape : Instr → Shape
  -- group 0, R84
  | .bra _ _ => {}
  | .brx _ _ => { a := .must [.m, .o, .l, .s] 2 }
  | .call _ _ => { d := .may [.m, .o, .l] 2 }
  | .callx _ _ => { d := .may [.m, .o, .l] 2, a := .must [.m, .o, .l, .s] 2 }
  | .ret _ _ => {}
  | .loopd _ _ => { a := .must [.m, .s] 1 }
  | .exit _ _ => {}
  | .nop _ _ => {}
  -- group 1, R91
  | .iadd _ x t _ => arith x.d t.words [t.words, t.words]
  | .isub _ x t _ => arith x.d t.words [t.words, t.words]
  | .iaddc _ x t _ _ => arith x.d t.words [t.words, t.words]
  | .isubb _ x t _ _ => arith x.d t.words [t.words, t.words]
  | .imul _ x t => arith x.d t.words [t.words, t.words]
  | .imulh _ x t => arith x.d t.words [t.words, t.words]
  | .imad _ x t => arith x.d t.words [t.words, t.words, t.words]
  | .imad64 _ x _ => arith x.d 2 [1, 1, 2]
  | .iabs _ x t _ => arith x.d t.words [t.words]
  | .imin _ x t => arith x.d t.words [t.words, t.words]
  | .imax _ x t => arith x.d t.words [t.words, t.words]
  | .lea _ x t _ => arith x.d 2 [2, t.words]
  | .idiv _ x t => arith x.d t.words [t.words, t.words] longDst
  | .irem _ x t => arith x.d t.words [t.words, t.words] longDst
  -- group 2, R95
  | .and _ x t => arith x.d t.words [t.words, t.words]
  | .or _ x t => arith x.d t.words [t.words, t.words]
  | .xor _ x t => arith x.d t.words [t.words, t.words]
  | .andn _ x t => arith x.d t.words [t.words, t.words]
  | .lmux _ x t _ _ => arith x.d t.words [t.words, t.words, t.words]
  | .shl _ x t => arith x.d t.words [t.words, 1]
  | .shr _ x t => arith x.d t.words [t.words, 1]
  | .sar _ x t => arith x.d t.words [t.words, 1]
  | .rotl _ x t => arith x.d t.words [t.words, 1]
  | .fsh _ x t => arith x.d t.words [t.words, t.words, 1]
  | .bfx _ x t => arith x.d t.words [t.words, 1]
  | .bfi _ x t => arith x.d t.words [t.words, t.words, 1]
  | .popc _ x t => arith x.d 1 [t.words]
  | .clz _ x t => arith x.d 1 [t.words]
  | .brev _ x t => arith x.d t.words [t.words]
  | .bperm _ x _ => arith x.d 1 [1, 1, 1]
  -- group 3, R99 to R105
  | .icmp _ _ t _ _ _ => compare t.words
  | .ucmp _ _ t _ _ _ => compare t.words
  | .fcmp _ _ _ _ _ => compare 1
  | .gop _ _ => { imm := .own 0xFFFFF }
  | .gpack _ _ => { d := .must dstT 1 }
  | .gunpk _ _ => { a := .must src 1 }
  | .sel _ x t _ _ => arith x.d t.words [t.words, t.words]
  | .mov _ x t => arith x.d t.words [t.words]
  | .movi _ _ => { d := .must dst 1 }
  | .movsp _ x => arith x.d 1 [1]
  | .wrsp _ _ => { d := .must [.sr] 1, a := .must src 1 }
  -- group 4, R133
  | .fadd _ x _ => arith x.d 1 [1, 1]
  | .fsub _ x _ => arith x.d 1 [1, 1]
  | .fmul _ x _ => arith x.d 1 [1, 1]
  | .ffma _ x _ => arith x.d 1 [1, 1, 1]
  | .fmin _ x => arith x.d 1 [1, 1]
  | .fmax _ x => arith x.d 1 [1, 1]
  | .fdiv _ x _ => arith x.d 1 [1, 1]
  | .frcp _ x _ => arith x.d 1 [1]
  | .fsqrt _ x _ => arith x.d 1 [1]
  | .frsq _ x _ => arith x.d 1 [1]
  | .fexp2 _ x _ => arith x.d 1 [1]
  | .flog2 _ x _ => arith x.d 1 [1]
  | .frnd _ x _ => arith x.d 1 [1]
  | .fclass _ x => arith x.d 1 [1]
  | .fscale _ x _ => arith x.d 1 [1, 1]
  | .hadd2 _ x _ _ => arith x.d 1 [1, 1]
  | .hmul2 _ x _ _ => arith x.d 1 [1, 1]
  | .hfma2 _ x _ _ => arith x.d 1 [1, 1, 1]
  | .hmin2 _ x _ => arith x.d 1 [1, 1]
  | .hmax2 _ x _ => arith x.d 1 [1, 1]
  -- group 5, R138
  | .vadd2 _ x _ _ => arith x.d 1 [1, 1]
  | .vsub2 _ x _ _ => arith x.d 1 [1, 1]
  | .vmin2 _ x _ => arith x.d 1 [1, 1]
  | .vmax2 _ x _ => arith x.d 1 [1, 1]
  | .vabsd2 _ x _ => arith x.d 1 [1, 1]
  | .acs2 _ x _ => arith x.d 1 [1, 1, 1] dstT
  | .vadd4 _ x _ _ => arith x.d 1 [1, 1]
  | .vsub4 _ x _ _ => arith x.d 1 [1, 1]
  | .vmin4 _ x _ => arith x.d 1 [1, 1]
  | .vmax4 _ x _ => arith x.d 1 [1, 1]
  | .dot4 _ x _ _ => { arith x.d 1 [1, 1] with c := .may (srcs x.d src) 1 }
  | .dot8 _ x _ _ => { arith x.d 1 [1, 1] with c := .may (srcs x.d src) 1 }
  -- group 6, R142 to R151
  | .cvt _ x t f _ => arith x.d t.words [f.words]
  | .cvtp _ x _ _ =>
      { arith x.d 1 [1, 1] dst srcOwn with c := .may (srcs x.d srcOwn) 1, imm := .own 0x3 }
  | .cvtn _ x _ _ _ => arith x.d 1 [1, 1]
  | .cvtw _ x _ _ => { arith x.d 1 [1] dst srcOwn with imm := .own 0x7 }
  | .hqs _ x _ n => { arith x.d 1 [1] dstT with b := if n then .must src 1 else .unused }
  | .hq _ x _ n =>
      { arith x.d 1 [1] dstT srcOwn with b := if n then .must srcOwn 1 else .unused, c := .must srcOwn 1, imm := .own 0x7 }
  | .hdq _ _ _ n _ =>
      { d := .must dstT (if n then 2 else 1), a := .must srcOwn 1, c := .must srcOwn 1, imm := .own 0x7 }
  | .scl _ x _ _ _ => { d := .must dst 1, a := .must (srcs x.d src) 1, c := .must (srcs x.d src) 1 }
  -- group 7, R160 to R167
  | .shfl _ _ t _ fl =>
      { d := .must dstT t.words, a := .must [.m, .s, .sr] t.words, b := .must [.m, .s, .win, .imm] 1, c := member fl }
  | .shflw _ _ t _ fl =>
      { d := .must dstT t.words, a := .must [.m, .s, .sr] t.words, b := .must [.m, .s, .win, .imm] 1, c := member fl }
  | .vote _ _ md fl =>
      { d := .must (if fl then dst else dstT) (if md = .mask then 4 else 1), c := member fl, imm := .own 0xF }
  | .wsync _ _ fl => { c := member fl }
  | .rdx _ x _ _ fl =>
      { d := .must (if fl && x.imm.getLsbD 0 then dst else dstT) 1, a := .must [.m, .s, .sr] 1, c := member fl,
        imm := .own 0x1 }
  | .join _ _ _ _ => {}
  | .jwait _ _ _ => {}
  | .jwaitt _ _ _ => { d := .must [.m] 1, a := .must [.m, .s, .win, .imm] 1 }
  | .jget _ _ _ => { d := .must [.m, .s, .o] 4 }
  | .jset _ _ _ => { a := .must [.s] 4 }
  | .bcast _ _ t fl => { d := .must [.s] t.words, a := .must [.m, .sr] t.words, b := .must [.s, .imm] 1, c := member fl }
  | .vread _ _ t fl =>
      { d := .must dstT t.words, a := .must [.m, .sr] t.words, b := .must [.m, .s, .imm] 1, c := member fl }
  -- group 8, R106 to R109, R235
  | .ld _ x sz spc _ =>
      { d := .must (if spc.fixed then dst else longDst) sz.words, a := .must (srcs x.d srcM) spc.addrWords, imm := .offset }
  | .st _ _ sz spc _ => { a := .must srcM spc.addrWords, b := .must srcM sz.words, imm := .offset }
  | .ldo _ x sz spc =>
      { d := .must (if spc.fixed then dst else longDst) sz.words, a := .must (srcs x.d srcM) spc.addrWords, imm := .offset }
  | .sto _ _ sz spc _ => { a := .must srcM spc.addrWords, b := .must srcM sz.words, imm := .offset }
  | .pf _ _ _ _ => { a := .must srcM 2, imm := .offset }
  -- group 9, R240
  | .atom _ x t _ spc _ =>
      { d := .must (if spc.fixed then dst else longDst) t.words, a := .must (srcs x.d srcM) spc.addrWords,
        b := .must (srcs x.d srcOwn) t.words, imm := .offset }
  | .ared _ _ t _ spc _ => { a := .must srcM spc.addrWords, b := .must srcOwn t.words, imm := .offset }
  | .acas _ x t spc _ =>
      { d := .must (if spc.fixed then dst else longDst) t.words, a := .must (srcs x.d srcM) spc.addrWords,
        b := .must (srcs x.d srcOwn) t.words, c := .must (srcs x.d srcOwn) t.words, imm := .offset }
  -- group A, R237 to R251
  | .binit _ x _ _ _ fl =>
      barrier x.d (.must longDst 1) (.must src 2) (if fl then .unused else .must [.m, .s] 4)
  | .binitRetire _ x _ _ => barrier x.d (.must longDst 1) .unused .unused
  | .barr _ x _ _ => barrier x.d (.may longDst 1) .unused .unused
  | .bexp _ x _ _ => barrier x.d (.may longDst 1) (.must src 1) .unused
  | .bwait _ x _ => barrier x.d (.must [.m] 1) (.must src 1) .unused
  | .bwaitt _ x _ => barrier x.d (.must [.m] 1) (.must src 1) (.must src 1)
  | .bstat _ x gw =>
      { barrier x.d (.must (if gw then longDst else dst) 1) .unused .unused with
        a := .must (srcs x.d srcOwn) 1, imm := .own 0xF }
  | .bind _ x _ =>
      { barrier x.d .unused .unused .unused with
        a := .must srcOwn 1,
        b := .must srcOwn (if x.imm.extractLsb' 1 2 = 2 then 2 else 1),
        c := .must srcOwn 1, imm := .own 0x7 }
  | .unbind _ _ _ => { a := .must srcOwn 1, imm := .own 0x3 }
  | .fence _ _ _ _ => {}
  | .fencex _ _ _ => { imm := .own 0x3FF }
  | .fencerec _ _ gl all => if all then {} else { a := .must src (if gl then 2 else 1) }
  -- group B, R264 to R282
  | .cpy _ x ds ss _ _ =>
      { d := .must longDst 1, a := .must (srcs x.d srcCmd) ds.addrWords, b := .must (srcs x.d srcCmd) ss.addrWords,
        c := .must (srcs x.d srcCmd) 1, imm := .own (counterMask x.imm) }
  | .cpyt _ x _ _ rgl _ _ =>
      { d := .must longDst 1, a := .must (srcs x.d srcCmd) (if rgl then 2 else 1), b := .must (srcs x.d srcCmd) 1,
        c := .may (srcs x.d [.m, .s]) 4, imm := .own (counterMask x.imm) }
  | .cpyg _ x ds _ _ _ =>
      { d := .must longDst 1, a := .must (srcs x.d srcCmd) ds.addrWords, b := .must (srcs x.d srcCmd) 1,
        c := .must (srcs x.d srcCmd) 1, imm := .own (counterMask x.imm) }
  | .cpyn _ x ss _ =>
      { d := .must longDst 1, a := .must (srcs x.d srcCmd) 1, b := .must (srcs x.d srcCmd) ss.addrWords,
        c := .must (srcs x.d srcCmd) 1, imm := .own (counterMask x.imm) }
  | .bget _ x _ => bobbin x.d (.must longDst 2) (.must srcWait 1)
  | .bputGet _ x _ => bobbin x.d (.must longDst 2) (.must srcWait 1)
  | .bputPut _ x _ => bobbin x.d .unused (.must srcWait 1)
  | .bfree _ x _ => bobbin x.d .unused .unused
  | .bbindRq _ x _ => bobbin x.d (.must longDst 1) (.must srcWait 1)
  | .bbindOff _ x _ => bobbin x.d (.must longDst 1) .unused
  | .dadv _ _ => { d := .may longDst 1 }
  | .dstat _ _ => { d := .must dst 1 }
  | .ckill _ _ _ => { d := .must longDst 1 }
  -- group C, R288 to R296
  | .mxm _ x t acc part _ solo =>
      { d := if part then .unused else .must [.m] (cWords acc.half solo), a := .must [.m] t.fragWords,
        b := .must [.m] t.fragWords, imm := .own (counterMask x.imm) }
  | .mxc _ x t _ acc part _ solo k =>
      { d := if part then .unused else .must [.m] (cWords acc.half solo), a := .must [.m] t.fragWords,
        b := if k = .perm then .must [.s] 1 else .unused, imm := .own (counterMask x.imm) }
  | .msca _ x t _ _ _ =>
      { d := .must [.m] (cWords t.half false), a := .must [.s] 1, b := .must [.s] 1, imm := .own (counterMask x.imm) }
  | .mzero _ x t _ tile solo =>
      { d := if tile then .unused else .must [.m] (cWords t.half solo), imm := .own (counterMask x.imm) }
  | .ldf _ _ t c solo =>
      { d := .must [.m] (if c then cWords t.half solo else t.fragWords), a := .must [.s] 1, c := .may [.s] 1,
        imm := .offset }
  | .stf _ _ t c solo =>
      { a := .must [.s] 1, b := .must [.m] (if c then cWords t.half solo else t.fragWords), c := .may [.s] 1,
        imm := .offset }
  | .mxrd _ x t _ _ => { d := .must [.m] (cWords t.half false), imm := .own (counterMask x.imm) }
  -- group D, R362, R367
  | .relay _ x => { d := .must longDst 1, a := .must (srcs x.d [.m, .l, .s]) 2 }
  | .nget _ x _ => { d := .must longDst 1, a := .must (srcs x.d srcOwn) 1, imm := .own (counterMask x.imm) }
  | .nred _ x _ _ => { d := .must longDst 1, a := .must (srcs x.d srcOwn) 1, imm := .own (counterMask x.imm) }
  | .ncvt _ x _ _ _ => { d := .must longDst 1, a := .must (srcs x.d srcOwn) 1, imm := .own (counterMask x.imm) }
  -- group E, R313
  | .trapSw _ _ => { imm := .own 0xFFF }
  | .trapHset _ _ => { a := .must scalarSrc 2 }
  | .trapHget _ _ => { d := .must dst 2 }
  | .rte _ _ _ => {}
  | .rdf _ x =>
      let n := rdfWords x.imm
      { d := .must (if n = 4 then [.m, .o, .s] else if n = 2 ∨ x.imm = 6 then dst else dstT) (max n 1),
        imm := .own 0x1F }
  | .brkHit _ _ => { imm := .own 0xFFFF }
  | .brkBp _ _ => { a := .must [.s] 2, imm := .own 0x3 }
  | .brkWp _ _ => { a := .must [.s] 2, b := .must [.s, .sr] 1, imm := .own 0xD }
  | .setroot _ x => { d := .must longDst 1, a := .must (srcs x.d src) 1 }
  | .retype _ x =>
      { d := .must longDst 1, a := .must (srcs x.d src) 1, b := .must (srcs x.d src) 1, c := .may (srcs x.d src) 1 }
  | .tinv _ x => { d := .must longDst 1, a := .must (srcs x.d src) 1, b := .must (srcs x.d src) 1 }
  | .evtack _ x => { d := .may dst 1, a := .must (if x.d.cls = .s || x.d.cls = .none then scalarSrc else src) 1 }
  | .yld _ _ => {}
  | .launch _ x => { d := .must longDst 1, a := .must (srcs x.d src) 2, b := .must (srcs x.d src) 1 }
  | .opreq _ x => { d := .must longDst 1, a := .must (srcs x.d src) 1 }
  | _ => {}

/-- Integer types of groups 1 to 3 (R82). -/
def Ty.isInt : Ty → Bool
  | .w32 | .uw32 | .i64 | .ui64 => true
  | _ => false

/-- The input types of mxm (R290) and of fragments (R296). -/
def Ty.isFrag : Ty → Bool
  | .e4m3x4 | .e5m2x4 | .e2m1x8 | .b4 | .ub4 | .n8 | .f16x2 | .bf16x2 => true
  | _ => false

/-- Elements of a packed type (R56). -/
def Ty.elems : Ty → Nat
  | .h2 | .uh2 | .f16x2 | .bf16x2 => 2
  | .b4 | .ub4 | .e4m3x4 | .e5m2x4 => 4
  | .n8 | .e2m1x8 => 8
  | _ => 1

/-- The types cvt converts between (R142). -/
def Ty.isCvt : Ty → Bool
  | .w32 | .uw32 | .i64 | .ui64 | .f32 | .s24 => true
  | _ => false

/-- Integer types of any shape: conversions between them do not round (R142 to R145). -/
def Ty.isInteger : Ty → Bool
  | .w32 | .uw32 | .i64 | .ui64 | .h2 | .uh2 | .b4 | .ub4 | .n8 => true
  | _ => false

/-- The FROM and TYPE pairs of cvtn (R144). -/
def cvtnPair (src ty : Ty) : Bool :=
  match src, ty with
  | .f16x2, .e4m3x4 | .f16x2, .e5m2x4 | .bf16x2, .e4m3x4 | .bf16x2, .e5m2x4 => true
  | .e4m3x4, .e2m1x8 | .e5m2x4, .e2m1x8 => true
  | .h2, .b4 | .uh2, .ub4 | .b4, .n8 => true
  | _, _ => false

/-- The FROM and TYPE pairs of cvtw (R145). -/
def cvtwPair (src ty : Ty) : Bool :=
  match src, ty with
  | .e4m3x4, .f16x2 | .e4m3x4, .bf16x2 | .e4m3x4, .f32 => true
  | .e5m2x4, .f16x2 | .e5m2x4, .bf16x2 | .e5m2x4, .f32 => true
  | .e2m1x8, .e4m3x4 | .e2m1x8, .f16x2 | .e2m1x8, .bf16x2 | .e2m1x8, .f32 => true
  | .f16x2, .f32 | .bf16x2, .f32 => true
  | .n8, .b4 | .n8, .h2 | .n8, .w32 => true
  | .b4, .h2 | .b4, .w32 | .ub4, .uh2 | .ub4, .uw32 => true
  | .h2, .w32 | .uh2, .uw32 => true
  | _, _ => false

/-- The TYPE and BT pairs of dot4 and dot8 (R141). -/
def dotPair (eight : Bool) (ty bt : Ty) : Bool :=
  match eight, ty, bt with
  | false, .b4, .b4 | false, .b4, .ub4 | false, .ub4, .b4 | false, .ub4, .ub4 => true
  | false, .e4m3x4, .e4m3x4 | false, .e4m3x4, .e5m2x4 | false, .e5m2x4, .e4m3x4 | false, .e5m2x4, .e5m2x4 => true
  | true, .n8, .n8 | true, .e2m1x8, .e2m1x8 => true
  | _, _, _ => false

/-- Whether the space is one that thread stores and atomics accept (R58, R106). -/
def Spc.storable (spc : Spc) (ga : Bool) : Bool :=
  match spc with
  | .pw => false
  | .glDev | .glSys => true
  | _ => !ga

/-- The combinations of R290. -/
def mxOk (ty : Ty) (acc : Acc) (part pt solo : Bool) : Bool :=
  (match ty with
    | .e4m3x4 | .e5m2x4 | .e2m1x8 => if part then acc = .af32 else acc != .aw32
    | .b4 | .ub4 | .n8 => if part then acc = .af32 else acc = .aw32
    | .f16x2 | .bf16x2 => !part && acc = .af32
    | _ => false) && !(part && solo) && (part || !pt)

/-- Floating and packed types that atomics accept (R240). -/
def atOk (ty : Ty) (op : AOp) : Bool :=
  match op with
  | .and | .or | .xor | .incw => ty.isInt
  | _ => ty.isInt || ty = .f32 || ty = .f16x2 || ty = .bf16x2

/-- Whether the modifiers are ones the instruction's description lists. PT of an mzero without `.tile`, SPACE of a fencerec.all, which
names no record, SCOPE of a binit.retire, which makes no object, and SYS of a cpy, cpyg or cpyn with no gl side may have either value:
whether R59 asks them zero is open (DESIGN CHOICE, log entry 103). -/
def Instr.modsOk : Instr → Bool
  | .iadd _ _ t _ | .isub _ _ t _ | .iaddc _ _ t _ _ | .isubb _ _ t _ _ => t.isInt
  | .imul _ _ t | .imulh _ _ t | .imad _ _ t | .imin _ _ t | .imax _ _ t => t.isInt
  | .lea _ _ t _ | .idiv _ _ t | .irem _ _ t => t.isInt
  | .imad64 _ _ t => t = .w32 || t = .uw32
  | .iabs _ _ t _ => t = .w32 || t = .i64
  | .and _ _ t | .or _ _ t | .xor _ _ t | .andn _ _ t | .lmux _ _ t _ _ => t.isInt
  | .shl _ _ t | .shr _ _ t | .sar _ _ t | .rotl _ _ t | .fsh _ _ t | .bfx _ _ t | .bfi _ _ t => t.isInt
  | .popc _ _ t | .clz _ _ t | .brev _ _ t => t.isInt
  | .bperm _ _ t => t = .w32 || t = .uw32
  | .icmp _ _ t c _ _ => (t = .w32 || t = .i64) && c != .un && c != .ord
  | .ucmp _ _ t c _ _ => (t = .uw32 || t = .ui64) && c != .un && c != .ord
  | .sel _ _ t _ _ | .mov _ _ t => t.isInt
  | .hadd2 _ _ t _ | .hmul2 _ _ t _ | .hfma2 _ _ t _ | .hmin2 _ _ t | .hmax2 _ _ t => t = .f16x2 || t = .bf16x2
  | .vadd2 _ _ t _ | .vsub2 _ _ t _ | .vmin2 _ _ t | .vmax2 _ _ t | .vabsd2 _ _ t | .acs2 _ _ t => t = .h2 || t = .uh2
  | .vadd4 _ _ t _ | .vsub4 _ _ t _ | .vmin4 _ _ t | .vmax4 _ _ t => t = .b4 || t = .ub4
  | .dot4 _ _ t bt => bt != some .w32 && dotPair false t (bt.getD t)
  | .dot8 _ _ t bt => bt != some .w32 && dotPair true t (bt.getD t)
  | .cvt _ _ t f r =>
      t.isCvt && f.isCvt && t != f && ((t.isInteger && f.isInteger || f = .s24 && t = .f32) → r = .rne)
  | .cvtp _ _ t r =>
      match t with
      | .f16x2 | .bf16x2 | .e4m3x4 | .e5m2x4 | .e2m1x8 => true
      | .h2 | .uh2 | .b4 | .ub4 | .n8 => r = .rne
      | _ => false
  | .cvtn _ _ t f r => cvtnPair f t && (t.isInteger → r = .rne)
  | .cvtw _ _ t f => cvtwPair f t
  | .hqs _ _ t _ | .hq _ _ t _ | .hdq _ _ t _ _ => t = .e4m3x4 || t = .e5m2x4 || t = .e2m1x8
  | .scl _ _ t _ _ => t = .f32 || t = .s24
  | .shfl _ _ t _ _ => t = .w32 || t = .i64
  | .shflw _ _ t m _ => (t = .w32 || t = .i64) && m != .seg
  | .rdx _ _ t o _ => t = .w32 || t = .uw32 || (t = .f32 && (o = .add || o = .min || o = .max))
  | .bcast _ _ t _ | .vread _ _ t _ => t = .w32 || t = .i64
  | .ld _ _ _ spc win => spc = .pw || win = 0
  | .st _ _ sz spc ga => sz != .b8s && sz != .b16s && spc.storable ga
  | .ldo _ _ sz spc => (sz = .b32 || sz = .b64) && spc != .pw
  | .sto _ _ sz spc ga => (sz = .b32 || sz = .b64) && spc.storable ga
  | .atom _ _ t o spc ga => atOk t o && spc.storable ga
  | .ared _ _ t o spc ga => atOk t o && o != .xchg && spc.storable ga
  | .acas _ _ t spc ga => t.isInt && spc.storable ga
  | .cpy _ _ ds _ ga _ | .cpyg _ _ ds _ ga _ => ga → ds = .gl
  | .cpyt _ _ _ store _ ga _ => ga → store
  | .mxm _ _ t acc part pt solo => mxOk t acc part pt solo
  | .mxc _ _ t tr acc part pt solo k => mxOk t acc part pt solo && (tr → k != .ones && !part)
  | .msca _ _ t _ _ _ => t = .f32 || t = .f16x2 || t = .bf16x2
  | .mzero _ _ t _ tile solo =>
      (t = .f32 || t = .f16x2 || t = .bf16x2 || t = .w32) && !(tile && solo)
  | .mxrd _ _ t _ _ => t = .f32 || t = .f16x2 || t = .bf16x2 || t = .w32
  | .ldf _ _ t c solo | .stf _ _ t c solo =>
      if c then t = .f32 || t = .w32 || t = .f16x2 || t = .bf16x2 else t.isFrag && !solo
  | .nget _ _ t => t = .w32 || t = .i64
  | .nred _ _ t _ => t = .w32 || t = .uw32 || t = .f32 || t = .f16x2 || t = .bf16x2
  | .ncvt _ _ t o f =>
      (f = .f32 || f = .f16x2 || f = .bf16x2) &&
        (match t with
          | .f32 | .f16x2 | .bf16x2 => o = .none
          | .e4m3x4 | .e5m2x4 | .e2m1x8 => true
          | _ => false)
  | _ => true

/-- Whether the fields an instruction keeps in IMM21 hold values its description allows. -/
def Instr.immOk : Instr → Bool
  | .cvtp _ x t _ => (x.imm.extractLsb' 0 2).toNat < t.elems / 2
  | .cvtw _ x t f => ((x.imm.extractLsb' 0 3).toNat + 1) * t.elems ≤ f.elems
  | .hq _ x t n | .hdq _ x t n _ => ((x.imm.extractLsb' 0 3).toNat + 1) * (if n then 2 else 1) ≤ t.elems
  | .bstat _ x _ => x.imm.getLsbD 3 → (x.imm.extractLsb' 0 3 = 4 || x.imm.extractLsb' 0 3 = 5)
  | .bind _ x _ => x.imm.extractLsb' 1 2 != 3
  | .unbind _ x _ => x.imm.extractLsb' 0 2 != 3
  | .fencex _ x _ => x.imm.extractLsb' 0 5 != 0 && x.imm.extractLsb' 5 5 != 0
  | .rdf _ x => Shape.rdfWords x.imm != 0
  | _ => true

/-- The header and operand fields D, A, B and C of an instruction; an event has none. -/
def Instr.opnds : Instr → Option (Hdr × Opnd × Opnd × Opnd × Opnd)
  | .bra h x => some (h, x.d, x.a, .none, .none)
  | .brx h x => some (h, x.d, x.a, x.b, x.c)
  | .call h x => some (h, x.d, x.a, .none, .none)
  | .callx h x => some (h, x.d, x.a, x.b, x.c)
  | .ret h x => some (h, x.d, x.a, x.b, x.c)
  | .loopd h x => some (h, x.d, x.a, .none, .none)
  | .exit h x => some (h, x.d, x.a, x.b, x.c)
  | .nop h x => some (h, x.d, x.a, x.b, x.c)
  | .iadd h x _ _ => some (h, x.d, x.a, x.b, x.c)
  | .isub h x _ _ => some (h, x.d, x.a, x.b, x.c)
  | .iaddc h x _ _ _ => some (h, x.d, x.a, x.b, x.c)
  | .isubb h x _ _ _ => some (h, x.d, x.a, x.b, x.c)
  | .imul h x _ => some (h, x.d, x.a, x.b, x.c)
  | .imulh h x _ => some (h, x.d, x.a, x.b, x.c)
  | .imad h x _ => some (h, x.d, x.a, x.b, x.c)
  | .imad64 h x _ => some (h, x.d, x.a, x.b, x.c)
  | .iabs h x _ _ => some (h, x.d, x.a, x.b, x.c)
  | .imin h x _ => some (h, x.d, x.a, x.b, x.c)
  | .imax h x _ => some (h, x.d, x.a, x.b, x.c)
  | .lea h x _ _ => some (h, x.d, x.a, x.b, x.c)
  | .idiv h x _ => some (h, x.d, x.a, x.b, x.c)
  | .irem h x _ => some (h, x.d, x.a, x.b, x.c)
  | .and h x _ => some (h, x.d, x.a, x.b, x.c)
  | .or h x _ => some (h, x.d, x.a, x.b, x.c)
  | .xor h x _ => some (h, x.d, x.a, x.b, x.c)
  | .andn h x _ => some (h, x.d, x.a, x.b, x.c)
  | .lmux h x _ _ _ => some (h, x.d, x.a, x.b, x.c)
  | .shl h x _ => some (h, x.d, x.a, x.b, x.c)
  | .shr h x _ => some (h, x.d, x.a, x.b, x.c)
  | .sar h x _ => some (h, x.d, x.a, x.b, x.c)
  | .rotl h x _ => some (h, x.d, x.a, x.b, x.c)
  | .fsh h x _ => some (h, x.d, x.a, x.b, x.c)
  | .bfx h x _ => some (h, x.d, x.a, x.b, x.c)
  | .bfi h x _ => some (h, x.d, x.a, x.b, x.c)
  | .popc h x _ => some (h, x.d, x.a, x.b, x.c)
  | .clz h x _ => some (h, x.d, x.a, x.b, x.c)
  | .brev h x _ => some (h, x.d, x.a, x.b, x.c)
  | .bperm h x _ => some (h, x.d, x.a, x.b, x.c)
  | .icmp h x _ _ _ _ => some (h, x.d, x.a, x.b, x.c)
  | .ucmp h x _ _ _ _ => some (h, x.d, x.a, x.b, x.c)
  | .fcmp h x _ _ _ => some (h, x.d, x.a, x.b, x.c)
  | .gop h x => some (h, x.d, x.a, x.b, x.c)
  | .gpack h x => some (h, x.d, x.a, x.b, x.c)
  | .gunpk h x => some (h, x.d, x.a, x.b, x.c)
  | .sel h x _ _ _ => some (h, x.d, x.a, x.b, x.c)
  | .mov h x _ => some (h, x.d, x.a, x.b, x.c)
  | .movi h x => some (h, x.d, .none, .none, .none)
  | .movsp h x => some (h, x.d, x.a, x.b, x.c)
  | .wrsp h x => some (h, x.d, x.a, x.b, x.c)
  | .fadd h x _ => some (h, x.d, x.a, x.b, x.c)
  | .fsub h x _ => some (h, x.d, x.a, x.b, x.c)
  | .fmul h x _ => some (h, x.d, x.a, x.b, x.c)
  | .ffma h x _ => some (h, x.d, x.a, x.b, x.c)
  | .fmin h x => some (h, x.d, x.a, x.b, x.c)
  | .fmax h x => some (h, x.d, x.a, x.b, x.c)
  | .fdiv h x _ => some (h, x.d, x.a, x.b, x.c)
  | .frcp h x _ => some (h, x.d, x.a, x.b, x.c)
  | .fsqrt h x _ => some (h, x.d, x.a, x.b, x.c)
  | .frsq h x _ => some (h, x.d, x.a, x.b, x.c)
  | .fexp2 h x _ => some (h, x.d, x.a, x.b, x.c)
  | .flog2 h x _ => some (h, x.d, x.a, x.b, x.c)
  | .frnd h x _ => some (h, x.d, x.a, x.b, x.c)
  | .fclass h x => some (h, x.d, x.a, x.b, x.c)
  | .fscale h x _ => some (h, x.d, x.a, x.b, x.c)
  | .hadd2 h x _ _ => some (h, x.d, x.a, x.b, x.c)
  | .hmul2 h x _ _ => some (h, x.d, x.a, x.b, x.c)
  | .hfma2 h x _ _ => some (h, x.d, x.a, x.b, x.c)
  | .hmin2 h x _ => some (h, x.d, x.a, x.b, x.c)
  | .hmax2 h x _ => some (h, x.d, x.a, x.b, x.c)
  | .vadd2 h x _ _ => some (h, x.d, x.a, x.b, x.c)
  | .vsub2 h x _ _ => some (h, x.d, x.a, x.b, x.c)
  | .vmin2 h x _ => some (h, x.d, x.a, x.b, x.c)
  | .vmax2 h x _ => some (h, x.d, x.a, x.b, x.c)
  | .vabsd2 h x _ => some (h, x.d, x.a, x.b, x.c)
  | .acs2 h x _ => some (h, x.d, x.a, x.b, x.c)
  | .vadd4 h x _ _ => some (h, x.d, x.a, x.b, x.c)
  | .vsub4 h x _ _ => some (h, x.d, x.a, x.b, x.c)
  | .vmin4 h x _ => some (h, x.d, x.a, x.b, x.c)
  | .vmax4 h x _ => some (h, x.d, x.a, x.b, x.c)
  | .dot4 h x _ _ => some (h, x.d, x.a, x.b, x.c)
  | .dot8 h x _ _ => some (h, x.d, x.a, x.b, x.c)
  | .cvt h x _ _ _ => some (h, x.d, x.a, x.b, x.c)
  | .cvtp h x _ _ => some (h, x.d, x.a, x.b, x.c)
  | .cvtn h x _ _ _ => some (h, x.d, x.a, x.b, x.c)
  | .cvtw h x _ _ => some (h, x.d, x.a, x.b, x.c)
  | .hqs h x _ _ => some (h, x.d, x.a, x.b, x.c)
  | .hq h x _ _ => some (h, x.d, x.a, x.b, x.c)
  | .hdq h x _ _ _ => some (h, x.d, x.a, x.b, x.c)
  | .scl h x _ _ _ => some (h, x.d, x.a, x.b, x.c)
  | .shfl h x _ _ _ => some (h, x.d, x.a, x.b, x.c)
  | .shflw h x _ _ _ => some (h, x.d, x.a, x.b, x.c)
  | .vote h x _ _ => some (h, x.d, x.a, x.b, x.c)
  | .wsync h x _ => some (h, x.d, x.a, x.b, x.c)
  | .rdx h x _ _ _ => some (h, x.d, x.a, x.b, x.c)
  | .join h x _ _ => some (h, x.d, x.a, x.b, x.c)
  | .jwait h x _ => some (h, x.d, x.a, x.b, x.c)
  | .jwaitt h x _ => some (h, x.d, x.a, x.b, x.c)
  | .jget h x _ => some (h, x.d, x.a, x.b, x.c)
  | .jset h x _ => some (h, x.d, x.a, x.b, x.c)
  | .bcast h x _ _ => some (h, x.d, x.a, x.b, x.c)
  | .vread h x _ _ => some (h, x.d, x.a, x.b, x.c)
  | .ld h x _ _ _ => some (h, x.d, x.a, x.b, x.c)
  | .st h x _ _ _ => some (h, x.d, x.a, x.b, x.c)
  | .ldo h x _ _ => some (h, x.d, x.a, x.b, x.c)
  | .sto h x _ _ _ => some (h, x.d, x.a, x.b, x.c)
  | .pf h x _ _ => some (h, x.d, x.a, x.b, x.c)
  | .atom h x _ _ _ _ => some (h, x.d, x.a, x.b, x.c)
  | .ared h x _ _ _ _ => some (h, x.d, x.a, x.b, x.c)
  | .acas h x _ _ _ => some (h, x.d, x.a, x.b, x.c)
  | .binit h x _ _ _ _ => some (h, x.d, x.a, x.b, x.c)
  | .binitRetire h x _ _ => some (h, x.d, x.a, x.b, x.c)
  | .barr h x _ _ => some (h, x.d, x.a, x.b, x.c)
  | .bexp h x _ _ => some (h, x.d, x.a, x.b, x.c)
  | .bwait h x _ => some (h, x.d, x.a, x.b, x.c)
  | .bwaitt h x _ => some (h, x.d, x.a, x.b, x.c)
  | .bstat h x _ => some (h, x.d, x.a, x.b, x.c)
  | .bind h x _ => some (h, x.d, x.a, x.b, x.c)
  | .unbind h x _ => some (h, x.d, x.a, x.b, x.c)
  | .fence h x _ _ => some (h, x.d, x.a, x.b, x.c)
  | .fencex h x _ => some (h, x.d, x.a, x.b, x.c)
  | .fencerec h x _ _ => some (h, x.d, x.a, x.b, x.c)
  | .cpy h x _ _ _ _ => some (h, x.d, x.a, x.b, x.c)
  | .cpyt h x _ _ _ _ _ => some (h, x.d, x.a, x.b, x.c)
  | .cpyg h x _ _ _ _ => some (h, x.d, x.a, x.b, x.c)
  | .cpyn h x _ _ => some (h, x.d, x.a, x.b, x.c)
  | .bget h x _ => some (h, x.d, x.a, x.b, x.c)
  | .bputGet h x _ => some (h, x.d, x.a, x.b, x.c)
  | .bputPut h x _ => some (h, x.d, x.a, x.b, x.c)
  | .bfree h x _ => some (h, x.d, x.a, x.b, x.c)
  | .bbindRq h x _ => some (h, x.d, x.a, x.b, x.c)
  | .bbindOff h x _ => some (h, x.d, x.a, x.b, x.c)
  | .dadv h x => some (h, x.d, x.a, x.b, x.c)
  | .dstat h x => some (h, x.d, x.a, x.b, x.c)
  | .ckill h x _ => some (h, x.d, x.a, x.b, x.c)
  | .mxm h x _ _ _ _ _ => some (h, x.d, x.a, x.b, x.c)
  | .mxc h x _ _ _ _ _ _ _ => some (h, x.d, x.a, x.b, x.c)
  | .msca h x _ _ _ _ => some (h, x.d, x.a, x.b, x.c)
  | .mzero h x _ _ _ _ => some (h, x.d, x.a, x.b, x.c)
  | .ldf h x _ _ _ => some (h, x.d, x.a, x.b, x.c)
  | .stf h x _ _ _ => some (h, x.d, x.a, x.b, x.c)
  | .mxrd h x _ _ _ => some (h, x.d, x.a, x.b, x.c)
  | .relay h x => some (h, x.d, x.a, x.b, x.c)
  | .nget h x _ => some (h, x.d, x.a, x.b, x.c)
  | .nred h x _ _ => some (h, x.d, x.a, x.b, x.c)
  | .ncvt h x _ _ _ => some (h, x.d, x.a, x.b, x.c)
  | .trapSw h x => some (h, x.d, x.a, x.b, x.c)
  | .trapHset h x => some (h, x.d, x.a, x.b, x.c)
  | .trapHget h x => some (h, x.d, x.a, x.b, x.c)
  | .rte h x _ => some (h, x.d, x.a, x.b, x.c)
  | .rdf h x => some (h, x.d, x.a, x.b, x.c)
  | .brkHit h x => some (h, x.d, x.a, x.b, x.c)
  | .brkBp h x => some (h, x.d, x.a, x.b, x.c)
  | .brkWp h x => some (h, x.d, x.a, x.b, x.c)
  | .setroot h x => some (h, x.d, x.a, x.b, x.c)
  | .retype h x => some (h, x.d, x.a, x.b, x.c)
  | .tinv h x => some (h, x.d, x.a, x.b, x.c)
  | .evtack h x => some (h, x.d, x.a, x.b, x.c)
  | .yld h x => some (h, x.d, x.a, x.b, x.c)
  | .launch h x => some (h, x.d, x.a, x.b, x.c)
  | .opreq h x => some (h, x.d, x.a, x.b, x.c)
  | _ => none

/-- The IMM21 field of a V or M word. -/
def Instr.imm21 : Instr → BitVec 21
  | .brx _ x => x.imm
  | .callx _ x => x.imm
  | .ret _ x => x.imm
  | .exit _ x => x.imm
  | .nop _ x => x.imm
  | .iadd _ x _ _ => x.imm
  | .isub _ x _ _ => x.imm
  | .iaddc _ x _ _ _ => x.imm
  | .isubb _ x _ _ _ => x.imm
  | .imul _ x _ => x.imm
  | .imulh _ x _ => x.imm
  | .imad _ x _ => x.imm
  | .imad64 _ x _ => x.imm
  | .iabs _ x _ _ => x.imm
  | .imin _ x _ => x.imm
  | .imax _ x _ => x.imm
  | .lea _ x _ _ => x.imm
  | .idiv _ x _ => x.imm
  | .irem _ x _ => x.imm
  | .and _ x _ => x.imm
  | .or _ x _ => x.imm
  | .xor _ x _ => x.imm
  | .andn _ x _ => x.imm
  | .lmux _ x _ _ _ => x.imm
  | .shl _ x _ => x.imm
  | .shr _ x _ => x.imm
  | .sar _ x _ => x.imm
  | .rotl _ x _ => x.imm
  | .fsh _ x _ => x.imm
  | .bfx _ x _ => x.imm
  | .bfi _ x _ => x.imm
  | .popc _ x _ => x.imm
  | .clz _ x _ => x.imm
  | .brev _ x _ => x.imm
  | .bperm _ x _ => x.imm
  | .icmp _ x _ _ _ _ => x.imm
  | .ucmp _ x _ _ _ _ => x.imm
  | .fcmp _ x _ _ _ => x.imm
  | .gop _ x => x.imm
  | .gpack _ x => x.imm
  | .gunpk _ x => x.imm
  | .sel _ x _ _ _ => x.imm
  | .mov _ x _ => x.imm
  | .movsp _ x => x.imm
  | .wrsp _ x => x.imm
  | .fadd _ x _ => x.imm
  | .fsub _ x _ => x.imm
  | .fmul _ x _ => x.imm
  | .ffma _ x _ => x.imm
  | .fmin _ x => x.imm
  | .fmax _ x => x.imm
  | .fdiv _ x _ => x.imm
  | .frcp _ x _ => x.imm
  | .fsqrt _ x _ => x.imm
  | .frsq _ x _ => x.imm
  | .fexp2 _ x _ => x.imm
  | .flog2 _ x _ => x.imm
  | .frnd _ x _ => x.imm
  | .fclass _ x => x.imm
  | .fscale _ x _ => x.imm
  | .hadd2 _ x _ _ => x.imm
  | .hmul2 _ x _ _ => x.imm
  | .hfma2 _ x _ _ => x.imm
  | .hmin2 _ x _ => x.imm
  | .hmax2 _ x _ => x.imm
  | .vadd2 _ x _ _ => x.imm
  | .vsub2 _ x _ _ => x.imm
  | .vmin2 _ x _ => x.imm
  | .vmax2 _ x _ => x.imm
  | .vabsd2 _ x _ => x.imm
  | .acs2 _ x _ => x.imm
  | .vadd4 _ x _ _ => x.imm
  | .vsub4 _ x _ _ => x.imm
  | .vmin4 _ x _ => x.imm
  | .vmax4 _ x _ => x.imm
  | .dot4 _ x _ _ => x.imm
  | .dot8 _ x _ _ => x.imm
  | .cvt _ x _ _ _ => x.imm
  | .cvtp _ x _ _ => x.imm
  | .cvtn _ x _ _ _ => x.imm
  | .cvtw _ x _ _ => x.imm
  | .hqs _ x _ _ => x.imm
  | .hq _ x _ _ => x.imm
  | .hdq _ x _ _ _ => x.imm
  | .scl _ x _ _ _ => x.imm
  | .shfl _ x _ _ _ => x.imm
  | .shflw _ x _ _ _ => x.imm
  | .vote _ x _ _ => x.imm
  | .wsync _ x _ => x.imm
  | .rdx _ x _ _ _ => x.imm
  | .join _ x _ _ => x.imm
  | .jwait _ x _ => x.imm
  | .jwaitt _ x _ => x.imm
  | .jget _ x _ => x.imm
  | .jset _ x _ => x.imm
  | .bcast _ x _ _ => x.imm
  | .vread _ x _ _ => x.imm
  | .ld _ x _ _ _ => x.imm
  | .st _ x _ _ _ => x.imm
  | .ldo _ x _ _ => x.imm
  | .sto _ x _ _ _ => x.imm
  | .pf _ x _ _ => x.imm
  | .atom _ x _ _ _ _ => x.imm
  | .ared _ x _ _ _ _ => x.imm
  | .acas _ x _ _ _ => x.imm
  | .binit _ x _ _ _ _ => x.imm
  | .binitRetire _ x _ _ => x.imm
  | .barr _ x _ _ => x.imm
  | .bexp _ x _ _ => x.imm
  | .bwait _ x _ => x.imm
  | .bwaitt _ x _ => x.imm
  | .bstat _ x _ => x.imm
  | .bind _ x _ => x.imm
  | .unbind _ x _ => x.imm
  | .fence _ x _ _ => x.imm
  | .fencex _ x _ => x.imm
  | .fencerec _ x _ _ => x.imm
  | .cpy _ x _ _ _ _ => x.imm
  | .cpyt _ x _ _ _ _ _ => x.imm
  | .cpyg _ x _ _ _ _ => x.imm
  | .cpyn _ x _ _ => x.imm
  | .bget _ x _ => x.imm
  | .bputGet _ x _ => x.imm
  | .bputPut _ x _ => x.imm
  | .bfree _ x _ => x.imm
  | .bbindRq _ x _ => x.imm
  | .bbindOff _ x _ => x.imm
  | .dadv _ x => x.imm
  | .dstat _ x => x.imm
  | .ckill _ x _ => x.imm
  | .mxm _ x _ _ _ _ _ => x.imm
  | .mxc _ x _ _ _ _ _ _ _ => x.imm
  | .msca _ x _ _ _ _ => x.imm
  | .mzero _ x _ _ _ _ => x.imm
  | .ldf _ x _ _ _ => x.imm
  | .stf _ x _ _ _ => x.imm
  | .mxrd _ x _ _ _ => x.imm
  | .relay _ x => x.imm
  | .nget _ x _ => x.imm
  | .nred _ x _ _ => x.imm
  | .ncvt _ x _ _ _ => x.imm
  | .trapSw _ x => x.imm
  | .trapHset _ x => x.imm
  | .trapHget _ x => x.imm
  | .rte _ x _ => x.imm
  | .rdf _ x => x.imm
  | .brkHit _ x => x.imm
  | .brkBp _ x => x.imm
  | .brkWp _ x => x.imm
  | .setroot _ x => x.imm
  | .retype _ x => x.imm
  | .tinv _ x => x.imm
  | .evtack _ x => x.imm
  | .yld _ x => x.imm
  | .launch _ x => x.imm
  | .opreq _ x => x.imm
  | _ => 0

/-- Whether an operand may stand in a field: its class, the register group it starts (R51, R288) and, for m, the launch's
registers (R22). -/
def Opnd.fits (n : Nat) (x : Opnd) (cs : List Cls) (words : Nat) : Bool :=
  cs.contains x.cls &&
  match x with
  | .m i _ => i.toNat % words = 0 && i.toNat + words ≤ n
  | .s i _ => i.toNat % words = 0
  | .o i => words ≤ 4 && i.toNat % words = 0
  | .l i => words = 1 || (words = 2 && i = 0)
  | .sr i => words = 1 && (i.toNat < 0x10 || (0x20 ≤ i.toNat && i.toNat < 0x30))
  | .win _ => words ≤ 2
  | .imm => words ≤ 2
  | .none => true

/-- Whether an operand meets the field's use (R50). -/
def Use.admits (n : Nat) (u : Use) (x : Opnd) : Bool :=
  match u with
  | .unused => x = .none
  | .must cs w => x != .none && x.fits n cs w
  | .may cs w => x = .none || x.fits n cs w

/-- Whether the operand takes IMM21 for an immediate or a window offset (R40). -/
def Opnd.takesImm (x : Opnd) : Bool := x.cls = .win || x.cls = .imm

/-- The bits of IMM21 that must be zero (R50, R61). -/
def ImmUse.mbz (u : ImmUse) (taken : Bool) : BitVec 21 :=
  match u with
  | .value => if taken then 0 else BitVec.allOnes 21
  | .offset => 0
  | .own mask => ~~~mask

/-- Who may execute the instruction (R62): opreq and an owner in retype are firmware's; a control core has no copy engine,
matrix array, landing slot or near-memory path. -/
def Instr.permitted (cx : DecCtx) : Instr → Bool
  | .opreq _ _ => cx.fw
  | .retype _ x => cx.fw || x.c = .none
  | .cpy .. | .cpyt .. | .cpyg .. | .cpyn .. | .bget .. | .bputGet .. | .bputPut .. | .bfree .. | .bbindRq .. => !cx.ctl
  | .bbindOff .. | .dadv .. | .dstat .. | .ckill .. => !cx.ctl
  | .mxm .. | .mxc .. | .msca .. | .mzero .. | .ldf .. | .stf .. | .mxrd .. => !cx.ctl
  | .relay .. | .nget .. | .nred .. | .ncvt .. => !cx.ctl
  | _ => true

/-- Whether a branch slot names an instruction of the line (R54). -/
def Instr.slotOk : Instr → Bool
  | .bra _ x | .call _ x | .loopd _ x => x.slot.toNat ≤ 4
  | _ => true

/-- The operand fields as the shape wants them, with at most one immediate or window operand (R40, R50). -/
def Instr.opndsOk (n : Nat) (i : Instr) : Bool :=
  match i.opnds with
  | none => false
  | some (_, d, a, b, c) =>
    let s := i.shape
    s.d.admits n d && s.a.admits n a && s.b.admits n b && s.c.admits n c &&
      ([a, b, c].filter Opnd.takesImm).length ≤ 1 &&
      (s.imm.mbz (a.takesImm || b.takesImm || c.takesImm) &&& i.imm21) = 0

/-- A word of the launch described by `cx` may hold this instruction. -/
def Instr.wf (cx : DecCtx) (i : Instr) : Bool :=
  i.permitted cx && i.modsOk && i.immOk && i.opndsOk cx.n && i.slotOk

end Sys2Proof
end

