-- ==== Sys2Proof/Decode.lean ====
section
/-!
DEFINITION. From bits to instructions (spec/03 R47 to R62): the code of every modifier, the fields of a word, a decoder that
answers an instruction or the fault of R61 with its address field for every one of the 2^96 words, and the encoder written from
the same tables. A reserved code has no constructor: reading it gives some constructor whose own code differs, and decoding
compares the FN field the answer encodes to with the one it read (R59).
-/
namespace Sys2Proof

/-- The code of a `Ty` in its field. -/
def Ty.code : Ty → BitVec 4
  | .w32 => 0
  | .uw32 => 1
  | .i64 => 2
  | .ui64 => 3
  | .h2 => 4
  | .uh2 => 5
  | .b4 => 6
  | .ub4 => 7
  | .n8 => 8
  | .f32 => 9
  | .f16x2 => 10
  | .bf16x2 => 11
  | .e4m3x4 => 12
  | .e5m2x4 => 13
  | .e2m1x8 => 14
  | .s24 => 15

/-- The `Ty` of a code; a reserved code answers one whose code differs. -/
def Ty.ofCode (c : BitVec 4) : Ty :=
  match c.toNat with
  | 0 => .w32
  | 1 => .uw32
  | 2 => .i64
  | 3 => .ui64
  | 4 => .h2
  | 5 => .uh2
  | 6 => .b4
  | 7 => .ub4
  | 8 => .n8
  | 9 => .f32
  | 10 => .f16x2
  | 11 => .bf16x2
  | 12 => .e4m3x4
  | 13 => .e5m2x4
  | 14 => .e2m1x8
  | _ => .s24

/-- The code of a `Rnd` in its field. -/
def Rnd.code : Rnd → BitVec 3
  | .rne => 0
  | .rz => 1
  | .ru => 2
  | .rd => 3

/-- The `Rnd` of a code; a reserved code answers one whose code differs. -/
def Rnd.ofCode (c : BitVec 3) : Rnd :=
  match c.toNat with
  | 0 => .rne
  | 1 => .rz
  | 2 => .ru
  | _ => .rd

/-- The code of a `Cond` in its field. -/
def Cond.code : Cond → BitVec 3
  | .eq => 0
  | .ne => 1
  | .lt => 2
  | .le => 3
  | .gt => 4
  | .ge => 5
  | .un => 6
  | .ord => 7

/-- The `Cond` of a code; a reserved code answers one whose code differs. -/
def Cond.ofCode (c : BitVec 3) : Cond :=
  match c.toNat with
  | 0 => .eq
  | 1 => .ne
  | 2 => .lt
  | 3 => .le
  | 4 => .gt
  | 5 => .ge
  | 6 => .un
  | _ => .ord

/-- The code of a `Cmb` in its field. -/
def Cmb.code : Cmb → BitVec 2
  | .set => 0
  | .and => 1
  | .or => 2

/-- The `Cmb` of a code; a reserved code answers one whose code differs. -/
def Cmb.ofCode (c : BitVec 2) : Cmb :=
  match c.toNat with
  | 0 => .set
  | 1 => .and
  | _ => .or

/-- The code of a `Div` in its field. -/
def Div.code : Div → BitVec 2
  | .d1 => 0
  | .d16 => 1
  | .d32 => 2

/-- The `Div` of a code; a reserved code answers one whose code differs. -/
def Div.ofCode (c : BitVec 2) : Div :=
  match c.toNat with
  | 0 => .d1
  | 1 => .d16
  | _ => .d32

/-- The code of a `Shf` in its field. -/
def Shf.code : Shf → BitVec 3
  | .pick => 0
  | .rot => 1
  | .flip => 2
  | .seg => 3

/-- The `Shf` of a code; a reserved code answers one whose code differs. -/
def Shf.ofCode (c : BitVec 3) : Shf :=
  match c.toNat with
  | 0 => .pick
  | 1 => .rot
  | 2 => .flip
  | _ => .seg

/-- The code of a `Vote` in its field. -/
def Vote.code : Vote → BitVec 3
  | .count => 0
  | .mask => 1
  | .low => 2
  | .high => 3

/-- The `Vote` of a code; a reserved code answers one whose code differs. -/
def Vote.ofCode (c : BitVec 3) : Vote :=
  match c.toNat with
  | 0 => .count
  | 1 => .mask
  | 2 => .low
  | _ => .high

/-- The code of a `Rdx` in its field. -/
def Rdx.code : Rdx → BitVec 3
  | .add => 0
  | .min => 1
  | .max => 2
  | .and => 3
  | .or => 4
  | .xor => 5

/-- The `Rdx` of a code; a reserved code answers one whose code differs. -/
def Rdx.ofCode (c : BitVec 3) : Rdx :=
  match c.toNat with
  | 0 => .add
  | 1 => .min
  | 2 => .max
  | 3 => .and
  | 4 => .or
  | _ => .xor

/-- The code of a `JoinOp` in its field. -/
def JoinOp.code : JoinOp → BitVec 3
  | .set => 0
  | .or => 1
  | .andn => 2

/-- The `JoinOp` of a code; a reserved code answers one whose code differs. -/
def JoinOp.ofCode (c : BitVec 3) : JoinOp :=
  match c.toNat with
  | 0 => .set
  | 1 => .or
  | _ => .andn

/-- The code of a `Sz` in its field. -/
def Sz.code : Sz → BitVec 4
  | .b8z => 0
  | .b8s => 1
  | .b16z => 2
  | .b16s => 3
  | .b32 => 4
  | .b64 => 5
  | .b128 => 6

/-- The `Sz` of a code; a reserved code answers one whose code differs. -/
def Sz.ofCode (c : BitVec 4) : Sz :=
  match c.toNat with
  | 0 => .b8z
  | 1 => .b8s
  | 2 => .b16z
  | 3 => .b16s
  | 4 => .b32
  | 5 => .b64
  | _ => .b128

/-- The code of a `Spc` in its field. -/
def Spc.code : Spc → BitVec 4
  | .sp => 0
  | .gw => 5
  | .glDev => 10
  | .glSys => 11
  | .pw => 12

/-- The `Spc` of a code; a reserved code answers one whose code differs. -/
def Spc.ofCode (c : BitVec 4) : Spc :=
  match c.toNat with
  | 0 => .sp
  | 5 => .gw
  | 10 => .glDev
  | 11 => .glSys
  | _ => .pw

/-- The code of a `Scope` in its field. -/
def Scope.code : Scope → BitVec 2
  | .core => 0
  | .clu => 1
  | .dev => 2
  | .sys => 3

/-- The `Scope` of a code; a reserved code answers one whose code differs. -/
def Scope.ofCode (c : BitVec 2) : Scope :=
  match c.toNat with
  | 0 => .core
  | 1 => .clu
  | 2 => .dev
  | _ => .sys

/-- The code of a `AOp` in its field. -/
def AOp.code : AOp → BitVec 3
  | .add => 0
  | .min => 1
  | .max => 2
  | .and => 3
  | .or => 4
  | .xor => 5
  | .xchg => 6
  | .incw => 7

/-- The `AOp` of a code; a reserved code answers one whose code differs. -/
def AOp.ofCode (c : BitVec 3) : AOp :=
  match c.toNat with
  | 0 => .add
  | 1 => .min
  | 2 => .max
  | 3 => .and
  | 4 => .or
  | 5 => .xor
  | 6 => .xchg
  | _ => .incw

/-- The code of a `ArrRel` in its field. -/
def ArrRel.code : ArrRel → BitVec 2
  | .bound => 0
  | .all => 1
  | .nrel => 2

/-- The `ArrRel` of a code; a reserved code answers one whose code differs. -/
def ArrRel.ofCode (c : BitVec 2) : ArrRel :=
  match c.toNat with
  | 0 => .bound
  | 1 => .all
  | _ => .nrel

/-- The code of a `Fence` in its field. -/
def Fence.code : Fence → BitVec 4
  | .acq => 1
  | .rel => 2
  | .ar => 3
  | .sc => 4

/-- The `Fence` of a code; a reserved code answers one whose code differs. -/
def Fence.ofCode (c : BitVec 4) : Fence :=
  match c.toNat with
  | 1 => .acq
  | 2 => .rel
  | 3 => .ar
  | _ => .sc

/-- The code of a `CSpc` in its field. -/
def CSpc.code : CSpc → BitVec 2
  | .sp => 0
  | .gw => 1
  | .gl => 2
  | .bb => 3

/-- The `CSpc` of a code; a reserved code answers one whose code differs. -/
def CSpc.ofCode (c : BitVec 2) : CSpc :=
  match c.toNat with
  | 0 => .sp
  | 1 => .gw
  | 2 => .gl
  | _ => .bb

/-- The code of a `Kill` in its field. -/
def Kill.code : Kill → BitVec 2
  | .own => 0
  | .block => 1
  | .draft => 2

/-- The `Kill` of a code; a reserved code answers one whose code differs. -/
def Kill.ofCode (c : BitVec 2) : Kill :=
  match c.toNat with
  | 0 => .own
  | 1 => .block
  | _ => .draft

/-- The code of a `Acc` in its field. -/
def Acc.code : Acc → BitVec 2
  | .af32 => 0
  | .af16 => 1
  | .abf16 => 2
  | .aw32 => 3

/-- The `Acc` of a code; a reserved code answers one whose code differs. -/
def Acc.ofCode (c : BitVec 2) : Acc :=
  match c.toNat with
  | 0 => .af32
  | 1 => .af16
  | 2 => .abf16
  | _ => .aw32

/-- The code of a `Konst` in its field. -/
def Konst.code : Konst → BitVec 2
  | .ones => 0
  | .id => 1
  | .perm => 2

/-- The `Konst` of a code; the reserved code, which is not `.perm`, answers one that leaves B unused (R291). -/
def Konst.ofCode (c : BitVec 2) : Konst :=
  match c.toNat with
  | 0 => .ones
  | 2 => .perm
  | _ => .id

/-- The code of a `NOp` in its field. -/
def NOp.code : NOp → BitVec 3
  | .add => 0
  | .min => 1
  | .max => 2

/-- The `NOp` of a code; a reserved code answers one whose code differs. -/
def NOp.ofCode (c : BitVec 3) : NOp :=
  match c.toNat with
  | 0 => .add
  | 1 => .min
  | _ => .max

/-- The code of a `NOrd` in its field. -/
def NOrd.code : NOrd → BitVec 2
  | .none => 0
  | .n16 => 1
  | .n32 => 2

/-- The `NOrd` of a code; a reserved code answers one whose code differs. -/
def NOrd.ofCode (c : BitVec 2) : NOrd :=
  match c.toNat with
  | 0 => .none
  | 1 => .n16
  | _ => .n32

/-- One bit. -/
def bit (b : Bool) : BitVec 1 := if b then 1 else 0

/-- CI and CIE (R90). -/
def ciBits : Option (BitVec 3) → BitVec 4
  | none => 0
  | some g => g ++ 1#1

/-- BT: zero stands for "same as TYPE" (R130). -/
def btBits : Option Ty → BitVec 4
  | none => 0
  | some t => t.code

section
variable (fn : BitVec 12)

/-- TYPE (R56). -/
def tyOf : Ty := Ty.ofCode (fn.extractLsb' 8 4)
/-- RND (R57). -/
def rndOf : Rnd := Rnd.ofCode (fn.extractLsb' 5 3)
/-- FROM (R130). -/
def srcOf : Ty := Ty.ofCode (fn.extractLsb' 1 4)
/-- COND (R99). -/
def condOf : Cond := Cond.ofCode (fn.extractLsb' 5 3)
/-- CMB (R99). -/
def cmbOf : Cmb := Cmb.ofCode (fn.extractLsb' 0 2)
/-- CI under CIE (R90). -/
def ciOf : Option (BitVec 3) := if fn.getLsbD 4 then some (fn.extractLsb' 5 3) else none
/-- BT (R130). -/
def btOf : Option Ty := if fn.extractLsb' 4 4 = 0 then none else some (Ty.ofCode (fn.extractLsb' 4 4))
/-- SIZE (R58). -/
def szOf : Sz := Sz.ofCode (fn.extractLsb' 8 4)
/-- SPACE and SCOPE (R58). -/
def spcOf : Spc := Spc.ofCode (fn.extractLsb' 4 4)
/-- SCOPE (R236). -/
def scopeOf : Scope := Scope.ofCode (fn.extractLsb' 4 2)

end

namespace Opnd

/-- The 12 bits of an operand field (R27, R49). -/
def bits : Opnd → BitVec 12
  | .none => 0
  | .m i w => 1#3 ++ i ++ bit w
  | .o i => 2#3 ++ (0#5 ++ i) ++ 1#1
  | .l i => 3#3 ++ (0#7 ++ i) ++ 1#1
  | .s i w => 4#3 ++ (0#2 ++ i) ++ bit w
  | .sr i => 5#3 ++ i ++ 0#1
  | .win i => 6#3 ++ (i ++ 0#5) ++ 0#1
  | .imm => 7#3 ++ 0#8 ++ 0#1

/-- The operand a field names; none where its index lies beyond the class's limit (R49). -/
def ofBits (f : BitVec 12) : Option Opnd :=
  let i := f.extractLsb' 1 8
  match (f.extractLsb' 9 3).toNat with
  | 0 => some .none
  | 1 => some (.m i (f.getLsbD 0))
  | 2 => if i.toNat < 8 then some (.o (i.extractLsb' 0 3)) else Option.none
  | 3 => if i.toNat < 2 then some (.l (i.extractLsb' 0 1)) else Option.none
  | 4 => if i.toNat < 64 then some (.s (i.extractLsb' 0 6) (f.getLsbD 0)) else Option.none
  | 5 => some (.sr i)
  | 6 => some (.win (f.extractLsb' 6 3))
  | _ => some .imm

/-- The bits of a field that break R49's must-be-zero and must-be-one columns: W of o and l must be one, W of none, special,
window and immediate zero, and so the index bits of none, window and immediate. -/
def badBits (f : BitVec 12) : BitVec 12 :=
  match (f.extractLsb' 9 3).toNat with
  | 0 | 7 => f &&& 0x1FF
  | 2 | 3 => ~~~f &&& 1
  | 5 => f &&& 1
  | 6 => f &&& 0x3F
  | _ => 0

end Opnd

/-- OP: MAJ and MIN (R48, R60); none for an event. -/
def Instr.op : Instr → Option (BitVec 10)
  | .bra .. => some 0x000
  | .brx .. => some 0x001
  | .call .. => some 0x002
  | .callx .. => some 0x003
  | .ret .. => some 0x004
  | .loopd .. => some 0x005
  | .exit .. => some 0x006
  | .nop .. => some 0x007
  | .iadd .. => some 0x040
  | .isub .. => some 0x041
  | .iaddc .. => some 0x042
  | .isubb .. => some 0x043
  | .imul .. => some 0x044
  | .imulh .. => some 0x045
  | .imad .. => some 0x046
  | .imad64 .. => some 0x047
  | .iabs .. => some 0x048
  | .imin .. => some 0x049
  | .imax .. => some 0x04A
  | .lea .. => some 0x04B
  | .idiv .. => some 0x04C
  | .irem .. => some 0x04D
  | .and .. => some 0x080
  | .or .. => some 0x081
  | .xor .. => some 0x082
  | .andn .. => some 0x083
  | .lmux .. => some 0x084
  | .shl .. => some 0x085
  | .shr .. => some 0x086
  | .sar .. => some 0x087
  | .rotl .. => some 0x088
  | .fsh .. => some 0x089
  | .bfx .. => some 0x08A
  | .bfi .. => some 0x08B
  | .popc .. => some 0x08C
  | .clz .. => some 0x08D
  | .brev .. => some 0x08E
  | .bperm .. => some 0x08F
  | .icmp .. => some 0x0C0
  | .ucmp .. => some 0x0C1
  | .fcmp .. => some 0x0C2
  | .gop .. => some 0x0C3
  | .gpack .. => some 0x0C4
  | .gunpk .. => some 0x0C5
  | .sel .. => some 0x0C6
  | .mov .. => some 0x0C7
  | .movi .. => some 0x0C8
  | .movsp .. => some 0x0C9
  | .wrsp .. => some 0x0CA
  | .fadd .. => some 0x100
  | .fsub .. => some 0x101
  | .fmul .. => some 0x102
  | .ffma .. => some 0x103
  | .fmin .. => some 0x104
  | .fmax .. => some 0x105
  | .fdiv .. => some 0x106
  | .frcp .. => some 0x107
  | .fsqrt .. => some 0x108
  | .frsq .. => some 0x109
  | .fexp2 .. => some 0x10A
  | .flog2 .. => some 0x10B
  | .frnd .. => some 0x10C
  | .fclass .. => some 0x10D
  | .fscale .. => some 0x10E
  | .hadd2 .. => some 0x10F
  | .hmul2 .. => some 0x110
  | .hfma2 .. => some 0x111
  | .hmin2 .. => some 0x112
  | .hmax2 .. => some 0x113
  | .vadd2 .. => some 0x140
  | .vsub2 .. => some 0x141
  | .vmin2 .. => some 0x142
  | .vmax2 .. => some 0x143
  | .vabsd2 .. => some 0x144
  | .acs2 .. => some 0x145
  | .vadd4 .. => some 0x146
  | .vsub4 .. => some 0x147
  | .vmin4 .. => some 0x148
  | .vmax4 .. => some 0x149
  | .dot4 .. => some 0x14A
  | .dot8 .. => some 0x14B
  | .cvt .. => some 0x180
  | .cvtp .. => some 0x181
  | .cvtn .. => some 0x182
  | .cvtw .. => some 0x183
  | .hqs .. => some 0x184
  | .hq .. => some 0x185
  | .hdq .. => some 0x186
  | .scl .. => some 0x187
  | .shfl .. => some 0x1C0
  | .shflw .. => some 0x1C1
  | .vote .. => some 0x1C2
  | .wsync .. => some 0x1C3
  | .rdx .. => some 0x1C4
  | .join .. => some 0x1C5
  | .jwait .. => some 0x1C6
  | .jwaitt .. => some 0x1C7
  | .jget .. => some 0x1C8
  | .jset .. => some 0x1C9
  | .bcast .. => some 0x1CA
  | .vread .. => some 0x1CB
  | .ld .. => some 0x200
  | .st .. => some 0x201
  | .ldo .. => some 0x202
  | .sto .. => some 0x203
  | .pf .. => some 0x204
  | .atom .. => some 0x240
  | .ared .. => some 0x241
  | .acas .. => some 0x242
  | .binit .. => some 0x280
  | .binitRetire .. => some 0x280
  | .barr .. => some 0x281
  | .bexp .. => some 0x282
  | .bwait .. => some 0x283
  | .bwaitt .. => some 0x284
  | .bstat .. => some 0x285
  | .bind .. => some 0x286
  | .unbind .. => some 0x287
  | .fence .. => some 0x288
  | .fencex .. => some 0x289
  | .fencerec .. => some 0x28A
  | .cpy .. => some 0x2C0
  | .cpyt .. => some 0x2C1
  | .cpyg .. => some 0x2C2
  | .cpyn .. => some 0x2C3
  | .bget .. => some 0x2C4
  | .bputGet .. => some 0x2C5
  | .bputPut .. => some 0x2C5
  | .bfree .. => some 0x2C6
  | .bbindRq .. => some 0x2C7
  | .bbindOff .. => some 0x2C7
  | .dadv .. => some 0x2C8
  | .dstat .. => some 0x2C9
  | .ckill .. => some 0x2CA
  | .mxm .. => some 0x300
  | .mxc .. => some 0x301
  | .msca .. => some 0x302
  | .mzero .. => some 0x303
  | .ldf .. => some 0x304
  | .stf .. => some 0x305
  | .mxrd .. => some 0x306
  | .relay .. => some 0x340
  | .nget .. => some 0x341
  | .nred .. => some 0x342
  | .ncvt .. => some 0x343
  | .trapSw .. => some 0x380
  | .trapHset .. => some 0x380
  | .trapHget .. => some 0x380
  | .rte .. => some 0x381
  | .rdf .. => some 0x382
  | .brkHit .. => some 0x383
  | .brkBp .. => some 0x383
  | .brkWp .. => some 0x383
  | .setroot .. => some 0x384
  | .retype .. => some 0x385
  | .tinv .. => some 0x386
  | .evtack .. => some 0x387
  | .yld .. => some 0x388
  | .launch .. => some 0x389
  | .opreq .. => some 0x38A
  | _ => none

/-- The FN field of an instruction (R56 to R59 and each description's layout). -/
def Instr.fn : Instr → BitVec 12
  | .bra .. => 0#12
  | .brx .. => 0#12
  | .call .. => 0#12
  | .callx .. => 0#12
  | .ret .. => 0#12
  | .loopd .. => 0#12
  | .exit .. => 0#12
  | .nop .. => 0#12
  | .iadd _ _ t sat => t.code ++ bit sat ++ 0#7
  | .isub _ _ t sat => t.code ++ bit sat ++ 0#7
  | .iaddc _ _ t ci co => t.code ++ ciBits ci ++ co ++ 0#1
  | .isubb _ _ t ci co => t.code ++ ciBits ci ++ co ++ 0#1
  | .imul _ _ t => t.code ++ 0#8
  | .imulh _ _ t => t.code ++ 0#8
  | .imad _ _ t => t.code ++ 0#8
  | .imad64 _ _ t => t.code ++ 0#8
  | .iabs _ _ t sat => t.code ++ bit sat ++ 0#7
  | .imin _ _ t => t.code ++ 0#8
  | .imax _ _ t => t.code ++ 0#8
  | .lea _ _ t sh => t.code ++ sh ++ 0#5
  | .idiv _ _ t => t.code ++ 0#8
  | .irem _ _ t => t.code ++ 0#8
  | .and _ _ t => t.code ++ 0#8
  | .or _ _ t => t.code ++ 0#8
  | .xor _ _ t => t.code ++ 0#8
  | .andn _ _ t => t.code ++ 0#8
  | .lmux _ _ t f1 f0 => t.code ++ f1 ++ f0
  | .shl _ _ t => t.code ++ 0#8
  | .shr _ _ t => t.code ++ 0#8
  | .sar _ _ t => t.code ++ 0#8
  | .rotl _ _ t => t.code ++ 0#8
  | .fsh _ _ t => t.code ++ 0#8
  | .bfx _ _ t => t.code ++ 0#8
  | .bfi _ _ t => t.code ++ 0#8
  | .popc _ _ t => t.code ++ 0#8
  | .clz _ _ t => t.code ++ 0#8
  | .brev _ _ t => t.code ++ 0#8
  | .bperm _ _ t => t.code ++ 0#8
  | .icmp _ _ t cd dg cm => t.code ++ cd.code ++ dg ++ cm.code
  | .ucmp _ _ t cd dg cm => t.code ++ cd.code ++ dg ++ cm.code
  | .fcmp _ _ cd dg cm => Ty.f32.code ++ cd.code ++ dg ++ cm.code
  | .gop .. => 0#12
  | .gpack .. => 0#12
  | .gunpk .. => 0#12
  | .sel _ _ t sg sn => t.code ++ 0#3 ++ sg ++ 0#1 ++ bit sn
  | .mov _ _ t => t.code ++ 0#8
  | .movi .. => 0#12
  | .movsp .. => 0#12
  | .wrsp .. => 0#12
  | .fadd _ _ r => Ty.f32.code ++ r.code ++ 0#5
  | .fsub _ _ r => Ty.f32.code ++ r.code ++ 0#5
  | .fmul _ _ r => Ty.f32.code ++ r.code ++ 0#5
  | .ffma _ _ r => Ty.f32.code ++ r.code ++ 0#5
  | .fmin .. => Ty.f32.code ++ 0#8
  | .fmax .. => Ty.f32.code ++ 0#8
  | .fdiv _ _ r => Ty.f32.code ++ r.code ++ 0#5
  | .frcp _ _ r => Ty.f32.code ++ r.code ++ 0#5
  | .fsqrt _ _ r => Ty.f32.code ++ r.code ++ 0#5
  | .frsq _ _ r => Ty.f32.code ++ r.code ++ 0#5
  | .fexp2 _ _ r => Ty.f32.code ++ r.code ++ 0#5
  | .flog2 _ _ r => Ty.f32.code ++ r.code ++ 0#5
  | .frnd _ _ r => Ty.f32.code ++ r.code ++ 0#5
  | .fclass .. => Ty.f32.code ++ 0#8
  | .fscale _ _ r => Ty.f32.code ++ r.code ++ 0#5
  | .hadd2 _ _ t r => t.code ++ r.code ++ 0#5
  | .hmul2 _ _ t r => t.code ++ r.code ++ 0#5
  | .hfma2 _ _ t r => t.code ++ r.code ++ 0#5
  | .hmin2 _ _ t => t.code ++ 0#8
  | .hmax2 _ _ t => t.code ++ 0#8
  | .vadd2 _ _ t sat => t.code ++ bit sat ++ 0#7
  | .vsub2 _ _ t sat => t.code ++ bit sat ++ 0#7
  | .vmin2 _ _ t => t.code ++ 0#8
  | .vmax2 _ _ t => t.code ++ 0#8
  | .vabsd2 _ _ t => t.code ++ 0#8
  | .acs2 _ _ t => t.code ++ 0#8
  | .vadd4 _ _ t sat => t.code ++ bit sat ++ 0#7
  | .vsub4 _ _ t sat => t.code ++ bit sat ++ 0#7
  | .vmin4 _ _ t => t.code ++ 0#8
  | .vmax4 _ _ t => t.code ++ 0#8
  | .dot4 _ _ t bt => t.code ++ btBits bt ++ 0#4
  | .dot8 _ _ t bt => t.code ++ btBits bt ++ 0#4
  | .cvt _ _ t f r => t.code ++ r.code ++ f.code ++ 0#1
  | .cvtp _ _ t r => t.code ++ r.code ++ 0#5
  | .cvtn _ _ t f r => t.code ++ r.code ++ f.code ++ 0#1
  | .cvtw _ _ t f => t.code ++ 0#3 ++ f.code ++ 0#1
  | .hqs _ _ t n => t.code ++ 0#3 ++ bit n ++ 0#4
  | .hq _ _ t n => t.code ++ 0#3 ++ bit n ++ 0#4
  | .hdq _ _ t n r => t.code ++ r.code ++ bit n ++ 0#4
  | .scl _ _ t r dv => t.code ++ r.code ++ dv.code ++ 0#3
  | .shfl _ _ t md fl => t.code ++ md.code ++ bit fl ++ 0#4
  | .shflw _ _ t md fl => t.code ++ md.code ++ bit fl ++ 0#4
  | .vote _ _ md fl => 0#4 ++ md.code ++ bit fl ++ 0#4
  | .wsync _ _ fl => 0#7 ++ bit fl ++ 0#4
  | .rdx _ _ t o fl => t.code ++ o.code ++ bit fl ++ 0#4
  | .join _ _ o jn => 0#4 ++ o.code ++ 0#1 ++ jn
  | .jwait _ _ jn => 0#8 ++ jn
  | .jwaitt _ _ jn => 0#8 ++ jn
  | .jget _ _ jn => 0#8 ++ jn
  | .jset _ _ jn => 0#8 ++ jn
  | .bcast _ _ t fl => t.code ++ 0#3 ++ bit fl ++ 0#4
  | .vread _ _ t fl => t.code ++ 0#3 ++ bit fl ++ 0#4
  | .ld _ _ sz sc win => sz.code ++ sc.code ++ 0#1 ++ win
  | .st _ _ sz sc ga => sz.code ++ sc.code ++ bit ga ++ 0#3
  | .ldo _ _ sz sc => sz.code ++ sc.code ++ 0#4
  | .sto _ _ sz sc ga => sz.code ++ sc.code ++ bit ga ++ 0#3
  | .pf _ _ sys wr => 0#4 ++ (if sys then Spc.glSys else .glDev).code ++ 0#3 ++ bit wr
  | .atom _ _ t o sc ga => t.code ++ sc.code ++ bit ga ++ o.code
  | .ared _ _ t o sc ga => t.code ++ sc.code ++ bit ga ++ o.code
  | .acas _ _ t sc ga => t.code ++ sc.code ++ bit ga ++ 0#3
  | .binit _ _ gw sc kp fl => 0#5 ++ bit gw ++ sc.code ++ 0#2 ++ bit fl ++ bit kp
  | .binitRetire _ _ gw sc => 0#5 ++ bit gw ++ sc.code ++ 8#4
  | .barr _ _ gw r => 0#5 ++ bit gw ++ 0#4 ++ r.code
  | .bexp _ _ gw ar => 0#5 ++ bit gw ++ 0#5 ++ bit ar
  | .bwait _ _ gw => 0#5 ++ bit gw ++ 0#6
  | .bwaitt _ _ gw => 0#5 ++ bit gw ++ 0#6
  | .bstat _ _ gw => 0#5 ++ bit gw ++ 0#6
  | .bind _ _ gw => 0#5 ++ bit gw ++ 0#6
  | .unbind _ _ gw => 0#5 ++ bit gw ++ 0#6
  | .fence _ _ sc k => 0#6 ++ sc.code ++ k.code
  | .fencex _ _ sc => 0#6 ++ sc.code ++ 0#4
  | .fencerec _ _ gl al => 0#4 ++ bit gl ++ 0#6 ++ bit al
  | .cpy _ _ ds ss ga sy => ds.code ++ ss.code ++ bit ga ++ bit sy ++ 0#6
  | .cpyt _ _ lg dir rg ga sy => 0#1 ++ bit lg ++ bit dir ++ bit rg ++ bit ga ++ bit sy ++ 0#6
  | .cpyg _ _ ds ss ga sy => ds.code ++ ss.code ++ bit ga ++ bit sy ++ 0#6
  | .cpyn _ _ ss sy => 0#2 ++ ss.code ++ 0#1 ++ bit sy ++ 0#6
  | .bget _ _ gw => 0#5 ++ bit gw ++ 0#6
  | .bputGet _ _ gw => 0#5 ++ bit gw ++ 0#6
  | .bputPut _ _ gw => 0#5 ++ bit gw ++ 1#6
  | .bfree _ _ gw => 0#5 ++ bit gw ++ 0#6
  | .bbindRq _ _ gw => 0#5 ++ bit gw ++ 0#6
  | .bbindOff _ _ gw => 0#5 ++ bit gw ++ 1#6
  | .dadv .. => 0#12
  | .dstat .. => 0#12
  | .ckill _ _ k => 0#10 ++ k.code
  | .mxm _ _ t ac pa pt so => t.code ++ 0#1 ++ ac.code ++ bit pa ++ bit pt ++ bit so ++ 0#2
  | .mxc _ _ t tr ac pa pt so k => t.code ++ bit tr ++ ac.code ++ bit pa ++ bit pt ++ bit so ++ k.code
  | .msca _ _ t pt kp dv => t.code ++ bit pt ++ bit kp ++ dv.code ++ 0#4
  | .mzero _ _ t pt ti so => t.code ++ bit pt ++ bit ti ++ bit so ++ 0#5
  | .ldf _ _ t c so => t.code ++ bit c ++ bit so ++ 0#6
  | .stf _ _ t c so => t.code ++ bit c ++ bit so ++ 0#6
  | .mxrd _ _ t pt kp => t.code ++ bit pt ++ bit kp ++ 0#6
  | .relay .. => 0#12
  | .nget _ _ t => t.code ++ 0#8
  | .nred _ _ t o => t.code ++ o.code ++ 0#5
  | .ncvt _ _ t o f => t.code ++ o.code ++ 0#1 ++ f.code ++ 0#1
  | .trapSw .. => 0#12
  | .trapHset .. => 1#12
  | .trapHget .. => 2#12
  | .rte _ _ sk => 0#11 ++ bit sk
  | .rdf .. => 0#12
  | .brkHit .. => 0#12
  | .brkBp .. => 1#12
  | .brkWp .. => 2#12
  | .setroot .. => 0#12
  | .retype .. => 0#12
  | .tinv .. => 0#12
  | .evtack .. => 0#12
  | .yld .. => 0#12
  | .launch .. => 0#12
  | .opreq .. => 0#12
  | _ => 0

/-- The formats (R47 to R55). -/
inductive Fmt where
  | v | m | j | k
  deriving DecidableEq, Repr

/-- The format of an assigned opcode (R60); none for the unassigned ones. -/
def opFmt (op : Nat) : Option Fmt :=
  match op with
  | 0x000 | 0x002 | 0x005 => some .j
  | 0x0C8 => some .k
  | 0x200 | 0x201 | 0x202 | 0x203 | 0x204 | 0x240 | 0x241 | 0x242 | 0x304 | 0x305 => some .m
  | _ =>
    let minors := [8, 14, 16, 11, 20, 12, 8, 12, 5, 3, 11, 11, 7, 4, 11]
    if op % 64 < minors.getD (op / 64) 0 then some .v else none

/-- The V or M instruction an opcode and FN name; where FN is reserved, one whose own FN differs or whose modifiers its
description does not list. -/
def mkV (op : Nat) (h : Hdr) (x : VOps) (fn : BitVec 12) : Option Instr :=
  match op with
  | 0x001 => some (.brx h x)
  | 0x003 => some (.callx h x)
  | 0x004 => some (.ret h x)
  | 0x006 => some (.exit h x)
  | 0x007 => some (.nop h x)
  | 0x040 => some (.iadd h x (tyOf fn) (fn.getLsbD 7))
  | 0x041 => some (.isub h x (tyOf fn) (fn.getLsbD 7))
  | 0x042 => some (.iaddc h x (tyOf fn) (ciOf fn) (fn.extractLsb' 1 3))
  | 0x043 => some (.isubb h x (tyOf fn) (ciOf fn) (fn.extractLsb' 1 3))
  | 0x044 => some (.imul h x (tyOf fn))
  | 0x045 => some (.imulh h x (tyOf fn))
  | 0x046 => some (.imad h x (tyOf fn))
  | 0x047 => some (.imad64 h x (tyOf fn))
  | 0x048 => some (.iabs h x (tyOf fn) (fn.getLsbD 7))
  | 0x049 => some (.imin h x (tyOf fn))
  | 0x04A => some (.imax h x (tyOf fn))
  | 0x04B => some (.lea h x (tyOf fn) (fn.extractLsb' 5 3))
  | 0x04C => some (.idiv h x (tyOf fn))
  | 0x04D => some (.irem h x (tyOf fn))
  | 0x080 => some (.and h x (tyOf fn))
  | 0x081 => some (.or h x (tyOf fn))
  | 0x082 => some (.xor h x (tyOf fn))
  | 0x083 => some (.andn h x (tyOf fn))
  | 0x084 => some (.lmux h x (tyOf fn) (fn.extractLsb' 4 4) (fn.extractLsb' 0 4))
  | 0x085 => some (.shl h x (tyOf fn))
  | 0x086 => some (.shr h x (tyOf fn))
  | 0x087 => some (.sar h x (tyOf fn))
  | 0x088 => some (.rotl h x (tyOf fn))
  | 0x089 => some (.fsh h x (tyOf fn))
  | 0x08A => some (.bfx h x (tyOf fn))
  | 0x08B => some (.bfi h x (tyOf fn))
  | 0x08C => some (.popc h x (tyOf fn))
  | 0x08D => some (.clz h x (tyOf fn))
  | 0x08E => some (.brev h x (tyOf fn))
  | 0x08F => some (.bperm h x (tyOf fn))
  | 0x0C0 => some (.icmp h x (tyOf fn) (condOf fn) (fn.extractLsb' 2 3) (cmbOf fn))
  | 0x0C1 => some (.ucmp h x (tyOf fn) (condOf fn) (fn.extractLsb' 2 3) (cmbOf fn))
  | 0x0C2 => some (.fcmp h x (condOf fn) (fn.extractLsb' 2 3) (cmbOf fn))
  | 0x0C3 => some (.gop h x)
  | 0x0C4 => some (.gpack h x)
  | 0x0C5 => some (.gunpk h x)
  | 0x0C6 => some (.sel h x (tyOf fn) (fn.extractLsb' 2 3) (fn.getLsbD 0))
  | 0x0C7 => some (.mov h x (tyOf fn))
  | 0x0C9 => some (.movsp h x)
  | 0x0CA => some (.wrsp h x)
  | 0x100 => some (.fadd h x (rndOf fn))
  | 0x101 => some (.fsub h x (rndOf fn))
  | 0x102 => some (.fmul h x (rndOf fn))
  | 0x103 => some (.ffma h x (rndOf fn))
  | 0x104 => some (.fmin h x)
  | 0x105 => some (.fmax h x)
  | 0x106 => some (.fdiv h x (rndOf fn))
  | 0x107 => some (.frcp h x (rndOf fn))
  | 0x108 => some (.fsqrt h x (rndOf fn))
  | 0x109 => some (.frsq h x (rndOf fn))
  | 0x10A => some (.fexp2 h x (rndOf fn))
  | 0x10B => some (.flog2 h x (rndOf fn))
  | 0x10C => some (.frnd h x (rndOf fn))
  | 0x10D => some (.fclass h x)
  | 0x10E => some (.fscale h x (rndOf fn))
  | 0x10F => some (.hadd2 h x (tyOf fn) (rndOf fn))
  | 0x110 => some (.hmul2 h x (tyOf fn) (rndOf fn))
  | 0x111 => some (.hfma2 h x (tyOf fn) (rndOf fn))
  | 0x112 => some (.hmin2 h x (tyOf fn))
  | 0x113 => some (.hmax2 h x (tyOf fn))
  | 0x140 => some (.vadd2 h x (tyOf fn) (fn.getLsbD 7))
  | 0x141 => some (.vsub2 h x (tyOf fn) (fn.getLsbD 7))
  | 0x142 => some (.vmin2 h x (tyOf fn))
  | 0x143 => some (.vmax2 h x (tyOf fn))
  | 0x144 => some (.vabsd2 h x (tyOf fn))
  | 0x145 => some (.acs2 h x (tyOf fn))
  | 0x146 => some (.vadd4 h x (tyOf fn) (fn.getLsbD 7))
  | 0x147 => some (.vsub4 h x (tyOf fn) (fn.getLsbD 7))
  | 0x148 => some (.vmin4 h x (tyOf fn))
  | 0x149 => some (.vmax4 h x (tyOf fn))
  | 0x14A => some (.dot4 h x (tyOf fn) (btOf fn))
  | 0x14B => some (.dot8 h x (tyOf fn) (btOf fn))
  | 0x180 => some (.cvt h x (tyOf fn) (srcOf fn) (rndOf fn))
  | 0x181 => some (.cvtp h x (tyOf fn) (rndOf fn))
  | 0x182 => some (.cvtn h x (tyOf fn) (srcOf fn) (rndOf fn))
  | 0x183 => some (.cvtw h x (tyOf fn) (srcOf fn))
  | 0x184 => some (.hqs h x (tyOf fn) (fn.getLsbD 4))
  | 0x185 => some (.hq h x (tyOf fn) (fn.getLsbD 4))
  | 0x186 => some (.hdq h x (tyOf fn) (fn.getLsbD 4) (rndOf fn))
  | 0x187 => some (.scl h x (tyOf fn) (rndOf fn) (Div.ofCode (fn.extractLsb' 3 2)))
  | 0x1C0 => some (.shfl h x (tyOf fn) (Shf.ofCode (fn.extractLsb' 5 3)) (fn.getLsbD 4))
  | 0x1C1 => some (.shflw h x (tyOf fn) (Shf.ofCode (fn.extractLsb' 5 3)) (fn.getLsbD 4))
  | 0x1C2 => some (.vote h x (Vote.ofCode (fn.extractLsb' 5 3)) (fn.getLsbD 4))
  | 0x1C3 => some (.wsync h x (fn.getLsbD 4))
  | 0x1C4 => some (.rdx h x (tyOf fn) (Rdx.ofCode (fn.extractLsb' 5 3)) (fn.getLsbD 4))
  | 0x1C5 => some (.join h x (JoinOp.ofCode (fn.extractLsb' 5 3)) (fn.extractLsb' 0 4))
  | 0x1C6 => some (.jwait h x (fn.extractLsb' 0 4))
  | 0x1C7 => some (.jwaitt h x (fn.extractLsb' 0 4))
  | 0x1C8 => some (.jget h x (fn.extractLsb' 0 4))
  | 0x1C9 => some (.jset h x (fn.extractLsb' 0 4))
  | 0x1CA => some (.bcast h x (tyOf fn) (fn.getLsbD 4))
  | 0x1CB => some (.vread h x (tyOf fn) (fn.getLsbD 4))
  | 0x200 => some (.ld h x (szOf fn) (spcOf fn) (fn.extractLsb' 0 3))
  | 0x201 => some (.st h x (szOf fn) (spcOf fn) (fn.getLsbD 3))
  | 0x202 => some (.ldo h x (szOf fn) (spcOf fn))
  | 0x203 => some (.sto h x (szOf fn) (spcOf fn) (fn.getLsbD 3))
  | 0x204 => some (.pf h x (fn.getLsbD 4) (fn.getLsbD 0))
  | 0x240 => some (.atom h x (tyOf fn) (AOp.ofCode (fn.extractLsb' 0 3)) (spcOf fn) (fn.getLsbD 3))
  | 0x241 => some (.ared h x (tyOf fn) (AOp.ofCode (fn.extractLsb' 0 3)) (spcOf fn) (fn.getLsbD 3))
  | 0x242 => some (.acas h x (tyOf fn) (spcOf fn) (fn.getLsbD 3))
  | 0x280 => some (if fn.getLsbD 3 then .binitRetire h x (fn.getLsbD 6) (scopeOf fn) else .binit h x (fn.getLsbD 6) (scopeOf fn) (fn.getLsbD 0) (fn.getLsbD 1))
  | 0x281 => some (.barr h x (fn.getLsbD 6) (ArrRel.ofCode (fn.extractLsb' 0 2)))
  | 0x282 => some (.bexp h x (fn.getLsbD 6) (fn.getLsbD 0))
  | 0x283 => some (.bwait h x (fn.getLsbD 6))
  | 0x284 => some (.bwaitt h x (fn.getLsbD 6))
  | 0x285 => some (.bstat h x (fn.getLsbD 6))
  | 0x286 => some (.bind h x (fn.getLsbD 6))
  | 0x287 => some (.unbind h x (fn.getLsbD 6))
  | 0x288 => some (.fence h x (scopeOf fn) (Fence.ofCode (fn.extractLsb' 0 4)))
  | 0x289 => some (.fencex h x (scopeOf fn))
  | 0x28A => some (.fencerec h x (fn.getLsbD 7) (fn.getLsbD 0))
  | 0x2C0 => some (.cpy h x (CSpc.ofCode (fn.extractLsb' 10 2)) (CSpc.ofCode (fn.extractLsb' 8 2)) (fn.getLsbD 7) (fn.getLsbD 6))
  | 0x2C1 => some (.cpyt h x (fn.getLsbD 10) (fn.getLsbD 9) (fn.getLsbD 8) (fn.getLsbD 7) (fn.getLsbD 6))
  | 0x2C2 => some (.cpyg h x (CSpc.ofCode (fn.extractLsb' 10 2)) (CSpc.ofCode (fn.extractLsb' 8 2)) (fn.getLsbD 7) (fn.getLsbD 6))
  | 0x2C3 => some (.cpyn h x (CSpc.ofCode (fn.extractLsb' 8 2)) (fn.getLsbD 6))
  | 0x2C4 => some (.bget h x (fn.getLsbD 6))
  | 0x2C5 => some (if fn.getLsbD 0 then .bputPut h x (fn.getLsbD 6) else .bputGet h x (fn.getLsbD 6))
  | 0x2C6 => some (.bfree h x (fn.getLsbD 6))
  | 0x2C7 => some (if fn.getLsbD 0 then .bbindOff h x (fn.getLsbD 6) else .bbindRq h x (fn.getLsbD 6))
  | 0x2C8 => some (.dadv h x)
  | 0x2C9 => some (.dstat h x)
  | 0x2CA => some (.ckill h x (Kill.ofCode (fn.extractLsb' 0 2)))
  | 0x300 => some (.mxm h x (tyOf fn) (Acc.ofCode (fn.extractLsb' 5 2)) (fn.getLsbD 4) (fn.getLsbD 3) (fn.getLsbD 2))
  | 0x301 => some (.mxc h x (tyOf fn) (fn.getLsbD 7) (Acc.ofCode (fn.extractLsb' 5 2)) (fn.getLsbD 4) (fn.getLsbD 3) (fn.getLsbD 2) (Konst.ofCode (fn.extractLsb' 0 2)))
  | 0x302 => some (.msca h x (tyOf fn) (fn.getLsbD 7) (fn.getLsbD 6) (Div.ofCode (fn.extractLsb' 4 2)))
  | 0x303 => some (.mzero h x (tyOf fn) (fn.getLsbD 7) (fn.getLsbD 6) (fn.getLsbD 5))
  | 0x304 => some (.ldf h x (tyOf fn) (fn.getLsbD 7) (fn.getLsbD 6))
  | 0x305 => some (.stf h x (tyOf fn) (fn.getLsbD 7) (fn.getLsbD 6))
  | 0x306 => some (.mxrd h x (tyOf fn) (fn.getLsbD 7) (fn.getLsbD 6))
  | 0x340 => some (.relay h x)
  | 0x341 => some (.nget h x (tyOf fn))
  | 0x342 => some (.nred h x (tyOf fn) (NOp.ofCode (fn.extractLsb' 5 3)))
  | 0x343 => some (.ncvt h x (tyOf fn) (NOrd.ofCode (fn.extractLsb' 6 2)) (srcOf fn))
  | 0x380 => some (if fn.getLsbD 1 then .trapHget h x else if fn.getLsbD 0 then .trapHset h x else .trapSw h x)
  | 0x381 => some (.rte h x (fn.getLsbD 0))
  | 0x382 => some (.rdf h x)
  | 0x383 => some (if fn.getLsbD 1 then .brkWp h x else if fn.getLsbD 0 then .brkBp h x else .brkHit h x)
  | 0x384 => some (.setroot h x)
  | 0x385 => some (.retype h x)
  | 0x386 => some (.tinv h x)
  | 0x387 => some (.evtack h x)
  | 0x388 => some (.yld h x)
  | 0x389 => some (.launch h x)
  | 0x38A => some (.opreq h x)
  | _ => none

/-- The J instruction of an opcode. -/
def mkJ (op : Nat) (h : Hdr) (x : JOps) : Option Instr :=
  match op with
  | 0x000 => some (.bra h x)
  | 0x002 => some (.call h x)
  | 0x005 => some (.loopd h x)
  | _ => none

/-- The K instruction of an opcode (R55). -/
def mkK (op : Nat) (h : Hdr) (x : KOps) : Option Instr :=
  match op with
  | 0x0C8 => some (.movi h x)
  | _ => none

/-! ### The encoder -/

/-- The header bits [95:81] (R48). -/
def Hdr.bits (op : BitVec 10) (h : Hdr) : BitVec 15 := op ++ bit h.e ++ bit h.gn ++ h.gi

/-- The word of a V or M instruction (R52, R53). -/
def packV (op : BitVec 10) (h : Hdr) (x : VOps) (fn : BitVec 12) : IWord :=
  h.bits op ++ x.d.bits ++ x.a.bits ++ x.b.bits ++ x.c.bits ++ fn ++ x.imm

/-- The word of a J instruction (R54). -/
def packJ (op : BitVec 10) (h : Hdr) (x : JOps) (fn : BitVec 12) : IWord :=
  h.bits op ++ x.d.bits ++ x.a.bits ++ 0#12 ++ x.off ++ x.slot ++ fn ++ 0#9

/-- The word of a K instruction (R55). -/
def packK (op : BitVec 10) (h : Hdr) (x : KOps) (fn : BitVec 12) : IWord :=
  h.bits op ++ x.d.bits ++ x.imm ++ fn ++ 0#25

/-- What a word's fields are: an instruction's header and operands by format. -/
inductive Body where
  | v (h : Hdr) (x : VOps)
  | j (h : Hdr) (x : JOps)
  | k (h : Hdr) (x : KOps)
  deriving DecidableEq, Repr

/-- The header and operands of an instruction; none for an event. -/
def Instr.body : Instr → Option Body
  | .bra h x => some (.j h x)
  | .brx h x => some (.v h x)
  | .call h x => some (.j h x)
  | .callx h x => some (.v h x)
  | .ret h x => some (.v h x)
  | .loopd h x => some (.j h x)
  | .exit h x => some (.v h x)
  | .nop h x => some (.v h x)
  | .iadd h x _ _ => some (.v h x)
  | .isub h x _ _ => some (.v h x)
  | .iaddc h x _ _ _ => some (.v h x)
  | .isubb h x _ _ _ => some (.v h x)
  | .imul h x _ => some (.v h x)
  | .imulh h x _ => some (.v h x)
  | .imad h x _ => some (.v h x)
  | .imad64 h x _ => some (.v h x)
  | .iabs h x _ _ => some (.v h x)
  | .imin h x _ => some (.v h x)
  | .imax h x _ => some (.v h x)
  | .lea h x _ _ => some (.v h x)
  | .idiv h x _ => some (.v h x)
  | .irem h x _ => some (.v h x)
  | .and h x _ => some (.v h x)
  | .or h x _ => some (.v h x)
  | .xor h x _ => some (.v h x)
  | .andn h x _ => some (.v h x)
  | .lmux h x _ _ _ => some (.v h x)
  | .shl h x _ => some (.v h x)
  | .shr h x _ => some (.v h x)
  | .sar h x _ => some (.v h x)
  | .rotl h x _ => some (.v h x)
  | .fsh h x _ => some (.v h x)
  | .bfx h x _ => some (.v h x)
  | .bfi h x _ => some (.v h x)
  | .popc h x _ => some (.v h x)
  | .clz h x _ => some (.v h x)
  | .brev h x _ => some (.v h x)
  | .bperm h x _ => some (.v h x)
  | .icmp h x _ _ _ _ => some (.v h x)
  | .ucmp h x _ _ _ _ => some (.v h x)
  | .fcmp h x _ _ _ => some (.v h x)
  | .gop h x => some (.v h x)
  | .gpack h x => some (.v h x)
  | .gunpk h x => some (.v h x)
  | .sel h x _ _ _ => some (.v h x)
  | .mov h x _ => some (.v h x)
  | .movi h x => some (.k h x)
  | .movsp h x => some (.v h x)
  | .wrsp h x => some (.v h x)
  | .fadd h x _ => some (.v h x)
  | .fsub h x _ => some (.v h x)
  | .fmul h x _ => some (.v h x)
  | .ffma h x _ => some (.v h x)
  | .fmin h x => some (.v h x)
  | .fmax h x => some (.v h x)
  | .fdiv h x _ => some (.v h x)
  | .frcp h x _ => some (.v h x)
  | .fsqrt h x _ => some (.v h x)
  | .frsq h x _ => some (.v h x)
  | .fexp2 h x _ => some (.v h x)
  | .flog2 h x _ => some (.v h x)
  | .frnd h x _ => some (.v h x)
  | .fclass h x => some (.v h x)
  | .fscale h x _ => some (.v h x)
  | .hadd2 h x _ _ => some (.v h x)
  | .hmul2 h x _ _ => some (.v h x)
  | .hfma2 h x _ _ => some (.v h x)
  | .hmin2 h x _ => some (.v h x)
  | .hmax2 h x _ => some (.v h x)
  | .vadd2 h x _ _ => some (.v h x)
  | .vsub2 h x _ _ => some (.v h x)
  | .vmin2 h x _ => some (.v h x)
  | .vmax2 h x _ => some (.v h x)
  | .vabsd2 h x _ => some (.v h x)
  | .acs2 h x _ => some (.v h x)
  | .vadd4 h x _ _ => some (.v h x)
  | .vsub4 h x _ _ => some (.v h x)
  | .vmin4 h x _ => some (.v h x)
  | .vmax4 h x _ => some (.v h x)
  | .dot4 h x _ _ => some (.v h x)
  | .dot8 h x _ _ => some (.v h x)
  | .cvt h x _ _ _ => some (.v h x)
  | .cvtp h x _ _ => some (.v h x)
  | .cvtn h x _ _ _ => some (.v h x)
  | .cvtw h x _ _ => some (.v h x)
  | .hqs h x _ _ => some (.v h x)
  | .hq h x _ _ => some (.v h x)
  | .hdq h x _ _ _ => some (.v h x)
  | .scl h x _ _ _ => some (.v h x)
  | .shfl h x _ _ _ => some (.v h x)
  | .shflw h x _ _ _ => some (.v h x)
  | .vote h x _ _ => some (.v h x)
  | .wsync h x _ => some (.v h x)
  | .rdx h x _ _ _ => some (.v h x)
  | .join h x _ _ => some (.v h x)
  | .jwait h x _ => some (.v h x)
  | .jwaitt h x _ => some (.v h x)
  | .jget h x _ => some (.v h x)
  | .jset h x _ => some (.v h x)
  | .bcast h x _ _ => some (.v h x)
  | .vread h x _ _ => some (.v h x)
  | .ld h x _ _ _ => some (.v h x)
  | .st h x _ _ _ => some (.v h x)
  | .ldo h x _ _ => some (.v h x)
  | .sto h x _ _ _ => some (.v h x)
  | .pf h x _ _ => some (.v h x)
  | .atom h x _ _ _ _ => some (.v h x)
  | .ared h x _ _ _ _ => some (.v h x)
  | .acas h x _ _ _ => some (.v h x)
  | .binit h x _ _ _ _ => some (.v h x)
  | .binitRetire h x _ _ => some (.v h x)
  | .barr h x _ _ => some (.v h x)
  | .bexp h x _ _ => some (.v h x)
  | .bwait h x _ => some (.v h x)
  | .bwaitt h x _ => some (.v h x)
  | .bstat h x _ => some (.v h x)
  | .bind h x _ => some (.v h x)
  | .unbind h x _ => some (.v h x)
  | .fence h x _ _ => some (.v h x)
  | .fencex h x _ => some (.v h x)
  | .fencerec h x _ _ => some (.v h x)
  | .cpy h x _ _ _ _ => some (.v h x)
  | .cpyt h x _ _ _ _ _ => some (.v h x)
  | .cpyg h x _ _ _ _ => some (.v h x)
  | .cpyn h x _ _ => some (.v h x)
  | .bget h x _ => some (.v h x)
  | .bputGet h x _ => some (.v h x)
  | .bputPut h x _ => some (.v h x)
  | .bfree h x _ => some (.v h x)
  | .bbindRq h x _ => some (.v h x)
  | .bbindOff h x _ => some (.v h x)
  | .dadv h x => some (.v h x)
  | .dstat h x => some (.v h x)
  | .ckill h x _ => some (.v h x)
  | .mxm h x _ _ _ _ _ => some (.v h x)
  | .mxc h x _ _ _ _ _ _ _ => some (.v h x)
  | .msca h x _ _ _ _ => some (.v h x)
  | .mzero h x _ _ _ _ => some (.v h x)
  | .ldf h x _ _ _ => some (.v h x)
  | .stf h x _ _ _ => some (.v h x)
  | .mxrd h x _ _ _ => some (.v h x)
  | .relay h x => some (.v h x)
  | .nget h x _ => some (.v h x)
  | .nred h x _ _ => some (.v h x)
  | .ncvt h x _ _ _ => some (.v h x)
  | .trapSw h x => some (.v h x)
  | .trapHset h x => some (.v h x)
  | .trapHget h x => some (.v h x)
  | .rte h x _ => some (.v h x)
  | .rdf h x => some (.v h x)
  | .brkHit h x => some (.v h x)
  | .brkBp h x => some (.v h x)
  | .brkWp h x => some (.v h x)
  | .setroot h x => some (.v h x)
  | .retype h x => some (.v h x)
  | .tinv h x => some (.v h x)
  | .evtack h x => some (.v h x)
  | .yld h x => some (.v h x)
  | .launch h x => some (.v h x)
  | .opreq h x => some (.v h x)
  | _ => none

/-- The word of an instruction; an event has none. -/
def encode (i : Instr) : Option IWord :=
  match i.op, i.body with
  | some op, some (.v h x) => some (packV op h x i.fn)
  | some op, some (.j h x) => some (packJ op h x i.fn)
  | some op, some (.k h x) => some (packK op h x i.fn)
  | _, _ => none

/-! ### The decoder -/

/-- Why a word is no instruction (R61): the fault and its address field. -/
inductive DecFault where
  | illop (op : Nat)
  | mbz (bitIndex : Nat)
  | illmod (bitIndex : Nat)
  | target (op : Nat)
  deriving DecidableEq, Repr

/-- What a word decodes to. -/
inductive Decoded where
  | ok (i : Instr)
  | bad (f : DecFault)
  deriving DecidableEq, Repr

/-- The index of the highest one of a word, if any. -/
def highBit (w : IWord) : Option Nat :=
  if w = 0 then none else some (Nat.log2 w.toNat)

/-- The header of a word (R48). -/
def Hdr.ofWord (w : IWord) : Hdr := { e := w.getLsbD 85, gn := w.getLsbD 84, gi := w.extractLsb' 81 3 }

/-- An operand field read for its class alone: an index beyond its limit reads as `m255`, which `admits` then refuses. -/
def fieldOf (f : BitVec 12) : Opnd := (Opnd.ofBits f).getD (.m 255 true)

/-- The four operand fields of a word as raw bits; J has D and A, K has D (R52 to R55). -/
def rawFields (fmt : Fmt) (w : IWord) : BitVec 12 × BitVec 12 × BitVec 12 × BitVec 12 :=
  let f := fun lo => w.extractLsb' lo 12
  match fmt with
  | .v | .m => (f 69, f 57, f 45, f 33)
  | .j => (f 69, f 57, 0, 0)
  | .k => (f 69, 0, 0, 0)

/-- FN (R52 to R55). -/
def rawFn (fmt : Fmt) (w : IWord) : BitVec 12 :=
  match fmt with
  | .v | .m => w.extractLsb' 21 12
  | .j => w.extractLsb' 9 12
  | .k => w.extractLsb' 25 12

/-- The lowest bit of FN in the word. -/
def fnLow : Fmt → Nat
  | .v | .m => 21
  | .j => 9
  | .k => 25

/-- The instruction the fields give under an FN. -/
def build (fmt : Fmt) (w : IWord) (fn : BitVec 12) : Option Instr :=
  let op := (w.extractLsb' 86 10).toNat
  let (d, a, b, c) := rawFields fmt w
  let h := Hdr.ofWord w
  match fmt with
  | .v | .m => mkV op h ⟨fieldOf d, fieldOf a, fieldOf b, fieldOf c, w.extractLsb' 0 21⟩ fn
  | .j => mkJ op h ⟨fieldOf d, fieldOf a, w.extractLsb' 24 21, w.extractLsb' 21 3⟩
  | .k => mkK op h ⟨fieldOf d, w.extractLsb' 37 32⟩

/-- Whether the FN read is one the description lists (R57 to R59). -/
def fnOk (fn : BitVec 12) (i : Instr) : Bool := i.fn = fn && i.modsOk

/-- The must-be-zero bits that are set, as a word (R61). -/
def mbzBits (fmt : Fmt) (w : IWord) (s : Shape) : IWord :=
  let (d, a, b, c) := rawFields fmt w
  let taken := (fieldOf a).takesImm || (fieldOf b).takesImm || (fieldOf c).takesImm || (fieldOf d).takesImm
  let own : IWord :=
    match fmt with
    | .v | .m => (s.imm.mbz taken &&& w.extractLsb' 0 21).setWidth 96
    | .j => w &&& (0xFFF#96 <<< 45 ||| 0x1FF#96)
    | .k => w &&& 0x1FFFFFF#96
  ((Opnd.badBits d).setWidth 96 <<< 69) ||| ((Opnd.badBits a).setWidth 96 <<< 57) |||
    ((Opnd.badBits b).setWidth 96 <<< 45) ||| ((Opnd.badBits c).setWidth 96 <<< 33) ||| own

/-- Whether a raw field meets its use. -/
def fieldOk (n : Nat) (u : Use) (f : BitVec 12) : Bool :=
  match Opnd.ofBits f with
  | none => false
  | some x => u.admits n x

/-- The shapes that a word's opcode can have: one for each FN value its description lists. -/
def formsOf (fmt : Fmt) (w : IWord) : List Shape :=
  (List.range 4096).filterMap fun k =>
    let fn := BitVec.ofNat 12 k
    (build fmt w fn).bind fun i => if fnOk fn i then some i.shape else none

/-- The lowest bit of the offending field nearest bit 95 that makes the word F_ILLMOD, if any (R61); the second of two
immediate or window operands is the offending one. Where FN is reserved the word has no form, and a field offends if no form of
the opcode admits it. -/
def illmodAt (n : Nat) (fmt : Fmt) (w : IWord) (i : Instr) (fnGood : Bool) : Option Nat :=
  let (d, a, b, c) := rawFields fmt w
  let t := fun f => (fieldOf f).takesImm
  let ok := fun (u : Shape → Use) (f : BitVec 12) =>
    if fnGood then fieldOk n (u i.shape) f else (formsOf fmt w).any fun s => fieldOk n (u s) f
  if !ok (·.d) d then some 69
  else if !ok (·.a) a then some 57
  else if !ok (·.b) b || (t a && t b) then some 45
  else if !ok (·.c) c || (t c && (t a || t b)) then some 33
  else if !fnGood || !i.immOk then some (fnLow fmt)
  else none

/-- Decoding a word for a launch (R38 step 2, R61): the opcode, then must-be-zero bits, then FN and the operand fields, then
the branch slot. Where FN holds the reserved OPC 11, R61 does not say which IMM21 bits are unused: a trap word is held to the
shape of `.hget`, which uses none, and a brk word to that of `.wp` (DESIGN CHOICE, log entry 115). -/
def decodeWord (cx : DecCtx) (w : IWord) : Decoded :=
  let op := (w.extractLsb' 86 10).toNat
  match opFmt op with
  | none => .bad (.illop op)
  | some fmt =>
    let fn := rawFn fmt w
    match build fmt w fn with
    | some i =>
      if !i.permitted cx then .bad (.illop op)
      else match highBit (mbzBits fmt w i.shape) with
        | some k => .bad (.mbz k)
        | none =>
          match illmodAt cx.n fmt w i (fnOk fn i) with
          | some k => .bad (.illmod k)
          | none => if i.slotOk then .ok i else .bad (.target op)
    | none => .bad (.illop op)

/-- The word of a slot in a line's bytes, little-endian (R47). -/
def wordOfBytes (bs : List Byte) : IWord :=
  (bs.take 12).foldr (fun b acc => (acc <<< 8) ||| b.setWidth 96) 0

/-- The widest launch: firmware privilege on a compute core with 256 registers. -/
def widest : DecCtx := { n := 256, fw := true, ctl := false }

/-- The instruction of a word given by its bits (96 of them; a shorter row has zeros above). -/
def decodeTableWord (_nbits w : Nat) : Option Instr :=
  match decodeWord widest (BitVec.ofNat 96 w) with
  | .ok i => some i
  | .bad _ => none

end Sys2Proof
end

