-- ==== Sys2Proof/Config.lean ====
section
/-!
DEFINITION. What an implementation fixes and the values the spec leaves open. A constant declared `opaque` has no body: no proof
can know its value, so a statement about the model holds for each value it might have. Also the model's turns: which agent makes
the next indivisible move (spec/00 R20 leaves the order of agents open; log entry 1).
-/
namespace Sys2Proof

/-- One move of one agent. -/
inductive Turn where
  /-- The quarter's running warp issues its next instruction (R183). -/
  | issue (core q : Nat)
  /-- An event of the table happens. -/
  | event (i : Instr)
  /-- Clocks pass on a core (R19). -/
  | clocks (core n : Nat)
  /-- A scratchpad or gang-window store or access in flight is performed (R162, R195). -/
  | perform (id : Nat)
  /-- A store in flight is forwarded early to the readers of its die (R355). -/
  | forward (id : Nat)
  /-- A scratchpad write of a gang is seen by every plain load from now on (R111, R272). -/
  | unveil (gid k : Nat)
  /-- An engine's write to global memory is seen by every plain load from now on (R272). -/
  | unveilGl (k : Nat)
  /-- A scratchpad load whose value nothing has used yet takes a store issued after it (R46, R111). -/
  | relook (gid wi t k : Nat)
  /-- A read copy is dropped without notice (R354). -/
  | dropCopy (die line : Nat)
  /-- A cached translation is dropped by a slice or a first-level buffer (R219). -/
  | dropTlb (k : Nat)
  /-- A word leaves a parameter cache (R196). -/
  | dropParam (core k : Nat)
  /-- A hardware checker or the fetch path will strike the next issue of a quarter: the unit, or a mask of line chunks
  (R63, R299, R341). -/
  | upset (core q : Nat) (fetch : Bool) (v : Nat)
  /-- A world's traffic is queued on a direction of a chip-to-chip link (R372, R376). -/
  | linkQueue (link world : Nat) (payload : List Byte)
  /-- The link of an Ultra Ethernet port comes up or goes down (R9, R340). -/
  | port (k : Nat) (up : Bool)
  /-- The ROM's test of a die's control complex ends (R13, R397). -/
  | romTest (die : Nat) (ok : Bool)
  /-- The module flash is written from outside the device (R399). -/
  | flash (addr : Nat) (bytes : List Byte)
  deriving DecidableEq, Repr, Inhabited

namespace Config

/-- The agent that moves at tick `k` when the agenda is empty (R20; log entry 1). -/
opaque turn : Nat → Turn

/-- The 512 key bits drawn at tick `k` (R331 to R333; log entry 7). -/
opaque freshKey : Nat → BitVec 512

/-- The 128-bit authentication tag of a sealed image (R326): of the key, the image, the world and the bib. -/
opaque imageTag : BitVec 128 → Nat → Nat → Nat → BitVec 128

/-- The number drawn for the signature that the device identity key makes at tick `k` (R339, R401). -/
opaque nonce : Nat → Nat

/-- What the sensors read at tick `k`: hottest die in 0.1 °C, core supply in mV, coolant flow in mL/min (R339). -/
opaque sensors : Nat → Nat × Nat × Nat

/-- The AES-256-GCM tag of a flit under a key, an IV, the header and the payload (R373). -/
opaque flitTag : BitVec 256 → BitVec 96 → List Byte → List Byte → BitVec 128

/-- The key two link ends derive for a slot at tick `k` (R373). -/
opaque linkKey : Nat → Bool → BitVec 256

/-- The private device identity key generated at enrolment at tick `k` (R401). -/
opaque identity : Nat → Nat

/-- The DRAM channel of a stack that a line of memory lies on: the spec numbers the lines' places in a stack nowhere (R346; log entry
46). -/
opaque dramChannel : Nat → Nat

/-- The DRAM bank that a line of memory lies in (R346; log entry 46). -/
opaque dramBank : Nat → Nat

/-- IDENT1.STEP, the silicon stepping of this part (R400). -/
opaque stepping : BitVec 8

/-- What register `j` of a thread's destination holds after a command that read a tile its warp did not own (R286, R295; log entry 111). -/
opaque strayTile : Nat → Nat → Nat → Word

/-- What the record of a trap taken at a tick reads for an o or l register that held no value (R309; log entry 22). -/
opaque unfilled : Nat → Nat → Word

end Config

end Sys2Proof
end

