-- ==== Sys2Proof/Machine/State.lean ====
section
/-!
DEFINITION. The state of the device as plain data: everything the spec names (INVENTORY.md, "State"), with the state after reset.
A `Map` holds (key, value) pairs; its operations stand in Machine/Tab. Memory is a list of `Host.Cell` in the canonical form that
Machine/Mem states: unlisted bytes read zero (spec/18 R334).
-/
namespace Sys2Proof.Machine

/-- Values by key; an unlisted key holds the reader's default. -/
abbrev Map (α : Type) := List (Nat × α)

/-- Bytes by address, listed in rising order, none of them zero (R334). -/
abbrev Memory := List Host.Cell

/-! ### Why a step stops -/

/-- The machine's own stops. -/
inductive Fault where
  /-- Raised by `exec` for an instruction when no warp holds an issue slot: no agent executes it. Safe: the machine stops where
  the hardware has no such step. -/
  | noIssuer
  deriving DecidableEq, Repr

/-- Why an instruction has no meaning. -/
inductive Refusal where
  /-- Raised by Dispatch for an instruction the model does not give a meaning yet. Safe: nothing is claimed of it. -/
  | notModelled (mnemonic : String)
  deriving DecidableEq, Repr

/-! ### Registers, threads and warps -/

/-- Why a register is poisoned: by a checker (F_PIPE) or by an uncorrectable error (F_ECC) (R299, R343). -/
inductive Poison where
  | pipe | ecc
  deriving DecidableEq, Repr

/-- A main or scalar register with its full/empty bit (R28) and poison (R299). -/
structure Reg where
  v    : Word := 0
  full : Bool := true
  bad  : Option Poison := none
  deriving DecidableEq, Repr

/-- A fault with its ADDR and AUX (R309, R311). -/
structure Flt where
  code : Nat
  addr : Nat := 0
  aux  : Nat := 0
  deriving DecidableEq, Repr

/-- A barrier object: the gang core that holds its bytes and its offset there (R243). -/
structure ObjRef where
  gc  : Nat
  off : Nat
  deriving DecidableEq, Repr

/-- A destination register group: main registers of a thread, or scalar registers of the warp. -/
inductive Dst where
  | m (i : Nat) (n : Nat)
  | s (i : Nat) (n : Nat)
  deriving DecidableEq, Repr

/-- What a thread waits for. -/
inductive Wait where
  /-- Nothing. -/
  | none
  /-- Registers of its warp, numbered as `Dst.keys`, that its group's issue found empty (R29). -/
  | regs (owed : List Nat)
  /-- As many command slots of its core's copy engine as are named, or, where none are, an entry of its quarter's matrix queue (R257,
  R284). -/
  | entry (slots : Option Nat)
  /-- The other members at a synchronising instruction (R158). -/
  | sync
  /-- The rejoin set jN, with the clock at which a jwaitt gives up and the register of its status (R166, R167). -/
  | jwait (jn : Nat) (limit : Option (Nat × Nat))
  /-- Phase `p` of an object, with the clock at which a bwaitt gives up, where the status goes, and the slot address of bget
  and bput.get (R251, R275, R277). -/
  | phase (o : ObjRef) (p : Word) (limit : Option Nat) (d : Dst) (slot : Option Word)
  /-- An arrival held at the object's unit, with the destination of its lap (R247). -/
  | held (o : ObjRef) (d : Option Dst)
  /-- One of its own open arrivals to close, before it arrives on an object (R247). -/
  | opens (o : ObjRef)
  /-- The other threads of AMASK to execute rte (R315). -/
  | rte (skip : Bool)
  /-- Nothing any more: its wait cannot complete, and F_UNREACH with this ADDR is due at its next issue (R159, R254). -/
  | unreach (addr : Nat)
  deriving DecidableEq, Repr

/-- A scratchpad load that has written its destination and whose value may still come from a store issued after it, for nothing orders
the two (R46, R111): its number, destination, gang core and offset, and how it reads. -/
structure Late where
  id     : Nat
  dst    : Dst
  gc     : Nat
  off    : Nat
  len    : Nat
  signed : Bool
  deriving DecidableEq, Repr

/-- One thread (R21 to R33, R86, R309): `owes` are the $pwerr bits that the instruction it waits at sets once it goes on (R40, R158). -/
structure Thread where
  t         : Nat
  bi        : Nat
  pc        : VAddr
  m         : List Reg
  o         : List (Option Word) := List.replicate 8 Option.none
  l         : List (Option Word) := List.replicate 2 Option.none
  badOl     : BitVec 10 := 0
  g         : BitVec 8 := 1
  rs        : List DWord := []
  k         : Nat := 0
  dcs       : Word := 0
  pwerr     : BitVec 8 := 0
  opens     : List (ObjRef × Word) := []
  wait      : Wait := .none
  exited    : Bool := false
  recCode   : Nat := 0
  recAddr   : Nat := 0
  recAux    : Nat := 0
  recO      : List (Option Word) := List.replicate 8 Option.none
  recL      : List (Option Word) := List.replicate 2 Option.none
  recBad    : BitVec 10 := 0
  recAt     : Option Nat := Option.none
  lastIssue : Nat := 0
  acqPt     : Nat := 0
  relPt     : Nat := 0
  lates     : List Late := []
  owes      : BitVec 8 := 0
  deriving DecidableEq, Repr

/-- A running stride: the program counter that issues next and the instructions issued (R32, R155). -/
structure Stride where
  pc : VAddr
  n  : Nat
  deriving DecidableEq, Repr

/-- A table store offered to its home slice (R215): thread, virtual and physical address, value and size. -/
structure TStore where
  t  : Nat
  va : Nat
  pa : Nat
  v  : Nat
  sz : Nat
  deriving DecidableEq, Repr

/-- Why a warp stalls in its issue slot without ending its stride (R86, R196, R215, R268): for a return, whether its data has arrived;
else the words, records (gl or sp, and address) or table stores still due. -/
inductive Stall where
  | ret (arrived : Bool)
  | param (todo : List Nat)
  | record (todo : List (Bool × Nat))
  | table (todo : List TStore) (answers : List (Nat × Nat))
  deriving DecidableEq, Repr

/-- A pending F_REMOTE or F_ACKLOST (R358). -/
structure Report where
  seq  : Word
  t    : Nat
  code : Nat
  pc   : VAddr
  deriving DecidableEq, Repr

/-- An exact value (R112, R125): the dyadic n × 2^e (`num 0` is +0), −0, or the markers of R126. A tile holds such values. -/
inductive Exact where
  | num (n : Int) (e : Int)
  | negZero
  | nan
  | inf (neg : Bool)
  deriving DecidableEq, Repr

/-- A partial tile: its owner and its 32 × 128 elements, row by row; an unlisted tile is all exact zero (R284, R295). -/
structure Tile where
  owner : Option (Nat × Nat) := Option.none
  x     : List (List Exact) := []
  bad   : Option Poison := Option.none
  deriving DecidableEq, Repr

/-- One warp (R21, R153 to R166, R308, R309, R319). -/
structure Warp where
  wi       : Nat
  core     : Nat
  quarter  : Nat
  slot     : Nat
  homeCore : Nat
  homeSlot : Nat
  s        : List Reg := List.replicate 64 {}
  j        : List TMask := List.replicate 16 0
  arr      : List TMask := List.replicate 16 0
  hentry   : DWord := 0
  inh      : Bool := false
  recPc    : VAddr := 0
  recMask  : TMask := 0
  recDefer : Bool := false
  evt      : BitVec 4 := 0
  stride   : Option Stride := Option.none
  passed   : Nat := 0
  unissued : Nat := 0
  demoted  : Bool := false
  spinPc   : VAddr := 0
  spinN    : Nat := 0
  spinBusy : Bool := false
  yielded  : Bool := false
  noticeYld : Bool := false
  woke     : Bool := false
  stall    : Option Stall := Option.none
  reports  : List Report := []
  noHit    : Option VAddr := Option.none
  dretry   : Option VAddr := Option.none
  pend     : List (VAddr × List (Nat × Flt)) := []
  relayTo  : Option (Nat × Nat × Nat) := Option.none
  carried  : List (Nat × Tile) := []
  entry    : Option Nat := Option.none
  teamSeq  : Nat := 0
  threads  : List Thread
  deriving DecidableEq, Repr

/-! ### Gangs, barrier objects and bindings -/

/-- A barrier object while it is live, field by field of its image (R243, R244), and the arrivals held at its unit (R247). -/
structure Obj where
  ref       : ObjRef
  clu       : Bool
  scope     : Scope
  lap       : Word := 0
  expArr    : Nat
  arr       : Nat
  expBytes  : Nat
  landed    : Nat := 0
  members   : TMask
  region0   : DWord := 0
  region1   : DWord := 0
  error     : DWord := 0
  inflight  : Nat := 0
  bib       : Nat
  exited    : Nat
  boundq    : Bool := false
  lastErr   : Bool := false
  errCur    : Bool := false
  lastShort : Bool := false
  shortCur  : Bool
  keep      : Bool
  bad       : Bool := false
  held      : List (Nat × Nat) := []
  deriving DecidableEq, Repr

/-- A bobbin's descriptor as a binding keeps it (R274). -/
structure Bobbin where
  base  : Nat
  slotb : Nat
  count : Nat
  gwRing : Bool
  gwBar : Bool
  fill  : Nat
  free  : Nat
  deriving DecidableEq, Repr

/-- A receive queue bound to a bobbin (R278). -/
structure Binding where
  core  : Nat
  queue : Nat
  bob   : Bobbin
  fillObj : ObjRef
  freeObj : ObjRef
  l0    : Word
  next  : Nat
  deriving DecidableEq, Repr

/-- A parameter window of a launch (R175). -/
structure Window where
  base  : Nat
  size  : Nat
  bound : Bool
  deriving DecidableEq, Repr

/-- A watchpoint (R317): KIND bit 0 loads, bit 1 stores. -/
structure Watch where
  addr : Nat := 0
  len  : Nat := 0
  kind : BitVec 2 := 0
  deriving DecidableEq, Repr

/-- One draft entry: its word and stage (R279). -/
structure DraftEntry where
  word  : IWord
  stage : Nat
  deriving DecidableEq, Repr

/-- One declared level of a launch (R170). -/
structure Level where
  dom    : Nat
  scope  : Scope
  extent : Nat
  deriving DecidableEq, Repr

/-- A pre-emption request: the clock of the notice's end, if notice was given, and the frames supplied (R321, R325). -/
structure Preempt where
  notice : Option Nat
  frames : List Nat
  deriving DecidableEq, Repr

/-- A scratchpad write that plain loads need not see yet (R111, R272): the gang core and offset, the bytes it replaced, and the thread
(warp and number) whose store it was, or none for an engine's. -/
structure Veil where
  gc  : Nat
  off : Nat
  old : List Byte
  by_ : Option (Nat × Nat)
  deriving DecidableEq, Repr

/-- One resident gang: the context of one block (R180, R325). -/
structure Gang where
  gid      : Nat
  bib      : Nat
  world    : Nat
  launch   : Nat
  block    : Nat
  blockT   : Nat
  threadsN : Nat
  cores    : List Nat
  ctl      : Bool := false
  n        : Nat
  spBytes  : Nat
  minop    : Nat
  prio     : Nat
  relayCap : Bool := false
  spillBase : Nat := 0
  spillSize : Nat := 0
  levels   : List Level
  windows  : List Window := []
  draft    : List DraftEntry := []
  nstage   : Nat := 0
  nextStage : Nat := 0
  root     : Option Nat := Option.none
  bp       : List DWord := List.replicate 4 0
  wp       : List Watch := List.replicate 2 {}
  sp       : List Memory
  rowBase  : List Nat
  veils    : List Veil := []
  objs     : List Obj := []
  binds    : List Binding := []
  preempt  : Option Preempt := Option.none
  warps    : List Warp
  deriving DecidableEq, Repr

/-! ### Memory traffic -/

/-- What a memory access in flight does. -/
inductive Act where
  /-- A load: sign-extend from the access (R107). -/
  | load (signed : Bool)
  /-- A store (R108). -/
  | store
  /-- An atomic with its operand and, for acas, compare value (R241). -/
  | atom (ty : Ty) (op : AOp) (b : Nat) (cmp : Option Nat)
  /-- A quotient or remainder on its way (R93). -/
  | value (v : Nat)
  deriving DecidableEq, Repr

/-- Where an access goes: the scratchpad of a gang core at an offset, or a physical address. -/
inductive Place where
  | pad (gc off : Nat)
  | phys (pa : Nat)
  | reg
  deriving DecidableEq, Repr

/-- An access of a thread between issue and its effect, with its outstanding-store entry (R28, R46, R358). Of a store on its way: whether
its die's readers see it early (`fwd`, R355), whether another agent of the die has read it or a release counts it as performed (`seen`,
R231, R237), and whether a release at scope core or clu does (`narrow`). -/
structure Flight where
  id      : Nat
  gid     : Nat
  wi      : Nat
  t       : Nat
  core    : Nat
  die     : Nat
  world   : Nat
  pc      : VAddr
  act     : Act
  gw      : Bool := false
  place   : Place
  va      : Nat := 0
  len     : Nat
  data    : List Byte := []
  observed : Bool := false
  scope   : Scope := .core
  ga      : Bool := false
  dst     : Option Dst := Option.none
  old     : List Word := []
  needOst : Bool := false
  seq     : Option Word := Option.none
  done    : Nat := 0
  fwd     : Bool := false
  seen    : Bool := false
  narrow  : Bool := false
  route   : List Nat := []
  refused : Bool := false
  issued  : Nat := 0
  deriving DecidableEq, Repr

/-- Bytes of global memory that an engine of a die has overwritten and that the die's plain loads need not see yet (R272). -/
structure GVeil where
  die : Nat
  pa  : Nat
  old : List Byte
  deriving DecidableEq, Repr

/-- A read copy of a line on a die that does not home it (R354). -/
structure Copy where
  die  : Nat
  line : Nat
  data : List Byte
  deriving DecidableEq, Repr

/-- An invalidation on its way to a die (`arrived = false`) or its acknowledgement on its way back (R355): `hold` for a ga
store, whose line serves no read until it is in. -/
structure Inval where
  line    : Nat
  die     : Nat
  store   : Nat
  hold    : Bool
  arrived : Bool := false
  deriving DecidableEq, Repr

/-- A frame-table entry (R211). -/
structure FrameE where
  dropSeq : Word := 0
  use     : Nat := 0
  valid   : Nat := 0
  mig     : Bool := false
  owner   : Nat := 0
  type    : Nat := 6
  bad     : Bool := false
  deriving DecidableEq, Repr

/-- A cached translation or level-1 entry (R219): its root and world, the page (or the level-1 index), the entry, and the holder:
a slice, or the first-level buffer of a core. -/
structure TlbE where
  slice : Bool
  at_   : Nat
  root  : Nat
  world : Nat
  l1    : Bool
  vpn   : Nat
  e1    : DWord
  e2    : DWord
  deriving DecidableEq, Repr

/-- A purge on its way to a slice (R219). -/
structure Purge where
  slice : Nat
  src   : Nat
  seq   : Word
  frame : Nat
  deriving DecidableEq, Repr

/-- A setroot, retype, tinv or relay answer still due (R218, R220, R221): the destination and the status or request. -/
inductive Req where
  | setroot (status : Word)
  | retype (frame : Nat) (type : Nat) (owner : Option Nat) (fw : Bool) (world : Nat)
  | tinv (world root vpn n : Nat) (status : Word) (before : Nat)
  deriving DecidableEq, Repr

/-- A request with its issuer and destination. -/
structure Pending where
  id  : Nat
  gid : Nat
  wi  : Nat
  t   : Nat
  dst : Dst
  req : Req
  deriving DecidableEq, Repr

/-- A migration in progress: the lines copied so far, the lines written since, and the copy (R226). -/
structure Mig where
  frame  : Nat
  dirty  : List Nat
  deriving DecidableEq, Repr

/-! ### Engines -/

/-- An address in a copy space (R262): the place of its first byte, unresolved for gl until the engine translates it. -/
structure EAddr where
  spc : CSpc
  a   : Nat
  deriving DecidableEq, Repr

/-- What a copy-engine command does (R264 to R271, R367). -/
inductive CmdKind where
  /-- cpy. -/
  | copy (src dst : EAddr) (len : Nat)
  | gather (list : Nat) (entries : Nat) (ssp : CSpc) (dst : EAddr)
  /-- cpyg once its list has been read: the source and length of each piece. -/
  | pieces (ps : List (Nat × Nat)) (ssp : CSpc) (dst : EAddr)
  /-- cpyt with the 192 bytes of its record. -/
  | tensor (store : Bool) (record : List Byte) (gw : Bool) (loc : Nat) (coords : List Int)
  | send (queue : Nat) (src : EAddr) (len : Nat)
  | nget (ty : Ty) (desc : List Byte)
  | nred (ty : Ty) (op : NOp) (desc : List Byte)
  | ncvt (ty : Ty) (ord : NOrd) (src : Ty) (desc : List Byte)
  deriving DecidableEq, Repr

/-- One copy-engine command (R257, R260): the words it has read and still needs by their place, and, of a near-memory command, whether it
has read what it must read before it writes (R368). -/
structure Cmd where
  slot    : Nat
  seq     : Word
  gid     : Nat
  wi      : Nat
  t       : Nat
  dst     : Dst
  kind    : CmdKind
  code    : Nat
  ga      : Bool
  sys     : Bool
  cnt     : Option (Bool × ObjRef)
  draft   : Bool := false
  total   : Nat
  counted : Nat := 0
  due     : Nat := 0
  sent    : Nat := 0
  donePcs : List Nat := []
  buf     : Map Word := []
  ready   : Bool := false
  status  : Option Nat := Option.none
  killed  : Bool := false
  deriving DecidableEq, Repr

/-- A ckill whose destination fills once its commands have stopped (R282). -/
structure KillWait where
  id   : Nat
  gid  : Nat
  wi   : Nat
  t    : Nat
  dst  : Dst
  n    : Nat
  left : List (Nat × Word)
  deriving DecidableEq, Repr

/-- One source register of a matrix command: the words captured, by thread, or the earlier command that will fill it (R297). -/
inductive MSrc where
  | cap (ws : List Word) (bad : Option Poison)
  | from_ (id : Nat)
  deriving DecidableEq, Repr

/-- One group C command in a quarter's queue (R284, R288, R297): its A, B and in-place C registers, its addresses, whether it started on a
tile that its warp did not own, and the scratchpad bytes it read at its start. -/
structure MCmd where
  id      : Nat
  seq     : Word
  gid     : Nat
  wi      : Nat
  instr   : Instr
  threads : TMask
  a       : List MSrc
  b       : List MSrc
  c       : List MSrc
  addr    : Nat := 0
  addr2   : Nat := 0
  cnt     : Option (Bool × ObjRef)
  teamN   : Nat := 0
  started : Bool := false
  stray   : Bool := false
  bad     : Option Poison := Option.none
  data    : List Byte := []
  deriving DecidableEq, Repr

/-- One quarter of a core (R183, R284). -/
structure Quarter where
  running : Option (Nat × Nat) := Option.none
  rr      : Map Nat := []
  tiles   : List Tile := [{}, {}]
  mq      : List MCmd := []
  mSeq    : Word := 0
  deriving DecidableEq, Repr

/-- An entry of a record cache (R268). -/
structure RecE where
  world : Nat
  gl    : Bool
  addr  : Nat
  bytes : List Byte
  deriving DecidableEq, Repr

/-- One core (R25, R186, R205, R257, R358). -/
structure Core where
  clock    : Nat := 0
  wakeReg  : BitVec 5 := 0
  gated    : Bool := false
  causes   : BitVec 5 := 0
  wakeAt   : Option Nat := Option.none
  bad      : List (List Nat) := [[], [], [], []]
  rowMap   : Map Nat := []
  slots    : List Cmd := []
  kills    : List KillWait := []
  ceSeq    : Word := 0
  tinvSeq  : BitVec 16 := 0
  osSeq    : Word := 0
  recCache : List RecE := []
  pcache   : Map Word := []
  quarters : List Quarter := [{}, {}, {}, {}]
  landing  : Option (Nat × Nat) := Option.none
  deriving DecidableEq, Repr

/-! ### Launches, clusters and the rest of the package -/

/-- A launch taken from its queue, until its completion word is written (R175 to R177). -/
structure Launch where
  lid      : Nat
  world    : Nat
  queue    : Nat
  record   : Nat
  entry    : Nat
  levels   : List Level
  regs     : Nat
  minop    : Nat
  prio     : Nat
  minCores : Nat
  relayCap : Bool
  spBytes  : Nat
  bib      : Nat
  draft    : Nat
  spillBase : Nat
  spillSize : Nat
  cpl      : Nat
  windows  : List Window
  root     : Option Nat
  threads  : Nat
  blockT   : Nat
  blocks   : Nat
  placed   : Nat := 0
  ended    : Nat := 0
  killed   : Bool := false
  passed   : Nat := 0
  reserve  : Option Nat := none
  status   : Option Nat := none
  deriving DecidableEq, Repr

/-- A launch queue: the records behind the current launch, each with the root its contexts start with (log entry 5), and that
launch (R178). -/
structure Queue where
  world   : Nat
  q       : Nat
  records : List (Nat × Option Nat) := []
  cur     : Option Nat := none
  deriving DecidableEq, Repr

/-- A visible cluster: its unit and four cores (R347). -/
structure Cluster where
  unit  : Nat
  cores : List Nat
  deriving DecidableEq, Repr

/-- A sealed context: the gang as saved, its limits counted from the seal (R169), its group C commands and tiles by warp (R300), the
frames of its image, and its tag (R326). -/
structure Sealed where
  gang   : Gang
  mq     : List MCmd
  tiles  : List (Nat × Nat × Tile)
  frames : List Nat
  image  : Nat
  tag    : BitVec 128
  deriving DecidableEq, Repr

/-- A pending operating-point step: its target and stage, and the contexts whose pre-emption the dispatcher has asked for (R182,
R208). -/
structure OpStep where
  target : Nat
  stage  : Nat
  asked  : List Nat := []
  deriving DecidableEq, Repr

/-- A release marker: of a release at sys, the messages it waits for (R380); of one that crosses bridges, its core and the route it takes
(R361). -/
structure Marker where
  gid  : Nat
  wi   : Nat
  t    : Nat
  msgs : List Nat := []
  core : Nat := 0
  route : List Nat := []
  deriving DecidableEq, Repr

/-- A message on a queue (R271, R378): its number, its payload, whether it has landed at its destination, and the peer it came from. -/
structure Msg where
  id      : Nat
  seq     : Word
  payload : List Byte
  landed  : Bool := false
  owner   : Option (Nat × Nat × Nat) := none
  peer    : Nat := 0
  deriving DecidableEq, Repr

/-- A network queue of a world (R378): of a send queue, the next message's number; of a receive queue, the number that lands next from
each peer, where one is known. -/
structure NetQueue where
  world : Nat
  q     : Nat
  opened : Bool := false
  peer  : Nat := 0
  rod   : Bool := true
  msgs  : List Msg := []
  held  : List Msg := []
  seq   : Word := 0
  want  : Map Word := []
  deriving DecidableEq, Repr

/-- A flit (R372). -/
structure Flit where
  credit  : Nat := 0
  world   : Nat := 0
  type    : Nat
  kslot   : Bool
  ackSeq  : Word := 0
  seq     : Word
  payload : List Byte := []
  tag     : BitVec 128 := 0
  deriving DecidableEq, Repr

/-- A key slot of a link: its key and the flits it has sealed (R373, R374). -/
structure KeySlot where
  key   : Option (BitVec 256) := none
  count : Nat := 0
  deriving DecidableEq, Repr

/-- One direction of a chip-to-chip link (R372 to R376): its sender and its receiver. Direction `d` of link `k` is numbered 2 k + d; an
unsent payload is marked where a reset has made it void. -/
structure Link where
  trained  : Bool := false
  failed   : Bool := false
  txSeq    : Word := 0
  slot0    : KeySlot := {}
  slot1    : KeySlot := {}
  cur      : Bool := false
  retire   : Option (Bool × Word) := none
  queued   : List (Bool × Nat × List Byte) := []
  held     : List Flit := []
  resend   : List Flit := []
  credits  : Nat := 0
  progress : Nat := 0
  rxSeq    : Word := 0
  fails    : Nat := 0
  nak      : Option Word := none
  voided   : List (Nat × Option Word) := []
  delivered : List (Nat × List Byte) := []
  freed    : Nat := 0
  deriving DecidableEq, Repr

/-- A packet of a stack controller's port (R370), and the 32-byte granules of its data that are poisoned, by their first byte (R371). -/
structure BaseReq where
  kind  : Nat
  port  : Nat
  tag   : Nat
  addr  : Nat
  len   : Nat
  world : Nat := 0
  mask  : TMask := 0
  data  : List Byte := []
  poison : Bool := false
  granules : List Nat := []
  deriving DecidableEq, Repr

/-- One HBM4E stack's base die: grant owners, requests outstanding and its write queue (R366, R371). -/
structure Stack where
  grants : Map Nat := []
  reqs   : List BaseReq := []
  queue  : List BaseReq := []
  reply  : Option BaseReq := none
  deriving DecidableEq, Repr

/-- An error log entry, and the step that made it (R402). -/
structure LogE where
  src   : Nat
  srcId : Nat
  seq   : Word := 0
  code  : Nat
  world : Nat := 0
  cls   : Nat
  addr  : Nat := 0
  pc    : Nat := 0
  made  : Nat := 0
  deriving DecidableEq, Repr

/-- One die's error log: entries, how many were freed and how many were not placed (R402). -/
structure Log where
  entries  : List LogE := []
  head     : Nat := 0
  overflow : Nat := 0
  deriving DecidableEq, Repr

/-- What enrolment fixes (R338, R340, R398, R401): the private identity key, its public point and the point's hash, among others. -/
structure Identity where
  key       : Nat := 0
  point     : List Byte := []
  devid     : List Byte := []
  owner     : Nat := 0
  port      : Nat := 0
  flowMin   : Nat := 0
  keyHashes : List (List Byte) := []
  revoked   : List Bool := []
  module_   : Bool := false
  deriving DecidableEq, Repr

/-- A UDP datagram over IPv6 on an Ultra Ethernet port: destination address and port, and the payload (R340). -/
structure Datagram where
  port    : Nat
  dst     : Nat
  dstPort : Nat
  payload : List Byte
  deriving DecidableEq, Repr

/-- Bring-up, keys and management: `tried` counts the image slots rejected in this bring-up, `ports` says which of the eight Ultra
Ethernet ports have a link that is up (R9, R338 to R340, R397 to R402). -/
structure Mgmt where
  stage    : Nat := 1
  slotSel  : Nat := 15
  tried    : Nat := 0
  fail     : Nat := 0
  locked   : Bool := false
  ctlDie   : Nat := 0
  healthy  : List Bool := [true, true, true, true]
  respV    : Bool := false
  respI    : Bool := false
  spent    : BitVec 2 := 0
  ftsel    : BitVec 25 := 0
  worldKeys : Map (BitVec 128) := []
  sealKey  : BitVec 128 := 0
  xtsKey   : BitVec 512 := 0
  tagKey   : BitVec 256 := 0
  alarm    : Option (List Byte) := none
  alarmPort : Option Nat := none
  alarmKind : Nat := 0
  alarmAt  : Nat := 0
  ports    : List Bool := List.replicate 8 false
  datagrams : List Datagram := []
  sent     : Nat := 0
  aseq     : Word := 0
  resets   : Word := 0
  measure  : List Byte := []
  report   : Option (List Byte) := none
  ident    : Option Identity := none
  flash    : Memory := []
  logs     : List Log := [{}, {}, {}, {}]
  logSeq   : Map Word := []
  deriving DecidableEq, Repr

/-- The device. -/
structure State where
  tick     : Nat
  nextId   : Nat
  agenda   : List Turn
  cur      : Option (Nat × Nat)
  upsets   : List (Nat × Nat × Bool × Nat)
  mem      : Memory
  bb       : Memory
  copies   : List Copy
  flights  : List Flight
  glVeils  : List GVeil
  invals   : List Inval
  hot      : List (Nat × List Nat)
  badMem   : List Nat
  badBb    : List Nat
  badPad   : List (Nat × Nat × Nat)
  frames   : Map FrameE
  dropNext : Map Word
  purges   : List Purge
  passed   : Map Word
  tlb      : List TlbE
  migs     : List Mig
  spares   : Map Nat
  pending  : List Pending
  gangs    : List Gang
  dying    : List Gang
  sealed   : List Sealed
  launches : List Launch
  queues   : List Queue
  rrWorld  : Map Nat
  rrQueue  : Map Nat
  bib      : BitVec 16
  opcur    : Nat
  opstep   : Option OpStep
  clusters : List Cluster
  poolCores : List Nat
  poolUnits : List Nat
  cores    : Map Core
  slicesBad : Map (List Nat)
  retiring : List (Nat × Nat)
  bridges  : List Bool
  markers  : List Marker
  hbm      : Map Stack
  quiesced : List Nat
  hardRepairs : List Nat
  rowSpares : List Nat
  burned   : List Nat
  links    : Map Link
  sendQs   : List NetQueue
  recvQs   : List NetQueue
  mgmt     : Mgmt
  deriving DecidableEq, Repr

/-- The visible clusters at shipment (R348, R9): on die `d`, cluster `k` is unit `10 d + k` and cores `40 d + 4 k` on. -/
def clustersAtReset : List Cluster :=
  (List.range 4).flatMap fun d => (List.range 9).map fun k =>
    { unit := 10 * d + k, cores := (List.range 4).map fun i => 40 * d + 4 * k + i }

/-- The machine right after reset: memory zero (R334), every frame FIRMWARE and owned by world 0 (R211, R212), counters at the
values of R407, the operating point 3 (R403), STATUS as R400, no work resident. -/
def State.reset : State where
  tick := 0
  nextId := 1
  agenda := []
  cur := none
  upsets := []
  mem := []
  bb := []
  copies := []
  flights := []
  glVeils := []
  invals := []
  hot := []
  badMem := []
  badBb := []
  badPad := []
  frames := []
  dropNext := []
  purges := []
  passed := []
  tlb := []
  migs := []
  spares := []
  pending := []
  gangs := []
  dying := []
  sealed := []
  launches := []
  queues := []
  rrWorld := []
  rrQueue := []
  bib := 1
  opcur := 3
  opstep := none
  clusters := clustersAtReset
  poolCores := (List.range 4).flatMap fun d => (List.range 4).map fun i => 40 * d + 36 + i
  poolUnits := (List.range 4).map fun d => 10 * d + 9
  cores := []
  slicesBad := []
  retiring := []
  bridges := [true, true, true, true]
  markers := []
  hbm := []
  quiesced := []
  hardRepairs := []
  rowSpares := []
  burned := []
  links := []
  sendQs := []
  recvQs := []
  mgmt := {}

end Sys2Proof.Machine
end

