-- ==== Sys2Proof/Machine/Tab.lean ====
section
/-!
DEFINITION. Operations on maps, lists by index, thread masks, and memory in its canonical form (little-endian, spec/02 R45;
unlisted bytes zero, spec/18 R334).
-/
namespace Sys2Proof.Machine

/-! ### Maps and lists -/

/-- The value of a key, or a default. -/
def Map.get {α : Type} (m : Map α) (k : Nat) (d : α) : α :=
  match m.find? (fun p => p.1 = k) with
  | some p => p.2
  | none => d

/-- A map with one key set. -/
def Map.put {α : Type} (m : Map α) (k : Nat) (v : α) : Map α :=
  (k, v) :: m.filter (fun p => p.1 ≠ k)

/-- A map with one key removed. -/
def Map.del {α : Type} (m : Map α) (k : Nat) : Map α := m.filter (fun p => p.1 ≠ k)

/-- The value of a key, if listed. -/
def Map.get? {α : Type} (m : Map α) (k : Nat) : Option α := (m.find? (fun p => p.1 = k)).map (·.2)

/-- A list with position `i` set to the image of what stands there. -/
def modAt {α : Type} (l : List α) (i : Nat) (f : α → α) : List α :=
  match l, i with
  | [], _ => []
  | x :: r, 0 => f x :: r
  | x :: r, k + 1 => x :: modAt r k f

/-- Position `i` of a list, or a default. -/
def nth {α : Type} (l : List α) (i : Nat) (d : α) : α := (l[i]?).getD d

/-- The least element of a list under a key, first found first. -/
def leastBy {α : Type} (key : α → Nat) : List α → Option α
  | [] => none
  | x :: r =>
    match leastBy key r with
    | none => some x
    | some y => if key y < key x then some y else some x

/-! ### Thread masks -/

/-- The threads of a mask, ascending (R153). -/
def maskList (m : TMask) : List Nat := (List.range 128).filter (fun t => m.getLsbD t)

/-- The mask of a list of threads. -/
def maskOf (ts : List Nat) : TMask := ts.foldl (fun m t => m ||| (1#128 <<< t)) 0

/-! ### Memory -/

/-- The byte at an address: zero where nothing is listed (R334). -/
def Memory.read (m : Memory) (a : Nat) : Byte :=
  match m.find? (fun c => c.1 = a) with
  | some c => c.2
  | none => 0

/-- Memory with one byte written, in canonical form: a zero byte is not listed. -/
def Memory.write (m : Memory) (a : Nat) (v : Byte) : Memory :=
  match m with
  | [] => if v = 0 then [] else [(a, v)]
  | (b, w) :: r =>
    if a < b then (if v = 0 then (b, w) :: r else (a, v) :: (b, w) :: r)
    else if a = b then (if v = 0 then r else (a, v) :: r)
    else (b, w) :: Memory.write r a v

/-- The canonical form: addresses strictly rising from `lo`, no zero byte listed. -/
def Memory.wfFrom (m : Memory) (lo : Nat) : Bool :=
  match m with
  | [] => true
  | (b, w) :: r => decide (lo ≤ b) && w != 0 && Memory.wfFrom r (b + 1)

/-- The canonical form of memory. -/
def Memory.wf (m : Memory) : Bool := Memory.wfFrom m 0

/-- `n` bytes from an address up. -/
def Memory.readN (m : Memory) (a n : Nat) : List Byte := (List.range n).map fun i => m.read (a + i)

/-- Bytes written from an address up. -/
def Memory.writeN (m : Memory) (a : Nat) (bs : List Byte) : Memory :=
  match bs with
  | [] => m
  | b :: r => Memory.writeN (m.write a b) (a + 1) r

/-- The number of little-endian bytes (R45). -/
def leNat : List Byte → Nat
  | [] => 0
  | b :: r => b.toNat + 256 * leNat r

/-- `n` little-endian bytes of a number. -/
def leBytes (n v : Nat) : List Byte :=
  match n with
  | 0 => []
  | k + 1 => BitVec.ofNat 8 v :: leBytes k (v / 256)

/-- The number in `n` bytes of memory. -/
def Memory.num (m : Memory) (a n : Nat) : Nat := leNat (m.readN a n)

/-- A byte range whose every byte lies in another. -/
def overlaps (a n b k : Nat) : Bool := decide (a < b + k) && decide (b < a + n)

/-! ### Registers as numbers -/

/-- The number in a group of words, lowest word first (R22, R51). -/
def wordsNat : List Word → Nat
  | [] => 0
  | w :: r => w.toNat + 4294967296 * wordsNat r

/-- The words of a number, lowest first. -/
def natWords (n v : Nat) : List Word :=
  match n with
  | 0 => []
  | k + 1 => BitVec.ofNat 32 v :: natWords k (v / 4294967296)

/-- The pattern of an integer in `w` bits (R82: wrap). -/
def wrapN (w : Nat) (v : Int) : Nat := (v % (2 ^ w : Nat)).toNat

/-- A `w`-bit pattern read in two's complement. -/
def signedN (w v : Nat) : Int := if 2 ^ (w - 1) ≤ v % 2 ^ w then (v % 2 ^ w : Nat) - (2 ^ w : Nat) else (v % 2 ^ w : Nat)

/-- The low `w` bits of a number. -/
def lowN (w v : Nat) : Nat := v % 2 ^ w

/-- Bits [lo + n - 1 : lo] of a number. -/
def bitsN (v lo n : Nat) : Nat := v / 2 ^ lo % 2 ^ n

/-- Bit `i` of a number. -/
def bitN (v i : Nat) : Bool := v / 2 ^ i % 2 = 1

/-- IMM21 sign-extended (R40). -/
def immInt (i : BitVec 21) : Int := i.toInt

end Sys2Proof.Machine
end

