-- ==== Sys2Proof/Machine/Crypto.lean ====
section
/-!
DEFINITION. The digest and signature schemes that the spec names: SHA-384 (FIPS 180-4) and ECDSA on P-384 (FIPS 186-4) (spec/04 R81;
spec/18 R339; spec/24 R398, R401). Their constants and steps come from those standards (PRESUMED, log entry 105).
-/
namespace Sys2Proof.Machine

/-- `n` big-endian bytes of a number. -/
def beBytes (n v : Nat) : List Byte := (leBytes n v).reverse

/-- The number in big-endian bytes. -/
def beNat (b : List Byte) : Nat := leNat b.reverse

/-! ### SHA-384 -/

/-- The constants of the 80 rounds. -/
def shaK : List (BitVec 64) :=
  [0x428A2F98D728AE22, 0x7137449123EF65CD, 0xB5C0FBCFEC4D3B2F, 0xE9B5DBA58189DBBC,
   0x3956C25BF348B538, 0x59F111F1B605D019, 0x923F82A4AF194F9B, 0xAB1C5ED5DA6D8118,
   0xD807AA98A3030242, 0x12835B0145706FBE, 0x243185BE4EE4B28C, 0x550C7DC3D5FFB4E2,
   0x72BE5D74F27B896F, 0x80DEB1FE3B1696B1, 0x9BDC06A725C71235, 0xC19BF174CF692694,
   0xE49B69C19EF14AD2, 0xEFBE4786384F25E3, 0x0FC19DC68B8CD5B5, 0x240CA1CC77AC9C65] ++
  [0x2DE92C6F592B0275, 0x4A7484AA6EA6E483, 0x5CB0A9DCBD41FBD4, 0x76F988DA831153B5,
   0x983E5152EE66DFAB, 0xA831C66D2DB43210, 0xB00327C898FB213F, 0xBF597FC7BEEF0EE4,
   0xC6E00BF33DA88FC2, 0xD5A79147930AA725, 0x06CA6351E003826F, 0x142929670A0E6E70,
   0x27B70A8546D22FFC, 0x2E1B21385C26C926, 0x4D2C6DFC5AC42AED, 0x53380D139D95B3DF,
   0x650A73548BAF63DE, 0x766A0ABB3C77B2A8, 0x81C2C92E47EDAEE6, 0x92722C851482353B] ++
  [0xA2BFE8A14CF10364, 0xA81A664BBC423001, 0xC24B8B70D0F89791, 0xC76C51A30654BE30,
   0xD192E819D6EF5218, 0xD69906245565A910, 0xF40E35855771202A, 0x106AA07032BBD1B8,
   0x19A4C116B8D2D0C8, 0x1E376C085141AB53, 0x2748774CDF8EEB99, 0x34B0BCB5E19B48A8,
   0x391C0CB3C5C95A63, 0x4ED8AA4AE3418ACB, 0x5B9CCA4F7763E373, 0x682E6FF3D6B2B8A3,
   0x748F82EE5DEFB2FC, 0x78A5636F43172F60, 0x84C87814A1F0AB72, 0x8CC702081A6439EC] ++
  [0x90BEFFFA23631E28, 0xA4506CEBDE82BDE9, 0xBEF9A3F7B2C67915, 0xC67178F2E372532B,
   0xCA273ECEEA26619C, 0xD186B8C721C0C207, 0xEADA7DD6CDE0EB1E, 0xF57D4F7FEE6ED178,
   0x06F067AA72176FBA, 0x0A637DC5A2C898A6, 0x113F9804BEF90DAE, 0x1B710B35131C471B,
   0x28DB77F523047D84, 0x32CAAB7B40C72493, 0x3C9EBE0A15C9BEBC, 0x431D67C49C100D4C,
   0x4CC5D4BECB3E42B6, 0x597F299CFC657E2A, 0x5FCB6FAB3AD6FAEC, 0x6C44198C4A475817]

/-- The initial hash value. -/
def shaInit : List (BitVec 64) :=
  [0xCBBB9D5DC1059ED8, 0x629A292A367CD507, 0x9159015A3070DD17, 0x152FECD8F70E5939,
   0x67332667FFC00B31, 0x8EB44A8768581511, 0xDB0C2E0D64F98FA7, 0x47B5481DBEFA4FA4]

/-- A word rotated right. -/
def rotR (x : BitVec 64) (n : Nat) : BitVec 64 := x.rotateRight n

/-- The message schedule, extended by `n` words; the latest word stands first. -/
def shaExtend (w : List (BitVec 64)) (n : Nat) : List (BitVec 64) :=
  match n with
  | 0 => w
  | k + 1 =>
    let a := nth w 14 0
    let b := nth w 1 0
    let s0 := rotR a 1 ^^^ rotR a 8 ^^^ (a >>> 7)
    let s1 := rotR b 19 ^^^ rotR b 61 ^^^ (b >>> 6)
    shaExtend ((nth w 15 0 + s0 + nth w 6 0 + s1) :: w) k

/-- One round on the eight working variables. -/
def shaRound (v : List (BitVec 64)) (kw : BitVec 64 × BitVec 64) : List (BitVec 64) :=
  match v with
  | [a, b, c, d, e, f, g, h] =>
    let s1 := rotR e 14 ^^^ rotR e 18 ^^^ rotR e 41
    let ch := (e &&& f) ^^^ (~~~e &&& g)
    let t1 := h + s1 + ch + kw.1 + kw.2
    let s0 := rotR a 28 ^^^ rotR a 34 ^^^ rotR a 39
    let maj := (a &&& b) ^^^ (a &&& c) ^^^ (b &&& c)
    [t1 + (s0 + maj), a, b, c, d + t1, e, f, g]
  | v => v

/-- One 128-byte block taken into the hash value. -/
def shaBlock (h : List (BitVec 64)) (block : List Byte) : List (BitVec 64) :=
  let w := (List.range 16).map fun i => BitVec.ofNat 64 (beNat ((block.drop (8 * i)).take 8))
  let w := (shaExtend w.reverse 64).reverse
  List.zipWith (· + ·) h ((shaK.zip w).foldl shaRound h)

/-- The message padded to whole blocks, with its length in bits. -/
def shaPad (m : List Byte) : List Byte :=
  m ++ 0x80 :: List.replicate ((239 - m.length % 128) % 128) 0 ++ beBytes 16 (8 * m.length)

/-- The hash value over `n` blocks. -/
def shaBlocks (h : List (BitVec 64)) (m : List Byte) (n : Nat) : List (BitVec 64) :=
  match n with
  | 0 => h
  | k + 1 => shaBlocks (shaBlock h (m.take 128)) (m.drop 128) k

/-- The SHA-384 digest of a message: 48 bytes. -/
def sha384 (m : List Byte) : List Byte :=
  let p := shaPad m
  let h := shaBlocks shaInit p (p.length / 128)
  (List.range 6).flatMap fun i => beBytes 8 (nth h i 0).toNat

/-! ### P-384 -/

/-- The field's prime. -/
def ecP : Nat := 2 ^ 384 - 2 ^ 128 - 2 ^ 96 + 2 ^ 32 - 1
/-- The order of the base point. -/
def ecN : Nat := 0xFFFFFFFFFFFFFFFFFFFFFFFFFFFFFFFFFFFFFFFFFFFFFFFFC7634D81F4372DDF581A0DB248B0A77AECEC196ACCC52973
/-- The curve's constant term: y² = x³ − 3x + b. -/
def ecB : Nat := 0xB3312FA7E23EE7E4988E056BE3F82D19181D9C6EFE8141120314088F5013875AC656398D8A2ED19D2A85C8EDD3EC2AEF
/-- The base point. -/
def ecG : Nat × Nat :=
  (0xAA87CA22BE8B05378EB1C71EF320AD746E1D3B628BA79B9859F741E082542A385502F25DBF55296C3A545E3872760AB7,
   0x3617DE4A96262C6F5D9E98BF9292DC29F8F41DBD289A147CE9DA3113B5F0B8C00A60B1CE1D7E819D7A431D7C90EA0E5F)

/-- A power modulo `m`, over the low `n` bits of the exponent. -/
def powMod (m b e n : Nat) : Nat :=
  match n with
  | 0 => 1 % m
  | k + 1 =>
    let h := powMod m (b * b % m) (e / 2) k
    if e % 2 = 1 then b * h % m else h

/-- The inverse modulo a prime of at most 384 bits. -/
def invMod (m a : Nat) : Nat := powMod m (a % m) (m - 2) 384

/-- A difference modulo `m`. -/
def subMod (m a b : Nat) : Nat := (a % m + (m - b % m)) % m

/-- A point in Jacobian form: (X, Y, Z) stands for (X / Z², Y / Z³), and Z = 0 for the point at infinity. -/
abbrev EcPoint := Nat × Nat × Nat

/-- A point of two coordinates. -/
def ecOf (q : Nat × Nat) : EcPoint := (q.1, q.2, 1)

/-- A point's two coordinates; none at infinity. -/
def ecAffine (p : EcPoint) : Option (Nat × Nat) :=
  if p.2.2 % ecP = 0 then none
  else
    let z := invMod ecP p.2.2
    some (p.1 * z * z % ecP, p.2.1 * z * z * z % ecP)

/-- Twice a point: with the tangent's slope M = 3 (X² − Z⁴), S = 4 X Y². -/
def ecDouble (p : EcPoint) : EcPoint :=
  let (x, y, z) := p
  let yy := y * y % ecP
  let s := 4 * x * yy % ecP
  let m := 3 * subMod ecP (x * x) (z * z * z * z) % ecP
  let x' := subMod ecP (m * m) (2 * s)
  (x', subMod ecP (m * subMod ecP s x') (8 * yy * yy), 2 * y * z % ecP)

/-- The sum of two points. -/
def ecAdd (p q : EcPoint) : EcPoint :=
  let (x1, y1, z1) := p
  let (x2, y2, z2) := q
  if z1 = 0 then q
  else if z2 = 0 then p
  else
    let u := x1 * z2 * z2 % ecP
    let v := y1 * z2 * z2 * z2 % ecP
    let h := subMod ecP (x2 * z1 * z1) u
    let r := subMod ecP (y2 * z1 * z1 * z1) v
    if h = 0 then if r = 0 then ecDouble p else (1, 1, 0)
    else
      let a := u * h * h % ecP
      let x := subMod ecP (r * r) (h * h * h + 2 * a)
      (x, subMod ecP (r * subMod ecP a x) (v * h * h * h), h * z1 * z2 % ecP)

/-- A multiple of a point, over the low `n` bits of the factor. -/
def ecMul (k : Nat) (p : EcPoint) (n : Nat) : EcPoint :=
  match n with
  | 0 => (1, 1, 0)
  | j + 1 =>
    let h := ecMul (k / 2) (ecDouble p) j
    if k % 2 = 1 then ecAdd p h else h

/-- The uncompressed form of a point. -/
def ecBytes (q : Nat × Nat) : List Byte := 4 :: beBytes 48 q.1 ++ beBytes 48 q.2

/-- The public point of a private key. -/
def ecPoint (d : Nat) : List Byte := ecBytes ((ecAffine (ecMul d (ecOf ecG) 384)).getD (0, 0))

/-- Whether (r, s) is a signature of a digest under a public point. -/
def ecVerify (e r s : Nat) (q : Nat × Nat) : Bool :=
  let w := invMod ecN s
  if r = 0 ∨ ecN ≤ r ∨ s = 0 ∨ ecN ≤ s ∨ ecP ≤ q.1 ∨ ecP ≤ q.2 ∨ q.2 * q.2 % ecP ≠ (subMod ecP (q.1 * q.1 * q.1 + ecB) (3 * q.1)) then false
  else match ecAffine (ecAdd (ecMul (e * w % ecN) (ecOf ecG) 384) (ecMul (r * w % ecN) (ecOf q) 384)) with
    | some (x, _) => x % ecN = r
    | none => false

/-- The public points under which (r, s) can sign a digest: r⁻¹ (s R − e G) for each point R whose x is r modulo the order. -/
def ecSigners (e r s : Nat) : List (Nat × Nat) :=
  let w := invMod ecN r
  [r, r + ecN].flatMap fun x =>
    let y := powMod ecP (subMod ecP (x * x * x + ecB) (3 * x)) ((ecP + 1) / 4) 384
    [y, ecP - y].filterMap fun y =>
      ecAffine (ecAdd (ecMul (s * w % ecN) (ecOf (x, y)) 384) (ecMul (subMod ecN 0 (e * w)) (ecOf ecG) 384))

/-- Whether a signature, r then s, over a digest verifies under a point whose uncompressed form has the hash given (R81, R398). The image
holds the hash alone, so the point is one of those that could have made the signature. -/
def signatureOk (keyId digest sig : List Byte) : Bool :=
  let e := beNat digest
  let r := beNat (sig.take 48)
  let s := beNat ((sig.drop 48).take 48)
  (ecSigners e r s).any fun q => sha384 (ecBytes q) = keyId && ecVerify e r s q

/-- A signature of a message under a private key with the number `k` drawn for it: r then s (R339, R401). -/
def ecSign (d k : Nat) (m : List Byte) : List Byte :=
  let r := match ecAffine (ecMul k (ecOf ecG) 384) with
    | some (x, _) => x % ecN
    | none => 0
  let s := invMod ecN k * (beNat (sha384 m) + r * d) % ecN
  beBytes 48 r ++ beBytes 48 s

end Sys2Proof.Machine
end

