-- ==== Sys2Proof/Machine/Acc.lean ====
section
/-!
DEFINITION. Finding and changing the parts of the state: gangs, warps, threads, cores, quarters, frames and home slices.
-/
namespace Sys2Proof.Machine

/-- A warp named by its gang and its block index. -/
abbrev WRef := Nat × Nat

/-! ### Gangs, warps, threads -/

/-- The resident gang of a handle. -/
def State.gang? (s : State) (gid : Nat) : Option Gang := s.gangs.find? (fun g => g.gid = gid)

/-- A gang, resident or dying (R310). -/
def State.anyGang? (s : State) (gid : Nat) : Option Gang :=
  match s.gang? gid with
  | some g => some g
  | none => s.dying.find? (fun g => g.gid = gid)

/-- One gang changed. -/
def State.modGang (s : State) (gid : Nat) (f : Gang → Gang) : State :=
  { s with gangs := s.gangs.map fun g => if g.gid = gid then f g else g,
           dying := s.dying.map fun g => if g.gid = gid then f g else g }

/-- A warp of a gang. -/
def Gang.warp? (g : Gang) (wi : Nat) : Option Warp := g.warps.find? (fun w => w.wi = wi)

/-- One warp of a gang changed. -/
def Gang.modWarp (g : Gang) (wi : Nat) (f : Warp → Warp) : Gang :=
  { g with warps := g.warps.map fun w => if w.wi = wi then f w else w }

/-- A warp by its reference. -/
def State.warp? (s : State) (r : WRef) : Option Warp := (s.gang? r.1).bind (fun g => g.warp? r.2)

/-- One warp changed. -/
def State.modWarp (s : State) (r : WRef) (f : Warp → Warp) : State :=
  s.modGang r.1 fun g => g.modWarp r.2 f

/-- A thread of a warp. -/
def Warp.thread? (w : Warp) (t : Nat) : Option Thread := w.threads.find? (fun th => th.t = t)

/-- One thread of a warp changed. -/
def Warp.modThread (w : Warp) (t : Nat) (f : Thread → Thread) : Warp :=
  { w with threads := w.threads.map fun th => if th.t = t then f th else th }

/-- One thread changed. -/
def State.modThread (s : State) (r : WRef) (t : Nat) (f : Thread → Thread) : State :=
  s.modWarp r fun w => w.modThread t f

/-- Every thread of a warp changed. -/
def Warp.mapThreads (w : Warp) (f : Thread → Thread) : Warp := { w with threads := w.threads.map f }

/-- The live threads of a warp (R88). -/
def Warp.live (w : Warp) : List Thread := w.threads.filter (fun th => !th.exited)

/-- Whether a warp issues at the program counter that it retries without a hit check (R318). -/
def Warp.unhit (w : Warp) : Bool := w.noHit.isSome && w.noHit = w.stride.map (·.pc)

/-! ### Cores, dies and homes -/

/-- The die of a core: 40 compute cores a die (R9); control core `k` of die `d` is numbered 160 + 16 d + k here. -/
def dieOfCore (c : Nat) : Nat := if c < 160 then c / 40 else (c - 160) / 16

/-- A core's state. -/
def State.core (s : State) (c : Nat) : Core := s.cores.get c {}

/-- One core changed. -/
def State.modCore (s : State) (c : Nat) (f : Core → Core) : State :=
  { s with cores := s.cores.put c (f (s.core c)) }

/-- A quarter of a core. -/
def State.quarter (s : State) (c q : Nat) : Quarter := nth (s.core c).quarters q {}

/-- One quarter changed. -/
def State.modQuarter (s : State) (c q : Nat) (f : Quarter → Quarter) : State :=
  s.modCore c fun k => { k with quarters := modAt k.quarters q f }

/-- The home die of a physical frame number (R203). -/
def homeDieOfFrame (fn : Nat) : Nat :=
  if fn < 0x800000 then fn / 0x100000 / 2
  else (fn - 0x800000) / 0x80000 / 8

/-- The frame of a physical address (R210). -/
def frameOf (pa : Nat) : Nat := pa / 65536

/-- The home die of a physical address. -/
def homeDie (pa : Nat) : Nat := homeDieOfFrame (frameOf pa)

/-- The home slice of a physical address within its die (R201). -/
def sliceOf (pa : Nat) : Nat :=
  ((bitsN pa 7 12) ^^^ (bitsN pa 19 12) ^^^ (bitsN pa 31 10)) % 48

/-- The package-wide number of the slice that homes a frame's first line (R211, R9). -/
def homeSliceOfFrame (fn : Nat) : Nat := 48 * homeDieOfFrame fn + sliceOf (fn * 65536)

/-- The line of a physical address (R201). -/
def lineOf (pa : Nat) : Nat := pa / 128

/-- A frame-table entry (R211). -/
def State.frame (s : State) (fn : Nat) : FrameE := s.frames.get fn {}

/-- One frame-table entry changed. -/
def State.modFrame (s : State) (fn : Nat) (f : FrameE → FrameE) : State :=
  { s with frames := s.frames.put fn (f (s.frame fn)) }

/-- Warps per core for a register count (R171). -/
def warpsPerCore (n : Nat) : Nat := 4 * min 4 (256 / n)

/-- The visible clusters (R12). -/
def State.nclu (s : State) : Nat := s.clusters.length

/-- The visible cluster of a core, if any. -/
def State.clusterOf (s : State) (c : Nat) : Option Nat :=
  (List.range s.clusters.length).find? fun k =>
    match s.clusters[k]? with
    | some cl => cl.cores.contains c
    | none => false

/-- Usable scratchpad rows of a core at an operating point (R205). -/
def State.capAt (s : State) (c k : Nat) : Nat := min 2048 (2176 - (nth (s.core c).bad k []).length)

/-- The usable rows of a core at a point once the rows that are being retired have left its good sets (R345). -/
def State.capLess (s : State) (c k : Nat) : Nat :=
  min 2048 (2176 - (nth (s.core c).bad k [] ++ (s.retiring.filter fun r => r.1 = c).map (·.2)).eraseDups.length)

/-- The clock of a core. -/
def State.now (s : State) (c : Nat) : Nat := (s.core c).clock

/-! ### Registers -/

/-- A group of registers from index `i` written full and clean (R28, R299). -/
def putRegs (rs : List Reg) (i : Nat) (ws : List Word) : List Reg :=
  match ws with
  | [] => rs
  | v :: r => putRegs (modAt rs i fun _ => { v := v, full := true, bad := none }) (i + 1) r

/-- A group of registers emptied (R28). -/
def emptyRegs (rs : List Reg) (i n : Nat) : List Reg :=
  match n with
  | 0 => rs
  | k + 1 => emptyRegs (modAt rs i fun r => { r with full := false }) (i + 1) k

/-- A group of registers made full again with the values they held (R286, R359). -/
def refillRegs (rs : List Reg) (i n : Nat) : List Reg :=
  match n with
  | 0 => rs
  | k + 1 => refillRegs (modAt rs i fun r => { r with full := true }) (i + 1) k

/-- A group of registers poisoned and full (R299, R343). -/
def poisonRegs (rs : List Reg) (i n : Nat) (p : Poison) : List Reg :=
  match n with
  | 0 => rs
  | k + 1 => poisonRegs (modAt rs i fun r => { r with full := true, bad := some p }) (i + 1) k p

/-- Words of a register file from index `i`. -/
def regWords (rs : List Reg) (i n : Nat) : List Word := (List.range n).map fun k => (nth rs (i + k) {}).v

/-- One destination group of a thread or of its warp changed. -/
def Warp.onDst (w : Warp) (t : Nat) (d : Dst) (f : List Reg → Nat → Nat → List Reg) : Warp :=
  match d with
  | .m i n => w.modThread t fun th => { th with m := f th.m i n }
  | .s i n => { w with s := f w.s i n }

/-- The words a destination group holds. -/
def Warp.dstWords (w : Warp) (t : Nat) (d : Dst) : List Word :=
  match d with
  | .m i n => match w.thread? t with | some th => regWords th.m i n | none => []
  | .s i n => regWords w.s i n

/-- The registers of a destination group of thread `t`, numbered within its warp: the scalar registers first, then 256 for each
thread. -/
def Dst.keys (t : Nat) (d : Dst) : List Nat :=
  match d with
  | .m i n => (List.range n).map fun k => 64 + 256 * t + i + k
  | .s i n => (List.range n).map fun k => i + k

/-- A register of a warp by its number. -/
def Warp.regAt (w : Warp) (k : Nat) : Reg :=
  if k < 64 then nth w.s k {}
  else match w.thread? ((k - 64) / 256) with
    | some th => nth th.m ((k - 64) % 256) {}
    | none => {}

/-- Threads blocked for registers that are full by now become ready (R29, R183). -/
def Warp.refilled (w : Warp) : Warp :=
  w.mapThreads fun th => match th.wait with
    | .regs owed => if owed ≠ [] && owed.all (fun k => (w.regAt k).full) then { th with wait := .none } else th
    | _ => th

/-- Whether a thread of a warp waits for one of some registers (R186). -/
def Warp.waitsFor (w : Warp) (ks : List Nat) : Bool :=
  w.threads.any fun th => match th.wait with | .regs owed => ks.any owed.contains | _ => false

/-- Threads of a warp that are blocked for command slots or a queue entry become ready where those are free: `slots` and `entries` are how
many command slots of its core and entries of its quarter's queue are free (R183, R257, R284). -/
def Warp.wakeSlots (w : Warp) (slots entries : Nat) : Warp :=
  w.mapThreads fun th => match th.wait with
    | .entry (some n) => if n ≤ slots then { th with wait := .none } else th
    | .entry none => if 0 < entries then { th with wait := .none } else th
    | _ => th

/-- A wake cause reaches a core (R186): recorded while the core is gated and no wake has begun in an earlier clock; the first
one begins the wake. -/
def Core.cause (k : Core) (bit : Nat) : Core :=
  if k.gated then
    match k.wakeAt with
    | none => { k with causes := 1#5 <<< bit, wakeAt := some (k.clock + 24) }
    | some u => if u = k.clock + 24 then { k with causes := k.causes ||| (1#5 <<< bit) } else k
  else k

/-- A wake cause reaches the core a warp sits on. -/
def State.wakeCause (s : State) (r : WRef) (bit : Nat) : State :=
  match s.warp? r with
  | some w => s.modCore w.core (fun k => k.cause bit)
  | none => s

/-- A destination group of a thread fills as `f` says: the threads blocked for it become ready once all they wait for is full; a core
gated meanwhile has a wake cause where a thread waited for it (R186); and a new value ends a spin (R185). -/
def State.filled (s : State) (r : WRef) (t : Nat) (d : Dst) (f : List Reg → Nat → Nat → List Reg) : State :=
  match s.warp? r with
  | none => s
  | some w =>
    let v := w.onDst t d f
    let new := v.dstWords t d != w.dstWords t d
    let s := s.modWarp r fun w =>
      { (w.onDst t d f).refilled with demoted := w.demoted && !new, spinBusy := w.spinBusy || new }
    if w.waitsFor (d.keys t) then s.wakeCause r 1 else s

/-- A result arrives. One owed to an exited thread is discarded (R28, R29, R88, R186). -/
def State.fill (s : State) (r : WRef) (t : Nat) (d : Dst) (ws : List Word) : State :=
  let gone := match d, (s.warp? r).bind fun w => w.thread? t with
    | .m _ _, some th => th.exited
    | .m _ _, none => true
    | .s _ _, _ => false
  if gone then s else s.filled r t d fun rs i _ => putRegs rs i ws

/-- A destination fills poisoned (R299, R343). -/
def State.fillBad (s : State) (r : WRef) (t : Nat) (d : Dst) (p : Poison) : State := s.filled r t d fun rs i n => poisonRegs rs i n p

/-- A destination becomes full again with its old value (R286, R359, R360). -/
def State.refill (s : State) (r : WRef) (t : Nat) (d : Dst) : State := s.filled r t d refillRegs

/-- A destination empties (R28). -/
def State.emptyDst (s : State) (r : WRef) (t : Nat) (d : Dst) : State :=
  s.modWarp r fun w => w.onDst t d emptyRegs

/-- The threads of every warp on the cores that `on` selects that wait for command slots or a queue entry become ready where those are free
(R183, R257, R284). -/
def State.wakeOn (s : State) (on : Nat → Bool) : State :=
  { s with gangs := s.gangs.map fun g =>
      { g with warps := g.warps.map fun w =>
          if on w.core then w.wakeSlots (8 - (s.core w.core).slots.length) (8 - (s.quarter w.core w.quarter).mq.length) else w } }

/-- A command slot or a queue entry of a core was freed (R257, R284). -/
def State.wakeCore (s : State) (c : Nat) : State := s.wakeOn fun k => k = c

/-- A fresh number for a flight, command or launch (log entry 2). -/
def State.fresh (s : State) : Nat × State := (s.nextId, { s with nextId := s.nextId + 1 })

end Sys2Proof.Machine
end

