-- ==== Sys2Proof/Machine/Trans.lean ====
section
/-!
DEFINITION. Translation through the two-level tables and the translation caches (spec/12 R213, R214, R219), drops (R219), the
fetch of a line and the checks of a transfer target (spec/02 R33 to R36, spec/05 R85).
-/
namespace Sys2Proof.Machine

/-! ### Fault codes (R311) -/

/-- F_ILLOP (R311). -/
def fIllop : Nat := 0x1001
/-- F_ILLMOD (R311). -/
def fIllmod : Nat := 0x1002
/-- F_MBZ (R311). -/
def fMbz : Nat := 0x1003
/-- F_TARGET (R311). -/
def fTarget : Nat := 0x1004
/-- F_EMPTY (R311). -/
def fEmpty : Nat := 0x1005
/-- F_STALE (R311). -/
def fStale : Nat := 0x1006
/-- F_ALIGN (R311). -/
def fAlign : Nat := 0x1007
/-- F_STACK (R311). -/
def fStack : Nat := 0x1008
/-- F_PARAM (R311). -/
def fParam : Nat := 0x1009
/-- F_FETCH (R311). -/
def fFetch : Nat := 0x100A
/-- F_PAGE (R311). -/
def fPage : Nat := 0x2001
/-- F_PERM (R311). -/
def fPerm : Nat := 0x2002
/-- F_REFUSE with subcode 0 (R311). -/
def fRefuse : Nat := 0x2100
/-- F_REMOTE (R311). -/
def fRemote : Nat := 0x2201
/-- F_ACKLOST (R311). -/
def fAcklost : Nat := 0x2202
/-- F_GANG (R311). -/
def fGang : Nat := 0x2301
/-- F_MASK (R311). -/
def fMask : Nat := 0x3001
/-- F_UNREACH (R311). -/
def fUnreach : Nat := 0x3002
/-- F_MEMBER (R311). -/
def fMember : Nat := 0x3003
/-- F_SHAPE (R311). -/
def fShape : Nat := 0x4001
/-- F_PIPE (R311). -/
def fPipe : Nat := 0x5001
/-- F_ECC (R311). -/
def fEcc : Nat := 0x5002
/-- F_BRK (R311). -/
def fBrk : Nat := 0x7001
/-- F_WATCH (R311). -/
def fWatch : Nat := 0x7002

/-! ### Table entries -/

/-- What an access asks of a translation (R214). -/
inductive AccKind where
  /-- A load. -/
  | load
  /-- A st or sto of a thread: into a table frame it is a table store (R215). -/
  | store
  /-- Any other store: spills and engine writes. -/
  | plainStore
  | atomic
  | fetch
  deriving DecidableEq, Repr

/-- Fields of an entry (R213). -/
def eV (e : DWord) : Bool := e.getLsbD 63
/-- R (R213). -/
def eR (e : DWord) : Bool := e.getLsbD 62
/-- W (R213). -/
def eW (e : DWord) : Bool := e.getLsbD 61
/-- X (R213). -/
def eX (e : DWord) : Bool := e.getLsbD 60
/-- KIND (R213). -/
def eKind (e : DWord) : Nat := (e.extractLsb' 58 2).toNat
/-- FRAME (R213). -/
def eFrame (e : DWord) : Nat := (e.extractLsb' 33 25).toNat

/-- Words of a range, for poison. -/
def wordsIn (a n : Nat) : List Nat := ((List.range n).map fun k => (a + k) / 4).eraseDups

/-- Whether a physical range holds a poisoned word (R343). -/
def State.memBad (s : State) (a n : Nat) : Bool := (wordsIn a n).any fun w => s.badMem.contains w

/-- Entry `i` of a table frame (R213). -/
def State.entry (s : State) (frame i : Nat) : DWord := BitVec.ofNat 64 (s.mem.num (frame * 65536 + 8 * i) 8)

/-- The virtual page of an address (R219). -/
def vpnOf (va : Nat) : Nat := va / 65536 % 67108864

/-- The slice that may hold the translation of a page (R219). -/
def tlbSlice (vpn : Nat) : Nat :=
  bitsN vpn 0 4 ^^^ bitsN vpn 4 4 ^^^ bitsN vpn 8 4 ^^^ bitsN vpn 12 4 ^^^ bitsN vpn 16 4 ^^^ bitsN vpn 20 4 ^^^ bitsN vpn 24 2

/-- The cached translation of an address: of the core's buffer, or of the page's slice (R219). -/
def State.cachedFull (s : State) (core world root va : Nat) : Option TlbE :=
  let vpn := vpnOf va
  s.tlb.find? fun e => !e.l1 && e.root = root && e.world = world && e.vpn = vpn &&
    (if e.slice then e.at_ = tlbSlice vpn else e.at_ = core)

/-- The cached level-1 entry over an address (R219). -/
def State.cachedL1 (s : State) (world root va : Nat) : Option TlbE :=
  let vpn := vpnOf va
  s.tlb.find? fun e => e.l1 && e.slice && e.root = root && e.world = world && e.vpn = vpn / 8192 && e.at_ = tlbSlice vpn

/-- The level-1 entry of a walk, cached or read (R214, R219). -/
def State.levelOne (s : State) (world root va : Nat) : DWord :=
  match s.cachedL1 world root va with
  | some e => e.e1
  | none => s.entry root (va / 536870912 % 8192)

/-- The entries that translate an address: a cached translation if there is one, else a walk, whose level-1 entry may itself be cached
(R214, R219). -/
def State.entries (s : State) (core world root va : Nat) : Option (DWord × DWord) :=
  match s.cachedFull core world root va with
  | some e => some (e.e1, e.e2)
  | none =>
    let e1 := s.levelOne world root va
    if !eV e1 then none
    else
      let e2 := s.entry (eFrame e1) (vpnOf va % 8192)
      if eV e2 then some (e1, e2) else none

/-- Whether a table entry cannot be read: its word is poisoned, or its frame's frame-table entry (R343). -/
def State.entryBad (s : State) (frame i : Nat) : Bool := s.memBad (frame * 65536 + 8 * i) 8 || (s.frame frame).bad

/-- Whether a walk meets an entry it cannot read (R343; log entry 66). -/
def State.walkBad (s : State) (core world root va : Nat) : Bool :=
  (s.cachedFull core world root va).isNone &&
    (((s.cachedL1 world root va).isNone && s.entryBad root (va / 536870912 % 8192)) ||
      (eV (s.levelOne world root va) && s.entryBad (eFrame (s.levelOne world root va)) (vpnOf va % 8192)))

/-- A translation remembered by the core's buffer and the page's slice (R219). -/
def State.cacheTlb (s : State) (core world : Nat) (root : Option Nat) (va : Nat) : State :=
  match root with
  | none => s
  | some r =>
    match (if s.walkBad core world r va then none else s.entries core world r va) with
    | none => s
    | some (e1, e2) =>
      let vpn := vpnOf va
      let sl := tlbSlice vpn
      let full : TlbE := { slice := true, at_ := sl, root := r, world := world, l1 := false, vpn := vpn, e1 := e1, e2 := e2 }
      let l1 : TlbE := { full with l1 := true, vpn := vpn / 8192, e2 := 0 }
      let buf : TlbE := { full with slice := false, at_ := core }
      { s with tlb := s.tlb ++ ([full, l1, buf].filter fun e => !s.tlb.contains e) }

/-- The type a translation's target counts as (R214: firmware sees a FIRMWARE frame as data or code). -/
def targetType (world type kind : Nat) : Nat :=
  if world = 0 ∧ type = 6 then (if kind = 1 then 1 else if kind = 2 then 2 else 6) else type

/-- Whether a type is a table's (R210). -/
def isTable (t : Nat) : Bool := t = 3 || t = 4

/-- The bits that a valid entry holds at zero (R213). -/
def entryReserved (e : DWord) : Bool := (e.extractLsb' 16 17) != 0

/-- Why a table frame refuses a table store (R216): the subcode, or 0. -/
def State.tableRefuse (s : State) (t o v sz : Nat) : Nat :=
  let T := s.frame t
  let e : DWord := BitVec.ofNat 64 v
  let old := s.entry t o
  if sz ≠ 8 then 6
  else if !eV e then 0
  else
    let F := s.frame (eFrame e)
    let type := targetType T.owner F.type (eKind e)
    if (T.type = 3 ∧ eKind e ≠ 0) ∨ (T.type = 4 ∧ eKind e = 0) ∨ (eKind e = 0 ∧ F.type = 3) then 1
    else if F.owner ≠ T.owner then 2
    else if eW e && isTable F.type then 3
    else if eKind e = 3 ∨ entryReserved e then 4
    else if eKind e = 0 ∧ (F.type ≠ 4 ∨ eR e ∨ eX e) then 4
    else if eKind e = 1 ∧ !((type = 1 && !eX e) || (isTable F.type && eR e && !eX e)) then 4
    else if eKind e = 2 ∧ (type ≠ 2 ∨ eW e) then 4
    else if (!eV old || eFrame old ≠ eFrame e) ∧ F.use = 65535 then 5
    else 0

/-- What a translation answers. -/
inductive Trans where
  /-- The physical address, and whether the access is a table store. -/
  | ok (pa : Nat) (table : Bool)
  | bad (f : Flt)
  deriving DecidableEq, Repr

/-- Whether the entry and the target's type permit the access, and whether it is then a table store (R214, R215). -/
def permits (k : AccKind) (e2 : DWord) (type : Nat) : Option Bool :=
  match k with
  | .load => if eR e2 then some false else none
  | .store =>
    if type = 1 then (if eW e2 then some false else none)
    else if type = 3 ∨ type = 4 then some true else none
  | .plainStore => if type = 1 ∧ eW e2 then some false else none
  | .atomic => if eR e2 ∧ eW e2 ∧ type = 1 then some false else none
  | .fetch => if eKind e2 = 2 ∧ eX e2 then some false else none

/-- The translation of a 64-bit address for one access (R44, R214): F_PAGE where bits [63:42] are set or there is no root, F_ECC where
the walk reads poison, F_PAGE where no entry is valid, then F_PERM, then F_ECC where the target's frame-table entry is poisoned
(R343). -/
def State.translate (s : State) (core world : Nat) (root : Option Nat) (va : Nat) (k : AccKind) : Trans :=
  if 2 ^ 42 ≤ va then .bad { code := fPage, addr := va }
  else match root with
    | none => .bad { code := fPage, addr := va }
    | some r =>
      if s.walkBad core world r va then .bad { code := fEcc, addr := va }
      else match s.entries core world r va with
      | none => .bad { code := fPage, addr := va }
      | some (_, e2) =>
        let fr := s.frame (eFrame e2)
        match permits k e2 (targetType world fr.type (eKind e2)) with
        | none => .bad { code := fPerm, addr := va }
        | some table =>
          if fr.bad then .bad { code := fEcc, addr := va }
          else .ok (eFrame e2 * 65536 + va % 65536) table

/-- One use of a frame given up; the last one starts a purge of every slice (R219). -/
def State.drop (s : State) (fn : Nat) : State :=
  let e := s.frame fn
  if e.use ≤ 1 then
    let h := homeSliceOfFrame fn
    let n := s.dropNext.get h 1
    { (s.modFrame fn fun e => { e with use := 0, dropSeq := n }) with
      dropNext := s.dropNext.put h (n + 1),
      purges := s.purges ++ (List.range 16).map fun k => { slice := k, src := h, seq := n, frame := fn } }
  else s.modFrame fn fun e => { e with use := e.use - 1 }

/-- Whether a slice has passed the drop of a frame (R219). -/
def State.hasPassed (s : State) (slice fn : Nat) : Bool :=
  let p := s.passed.get (slice * 192 + homeSliceOfFrame fn) (0 : Word)
  decide ((p - (s.frame fn).dropSeq).toNat < 2147483648)

/-! ### Fetch lines -/

/-- The line of a program counter and its slot (R33). -/
def pcLine (pc : VAddr) : Nat := pc.toNat / 64 * 64
/-- The slot of a program counter (R33). -/
def pcSlot (pc : VAddr) : Nat := pc.toNat % 64 / 12

/-- The sequential successor (R33); past the top of the address space it wraps (log entry 13). -/
def nextPc (pc : VAddr) : VAddr := if pcSlot pc < 4 then pc + 12 else BitVec.ofNat 42 (pcLine pc + 64)

/-- Whether a value has the form of a program counter (R33). -/
def pcForm (v : Nat) : Bool :=
  decide (v < 2 ^ 42) && (v % 64 = 0 || v % 64 = 12 || v % 64 = 24 || v % 64 = 36 || v % 64 = 48)

/-- The line word (R34). -/
def lineWord (line : List Byte) : Nat := leNat (line.drop 60)

/-- The parity of a number's bits. -/
def parityN (w v : Nat) : Bool := (List.range w).foldl (fun p i => p ^^ bitN v i) false

/-- The mask of chunks whose parity disagrees (R35). -/
def badChunks (line : List Byte) : Nat :=
  let body := leNat (line.take 60)
  let lw := lineWord line
  (List.range 8).foldl (fun m i => if parityN 60 (bitsN body (60 * i) 60) = bitN lw (24 + i) then m else m + 2 ^ i) 0

/-- The fault of a fetched line, if any: F_FETCH with the chunk mask, then F_MBZ for the line word (R35, R61). -/
def lineFault (line : List Byte) (struck : Nat) : Option Flt :=
  let m := badChunks line ^^^ struck
  if m ≠ 0 then some { code := fFetch, addr := m }
  else
    let low := lineWord line % 32768
    if low ≠ 0 then some { code := fMbz, addr := 96 + Nat.log2 low } else none

/-- The 64 bytes of a line for a context, or the fault of its translation, or of a poisoned word, with the address asked for (R33,
R343). -/
def State.fetch (s : State) (g : Gang) (core : Nat) (pc : Nat) : Except Flt (List Byte) :=
  match s.translate core g.world g.root (pc / 64 * 64) .fetch with
  | .bad f => .error { f with addr := pc }
  | .ok pa _ => if s.memBad pa 64 then .error { code := fEcc, addr := pc } else .ok (s.mem.readN pa 64)

/-- The check of a transfer's target (R85): form and range, translation, the line, and TGT unless a retry leaves it out (R36). -/
def State.targetFault (s : State) (g : Gang) (core : Nat) (v : Nat) (needTgt : Bool) : Option Flt :=
  if !pcForm v then some { code := fTarget, addr := v }
  else match s.fetch g core v with
    | .error f => some f
    | .ok line =>
      match lineFault line 0 with
      | some f => some f
      | none =>
        if needTgt && !bitN (lineWord line) (15 + v % 64 / 12) then some { code := fTarget, addr := v } else none

end Sys2Proof.Machine
end

