-- ==== Sys2Proof/Machine/Ops.lean ====
section
/-!
DEFINITION. The error log, lock-down, killing and ending a context, posting an event, TAKING A TRAP as one operation (spec/17 R307
to R312) and the return from one (R315), and the end of a stride (spec/02 R32).
-/
namespace Sys2Proof.Machine

/-! ### Error log, lock-down and events -/

/-- The class of a fault code (R311): 1 V, 2 I, 3 none. -/
def faultClass (code : Nat) : Nat :=
  if (0x2101 ≤ code ∧ code ≤ 0x2106) ∨ code = fRemote ∨ code = fGang then 1
  else if code = fFetch ∨ code = fPipe ∨ code = fEcc then 2
  else 3

/-- Whether sequence number `a` comes before `b` (R19). -/
def seqBefore (a b : Word) : Bool := a ≠ b && decide ((b - a).toNat < 2147483648)

/-- Whether an entry stands behind another: a later number of one source, or, of one step, a higher source (R402). -/
def LogE.behind (x e : LogE) : Bool :=
  if x.src = e.src ∧ x.srcId = e.srcId then seqBefore e.seq x.seq
  else x.made = e.made && decide (e.src < x.src ∨ (e.src = x.src ∧ e.srcId < x.srcId))

/-- Entries parted for a new one: those that may stay before it, and those that stand behind it or behind one that does (R402). -/
def partLog (es : List LogE) (e : LogE) : List LogE × List LogE :=
  es.foldl (fun p x => if x.behind e || p.2.any x.behind then (p.1, p.2 ++ [x]) else (p.1 ++ [x], p.2)) ([], [])

/-- An entry put in its place among those not yet freed: what stands behind it follows it, in its order (R402). -/
def placeLog (es : List LogE) (e : LogE) : List LogE := (partLog es e).1 ++ e :: (partLog es e).2

/-- An entry placed in a die's log, or an overflow counted (R402). -/
def State.logPut (s : State) (die : Nat) (e : LogE) : State :=
  let put := fun l : Log =>
    if l.entries.length < 4096 then { l with entries := placeLog l.entries { e with made := s.tick } }
    else { l with overflow := l.overflow + 1 }
  { s with mgmt := { s.mgmt with logs := modAt s.mgmt.logs die put } }

/-- An entry placed in a die's log under its source's next sequence number (R19, R402). A core's entries carry its outstanding-store
numbers, this one the next, which it takes; every other source counts its own entries from 0, a first value that no rule gives (log
entry 99). -/
def State.logEntry (s : State) (die : Nat) (e : LogE) : State :=
  if e.src = 1 then
    let q := (s.core e.srcId).osSeq
    (s.logPut die { e with seq := q }).modCore e.srcId fun c => { c with osSeq := q + 1 }
  else
    let key := e.src * 65536 + e.srcId
    let n := s.mgmt.logSeq.get key (0 : Word)
    let s := s.logPut die { e with seq := n }
    { s with mgmt := { s.mgmt with logSeq := s.mgmt.logSeq.put key (n + 1) } }

/-- The 200 bytes of the alarm record (R339). -/
def State.alarmRecord (s : State) (kind code world die pcore pc addr : Nat) : List Byte :=
  let (temp, vcore, flow) := Config.sensors s.tick
  let ident := s.mgmt.ident.getD {}
  let body := leBytes 4 0x4C41594C ++ leBytes 2 1 ++ leBytes 2 kind ++ leBytes 2 code ++ leBytes 1 world ++ leBytes 1 die ++
    leBytes 2 pcore ++ leBytes 2 0 ++ leBytes 8 pc ++ leBytes 8 addr ++ leBytes 4 s.mgmt.resets.toNat ++
    leBytes 4 s.mgmt.aseq.toNat ++ (List.range 48).map (fun i => nth ident.devid i 0) ++ leBytes 4 temp ++ leBytes 4 vcore ++
    leBytes 4 (if ident.module_ then flow else 0) ++ leBytes 4 0
  body ++ ecSign ident.key (Config.nonce s.tick) body

/-- The record goes out as the payload of a UDP datagram over IPv6 to the owner's address and port, from the lowest-numbered Ultra
Ethernet port whose link is up; that port then serves nothing else (R340). -/
def State.sendAlarm (s : State) : State :=
  let m := s.mgmt
  match m.alarm, m.alarmPort.or ((List.range 8).find? fun k => nth m.ports k false) with
  | some note, some p =>
    let ident := m.ident.getD {}
    let d : Datagram := { port := p, dst := ident.owner, dstPort := ident.port, payload := note }
    { s with mgmt := { m with alarmPort := some p, sent := m.sent + 1, datagrams := m.datagrams ++ [d] } }
  | _, _ => s

/-- A cause that goes into the error log: the security core's entry (R340, R402). -/
def State.logCause (s : State) (kind code world die pc addr : Nat) : State :=
  s.logEntry die { src := 6, srcId := s.mgmt.ctlDie, code := code, world := world, cls := min 2 kind, addr := addr, pc := pc }

/-- Lock-down (R312, R340): every core stops issuing and the security core sends the alarm record. A later cause is only logged; of two
causes in one step the record names the one of lower KIND, and the log has the other. -/
def State.lockDown (s : State) (kind code world die pcore pc addr : Nat) : State :=
  let m := s.mgmt
  if m.locked ∧ ¬(m.alarmAt = s.tick ∧ kind < m.alarmKind) then s.logCause kind code world die pc addr
  else
    let note := s.alarmRecord kind code world die pcore pc addr
    let old := fun (o n : Nat) => leNat (((m.alarm.getD []).drop o).take n)
    let s := if m.locked then s.logCause m.alarmKind (old 8 2) (old 10 1) (old 11 1) (old 16 8) (old 24 8) else s
    ({ s with mgmt := { s.mgmt with
        locked := true, alarm := some note, alarmKind := kind, alarmAt := s.tick, sent := 0, datagrams := [],
        aseq := if m.locked then m.aseq else m.aseq + 1 } } : State).sendAlarm

/-- An event bit posted to every warp of a context (R319). -/
def Gang.post (g : Gang) (bit : Nat) : Gang :=
  { g with warps := g.warps.map fun w => { w with evt := w.evt ||| (1#4 <<< bit) } }

/-- An event bit posted to a resident context; its cores have a wake cause (R186, R319). -/
def State.post (s : State) (gid bit : Nat) : State :=
  match s.gang? gid with
  | none => s
  | some g => g.warps.foldl (fun s w => s.modCore w.core fun k => k.cause 2) (s.modGang gid fun g => g.post bit)

/-- An event bit posted to every resident context (R208, R345). -/
def State.postResident (s : State) (bit : Nat) : State := s.gangs.foldl (fun s g => s.post g.gid bit) s

/-- An event bit posted to every context, sealed ones included (R319, R348). -/
def State.postAll (s : State) (bit : Nat) : State :=
  let s := s.postResident bit
  { s with sealed := s.sealed.map fun k => { k with gang := k.gang.post bit } }

/-! ### Strides -/

/-- The o and l registers emptied (R31). -/
def Thread.clearOl (th : Thread) : Thread :=
  { th with o := List.replicate 8 none, l := List.replicate 2 none, badOl := 0 }

/-- A warp whose stride has ended: o and l are lost (R31, R32). -/
def Warp.ended (w : Warp) : Warp := { w.mapThreads Thread.clearOl with stride := none, stall := none }

/-- A warp's stride ends and the issue slot is free (R31, R32). -/
def State.endStride (s : State) (r : WRef) : State :=
  match s.warp? r with
  | none => s
  | some w =>
    (s.modWarp r Warp.ended).modQuarter w.core w.quarter
      fun q => if q.running = some r then { q with running := none } else q

/-! ### The end of a context -/

/-- Whether an engine, a queue or a memory access still works for a gang (R177, R310). -/
def State.busy (s : State) (gid : Nat) : Bool :=
  s.flights.any (fun f => f.gid = gid) || s.pending.any (fun p => p.gid = gid) ||
  s.cores.any (fun c => c.2.slots.any (fun k => k.gid = gid) || c.2.kills.any (fun k => k.gid = gid) ||
    c.2.quarters.any (fun q => q.mq.any (fun m => m.gid = gid)))

/-- A gang's issue slots, landing slots, tiles and queued matrix commands given back (R295, R310, R365). -/
def State.freeQueues (s : State) (gid : Nat) : State :=
  { s with cores := s.cores.map fun c =>
      (c.1, { c.2 with
        landing := (match c.2.landing with | some w => if w.1 = gid then none else some w | none => none),
        quarters := c.2.quarters.map fun q =>
          { q with
            running := (match q.running with | some w => if w.1 = gid then none else some w | none => none),
            mq := q.mq.filter (fun m => m.gid ≠ gid),
            tiles := q.tiles.map fun t => match t.owner with
              | some w => if w.1 = gid then { t with owner := none } else t
              | none => t } }) }

/-- Whether a core's queues hold a matrix command of a gang. -/
def State.queues? (s : State) (gid c : Nat) : Bool := (s.core c).quarters.any fun q => q.mq.any fun m => m.gid = gid

/-- The resources of a gang given back: warps that waited for its queue entries become ready (R183, R284, R295, R310, R365). -/
def State.release (s : State) (gid : Nat) : State := (s.freeQueues gid).wakeOn (s.queues? gid)

/-- One more block of a launch has ended (R177). -/
def State.blockEnded (s : State) (lid : Nat) : State :=
  { s with launches := s.launches.map fun l => if l.lid = lid then { l with ended := l.ended + 1 } else l }

/-- A context ends: its rows, slots and barrier objects are free (R88, R246). Where it was not killed no rule drops its root, whose use
count stays as it is (R219, R353). -/
def State.retire (s : State) (g : Gang) : State :=
  let s := ({ s with gangs := s.gangs.filter (fun h => h.gid ≠ g.gid), dying := s.dying.filter (fun h => h.gid ≠ g.gid) }).release g.gid
  s.blockEnded g.launch

/-- A killed context ends: its root loses the use it held, so that firmware can reclaim its world's frames (R218, R223; log entry 5). -/
def State.endKilled (s : State) (g : Gang) : State :=
  (match g.root with | some f => s.drop f | none => s).retire g

/-- A resident gang whose every thread has exited and for which nothing works any more ends (R88, R177). -/
def State.reap (s : State) (gid : Nat) : State :=
  match s.gang? gid with
  | none => s
  | some g =>
    if g.warps.all (fun w => w.threads.all (fun th => th.exited)) && !s.busy gid then s.retire g else s

/-- A gang's warps stop, its loads are forgotten and its commands abandoned (R310). -/
def State.stopGang (s : State) (g : Gang) : State :=
  let gid := g.gid
  let dead := { g with
    objs := [], binds := [],
    warps := g.warps.map fun w =>
      { Warp.mapThreads w (fun th => { th with exited := true, wait := .none }) with stride := none, stall := none } }
  let keep := fun (k : Flight) => k.gid ≠ gid || (match k.act with | .load _ => false | .value _ => false | _ => true)
  let mark := fun (l : Launch) => if l.lid = g.launch then { l with killed := true } else l
  let abandon := fun (k : Cmd) => if k.gid = gid then { k with killed := true } else k
  let stop := fun (c : Core) =>
    { c with kills := c.kills.filter (fun k => k.gid ≠ gid), slots := c.slots.map abandon }
  { s with
    gangs := s.gangs.filter (fun h => h.gid ≠ gid),
    dying := s.dying ++ [dead],
    pending := s.pending.filter (fun p => p.gid ≠ gid),
    markers := s.markers.filter (fun m => m.gid ≠ gid),
    flights := s.flights.filter keep,
    launches := s.launches.map mark,
    cores := s.cores.map fun c => (c.1, stop c.2) }

/-- A context is killed (R310): its fault is logged, it stops, and it ends when KILL_COMPLETE finds everything drained. -/
def State.kill (s : State) (gid : Nat) (f : Flt) (pc core : Nat) : State :=
  match s.gang? gid with
  | none => s
  | some g =>
    let e : LogE := { src := 1, srcId := core, code := f.code, world := g.world, cls := faultClass f.code, addr := f.addr, pc := pc }
    ((s.logEntry (dieOfCore core) e).stopGang g).release gid

/-- Whether a gang is being sealed: pre-emption is requested, and no notice still runs (R187, R321). -/
def Gang.sealing (g : Gang) : Bool :=
  match g.preempt with
  | none => false
  | some p => p.notice.isNone || g.warps.all fun w => w.noticeYld || w.live = []

/-! ### Traps -/

/-- A thread enters the handler: its record holds its own fault and its o and l as they stood (R41, R307, R309). -/
def Thread.enter (th : Thread) (f : Option Flt) (entry : VAddr) (tick : Nat) : Thread :=
  let f := f.getD { code := 0 }
  { th with
    recCode := f.code, recAddr := f.addr, recAux := f.aux, recO := th.o, recL := th.l, recBad := th.badOl,
    recAt := some tick, pc := entry, wait := .none }

/-- The fault a list of faults gives a thread. -/
def faultOf (fs : List (Nat × Flt)) (t : Nat) : Option Flt := (fs.find? (fun p => p.1 = t)).map (·.2)

/-- The first fault of a list that lock-down takes, with its KIND: class V before class I (R312, R340). -/
def State.lockCause (s : State) (fs : List (Nat × Flt)) : Option (Nat × Flt) :=
  let find := fun k => (fs.find? fun p => faultClass p.2.code = k).map (·.2)
  match (if s.mgmt.respV then find 1 else none), (if s.mgmt.respI then find 2 else none) with
  | some f, _ => some (1, f)
  | none, some f => some (2, f)
  | none, none => none

/-- A TRAP IS TAKEN by the active set `act` of an issue at `pc` for the faults `fs` (R307 to R312). Under lock-down the device
stops. In a handler it is a double fault and the context is killed. Without a handler, F_PIPE and F_FETCH are retried once, the stride,
o and l as they stood, and every other fault kills. A handler entry that fails its checks is a double fault. Else the record is written, INH set, and every
thread of the active set goes to HENTRY; the stride ends. -/
def State.trapAs (s : State) (r : WRef) (pc : VAddr) (act : List Nat) (fs : List (Nat × Flt)) (defer : Bool) : State :=
  match s.gang? r.1, s.warp? r with
  | some g, some w =>
    let first : Flt := match fs with | p :: _ => p.2 | [] => { code := 0 }
    match s.lockCause fs with
    | some (kind, f) => s.lockDown kind f.code g.world (dieOfCore w.core) w.core pc.toNat f.addr
    | none =>
      if w.inh then s.kill r.1 first pc.toNat w.core
      else if w.hentry = 0 then
        if fs.all (fun p => p.2.code = fPipe || p.2.code = fFetch) && w.dretry != some pc then
          s.modWarp r fun w => { w with dretry := some pc }
        else s.kill r.1 first pc.toNat w.core
      else match s.targetFault g w.core w.hentry.toNat true with
        | some _ => s.kill r.1 first pc.toNat w.core
        | none =>
          let entry : VAddr := BitVec.ofNat 42 w.hentry.toNat
          (s.modWarp r fun w =>
            { w.mapThreads fun th => if act.contains th.t then th.enter (faultOf fs th.t) entry s.tick else th with
              inh := true, recPc := pc, recMask := maskOf act, recDefer := defer, dretry := none,
              noHit := if w.noHit = some pc then none else w.noHit }).endStride r
  | _, _ => s

/-- A trap that no debug deferral marks. -/
def State.trap (s : State) (r : WRef) (pc : VAddr) (act : List Nat) (fs : List (Nat × Flt)) : State :=
  s.trapAs r pc act fs false

/-- Whether every thread of AMASK that has not exited waits at an rte (R315). -/
def Warp.rteReady (w : Warp) : Bool :=
  w.threads.all fun th => !w.recMask.getLsbD th.t || th.exited ||
    (match th.wait with | .rte _ => true | _ => false)

/-- A thread returns from the handler: o and l from its record, its program counter at the faulting instruction or after it. -/
def Thread.leave (th : Thread) (pc : VAddr) : Thread :=
  match th.wait with
  | .rte skip => { th with o := th.recO, l := th.recL, badOl := th.recBad, pc := (if skip then nextPc pc else pc), wait := .none }
  | _ => th

/-- THE RETURN FROM A TRAP (R42, R315): once every thread of AMASK has executed rte, each continues at PC or after it and INH is
clear. A retry from F_BRK or F_WATCH executes once without a hit check (R318). -/
def State.rteReturn (s : State) (r : WRef) : State :=
  match s.warp? r with
  | none => s
  | some w =>
    if w.inh && w.rteReady then
      let hit := w.threads.any fun th => w.recMask.getLsbD th.t &&
        (th.recCode = fBrk || th.recCode = fWatch) && (match th.wait with | .rte false => true | _ => false)
      s.modWarp r fun w =>
        { w.mapThreads fun th => if w.recMask.getLsbD th.t then th.leave w.recPc else th with
          inh := false, noHit := if hit then some w.recPc else w.noHit }
    else s

end Sys2Proof.Machine
end

