-- ==== Sys2Proof/Machine/Operands.lean ====
section
/-!
DEFINITION. Every operand form: reading a register group, a special register, an immediate and a parameter window (spec/02 R22 to
R31, R40; spec/11 R196), and writing a destination.
-/
namespace Sys2Proof.Machine

/-! ### Special registers (R25, R173, R207) -/

/-- A thread's launch-wide index (R172). -/
def Gang.launchIndex (g : Gang) (th : Thread) : Nat := g.block * g.blockT + th.bi

/-- Threads in one unit of the level below level `k`. -/
def levelUnit (ls : List Level) (k : Nat) : Nat := (ls.take k).foldl (fun p l => p * l.extent) 1

/-- The coordinate of a thread at level `k` (R173); 0 where the level is not declared. -/
def Gang.lidx (g : Gang) (th : Thread) (k : Nat) : Nat :=
  match g.levels[k]? with
  | none => 0
  | some l => g.launchIndex th / levelUnit g.levels k % l.extent

/-- $scap of a core (R207): CAP, and NEXT at the target of a pending step, without the rows that are being retired (R345). -/
def State.scap (s : State) (c : Nat) : Nat :=
  let cap := s.capAt c s.opcur
  let next := s.capLess c (match s.opstep with | some st => st.target | none => s.opcur)
  next * 4096 + cap

/-- The value a special register reads; none where the index is reserved (R25, R173). R25 gives $pcore on package cores only; a control
core reads the number 160 + 16 × die + k, the model's choice (DESIGN CHOICE, log entry 114). -/
def State.special (s : State) (g : Gang) (w : Warp) (th : Thread) (i : Nat) : Option Nat :=
  match i with
  | 0x00 => some (th.t % 16)
  | 0x01 => some (th.t / 16)
  | 0x02 => some w.quarter
  | 0x03 => some w.slot
  | 0x04 => some w.core
  | 0x05 => some (w.wi / warpsPerCore g.n)
  | 0x06 => some s.nclu
  | 0x07 => some (s.scap w.core)
  | 0x08 => some (s.now w.core % 4294967296)
  | 0x09 => some (s.now w.core / 4294967296 % 4294967296)
  | 0x0A => some (if w.woke then (s.core w.core).wakeReg.toNat else 0)
  | 0x0B => some w.evt.toNat
  | 0x0C => some th.pwerr.toNat
  | 0x0D => some th.dcs.toNat
  | 0x0E => some g.world
  | 0x0F => some s.opcur
  | _ =>
    if 0x20 ≤ i ∧ i < 0x28 then some (g.lidx th (i - 0x20))
    else if 0x28 ≤ i ∧ i < 0x30 then
      some (match g.levels[i - 0x28]? with | some l => l.extent | none => 1)
    else none

/-! ### Parameter windows (R40, R107, R196) -/

/-- What a read through a parameter window answers. -/
inductive PwRead where
  | value (v : Nat)
  /-- Zero, with $pwerr set. -/
  | beyond
  | bad (f : Flt)
  /-- Words whose addresses are given are not in the parameter cache: the warp stalls. -/
  | miss (ws : List Nat)
  deriving DecidableEq, Repr

/-- The key of a global word in a parameter cache: the launch, which ends with its entries, the root its context translates with, and the
word's address (R196). -/
def pcKey (g : Gang) (addr : Nat) : Nat := (addr / 4 * 33554433 + (match g.root with | some r => r + 1 | none => 0)) * 2 ^ 64 + g.launch

/-- The aligned words that hold `n` bytes from an address up. -/
def wordsOver (a n : Nat) : List Nat := (List.range ((a % 4 + n + 3) / 4)).map fun k => (a / 4 * 4 + 4 * k) % 2 ^ 64

/-- The fault of a window's byte: its translation's, at its global address (R196). -/
def State.pwByteFault (s : State) (g : Gang) (core a : Nat) : Option Flt :=
  match s.translate core g.world g.root a .load with
  | .bad f => some f
  | .ok _ _ => none

/-- The fault of a word that the parameter cache lacks: F_ECC where memory holds it poisoned (R343). -/
def State.pwWordFault (s : State) (g : Gang) (core a : Nat) : Option Flt :=
  match s.translate core g.world g.root a .load with
  | .bad f => some f
  | .ok pa _ => if s.memBad pa 4 then some { code := fEcc, addr := a } else none

/-- `n` bytes at an exact offset of window `win` (R107, R196): alignment, then binding, then the bound, then the translation of the
window's first and last byte, then the cache. -/
def State.pwRead (s : State) (g : Gang) (core win n : Nat) (off : Int) : PwRead :=
  if off % n ≠ 0 then .bad { code := fAlign, addr := wrapN 64 off }
  else
    match g.windows[win]? with
    | none => .bad { code := fParam, addr := win }
    | some w =>
      if !w.bound then .bad { code := fParam, addr := win }
      else if off < 0 ∨ 2 ^ 32 ≤ off ∨ (w.size : Int) < off + n then .beyond
      else
        let a := (w.base + off.toNat) % 2 ^ 64
        let z := (a + n - 1) % 2 ^ 64
        let last := if z / 65536 = a / 65536 then a else z / 65536 * 65536
        match (s.pwByteFault g core a).or (s.pwByteFault g core last) with
        | some f => .bad f
        | none =>
          let got := fun (b : Nat) => (s.core core).pcache.get? (pcKey g b)
          let as := wordsOver a n
          let lacks := as.filter fun b => (got b).isNone
          match lacks.findSome? (s.pwWordFault g core), lacks with
          | some f, _ => .bad f
          | none, [] => .value (wordsNat (as.map fun b => (got b).getD 0) / 2 ^ (8 * (a % 4)) % 2 ^ (8 * n))
          | none, ws => .miss ws

/-! ### Reading a field -/

/-- The field value of an operand, as F_EMPTY and F_STALE report it (R29, R31). -/
def opField (x : Opnd) : Nat := (Opnd.bits x).toNat

/-- Whether an o or l operand names a register this stride has not filled (R31). -/
def stale (th : Thread) (x : Opnd) (n : Nat) : Bool :=
  match x with
  | .o i => (List.range n).any fun k => (nth th.o (i.toNat + k) none).isNone
  | .l i => (List.range n).any fun k => (nth th.l (i.toNat + k) none).isNone
  | _ => false

/-- Whether a register group holds an empty register (R22, R28). -/
def anyEmpty (rs : List Reg) (i n : Nat) : Bool := (List.range n).any fun k => !(nth rs (i + k) {}).full

/-- Whether an m or s operand is empty, and its W bit (R29). -/
def emptyAt (w : Warp) (th : Thread) (x : Opnd) (n : Nat) : Option Bool :=
  match x with
  | .m i wt => if anyEmpty th.m i.toNat n then some wt else none
  | .s i wt => if anyEmpty w.s i.toNat n then some wt else none
  | _ => none

/-- The bits of `n` registers from `i` on among o0 to o7, l0 and l1. -/
def olBits (i n : Nat) : BitVec 10 := (List.range n).foldl (fun m k => m ||| (1#10 <<< (i + k))) 0

/-- The poison of an operand, if any (R299, R343). -/
def poisonAt (w : Warp) (th : Thread) (x : Opnd) (n : Nat) : Option Poison :=
  match x with
  | .m i _ => (List.range n).findSome? fun k => (nth th.m (i.toNat + k) {}).bad
  | .s i _ => (List.range n).findSome? fun k => (nth w.s (i.toNat + k) {}).bad
  | .o i => if th.badOl &&& olBits i.toNat n = 0 then none else some .ecc
  | .l i => if th.badOl &&& olBits (8 + i.toNat) n = 0 then none else some .ecc
  | _ => none

/-- The fault of reading a poisoned register (R311). -/
def poisonFlt (x : Opnd) (p : Poison) : Flt :=
  { code := (match p with | .pipe => fPipe | .ecc => fEcc), addr := 0x8000 + opField x }

/-- The number an operand of `n` registers reads, once nothing stands in its way: an immediate sign-extended (R40, R51), a window
through the parameter cache, a special register zero-extended. -/
def State.value (s : State) (g : Gang) (w : Warp) (th : Thread) (x : Opnd) (n : Nat) (imm : BitVec 21) : Nat :=
  match x with
  | .none => 0
  | .m i _ => wordsNat (regWords th.m i.toNat n)
  | .o i => wordsNat ((List.range n).map fun k => (nth th.o (i.toNat + k) none).getD 0)
  | .l i => wordsNat ((List.range n).map fun k => (nth th.l (i.toNat + k) none).getD 0)
  | .s i _ => wordsNat (regWords w.s i.toNat n)
  | .sr i => lowN 32 ((s.special g w th i.toNat).getD 0)
  | .win i =>
    match s.pwRead g w.core i.toNat (4 * n) imm.toNat with
    | .value v => v
    | _ => 0
  | .imm => wrapN (32 * n) (immInt imm)

/-- The registers that a field of an instruction names. -/
def fieldWords (u : Use) : Nat :=
  match u with
  | .unused => 0
  | .must _ n => n
  | .may _ n => n

/-- Whether an operand of `n` registers names a register of a destination group. -/
def Dst.named (d : Dst) (x : Opnd) (n : Nat) : Bool :=
  match d, x with
  | .m i k, .m j _ => overlaps i k j.toNat n
  | .s i k, .s j _ => overlaps i k j.toNat n
  | _, _ => false

/-- Whether an instruction names a register of a destination group. -/
def instrNames (ins : Instr) (d : Dst) : Bool :=
  match ins.opnds with
  | none => true
  | some (_, xd, xa, xb, xc) =>
    let s := ins.shape
    d.named xd (fieldWords s.d) || d.named xa (fieldWords s.a) || d.named xb (fieldWords s.b) || d.named xc (fieldWords s.c)

/-- Whether an instruction is ordered behind none of its thread's earlier scratchpad loads: a fixed-latency one of groups 0 to 6, pf, and a
plain load or store but for one of the gang window (R46, R111). -/
def passesLates (ins : Instr) : Bool :=
  match ins with
  | .ld _ _ _ p _ => p != .gw
  | .st _ _ _ p _ => p != .gw
  | ins =>
    match ins.op with
    | none => false
    | some op => (decide (0x040 ≤ op.toNat) && decide (op.toNat < 0x1C0)) || [0x000, 0x001, 0x005, 0x007, 0x204].contains op.toNat

/-- An instruction issues: of a thread's late loads those stay late whose registers it does not name and which it may pass; a thread that
does not execute it keeps every one but of scalar registers that it names. -/
def Thread.settleFor (th : Thread) (ins : Instr) (acts : Bool) : Thread :=
  { th with lates := th.lates.filter fun l =>
      if acts then passesLates ins && !instrNames ins l.dst
      else match l.dst with | .s _ _ => !instrNames ins l.dst | .m _ _ => true }

/-! ### Writing a destination -/

/-- A group of o or l registers filled (R31). -/
def putOl (rs : List (Option Word)) (i : Nat) (ws : List Word) : List (Option Word) :=
  match ws with
  | [] => rs
  | v :: r => putOl (modAt rs i fun _ => some v) (i + 1) r

/-- A thread's destination written with a number of `n` words (R28, R31). -/
def Thread.put (th : Thread) (x : Opnd) (n v : Nat) : Thread :=
  match x with
  | .m i _ => { th with m := putRegs th.m i.toNat (natWords n v) }
  | .o i => { th with o := putOl th.o i.toNat (natWords n v), badOl := th.badOl &&& ~~~(olBits i.toNat n) }
  | .l i => { th with l := putOl th.l i.toNat (natWords n v), badOl := th.badOl &&& ~~~(olBits (8 + i.toNat) n) }
  | _ => th

/-- A destination of a warp written: scalar registers once for the warp, others in thread `t` (R23). -/
def Warp.put (w : Warp) (t : Nat) (x : Opnd) (n v : Nat) : Warp :=
  match x with
  | .s i _ => { w with s := putRegs w.s i.toNat (natWords n v) }
  | _ => w.modThread t fun th => th.put x n v

/-- The destination group of a long-latency producer (R83). -/
def opDst (x : Opnd) (n : Nat) : Option Dst :=
  match x with
  | .m i _ => some (.m i.toNat n)
  | .s i _ => some (.s i.toNat n)
  | _ => none

end Sys2Proof.Machine
end

