-- ==== Sys2Proof/Machine/Issue.lean ====
section
/-!
DEFINITION. One issue of a warp (spec/02 R38, R39; spec/08 R153 to R159; spec/17 R307): the active set, guards, the three operand
passes, the trap, the block, the stall, and the completion that moves program counters, ends strides and pays issue cycles.
-/
namespace Sys2Proof.Machine

/-- One issue: the warp before it, its program counter, the active set and the threads whose guard is true. -/
structure Iss where
  r   : WRef
  g   : Gang
  w   : Warp
  pc  : VAddr
  act : List Thread
  on  : List Thread

/-- Whether a guard holds in a thread (R38): g0 reads true (R24). -/
def guardOn (h : Hdr) (th : Thread) : Bool := (h.gi = 0 || th.g.getLsbD h.gi.toNat) != h.gn

/-- A guard of a thread by index (R24). -/
def Thread.guard (th : Thread) (k : BitVec 3) : Bool := k = 0 || th.g.getLsbD k.toNat

/-- A guard written; g0 discards it (R24). -/
def Thread.setGuard (th : Thread) (k : BitVec 3) (b : Bool) : Thread :=
  if k = 0 then th
  else { th with g := if b then th.g ||| (1#8 <<< k.toNat) else th.g &&& ~~~(1#8 <<< k.toNat) }

/-- Whether a thread may join an active set: it is live, and while a handler runs it belongs to it (R154, R307). -/
def Warp.eligible (w : Warp) (th : Thread) : Bool := !th.exited && (!w.inh || w.recMask.getLsbD th.t)

/-- The active set at a program counter (R154). -/
def Warp.active (w : Warp) (pc : VAddr) : List Thread := w.threads.filter fun th => w.eligible th && th.pc = pc

/-- The issue of the warp that holds the slot, for an instruction with this header. -/
def State.iss? (s : State) (h : Hdr) : Option Iss :=
  match s.cur with
  | none => none
  | some r =>
    match s.gang? r.1, s.warp? r with
    | some g, some w =>
      match w.stride with
      | none => none
      | some st =>
        let act := w.active st.pc
        some { r := r, g := g, w := w, pc := st.pc, act := act, on := act.filter (guardOn h) }
    | _, _ => none

/-! ### Step 4: operands -/

/-- A field an instruction reads or writes, and the registers it names. -/
structure Fld where
  x : Opnd
  n : Nat

/-- F_STALE for the first field in order that reads an unfilled o or l register (R31, R38). -/
def staleFlt (th : Thread) (fs : List Fld) : Option Flt :=
  (fs.find? fun f => stale th f.x f.n).map fun f => { code := fStale, addr := opField f.x }

/-- F_EMPTY for the first field in order that is empty with W = 0 (R29, R30). -/
def emptyFlt (w : Warp) (th : Thread) (fs : List Fld) : Option Flt :=
  (fs.find? fun f => emptyAt w th f.x f.n = some false).map fun f => { code := fEmpty, addr := opField f.x }

/-- Whether some field is empty (R29). -/
def anyBlock (w : Warp) (th : Thread) (fs : List Fld) : Bool := fs.any fun f => (emptyAt w th f.x f.n).isSome

/-- The registers of fields that a thread finds empty (R29). -/
def owedBy (w : Warp) (th : Thread) (fs : List Fld) : List Nat :=
  fs.flatMap fun f =>
    match opDst f.x f.n with
    | some d => (d.keys th.t).filter fun k => !(w.regAt k).full
    | none => []

/-- The fault of the first poisoned source (R299, R343). -/
def poisonFault (w : Warp) (th : Thread) (fs : List Fld) : Option Flt :=
  fs.findSome? fun f => (poisonAt w th f.x f.n).map (poisonFlt f.x)

/-- The fault of a window operand (R40). -/
def State.windowFlt (s : State) (g : Gang) (w : Warp) (fs : List Fld) (imm : BitVec 21) : Option Flt :=
  fs.findSome? fun f =>
    match f.x with
    | .win i => (match s.pwRead g w.core i.toNat (4 * f.n) imm.toNat with | .bad e => some e | _ => none)
    | _ => none

/-- The words that window operands miss in the parameter cache (R196). -/
def State.windowMiss (s : State) (g : Gang) (w : Warp) (fs : List Fld) (imm : BitVec 21) : List Nat :=
  fs.flatMap fun f =>
    match f.x with
    | .win i => (match s.pwRead g w.core i.toNat (4 * f.n) imm.toNat with | .miss ws => ws | _ => [])
    | _ => []

/-- The $pwerr bits that window operands set (R26, R40). -/
def State.windowOver (s : State) (g : Gang) (w : Warp) (fs : List Fld) (imm : BitVec 21) : BitVec 8 :=
  fs.foldl (fun b f =>
    match f.x with
    | .win i => if s.pwRead g w.core i.toNat (4 * f.n) imm.toNat = .beyond then b ||| (1#8 <<< i.toNat) else b
    | _ => b) 0

/-- What stands between an issue and its effect. -/
inductive Gate where
  | trap (fs : List (Nat × Flt))
  | block (owed : List Nat)
  | stall (ws : List Nat)
  | go
  deriving DecidableEq, Repr

/-- The faults a check raises in a list of threads. -/
def faultsOf (ths : List Thread) (f : Thread → Option Flt) : List (Nat × Flt) :=
  ths.filterMap fun th => (f th).map fun e => (th.t, e)

/-- The passes for the threads that act (R38 steps 4 and 5, R307): where no operand faults (`early`) and one would block, the issue
blocks; else it stalls for the window words it misses, and then traps with each thread's own fault, if one has any. A thread that an
operand would block raises no later fault. -/
def gateOf (who : List Thread) (early : Thread → Option Flt) (blocks : Thread → Bool) (owed : Thread → List Nat) (miss : List Nat)
    (late : Thread → Option Flt) : Gate :=
  if who.all (fun th => (early th).isNone) && who.any blocks then .block (who.flatMap owed).eraseDups
  else match (if who = [] then [] else miss) with
    | w :: ws => .stall (w :: ws)
    | [] =>
      match faultsOf who fun th => (early th).or (if blocks th then none else late th) with
      | [] => .go
      | f :: fs => .trap (f :: fs)

/-- The gate of an instruction: F_STALE and F_EMPTY; then poisoned sources, window operands, and the further check `chk` of step 5.
`d` is the destination; `dRead` says it is read too. -/
def State.gate (s : State) (i : Iss) (who : List Thread) (src d : List Fld) (dRead : Bool) (imm : BitVec 21)
    (chk : Thread → Option Flt := fun _ => none) : Gate :=
  let read := if dRead then src ++ d else src
  gateOf who (fun th => (staleFlt th read).or (emptyFlt i.w th (src ++ d))) (fun th => anyBlock i.w th (src ++ d))
    (fun th => owedBy i.w th (src ++ d)) (s.windowMiss i.g i.w src imm) fun th => (poisonFault i.w th read).or ((s.windowFlt i.g i.w src imm).or (chk th))

/-- The fault of an access that is made once for the warp is every guard-true thread's (R302). -/
def Gate.spread (gt : Gate) (i : Iss) (d : Opnd) : Gate :=
  match gt with
  | .trap (p :: fs) => if d.cls = .s then .trap (i.on.map fun th => (th.t, p.2)) else .trap (p :: fs)
  | gt => gt

/-! ### Blocks, stalls, traps -/

/-- The threads of an issue that belong to a set of threads changed. -/
def State.modThreads (s : State) (r : WRef) (ts : List Nat) (f : Thread → Thread) : State :=
  s.modWarp r fun w => w.mapThreads fun th => if ts.contains th.t then f th else th

/-- $pwerr bits of windows read beyond their bound, in each thread whose guard is true (R26, R40). -/
def State.noteOver (s : State) (i : Iss) (past : BitVec 8) : State :=
  s.modThreads i.r (i.on.map (·.t)) fun th => { th with pwerr := th.pwerr ||| past }

/-- The thread numbers of the active set. -/
def Iss.ts (i : Iss) : List Nat := i.act.map (·.t)

/-- A thread of an issue that blocks; a wait that already runs goes on (R29, R167). -/
def Thread.blocked (for_ : Wait) (th : Thread) : Thread :=
  match th.wait with
  | .none => { th with wait := for_ }
  | _ => th

/-- The issue blocks (R29): no state changes, the stride ends before it, and a demotion is over, for the warp waits (R185). -/
def State.blockFor (s : State) (i : Iss) (for_ : Wait) : State :=
  ((s.modThreads i.r i.ts (Thread.blocked for_)).modWarp i.r fun w => { w with demoted := false }).endStride i.r

/-- The issue blocks for registers (R29). -/
def State.block (s : State) (i : Iss) (owed : List Nat) : State := s.blockFor i (.regs owed)

/-- The warp stalls in its issue slot for a window's words (R196). -/
def State.stallParam (s : State) (i : Iss) (ws : List Nat) : State :=
  s.modWarp i.r fun w => { w with stall := some (.param ws.eraseDups) }

/-- A debug event is pending at a program counter for the threads it hit, beside those that pend already (R326, R327). -/
def Warp.defers (w : Warp) (pc : VAddr) (fs : List (Nat × Flt)) : Warp := { w with pend := w.pend ++ [(pc, fs)] }

/-- A debug hit of a gang that is being sealed: the stride ends before the instruction, and the event is pending (R326). -/
def State.defer (s : State) (i : Iss) (fs : List (Nat × Flt)) : State :=
  (s.modWarp i.r fun w => w.defers i.pc fs).endStride i.r

/-- The issue traps for these faults; watchpoint hits of a gang being sealed are deferred (R326). -/
def State.trapIss (s : State) (i : Iss) (fs : List (Nat × Flt)) : State :=
  if i.g.sealing && fs ≠ [] && fs.all (fun p => p.2.code = fWatch) then s.defer i fs else s.trap i.r i.pc i.ts fs

/-- Passing the gate, or trapping, blocking or stalling. -/
def State.through (s : State) (i : Iss) (gt : Gate) (k : State) : State :=
  match gt with
  | .trap fs => s.trapIss i fs
  | .block owed => s.block i owed
  | .stall ws => s.stallParam i ws
  | .go => k

/-! ### Completion -/

/-- The issue cycles of an active set: the most threads in one lane (R154). -/
def issueCycles (ths : List Thread) : Nat :=
  ((List.range 16).map fun l => (ths.filter fun th => th.t % 16 = l).length).foldl max 0

/-- Every active thread moves to the next slot; an instruction's own effect comes after (R38 step 6, R39). -/
def State.advance (s : State) (i : Iss) : State :=
  s.modThreads i.r i.ts fun th => { th with pc := nextPc i.pc, lastIssue := s.tick + 1, wait := .none }

/-- What the registers whose change ends a spin hold; an empty register keeps the value it held (R185). -/
def Warp.watched (w : Warp) : List Word × List TMask × List (List Word × BitVec 8) :=
  (w.s.map (·.v), w.j, w.threads.map fun th => (th.m.map (·.v), th.g))

/-- Whether a thread waits (R158, R29). -/
def Thread.waits (th : Thread) : Bool :=
  match th.wait with
  | .none => false
  | .unreach _ => false
  | _ => true

/-- What the scheduler notes of a completed issue: a retry and a pass without hits are over, and writing a new value or waiting ends a
spin (R185, R318). -/
def Warp.noted (w : Warp) (moved waits : Bool) : Warp :=
  { w with
    dretry := none, noHit := if w.unhit then none else w.noHit, demoted := w.demoted && !moved && !waits, spinBusy := w.spinBusy || moved }

/-- A warp whose stride goes on at a program counter as its next issue (R32, R155). -/
def Warp.goesOn (w : Warp) (pc : VAddr) (n : Nat) : Warp := { w with stride := some { pc := pc, n := n }, stall := none }

/-- The issue completes: a spinning warp that wrote a new value or memory leaves its spin (R185); the core's clock pays the
cycles; the stride ends at E, at its 24th instruction, when a thread waits or when none remains, and otherwise goes on with the
group of lowest program counter (R32, R155). -/
def State.closeIssue (s : State) (i : Iss) (e : Bool) (extra : Nat) (busy : Bool) : State :=
  match s.warp? i.r with
  | none => s
  | some w =>
    let left := w.threads.filter fun th => i.ts.contains th.t && w.eligible th
    let waits := left.any Thread.waits
    let n := ((i.w.stride.map (·.n)).getD 0) + 1
    let s := (s.modWarp i.r fun k => k.noted (busy || w.watched != i.w.watched) waits).modCore i.w.core fun k =>
      { k with clock := k.clock + issueCycles i.act + extra }
    match leastBy (fun th : Thread => th.pc.toNat) left with
    | none => s.endStride i.r
    | some th =>
      if e || 24 ≤ n || waits then s.endStride i.r
      else s.modWarp i.r fun k => k.goesOn th.pc n

/-- The completion of an issue in which some threads wait (R158): they cost nothing and the stride ends before them. -/
def State.closeSome (s : State) (h : Hdr) (i : Iss) (waiting : List Nat) (extra : Nat) (busy : Bool) : State :=
  let go : Iss := { i with act := i.act.filter fun th => !waiting.contains th.t }
  if waiting = [] then s.closeIssue i h.e extra busy
  else if go.act = [] then (s.modWarp i.r fun w => { w with demoted := false }).endStride i.r
  else s.closeIssue go true extra busy

/-- The threads of an issue that now wait. -/
def State.waitingOf (s : State) (i : Iss) : List Nat :=
  match s.warp? i.r with
  | some w => (w.threads.filter fun th => i.ts.contains th.t && th.waits).map (·.t)
  | none => []

/-- What an instruction does, given its issue; without one no warp executes it. Where no thread's guard is true it stops at step 3 and
only the program counters and the stride move (R39). -/
def run (s : State) (h : Hdr) (k : Iss → State) : Host.Outcome State Fault Refusal :=
  match s.iss? h with
  | none => .fault .noIssuer
  | some i => .next (if i.on = [] then (s.advance i).closeIssue i h.e 0 false else k i)

/-- A thread put back to its instruction, waiting. -/
def State.stay (s : State) (i : Iss) (t : Nat) (w : Wait) : State :=
  s.modThread i.r t fun th => { th with pc := i.pc, wait := w }

/-- A result on its way to a destination that empties now (R28). -/
def State.later (s : State) (i : Iss) (th : Thread) (d : Opnd) (n v : Nat) : State :=
  match opDst d n with
  | none => s
  | some dst =>
    let (id, s) := s.fresh
    let f : Flight := {
      id := id, gid := i.r.1, wi := i.r.2, t := th.t, core := i.w.core, die := dieOfCore i.w.core,
      world := i.g.world, pc := i.pc, act := .value v, place := .reg, len := 4 * n, dst := some dst, issued := s.now i.w.core }
    ({ s with flights := s.flights ++ [f] }).emptyDst i.r th.t dst

/-! ### The plain pattern: operands to a destination -/

/-- What a thread's instruction reads. -/
structure TIn where
  a  : Nat
  b  : Nat
  c  : Nat
  d  : Nat
  th : Thread

/-- What it writes: the destination, and the thread's other registers. -/
structure TOut where
  d  : Option Nat := none
  th : Thread → Thread := id

/-- The writes of one thread put into its warp. -/
def TOut.write (o : TOut) (t : Nat) (d : Opnd) (n : Nat) (w : Warp) : Warp :=
  match o.d with
  | some v => (w.modThread t o.th).put t d n v
  | none => w.modThread t o.th

/-- The widths of a plain instruction's fields in registers; 0 where a field is unused. -/
structure Wid where
  d : Nat
  a : Nat
  b : Nat := 0
  c : Nat := 0

/-- What a thread reads. -/
def State.tin (s : State) (i : Iss) (x : VOps) (n : Wid) (th : Thread) : TIn :=
  let v := fun o k => s.value i.g i.w th o k x.imm
  { a := v x.a n.a, b := v x.b n.b, c := v x.c n.c, d := v x.d n.d, th := th }

/-- A plain instruction (groups 1 to 6): each thread whose guard is true, or the warp once where D is scalar (R64), reads its
operands, and writes its destination at a fixed latency. A scalar D acts as its lowest thread (log entry 14). `chk` is a fault the
operand values raise at step 5 (R406). -/
def State.plain (s : State) (h : Hdr) (x : VOps) (n : Wid) (dRead : Bool) (f : TIn → TOut)
    (chk : TIn → Option Flt := fun _ => none) : Host.Outcome State Fault Refusal :=
  run s h fun i =>
    let once := x.d.cls = .s
    let who := if once then i.on.take 1 else i.on
    let src := [⟨x.a, n.a⟩, ⟨x.b, n.b⟩, ⟨x.c, n.c⟩]
    let dst := if n.d = 0 then [] else [⟨x.d, n.d⟩]
    let past := s.windowOver i.g i.w src x.imm
    s.through i (s.gate i who src dst dRead x.imm fun th => chk (s.tin i x n th)) <|
      let s1 := s.advance i
      let s2 := if past = 0 then s1 else s1.modThreads i.r (i.on.map (·.t)) fun th => { th with pwerr := th.pwerr ||| past }
      let s3 := who.foldl (fun s2 th => s2.modWarp i.r ((f (s.tin i x n th)).write th.t x.d n.d)) s2
      s3.closeIssue i h.e 0 false

/-! ### Waits that cannot end (R159) -/

/-- Whether a wait is one that R159 counts: a synchronising instruction, a jwait, or a jwaitt within its limit. -/
def Wait.rejoin : Wait → Bool
  | .sync => true
  | .jwait _ _ => true
  | _ => false

/-- Whether a wait's limit lies behind: what happens from now on no longer completes it (R167, R251). -/
def Wait.overdue (now : Nat) : Wait → Bool
  | .jwait _ (some l) => decide (l.1 < now)
  | .phase _ _ (some l) _ _ => decide (l < now)
  | _ => false

/-- Whether a waiting thread itself faults with F_UNREACH (R159): a jwaitt goes on waiting. -/
def Wait.unreachable : Wait → Bool
  | .sync => true
  | .jwait _ Option.none => true
  | _ => false

/-- The OP of the instruction a thread stands at, for F_UNREACH (R159). -/
def State.opAt (s : State) (g : Gang) (w : Warp) (pc : VAddr) : Nat :=
  match s.fetch g w.core pc.toNat with
  | .ok line => ((wordOfBytes (line.drop (12 * pcSlot pc))).extractLsb' 86 10).toNat
  | .error _ => 0

/-- After an arrival, a wait or an exit: where every live thread of the warp waits at a synchronising instruction, a jwait or a
jwaitt, F_UNREACH is due in those at the first two (R159). Each takes it when its group next issues. -/
def State.unreachWarp (s : State) (r : WRef) : State :=
  match s.gang? r.1, s.warp? r with
  | some g, some w =>
    if w.live ≠ [] && w.live.all (fun th => th.wait.rejoin && !th.wait.overdue (s.now w.core)) then
      s.modWarp r fun w => w.mapThreads fun th =>
        if !th.exited && th.wait.unreachable then { th with wait := .unreach (s.opAt g w th.pc), owes := 0 } else th
    else s
  | _, _ => s

/-- The faults of threads whose F_UNREACH is due (R159, R254). -/
def dueUnreach (act : List Thread) : List (Nat × Flt) :=
  faultsOf act fun th => match th.wait with | .unreach a => some { code := fUnreach, addr := a } | _ => none

end Sys2Proof.Machine
end

