-- ==== Sys2Proof/Machine/Flags.lean ====
section
/-!
DEFINITION. Every computation that writes a guard: carries and borrows (spec/05 R92), compares and how they combine (R99, R100),
and the three-guard function (R101). No other flag exists (R82).
-/
namespace Sys2Proof.Machine

/-- The operand width of an integer type in bits (R82). -/
def tyBits (t : Ty) : Nat := 32 * t.words

/-- Whether a type reads its pattern as two's complement (R82, R114). -/
def tySigned (t : Ty) : Bool :=
  match t with
  | .w32 | .i64 | .h2 | .b4 | .n8 => true
  | _ => false

/-- num(x) of R82. -/
def numOf (t : Ty) (v : Nat) : Int := if tySigned t then signedN (tyBits t) v else (lowN (tyBits t) v : Int)

/-- satw(v) of R82. -/
def satOf (t : Ty) (v : Int) : Nat :=
  let w := tyBits t
  if tySigned t then wrapN w (max (-(2 ^ (w - 1) : Nat)) (min v ((2 ^ (w - 1) : Nat) - 1)))
  else wrapN w (max 0 (min v ((2 ^ w : Nat) - 1)))

/-- The sum of iaddc and its carry out (R92). -/
def addCarry (w a b cin : Nat) : Nat × Bool := (lowN w (a + b + cin), decide (2 ^ w ≤ a + b + cin))

/-- The difference of isubb and its borrow out (R92). -/
def subBorrow (w a b cin : Nat) : Nat × Bool :=
  (wrapN w ((a : Int) - b - cin), decide ((a : Int) - b - cin < 0))

/-- A condition between two integers (R99). -/
def condInt (c : Cond) (a b : Int) : Bool :=
  match c with
  | .eq => a = b
  | .ne => a ≠ b
  | .lt => a < b
  | .le => a ≤ b
  | .gt => b < a
  | .ge => b ≤ a
  | .un => false
  | .ord => true

/-- How a compare writes its guard (R100): the old value is read first (R83). -/
def combine (cm : Cmb) (old c : Bool) : Bool :=
  match cm with
  | .set => c
  | .and => old && c
  | .or => old || c

/-- A compare's write of its guard. -/
def setCmp (th : Thread) (dg : BitVec 3) (cm : Cmb) (c : Bool) : Thread := th.setGuard dg (combine cm (th.guard dg) c)

/-- gop: LUT indexed by three guards (R101). -/
def gopGuard (th : Thread) (imm : BitVec 21) : Thread :=
  let v := imm.toNat
  let g := fun lo => (if th.guard (BitVec.ofNat 3 (bitsN v lo 3)) then 1 else 0)
  th.setGuard (BitVec.ofNat 3 (bitsN v 0 3)) (bitN (bitsN v 12 8) (4 * g 3 + 2 * g 6 + g 9))

/-- gpack: the eight guards as bits, g0 reading one (R102). -/
def packGuards (th : Thread) : Nat :=
  (List.range 8).foldl (fun n k => if th.guard (BitVec.ofNat 3 k) then n + 2 ^ k else n) 0

/-- gunpk: g1 to g7 from the bits of a number (R102). -/
def unpackGuards (th : Thread) (v : Nat) : Thread :=
  (List.range 8).foldl (fun th k => th.setGuard (BitVec.ofNat 3 k) (bitN v k)) th

end Sys2Proof.Machine
end

