-- ==== Sys2Proof/Machine/Int.lean ====
section
/-!
DEFINITION. Group 1, integer arithmetic (spec/05 R90 to R94).
-/
namespace Sys2Proof.Machine

/-- The widths of a form whose fields all have the type's width. -/
def Wid.same (t : Ty) (k : Nat) : Wid :=
  { d := t.words, a := t.words, b := if 2 ≤ k then t.words else 0, c := if 3 ≤ k then t.words else 0 }

/-- A two-source integer form: the exact result wrapped, or saturated where SAT is set (R91). -/
def State.arith2 (s : State) (h : Hdr) (x : VOps) (t : Ty) (sat : Bool) (f : Int → Int → Int) :
    Host.Outcome State Fault Refusal :=
  s.plain h x (Wid.same t 2) false fun v =>
    let r := f (numOf t v.a) (numOf t v.b)
    { d := some (if sat then satOf t r else wrapN (tyBits t) r) }

/-- iadd (R91). -/
def execIadd (h : Hdr) (x : VOps) (t : Ty) (sat : Bool) (s : State) : Host.Outcome State Fault Refusal :=
  s.arith2 h x t sat fun a b => a + b

/-- isub (R91). -/
def execIsub (h : Hdr) (x : VOps) (t : Ty) (sat : Bool) (s : State) : Host.Outcome State Fault Refusal :=
  s.arith2 h x t sat fun a b => a - b

/-- The carry in of iaddc and isubb: 0, or a guard (R90, R92). -/
def carryIn (th : Thread) (ci : Option (BitVec 3)) : Nat :=
  match ci with
  | none => 0
  | some g => if th.guard g then 1 else 0

/-- iaddc (R92): the carry out goes to g[CO]. -/
def execIaddc (h : Hdr) (x : VOps) (t : Ty) (ci : Option (BitVec 3)) (co : BitVec 3) (s : State) :
    Host.Outcome State Fault Refusal :=
  s.plain h x (Wid.same t 2) false fun v =>
    let r := addCarry (tyBits t) v.a v.b (carryIn v.th ci)
    { d := some r.1, th := fun th => th.setGuard co r.2 }

/-- isubb (R92): the borrow out goes to g[CO]. -/
def execIsubb (h : Hdr) (x : VOps) (t : Ty) (ci : Option (BitVec 3)) (co : BitVec 3) (s : State) :
    Host.Outcome State Fault Refusal :=
  s.plain h x (Wid.same t 2) false fun v =>
    let r := subBorrow (tyBits t) v.a v.b (carryIn v.th ci)
    { d := some r.1, th := fun th => th.setGuard co r.2 }

/-- imul (R91). -/
def execImul (h : Hdr) (x : VOps) (t : Ty) (s : State) : Host.Outcome State Fault Refusal :=
  s.arith2 h x t false fun a b => a * b

/-- imulh (R91): the floor of the product over 2^w. -/
def execImulh (h : Hdr) (x : VOps) (t : Ty) (s : State) : Host.Outcome State Fault Refusal :=
  s.arith2 h x t false fun a b => (a * b) / (2 ^ tyBits t : Nat)

/-- imad (R91). -/
def execImad (h : Hdr) (x : VOps) (t : Ty) (s : State) : Host.Outcome State Fault Refusal :=
  s.plain h x (Wid.same t 3) false fun v =>
    { d := some (wrapN (tyBits t) (numOf t v.a * numOf t v.b + numOf t v.c)) }

/-- imad64 (R91): a 64-bit accumulator. -/
def execImad64 (h : Hdr) (x : VOps) (t : Ty) (s : State) : Host.Outcome State Fault Refusal :=
  s.plain h x { d := 2, a := 1, b := 1, c := 2 } false fun v =>
    { d := some (wrapN 64 (numOf t v.a * numOf t v.b + v.c)) }

/-- iabs (R91): without SAT the most negative value is unchanged. -/
def execIabs (h : Hdr) (x : VOps) (t : Ty) (sat : Bool) (s : State) : Host.Outcome State Fault Refusal :=
  s.plain h x (Wid.same t 1) false fun v =>
    let r : Int := (numOf t v.a).natAbs
    { d := some (if sat then satOf t r else wrapN (tyBits t) r) }

/-- imin (R91). -/
def execImin (h : Hdr) (x : VOps) (t : Ty) (s : State) : Host.Outcome State Fault Refusal :=
  s.arith2 h x t false fun a b => min a b

/-- imax (R91). -/
def execImax (h : Hdr) (x : VOps) (t : Ty) (s : State) : Host.Outcome State Fault Refusal :=
  s.arith2 h x t false fun a b => max a b

/-- lea (R94): B extended to 64 bits as its type says, shifted by SH. -/
def execLea (h : Hdr) (x : VOps) (t : Ty) (sh : BitVec 3) (s : State) : Host.Outcome State Fault Refusal :=
  s.plain h x { d := 2, a := 2, b := t.words } false fun v =>
    { d := some (wrapN 64 (v.a + numOf t v.b * (2 ^ sh.toNat : Nat))) }

/-- The quotient of idiv and the remainder of irem (R93). -/
def quotRem (t : Ty) (a b : Nat) : Nat × Nat :=
  let w := tyBits t
  let x := numOf t a
  let y := numOf t b
  if y = 0 then (2 ^ w - 1, lowN w a)
  else if tySigned t ∧ x = -(2 ^ (w - 1) : Nat) ∧ y = -1 then (lowN w a, 0)
  else (wrapN w (x.tdiv y), wrapN w (x - x.tdiv y * y))

/-- A long-latency arithmetic form (R28, R93). -/
def State.longArith (s : State) (h : Hdr) (x : VOps) (t : Ty) (f : Nat → Nat → Nat) : Host.Outcome State Fault Refusal :=
  run s h fun i =>
    let once := x.d.cls = .s
    let who := if once then i.on.take 1 else i.on
    let n := t.words
    let src := [⟨x.a, n⟩, ⟨x.b, n⟩]
    let past := s.windowOver i.g i.w src x.imm
    s.through i (s.gate i who src [⟨x.d, n⟩] false x.imm) <|
      let s1 := (s.advance i).noteOver i past
      let s2 := who.foldl (fun s2 th =>
        let v := s.tin i x { d := 0, a := n, b := n } th
        s2.later i th x.d n (f v.a v.b)) s1
      s2.closeIssue i h.e 0 false

/-- idiv (R93). -/
def execIdiv (h : Hdr) (x : VOps) (t : Ty) (s : State) : Host.Outcome State Fault Refusal :=
  s.longArith h x t fun a b => (quotRem t a b).1

/-- irem (R93). -/
def execIrem (h : Hdr) (x : VOps) (t : Ty) (s : State) : Host.Outcome State Fault Refusal :=
  s.longArith h x t fun a b => (quotRem t a b).2

end Sys2Proof.Machine
end

