-- ==== Sys2Proof/Machine/Num.lean ====
section
/-!
DEFINITION. The number formats and the exact arithmetic of spec/06: values as dyadics, one rounding (R116, R118), narrowing (R117),
the correctly rounded functions (R119), the Hadamard rotation (R120 to R123) and the sums (R124 to R129).
-/
namespace Sys2Proof.Machine

/-! ### Formats (R112, R113, R115) -/

/-- A float format: exponent bits, fraction bits, bias, the code of its largest finite value, whether it has infinities, and the
code of its canonical NaN. -/
structure Fmt where
  eb   : Nat
  m    : Nat
  bias : Nat
  top  : Nat
  inf  : Bool
  nan  : Nat
  deriving DecidableEq, Repr

/-- FP32 (R112). -/
def fp32 : Fmt := { eb := 8, m := 23, bias := 127, top := 0x7F7FFFFF, inf := true, nan := 0x7FC00000 }
/-- FP16 (R112). -/
def fp16 : Fmt := { eb := 5, m := 10, bias := 15, top := 0x7BFF, inf := true, nan := 0x7E00 }
/-- BF16 (R112). -/
def bf16 : Fmt := { eb := 8, m := 7, bias := 127, top := 0x7F7F, inf := true, nan := 0x7FC0 }
/-- S24, as its 24 bits (R112). -/
def s24 : Fmt := { eb := 8, m := 15, bias := 127, top := 0x7F7FFF, inf := true, nan := 0x7FC000 }
/-- E4M3 (R112). -/
def e4m3 : Fmt := { eb := 4, m := 3, bias := 7, top := 0x7E, inf := false, nan := 0x7F }
/-- E5M2 (R112). -/
def e5m2 : Fmt := { eb := 5, m := 2, bias := 15, top := 0x7B, inf := true, nan := 0x7E }
/-- E2M1 (R112); a NaN result is +0 (R113). -/
def e2m1 : Fmt := { eb := 2, m := 1, bias := 1, top := 7, inf := false, nan := 0 }

/-- The element format of a float type. -/
def fmtOf (t : Ty) : Fmt :=
  match t with
  | .f16x2 => fp16
  | .bf16x2 => bf16
  | .e4m3x4 => e4m3
  | .e5m2x4 => e5m2
  | .e2m1x8 => e2m1
  | .s24 => s24
  | _ => fp32

/-- The weight of the sign bit. -/
def Fmt.signBit (f : Fmt) : Nat := 2 ^ (f.eb + f.m)

/-- The exact value of a code (R112). -/
def Fmt.decode (f : Fmt) (v : Nat) : Exact :=
  let neg := bitN v (f.eb + f.m)
  let mag := v % f.signBit
  if f.top < mag then (if f.inf && mag = f.top + 1 then .inf neg else .nan)
  else if mag = 0 then (if neg then .negZero else .num 0 0)
  else
    let e := mag / 2 ^ f.m
    let n : Nat := if e = 0 then mag else 2 ^ f.m + mag % 2 ^ f.m
    .num (if neg then -(n : Int) else n) ((max e 1 : Nat) - (f.bias : Int) - f.m)

/-- The exact value of a register read as a type's first element; an s24 ignores its low byte (R115). -/
def regVal (t : Ty) (v : Nat) : Exact :=
  match t with
  | .s24 => s24.decode (v % 2 ^ 32 / 256)
  | _ => (fmtOf t).decode v

/-! ### Exact arithmetic (R126) -/

/-- An exact value negated. -/
def Exact.neg (x : Exact) : Exact :=
  match x with
  | .num n e => if n = 0 then .negZero else .num (-n) e
  | .negZero => .num 0 0
  | .nan => .nan
  | .inf s => .inf (!s)

/-- Whether a value is a zero. -/
def Exact.isZero (x : Exact) : Bool :=
  match x with
  | .num n _ => n = 0
  | .negZero => true
  | _ => false

/-- Whether a value is negative, zeros by their sign. -/
def Exact.isNeg (x : Exact) : Bool :=
  match x with
  | .num n _ => n < 0
  | .negZero => true
  | .inf s => s
  | .nan => false

/-- Whether a value is NaN. -/
def Exact.isNan (x : Exact) : Bool :=
  match x with
  | .nan => true
  | _ => false

/-- A zero of a sign. -/
def Exact.zero (neg : Bool) : Exact := if neg then .negZero else .num 0 0

/-- The exact product (R126); a zero product has the sign of its factors (R118). -/
def Exact.mul (x y : Exact) : Exact :=
  match x, y with
  | .nan, _ => .nan
  | _, .nan => .nan
  | .inf s, _ => if y.isZero then .nan else .inf (s != y.isNeg)
  | _, .inf s => if x.isZero then .nan else .inf (s != x.isNeg)
  | .num a e, .num b k => if a = 0 ∨ b = 0 then Exact.zero (x.isNeg != y.isNeg) else .num (a * b) (e + k)
  | _, _ => Exact.zero (x.isNeg != y.isNeg)

/-- The sum of two dyadics. -/
def addDyadic (a : Int) (e : Int) (b : Int) (k : Int) : Int × Int :=
  if a = 0 then (b, k)
  else if b = 0 then (a, e)
  else
    let l := min e k
    (a * (2 ^ (e - l).toNat : Nat) + b * (2 ^ (k - l).toNat : Nat), l)

/-- The exact sum of two terms (R126); −0 only where both are (R118). -/
def Exact.add (x y : Exact) : Exact :=
  match x, y with
  | .nan, _ => .nan
  | _, .nan => .nan
  | .inf s, .inf t => if s = t then .inf s else .nan
  | .inf s, _ => .inf s
  | _, .inf s => .inf s
  | .negZero, .negZero => .negZero
  | .negZero, .num b k => .num b k
  | .num a e, .negZero => .num a e
  | .num a e, .num b k => let r := addDyadic a e b k; .num r.1 r.2

/-- The exact sum of a list of terms; of none, +0. -/
def Exact.sum (xs : List Exact) : Exact :=
  match xs with
  | [] => .num 0 0
  | x :: r => r.foldl Exact.add x

/-- A power of two times a value. -/
def Exact.scale (x : Exact) (k : Int) : Exact :=
  match x with
  | .num n e => .num n (e + k)
  | _ => x

/-- How two finite values or infinities compare; none where one is NaN. Zeros are equal. -/
def Exact.cmp (x y : Exact) : Option Ordering :=
  match x, y with
  | .nan, _ => none
  | _, .nan => none
  | .inf s, .inf t => some (compare (if s then 0 else 1 : Nat) (if t then 0 else 1))
  | .inf s, _ => some (if s then .lt else .gt)
  | _, .inf s => some (if s then .gt else .lt)
  | _, _ =>
    match Exact.add x y.neg with
    | .num n _ => some (compare n 0)
    | _ => some .eq

/-! ### Rounding (R116 to R118) -/

/-- floor(log2(n / d)) for positive n and d. -/
def floorLog2 (n d : Nat) : Int :=
  let a : Int := (Nat.log2 n : Int) - Nat.log2 d
  if n * 2 ^ (-a).toNat < d * 2 ^ a.toNat then a - 1 else a

/-- Whether a remainder r of den rounds the quotient q away from zero. -/
def roundsUp (mode : Rnd) (neg : Bool) (q r den : Nat) : Bool :=
  if r = 0 then false
  else match mode with
    | .rne => decide (den < 2 * r) || (decide (den = 2 * r) && q % 2 = 1)
    | .rz => false
    | .ru => !neg
    | .rd => neg

/-- The magnitude code of (n / d) × 2^e rounded into a format whose exponent is unbounded above (R116). -/
def Fmt.roundMag (f : Fmt) (mode : Rnd) (neg : Bool) (n d : Nat) (e : Int) : Nat :=
  let emin : Int := 1 - (f.bias : Int) - f.m
  let l := floorLog2 n d + e
  if l < emin - 2 then (if roundsUp mode neg 0 1 4 then 1 else 0)
  else
    let u := max (l - f.m) emin
    let s := e - u
    let a := n * 2 ^ s.toNat
    let b := d * 2 ^ (-s).toNat
    let q := a / b
    (u - emin).toNat * 2 ^ f.m + q + (if roundsUp mode neg q (a % b) b then 1 else 0)

/-- The code of a zero under a mode (R118): −0 under rd. -/
def Fmt.zero (f : Fmt) (mode : Rnd) : Nat := if mode = .rd then f.signBit else 0

/-- The code of an infinity; the largest finite value where the format has none. -/
def Fmt.infinity (f : Fmt) (neg : Bool) : Nat :=
  (if neg then f.signBit else 0) + (if f.inf then f.top + 1 else f.top)

/-- round of a nonzero (n / d) × 2^e (R116): overflow by mode and sign. -/
def Fmt.roundQ (f : Fmt) (mode : Rnd) (neg : Bool) (n d : Nat) (e : Int) : Nat :=
  let c := f.roundMag mode neg n d e
  if f.top < c then
    (if mode = .rne ∨ (mode = .ru ∧ !neg) ∨ (mode = .rd ∧ neg) then f.infinity neg
     else (if neg then f.signBit else 0) + f.top)
  else (if neg then f.signBit else 0) + c

/-- round of an exact value into a format (R113, R116, R118, R126). -/
def Fmt.round (f : Fmt) (mode : Rnd) (x : Exact) : Nat :=
  match x with
  | .nan => f.nan
  | .inf s => f.infinity s
  | .negZero => f.signBit
  | .num n e => if n = 0 then f.zero mode else f.roundQ mode (n < 0) n.natAbs 1 e

/-- narrow of a nonzero (n / d) × 2^e (R117): saturation in every mode. -/
def Fmt.narrowQ (f : Fmt) (mode : Rnd) (neg : Bool) (n d : Nat) (e : Int) : Nat :=
  (if neg then f.signBit else 0) + min f.top (f.roundMag mode neg n d e)

/-- narrow of an exact value into E4M3, E5M2 or E2M1 (R117). -/
def Fmt.narrow (f : Fmt) (mode : Rnd) (x : Exact) : Nat :=
  match x with
  | .nan => f.nan
  | .inf s => f.infinity s
  | .negZero => f.signBit
  | .num n e => if n = 0 then f.zero mode else f.narrowQ mode (n < 0) n.natAbs 1 e

/-- An exact value rounded to an integer by a mode (R117, R135). -/
def roundInt (mode : Rnd) (n : Int) (e : Int) : Int :=
  if 0 ≤ e then n * (2 ^ e.toNat : Nat)
  else
    let k := (-e).toNat
    let neg := decide (n < 0)
    let a := n.natAbs
    let b := 2 ^ k
    let q : Nat := a / b + (if roundsUp mode neg (a / b) (a % b) b then 1 else 0)
    if neg then -(q : Int) else q

/-- A conversion into an integer range (R117): NaN gives 0, infinities the extremes. -/
def toRange (mode : Rnd) (lo hi : Int) (x : Exact) : Int :=
  match x with
  | .nan => 0
  | .negZero => 0
  | .inf s => if s then lo else hi
  | .num n e => max lo (min hi (roundInt mode n e))

/-- The range of an integer element of `w` bits. -/
def rangeOf (signed : Bool) (w : Nat) : Int × Int :=
  if signed then (-(2 ^ (w - 1) : Nat), (2 ^ (w - 1) : Nat) - 1) else (0, (2 ^ w : Nat) - 1)

/-! ### Correctly rounded functions (R119) -/

/-- One Newton step of the integer square root, until it no longer falls. -/
def sqrtLoop (n : Nat) (fuel x : Nat) : Nat :=
  match fuel with
  | 0 => x
  | k + 1 =>
    let y := (x + n / x) / 2
    if y < x then sqrtLoop n k y else x

/-- The integer square root. -/
def isqrt (n : Nat) : Nat := if n = 0 then 0 else sqrtLoop n (2 * Nat.log2 n + 8) (2 ^ (Nat.log2 n / 2 + 1))

/-- A value between r × 2^e and (r + 1) × 2^e, or r × 2^e itself: as a dyadic that rounds the same way in any shorter format. -/
def stickyVal (r : Nat) (exact : Bool) (e : Int) : Exact := .num (if exact then 2 * r else 2 * r + 1 : Nat) (e - 1)

/-- fdiv (R119). An infinity by a finite value (zero too), a finite value by an infinity, and the sign of a zero or infinite quotient are
in no table of R118 or R119: they follow the quotient's limit with the xor of the signs (DESIGN CHOICE, log entry 27). -/
def fdivN (mode : Rnd) (x y : Exact) : Nat :=
  match x, y with
  | .nan, _ => fp32.nan
  | _, .nan => fp32.nan
  | .inf _, .inf _ => fp32.nan
  | .inf s, _ => fp32.infinity (s != y.isNeg)
  | _, .inf s => fp32.round mode (Exact.zero (s != x.isNeg))
  | _, _ =>
    let neg := x.isNeg != y.isNeg
    if y.isZero then (if x.isZero then fp32.nan else fp32.infinity neg)
    else match x, y with
      | .num a e, .num b k => if a = 0 then fp32.round mode (Exact.zero neg) else fp32.roundQ mode neg a.natAbs b.natAbs (e - k)
      | _, _ => fp32.round mode (Exact.zero neg)

/-- frcp (R119): ±∞ gives ±0. -/
def frcpN (mode : Rnd) (x : Exact) : Nat :=
  match x with
  | .inf s => if s then fp32.signBit else 0
  | _ => fdivN mode (.num 1 0) x

/-- A nonzero dyadic with an even exponent. -/
def evenExp (n : Nat) (e : Int) : Nat × Int := if e % 2 = 0 then (n, e) else (2 * n, e - 1)

/-- fsqrt (R119). -/
def fsqrtN (mode : Rnd) (x : Exact) : Nat :=
  match x with
  | .nan => fp32.nan
  | .negZero => fp32.signBit
  | .inf s => if s then fp32.nan else fp32.infinity false
  | .num n e =>
    if n = 0 then fp32.zero mode
    else if n < 0 then fp32.nan
    else
      let (a, k) := evenExp n.natAbs e
      let b := a * 2 ^ 64
      let r := isqrt b
      fp32.round mode (stickyVal r (r * r = b) (k / 2 - 32))

/-- frsq (R119). -/
def frsqN (mode : Rnd) (x : Exact) : Nat :=
  match x with
  | .nan => fp32.nan
  | .negZero => fp32.infinity true
  | .inf s => if s then fp32.nan else 0
  | .num n e =>
    if n = 0 then fp32.infinity false
    else if n < 0 then fp32.nan
    else
      let (a, k) := evenExp n.natAbs e
      let r := isqrt (2 ^ 128 / a)
      fp32.round mode (stickyVal r (r * r * a = 2 ^ 128) (-(k / 2) - 64))

/-- 2^f of a fraction f, its first bit worth `root`'s power, by square roots of 2 in fixed point (256 fraction bits): `bits` are
the fraction's bits from the highest. -/
def exp2Loop (bits : List Bool) (root acc : Nat) : Nat :=
  match bits with
  | [] => acc
  | b :: r =>
    let root := isqrt (root * 2 ^ 256)
    exp2Loop r root (if b then acc * root / 2 ^ 256 else acc)

/-- fexp2 (R119). A power that is not an integer is irrational, so no tie arises; 256 fraction bits decide it (log entry 20). -/
def fexp2N (mode : Rnd) (x : Exact) : Nat :=
  match x with
  | .nan => fp32.nan
  | .inf s => if s then 0 else fp32.infinity false
  | .negZero => fp32.round mode (.num 1 0)
  | .num n e =>
    let i := if 0 ≤ e then n * (2 ^ e.toNat : Nat) else n / (2 ^ (-e).toNat : Nat)
    let i := max (-400) (min 400 i)
    let k := (-e).toNat
    let fr := if 0 ≤ e then 0 else (n % (2 ^ k : Nat)).toNat
    if fr = 0 then fp32.round mode (.num 1 i)
    else
      let bits := (List.range k).map fun j => bitN fr (k - 1 - j)
      fp32.round mode (stickyVal (exp2Loop bits (2 ^ 257) (2 ^ 256)) false (i - 256))

/-- The first `fuel` fraction bits of log2 of m / 2^400, for 1 ≤ m / 2^400 < 2. -/
def log2Loop (fuel m acc : Nat) : Nat :=
  match fuel with
  | 0 => acc
  | k + 1 =>
    let q := m * m / 2 ^ 400
    if 2 ^ 401 ≤ q then log2Loop k (q / 2) (2 * acc + 1) else log2Loop k q (2 * acc)

/-- flog2 (R119). The logarithm of a number that is no power of two is irrational; 160 fraction bits decide it (log entry 20). -/
def flog2N (mode : Rnd) (x : Exact) : Nat :=
  match x with
  | .nan => fp32.nan
  | .negZero => fp32.infinity true
  | .inf s => if s then fp32.nan else fp32.infinity false
  | .num n e =>
    if n = 0 then fp32.infinity true
    else if n < 0 then fp32.nan
    else
      let a := n.natAbs
      let l := Nat.log2 a
      let k : Int := l + e
      if a = 2 ^ l then (if k = 0 then 0 else fp32.round mode (.num k 0))
      else
        let d : Int := k * (2 ^ 160 : Nat) + (log2Loop 160 (a * 2 ^ 400 / 2 ^ l) 0 : Nat)
        fp32.round mode (.num (2 * d + 1) (-161))

/-! ### The other float forms -/

/-- fmin and fmax of two codes of a format (R134). -/
def Fmt.minMax (f : Fmt) (max : Bool) (a b : Nat) : Nat :=
  let x := f.decode a
  let y := f.decode b
  match x.isNan, y.isNan with
  | true, true => f.nan
  | true, false => b
  | false, true => a
  | false, false =>
    match x.cmp y with
    | some .lt => if max then b else a
    | some .gt => if max then a else b
    | _ => if x.isNeg = y.isNeg then a else if x.isNeg = max then b else a

/-- frnd (R135). -/
def frndN (mode : Rnd) (a : Nat) : Nat :=
  match fp32.decode a with
  | .nan => fp32.nan
  | .num n e =>
    if n = 0 then a
    else
      let r := roundInt mode n e
      if r = 0 then (if n < 0 then fp32.signBit else 0) else fp32.round mode (.num r 0)
  | _ => a

/-- fclass (R136). -/
def fclassN (a : Nat) : Nat :=
  let neg := bitN a 31
  let e := bitsN a 23 8
  let f := bitsN a 0 23
  let k :=
    if e = 255 then (if f ≠ 0 then (if bitN a 22 then 9 else 8) else if neg then 0 else 7)
    else if e ≠ 0 then (if neg then 1 else 6)
    else if f ≠ 0 then (if neg then 2 else 5)
    else (if neg then 3 else 4)
  2 ^ k

/-- fscale (R137). -/
def fscaleN (mode : Rnd) (a : Nat) (k : Int) : Nat :=
  match fp32.decode a with
  | .nan => fp32.nan
  | .num n e => if n = 0 then a else fp32.round mode (.num n (e + k))
  | _ => a

/-- A float compare (R99, R100): every condition but ne and un is false of a NaN. -/
def condFloat (c : Cond) (x y : Exact) : Bool :=
  match x.cmp y with
  | none => (match c with | .ne => true | .un => true | _ => false)
  | some o =>
    match c with
    | .eq => o = .eq
    | .ne => o ≠ .eq
    | .lt => o = .lt
    | .le => o ≠ .gt
    | .gt => o = .gt
    | .ge => o ≠ .lt
    | .un => false
    | .ord => true

/-! ### Packed elements (R114) -/

/-- The element width of a packed type in bits. -/
def elBits (t : Ty) : Nat :=
  match t with
  | .h2 => 16
  | .uh2 => 16
  | .f16x2 => 16
  | .bf16x2 => 16
  | .b4 => 8
  | .ub4 => 8
  | .e4m3x4 => 8
  | .e5m2x4 => 8
  | .n8 => 4
  | .e2m1x8 => 4
  | .i64 => 64
  | .ui64 => 64
  | _ => 32

/-- The elements of a type in a 32-bit register. -/
def elCount (t : Ty) : Nat := 32 / min 32 (elBits t)

/-- Element `i` of a packed register. -/
def elem (t : Ty) (v i : Nat) : Nat := bitsN v (elBits t * i) (elBits t)

/-- A register built from its elements. -/
def packEls (w n : Nat) (f : Nat → Nat) : Nat := (List.range n).foldl (fun v i => v + lowN w (f i) * 2 ^ (w * i)) 0

/-- A register with one element replaced. -/
def setElem (t : Ty) (v i x : Nat) : Nat :=
  packEls (elBits t) (elCount t) fun k => if k = i then x else elem t v k

/-- A packed register mapped elementwise. -/
def mapEls (t : Ty) (f : Nat → Nat) : Nat := packEls (elBits t) (elCount t) f

/-- The number of an integer element (R114). -/
def elNum (t : Ty) (v i : Nat) : Int := if tySigned t then signedN (elBits t) (elem t v i) else (elem t v i : Int)

/-- The value of an element of any packed or scalar type (R112, R114, R115). -/
def elVal (t : Ty) (v i : Nat) : Exact :=
  if t.isInteger then .num (elNum t v i) 0
  else match t with
    | .s24 => regVal .s24 v
    | _ => (fmtOf t).decode (elem t v i)

/-! ### Atomic floats (R241) -/

/-- The new value of a float add, min or max: per element, adds rounded rne. -/
def atomFloat (t : Ty) (op : AOp) (a b : Nat) : Nat :=
  let f := fmtOf t
  mapEls t fun i =>
    match op with
    | .min => f.minMax false (elem t a i) (elem t b i)
    | .max => f.minMax true (elem t a i) (elem t b i)
    | _ => f.round .rne ((f.decode (elem t a i)).add (f.decode (elem t b i)))

/-! ### The Hadamard rotation (R120 to R123) -/

/-- y = H x (R120). -/
def hadamard (xs : List Exact) : List Exact :=
  (List.range xs.length).map fun i => Exact.sum ((List.range xs.length).map fun j =>
    let x := nth xs j (.num 0 0)
    if parityN 8 (i &&& j) then x.neg else x)

/-- maxfinite(F) as a number: 448, 57344 or 6 (R123). -/
def maxFinite (f : Fmt) : Nat :=
  match f.decode f.top with
  | .num n e => n.natAbs * 2 ^ e.toNat / 2 ^ (-e).toNat
  | _ => 0

/-- The block scale that hqs chooses, as its 24 bits (R123). -/
def blockScale (f : Fmt) (ys : List Exact) : Nat :=
  if ys.any Exact.isNan then s24.nan
  else if ys.any (fun y => match y with | .inf _ => true | _ => false) then s24.infinity false
  else
    let big := ys.foldl (fun b y =>
      let y := if y.isNeg then y.neg else y
      if y.cmp b = some .gt then y else b) (.num 0 0)
    match big with
    | .num n e => if n = 0 then 0 else min s24.top (s24.roundMag .ru false n.natAbs (maxFinite f) e)
    | _ => 0

/-- The code of y under a scale, as hq writes it (R123). -/
def quantCode (f : Fmt) (y scale : Exact) : Nat :=
  match scale with
  | .nan => f.nan
  | .inf _ => f.nan
  | .negZero => 0
  | .num a k =>
    if a = 0 then 0
    else match y with
      | .nan => f.nan
      | .inf s => f.infinity (s != decide (a < 0))
      | .negZero => if a < 0 then 0 else f.signBit
      | .num n e =>
        if n = 0 then (if a < 0 then f.signBit else 0)
        else f.narrowQ .rne (decide (n < 0) != decide (a < 0)) n.natAbs a.natAbs (e - k)

end Sys2Proof.Machine
end

