-- ==== Sys2Proof/Machine/Traffic.lean ====
section
/-!
DEFINITION. Accesses in flight: what a reader on a die sees, when an access may be performed, and what performing it does
(spec/02 R28, R46; spec/13 R229 to R233, R241; spec/20 R354 to R359). The order in which flights are performed is the agenda's.
-/
namespace Sys2Proof.Machine

/-! ### Barrier-object images in scratchpad (R243, R244) -/

/-- CTL (R244). -/
def Obj.ctl (o : Obj) : Nat :=
  let b := fun (x : Bool) (k : Nat) => if x then 2 ^ k else 0
  (match o.scope with | .core => 0 | .clu => 1 | .dev => 2 | .sys => 3) + b o.clu 2 + b o.keep 3 + b o.shortCur 4 +
    b o.lastShort 5 + b o.errCur 6 + b o.lastErr 7 + 2 ^ 8 + b o.boundq 9 + o.exited % 65536 * 2 ^ 16 +
    o.bib % 65536 * 2 ^ 32 + o.inflight % 65536 * 2 ^ 48

/-- The 64 bytes of a live object (R243). -/
def Obj.image (o : Obj) : List Byte :=
  leBytes 4 o.lap.toNat ++ leBytes 2 o.expArr ++ leBytes 2 o.arr ++ leBytes 4 o.expBytes ++
    leBytes 4 (min o.landed 0xFFFFFFFF) ++ leBytes 16 o.members.toNat ++ leBytes 8 o.region0.toNat ++
    leBytes 8 o.region1.toNat ++ leBytes 8 o.error.toNat ++ leBytes 8 o.ctl

/-- Whether the cluster unit finds a gang's own rows by the bib that its access carries: the first resident gang of its cluster with that
bib is the gang itself (R195, R336). A control core has no window. -/
def State.unitFinds (s : State) (g : Gang) : Bool :=
  let near := fun (h : Gang) => h.gid = g.gid || s.clusters.any fun cl => h.cores.any cl.cores.contains && g.cores.any cl.cores.contains
  g.ctl || (match s.gangs.find? fun h => h.bib = g.bib && near h with | some h => h.gid = g.gid | none => false)

/-- The live object whose bytes hold a scratchpad offset. -/
def Gang.objAt (g : Gang) (gc a : Nat) : Option Obj :=
  g.objs.find? fun o => o.ref.gc = gc && decide (o.ref.off ≤ a) && decide (a < o.ref.off + 64)

/-- Whether a range touches a live object (R243). -/
def Gang.touchesObj (g : Gang) (gc a n : Nat) : Bool :=
  g.objs.any fun o => o.ref.gc = gc && overlaps o.ref.off 64 a n

/-- A byte of a gang's scratchpad as a load reads it: a live object shows its image (R243). -/
def Gang.padByte (g : Gang) (gc a : Nat) : Byte :=
  match g.objAt gc a with
  | some o => nth o.image (a - o.ref.off) 0
  | none => (nth g.sp gc []).read a

/-- Bytes of a gang's scratchpad. -/
def Gang.padBytes (g : Gang) (gc a n : Nat) : List Byte := (List.range n).map fun k => g.padByte gc (a + k)

/-- The gang core a warp sits in, by its block index (R171). -/
def Gang.gcOf (g : Gang) (wi : Nat) : Nat := wi / warpsPerCore g.n

/-- The words of a range that a write covers whole (R343). -/
def wordsCovered (a n : Nat) : List Nat := (wordsIn a n).filter fun w => decide (a ≤ 4 * w) && decide (4 * w + 4 ≤ a + n)

/-- Whether a veiled write shares a word with a range. -/
def Veil.meets (v : Veil) (gc a n : Nat) : Bool :=
  v.gc = gc && overlaps (v.off / 4 * 4) (v.old.length + v.off % 4) (a / 4 * 4) (n + a % 4)

/-- A range of a gang's scratchpad whose bytes every load sees as they are. -/
def Gang.bare (g : Gang) (gc a n : Nat) : Gang := { g with veils := g.veils.filter fun v => !v.meets gc a n }

/-- Every write of a gang's scratchpad, and every write of an engine to global memory, is seen by every load: what a fence, a barrier or a
wsync orders (R232). -/
def State.unveil (s : State) (gid : Nat) : State := { s.modGang gid (fun g => { g with veils := [] }) with glVeils := [] }

/-- Scratchpad bytes written, seen by every later load; a word written whole loses its poison (R343). -/
def State.padWrite (s : State) (gid gc a : Nat) (bs : List Byte) : State :=
  let clean := wordsCovered a bs.length
  { (s.modGang gid fun g => { g.bare gc a bs.length with sp := modAt g.sp gc fun m => m.writeN a bs }) with
    badPad := s.badPad.filter fun p => !(p.1 = gid && p.2.1 = gc && clean.contains p.2.2) }

/-- Scratchpad bytes written that the plain loads of others may still miss, until they are ordered after it (R111, R231, R272). -/
def State.padVeil (s : State) (gid gc a : Nat) (bs : List Byte) (by_ : Option (Nat × Nat)) : State :=
  match s.gang? gid with
  | none => s.padWrite gid gc a bs
  | some g =>
    let v : Veil := { gc := gc, off := a, old := (nth g.sp gc []).readN a bs.length, by_ := by_ }
    (s.padWrite gid gc a bs).modGang gid fun g => { g with veils := g.veils ++ [v] }

/-- The byte a plain load of a thread still sees under a veiled write of another. -/
def Gang.veiled (g : Gang) (wi t gc a : Nat) : Option Byte :=
  (g.veils.find? fun v => v.gc = gc && v.by_ ≠ some (wi, t) && decide (v.off ≤ a) && decide (a < v.off + v.old.length)).map
    fun v => nth v.old (a - v.off) 0

/-- Whether a scratchpad range holds a poisoned word (R343). -/
def State.padBad (s : State) (gid gc a n : Nat) : Bool :=
  (wordsIn a n).any fun w => s.badPad.contains (gid, gc, w)

/-! ### Flights -/

/-- Two accesses of one thread. -/
def Flight.sameThread (a b : Flight) : Bool := a.gid = b.gid && a.wi = b.wi && a.t = b.t

/-- Whether a flight reads memory. -/
def Flight.reads (f : Flight) : Bool :=
  match f.act with
  | .load _ => true
  | .atom .. => true
  | _ => false

/-- Whether a flight writes memory. -/
def Flight.writes (f : Flight) : Bool :=
  match f.act with
  | .store => true
  | .atom .. => true
  | _ => false

/-- Whether a flight is an atomic. -/
def Flight.isAtom (f : Flight) : Bool := match f.act with | .atom .. => true | _ => false

/-- Whether a flight is a store. -/
def Flight.isStore (f : Flight) : Bool := match f.act with | .store => true | _ => false

/-- The mask of all parts: two halves for 16 bytes, else one (R230). -/
def Flight.parts (f : Flight) : Nat := if f.len = 16 then 3 else 1

/-- Whether every part has been performed (or the home refused it). -/
def Flight.finished (f : Flight) : Bool := f.refused || f.done = f.parts

/-- The bytes of a part: its offset and length. Part 0 is the whole. -/
def Flight.span (f : Flight) (part : Nat) : Nat × Nat :=
  if f.len = 16 then (if part = 1 then (0, 8) else if part = 2 then (8, 8) else (0, 16)) else (0, f.len)

/-- Whether a byte offset of a flight has been performed. -/
def Flight.doneAt (f : Flight) (k : Nat) : Bool :=
  if f.len = 16 then bitN f.done (k / 8) else f.done ≠ 0

/-- Whether two flights touch a common byte. -/
def Flight.meets (a b : Flight) : Bool :=
  match a.place, b.place with
  | .phys p, .phys q => overlaps p a.len q b.len
  | .pad g p, .pad h q => a.gid = b.gid && g = h && overlaps p a.len q b.len
  | _, _ => false

/-- Whether two flights touch a common 4-byte word. -/
def Flight.meetsWord (a b : Flight) : Bool :=
  match a.place, b.place with
  | .phys p, .phys q => overlaps (p / 4 * 4) (a.len + p % 4) (q / 4 * 4) (b.len + q % 4)
  | .pad g p, .pad h q => a.gid = b.gid && g = h && overlaps (p / 4 * 4) (a.len + p % 4) (q / 4 * 4) (b.len + q % 4)
  | _, _ => false

/-- The flight of a number. -/
def State.flight? (s : State) (id : Nat) : Option Flight := s.flights.find? fun f => f.id = id

/-- One flight changed. -/
def State.modFlight (s : State) (id : Nat) (f : Flight → Flight) : State :=
  { s with flights := s.flights.map fun k => if k.id = id then f k else k }

/-- One flight removed. -/
def State.dropFlight (s : State) (id : Nat) : State := { s with flights := s.flights.filter fun k => k.id ≠ id }

/-- The flights of a thread. -/
def State.threadFlights (s : State) (r : WRef) (t : Nat) : List Flight :=
  s.flights.filter fun f => f.gid = r.1 && f.wi = r.2 && f.t = t

/-- Whether an older flight of the same thread stands before this one: the same bytes in program order, except that a plain load
may take the value of an own store still on its way; and observed accesses of one scope in program order (R46, R233). What a fence orders
waits at issue (`State.acqWaits`, `State.relWaits`). -/
def Flight.ownBefore (f g : Flight) : Bool :=
  f.sameThread g && decide (g.id < f.id) && !g.finished &&
    ((f.meets g && !(g.isStore && f.reads && !f.observed)) || (f.observed && g.observed && f.scope = g.scope))

/-- Whether two flights come from one issue. -/
def Flight.oneIssue (a b : Flight) : Bool := a.gid = b.gid && a.wi = b.wi && a.pc = b.pc && a.issued = b.issued

/-- Whether an older store to the same word stands before a write or observed access. At home: a store of the same die, in either mode,
where one of the two is forwarded early, since the die's readers see its stores in issue order (R229, R356); and a store of the same issue,
whose threads take effect in ascending t (R198). In scratchpad: a write of the same issue (R198, R242). -/
def dieBefore (f g : Flight) : Bool :=
  (f.writes || f.observed) && decide (g.id < f.id) && g.writes && !g.finished && f.meetsWord g &&
    (match g.place with
     | .phys _ => g.isStore && f.die = g.die && (f.fwd || g.fwd || f.oneIssue g)
     | _ => f.oneIssue g)

/-- Whether reads of a line wait at its home for the invalidations of a ga store (R355). -/
def State.lineHeld (s : State) (line : Nat) : Bool := s.invals.any fun i => i.line = line && i.hold

/-- Whether a flight may be performed now. -/
def State.mayPerform (s : State) (f : Flight) : Bool :=
  s.flights.all (fun g => !f.ownBefore g && !dieBefore f g) && (!f.needOst || f.seq.isSome)

/-! ### What a reader sees -/

/-- The copy of a line on a die (R354). -/
def State.copy? (s : State) (die line : Nat) : Option Copy := s.copies.find? fun c => c.die = die && c.line = line

/-- Whether a flight is a store that lies in a line. -/
def Flight.storesTo (f : Flight) (line : Nat) : Bool :=
  match f.place with
  | .phys p => f.isStore && lineOf p = line
  | _ => false

/-- A store on its way is forwarded early to the readers of its die, and with it the older ones of the die in its line, for the die's copy
shows them in issue order; a ga store is not (R355, R356). -/
def State.forward (s : State) (id : Nat) : State :=
  match s.flight? id with
  | some f =>
    match f.place with
    | .phys p =>
      if f.isStore && !f.ga && !f.finished then
        { s with flights := s.flights.map fun g =>
            if g.storesTo (lineOf p) && !g.ga && !g.finished && g.die = f.die && decide (g.id ≤ id) then { g with fwd := true } else g }
      else s
    | _ => s
  | none => s

/-- Whether a store of a die that its readers see early is on its way to a line (R356). -/
def State.onWay (s : State) (die line : Nat) : Bool := s.flights.any fun g => g.fwd && g.die = die && !g.finished && g.storesTo line

/-- Early-forwarded stores of a die on their way to the home slice that cover a byte, oldest first: those a load `f` may see
(R355, R356). Stores of the load's own thread count whatever their mode, forwarded or not, and only older ones (R46). -/
def State.forwards (s : State) (f : Flight) (a : Nat) : List Flight :=
  s.flights.filter fun g =>
    match g.place with
    | .phys p =>
      g.isStore && !g.refused && decide (p ≤ a) && decide (a < p + g.len) && !g.doneAt (a - p) &&
        (if g.sameThread f then decide (g.id < f.id) else g.die = f.die && g.fwd)
    | _ => false

/-- The byte that an engine's write has replaced and a die's plain loads may still see (R272). -/
def State.glVeiled (s : State) (die a : Nat) : Option Byte :=
  (s.glVeils.find? fun v => v.die = die && decide (v.pa ≤ a) && decide (a < v.pa + v.old.length)).map fun v => nth v.old (a - v.pa) 0

/-- The byte a load on a die takes from the home slice or the die's copy, before forwarding (R354, R356): while a forwarded store
to the line is on its way, the die sees the home's current value. -/
def State.baseByte (s : State) (f : Flight) (a : Nat) : Byte :=
  match s.glVeiled f.die a with
  | some b => b
  | none =>
    if f.die = homeDie a || s.onWay f.die (lineOf a) then s.mem.read a
    else match s.copy? f.die (lineOf a) with
      | some c => nth c.data (a % 128) 0
      | none => s.mem.read a

/-- The forwarded stores of other threads that a plain load meets, which it has read by now (R231). -/
def State.markSeen (s : State) (f : Flight) : State :=
  { s with flights := s.flights.map fun g =>
      if g.fwd && g.die = f.die && !g.sameThread f && !g.finished && f.meets g then { g with seen := true } else g }

/-- The byte a plain load sees. -/
def State.loadByte (s : State) (f : Flight) (a : Nat) : Byte :=
  match (s.forwards f a).getLast? with
  | some g => (match g.place with | .phys p => nth g.data (a - p) 0 | _ => 0)
  | none => s.baseByte f a

/-- Own scratchpad stores on their way that cover a byte, oldest first, older than number `id` (R46). -/
def State.padForwards (s : State) (r : WRef) (t gc a id : Nat) : List Flight :=
  s.flights.filter fun g =>
    match g.place with
    | .pad h p => g.gid = r.1 && g.wi = r.2 && g.t = t && g.isStore && decide (g.id < id) && h = gc &&
        decide (p ≤ a) && decide (a < p + g.len) && !g.doneAt (a - p)
    | _ => false

/-- The byte a thread's load sees in scratchpad: its own store on the way, else what a write it need not see yet replaced, else the
memory (R46, R111). -/
def State.padLoadByte (s : State) (g : Gang) (r : WRef) (t gc a id : Nat) : Byte :=
  match (s.padForwards r t gc a id).getLast? with
  | some f => (match f.place with | .pad _ p => nth f.data (a - p) 0 | _ => 0)
  | none => (g.veiled r.2 t gc a).getD (g.padByte gc a)

/-- The bytes of a part of a load or atomic as its place reads now. -/
def State.sample (s : State) (f : Flight) (off n : Nat) : List Byte :=
  match f.place with
  | .phys p =>
    (List.range n).map fun k => if f.observed then s.mem.read (p + off + k) else s.loadByte f (p + off + k)
  | .pad gc p =>
    match s.anyGang? f.gid with
    | some g => (List.range n).map fun k =>
        if f.observed then g.padByte gc (p + off + k) else s.padLoadByte g (f.gid, f.wi) f.t gc (p + off + k) f.id
    | none => List.replicate n 0
  | .reg => []

/-- A copy fetched for a load on a die that does not home the line and holds none (R354). -/
def State.fetchCopy (s : State) (f : Flight) : State :=
  match f.place with
  | .phys p =>
    if f.die = homeDie p || f.observed || (s.copy? f.die (lineOf p)).isSome then s
    else { s with copies := s.copies ++ [{ die := f.die, line := lineOf p, data := s.mem.readN (lineOf p * 128) 128 }] }
  | _ => s

/-! ### Writing global memory -/

/-- A frame being migrated remembers that a line was written (R226). -/
def State.markMig (s : State) (pa : Nat) : State :=
  { s with migs := s.migs.map fun m =>
      if m.frame = frameOf pa ∧ !m.dirty.contains (lineOf pa) then { m with dirty := m.dirty ++ [lineOf pa] } else m }

/-- The words of a range that lie in 64-bit granules it covers whole: the ECC granule of a home slice (R343). -/
def wordsClean (a n : Nat) : List Nat :=
  (wordsIn a n).filter fun w => decide (a ≤ w / 2 * 8) && decide (w / 2 * 8 + 8 ≤ a + n)

/-- Whether a veiled write of global memory shares a word with a range. -/
def GVeil.meets (v : GVeil) (pa n : Nat) : Bool := overlaps (v.pa / 4 * 4) (v.old.length + v.pa % 4) (pa / 4 * 4) (n + pa % 4)

/-- A range of global memory whose bytes every load sees as they are. -/
def State.bareGl (s : State) (pa n : Nat) : State := { s with glVeils := s.glVeils.filter fun v => !v.meets pa n }

/-- Bytes written at the home slices: the coherence point (R201, R229). A granule written whole loses its poison (R343). -/
def State.memWrite (s : State) (pa : Nat) (bs : List Byte) : State :=
  let clean := wordsClean pa bs.length
  ({ s with mem := s.mem.writeN pa bs, badMem := s.badMem.filter (fun w => !clean.contains w) }.bareGl pa bs.length).markMig pa

/-- Invalidations of every copy of a written line but the writer's own (R355). -/
def State.sendInvals (s : State) (pa die store : Nat) (hold : Bool) : State :=
  let sent := (s.copies.filter fun c => c.line = lineOf pa && c.die ≠ die).map fun c =>
    ({ line := c.line, die := c.die, store := store, hold := hold } : Inval)
  { s with invals := s.invals ++ sent }

/-- The writer's own copy takes the home's value (R356). -/
def State.refreshCopy (s : State) (pa die : Nat) : State :=
  { s with copies := s.copies.map fun c =>
      if c.die = die ∧ c.line = lineOf pa then { c with data := s.mem.readN (lineOf pa * 128) 128 } else c }

/-- The copy of a line on a die takes the home's value, or is dropped while the line serves no read (R355, R356). -/
def State.freshen (s : State) (pa die : Nat) : State :=
  if s.lineHeld (lineOf pa) then { s with copies := s.copies.filter fun c => !(c.die = die && c.line = lineOf pa) }
  else s.refreshCopy pa die

/-- Every copy of a die takes its home's value: what an engine of the die has read, its later readers see (R231). -/
def State.freshenDie (s : State) (die : Nat) : State :=
  { s with
    glVeils := s.glVeils.filter fun v => v.die ≠ die,
    copies := s.copies.map fun c =>
      if c.die = die ∧ !s.lineHeld c.line then { c with data := s.mem.readN (c.line * 128) 128 } else c }

/-- A write of an engine, a walk or the device at the home slice: every copy is invalidated at once (R355, R369). -/
def State.deviceWrite (s : State) (pa : Nat) (bs : List Byte) : State :=
  let s := s.memWrite pa bs
  let last := lineOf (pa + bs.length - 1)
  { s with copies := s.copies.filter fun c => decide (c.line < lineOf pa) || decide (last < c.line) }

/-- Why the home die refuses an access, as logged (R359): owner, type, poisoned entry. -/
def State.refuseFor (s : State) (world pa : Nat) : Option Nat :=
  let e := s.frame (frameOf pa)
  if e.owner ≠ world then some 1
  else if !(e.type = 1 || (world = 0 && e.type = 6)) then some 2
  else if e.bad then some 3
  else none

/-- Why the home die refuses a flight. -/
def State.refusal (s : State) (f : Flight) (pa : Nat) : Option Nat := s.refuseFor f.world pa

/-! ### Atomics (R241) -/

/-- The new word of an integer atomic; floats are given by `fl` (add, min, max). -/
def atomNew (t : Ty) (op : AOp) (old b : Nat) (cmp : Option Nat) (fl : Ty → AOp → Nat → Nat → Nat) : Nat :=
  match cmp with
  | some c => if old = c then b else old
  | none =>
    match op with
    | .xchg => b
    | .and => old &&& b
    | .or => old ||| b
    | .xor => old ^^^ b
    | .incw => if b ≤ old then 0 else old + 1
    | .add => if t.isInt then wrapN (tyBits t) (numOf t old + numOf t b) else fl t op old b
    | .min => if t.isInt then (if numOf t b < numOf t old then b else old) else fl t op old b
    | .max => if t.isInt then (if numOf t old < numOf t b then b else old) else fl t op old b

/-! ### The outstanding-store table (R358) -/

/-- Entries of a core's table in use. -/
def State.ostUsed (s : State) (core : Nat) : Nat :=
  (s.flights.filter fun f => f.core = core && f.needOst && f.seq.isSome).length

/-- A free entry goes to the oldest access of the core that waits for one; up to `n` are given (R358). -/
def State.grantOst (s : State) (core : Nat) (n : Nat) : State :=
  match n with
  | 0 => s
  | k + 1 =>
    if 16 ≤ s.ostUsed core then s
    else match s.flights.find? fun f => f.core = core && f.needOst && f.seq.isNone with
      | none => s
      | some f =>
        let q := (s.core core).osSeq
        ((s.modFlight f.id fun f => { f with seq := some q }).modCore core fun c => { c with osSeq := q + 1 }).grantOst core k

/-- Whether a warp stalls for an entry (R358). -/
def State.ostStall (s : State) (r : WRef) : Bool :=
  s.flights.any fun f => f.gid = r.1 && f.wi = r.2 && f.needOst && f.seq.isNone

/-! ### Routes between dies (R8, R360, R361) -/

/-- The dies of a bridge: 0 joins dies 0 and 1, 1 joins 2 and 3, 2 joins 0 and 2, 3 joins 1 and 3 (R8). -/
def bridgeDies (b : Nat) : Nat × Nat :=
  match b with
  | 0 => (0, 1)
  | 1 => (2, 3)
  | 2 => (0, 2)
  | _ => (1, 3)

/-- The bridge along the row of a die. -/
def rowBridge (d : Nat) : Nat := d / 2

/-- The bridge along the column of a die. -/
def colBridge (d : Nat) : Nat := 2 + d % 2

/-- The routes from one die to another, the first in service taken: between diagonal dies along the row and then the column, or the
other two hops (R8); between adjacent ones their bridge, or the three hops through the other two dies (R361). -/
def routesOf (a b : Nat) : List (List Nat) :=
  if a = b then [[]]
  else if b = a ^^^ 1 then [[rowBridge a], [colBridge a, rowBridge (a ^^^ 2), colBridge b]]
  else if b = a ^^^ 2 then [[colBridge a], [rowBridge a, colBridge (a ^^^ 1), rowBridge b]]
  else [[rowBridge a, colBridge (a ^^^ 1)], [colBridge a, rowBridge (a ^^^ 2)]]

/-- The bridges that traffic from one die to another crosses, if any route is in service (R8, R361). -/
def State.route (s : State) (a b : Nat) : Option (List Nat) := (routesOf a b).find? fun r => r.all fun k => nth s.bridges k false

/-- The home die of a flight's place, for an access of global memory. -/
def Flight.home? (f : Flight) : Option Nat :=
  match f.place with
  | .phys pa => some (homeDie pa)
  | _ => none

/-- The route a flight would leave on now. -/
def State.routeFor (s : State) (f : Flight) : List Nat := (f.home?.bind fun h => s.route f.die h).getD []

/-- Whether a core sends an access of its own or of its engine to a home die nowhere yet on a route: none is in service, or an entry of the
core to that die, older than number `id`, is still open on another route (R361). -/
def State.coreHeld (s : State) (core h id : Nat) (route : List Nat) : Bool :=
  dieOfCore core ≠ h && (route = [] || s.flights.any fun g =>
    g.core = core && decide (g.id < id) && g.needOst && g.home? = some h && g.route ≠ route)

/-- Whether a flight's core sends it nowhere yet (R361). -/
def State.routeHeld (s : State) (f : Flight) : Bool :=
  match f.home? with
  | none => false
  | some h => s.coreHeld f.core h f.id f.route

/-- Whether an access that a core or its engine would make of a physical address now is held: by the route to its home (R361), or, for a
read, by a ga store to its line (R355). -/
def State.homeHeld (s : State) (core pa : Nat) (read : Bool) : Bool :=
  s.coreHeld core (homeDie pa) s.nextId ((s.route (dieOfCore core) (homeDie pa)).getD []) || (read && s.lineHeld (lineOf pa))

/-- Whether the line of a transfer's target, or of a fetch, cannot be read now (R355, R361). -/
def State.fetchHeld (s : State) (g : Gang) (core v : Nat) : Bool :=
  pcForm v && (match s.translate core g.world g.root (v / 64 * 64) .fetch with
    | .ok pa _ => s.homeHeld core pa true
    | .bad _ => false)

/-- Whether a store of a die that another agent has read, or that a release counts as performed, is still on its way to some bytes: an
access at the home slice that comes after it waits for it (R231, R232). -/
def State.seenHeld (s : State) (die pa n : Nat) : Bool :=
  s.flights.any fun g => g.seen && g.die = die && !g.finished &&
    (match g.place with | .phys p => overlaps p g.len pa n | _ => false)

/-- Whether a bridge carries a flight's access or its acknowledgement (R360). -/
def State.carries (s : State) (b : Nat) (f : Flight) : Bool :=
  f.route.contains b || (f.home?.bind fun h => s.route h f.die).any (·.contains b)

/-- The fence counter a die's bridge router keeps for a core: its accesses forwarded through that router and not acknowledged, for which the
markers of a release wait (R361). -/
def State.fenceCount (s : State) (die core : Nat) : Nat :=
  (s.flights.filter fun f => f.core = core && f.needOst && f.seq.isSome &&
    f.route.any fun b => (bridgeDies b).1 = die || (bridgeDies b).2 = die).length

/-- A store that leaves a die which does not home its line and holds a copy of it is in that copy at once (R355). -/
def State.intoCopy (s : State) (id : Nat) (f : Flight) : State :=
  match f.place with
  | .phys p => if f.die ≠ homeDie p && (s.copy? f.die (lineOf p)).isSome then s.forward id else s
  | _ => s

/-- A new flight of a thread, on the route in service; an access of gl that writes asks for an entry (R358). -/
def State.launchFlight (s : State) (f : Flight) : State :=
  let (id, s) := s.fresh
  (({ s with flights := s.flights ++ [{ f with id := id, route := s.routeFor f }] }).intoCopy id f).grantOst f.core 1

/-! ### Performing a flight -/

/-- Whether a store or atomic has been performed at scope dev (R357). -/
def State.performedDev (s : State) (f : Flight) : Bool :=
  f.finished && !s.invals.any (fun i => i.store = f.id)

/-- Whether every earlier load of a thread has returned (R237, R276). -/
def State.loadsDone (s : State) (r : WRef) (t : Nat) : Bool :=
  (s.threadFlights r t).all fun f => !f.reads || f.dst.isNone

/-- A scratchpad store of a thread performed. -/
def State.performPad (s : State) (f : Flight) : State :=
  match f.place with
  | .pad gc p => (s.padWrite f.gid gc p f.data).dropFlight f.id
  | _ => s

/-- The scratchpad stores of a warp's threads that are still on their way. -/
def State.padStores (s : State) (r : WRef) (want : Flight → Bool) : List Flight :=
  s.flights.filter fun f => f.gid = r.1 && f.wi = r.2 && f.isStore && want f &&
    (match f.place with | .pad _ _ => true | _ => false)

/-- The scratchpad stores of a warp's threads that are still on their way performed, oldest first (R46, R162, R198). -/
def State.flushPads (s : State) (r : WRef) (want : Flight → Bool) : State := (s.padStores r want).foldl State.performPad s

/-- Whether an access that stays on its way holds back one of those stores (R46, R198). -/
def State.flushHeld (s : State) (r : WRef) (want : Flight → Bool) : Bool :=
  let gone := s.padStores r want
  gone.any fun f => s.flights.any fun g => (f.ownBefore g || dieBefore f g) && !gone.any fun k => k.id = g.id

/-- Every own scratchpad store of a thread that is still on its way and meets a range, performed in order (R46, R162). -/
def State.flushPad (s : State) (r : WRef) (t : Nat) (want : Flight → Bool) : State := s.flushPads r fun f => f.t = t && want f

/-- Whether older accesses of a thread hold back its scratchpad access (R46, R198): a read of the range on its way through the gang
window and, but for a plain load, whatever holds back the own stores that this access performs first. -/
def State.padHeld (s : State) (r : WRef) (t gc off n : Nat) (plain : Bool) : Bool :=
  let at_ := fun (f : Flight) => match f.place with | .pad c o => c = gc && overlaps o f.len off n | _ => false
  (s.threadFlights r t).any (fun f => !f.finished && at_ f && f.reads) ||
    (!plain && s.flushHeld r fun f => f.t = t && at_ f)

/-- Whether an acquire fence still holds back a thread's accesses, which wait at issue: an observed load or atomic before it has not been
performed (R237; log entry 12). -/
def State.acqWaits (s : State) (r : WRef) (th : Thread) : Bool :=
  (s.threadFlights r th.t).any fun g => g.observed && g.reads && !g.finished && decide (g.id < th.acqPt)

/-- Whether a release fence still holds back a thread's observed writes and arrivals, which wait at issue: a load before it has not returned
(R237; log entry 12). -/
def State.relWaits (s : State) (r : WRef) (th : Thread) : Bool :=
  (s.threadFlights r th.t).any fun g => g.reads && !g.finished && decide (g.id < th.relPt)

end Sys2Proof.Machine
end

