-- ==== Sys2Proof/Machine/Mem.lean ====
section
/-!
DEFINITION. Group 8, memory: ld, st, ldo, sto and pf (spec/05 R106 to R110, spec/13 R235), with address formation, the faults of
R110 in order, watchpoints (spec/17 R318), bank passes (spec/11 R197) and the ordering points of R256.
-/
namespace Sys2Proof.Machine

/-- Bytes of an access (R58). -/
def szLen (z : Sz) : Nat :=
  match z with
  | .b8z => 1 | .b8s => 1
  | .b16z => 2 | .b16s => 2
  | .b32 => 4 | .b64 => 8 | .b128 => 16

/-- Whether an access sign-extends (R107). -/
def szSigned (z : Sz) : Bool :=
  match z with
  | .b8s => true
  | .b16s => true
  | _ => false

/-- The scope of an access (R58). -/
def spcScope (p : Spc) : Scope :=
  match p with
  | .sp => .core
  | .gw => .clu
  | .glDev => .dev
  | .glSys => .sys
  | .pw => .core

/-- A loaded value as its destination takes it: sign-extended to 32 bits where the size says so (R107). -/
def extend (signed : Bool) (len v : Nat) : Nat := if signed then wrapN 32 (signedN (8 * len) v) else v

/-! ### Addresses and faults (R43, R44, R106, R110, R195) -/

/-- The address of an access: A + sext(IMM21), modulo 2^64 in gl and 2^32 in sp and gw. -/
def accAddr (p : Spc) (a : Nat) (imm : BitVec 21) : Nat := wrapN (if p.isGl then 64 else 32) (a + immInt imm)

/-- Whether a kind of access reads. -/
def AccKind.reads (k : AccKind) : Bool :=
  match k with
  | .load => true
  | .atomic => true
  | _ => false

/-- Whether a kind of access writes. -/
def AccKind.writes (k : AccKind) : Bool :=
  match k with
  | .load => false
  | .fetch => false
  | _ => true

/-- The watchpoint an access touches, if any (R317, R318). -/
def Gang.watchHit (g : Gang) (w : Warp) (k : AccKind) (a n : Nat) : Option Nat :=
  if w.inh || w.unhit then none
  else (List.range 2).find? fun j =>
    let p := nth g.wp j {}
    ((k.reads && p.kind.getLsbD 0) || (k.writes && p.kind.getLsbD 1)) && overlaps p.addr p.len a n

/-- A scratchpad range of the gang's core `gc` at an offset: F_PERM outside S or on a live object's bytes for a write, F_ECC on a
poisoned word for a read (R43, R243, R343). `a` is the address to report. -/
def State.padRange (s : State) (g : Gang) (k : AccKind) (gc off n a : Nat) : Except Flt Place :=
  if g.spBytes < off + n then .error { code := fPerm, addr := a }
  else if k.writes && g.touchesObj gc off n then .error { code := fPerm, addr := a }
  else if k.reads && s.padBad g.gid gc off n then .error { code := fEcc, addr := a }
  else .ok (.pad gc off)

/-- Where an access goes, and whether it is a table store; or its fault, in the order of R110: then F_WATCH, before any byte is read and
found poisoned (R318). A table store's refusal comes before its watchpoint, which `State.tableWatch` checks. -/
def State.locate (s : State) (g : Gang) (w : Warp) (p : Spc) (k : AccKind) (n a : Nat) : Except Flt (Place × Bool) :=
  if a % n ≠ 0 then .error { code := fAlign, addr := a }
  else match p with
    | .sp => (s.padRange g k (g.gcOf w.wi) a n a).map fun q => (q, false)
    | .gw =>
      if 2 ^ 23 ≤ a ∨ g.cores.length ≤ a / 2 ^ 21 then .error { code := fPerm, addr := a }
      else if a % 2 ^ 21 + n ≤ g.spBytes ∧ !s.unitFinds g ∧ !(k.writes && g.touchesObj (a / 2 ^ 21) (a % 2 ^ 21) n) then
        .error { code := fGang, addr := a }
      else (s.padRange g k (a / 2 ^ 21) (a % 2 ^ 21) n a).map fun q => (q, false)
    | .pw => .error { code := fParam }
    | _ =>
      match s.translate w.core g.world g.root a k with
      | .bad f => .error f
      | .ok pa table =>
        if table then .ok (.phys pa, true)
        else match g.watchHit w k a n with
          | some j => .error { code := fWatch, addr := a, aux := j }
          | none => if k.reads && s.memBad pa n then .error { code := fEcc, addr := a } else .ok (.phys pa, false)

/-- The watchpoint of a table store that its home slice would admit, before any is offered (R215, R307, R318). -/
def State.tableWatch (s : State) (g : Gang) (w : Warp) (a n v : Nat) (loc : Except Flt (Place × Bool)) : Option Flt :=
  match loc with
  | .ok (.phys pa, true) =>
    if s.tableRefuse (frameOf pa) (pa % 65536 / 8) v n ≠ 0 then none
    else (g.watchHit w .store a n).map fun j => { code := fWatch, addr := a, aux := j }
  | _ => none

/-- The fault of an answer. -/
def faultIn {α : Type} (r : Except Flt α) : Option Flt :=
  match r with
  | .error f => some f
  | .ok _ => none

/-! ### Bank passes (R197, R242) -/

/-- The passes of one group: the most distinct words of one bank, at least 1. -/
def groupPasses (n : Nat) (offs : List Nat) : Nat :=
  let ws := (offs.flatMap fun o => (List.range (max 1 (n / 4))).map fun k => o / 4 + k).eraseDups
  ((List.range 32).map fun b => (ws.filter fun w => w % 32 = b).length).foldl max 1

/-- The passes beyond one a cycle of a scratchpad issue: cycle j holds each lane's j-th active thread in row order; `offs` gives
the offsets of the threads that act; atomics on one word take a pass each. -/
def bankExtra (act : List Thread) (offs : List (Nat × Nat)) (n : Nat) (atom : Bool) : Nat :=
  let lanes := (List.range 16).map fun l => act.filter fun th => th.t % 16 = l
  let offOf := fun (t : Nat) => (offs.find? fun p => p.1 = t).map (·.2)
  let cost := fun (j : Nat) =>
    let at_ := fun (l : Nat) => ((nth lanes l [])[j]?).bind fun th => offOf th.t
    let grp := fun (lo k : Nat) => groupPasses n ((List.range k).filterMap fun l => at_ (lo + l))
    let all := (List.range 16).filterMap at_
    let base := if n = 16 then grp 0 8 + grp 8 8 else grp 0 16
    if atom then max base ((all.map fun o => (all.filter fun q => q / 4 = o / 4).length).foldl max 1) else base
  ((List.range (issueCycles act)).map fun j => cost j - 1).foldl (· + ·) 0

/-! ### Ordering points (R256, R311, R358) -/

/-- Whether report `a` has a lower sequence number than `b` (R19). -/
def Report.before (a b : Report) : Bool := decide ((b.seq - a.seq).toNat < 2147483648)

/-- The pending report an ordering point of these threads takes: the one of lowest sequence number. -/
def Warp.report? (w : Warp) (ts : List Nat) : Option Report :=
  (w.reports.filter fun p => ts.contains p.t).foldl
    (fun (b : Option Report) p => match b with | none => some p | some q => if p.before q then some p else b) none

/-- The fault of a report (R311). -/
def Report.flt (p : Report) : Flt := { code := p.code, addr := p.pc.toNat, aux := p.seq.toNat }

/-- The report that is due in a thread of an issue at an ordering point: its fault comes before those of its own access (R256). -/
def Iss.reportFlt (i : Iss) (th : Thread) : Option Flt :=
  match i.w.report? (i.on.map (·.t)) with
  | some p => if p.t = th.t then some p.flt else none
  | none => none

/-- An ordering point: a pending report is consumed and its fault taken, else the instruction goes on (R256, R311). -/
def State.orderPoint (s : State) (i : Iss) (k : State) : State :=
  match i.w.report? (i.on.map (·.t)) with
  | none => k
  | some p => (s.modWarp i.r fun w => { w with reports := w.reports.erase p }).trapIss i [(p.t, p.flt)]

/-- Passing the gate of an ordering point whose further check includes `Iss.reportFlt`: a report among the faults is consumed (R256, R307,
R311). -/
def State.throughPoint (s : State) (i : Iss) (gt : Gate) (k : State) : State :=
  match gt with
  | .trap fs =>
    let s := match i.w.report? (i.on.map fun th => th.t) with
      | some p =>
        if fs.any fun q => q.1 = p.t && q.2 = p.flt then s.modWarp i.r fun w => { w with reports := w.reports.erase p } else s
      | none => s
    s.trapIss i fs
  | gt => s.through i gt (s.orderPoint i k)

/-! ### Launching accesses -/

/-- A flight of one thread of an issue. -/
def Iss.flight (i : Iss) (now : Nat) (th : Thread) (act : Act) (place : Place) (len : Nat) : Flight :=
  { id := 0, gid := i.r.1, wi := i.r.2, t := th.t, core := i.w.core, die := dieOfCore i.w.core, world := i.g.world, pc := i.pc,
    act := act, place := place, len := len, issued := now }

/-- Whether a place is global. -/
def Place.isPhys (p : Place) : Bool :=
  match p with
  | .phys _ => true
  | _ => false

/-- The translations of an issue's global accesses remembered (R219). -/
def State.cacheAll (s : State) (i : Iss) (p : Spc) (as : List Nat) : State :=
  if p.isGl then as.foldl (fun s a => s.cacheTlb i.w.core i.g.world i.g.root a) s else s

/-! ### ld and ldo -/

/-- What a thread's load reads through a parameter window (R107, R196). -/
def State.pwOf (s : State) (i : Iss) (x : VOps) (z : Sz) (win : BitVec 3) (th : Thread) : PwRead :=
  s.pwRead i.g i.w.core win.toNat (szLen z) ((s.value i.g i.w th x.a 1 x.imm : Int) + immInt x.imm)

/-- The fault of a thread's load through a parameter window. -/
def State.pwFault (s : State) (i : Iss) (x : VOps) (z : Sz) (win : BitVec 3) (th : Thread) : Option Flt :=
  match s.pwOf i x z win th with | .bad f => some f | _ => none

/-- A load through a parameter window (R107, R196). A scalar D beyond the bound sets $pwerr in every thread whose guard is true (log entry
14). -/
def State.loadPw (s : State) (h : Hdr) (x : VOps) (z : Sz) (win : BitVec 3) (i : Iss) (who : List Thread) : State :=
  let rd := s.pwOf i x z win
  let missing := who.flatMap fun th => match rd th with | .miss ws => ws | _ => []
  if missing ≠ [] then s.stallParam i missing
  else
    let past := who.filter fun th => rd th = .beyond
    let s1 := (s.advance i).modThreads i.r ((if x.d.cls = .s && past ≠ [] then i.on else past).map (·.t)) fun th =>
      { th with pwerr := th.pwerr ||| (1#8 <<< win.toNat) }
    let s2 := who.foldl (fun s2 th =>
      let v := match rd th with | .value v => extend (szSigned z) (szLen z) v | _ => 0
      s2.modWarp i.r fun w => w.put th.t x.d z.words v) s1
    s2.closeIssue i h.e 0 false

/-- The value of a scratchpad range as a thread's load of number `id` reads it. -/
def State.padValue (s : State) (g : Gang) (r : WRef) (t gc a n id : Nat) : Nat :=
  leNat ((List.range n).map fun k => s.padLoadByte g r t gc (a + k) id)

/-- Whether a late load reads a word of a range. -/
def Late.meets (l : Late) (gc a n : Nat) : Bool := l.gc = gc && overlaps (l.off / 4 * 4) (l.len + l.off % 4) (a / 4 * 4) (n + a % 4)

/-- A thread's late loads of the words that a later access of it touches are settled: accesses to one byte stay in order (R46, R232). -/
def Thread.settle (th : Thread) (gc a n : Nat) : Thread := { th with lates := th.lates.filter fun l => !l.meets gc a n }

/-- A plain scratchpad load noted as late (R46, R111). -/
def Thread.loaded (th : Thread) (l : Late) : Thread := { th.settle l.gc l.off l.len with lates := (th.settle l.gc l.off l.len).lates ++ [l] }

/-- A late load takes its value again, from what its thread may read by now (R46, R111). -/
def State.relook (s : State) (r : WRef) (t k : Nat) : State :=
  match s.gang? r.1, ((s.warp? r).bind fun w => w.thread? t).bind fun th => th.lates[k]? with
  | some g, some l =>
    let spoilt := match s.warp? r with
      | some w => (l.dst.keys t).any fun k => (w.regAt k).bad.isSome
      | none => false
    if spoilt || s.padBad r.1 l.gc l.off l.len then s
    else
      let v := extend l.signed l.len (s.padValue g r t l.gc l.off l.len l.id)
      s.filled r t l.dst fun rs i _ => putRegs rs i (natWords ((l.len + 3) / 4) v)
  | _, _ => s

/-- A scratchpad load at issue (R43, R46): the thread's own stores on their way, else the memory. An observed load reads behind
the thread's own overlapping stores (R233). Nothing orders a plain one before a store that another thread issues after it, so it stays late
(R46, R111). -/
def State.loadPad (s : State) (h : Hdr) (x : VOps) (z : Sz) (obs : Bool) (i : Iss) (locs : List (Thread × Nat)) : State :=
  let n := szLen z
  let gc := i.g.gcOf i.w.wi
  if locs.any fun l => s.padHeld i.r l.1.t gc l.2 n (!obs) then s
  else
    let s0 := if obs then locs.foldl (fun s l => s.flushPad i.r l.1.t fun f =>
      match f.place with | .pad c o => c = gc && overlaps o f.len l.2 n | _ => false) s else s
    let s0 := if obs then s0.modGang i.r.1 fun g => locs.foldl (fun g l => g.bare gc l.2 n) g else s0
    let g := (s0.gang? i.r.1).getD i.g
    let s2 := locs.foldl (fun s2 l =>
      let v := extend (szSigned z) n (s0.padValue g i.r l.1.t gc l.2 n s0.nextId)
      s2.modWarp i.r fun w => (w.put l.1.t x.d z.words v).modThread l.1.t fun th =>
        match opDst x.d z.words with
        | some d =>
          if obs then th.settle gc l.2 n
          else th.loaded { id := s0.nextId, dst := d, gc := gc, off := l.2, len := n, signed := szSigned z }
        | none => th.settle gc l.2 n) (s0.advance i)
    s2.closeIssue i h.e (bankExtra i.act (locs.map fun l => (l.1.t, l.2)) n false) false

/-- A load on its way (R28, R44, R195): its destination empties now. -/
def State.loadFar (s : State) (h : Hdr) (x : VOps) (p : Spc) (z : Sz) (obs : Bool) (i : Iss)
    (locs : List (Thread × Place × Nat)) : State :=
  let now := s.now i.w.core
  let s2 := locs.foldl (fun s2 l =>
    match opDst x.d z.words with
    | none => s2
    | some d =>
      let f := i.flight now l.1 (.load (szSigned z)) l.2.1 (szLen z)
      (s2.launchFlight { f with va := l.2.2, gw := p = .gw, observed := obs, scope := spcScope p, dst := some d }).emptyDst i.r l.1.t d)
    (s.advance i)
  s2.closeIssue i h.e 0 false

/-- A load: it waits for what an acquire fence before it orders; then the gate, the address faults, then by space. -/
def State.loadForm (s : State) (h : Hdr) (x : VOps) (z : Sz) (p : Spc) (win : BitVec 3) (obs : Bool) :
    Host.Outcome State Fault Refusal :=
  run s h fun i =>
    let who := if x.d.cls = .s then i.on.take 1 else i.on
    let addr := fun (th : Thread) => accAddr p (s.value i.g i.w th x.a p.addrWords x.imm) x.imm
    let loc := fun (th : Thread) => s.locate i.g i.w p .load (szLen z) (addr th)
    let flt := fun (th : Thread) => if p = .pw then s.pwFault i x z win th else faultIn (loc th)
    if who.any (s.acqWaits i.r) then s
    else s.through i (s.gate i who [⟨x.a, p.addrWords⟩] [⟨x.d, z.words⟩] false x.imm flt) <|
      if p = .pw then s.loadPw h x z win i who
      else
        let places := who.filterMap fun th => match loc th with | .ok q => some (th, q.1, addr th) | .error _ => none
        if p = .sp then
          s.loadPad h x z obs i (places.filterMap fun l => match l.2.1 with | .pad _ o => some (l.1, o) | _ => none)
        else (s.cacheAll i p (who.map addr)).loadFar h x p z obs i places

/-- ld (R107). -/
def execLd (h : Hdr) (x : VOps) (z : Sz) (p : Spc) (win : BitVec 3) (s : State) : Host.Outcome State Fault Refusal :=
  s.loadForm h x z p win false

/-- ldo (R235). -/
def execLdo (h : Hdr) (x : VOps) (z : Sz) (p : Spc) (s : State) : Host.Outcome State Fault Refusal :=
  s.loadForm h x z p 0 true

/-! ### st and sto -/

/-- One thread's store: where it goes and its bytes. -/
structure St1 where
  th    : Thread
  addr  : Nat
  place : Place
  table : Bool
  data  : List Byte

/-- The stores of an issue that are not table stores leave their threads; an observed scratchpad store is performed at once, behind
the thread's own overlapping stores (R233). -/
def State.putStores (s : State) (i : Iss) (p : Spc) (ga obs : Bool) (sts : List St1) : State :=
  let now := s.now i.w.core
  sts.foldl (fun s st =>
    if st.table then s
    else match st.place with
      | .pad gc o =>
        let s := s.modThread i.r st.th.t fun th => th.settle gc o st.data.length
        if obs && p = .sp then
          (s.flushPad i.r st.th.t fun f => match f.place with | .pad c q => c = gc && overlaps q f.len o st.data.length | _ => false)
            |>.padWrite i.r.1 gc o st.data
        else
          let f := i.flight now st.th .store st.place st.data.length
          s.launchFlight { f with gw := p = .gw, data := st.data, observed := obs, scope := spcScope p }
      | _ =>
        let f := i.flight now st.th .store st.place st.data.length
        let s := s.launchFlight { f with va := st.addr, data := st.data, observed := obs, scope := spcScope p, ga := ga, needOst := true }
        match st.place with
        | .phys pa => if ga then { s with copies := s.copies.filter fun c =>
            !(c.die = dieOfCore i.w.core && c.line = lineOf pa && homeDie pa ≠ c.die) } else s
        | _ => s) s

/-- A table store's answers are in (R215, R307): the issue completes, or traps with F_REFUSE in the refused threads. -/
def State.tableDone (s : State) (h : Hdr) (x : VOps) (i : Iss) (answers : List (Nat × Nat)) : State :=
  let flt := fun (th : Thread) =>
    match answers.find? fun a => a.1 = th.t with
    | none => none
    | some a =>
      if a.2 = 0 then none
      else some ({ code := fRefuse + a.2, addr := accAddr .glDev (s.value i.g i.w th x.a 2 x.imm) x.imm } : Flt)
  match faultsOf i.on flt with
  | [] => ((s.modWarp i.r fun w => { w with stall := none }).advance i).closeIssue i h.e 0 true
  | fs => s.trapIss i fs

/-- Whether a thread's table store must not be offered yet: older accesses of the thread to its bytes are on their way, or, of an observed
one, older observed accesses of its scope (R46, R232, R233). -/
def State.tableHeld (s : State) (i : Iss) (p : Spc) (obs : Bool) (st : St1) : Bool :=
  let f := { i.flight 0 st.th .store st.place st.data.length with id := s.nextId, observed := obs, scope := spcScope p }
  st.table && s.flights.any f.ownBefore

/-- A store: it waits for what the fences before it order; then the gate, pending reports of an observed one, the address faults, then its
effect. A table store first waits in its issue slot for the table's home slice. -/
def State.storeForm (s : State) (h : Hdr) (x : VOps) (z : Sz) (p : Spc) (ga obs : Bool) : Host.Outcome State Fault Refusal :=
  run s h fun i =>
    match i.w.stall with
    | some (.table [] answers) => s.tableDone h x i answers
    | _ =>
      let n := szLen z
      let addr := fun (th : Thread) => accAddr p (s.value i.g i.w th x.a p.addrWords x.imm) x.imm
      let loc := fun (th : Thread) => s.locate i.g i.w p .store n (addr th)
      let val := fun (th : Thread) => s.value i.g i.w th x.b z.words x.imm
      let flt := fun (th : Thread) =>
        ((if obs then i.reportFlt th else none).or (faultIn (loc th))).or (s.tableWatch i.g i.w (addr th) n (val th) (loc th))
      let held := fun (th : Thread) =>
        obs && (match loc th with | .ok (.pad gc o, _) => s.padHeld i.r th.t gc o n false | _ => false)
      let rest :=
        let sts := i.on.filterMap fun th =>
          match loc th with
          | .ok q => some ({ th := th, addr := addr th, place := q.1, table := q.2,
                             data := leBytes n (val th) } : St1)
          | .error _ => none
        if (p = .sp && i.on.any held) || sts.any (s.tableHeld i p obs) then s
        else
          let s1 := (s.cacheAll i p (sts.map (·.addr))).putStores i p ga obs sts
          let tabs := (sts.filter (·.table)).map fun st =>
            ({ t := st.th.t, va := st.addr, pa := (match st.place with | .phys a => a | _ => 0), v := leNat st.data,
               sz := n } : TStore)
          if tabs = [] then
            let extra := if p = .sp then bankExtra i.act (sts.map fun st =>
              (st.th.t, match st.place with | .pad _ o => o | _ => 0)) n false else 0
            (s1.advance i).closeIssue i h.e extra (i.on ≠ [])
          else s1.modWarp i.r fun w => { w with stall := some (.table tabs []) }
      let gate := s.gate i i.on [⟨x.a, p.addrWords⟩, ⟨x.b, z.words⟩] [] false x.imm flt
      if i.on.any fun th => s.acqWaits i.r th || (obs && s.relWaits i.r th) then s
      else if obs then s.throughPoint i gate rest else s.through i gate rest

/-- st (R108). -/
def execSt (h : Hdr) (x : VOps) (z : Sz) (p : Spc) (ga : Bool) (s : State) : Host.Outcome State Fault Refusal :=
  s.storeForm h x z p ga false

/-- sto (R235). -/
def execSto (h : Hdr) (x : VOps) (z : Sz) (p : Spc) (ga : Bool) (s : State) : Host.Outcome State Fault Refusal :=
  s.storeForm h x z p ga true

/-- pf (R109): after decode it never faults and changes nothing; it waits for an address register that is on its way (R29). -/
def execPf (h : Hdr) (x : VOps) (_sys _wr : Bool) (s : State) : Host.Outcome State Fault Refusal :=
  run s h fun i =>
    if i.on.any fun th => emptyAt i.w th x.a 2 = some true then s.block i (i.on.flatMap fun th => owedBy i.w th [⟨x.a, 2⟩])
    else (s.advance i).closeIssue i h.e 0 false

end Sys2Proof.Machine
end

