-- ==== Sys2Proof/Machine/Atomic.lean ====
section
/-!
DEFINITION. Group 9, atomics (spec/13 R240 to R242), and the performing of gang-window accesses (spec/13 R162, R195).
-/
namespace Sys2Proof.Machine

/-- The new value an atomic flight writes over an old one (R241). -/
def Flight.newVal (f : Flight) (old : Nat) : Nat :=
  match f.act with
  | .atom ty op b cmp => atomNew ty op old b cmp atomFloat
  | _ => old

/-! ### Checkers (R299, R341, R342) -/

/-- Whether a checker strikes this quarter's next issue with a unit. -/
def State.struck (s : State) (core q v : Nat) : Bool := s.upsets.contains (core, q, false, v)

/-- A strike used up. -/
def State.clearStrike (s : State) (core q v : Nat) : State :=
  { s with upsets := s.upsets.erase (core, q, false, v) }

/-- Words of scratchpad poisoned, with a class I entry (R342). -/
def State.poisonPad (s : State) (gid gc off n core world : Nat) : State :=
  ({ s with badPad := s.badPad ++ ((wordsIn off n).map fun k => (gid, gc, k)) }).logEntry (dieOfCore core)
    { src := 1, srcId := core, code := fEcc, world := world, cls := 2, addr := off }

/-! ### Scratchpad atomics at issue -/

/-- One scratchpad atomic: the thread's own overlapping stores first, then read, compute and write as one step (R241, R46). A unit
whose checker fired 16 times leaves the word and poisons it (R342). -/
def State.atomPad (s : State) (i : Iss) (th : Thread) (gc off n : Nat) (f : Flight) (d : Opnd) (bad : Bool) : State :=
  let s := s.flushPad i.r th.t fun k => match k.place with | .pad c o => c = gc && overlaps o k.len off n | _ => false
  let g := (s.gang? i.r.1).getD i.g
  let old := leNat (g.padBytes gc off n)
  let put := fun (s : State) => match d with
    | .none => s
    | _ => s.modWarp i.r fun w => w.put th.t d ((n + 3) / 4) old
  if bad then
    let s := put (s.poisonPad i.r.1 gc off n i.w.core i.g.world)
    match opDst d ((n + 3) / 4) with
    | some g => s.fillBad i.r th.t g .ecc
    | none => s
  else put (s.padWrite i.r.1 gc off (leBytes n (f.newVal old)))

/-! ### atom, ared and acas -/

/-- An atomic: it waits for what the fences before it order; then the gate, pending reports, the address faults of R110, then its step at once in sp (ascending t, R242) or on its way
in gw and gl. A scalar destination makes it one access (R64). -/
def State.atomForm (s : State) (h : Hdr) (x : VOps) (t : Ty) (op : AOp) (p : Spc) (ga hasD hasC : Bool) :
    Host.Outcome State Fault Refusal :=
  run s h fun i =>
    let who := if x.d.cls = .s then i.on.take 1 else i.on
    let k := t.words
    let n := 4 * k
    let src := [⟨x.a, p.addrWords⟩, ⟨x.b, k⟩] ++ (if hasC then [⟨x.c, k⟩] else [])
    let addr := fun (th : Thread) => accAddr p (s.value i.g i.w th x.a p.addrWords x.imm) x.imm
    let loc := fun (th : Thread) => s.locate i.g i.w p .atomic n (addr th)
    let flt := fun (th : Thread) => (i.reportFlt th).or (faultIn (loc th))
    if who.any fun th => s.acqWaits i.r th || s.relWaits i.r th then s
    else s.throughPoint i (s.gate i who src (if hasD then [⟨x.d, k⟩] else []) false x.imm flt) <|
      let held := fun (th : Thread) =>
        match loc th with | .ok (.pad gc o, _) => s.padHeld i.r th.t gc o n false | _ => false
      if p = .sp && who.any held then s
      else
        let now := s.now i.w.core
        let bad := p = .sp && s.struck i.w.core i.w.quarter 16
        let s1 := (s.cacheAll i p (who.map addr)).advance i
        let one := fun (s : State) (th : Thread) =>
          match loc th with
          | .error _ => s
          | .ok q =>
            let b := s.value i.g i.w th x.b k x.imm
            let cmp := if hasC then some (s.value i.g i.w th x.c k x.imm) else none
            let f := i.flight now th (.atom t op b cmp) q.1 n
            match p, q.1 with
            | .sp, .pad gc o => s.atomPad i th gc o n f (if hasD then x.d else .none) (bad && (who.head?.map (·.t)) = some th.t)
            | _, _ =>
              let dst := if hasD then opDst x.d k else none
              let s := match q.1 with
                | .phys pa => if ga then { s with copies := s.copies.filter fun c =>
                    !(c.die = dieOfCore i.w.core && c.line = lineOf pa) } else s
                | _ => s
              let s := s.launchFlight { f with va := addr th, gw := p = .gw, observed := true, scope := spcScope p, ga := ga, dst := dst,
                                               needOst := p.isGl }
              match dst with
              | some d => s.emptyDst i.r th.t d
              | none => s
        let s2 := who.foldl one s1
        let s2 := if bad && who ≠ [] then s2.clearStrike i.w.core i.w.quarter 16 else s2
        let offs := who.filterMap fun th => match loc th with | .ok (.pad _ o, _) => some (th.t, o) | _ => none
        s2.closeIssue i h.e (if p = .sp then bankExtra i.act offs n true else 0) (who ≠ [])

/-- atom (R240). -/
def execAtom (h : Hdr) (x : VOps) (t : Ty) (op : AOp) (p : Spc) (ga : Bool) (s : State) : Host.Outcome State Fault Refusal :=
  s.atomForm h x t op p ga true false

/-- ared (R240). -/
def execAred (h : Hdr) (x : VOps) (t : Ty) (op : AOp) (p : Spc) (ga : Bool) (s : State) : Host.Outcome State Fault Refusal :=
  s.atomForm h x t op p ga false false

/-- acas (R240): C is the compare value. -/
def execAcas (h : Hdr) (x : VOps) (t : Ty) (p : Spc) (ga : Bool) (s : State) : Host.Outcome State Fault Refusal :=
  s.atomForm h x t .xchg p ga true true

/-! ### Performing scratchpad and gang-window flights -/

/-- A scratchpad or gang-window store or atomic takes effect, if it may (R46, R162, R195); an atomic on a poisoned word, or whose cluster
unit has failed 16 times, changes nothing and its destination fills poisoned (R342, R343). -/
def State.performFlight (s : State) (id : Nat) : State :=
  match s.flight? id with
  | none => s
  | some f =>
    match f.place with
    | .pad gc o =>
      if f.finished || !s.mayPerform f then s
      else match f.act with
        | .store => (s.padVeil f.gid gc o f.data (some (f.wi, f.t))).dropFlight id
        | .atom .. =>
          match s.anyGang? f.gid with
          | none => s.dropFlight id
          | some g =>
            let old := leNat (g.padBytes gc o f.len)
            let core := nth g.cores gc 0
            let struck := s.struck core 0 16
            let bad := struck || s.padBad f.gid gc o f.len
            let s :=
              if struck then (s.clearStrike core 0 16).poisonPad f.gid gc o f.len core f.world
              else if bad then s
              else s.padWrite f.gid gc o (leBytes f.len (f.newVal old))
            match f.dst with
            | none => s.dropFlight id
            | some _ => s.modFlight id fun f => { f with done := 1, old := if bad then [] else natWords (f.len / 4) old }
        | _ => s
    | _ => s

end Sys2Proof.Machine
end

