-- ==== Sys2Proof/Machine/Barrier.lean ====
section
/-!
DEFINITION. Barrier objects (spec/13 R243 to R255), releases (R237, R247, spec/21 R380) and the group A instructions but for the
fences: binit, barr, bexp, bwait, bwaitt, bstat, bind and unbind.
-/
namespace Sys2Proof.Machine

/-! ### Objects, phases and waiters -/

/-- A live object of a gang. -/
def Gang.obj? (g : Gang) (o : ObjRef) : Option Obj := g.objs.find? fun k => k.ref = o

/-- One object changed. -/
def Gang.modObj (g : Gang) (o : ObjRef) (f : Obj → Obj) : Gang :=
  { g with objs := g.objs.map fun k => if k.ref = o then f k else k }

/-- The address an object is named by (R243). -/
def Obj.addr (o : Obj) : Nat := if o.clu then o.ref.gc * 2 ^ 21 + o.ref.off else o.ref.off

/-- Whether phase p is complete (R243): (LAP − p) mod 2^32 lies in 1 to 2^31. -/
def phaseDone (lap p : Word) : Bool := decide (1 ≤ (lap - p).toNat) && decide ((lap - p).toNat ≤ 2147483648)

/-- The status of a wait for phase p (R251). -/
def Obj.waitStatus (o : Obj) (p : Word) : Nat :=
  let past := o.lap - p ≠ 1
  p.toNat % 65536 * 65536 +
    (if past then 8 else (if o.lastErr then 4 else 0) + (if o.lastShort then 2 else 0)) + 1

/-- The words a completed wait writes: the status, and for bget and bput.get the slot address (R251, R275, R277). -/
def waitWords (status : Nat) (slot : Option Word) : List Word :=
  BitVec.ofNat 32 status :: (match slot with | some a => [a] | none => [])

/-- A thread whose wait is over continues after its instruction, which sets the $pwerr bits it owes (R40, R158). -/
def Thread.past (th : Thread) : Thread :=
  { th with pc := nextPc th.pc, wait := .none, pwerr := th.pwerr ||| th.owes, owes := 0 }

/-- A warp with its registers changed outside an issue, as the pacer notes it: a new value ends its spin (R185). -/
def Warp.notedFrom (w old : Warp) : Warp := if w.watched = old.watched then w else { w with demoted := false, spinBusy := true }

/-- A phase of an object has completed: its open arrivals close, waiters on it continue with their status, and a thread that waits
for one of its open arrivals may arrive (R247, R250, R251). A bwaitt whose limit lies behind goes on with DONE = 0. Other threads
blocked for registers that fill with it become ready (R29). -/
def Warp.phaseOver (w : Warp) (now : Nat) (o : Obj) : Warp :=
  Warp.notedFrom (Warp.refilled <| w.threads.foldl (fun w th =>
    let closed := th.opens.any fun p => p.1 = o.ref && phaseDone o.lap p.2
    let w := w.modThread th.t fun th => { th with opens := th.opens.filter fun p => !(p.1 = o.ref && phaseDone o.lap p.2) }
    match th.wait with
    | .phase r p _ d slot =>
      if r = o.ref && phaseDone o.lap p then
        let status := if th.wait.overdue now then p.toNat % 65536 * 65536 else o.waitStatus p
        (w.onDst th.t d fun rs k _ => putRegs rs k (waitWords status slot)).modThread th.t Thread.past
      else w
    | .opens r =>
      if closed then w.mapThreads fun u => if u.pc = th.pc && u.wait = .opens r then { u with wait := .none } else u else w
    | _ => w) w) w

/-- Whether the current phase completes (R250). -/
def Obj.full (o : Obj) : Bool :=
  o.arr = o.expArr && decide (o.expBytes ≤ o.landed) && decide (0 < o.expArr + o.expBytes)

/-- The object after its phase completes (R250). -/
def Obj.next (o : Obj) : Obj :=
  { o with
    landed := o.landed - o.expBytes, expBytes := if o.keep then o.expBytes else 0,
    lastShort := o.shortCur, lastErr := o.errCur, errCur := false,
    arr := o.exited, shortCur := decide (0 < o.exited), lap := o.lap + 1 }

/-- The first held arrival counted into the current phase (R247): it becomes an open arrival, its lap is written, and its thread,
with those that wait beside it for one scalar arrival, goes on. -/
def Gang.countHeld (g : Gang) (o : Obj) : Gang :=
  match o.held with
  | [] => g
  | p :: r =>
    let g := g.modObj o.ref fun k => { k with arr := k.arr + 1, held := r }
    g.modWarp p.1 fun v => Warp.notedFrom (w := (
      let w := v
      match w.thread? p.2 with
      | none => w
      | some th =>
        let w := match th.wait with
          | .held _ (some d) => w.onDst th.t d fun rs k _ => putRegs rs k [o.lap]
          | _ => w
        let beside := fun (u : Thread) =>
          u.t = th.t || (u.pc = th.pc && (match u.wait with | .held q _ => q = o.ref | _ => false) && !r.contains (p.1, u.t))
        let w := w.mapThreads fun u => if beside u then u.past else u
        w.modThread th.t fun u => { u with opens := u.opens ++ [(o.ref, o.lap)] })) v

/-- An object settles after an event (R250): its phase completes if it is full, held arrivals are counted into the phase that
begins, each an event of its own; `clock` is each core's. A phase that the carried bytes or standing arrivals fill completes at the next event. -/
def Gang.settle (g : Gang) (clock : Nat → Nat) (fuel : Nat) (r : ObjRef) (evt : Bool) : Gang :=
  match fuel with
  | 0 => g
  | k + 1 =>
    match g.obj? r with
    | none => g
    | some o =>
      if evt && o.full then
        let o2 := o.next
        Gang.settle { g.modObj r fun _ => o2 with warps := g.warps.map fun w => w.phaseOver (clock w.core) o2 } clock k r false
      else if o.held ≠ [] && decide (o.arr < o.expArr) then Gang.settle (g.countHeld o) clock k r true
      else g

/-- Whether a thread is blocked for registers. -/
def Thread.blockedRegs (th : Thread) : Bool := match th.wait with | .regs _ => true | _ => false

/-- Threads of a warp that are blocked for registers, or that wait otherwise. -/
def Warp.waiting (w : Warp) (regs : Bool) : Nat := (w.threads.filter fun th => th.waits && th.blockedRegs = regs).length

/-- The wake causes of threads that an event has released: PHASE for those that waited, FILL for those blocked for registers (R186). -/
def Core.released (k : Core) (old new : Warp) : Core :=
  let k := if new.waiting false < old.waiting false then k.cause 0 else k
  if new.waiting true < old.waiting true then k.cause 1 else k

/-- Whether the barrier unit that holds an object, its home core's, meets its 16th detection at this event (R342). -/
def State.unitFails (s : State) (g : Gang) (r : ObjRef) : Bool := s.struck (nth g.cores r.gc 0) 0 17

/-- An object left as it is and poisoned by its unit, with a class I entry (R342). -/
def State.poisonObj (s : State) (g : Gang) (r : ObjRef) : State :=
  let core := nth g.cores r.gc 0
  ((s.clearStrike core 0 17).modGang g.gid fun g => g.modObj r fun o => { o with bad := true }).logEntry (dieOfCore core)
    { src := 1, srcId := core, code := fEcc, world := g.world, cls := 2, addr := r.off }

/-- An event of an object (R250), counted bytes, an exit, an arrival or bytes expected; a released waiter is a wake cause of its core
(R186). Where the unit's checker has fired 16 times the event is not taken and the object is poisoned (R342). -/
def State.objEvent (s : State) (gid : Nat) (r : ObjRef) (f : Obj → Obj) : State :=
  match s.gang? gid with
  | none => s
  | some g =>
    match g.obj? r with
    | none => s
    | some o =>
      if s.unitFails g r then s.poisonObj g r
      else
        let g2 := (g.modObj r f).settle s.now (2 * o.held.length + 4) r true
        let over_ := (g2.obj? r).any fun n => n.lap ≠ o.lap
        let s := if over_ then (s.modGang gid fun _ => g2).unveil gid else s.modGang gid fun _ => g2
        g2.warps.foldl (fun s w =>
          match g.warp? w.wi with
          | some old => s.modCore w.core fun k => k.released old w
          | none => s) s

/-- Bytes counted into the current phase (R252); LANDED saturates (R243). -/
def State.countBytes (s : State) (gid : Nat) (r : ObjRef) (n : Nat) : State :=
  s.objEvent gid r fun o => { o with landed := min 0xFFFFFFFF (o.landed + n) }

/-! ### Waits that cannot end (R254) -/

/-- Whether a wait counts towards R254: a wait of a phase, a held arrival or a wait of R158, such as that of an rte (R315). -/
def Wait.blockWide : Wait → Bool
  | .phase .. => true
  | .held .. => true
  | .opens _ => true
  | .sync => true
  | .jwait .. => true
  | .rte _ => true
  | _ => false

/-- The object whose incomplete phase a thread waits on. -/
def Wait.object : Wait → Option ObjRef
  | .phase o .. => some o
  | .held o _ => some o
  | .opens o => some o
  | _ => Option.none

/-- F_UNREACH becomes due in every waiter on an object's phase that nothing can complete (R254); a held arrival among them is
withdrawn. -/
def State.unreachBlock (s : State) (gid : Nat) : State :=
  match s.gang? gid with
  | none => s
  | some g =>
    let live := g.warps.flatMap Warp.live
    let late := g.warps.any fun w => w.live.any fun th => th.wait.overdue (s.now w.core)
    if live = [] || late || live.any (fun th => !th.wait.blockWide) || g.objs.any (fun o => o.inflight ≠ 0 || o.boundq) then s
    else
      let due := fun (th : Thread) =>
        match th.wait.object.bind fun r => g.obj? r with
        | some o =>
          if th.exited then th
          else
            let full := fun (th : Thread) =>
              match th.wait with
              | .phase _ _ _ (.m k n) (some _) => { th with m := refillRegs th.m k n }
              | _ => th
            { full th with wait := .unreach o.addr, owes := 0 }
        | none => th
      let owed := fun (w : Warp) => w.live.foldl (fun (w : Warp) (th : Thread) =>
        match th.wait with
        | .phase _ _ _ (.s k n) (some _) => { w with s := refillRegs w.s k n }
        | _ => w) w
      let hit := fun (th : Thread) => th.wait.object.isSome && !th.exited
      if live.any hit then
        s.modGang gid fun g =>
          { g with warps := g.warps.map fun w => (owed w).mapThreads due, objs := g.objs.map fun o => { o with held := [] } }
      else s

/-! ### Naming an object (R245) -/

/-- The bytes of `n` at a barrier or bobbin address: the gang core and offset, or F_ALIGN and the space's faults. -/
def Gang.padAt (g : Gang) (w : Warp) (gw : Bool) (align n a : Nat) : Except Flt ObjRef :=
  if a % align ≠ 0 then .error { code := fAlign, addr := a }
  else if gw then
    (if 2 ^ 23 ≤ a ∨ g.cores.length ≤ a / 2 ^ 21 ∨ g.spBytes < a % 2 ^ 21 + n then .error { code := fPerm, addr := a }
     else .ok { gc := a / 2 ^ 21, off := a % 2 ^ 21 })
  else if g.spBytes < a + n then .error { code := fPerm, addr := a }
  else .ok { gc := g.gcOf w.wi, off := a }

/-- The same bytes through the cluster unit, which raises F_GANG where the gang's bib does not lead to its rows (R195, R336). -/
def State.padSpan (s : State) (g : Gang) (w : Warp) (gw : Bool) (align n a : Nat) : Except Flt ObjRef :=
  match g.padAt w gw align n a with
  | .error f => .error f
  | .ok r => if gw && !s.unitFinds g then .error { code := fGang, addr := a } else .ok r

/-- The live object whose bytes an address names, whatever its home, in the order of R245; F_ECC where it is poisoned (R343). -/
def State.named (s : State) (g : Gang) (w : Warp) (gw : Bool) (a : Nat) : Except Flt Obj :=
  match s.padSpan g w gw 64 64 a with
  | .error f => .error f
  | .ok r =>
    match g.obj? r with
    | none => .error { code := fMember, addr := a }
    | some o =>
      if o.bad then .error { code := fEcc, addr := a }
      else .ok o

/-- The object an address names, by reference, for a step whose checks have passed. -/
def Gang.refAt (g : Gang) (w : Warp) (gw : Bool) (a : Nat) : ObjRef :=
  match g.padAt w gw 64 64 a with
  | .ok r => r
  | .error _ => { gc := 0, off := 0 }

/-! ### Releases (R237, R247, R357, R380) -/

/-- Whether a scope lies within a die. -/
def isNarrow (c : Scope) : Bool :=
  match c with
  | .core => true
  | .clu => true
  | _ => false

/-- Whether a store or atomic has been performed at a scope: a gl access at its home slice, or, at core and clu, once the die's readers see
it (R355; log entry 69); at dev or sys with every copy that predates it gone (R357). -/
def State.performedAt (s : State) (f : Flight) (sc : Scope) : Bool :=
  if f.place.isPhys then (if isNarrow sc then f.finished || f.fwd else s.performedDev f) else f.finished

/-- Whether every earlier write of a thread that `want` selects is performed at a scope. -/
def State.writesDone (s : State) (r : WRef) (t : Nat) (sc : Scope) (want : Flight → Bool) : Bool :=
  (s.threadFlights r t).all fun f => !f.writes || !want f || f.refused || s.performedAt f sc

/-- Messages of a thread's commands that have not landed (R380). -/
def State.messagesOf (s : State) (r : WRef) (t : Nat) : List Nat :=
  s.sendQs.flatMap fun q => (q.msgs.filter fun m => !m.landed && m.owner = some (r.1, r.2, t)).map (·.id)

/-- Whether a send of the thread has not been accepted yet. -/
def State.sending (s : State) (r : WRef) (t : Nat) : Bool :=
  s.cores.any fun c => c.2.slots.any fun k =>
    k.gid = r.1 && k.wi = r.2 && k.t = t && (match k.kind with | .send .. => true | _ => false)

/-- Whether a release of a thread at a scope waits for nothing but its own writes: at dev and sys every store that a narrower
release on the die counts as performed has been performed at dev, for a release passes on what happened before it (R234), and every marker of
the thread has been answered (R361). -/
def State.passedOn (s : State) (r : WRef) (t : Nat) (sc : Scope) : Bool :=
  let here := fun (die : Nat) => match s.warp? r with | some w => dieOfCore w.core = die | none => false
  isNarrow sc || (s.flights.all (fun f => !f.narrow || !here f.die || s.performedDev f) &&
    !s.markers.any fun m => m.gid = r.1 && m.wi = r.2 && m.t = t)

/-- Whether a release at a scope is complete for a thread. -/
def State.released (s : State) (r : WRef) (t : Nat) (sc : Scope) (want : Flight → Bool) : Bool :=
  s.writesDone r t sc want && s.passedOn r t sc && (sc ≠ .sys || (!s.sending r t && s.messagesOf r t = []))

/-- A release is over: what it counts as performed and is still on its way to the home slice comes before what its observers do there (R232,
R234). -/
def State.releaseOver (s : State) (r : WRef) (ts : List Nat) (sc : Scope) (want : Nat → Flight → Bool) : State :=
  { s with flights := s.flights.map fun f =>
      if f.fwd && f.gid = r.1 && f.wi = r.2 && ts.contains f.t && want f.t f then
        { f with seen := true, narrow := f.narrow || isNarrow sc } else f }

/-- The routes on which a thread has entries outstanding across bridges (R361). -/
def State.openRoutes (s : State) (r : WRef) (t : Nat) : List (List Nat) :=
  (((s.threadFlights r t).filter fun f => f.needOst && f.seq.isSome && f.route ≠ []).map (·.route)).eraseDups

/-- The markers that a release of a thread sends: at dev and sys one along each route on which it has entries outstanding (R361), and at
sys one behind its unlanded messages (R380); each is sent once. -/
def State.newMarkers (s : State) (r : WRef) (core t : Nat) (sc : Scope) : List Marker :=
  let m : Marker := { gid := r.1, wi := r.2, t := t, core := core }
  let all := (s.openRoutes r t).map (fun p => { m with route := p }) ++
    (if sc = .sys && s.messagesOf r t ≠ [] then [{ m with msgs := s.messagesOf r t }] else [])
  if isNarrow sc then []
  else all.filter fun k => !s.markers.any fun j => j.gid = k.gid && j.wi = k.wi && j.t = k.t && j.route = k.route

/-- A release that is not complete sends its markers (R361, R380). -/
def State.sendMarkers (s : State) (i : Iss) (sc : Scope) : State :=
  { s with markers := s.markers ++ i.on.flatMap fun th => s.newMarkers i.r i.w.core th.t sc }

/-- Whether the routers along a marker's route pass it on: each one's counter for its core is zero (R361). -/
def State.markerPasses (s : State) (m : Marker) : Bool := (List.range 4).all fun d =>
  !(m.route.any fun b => (bridgeDies b).1 = d || (bridgeDies b).2 = d) || s.fenceCount d m.core = 0

/-- RELEASE_MARKER: a marker is answered: it has passed every router of its route (R361), or every message behind which it was sent has
landed at its destination (R380). -/
def execReleaseMarker (k : Nat) (s : State) : Host.Outcome State Fault Refusal :=
  .next <| match s.markers[k]? with
    | none => s
    | some m =>
      let land := fun (x : Msg) => if m.msgs.contains x.id then { x with landed := true } else x
      if !s.markerPasses m then s
      else { s with markers := s.markers.eraseIdx k, sendQs := s.sendQs.map fun q => { q with msgs := q.msgs.map land } }

/-- Whether a flight writes into a bound region (R249): sp bytes of the thread's own core, gang-window bytes, or gl addresses. -/
def Gang.inRegion (g : Gang) (f : Flight) (d : DWord) : Bool :=
  let kind := (d.extractLsb' 62 2).toNat
  let len := 64 * (d.extractLsb' 42 20).toNat
  let base := (d.extractLsb' 0 42).toNat
  match f.place with
  | .pad gc o =>
    (kind = 1 && gc = g.gcOf f.wi && overlaps base len o f.len) ||
    (kind = 2 && overlaps base len (gc * 2 ^ 21 + o) f.len)
  | .phys _ => kind = 3 && overlaps base len f.va f.len
  | .reg => false

/-- The writes an arrival releases (R247). -/
def Gang.releaseSet (g : Gang) (o : Obj) (rel : ArrRel) (f : Flight) : Bool :=
  match rel with
  | .all => true
  | .nrel => false
  | .bound => g.inRegion f o.region0 || g.inRegion f o.region1

/-! ### Arrivals (R247) -/

/-- One thread's arrival on an object: it waits for its open arrivals, is held, or counts into the current phase, whose number
answers. `upd` is what else the instruction does to the object when it reaches it, an event of its own where the arrival is held. -/
def State.arrive (s : State) (i : Iss) (th : Thread) (r : ObjRef) (d : Option Dst) (upd : Option (Obj → Obj)) :
    State × Option Word :=
  match s.gang? i.r.1, (s.warp? i.r).bind fun w => w.thread? th.t with
  | some g, some now =>
    match g.obj? r with
    | none => (s, none)
    | some o =>
      if now.opens.any (fun p => p.1 = r) || 4 ≤ now.opens.length then (s.stay i th.t (.opens r), none)
      else
        if o.expArr ≤ o.arr then
          let s := (s.modGang i.r.1 fun g => g.modObj r fun k => { k with held := k.held ++ [(i.r.2, th.t)] }).stay i th.t (.held r d)
          (match upd with | some f => s.objEvent i.r.1 r f | none => s, none)
        else
          let s := s.modThread i.r th.t fun u => { u with opens := u.opens ++ [(r, o.lap)] }
          (s.objEvent i.r.1 r fun k => { (upd.getD id) k with arr := k.arr + 1 }, some o.lap)
  | _, _ => (s, none)

/-- An issue without the threads that already wait at a unit: for a held arrival, or for a slot (R247, R275). -/
def Iss.unheld (i : Iss) : Iss :=
  let free := fun (th : Thread) => match th.wait with | .held _ _ => false | .phase _ _ _ _ (some _) => false | _ => true
  { i with act := i.act.filter free, on := i.on.filter free }

/-- Where one thread acts for a scalar destination and waits, the others wait with it. -/
def State.stayBeside (s : State) (i : Iss) (who : List Thread) : State :=
  if who.length = i.on.length then s
  else match who with
    | [] => s
    | th :: _ =>
      match (s.warp? i.r).bind fun w => w.thread? th.t with
      | none => s
      | some u =>
        if u.waits then (i.on.drop 1).foldl (fun s th =>
          s.stay i th.t (match u.wait with | .held r _ => .held r none | w => w)) s
        else s

/-- The $pwerr bits of an issue's operands: set in the threads that go on, and owed by those that wait for what lets them go on (R26, R40,
R158). -/
def State.noteLater (s : State) (i : Iss) (past : BitVec 8) : State :=
  if past = 0 then s
  else s.modThreads i.r (i.on.map (·.t)) fun th =>
    match th.wait with
    | .none => { th with pwerr := th.pwerr ||| past }
    | .phase .. => { th with owes := past }
    | .held .. => { th with owes := past }
    | .jwait .. => { th with owes := past }
    | _ => th

/-- Arrivals of an issue in ascending t, with the laps they are told (R28, R247). -/
def State.arrivals (s : State) (h : Hdr) (i : Iss) (past : BitVec 8) (who : List Thread) (d : Opnd) (ref : Thread → ObjRef)
    (upd : Thread → Option (Obj → Obj)) : State :=
  let s1 := who.foldl (fun s th =>
    let a := s.arrive i th (ref th) (opDst d 1) (upd th)
    match a.2 with
    | some lap => a.1.later i th d 1 lap.toNat
    | none => a.1) (s.advance i)
  let s2 := (s1.stayBeside i who).noteLater i past
  (s2.closeSome h i (s2.waitingOf i) 0 false).unreachBlock i.r.1

/-- The faults of an arrival: the object's, then F_MEMBER for a warp that is no member (R245, R247). -/
def State.arriveFault (s : State) (g : Gang) (w : Warp) (gw : Bool) (a : Nat) : Option Flt :=
  match s.named g w gw a with
  | .error f => some f
  | .ok o => if o.members.getLsbD w.wi then none else some { code := fMember, addr := a }

/-- Whether the releases of an issue's arrivals are still due (R247). -/
def State.releaseDue (s : State) (i : Iss) (who : List Thread) (ref : Thread → ObjRef) (rel : ArrRel) : Option Scope :=
  who.findSome? fun th =>
    match i.g.obj? (ref th) with
    | none => none
    | some o => if rel ≠ .nrel && !s.released i.r th.t o.scope (i.g.releaseSet o rel) then some o.scope else none

/-- The releases of an issue's arrivals are over (R232, R234, R247). -/
def State.arrivalsReleased (s : State) (i : Iss) (who : List Thread) (ref : Thread → ObjRef) (rel : ArrRel) : State :=
  who.foldl (fun s th =>
    match i.g.obj? (ref th) with
    | some o => if rel = .nrel then s else s.releaseOver i.r [th.t] o.scope fun _ => i.g.releaseSet o rel
    | none => s) s

/-- barr (R247). -/
def execBarr (h : Hdr) (x : VOps) (gw : Bool) (rel : ArrRel) (s : State) : Host.Outcome State Fault Refusal :=
  run s h fun i =>
    let i := i.unheld
    let who := if x.d.cls = .s then i.on.take 1 else i.on
    let a := fun (th : Thread) => s.value i.g i.w th x.a 1 x.imm
    let ref := fun (th : Thread) => i.g.refAt i.w gw (a th)
    let own := fun (th : Thread) => s.arriveFault i.g i.w gw (a th)
    let flt := fun (th : Thread) => (if rel = .nrel then none else i.reportFlt th).or (own th)
    let rest :=
      if who.any (s.relWaits i.r) then s
      else match s.releaseDue i who ref rel with
      | some sc => s.sendMarkers i sc
      | none => (s.arrivalsReleased i who ref rel).arrivals h i (s.windowOver i.g i.w [⟨x.a, 1⟩] x.imm) who x.d ref fun _ => none
    let gate := s.gate i who [⟨x.a, 1⟩] (match x.d with | .none => [] | d => [⟨d, 1⟩]) false x.imm flt
    if rel = .nrel then s.through i gate rest else s.throughPoint i gate rest

/-- bexp (R248): bytes expected, and with `.arr` an arrival with the bound release. -/
def execBexp (h : Hdr) (x : VOps) (gw : Bool) (arr : Bool) (s : State) : Host.Outcome State Fault Refusal :=
  run s h fun i =>
    let i := i.unheld
    let who := if x.d.cls = .s then i.on.take 1 else i.on
    let a := fun (th : Thread) => s.value i.g i.w th x.a 1 x.imm
    let b := fun (th : Thread) => s.value i.g i.w th x.b 1 x.imm
    let ref := fun (th : Thread) => i.g.refAt i.w gw (a th)
    let past := s.windowOver i.g i.w [⟨x.a, 1⟩, ⟨x.b, 1⟩] x.imm
    let own := fun (th : Thread) =>
      if arr then s.arriveFault i.g i.w gw (a th) else faultIn (s.named i.g i.w gw (a th))
    let sum := fun (th : Thread) =>
      (who.filter fun u => u.t ≤ th.t && ref u = ref th).foldl (fun n u => n + b u)
        (match i.g.obj? (ref th) with | some o => o.expBytes | none => 0)
    let flt := fun (th : Thread) => (if arr then i.reportFlt th else none).or ((own th).or
      (if 0xFFFFFFFF < sum th then some { code := fIllmod, addr := a th } else none))
    let rest :=
      let more := fun (th : Thread) (o : Obj) => { o with expBytes := o.expBytes + b th }
      if arr then
        if who.any (s.relWaits i.r) then s
        else match s.releaseDue i who ref .bound with
        | some sc => s.sendMarkers i sc
        | none => (s.arrivalsReleased i who ref .bound).arrivals h i past who x.d ref fun th => some (more th)
      else
        let s1 := who.foldl (fun s th =>
          let lap := match (s.gang? i.r.1).bind fun g => g.obj? (ref th) with | some o => o.lap | none => 0
          (s.objEvent i.r.1 (ref th) (more th)).later i th x.d 1 lap.toNat) ((s.noteOver i past).advance i)
        (s1.closeIssue i h.e 0 false).unreachBlock i.r.1
    let gate := s.gate i who [⟨x.a, 1⟩, ⟨x.b, 1⟩] (match x.d with | .none => [] | d => [⟨d, 1⟩]) false x.imm flt
    if arr then s.throughPoint i gate rest else s.through i gate rest

/-! ### Waits (R251) -/

/-- A wait of a thread for phase p of an object: its status at once on its way, or it waits; a limit that has passed already gives
up. `slot` is the second word of bget and bput.get, whose destination is empty while they wait (R258; log entry 55). -/
def State.waitPhase (s : State) (i : Iss) (th : Thread) (o : Obj) (p : Word) (limit : Option Nat) (now : Nat) (d : Opnd)
    (slot : Option Word) : State :=
  let n := if slot.isSome then 2 else 1
  if phaseDone o.lap p then (s.unveil i.r.1).later i th d n (wordsNat (waitWords (o.waitStatus p) slot))
  else
    let keep := match th.wait with | .phase r q l _ _ => if r = o.ref && q = p then l else limit | _ => limit
    match keep, opDst d n with
    | some l, some dst =>
      if l ≤ now then s.later i th d n (p.toNat % 65536 * 65536) else s.stay i th.t (.phase o.ref p keep dst slot)
    | none, some dst =>
      (if slot.isSome then s.emptyDst i.r th.t dst else s).stay i th.t (.phase o.ref p none dst slot)
    | _, none => s

/-- bwait and bwaitt. -/
def State.waitForm (s : State) (h : Hdr) (x : VOps) (gw limited : Bool) : Host.Outcome State Fault Refusal :=
  run s h fun i =>
    let src := [⟨x.a, 1⟩, ⟨x.b, 1⟩] ++ (if limited then [⟨x.c, 1⟩] else [])
    let a := fun (th : Thread) => s.value i.g i.w th x.a 1 x.imm
    let past := s.windowOver i.g i.w src x.imm
    s.through i (s.gate i i.on src [⟨x.d, 1⟩] false x.imm fun th => faultIn (s.named i.g i.w gw (a th))) <|
      let now := s.now i.w.core
      let s1 := i.on.foldl (fun s2 th =>
        match s.named i.g i.w gw (a th) with
        | .error _ => s2
        | .ok o =>
          let lim := if limited then some (now + s.value i.g i.w th x.c 1 x.imm) else none
          s2.waitPhase i th o (BitVec.ofNat 32 (s.value i.g i.w th x.b 1 x.imm)) lim now x.d none) (s.advance i)
      let s2 := s1.noteLater i past
      (s2.closeSome h i (s2.waitingOf i) 0 false).unreachBlock i.r.1

/-- bwait (R251). -/
def execBwait (h : Hdr) (x : VOps) (gw : Bool) (s : State) : Host.Outcome State Fault Refusal := s.waitForm h x gw false

/-- bwaitt (R251): C is the limit in clocks. -/
def execBwaitt (h : Hdr) (x : VOps) (gw : Bool) (s : State) : Host.Outcome State Fault Refusal := s.waitForm h x gw true

/-- The threads at a bwaitt whose limit lies behind go on with DONE = 0 (R251). -/
def Warp.expirePhases (w : Warp) (now : Nat) : Warp :=
  Warp.notedFrom (w.threads.foldl (fun w th =>
    match th.wait with
    | .phase _ p (some _) d slot =>
      if th.wait.overdue now then
        (w.onDst th.t d fun rs k _ => putRegs rs k (waitWords (p.toNat % 65536 * 65536) slot)).modThread th.t Thread.past
      else w
    | _ => w) w) w

/-- BWAITT_EXPIRY: once its limit lies behind, a thread continues with DONE = 0, and with it every thread of the warp whose limit does
(R251; log entry 97); LIMIT is a wake cause (R186). -/
def execBwaittExpiry (gid wi t : Nat) (s : State) : Host.Outcome State Fault Refusal :=
  .next <| match s.warp? (gid, wi) with
    | none => s
    | some w =>
      match w.thread? t with
      | none => s
      | some th =>
        match th.wait with
        | .phase _ _ (some l) _ _ =>
          if s.now w.core ≤ l then s
          else
            let s := s.modWarp (gid, wi) fun w => w.expirePhases (s.now w.core)
            s.modCore w.core fun k => k.cause 4
        | _ => s

/-! ### bstat, bind and unbind -/

/-- The field SEL of an object (R251). -/
def Obj.field (o : Obj) (sel : Nat) : Nat :=
  match sel with
  | 0 => o.lap.toNat
  | 1 => o.expArr + 65536 * o.arr
  | 2 => o.expBytes
  | 3 => min o.landed 0xFFFFFFFF
  | 4 => o.error.toNat % 2 ^ 32
  | 5 => o.error.toNat / 2 ^ 32
  | 6 => o.ctl % 2 ^ 32
  | _ => o.ctl / 2 ^ 32

/-- bstat (R251): fixed latency in sp, long in gw; with CLR it then zeroes ERROR. -/
def execBstat (h : Hdr) (x : VOps) (gw : Bool) (s : State) : Host.Outcome State Fault Refusal :=
  run s h fun i =>
    let who := if x.d.cls = .s then i.on.take 1 else i.on
    let a := fun (th : Thread) => s.value i.g i.w th x.a 1 x.imm
    let sel := bitsN x.imm.toNat 0 3
    s.through i (s.gate i who [⟨x.a, 1⟩] [⟨x.d, 1⟩] false x.imm fun th => faultIn (s.named i.g i.w gw (a th))) <|
      let s1 := who.foldl (fun s th =>
        let r := i.g.refAt i.w gw (a th)
        let v := match (s.gang? i.r.1).bind fun g => g.obj? r with | some o => o.field sel | none => 0
        let s := if bitN x.imm.toNat 3 then s.modGang i.r.1 fun g => g.modObj r fun o => { o with error := 0 } else s
        if gw then s.later i th x.d 1 v else s.modWarp i.r fun w => w.put th.t x.d 1 v) (s.advance i)
      s1.closeIssue i h.e 0 false

/-- A region descriptor (R249). -/
def regionDesc (rspace base len : Nat) : DWord :=
  BitVec.ofNat 64 ((rspace + 1) * 2 ^ 62 + len / 64 * 2 ^ 42 + base % 2 ^ 42)

/-- One of an object's regions written. -/
def Obj.setRegion (o : Obj) (slot : Nat) (d : DWord) : Obj := if slot = 0 then { o with region0 := d } else { o with region1 := d }

/-- bind (R249, R406). -/
def execBind (h : Hdr) (x : VOps) (gw : Bool) (s : State) : Host.Outcome State Fault Refusal :=
  run s h fun i =>
    let slot := bitsN x.imm.toNat 0 1
    let rsp := bitsN x.imm.toNat 1 2
    let bw := if rsp = 2 then 2 else 1
    let a := fun (th : Thread) => s.value i.g i.w th x.a 1 x.imm
    let b := fun (th : Thread) => s.value i.g i.w th x.b bw x.imm
    let c := fun (th : Thread) => s.value i.g i.w th x.c 1 x.imm
    let flt := fun (th : Thread) =>
      (faultIn (s.named i.g i.w gw (a th))).or
        (if b th % 64 ≠ 0 then some ({ code := fAlign, addr := b th } : Flt)
         else if c th % 64 ≠ 0 then some { code := fAlign, addr := c th }
         else if c th = 0 ∨ 2 ^ 26 - 64 < c th then some { code := fIllmod, addr := c th }
         else none)
    s.through i (s.gate i i.on [⟨x.a, 1⟩, ⟨x.b, bw⟩, ⟨x.c, 1⟩] [] false x.imm flt) <|
      let s1 := i.on.foldl (fun s th => s.modGang i.r.1 fun g =>
        g.modObj (i.g.refAt i.w gw (a th)) fun o => o.setRegion slot (regionDesc rsp (b th) (c th))) (s.advance i)
      s1.closeIssue i h.e 0 false

/-- unbind (R249). -/
def execUnbind (h : Hdr) (x : VOps) (gw : Bool) (s : State) : Host.Outcome State Fault Refusal :=
  run s h fun i =>
    let which := bitsN x.imm.toNat 0 2
    let a := fun (th : Thread) => s.value i.g i.w th x.a 1 x.imm
    s.through i (s.gate i i.on [⟨x.a, 1⟩] [] false x.imm fun th => faultIn (s.named i.g i.w gw (a th))) <|
      let clear := fun (o : Obj) =>
        let o := if which ≠ 1 then { o with region0 := 0 } else o
        if which ≠ 0 then { o with region1 := 0 } else o
      let s1 := i.on.foldl (fun s th => s.modGang i.r.1 fun g => g.modObj (i.g.refAt i.w gw (a th)) clear) (s.advance i)
      s1.closeIssue i h.e 0 false

/-! ### binit (R243 to R246) -/

/-- How wide a scope is. -/
def scopeRank (c : Scope) : Nat :=
  match c with
  | .core => 0
  | .clu => 1
  | .dev => 2
  | .sys => 3

/-- Live objects held by the barrier unit or cluster unit that an object would use (R243). -/
def State.unitObjs (s : State) (g : Gang) (gc : Nat) (clu : Bool) : Nat :=
  let core := nth g.cores gc 0
  (s.gangs.map fun k => (k.objs.filter fun o =>
    o.clu = clu && (if clu then s.clusterOf (nth k.cores 0 0) = s.clusterOf core else nth k.cores o.ref.gc 0 = core)).length).foldl (· + ·) 0

/-- Whether a membership is not allowed (R246, R363). -/
def Gang.badMembers (g : Gang) (gw : Bool) (gc : Nat) (scope : Scope) (m : TMask) : Bool :=
  (maskList m).any (fun k => !g.warps.any fun w => w.wi = k) ||
  (!gw && (maskList m).any (fun k => g.gcOf k ≠ gc)) ||
  (gw && decide (scopeRank scope < 1)) || (!gw && g.relayCap)

/-- The exited threads of the member warps (R244, R253). -/
def Gang.exitedOf (g : Gang) (m : TMask) : Nat :=
  ((g.warps.filter fun w => m.getLsbD w.wi).map fun w => (w.threads.filter (·.exited)).length).foldl (· + ·) 0

/-- One binit of a thread: its status, and the object made (R243, R244, R246). -/
def State.makeObj (s : State) (gid : Nat) (r : ObjRef) (gw : Bool) (scope : Scope) (keep : Bool) (counts : Nat) (m : TMask) :
    State × Nat :=
  match s.gang? gid with
  | none => (s, 0)
  | some g =>
    if (g.obj? r).isSome || g.objs.any (fun o => o.ref.gc = r.gc && overlaps o.ref.off 64 r.off 64) then (s, 0x00110000)
    else if g.badMembers gw r.gc scope m then (s, 0x00120000)
    else if (if gw then 512 else 2048) ≤ s.unitObjs g r.gc gw then (s, 0x00100000)
    else
      let e := g.exitedOf m
      let o : Obj := {
        ref := r, clu := gw, scope := scope, expArr := counts % 65536, arr := e, expBytes := counts / 2 ^ 32 % 2 ^ 32,
        members := m, bib := g.bib, exited := e, shortCur := decide (0 < e), keep := keep }
      ((s.padWrite gid r.gc r.off o.image).modGang gid fun g => { g with objs := g.objs ++ [o] }, 0)

/-- One binit.retire of a thread (R246): LIVE is cleared, the other bytes stay as ordinary scratchpad. -/
def State.retireObj (s : State) (gid : Nat) (r : ObjRef) : State × Nat :=
  match s.gang? gid with
  | none => (s, 0)
  | some g =>
    match g.obj? r with
    | none => (s, 0x00130000)
    | some o =>
      let ths := g.warps.flatMap Warp.live
      let used := ths.any fun th => th.wait.object = some r || th.opens.any fun p => p.1 = r
      if used || o.inflight ≠ 0 || g.binds.any (fun b => b.fillObj = r || b.freeObj = r) then (s, 0x00140000 + o.inflight % 65536)
      else
        let img := o.image
        let img := modAt img 57 fun b => b &&& 0xFE
        ((s.modGang gid fun g => { g with objs := g.objs.filter fun k => k.ref ≠ r }).padWrite gid r.gc r.off img, 0)

/-- binit and binit.retire: each guard-true thread on its own, in ascending t, or once for a scalar status (R64, R246); a poisoned object
that the address names is F_ECC (R343). -/
def State.binitForm (s : State) (h : Hdr) (x : VOps) (gw : Bool) (src : List Fld)
    (f : State → Iss → Thread → ObjRef → State × Nat) : Host.Outcome State Fault Refusal :=
  run s h fun i =>
    let who := if x.d.cls = .s then i.on.take 1 else i.on
    let a := fun (th : Thread) => s.value i.g i.w th x.a 1 x.imm
    let past := s.windowOver i.g i.w src x.imm
    let bad := fun (th : Thread) =>
      (i.g.obj? (i.g.refAt i.w gw (a th))).bind fun o => if o.bad then some ({ code := fEcc, addr := a th } : Flt) else none
    s.through i (s.gate i who src [⟨x.d, 1⟩] false x.imm fun th => (faultIn (s.padSpan i.g i.w gw 64 64 (a th))).or (bad th)) <|
      let s1 := (s.advance i).noteOver i past
      let s2 := who.foldl (fun s th =>
        let q := f s i th (i.g.refAt i.w gw (a th))
        q.1.later i th x.d 1 q.2) s1
      s2.closeIssue i h.e 0 false

/-- binit (R245, R246). -/
def execBinit (h : Hdr) (x : VOps) (gw : Bool) (scope : Scope) (keep full : Bool) (s : State) :
    Host.Outcome State Fault Refusal :=
  s.binitForm h x gw ([⟨x.a, 1⟩, ⟨x.b, 2⟩] ++ (if full then [] else [⟨x.c, 4⟩])) fun s2 i th r =>
    let m : TMask := if full then maskOf (i.g.warps.map (·.wi)) else BitVec.ofNat 128 (s.value i.g i.w th x.c 4 x.imm)
    s2.makeObj i.r.1 r gw scope keep (s.value i.g i.w th x.b 2 x.imm) m

/-- binit.retire (R246). -/
def execBinitRetire (h : Hdr) (x : VOps) (gw : Bool) (_scope : Scope) (s : State) : Host.Outcome State Fault Refusal :=
  s.binitForm h x gw [⟨x.a, 1⟩] fun s2 i _ r =>
    match (s2.gang? i.r.1).bind fun g => g.obj? r with
    | some _ => s2.retireObj i.r.1 r
    | none => (s2, 0x00130000)

end Sys2Proof.Machine
end

