-- ==== Sys2Proof/Machine/Control.lean ====
section
/-!
DEFINITION. Group 0 but for exit: transfers, the return stack and nop (spec/05 R84 to R87, R89), and the pacer (spec/09 R185).
-/
namespace Sys2Proof.Machine

/-! ### Taken transfers -/

/-- The target of a J word, exactly (R54). -/
def jTarget (pc : VAddr) (x : JOps) : Int := (pcLine pc : Int) + 64 * immInt x.off + 12 * (x.slot.toNat : Int)

/-- The check of an exact target (R54, R85): below 0 or from 2^42 up it is F_TARGET. -/
def State.exactFault (s : State) (i : Iss) (v : Int) : Option Flt :=
  if v < 0 then some { code := fTarget, addr := wrapN 64 v } else s.targetFault i.g i.w.core v.toNat true

/-- Whether a target's line cannot be read now, so that the transfer waits (R355, R361). -/
def State.targetHeld (s : State) (i : Iss) (v : Int) : Bool := decide (0 ≤ v) && s.fetchHeld i.g i.w.core v.toNat

/-- The pacer's view of a taken transfer (R185): the fourth taking in a row of one backward branch to its own line or the line
before, with nothing written between, demotes the warp; any other transfer starts afresh and ends a demotion. A branch to itself counts
as backward, and where the threads of a brx or ret differ the lowest thread's target counts: R185 leaves both open (log entry 102). -/
def Warp.pace (w : Warp) (pc : VAddr) (v : Nat) : Warp :=
  let near := decide (v ≤ pc.toNat) && decide (pcLine pc ≤ v / 64 * 64 + 64)
  if near && w.spinPc = pc && w.spinN ≠ 0 && !w.spinBusy then
    { w with spinN := min 4 (w.spinN + 1), demoted := w.demoted || decide (3 ≤ w.spinN) }
  else { w with spinPc := pc, spinN := if near then 1 else 0, spinBusy := false, demoted := false }

/-- Threads sent to their targets after the issue has advanced (R85). -/
def State.goTo (s : State) (i : Iss) (tg : List (Nat × Nat)) : State :=
  match tg with
  | [] => s
  | p :: _ =>
    s.modWarp i.r fun w =>
      (w.mapThreads fun th =>
        match tg.find? fun q => q.1 = th.t with
        | some q => { th with pc := BitVec.ofNat 42 q.2 }
        | none => th).pace i.pc p.2

/-- bra (R85). -/
def execBra (h : Hdr) (x : JOps) (s : State) : Host.Outcome State Fault Refusal :=
  run s h fun i =>
    if s.targetHeld i (jTarget i.pc x) then s
    else match s.exactFault i (jTarget i.pc x) with
    | some f => s.trapIss i (i.on.map fun th => (th.t, f))
    | none => ((s.advance i).goTo i (i.on.map fun th => (th.t, (jTarget i.pc x).toNat))).closeIssue i h.e 0 false

/-- brx (R85): each thread to the address its A holds. -/
def execBrx (h : Hdr) (x : VOps) (s : State) : Host.Outcome State Fault Refusal :=
  run s h fun i =>
    let a := fun (th : Thread) => s.value i.g i.w th x.a 2 x.imm
    s.through i (s.gate i i.on [⟨x.a, 2⟩] [] false x.imm fun th => s.targetFault i.g i.w.core (a th) true) <|
      if i.on.any fun th => s.fetchHeld i.g i.w.core (a th) then s
      else ((s.advance i).goTo i (i.on.map fun th => (th.t, a th))).closeIssue i h.e 0 false

/-! ### The return stack (R86) -/

/-- The address of spill word `j` of a thread. -/
def Gang.spillAddr (g : Gang) (th : Thread) (j : Nat) : Nat :=
  (g.spillBase + g.launchIndex th * g.spillSize + 8 * j) % 2 ^ 64

/-- F_STACK at an address. -/
def stackFlt (a : Nat) : Flt := { code := fStack, addr := a }

/-- The fault of a call's spill, if it spills: no room, or any fault of the store (R86). -/
def State.spillFault (s : State) (i : Iss) (th : Thread) : Option Flt :=
  if th.rs.length < 8 then none
  else
    let a := i.g.spillAddr th th.k
    if i.g.spillSize < 8 * (th.k + 1) then some (stackFlt a)
    else match s.locate i.g i.w .glDev .plainStore 8 a with
      | .error _ => some (stackFlt a)
      | .ok _ => none

/-- The spill of the oldest return address as a store of the thread (R86). -/
def State.spill (s : State) (i : Iss) (th : Thread) : State :=
  if th.rs.length < 8 then s
  else match s.locate i.g i.w .glDev .plainStore 8 (i.g.spillAddr th th.k) with
    | .error _ => s
    | .ok q =>
      let f := i.flight (s.now i.w.core) th .store q.1 8
      s.launchFlight { f with va := i.g.spillAddr th th.k, data := leBytes 8 (nth th.rs 0 0).toNat, scope := .dev, needOst := true }

/-- A thread's return stack after a call: the oldest entry spilled where it was full (R86). -/
def Thread.push (th : Thread) (ra : DWord) : Thread :=
  if th.rs.length < 8 then { th with rs := th.rs ++ [ra] } else { th with rs := th.rs.drop 1 ++ [ra], k := th.k + 1 }

/-- A call of the guard-true threads to their targets; a spill, a store, waits for what an acquire fence before it orders (R85, R86,
R237). -/
def State.callForm (s : State) (h : Hdr) (i : Iss) (d a : Opnd) (tg : Thread → Int) : State :=
  let flt := fun (th : Thread) => (s.exactFault i (tg th)).or (s.spillFault i th)
  let dst := match d with | .none => [] | _ => [⟨d, 2⟩]
  let src := match a with | .none => [] | _ => [⟨a, 2⟩]
  s.through i (s.gate i i.on src dst false 0 flt) <|
    let ra := (nextPc i.pc).toNat
    let spills := i.on.any fun th => 8 ≤ th.rs.length
    if i.on.any fun th => s.targetHeld i (tg th) || (8 ≤ th.rs.length && s.acqWaits i.r th) then s
    else
    let s1 := i.on.foldl (fun s th => s.spill i th) (s.advance i)
    let s2 := i.on.foldl (fun s th => s.modWarp i.r fun w =>
      (w.modThread th.t fun th => th.push (BitVec.ofNat 64 ra)).put th.t d 2 ra) s1
    (s2.goTo i (i.on.map fun th => (th.t, (tg th).toNat))).closeIssue i h.e 0 spills

/-- call (R86). -/
def execCall (h : Hdr) (x : JOps) (s : State) : Host.Outcome State Fault Refusal :=
  run s h fun i => s.callForm h i x.d .none fun _ => jTarget i.pc x

/-- callx (R86). -/
def execCallx (h : Hdr) (x : VOps) (s : State) : Host.Outcome State Fault Refusal :=
  run s h fun i => s.callForm h i x.d x.a fun th => (s.value i.g i.w th x.a 2 x.imm : Int)

/-- The load that a fill makes (R86). -/
def State.fillLoadOf (s : State) (i : Iss) (th : Thread) (pa : Nat) : Flight :=
  { i.flight 0 th (.load false) (.phys pa) 8 with id := s.nextId }

/-- The word a fill reads: the thread's own stores on their way, else as a load of its die (R46, R86). -/
def State.fillWord (s : State) (i : Iss) (th : Thread) (pa : Nat) : Nat :=
  leNat ((List.range 8).map fun k => s.loadByte (s.fillLoadOf i th pa) (pa + k))

/-- The return address of a thread's ret, or its fault (R86). F_STACK of a thread with nothing to pop names spill word 0, for the spec
gives no address where there is no spill word (log entry 59). -/
def State.popAddr (s : State) (i : Iss) (th : Thread) : Except Flt Nat :=
  match th.rs.getLast? with
  | some v => .ok v.toNat
  | none =>
    if th.k = 0 then .error (stackFlt (i.g.spillAddr th 0))
    else
      let a := i.g.spillAddr th (th.k - 1)
      match s.locate i.g i.w .glDev .load 8 a with
      | .ok (.phys pa, _) => .ok (s.fillWord i th pa)
      | _ => .error (stackFlt a)

/-- The fault of a thread's ret: of its pop, else of its target (R85, R86). -/
def State.retFault (s : State) (i : Iss) (th : Thread) : Option Flt :=
  match s.popAddr i th with
  | .error f => some f
  | .ok v => s.targetFault i.g i.w.core v true

/-- The address that a thread's ret fills from, if it fills (R86). -/
def State.retAddr (s : State) (i : Iss) (th : Thread) : Option Nat :=
  if th.rs ≠ [] || th.k = 0 then none
  else match s.locate i.g i.w .glDev .load 8 (i.g.spillAddr th (th.k - 1)) with
    | .ok (.phys pa, _) => some pa
    | _ => none

/-- Whether a fill must wait: for the line or the route to its home (R355, R361), for older accesses of the thread to its bytes, and for what
an acquire fence before it orders (R46, R232, R237). -/
def State.fillHeld (s : State) (i : Iss) (th : Thread) (pa : Nat) : Bool :=
  s.homeHeld i.w.core pa true || s.acqWaits i.r th || s.flights.any (s.fillLoadOf i th pa).ownBefore

/-- What a fill has read of other threads' stores on their way is noted (R231). -/
def State.noteFill (s : State) (i : Iss) (th : Thread) : State :=
  match s.retAddr i th with
  | some pa => s.markSeen (s.fillLoadOf i th pa)
  | none => s

/-- ret (R86). A fill stalls the warp in its issue slot until its value arrives; the target is checked before anything changes. -/
def execRet (h : Hdr) (_x : VOps) (s : State) : Host.Outcome State Fault Refusal :=
  run s h fun i =>
    let fills := fun (th : Thread) => (s.retAddr i th).isSome
    let held := fun (th : Thread) => match s.retAddr i th with | some pa => s.fillHeld i th pa | none => false
    let waits := fun (th : Thread) => match s.popAddr i th with | .ok v => s.fetchHeld i.g i.w.core v | .error _ => false
    if i.on.any held || (i.on.any fills && i.w.stall ≠ some (.ret true)) then
      s.modWarp i.r fun w => { w with stall := some (.ret false) }
    else if i.on.any waits then s
    else
      match faultsOf i.on (s.retFault i) with
      | f :: fs => s.trapIss i (f :: fs)
      | [] =>
        let ra := fun (th : Thread) => match s.popAddr i th with | .ok v => v | .error _ => 0
        let pop := fun (th : Thread) => if th.rs = [] then { th with k := th.k - 1 } else { th with rs := th.rs.dropLast }
        let s1 := ((i.on.foldl (fun s th => s.noteFill i th) s).advance i).modThreads i.r (i.on.map (·.t)) pop
        (s1.goTo i (i.on.map fun th => (th.t, ra th))).closeIssue i h.e 0 false

/-! ### loopd and nop -/

/-- loopd (R87): a scalar count is decremented once and every guard-true thread follows. -/
def execLoopd (h : Hdr) (x : JOps) (s : State) : Host.Outcome State Fault Refusal :=
  run s h fun i =>
    let c := fun (th : Thread) => s.value i.g i.w th x.a 1 0
    let takes := i.on.filter fun th => 2 ≤ c th
    let flt := fun (th : Thread) => if 2 ≤ c th then s.exactFault i (jTarget i.pc x) else none
    s.through i (s.gate i i.on [⟨x.a, 1⟩] [] false 0 flt) <|
      if takes ≠ [] && s.targetHeld i (jTarget i.pc x) then s
      else
      let s1 := i.on.foldl (fun s th => s.modWarp i.r fun w => w.put th.t x.a 1 (c th - 1)) (s.advance i)
      (s1.goTo i (takes.map fun th => (th.t, (jTarget i.pc x).toNat))).closeIssue i h.e 0 false

/-- nop (R89). -/
def execNop (h : Hdr) (_x : VOps) (s : State) : Host.Outcome State Fault Refusal :=
  run s h fun i => (s.advance i).closeIssue i h.e 0 false

end Sys2Proof.Machine
end

