-- ==== Sys2Proof/Machine/Float.lean ====
section
/-!
DEFINITION. Group 4, float arithmetic (spec/07 R133 to R137), and fcmp of group 3 (spec/05 R100).
-/
namespace Sys2Proof.Machine

/-- A float form of k 32-bit sources (R132, R133). -/
def State.floatForm (s : State) (h : Hdr) (x : VOps) (k : Nat) (f : TIn → Nat) : Host.Outcome State Fault Refusal :=
  s.plain h x (Wid.same .f32 k) false fun v => { d := some (f v) }

/-- a + b rounded once. -/
def Fmt.addN (f : Fmt) (r : Rnd) (a b : Nat) : Nat := f.round r ((f.decode a).add (f.decode b))
/-- a × b rounded once. -/
def Fmt.mulN (f : Fmt) (r : Rnd) (a b : Nat) : Nat := f.round r ((f.decode a).mul (f.decode b))
/-- a × b + c rounded once. -/
def Fmt.fmaN (f : Fmt) (r : Rnd) (a b c : Nat) : Nat := f.round r (((f.decode a).mul (f.decode b)).add (f.decode c))

/-- fadd (R133). -/
def execFadd (h : Hdr) (x : VOps) (r : Rnd) (s : State) : Host.Outcome State Fault Refusal :=
  s.floatForm h x 2 fun v => fp32.addN r v.a v.b

/-- fsub (R133). -/
def execFsub (h : Hdr) (x : VOps) (r : Rnd) (s : State) : Host.Outcome State Fault Refusal :=
  s.floatForm h x 2 fun v => fp32.round r ((fp32.decode v.a).add (fp32.decode v.b).neg)

/-- fmul (R133). -/
def execFmul (h : Hdr) (x : VOps) (r : Rnd) (s : State) : Host.Outcome State Fault Refusal :=
  s.floatForm h x 2 fun v => fp32.mulN r v.a v.b

/-- ffma (R133). -/
def execFfma (h : Hdr) (x : VOps) (r : Rnd) (s : State) : Host.Outcome State Fault Refusal :=
  s.floatForm h x 3 fun v => fp32.fmaN r v.a v.b v.c

/-- fmin (R134). -/
def execFmin (h : Hdr) (x : VOps) (s : State) : Host.Outcome State Fault Refusal :=
  s.floatForm h x 2 fun v => fp32.minMax false v.a v.b

/-- fmax (R134). -/
def execFmax (h : Hdr) (x : VOps) (s : State) : Host.Outcome State Fault Refusal :=
  s.floatForm h x 2 fun v => fp32.minMax true v.a v.b

/-- fdiv (R119). -/
def execFdiv (h : Hdr) (x : VOps) (r : Rnd) (s : State) : Host.Outcome State Fault Refusal :=
  s.floatForm h x 2 fun v => fdivN r (fp32.decode v.a) (fp32.decode v.b)

/-- frcp (R119). -/
def execFrcp (h : Hdr) (x : VOps) (r : Rnd) (s : State) : Host.Outcome State Fault Refusal :=
  s.floatForm h x 1 fun v => frcpN r (fp32.decode v.a)

/-- fsqrt (R119). -/
def execFsqrt (h : Hdr) (x : VOps) (r : Rnd) (s : State) : Host.Outcome State Fault Refusal :=
  s.floatForm h x 1 fun v => fsqrtN r (fp32.decode v.a)

/-- frsq (R119). -/
def execFrsq (h : Hdr) (x : VOps) (r : Rnd) (s : State) : Host.Outcome State Fault Refusal :=
  s.floatForm h x 1 fun v => frsqN r (fp32.decode v.a)

/-- fexp2 (R119). -/
def execFexp2 (h : Hdr) (x : VOps) (r : Rnd) (s : State) : Host.Outcome State Fault Refusal :=
  s.floatForm h x 1 fun v => fexp2N r (fp32.decode v.a)

/-- flog2 (R119). -/
def execFlog2 (h : Hdr) (x : VOps) (r : Rnd) (s : State) : Host.Outcome State Fault Refusal :=
  s.floatForm h x 1 fun v => flog2N r (fp32.decode v.a)

/-- frnd (R135). -/
def execFrnd (h : Hdr) (x : VOps) (r : Rnd) (s : State) : Host.Outcome State Fault Refusal :=
  s.floatForm h x 1 fun v => frndN r v.a

/-- fclass (R136). -/
def execFclass (h : Hdr) (x : VOps) (s : State) : Host.Outcome State Fault Refusal :=
  s.floatForm h x 1 fun v => fclassN v.a

/-- fscale (R137). -/
def execFscale (h : Hdr) (x : VOps) (r : Rnd) (s : State) : Host.Outcome State Fault Refusal :=
  s.floatForm h x 2 fun v => fscaleN r v.a (signedN 32 v.b)

/-- A packed float form: each element on its own (R133). -/
def State.packedFloat (s : State) (h : Hdr) (x : VOps) (t : Ty) (k : Nat) (f : Nat → Nat → Nat → Nat) :
    Host.Outcome State Fault Refusal :=
  s.floatForm h x k fun v => mapEls t fun i => f (elem t v.a i) (elem t v.b i) (elem t v.c i)

/-- hadd2 (R133). -/
def execHadd2 (h : Hdr) (x : VOps) (t : Ty) (r : Rnd) (s : State) : Host.Outcome State Fault Refusal :=
  s.packedFloat h x t 2 fun a b _ => (fmtOf t).addN r a b

/-- hmul2 (R133). -/
def execHmul2 (h : Hdr) (x : VOps) (t : Ty) (r : Rnd) (s : State) : Host.Outcome State Fault Refusal :=
  s.packedFloat h x t 2 fun a b _ => (fmtOf t).mulN r a b

/-- hfma2 (R133). -/
def execHfma2 (h : Hdr) (x : VOps) (t : Ty) (r : Rnd) (s : State) : Host.Outcome State Fault Refusal :=
  s.packedFloat h x t 3 fun a b c => (fmtOf t).fmaN r a b c

/-- hmin2 (R134). -/
def execHmin2 (h : Hdr) (x : VOps) (t : Ty) (s : State) : Host.Outcome State Fault Refusal :=
  s.packedFloat h x t 2 fun a b _ => (fmtOf t).minMax false a b

/-- hmax2 (R134). -/
def execHmax2 (h : Hdr) (x : VOps) (t : Ty) (s : State) : Host.Outcome State Fault Refusal :=
  s.packedFloat h x t 2 fun a b _ => (fmtOf t).minMax true a b

/-- fcmp (R99, R100). -/
def execFcmp (h : Hdr) (x : VOps) (c : Cond) (dg : BitVec 3) (cm : Cmb) (s : State) : Host.Outcome State Fault Refusal :=
  s.plain h x { d := 0, a := 1, b := 1 } false fun v =>
    { th := fun th => setCmp th dg cm (condFloat c (fp32.decode v.a) (fp32.decode v.b)) }

end Sys2Proof.Machine
end

