-- ==== Sys2Proof/Machine/Packed.lean ====
section
/-!
DEFINITION. Group 5, packed integers, the trellis step and dot products (spec/07 R138 to R141).
-/
namespace Sys2Proof.Machine

/-- satE of an element (R138). -/
def satEl (t : Ty) (v : Int) : Nat :=
  let r := rangeOf (tySigned t) (elBits t)
  wrapN (elBits t) (max r.1 (min r.2 v))

/-- An elementwise integer form (R138). -/
def State.packedInt (s : State) (h : Hdr) (x : VOps) (t : Ty) (sat : Bool) (f : Int → Int → Int) :
    Host.Outcome State Fault Refusal :=
  s.floatForm h x 2 fun v => mapEls t fun i =>
    let r := f (elNum t v.a i) (elNum t v.b i)
    if sat then satEl t r else wrapN (elBits t) r

/-- vadd2 (R138). -/
def execVadd2 (h : Hdr) (x : VOps) (t : Ty) (sat : Bool) (s : State) : Host.Outcome State Fault Refusal :=
  s.packedInt h x t sat fun a b => a + b

/-- vsub2 (R138). -/
def execVsub2 (h : Hdr) (x : VOps) (t : Ty) (sat : Bool) (s : State) : Host.Outcome State Fault Refusal :=
  s.packedInt h x t sat fun a b => a - b

/-- vmin2 (R138). -/
def execVmin2 (h : Hdr) (x : VOps) (t : Ty) (s : State) : Host.Outcome State Fault Refusal :=
  s.packedInt h x t false fun a b => min a b

/-- vmax2 (R138). -/
def execVmax2 (h : Hdr) (x : VOps) (t : Ty) (s : State) : Host.Outcome State Fault Refusal :=
  s.packedInt h x t false fun a b => max a b

/-- vabsd2 (R138). -/
def execVabsd2 (h : Hdr) (x : VOps) (t : Ty) (s : State) : Host.Outcome State Fault Refusal :=
  s.packedInt h x t false fun a b => (a - b).natAbs

/-- vadd4 (R138). -/
def execVadd4 (h : Hdr) (x : VOps) (t : Ty) (sat : Bool) (s : State) : Host.Outcome State Fault Refusal :=
  s.packedInt h x t sat fun a b => a + b

/-- vsub4 (R138). -/
def execVsub4 (h : Hdr) (x : VOps) (t : Ty) (sat : Bool) (s : State) : Host.Outcome State Fault Refusal :=
  s.packedInt h x t sat fun a b => a - b

/-- vmin4 (R138). -/
def execVmin4 (h : Hdr) (x : VOps) (t : Ty) (s : State) : Host.Outcome State Fault Refusal :=
  s.packedInt h x t false fun a b => min a b

/-- vmax4 (R138). -/
def execVmax4 (h : Hdr) (x : VOps) (t : Ty) (s : State) : Host.Outcome State Fault Refusal :=
  s.packedInt h x t false fun a b => max a b

/-- One element of acs2: the survivor and its decision (R139). -/
def acsStep (t : Ty) (a b c i : Nat) : Nat × Bool :=
  let c0 := satEl t (elNum t a i + (bitsN c (16 * i) 8 : Nat))
  let c1 := satEl t (elNum t b i + (bitsN c (16 * i + 8) 8 : Nat))
  if elNum t c1 0 < elNum t c0 0 then (c1, true) else (c0, false)

/-- acs2 (R139): the survivors, and $dcs shifted by their decisions. -/
def execAcs2 (h : Hdr) (x : VOps) (t : Ty) (s : State) : Host.Outcome State Fault Refusal :=
  s.plain h x (Wid.same .f32 3) false fun v =>
    let r := fun i => acsStep t v.a v.b v.c i
    let d := (if (r 1).2 then 2 else 0) + (if (r 0).2 then 1 else 0)
    { d := some (mapEls t fun i => (r i).1),
      th := fun th => { th with dcs := BitVec.ofNat 32 (th.dcs.toNat * 4 + d) } }

/-- The exact sum of a dot product (R124). -/
def dotSum (n : Nat) (ta tb : Ty) (a b : Nat) (c : Exact) : Exact :=
  Exact.sum (c :: (List.range n).map fun i => (elVal ta a i).mul (elVal tb b i))

/-- dot4 and dot8 (R124, R141). -/
def State.dotForm (s : State) (h : Hdr) (x : VOps) (n : Nat) (t : Ty) (bt : Option Ty) : Host.Outcome State Fault Refusal :=
  s.floatForm h x 3 fun v =>
    let tb := bt.getD t
    if t.isInteger then
      let sum := (List.range n).foldl (fun z i => z + elNum t v.a i * elNum tb v.b i) (signedN 32 v.c)
      wrapN 32 sum
    else fp32.round .rne (dotSum n t tb v.a v.b (fp32.decode v.c))

/-- dot4 (R141). -/
def execDot4 (h : Hdr) (x : VOps) (t : Ty) (bt : Option Ty) (s : State) : Host.Outcome State Fault Refusal :=
  s.dotForm h x 4 t bt

/-- dot8 (R141). -/
def execDot8 (h : Hdr) (x : VOps) (t : Ty) (bt : Option Ty) (s : State) : Host.Outcome State Fault Refusal :=
  s.dotForm h x 8 t bt

end Sys2Proof.Machine
end

