-- ==== Sys2Proof/Machine/Convert.lean ====
section
/-!
DEFINITION. Group 6, conversion and quantisation (spec/07 R142 to R151), with the row instructions of R146.
-/
namespace Sys2Proof.Machine

/-- The register pattern of an exact value rounded into a scalar type: floats under R116, an S24 shifted to its register form
(R115), integers under R117. -/
def toScalar (t : Ty) (r : Rnd) (x : Exact) : Nat :=
  match t with
  | .f32 => fp32.round r x
  | .s24 => s24.round r x * 256
  | _ =>
    let g := rangeOf (tySigned t) (tyBits t)
    wrapN (tyBits t) (toRange r g.1 g.2 x)

/-- The exact value of a scalar register. -/
def ofScalar (t : Ty) (v : Nat) : Exact :=
  if t.isInt then .num (numOf t v) 0 else regVal t v

/-- cvt (R142). -/
def execCvt (h : Hdr) (x : VOps) (t src : Ty) (r : Rnd) (s : State) : Host.Outcome State Fault Refusal :=
  s.plain h x { d := t.words, a := src.words } false fun v => { d := some (toScalar t r (ofScalar src v.a)) }

/-- An element of a packed type from an exact value: rounded (R116), narrowed (R117) or clamped. -/
def toElem (t : Ty) (r : Rnd) (x : Exact) : Nat :=
  if t.isInteger then
    let g := rangeOf (tySigned t) (elBits t)
    wrapN (elBits t) (toRange r g.1 g.2 x)
  else match t with
    | .e4m3x4 => e4m3.narrow r x
    | .e5m2x4 => e5m2.narrow r x
    | .e2m1x8 => e2m1.narrow r x
    | _ => (fmtOf t).round r x

/-- cvtp (R143): two values into the elements POS names, over a merge base. -/
def execCvtp (h : Hdr) (x : VOps) (t : Ty) (r : Rnd) (s : State) : Host.Outcome State Fault Refusal :=
  s.floatForm h x 3 fun v =>
    let pos := bitsN x.imm.toNat 0 2
    let src : Ty := if t.isInteger then .w32 else .f32
    let conv := fun a => toElem t r (ofScalar src a)
    setElem t (setElem t v.c (2 * pos) (conv v.a)) (2 * pos + 1) (conv v.b)

/-- cvtn (R144): the elements of A, then those of B, each half as wide. -/
def execCvtn (h : Hdr) (x : VOps) (t src : Ty) (r : Rnd) (s : State) : Host.Outcome State Fault Refusal :=
  s.floatForm h x 2 fun v =>
    let k := elCount src
    mapEls t fun i => toElem t r (if i < k then elVal src v.a i else elVal src v.b (i - k))

/-- An element of a wider type from an exact value: every allowed pair is exact (R145). -/
def wideElem (t : Ty) (x : Exact) : Nat :=
  match t with
  | .f32 => fp32.round .rne x
  | _ => toElem t .rne x

/-- cvtw (R145): the group of elements SEL names, widened. -/
def execCvtw (h : Hdr) (x : VOps) (t src : Ty) (s : State) : Host.Outcome State Fault Refusal :=
  s.floatForm h x 1 fun v =>
    let k := elCount t
    let sel := bitsN x.imm.toNat 0 3
    packEls (elBits t) k fun i => wideElem t (elVal src v.a (sel * k + i))

/-- The divisor of scl and msca as a power of two (R130, R289). -/
def divLog2 (d : Div) : Nat :=
  match d with
  | .d1 => 0
  | .d16 => 4
  | .d32 => 5

/-- scl (R151). -/
def execScl (h : Hdr) (x : VOps) (t : Ty) (r : Rnd) (div : Div) (s : State) : Host.Outcome State Fault Refusal :=
  s.floatForm h x 3 fun v =>
    toScalar t r (((fp32.decode v.a).mul (regVal .s24 v.c)).scale (-(divLog2 div : Int)))

/-! ### Row instructions (R146) -/

/-- The lanes of a row that take part. -/
def rowMask (on : List Thread) (row : Nat) : Nat :=
  (on.filter fun th => th.t / 16 = row).foldl (fun m th => m + 2 ^ (th.t % 16)) 0

/-- F_MASK of a thread whose row takes part in part (R146). -/
def rowFault (on : List Thread) (th : Thread) : Option Flt :=
  let m := rowMask on (th.t / 16)
  if m = 65535 then none else some { code := fMask, addr := th.t / 16 * 65536 + m }

/-- The lanes of a row among threads that take part, in lane order (R146). -/
def rowOf (on : List Thread) (row : Nat) : List Thread :=
  (List.range 16).filterMap fun k => on.find? fun u => u.t = row * 16 + k

/-- A row instruction: each full row reads its operands in lane order and writes D of every lane. `f` gives a lane's result from
the row's inputs. -/
def State.rowForm (s : State) (h : Hdr) (x : VOps) (n : Wid) (dRead : Bool) (f : List TIn → Nat → Nat) :
    Host.Outcome State Fault Refusal :=
  run s h fun i =>
    let src := [⟨x.a, n.a⟩, ⟨x.b, n.b⟩, ⟨x.c, n.c⟩]
    let past := s.windowOver i.g i.w src x.imm
    s.through i (s.gate i i.on src [⟨x.d, n.d⟩] dRead x.imm (rowFault i.on)) <|
      let s1 := (s.advance i).noteOver i past
      let s2 := i.on.foldl (fun s2 th =>
        let row := (rowOf i.on (th.t / 16)).map fun u => s.tin i x n u
        s2.modWarp i.r fun w => w.put th.t x.d n.d (f row (th.t % 16))) s1
      s2.closeIssue i h.e 0 false

/-- The block x of a row (R121, R147): lane k holds x[k], or x[2k] in A and x[2k + 1] in B. -/
def rowBlock (n32 : Bool) (row : List TIn) : List Exact :=
  row.flatMap fun v => if n32 then [fp32.decode v.a, fp32.decode v.b] else [fp32.decode v.a]

/-- hqs (R148). -/
def execHqs (h : Hdr) (x : VOps) (t : Ty) (n32 : Bool) (s : State) : Host.Outcome State Fault Refusal :=
  s.rowForm h x { d := 1, a := 1, b := if n32 then 1 else 0 } false fun row _ =>
    blockScale (fmtOf t) (hadamard (rowBlock n32 row)) * 256

/-- hq (R149): D is also read; the other elements keep their values. -/
def execHq (h : Hdr) (x : VOps) (t : Ty) (n32 : Bool) (s : State) : Host.Outcome State Fault Refusal :=
  s.rowForm h x { d := 1, a := 1, b := if n32 then 1 else 0, c := 1 } true fun row k =>
    let y := hadamard (rowBlock n32 row)
    let pos := bitsN x.imm.toNat 0 3
    match row[k]? with
    | none => 0
    | some v =>
      let sc := regVal .s24 v.c
      let code := fun i => quantCode (fmtOf t) (nth y i (.num 0 0)) sc
      if n32 then setElem t (setElem t v.d (2 * pos) (code (2 * k))) (2 * pos + 1) (code (2 * k + 1))
      else setElem t v.d pos (code k)

/-- hdq (R150). -/
def execHdq (h : Hdr) (x : VOps) (t : Ty) (n32 : Bool) (r : Rnd) (s : State) : Host.Outcome State Fault Refusal :=
  s.rowForm h x { d := if n32 then 2 else 1, a := 1, c := 1 } false fun row k =>
    let pos := bitsN x.imm.toNat 0 3
    let dq := fun (v : TIn) (p : Nat) => ((fmtOf t).decode (elem t v.a p)).mul (regVal .s24 v.c)
    let vs := row.flatMap fun v => if n32 then [dq v (2 * pos), dq v (2 * pos + 1)] else [dq v pos]
    let y := hadamard vs
    let out := fun i => fp32.round r ((nth y i (.num 0 0)).scale (if n32 then -5 else -4))
    if n32 then out (2 * k) + out (2 * k + 1) * 2 ^ 32 else out k

end Sys2Proof.Machine
end

