-- ==== Sys2Proof/Machine/Fence.lean ====
section
/-!
DEFINITION. Fences (spec/13 R237 to R239): a release stalls the warp in its issue slot until what it orders is performed, an acquire
marks the point behind which later accesses stand.
-/
namespace Sys2Proof.Machine

/-- Whether a fence kind releases. -/
def Fence.releases (k : Fence) : Bool :=
  match k with
  | .acq => false
  | _ => true

/-- The acquire point of the threads of an issue set, from which every write is seen (R237; log entry 12). -/
def State.acquire (s : State) (i : Iss) : State :=
  (s.modThreads i.r (i.on.map (·.t)) fun th => { th with acqPt := s.nextId }).unveil i.r.1

/-- The release point of the threads of an issue set (R237; log entry 12). -/
def State.markRelease (s : State) (i : Iss) : State :=
  s.modThreads i.r (i.on.map (·.t)) fun th => { th with relPt := s.nextId }

/-- fence (R237): what it releases counts as performed at its scope once it completes. -/
def execFence (h : Hdr) (_x : VOps) (sc : Scope) (k : Fence) (s : State) : Host.Outcome State Fault Refusal :=
  run s h fun i =>
    let done := fun (th : Thread) =>
      (!Fence.releases k || s.released i.r th.t sc fun _ => true) && (k ≠ .sc || s.loadsDone i.r th.t)
    let acq := fun (s : State) => if k = .rel then s else s.acquire i
    if !Fence.releases k then (acq (s.advance i)).closeIssue i h.e 0 false
    else s.orderPoint i (if i.on.all done then
                           (acq (((s.advance i).releaseOver i.r (i.on.map (·.t)) sc fun _ _ => true).markRelease i)).closeIssue i h.e 0 false
                         else s.sendMarkers i sc)

/-- Whether a group C command accesses scratchpad: the accesses of path x (R301). -/
def MCmd.onX (k : MCmd) : Bool :=
  match k.instr with
  | .ldf .. => true
  | .stf .. => true
  | .msca .. => true
  | .mxc _ _ _ _ _ _ _ _ c => decide (c = .perm)
  | _ => false

/-- The commands of a warp on path x whose accesses are not yet performed (R298, R301). -/
def State.pendingX (s : State) (i : Iss) : List MCmd :=
  (s.quarter i.w.core i.w.quarter).mq.filter fun k => k.onX && k.gid = i.r.1 && k.wi = i.w.wi

/-- fencex (R238): where FROM holds t, the thread's own earlier accesses are performed, and where it holds x, those of every group C
command of the warp (R301); the accesses of commands whose status it has read, and of landings it has obtained, are performed already. -/
def execFencex (h : Hdr) (x : VOps) (sc : Scope) (s : State) : Host.Outcome State Fault Refusal :=
  run s h fun i =>
    let fromT := bitN x.imm.toNat 0
    let fromX := bitN x.imm.toNat 2
    let done := fun (th : Thread) => !fromT || (s.released i.r th.t sc (fun _ => true) && s.loadsDone i.r th.t)
    let over_ := fun (s : State) => if fromT then s.releaseOver i.r (i.on.map (·.t)) sc fun _ _ => true else s
    s.orderPoint i (if (!fromX || (s.pendingX i).isEmpty) && i.on.all done then
                      ((over_ (s.advance i)).acquire i).closeIssue i h.e 0 false
                    else s.sendMarkers i sc)

/-- Whether a flight writes into a record's 192 bytes: by its address, or through another mapping of the frames they lie in (R239). -/
def State.inRecord (s : State) (g : Gang) (core : Nat) (f : Flight) (gl : Bool) (a : Nat) : Bool :=
  match f.place with
  | .pad gc o => !gl && gc = g.gcOf f.wi && overlaps a 192 o f.len
  | .phys p => gl && (overlaps a 192 f.va f.len || [a, a + 64, a + 128].any fun b =>
      match s.translate core g.world g.root (b % 2 ^ 64) .load with
      | .ok pa _ => overlaps pa 64 p f.len
      | .bad _ => false)
  | .reg => false

/-- Whether an entry of a record cache holds the record of a world, space and address (R268). -/
def RecE.is (e : RecE) (world : Nat) (gl : Bool) (a : Nat) : Bool := e.gl = gl && e.world = world && e.addr = a

/-- fencerec (R239): the thread's stores to the record are performed and the core's record cache drops it, or with `.all` every
record. -/
def execFencerec (h : Hdr) (x : VOps) (gl all : Bool) (s : State) : Host.Outcome State Fault Refusal :=
  run s h fun i =>
    let n := if gl then 2 else 1
    let a := fun (th : Thread) => s.value i.g i.w th x.a n x.imm
    let src : List Fld := if all then [] else [⟨x.a, n⟩]
    let flt := fun (th : Thread) => (i.reportFlt th).or
      (if !all && a th % 64 ≠ 0 then some ({ code := fAlign, addr := a th } : Flt) else none)
    s.throughPoint i (s.gate i i.on src [] false x.imm flt) <|
      let done := fun (th : Thread) => s.writesDone i.r th.t .dev fun f => all || s.inRecord i.g i.w.core f gl (a th)
      if i.on.all done then
        let drop := fun (e : RecE) =>
          i.on.any fun th => all || e.is i.g.world gl (a th)
        let s1 := ((s.advance i).noteOver i (s.windowOver i.g i.w src x.imm)).modCore i.w.core fun c =>
          { c with recCache := c.recCache.filter fun e => !drop e }
        s1.closeIssue i h.e 0 false
      else s

end Sys2Proof.Machine
end

