-- ==== Sys2Proof/Machine/Engine.lean ====
section
/-!
DEFINITION. The copy and near-memory engines at work (spec/14 R257 to R273, spec/20 R366 to R369): what an engine reads and writes,
a command's pieces in any order, its failure and its end. Machine/Copy holds the instructions that start commands.
-/
namespace Sys2Proof.Machine

/-! ### What an engine reaches -/

/-- The context an engine works for: the core whose engine it is, the gang and the warp; the number its invalidations carry and whether its
gl writes are ga (R262). -/
structure Eng where
  core : Nat
  gid  : Nat
  wi   : Nat
  mark : Nat
  ga   : Bool

/-- Where an engine access goes: scratchpad, a physical address, a base-die buffer. -/
inductive EPlace where
  | pad (gc off : Nat)
  | phys (pa : Nat)
  | bb (k : Nat)
  deriving DecidableEq, Repr

/-- Why an engine access does not happen now: something that comes before it is on its way (R231, R355, R361), or it fails with a code of
R260. -/
inductive EngErr where
  | wait
  | fail (code : Nat)
  deriving DecidableEq, Repr

/-- Whether a bb address is well formed (R263). -/
def bbForm (a : Nat) : Bool := decide (a < 2 ^ 25) && decide (a % 2 ^ 22 < 0x300000)

/-- The owner of the grant a bb address lies in (R366): the key is the grant's number in its stack. -/
def State.grantOwner (s : State) (a : Nat) : Nat :=
  ((s.hbm.get (a / 2 ^ 22) {}).grants).get (a % 2 ^ 22 / 65536) 0

/-- A scratchpad access of an engine: F_PERM outside S or, for a write, on a live object; F_ECC on poison (R43, R243, R343). -/
def State.engPad (s : State) (g : Gang) (write : Bool) (gc off n : Nat) : Except EngErr EPlace :=
  if g.spBytes < off + n then .error (.fail fPerm)
  else if write && g.touchesObj gc off n then .error (.fail fPerm)
  else if !write && s.padBad g.gid gc off n then .error (.fail fEcc)
  else .ok (.pad gc off)

/-- Where an engine access of `n` bytes within an aligned word goes, or how it fails (R217, R260, R263, R359, R366). -/
def State.engWhere (s : State) (e : Eng) (write : Bool) (spc : CSpc) (a n : Nat) : Except EngErr EPlace :=
  match s.anyGang? e.gid with
  | none => .error (.fail 1)
  | some g =>
    match spc with
    | .sp => s.engPad g write (g.gcOf e.wi) a n
    | .gw =>
      if g.cores.length ≤ a / 2 ^ 21 then .error (.fail fPerm)
      else if a % 2 ^ 21 + n ≤ g.spBytes ∧ !s.unitFinds g then .error (.fail fGang)
      else s.engPad g write (a / 2 ^ 21) (a % 2 ^ 21) n
    | .gl =>
      match s.translate e.core g.world g.root (a % 2 ^ 64) (if write then .store else .load) with
      | .bad f => .error (.fail f.code)
      | .ok pa table =>
        if write && table then .error (.fail (fRefuse + 6))
        else if write && (s.refuseFor g.world pa).isSome then .error (.fail fRemote)
        else if !write && s.memBad pa n then .error (.fail fEcc)
        else if s.homeHeld e.core pa (!write) || s.seenHeld (dieOfCore e.core) pa n then .error .wait
        else .ok (.phys pa)
    | .bb =>
      if !bbForm a || s.grantOwner a ≠ g.world then .error (.fail fPerm)
      else if !write && s.badBb.contains (a / 4) then .error (.fail fEcc)
      else .ok (.bb a)

/-- The bytes at a place. -/
def State.placeBytes (s : State) (e : Eng) (p : EPlace) (n : Nat) : List Byte :=
  match p with
  | .pad gc o => (match s.anyGang? e.gid with | some g => g.padBytes gc o n | none => [])
  | .phys pa => s.mem.readN pa n
  | .bb k => s.bb.readN k n

/-- The translation an engine used, remembered (R219); what it has read of gl, the later readers of its die see (R231). -/
def State.engCache (s : State) (e : Eng) (spc : CSpc) (a : Nat) : State :=
  match spc, s.anyGang? e.gid with
  | .gl, some g => (s.freshenDie (dieOfCore e.core)).cacheTlb e.core g.world g.root (a % 2 ^ 64)
  | _, _ => s

/-- Bytes of gl that an engine of a die has overwritten and its plain loads may miss until they are ordered after the write (R272). -/
def State.veilGl (s : State) (die pa : Nat) (old : List Byte) : State :=
  { s with glVeils := s.glVeils ++ [{ die := die, pa := pa, old := old }] }

/-- Bytes written at a place. Plain loads of scratchpad and of gl may miss them until something orders them behind the write (R272). In gl
they are in memory at once, and invalidations leave for the other dies' copies: with ga the line serves no read until they are acknowledged
(R262, R355, R369). A word of a base-die buffer is a granule and loses its poison (R343). -/
def State.placeWrite (s : State) (e : Eng) (p : EPlace) (bs : List Byte) : State :=
  match p with
  | .pad gc o => s.padVeil e.gid gc o bs none
  | .phys pa =>
    let die := dieOfCore e.core
    let old := s.mem.readN pa bs.length
    let s := (s.memWrite pa bs).sendInvals pa die e.mark e.ga
    (if e.ga then { s with copies := s.copies.filter fun c => !(c.die = die && c.line = lineOf pa) } else s.freshen pa die).veilGl die pa old
  | .bb k =>
    let clean := wordsCovered k bs.length
    { s with bb := s.bb.writeN k bs, badBb := s.badBb.filter fun w => !clean.contains w }

/-- The aligned word an engine reads: at the home slice in gl (R230, R354). -/
def State.engRead (s : State) (e : Eng) (spc : CSpc) (a : Nat) : Except EngErr Nat := do
  let p ← s.engWhere e false spc a 4
  return leNat (s.placeBytes e p 4)

/-- Bytes of one aligned word written by an engine. -/
def State.engWrite (s : State) (e : Eng) (spc : CSpc) (a : Nat) (bs : List Byte) : Except EngErr State := do
  let p ← s.engWhere e true spc a bs.length
  return (s.engCache e spc a).placeWrite e p bs

/-- Some bits of an aligned word written by an engine, as one access (R230). -/
def State.engMask (s : State) (e : Eng) (spc : CSpc) (a v mask : Nat) : Except EngErr State :=
  if mask = 0xFFFFFFFF then s.engWrite e spc a (leBytes 4 v)
  else do
    let p ← s.engWhere e true spc a 4
    let old := leNat (s.placeBytes e p 4)
    let new := (old &&& (mask ^^^ 0xFFFFFFFF)) ||| (v &&& mask)
    let touched := (List.range 4).filter fun k => bitsN mask (8 * k) 8 ≠ 0
    let one := fun (s : State) (k : Nat) =>
      s.placeWrite e (match p with | .pad gc o => .pad gc (o + k) | .phys pa => .phys (pa + k) | .bb b => .bb (b + k))
        [BitVec.ofNat 8 (bitsN new (8 * k) 8)]
    return touched.foldl one (s.engCache e spc a)

/-- What an engine has read: the aligned word of a space at an address. -/
abbrev Reads := CSpc → Nat → Nat

/-- Bytes from the words that hold them. -/
def Reads.bytes (rd : Reads) (spc : CSpc) (a n : Nat) : Nat :=
  wordsNat ((List.range ((a % 4 + n + 3) / 4)).map fun k => BitVec.ofNat 32 (rd spc (a / 4 * 4 + 4 * k))) / 2 ^ (8 * (a % 4)) % 2 ^ (8 * n)

/-- The aligned words of a range. -/
def rangeWords (spc : CSpc) (a n : Nat) : List (CSpc × Nat) := (wordsIn a n).map fun w => (spc, 4 * w)

/-! ### Tensors (R267 to R270) -/

/-- A tensor shape record, read. -/
structure Tensor where
  base : Nat
  eb   : Nat
  bb   : Bool
  swz  : Nat
  cvt  : Bool
  n    : Nat
  mf   : Nat
  lf   : Nat
  ext  : List Nat
  str  : List Nat
  box  : List Nat
  fill : Nat
  lp   : Nat

/-- Field of a record. -/
def recField (r : List Byte) (o n : Nat) : Nat := leNat ((r.drop o).take n)

/-- The fields of a record (R267). -/
def tensorOf (r : List Byte) : Tensor :=
  let conv := recField r 12 1
  { base := recField r 0 8, eb := 4 * 2 ^ min 4 (recField r 8 1), bb := recField r 10 1 % 2 = 1, swz := recField r 11 1,
    cvt := bitN conv 7, n := (match conv % 4 with | 1 => 16 | 2 => 32 | _ => 0),
    mf := recField r 13 1, lf := recField r 14 1,
    ext := (List.range 6).map fun k => recField r (16 + 4 * k) 4,
    str := (List.range 6).map fun k => recField r (40 + 8 * k) 8,
    box := (List.range 6).map fun k => recField r (88 + 4 * k) 4,
    fill := recField r 112 4, lp := recField r 116 4 }

/-- Bits of a local element. -/
def Tensor.lb (t : Tensor) : Nat := if t.cvt then (if t.lf = 0 then 32 else 16) else t.eb
/-- Elements in a box row. -/
def Tensor.box0 (t : Tensor) : Nat := nth t.box 0 1
/-- Local bytes of a box row. -/
def Tensor.rowBytes (t : Tensor) : Nat := t.box0 * t.lb / 8
/-- Local bytes from one row to the next (R269). -/
def Tensor.pitch (t : Tensor) : Nat := if t.lp = 0 then t.rowBytes else t.lp
/-- Rows of the box. -/
def Tensor.rows (t : Tensor) : Nat := (t.box.drop 1).foldl (· * ·) 1
/-- The bytes a command on the record counts (R269). -/
def Tensor.total (t : Tensor) : Nat := t.rows * t.rowBytes

/-- The byte offset of the first field of a record that is not valid (R267, R268). Which field a condition over several fields
offends is the model's choice: ESIZE against MFMT at 13, HORD against BOX0 and the row's bytes at 88, rows times pitch at 116 (DESIGN
CHOICE, log entry 118). -/
def recordFault (r : List Byte) (ga : Bool) : Option Nat :=
  let t := tensorOf r
  let esz := recField r 8 1
  let rank := recField r 9 1
  let tsp := recField r 10 1
  let conv := recField r 12 1
  let dims := List.range 6
  let checks : List (Bool × Nat) :=
    [ (decide (8 * t.base % t.eb = 0), 0), (decide (esz ≤ 4), 8), (1 ≤ rank && rank ≤ 6, 9),
      (tsp ≤ 1 && !(tsp = 1 && (ga || !bbForm t.base)), 10), (decide (t.swz ≤ 3), 11),
      (bitsN conv 2 5 = 0 && conv % 4 ≠ 3 && (t.cvt || conv % 4 = 0), 12),
      (!t.cvt || (decide (t.mf ≤ 2) && decide (esz = (if t.mf = 0 then 3 else 2))), 13),
      (!t.cvt || decide (t.lf ≤ 2), 14), (decide (recField r 15 1 = 0), 15) ] ++
    dims.map (fun k => (1 ≤ nth t.ext k 0 && nth t.ext k 0 < 2 ^ 31 && (k < rank || nth t.ext k 0 = 1), 16 + 4 * k)) ++
    dims.map (fun k => (8 * nth t.str k 0 % t.eb = 0 && (1 ≤ k && k < rank || nth t.str k 0 = 0), 40 + 8 * k)) ++
    dims.map (fun k => (1 ≤ nth t.box k 0 && nth t.box k 0 ≤ 65535 && (k < rank || nth t.box k 0 = 1) &&
      (k ≠ 0 || (t.box0 * t.lb % 32 = 0 && t.box0 * t.eb % 32 = 0 && (t.n = 0 || t.box0 % t.n = 0))), 88 + 4 * k)) ++
    [ (t.lp % 16 = 0 && (t.lp = 0 || t.rowBytes ≤ t.lp) && t.rows * t.pitch ≤ 2 ^ 20, 116) ] ++
    (List.range 72).map fun k => (decide (nth r (120 + k) 0 = 0), 120 + k)
  (checks.find? fun c => !c.1).map (·.2)

/-- The signed coordinates of a 128-bit group (R266). -/
def coordsOf (v : Nat) : List Int :=
  [signedN 32 (bitsN v 0 32), signedN 32 (bitsN v 32 32)] ++ (List.range 4).map fun k => signedN 16 (bitsN v (64 + 16 * k) 16)

/-- The coordinates above dimension 0 of a box row (R269). -/
def rowCoords (box : List Nat) (c : List Int) (row : Nat) : List Int :=
  match box, c with
  | b :: bs, x :: xs => (x + (row % b : Nat)) :: rowCoords bs xs (row / b)
  | _, _ => []

/-- Whether a row lies in the tensor above dimension 0. -/
def Tensor.rowIn (t : Tensor) (c : List Int) (row : Nat) : Bool :=
  ((rowCoords (t.box.drop 1) (c.drop 1) row).zip (t.ext.drop 1)).all fun p => decide (0 ≤ p.1) && decide (p.1 < p.2)

/-- Whether element `i` of a row is in bounds. -/
def Tensor.elIn (t : Tensor) (c : List Int) (row i : Nat) : Bool :=
  let x := nth c 0 0 + i
  t.rowIn c row && decide (0 ≤ x) && decide (x < nth t.ext 0 0)

/-- The bit address of the element of a row whose coordinate c0 is 0 (R269), modulo 2^67. -/
def Tensor.rowBit (t : Tensor) (c : List Int) (row : Nat) : Nat :=
  let off := ((rowCoords (t.box.drop 1) (c.drop 1) row).zip (t.str.drop 1)).foldl (fun (n : Int) (p : Int × Nat) => n + p.1 * p.2) 0
  8 * wrapN 64 (t.base + off)

/-- The space of a record's tensor. -/
def Tensor.spc (t : Tensor) : CSpc := if t.bb then .bb else .gl

/-- The bit at which an element lies in memory. -/
def Tensor.memBit (t : Tensor) (c : List Int) (row i : Nat) : Nat := t.rowBit c row + (nth c 0 0 + i).toNat * t.eb

/-- The memory pattern of an element in bounds. -/
def Tensor.memElem (t : Tensor) (rd : Reads) (c : List Int) (row i : Nat) : Nat :=
  let bit := t.memBit c row i
  rd.bytes t.spc (bit / 8) ((t.eb + 7) / 8) / 2 ^ (bit % 8) % 2 ^ t.eb

/-- The local address of byte `b` of a row (R269). -/
def Tensor.localAt (t : Tensor) (loc row b : Nat) : Nat :=
  let o := row * t.pitch + b
  loc + (o ^^^ (bitsN o 7 t.swz * 16))

/-- The space of a command's local box. -/
def localSpc (gw : Bool) : CSpc := if gw then .gw else .sp

/-- The local pattern of an element. -/
def Tensor.localElem (t : Tensor) (rd : Reads) (gw : Bool) (loc row i : Nat) : Nat :=
  let bit := i * t.lb
  rd.bytes (localSpc gw) (t.localAt loc row (bit / 8)) ((t.lb + 7) / 8) / 2 ^ (bit % 8) % 2 ^ t.lb

/-- The format a record's code names (R267). -/
def tensorFmt (k : Nat) : Fmt :=
  match k with
  | 0 => fp32
  | 1 => bf16
  | _ => fp16

/-- The elements that the value of an element is made from: its whole block where the record rotates (R270). -/
def Tensor.group (t : Tensor) (i : Nat) : List Nat := if t.n = 0 then [i] else (List.range t.n).map fun k => i / t.n * t.n + k

/-- The local value of an element on a load (R269, R270). -/
def Tensor.loadElem (t : Tensor) (rd : Reads) (c : List Int) (row i : Nat) : Nat :=
  let mem := fun (k : Nat) => if t.elIn c row k then t.memElem rd c row k else t.fill % 2 ^ t.eb
  if !t.cvt then mem i
  else if t.n = 0 then
    (if t.elIn c row i then (tensorFmt t.lf).round .rne ((tensorFmt t.mf).decode (mem i)) else t.fill % 2 ^ t.lb)
  else (tensorFmt t.lf).round .rne (nth (hadamard ((t.group i).map fun k => (tensorFmt t.mf).decode (mem k))) (i % t.n) (.num 0 0))

/-- The memory value of an element on a store (R270). -/
def Tensor.storeElem (t : Tensor) (rd : Reads) (gw : Bool) (loc row i : Nat) : Nat :=
  if !t.cvt then t.localElem rd gw loc row i
  else if t.n = 0 then (tensorFmt t.mf).round .rne ((tensorFmt t.lf).decode (t.localElem rd gw loc row i))
  else
    let x := nth (hadamard ((t.group i).map fun k => (tensorFmt t.lf).decode (t.localElem rd gw loc row k))) (i % t.n) (.num 0 0)
    (tensorFmt t.mf).round .rne (x.scale (if t.n = 16 then -4 else -5))

/-- The row and byte of local word `p` of a load. -/
def Tensor.wordAt (t : Tensor) (p : Nat) : Nat × Nat := (p / (t.rowBytes / 4), p % (t.rowBytes / 4) * 4)

/-- The elements that lie in local word `p` of a load. -/
def Tensor.elsAt (t : Tensor) (p : Nat) : List Nat :=
  (List.range (max 1 (32 / t.lb))).map fun j => 8 * (t.wordAt p).2 / t.lb + j

/-- One local word of a load. -/
def Tensor.loadWord (t : Tensor) (rd : Reads) (c : List Int) (p : Nat) : Nat :=
  let (row, b) := t.wordAt p
  let x := fun (i : Nat) => t.loadElem rd c row i
  if t.lb = 64 then x (b / 8) / 2 ^ (8 * (b % 8)) % 2 ^ 32 else packEls t.lb (32 / t.lb) fun j => x (8 * b / t.lb + j)

/-- The memory words that local word `p` of a load is made from. -/
def Tensor.loadNeeds (t : Tensor) (c : List Int) (p : Nat) : List (CSpc × Nat) :=
  let row := (t.wordAt p).1
  (((t.elsAt p).flatMap t.group).filter (t.elIn c row)).eraseDups.flatMap fun i =>
    rangeWords t.spc (t.memBit c row i / 8) ((t.eb + 7) / 8)

/-- The memory words a store writes: the row and the word's number (R269). -/
def Tensor.storeWords (t : Tensor) (c : List Int) : List (Nat × Nat) :=
  (List.range t.rows).flatMap fun row =>
    let lo := max 0 (nth c 0 0)
    let hi : Int := min (nth c 0 0 + t.box0) (nth t.ext 0 0 : Nat)
    if t.rowIn c row && decide (lo < hi) then
      let a := (t.rowBit c row + lo.toNat * t.eb) / 32
      let b := (t.rowBit c row + hi.toNat * t.eb + 31) / 32
      (List.range (b - a)).map fun k => (row, a + k)
    else []

/-- The element and the bit of it that part `j` of a memory word holds, where a store writes it. -/
def Tensor.partAt (t : Tensor) (c : List Int) (w : Nat × Nat) (j : Nat) : Option (Nat × Nat) :=
  let bit : Int := (32 * w.2 + min 32 t.eb * j : Nat) - (t.rowBit c w.1 : Int)
  let i := bit / t.eb - nth c 0 0
  if decide (0 ≤ bit) && decide (0 ≤ i) && decide (i < t.box0) && t.elIn c w.1 i.toNat then some (i.toNat, (bit % t.eb).toNat) else none

/-- The bits of a memory word that a store writes. -/
def Tensor.maskAt (t : Tensor) (c : List Int) (w : Nat × Nat) : Nat :=
  let u := min 32 t.eb
  packEls u (32 / u) fun j => if (t.partAt c w j).isSome then 2 ^ u - 1 else 0

/-- One memory word of a store. -/
def Tensor.storeWord (t : Tensor) (rd : Reads) (c : List Int) (gw : Bool) (loc : Nat) (w : Nat × Nat) : Nat :=
  let u := min 32 t.eb
  packEls u (32 / u) fun j =>
    match t.partAt c w j with
    | none => 0
    | some (i, off) => t.storeElem rd gw loc w.1 i / 2 ^ off % 2 ^ u

/-- The local words that a memory word of a store is made from. -/
def Tensor.storeNeeds (t : Tensor) (c : List Int) (gw : Bool) (loc : Nat) (w : Nat × Nat) : List (CSpc × Nat) :=
  let parts := (List.range (32 / min 32 t.eb)).filterMap fun j => (t.partAt c w j).map (·.1)
  (parts.flatMap t.group).eraseDups.flatMap fun i =>
    rangeWords (localSpc gw) (t.localAt loc w.1 (i * t.lb / 8)) ((t.lb + 7) / 8)

/-! ### Gathers (R265) -/

/-- The layout fault of a list entry. -/
def badEntry (ssp : CSpc) (v : Nat) : Bool :=
  bitsN v 64 32 % 4 ≠ 0 || bitsN v 96 32 ≠ 0 || ((ssp = .sp || ssp = .gw) && bitsN v 32 32 ≠ 0)

/-- The source address of word `k` of the pieces. -/
def pieceSrc (ps : List (Nat × Nat)) (k : Nat) : Nat :=
  match ps with
  | [] => 0
  | p :: r => if k < p.2 / 4 then p.1 + 4 * k else pieceSrc r (k - p.2 / 4)

/-! ### Near-memory commands (R367 to R369) -/

/-- Whether all eight tags of a port of a stack are in use: its requester stalls (R371). -/
def State.portFull (s : State) (stack port : Nat) : Bool :=
  (List.range 8).all fun t => (s.hbm.get stack {}).reqs.any fun r => r.port = port && r.tag = t

/-- A near-memory access: it must lie in the engine's own stack, and it is held while its channel is quiesced or port E has no free tag
(R346, R367, R370, R371). -/
def State.nearIn (s : State) (e : Eng) (stack : Nat) (write : Bool) (spc : CSpc) (a n : Nat) : Except EngErr Unit := do
  let p ← s.engWhere e write spc a n
  match p with
  | .phys pa =>
    if frameOf pa < 0x800000 && frameOf pa / 0x100000 = stack then
      if s.quiesced.contains (Config.dramChannel (lineOf pa)) || s.portFull stack 1 then .error .wait else .ok ()
    else .error (.fail fPerm)
  | .bb k => if k / 2 ^ 22 = stack then .ok () else .error (.fail fPerm)
  | .pad _ _ => .error (.fail fPerm)

/-- The space a code names. -/
def nearSpc (k : Nat) : CSpc := if k = 3 then .bb else .gl

/-- A near-memory descriptor, read (R367). -/
structure Near where
  dst   : Nat
  src   : Nat
  aux   : Nat
  count : Nat
  stack : Nat
  dsp   : CSpc
  ssp   : CSpc
  asp   : CSpc

/-- The fields of a descriptor. -/
def nearOf (d : List Byte) : Near :=
  let sp := recField d 29 1
  { dst := recField d 0 8, src := recField d 8 8, aux := recField d 16 8, count := recField d 24 4, stack := recField d 28 1,
    dsp := nearSpc (sp % 4), ssp := nearSpc (bitsN sp 2 2), asp := nearSpc (bitsN sp 4 2) }

/-- Byte `b` of a run of elements packed under R114. -/
def packByte (bits : Nat) (v : Nat → Nat) (b : Nat) : Byte :=
  if 8 ≤ bits then nth (leBytes (bits / 8) (v (b / (bits / 8)))) (b % (bits / 8)) 0
  else BitVec.ofNat 8 (v (2 * b) % 16 + 16 * (v (2 * b + 1) % 16))

/-- The new value of an nred element (R368). -/
def nredEl (t : Ty) (op : NOp) (x y : Nat) : Nat :=
  match op with
  | .add => if t.isInt then wrapN (elBits t) ((x : Int) + y) else (fmtOf t).addN .rne x y
  | .min => if t.isInt then (if numOf t y < numOf t x then y else x) else (fmtOf t).minMax false x y
  | .max => if t.isInt then (if numOf t x < numOf t y then y else x) else (fmtOf t).minMax true x y

/-- The block of ncvt (R368): 32 without a rotation. -/
def nearBlock (o : NOrd) : Nat :=
  match o with
  | .n16 => 16
  | _ => 32

/-- Whether ncvt to a type makes block scales. -/
def nearScales (t : Ty) : Bool := decide (elBits t < 16)

/-- Bytes of an element of nget, and of a side of nred or ncvt. -/
def nearLen (t : Ty) (count : Nat) : Nat := elBits t * count / 8

/-- The bytes a near-memory command writes to DST and to AUX (R368). -/
def nearSides (k : CmdKind) : Nat × Nat :=
  match k with
  | .nget t d => (4 * t.words * (nearOf d).count, 0)
  | .nred t _ d => (nearLen t (nearOf d).count, 0)
  | .ncvt t o _ d => (nearLen t (nearOf d).count, if nearScales t then 4 * ((nearOf d).count / nearBlock o) else 0)
  | _ => (0, 0)

/-- What a near-memory command reads before it writes (R368): the list of nget, and the sources that its words name once they are read, and
the source of nred. ncvt, of which R368 does not say so, reads with its writes, in any order (R272, R369). -/
def nearFirst (k : CmdKind) (got : CSpc → Nat → Option Word) : List (CSpc × Nat) :=
  match k with
  | .nget t d =>
    let n := nearOf d
    rangeWords n.asp n.aux (4 * n.count) ++ (List.range n.count).flatMap fun i =>
      match got n.asp (n.aux + 4 * i) with
      | some j => rangeWords n.ssp (n.src + 4 * t.words * j.toNat) (4 * t.words)
      | none => []
  | .nred t _ d => let n := nearOf d; rangeWords n.ssp n.src (nearLen t n.count)
  | _ => []

/-- Whether an address of a near-memory command is not aligned to its elements (R367). -/
def nearSkew (k : CmdKind) : Bool :=
  match k with
  | .nget t d => let n := nearOf d; let w := 4 * t.words; n.dst % w ≠ 0 || n.src % w ≠ 0 || n.aux % 4 ≠ 0
  | .nred t _ d => let n := nearOf d; let w := elBits t / 8; n.dst % w ≠ 0 || n.src % w ≠ 0
  | .ncvt t _ src d =>
    let n := nearOf d
    n.dst % max 1 (elBits t / 8) ≠ 0 || n.src % (elBits src / 8) ≠ 0 || (nearScales t && n.aux % 4 ≠ 0)
  | _ => false

/-- Element `i` of the source of an ncvt. -/
def ncvtSrc (rd : Reads) (src : Ty) (n : Near) (i : Nat) : Exact :=
  (fmtOf src).decode (rd.bytes n.ssp (n.src + elBits src / 8 * i) (elBits src / 8))

/-- A block of ncvt as it is quantised: rotated, if ORD asks for it (R120, R368). -/
def ncvtBlock (rd : Reads) (o : NOrd) (src : Ty) (n : Near) (j : Nat) : List Exact :=
  let x := (List.range (nearBlock o)).map fun i => ncvtSrc rd src n (nearBlock o * j + i)
  if o = .none then x else hadamard x

/-- The scale of a block in register form (R123). -/
def ncvtScale (rd : Reads) (t : Ty) (o : NOrd) (src : Ty) (n : Near) (j : Nat) : Nat :=
  blockScale (fmtOf t) (ncvtBlock rd o src n j) * 256

/-- Element `i` of what a near-memory command writes to DST (R368). -/
def nearElem (rd : Reads) (k : CmdKind) (i : Nat) : Nat :=
  match k with
  | .nget t d =>
    let n := nearOf d
    rd.bytes n.ssp (n.src + 4 * t.words * rd.bytes n.asp (n.aux + 4 * i) 4) (4 * t.words)
  | .nred t op d =>
    let n := nearOf d
    let w := elBits t / 8
    nredEl t op (rd.bytes n.dsp (n.dst + w * i) w) (rd.bytes n.ssp (n.src + w * i) w)
  | .ncvt t o src d =>
    let n := nearOf d
    if !nearScales t then (fmtOf t).round .rne (ncvtSrc rd src n i)
    else
      let j := i / nearBlock o
      quantCode (fmtOf t) (nth (ncvtBlock rd o src n j) (i % nearBlock o) (.num 0 0)) (regVal .s24 (ncvtScale rd t o src n j))
  | _ => 0

/-- Bits of an element of what a near-memory command writes to DST. -/
def nearWidth (k : CmdKind) : Nat :=
  match k with
  | .nget t _ => 32 * t.words
  | .nred t _ _ => elBits t
  | .ncvt t _ _ _ => elBits t
  | _ => 8

/-- The number of words that a range of bytes touches, and the bytes of it in word `k`: where they start and how many they are. -/
def cutCount (a n : Nat) : Nat := if n = 0 then 0 else (a % 4 + n + 3) / 4

/-- Part `k` of a range cut at word boundaries: its address and length. -/
def cutAt (a n k : Nat) : Nat × Nat :=
  let lo := max a (a / 4 * 4 + 4 * k)
  (lo, min (a + n) (a / 4 * 4 + 4 * k + 4) - lo)

/-- Where piece `p` of a near-memory command writes: in AUX or in DST, the address and the length. -/
def nearPiece (k : CmdKind) (d : List Byte) (p : Nat) : Bool × Nat × Nat :=
  let n := nearOf d
  let m := cutCount n.dst (nearSides k).1
  if p < m then (false, cutAt n.dst (nearSides k).1 p) else (true, cutAt n.aux (nearSides k).2 (p - m))

/-- The number of pieces of a near-memory command. -/
def nearCount (k : CmdKind) (d : List Byte) : Nat := cutCount (nearOf d).dst (nearSides k).1 + cutCount (nearOf d).aux (nearSides k).2

/-- The bytes piece `p` of a near-memory command writes (R368). -/
def nearBytes (rd : Reads) (k : CmdKind) (d : List Byte) (p : Nat) : List Byte :=
  let (aux, a, len) := nearPiece k d p
  let n := nearOf d
  (List.range len).map fun b =>
    if aux then
      match k with
      | .ncvt t o src _ => packByte 32 (ncvtScale rd t o src n) (a - n.aux + b)
      | _ => 0
    else packByte (nearWidth k) (nearElem rd k) (a - n.dst + b)

/-- The words that piece `p` of a near-memory command is made from and that it has not read before: the words of DST of nred, and of ncvt the
source of the elements, or of the blocks, that it writes. -/
def nearNeeds (k : CmdKind) (d : List Byte) (p : Nat) : List (CSpc × Nat) :=
  let (aux, a, len) := nearPiece k d p
  let n := nearOf d
  match k with
  | .nred _ _ _ => rangeWords n.dsp a len
  | .ncvt t o src _ =>
    let w := elBits src / 8
    let els := fun (lo hi : Nat) => rangeWords n.ssp (n.src + w * lo) (w * (hi - lo))
    let b := nearBlock o
    if aux then els (b * ((a - n.aux) / 4)) (b * ((a - n.aux + len - 1) / 4 + 1))
    else
      let lo := 8 * (a - n.dst) / elBits t
      let hi := (8 * (a - n.dst + len) - 1) / elBits t + 1
      if nearScales t then els (lo / b * b) ((hi - 1) / b * b + b) else els lo hi
  | _ => []

/-! ### A command's pieces -/

/-- The number a command's invalidations carry, beyond those of flights. -/
def Cmd.mark (core : Nat) (k : Cmd) : Nat := 2 ^ 70 + core * 2 ^ 32 + k.seq.toNat

/-- The context of a command. -/
def Cmd.eng (core : Nat) (k : Cmd) : Eng := { core := core, gid := k.gid, wi := k.wi, mark := k.mark core, ga := k.ga }

/-- The key of a word that a command has read. -/
def wordKey (spc : CSpc) (a : Nat) : Nat :=
  a / 4 * 4 + (match spc with | .sp => 0 | .gw => 1 | .gl => 2 | .bb => 3)

/-- A word a command has read, if it has. -/
def Cmd.got (k : Cmd) (spc : CSpc) (a : Nat) : Option Word := k.buf.get? (wordKey spc a)

/-- What a command has read. -/
def Cmd.reads (k : Cmd) : Reads := fun spc a => match k.got spc a with | some w => w.toNat | none => 0

/-- The descriptor and the stack of a near-memory command (R367). -/
def CmdKind.near? (k : CmdKind) : Option (List Byte) :=
  match k with
  | .nget _ d => some d
  | .nred _ _ d => some d
  | .ncvt _ _ _ d => some d
  | _ => none

/-- Whether a write of a command is not yet visible in every die (R272, R355). -/
def State.landing (s : State) (core : Nat) (k : Cmd) : Bool := s.invals.any fun v => v.store = k.mark core

/-- The number of pieces of a command. -/
def CmdKind.count (k : CmdKind) : Nat :=
  match k with
  | .copy _ _ len => len / 4
  | .pieces ps _ _ => (ps.map fun p => p.2 / 4).foldl (· + ·) 0
  | .tensor store r _ _ c => if store then ((tensorOf r).storeWords c).length else (tensorOf r).total / 4
  | .send _ _ len => len / 4
  | .gather .. => 0
  | .nget _ d => nearCount k d
  | .nred _ _ d => nearCount k d
  | .ncvt _ _ _ d => nearCount k d

/-- The aligned words a piece of a command is made from (R230, R264 to R271, R368). -/
def CmdKind.needs (k : CmdKind) (p : Nat) : List (CSpc × Nat) :=
  match k with
  | .copy src _ _ => [(src.spc, src.a + 4 * p)]
  | .pieces ps ssp _ => [(ssp, pieceSrc ps p)]
  | .send _ src _ => [(src.spc, src.a + 4 * p)]
  | .tensor store r gw loc c =>
    let t := tensorOf r
    if store then (match (t.storeWords c)[p]? with | some w => t.storeNeeds c gw loc w | none => []) else t.loadNeeds c p
  | .gather .. => []
  | .nget _ d => nearNeeds k d p
  | .nred _ _ d => nearNeeds k d p
  | .ncvt _ _ _ d => nearNeeds k d p

/-- Where a piece of a command writes, and how many bytes; nothing for a send. -/
def CmdKind.into (k : CmdKind) (p : Nat) : Option (CSpc × Nat × Nat) :=
  let near := fun (d : List Byte) => let (aux, a, n) := nearPiece k d p; some (if aux then (nearOf d).asp else (nearOf d).dsp, a, n)
  match k with
  | .copy _ dst _ => some (dst.spc, dst.a + 4 * p, 4)
  | .pieces _ _ dst => some (dst.spc, dst.a + 4 * p, 4)
  | .tensor store r gw loc c =>
    let t := tensorOf r
    if store then (t.storeWords c)[p]?.map fun w => (t.spc, 4 * w.2, 4)
    else let (row, b) := t.wordAt p; some (localSpc gw, t.localAt loc row b, 4)
  | .nget _ d => near d
  | .nred _ _ d => near d
  | .ncvt _ _ _ d => near d
  | _ => none

/-- The bytes counted with a piece: those of a tensor store are counted at its end. -/
def CmdKind.bytes (k : CmdKind) (p : Nat) : Nat :=
  match k with
  | .tensor true .. => 0
  | .send .. => 4
  | k => match k.into p with | some w => w.2.2 | none => 0

/-- Whether a command keeps the words it has read for its other pieces: a send its payload, a rotated tensor and a near-memory command the
blocks and sources that several pieces share. -/
def CmdKind.holds (k : CmdKind) : Bool :=
  match k with
  | .send .. => true
  | .tensor _ r _ _ _ => decide ((tensorOf r).n ≠ 0)
  | k => k.near?.isSome

/-- The send queue of a world. -/
def State.sendQ? (s : State) (world q : Nat) : Option NetQueue := s.sendQs.find? fun n => n.world = world && n.q = q && n.opened

/-- A word of a command's sources, as it reads now: of a near-memory command one in its own stack (R367). -/
def State.cmdWord (s : State) (core : Nat) (k : Cmd) (spc : CSpc) (a : Nat) : Except EngErr Nat := do
  match k.kind.near? with
  | some d => let _ ← s.nearIn (k.eng core) (nearOf d).stack false spc a 4
  | none => pure ()
  s.engRead (k.eng core) spc a

/-- A command reads a word, unless it has; its translation is remembered (R219), and what it has read the later readers of its die see
(R231). -/
def State.readWord (core : Nat) (x : State × Cmd) (w : CSpc × Nat) : Except EngErr (State × Cmd) :=
  let (s, k) := x
  match k.got w.1 w.2 with
  | some _ => .ok x
  | none => do
    let v ← s.cmdWord core k w.1 w.2
    return (s.engCache (k.eng core) w.1 w.2, { k with buf := k.buf.put (wordKey w.1 w.2) (BitVec.ofNat 32 v) })

/-- A command reads words, each unless it has. -/
def State.readWords (core : Nat) (x : State × Cmd) (ws : List (CSpc × Nat)) : Except EngErr (State × Cmd) :=
  ws.foldlM (State.readWord core) x

/-- How a piece of a command fails before it reads: a source that is not aligned (R265), a queue that is not open (R271). -/
def State.pieceFault (s : State) (gid : Nat) (k : CmdKind) (p : Nat) : Option Nat :=
  match k with
  | .copy src _ _ => if src.a % 4 ≠ 0 then some fAlign else none
  | .pieces ps _ _ => if pieceSrc ps p % 4 ≠ 0 then some fAlign else none
  | .send q _ _ => if ((s.anyGang? gid).bind fun g => s.sendQ? g.world q).isNone then some 2 else none
  | _ => none

/-- The word a piece of a command is made of by what the command has read; of a near-memory command its bytes. -/
def CmdKind.value (k : CmdKind) (rd : Reads) (p : Nat) : Nat :=
  match k with
  | .copy src _ _ => rd src.spc (src.a + 4 * p)
  | .pieces ps ssp _ => rd ssp (pieceSrc ps p)
  | .send _ src _ => rd src.spc (src.a + 4 * p)
  | .tensor store r gw loc c =>
    let t := tensorOf r
    if store then (match (t.storeWords c)[p]? with | some w => t.storeWord rd c gw loc w | none => 0) else t.loadWord rd c p
  | .gather .. => 0
  | .nget _ d => leNat (nearBytes rd k d p)
  | .nred _ _ d => leNat (nearBytes rd k d p)
  | .ncvt _ _ _ d => leNat (nearBytes rd k d p)

/-- The bits of the word that piece `p` of a tensor store writes; all of it for every other piece. -/
def CmdKind.mask (k : CmdKind) (p : Nat) : Nat :=
  match k with
  | .tensor true r _ _ c => (match ((tensorOf r).storeWords c)[p]? with | some w => (tensorOf r).maskAt c w | none => 0)
  | _ => 0xFFFFFFFF

/-- What one piece writes. -/
def State.pieceWrite (s : State) (e : Eng) (k : CmdKind) (p v : Nat) : Except EngErr State :=
  match k.into p with
  | none => .ok s
  | some (spc, a, n) => do
    match k.near? with
    | some d => let _ ← s.nearIn e (nearOf d).stack true spc a n
    | none => pure ()
    if n = 4 && k.mask p ≠ 0xFFFFFFFF then s.engMask e spc a v (k.mask p) else s.engWrite e spc a (leBytes n v)

/-- The aligned word that piece `p` of a command writes whole. -/
def CmdKind.wholeAt (k : CmdKind) (p : Nat) : Option (CSpc × Nat) :=
  match k.into p with
  | some (spc, a, n) => if n = 4 ∧ a % 4 = 0 ∧ k.mask p = 0xFFFFFFFF then some (spc, a) else none
  | none => none

/-- A 64-bit granule of gl that a command has by now written whole, in two pieces, loses its poison; a narrower write leaves it (R343). -/
def State.cleanGranule (s : State) (e : Eng) (k : CmdKind) (done : List Nat) (p : Nat) : State :=
  if s.badMem = [] then s
  else match k.wholeAt p with
    | some (.gl, a) =>
      if !done.any fun q => k.wholeAt q = some (.gl, a ^^^ 4) then s
      else match s.engWhere e true .gl a 4 with
        | .ok (.phys pa) => { s with badMem := s.badMem.filter fun w => w / 2 ≠ pa / 8 }
        | _ => s
    | _ => s

/-- What a command reads before any of its pieces moves: a gather its list (R265), a near-memory command what R368 says. -/
def Cmd.first (k : Cmd) : List (CSpc × Nat) :=
  match k.kind with
  | .gather list n _ _ => (List.range (4 * n)).map fun i => (.sp, list + 4 * i)
  | kind => nearFirst kind k.got

/-- A gather whose list has been read is checked: it becomes its pieces, or it fails and marks the first bad entry (R265). -/
def State.startGather (s : State) (core : Nat) (k : Cmd) (list n : Nat) (ssp : CSpc) (dst : EAddr) : State × Cmd :=
  let es := (List.range n).map fun i => k.reads.bytes .sp (list + 16 * i) 16
  let total := (es.map fun v => bitsN v 66 30 * 4).foldl (· + ·) 0
  match (List.range n).find? fun i => badEntry ssp (nth es i 0) with
  | some i =>
    let s := match s.engWrite (k.eng core) .sp (list + 16 * i + 12) (leBytes 4 0xFFFFFFFF) with | .ok s => s | .error _ => s
    (s, { k with total := total, status := some fAlign })
  | none =>
    if 2 ^ 31 ≤ total then (s, { k with total := total, status := some fAlign })
    else (s, { k with total := total, buf := [], kind := .pieces (es.map fun v => (bitsN v 0 64, bitsN v 64 32)) ssp dst })

/-- Whether a command still reads before its first piece. -/
def Cmd.unread (k : Cmd) : Bool :=
  match k.kind with
  | .gather .. => true
  | kind => kind.near?.isSome && !k.ready

/-- What a command reads first is read and checked: the list of a gather or of an nget, and then what the list names (R265, R368). -/
def State.prepare (s : State) (core : Nat) (k : Cmd) : State × Cmd :=
  if !k.unread then (s, k)
  else if nearSkew k.kind then (s, { k with status := some fAlign })
  else match (do let x ← State.readWords core (s, k) k.first; State.readWords core x x.2.first) with
    | .error .wait => (s, k)
    | .error (.fail c) => (s, { k with status := some c })
    | .ok (s, k) =>
      match k.kind with
      | .gather list n ssp dst => s.startGather core k list n ssp dst
      | _ => (s, { k with ready := true })

/-- Bytes of a counted command that every agent sees by now are counted (R252). -/
def State.countDue (s : State) (core : Nat) (k : Cmd) : State × Cmd :=
  match k.cnt with
  | some (_, r) =>
    if k.due = 0 || s.landing core k then (s, k)
    else (s.countBytes k.gid r k.due, { k with counted := k.counted + k.due, due := 0 })
  | none => (s, k)

/-- One piece of a command moved, and counted once it is visible, or its failure met (R252, R260); what it is made of may have been read
before. A command abandoned or failed moves nothing. -/
def State.doPiece (core : Nat) (x : State × Cmd) (p : Nat) : State × Cmd :=
  let (s, k) := x
  if k.killed || k.status.isSome || k.unread || k.donePcs.contains p || k.kind.count ≤ p then x
  else match s.pieceFault k.gid k.kind p with
  | some c => (s, { k with status := some c })
  | none =>
    match State.readWords core x (k.kind.needs p) with
    | .error .wait => x
    | .error (.fail c) => (s, { k with status := some c })
    | .ok (s1, k1) =>
      match s1.pieceWrite (k1.eng core) k1.kind p (k1.kind.value k1.reads p) with
      | .error .wait => x
      | .error (.fail c) => (s, { k with status := some c })
      | .ok s1 =>
        let s2 := s1.cleanGranule (k1.eng core) k1.kind k1.donePcs p
        let keep := if k1.kind.holds then k1.buf else (k1.kind.needs p).foldl (fun b w => b.del (wordKey w.1 w.2)) k1.buf
        let k := { k1 with donePcs := p :: k1.donePcs, buf := keep, sent := s.now core }
        match k.cnt with
        | some _ => s2.countDue core { k with due := k.due + k.kind.bytes p }
        | none => (s2, { k with counted := k.counted + k.kind.bytes p })

/-- A word of a command read before its piece moves: word `j` of those that piece `p` is made from, or, while the command reads first, of
those it reads then. R272 orders neither the reads nor the writes of a command (R20). -/
def State.readAhead (core : Nat) (x : State × Cmd) (p j : Nat) : State × Cmd :=
  let (s, k) := x
  let ws := if k.unread then k.first else if k.donePcs.contains p || k.kind.count ≤ p then [] else k.kind.needs p
  if k.killed || k.status.isSome || nearSkew k.kind || (s.pieceFault k.gid k.kind p).isSome then x
  else match ws[j]? with
    | none => x
    | some w =>
      match State.readWord core x w with
      | .error .wait => x
      | .error (.fail c) => (s, { k with status := some c })
      | .ok y => y

/-- The bit of an entry of BYTES_COUNTED that says a word is only read. -/
def aheadBit : Nat := 2147483648

/-- One entry of BYTES_COUNTED: a piece moved, or with bit 31 set a word only read, whose number stands above it. -/
def State.doEntry (core : Nat) (x : State × Cmd) (p : Nat) : State × Cmd :=
  if bitN p 31 then State.readAhead core x (p % aheadBit) (p / 2 ^ 32) else State.doPiece core x p

/-- The command in a slot of a core. -/
def State.cmd? (s : State) (core slot : Nat) : Option Cmd := (s.core core).slots.find? fun k => k.slot = slot

/-- A command's record replaced. -/
def State.putCmd (s : State) (core : Nat) (k : Cmd) : State :=
  s.modCore core fun c => { c with slots := c.slots.map fun j => if j.slot = k.slot then k else j }

/-- The pieces of a command that an event names, moved or read; a gather's list, and what a near-memory command has not read, is read
first unless the event only reads. -/
def State.doPieces (s : State) (core : Nat) (k : Cmd) (pieces : List Nat) : State :=
  let ready := k.killed || k.status.isSome || pieces.any fun p => bitN p 31
  let x := pieces.foldl (State.doEntry core) (if ready then (s, k) else s.prepare core k)
  let x := x.1.countDue core x.2
  x.1.putCmd core x.2

/-- BYTES_COUNTED: pieces of a command move in the order given (R252, R272). -/
def execBytesCounted (core slot : Nat) (pieces : List Nat) (s : State) : Host.Outcome State Fault Refusal :=
  .next <| match s.cmd? core slot with
    | none => s
    | some k => s.doPieces core k pieces

/-! ### The end of a command (R260, R261, R282) -/

/-- The error record of a failure (R261). -/
def errorRecord (code slot kind : Nat) (seq : Word) : DWord :=
  BitVec.ofNat 64 (code * 2 ^ 48 + slot * 2 ^ 45 + kind * 2 ^ 40 + seq.toNat)

/-- A failure recorded in an object whose phase holds none yet (R252). -/
def Obj.record (o : Obj) (d : DWord) : Obj := if o.errCur then o else { o with error := d, errCur := true }

/-- The bytes a command counts in all (R261): those of its list where it has not read one yet. -/
def State.cmdTotal (s : State) (k : Cmd) : Nat :=
  match k.kind, s.anyGang? k.gid with
  | .gather list n _ _, some g =>
    if k.total ≠ 0 then k.total
    else ((List.range n).map fun i => leNat (g.padBytes (g.gcOf k.wi) (list + 16 * i + 8) 4) / 4 * 4).foldl (· + ·) 0
  | _, _ => k.total

/-- A counted producer ends: the bytes it still counts, its failure, and INFLIGHT (R252, R261). -/
def State.endCount (s : State) (gid : Nat) (r : ObjRef) (rest : Nat) (err : Option DWord) : State :=
  let s := match err with
    | some d => s.modGang gid fun g => g.modObj r fun o => o.record d
    | none => s
  let s := if rest = 0 then s else s.countBytes gid r rest
  s.modGang gid fun g => g.modObj r fun o => { o with inflight := o.inflight - 1 }

/-- A ckill whose last command has stopped fills its destination (R282). -/
def State.killsDone (s : State) (core : Nat) (seq : Word) : State :=
  let strike := fun (k : KillWait) => { k with left := k.left.erase (core, seq) }
  let all := s.cores.flatMap fun c => c.2.kills.map strike
  let s := { s with cores := s.cores.map fun c => (c.1, { c.2 with kills := (c.2.kills.map strike).filter fun k => k.left ≠ [] }) }
  (all.filter fun k => k.left = []).foldl
    (fun s k => (s.fill (k.gid, k.wi) k.t k.dst [BitVec.ofNat 32 (k.n % 65536)])) s

/-- A command ends with a status: its counter, its status word, its slot, what waited for it (R252, R257, R260, R261). -/
def State.finishCmd (s : State) (core : Nat) (k : Cmd) (status : Nat) : State :=
  let s := s.modCore core fun c => { c with slots := c.slots.filter fun j => j.slot ≠ k.slot }
  let s := match k.cnt with
    | some (_, r) =>
      s.endCount k.gid r (s.cmdTotal k - k.counted) (if status = 0 then none else some (errorRecord status k.slot k.code k.seq))
    | none => s
  let word := if status = 0 then 0 else status * 65536 + k.seq.toNat % 65536
  let s := (s.fill (k.gid, k.wi) k.t k.dst [BitVec.ofNat 32 word]).wakeCore core
  ((s.killsDone core k.seq).unreachBlock k.gid).reap k.gid

/-- Whether an earlier send of the same thread has not been accepted (R271). -/
def State.sendBefore (s : State) (core : Nat) (k : Cmd) : Bool :=
  (s.core core).slots.any fun j =>
    j.gid = k.gid && j.wi = k.wi && j.t = k.t && decide (j.seq ≠ k.seq) && decide ((k.seq - j.seq).toNat < 2147483648) &&
      (match j.kind with | .send .. => true | _ => false)

/-- A queue accepts a whole message (R271, R378). -/
def State.accept (s : State) (world q : Nat) (k : Cmd) (len : Nat) : State :=
  let payload := (List.range (len / 4)).flatMap fun i => leBytes 4 (k.kind.value k.reads i)
  let (id, s) := s.fresh
  { s with sendQs := s.sendQs.map fun n =>
      if n.world = world ∧ n.q = q ∧ n.opened then
        { n with msgs := n.msgs ++ [{ id := id, seq := n.seq, payload := payload, owner := some (k.gid, k.wi, k.t) }], seq := n.seq + 1 }
      else n }

/-- COMMAND_END: a command ends (R260), once every write of it is visible in every die (R272, R369): an abandoned or failed one stops
where it stands; another does what is left of it first, and a send is accepted by its queue or finds it not open (R271). -/
def execCommandEnd (core slot : Nat) (s : State) : Host.Outcome State Fault Refusal :=
  .next <| match s.cmd? core slot with
    | none => s
    | some k =>
      if k.killed then (if s.landing core k then s else s.finishCmd core k 1)
      else match k.status with
        | some c => if s.landing core k then s else s.finishCmd core k c
        | none =>
          let (s1, k1) := s.prepare core k
          let (s2, k2) := (List.range k1.kind.count).foldl (State.doPiece core) (s1, k1)
          if s2.landing core k2 then s2.putCmd core k2
          else match k2.status with
          | some c => s2.finishCmd core k2 c
          | none =>
            if k2.unread || k2.donePcs.length < k2.kind.count then s2.putCmd core k2
            else match k2.kind, s2.anyGang? k2.gid with
              | .send q _ len, some g =>
                if s2.sendBefore core k2 then s2.putCmd core k2
                else if (s2.sendQ? g.world q).isNone then s2.finishCmd core k2 2
                else (s2.accept g.world q k2 len).finishCmd core k2 0
              | _, _ => s2.finishCmd core k2 0

end Sys2Proof.Machine
end

