-- ==== Sys2Proof/Machine/Copy.lean ====
section
/-!
DEFINITION. The instructions of group B and the near-memory commands (spec/14 R257 to R283, spec/20 R367): starting commands,
bobbins, bindings, drafts and ckill; and the landing of a message in a bound ring (R278).
-/
namespace Sys2Proof.Machine

/-! ### Starting commands (R257, R259, R264 to R271) -/

/-- F_PERM for a range checked at issue, at the lowest byte at or beyond the limit (R43, R195, R263, R406). -/
def Gang.spanFault (g : Gang) (spc : CSpc) (a n : Nat) : Option Flt :=
  match spc with
  | .sp => if g.spBytes < a + n then some { code := fPerm, addr := max a g.spBytes } else none
  | .gw =>
    if 2 ^ 23 ≤ a ∨ g.cores.length ≤ a / 2 ^ 21 then some { code := fPerm, addr := a }
    else if g.spBytes < a % 2 ^ 21 + n then some { code := fPerm, addr := a / 2 ^ 21 * 2 ^ 21 + max (a % 2 ^ 21) g.spBytes }
    else none
  | .bb => if bbForm a then none else some { code := fPerm, addr := a }
  | .gl => none

/-- The first of a list of checks that fails. -/
def firstFault (cs : List (Bool × Nat × Nat)) : Option Flt :=
  (cs.find? fun c => !c.1).map fun c => { code := c.2.1, addr := c.2.2 }

/-- How an instruction starts a command: its operands, what its own checks answer (what the command does and counts), the record it
reads through the record cache, and whether it must be fetched first. -/
structure CmdForm where
  d    : Opnd
  src  : List Fld
  imm  : BitVec 21
  code : Nat
  ga   : Bool := false
  sys  : Bool := false
  rec_ : State → Iss → Thread → Option (Bool × Nat) := fun _ _ _ => none
  need : State → Iss → Thread → Option (Bool × Nat) := fun _ _ _ => none
  chk  : State → Iss → Thread → Except Flt (CmdKind × Nat)

/-- A check that ends in a command. -/
def orFault (f : Option Flt) (k : CmdKind × Nat) : Except Flt (CmdKind × Nat) :=
  match f with
  | some e => .error e
  | none => .ok k

/-! #### Records (R268) -/

/-- The record a record cache holds for an address (R268). -/
def State.cachedRec (s : State) (i : Iss) (gl : Bool) (a : Nat) : Option (List Byte) :=
  ((s.core i.w.core).recCache.find? fun e => e.is i.g.world gl a).map (·.bytes)

/-- The faults of reading a record's 192 bytes (R43, R214, R343). -/
def State.recordAccess (s : State) (g : Gang) (w : Warp) (gl : Bool) (a : Nat) : Option Flt :=
  if !gl then
    (g.spanFault .sp a 192).or (if s.padBad g.gid (g.gcOf w.wi) a 192 then some { code := fEcc, addr := a } else none)
  else [a, a + 64, a + 128].findSome? fun b =>
    match s.translate w.core g.world g.root (b % 2 ^ 64) .load with
    | .bad f => some f
    | .ok pa _ => if s.memBad pa 64 then some { code := fEcc, addr := b } else none

/-- The record cache after a record was used: it is the most recent of at most 16 (R268). -/
def State.touchRec (s : State) (core : Nat) (e : RecE) : State :=
  s.modCore core fun c =>
    let rest := c.recCache.filter fun k => !k.is e.world e.gl e.addr
    { c with recCache := (rest.drop (rest.length - 15)) ++ [e] }

/-- A record cache in which the entry of an address, if it holds one, is the most recent (R268). -/
def recentRec (world : Nat) (gl : Bool) (a : Nat) (rs : List RecE) : List RecE :=
  match rs.find? fun e => e.is world gl a with
  | some e => (rs.filter fun k => !k.is world gl a) ++ [e]
  | none => rs

/-- A command obtains its record from the cache, which holds it: it is the most recent (R268). -/
def State.useRec (s : State) (i : Iss) (p : Option (Bool × Nat)) : State :=
  match p with
  | none => s
  | some (gl, a) => s.modCore i.w.core fun c => { c with recCache := recentRec i.g.world gl a c.recCache }

/-- The engine has read a record the warp stalls for: it enters the cache, unless its access would now fault (R268). -/
def State.readRecord (s : State) (r : WRef) (p : Bool × Nat) : State :=
  match s.gang? r.1, s.warp? r with
  | some g, some w =>
    if (s.recordAccess g w p.1 p.2).isSome then s
    else
      let bytes :=
        if p.1 then [0, 64, 128].flatMap fun k =>
          match s.translate w.core g.world g.root ((p.2 + k) % 2 ^ 64) .load with
          | .ok pa _ => s.mem.readN pa 64
          | .bad _ => []
        else g.padBytes (g.gcOf w.wi) p.2 192
      s.touchRec w.core { world := g.world, gl := p.1, addr := p.2, bytes := bytes }
  | _, _ => s

/-! #### The forms -/

/-- cpy (R264). -/
def cpyForm (x : VOps) (dsp ssp : CSpc) (ga sys : Bool) : CmdForm :=
  { d := x.d, src := [⟨x.a, dsp.addrWords⟩, ⟨x.b, ssp.addrWords⟩, ⟨x.c, 1⟩], imm := x.imm, code := 0, ga := ga, sys := sys,
    chk := fun s i th =>
      let a := s.value i.g i.w th x.a dsp.addrWords x.imm
      let b := s.value i.g i.w th x.b ssp.addrWords x.imm
      let n := s.value i.g i.w th x.c 1 x.imm
      orFault ((firstFault [(a % 4 = 0, fAlign, a), (b % 4 = 0, fAlign, b), (n % 4 = 0, fAlign, n), (n < 2 ^ 31, fIllmod, n)]).or
          ((i.g.spanFault dsp a n).or (i.g.spanFault ssp b n)))
        (.copy ⟨ssp, b⟩ ⟨dsp, a⟩ n, n) }

/-- cpyg (R265). -/
def cpygForm (x : VOps) (dsp ssp : CSpc) (ga sys : Bool) : CmdForm :=
  { d := x.d, src := [⟨x.a, dsp.addrWords⟩, ⟨x.b, 1⟩, ⟨x.c, 1⟩], imm := x.imm, code := 2, ga := ga, sys := sys,
    chk := fun s i th =>
      let a := s.value i.g i.w th x.a dsp.addrWords x.imm
      let b := s.value i.g i.w th x.b 1 x.imm
      let n := s.value i.g i.w th x.c 1 x.imm
      orFault ((firstFault [(a % 4 = 0, fAlign, a), (b % 16 = 0, fAlign, b), (1 ≤ n && n ≤ 4096, fIllmod, n)]).or
          ((if dsp = .bb then i.g.spanFault .bb a 0 else none).or (i.g.spanFault .sp b (16 * n))))
        (.gather b n ssp ⟨dsp, a⟩, 0) }

/-- cpyn (R271): a length that breaks R271 is F_ILLMOD, as R271 has it, also where it is no multiple of 4, and a source range that is no
range of its space faults at issue as a cpy's does, which neither R271 nor R406 says of cpyn (DESIGN CHOICE, log entry 98). -/
def cpynForm (x : VOps) (ssp : CSpc) (sys : Bool) : CmdForm :=
  { d := x.d, src := [⟨x.a, 1⟩, ⟨x.b, ssp.addrWords⟩, ⟨x.c, 1⟩], imm := x.imm, code := 3, sys := sys,
    chk := fun s i th =>
      let a := s.value i.g i.w th x.a 1 x.imm
      let b := s.value i.g i.w th x.b ssp.addrWords x.imm
      let n := s.value i.g i.w th x.c 1 x.imm
      orFault ((firstFault [(a < 64, fIllmod, a), (b % 4 = 0, fAlign, b), (n % 4 = 0 && 4 ≤ n && n ≤ 65536, fIllmod, n)]).or
          (i.g.spanFault ssp b n))
        (.send a ⟨ssp, b⟩ n, n) }

/-- The local range of a tensor command, widened to whole swizzle blocks counted from B (R268). -/
def Tensor.localFault (t : Tensor) (g : Gang) (gw : Bool) (b : Nat) : Option Flt :=
  let size := t.rows * t.pitch
  let blk := 16 * 2 ^ t.swz
  let n := if t.swz = 0 then size else (size + blk - 1) / blk * blk
  g.spanFault (if gw then .gw else .sp) b n

/-- cpyt (R266 to R269). -/
def cpytForm (x : VOps) (lgw store rgl ga sys : Bool) : CmdForm :=
  let k := if rgl then 2 else 1
  { d := x.d, src := [⟨x.a, k⟩, ⟨x.b, 1⟩] ++ (if x.c.cls = .none then [] else [⟨x.c, 4⟩]), imm := x.imm, code := 1, ga := ga,
    sys := sys,
    rec_ := fun s i th => some (rgl, s.value i.g i.w th x.a k x.imm),
    need := fun s i th =>
      let a := s.value i.g i.w th x.a k x.imm
      let b := s.value i.g i.w th x.b 1 x.imm
      if a % 64 ≠ 0 || b % 16 ≠ 0 || (s.cachedRec i rgl a).isSome || (s.recordAccess i.g i.w rgl a).isSome then none else some (rgl, a),
    chk := fun s i th =>
      let a := s.value i.g i.w th x.a k x.imm
      let b := s.value i.g i.w th x.b 1 x.imm
      let c := coordsOf (s.value i.g i.w th x.c 4 x.imm)
      match firstFault [(a % 64 = 0, fAlign, a), (b % 16 = 0, fAlign, b)] with
      | some f => .error f
      | none =>
        match s.cachedRec i rgl a with
        | none => (match s.recordAccess i.g i.w rgl a with | some f => .error f | none => .ok (.tensor store [] lgw b c, 0))
        | some r =>
          match recordFault r ga with
          | some o => .error { code := fShape, addr := o }
          | none =>
            let t := tensorOf r
            if t.n ≠ 0 && nth c 0 0 % (max 1 t.n : Nat) ≠ 0 then .error { code := fShape, addr := 12 }
            else orFault (t.localFault i.g lgw b) (.tensor store r lgw b c, t.total) }

/-- The byte offset of the first field of a near-memory descriptor that breaks its layout (R367): `mult` is what COUNT must be a
multiple of. -/
def nearFault (d : List Byte) (auxZero : Bool) (mult : Nat) : Option Nat :=
  let n := nearOf d
  let sp := recField d 29 1
  let code := fun k => decide (k = 2 ∨ k = 3)
  (([(!auxZero || decide (n.aux = 0), 16),
     (decide (1 ≤ n.count) && decide (n.count ≤ 2 ^ 20) && decide (n.count % mult = 0), 24),
     (decide (n.stack < 8), 28),
     (code (sp % 4) && code (bitsN sp 2 2) && code (bitsN sp 4 2) && decide (sp < 64), 29),
     (decide (recField d 30 2 = 0), 30)] : List (Bool × Nat)).find? fun c => !c.1).map (·.2)

/-- nget, nred and ncvt (R367). -/
def nearForm (x : VOps) (code : Nat) (auxZero : Bool) (mult : Nat) (kind : List Byte → CmdKind) (total : Near → Nat) : CmdForm :=
  { d := x.d, src := [⟨x.a, 1⟩], imm := x.imm, code := code,
    chk := fun s i th =>
      let a := s.value i.g i.w th x.a 1 x.imm
      let gc := i.g.gcOf i.w.wi
      let d := (List.range 32).map fun k => s.padLoadByte i.g i.r th.t gc (a + k) s.nextId
      match firstFault [(a % 32 = 0, fAlign, a), (a + 32 ≤ i.g.spBytes, fPerm, a)] with
      | some f => .error f
      | none =>
        if s.padBad i.r.1 gc a 32 then .error { code := fEcc, addr := a }
        else match nearFault d auxZero mult with
          | some o => .error { code := fShape, addr := o }
          | none => .ok (kind d, total (nearOf d)) }

/-- The elements whose bytes make whole words (R367). -/
def wordMult (t : Ty) : Nat := max 1 (32 / elBits t)

/-- nget. -/
def ngetForm (x : VOps) (t : Ty) : CmdForm := nearForm x 17 false 1 (.nget t) fun n => 4 * t.words * n.count

/-- nred. -/
def nredForm (x : VOps) (t : Ty) (op : NOp) : CmdForm :=
  nearForm x 18 true (wordMult t) (.nred t op) fun n => elBits t * n.count / 8

/-- ncvt: COUNT is whole blocks and whole words on both sides. -/
def ncvtForm (x : VOps) (t : Ty) (ord : NOrd) (src : Ty) : CmdForm :=
  let b := if nearScales t then nearBlock ord else 1
  nearForm x 19 false (max b (max (wordMult t) (wordMult src))) (.ncvt t ord src)
    fun n => elBits t * n.count / 8 + (if nearScales t then 4 * (n.count / b) else 0)

/-- The form of an instruction a draft may hold (R279). -/
def cmdForm (i : Instr) : Option CmdForm :=
  match i with
  | .cpy _ x dsp ssp ga sys => some (cpyForm x dsp ssp ga sys)
  | .cpyt _ x lgw store rgl ga sys => some (cpytForm x lgw store rgl ga sys)
  | .cpyg _ x dsp ssp ga sys => some (cpygForm x dsp ssp ga sys)
  | .cpyn _ x ssp sys => some (cpynForm x ssp sys)
  | _ => none

/-- The counter a command names (R259). -/
def counterOf (imm : BitVec 21) : Option (Bool × Nat) :=
  let v := imm.toNat
  if !bitN v 20 then none
  else if bitN v 19 then some (true, bitsN v 17 2 * 2 ^ 21 + bitsN v 2 15 * 64) else some (false, bitsN v 2 15 * 64)

/-- The fault of a counter (R245, R259). -/
def State.counterFault (s : State) (g : Gang) (w : Warp) (imm : BitVec 21) : Option Flt :=
  match counterOf imm with
  | none => none
  | some (gw, a) => faultIn (s.named g w gw a)

/-- A free slot of a core's copy engine (R257). -/
def State.freeSlot (s : State) (core : Nat) : Option Nat :=
  (List.range 8).find? fun k => !(s.core core).slots.any fun c => c.slot = k

/-- One more producer of a counter (R252). -/
def State.takeCounter (s : State) (gid : Nat) (cnt : Option (Bool × ObjRef)) : State :=
  match cnt with
  | some (_, r) => s.modGang gid fun g => g.modObj r fun o => { o with inflight := o.inflight + 1 }
  | none => s

/-- A command starts (R257, R259, R260): it takes a slot and a number, its status register empties, its counter has one more
producer. -/
def State.startCmd (s : State) (i : Iss) (f : CmdForm) (th : Thread) (draft : Bool) : State :=
  match f.chk s i th, s.freeSlot i.w.core, opDst f.d 1 with
  | .ok (kind, total), some slot, some dst =>
    let cnt := (counterOf f.imm).map fun p => (p.1, i.g.refAt i.w p.1 p.2)
    let k : Cmd := {
      slot := slot, seq := (s.core i.w.core).ceSeq, gid := i.r.1, wi := i.r.2, t := th.t, dst := dst, kind := kind,
      code := f.code, ga := f.ga, sys := f.sys, cnt := cnt, draft := draft, total := total }
    (((s.modCore i.w.core fun c => { c with slots := c.slots ++ [k], ceSeq := c.ceSeq + 1 }).useRec i (f.rec_ s i th)).emptyDst
      i.r th.t dst).takeCounter i.r.1 cnt
  | _, _, _ => s

/-- The fault of one thread's start: its own checks, then its counter's (R259). -/
def State.startFault (s : State) (i : Iss) (f : CmdForm) (th : Thread) : Option Flt :=
  (faultIn (f.chk s i th)).or (s.counterFault i.g i.w f.imm)

/-- The records an issue misses in its core's cache. -/
def CmdForm.missing (f : CmdForm) (s : State) (i : Iss) (who : List Thread) : List (Bool × Nat) :=
  (who.filterMap fun th => f.need s i th).eraseDups

/-- An instruction that starts a command in each thread that acts (R257): F_MASK for more than eight, a stall for records that its
threads' checks miss, then the checks. -/
def State.startForm (s : State) (h : Hdr) (f : CmdForm) : Host.Outcome State Fault Refusal :=
  run s h fun i =>
    let who := if f.d.cls = .s then i.on.take 1 else i.on
    let many : Bool := decide (8 < who.length)
    let gate := fun (ths : List Thread) (chk : Thread → Option Flt) => s.gate i ths f.src [⟨f.d, 1⟩] false f.imm chk
    let reach := who.filter fun th => gate [th] (fun _ => none) = .go
    let chk := fun (th : Thread) => if many then some ({ code := fMask, addr := who.length } : Flt) else s.startFault i f th
    match (if many then [] else f.missing s i reach), gate who chk with
    | _, .block owed => s.block i owed
    | m :: ms, _ => s.modWarp i.r fun w => { w with stall := some (.record (m :: ms)) }
    | [], gt =>
      s.through i (gt.spread i f.d) <|
        if 8 < (s.core i.w.core).slots.length + who.length then s.blockFor i (.entry (some who.length))
        else (who.foldl (fun s th => s.startCmd i f th false) (s.advance i)).closeIssue i h.e 0 (who ≠ [])

/-- cpy (R264). -/
def execCpy (h : Hdr) (x : VOps) (dsp ssp : CSpc) (ga sys : Bool) (s : State) : Host.Outcome State Fault Refusal :=
  s.startForm h (cpyForm x dsp ssp ga sys)

/-- cpyt (R266). -/
def execCpyt (h : Hdr) (x : VOps) (lgw store rgl ga sys : Bool) (s : State) : Host.Outcome State Fault Refusal :=
  s.startForm h (cpytForm x lgw store rgl ga sys)

/-- cpyg (R265). -/
def execCpyg (h : Hdr) (x : VOps) (dsp ssp : CSpc) (ga sys : Bool) (s : State) : Host.Outcome State Fault Refusal :=
  s.startForm h (cpygForm x dsp ssp ga sys)

/-- cpyn (R271). -/
def execCpyn (h : Hdr) (x : VOps) (ssp : CSpc) (sys : Bool) (s : State) : Host.Outcome State Fault Refusal :=
  s.startForm h (cpynForm x ssp sys)

/-- nget (R367, R368). -/
def execNget (h : Hdr) (x : VOps) (t : Ty) (s : State) : Host.Outcome State Fault Refusal := s.startForm h (ngetForm x t)

/-- nred (R367, R368). -/
def execNred (h : Hdr) (x : VOps) (t : Ty) (op : NOp) (s : State) : Host.Outcome State Fault Refusal := s.startForm h (nredForm x t op)

/-- ncvt (R367, R368). -/
def execNcvt (h : Hdr) (x : VOps) (t : Ty) (ord : NOrd) (src : Ty) (s : State) : Host.Outcome State Fault Refusal :=
  s.startForm h (ncvtForm x t ord src)

/-! ### Bobbins (R274 to R277) -/

/-- The byte offset of the first field of a descriptor that breaks its layout (R274). -/
def bobbinFault (d : List Byte) : Option Nat :=
  let f := recField d
  (([(decide (f 0 4 % 64 = 0), 0), (decide (f 4 4 % 64 = 0) && decide (64 ≤ f 4 4) && decide (f 4 4 ≤ 0x100000), 4),
     (decide (1 ≤ f 8 2) && decide (f 8 2 ≤ 4096), 8), (decide (f 10 1 < 4), 10), (decide (f 11 1 = 0), 11)] ++
    (List.range 12).map fun k => (decide (f (20 + k) 1 = 0), 20 + k) : List (Bool × Nat)).find? fun c => !c.1).map (·.2)

/-- The fields of a descriptor (R274). -/
def bobbinOf (d : List Byte) : Bobbin :=
  let f := recField d
  { base := f 0 4, slotb := f 4 4, count := f 8 2, gwRing := bitN (f 10 1) 0, gwBar := bitN (f 10 1) 1, fill := f 12 4, free := f 16 4 }

/-- The ring's place: gang core and offset of slot 0 (R274). -/
def Bobbin.ring (b : Bobbin) (g : Gang) (wi : Nat) : ObjRef :=
  if b.gwRing then { gc := b.base / 2 ^ 21, off := b.base % 2 ^ 21 } else { gc := g.gcOf wi, off := b.base }

/-- Whether the ring lies outside the block's rows (R274). -/
def Bobbin.outside (b : Bobbin) (g : Gang) : Bool :=
  if b.gwRing then decide (2 ^ 23 ≤ b.base) || decide (g.cores.length ≤ b.base / 2 ^ 21) ||
    decide (g.spBytes < b.base % 2 ^ 21 + b.count * b.slotb)
  else decide (g.spBytes < b.base + b.count * b.slotb)

/-- The address of slot n (R275). -/
def Bobbin.slotAt (b : Bobbin) (n : Nat) : Word := BitVec.ofNat 32 (b.base + n % max 1 b.count * b.slotb)

/-- A descriptor read and checked, with its two objects (R245, R274). -/
def State.bobbin (s : State) (i : Iss) (th : Thread) (gw : Bool) (a : Nat) : Except Flt (Bobbin × Obj × Obj) :=
  match s.padSpan i.g i.w gw 32 32 a with
  | .error f => .error f
  | .ok r =>
    let d := (List.range 32).map fun k => s.padLoadByte i.g i.r th.t r.gc (r.off + k) s.nextId
    if s.padBad i.r.1 r.gc r.off 32 then .error { code := fEcc, addr := a }
    else match bobbinFault d with
      | some o => .error { code := fShape, addr := o }
      | none =>
        let b := bobbinOf d
        match s.named i.g i.w b.gwBar b.fill, s.named i.g i.w b.gwBar b.free with
        | .error f, _ => .error f
        | _, .error f => .error f
        | .ok fill, .ok free =>
          if b.outside i.g then .error { code := fShape, addr := 0 }
          else if fill.expArr ≠ 0 || fill.expBytes ≠ b.slotb || !fill.keep then .error { code := fShape, addr := 12 }
          else if free.expBytes ≠ 0 then .error { code := fShape, addr := 16 }
          else .ok (b, fill, free)

/-- A bobbin instruction: the gate, the descriptor's faults, then its effect. -/
def State.bobbinForm (s : State) (h : Hdr) (x : VOps) (gw : Bool) (nd : Nat) (hasB : Bool) (more : Bobbin → Obj → Thread → Option Flt)
    (k : Iss → List Thread → State) : Host.Outcome State Fault Refusal :=
  run s h fun i =>
    let i := i.unheld
    let who := if x.d.cls = .s then i.on.take 1 else i.on
    let src : List Fld := ⟨x.a, 1⟩ :: (if hasB then [⟨x.b, 1⟩] else [])
    let flt := fun (th : Thread) =>
      match s.bobbin i th gw (s.value i.g i.w th x.a 1 x.imm) with
      | .error f => some f
      | .ok (b, fill, _) => more b fill th
    s.through i (s.gate i who src (if nd = 0 then [] else [⟨x.d, nd⟩]) false x.imm flt) (k i who)

/-- The bobbin of a thread whose checks have passed. -/
def State.bobbin? (s : State) (i : Iss) (x : VOps) (gw : Bool) (th : Thread) : Option (Bobbin × Obj × Obj) :=
  match s.bobbin i th gw (s.value i.g i.w th x.a 1 x.imm) with
  | .ok b => some b
  | .error _ => none

/-- The waits of bget and bput.get: `on` gives the object and phase, or the status at once where no wait is needed. The phase bits of
that status are n's own, also for a bput.get with n < COUNT, whose phase n − COUNT does not exist (DESIGN CHOICE, log entry 113). -/
def State.slotWaits (s : State) (h : Hdr) (x : VOps) (gw : Bool) (i : Iss) (who : List Thread)
    (on : Bobbin → Obj → Obj → Nat → Option (Obj × Word)) : State :=
  let now := s.now i.w.core
  let past := s.windowOver i.g i.w [⟨x.a, 1⟩, ⟨x.b, 1⟩] x.imm
  let s2 := who.foldl (fun s2 th =>
    let n := s.value i.g i.w th x.b 1 x.imm
    match s.bobbin? i x gw th with
    | none => s2
    | some (b, fill, free) =>
      match on b fill free n with
      | some (o, p) => s2.waitPhase i th o p none now x.d (some (b.slotAt n))
      | none => s2.later i th x.d 2 (wordsNat (waitWords (n % 65536 * 65536 + 9) (some (b.slotAt n))))) (s.advance i)
  let s3 := (s2.stayBeside i who).noteLater i past
  (s3.closeSome h i (s3.waitingOf i) 0 false).unreachBlock i.r.1

/-- bget (R275). -/
def execBget (h : Hdr) (x : VOps) (gw : Bool) (s : State) : Host.Outcome State Fault Refusal :=
  s.bobbinForm h x gw 2 true (fun _ _ _ => none) fun i who =>
    s.slotWaits h x gw i who fun _ fill _ n => some (fill, BitVec.ofNat 32 n)

/-- bput.get (R277). -/
def execBputGet (h : Hdr) (x : VOps) (gw : Bool) (s : State) : Host.Outcome State Fault Refusal :=
  s.bobbinForm h x gw 2 true (fun _ _ _ => none) fun i who =>
    s.slotWaits h x gw i who fun b _ free n => if n < b.count then none else some (free, BitVec.ofNat 32 (n - b.count))

/-- Whether a flight writes into a slot of a ring. -/
def Bobbin.inSlot (b : Bobbin) (g : Gang) (n : Nat) (f : Flight) : Bool :=
  let r := b.ring g f.wi
  match f.place with
  | .pad gc o => gc = r.gc && overlaps (r.off + n % max 1 b.count * b.slotb) b.slotb o f.len
  | _ => false

/-- bput.put (R277): once the thread's writes to the slot are performed at the fill object's scope, SLOTB bytes count. -/
def execBputPut (h : Hdr) (x : VOps) (gw : Bool) (s : State) : Host.Outcome State Fault Refusal :=
  s.bobbinForm h x gw 0 true
    (fun b fill _ => if fill.boundq then some { code := fMember, addr := b.fill } else none) fun i who =>
      let n := fun (th : Thread) => s.value i.g i.w th x.b 1 x.imm
      let due := who.findSome? fun th =>
        match s.bobbin? i x gw th with
        | none => none
        | some (b, fill, _) => if s.released i.r th.t fill.scope (b.inSlot i.g (n th)) then none else some fill.scope
      match due with
      | some sc => s.sendMarkers i sc
      | none =>
        let s1 := who.foldl (fun s1 th =>
          match s.bobbin? i x gw th with
          | none => s1
          | some (b, fill, _) => (s1.releaseOver i.r [th.t] fill.scope fun _ => b.inSlot i.g (n th)).countBytes i.r.1 fill.ref b.slotb)
          ((s.advance i).noteOver i (s.windowOver i.g i.w [⟨x.a, 1⟩, ⟨x.b, 1⟩] x.imm))
        (s1.closeIssue i h.e 0 false).unreachBlock i.r.1

/-- bfree (R276): an ordering point that waits for the thread's loads, then arrives on the free object without a release. -/
def execBfree (h : Hdr) (x : VOps) (gw : Bool) (s : State) : Host.Outcome State Fault Refusal :=
  run s h fun i =>
    let i := i.unheld
    let flt := fun (th : Thread) =>
      match s.bobbin i th gw (s.value i.g i.w th x.a 1 x.imm) with
      | .error f => some f
      | .ok (b, _, free) => if free.members.getLsbD i.w.wi then none else some ({ code := fMember, addr := b.free } : Flt)
    s.throughPoint i (s.gate i i.on [⟨x.a, 1⟩] [] false x.imm fun th => (i.reportFlt th).or (flt th)) <|
      if i.on.all fun th => s.loadsDone i.r th.t && !s.relWaits i.r th then
        s.arrivals h i (s.windowOver i.g i.w [⟨x.a, 1⟩] x.imm) i.on .none
          (fun th => match s.bobbin? i x gw th with | some (_, _, free) => free.ref | none => { gc := 0, off := 0 })
          fun _ => none
      else s

/-! ### Bindings (R278) -/

/-- The receive queue of a world. -/
def State.recvQ? (s : State) (world q : Nat) : Option NetQueue := s.recvQs.find? fun n => n.world = world && n.q = q && n.opened

/-- Every binding with its gang. -/
def State.allBinds (s : State) : List (Gang × Binding) := s.gangs.flatMap fun g => g.binds.map fun b => (g, b)

/-- One bbind.rq: its status, and the binding made; a sealed context's binding is only paused, and its queue is bound (R278). -/
def State.bindQueue (s : State) (i : Iss) (q : Nat) (b : Bobbin) (fill free : ObjRef) : State × Nat :=
  match s.gang? i.r.1 with
  | none => (s, 2)
  | some g =>
    match g.obj? fill, g.obj? free with
    | some fo, some fr =>
      if (s.recvQ? g.world q).isNone then (s, 0x0002)
      else if s.allBinds.any (fun p => p.1.world = g.world && p.2.queue = q) ||
          s.sealed.any (fun k => k.gang.world = g.world && k.gang.binds.any fun b => b.queue = q) || g.binds.any (fun k => k.fillObj = fill || k.freeObj = free) then (s, 0x0021)
      else if 4 ≤ (s.allBinds.filter fun p => nth p.1.cores p.2.core 0 = i.w.core).length then (s, 0x0010)
      else if fo.lap ≠ fr.lap then (s, 0x0020)
      else
        let k : Binding := { core := i.g.gcOf i.w.wi, queue := q, bob := b, fillObj := fill, freeObj := free, l0 := fo.lap,
                             next := fo.lap.toNat }
        (s.modGang i.r.1 fun g =>
          { g.modObj fill (fun o => { o with boundq := true }) with binds := g.binds ++ [k] }, 0)
    | _, _ => (s, 2)

/-- bbind.rq (R278). A queue handle with a bit of [31:6] set faults F_ILLMOD with the handle in ADDR, which neither R278 nor R406 names
(DESIGN CHOICE, log entry 117). -/
def execBbindRq (h : Hdr) (x : VOps) (gw : Bool) (s : State) : Host.Outcome State Fault Refusal :=
  let q := fun (i : Iss) (th : Thread) => s.value i.g i.w th x.b 1 x.imm
  run s h fun i =>
    let who := if x.d.cls = .s then i.on.take 1 else i.on
    let flt := fun (th : Thread) =>
      (faultIn (s.bobbin i th gw (s.value i.g i.w th x.a 1 x.imm))).or
        (if 64 ≤ q i th then some ({ code := fIllmod, addr := q i th } : Flt) else none)
    s.through i (s.gate i who [⟨x.a, 1⟩, ⟨x.b, 1⟩] [⟨x.d, 1⟩] false x.imm flt) <|
      let s1 := who.foldl (fun s1 th =>
        match s.bobbin? i x gw th with
        | none => s1
        | some (b, fill, free) =>
          let p := s1.bindQueue i (q i th) b fill.ref free.ref
          p.1.later i th x.d 1 (p.2 * 65536))
        ((s.advance i).noteOver i (s.windowOver i.g i.w [⟨x.a, 1⟩, ⟨x.b, 1⟩] x.imm))
      s1.closeIssue i h.e 0 false

/-- A binding ended: BOUNDQ is clear and messages that have not landed stay in the queue (R278). -/
def State.unbindQueue (s : State) (gid : Nat) (fill : ObjRef) : State :=
  s.modGang gid fun g =>
    match g.binds.find? fun k => k.fillObj = fill with
    | none => g
    | some k =>
      { g.modObj k.fillObj (fun o => { o with boundq := false }) with
        binds := g.binds.filter fun j => j.fillObj ≠ fill }

/-- bbind.off (R278): a landing is one step, so none is in progress. -/
def execBbindOff (h : Hdr) (x : VOps) (gw : Bool) (s : State) : Host.Outcome State Fault Refusal :=
  s.bobbinForm h x gw 1 false (fun _ _ _ => none) fun i who =>
    let s1 := who.foldl (fun s1 th =>
      match s.bobbin? i x gw th with
      | none => s1
      | some (_, fill, _) => (s1.unbindQueue i.r.1 fill.ref).later i th x.d 1 0)
      ((s.advance i).noteOver i (s.windowOver i.g i.w [⟨x.a, 1⟩] x.imm))
    (s1.closeIssue i h.e 0 false).unreachBlock i.r.1

/-- The bytes a landing writes into its slot (R278). -/
def landingBytes (m : Msg) (slotb : Nat) : List Byte :=
  let pay := slotb - 16
  leBytes 4 (min m.payload.length pay) ++ leBytes 4 m.seq.toNat ++ leBytes 4 (if pay < m.payload.length then 1 else 0) ++
    leBytes 4 0 ++ m.payload.take pay

/-- RECEIVE_LANDING: the next message of a bound queue lands in its slot, if the slot is free (R278); `k` numbers the bindings of
the gangs on the core. A landing on a live object fails and counts as R252 says, with KIND 7 (R243, R261). -/
def execReceiveLanding (core k : Nat) (s : State) : Host.Outcome State Fault Refusal :=
  .next <| match (s.allBinds.filter fun p => nth p.1.cores p.2.core 0 = core)[k]? with
    | none => s
    | some (g, b) =>
      match s.recvQ? g.world b.queue, g.obj? b.freeObj with
      | some q, some fr =>
        match q.msgs with
        | [] => s
        | m :: ms =>
          let n := b.next
          let may := decide ((BitVec.ofNat 32 n - b.l0).toNat < b.bob.count) || phaseDone fr.lap (BitVec.ofNat 32 n - BitVec.ofNat 32 b.bob.count)
          if !may then s
          else
            let off := n % b.bob.count * b.bob.slotb
            let gc := if b.bob.gwRing then b.bob.base / 2 ^ 21 else b.core
            let base := (if b.bob.gwRing then b.bob.base % 2 ^ 21 else b.bob.base) + off
            let bytes := landingBytes m b.bob.slotb
            let bad := g.touchesObj gc base bytes.length
            let took := fun (x : NetQueue) => if x.world = q.world ∧ x.q = q.q ∧ x.opened then { x with msgs := ms } else x
            let step := fun (j : Binding) => if j.fillObj = b.fillObj then { j with next := (n + 1) % 2 ^ 32 } else j
            let s := { s with recvQs := s.recvQs.map took }
            let s := s.modGang g.gid fun g => { g with binds := g.binds.map step }
            let s := if bad then s.modGang g.gid fun g => g.modObj b.fillObj fun o => o.record (errorRecord fPerm 0 7 m.seq)
              else s.padVeil g.gid gc base bytes none
            s.countBytes g.gid b.fillObj b.bob.slotb
      | _, _ => s

/-! ### Drafts (R280, R281) -/

/-- What stands between a draft's stage and its release. -/
inductive StageGate where
  | bad (fs : List (Nat × Flt))
  | block (owed : List Nat)
  | records (rs : List (Bool × Nat))
  | go
  deriving DecidableEq, Repr

/-- One entry of a stage as though the acting thread issued it (R280). -/
def State.entryGate (s : State) (i : Iss) (th : Thread) (f : CmdForm) : StageGate :=
  match s.gate i [th] f.src [⟨f.d, 1⟩] false f.imm with
  | .trap fs => .bad fs
  | .block owed => .block owed
  | .stall _ => .block []
  | .go =>
    match f.missing s i [th] with
    | m :: ms => .records (m :: ms)
    | [] =>
      match faultsOf [th] (s.startFault i f) with
      | e :: es => .bad (e :: es)
      | [] => .go

/-- The forms of a stage's entries, in order (R279). -/
def Gang.stageForms (g : Gang) (k : Nat) : List CmdForm :=
  (g.draft.filter fun e => e.stage = k).filterMap fun e =>
    match decodeWord { n := g.n, fw := false, ctl := false } e.word with
    | .ok i => cmdForm i
    | .bad _ => none

/-- dadv (R280). Every entry of the stage is checked against the state before any of them starts, also one that reads a register an
earlier entry of the stage empties (DESIGN CHOICE, log entry 119). -/
def execDadv (h : Hdr) (x : VOps) (s : State) : Host.Outcome State Fault Refusal :=
  run s h fun i =>
    match i.on with
    | [] => (s.advance i).closeIssue i h.e 0 false
    | th :: _ =>
      let answer := fun (s : State) (v : Nat) => s.later i th x.d 1 v
      s.through i (s.gate i [th] [] (if x.d.cls = .none then [] else [⟨x.d, 1⟩]) false x.imm) <|
        if i.g.nstage ≤ i.g.nextStage then (answer (s.advance i) 0xFFFFFFFF).closeIssue i h.e 0 false
        else
          let fs := i.g.stageForms i.g.nextStage
          match (fs.map (s.entryGate i th)).find? (fun q => q ≠ .go) with
          | some (.bad e) => s.trapIss i e
          | some (.records rs) => s.modWarp i.r fun w => { w with stall := some (.record rs) }
          | some (.block owed) => s.block i owed
          | _ =>
            if 8 < (s.core i.w.core).slots.length + fs.length then s.blockFor i (.entry (some fs.length))
            else
              let s1 := fs.foldl (fun s f => s.startCmd i f th true) (s.advance i)
              let s2 := s1.modGang i.r.1 fun g => { g with nextStage := g.nextStage + 1 }
              (answer s2 i.g.nextStage).closeIssue i h.e 0 (fs ≠ [])

/-- The commands of a gang that a test selects, with their cores. -/
def State.cmdsOf (s : State) (gid : Nat) (want : Cmd → Bool) : List (Nat × Cmd) :=
  s.cores.flatMap fun c => (c.2.slots.filter fun k => k.gid = gid && want k).map fun k => (c.1, k)

/-- What dstat reads (R281). -/
def State.draftStat (s : State) : Nat :=
  match s.cur.bind fun r => s.gang? r.1 with
  | none => 0
  | some g => g.nextStage * 2 ^ 24 + g.nstage * 2 ^ 16 + (s.cmdsOf g.gid fun k => k.draft).length % 2 ^ 16

/-- dstat (R281). -/
def execDstat (h : Hdr) (x : VOps) (s : State) : Host.Outcome State Fault Refusal :=
  s.plain h x { d := 1, a := 0 } false fun _ => { d := some s.draftStat }

/-! ### ckill (R282) -/

/-- Whether a ckill of a thread abandons a command. -/
def killWants (which : Kill) (r : WRef) (t : Nat) (k : Cmd) : Bool :=
  match which with
  | .own => k.wi = r.2 && k.t = t
  | .block => true
  | .draft => k.draft

/-- One thread's ckill: its commands are abandoned, and its destination fills once they have stopped. -/
def State.ckillOne (s : State) (i : Iss) (th : Thread) (which : Kill) (d : Opnd) : State :=
  let hit := s.cmdsOf i.r.1 fun k => !k.killed && killWants which i.r th.t k
  let mark := fun (k : Cmd) => if k.gid = i.r.1 && killWants which i.r th.t k then { k with killed := true } else k
  let s := { s with cores := s.cores.map fun c => (c.1, { c.2 with slots := c.2.slots.map mark }) }
  let s := if which = .draft then s.modGang i.r.1 fun g => { g with nextStage := g.nstage } else s
  match hit, opDst d 1 with
  | [], _ => s.later i th d 1 0
  | _, none => s
  | _, some dst =>
    let (id, s) := s.fresh
    let k : KillWait := { id := id, gid := i.r.1, wi := i.r.2, t := th.t, dst := dst, n := hit.length,
                          left := hit.map fun p => (p.1, p.2.seq) }
    (s.modCore i.w.core fun c => { c with kills := c.kills ++ [k] }).emptyDst i.r th.t dst

/-- ckill (R282). -/
def execCkill (h : Hdr) (x : VOps) (which : Kill) (s : State) : Host.Outcome State Fault Refusal :=
  run s h fun i =>
    let who := if x.d.cls = .s then i.on.take 1 else i.on
    s.through i (s.gate i who [] [⟨x.d, 1⟩] false x.imm) <|
      (who.foldl (fun s th => s.ckillOne i th which x.d) (s.advance i)).closeIssue i h.e 0 false

end Sys2Proof.Machine
end

