-- ==== Sys2Proof/Machine/Matrix.lean ====
section
/-!
DEFINITION. Group C, the matrix arrays (spec/15 R284 to R301, spec/06 R125 to R129): issue with captured operands, team matching, the
start of a command, its results, and its end.
-/
namespace Sys2Proof.Machine

/-! ### What a command names -/

/-- The registers of a command's destination group: first and count. -/
def mGroup (x : Opnd) (n : Nat) : Option (Nat × Nat) :=
  match x with
  | .m i _ => some (i.toNat, n)
  | _ => none

/-- The destination group of a command (R290 to R296). -/
def mDst (i : Instr) : Option (Nat × Nat) :=
  match i with
  | .mxm _ x _ acc _ _ solo => mGroup x.d (cWords acc.half solo)
  | .mxc _ x _ _ acc _ _ solo _ => mGroup x.d (cWords acc.half solo)
  | .msca _ x t _ _ _ => mGroup x.d (cWords t.half false)
  | .mzero _ x t _ _ solo => mGroup x.d (cWords t.half solo)
  | .ldf _ x t c solo => mGroup x.d (if c then cWords t.half solo else t.fragWords)
  | .mxrd _ x t _ _ => mGroup x.d (cWords t.half false)
  | _ => none

/-- The units of a quarter array, and the core's wide port (R284, R298). -/
inductive MUnit where
  | product | scale | port
  deriving DecidableEq, Repr

/-- The unit a command runs on. -/
def mUnit (i : Instr) : MUnit :=
  match i with
  | .mxm .. => .product
  | .mxc .. => .product
  | .ldf .. => .port
  | .stf .. => .port
  | _ => .scale

/-- The tile a command claims, if any (R295). -/
def mClaim (i : Instr) : Option Nat :=
  match i with
  | .mxm _ _ _ _ part pt _ => if part then some pt.toNat else none
  | .mxc _ _ _ _ _ part pt _ _ => if part then some pt.toNat else none
  | .mzero _ _ _ pt tile _ => if tile then some pt.toNat else none
  | _ => none

/-- The tile a command reads, and whether it keeps it (R295). -/
def mReads (i : Instr) : Option (Nat × Bool) :=
  match i with
  | .msca _ _ _ pt keep _ => some (pt.toNat, keep)
  | .mxrd _ _ _ pt keep => some (pt.toNat, keep)
  | _ => none

/-- The tile a command touches. -/
def mTile (i : Instr) : Option Nat := (mClaim i).or ((mReads i).map (·.1))

/-- The minor code of a command, for its error record (R288). -/
def mMinor (i : Instr) : Nat :=
  match i with
  | .mxm .. => 0
  | .mxc .. => 1
  | .msca .. => 2
  | .mzero .. => 3
  | .ldf .. => 4
  | .stf .. => 5
  | _ => 6

/-- Whether a command is a team-mode mxm (R286). -/
def mTeam (i : Instr) : Bool :=
  match i with
  | .mxm _ _ _ _ _ _ solo => !solo
  | _ => false

/-- The bytes of one line of a fragment or C group in scratchpad (R296). -/
def lineBytes (t : Ty) (c solo : Bool) : Nat :=
  if c then (if t.half then 256 else 512) / (if solo then 4 else 1) else 16 * t.fragWords

/-- The scratchpad ranges a command reads at its start (R291, R292, R296). -/
def MCmd.readsAt (k : MCmd) (q : Nat) : List (Nat × Nat) :=
  match k.instr with
  | .mxc _ _ _ _ _ _ _ _ .perm => [(k.addr, 32)]
  | .msca .. => [(k.addr + 128 * q, 128), (k.addr2, 512)]
  | .ldf _ _ t c solo => (List.range 32).map fun l => (k.addr + l * k.addr2, lineBytes t c solo)
  | _ => []

/-- The scratchpad ranges a command writes at its end (R296). -/
def MCmd.writesAt (k : MCmd) : List (Nat × Nat) :=
  match k.instr with
  | .stf _ _ t c solo => (List.range 32).map fun l => (k.addr + l * k.addr2, lineBytes t c solo)
  | _ => []

/-- Whether a register belongs to a command's destination. -/
def MCmd.fills (k : MCmd) (r : Nat) : Bool :=
  match mDst k.instr with
  | some d => decide (d.1 ≤ r) && decide (r < d.1 + d.2)
  | none => false

/-! ### Results (R287 to R294) -/

/-- The word of thread `t` in a captured register. -/
def MSrc.word (m : MSrc) (t : Nat) : Nat :=
  match m with
  | .cap ws _ => (nth ws t 0).toNat
  | .from_ _ => 0

/-- Whether a source has been captured. -/
def MSrc.ready (m : MSrc) : Bool :=
  match m with
  | .cap .. => true
  | .from_ _ => false

/-- The poison of a captured register. -/
def MSrc.bad (m : MSrc) : Option Poison :=
  match m with
  | .cap _ b => b
  | .from_ _ => none

/-- A captured source with zeros for the threads outside a set: those that do not exist or had exited at a command's issue (R285). -/
def MSrc.only (m : MSrc) (ts : TMask) : MSrc :=
  match m with
  | .cap ws b => .cap ((List.range 128).map fun t => if ts.getLsbD t then nth ws t 0 else 0) b
  | .from_ id => .from_ id

/-- Element K = `k` of line `l` of a fragment (R287). -/
def fragEl (t : Ty) (regs : List MSrc) (l k : Nat) : Exact :=
  let n := elCount t
  elVal t ((nth regs (k % 8 / n) (.cap [] none)).word (4 * l + k / 8)) (k % 8 % n)

/-- The place of position (row, column) in a C group (R287): thread, register and half. -/
def cPlace (half solo : Bool) (r j : Nat) : Nat × Nat × Nat :=
  let per := if solo then 8 else 32
  let x := j % per
  if half then (4 * r + j / per, x / 2, x % 2) else (4 * r + j / per, x, 0)

/-- The code a C group holds at a position. -/
def cCode (half solo : Bool) (regs : List MSrc) (r j : Nat) : Nat :=
  let p := cPlace half solo r j
  let w := (nth regs p.2.1 (.cap [] none)).word p.1
  if half then bitsN w (16 * p.2.2) 16 else w

/-- The C group of 128 threads whose codes a function gives: one list of registers a thread. -/
def cBuild (half solo : Bool) (f : Nat → Nat → Nat) : List (List Word) :=
  let per := if solo then 8 else 32
  (List.range 128).map fun t =>
    (List.range (cWords half solo)).map fun k =>
      let at_ := fun x => f (t / 4) (t % 4 * per + x)
      BitVec.ofNat 32 (if half then at_ (2 * k) % 65536 + 65536 * (at_ (2 * k + 1) % 65536) else at_ k)

/-- The accumulator format of ACC (R289). -/
def accFmt (a : Acc) : Fmt :=
  match a with
  | .af16 => fp16
  | .abf16 => bf16
  | _ => fp32

/-- A term truncated below 2^q toward zero (R127). -/
def truncTerm (q : Int) (x : Exact) : Int :=
  match x with
  | .num n e => if q ≤ e then n * (2 ^ (e - q).toNat : Nat) else (if n < 0 then -1 else 1) * ((n.natAbs / 2 ^ (q - e).toNat : Nat) : Int)
  | _ => 0

/-- The exponent of a nonzero term. -/
def termExp (x : Exact) : Option Int :=
  match x with
  | .num n e => if n = 0 then none else some ((Nat.log2 n.natAbs : Int) + e)
  | _ => none

/-- The product of two elements: exact, an integer zero having no sign (R118, R125). -/
def elMul (t : Ty) (x y : Exact) : Exact :=
  if t.isInteger then
    match x, y with
    | .num a e, .num b k => if a = 0 ∨ b = 0 then .num 0 0 else .num (a * b) (e + k)
    | _, _ => .num 0 0
  else x.mul y

/-- The sum of R127 before its rounding: special values by R126, else truncated terms. -/
def truncSum (terms : List Exact) : Exact :=
  let whole := Exact.sum terms
  match whole with
  | .nan => .nan
  | .inf s => .inf s
  | _ =>
    match (terms.filterMap termExp).foldl (fun (b : Option Int) e => match b with | none => some e | some m => some (max m e)) none with
    | none => whole
    | some emax =>
      let q := emax - 48
      .num ((terms.map (truncTerm q)).foldl (· + ·) 0) q

/-- The fixed tree of R128. -/
def pairTree (k : Nat) (vs : List Exact) : Exact :=
  match k with
  | 0 => vs.headD (.num 0 0)
  | j + 1 => pairTree j ((List.range (vs.length / 2)).map fun i =>
      fp32.decode (fp32.round .rne ((nth vs (2 * i) (.num 0 0)).add (nth vs (2 * i + 1) (.num 0 0)))))

/-- One new C element (R125, R127, R290). -/
def accEl (t : Ty) (acc : Acc) (old : Nat) (terms : List Exact) : Nat :=
  if t.half then fp32.round .rne (truncSum (terms ++ [fp32.decode old]))
  else match acc with
    | .aw32 => (match Exact.sum terms with | .num n e => wrapN 32 ((old : Int) + n * (2 ^ e.toNat : Nat)) | _ => old)
    | _ => (accFmt acc).round .rne (((accFmt acc).decode old).add (Exact.sum terms))

/-- What a command yields. -/
inductive MOut where
  | regs (v : List (List Word))
  | tile (pt : Nat) (x : List (List Exact))
  | stores (v : List (Nat × List Byte))
  deriving DecidableEq, Repr

/-- A product over columns whose elements a function gives: `n` columns, the terms of row r and column j. -/
def mProduct (t : Ty) (acc : Acc) (part : Bool) (pt : Nat) (solo : Bool) (old : List MSrc) (terms : Nat → Nat → List Exact) : MOut :=
  if part then .tile pt ((List.range 32).map fun r => (List.range 128).map fun j => Exact.sum (terms r j))
  else .regs (cBuild acc.half solo fun r j => accEl t acc (cCode acc.half solo old r j) (terms r j))

/-- The constant of mxc (R291): whether B[k][j] is 1. -/
def konstAt (c : Konst) (idx : List Byte) (k j : Nat) : Bool :=
  match c with
  | .ones => true
  | .id => k = j % 32
  | .perm => k = (nth idx (j % 32) 0).toNat % 32

/-- The format of a type of msca and mxrd. -/
def scaleFmt (t : Ty) : Fmt := fmtOf t

/-- An element of a tile: exact zero where none is listed. -/
def Tile.at_ (x : Tile) (r j : Nat) : Exact := nth (nth x.x r []) j (.num 0 0)

/-- The scale word `k` of the bytes msca read. -/
def scaleAt (d : List Byte) (k : Nat) : Exact := regVal .s24 (leNat ((d.drop (4 * k)).take 4))

/-- The result of a command (R290 to R296): `bs` are the B fragments of the columns (the team's four, or its own), `tiles` the
quarter's tiles. -/
def MCmd.out (k : MCmd) (bs : List (List MSrc)) (tiles : List Tile) : MOut :=
  match k.instr with
  | .mxm _ _ t acc part pt solo =>
    mProduct t acc part pt.toNat solo k.c fun r j =>
      (List.range 32).map fun n => elMul t (fragEl t k.a r n) (fragEl t (nth bs (j / 32) []) (j % 32) n)
  | .mxc _ _ t tr acc part pt solo c =>
    let terms := fun (r j : Nat) =>
      (List.range 32).map fun n => elMul t (fragEl t k.a r n) (if konstAt c k.data n j then .num 1 0 else .num 0 0)
    let el := fun (r j : Nat) =>
      let old := cCode acc.half solo k.c r j
      if t.half && c = .ones then
        fp32.round .rne ((fp32.decode old).add (pairTree 5 ((List.range 32).map fun n => fragEl t k.a r n)))
      else accEl t acc old (terms r j)
    if part then mProduct t acc true pt.toNat solo k.c terms
    else .regs (cBuild acc.half solo fun r j => if tr then el (j % 32) (j / 32 * 32 + r) else el r j)
  | .msca _ _ t pt _ div =>
    let x := nth tiles pt.toNat {}
    .regs (cBuild t.half false fun r j =>
      let p := (((x.at_ r j).mul (scaleAt k.data r)).mul (scaleAt k.data (32 + j))).scale (-(divLog2 div : Int))
      (scaleFmt t).round .rne (((scaleFmt t).decode (cCode t.half false k.c r j)).add p))
  | .mxrd _ _ t pt _ =>
    let x := nth tiles pt.toNat {}
    .regs (cBuild t.half false fun r j =>
      if t.isInt then wrapN 32 (toRange .rne (-(2 ^ 31 : Nat)) ((2 ^ 31 : Nat) - 1) (x.at_ r j)) else (scaleFmt t).round .rne (x.at_ r j))
  | .mzero _ _ t pt tile solo =>
    if tile then .tile pt.toNat ((List.range 32).map fun _ => List.replicate 128 (.num 0 0)) else .regs (cBuild t.half solo fun _ _ => 0)
  | .ldf _ _ t c solo =>
    let lb := lineBytes t c solo
    .regs ((List.range 128).map fun th =>
      (List.range (lb / 16)).map fun j => BitVec.ofNat 32 (leNat ((k.data.drop (th / 4 * lb + th % 4 * (lb / 4) + 4 * j)).take 4)))
  | .stf _ _ t c solo =>
    let lb := lineBytes t c solo
    .stores ((List.range 128).map fun th =>
      (k.addr + th / 4 * k.addr2 + th % 4 * (lb / 4), k.b.flatMap fun m => leBytes 4 (m.word th)))
  | _ => .stores []

/-- The result of a command that reads a tile its warp does not own: a free value in every register (log entry 111). -/
def strayOut (k : MCmd) : MOut :=
  .regs ((List.range 128).map fun t => (List.range (match mDst k.instr with | some d => d.2 | none => 0)).map (Config.strayTile k.id t))

/-! ### Issue (R285, R286, R295, R297) -/

/-- The commands of a warp in its quarter's queue, oldest first. -/
def State.mqOf (s : State) (w : Warp) (gid : Nat) : List MCmd :=
  (s.quarter w.core w.quarter).mq.filter fun k => k.gid = gid && k.wi = w.wi

/-- The last queued command of a warp that fills a register (R297). -/
def lastFiller (ks : List MCmd) (r : Nat) : Option Nat := ((ks.filter fun k => k.fills r).getLast?).map (·.id)

/-- A register group's empty registers that no group C command will fill (R297): its W bit, as in `emptyAt`. -/
def mEmptyAt (w : Warp) (th : Thread) (ks : List MCmd) (f : Fld) : Option Bool :=
  match f.x with
  | .m i wt =>
    if (List.range f.n).any fun k => !(nth th.m (i.toNat + k) {}).full && (lastFiller ks (i.toNat + k)).isNone then some wt else none
  | _ => emptyAt w th f.x f.n

/-- The registers that fields find empty and no group C command will fill. -/
def mOwedBy (w : Warp) (th : Thread) (ks : List MCmd) (fs : List Fld) : List Nat :=
  fs.flatMap fun f =>
    match f.x with
    | .m i _ => (List.range f.n).filterMap fun k =>
        if !(nth th.m (i.toNat + k) {}).full && (lastFiller ks (i.toNat + k)).isNone then some (64 + 256 * th.t + i.toNat + k) else none
    | _ => owedBy w th [f]

/-- The gate of a group C instruction (R38, R297, R299): a register that an earlier command of the warp will fill is neither empty nor
read here. -/
def State.mGate (s : State) (i : Iss) (src d : List Fld) (dRead : Bool) (chk : Thread → Option Flt) : Gate :=
  let ks := s.mqOf i.w i.r.1
  let all := src ++ d
  let poison := fun (th : Thread) (f : Fld) =>
    match f.x with
    | .m r _ => (List.range f.n).findSome? fun k =>
        if (lastFiller ks (r.toNat + k)).isSome then none else (nth th.m (r.toNat + k) {}).bad
    | _ => poisonAt i.w th f.x f.n
  gateOf i.on
    (fun th => (all.find? fun f => mEmptyAt i.w th ks f = some false).map fun f => { code := fEmpty, addr := opField f.x })
    (fun th => all.any fun f => (mEmptyAt i.w th ks f).isSome) (fun th => mOwedBy i.w th ks all) []
    fun th => ((if dRead then all else src).findSome? fun f => (poison th f).map (poisonFlt f.x)).or (chk th)

/-- The registers of a source group captured, or awaited from the command that will fill them (R297). -/
def State.capture (s : State) (i : Iss) (x : Opnd) (n : Nat) : List MSrc :=
  let ks := s.mqOf i.w i.r.1
  match x with
  | .m r _ => (List.range n).map fun k =>
      match lastFiller ks (r.toNat + k) with
      | some id => .from_ id
      | none => .cap ((List.range 128).map fun t =>
          match i.on.find? fun th => th.t = t with | some th => (nth th.m (r.toNat + k) {}).v | none => 0) none
  | _ => []

/-- F_MASK unless the whole warp takes part (R285). -/
def Iss.wholeFault (i : Iss) : Option Flt :=
  match leastBy id ((i.w.live.filter fun th => !i.on.any fun u => u.t = th.t).map (·.t)) with
  | some t => some { code := fMask, addr := 4 * 2 ^ 28 + t }
  | none => none

/-- Whether a warp owns a tile at this point of its command order (R295). -/
def State.ownsTile (s : State) (i : Iss) (pt : Nat) : Bool :=
  let mine := (nth (s.quarter i.w.core i.w.quarter).tiles pt {}).owner = some i.r
  (s.mqOf i.w i.r.1).foldl (fun o k =>
    let o := o || mClaim k.instr = some pt
    if mReads k.instr = some (pt, false) then false else o) mine

/-- The team-mode entries of team `m` of a gang, with their cores and quarters (R286). -/
def State.teamEntries (s : State) (gid m : Nat) : List (Nat × Nat × MCmd) :=
  s.cores.flatMap fun c => (List.range 4).flatMap fun q =>
    ((nth c.2.quarters q {}).mq.filter fun k => k.gid = gid && k.wi / 4 = m && mTeam k.instr).map fun k => (c.1, q, k)

/-- The faults of a team's mxm: a missing member or a relay-capable launch, then a member whose FN differs (R286). -/
def State.teamFault (s : State) (i : Iss) (ins : Instr) : Option Flt :=
  if !mTeam ins then none
  else
    let m := i.w.wi / 4
    if i.g.relayCap || (List.range 4).any (fun k => (i.g.warp? (4 * m + k)).isNone) then some { code := fMember }
    else match (s.teamEntries i.r.1 m).find? fun e => e.2.2.teamN = i.w.teamSeq with
      | some e => if e.2.2.instr.fn ≠ ins.fn then some { code := fMask, addr := 3 * 2 ^ 28 + e.2.2.instr.fn.toNat } else none
      | none => none

/-! ### Discarded team commands (R286) -/

/-- Sources of a warp's commands that await a command's registers, given by register, in the threads that took part in them (R285, R297). -/
def State.feedBy (s : State) (core q : Nat) (k : MCmd) (give : Nat → MSrc) : State :=
  let feedOne := fun (x : Opnd) (ms : List MSrc) =>
    match x with
    | .m r _ => (List.range ms.length).map fun j =>
        match nth ms j (.from_ 0) with
        | .from_ id => if id = k.id then give (r.toNat + j) else .from_ id
        | c => c
    | _ => ms
  s.modQuarter core q fun qa =>
    { qa with mq := qa.mq.map fun j =>
        if j.gid = k.gid ∧ j.wi = k.wi then
          match j.instr.opnds with
          | some (_, d, a, b, _) =>
            let take := fun (x : Opnd) (ms : List MSrc) => (feedOne x ms).map fun m => m.only j.threads
            { j with a := take a j.a, b := take b j.b, c := take d j.c }
          | none => j
        else j }

/-- Commands of a warp that wait for a command's registers capture them as its threads now hold them (R297). -/
def State.feed (s : State) (core q : Nat) (k : MCmd) (word : Nat → Nat → Word) (bad : Option Poison) : State :=
  let base := match mDst k.instr with | some d => d.1 | none => 0
  s.feedBy core q k fun r => .cap ((List.range 128).map fun t => word t (r - base)) bad

/-- The destination registers that no later command of the warp will fill. -/
def State.finalRegs (s : State) (core q : Nat) (k : MCmd) : List Nat :=
  match mDst k.instr with
  | none => []
  | some d =>
    let later := (s.quarter core q).mq.filter fun j => j.gid = k.gid && j.wi = k.wi && j.id ≠ k.id
    ((List.range d.2).map fun j => d.1 + j).filter fun r => !later.any fun j => j.fills r

/-- The destination registers of a command written by one function of thread and register, in its threads that live. -/
def State.putRegsOf (s : State) (core q : Nat) (k : MCmd) (f : Thread → Nat → Reg → Reg) : State :=
  let rs := s.finalRegs core q k
  let upd := fun (th : Thread) =>
    if k.threads.getLsbD th.t && !th.exited then { th with m := rs.foldl (fun m r => modAt m r (f th r)) th.m } else th
  let w? := s.warp? (k.gid, k.wi)
  let owed := k.threads.toNat
  let s := s.modWarp (k.gid, k.wi) fun w => Warp.notedFrom (w.mapThreads upd).refilled w
  match w? with
  | some w =>
    let keys := (List.range 128).flatMap fun t => if bitN owed t then rs.map fun r => 64 + 256 * t + r else []
    if w.waitsFor keys then s.wakeCause (k.gid, k.wi) 1 else s
  | none => s

/-- The counter of a command: 1,024 bytes, and its failure (R288, R299). -/
def State.countM (s : State) (q : Nat) (k : MCmd) (code : Nat) : State :=
  match k.cnt with
  | some (_, r) => s.endCount k.gid r 1024 (if code = 0 then none else some (errorRecord code q (8 + mMinor k.instr) k.seq))
  | none => s

/-- An entry leaves its queue. R284 does not say when a started command's entry is free: the model keeps it until the command ends
(DESIGN CHOICE, log entry 120). -/
def State.dropM (s : State) (core q id : Nat) : State :=
  (s.modQuarter core q fun r => { r with mq := r.mq.filter fun k => k.id ≠ id }).wakeCore core

/-- The tiles of a warp whose threads have all exited are free once no command of it is left (R295). -/
def State.freeTiles (s : State) (r : WRef) : State :=
  match s.warp? r with
  | none => s
  | some w =>
    if w.live ≠ [] || s.mqOf w r.1 ≠ [] then s
    else s.modQuarter w.core w.quarter fun q =>
      { q with tiles := q.tiles.map fun (t : Tile) => if t.owner = some r then { t with owner := none } else t }

/-- A team entry is discarded: its destinations become full with their old values, a counted one fails with CODE 0x3002 (R286). What
awaited its registers awaits what the command itself would have read there: the value captured, which an earlier command may have yielded
meanwhile, or that command (R297). -/
def State.discardM (s : State) (e : Nat × Nat × MCmd) : State :=
  let (core, q, k) := e
  let base := match mDst k.instr with | some d => d.1 | none => 0
  let old := fun (th : Thread) (r : Nat) (now : Reg) =>
    match nth k.c (r - base) (.from_ 0) with
    | .cap ws bad => { v := nth ws th.t 0, full := true, bad := bad }
    | .from_ _ => { now with full := true }
  let s := (s.putRegsOf core q k old).feedBy core q k fun r => nth k.c (r - base) (.cap [] none)
  ((s.dropM core q k.id).freeTiles (k.gid, k.wi)).countM q k fUnreach

/-- The team entries of a gang's team that a warp still owes (R286). -/
def State.lacking (s : State) (gid m : Nat) (want : List Nat → Bool) : List (Nat × Nat × MCmd) :=
  let es := s.teamEntries gid m
  es.filter fun e => want ((es.filter fun f => f.2.2.teamN = e.2.2.teamN).map fun f => f.2.2.wi)

/-- Team commands that lack the entry of a warp whose threads have all exited are discarded (R286). -/
def State.teamExit (s : State) (gid wi : Nat) : State :=
  (s.lacking gid (wi / 4) fun ws => !ws.contains wi).foldl State.discardM s

/-- A team's new command is discarded at once where a member's threads have all exited before their entry (R286). -/
def State.teamGone (s : State) (i : Iss) (ins : Instr) : State :=
  if mTeam ins then
    (i.g.warps.filter fun w => w.wi / 4 = i.w.wi / 4 && w.live.isEmpty).foldl (fun s w => s.teamExit i.r.1 w.wi) s
  else s

/-! ### Placing a command (R284, R285) -/

/-- A group C instruction: its fragments A and B and in-place D, its addresses, and the checks of its operand values. -/
structure MForm where
  ins  : Instr
  src  : List Fld
  dst  : List Fld
  a    : Fld := ⟨.none, 0⟩
  b    : Fld := ⟨.none, 0⟩
  c    : Fld := ⟨.none, 0⟩
  imm  : Option (BitVec 21) := none
  adr  : State → Iss → Thread → Nat × Nat := fun _ _ _ => (0, 0)
  chk  : State → Iss → Thread → Option Flt := fun _ _ _ => none

/-- The command placed in the queue. -/
def State.placeCmd (s : State) (i : Iss) (f : MForm) (th : Thread) : State :=
  let (id, s0) := s.fresh
  let cnt := (f.imm.bind counterOf).map fun p => (p.1, i.g.refAt i.w p.1 p.2)
  let ad := f.adr s i th
  let k : MCmd := {
    id := id, seq := (s.quarter i.w.core i.w.quarter).mSeq, gid := i.r.1, wi := i.r.2, instr := f.ins,
    threads := maskOf (i.on.map (·.t)), a := s.capture i f.a.x f.a.n, b := s.capture i f.b.x f.b.n, c := s.capture i f.c.x f.c.n,
    addr := ad.1, addr2 := ad.2, cnt := cnt, teamN := i.w.teamSeq }
  let s1 := s0.modQuarter i.w.core i.w.quarter fun q => { q with mq := q.mq ++ [k], mSeq := q.mSeq + 1 }
  let s2 := if mTeam f.ins then s1.modWarp i.r fun w => { w with teamSeq := w.teamSeq + 1 } else s1
  let s3 := match mDst f.ins with
    | some d => i.on.foldl (fun (s : State) (th : Thread) => s.emptyDst i.r th.t (.m d.1 d.2)) s2
    | none => s2
  s3.takeCounter i.r.1 cnt

/-- The faults of a group C instruction at step 5: the whole warp, the team, its operand values, its tile, its counter (R285, R286,
R259, R295). -/
def State.mFault (s : State) (i : Iss) (f : MForm) (th : Thread) : Option Flt :=
  i.wholeFault.or ((s.teamFault i f.ins).or ((f.chk s i th).or
    ((match mReads f.ins with
      | some (pt, _) => if s.ownsTile i pt then none else some ({ code := fStale, addr := (f.ins.op.getD 0).toNat + pt * 65536 } : Flt)
      | none => none).or
    (match f.imm with | some imm => s.counterFault i.g i.w imm | none => none))))

/-- Whether an instruction is stf, which stores (R185, R296). -/
def isStf (i : Instr) : Bool :=
  match i with
  | .stf .. => true
  | _ => false

/-- A group C instruction (R284, R285): where no thread takes part it does nothing; where the queue is full it blocks. -/
def State.mForm (s : State) (h : Hdr) (f : MForm) : Host.Outcome State Fault Refusal :=
  run s h fun i =>
    s.through i (s.mGate i f.src f.dst (f.c.n ≠ 0) (s.mFault i f)) <|
      match i.on with
      | [] => (s.advance i).closeIssue i h.e 0 false
      | th :: _ =>
        if 8 ≤ (s.quarter i.w.core i.w.quarter).mq.length then s.blockFor i (.entry none)
        else (((s.advance i).placeCmd i f th).teamGone i f.ins).closeIssue i h.e 0 (isStf f.ins)

/-- mxm (R290). -/
def execMxm (h : Hdr) (x : VOps) (t : Ty) (acc : Acc) (part pt solo : Bool) (s : State) : Host.Outcome State Fault Refusal :=
  let n := cWords acc.half solo
  s.mForm h {
    ins := .mxm h x t acc part pt solo, src := [⟨x.a, t.fragWords⟩, ⟨x.b, t.fragWords⟩], dst := if part then [] else [⟨x.d, n⟩],
    a := ⟨x.a, t.fragWords⟩, b := ⟨x.b, t.fragWords⟩, c := if part then ⟨.none, 0⟩ else ⟨x.d, n⟩, imm := some x.imm }

/-- mxc (R291). -/
def execMxc (h : Hdr) (x : VOps) (t : Ty) (tr : Bool) (acc : Acc) (part pt solo : Bool) (k : Konst) (s : State) :
    Host.Outcome State Fault Refusal :=
  let n := cWords acc.half solo
  let idx := fun (s : State) (i : Iss) (th : Thread) => s.value i.g i.w th x.b 1 x.imm
  s.mForm h {
    ins := .mxc h x t tr acc part pt solo k, src := [⟨x.a, t.fragWords⟩] ++ (if k = .perm then [⟨x.b, 1⟩] else []),
    dst := if part then [] else [⟨x.d, n⟩], a := ⟨x.a, t.fragWords⟩, c := if part then ⟨.none, 0⟩ else ⟨x.d, n⟩, imm := some x.imm,
    adr := fun s i th => (idx s i th, 0),
    chk := fun s i th =>
      if k ≠ .perm then none
      else (firstFault [(idx s i th % 32 = 0, fAlign, idx s i th)]).or (i.g.spanFault .sp (idx s i th) 32) }

/-- msca (R292). -/
def execMsca (h : Hdr) (x : VOps) (t : Ty) (pt keep : Bool) (div : Div) (s : State) : Host.Outcome State Fault Refusal :=
  let n := cWords t.half false
  let adr := fun (s : State) (i : Iss) (th : Thread) => (s.value i.g i.w th x.a 1 x.imm, s.value i.g i.w th x.b 1 x.imm)
  s.mForm h {
    ins := .msca h x t pt keep div, src := [⟨x.a, 1⟩, ⟨x.b, 1⟩], dst := [⟨x.d, n⟩], c := ⟨x.d, n⟩, imm := some x.imm, adr := adr,
    chk := fun s i th =>
      let p := adr s i th
      (firstFault [(p.1 % 4 = 0, fAlign, p.1), (p.2 % 4 = 0, fAlign, p.2)]).or
        ((i.g.spanFault .sp (p.1 + 128 * i.w.quarter) 128).or (i.g.spanFault .sp p.2 512)) }

/-- mzero (R294). -/
def execMzero (h : Hdr) (x : VOps) (t : Ty) (pt tile solo : Bool) (s : State) : Host.Outcome State Fault Refusal :=
  s.mForm h {
    ins := .mzero h x t pt tile solo, src := [], dst := if tile then [] else [⟨x.d, cWords t.half solo⟩], imm := some x.imm }

/-- mxrd (R293). -/
def execMxrd (h : Hdr) (x : VOps) (t : Ty) (pt keep : Bool) (s : State) : Host.Outcome State Fault Refusal :=
  s.mForm h { ins := .mxrd h x t pt keep, src := [], dst := [⟨x.d, cWords t.half false⟩], imm := some x.imm }

/-- The address and pitch of ldf and stf. -/
def State.lineAdr (s : State) (x : VOps) (lb : Nat) (i : Iss) (th : Thread) : Nat × Nat :=
  (accAddr .sp (s.value i.g i.w th x.a 1 x.imm) x.imm, if x.c.cls = .none then lb else s.value i.g i.w th x.c 1 x.imm)

/-- The faults of ldf and stf (R296). -/
def State.lineFault (s : State) (x : VOps) (lb : Nat) (i : Iss) (th : Thread) : Option Flt :=
  let p := s.lineAdr x lb i th
  (firstFault [(p.1 % 16 = 0, fAlign, p.1), (p.2 % 16 = 0, fAlign, p.2), (lb ≤ p.2, fIllmod, p.2)]).or
    ((List.range 32).findSome? fun l => i.g.spanFault .sp (p.1 + l * p.2) lb)

/-- The scalar operands of ldf and stf. -/
def lineSrc (x : VOps) : List Fld := if x.c.cls = .none then [] else [⟨x.c, 1⟩]

/-- ldf (R296). -/
def execLdf (h : Hdr) (x : VOps) (t : Ty) (c solo : Bool) (s : State) : Host.Outcome State Fault Refusal :=
  let lb := lineBytes t c solo
  s.mForm h {
    ins := .ldf h x t c solo, src := ⟨x.a, 1⟩ :: lineSrc x, dst := [⟨x.d, lb / 16⟩],
    adr := fun s i th => s.lineAdr x lb i th, chk := fun s i th => s.lineFault x lb i th }

/-- stf (R296). -/
def execStf (h : Hdr) (x : VOps) (t : Ty) (c solo : Bool) (s : State) : Host.Outcome State Fault Refusal :=
  let lb := lineBytes t c solo
  s.mForm h {
    ins := .stf h x t c solo, src := [⟨x.a, 1⟩, ⟨x.b, lb / 16⟩] ++ lineSrc x, dst := [], b := ⟨x.b, lb / 16⟩,
    adr := fun s i th => s.lineAdr x lb i th, chk := fun s i th => s.lineFault x lb i th }

/-! ### Starts (R286, R295, R297) -/

/-- Whether two lists of ranges touch. -/
def rangesMeet (a b : List (Nat × Nat)) : Bool := a.any fun p => b.any fun q => overlaps p.1 p.2 q.1 q.2

/-- Whether a later command of a warp waits for an earlier one: a shared tile or destination, or scratchpad that one writes (R297). -/
def mConflict (q : Nat) (late early : MCmd) : Bool :=
  (match mTile late.instr, mTile early.instr with | some a, some b => a = b | _, _ => false) ||
  (match mDst late.instr, mDst early.instr with | some a, some b => overlaps a.1 a.2 b.1 b.2 | _, _ => false) ||
  rangesMeet late.writesAt (early.writesAt ++ early.readsAt q) || rangesMeet (late.readsAt q) early.writesAt

/-- Whether a command's inputs and unit allow its start (R295, R297). -/
def State.mayStart (s : State) (core q : Nat) (k : MCmd) : Bool :=
  let qa := s.quarter core q
  let before := (qa.mq.takeWhile fun j => j.id ≠ k.id).filter fun j => j.gid = k.gid && j.wi = k.wi
  let unit := mUnit k.instr
  let busy :=
    if unit = .port then (s.core core).quarters.any fun r => r.mq.any fun j => j.started && mUnit j.instr = .port
    else qa.mq.any fun j => j.started && mUnit j.instr = unit
  !k.started && !busy && (k.a ++ k.b ++ k.c).all MSrc.ready && !before.any (mConflict q k) &&
    (match mClaim k.instr with
     | some pt => (match (nth qa.tiles pt {}).owner with | some o => o = (k.gid, k.wi) | none => true)
     | none => true)

/-- One entry of a queue changed. -/
def State.modM (s : State) (core q id : Nat) (f : MCmd → MCmd) : State :=
  s.modQuarter core q fun r => { r with mq := r.mq.map fun k => if k.id = id then f k else k }

/-- Whether a command would read a tile that its warp does not own by now, for the command that was to claim it has been discarded (R286,
R295; log entry 111). -/
def State.strays (s : State) (core q : Nat) (k : MCmd) : Bool :=
  match mReads k.instr with
  | some (pt, _) => (nth (s.quarter core q).tiles pt {}).owner ≠ some (k.gid, k.wi)
  | none => false

/-- A command starts: it claims its tile, and reads its scratchpad (R295, R297, R299). -/
def State.startM (s : State) (core q : Nat) (k : MCmd) : State :=
  let rs := k.readsAt q
  let (bytes, bad) : List Byte × Bool := match s.gang? k.gid with
    | some g => (rs.flatMap fun p => g.padBytes (g.gcOf k.wi) p.1 p.2, rs.any fun (p : Nat × Nat) => s.padBad k.gid (g.gcOf k.wi) p.1 p.2)
    | none => ([], false)
  let srcBad := (k.a ++ k.b ++ k.c).findSome? MSrc.bad
  let tileBad := (mReads k.instr).bind fun p => (nth (s.quarter core q).tiles p.1 {}).bad
  let stray := s.strays core q k
  let s := s.modM core q k.id fun k => { k with started := true, stray := stray, data := bytes, bad := srcBad.or (tileBad.or (if bad then some .ecc else none)) }
  match mClaim k.instr with
  | some pt => s.modQuarter core q fun r => { r with tiles := modAt r.tiles pt fun t => { t with owner := some (k.gid, k.wi) } }
  | none => s

/-- MATRIX_COMMAND_START: a command that is no team command starts (R297). -/
def execMatrixCommandStart (core q id : Nat) (s : State) : Host.Outcome State Fault Refusal :=
  .next <| match (s.quarter core q).mq.find? fun k => k.id = id with
    | none => s
    | some k => if mTeam k.instr || !s.mayStart core q k then s else s.startM core q k

/-- The entries of a team's oldest command that has them all (R286). -/
def State.teamReady (s : State) (gid m : Nat) : List (Nat × Nat × MCmd) :=
  let es := s.teamEntries gid m
  match leastBy id (es.map fun e => e.2.2.teamN) with
  | none => []
  | some n =>
    let mine := es.filter fun e => e.2.2.teamN = n
    if mine.length = 4 then mine else []

/-- TEAM_COMMAND_START: a team command starts on all four quarter arrays at once (R286). -/
def execTeamCommandStart (gid team : Nat) (s : State) : Host.Outcome State Fault Refusal :=
  .next <|
    let es := s.teamReady gid team
    if es ≠ [] && es.all fun e => s.mayStart e.1 e.2.1 e.2.2 then es.foldl (fun s e => s.startM e.1 e.2.1 e.2.2) s else s

/-! ### Ends (R286, R297 to R299) -/

/-- Stores of stf: the bytes of threads that live, none of a live object's (R243, R285, R298), poisoned where the command is. -/
def State.stfWrite (s : State) (k : MCmd) (bad : Bool) (th : Nat) (a : Nat) (bs : List Byte) : State :=
  match s.gang? k.gid with
  | none => s
  | some g =>
    let lives := k.threads.getLsbD th && (match (g.warp? k.wi).bind fun w => w.thread? th with | some u => !u.exited | none => false)
    if !lives then s
    else (List.range (bs.length / 4)).foldl (fun s j =>
      let o := a + 4 * j
      if g.touchesObj (g.gcOf k.wi) o 4 then s
      else
        let s := s.padWrite k.gid (g.gcOf k.wi) o ((bs.drop (4 * j)).take 4)
        if bad then { s with badPad := s.badPad ++ [(k.gid, g.gcOf k.wi, o / 4)] } else s) s

/-- One entry's effects (R298): registers, tile, stf bytes, what waits for them, its counter. -/
def State.endM (s : State) (core q : Nat) (k : MCmd) (bad : Option Poison) (out : MOut) : State :=
  let s := match out with
    | .regs v =>
      let word := fun t j => nth (nth v t []) j 0
      let base := match mDst k.instr with | some d => d.1 | none => 0
      (s.putRegsOf core q k fun th r _ => { v := word th.t (r - base), full := true, bad := bad }).feed core q k word bad
    | .tile pt x => s.modQuarter core q fun r => { r with tiles := modAt r.tiles pt fun t => { t with x := x, bad := bad } }
    | .stores v => (List.range v.length).foldl (fun s th =>
        match v[th]? with | some p => s.stfWrite k bad.isSome th p.1 p.2 | none => s) s
  let s := match mReads k.instr with
    | some (pt, false) => if k.stray then s else s.modQuarter core q fun r => { r with tiles := modAt r.tiles pt fun t => { t with owner := none } }
    | _ => s
  let code := match bad with | none => 0 | some .pipe => fPipe | some .ecc => fEcc
  (((((s.dropM core q k.id).freeTiles (k.gid, k.wi)).countM q k code).unreachBlock k.gid)).reap k.gid

/-- MATRIX_COMMAND_END: a started command ends (R298); with a second detection its destinations are poisoned, after a first it has
run again (R299). A team command ends on all four quarter arrays. -/
def execMatrixCommandEnd (core q id detections : Nat) (s : State) : Host.Outcome State Fault Refusal :=
  .next <| match (s.quarter core q).mq.find? fun k => k.id = id with
    | none => s
    | some k =>
      if !k.started then s
      else
        let es := if mTeam k.instr then
            (s.teamEntries k.gid (k.wi / 4)).filter fun e => e.2.2.teamN = k.teamN && e.2.2.started
          else [(core, q, k)]
        let byQ := (List.range 4).flatMap fun n => (es.filter fun e => e.2.1 = n).map fun e => e.2.2.b
        let bs := if mTeam k.instr then byQ else [k.b]
        let srcBad := es.findSome? fun e => e.2.2.bad
        let bad := if 2 ≤ detections then some .pipe else srcBad
        let outs := es.map fun e => (e, if e.2.2.stray then strayOut e.2.2 else e.2.2.out bs (s.quarter e.1 e.2.1).tiles)
        outs.foldl (fun s o => s.endM o.1.1 o.1.2.1 o.1.2.2 bad o.2) s

/-- The team deadlock of R286: every live thread of the team waits in the sense of R159, a jwaitt within its limit among them, or is
blocked on a register that a team command lacking an entry would fill: those commands are discarded, and F_UNREACH is due in the
blocked threads. -/
def State.unreachTeam (s : State) (r : WRef) : State :=
  match s.gang? r.1 with
  | none => s
  | some g =>
    let m := r.2 / 4
    let es := s.lacking r.1 m fun ws => ws.length < 4
    let ws := g.warps.filter fun w => w.wi / 4 = m
    let blocked := fun (w : Warp) (th : Thread) =>
      match th.wait with
      | .regs owed => owed.any fun k => decide (64 ≤ k) && !(w.regAt k).full &&
          es.any fun e => e.2.2.wi = w.wi && e.2.2.threads.getLsbD ((k - 64) / 256) && e.2.2.fills ((k - 64) % 256)
      | _ => false
    let waits := fun (w : Warp) (th : Thread) => th.wait.rejoin && !th.wait.overdue (s.now w.core)
    if es = [] || ws.any (fun w => w.live.any fun th => !waits w th && !blocked w th) then s
    else
      let hit := ws.map fun w => (w.wi, (w.live.filter (blocked w)).map (·.t))
      let s := es.foldl State.discardM s
      hit.foldl (fun s p => s.modThreads (r.1, p.1) p.2 fun th => { th with wait := .unreach 0x300 }) s

end Sys2Proof.Machine
end

