-- ==== Sys2Proof/Machine/WarpOps.lean ====
section
/-!
DEFINITION. Group 7: exchange groups, votes, reductions and rejoin masks (spec/08 R156 to R168).
-/
namespace Sys2Proof.Machine

/-! ### Membership (R157) -/

/-- The membership a thread presents. -/
def State.membership (s : State) (i : Iss) (x : VOps) (full : Bool) (th : Thread) : TMask :=
  if full then BitVec.allOnes 128 else BitVec.ofNat 128 (s.value i.g i.w th x.c 4 x.imm)

/-- F_MASK of a presenting thread: outside its own membership, or overlapping one that differs (R157). -/
def maskFault (ms : List (Nat × TMask)) (th : Thread) : Option Flt :=
  match ms.find? fun p => p.1 = th.t with
  | none => none
  | some p =>
    if !p.2.getLsbD th.t then some { code := fMask, addr := 2 ^ 28 + th.t }
    else if ms.any fun q => q.2 ≠ p.2 && (q.2.getLsbD th.t || p.2.getLsbD q.1) then some { code := fMask, addr := 2 ^ 29 + th.t }
    else none

/-- Whether a group completes: the active set holds every member that lives (R157). -/
def Iss.complete (i : Iss) (m : TMask) : Bool :=
  i.w.threads.all fun th => !m.getLsbD th.t || th.exited || i.act.any fun u => u.t = th.t

/-- The present members of a thread's group: the presenting threads of its membership (R157). -/
def Iss.mates (i : Iss) (mem : Thread → TMask) (th : Thread) : List Thread := i.on.filter fun u => mem u = mem th

/-- A synchronising instruction (R157, R158): the threads of groups that complete act, and they and the guard-false ones go on; threads
of a group that does not complete wait before it, and the stride ends. `val` gives what a present member writes from its group's
present members, in ascending t (R64); `also` is a completed group's effect beside that, and while `busy` holds of one the issue stalls
in its slot. -/
def State.syncForm (s : State) (h : Hdr) (x : VOps) (full : Bool) (n : Wid) (extra : Nat)
    (val : Iss → List Thread → Thread → Nat) (also : Iss → TMask → State → State := fun _ _ s => s)
    (busy : Iss → TMask → Bool := fun _ _ => false) :
    Host.Outcome State Fault Refusal :=
  run s h fun i =>
    let src := [⟨x.a, n.a⟩, ⟨x.b, n.b⟩, ⟨x.c, if full then 0 else 4⟩]
    let dst := if n.d = 0 then [] else [⟨x.d, n.d⟩]
    let mem := s.membership i x full
    let past := s.windowOver i.g i.w src x.imm
    s.through i (s.gate i i.on src dst false x.imm (maskFault (i.on.map fun th => (th.t, mem th)))) <|
      let groups := (i.on.map mem).eraseDups
      let acting := i.on.filter fun th => i.complete (mem th)
      let held := (i.on.filter fun th => !i.complete (mem th)).map (·.t)
      if (groups.filter i.complete).any (busy i) then s
      else
      let s1 := (s.advance i).noteOver { i with on := acting } past
      let s2 := (groups.filter i.complete).foldl (fun s m => also i m s) s1
      let s3 := acting.foldl (fun s th => s.modWarp i.r fun w => w.put th.t x.d n.d (val i (i.mates mem th) th)) s2
      let s4 := held.foldl (fun s t => s.stay i t .sync) s3
      let s5 := s4.closeSome h i held (if acting = [] then 0 else extra) false
      if held = [] then s5 else (s5.unreachWarp i.r).unreachBlock i.r.1

/-- A of thread `u` as an exchange reads it: 0 unless it is present (R157). -/
def State.present (s : State) (i : Iss) (x : VOps) (n : Nat) (ps : List Thread) (u : Nat) : Nat :=
  match ps.find? fun th => th.t = u with
  | some th => s.value i.g i.w th x.a n x.imm
  | none => 0

/-- An exchange whose source thread each present member computes from its selector (R160, R164). -/
def State.exchange (s : State) (h : Hdr) (x : VOps) (t : Ty) (full : Bool) (extra : Nat) (src : Nat → Nat → Nat) :
    Host.Outcome State Fault Refusal :=
  s.syncForm h x full { d := t.words, a := t.words, b := 1 } extra fun i ps th =>
    s.present i x t.words ps (src th.t (s.value i.g i.w th x.b 1 x.imm))

/-- The source thread of shfl (R160). -/
def shflSrc (mode : Shf) (t b : Nat) : Nat :=
  let k := t % 16
  let row := t - k
  let sel := b % 16
  match mode with
  | .pick => row + sel
  | .rot => row + (k + sel) % 16
  | .flip => row + (k ^^^ sel)
  | .seg =>
    let sz := 2 ^ min (bitsN b 4 3) 4
    row + (k - k % sz) + sel % sz

/-- The source thread of shflw (R160). -/
def shflwSrc (mode : Shf) (t b : Nat) : Nat :=
  match mode with
  | .rot => (t + b % 128) % 128
  | .flip => t ^^^ (b % 128)
  | _ => b % 128

/-- shfl (R160). -/
def execShfl (h : Hdr) (x : VOps) (t : Ty) (mode : Shf) (full : Bool) (s : State) : Host.Outcome State Fault Refusal :=
  s.exchange h x t full 0 (shflSrc mode)

/-- shflw (R160). -/
def execShflw (h : Hdr) (x : VOps) (t : Ty) (mode : Shf) (full : Bool) (s : State) : Host.Outcome State Fault Refusal :=
  s.exchange h x t full 8 (shflwSrc mode)

/-- bcast (R164): a warp register takes A of thread b[6:0]. -/
def execBcast (h : Hdr) (x : VOps) (t : Ty) (full : Bool) (s : State) : Host.Outcome State Fault Refusal :=
  s.exchange h x t full 1 fun _ b => b % 128

/-- vread (R164): the reader's own lane of row b[2:0]. -/
def execVread (h : Hdr) (x : VOps) (t : Ty) (full : Bool) (s : State) : Host.Outcome State Fault Refusal :=
  s.exchange h x t full 0 fun t b => b % 8 * 16 + t % 16

/-- What vote summarises: the present members' predicates (R161). -/
def voteN (mode : Vote) (ps : List (Nat × Bool)) : Nat :=
  let yes := (ps.filter (·.2)).map (·.1)
  match mode with
  | .count => yes.length + 256 * ps.length
  | .mask => yes.foldl (fun n t => n + 2 ^ t) 0
  | .low => (leastBy id yes).getD 0xFFFFFFFF
  | .high => (yes.foldl (fun (b : Option Nat) t => some (max (b.getD 0) t)) none).getD 0xFFFFFFFF

/-- vote (R161). -/
def execVote (h : Hdr) (x : VOps) (mode : Vote) (full : Bool) (s : State) : Host.Outcome State Fault Refusal :=
  let n := match mode with | .mask => 4 | _ => 1
  s.syncForm h x full { d := n, a := 0 } 1 fun _ ps _ =>
    let pred := fun (th : Thread) => th.guard (BitVec.ofNat 3 (bitsN x.imm.toNat 0 3)) != bitN x.imm.toNat 3
    voteN mode (ps.map fun th => (th.t, pred th))

/-- wsync (R162): the members' scratchpad stores on their way are performed, and every write is seen by later loads. It stalls while an
older access that is still on its way stands before one of those stores (R46). -/
def execWsync (h : Hdr) (x : VOps) (full : Bool) (s : State) : Host.Outcome State Fault Refusal :=
  let mine := fun (m : TMask) (f : Flight) => m.getLsbD f.t && !f.gw
  s.syncForm h x full { d := 0, a := 0 } 0 (fun _ _ _ => 0) (fun i m s1 => (s1.flushPads i.r (mine m)).unveil i.r.1)
    fun i m => s.flushHeld i.r (mine m)

/-- One operation of rdx (R163). -/
def rdxOp (t : Ty) (op : Rdx) (a b : Nat) : Nat :=
  match op with
  | .add => if t.isInt then wrapN 32 (numOf t a + numOf t b) else fp32.addN .rne a b
  | .min => if t.isInt then (if numOf t b < numOf t a then b else a) else fp32.minMax false a b
  | .max => if t.isInt then (if numOf t a < numOf t b then b else a) else fp32.minMax true a b
  | .and => a &&& b
  | .or => a ||| b
  | .xor => a ^^^ b

/-- combine of R163: holes pass the other value through. -/
def rdxCombine (t : Ty) (op : Rdx) (a b : Option Nat) : Option Nat :=
  match a, b with
  | some a, some b => some (rdxOp t op a b)
  | some a, none => some a
  | none, b => b

/-- One level of the tree. -/
def rdxLevel (t : Ty) (op : Rdx) : List (Option Nat) → List (Option Nat)
  | a :: b :: r => rdxCombine t op a b :: rdxLevel t op r
  | r => r

/-- `k` levels of the fixed tree (R163). -/
def rdxTree (t : Ty) (op : Rdx) (k : Nat) (vs : List (Option Nat)) : Option Nat :=
  match k with
  | 0 => vs.head?.join
  | j + 1 => rdxTree t op j (rdxLevel t op vs)

/-- What rdx writes in a thread from its group's present members (R163). -/
def rdxN (t : Ty) (op : Rdx) (warp : Bool) (val : Nat → Option Nat) (k : Nat) : Nat :=
  let row := fun (r : Nat) => rdxTree t op 4 ((List.range 16).map fun j => val (16 * r + j))
  (if warp then rdxTree t op 3 ((List.range 8).map row) else row (k / 16)).getD 0

/-- rdx (R163). -/
def execRdx (h : Hdr) (x : VOps) (t : Ty) (op : Rdx) (full : Bool) (s : State) : Host.Outcome State Fault Refusal :=
  let warp := bitN x.imm.toNat 0
  s.syncForm h x full { d := 1, a := 1 } (if warp then 8 else 4) fun i ps th =>
    rdxN t op warp (fun u => (ps.find? fun p => p.t = u).map fun p => s.value i.g i.w p x.a 1 x.imm) th.t

/-! ### Rejoin masks (R165 to R167) -/

/-- A thread that waited at a jwait or jwaitt continues past it; a jwaitt writes its status (R166, R167). -/
def Thread.pastJoin (th : Thread) (status : Word) : Thread :=
  match th.wait with
  | .jwait _ (some l) => Thread.past { th with m := putRegs th.m l.2 [status] }
  | .jwait _ none => th.past
  | _ => th

/-- The threads at a jwaitt whose limit lies behind withdraw their arrivals and go on with 0 (R167). -/
def Warp.expireJoins (w : Warp) (now : Nat) : Warp :=
  let late := fun (th : Thread) => (match th.wait with | .jwait _ _ => true | _ => false) && th.wait.overdue now
  let gone := maskOf ((w.threads.filter late).map (·.t))
  Warp.notedFrom { w.mapThreads fun th => if late th then th.pastJoin 0 else th with arr := w.arr.map fun a => a &&& ~~~gone } w

/-- Completion of jN decided: where every live thread of jN has arrived, all recorded threads go on and the record is empty; a limit
that lies behind has ended its wait before (R167). -/
def Warp.decideJoin (w : Warp) (now jn : Nat) : Warp :=
  let w := w.expireJoins now
  let rec_ := nth w.arr jn 0
  let need := (nth w.j jn 0) &&& maskOf ((w.live).map (·.t))
  if rec_ ≠ 0 && need &&& ~~~rec_ = 0 then
    { w.mapThreads fun th => if rec_.getLsbD th.t then th.pastJoin 1 else th with arr := modAt w.arr jn fun _ => 0 }
  else w

/-- jN written, and completion decided again where it changes under recorded threads (R165). -/
def Warp.setJoin (w : Warp) (now jn : Nat) (m : TMask) : Warp :=
  let old := nth w.j jn 0
  let w1 := { w with j := modAt w.j jn fun _ => m }
  if old = m || nth w.arr jn 0 = 0 then w1 else w1.decideJoin now jn

/-- join (R165). -/
def execJoin (h : Hdr) (_x : VOps) (op : JoinOp) (jn : BitVec 4) (s : State) : Host.Outcome State Fault Refusal :=
  run s h fun i =>
    let m := maskOf (i.on.map (·.t))
    let new := fun (old : TMask) => match op with | .set => m | .or => old ||| m | .andn => old &&& ~~~m
    ((s.advance i).modWarp i.r fun w => w.setJoin (s.now i.w.core) jn.toNat (new (nth w.j jn.toNat 0))).closeIssue i h.e 0 false

/-- jget (R165). -/
def execJget (h : Hdr) (x : VOps) (jn : BitVec 4) (s : State) : Host.Outcome State Fault Refusal :=
  match s.iss? h with
  | none => .fault .noIssuer
  | some i => s.plain h x { d := 4, a := 0 } false fun _ => { d := some (nth i.w.j jn.toNat 0).toNat }

/-- jset (R165). -/
def execJset (h : Hdr) (x : VOps) (jn : BitVec 4) (s : State) : Host.Outcome State Fault Refusal :=
  run s h fun i =>
    let who := i.on.take 1
    s.through i (s.gate i who [⟨x.a, 4⟩] [] false x.imm) <|
      let s1 := s.advance i
      let s2 := match who with
        | [] => s1
        | th :: _ => s1.modWarp i.r fun w => w.setJoin (s.now i.w.core) jn.toNat (BitVec.ofNat 128 (s.value i.g i.w th x.a 4 x.imm))
      s2.closeIssue i h.e 0 false

/-- Arrivals of an issue at jN (R166): a thread outside jN goes on at once; the others are recorded and wait, until the set is
complete. `lim` gives a jwaitt's deadline and status register; a limit of 0 that does not complete gives up at once (R167). -/
def State.arriveJoin (s : State) (h : Hdr) (i : Iss) (past : BitVec 8) (jn : Nat) (lim : Thread → Option (Nat × Nat)) : State :=
  let now := s.now i.w.core
  let jm := nth i.w.j jn 0
  let mine := i.on.filter fun th => jm.getLsbD th.t
  let ts := mine.map (·.t)
  let go : Iss := { i with act := i.act.filter fun th => !ts.contains th.t }
  let outside := (i.on.filter fun th => !jm.getLsbD th.t).filterMap fun th => (lim th).map fun l => (th.t, l.2)
  let s1 := outside.foldl (fun s p => s.modThread i.r p.1 fun th => { th with m := putRegs th.m p.2 [1] }) (s.advance go)
  let arrive := fun (th : Thread) =>
    match th.wait with
    | .jwait k _ => if k = jn then th else { th with wait := .jwait jn (lim th) }
    | _ => { th with wait := .jwait jn (lim th) }
  let quit := fun (th : Thread) => match th.wait with | .jwait k (some l) => k = jn && decide (l.1 ≤ now) | _ => false
  let owe := fun (th : Thread) => { arrive th with owes := past }
  let s1 := if past = 0 then s1 else s1.modThreads i.r ((i.on.filter fun th => !ts.contains th.t).map (·.t)) fun th =>
    { th with pwerr := th.pwerr ||| past }
  let s2 := s1.modWarp i.r fun w =>
    let w := { w.mapThreads fun th => if ts.contains th.t then owe th else th with
               arr := modAt w.arr jn fun a => a ||| maskOf ts }
    let w := w.decideJoin now jn
    let late := (w.threads.filter fun th => ts.contains th.t && quit th).map (·.t)
    { w.mapThreads fun th => if late.contains th.t then th.pastJoin 0 else th with
      arr := modAt w.arr jn fun a => a &&& ~~~(maskOf late) }
  let left := s2.waitingOf i
  let s3 := s2.modThreads i.r ts fun th => { th with lastIssue := s.tick + 1 }
  let s4 := (i.on.filter fun th => !left.contains th.t).foldl (fun s th =>
    match lim th, (s.warp? i.r).bind fun w => w.thread? th.t with
    | some l, some u => s.later i th (.m (BitVec.ofNat 8 l.2) false) 1 (nth u.m l.2 {}).v.toNat
    | _, _ => s) s3
  ((s4.closeSome h i left 0 false).unreachWarp i.r).unreachBlock i.r.1

/-- jwait (R166). -/
def execJwait (h : Hdr) (_x : VOps) (jn : BitVec 4) (s : State) : Host.Outcome State Fault Refusal :=
  run s h fun i => s.arriveJoin h i 0 jn.toNat fun _ => none

/-- jwaitt (R167): A gives the limit in clocks; D receives 1, or 0 at the limit. -/
def execJwaitt (h : Hdr) (x : VOps) (jn : BitVec 4) (s : State) : Host.Outcome State Fault Refusal :=
  run s h fun i =>
    let src := [⟨x.a, 1⟩]
    let past := s.windowOver i.g i.w src x.imm
    s.through i (s.gate i i.on src [⟨x.d, 1⟩] false x.imm) <|
      let now := s.now i.w.core
      let reg := match x.d with | .m k _ => k.toNat | _ => 0
      s.arriveJoin h i past jn.toNat (fun th => some (now + s.value i.g i.w th x.a 1 x.imm, reg))

/-- JWAITT_EXPIRY: once its limit lies behind, a thread withdraws its arrival and continues with D := 0, and with it every thread of the
warp whose limit does (R167; log entry 97); LIMIT is a wake cause (R186). -/
def execJwaittExpiry (gid wi t : Nat) (s : State) : Host.Outcome State Fault Refusal :=
  .next <| match s.warp? (gid, wi) with
    | none => s
    | some w =>
      match w.thread? t with
      | none => s
      | some th =>
        match th.wait with
        | .jwait _ (some l) =>
          if s.now w.core ≤ l.1 then s
          else
            let s := s.modWarp (gid, wi) fun w => w.expireJoins (s.now w.core)
            s.modCore w.core fun k => k.cause 4
        | _ => s

end Sys2Proof.Machine
end

