-- ==== Sys2Proof/Machine/Exit.lean ====
section
/-!
DEFINITION. exit (spec/05 R88, spec/13 R253) and relay (spec/20 R362 to R365).
-/
namespace Sys2Proof.Machine

/-! ### exit -/

/-- A thread's exit at one object whose members include its warp (R253). -/
def Obj.exit (o : Obj) (opens : List (ObjRef × Word)) : Obj :=
  let o := { o with exited := o.exited + 1 }
  if opens.any fun p => p.1 = o.ref && p.2 = o.lap then o else { o with arr := o.arr + 1, shortCur := true }

/-- A thread that exits leaves every rejoin set and arrival record of its warp (R166). -/
def Warp.unjoin (w : Warp) (t : Nat) : Warp :=
  { w with j := w.j.map fun m => m &&& ~~~maskOf [t], arr := w.arr.map fun m => m &&& ~~~maskOf [t] }

/-- One thread exits (R88, R166, R253): it issues nothing more, leaves its rejoin sets, and its standing arrivals count. -/
def State.exitThread (s : State) (r : WRef) (t : Nat) : State :=
  match s.gang? r.1, (s.warp? r).bind fun w => w.thread? t with
  | some g, some th =>
    let s := (s.modThread r t fun th => { th with exited := true, wait := .none, opens := [] }).modWarp r fun w => w.unjoin t
    (g.objs.filter fun o => o.members.getLsbD r.2).foldl (fun s o => s.objEvent r.1 o.ref fun k => k.exit th.opens) s
  | _, _ => s

/-- What a warp's exits decide (R157, R165, R286, R295, R315, R365): waiting exchange groups and rejoin sets are decided again, and
once no thread is left team commands, tiles and the landing slot are given up. -/
def State.afterExit (s : State) (r : WRef) : State :=
  let s := s.modWarp r fun w =>
    let now := s.now w.core
    let w := w.mapThreads fun th => match th.wait with | .sync => { th with wait := .none } | _ => th
    (List.range 16).foldl (fun w jn => w.decideJoin now jn) w
  match s.warp? r with
  | none => s
  | some w =>
    if w.live ≠ [] then s
    else
      let s := (s.teamExit r.1 r.2).freeTiles r
      s.modCore w.core fun c => if c.landing = some r then { c with landing := none } else c

/-- exit (R88): an ordering point; the threads whose guard is true end, in ascending t. -/
def execExit (h : Hdr) (_x : VOps) (s : State) : Host.Outcome State Fault Refusal :=
  run s h fun i =>
    s.orderPoint i <|
      let s1 := i.on.foldl (fun s th => s.exitThread i.r th.t) (s.advance i)
      let s2 := s1.afterExit i.r
      ((((s2.closeIssue i h.e 0 false).rteReturn i.r).unreachWarp i.r).unreachBlock i.r.1).reap i.r.1

/-! ### relay -/

/-- The visible cores of a die, ascending (R365). -/
def State.visibleOn (s : State) (die : Nat) : List Nat :=
  (List.range 160).filter fun c => dieOfCore c = die && (s.clusterOf c).isSome

/-- Where a relay to a die goes (R364): its status, and the slot it moves to. -/
def State.relayCase (s : State) (w : Warp) (die : Nat) : Nat × Option (Nat × Nat × Nat) :=
  if die = dieOfCore w.core then (0x00010000 + die, none)
  else if die = dieOfCore w.homeCore then (die, some (w.homeCore, w.wi % 4, w.homeSlot))
  else match (s.visibleOn die).find? fun c => (s.core c).landing.isNone with
    | some c => (die, some (c, 0, 4))
    | none => (0x00500000 + die, none)

/-- Commands of a warp that have not ended: copies, near-memory and group C (R364). -/
def State.outstanding (s : State) (w : Warp) (gid : Nat) : Nat :=
  (s.cmdsOf gid fun k => k.wi = w.wi).length + (s.mqOf w gid).length

/-- Whether every register of a warp's live threads is full (R364). -/
def Warp.allFull (w : Warp) : Bool := w.s.all (·.full) && w.live.all fun th => th.m.all (·.full)

/-- The first check of relay that fails (R364). -/
def State.relayFault (s : State) (i : Iss) (a : Nat) : Option Flt :=
  if !i.g.relayCap then some { code := fMember }
  else i.wholeFault.or
    (if s.outstanding i.w i.r.1 ≠ 0 then some { code := fMask, addr := 5 * 2 ^ 28 + s.outstanding i.w i.r.1 % 128 }
     else match s.translate i.w.core i.g.world i.g.root a .load with
       | .bad f => some f
       | .ok _ _ => none)

/-- The tiles a warp owns in its quarter array, by number (R295). -/
def State.tilesOf (s : State) (r : WRef) (w : Warp) : List (Nat × Tile) :=
  (List.range 2).filterMap fun k =>
    let t := nth (s.quarter w.core w.quarter).tiles k {}
    if t.owner = some r then some (k, t) else none

/-- Whether a tile is free in a quarter. -/
def State.tileFree (s : State) (core q k : Nat) : Bool := (nth (s.quarter core q).tiles k {}).owner.isNone

/-- A tile put into a quarter array. -/
def State.putTile (s : State) (core q : Nat) (p : Nat × Tile) : State :=
  s.modQuarter core q fun a => { a with tiles := modAt a.tiles p.1 fun _ => p.2 }

/-- A warp leaves for another slot (R364, R365): its slot's stride ends, a landing slot is taken or given up, and the tiles it owns go
with it (log entry 100). -/
def State.depart (s : State) (r : WRef) (dest : Nat × Nat × Nat) : State :=
  match s.warp? r with
  | none => s
  | some w =>
    let s := (s.endStride r).modCore w.core fun c => if c.landing = some r then { c with landing := none } else c
    let s := if dest.2.2 = 4 then s.modCore dest.1 fun c => { c with landing := some r } else s
    let mine := s.tilesOf r w
    let s := mine.foldl (fun s p => s.putTile w.core w.quarter (p.1, { p.2 with owner := none })) s
    s.modWarp r fun w => { w with relayTo := some dest, carried := mine }

/-- relay (R362 to R364): the checks, the stall until nothing is owed to the warp, then its case. -/
def execRelay (h : Hdr) (x : VOps) (s : State) : Host.Outcome State Fault Refusal :=
  run s h fun i =>
    let who := if x.d.cls = .s then i.on.take 1 else i.on
    let a := fun (th : Thread) => s.value i.g i.w th x.a 2 x.imm
    s.through i ((s.gate i who [⟨x.a, 2⟩] [⟨x.d, 1⟩] false x.imm fun th => s.relayFault i (a th)).spread i x.d) <|
      match i.on with
      | [] => (s.advance i).closeIssue i h.e 0 false
      | th :: _ =>
        s.orderPoint i <|
          if !i.w.allFull || s.flights.any (fun f => f.gid = i.r.1 && f.wi = i.r.2 && f.needOst) then s
          else
            let die := match s.translate i.w.core i.g.world i.g.root (a th) .load with | .ok pa _ => homeDie pa | .bad _ => 0
            let c := s.relayCase i.w die
            let s1 := who.foldl (fun s th => s.later i th x.d 1 c.1) (s.advance i)
            let s2 := s1.closeIssue i h.e 0 false
            match c.2 with
            | none => s2
            | some dest => s2.depart i.r dest

/-- RELAY_ARRIVAL: a relayed warp arrives at its slot with its tiles, once their places are free there, and its status is written (R364;
log entry 100). -/
def execRelayArrival (gid wi : Nat) (s : State) : Host.Outcome State Fault Refusal :=
  .next <| match s.warp? (gid, wi) with
    | none => s
    | some w =>
      match w.relayTo with
      | none => s
      | some (c, q, slot) =>
        if !w.carried.all fun p => s.tileFree c q p.1 then s
        else
        let s := s.modWarp (gid, wi) fun w => { w with core := c, quarter := q, slot := slot, relayTo := none, carried := [] }
        let s := w.carried.foldl (fun s p => s.putTile c q p) s
        let mine := fun (f : Flight) => f.gid = gid && f.wi = wi && (match f.act with | .value _ => true | _ => false)
        let s := (s.flights.filter mine).foldl (fun s f =>
          match f.act, f.dst with
          | .value v, some d => s.fill (gid, wi) f.t d (natWords (f.len / 4) v)
          | _, _ => s) s
        { s with flights := s.flights.filter fun f => !mine f }

end Sys2Proof.Machine
end

