-- ==== Sys2Proof/Machine/Home.lean ====
section
/-!
DEFINITION. The events of memory: fills (spec/02 R28, R93), the home slice (spec/20 R355, R359), hot words (spec/11 R202),
invalidations (R355 to R357), acknowledgements, refusals and losses (R358 to R361). An event that is not enabled changes nothing.
-/
namespace Sys2Proof.Machine

/-! ### Fills (R28, R93, R107) -/

/-- Whether a load must be served by the home slice (R354, R356). -/
def State.homeRead (s : State) (f : Flight) (pa : Nat) : Bool :=
  f.observed || f.die = homeDie pa || (s.copy? f.die (lineOf pa)).isNone || s.onWay f.die (lineOf pa)

/-- Whether a load may take its value now: nothing of its own stands before it, and its line is not held, nor its route (R46, R355,
R361). -/
def State.maySample (s : State) (f : Flight) : Bool :=
  s.mayPerform f &&
    (match f.place with
     | .phys pa => !(s.homeRead f pa && (s.lineHeld (lineOf pa) || s.routeHeld f))
     | _ => true)

/-- Whether the bytes a load takes are poisoned (R343). -/
def State.sampleBad (s : State) (f : Flight) : Bool :=
  match f.place with
  | .phys pa => s.memBad pa f.len
  | .pad gc o => s.padBad f.gid gc o f.len
  | .reg => false

/-- A load's bytes put together from the part that arrives now. -/
def State.partBytes (s : State) (f : Flight) (part : Nat) : List Byte :=
  let sp := f.span part
  let new := s.sample f sp.1 sp.2
  (List.range f.len).map fun k => if sp.1 ≤ k ∧ k < sp.1 + sp.2 then nth new (k - sp.1) 0 else nth f.data k 0

/-- A part of a load arrives; the last one fills the destination (R28, R230). -/
def State.fillLoad (s : State) (f : Flight) (signed : Bool) (part : Nat) : State :=
  if !s.maySample f then s
  else
    let bits := if f.len = 16 then (if part = 0 then 3 else part) else 1
    let bs := s.partBytes f part
    let bad := s.sampleBad f
    let s := match f.place with
      | .phys pa => if f.observed then (s.bareGl pa f.len).freshen pa f.die else (s.markSeen f).fetchCopy f
      | .pad gc o => if f.observed then s.modGang f.gid fun g => g.bare gc o f.len else s
      | .reg => s
    if f.done ||| bits = f.parts ∨ bad then
      let s := s.dropFlight f.id
      match f.dst with
      | none => s
      | some d =>
        if bad then s.fillBad (f.gid, f.wi) f.t d .ecc
        else s.fill (f.gid, f.wi) f.t d (natWords ((f.len + 3) / 4) (extend signed f.len (leNat bs)))
    else s.modFlight f.id fun f => { f with done := f.done ||| bits, data := bs }

/-- REGISTER_FILL: part `part` (0 the whole) of a load, a quotient or remainder, or the old value of an atomic arrives (R28, R93,
R241, R355). -/
def execRegisterFill (id part : Nat) (s : State) : Host.Outcome State Fault Refusal :=
  .next <| match s.flight? id with
    | none => s
    | some f =>
      match f.act, f.dst with
      | .value v, some d =>
        if ((s.warp? (f.gid, f.wi)).bind (·.relayTo)).isSome then s
        else ((s.dropFlight id).fill (f.gid, f.wi) f.t d (natWords (f.len / 4) v)).reap f.gid
      | .load sg, some _ => (s.fillLoad f sg (if part = 1 ∨ part = 2 then part else 0)).reap f.gid
      | .atom .., some d =>
        if f.done = 0 || f.refused || (f.ga && s.invals.any fun v => v.store = id && v.hold) then s
        else
          let s := match f.place with
            | .phys _ => s.modFlight id fun f => { f with dst := none }
            | _ => s.dropFlight id
          if f.old = [] then (s.fillBad (f.gid, f.wi) f.t d .ecc).reap f.gid
          else (s.fill (f.gid, f.wi) f.t d f.old).reap f.gid
      | _, _ => s

/-! ### The home slice (R202, R241, R355, R359) -/

/-- The words waiting in a home slice's hot queues. -/
def State.hotAt (s : State) (pa : Nat) : Option (List Nat) := (s.hot.find? fun q => q.1 = pa / 4).map (·.2)

/-- The hot words of one slice. -/
def State.hotCount (s : State) (pa : Nat) : Nat :=
  (s.hot.filter fun q => homeDie (4 * q.1) = homeDie pa && sliceOf (4 * q.1) = sliceOf pa).length

/-- The home die refuses an access: nothing is applied, its log has the cause under the issuing core's outstanding-store number (R19,
R358, R402), and a negative acknowledgement is on its way (R359). -/
def State.refuseAt (s : State) (f : Flight) (pa cause : Nat) : State :=
  let s := s.logPut (homeDie pa)
    { src := 1, srcId := f.core, seq := f.seq.getD 0, code := cause, world := f.world, cls := 1, addr := pa, pc := f.pc.toNat }
  (s.modFlight f.id fun f => { f with refused := true, needOst := true }).freshen pa f.die

/-- The writer's own copy of the line: current after an fw access, gone after a ga one, and while nobody reads the line yet (R355, R356). -/
def State.ownCopy (s : State) (f : Flight) (pa : Nat) : State :=
  if f.ga then { s with copies := s.copies.filter fun c => !(c.die = f.die && c.line = lineOf pa) }
  else s.freshen pa f.die

/-- A store part applied at its home slice (R229, R230, R355). -/
def State.applyStore (s : State) (f : Flight) (pa part : Nat) : State :=
  let sp := f.span part
  let bits := if f.len = 16 then (if part = 0 then 3 else part) else 1
  if f.done &&& bits ≠ 0 then s
  else
    let s := (s.memWrite (pa + sp.1) ((f.data.drop sp.1).take sp.2)).modFlight f.id fun f => { f with done := f.done ||| bits }
    (s.sendInvals (pa + sp.1) f.die f.id f.ga).ownCopy f (pa + sp.1)

/-- An atomic applied at its home slice as one step (R241). One that meets a poisoned word changes nothing, and its destination fills
poisoned (R343). -/
def State.applyAtom (s : State) (f : Flight) (pa : Nat) : State :=
  if s.memBad pa f.len then s.modFlight f.id fun f => { f with done := 1, old := [] }
  else
  let old := s.mem.num pa f.len
  let s := (s.memWrite pa (leBytes f.len (f.newVal old))).modFlight f.id fun f =>
    { f with done := 1, old := natWords (f.len / 4) old }
  (s.sendInvals pa f.die f.id f.ga).ownCopy f pa

/-- After 16 detections the unit leaves the word and poisons it, with a class I entry; the requester's destination is poisoned
(R342). -/
def State.poisonAtom (s : State) (f : Flight) (pa : Nat) : State :=
  let s := { s with badMem := (s.badMem ++ wordsIn pa f.len).eraseDups }
  (s.logEntry (homeDie pa) { src := 2, srcId := 48 * homeDie pa + sliceOf pa, code := fEcc, world := f.world, cls := 2, addr := pa })
    |>.modFlight f.id fun f => { f with done := 1, old := [] }

/-- Whether another atomic to the word waits at the slice, unapplied (R202). -/
def State.atomWaits (s : State) (f : Flight) (pa : Nat) : Bool :=
  s.flights.any fun g =>
    match g.place with
    | .phys p => g.id ≠ f.id && g.isAtom && !g.finished && p / 4 = pa / 4
    | _ => false

/-- An atomic joins its word's hot queue, where the word is or becomes hot and the queue has room (R202). -/
def State.joinHot (s : State) (f : Flight) (pa : Nat) : State :=
  match s.hotAt pa with
  | some q =>
    if q.contains f.id || 64 ≤ q.length then s
    else { s with hot := s.hot.map fun h => if h.1 = pa / 4 then (h.1, h.2 ++ [f.id]) else h }
  | none => if s.atomWaits f pa && s.hotCount pa < 16 then { s with hot := s.hot ++ [(pa / 4, [f.id])] } else s

/-- STORE_AT_HOME: a store or atomic reaches its home slice (R355). Part 0 is the whole, 1 and 2 the halves of 16 bytes; an atomic
with part 3 joins a hot queue, and with part 4 meets a unit whose checker fired 16 times. -/
def execStoreAtHome (id part : Nat) (s : State) : Host.Outcome State Fault Refusal :=
  .next <| match s.flight? id with
    | none => s
    | some f =>
      match f.place with
      | .phys pa =>
        if f.finished || !f.writes || !s.mayPerform f || s.routeHeld f then s
        else match (if f.done = 0 then s.refusal f pa else none) with
          | some c => s.refuseAt f pa c
          | none =>
            if f.isStore then s.applyStore f pa (if part = 1 ∨ part = 2 then part else 0)
            else if f.isAtom then
              (if part = 3 then s.joinHot f pa
               else if (s.hotAt pa).isSome || s.lineHeld (lineOf pa) then s
               else if part = 4 then s.poisonAtom f pa
               else s.applyAtom f pa)
            else s
      | _ => s

/-- Whether a queued atomic may be combined by the adder tree: an integer or f32 addition (R202). -/
def Flight.addKind (f : Flight) : Nat :=
  match f.act with
  | .atom t .add _ none => if t.isInt then 1 else if t = .f32 then 2 else 0
  | _ => 0

/-- HOT_WORD_RETIRE: the queue of a hot word retires up to 8 additions of one kind in the order given, or its head (R202). A word
leaves the hot set once its queue is empty. Where the slice's unit has failed 16 times, the first of them is poisoned (R342). -/
def execHotWordRetire (addr : Nat) (ids : List Nat) (s : State) : Host.Outcome State Fault Refusal :=
  .next <| match s.hot.find? (fun h => h.1 = addr / 4) with
    | none => s
    | some h =>
      let adds := fun k => ids.all fun d => (match s.flight? d with | some f => f.addKind = k | none => false)
      let legal := ids.all (h.2.contains ·) && ids ≠ [] &&
        ((ids.length ≤ 8 && ids.eraseDups = ids && (adds 1 || adds 2)) || some ids = (h.2.head?.map fun x => [x]))
      if !legal || s.lineHeld (addr / 128) then s
      else
        let slice := 48 * homeDie addr + sliceOf addr
        let s := ids.foldl (fun s d =>
          match s.flight? d with
          | some f => (match f.place with
              | .phys pa =>
                if f.finished then s
                else (match s.refusal f pa with
                  | some c => s.refuseAt f pa c
                  | none =>
                    if s.struck slice 4 18 then (s.clearStrike slice 4 18).poisonAtom f pa else s.applyAtom f pa)
              | _ => s)
          | none => s) s
        let left := h.2.filter fun d => !ids.contains d
        { s with hot := if left = [] then s.hot.filter fun k => k.1 ≠ h.1
                        else s.hot.map fun k => if k.1 = h.1 then (k.1, left) else k }

/-! ### Invalidations (R354 to R357) -/

/-- INVALIDATION: the oldest invalidation on its way to a die's copy of a line arrives and the copy is gone; while an early-forwarded
store of the die to the line is on its way, the die sees the home's current value (R356, `State.baseByte`). -/
def execInvalidation (die line : Nat) (s : State) : Host.Outcome State Fault Refusal :=
  .next <| match s.invals.find? (fun v => v.die = die && v.line = line && !v.arrived) with
    | none => s
    | some v =>
      { s with
        copies := s.copies.filter fun c => !(c.die = die && c.line = line),
        invals := { v with arrived := true } :: s.invals.erase v }

/-- INVALIDATION_ACK: an acknowledgement reaches the home slice (R355, R357). -/
def execInvalidationAck (die line : Nat) (s : State) : Host.Outcome State Fault Refusal :=
  .next <| match s.invals.find? (fun v => v.die = die && v.line = line && v.arrived) with
    | none => s
    | some v => { s with invals := s.invals.erase v }

/-! ### Acknowledgements, refusals and losses (R358 to R360) -/

/-- A report of a lost or refused access: pending for its warp, or only logged where its thread has exited (R88, R358). -/
def State.report (s : State) (f : Flight) (code : Nat) : State :=
  let q := f.seq.getD 0
  let lives := match s.warp? (f.gid, f.wi) with
    | some w => (match w.thread? f.t with | some th => !th.exited | none => false)
    | none => false
  if lives then
    s.modWarp (f.gid, f.wi) fun w => { w with reports := w.reports ++ [{ seq := q, t := f.t, code := code, pc := f.pc }] }
  else s.logPut (dieOfCore f.core)
    { src := 1, srcId := f.core, seq := q, code := code, world := f.world, cls := faultClass code, addr := f.pc.toNat, pc := f.pc.toNat }

/-- The destination of an atomic that will never fill becomes full with its old value (R359, R360). -/
def State.refillFlight (s : State) (f : Flight) : State :=
  match f.dst with
  | some d => s.refill (f.gid, f.wi) f.t d
  | none => s

/-- A freed entry goes to the next access; a gang that only waited for it may end (R88, R358). -/
def State.entryFreed (s : State) (f : Flight) : State := (s.grantOst f.core 1).reap f.gid

/-- STORE_ACK: an applied access is performed at scope dev and its acknowledgement frees its entry (R357, R358); one
of an access declared lost is discarded (R360). -/
def execStoreAck (id : Nat) (s : State) : Host.Outcome State Fault Refusal :=
  .next <| match s.flight? id with
    | none => s
    | some f =>
      if f.place.isPhys && f.writes && !f.refused && s.performedDev f && f.dst.isNone then (s.dropFlight id).entryFreed f else s

/-- NEGATIVE_ACK: a refusal arrives (R359): F_REMOTE is pending and a destination is full again. -/
def execNegativeAck (id : Nat) (s : State) : Host.Outcome State Fault Refusal :=
  .next <| match s.flight? id with
    | none => s
    | some f =>
      if !f.refused then s
      else (((s.dropFlight id).refillFlight f).report f fRemote).entryFreed f

/-- An access is declared lost (R360): F_ACKLOST is pending, its entry is free, its destination full again. Whether it was applied
depends on whether STORE_AT_HOME came first; it is not applied later. -/
def State.declareLost (s : State) (f : Flight) : State :=
  if f.seq.isNone then s
  else
    let s := { s.dropFlight f.id with hot := (s.hot.map fun (h : Nat × List Nat) => (h.1, h.2.erase f.id)).filter fun h => h.2 ≠ [] }
    let s := match f.place with | .phys pa => s.freshen pa f.die | _ => s
    ((s.refillFlight f).report f fAcklost).entryFreed f

end Sys2Proof.Machine
end

