-- ==== Sys2Proof/Machine/Logic.lean ====
section
/-!
DEFINITION. Group 2, logic and bit manipulation (spec/05 R95 to R98).
-/
namespace Sys2Proof.Machine

/-- A bitwise form of two sources (R95). -/
def State.logic2 (s : State) (h : Hdr) (x : VOps) (t : Ty) (f : Nat → Nat → Nat) : Host.Outcome State Fault Refusal :=
  s.plain h x (Wid.same t 2) false fun v => { d := some (lowN (tyBits t) (f v.a v.b)) }

/-- and (R95). -/
def execAnd (h : Hdr) (x : VOps) (t : Ty) (s : State) : Host.Outcome State Fault Refusal :=
  s.logic2 h x t fun a b => a &&& b

/-- or (R95). -/
def execOr (h : Hdr) (x : VOps) (t : Ty) (s : State) : Host.Outcome State Fault Refusal :=
  s.logic2 h x t fun a b => a ||| b

/-- xor (R95). -/
def execXor (h : Hdr) (x : VOps) (t : Ty) (s : State) : Host.Outcome State Fault Refusal :=
  s.logic2 h x t fun a b => a ^^^ b

/-- andn (R95): a and not b. -/
def execAndn (h : Hdr) (x : VOps) (t : Ty) (s : State) : Host.Outcome State Fault Refusal :=
  s.logic2 h x t fun a b => a &&& (2 ^ tyBits t - 1 - b)

/-- A number built from its bits. -/
def ofBitsN (w : Nat) (f : Nat → Bool) : Nat := (List.range w).foldl (fun n i => if f i then n + 2 ^ i else n) 0

/-- lmux bit by bit (R96): C selects the function table, A and B index it. -/
def lmuxN (w : Nat) (f1 f0 : BitVec 4) (a b c : Nat) : Nat :=
  ofBitsN w fun i =>
    let k := (if bitN a i then 2 else 0) + (if bitN b i then 1 else 0)
    if bitN c i then f1.getLsbD k else f0.getLsbD k

/-- lmux (R96). -/
def execLmux (h : Hdr) (x : VOps) (t : Ty) (f1 f0 : BitVec 4) (s : State) : Host.Outcome State Fault Refusal :=
  s.plain h x (Wid.same t 3) false fun v => { d := some (lmuxN (tyBits t) f1 f0 v.a v.b v.c) }

/-- A form of a w-bit A and a 32-bit B (R95). -/
def State.shiftForm (s : State) (h : Hdr) (x : VOps) (t : Ty) (f : Nat → Nat → Nat) : Host.Outcome State Fault Refusal :=
  s.plain h x { d := t.words, a := t.words, b := 1 } false fun v => { d := some (f v.a v.b) }

/-- shl (R95): a count of w or more gives 0. -/
def execShl (h : Hdr) (x : VOps) (t : Ty) (s : State) : Host.Outcome State Fault Refusal :=
  s.shiftForm h x t fun a b => if tyBits t ≤ b % 256 then 0 else lowN (tyBits t) (a * 2 ^ (b % 256))

/-- shr (R95). -/
def execShr (h : Hdr) (x : VOps) (t : Ty) (s : State) : Host.Outcome State Fault Refusal :=
  s.shiftForm h x t fun a b => if tyBits t ≤ b % 256 then 0 else a / 2 ^ (b % 256)

/-- sar (R95): the count stops at w - 1. -/
def execSar (h : Hdr) (x : VOps) (t : Ty) (s : State) : Host.Outcome State Fault Refusal :=
  s.shiftForm h x t fun a b =>
    wrapN (tyBits t) (signedN (tyBits t) a / (2 ^ min (b % 256) (tyBits t - 1) : Nat))

/-- A rotation left (R95). -/
def rotlN (w a n : Nat) : Nat := lowN w (a * 2 ^ n) + lowN w a / 2 ^ (w - n)

/-- rotl (R95). -/
def execRotl (h : Hdr) (x : VOps) (t : Ty) (s : State) : Host.Outcome State Fault Refusal :=
  s.shiftForm h x t fun a b => rotlN (tyBits t) a (b % 256 % tyBits t)

/-- fsh (R95): w bits of the pair b:a from bit n. -/
def execFsh (h : Hdr) (x : VOps) (t : Ty) (s : State) : Host.Outcome State Fault Refusal :=
  s.plain h x { d := t.words, a := t.words, b := t.words, c := 1 } false fun v =>
    let w := tyBits t
    { d := some (lowN w ((v.b * 2 ^ w + v.a) / 2 ^ min (v.c % 256) w)) }

/-- bfx (R97): a field of A, extended as its type says. -/
def bfxN (t : Ty) (a desc : Nat) : Nat :=
  let w := tyBits t
  let pos := desc % 256
  let len := min (desc / 256 % 256) w
  let ext := fun i => if i < w then bitN a i else tySigned t && bitN a (w - 1)
  if len = 0 then 0
  else ofBitsN w fun i => if i < len then ext (pos + i) else tySigned t && ext (pos + len - 1)

/-- bfx (R97). -/
def execBfx (h : Hdr) (x : VOps) (t : Ty) (s : State) : Host.Outcome State Fault Refusal :=
  s.shiftForm h x t fun a b => bfxN t a b

/-- bfi (R97): the low bits of B put into A. -/
def bfiN (w a b desc : Nat) : Nat :=
  let pos := desc % 256
  let len := min (desc / 256 % 256) w
  ofBitsN w fun i => if pos ≤ i ∧ i < pos + len then bitN b (i - pos) else bitN a i

/-- bfi (R97). -/
def execBfi (h : Hdr) (x : VOps) (t : Ty) (s : State) : Host.Outcome State Fault Refusal :=
  s.plain h x { d := t.words, a := t.words, b := t.words, c := 1 } false fun v =>
    { d := some (bfiN (tyBits t) v.a v.b v.c) }

/-- A form of one w-bit source and a 32-bit count (R95). -/
def State.countForm (s : State) (h : Hdr) (x : VOps) (t : Ty) (f : Nat → Nat) : Host.Outcome State Fault Refusal :=
  s.plain h x { d := 1, a := t.words } false fun v => { d := some (f v.a) }

/-- popc (R95). -/
def execPopc (h : Hdr) (x : VOps) (t : Ty) (s : State) : Host.Outcome State Fault Refusal :=
  s.countForm h x t fun a => ((List.range (tyBits t)).filter fun i => bitN a i).length

/-- clz (R95): w for zero. -/
def execClz (h : Hdr) (x : VOps) (t : Ty) (s : State) : Host.Outcome State Fault Refusal :=
  s.countForm h x t fun a => if a = 0 then tyBits t else tyBits t - 1 - Nat.log2 a

/-- brev (R95). -/
def execBrev (h : Hdr) (x : VOps) (t : Ty) (s : State) : Host.Outcome State Fault Refusal :=
  s.plain h x (Wid.same t 1) false fun v => { d := some (ofBitsN (tyBits t) fun i => bitN v.a (tyBits t - 1 - i)) }

/-- bperm (R98): four bytes chosen from eight, or their sign bits spread. -/
def bpermN (a b c : Nat) : Nat :=
  let v := a + b * 4294967296
  (List.range 4).foldl (fun n k =>
    let byte := bitsN v (8 * bitsN c (4 * k) 3) 8
    n + (if bitN c (4 * k + 3) then (if bitN byte 7 then 255 else 0) else byte) * 2 ^ (8 * k)) 0

/-- bperm (R98). -/
def execBperm (h : Hdr) (x : VOps) (_t : Ty) (s : State) : Host.Outcome State Fault Refusal :=
  s.plain h x { d := 1, a := 1, b := 1, c := 1 } false fun v => { d := some (bpermN v.a v.b v.c) }

end Sys2Proof.Machine
end

