-- ==== Sys2Proof/Machine/System.lean ====
section
/-!
DEFINITION. Group E but for launch and opreq (spec/17 R313 to R322): traps, rte, rdf, breakpoints, events, and the requests to the
frame tables with their answers (spec/12 R218 to R224).
-/
namespace Sys2Proof.Machine

/-! ### trap, rte and rdf -/

/-- trap.sw (R314): its fault in every thread whose guard is true. -/
def execTrapSw (h : Hdr) (x : VOps) (s : State) : Host.Outcome State Fault Refusal :=
  run s h fun i => s.trapIss i (faultsOf i.on fun _ => some { code := 0x8000 + bitsN x.imm.toNat 0 12 })

/-- trap.hset (R314). -/
def execTrapHset (h : Hdr) (x : VOps) (s : State) : Host.Outcome State Fault Refusal :=
  run s h fun i =>
    let who := i.on.take 1
    let a := fun (th : Thread) => s.value i.g i.w th x.a 2 x.imm
    s.through i (s.gate i who [⟨x.a, 2⟩] [] false x.imm fun th =>
        if pcForm (a th) then none else some { code := fTarget, addr := a th }) <|
      let s1 := (s.advance i).noteOver i (s.windowOver i.g i.w [⟨x.a, 2⟩] x.imm)
      let s2 := match who with
        | [] => s1
        | th :: _ => s1.modWarp i.r fun w => { w with hentry := BitVec.ofNat 64 (a th) }
      s2.closeIssue i h.e 0 false

/-- The handler entry of the issuing warp. -/
def State.curWarp (s : State) : Option Warp := s.cur.bind s.warp?

/-- trap.hget (R314). -/
def execTrapHget (h : Hdr) (x : VOps) (s : State) : Host.Outcome State Fault Refusal :=
  s.plain h x { d := 2, a := 0 } false fun _ => { d := some (match s.curWarp with | some w => w.hentry.toNat | none => 0) }

/-- The program counter an rte of the issuing warp returns to (R42). -/
def Iss.rteTo (i : Iss) (skip : Bool) : Nat := (if skip then nextPc i.w.recPc else i.w.recPc).toNat

/-- The checks of an rte's target (R85). TGT is left out: a retry does not consult it, and after a skip execution continues in sequential
order, which does not either (R36, R42; log entry 21). -/
def State.rteFault (s : State) (i : Iss) (skip : Bool) : Option Flt := s.targetFault i.g i.w.core (i.rteTo skip) false

/-- rte (R42, R85, R315): F_ILLOP outside a handler or AMASK, then the checks of its target; else the thread waits until every thread
of AMASK has executed one. The returning stride goes on. -/
def execRte (h : Hdr) (_x : VOps) (skip : Bool) (s : State) : Host.Outcome State Fault Refusal :=
  run s h fun i =>
    let flt := fun (th : Thread) =>
      if i.w.inh && i.w.recMask.getLsbD th.t then s.rteFault i skip else some ({ code := fIllop, addr := 0x381 } : Flt)
    if i.w.inh && s.fetchHeld i.g i.w.core (i.rteTo skip) then s
    else match faultsOf i.on flt with
    | f :: fs => s.trapIss i (f :: fs)
    | [] =>
      let ts := i.on.map (·.t)
      let s1 := ts.foldl (fun s t => s.stay i t (.rte skip)) (s.advance i)
      let s2 := s1.rteReturn i.r
      ((s2.closeSome h i (s2.waitingOf i) 0 false).unreachWarp i.r).unreachBlock i.r.1

/-- A field of the record of a thread's warp (R309). A register that held no value reads a free value (log entry 22). -/
def recordField (w : Warp) (th : Thread) (sel : Nat) : Nat :=
  let reg := fun (rs : List (Option Word)) (k : Nat) =>
    match nth rs k none, th.recAt with
    | some v, _ => v.toNat
    | none, some tick => (Config.unfilled tick sel).toNat
    | none, none => 0
  match sel with
  | 0 => th.recCode
  | 1 => th.recAddr % 2 ^ 32
  | 2 => th.recAddr / 2 ^ 32
  | 3 => th.recAux
  | 4 => w.recPc.toNat
  | 5 => w.recMask.toNat
  | 6 => (if w.inh then 1 else 0) + (if w.recDefer then 2 else 0)
  | _ => if sel < 16 then reg th.recO (sel - 8) else reg th.recL (sel - 16)

/-- rdf (R316). -/
def execRdf (h : Hdr) (x : VOps) (s : State) : Host.Outcome State Fault Refusal :=
  s.plain h x { d := Shape.rdfWords x.imm, a := 0 } false fun v =>
    { d := some (match s.curWarp with | some w => recordField w v.th (bitsN x.imm.toNat 0 5) | none => 0) }

/-! ### Breakpoints, watchpoints and events -/

/-- brk.hit (R317). -/
def execBrkHit (h : Hdr) (x : VOps) (s : State) : Host.Outcome State Fault Refusal :=
  run s h fun i => s.trapIss i (faultsOf (i.on.take 1) fun _ => some { code := fBrk, addr := bitsN x.imm.toNat 0 16 })

/-- brk.bp (R317). -/
def execBrkBp (h : Hdr) (x : VOps) (s : State) : Host.Outcome State Fault Refusal :=
  run s h fun i =>
    let who := i.on.take 1
    let a := fun (th : Thread) => s.value i.g i.w th x.a 2 x.imm
    s.through i (s.gate i who [⟨x.a, 2⟩] [] false x.imm fun th =>
        if pcForm (a th) then none else some { code := fTarget, addr := a th }) <|
      let s1 := who.foldl (fun s th => s.modGang i.r.1 fun g =>
        { g with bp := modAt g.bp (bitsN x.imm.toNat 0 2) fun _ => BitVec.ofNat 64 (a th) }) (s.advance i)
      s1.closeIssue i h.e 0 false

/-- A watchpoint's length: a power of two from 4 to 65536 (R317). -/
def watchLen (b : Nat) : Bool := decide (4 ≤ b) && decide (b ≤ 65536) && b = 2 ^ Nat.log2 b

/-- brk.wp (R317). -/
def execBrkWp (h : Hdr) (x : VOps) (s : State) : Host.Outcome State Fault Refusal :=
  run s h fun i =>
    let who := i.on.take 1
    let a := fun (th : Thread) => s.value i.g i.w th x.a 2 x.imm
    let b := fun (th : Thread) => s.value i.g i.w th x.b 1 x.imm
    s.through i (s.gate i who [⟨x.a, 2⟩, ⟨x.b, 1⟩] [] false x.imm fun th =>
        firstFault [(a th % b th = 0, fAlign, a th), (watchLen (b th), fAlign, b th)]) <|
      let p := fun (th : Thread) => ({ addr := a th, len := b th, kind := BitVec.ofNat 2 (bitsN x.imm.toNat 2 2) } : Watch)
      let set := fun (th : Thread) (g : Gang) => ({ g with wp := modAt g.wp (bitsN x.imm.toNat 0 1) fun _ => p th } : Gang)
      let s1 := who.foldl (fun s th => s.modGang i.r.1 (set th)) (s.advance i)
      s1.closeIssue i h.e 0 false

/-- evtack (R320): with an m destination each thread acts in turn; without one the warp acts once (R313), as its lowest guard-true thread
(log entry 14). -/
def execEvtack (h : Hdr) (x : VOps) (s : State) : Host.Outcome State Fault Refusal :=
  run s h fun i =>
    let who := if x.d.cls = .m then i.on else i.on.take 1
    let past := s.windowOver i.g i.w [⟨x.a, 1⟩] x.imm
    s.through i (s.gate i who [⟨x.a, 1⟩] (if x.d.cls = .none then [] else [⟨x.d, 1⟩]) false x.imm) <|
      let s0 := (s.advance i).noteOver i past
      let s1 := who.foldl (fun s1 th =>
        let m : BitVec 4 := BitVec.ofNat 4 (s.value i.g i.w th x.a 1 x.imm)
        s1.modWarp i.r fun w => { w.put th.t x.d 1 w.evt.toNat with evt := w.evt &&& ~~~m }) s0
      s1.closeIssue i h.e 0 false

/-- yld (R321): the stride ends, and the warp yields its next slot. -/
def execYld (h : Hdr) (_x : VOps) (s : State) : Host.Outcome State Fault Refusal :=
  run s h fun i =>
    ((s.advance i).modWarp i.r fun w => { w with yielded := true, noticeYld := true }).closeIssue i true 0 false

/-! ### setroot, retype and tinv -/

/-- A request of a thread whose answer is still due: its destination empties (R28). -/
def State.ask (s : State) (i : Iss) (th : Thread) (d : Opnd) (req : Req) : State :=
  match opDst d 1 with
  | none => s
  | some dst =>
    let (id, s) := s.fresh
    let p : Pending := { id := id, gid := i.r.1, wi := i.r.2, t := th.t, dst := dst, req := req }
    ({ s with pending := s.pending ++ [p] } : State).emptyDst i.r th.t dst

/-- A request answered: its destination fills. -/
def State.answer (s : State) (p : Pending) (v : Nat) : State :=
  (({ s with pending := s.pending.filter fun q => q.id ≠ p.id } : State).fill (p.gid, p.wi) p.t p.dst [BitVec.ofNat 32 v]).reap p.gid

/-- A group E request: each acting thread asks in ascending t (R313). -/
def State.requestForm (s : State) (h : Hdr) (x : VOps) (src : List Fld) (chk : Iss → Thread → Option Flt)
    (act : Iss → Thread → State → State) : Host.Outcome State Fault Refusal :=
  run s h fun i =>
    let who := if x.d.cls = .m then i.on else i.on.take 1
    let past := s.windowOver i.g i.w src x.imm
    s.through i (s.gate i who src [⟨x.d, 1⟩] false x.imm (chk i)) <|
      let s0 := (s.advance i).noteOver i past
      (who.foldl (fun s th => act i th s) s0).closeIssue i h.e 0 false

/-- The status word of R221. -/
def statusWord (status detail : Nat) : Nat := status * 65536 + detail % 65536

/-- The status of a setroot (R218, R322). -/
def State.rootStatus (s : State) (world f : Nat) : Nat :=
  let e := s.frame f
  if 0x2000000 ≤ f then statusWord 2 0
  else if e.owner ≠ world then statusWord 2 0
  else if e.type ≠ 3 then statusWord 3 e.type
  else if e.mig then statusWord 6 0
  else if 65535 ≤ e.use then statusWord 7 0
  else 0

/-- A context's root replaced (R218): the new root gains a use, the old one loses one. -/
def State.takeRoot (s : State) (gid : Nat) (new : Option Nat) : State :=
  match s.gang? gid with
  | none => s
  | some g =>
    let s := match new with
      | some f => s.modFrame f fun e => { e with use := e.use + 1 }
      | none => s
    let s := s.modGang gid fun g => { g with root := new }
    match g.root with
    | some old => s.drop old
    | none => s

/-- setroot (R218): the root is taken in the order of R218, and the status follows once every cache has it. -/
def execSetroot (h : Hdr) (x : VOps) (s : State) : Host.Outcome State Fault Refusal :=
  s.requestForm h x [⟨x.a, 1⟩] (fun _ _ => none) fun i th s1 =>
    let f := s.value i.g i.w th x.a 1 x.imm
    if f = 0xFFFFFFFF then (s1.takeRoot i.r.1 none).ask i th x.d (.setroot 0)
    else
      let st := s1.rootStatus i.g.world f
      (if st = 0 then s1.takeRoot i.r.1 (some f) else s1).ask i th x.d (.setroot (BitVec.ofNat 32 st))

/-- SETROOT_COMPLETE: every translation cache has the new root (R218). -/
def execSetrootComplete (id : Nat) (s : State) : Host.Outcome State Fault Refusal :=
  .next <| match s.pending.find? fun p => p.id = id with
    | none => s
    | some p => match p.req with | .setroot st => s.answer p st.toNat | _ => s

/-- retype (R221, R322): the request goes to the frame's home slice. -/
def execRetype (h : Hdr) (x : VOps) (s : State) : Host.Outcome State Fault Refusal :=
  let named := x.c.cls != .none
  let v := fun (i : Iss) (th : Thread) (o : Opnd) => s.value i.g i.w th o 1 x.imm
  s.requestForm h x ([⟨x.a, 1⟩, ⟨x.b, 1⟩] ++ (if named then [⟨x.c, 1⟩] else []))
    (fun i th => firstFault [(v i th x.b < 8, fIllmod, v i th x.b), (!named || v i th x.c < 64, fIllmod, v i th x.c)])
    fun i th s1 => s1.ask i th x.d
      (.retype (v i th x.a) (v i th x.b) (if named then some (v i th x.c) else none) (i.g.world = 0) i.g.world)

/-- Slices that have not passed a frame's DROPSEQ (R219). -/
def State.slicesBehind (s : State) (f : Nat) : Nat := ((List.range 16).filter fun k => !s.hasPassed k f).length

/-- The status of a retype (R222, R223, R322). -/
def State.retypeStatus (s : State) (f t : Nat) (fw : Bool) (world : Nat) : Nat :=
  let e := s.frame f
  if 0x2000000 ≤ f then statusWord 2 0
  else if !fw && e.owner ≠ world then statusWord 2 0
  else if (if fw then t = 7 else !(1 ≤ t && t ≤ 4 && 1 ≤ e.type && e.type ≤ 4)) then statusWord 3 e.type
  else if e.mig then statusWord 6 0
  else if e.use ≠ 0 then statusWord 4 e.use
  else if e.valid ≠ 0 then statusWord 5 e.valid
  else if s.slicesBehind f ≠ 0 then statusWord 1 (s.slicesBehind f)
  else 0

/-- A frame filled with zeros, and every copy of its lines gone (R222). -/
def State.zeroFrame (s : State) (f : Nat) : State :=
  { s with
    mem := s.mem.filter fun c => c.1 / 65536 ≠ f,
    badMem := s.badMem.filter fun w => w / 16384 ≠ f,
    copies := s.copies.filter fun c => c.line / 512 ≠ f }

/-- The owner a retype leaves (R223). -/
def newOwner (e : FrameE) (t : Nat) (owner : Option Nat) : Nat := if t = 0 ∨ t = 6 then 0 else owner.getD e.owner

/-- A retype's effect on a frame (R222, R223). -/
def State.retypeFrame (s : State) (f t : Nat) (owner : Option Nat) (fw : Bool) : State :=
  let e := s.frame f
  let o := if fw then newOwner e t owner else e.owner
  let clear := isTable t || isTable e.type || (fw && (o ≠ e.owner || t = 0))
  (if clear then s.zeroFrame f else s).modFrame f fun e => { e with type := t, owner := o }

/-- RETYPE_AT_HOME: the frame's home slice checks and answers (R221 to R224). -/
def execRetypeAtHome (id : Nat) (s : State) : Host.Outcome State Fault Refusal :=
  .next <| match s.pending.find? fun p => p.id = id with
    | none => s
    | some p =>
      match p.req with
      | .retype f t owner fw world =>
        let st := s.retypeStatus f t fw world
        (if st = 0 then s.retypeFrame f t owner fw else s).answer p st
      | _ => s

/-- tinv (R220): its number is the core's. -/
def execTinv (h : Hdr) (x : VOps) (s : State) : Host.Outcome State Fault Refusal :=
  s.requestForm h x [⟨x.a, 1⟩, ⟨x.b, 1⟩] (fun _ _ => none) fun i th s1 =>
    let vpn := s.value i.g i.w th x.a 1 x.imm % 2 ^ 26
    let n := s.value i.g i.w th x.b 1 x.imm
    let q := (s1.core i.w.core).tinvSeq
    (s1.modCore i.w.core fun c => { c with tinvSeq := c.tinvSeq + 1 }).ask i th x.d
      (.tinv i.g.world (i.g.root.getD 0) vpn n (BitVec.ofNat 32 q.toNat) s1.nextId)

/-- Whether a page is one that a tinv names (R220). -/
def tinvNames (vpn n page : Nat) : Bool := n = 0 || decide ((page + 2 ^ 26 - vpn) % 2 ^ 26 < n)

/-- Whether a cached entry goes with a tinv: a translation of a page it names, or a level-1 entry over one. -/
def tinvHits (world root vpn n : Nat) (e : TlbE) : Bool :=
  e.world = world && e.root = root &&
    (if e.l1 then n = 0 || (List.range 8192).any (fun k => tinvNames vpn n (e.vpn * 8192 + k)) else tinvNames vpn n e.vpn)

/-- TINV_COMPLETE: every slice and buffer has given up the pages, and the thread's earlier accesses to them are performed (R220). -/
def execTinvComplete (id : Nat) (s : State) : Host.Outcome State Fault Refusal :=
  .next <| match s.pending.find? fun p => p.id = id with
    | none => s
    | some p =>
      match p.req with
      | .tinv world root vpn n st before =>
        let due := (s.threadFlights (p.gid, p.wi) p.t).any fun f =>
          f.place.isPhys && decide (f.id < before) && tinvNames vpn n (vpnOf f.va) &&
            ((f.reads && f.dst.isSome) || (f.writes && !f.refused && !s.performedDev f))
        if due then s
        else ({ s with tlb := s.tlb.filter fun e => !tinvHits world root vpn n e }).answer p st.toNat
      | _ => s

/-! ### Table stores and purges (R215 to R219) -/

/-- An admitted table store commits (R216): the new target's use first, then the entry, then the old target's. -/
def State.tableCommit (s : State) (t o v : Nat) : State :=
  let e : DWord := BitVec.ofNat 64 v
  let old := s.entry t o
  let newref := !eV old || eFrame old ≠ eFrame e
  let s := if eV e && newref then s.modFrame (eFrame e) fun f => { f with use := f.use + 1 } else s
  let s := s.deviceWrite (t * 65536 + 8 * o) (leBytes 8 v)
  let s := if eV old && (!eV e || newref) then s.drop (eFrame old) else s
  s.modFrame t fun f => { f with valid := f.valid + (if eV e then 1 else 0) - (if eV old then 1 else 0) }

/-- TABLE_STORE_ADMISSION: the home slice admits or refuses the next table store of a stalled warp, in ascending t (R215, R216). A frame
that was retyped after the store was translated is checked by R216 with its present type, which no rule says (DESIGN CHOICE, log entry
116). -/
def execTableStoreAdmission (gid wi : Nat) (s : State) : Host.Outcome State Fault Refusal :=
  .next <| match s.warp? (gid, wi) with
    | none => s
    | some w =>
      match w.stall with
      | some (.table (st :: rest) answers) =>
        let t := frameOf st.pa
        let o := st.pa % 65536 / 8
        let code := s.tableRefuse t o st.v st.sz
        (if code = 0 then s.tableCommit t o st.v else s).modWarp (gid, wi) fun w =>
          { w with stall := some (.table rest (answers ++ [(st.t, code)])) }
      | _ => s

/-- PURGE: a purge of a frame on its way to a slice is carried out there, in the buffers of its die, and in every buffer for the pages whose
walks the slice makes, since those it started before have then been inserted and purged; after those its home slice numbered before it; purges of different home slices come in any order (R219). -/
def execPurge (slice frame : Nat) (s : State) : Host.Outcome State Fault Refusal :=
  .next <| match s.purges.find? fun p => p.slice = slice && p.frame = frame with
    | none => s
    | some p =>
      if (s.purges.takeWhile fun q => q ≠ p).any fun q => q.slice = slice && q.src = p.src then s
      else
        let names := fun (e : TlbE) => e.root = frame || eFrame e.e1 = frame || (!e.l1 && eFrame e.e2 = frame)
        let here := fun (e : TlbE) => if e.slice then e.at_ = slice else dieOfCore e.at_ = slice / 4 || tlbSlice e.vpn = slice
        { s with
          purges := s.purges.erase p,
          tlb := s.tlb.filter fun e => !(here e && names e),
          passed := s.passed.put (slice * 192 + p.src) p.seq }

end Sys2Proof.Machine
end

