-- ==== Sys2Proof/Machine/Record.lean ====
section
/-!
DEFINITION. Launch records (spec/08 R170, R171; spec/09 R175, R176; spec/14 R279; spec/20 R363): reading one, and its lowest invalid
field. The launch instruction and the launch queues (spec/09 R178, spec/17 R323).
-/
namespace Sys2Proof.Machine

/-! ### Level tables (R170) -/

/-- SCOPE by code. -/
def scopeOf (n : Nat) : Scope :=
  match n with
  | 0 => .core
  | 1 => .clu
  | 2 => .dev
  | _ => .sys

/-- The least SCOPE code of a domain (R170). -/
def domScope (d : Nat) : Nat := if d ≤ 3 then 0 else if d = 4 then 1 else if d ≤ 6 then 2 else 3

/-- The limit on the threads of one unit of a level (R170). -/
def domLimit (p d t : Nat) : Bool :=
  match d with
  | 0 => t = 1
  | 1 => 128 % t = 0
  | 2 => 512 % t = 0
  | 3 => decide (t ≤ 128 * p)
  | 4 => decide (t ≤ 512 * p) && decide (t ≤ 8192)
  | _ => true

/-- The levels of a table and its lowest invalid entry, from entry `k` on: the domain and thread count of the level below, and
whether the declared entries have ended (R170, R176). -/
def readLevels (p : Nat) (es : List Nat) (k dom t : Nat) (ended : Bool) : List Level × Option Nat :=
  match es with
  | [] => ([], none)
  | e :: r =>
    if ended || !bitN e 63 then
      if e ≠ 0 || k = 0 then ([], some k) else readLevels p r (k + 1) dom t true
    else
      let d := bitsN e 40 3
      let sc := bitsN e 32 2
      let x := bitsN e 0 32
      if bitsN e 43 20 ≠ 0 || bitsN e 34 6 ≠ 0 || x = 0 || sc < domScope d || d < dom || !domLimit p d (t * x) then ([], some k)
      else
        let rest := readLevels p r (k + 1) d (t * x) false
        ({ dom := d, scope := scopeOf sc, extent := x } :: rest.1, rest.2)

/-- Levels up to the block's (R170): those of domain GANG or smaller. -/
def blockLevels (ls : List Level) : List Level := ls.filter fun l => decide (l.dom ≤ 4)

/-- The threads of one unit of a list of levels. -/
def unitThreads (ls : List Level) : Nat := ls.foldl (fun p l => p * l.extent) 1

/-! ### Drafts (R279) -/

/-- The root that a queued record or launch names, while the frame still is a level-1 table of the world: it holds no use count of its
own, so a retype may have changed it (R218, R224). -/
def State.rootNow (s : State) (world : Nat) (root : Option Nat) : Option Nat :=
  root.filter fun f => decide ((s.frame f).owner = world) && decide ((s.frame f).type = 3)

/-- The bytes from a virtual address for a world and root, as the dispatcher reads them; it holds no translation of its own, so
core 1024 stands for it. -/
def State.dispatchRead (s : State) (world : Nat) (root : Option Nat) (a n : Nat) : Option (List Byte) :=
  let at_ := fun k => match s.translate 1024 world (s.rootNow world root) ((a + k) % 2 ^ 64) .load with
    | .ok pa _ => some (s.mem.read pa)
    | .bad _ => none
  let bs := (List.range n).map at_
  if bs.all Option.isSome then some (bs.map (·.getD 0)) else none

/-- Whether a ga store holds a line of the `n` bytes from a virtual address on, so that the dispatcher cannot read them yet (R355). -/
def State.dispatchHeld (s : State) (world : Nat) (root : Option Nat) (a n : Nat) : Bool :=
  (List.range ((a % 128 + n + 127) / 128)).any fun k =>
    match s.translate 1024 world (s.rootNow world root) ((a / 128 * 128 + 128 * k) % 2 ^ 64) .load with
    | .ok pa _ => s.lineHeld (lineOf pa)
    | .bad _ => false

/-- The number in bytes `o` to `o + n - 1`. -/
def fieldAt (bs : List Byte) (o n : Nat) : Nat := leNat ((bs.drop o).take n)

/-- Whether a word may be a draft entry: a copy with E, GN and GI zero that passes the decode checks (R279). -/
def draftWord (n : Nat) (fw : Bool) (w : IWord) : Bool :=
  let op := (w.extractLsb' 86 10).toNat
  decide (0x2C0 ≤ op) && decide (op ≤ 0x2C3) && w.extractLsb' 85 1 = 0 && w.extractLsb' 84 1 = 0 && w.extractLsb' 81 3 = 0 &&
    (match decodeWord { n := n, fw := fw, ctl := false } w with | .ok _ => true | .bad _ => false)

/-- A draft read from memory: its entries and NSTAGE, or nothing where it is invalid or cannot be read (R279). -/
def State.readDraft (s : State) (world : Nat) (root : Option Nat) (n a : Nat) : Option (List DraftEntry × Nat) :=
  if a = 0 then some ([], 0)
  else if a % 16 ≠ 0 then none
  else match s.dispatchRead world root a 16 with
    | none => none
    | some hd =>
      let nent := fieldAt hd 0 2
      let nst := fieldAt hd 2 1
      if nent = 0 || 256 < nent || nst = 0 || 64 < nst || fieldAt hd 3 13 ≠ 0 then none
      else match s.dispatchRead world root (a + 16) (16 * nent) with
        | none => none
        | some bs =>
          let es := (List.range nent).map fun e =>
            ({ word := BitVec.ofNat 96 (fieldAt bs (16 * e) 12), stage := fieldAt bs (16 * e + 12) 1 } : DraftEntry)
          let zero := (List.range nent).all fun e => fieldAt bs (16 * e + 13) 3 = 0
          let rise := (List.range (nent - 1)).all fun e => decide (fieldAt bs (16 * e + 12) 1 ≤ fieldAt bs (16 * e + 28) 1)
          let per := fun k => (es.filter fun e => e.stage = k).length
          let stages := (List.range nst).all fun k => decide (1 ≤ per k) && decide (per k ≤ 8)
          if zero && rise && stages && es.all (fun e => decide (e.stage < nst) && draftWord n (world = 0) e.word) then some (es, nst)
          else none

/-- Whether a ga store holds a line of a draft that is read now (R355). -/
def State.draftHeld (s : State) (world : Nat) (root : Option Nat) (a : Nat) : Bool :=
  a ≠ 0 && (s.dispatchHeld world root a 16 ||
    (match s.dispatchRead world root a 16 with
     | some hd => s.dispatchHeld world root (a + 16) (16 * min 256 (fieldAt hd 0 2))
     | none => false))

/-! ### The record (R175, R176, R363) -/

/-- Entry `w` of a record's windows (R175). -/
def recordWindow (bs : List Byte) (w : Nat) : Window :=
  { base := fieldAt bs (128 + 16 * w) 8, size := fieldAt bs (136 + 16 * w) 4, bound := bitN (fieldAt bs (140 + 16 * w) 4) 0 }

/-- A record's level table. Where REGS itself is out of range, the P that judges the table is that of REGS brought into 8 to 256: R176
leaves it open (log entry 101). -/
def recordLevels (bs : List Byte) : List Level × Option Nat :=
  readLevels (warpsPerCore (max 8 (min 256 (fieldAt bs 72 2)))) ((List.range 8).map fun k => fieldAt bs (8 + 8 * k) 8) 0 0 1 false

/-- The byte offset of a record's lowest invalid field (R176). A relay-capable launch has SPBYTES 0 and REGS of at most 64 (R363);
an invalid draft counts at 88 (R279). -/
def launchFault (bs : List Byte) (draftOk : Bool) : Option Nat :=
  let relay := bitN (fieldAt bs 77 1) 0
  let regs := fieldAt bs 72 2
  let early : List (Bool × Nat) := [
    (decide (8 ≤ regs) && decide (regs ≤ 256) && regs % 8 = 0 && (!relay || decide (regs ≤ 64)), 72),
    (decide (fieldAt bs 74 1 < 4), 74),
    (decide (1 ≤ fieldAt bs 75 1) && decide (fieldAt bs 75 1 ≤ 7), 75),
    (decide (fieldAt bs 76 1 ≤ 4), 76),
    (decide (fieldAt bs 77 1 < 2), 77),
    (fieldAt bs 78 2 = 0, 78),
    (decide (fieldAt bs 80 4 ≤ 2097152) && (!relay || fieldAt bs 80 4 = 0), 80),
    (decide (fieldAt bs 84 4 < 65536), 84),
    (draftOk, 88),
    (fieldAt bs 104 4 % 8 = 0, 104),
    (fieldAt bs 108 4 = 0, 108),
    (fieldAt bs 112 8 % 8 = 0, 112),
    (fieldAt bs 120 8 = 0, 120)]
  let wins := (List.range 8).map fun w => (decide (fieldAt bs (140 + 16 * w) 4 < 2), 140 + 16 * w)
  match (recordLevels bs).2 with
  | some k => some (8 + 8 * k)
  | none => ((early ++ wins).find? fun c => !c.1).map (·.2)

/-- The launch a record describes (R175). -/
def recordLaunch (bs : List Byte) (lid world q addr : Nat) (root : Option Nat) : Launch :=
  let ls := (recordLevels bs).1
  let b := unitThreads ls
  let t := unitThreads (blockLevels ls)
  { lid := lid, world := world, queue := q, record := addr, entry := fieldAt bs 0 8, levels := ls, regs := fieldAt bs 72 2,
    minop := fieldAt bs 74 1, prio := fieldAt bs 75 1, minCores := fieldAt bs 76 1, relayCap := bitN (fieldAt bs 77 1) 0,
    spBytes := fieldAt bs 80 4, bib := fieldAt bs 84 4, draft := fieldAt bs 88 8, spillBase := fieldAt bs 96 8,
    spillSize := fieldAt bs 104 4, cpl := fieldAt bs 112 8, windows := (List.range 8).map (recordWindow bs), root := root,
    threads := b, blockT := t, blocks := (b + t - 1) / t }

/-! ### Launch queues (R178, R323) -/

/-- The launch queue of a world. -/
def State.queue (s : State) (world q : Nat) : Queue :=
  (s.queues.find? fun k => k.world = world && k.q = q).getD { world := world, q := q }

/-- One launch queue changed. -/
def State.putQueue (s : State) (k : Queue) : State :=
  { s with queues := k :: s.queues.filter fun j => !(j.world = k.world && j.q = k.q) }

/-- A queue's places taken: its records, and the current launch until its last block is placed (R178). -/
def Queue.used (k : Queue) : Nat := k.records.length + (if k.cur.isSome then 1 else 0)

/-- A record placed at the tail of a queue, or QFULL (R178, R323). -/
def State.enqueue (s : State) (world q a : Nat) (root : Option Nat) : State × Nat :=
  let k := s.queue world q
  if 16 ≤ k.used then (s, 0x00300000)
  else (s.putQueue { k with records := k.records ++ [(a, root)] }, 0)

/-- launch (R323): its checks, the stall until the thread's earlier stores are performed at scope dev, then one record a thread. -/
def execLaunch (h : Hdr) (x : VOps) (s : State) : Host.Outcome State Fault Refusal :=
  run s h fun i =>
    let who := if x.d.cls = .m then i.on else i.on.take 1
    let src : List Fld := [⟨x.a, 2⟩, ⟨x.b, 1⟩]
    let a := fun (th : Thread) => s.value i.g i.w th x.a 2 x.imm
    let b := fun (th : Thread) => s.value i.g i.w th x.b 1 x.imm
    let past := s.windowOver i.g i.w src x.imm
    s.through i (s.gate i who src [⟨x.d, 1⟩] false x.imm fun th =>
        firstFault [(a th % 256 = 0, fAlign, a th), (decide (b th < 64), fIllmod, b th)]) <|
      if !(who.all fun th => s.writesDone i.r th.t .dev fun _ => true) then s
      else
        let s0 := (s.advance i).noteOver i past
        let s1 := who.foldl (fun s1 th =>
          let p := s1.enqueue i.g.world (b th) (a th) i.g.root
          p.1.later i th x.d 1 p.2) s0
        s1.closeIssue i h.e 0 false

/-- LAUNCH_QUEUE_WRITE: firmware, or a host function of the world, places a record at a queue's tail; a full queue takes nothing
(R178). The writer gives the root its contexts start with (log entry 5). -/
def execLaunchQueueWrite (world q record : Nat) (root : Option Nat) (s : State) : Host.Outcome State Fault Refusal :=
  .next (if 64 ≤ world ∨ 64 ≤ q then s else (s.enqueue world q record root).1)

end Sys2Proof.Machine
end

