-- ==== Sys2Proof/Machine/Place.lean ====
section
/-!
DEFINITION. Rows, warp slots and the placement of a block on the cores of one cluster (spec/08 R171; spec/09 R180 to R182; spec/11
R205, R206; spec/18 R335, R337). Dispatch and resumption share it. And opreq (spec/17 R324), which asks for pre-emptions by rows (R182).
-/
namespace Sys2Proof.Machine

/-! ### Rows -/

/-- Rows of 1 KiB that SPBYTES needs (R180). -/
def rowsFor (spBytes : Nat) : Nat := (spBytes + 1023) / 1024

/-- Usable rows guaranteed at an operating point (R205). -/
def capGuaranteed (k : Nat) : Nat :=
  match k with
  | 0 => 2048
  | 1 => 1984
  | 2 => 1920
  | _ => 1792

/-- The gangs that hold resources of a core: resident ones, and killed ones whose kill has not completed (R310). -/
def State.onCore (s : State) (c : Nat) : List Gang := (s.gangs ++ s.dying).filter fun g => g.cores.contains c

/-- The rows a gang holds on a core: first row and count. -/
def Gang.rowsOn (g : Gang) (c : Nat) : List (Nat × Nat) :=
  (List.range g.cores.length).filterMap fun j =>
    if nth g.cores j 0 = c then some (nth g.rowBase j 0, rowsFor g.spBytes) else none

/-- The allocated runs of rows of a core. -/
def State.rowsUsed (s : State) (c : Nat) : List (Nat × Nat) := (s.onCore c).flatMap fun g => g.rowsOn c

/-- The high-water mark of a core: its highest allocated logical row plus 1 (R208). -/
def State.highWater (s : State) (c : Nat) : Nat := (s.rowsUsed c).foldl (fun m p => if p.2 = 0 then m else max m (p.1 + p.2)) 0

/-- Whether a run of rows is free on a core. -/
def State.rowsFree (s : State) (c base n : Nat) : Bool := (s.rowsUsed c).all fun p => n = 0 || p.2 = 0 || !overlaps base n p.1 p.2

/-- The lowest run of `n` free rows wholly below a limit (R180): it starts at 0 or right after an allocated run. -/
def State.findRows (s : State) (c n limit : Nat) : Option Nat :=
  let starts := 0 :: (s.rowsUsed c).map fun p => p.1 + p.2
  leastBy id (starts.filter fun b => decide (b + n ≤ limit) && s.rowsFree c b n)

/-! ### Warp slots (R88, R180) -/

/-- Whether a warp holds its home slot: until every thread has exited and its stores are acknowledged (R88). -/
def State.holdsSlot (s : State) (gid : Nat) (w : Warp) : Bool :=
  w.live ≠ [] || s.flights.any fun f => f.gid = gid && f.wi = w.wi && f.needOst

/-- The warps whose home slot lies in a quarter of a core, with their registers per thread and slot. -/
def State.homed (s : State) (c q : Nat) : List (Nat × Nat) :=
  (s.gangs ++ s.dying).flatMap fun g =>
    (g.warps.filter fun w => w.homeCore = c && w.wi % 4 = q && s.holdsSlot g.gid w).map fun w => (g.n, w.homeSlot)

/-- The free warp slots of a quarter, ascending. -/
def State.freeSlots (s : State) (c q : Nat) : List Nat := (List.range 4).filter fun k => (s.homed c q).all fun p => p.2 ≠ k

/-! ### A core accepts its share (R180) -/

/-- What a block asks of its cores. -/
structure Need where
  n      : Nat
  minop  : Nat
  rows   : Nat
  warps  : List Nat
  g      : Nat

/-- The warps of a block that core `j` of its gang takes (R171). -/
def Need.share (b : Need) (j : Nat) : List Nat := b.warps.filter fun w => w / warpsPerCore b.n = j

/-- Whether a core accepts the share of gang core `j`: warp slots, registers, rows and operating points (R180), and
the rows left by a retirement that stands pending (R345). -/
def State.accepts (s : State) (b : Need) (c j : Nat) : Bool :=
  let cap := s.capAt c s.opcur
  let quarters := (List.range 4).all fun q =>
    let k := ((b.share j).filter fun w => w % 4 = q).length
    decide (k ≤ (s.freeSlots c q).length) &&
      decide (((s.homed c q).map (·.1)).foldl (· + ·) 0 + k * b.n ≤ 256)
  let point := decide (s.opcur ≤ b.minop)
  match s.findRows c b.rows cap with
  | none => false
  | some base =>
    let mark := max (s.highWater c) (if b.rows = 0 then 0 else base + b.rows)
    let step := match s.opstep with
      | some st => decide (st.target ≤ s.opcur) || (decide (st.target ≤ b.minop) && decide (mark ≤ s.capLess c st.target))
      | none => true
    let repair := (s.retiring.all fun r => decide (r.1 ≠ c)) || decide (mark ≤ s.capLess c s.opcur)
    quarters && point && step && repair

/-- Every choice of `k` members of a list, in its order. -/
def choose {α : Type} (k : Nat) (l : List α) : List (List α) :=
  match l, k with
  | _, 0 => [[]]
  | [], _ + 1 => []
  | x :: r, k + 1 => (choose k r).map (x :: ·) ++ choose (k + 1) r

/-- A set of cores in ascending order. -/
def ascending (cs : List Nat) : List Nat := (List.range 160).filter cs.contains

/-- The cores a block takes in a cluster, if they accept it: the first choice in order of preference, numbered ascending (R180). -/
def State.coresIn (s : State) (b : Need) (cl : Cluster) (pref : List Nat) : Option (List Nat) :=
  let cs := (pref.filter cl.cores.contains ++ cl.cores).eraseDups
  ((choose b.g cs).map ascending).find? fun g => (List.range b.g).all fun j => s.accepts b (nth g j 0) j

/-- The bibs of the resident gangs of a cluster (R335). -/
def State.bibsIn (s : State) (cl : Cluster) : List Nat :=
  ((s.gangs ++ s.dying).filter fun g => g.cores.any cl.cores.contains).map (·.bib)

/-- The clusters in order of preference: those of the cores named, then the rest ascending. -/
def State.clustersBy (s : State) (pref : List Nat) : List Cluster :=
  (pref.filterMap (fun c => s.clusters.find? fun cl => cl.cores.contains c) ++ s.clusters).eraseDups

/-- Where a block goes: its cores, on the first cluster not shut to it. -/
def State.findPlace (s : State) (b : Need) (bib : Nat) (shut : List Nat) (pref : List Nat) : Option (Cluster × List Nat) :=
  (s.clustersBy pref).findSome? fun cl =>
    if shut.contains cl.unit || (bib ≠ 0 && (s.bibsIn cl).contains bib) then none
    else (s.coresIn b cl pref).map fun cs => (cl, cs)

/-- The next bib the package hands out on a cluster: 0 and the bibs held there are skipped (R335, R407). -/
def nextBib (held : List Nat) (b : BitVec 16) (n : Nat) : BitVec 16 :=
  match n with
  | 0 => b
  | k + 1 => if b = 0 || held.contains b.toNat then nextBib held (b + 1) k else b

/-! ### The gang (R28, R180, R325) -/

/-- A warp of a new gang. -/
def newWarp (wi core slot n entry : Nat) (ts : List Nat) : Warp :=
  { wi := wi, core := core, quarter := wi % 4, slot := slot, homeCore := core, homeSlot := slot, entry := some entry,
    threads := ts.map fun t =>
      { t := t, bi := 128 * wi + t, pc := BitVec.ofNat 42 entry, m := List.replicate n {} } }

/-- The warps of a block of `k` threads (R171, R180). -/
def blockWarps (k : Nat) : List Nat := List.range ((k + 127) / 128)

/-- The warp slot of each warp of a block on its cores: the lowest free of its quarter, in warp order (log entry 16). -/
def State.slotFor (s : State) (b : Need) (cores : List Nat) (wi : Nat) : Nat :=
  let j := wi / warpsPerCore b.n
  let before := ((b.share j).filter fun w => w % 4 = wi % 4 && decide (w < wi)).length
  nth (s.freeSlots (nth cores j 0) (wi % 4)) before 0

/-- The rows of each core of a gang. -/
def State.baseRows (s : State) (b : Need) (cores : List Nat) : List Nat :=
  cores.map fun c => (s.findRows c b.rows (s.capAt c s.opcur)).getD 0

/-- Whether a frame may be a context's root (R218). -/
def State.rootOk (s : State) (world f : Nat) : Bool :=
  let e := s.frame f
  decide (f < 0x2000000) && e.owner = world && e.type = 3 && decide (e.use < 65535)

/-! ### opreq (R324) -/

/-- The contexts that the dispatcher asks firmware to pre-empt for a downward step: those whose MINOP does not reach the point, and
those on a core whose high-water mark exceeds its usable rows there (R182). -/
def State.askedFor (s : State) (target : Nat) : List Nat :=
  (s.gangs.filter fun g => !g.ctl && (decide (g.minop < target) || g.cores.any fun c => decide (s.capAt c target < s.highWater c))).map (·.gid)

/-- opreq (R208, R324): its status at once; an accepted request begins the step. A downward step asks for the pre-emptions that R182
names. -/
def execOpreq (h : Hdr) (x : VOps) (s : State) : Host.Outcome State Fault Refusal :=
  run s h fun i =>
    let who := if x.d.cls = .m then i.on else i.on.take 1
    let a := fun (th : Thread) => s.value i.g i.w th x.a 1 x.imm
    let past := s.windowOver i.g i.w [⟨x.a, 1⟩] x.imm
    s.through i (s.gate i who [⟨x.a, 1⟩] [⟨x.d, 1⟩] false x.imm fun th =>
        firstFault [(decide (a th < 4), fIllmod, a th)]) <|
      let s0 := (s.advance i).noteOver i past
      let s1 := who.foldl (fun s1 th =>
        let st := if s1.opstep.isSome then 0x00400000 else if a th = s1.opcur then 0x00410000 else 0
        let s2 := if st = 0 then { s1 with opstep := some { target := a th, stage := 1, asked := if s1.opcur < a th then s1.askedFor (a th) else [] } } else s1
        s2.modWarp i.r fun w => w.put th.t x.d 1 st) s0
      s1.closeIssue i h.e 0 false

end Sys2Proof.Machine
end

