-- ==== Sys2Proof/Machine/Sched.lean ====
section
/-!
DEFINITION. The scheduler (spec/09 R176 to R187): dispatch rounds and completion words, the choice of a warp at a stride slot, the
arrival of the data a warp stalls for, clock gating; and the completion of a kill (spec/17 R310).
-/
namespace Sys2Proof.Machine

/-! ### Taking a record (R176, R181) -/

/-- A dispatcher entry in the error log (R176, R177, R402): in die 0's log under SRCID 0, which no rule states (log entry 101). -/
def State.logDispatch (s : State) (code world addr : Nat) : State :=
  s.logEntry 0 { src := 7, srcId := 0, code := code, world := world, cls := 3, addr := addr }

/-- Why a record cannot be read: alignment, translation, R (R176). -/
def State.unreadable (s : State) (world a : Nat) (root : Option Nat) : Option Nat :=
  if a % 256 ≠ 0 then some fAlign
  else match s.translate 1024 world (s.rootNow world root) a .load with
    | .bad f => some f.code
    | .ok _ _ => none

/-- A launch that ends with a status before any block runs. -/
def Launch.ends (l : Launch) (status : Nat) : Launch := { l with status := some status, blocks := 0 }

/-- A record taken from its queue: an unreadable one is logged; an invalid one, or one whose rows exceed the guarantee of its MINOP,
waits for its completion word; any other becomes current (R176, R181). -/
def State.takeRecord (s : State) (k : Queue) (a : Nat) (root : Option Nat) (rest : List (Nat × Option Nat)) : State :=
  match s.unreadable k.world a root, s.dispatchRead k.world root a 256 with
  | some code, _ => (s.putQueue { k with records := rest }).logDispatch code k.world a
  | none, none => (s.putQueue { k with records := rest }).logDispatch fPage k.world a
  | none, some bs =>
    let draft := (s.readDraft k.world root (fieldAt bs 72 2) (fieldAt bs 88 8)).isSome
    let (lid, s) := s.fresh
    let l := recordLaunch bs lid k.world k.q a root
    match launchFault bs draft with
    | some o =>
      let s := s.putQueue { k with records := rest }
      if l.cpl % 8 ≠ 0 then s.logDispatch 3 k.world a
      else { s with launches := s.launches ++ [l.ends (0x00030000 + o)] }
    | none =>
      if capGuaranteed l.minop < rowsFor l.spBytes then
        { s.putQueue { k with records := rest } with
          launches := s.launches ++ [l.ends (0x60010000 + rowsFor l.spBytes)] }
      else { s.putQueue { k with records := rest, cur := some lid } with launches := s.launches ++ [l] }

/-- Whether a record or its draft cannot be read yet, for a ga store holds a line of it (R355). -/
def State.recordHeld (s : State) (world a : Nat) (root : Option Nat) : Bool :=
  s.dispatchHeld world root a 256 ||
    (match s.dispatchRead world root a 256 with | some bs => s.draftHeld world root (fieldAt bs 88 8) | none => false)

/-- Records taken from a queue until one is current, one cannot be read yet, or none is left. -/
def State.takeRecords (s : State) (world q n : Nat) : State :=
  match n with
  | 0 => s
  | j + 1 =>
    let k := s.queue world q
    match k.cur, k.records with
    | none, (a, root) :: rest => if s.recordHeld world a root then s else (s.takeRecord k a root rest).takeRecords world q j
    | _, _ => s

/-! ### Placing blocks (R179, R180, R335) -/

/-- A launch by its number. -/
def State.launch? (s : State) (lid : Nat) : Option Launch := s.launches.find? fun l => l.lid = lid

/-- One launch changed. -/
def State.modLaunch (s : State) (lid : Nat) (f : Launch → Launch) : State :=
  { s with launches := s.launches.map fun l => if l.lid = lid then f l else l }

/-- The threads of a launch's next block: a last one may be partial (R170). -/
def Launch.nextThreads (l : Launch) : Nat := min l.blockT (l.threads - l.placed * l.blockT)

/-- What its next block asks for (R180). -/
def Launch.need (l : Launch) : Need :=
  let ws := blockWarps l.nextThreads
  let p := warpsPerCore l.regs
  { n := l.regs, minop := l.minop, rows := rowsFor l.spBytes, warps := ws,
    g := min 4 (max ((ws.length + p - 1) / p) (max 1 l.minCores)) }

/-- The gang of a block placed on cores (R28, R171, R180, R335); its rows read zero. -/
def State.placeBlock (s : State) (l : Launch) (cl : Cluster) (cores : List Nat) (draft : List DraftEntry × Nat) : State :=
  let b := l.need
  let held := s.bibsIn cl
  let auto := nextBib held s.bib (held.length + 2)
  let (gid, s) := s.fresh
  let k := l.nextThreads
  let root := match l.root with
    | some f => if s.rootOk l.world f then some f else none
    | none => none
  let g : Gang := {
    gid := gid, bib := (if l.bib = 0 then auto.toNat else l.bib), world := l.world, launch := l.lid, block := l.placed,
    blockT := l.blockT, threadsN := k, cores := cores, n := l.regs, spBytes := l.spBytes, minop := l.minop, prio := l.prio,
    relayCap := l.relayCap, spillBase := l.spillBase, spillSize := l.spillSize, levels := l.levels, windows := l.windows,
    draft := draft.1, nstage := draft.2, root := root, sp := List.replicate cores.length [], rowBase := s.baseRows b cores,
    warps := b.warps.map fun wi =>
      newWarp wi (nth cores (wi / warpsPerCore l.regs) 0) (s.slotFor b cores wi) l.regs l.entry
        ((List.range 128).filter fun t => decide (128 * wi + t < k)) }
  let s := match root with
    | some f => s.modFrame f fun e => { e with use := e.use + 1 }
    | none => s
  let s := if l.bib = 0 then { s with bib := auto + 1 } else s
  { s with
    gangs := s.gangs ++ [g],
    badPad := s.badPad.filter (fun p => p.1 ≠ gid) }.modLaunch l.lid fun l => { l with placed := l.placed + 1, reserve := none, passed := 0 }

/-- Blocks of a launch placed while they fit (R179), each on the cores that its own list of preferences puts first; its draft is checked
and copied with each (R279), and a draft that has become invalid ends the placing. The lists not used are handed on. -/
def State.placeBlocks (s : State) (lid : Nat) (shut : List Nat) (prefs : List (List Nat)) (n : Nat) : State × List (List Nat) :=
  match n with
  | 0 => (s, prefs)
  | j + 1 =>
    match s.launch? lid with
    | none => (s, prefs)
    | some l =>
      if l.blocks ≤ l.placed || s.draftHeld l.world l.root l.draft then (s, prefs)
      else match s.findPlace l.need l.bib shut (prefs.headD []) with
        | none => (s, prefs)
        | some (cl, cores) =>
          match s.readDraft l.world l.root l.regs l.draft with
          | none => (s.modLaunch lid fun l => { l with blocks := l.placed, status := some (0x00030000 + 88) }, prefs)
          | some d => (s.placeBlock l cl cores d).placeBlocks lid shut prefs.tail j

/-- A member put into a rising list, behind those of its own key. -/
def insertBy {α : Type} (key : α → Nat) (x : α) : List α → List α
  | [] => [x]
  | y :: r => if key x < key y then x :: y :: r else y :: insertBy key x r

/-- The current launches, ranked (R179): higher PRIO first, then worlds in turn, then the queues of a world in turn. -/
def State.ranked (s : State) : List Launch :=
  let cur := s.queues.filterMap fun k => k.cur.bind s.launch?
  let key := fun (l : Launch) =>
    (7 - l.prio) * 4096 + (l.world + 64 - s.rrWorld.get l.prio 0) % 64 * 64 + (l.queue + 64 - s.rrQueue.get (64 * l.prio + l.world) 0) % 64
  cur.foldl (fun r l => insertBy key l r) []

/-- The visible cluster with the fewest occupied cores, the lowest of several (R179). -/
def State.emptiest (s : State) : Option Nat :=
  (leastBy (fun (cl : Cluster) => (cl.cores.filter fun c => s.onCore c ≠ []).length) s.clusters).map (·.unit)

/-- One ranked launch has its turn in a round. Clusters kept for other launches are shut to it. A queue whose current launch has
placed its last block is free for its next record (R178). -/
def State.serve (s : State) (lid : Nat) (prefs : List (List Nat)) : State × List (List Nat) :=
  let shut := s.launches.filterMap fun l => if l.lid = lid then none else l.reserve
  let (s, rest) := s.placeBlocks lid shut prefs 4096
  match s.launch? lid with
  | none => (s, rest)
  | some l =>
    if l.placed < l.blocks then (s, rest)
    else ({ s with queues := s.queues.map fun k => if k.cur = some lid then { k with cur := none } else k }, rest)

/-- The passing over of launches in a round (R179): a launch that has placed nothing while one ranked below it placed a block counts
it; at 64 the emptiest cluster is kept for it. `before` are the ranked launches as the round began. -/
def State.countPassed (s : State) (before : List Launch) : State :=
  match before with
  | [] => s
  | l :: below =>
    let placed := fun (k : Launch) => match s.launch? k.lid with | some n => decide (k.placed < n.placed) | none => false
    let s := if l.placed = 0 && !placed l && below.any placed then
        let keep := s.emptiest
        s.modLaunch l.lid fun l =>
          { l with passed := l.passed + 1, reserve := if 64 ≤ l.passed + 1 then l.reserve.or keep else l.reserve }
      else s
    s.countPassed below

/-- The turns move on behind what a round has placed (R179; log entry 6): at each PRIO from the first-ranked world that placed a block to
the next world, and in each world from its first queue that did to the next queue. `before` are the ranked launches as the round
began, the last ranked handled first. -/
def State.rotate (s : State) (before : List Launch) : State :=
  let placed := fun (k : Launch) => match s.launch? k.lid with | some n => decide (k.placed < n.placed) | none => false
  (before.filter placed).reverse.foldl (fun s l =>
    { s with rrWorld := s.rrWorld.put l.prio ((l.world + 1) % 64),
             rrQueue := s.rrQueue.put (64 * l.prio + l.world) ((l.queue + 1) % 64) }) s

/-- DISPATCH_ROUND (R179): records are taken, the current launches ranked and served. `prefs` lists, for each block the round places, cores
in the order in which it prefers them; the spec leaves it open (R20). -/
def execDispatchRound (prefs : List (List Nat)) (s : State) : Host.Outcome State Fault Refusal :=
  .next <|
    if s.mgmt.locked then s
    else
      let s := (s.queues.map fun k => (k.world, k.q)).foldl (fun s k => s.takeRecords k.1 k.2 16) s
      let rank := s.ranked
      let t := (rank.foldl (fun (p : State × List (List Nat)) l => p.1.serve l.lid p.2) (s, prefs)).1
      (t.countPassed rank).rotate rank

/-! ### Completion words and kills (R177, R310) -/

/-- The completion word of a launch (R177). -/
def Launch.word (l : Launch) : Nat := l.status.getD (if l.killed then 0x00020000 else 0x00010000)

/-- LAUNCH_COMPLETION: a launch whose every block has ended has its completion word written, as a ga store at scope sys (R177). -/
def execLaunchCompletion (lid : Nat) (s : State) : Host.Outcome State Fault Refusal :=
  .next <| match s.launch? lid with
    | none => s
    | some l =>
      if l.placed < l.blocks ∨ l.ended < l.placed then s
      else
        let s : State := { s with launches := s.launches.filter fun k => k.lid ≠ lid }
        if l.cpl = 0 then s
        else match s.translate 1024 l.world (s.rootNow l.world l.root) l.cpl .plainStore with
          | .ok pa _ => s.deviceWrite pa (leBytes 4 l.word)
          | .bad f => s.logDispatch f.code l.world l.cpl

/-- KILL_COMPLETE: a killed context ends once every engine and switch has drained or given up its commands (R310). -/
def execKillComplete (gid : Nat) (s : State) : Host.Outcome State Fault Refusal :=
  .next <| match s.dying.find? fun g => g.gid = gid with
    | none => s
    | some g => if s.busy gid then s else s.endKilled g

/-! ### Stride slots (R183 to R185, R321) -/

/-- The thread groups of a warp that may issue: their threads, lowest program counter first to be found. -/
def Warp.groups (w : Warp) : List Thread := w.threads.filter fun th => w.eligible th && !th.waits

/-- Whether a warp is ready (R183). -/
def Gang.ready (g : Gang) (w : Warp) : Bool := !g.sealing && w.relayTo.isNone && w.stall.isNone && w.stride.isNone && w.groups ≠ []

/-- The warps of a quarter, the landing slot's among quarter 0's (R183). -/
def State.warpsOf (s : State) (core q : Nat) : List (Gang × Warp) :=
  s.gangs.flatMap fun g => (g.warps.filter fun w => w.core = core && w.quarter = q && w.relayTo.isNone).map fun w => (g, w)

/-- A warp's class (R184). -/
def classOf (p : Gang × Warp) : Nat := if p.2.demoted then 0 else p.1.prio

/-- The warp that has waited longest by a count, the lowest slot among equals (R184). -/
def longest (f : Warp → Nat) (ws : List (Gang × Warp)) : Option (Gang × Warp) :=
  let top := ws.foldl (fun m p => max m (f p.2)) 0
  leastBy (fun p => (top - f p.2) * 8 + p.2.slot) ws

/-- The warp a quarter chooses among ready ones, and under rule 3 its class, whose turn `rr` then moves to its slot (R184). -/
def chooseWarp (rr : Map Nat) (ws : List (Gang × Warp)) : Option ((Gang × Warp) × Option Nat) :=
  match longest (·.passed) (ws.filter fun p => decide (60 ≤ p.2.passed)) with
  | some p => some (p, none)
  | none =>
    match longest (·.unissued) (ws.filter fun p => decide (256 ≤ p.2.unissued)) with
    | some p => some (p, none)
    | none =>
      (leastBy (fun p => (7 - classOf p) * 8 + (p.2.slot + 7 - rr.get (classOf p) 7) % 8) ws).map fun p => (p, some (classOf p))

/-- A slot's count for a warp that was not chosen (R184): rule 1 counts the slots in which it was ready and not demoted; a warp that
has executed yld counts as chosen (R321). -/
def Warp.skip (w : Warp) (ready : Bool) : Warp :=
  if w.yielded then { w with passed := 0, unissued := 0, yielded := false }
  else { w with passed := if ready && !w.demoted then w.passed + 1 else 0, unissued := w.unissued + 1 }

/-- When the group at a program counter last issued: the latest issue of any of its threads, where threads with different histories
have met (R155 leaves that open: DESIGN CHOICE, log entry 87). -/
def Warp.groupLast (w : Warp) (pc : VAddr) : Nat := (w.active pc).foldl (fun m th => max m th.lastIssue) 0

/-- A warp begins its stride with the ready group that has gone longest without issuing, the one of lowest program counter among
equals (R155, R183). -/
def Warp.begin (w : Warp) : Warp :=
  match leastBy (fun (th : Thread) => w.groupLast th.pc * 2 ^ 42 + th.pc.toNat) w.groups with
  | none => w
  | some th => { w with stride := some { pc := th.pc, n := 0 }, passed := 0, unissued := 0, yielded := false }

/-- STRIDE_SLOT: a quarter whose issue slot is free chooses a ready warp, which runs its stride (R183, R184). A warp that executed yld
is chosen only where no other is ready (R321). -/
def execStrideSlot (core q : Nat) (s : State) : Host.Outcome State Fault Refusal :=
  .next <|
    let k := s.quarter core q
    if s.mgmt.locked || (s.core core).gated || k.running.isSome then s
    else
      let all := s.warpsOf core q
      let ready := all.filter fun p => p.1.ready p.2
      let eager := ready.filter fun p => !p.2.yielded
      match chooseWarp k.rr (if eager = [] then ready else eager) with
      | none => s
      | some ((g, w), turn) =>
        let r : WRef := (g.gid, w.wi)
        let s := all.foldl (fun s p =>
          if p.1.gid = g.gid && p.2.wi = w.wi then s else s.modWarp (p.1.gid, p.2.wi) fun v => v.skip (p.1.ready p.2)) s
        (s.modWarp r Warp.begin).modQuarter core q fun k =>
          { k with running := some r, rr := match turn with | some c => k.rr.put c w.slot | none => k.rr }

/-! ### Data a warp stalls for (R86, R196, R268) -/

/-- A word of a window enters the parameter cache of a core (R196). -/
def State.readParam (s : State) (r : WRef) (a : Nat) : State :=
  match s.gang? r.1, s.warp? r with
  | some g, some w =>
    match s.translate w.core g.world g.root a .load with
    | .ok pa _ =>
      let v : Word := BitVec.ofNat 32 (s.mem.num pa 4)
      s.modCore w.core fun c => { c with pcache := c.pcache.put (pcKey g a) v }
    | .bad _ => s
  | _, _ => s

/-- Whether a word that an address of a warp's context names cannot be read yet: for its line or its route, or for a store that others have
seen and that is still on its way to it (R231, R355, R361). -/
def State.heldFor (s : State) (r : WRef) (a : Nat) : Bool :=
  match s.gang? r.1, s.warp? r with
  | some g, some w =>
    (match s.translate w.core g.world g.root (a % 2 ^ 64) .load with
     | .ok pa _ => s.homeHeld w.core pa true || s.seenHeld (dieOfCore w.core) pa 4
     | .bad _ => false)
  | _, _ => false

/-- STALL_DATA_ARRIVAL: what a warp stalls for arrives, and it goes on. Data whose line a ga store still holds cannot be read yet
(R355); a return's fill is held back where the ret reads it. -/
def execStallDataArrival (gid wi : Nat) (s : State) : Host.Outcome State Fault Refusal :=
  .next <|
    let r : WRef := (gid, wi)
    let go := fun (s : State) (st : Stall) => s.modWarp r fun w => { w with stall := some st }
    match (s.warp? r).bind (·.stall) with
    | some (.ret _) => go s (.ret true)
    | some (.param ws) => if ws.any (s.heldFor r) then s else go (ws.foldl (fun s a => s.readParam r a) s) (.param [])
    | some (.record rs) =>
      let held := fun (p : Bool × Nat) => p.1 && [0, 64, 128].any fun k => s.heldFor r (p.2 + k)
      if rs.any held then s else go (rs.foldl (fun s p => s.readRecord r p) s) (.record [])
    | _ => s

/-! ### Clock gating (R186) -/

/-- Whether no warp or landing slot of a core is ready and no stride runs there. -/
def State.idleCore (s : State) (c : Nat) : Bool :=
  (List.range 4).all fun q => (s.quarter c q).running.isNone && (s.warpsOf c q).all fun p => !p.1.ready p.2

/-- CLOCK_GATE: an idle core gates its clock; its counter goes on (R186). -/
def execClockGate (c : Nat) (s : State) : Host.Outcome State Fault Refusal :=
  .next (if s.idleCore c && !(s.core c).gated then s.modCore c fun k => { k with gated := true, causes := 0, wakeAt := none } else s)

/-- WAKE: 24 cycles after the first cause the core runs, and $wake holds the causes of the clock that began the wake (R186). A core
with a ready warp that none of the five causes made ready begins its wake here (log entry 17). -/
def execWake (c : Nat) (s : State) : Host.Outcome State Fault Refusal :=
  .next <|
    let k := s.core c
    if !k.gated then s
    else match k.wakeAt with
      | some u =>
        if u ≤ k.clock then
          let s := s.modCore c fun k => { k with gated := false, wakeReg := k.causes, wakeAt := none }
          { s with gangs := s.gangs.map fun g =>
              { g with warps := g.warps.map fun w => if w.core = c then { w with woke := true } else w } }
        else s
      | none => if s.idleCore c then s else s.modCore c fun k => { k with causes := 0, wakeAt := some (k.clock + 24) }

end Sys2Proof.Machine
end

