-- ==== Sys2Proof/Machine/Preempt.lean ====
section
/-!
DEFINITION. Pre-emption, sealing and resumption (spec/08 R169; spec/09 R182, R187; spec/15 R300; spec/17 R321, R325 to R328; spec/20
R365).
-/
namespace Sys2Proof.Machine

/-! ### Requests (R187, R321, R325) -/

/-- The warps of a gang that core `j` of it holds. -/
def Gang.warpsAt (g : Gang) (j : Nat) : List Warp := g.warps.filter fun w => g.gcOf w.wi = j

/-- The CONTEXT frames a gang's image needs (R325). -/
def Gang.framesNeeded (g : Gang) : Nat :=
  1 + ((List.range g.cores.length).map fun j =>
    ((g.warpsAt j).length * 512 * g.n + 65535) / 65536 + (rowsFor g.spBytes + 63) / 64).foldl (· + ·) 0

/-- The gangs requested for pre-emption get a wake cause on their cores (R186). -/
def State.causeGang (s : State) (gid bit : Nat) : State :=
  match s.gang? gid with
  | none => s
  | some g => (g.cores ++ g.warps.map (·.core)).eraseDups.foldl (fun s c => s.modCore c fun k => k.cause bit) s

/-- PREEMPT_REQUEST: firmware requests the pre-emption of a gang and supplies CONTEXT frames of its world; with a notice period,
NOTICE is posted (R187, R319, R321, R325). -/
def execPreemptRequest (gid : Nat) (notice : Option Nat) (frames : List Nat) (s : State) : Host.Outcome State Fault Refusal :=
  .next <| match s.gang? gid with
    | none => s
    | some g =>
      let fits := frames.all fun f => (s.frame f).type = 5 && (s.frame f).owner = g.world
      if g.preempt.isSome || !fits || frames.eraseDups ≠ frames || frames.length < g.framesNeeded then s
      else
        let at_ := notice.map fun p => s.now (nth g.cores 0 0) + p
        let s := s.modGang gid fun g =>
          { g with preempt := some { notice := at_, frames := frames }, warps := g.warps.map fun w => { w with noticeYld := false } }
        let s := s.causeGang gid 3
        match notice with
        | some _ => s.post gid 2
        | none => s

/-- NOTICE_EXPIRY: the notice period has passed (R321). -/
def execNoticeExpiry (gid : Nat) (s : State) : Host.Outcome State Fault Refusal :=
  .next <| match s.gang? gid with
    | none => s
    | some g =>
      match g.preempt with
      | some p =>
        (match p.notice with
         | some u => if u ≤ s.now (nth g.cores 0 0) then s.modGang gid fun g => { g with preempt := some { p with notice := none } } else s
         | none => s)
      | none => s

/-! ### Sealing (R326) -/

/-- The clock limit of a wait changed. -/
def Wait.mapLimit (w : Wait) (f : Nat → Nat) : Wait :=
  match w with
  | .jwait j (some (l, d)) => .jwait j (some (f l, d))
  | .phase o p (some l) d slot => .phase o p (some (f l)) d slot
  | w => w

/-- The clock limits of a warp's waits changed (R169). -/
def Warp.mapLimits (w : Warp) (f : Nat → Nat) : Warp := w.mapThreads fun th => { th with wait := th.wait.mapLimit f }

/-- Whether every warp of a gang stands at a stride boundary (R187): no stride runs or stalls, none is on its way. -/
def Gang.atBoundary (g : Gang) : Bool := g.warps.all fun w => w.stride.isNone && w.stall.isNone && w.relayTo.isNone

/-- Whether what sealing waits for has ended (R326): engine commands, started group C commands, and every access of the context
acknowledged or reported. -/
def State.drained (s : State) (gid : Nat) : Bool :=
  !s.flights.any (fun f => f.gid = gid) && !s.pending.any (fun p => p.gid = gid) &&
  s.cores.all fun c => !c.2.slots.any (fun k => k.gid = gid) && !c.2.kills.any (fun k => k.gid = gid) &&
    c.2.quarters.all fun q => !q.mq.any fun m => m.gid = gid && m.started

/-- The group C commands of a gang that have not started (R300). -/
def State.queuedMatrix (s : State) (gid : Nat) : List MCmd :=
  s.cores.flatMap fun c => c.2.quarters.flatMap fun q => q.mq.filter fun m => m.gid = gid

/-- The tiles a gang's warps own, by warp and index (R300). -/
def State.ownedTiles (s : State) (gid : Nat) : List (Nat × Nat × Tile) :=
  s.cores.flatMap fun c => c.2.quarters.flatMap fun q => (List.range 2).filterMap fun k =>
    let t := nth q.tiles k {}
    match t.owner with
    | some w => if w.1 = gid then some (w.2, k, t) else none
    | none => none

/-- SEAL: a gang whose warps have stopped and whose accesses and commands have ended is saved with its tag, and its cores, slots,
rows and barrier entries are free (R326). What its threads have read and written before is in its image and in memory: sealing waits too
until the stores of others that they have seen early are at the home slice (R46, R231). Under lock-down no context is sealed (R312). -/
def execSeal (gid : Nat) (s : State) : Host.Outcome State Fault Refusal :=
  .next <| match s.gang? gid with
    | none => s
    | some g =>
      if s.mgmt.locked || !g.sealing || !g.atBoundary || !s.drained gid || s.flights.any (fun f => f.seen && !f.finished) then s
      else
        let (image, s) := s.fresh
        let stop := fun (w : Warp) => (w.mapLimits fun l => l - s.now w.core).mapThreads fun th => { th with lates := [] }
        let k : Sealed := {
          gang := { g with preempt := none, veils := [], warps := g.warps.map stop },
          mq := s.queuedMatrix gid, tiles := s.ownedTiles gid,
          frames := (match g.preempt with | some p => p.frames | none => []),
          image := image, tag := Config.imageTag s.mgmt.sealKey image g.world g.bib }
        ({ s with gangs := s.gangs.filter (fun h => h.gid ≠ gid), glVeils := [], sealed := s.sealed ++ [k] }).release gid

/-! ### Resumption (R328) -/

/-- What the frames of an image hold: the image, or something else where a frame was retyped or holds an error. -/
def State.imageIn (s : State) (k : Sealed) : Nat :=
  let intact := k.frames.all fun f =>
    (s.frame f).type = 5 && (s.frame f).owner = k.gang.world && !(s.frame f).bad && !s.badMem.any fun w => w / 16384 = f
  if intact then k.image else 0

/-- What a sealed gang asks of its cores (R180). -/
def Gang.need (g : Gang) : Need :=
  { n := g.n, minop := g.minop, rows := rowsFor g.spBytes, warps := (g.warps.filter fun w => w.live ≠ []).map (·.wi), g := g.cores.length }

/-- Whether a warp sits away from its home slot (R364). -/
def Warp.away (w : Warp) : Bool := w.slot = 4

/-- A warp of a resumed gang in its slot: home warps on the new cores; a relayed one in a free landing slot of the die it had
reached, or else at home (R328, R365). -/
def State.reseat (s : State) (gid : Nat) (home : Nat → Nat × Nat) (w : Warp) : State × Warp :=
  let h := home w.wi
  let land := if w.away && w.live ≠ [] then (s.visibleOn (dieOfCore w.core)).find? fun c => (s.core c).landing.isNone else none
  match land with
  | some c =>
    (s.modCore c fun k => { k with landing := some (gid, w.wi) },
      ({ w with core := c, quarter := 0, slot := 4, homeCore := h.1, homeSlot := h.2 } : Warp).mapLimits fun l => l + s.now c)
  | none =>
    (s, ({ w with core := h.1, quarter := w.wi % 4, slot := h.2, homeCore := h.1, homeSlot := h.2 } : Warp).mapLimits
      fun l => l + s.now h.1)

/-- The warps of a resumed gang in their slots. -/
def State.reseatAll (s : State) (gid : Nat) (home : Nat → Nat × Nat) (ws : List Warp) : State × List Warp :=
  match ws with
  | [] => (s, [])
  | w :: r =>
    let (s, v) := s.reseat gid home w
    let (s, vs) := s.reseatAll gid home r
    (s, v :: vs)

/-- A group C command back in its quarter's queue. -/
def State.requeue (s : State) (gid : Nat) (m : MCmd) : State :=
  match s.warp? (gid, m.wi) with
  | some w => s.modQuarter w.core w.quarter fun q => { q with mq := q.mq ++ [m] }
  | none => s

/-- A saved tile back in the quarter array of its warp's seat. -/
def State.retile (s : State) (gid : Nat) (p : Nat × Nat × Tile) : State :=
  match s.warp? (gid, p.1) with
  | some w => s.putTile w.core w.quarter p.2
  | none => s

/-- The seats a sealed gang's warps would take on cores. -/
def State.seats (s : State) (k : Sealed) (cores : List Nat) : State × List Warp :=
  let b := k.gang.need
  s.reseatAll k.gang.gid (fun wi => (nth cores (wi / warpsPerCore k.gang.n) 0, s.slotFor b cores wi)) k.gang.warps

/-- The places of a sealed gang's tiles in the quarter arrays of its warps' seats. -/
def tilePlaces (k : Sealed) (ws : List Warp) : List (Nat × Nat × Nat) :=
  k.tiles.filterMap fun p => (ws.find? fun w => w.wi = p.1).map fun w => (w.core, w.quarter, p.2.1)

/-- Whether the cores offered suit a sealed gang: one visible cluster without its bib, each core accepting its share, and the tiles
it saved free in the quarter arrays of its warps' seats (R180, R300, R328, R337). -/
def State.suits (s : State) (k : Sealed) (cores : List Nat) : Bool :=
  let b := k.gang.need
  cores.length = b.g && ascending cores = cores &&
    (s.clusters.any fun cl => cores.all cl.cores.contains && !(s.bibsIn cl).contains k.gang.bib) &&
    ((List.range b.g).all fun j => s.accepts b (nth cores j 0) j) &&
    (let places := tilePlaces k (s.seats k cores).2
     places.eraseDups = places && places.all fun p => s.tileFree p.1 p.2.1 p.2.2)

/-- A resumed gang on its cores; RELOC is posted where a core differs (R319, R328). The copies of its dies take their homes' values, for its
threads may have read those elsewhere (R46). -/
def State.restore (s : State) (k : Sealed) (cores : List Nat) : State :=
  let gid := k.gang.gid
  let rows := s.baseRows k.gang.need cores
  let s := { s with sealed := s.sealed.filter fun j => j.gang.gid ≠ gid }
  let (s, ws) := s.seats k cores
  let seats := fun (ws : List Warp) => (ws.filter fun w => w.live ≠ []).map (·.core)
  let moved := k.gang.cores ≠ cores || seats ws ≠ seats k.gang.warps
  let s := (ws.map fun w => dieOfCore w.core).eraseDups.foldl State.freshenDie s
  let s := { s with gangs := s.gangs ++ [{ k.gang with cores := cores, rowBase := rows, warps := ws }] }
  let s := k.tiles.foldl (fun s p => s.retile gid p) (k.mq.foldl (fun s m => s.requeue gid m) s)
  if moved then s.post gid 3 else s

/-- A context whose seal check fails is killed and nothing of it restored; the failure has the class I response (R312, R328). -/
def State.sealFails (s : State) (k : Sealed) : State :=
  let g := k.gang
  let s := { s with sealed := s.sealed.filter fun j => j.gang.gid ≠ g.gid }
  let die := s.mgmt.ctlDie
  let s := s.logEntry die { src := 6, srcId := die, code := 0, world := g.world, cls := 2 }
  let s := s.modLaunch g.launch fun l => { l with killed := true }
  let s := s.endKilled g
  if s.mgmt.respI then s.lockDown 4 0 g.world die 0xFFFF 0 0 else s

/-- RESUME: firmware resumes a sealed gang on cores of one cluster (R328). The tag is checked first. -/
def execResume (gid : Nat) (cores : List Nat) (s : State) : Host.Outcome State Fault Refusal :=
  .next <| match s.sealed.find? fun k => k.gang.gid = gid with
    | none => s
    | some k =>
      if s.mgmt.locked then s
      else if Config.imageTag s.mgmt.sealKey (s.imageIn k) k.gang.world k.gang.bib ≠ k.tag then s.sealFails k
      else if s.suits k cores then s.restore k cores
      else s

end Sys2Proof.Machine
end

