-- ==== Sys2Proof/Machine/Repair.lean ====
section
/-!
DEFINITION. Operating-point steps (spec/11 R205 to R209), repair while running (spec/12 R226; spec/18 R343 to R346), spare takeover
(R347, R348), environmental alarms (R338 to R340) and bridge failures (spec/20 R360).
-/
namespace Sys2Proof.Machine

/-! ### Row maps (R206) -/

/-- The physical row of a logical row: the row of the same number until a step or a repair moves it (log entry 10). -/
def Core.rowAt (k : Core) (l : Nat) : Nat := k.rowMap.get l l

/-- The physical rows that are not good at an operating point (R205). -/
def Core.badAt (k : Core) (p : Nat) : List Nat := nth k.bad p []

/-- The lowest good row at a point that no logical row below a limit maps to. -/
def Core.spareRow (k : Core) (p limit : Nat) : Option Nat :=
  let used := (List.range limit).map k.rowAt
  (List.range 2176).find? fun r => !(k.badAt p).contains r && !used.contains r

/-- Logical rows below a limit moved off the rows that are not good at a point, in rising order (R206). -/
def Core.moveRows (k : Core) (p limit : Nat) : Core :=
  ((List.range limit).filter fun l => (k.badAt p).contains (k.rowAt l)).foldl (fun k l =>
    match k.spareRow p limit with
    | some r => { k with rowMap := k.rowMap.put l r }
    | none => k) k

/-- Logical rows from a limit up leave the map (R206). -/
def Core.cutRows (k : Core) (limit : Nat) : Core := { k with rowMap := k.rowMap.filter fun p => decide (p.1 < limit) }

/-- Logical rows from `l` on added in rising order, each on the lowest unused good row (R206). -/
def Core.addRows (k : Core) (p l n : Nat) : Core :=
  match n with
  | 0 => k
  | j + 1 =>
    (match k.spareRow p l with
     | some r => ({ k with rowMap := k.rowMap.put l r } : Core).addRows p (l + 1) j
     | none => k)

/-- Every core with a state of its own changed; a core without one has every row good. -/
def State.mapCores (s : State) (f : Nat → Core → Core) : State := { s with cores := s.cores.map fun c => (c.1, f c.1 c.2) }

/-! ### Steps of the operating point (R208) -/

/-- OP_EVACUATE_SCRATCHPAD: once every core's high-water mark fits, rows outside the new good set are moved (R208 stages 1 and 2). -/
def execOpEvacuateScratchpad (s : State) : Host.Outcome State Fault Refusal :=
  .next <| match s.opstep with
    | some st =>
      if st.stage ≠ 1 ∨ st.target ≤ s.opcur then s
      else if (List.range 160).all fun c => decide (s.highWater c ≤ s.capAt c st.target) then
        { s.mapCores (fun _ k => k.moveRows st.target (min 2048 (2176 - (k.badAt st.target).length))) with
          opstep := some { st with stage := 2 } }
      else s
    | none => s

/-- OP_EVACUATE_SLICES: the home slices have written back and given up the lines of rows outside the good set (R208 stage 3); memory
keeps its value. -/
def execOpEvacuateSlices (s : State) : Host.Outcome State Fault Refusal :=
  .next <| match s.opstep with
    | some st => if st.stage = 2 then { s with opstep := some { st with stage := 3 } } else s
    | none => s

/-- OP_SWITCH: the point changes and OPCHG is posted (R208 stage 4); an upward step then extends the row maps (R206). -/
def execOpSwitch (s : State) : Host.Outcome State Fault Refusal :=
  .next <| match s.opstep with
    | some st =>
      let cap := fun (k : Core) (p : Nat) => min 2048 (2176 - (k.badAt p).length)
      if s.opcur < st.target ∧ st.stage = 3 then
        let s := s.mapCores fun _ k => k.cutRows (cap k st.target)
        ({ s with opcur := st.target, opstep := none }).postResident 1
      else if st.target < s.opcur then
        let s := s.mapCores fun _ k => k.addRows st.target (cap k s.opcur) (cap k st.target - cap k s.opcur)
        ({ s with opcur := st.target, opstep := none }).postResident 1
      else s
    | none => s

/-! ### Repair (R226, R345, R346) -/

/-- The storage a frame lies on: stack 0 to 7, or 8 and its second-tier channel (R203). -/
def storageOf (fn : Nat) : Nat := if fn < 0x800000 then fn / 0x100000 else 8 + (fn - 0x800000) / 0x80000

/-- ROW_RETIRE: a scratchpad row leaves every good set and its logical row is moved. Where the core's rows fall at the current point the
row's retirement first stands pending until the high-water mark fits, and OPCHG is posted once it is done. Or a row of a home slice is
retired, whose lines have been written back (R208, R345). -/
def execRowRetire (slice : Bool) (unit row : Nat) (s : State) : Host.Outcome State Fault Refusal :=
  .next <|
    let add := fun (b : List Nat) => if b.contains row then b else row :: b
    if slice then { s with slicesBad := s.slicesBad.put unit (add (s.slicesBad.get unit [])) }
    else
      let k := s.core unit
      let k1 : Core := { k with bad := k.bad.map add }
      let cap := min 2048 (2176 - (k1.badAt s.opcur).length)
      let fell := decide (cap < s.capAt unit s.opcur)
      if 160 ≤ unit ∨ 2176 ≤ row ∨ (k.bad.all fun b => b.contains row) then s
      else if fell && decide (cap < s.highWater unit) then
        { s with retiring := if s.retiring.contains (unit, row) then s.retiring else (unit, row) :: s.retiring }
      else
        let k2 := (k1.moveRows s.opcur cap).cutRows cap
        let s := s.modCore unit fun _ => if fell then k2 else k1.moveRows s.opcur cap
        let s := { s with retiring := s.retiring.filter fun r => r ≠ (unit, row) }
        if fell then s.postResident 1 else s

/-- A member put before a list that lacks it. -/
def joined (x : Nat) (l : List Nat) : List Nat := if l.contains x then l else x :: l

/-- SOFT_PPR: where the bank of a stack's failing DRAM row, named by a line that lies in it, still has its spare row, the row's channel is
quiesced while the row is repaired. With `hard` the repair is recorded for the next reset: with the soft repair that stands until then, a new
one or an earlier one of the bank, or without one where the row's frame is being migrated (R346). -/
def execSoftPpr (line : Nat) (hard : Bool) (s : State) : Host.Outcome State Fault Refusal :=
  .next <|
    let ch := Config.dramChannel line
    let bank := Config.dramBank line
    let moves := hard && (s.frame (frameOf (128 * line))).mig
    if 8 ≤ storageOf (frameOf (128 * line)) ∨ s.burned.contains bank then s
    else
      let s := if hard then { s with hardRepairs := joined bank s.hardRepairs } else s
      if s.rowSpares.contains bank || moves then s
      else { s with quiesced := joined ch s.quiesced, rowSpares := bank :: s.rowSpares }

/-- SOFT_PPR_COMPLETE: the row is written back with its poison, and held accesses go on (R346). -/
def execSoftPprComplete (line : Nat) (s : State) : Host.Outcome State Fault Refusal :=
  .next { s with quiesced := s.quiesced.filter fun c => c ≠ Config.dramChannel line }

/-- Spare storage frames of a stack or channel (R346). -/
def spareFrames (st : Nat) : Nat := if st < 8 then 64 else 32

/-- FRAME_MIGRATION: a frame's storage begins to be copied to a spare storage frame, while one is left (R226, R346). -/
def execFrameMigration (fn : Nat) (s : State) : Host.Outcome State Fault Refusal :=
  .next <|
    let st := storageOf fn
    if 0x1800000 ≤ fn ∨ (s.frame fn).mig ∨ spareFrames st ≤ s.spares.get st 0 then s
    else { s.modFrame fn (fun e => { e with mig := true }) with
      migs := s.migs ++ [{ frame := fn, dirty := [] }], spares := s.spares.put st (s.spares.get st 0 + 1) }

/-- MIGRATION_SWITCH: the lines written since are copied again, and the frame stands on its new storage with every byte and poisoned
line it had (R226). -/
def execMigrationSwitch (fn : Nat) (s : State) : Host.Outcome State Fault Refusal :=
  .next <|
    if s.migs.any fun m => m.frame = fn then
      { s.modFrame fn (fun e => { e with mig := false }) with migs := s.migs.filter fun m => m.frame ≠ fn }
    else s

/-! ### Errors found in arrays and in memory (R333, R343, R344) -/

/-- A register poisoned where it stands, its full/empty bit unchanged. -/
def poisonReg (rs : List Reg) (i : Nat) : List Reg := modAt rs i fun r => { r with bad := some .ecc }

/-- The source of an array's log entries: kind, number and die (R402). -/
def arraySource (core : Nat) (a : ArrayWord) : Nat × Nat × Nat :=
  match a with
  | .slice w => (2, 48 * homeDie (4 * w) + sliceOf (4 * w), homeDie (4 * w))
  | .frame fn => (2, homeSliceOfFrame fn, homeDieOfFrame fn)
  | .buffer w => (5, 4 * w / 2 ^ 22, 4 * w / 2 ^ 22 / 2)
  | _ => (1, core, dieOfCore core)

/-- An uncorrectable error poisons its granule: a scratchpad or buffer word, a line in a home slice, an object, a frame's entry, a
register (R343). -/
def State.poison (s : State) (a : ArrayWord) : State :=
  match a with
  | .pad gid gc w => { s with badPad := (s.badPad ++ [(gid, gc, w)]).eraseDups }
  | .obj gid gc off => s.modGang gid fun g => { g with objs := g.objs.map fun o =>
      if o.ref = ({ gc := gc, off := off } : ObjRef) then { o with bad := true } else o }
  | .slice w => { s with badMem := (s.badMem ++ wordsIn (lineOf (4 * w) * 128) 128).eraseDups }
  | .buffer w => { s with badBb := (s.badBb ++ [w]).eraseDups }
  | .frame fn => s.modFrame fn fun e => { e with bad := true }
  | .main gid wi t i => s.modThread (gid, wi) t fun th => { th with m := poisonReg th.m i }
  | .own gid wi t i => s.modThread (gid, wi) t fun th => { th with badOl := th.badOl ||| olBits i 1 }
  | .scalar gid wi i => s.modWarp (gid, wi) fun w => { w with s := poisonReg w.s i }

/-- One error found: corrected, which writes what was there already, or uncorrectable; both are logged (R344). -/
def State.arrayError (s : State) (core : Nat) (e : ArrayWord × Bool) : State :=
  let src := arraySource core e.1
  (if e.2 then s.poison e.1 else s).logEntry src.2.2
    { src := src.1, srcId := src.2.1, code := fEcc, cls := if e.2 then 2 else 0 }

/-- SCRUB: the scrubber of a core's arrays, or of what it names, reads and corrects every word; `found` lists the errors met, true
where uncorrectable (R344). -/
def execScrub (core : Nat) (found : List (ArrayWord × Bool)) (s : State) : Host.Outcome State Fault Refusal :=
  .next (found.foldl (fun s e => s.arrayError core e) s)

/-- PATROL: a line of memory is read, on patrol or for an access, and corrected; `found` lists the 32-byte granules in which CHECK met an
error, true where uncorrectable. With one of those, or with TAG in disagreement, the line stands in its home slice poisoned. A mismatch
where CHECK is clean is logged as an integrity failure, with CODE 0; any other as the storage error that CHECK met (R333, R344; log
entry 108). -/
def execPatrol (line : Nat) (found : List (Nat × Bool)) (tag : Bool) (s : State) : Host.Outcome State Fault Refusal :=
  .next <|
    let die := homeDie (128 * line)
    let src := storageOf (frameOf (128 * line))
    let log := fun (s : State) (code cls a : Nat) => s.logEntry die { src := 5, srcId := src, code := code, cls := cls, addr := a }
    let hard := found.any fun e => e.2
    let s := found.foldl (fun s e => log s fEcc (if e.2 then 2 else 0) (128 * line + 32 * (e.1 % 4))) s
    let s := if tag && !hard then log s (if found.isEmpty then 0 else fEcc) 2 (128 * line) else s
    if tag || hard then { s with badMem := (s.badMem ++ wordsIn (128 * line) 128).eraseDups } else s

/-! ### Spare takeover (R347, R348) -/

/-- Whether a gang, or a relayed warp of one, sits on a cluster. -/
def State.resides (s : State) (cl : Cluster) : Bool :=
  (s.gangs ++ s.dying).any fun g =>
    g.cores.any cl.cores.contains || g.warps.any fun w => w.live ≠ [] && cl.cores.contains w.core

/-- The gangs with a failed core are killed under R310 (R348). -/
def State.killOn (s : State) (cl : Cluster) (isUnit : Bool) (part : Nat) : State :=
  (s.gangs.filter fun g => if isUnit then g.cores.any cl.cores.contains else
      g.cores.contains part || g.warps.any fun w => w.core = part).foldl
    (fun s g => s.kill g.gid { code := 0 } 0 (nth g.cores 0 0)) s

/-- A spare of the failed kind takes the failed part's place, if the die's pool holds one (R348). -/
def State.takeSpare (s : State) (k : Nat) (cl : Cluster) (isUnit : Bool) (part : Nat) : Option State :=
  let die := cl.unit / 10
  if isUnit then
    (leastBy id (s.poolUnits.filter fun u => u / 10 = die)).map fun u =>
      { s with clusters := modAt s.clusters k fun c => { c with unit := u }, poolUnits := s.poolUnits.filter fun v => v ≠ u }
  else
    (leastBy id (s.poolCores.filter fun c => dieOfCore c = die)).map fun c =>
      { s with
        clusters := modAt s.clusters k fun cl => { cl with cores := ascending (c :: cl.cores.filter fun d => d ≠ part) },
        poolCores := s.poolCores.filter fun d => d ≠ c }

/-- Without a spare the cluster leaves the visible set, its healthy parts join the pool, the last cluster takes its number, and TOPO
is posted after $nclu has fallen (R12, R348). -/
def State.shrink (s : State) (k : Nat) (cl : Cluster) (isUnit : Bool) (part : Nat) : State :=
  let last := s.clusters.length - 1
  let moved := match s.clusters[last]? with
    | some c => modAt s.clusters k fun _ => c
    | none => s.clusters
  let s := { s with
    clusters := moved.take last,
    poolCores := s.poolCores ++ (if isUnit then cl.cores else cl.cores.filter fun c => c ≠ part),
    poolUnits := if isUnit then s.poolUnits else s.poolUnits ++ [cl.unit] }
  s.postAll 0

/-- SPARE_TAKEOVER: firmware has declared a core or a cluster unit failed (R347). With `dead` the gangs it carries are killed (R348
step 1); without, once no gang resides on the clusters concerned, a spare takes over or the visible set shrinks. -/
def execSpareTakeover (isUnit : Bool) (part : Nat) (dead : Bool) (s : State) : Host.Outcome State Fault Refusal :=
  .next <|
    let holds := fun (cl : Cluster) => if isUnit then cl.unit = part else cl.cores.contains part
    match (List.range s.clusters.length).find? fun k => (match s.clusters[k]? with | some cl => holds cl | none => false) with
    | none =>
      { s with
        poolCores := if isUnit then s.poolCores else s.poolCores.filter fun c => c ≠ part,
        poolUnits := if isUnit then s.poolUnits.filter fun u => u ≠ part else s.poolUnits }
    | some k =>
      let cl := (s.clusters[k]?).getD { unit := 0, cores := [] }
      if dead then s.killOn cl isUnit part
      else if s.resides cl then s
      else match s.takeSpare k cl isUnit part with
        | some t => t
        | none =>
          let last := (s.clusters[s.clusters.length - 1]?).getD cl
          if s.resides last then s else s.shrink k cl isUnit part

/-! ### Alarms (R338 to R340) -/

/-- ENVIRONMENTAL_ALARM: a condition of R338 persists and has the class I response (R312): lock-down, or an entry in the log. FLOW and
POWER concern the module only. -/
def execEnvironmentalAlarm (cond die : Nat) (s : State) : Host.Outcome State Fault Refusal :=
  .next <|
    let module_ := match s.mgmt.ident with | some i => i.module_ | none => false
    if cond = 0 ∨ 5 < cond ∨ ((cond = 3 ∨ cond = 4) ∧ !module_) then s
    else if s.mgmt.respI then s.lockDown 3 cond 0 die 0xFFFF 0 0
    else s.logEntry die { src := 6, srcId := s.mgmt.ctlDie, code := cond, cls := 2 }

/-- ALARM_RESEND: the record goes out again, unchanged (R340). -/
def execAlarmResend (s : State) : Host.Outcome State Fault Refusal :=
  .next <| match s.mgmt.alarm with
    | some _ => if s.mgmt.locked then s.sendAlarm else s
    | none => s

/-! ### Lost acknowledgements and bridge failure (R8, R360, R361) -/

/-- A command whose landings are not acknowledged within 2^24 clocks, or whose bridge failed, ends with F_ACKLOST; a late acknowledgement
is discarded (R260, R360). -/
def State.loseCmd (s : State) (core : Nat) (k : Cmd) : State :=
  let lost := fun (v : Inval) => if v.store = k.mark core then { v with store := 0 } else v
  ({ s with invals := s.invals.map lost }).putCmd core { k with status := some (k.status.getD fAcklost) }

/-- The command whose invalidations carry a number, with its core. -/
def State.cmdOfMark (s : State) (id : Nat) : Option (Nat × Cmd) :=
  (s.cores.flatMap fun c => c.2.slots.map fun k => (c.1, k)).find? fun p => p.2.mark p.1 = id

/-- ACK_TIMEOUT: no acknowledgement within 2^24 clocks of issue (R360): of an access, or of an engine command's landings. -/
def execAckTimeout (id : Nat) (s : State) : Host.Outcome State Fault Refusal :=
  .next <| match s.flight? id with
    | some f => if f.needOst && f.issued + 16777216 ≤ s.now f.core then s.declareLost f else s
    | none =>
      match s.cmdOfMark id with
      | some (core, k) => if s.landing core k && k.sent + 16777216 ≤ s.now core then s.loseCmd core k else s
      | none => s

/-- The places that a command has reached so far, or reaches first if it has reached none: the words it has read before its pieces, or what
its pieces read and write. -/
def Cmd.touched (k : Cmd) : List (CSpc × Nat) :=
  let at_ := fun (p : Nat) => k.kind.needs p ++ (match k.kind.into p with | some w => [(w.1, w.2.1)] | none => [])
  if k.unread then
    let read := k.first.filter fun w => (k.got w.1 w.2).isSome
    if read = [] then k.first.take 1 else read
  else (if k.donePcs = [] then List.range (min 1 k.kind.count) else k.donePcs).flatMap at_

/-- The home dies of the gl lines and base-die buffers that a command has reached (R203, R263). -/
def State.cmdHomes (s : State) (core : Nat) (k : Cmd) : List Nat :=
  match s.anyGang? k.gid with
  | none => []
  | some g =>
    k.touched.filterMap fun w =>
      match w.1 with
      | .gl =>
        (match s.translate core g.world g.root (w.2 % 2 ^ 64) .load with
         | .ok pa _ => some (homeDie pa)
         | .bad _ => none)
      | .bb => some (w.2 / 2 ^ 22 / 2)
      | _ => none

/-- Whether a bridge carries a command's accesses or their acknowledgements (R360). -/
def State.cmdCarried (s : State) (b core : Nat) (k : Cmd) : Bool :=
  let die := dieOfCore core
  let on := fun (x y : Nat) => (s.route x y).any (·.contains b)
  (s.cmdHomes core k).any fun h => on die h || on h die

/-- BRIDGE_FAILURE: a bridge is out of service. Of the accesses that it carried those whose messages it dropped are lost, and an engine
command that lost one fails with 0x2202; what its core has not sent yet takes the new route (R8, R360, R361). -/
def execBridgeFailure (bridge : Nat) (dropped : List Nat) (cmds : List (Nat × Nat)) (s : State) : Host.Outcome State Fault Refusal :=
  .next <|
    let lose := fun (s : State) (id : Nat) =>
      match s.flight? id with
      | none => s
      | some f => if f.needOst && s.carries bridge f then s.declareLost f else s
    let fail := fun (s : State) (p : Nat × Nat) =>
      match s.cmd? p.1 p.2 with
      | some k => if !k.killed && s.cmdCarried bridge p.1 k then s.loseCmd p.1 k else s
      | none => s
    let s := cmds.foldl fail (dropped.foldl lose s)
    let s := { s with bridges := modAt s.bridges bridge fun _ => false }
    { s with flights := s.flights.map fun f =>
        if f.seq.isNone && f.done = 0 then { f with route := s.routeFor f } else f }

end Sys2Proof.Machine
end

