-- ==== Sys2Proof/Machine/Net.lean ====
section
/-!
DEFINITION. Tagged packets of the base dies (spec/20 R366, R370, R371), chip-to-chip links and their keys (spec/21 R372 to R375, R382),
function-level reset (R376), and network queues (R378).
-/
namespace Sys2Proof.Machine

/-! ### Base dies (R366, R370, R371) -/

/-- A stack's base die. -/
def State.stack (s : State) (k : Nat) : Stack := s.hbm.get k {}

/-- One stack changed. -/
def State.modStack (s : State) (k : Nat) (f : Stack → Stack) : State := { s with hbm := s.hbm.put k (f (s.stack k)) }

/-- The first 64 bits of a packet (R370). -/
def BaseReq.header (r : BaseReq) : BitVec 64 :=
  BitVec.ofNat 64 (r.kind * 2 ^ 61 + r.port * 2 ^ 60 + r.tag * 2 ^ 57 + (if r.poison then 2 ^ 56 else 0) +
    (if r.len = 64 then 1 else 2) * 2 ^ 54 + r.world * 2 ^ 48 + bitsN r.addr 6 35 * 2 ^ 6)

/-- The lowest free tag of a port (R371). -/
def Stack.freeTag (k : Stack) (port : Nat) : Option Nat :=
  (List.range 8).find? fun t => !k.reqs.any fun r => r.port = port && r.tag = t

/-- Whether a request may be sent to a stack: its address lies there, 64 or 128 bytes at a 64-byte boundary, and its channel is not
quiesced (R346, R370). -/
def State.baseOk (s : State) (k port addr len world : Nat) : Bool :=
  decide (k < 8) && decide (port < 2) && addr % 64 = 0 && (len = 64 || len = 128) && decide (world < 64) && storageOf (frameOf addr) = k &&
    !s.quiesced.contains (Config.dramChannel (lineOf addr))

/-- A request takes the lowest free tag of its port; with none free the requester stalls (R371). -/
def State.baseTake (s : State) (k : Nat) (r : BaseReq) : State :=
  if !s.baseOk k r.port r.addr r.len r.world then s
  else match (s.stack k).freeTag r.port with
    | none => s
    | some t => s.modStack k fun b => { b with reqs := b.reqs ++ [{ r with tag := t }] }

/-- BASE_RD: a read request (R371). -/
def execBaseRd (k port addr len world : Nat) (s : State) : Host.Outcome State Fault Refusal :=
  .next (s.baseTake k { kind := 0, port := port, tag := 0, addr := addr, len := len, world := world })

/-- The poisoned granules of a range, by their first byte. -/
def State.badGranules (s : State) (a n : Nat) : List Nat := ((List.range (n / 32)).map fun i => a + 32 * i).filter fun g => s.memBad g 32

/-- BASE_WR: a write request with the line's bytes as they stand (R371); it enters the controller's queue when it is acknowledged. -/
def execBaseWr (k port addr len world : Nat) (s : State) : Host.Outcome State Fault Refusal :=
  .next (s.baseTake k { kind := 1, port := port, tag := 0, addr := addr, len := len, world := world, mask := BitVec.allOnes 128,
                        data := s.mem.readN addr len, granules := s.badGranules addr len })

/-- BASE_WRM: a masked write request (R371). -/
def execBaseWrm (k port addr len world : Nat) (mask : TMask) (s : State) : Host.Outcome State Fault Refusal :=
  .next (s.baseTake k { kind := 2, port := port, tag := 0, addr := addr, len := len, world := world, mask := mask,
                        data := s.mem.readN addr len, granules := s.badGranules addr len })

/-- Whether a queued write writes a byte. -/
def BaseReq.writes (w : BaseReq) (a : Nat) : Bool := decide (w.addr ≤ a) && decide (a < w.addr + w.len) && w.mask.getLsbD (a - w.addr)

/-- The byte a read finds: that of the last queued write over it, or memory's (R371). -/
def State.stackByte (s : State) (k a : Nat) : Byte :=
  match ((s.stack k).queue.filter fun w => w.writes a).getLast? with
  | some w => nth w.data (a - w.addr) 0
  | none => s.mem.read a

/-- Whether a granule is poisoned after the queued writes: one that writes all of it leaves it as its data is; one that writes part is a
read-modify-write, and a poisoned granule stays poisoned (R371). -/
def State.stackBad (s : State) (k g : Nat) : Bool :=
  (s.stack k).queue.foldl (fun bad w =>
    let n := ((List.range 32).filter fun i => w.writes (g + i)).length
    if n = 32 then w.granules.contains g else if n = 0 then bad else bad || w.granules.contains g) (s.memBad g 32)

/-- A tag freed. -/
def Stack.free (b : Stack) (port tag : Nat) : Stack :=
  { b with reqs := b.reqs.filter fun r => !(r.port = port && r.tag = tag) }

/-- The request that holds a tag. -/
def Stack.req? (b : Stack) (port tag : Nat) : Option BaseReq := b.reqs.find? fun r => r.port = port && r.tag = tag

/-- The requests taken before the one that holds a tag: while a write stands among them it has not entered the queue (R371). -/
def Stack.before (b : Stack) (port tag : Nat) : List BaseReq := b.reqs.takeWhile fun r => !(r.port = port && r.tag = tag)

/-- Whether a request waits for an earlier write, of either port, over the same granules (R371). -/
def Stack.waits (b : Stack) (r : BaseReq) : Bool :=
  (b.before r.port r.tag).any fun w => w.kind ≠ 0 && overlaps w.addr w.len r.addr r.len

/-- A read that has entered the queue before a write of its port does takes its bytes before it (R371). -/
def State.entered (s : State) (k : Nat) (r : BaseReq) : BaseReq :=
  if r.kind ≠ 0 ∨ r.data ≠ [] then r
  else
    { r with data := (List.range r.len).map fun i => s.stackByte k (r.addr + i),
             granules := ((List.range (r.len / 32)).map fun i => r.addr + 32 * i).filter fun g => s.stackBad k g }

/-- BASE_RSP: a read's reply carries its data and frees its tag; replies return in any order, but not before an earlier write over the
same granules is in the queue (R371). -/
def execBaseRsp (k port tag : Nat) (s : State) : Host.Outcome State Fault Refusal :=
  .next <| match (s.stack k).req? port tag with
    | none => s
    | some r =>
      if r.kind ≠ 0 ∨ (s.stack k).waits r then s
      else
        let r := s.entered k r
        s.modStack k fun b => { b.free port tag with reply := some { r with kind := 3, poison := !r.granules.isEmpty } }

/-- BASE_ACK: a write enters the controller's queue, after the requests that its port sent before it, reads among them, and is acknowledged,
which frees its tag (R371). -/
def execBaseAck (k port tag : Nat) (s : State) : Host.Outcome State Fault Refusal :=
  .next <| match (s.stack k).req? port tag with
    | none => s
    | some r =>
      let early := ((s.stack k).before port tag).filter fun w => w.port = port
      if r.kind = 0 ∨ early.any (fun w => w.kind ≠ 0 || (s.stack k).waits w) then s
      else
        let enter := fun (q : BaseReq) => if early.contains q then s.entered k q else q
        s.modStack k fun b =>
          let b := b.free port tag
          { b with reqs := b.reqs.map enter, queue := b.queue ++ [r], reply := some { r with kind := 4 } }

/-- GRANT_OWNER_CHANGE: firmware assigns a grant; where its owner changes, its 64 KiB are zero (R366). -/
def execGrantOwnerChange (k g world : Nat) (s : State) : Host.Outcome State Fault Refusal :=
  .next <|
    if 8 ≤ k ∨ 48 ≤ g ∨ 64 ≤ world then s
    else
      let lo := k * 2 ^ 22 + g * 65536
      if (s.stack k).grants.get g 0 = world then s
      else
        { s.modStack k (fun b => { b with grants := b.grants.put g world }) with
          bb := s.bb.filter (fun c => !(decide (lo ≤ c.1) && decide (c.1 < lo + 65536))),
          badBb := s.badBb.filter fun w => !(decide (lo ≤ 4 * w) && decide (4 * w < lo + 65536)) }

/-! ### Links (R372 to R375) -/

/-- A direction of a link. -/
def State.link (s : State) (d : Nat) : Link := s.links.get d {}

/-- One direction of a link changed. -/
def State.modLink (s : State) (d : Nat) (f : Link → Link) : State := { s with links := s.links.put d (f (s.link d)) }

/-- The other direction. -/
def otherWay (d : Nat) : Nat := if d % 2 = 0 then d + 1 else d - 1

/-- The clock a link's progress is measured on: that of the first core of its die (log entry 18). -/
def State.linkNow (s : State) (d : Nat) : Nat := s.now (40 * (d / 10))

/-- A key slot. -/
def Link.slot (l : Link) (b : Bool) : KeySlot := if b then l.slot1 else l.slot0

/-- A key slot set. -/
def Link.setSlot (l : Link) (b : Bool) (k : KeySlot) : Link := if b then { l with slot1 := k } else { l with slot0 := k }

/-- A flit's header, bytes 0 to 15 (R372). -/
def Flit.header (f : Flit) : List Byte :=
  leBytes 4 f.seq.toNat ++ leBytes 4 f.ackSeq.toNat ++ leBytes 8 ((if f.kslot then 1 else 0) + 2 * f.type + 16 * f.world + 65536 * f.credit)

/-- A flit's tag on a direction: the IV is its SEQ with the direction above it (R373). -/
def Flit.sealed (f : Flit) (key : BitVec 256) (d : Nat) : BitVec 128 :=
  Config.flitTag key (BitVec.ofNat 96 (f.seq.toNat + d % 2 * 2 ^ 32)) f.header f.payload

/-- A flit's 224 payload bytes: those given, then zeros (R372). -/
def flitPayload (p : List Byte) : List Byte := (List.range 224).map fun i => nth p i 0

/-- Whether a type of flit may be sealed under the current slot (R374): from 0xFFF0_0000 on, a marker where the other slot holds a
key, else idle flits only. -/
def Link.mayseal (l : Link) (type : Nat) : Bool :=
  let due := decide (0xFFF00000 ≤ (l.slot l.cur).count)
  let ready := (l.slot !l.cur).key.isSome
  match type with
  | 1 => !due || !ready
  | 2 => due && ready
  | _ => !due

/-- A new flit, sealed and held for replay; none while 64 are held or no key is loaded. A nak takes a SEQ and counts no invocation
(R373 to R375; log entry 106). -/
def State.newFlit (s : State) (d type world : Nat) (payload : List Byte) : Option (Flit × State) :=
  let l := s.link d
  let back := s.link (otherWay d)
  let k := l.slot l.cur
  match k.key with
  | none => none
  | some key =>
    if !l.trained || l.failed || 64 ≤ l.held.length || 0xFFFFFFFF ≤ k.count || !l.mayseal type then none
    else
      let f : Flit := { credit := min back.freed 65535, world := world, type := type, kslot := l.cur, ackSeq := back.rxSeq, seq := l.txSeq,
                        payload := flitPayload payload }
      let f := { f with tag := f.sealed key d }
      let now := s.linkNow d
      let sent := fun (l : Link) =>
        let l := l.setSlot l.cur { k with count := if type = 3 then k.count else k.count + 1 }
        { l with txSeq := l.txSeq + 1, held := l.held ++ [f], progress := if l.held = [] then now else l.progress }
      some (f, (s.modLink (otherWay d) fun b => { b with freed := b.freed - min b.freed 65535 }).modLink d sent)

/-- The next flit of a type on a direction: a replay comes first, in its place, byte for byte (R375). -/
def State.nextFlit (s : State) (d type world : Nat) (payload : List Byte) : Option (Flit × State) :=
  let l := s.link d
  match l.resend with
  | f :: rest => if f.type = type && l.trained && !l.failed then some (f, s.modLink d fun l => { l with resend := rest }) else none
  | [] => s.newFlit d type world payload

/-- Acknowledged flits are let go; once a marker is behind, its old slot is clear (R374, R375). -/
def Link.acked (l : Link) (a : Word) (now : Nat) : Link :=
  let left := l.held.filter fun f => !seqBefore f.seq a
  let l := { l with held := left, progress := if left.length < l.held.length then now else l.progress }
  match l.retire with
  | some (b, m) => if seqBefore m a then { l.setSlot b {} with retire := none } else l
  | none => l

/-- Whether a data flit's payload is discarded: its world was reset, and it has not been given anew since that flit was sent (R376; log
entry 112). -/
def Link.voids (l : Link) (f : Flit) : Bool :=
  l.voided.any fun v => v.1 = f.world && (match v.2 with | some q => seqBefore f.seq q | none => true)

/-- A flit reaches its receiver (R374 to R376): one out of order is discarded; one whose tag fails is discarded and asked for again;
any other is accepted once, and data is delivered unless its world was reset; after three failures at one SEQ nothing more is accepted.
Its ACKSEQ and CREDIT serve the other direction, and a nak has what that direction holds sent again from the SEQ it names. -/
def State.receive (s : State) (d : Nat) (f : Flit) (ok : Bool) : State :=
  let l := s.link d
  if f.seq ≠ l.rxSeq ∨ 3 ≤ l.fails then s
  else
    let good := match (l.slot f.kslot).key with
      | some key => ok && f.tag = f.sealed key d
      | none => false
    if !good then s.modLink d fun l => { l with fails := l.fails + 1, nak := some f.seq }
    else
      let void := l.voids f
      let take := fun (l : Link) =>
        let l := { l with rxSeq := l.rxSeq + 1, fails := 0, nak := none,
                          voided := l.voided.filter fun v => match v.2 with | some q => seqBefore (l.rxSeq + 1) q | none => true }
        if f.type = 0 then
          { l with freed := l.freed + 1, delivered := if void then l.delivered else l.delivered ++ [(f.world, f.payload)] }
        else l
      let now := s.linkNow d
      (s.modLink d take).modLink (otherWay d) fun b =>
        let b := b.acked f.ackSeq now
        let b := { b with credits := b.credits + f.credit }
        if f.type = 3 then { b with resend := b.held.filter fun g => !seqBefore g.seq (BitVec.ofNat 32 (leNat (f.payload.take 4))) } else b

/-- FLIT_DATA: the next data flit, new or replayed, reaches the receiver; `ok` says that it came through unharmed (R375, R376). -/
def execFlitData (d : Nat) (ok : Bool) (s : State) : Host.Outcome State Fault Refusal :=
  .next <|
    let l := s.link d
    match l.resend, l.queued with
    | [], (false, w, p) :: rest =>
      (match s.newFlit d 0 w p with
       | some (f, t) => (t.modLink d fun l => { l with queued := rest }).receive d f ok
       | none => s)
    | [], _ => s
    | _ :: _, _ => (match s.nextFlit d 0 0 [] with | some (f, t) => t.receive d f ok | none => s)

/-- FLIT_VOID: a void flit takes its place in the order and delivers nothing (R376). -/
def execFlitVoid (d : Nat) (ok : Bool) (s : State) : Host.Outcome State Fault Refusal :=
  .next <|
    let l := s.link d
    match l.resend, l.queued with
    | [], (true, w, _) :: rest =>
      (match s.newFlit d 4 w [] with
       | some (f, t) => (t.modLink d fun l => { l with queued := rest }).receive d f ok
       | none => s)
    | [], _ => s
    | _ :: _, _ => (match s.nextFlit d 4 0 [] with | some (f, t) => t.receive d f ok | none => s)

/-- FLIT_IDLE: an idle flit returns credits and acknowledgements (R372). -/
def execFlitIdle (d : Nat) (ok : Bool) (s : State) : Host.Outcome State Fault Refusal :=
  .next <| match s.nextFlit d 1 0 [] with
    | some (f, t) => t.receive d f ok
    | none => s

/-- FLIT_MARKER: the sender seals a marker under its slot, naming the other, which seals every later flit from a count of 0 (R374). -/
def execFlitMarker (d : Nat) (ok : Bool) (s : State) : Host.Outcome State Fault Refusal :=
  .next <|
    let l := s.link d
    match s.nextFlit d 2 0 [if l.cur then 0 else 1] with
    | some (f, t) =>
      let switch := fun (k : Link) =>
        if l.resend = [] then
          { k.setSlot (!l.cur) { k.slot (!l.cur) with count := 0 } with cur := !l.cur, retire := some (l.cur, f.seq) }
        else k
      (t.modLink d switch).receive d f ok
    | none => s

/-- FLIT_NAK: on a direction a nak flit, unharmed or not, names in payload bytes 0 to 3 the SEQ whose tag failed on the other direction,
which is then sent again from there (R375). -/
def execFlitNak (link : Nat × Bool) (s : State) : Host.Outcome State Fault Refusal :=
  .next <|
    let (d, ok) := link
    match (s.link d).resend, (s.link (otherWay d)).nak with
    | [], some q =>
      (match s.newFlit d 3 0 (leBytes 4 q.toNat) with
       | some (f, t) => (t.modLink (otherWay d) fun l => { l with nak := none }).receive d f ok
       | none => s)
    | [], none => s
    | _ :: _, _ => (match s.nextFlit d 3 0 [] with | some (f, t) => t.receive d f ok | none => s)

/-- KEY_LOAD: the security cores load a new key into the idle slot of a direction that holds none (R373, R374). -/
def execKeyLoad (d : Nat) (s : State) : Host.Outcome State Fault Refusal :=
  .next <|
    let l := s.link d
    if l.trained && (l.slot !l.cur).key.isNone then
      s.modLink d fun l => l.setSlot (!l.cur) { key := some (Config.linkKey s.tick !l.cur), count := 0 }
    else s

/-- What a direction has still to deliver: the data its receiver lacks, void where a reset's world sent it, then what is queued. -/
def Link.left (l : Link) : List (Bool × Nat × List Byte) :=
  (l.held.filter fun f => f.type = 0 && !seqBefore f.seq l.rxSeq).map (fun f =>
    (l.voids f, f.world, f.payload)) ++ l.queued

/-- A link in service with fresh keys (R373): what it has still to deliver waits. -/
def Link.train (l : Link) (tick : Nat) : Link :=
  { trained := true, slot0 := { key := some (Config.linkKey tick false) }, slot1 := { key := some (Config.linkKey tick true) },
    queued := l.left, voided := l.voided.filter fun v => v.2.isNone, delivered := l.delivered }

/-- Whether a direction has failed (R374, R375). -/
def State.linkFails (s : State) (d : Nat) : Bool :=
  let l := s.link d
  l.trained && !l.failed && (decide (3 ≤ l.fails) || decide (0xFFFFFFFF ≤ (l.slot l.cur).count) ||
    (l.held ≠ [] && decide (l.progress + 16777216 ≤ s.linkNow d)))

/-- The direction that takes traffic for a direction: itself unless its link has failed, else that of another link in service if there is
one (R382). -/
def State.linkFor (s : State) (d : Nat) : Nat :=
  if !(s.link d).failed then d
  else (((List.range 20).map fun k => 2 * k + d % 2).find? fun e => (s.link e).trained && !(s.link e).failed).getD d

/-- A failed direction's undelivered traffic goes to another link in service; with none it waits for one (R382). -/
def State.reroute (s : State) (d : Nat) : State :=
  let l := s.link d
  let s := s.modLink d fun l => { l with failed := true, held := [], resend := [], nak := none, queued := [] }
  s.modLink (s.linkFor d) fun m => { m with queued := m.queued ++ l.left }

/-- What waits on failed links while none was in service goes to those in service now (R382). -/
def State.rerouteAll (s : State) : State :=
  (List.range 40).foldl (fun s d => if (s.link d).failed && (s.link d).queued ≠ [] then s.reroute d else s) s

/-- LINK_TRAINING: a link trains, and its ends derive its first keys (R373); traffic that failed links still hold goes to it
(R382). -/
def execLinkTraining (k : Nat) (s : State) : Host.Outcome State Fault Refusal :=
  .next <|
    if 20 ≤ k then s
    else ((s.modLink (2 * k) fun l => l.train s.tick).modLink (2 * k + 1) fun l => l.train s.tick).rerouteAll

/-- LINK_FAILURE: a link is declared failed and logged as a class I integrity failure; traffic takes the remaining links (R375). -/
def execLinkFailure (k : Nat) (s : State) : Host.Outcome State Fault Refusal :=
  .next <|
    if s.linkFails (2 * k) || s.linkFails (2 * k + 1) then
      let s := (s.modLink (2 * k) fun l => { l with failed := true }).modLink (2 * k + 1) fun l => { l with failed := true }
      ((s.reroute (2 * k)).reroute (2 * k + 1)).logEntry (k / 5) { src := 3, srcId := k, code := 0, cls := 2 }
    else s

/-! ### Function-level reset (R376) -/

/-- Sealed contexts of a world killed, each kill logged (R310). -/
def State.killSealed (s : State) (world : Nat) : State :=
  (s.sealed.filter fun k => k.gang.world = world).foldl (fun s k =>
    let core := nth k.gang.cores 0 0
    let s := (s.modLaunch k.gang.launch fun l => { l with killed := true }).logEntry (dieOfCore core)
      { src := 1, srcId := core, code := 0, world := world, cls := faultClass 0 }
    ({ s with sealed := s.sealed.filter fun j => j.gang.gid ≠ k.gang.gid }).endKilled k.gang) s

/-- FUNCTION_LEVEL_RESET: world `w` is killed; its unsent flits become void, its sent ones deliver nothing more. `lost` names the world's
stores that had not passed their bridge when the reset reached it; they deliver nothing and are logged (R88, R376). -/
def execFunctionLevelReset (w : Nat) (lost : List Nat) (s : State) : Host.Outcome State Fault Refusal :=
  .next <|
    let s := (s.gangs.filter fun g => g.world = w).foldl (fun s g => s.kill g.gid { code := 0 } 0 (nth g.cores 0 0)) s
    let s := s.killSealed w
    let s := lost.foldl (fun s id =>
      match s.flight? id with
      | some f => (match f.place with
          | .phys pa => if f.world = w && f.needOst && f.die ≠ homeDie pa then s.declareLost f else s
          | _ => s)
      | none => s) s
    let void := fun (l : Link) =>
      { l with queued := l.queued.map (fun q => (q.1 || q.2.1 = w, q.2)), voided := (w, none) :: l.voided.filter fun v => v.1 ≠ w }
    { s with links := s.links.map fun p => (p.1, void p.2) }

/-- A world is given anew: of what a reset of it left on the links, everything queued or sent by now is discarded still, and nothing sent
from now on (R331, R376; log entry 112). -/
def Link.renew (l : Link) (w : Nat) : Link :=
  if l.voided.any fun v => v.1 = w then
    { l with
      queued := l.queued.map fun q => (q.1 || q.2.1 = w, q.2),
      voided := l.voided.map fun v => if v.1 = w then (w, some (v.2.getD l.txSeq)) else v }
  else l

/-! ### Network queues (R378) -/

/-- A queue of a world in a list, closed and empty where it is not listed. -/
def queueIn (l : List NetQueue) (world q : Nat) : NetQueue :=
  (l.find? fun k => k.world = world && k.q = q).getD { world := world, q := q }

/-- A queue put into a list. -/
def putIn (l : List NetQueue) (k : NetQueue) : List NetQueue := k :: l.filter fun j => !(j.world = k.world && j.q = k.q)

/-- A message put before the first of its peer that its sender numbered later. -/
def insertMsg (m : Msg) (l : List Msg) : List Msg :=
  match l with
  | [] => [m]
  | x :: r => if x.peer = m.peer && seqBefore m.seq x.seq then m :: x :: r else x :: insertMsg m r

/-- The number of the next message of a peer in the order its queue accepted them, from 0 up (R378; log entry 107). -/
def NetQueue.next (k : NetQueue) (peer : Nat) : Word := k.want.get peer 0

/-- Held messages that may land on an open queue: of the peer it is bound to, on a RUD queue all, on a ROD queue those that follow what has
landed without a gap (R378; log entry 107). -/
def NetQueue.land (k : NetQueue) : NetQueue :=
  if !k.opened then k
  else (k.held.foldl (fun l m => insertMsg m l) []).foldl (fun k m =>
    if m.peer ≠ k.peer || (k.rod && k.next m.peer ≠ m.seq) then { k with held := k.held ++ [m] }
    else { k with msgs := k.msgs ++ [m], want := if seqBefore m.seq (k.next m.peer) then k.want else k.want.put m.peer (m.seq + 1) })
      { k with held := [] }

/-- A queue opened to a peer in a delivery mode; what a receive queue held lands from now on (R378). -/
def NetQueue.open_ (k : NetQueue) (peer : Nat) (rod : Bool) : NetQueue :=
  if k.opened then k else ({ k with opened := true, peer := peer, rod := rod } : NetQueue).land

/-- QUEUE_OPEN (R378). -/
def execQueueOpen (world q : Nat) (send : Bool) (peer : Nat) (rod : Bool) (s : State) : Host.Outcome State Fault Refusal :=
  .next <|
    if 64 ≤ world ∨ 64 ≤ q then s
    else if send then { s with sendQs := putIn s.sendQs ((queueIn s.sendQs world q).open_ peer rod) }
    else { s with recvQs := putIn s.recvQs ((queueIn s.recvQs world q).open_ peer rod) }

/-- The next number of a peer once a message of it that had not been taken is held again. -/
def NetQueue.back (w : Map Word) (m : Msg) : Map Word := if seqBefore m.seq (w.get m.peer 0) then w.put m.peer m.seq else w

/-- A queue closed: a receive queue's unlanded messages stay held; a send queue's messages go on their way. -/
def NetQueue.close (k : NetQueue) (send : Bool) : NetQueue :=
  if send then { k with opened := false }
  else { k with opened := false, held := k.msgs ++ k.held, msgs := [], want := k.msgs.foldl NetQueue.back k.want }

/-- QUEUE_CLOSE (R378). -/
def execQueueClose (world q : Nat) (send : Bool) (s : State) : Host.Outcome State Fault Refusal :=
  .next <|
    if 64 ≤ world ∨ 64 ≤ q then s
    else if send then { s with sendQs := putIn s.sendQs ((queueIn s.sendQs world q).close true) }
    else { s with recvQs := putIn s.recvQs ((queueIn s.recvQs world q).close false) }

/-- MESSAGE_ARRIVAL: a message, with its sender's peer number and sequence number, reaches its world's receive queue, or is held for one that
is not open; beyond 16 unlanded messages the sender is held back (R378). -/
def execMessageArrival (world q : Nat) (sender : Nat × Word) (payload : List Byte) (s : State) : Host.Outcome State Fault Refusal :=
  .next <|
    let k := queueIn s.recvQs world q
    if 64 ≤ world ∨ 64 ≤ q ∨ 16 ≤ k.msgs.length + k.held.length ∨ 65536 < payload.length then s
    else
      let (id, s) := s.fresh
      let m : Msg := { id := id, seq := sender.2, payload := payload, peer := sender.1 }
      { s with recvQs := putIn s.recvQs ({ k with held := k.held ++ [m] } : NetQueue).land }

end Sys2Proof.Machine
end

