-- ==== Sys2Proof/Machine/Manage.lean ====
section
/-!
DEFINITION. Bring-up, firmware and management (spec/04 R78, R81; spec/18 R331 to R334; spec/24 R397 to R403, R407).
-/
namespace Sys2Proof.Machine

/-! ### Device reset (R397, R407) -/

/-- The control complex that takes over: the lowest-numbered healthy die's (R13). -/
def Mgmt.control (m : Mgmt) : Nat := ((List.range 4).find? fun d => nth m.healthy d false).getD 0

/-- Bring-up begins with the ROM stage (R397). Kept are what fuses, flash and repair hold: the identity, the image, the good sets,
the spares, the failed bridges, hard repairs burned and still to burn (log entry 8). Soft repairs are gone, and with them the use of
their spare rows (R346). -/
def State.restart (s : State) : State :=
  let r := State.reset
  let keep := fun (k : Core) => ({ bad := k.bad, rowMap := k.rowMap } : Core)
  { r with
    tick := s.tick, nextId := s.nextId, agenda := s.agenda, upsets := s.upsets,
    mem := s.mem, badMem := s.badMem, spares := s.spares, clusters := s.clusters, poolCores := s.poolCores, poolUnits := s.poolUnits,
    cores := s.cores.map fun c => (c.1, keep c.2), slicesBad := s.slicesBad, bridges := s.bridges, hardRepairs := s.hardRepairs,
    burned := s.burned,
    mgmt := { r.mgmt with
      healthy := s.mgmt.healthy, ports := s.mgmt.ports, aseq := s.mgmt.aseq, resets := s.mgmt.resets + 1,
      ident := s.mgmt.ident, flash := s.mgmt.flash } }

/-- DEVICE_RESET: a power-on reset, or RESET.GO, starts bring-up (R397). -/
def execDeviceReset (s : State) : Host.Outcome State Fault Refusal := .next s.restart

/-- RESET_GO: the physical function writes 1 to RESET.GO, which answers in every stage (R400). -/
def execResetGo (s : State) : Host.Outcome State Fault Refusal := .next s.restart

/-! ### Keys and fill (R331 to R334) -/

/-- The keys of a reset: one for each world, the sealing key, the XTS pair and the tag key, each drawn afresh. -/
def State.drawKeys (s : State) : Mgmt :=
  let k := fun i => Config.freshKey (100 * s.tick + i)
  { s.mgmt with
    worldKeys := (List.range 64).map fun w => (w, (k w).extractLsb' 0 128),
    sealKey := (k 64).extractLsb' 0 128, xtsKey := k 65, tagKey := (k 66).extractLsb' 0 256 }

/-- KEYS_AND_FILL: the ROM's tests of the dies (`Turn.romTest`) end with the choice of the control complex (R13); then hard repairs
are burned, the keys drawn, and every line of both tiers written as zeros (R334, R346, R397). -/
def execKeysAndFill (s : State) : Host.Outcome State Fault Refusal :=
  .next <|
    if s.mgmt.stage ≠ 1 then s
    else
      let m := { s.drawKeys with stage := 2 }
      { s with mem := [], badMem := [], hardRepairs := [], burned := s.burned ++ s.hardRepairs, mgmt := { m with ctlDie := m.control } }

/-! ### The firmware image (R78, R81, R398) -/

/-- A number in an image slot of the flash. -/
def State.img (s : State) (slot o n : Nat) : Nat := s.mgmt.flash.num (slot * 0x2000000 + o) n

/-- A section header (R78). -/
structure Section where
  type : Nat
  flags : Nat
  addr : Nat
  size : Nat
  off  : Nat
  align : Nat
  zero : Nat
  deriving DecidableEq, Repr

/-- The section headers of a slot. -/
def State.sections (s : State) (slot : Nat) : List Section :=
  (List.range (s.img slot 8 2)).map fun k =>
    let o := s.img slot 16 8 + 40 * k
    { type := s.img slot (o + 4) 2, flags := s.img slot (o + 6) 2, addr := s.img slot (o + 8) 8, size := s.img slot (o + 16) 8,
      off := s.img slot (o + 24) 8, align := s.img slot (o + 32) 4, zero := s.img slot (o + 36) 4 }

/-- The least alignment of a section type (R78). -/
def minAlign (type : Nat) : Nat :=
  match type with
  | 1 => 64
  | 3 => 64
  | 6 => 64
  | 4 => 256
  | 5 => 16
  | _ => 8

/-- Whether a section header has the form of R78, within a slot of 32 MiB. -/
def Section.ok (k : Section) : Bool :=
  let flags := if k.type = 7 then 0 else if k.type = 1 then 3 else 1
  decide (1 ≤ k.type) && decide (k.type ≤ 7) && k.flags = flags && (k.type ≠ 1 || k.size % 64 = 0) && k.zero = 0 &&
    decide (k.off + k.size ≤ 0x2000000) && decide (minAlign k.type ≤ k.align) && k.align = 2 ^ Nat.log2 k.align && k.addr % k.align = 0

/-- The sections with the load flag, in header order. -/
def loaded (ks : List Section) : List Section := ks.filter fun k => k.type ≠ 7

/-- The bytes of a section in its slot. -/
def State.contents (s : State) (slot : Nat) (k : Section) : List Byte := s.mgmt.flash.readN (slot * 0x2000000 + k.off) k.size

/-- The digest of an image (R81). -/
def State.imageDigest (s : State) (slot : Nat) : List Byte :=
  sha384 ((loaded (s.sections slot)).flatMap fun k =>
    leBytes 2 k.type ++ leBytes 8 k.addr ++ leBytes 8 k.size ++ s.contents slot k)

/-- The entry of an image: the address of its first entry symbol (R78). -/
def State.imageEntry (s : State) (slot : Nat) : Option Nat :=
  ((List.range (s.img slot 32 4)).find? fun k => s.img slot (s.img slot 24 8 + 24 * k + 7) 1 = 2).map fun k =>
    s.img slot (s.img slot 24 8 + 24 * k + 8) 8

/-- Whether bytes are UTF-8: `need` continuation bytes are due, the next between `lo` and `hi`. -/
def utf8 (need lo hi : Nat) (bs : List Byte) : Bool :=
  match bs with
  | [] => need = 0
  | b :: r =>
    let v := b.toNat
    if 0 < need then decide (lo ≤ v) && decide (v ≤ hi) && utf8 (need - 1) 0x80 0xBF r
    else if v < 0x80 then utf8 0 0 0 r
    else if 0xC2 ≤ v ∧ v < 0xE0 then utf8 1 0x80 0xBF r
    else if 0xE0 ≤ v ∧ v < 0xF0 then utf8 2 (if v = 0xE0 then 0xA0 else 0x80) (if v = 0xED then 0x9F else 0xBF) r
    else if 0xF0 ≤ v ∧ v < 0xF5 then utf8 3 (if v = 0xF0 then 0x90 else 0x80) (if v = 0xF4 then 0x8F else 0xBF) r
    else false

/-- Whether an offset of the string table begins a NUL-terminated UTF-8 string in it (R78). -/
def stringOk (table : List Byte) (o : Nat) : Bool :=
  let rest := table.drop o
  rest.contains 0 && utf8 0 0 0 (rest.takeWhile fun b => b ≠ 0)

/-- Whether a slot's string table lies in it and every name of a section and of a symbol is a string of it (R78). -/
def State.stringsOk (s : State) (slot : Nat) : Bool :=
  let off := s.img slot 48 8
  let size := s.img slot 56 8
  let table := s.mgmt.flash.readN (slot * 0x2000000 + off) size
  decide (off + size ≤ 0x2000000) &&
    ((List.range (s.img slot 8 2)).all fun k => stringOk table (s.img slot (s.img slot 16 8 + 40 * k) 4)) &&
    (List.range (s.img slot 32 4)).all fun k => stringOk table (s.img slot (s.img slot 24 8 + 24 * k) 4)

/-- Whether a symbol has the form of R78: its section is one of the image's or it is absolute, for a linked image leaves none undefined
(R80); BIND and SKIND are of the table, and bytes 16 to 23 zero. -/
def State.symbolOk (s : State) (slot k : Nat) : Bool :=
  let o := s.img slot 24 8 + 24 * k
  let sect := s.img slot (o + 4) 2
  ((decide (1 ≤ sect) && decide (sect ≤ s.img slot 8 2)) || sect = 0xFFFF) && decide (s.img slot (o + 6) 1 ≤ 1) &&
    decide (s.img slot (o + 7) 1 ≤ 3) && s.img slot (o + 16) 8 = 0

/-- The FAIL code of a slot, 0 where its image is accepted (R398): 1 format, 2 key, 3 signature. Every departure from the form of R78 and
R81, no entry symbol and relocations left over count as format (log entry 104). -/
def State.slotFail (s : State) (slot : Nat) : Nat :=
  let head := s.img slot 0 4 = 0x004F4C52 && s.img slot 4 2 = 1 && s.img slot 6 2 = 2 && s.img slot 12 4 = 0 && s.img slot 10 2 = 0 &&
    s.img slot 36 4 = 0
  let fits := decide (s.img slot 16 8 + 40 * s.img slot 8 2 ≤ 0x2000000) && decide (s.img slot 24 8 + 24 * s.img slot 32 4 ≤ 0x2000000)
  if !head || !fits || !s.stringsOk slot || !(List.range (s.img slot 32 4)).all (s.symbolOk slot) then 1
  else
    let ks := s.sections slot
    match ks.filter fun k => k.type = 7 with
    | [g] =>
      if !ks.all Section.ok || g.size ≠ 152 || s.img slot g.off 4 ≠ 1 || s.img slot (g.off + 148) 4 ≠ 0 || (s.imageEntry slot).isNone then 1
      else
        let id := (s.contents slot g).drop 4 |>.take 48
        let ident := s.mgmt.ident.getD {}
        let known := (List.range 4).any fun i => nth ident.keyHashes i [] = id && !nth ident.revoked i false
        if !known then 2
        else if signatureOk id (s.imageDigest slot) ((s.contents slot g).drop 52 |>.take 96) then 0
        else 3
    | _ => 1

/-- Whether a section touches a page of 64 KiB. -/
def Section.on (k : Section) (p : Nat) : Bool := k.size ≠ 0 && overlaps k.addr k.size (p * 65536) 65536

/-- The pages an image's loaded sections touch, each once, and whether text is among them. -/
def State.imagePages (s : State) (slot : Nat) : List (Nat × Bool) :=
  let ks := loaded (s.sections slot)
  let ps := (ks.flatMap fun k => (List.range (k.size / 65536 + 2)).map fun i => k.addr / 65536 + i).eraseDups
  (ps.filter fun p => ks.any fun k => k.on p).map fun p => (p, ks.any fun k => k.type = 1 && k.on p)

/-- The `n` lowest frames that are FIRMWARE, in no table and not poisoned: every frame without an entry of its own is one (R212). -/
def State.bootFrames (s : State) (n : Nat) : List Nat :=
  ((List.range (n + s.frames.length)).filter fun f => (s.frame f).type = 6 && (s.frame f).use = 0 && !(s.frame f).bad).take n

/-- The boot image's tables in the frames given: TBL1, then one level-2 table for each level-1 index in use, then the pages in the order of
`pages`; a page with text is CODE, any other data (log entry 19). -/
def bootTables (fs : List Nat) (pages : List (Nat × Bool)) (tops : List Nat) (m : Memory) : Memory :=
  let m := (List.range tops.length).foldl (fun m i =>
    m.writeN (nth fs 0 0 * 65536 + 8 * nth tops i 0) (leBytes 8 (2 ^ 63 + nth fs (1 + i) 0 * 2 ^ 33))) m
  (List.range pages.length).foldl (fun m i =>
    let p := nth pages i (0, false)
    let t := nth fs (1 + (tops.findIdx? fun x => x = p.1 / 8192 % 8192).getD 0) 0
    let e := 2 ^ 63 + 2 ^ 62 + (if p.2 then 2 ^ 60 + 2 * 2 ^ 58 else 2 ^ 61 + 2 ^ 58) + nth fs (1 + tops.length + i) 0 * 2 ^ 33
    m.writeN (t * 65536 + 8 * (p.1 % 8192)) (leBytes 8 e)) m

/-- Where an image byte lies in memory: in the frame of its page. -/
def bootPlace (fs : List Nat) (pages : List (Nat × Bool)) (tops : List Nat) (a : Nat) : Nat :=
  nth fs (1 + tops.length + (pages.findIdx? fun p => p.1 = a / 65536).getD 0) 0 * 65536 + a % 65536

/-- The image copied into FIRMWARE frames at its section addresses (R398), its tables first zero, typed and counted as R211 and R218 have
them: the root's uses are the control contexts, each other frame's the entry that names it. -/
def State.loadImage (s : State) (slot : Nat) : State × Nat :=
  let pages := s.imagePages slot
  let tops := (pages.map fun p => p.1 / 8192 % 8192).eraseDups
  let fs := s.bootFrames (1 + tops.length + pages.length)
  let put := fun (m : Memory) (k : Section) =>
    (List.range k.size).foldl (fun m i => m.write (bootPlace fs pages tops (k.addr + i)) (nth (s.contents slot k) i 0)) m
  let blank := fun (m : Memory) (f : Nat) => m.filter fun c => c.1 / 65536 ≠ f
  let entry := fun (s : State) (i : Nat) =>
    let under := pages.filter fun p => p.1 / 8192 % 8192 = nth tops (i - 1) 0
    s.modFrame (nth fs i 0) fun e =>
      if i = 0 then { e with type := 3, use := 16, valid := tops.length }
      else if i ≤ tops.length then { e with type := 4, use := 1, valid := under.length }
      else { e with use := 1 }
  let mem := (loaded (s.sections slot)).foldl put (bootTables fs pages tops (fs.foldl blank s.mem))
  ((List.range fs.length).foldl entry { s with mem := mem, badMem := s.badMem.filter fun w => !fs.contains (w / 16384) }, nth fs 0 0)

/-- The gang of one control core: four warps of one thread in one quarter, at firmware privilege, with its root (R13, R218). -/
def controlGang (gid core root entry : Nat) : Gang :=
  { gid := gid, bib := 0, world := 0, launch := 0, block := 0, blockT := 1, threadsN := 4, cores := [core], ctl := true, n := 256,
    spBytes := 0, minop := 3, prio := 1, levels := [], root := some root, sp := [[]], rowBase := [0],
    warps := (List.range 4).map fun wi => { newWarp wi core wi 256 entry [0] with quarter := 0 } }

/-- The 16 control cores of a die start at an image's entry (R13, R397). -/
def State.startControl (s : State) (root entry : Nat) : State :=
  let gid := s.nextId
  let die := s.mgmt.ctlDie
  { s with
    nextId := s.nextId + 16,
    gangs := s.gangs.filter (fun g => !g.ctl) ++ (List.range 16).map fun k => controlGang (gid + k) (160 + 16 * die + k) root entry }

/-- A rejected slot is logged with its FAIL code (R398). -/
def State.rejectSlot (s : State) (code : Nat) : State :=
  ({ s with mgmt := { s.mgmt with fail := code } } : State).logEntry s.mgmt.ctlDie { src := 6, srcId := s.mgmt.ctlDie, code := code, cls := 3 }

/-- A slot accepted: its image is loaded and measured, and the control cores start (R397, R398). -/
def State.boot (s : State) (slot : Nat) : State :=
  let (s, root) := s.loadImage slot
  (({ s with mgmt := { s.mgmt with stage := 4, slotSel := slot, measure := s.imageDigest slot } } : State).startControl root
    ((s.imageEntry slot).getD 0))

/-- IMAGE_VERIFY: stage 3 begins once the fill is done, and STATUS shows it; in it slot A is verified, then slot B. The first accepted
boots, and with none bring-up has failed (R397, R398, R400). -/
def execImageVerify (s : State) : Host.Outcome State Fault Refusal :=
  .next <|
    if s.mgmt.stage = 2 then { s with mgmt := { s.mgmt with stage := 3, tried := 0 } }
    else if s.mgmt.stage ≠ 3 then s
    else
      let slot := s.mgmt.tried
      let code := s.slotFail slot
      if code = 0 then s.boot slot
      else
        let s := s.rejectSlot code
        { s with mgmt := { s.mgmt with tried := slot + 1, stage := if slot = 0 then 3 else 15 } }

/-- CONTROL_TAKEOVER: the running control complex has failed; the lowest-numbered healthy die's takes its cores through stages 3 and
4, while contexts run on (R13, R399). The failed cores' root keeps its uses, as that of an ended context does (R353). -/
def execControlTakeover (s : State) : Host.Outcome State Fault Refusal :=
  .next <|
    if s.mgmt.stage ≠ 4 then s
    else
      let m := { s.mgmt with healthy := modAt s.mgmt.healthy s.mgmt.ctlDie fun _ => false }
      if m.healthy.any id then
        { s with mgmt := { m with ctlDie := m.control, stage := 3, tried := 0 }, gangs := s.gangs.filter fun g => !g.ctl }
      else s

/-! ### Registers (R400) -/

/-- RESPONSE_WRITE: CLS is written once firmware runs; each bit can be set only once in a reset (R400). -/
def execResponseWrite (cls : BitVec 2) (s : State) : Host.Outcome State Fault Refusal :=
  .next <|
    if s.mgmt.stage ≠ 4 then s
    else
      let m := s.mgmt
      let old : BitVec 2 := (if m.respV then 1 else 0) ||| (if m.respI then 2 else 0)
      let new := cls &&& (old ||| ~~~m.spent)
      { s with mgmt := { m with respV := new.getLsbD 0, respI := new.getLsbD 1, spent := m.spent ||| new } }

/-- REGISTER_WRITE: a write of the physical function to a register without behaviour of its own: FTSEL takes its field once firmware
runs; a read-only field ignores the write, and no virtual function's write reaches a register (R4, R400). -/
def execRegisterWrite (addr : Nat) (val : Word) (s : State) : Host.Outcome State Fault Refusal :=
  .next (if s.mgmt.stage = 4 ∧ addr = 0x200 then { s with mgmt := { s.mgmt with ftsel := val.setWidth 25 } } else s)

/-- STATUS (R400). -/
def State.status (s : State) : Word :=
  BitVec.ofNat 32 (s.mgmt.stage * 2 ^ 28 + s.opcur * 2 ^ 26 + s.mgmt.ctlDie * 2 ^ 20 + s.mgmt.slotSel * 2 ^ 16 + s.mgmt.fail * 2 ^ 8 +
    (if s.mgmt.locked then 2 ^ 7 else 0))

/-- A frame-table entry as its 128 bits (R211). -/
def FrameE.bits (e : FrameE) : BitVec 128 :=
  BitVec.ofNat 128 (e.dropSeq.toNat * 2 ^ 96 + e.use * 2 ^ 64 + e.valid * 2 ^ 32 + (if e.mig then 2 ^ 16 else 0) + e.owner * 2 ^ 8 + e.type)

/-- IDENT1: the stepping and the form, 1 on a bare package; its reserved bits read zero (R1, R400). -/
def State.ident1 (s : State) : Word := 0#16 ++ Config.stepping ++ 0#7 ++ (if (s.mgmt.ident.getD {}).module_ then 0#1 else 1#1)

/-- The 32 bytes of a log entry (R402). -/
def LogE.bytes (e : LogE) : List Byte :=
  leBytes 2 e.src ++ leBytes 2 e.srcId ++ leBytes 4 e.seq.toNat ++ leBytes 2 e.code ++ leBytes 1 e.world ++ leBytes 1 e.cls ++
    leBytes 8 e.addr ++ leBytes 8 e.pc ++ leBytes 4 0

/-- A 32-bit word of a die's log window: entry n lies at byte 32 n, and the entries stand from the head on; an entry that is not there
reads zero (R402; log entry 109). -/
def State.logWord (s : State) (die o : Nat) : Word :=
  let l := nth s.mgmt.logs die {}
  match l.entries[(o / 32 + 4096 - l.head) % 4096]? with
  | some e => BitVec.ofNat 32 (leNat ((e.bytes.drop (o % 32)).take 4))
  | none => 0

/-- A 32-bit management register as the physical function reads it, with the log windows of the four dies behind them (R400, R402). -/
def State.register (s : State) (addr : Nat) : Word :=
  let dev := fun (k : Nat) => BitVec.ofNat 32 (leNat (((s.mgmt.ident.getD {}).devid.drop (4 * k)).take 4))
  if addr = 0 then 0x4C590001
  else if addr = 4 then s.ident1
  else if addr = 8 then s.status
  else if 0x10 ≤ addr ∧ addr < 0x40 ∧ addr % 4 = 0 then dev ((addr - 0x10) / 4)
  else if s.mgmt.stage ≠ 4 then 0
  else if addr = 0x100 then (if s.mgmt.respV then 1 else 0) + (if s.mgmt.respI then 2 else 0)
  else if addr = 0x200 then s.mgmt.ftsel.setWidth 32
  else if 0x210 ≤ addr ∧ addr < 0x220 ∧ addr % 4 = 0 then
    (s.frame s.mgmt.ftsel.toNat).bits.extractLsb' (8 * (addr - 0x210)) 32
  else if 0x20000 ≤ addr ∧ addr < 0xA0000 ∧ addr % 4 = 0 then s.logWord (addr / 0x20000 - 1) (addr % 0x20000)
  else 0

/-- A management register as the function that serves a world reads it: the physical function is world 0's, and a virtual one sees IDENT0,
IDENT1 and STATUS alone (R381, R400). -/
def State.registerOf (s : State) (world addr : Nat) : Word := if world = 0 ∨ addr = 0 ∨ addr = 4 ∨ addr = 8 then s.register addr else 0

/-! ### Identity, attestation, logs, keys (R331, R401, R402) -/

/-- The attestation report over a nonce (R401). -/
def State.attest (s : State) (nonce : List Byte) : List Byte :=
  let fit := fun (b : List Byte) (n : Nat) => (List.range n).map fun i => nth b i 0
  let body := [0x4C, 0x59, 0x41, 0x54] ++ fit nonce 48 ++ fit s.mgmt.measure 48 ++ leBytes 4 s.mgmt.resets.toNat ++
    leBytes 4 s.ident1.toNat
  body ++ ecSign (s.mgmt.ident.getD {}).key (Config.nonce s.tick) body

/-- ATTESTATION_REQUEST: firmware hands a nonce, and the security core returns its report (R401). -/
def execAttestationRequest (nonce : List Byte) (s : State) : Host.Outcome State Fault Refusal :=
  .next (if s.mgmt.stage = 4 then { s with mgmt := { s.mgmt with report := some (s.attest nonce) } } else s)

/-- LOG_HEAD_ADVANCE: firmware frees the oldest entries of a die's log (R402). -/
def execLogHeadAdvance (die n : Nat) (s : State) : Host.Outcome State Fault Refusal :=
  .next <|
    let free := fun (l : Log) => { l with entries := l.entries.drop n, head := (l.head + min n l.entries.length) % 4096 }
    { s with mgmt := { s.mgmt with logs := modAt s.mgmt.logs die free } }

/-- NEW_WORLD_KEY: once no kill of the world is under way, firmware has a new masking key drawn for it (R331). -/
def execNewWorldKey (w : Nat) (s : State) : Host.Outcome State Fault Refusal :=
  .next <|
    if 64 ≤ w ∨ s.dying.any (fun g => g.world = w) then s
    else
      { s with
        links := s.links.map fun p => (p.1, p.2.renew w),
        mgmt := { s.mgmt with worldKeys := s.mgmt.worldKeys.put w ((Config.freshKey (100 * s.tick)).extractLsb' 0 128) } }

/-- ENROLMENT: the device identity key is generated, and the alarm's destination, the flow minimum, the firmware keys and the form are
fixed, once (R338, R340, R398, R401). -/
def execEnrolment (owner port flowMin : Nat) (keyHashes : List (List Byte)) (module_ : Bool) (s : State) :
    Host.Outcome State Fault Refusal :=
  .next <| match s.mgmt.ident with
    | some _ => s
    | none =>
      let key := Config.identity s.tick
      let i : Identity := { key := key, point := ecPoint key, devid := sha384 (ecPoint key), owner := owner, port := port, flowMin := flowMin,
                            keyHashes := keyHashes.take 4, revoked := [false, false, false, false], module_ := module_ }
      { s with mgmt := { s.mgmt with ident := some i, resets := 0 } }

end Sys2Proof.Machine
end

