-- ==== Sys2Proof/Machine/Move.lean ====
section
/-!
DEFINITION. Group 3 but for fcmp: integer compares, guards, selection, moves and the special registers (spec/05 R99 to R105).
-/
namespace Sys2Proof.Machine

/-- An integer compare (R100). -/
def State.compareForm (s : State) (h : Hdr) (x : VOps) (n : Nat) (dg : BitVec 3) (cm : Cmb) (f : Nat → Nat → Bool) :
    Host.Outcome State Fault Refusal :=
  s.plain h x { d := 0, a := n, b := n } false fun v => { th := fun th => setCmp th dg cm (f v.a v.b) }

/-- icmp (R100): signed. -/
def execIcmp (h : Hdr) (x : VOps) (t : Ty) (c : Cond) (dg : BitVec 3) (cm : Cmb) (s : State) :
    Host.Outcome State Fault Refusal :=
  s.compareForm h x t.words dg cm fun a b => condInt c (numOf t a) (numOf t b)

/-- ucmp (R100): unsigned. -/
def execUcmp (h : Hdr) (x : VOps) (t : Ty) (c : Cond) (dg : BitVec 3) (cm : Cmb) (s : State) :
    Host.Outcome State Fault Refusal :=
  s.compareForm h x t.words dg cm fun a b => condInt c (numOf t a) (numOf t b)

/-- gop (R101). -/
def execGop (h : Hdr) (x : VOps) (s : State) : Host.Outcome State Fault Refusal :=
  s.plain h x { d := 0, a := 0 } false fun _ => { th := fun th => gopGuard th x.imm }

/-- gpack (R102). -/
def execGpack (h : Hdr) (x : VOps) (s : State) : Host.Outcome State Fault Refusal :=
  s.plain h x { d := 1, a := 0 } false fun v => { d := some (packGuards v.th) }

/-- gunpk (R102). -/
def execGunpk (h : Hdr) (x : VOps) (s : State) : Host.Outcome State Fault Refusal :=
  s.plain h x { d := 0, a := 1 } false fun v => { th := fun th => unpackGuards th v.a }

/-- sel (R103). -/
def execSel (h : Hdr) (x : VOps) (t : Ty) (sg : BitVec 3) (sn : Bool) (s : State) : Host.Outcome State Fault Refusal :=
  s.plain h x (Wid.same t 2) false fun v => { d := some (if v.th.guard sg != sn then v.a else v.b) }

/-- mov (R104). -/
def execMov (h : Hdr) (x : VOps) (t : Ty) (s : State) : Host.Outcome State Fault Refusal :=
  s.plain h x (Wid.same t 1) false fun v => { d := some v.a }

/-- movi (R55, R104): IMM32 as stored. -/
def execMovi (h : Hdr) (x : KOps) (s : State) : Host.Outcome State Fault Refusal :=
  s.plain h { d := x.d, a := .none, b := .none, c := .none, imm := 0 } { d := 1, a := 0 } false fun _ =>
    { d := some x.imm.toNat }

/-- The special register a movsp reads in a thread; none for an index of 0x100 or more or a reserved one (R105). -/
def State.movspRead (s : State) (i : Iss) (v : TIn) : Option Nat :=
  if v.a < 256 then s.special i.g i.w v.th v.a else none

/-- movsp (R105): the special register whose index A holds. -/
def execMovsp (h : Hdr) (x : VOps) (s : State) : Host.Outcome State Fault Refusal :=
  match s.iss? h with
  | none => .fault .noIssuer
  | some i =>
    s.plain h x { d := 1, a := 1 } false (fun v => { d := some ((s.movspRead i v).getD 0) })
      fun v => if (s.movspRead i v).isNone then some { code := fIllmod, addr := v.a } else none

/-- The write of wrsp (R4, R26, R105, R140): $dcs takes the value, each one clears a $pwerr bit, the rest ignore it. -/
def wrspThread (th : Thread) (i v : Nat) : Thread :=
  if i = 0x0C then { th with pwerr := th.pwerr &&& ~~~(BitVec.ofNat 8 v) }
  else if i = 0x0D then { th with dcs := BitVec.ofNat 32 v }
  else th

/-- wrsp (R105). -/
def execWrsp (h : Hdr) (x : VOps) (s : State) : Host.Outcome State Fault Refusal :=
  match x.d with
  | .sr i => s.plain h x { d := 0, a := 1 } false fun v => { th := fun th => wrspThread th i.toNat v.a }
  | _ => s.plain h x { d := 0, a := 1 } false fun _ => {}

end Sys2Proof.Machine
end

