-- ==== Sys2Proof/Machine/Dispatch.lean ====
section
/-!
DEFINITION. What each instruction and event does: one arm per constructor, each one direct call of its meaning.
-/
namespace Sys2Proof.Machine

/-- The effect of an instruction issued by the warp that holds the slot, or of an event. -/
def exec (i : Instr) (s : State) : Host.Outcome State Fault Refusal :=
  match i with
  | .bra h x => Sys2Proof.Machine.execBra h x s
  | .brx h x => Sys2Proof.Machine.execBrx h x s
  | .call h x => Sys2Proof.Machine.execCall h x s
  | .callx h x => Sys2Proof.Machine.execCallx h x s
  | .ret h x => Sys2Proof.Machine.execRet h x s
  | .loopd h x => Sys2Proof.Machine.execLoopd h x s
  | .exit h x => Sys2Proof.Machine.execExit h x s
  | .nop h x => Sys2Proof.Machine.execNop h x s
  | .iadd h x a1 a2 => Sys2Proof.Machine.execIadd h x a1 a2 s
  | .isub h x a1 a2 => Sys2Proof.Machine.execIsub h x a1 a2 s
  | .iaddc h x a1 a2 a3 => Sys2Proof.Machine.execIaddc h x a1 a2 a3 s
  | .isubb h x a1 a2 a3 => Sys2Proof.Machine.execIsubb h x a1 a2 a3 s
  | .imul h x a1 => Sys2Proof.Machine.execImul h x a1 s
  | .imulh h x a1 => Sys2Proof.Machine.execImulh h x a1 s
  | .imad h x a1 => Sys2Proof.Machine.execImad h x a1 s
  | .imad64 h x a1 => Sys2Proof.Machine.execImad64 h x a1 s
  | .iabs h x a1 a2 => Sys2Proof.Machine.execIabs h x a1 a2 s
  | .imin h x a1 => Sys2Proof.Machine.execImin h x a1 s
  | .imax h x a1 => Sys2Proof.Machine.execImax h x a1 s
  | .lea h x a1 a2 => Sys2Proof.Machine.execLea h x a1 a2 s
  | .idiv h x a1 => Sys2Proof.Machine.execIdiv h x a1 s
  | .irem h x a1 => Sys2Proof.Machine.execIrem h x a1 s
  | .and h x a1 => Sys2Proof.Machine.execAnd h x a1 s
  | .or h x a1 => Sys2Proof.Machine.execOr h x a1 s
  | .xor h x a1 => Sys2Proof.Machine.execXor h x a1 s
  | .andn h x a1 => Sys2Proof.Machine.execAndn h x a1 s
  | .lmux h x a1 a2 a3 => Sys2Proof.Machine.execLmux h x a1 a2 a3 s
  | .shl h x a1 => Sys2Proof.Machine.execShl h x a1 s
  | .shr h x a1 => Sys2Proof.Machine.execShr h x a1 s
  | .sar h x a1 => Sys2Proof.Machine.execSar h x a1 s
  | .rotl h x a1 => Sys2Proof.Machine.execRotl h x a1 s
  | .fsh h x a1 => Sys2Proof.Machine.execFsh h x a1 s
  | .bfx h x a1 => Sys2Proof.Machine.execBfx h x a1 s
  | .bfi h x a1 => Sys2Proof.Machine.execBfi h x a1 s
  | .popc h x a1 => Sys2Proof.Machine.execPopc h x a1 s
  | .clz h x a1 => Sys2Proof.Machine.execClz h x a1 s
  | .brev h x a1 => Sys2Proof.Machine.execBrev h x a1 s
  | .bperm h x a1 => Sys2Proof.Machine.execBperm h x a1 s
  | .icmp h x a1 a2 a3 a4 => Sys2Proof.Machine.execIcmp h x a1 a2 a3 a4 s
  | .ucmp h x a1 a2 a3 a4 => Sys2Proof.Machine.execUcmp h x a1 a2 a3 a4 s
  | .fcmp h x a1 a2 a3 => Sys2Proof.Machine.execFcmp h x a1 a2 a3 s
  | .gop h x => Sys2Proof.Machine.execGop h x s
  | .gpack h x => Sys2Proof.Machine.execGpack h x s
  | .gunpk h x => Sys2Proof.Machine.execGunpk h x s
  | .sel h x a1 a2 a3 => Sys2Proof.Machine.execSel h x a1 a2 a3 s
  | .mov h x a1 => Sys2Proof.Machine.execMov h x a1 s
  | .movi h x => Sys2Proof.Machine.execMovi h x s
  | .movsp h x => Sys2Proof.Machine.execMovsp h x s
  | .wrsp h x => Sys2Proof.Machine.execWrsp h x s
  | .fadd h x a1 => Sys2Proof.Machine.execFadd h x a1 s
  | .fsub h x a1 => Sys2Proof.Machine.execFsub h x a1 s
  | .fmul h x a1 => Sys2Proof.Machine.execFmul h x a1 s
  | .ffma h x a1 => Sys2Proof.Machine.execFfma h x a1 s
  | .fmin h x => Sys2Proof.Machine.execFmin h x s
  | .fmax h x => Sys2Proof.Machine.execFmax h x s
  | .fdiv h x a1 => Sys2Proof.Machine.execFdiv h x a1 s
  | .frcp h x a1 => Sys2Proof.Machine.execFrcp h x a1 s
  | .fsqrt h x a1 => Sys2Proof.Machine.execFsqrt h x a1 s
  | .frsq h x a1 => Sys2Proof.Machine.execFrsq h x a1 s
  | .fexp2 h x a1 => Sys2Proof.Machine.execFexp2 h x a1 s
  | .flog2 h x a1 => Sys2Proof.Machine.execFlog2 h x a1 s
  | .frnd h x a1 => Sys2Proof.Machine.execFrnd h x a1 s
  | .fclass h x => Sys2Proof.Machine.execFclass h x s
  | .fscale h x a1 => Sys2Proof.Machine.execFscale h x a1 s
  | .hadd2 h x a1 a2 => Sys2Proof.Machine.execHadd2 h x a1 a2 s
  | .hmul2 h x a1 a2 => Sys2Proof.Machine.execHmul2 h x a1 a2 s
  | .hfma2 h x a1 a2 => Sys2Proof.Machine.execHfma2 h x a1 a2 s
  | .hmin2 h x a1 => Sys2Proof.Machine.execHmin2 h x a1 s
  | .hmax2 h x a1 => Sys2Proof.Machine.execHmax2 h x a1 s
  | .vadd2 h x a1 a2 => Sys2Proof.Machine.execVadd2 h x a1 a2 s
  | .vsub2 h x a1 a2 => Sys2Proof.Machine.execVsub2 h x a1 a2 s
  | .vmin2 h x a1 => Sys2Proof.Machine.execVmin2 h x a1 s
  | .vmax2 h x a1 => Sys2Proof.Machine.execVmax2 h x a1 s
  | .vabsd2 h x a1 => Sys2Proof.Machine.execVabsd2 h x a1 s
  | .acs2 h x a1 => Sys2Proof.Machine.execAcs2 h x a1 s
  | .vadd4 h x a1 a2 => Sys2Proof.Machine.execVadd4 h x a1 a2 s
  | .vsub4 h x a1 a2 => Sys2Proof.Machine.execVsub4 h x a1 a2 s
  | .vmin4 h x a1 => Sys2Proof.Machine.execVmin4 h x a1 s
  | .vmax4 h x a1 => Sys2Proof.Machine.execVmax4 h x a1 s
  | .dot4 h x a1 a2 => Sys2Proof.Machine.execDot4 h x a1 a2 s
  | .dot8 h x a1 a2 => Sys2Proof.Machine.execDot8 h x a1 a2 s
  | .cvt h x a1 a2 a3 => Sys2Proof.Machine.execCvt h x a1 a2 a3 s
  | .cvtp h x a1 a2 => Sys2Proof.Machine.execCvtp h x a1 a2 s
  | .cvtn h x a1 a2 a3 => Sys2Proof.Machine.execCvtn h x a1 a2 a3 s
  | .cvtw h x a1 a2 => Sys2Proof.Machine.execCvtw h x a1 a2 s
  | .hqs h x a1 a2 => Sys2Proof.Machine.execHqs h x a1 a2 s
  | .hq h x a1 a2 => Sys2Proof.Machine.execHq h x a1 a2 s
  | .hdq h x a1 a2 a3 => Sys2Proof.Machine.execHdq h x a1 a2 a3 s
  | .scl h x a1 a2 a3 => Sys2Proof.Machine.execScl h x a1 a2 a3 s
  | .shfl h x a1 a2 a3 => Sys2Proof.Machine.execShfl h x a1 a2 a3 s
  | .shflw h x a1 a2 a3 => Sys2Proof.Machine.execShflw h x a1 a2 a3 s
  | .vote h x a1 a2 => Sys2Proof.Machine.execVote h x a1 a2 s
  | .wsync h x a1 => Sys2Proof.Machine.execWsync h x a1 s
  | .rdx h x a1 a2 a3 => Sys2Proof.Machine.execRdx h x a1 a2 a3 s
  | .join h x a1 a2 => Sys2Proof.Machine.execJoin h x a1 a2 s
  | .jwait h x a1 => Sys2Proof.Machine.execJwait h x a1 s
  | .jwaitt h x a1 => Sys2Proof.Machine.execJwaitt h x a1 s
  | .jget h x a1 => Sys2Proof.Machine.execJget h x a1 s
  | .jset h x a1 => Sys2Proof.Machine.execJset h x a1 s
  | .bcast h x a1 a2 => Sys2Proof.Machine.execBcast h x a1 a2 s
  | .vread h x a1 a2 => Sys2Proof.Machine.execVread h x a1 a2 s
  | .ld h x a1 a2 a3 => Sys2Proof.Machine.execLd h x a1 a2 a3 s
  | .st h x a1 a2 a3 => Sys2Proof.Machine.execSt h x a1 a2 a3 s
  | .ldo h x a1 a2 => Sys2Proof.Machine.execLdo h x a1 a2 s
  | .sto h x a1 a2 a3 => Sys2Proof.Machine.execSto h x a1 a2 a3 s
  | .pf h x a1 a2 => Sys2Proof.Machine.execPf h x a1 a2 s
  | .atom h x a1 a2 a3 a4 => Sys2Proof.Machine.execAtom h x a1 a2 a3 a4 s
  | .ared h x a1 a2 a3 a4 => Sys2Proof.Machine.execAred h x a1 a2 a3 a4 s
  | .acas h x a1 a2 a3 => Sys2Proof.Machine.execAcas h x a1 a2 a3 s
  | .binit h x a1 a2 a3 a4 => Sys2Proof.Machine.execBinit h x a1 a2 a3 a4 s
  | .binitRetire h x a1 a2 => Sys2Proof.Machine.execBinitRetire h x a1 a2 s
  | .barr h x a1 a2 => Sys2Proof.Machine.execBarr h x a1 a2 s
  | .bexp h x a1 a2 => Sys2Proof.Machine.execBexp h x a1 a2 s
  | .bwait h x a1 => Sys2Proof.Machine.execBwait h x a1 s
  | .bwaitt h x a1 => Sys2Proof.Machine.execBwaitt h x a1 s
  | .bstat h x a1 => Sys2Proof.Machine.execBstat h x a1 s
  | .bind h x a1 => Sys2Proof.Machine.execBind h x a1 s
  | .unbind h x a1 => Sys2Proof.Machine.execUnbind h x a1 s
  | .fence h x a1 a2 => Sys2Proof.Machine.execFence h x a1 a2 s
  | .fencex h x a1 => Sys2Proof.Machine.execFencex h x a1 s
  | .fencerec h x a1 a2 => Sys2Proof.Machine.execFencerec h x a1 a2 s
  | .cpy h x a1 a2 a3 a4 => Sys2Proof.Machine.execCpy h x a1 a2 a3 a4 s
  | .cpyt h x a1 a2 a3 a4 a5 => Sys2Proof.Machine.execCpyt h x a1 a2 a3 a4 a5 s
  | .cpyg h x a1 a2 a3 a4 => Sys2Proof.Machine.execCpyg h x a1 a2 a3 a4 s
  | .cpyn h x a1 a2 => Sys2Proof.Machine.execCpyn h x a1 a2 s
  | .bget h x a1 => Sys2Proof.Machine.execBget h x a1 s
  | .bputGet h x a1 => Sys2Proof.Machine.execBputGet h x a1 s
  | .bputPut h x a1 => Sys2Proof.Machine.execBputPut h x a1 s
  | .bfree h x a1 => Sys2Proof.Machine.execBfree h x a1 s
  | .bbindRq h x a1 => Sys2Proof.Machine.execBbindRq h x a1 s
  | .bbindOff h x a1 => Sys2Proof.Machine.execBbindOff h x a1 s
  | .dadv h x => Sys2Proof.Machine.execDadv h x s
  | .dstat h x => Sys2Proof.Machine.execDstat h x s
  | .ckill h x a1 => Sys2Proof.Machine.execCkill h x a1 s
  | .mxm h x a1 a2 a3 a4 a5 => Sys2Proof.Machine.execMxm h x a1 a2 a3 a4 a5 s
  | .mxc h x a1 a2 a3 a4 a5 a6 a7 => Sys2Proof.Machine.execMxc h x a1 a2 a3 a4 a5 a6 a7 s
  | .msca h x a1 a2 a3 a4 => Sys2Proof.Machine.execMsca h x a1 a2 a3 a4 s
  | .mzero h x a1 a2 a3 a4 => Sys2Proof.Machine.execMzero h x a1 a2 a3 a4 s
  | .ldf h x a1 a2 a3 => Sys2Proof.Machine.execLdf h x a1 a2 a3 s
  | .stf h x a1 a2 a3 => Sys2Proof.Machine.execStf h x a1 a2 a3 s
  | .mxrd h x a1 a2 a3 => Sys2Proof.Machine.execMxrd h x a1 a2 a3 s
  | .relay h x => Sys2Proof.Machine.execRelay h x s
  | .nget h x a1 => Sys2Proof.Machine.execNget h x a1 s
  | .nred h x a1 a2 => Sys2Proof.Machine.execNred h x a1 a2 s
  | .ncvt h x a1 a2 a3 => Sys2Proof.Machine.execNcvt h x a1 a2 a3 s
  | .trapSw h x => Sys2Proof.Machine.execTrapSw h x s
  | .trapHset h x => Sys2Proof.Machine.execTrapHset h x s
  | .trapHget h x => Sys2Proof.Machine.execTrapHget h x s
  | .rte h x a1 => Sys2Proof.Machine.execRte h x a1 s
  | .rdf h x => Sys2Proof.Machine.execRdf h x s
  | .brkHit h x => Sys2Proof.Machine.execBrkHit h x s
  | .brkBp h x => Sys2Proof.Machine.execBrkBp h x s
  | .brkWp h x => Sys2Proof.Machine.execBrkWp h x s
  | .setroot h x => Sys2Proof.Machine.execSetroot h x s
  | .retype h x => Sys2Proof.Machine.execRetype h x s
  | .tinv h x => Sys2Proof.Machine.execTinv h x s
  | .evtack h x => Sys2Proof.Machine.execEvtack h x s
  | .yld h x => Sys2Proof.Machine.execYld h x s
  | .launch h x => Sys2Proof.Machine.execLaunch h x s
  | .opreq h x => Sys2Proof.Machine.execOpreq h x s
  | .killComplete gid => Sys2Proof.Machine.execKillComplete gid s
  | .registerFill id part => Sys2Proof.Machine.execRegisterFill id part s
  | .stallDataArrival gid wi => Sys2Proof.Machine.execStallDataArrival gid wi s
  | .strideSlot core q => Sys2Proof.Machine.execStrideSlot core q s
  | .jwaittExpiry gid wi t => Sys2Proof.Machine.execJwaittExpiry gid wi t s
  | .bwaittExpiry gid wi t => Sys2Proof.Machine.execBwaittExpiry gid wi t s
  | .bytesCounted core slot pieces => Sys2Proof.Machine.execBytesCounted core slot pieces s
  | .commandEnd core slot => Sys2Proof.Machine.execCommandEnd core slot s
  | .receiveLanding core bind => Sys2Proof.Machine.execReceiveLanding core bind s
  | .messageArrival world queue sender payload => Sys2Proof.Machine.execMessageArrival world queue sender payload s
  | .teamCommandStart gid team => Sys2Proof.Machine.execTeamCommandStart gid team s
  | .matrixCommandStart core q id => Sys2Proof.Machine.execMatrixCommandStart core q id s
  | .matrixCommandEnd core q id detections => Sys2Proof.Machine.execMatrixCommandEnd core q id detections s
  | .storeAtHome id part => Sys2Proof.Machine.execStoreAtHome id part s
  | .hotWordRetire addr ids => Sys2Proof.Machine.execHotWordRetire addr ids s
  | .invalidation die line => Sys2Proof.Machine.execInvalidation die line s
  | .invalidationAck die line => Sys2Proof.Machine.execInvalidationAck die line s
  | .storeAck id => Sys2Proof.Machine.execStoreAck id s
  | .negativeAck id => Sys2Proof.Machine.execNegativeAck id s
  | .ackTimeout id => Sys2Proof.Machine.execAckTimeout id s
  | .bridgeFailure bridge dropped cmds => Sys2Proof.Machine.execBridgeFailure bridge dropped cmds s
  | .releaseMarker id => Sys2Proof.Machine.execReleaseMarker id s
  | .relayArrival gid wi => Sys2Proof.Machine.execRelayArrival gid wi s
  | .tableStoreAdmission gid wi => Sys2Proof.Machine.execTableStoreAdmission gid wi s
  | .purge slice frame => Sys2Proof.Machine.execPurge slice frame s
  | .tinvComplete id => Sys2Proof.Machine.execTinvComplete id s
  | .setrootComplete id => Sys2Proof.Machine.execSetrootComplete id s
  | .retypeAtHome id => Sys2Proof.Machine.execRetypeAtHome id s
  | .frameMigration frame => Sys2Proof.Machine.execFrameMigration frame s
  | .migrationSwitch frame => Sys2Proof.Machine.execMigrationSwitch frame s
  | .dispatchRound prefs => Sys2Proof.Machine.execDispatchRound prefs s
  | .launchCompletion lid => Sys2Proof.Machine.execLaunchCompletion lid s
  | .clockGate core => Sys2Proof.Machine.execClockGate core s
  | .wake core => Sys2Proof.Machine.execWake core s
  | .preemptRequest gid notice frames => Sys2Proof.Machine.execPreemptRequest gid notice frames s
  | .noticeExpiry gid => Sys2Proof.Machine.execNoticeExpiry gid s
  | .sealGang gid => Sys2Proof.Machine.execSeal gid s
  | .resume gid cores => Sys2Proof.Machine.execResume gid cores s
  | .opEvacuateScratchpad => Sys2Proof.Machine.execOpEvacuateScratchpad s
  | .opEvacuateSlices => Sys2Proof.Machine.execOpEvacuateSlices s
  | .opSwitch => Sys2Proof.Machine.execOpSwitch s
  | .rowRetire slice unit row => Sys2Proof.Machine.execRowRetire slice unit row s
  | .softPpr line hard => Sys2Proof.Machine.execSoftPpr line hard s
  | .softPprComplete line => Sys2Proof.Machine.execSoftPprComplete line s
  | .scrub core found => Sys2Proof.Machine.execScrub core found s
  | .patrol line found tag => Sys2Proof.Machine.execPatrol line found tag s
  | .spareTakeover isUnit part dead => Sys2Proof.Machine.execSpareTakeover isUnit part dead s
  | .environmentalAlarm cond die => Sys2Proof.Machine.execEnvironmentalAlarm cond die s
  | .alarmResend => Sys2Proof.Machine.execAlarmResend s
  | .controlTakeover => Sys2Proof.Machine.execControlTakeover s
  | .baseRd stack port addr len world => Sys2Proof.Machine.execBaseRd stack port addr len world s
  | .baseWr stack port addr len world => Sys2Proof.Machine.execBaseWr stack port addr len world s
  | .baseWrm stack port addr len world mask => Sys2Proof.Machine.execBaseWrm stack port addr len world mask s
  | .baseRsp stack port tag => Sys2Proof.Machine.execBaseRsp stack port tag s
  | .baseAck stack port tag => Sys2Proof.Machine.execBaseAck stack port tag s
  | .flitData link ok => Sys2Proof.Machine.execFlitData link ok s
  | .flitIdle link ok => Sys2Proof.Machine.execFlitIdle link ok s
  | .flitMarker link ok => Sys2Proof.Machine.execFlitMarker link ok s
  | .flitNak link => Sys2Proof.Machine.execFlitNak link s
  | .flitVoid link ok => Sys2Proof.Machine.execFlitVoid link ok s
  | .keyLoad link => Sys2Proof.Machine.execKeyLoad link s
  | .linkFailure link => Sys2Proof.Machine.execLinkFailure link s
  | .functionLevelReset world lost => Sys2Proof.Machine.execFunctionLevelReset world lost s
  | .queueOpen world queue send peer rod => Sys2Proof.Machine.execQueueOpen world queue send peer rod s
  | .queueClose world queue send => Sys2Proof.Machine.execQueueClose world queue send s
  | .deviceReset => Sys2Proof.Machine.execDeviceReset s
  | .keysAndFill => Sys2Proof.Machine.execKeysAndFill s
  | .imageVerify => Sys2Proof.Machine.execImageVerify s
  | .resetGo => Sys2Proof.Machine.execResetGo s
  | .responseWrite cls => Sys2Proof.Machine.execResponseWrite cls s
  | .registerWrite addr val => Sys2Proof.Machine.execRegisterWrite addr val s
  | .attestationRequest nonce => Sys2Proof.Machine.execAttestationRequest nonce s
  | .logHeadAdvance die n => Sys2Proof.Machine.execLogHeadAdvance die n s
  | .linkTraining link => Sys2Proof.Machine.execLinkTraining link s
  | .newWorldKey world => Sys2Proof.Machine.execNewWorldKey world s
  | .grantOwnerChange stack grant world => Sys2Proof.Machine.execGrantOwnerChange stack grant world s
  | .launchQueueWrite world queue record root => Sys2Proof.Machine.execLaunchQueueWrite world queue record root s
  | .enrolment owner port flowMin keyHashes module_ => Sys2Proof.Machine.execEnrolment owner port flowMin keyHashes module_ s

end Sys2Proof.Machine
end

