-- ==== Sys2Proof/Machine/Fetch.lean ====
section
/-!
DEFINITION. What stands before an instruction's own meaning when a warp issues (spec/02 R33 to R39, R63; spec/03 R61; spec/17 R318,
R326, R327; spec/18 R341), what comes after it, the moves of the model that are no row of the table, and the laying out of an
instruction where a warp fetches.
-/
namespace Sys2Proof.Machine

/-! ### Before the instruction -/

/-- The issue slot's warp, its gang and the program counter it issues. -/
structure Slot where
  r  : WRef
  g  : Gang
  w  : Warp
  pc : VAddr

/-- What a quarter's running warp issues, if it issues now: not under lock-down, in a gated core, while it stalls for data, table
stores or an outstanding-store entry (R86, R186, R196, R215, R268, R312, R358). -/
def State.slot? (s : State) (core q : Nat) : Option Slot :=
  if s.mgmt.locked || (s.core core).gated then none
  else
    match (s.quarter core q).running with
    | none => none
    | some r =>
      match s.gang? r.1, s.warp? r with
      | some g, some w =>
        let stalls := match w.stall with
          | some (.ret false) => true
          | some (.param (_ :: _)) => true
          | some (.record (_ :: _)) => true
          | some (.table (_ :: _) _) => true
          | _ => false
        match w.stride with
        | some st => if stalls || s.ostStall r then none else some { r := r, g := g, w := w, pc := st.pc }
        | none => none
      | _, _ => none

/-- The active set of an issue (R154). -/
def Slot.act (x : Slot) : List Thread := x.w.active x.pc

/-- One fault in every thread of the active set. -/
def Slot.all (x : Slot) (f : Flt) : List (Nat × Flt) := x.act.map fun th => (th.t, f)

/-- The breakpoint at a program counter, if any (R318). -/
def Slot.breakAt (x : Slot) : Option Nat :=
  if x.w.inh || x.w.unhit then none
  else (List.range 4).find? fun k => nth x.g.bp k 0 ≠ 0 && (nth x.g.bp k 0).toNat = x.pc.toNat

/-- What an issue meets before its instruction is decoded. -/
inductive Before where
  /-- A trap, and whether it is a deferred debug event. -/
  | trap (fs : List (Nat × Flt)) (defer : Bool)
  /-- A breakpoint hit of a gang that is being sealed (R326). -/
  | hold (fs : List (Nat × Flt))
  /-- Nothing yet: the line it would fetch, or that its trap would enter at, serves no read (R355, R361). -/
  | wait
  /-- The 96-bit word. -/
  | word (w : IWord)
  deriving DecidableEq, Repr

/-- The chunks of the next fetched line that the fetch path strikes (R63; log entry 24). -/
def State.struckLine (s : State) (core q : Nat) : Nat :=
  match s.upsets.find? fun u => u.1 = core && u.2.1 = q && u.2.2.1 with
  | some u => u.2.2.2
  | none => 0

/-- Whether an issue cannot read the lines it may need: the one it fetches, or its warp's handler entry (R33, R308, R355, R361). -/
def State.lineWaits (s : State) (x : Slot) : Bool :=
  s.fetchHeld x.g x.w.core x.pc.toNat || (x.w.hentry ≠ 0 && s.fetchHeld x.g x.w.core x.w.hentry.toNat)

/-- The debug events that pend at an issue's program counter for threads of its active set: none is delivered in a handler (R326, R327). -/
def Slot.deferred (x : Slot) : List (Nat × Flt) :=
  if x.w.inh then []
  else (x.w.pend.filter fun p => p.1 = x.pc).flatMap fun p => p.2.filter fun f => (x.act.map (·.t)).contains f.1

/-- Debug events at a program counter delivered to threads. -/
def Warp.undefer (w : Warp) (pc : VAddr) (ts : List Nat) : Warp :=
  { w with pend :=
      (w.pend.map fun p => if p.1 = pc then (p.1, p.2.filter fun f => !ts.contains f.1) else p).filter fun p => p.2 ≠ [] }

/-- F_UNREACH that is due, a deferred debug event, a breakpoint, the check of a launch's entry, then fetch (R33, R35, R159, R176, R318,
R327). -/
def State.before (s : State) (core q : Nat) (x : Slot) : Before :=
  if s.lineWaits x then .wait
  else match dueUnreach x.act with
  | f :: fs => .trap (f :: fs) false
  | [] =>
    match x.deferred with
    | f :: fs => .trap (f :: fs) true
    | [] =>
      match x.breakAt with
      | some k =>
        let fs := x.all { code := fBrk, addr := k }
        if x.g.sealing then .hold fs else .trap fs false
      | none =>
        match x.w.entry.bind fun e => s.targetFault x.g x.w.core e true with
        | some f => .trap (x.all f) false
        | none =>
          match s.fetch x.g x.w.core x.pc.toNat with
          | .error f => .trap (x.all f) false
          | .ok line =>
            match Machine.lineFault line (s.struckLine core q) with
            | some f => .trap (x.all f) false
            | none => .word (wordOfBytes (line.drop (12 * pcSlot x.pc)))

/-- Who decodes (R62). -/
def Gang.decodes (g : Gang) : DecCtx := { n := g.n, fw := g.world = 0, ctl := g.ctl }

/-- A word that is no instruction as a fault (R61). -/
def decodeFlt (f : DecFault) : Flt :=
  match f with
  | .illop op => { code := fIllop, addr := op }
  | .mbz b => { code := fMbz, addr := b }
  | .illmod b => { code := fIllmod, addr := b }
  | .target op => { code := fTarget, addr := op }

/-! ### Around the instruction -/

/-- The state an instruction executes in: its warp holds the slot, its line's translation is cached (R219), its entry has been
checked, and its threads' late loads are settled but for those it may pass (R46, R111). -/
def State.enter (s : State) (x : Slot) (ins : Instr) : State :=
  let ts := x.act.map (·.t)
  ({ s with cur := some x.r }.cacheTlb x.w.core x.g.world x.g.root x.pc.toNat).modWarp x.r fun w =>
    { w.mapThreads fun th => th.settleFor ins (ts.contains th.t) with entry := none }

/-- The fetch path's strike is spent with the fetch it struck. -/
def State.spendLine (s : State) (core q : Nat) : State :=
  match s.upsets.find? fun u => u.1 = core && u.2.1 = q && u.2.2.1 with
  | some u => { s with upsets := s.upsets.erase u }
  | none => s

/-- Whether an issue completed: its threads advanced (R38). -/
def State.completed (s : State) (x : Slot) (tick : Nat) : Bool :=
  match s.warp? x.r with
  | some w => w.threads.any fun th => (x.act.map (·.t)).contains th.t && th.lastIssue = tick + 1
  | none => false

/-- The checker's strike on the next completed issue of a quarter: its unit (R341). -/
def State.struckUnit (s : State) (core q : Nat) : Option Nat :=
  (s.upsets.find? fun u => u.1 = core && u.2.1 = q && !u.2.2.1 && decide (1 ≤ u.2.2.2) && decide (u.2.2.2 ≤ 6)).map fun u => u.2.2.2

/-- A header's guard in a thread, by the instruction's word (R38). -/
def wordGuard (w : IWord) (th : Thread) : Bool := guardOn (Hdr.ofWord w) th

/-- What follows an instruction: where a checker fired its whole effect is discarded and F_PIPE raised (R341); then the slot is given
back and a team's deadlock found (R286). `s` is the state it executed in, `t` the state it left. -/
def State.after (s t : State) (core q : Nat) (x : Slot) (w : IWord) : State :=
  let on := x.act.filter (wordGuard w)
  let t := match s.struckUnit core q with
    | some v =>
      if t.completed x s.tick && on ≠ [] then
        ({ s with upsets := s.upsets.erase (core, q, false, v) } : State).trap x.r x.pc (x.act.map fun (th : Thread) => th.t)
          (on.map fun (th : Thread) => (th.t, ({ code := fPipe, addr := v } : Flt)))
      else t
    | none => t
  { t.unreachTeam x.r with cur := none }

/-- An issue that meets something before its instruction. -/
def State.meet (s : State) (core q : Nat) (x : Slot) (b : Before) : State :=
  let struck := s
  let s := s.spendLine core q
  match b with
  | .wait => struck
  | .trap fs defer =>
    (if defer then s.modWarp x.r fun w => w.undefer x.pc (fs.map (·.1)) else s).trapAs x.r x.pc (x.act.map (·.t)) fs defer
  | .hold fs => (s.modWarp x.r fun w => w.defers x.pc fs).endStride x.r
  | .word _ => s

/-- An active set that has gone leaves the slot. -/
def State.idle (s : State) (x : Slot) : State := s.endStride x.r

/-! ### Moves that are no row of the table (log entry 1) -/

/-- An invisible move: clocks, a scratchpad access performed, a store forwarded to its die's readers, a write seen by all, a late load's
second look, a cached copy or translation dropped, a strike, traffic on a link, a port's link, the flash written. -/
def State.move (s : State) (t : Turn) : State :=
  match t with
  | .clocks core n => s.modCore core fun c => { c with clock := c.clock + n }
  | .perform id =>
    (match s.flight? id with
     | some f => (s.performFlight id).reap f.gid
     | none => s)
  | .forward id => s.forward id
  | .unveil gid k => s.modGang gid fun g => { g with veils := g.veils.eraseIdx k }
  | .unveilGl k => { s with glVeils := s.glVeils.eraseIdx k }
  | .relook gid wi t k => s.relook (gid, wi) t k
  | .dropCopy die line => { s with copies := s.copies.filter fun c => !(c.die = die && c.line = line) }
  | .dropTlb k => { s with tlb := s.tlb.eraseIdx k }
  | .dropParam core k => s.modCore core fun c => { c with pcache := c.pcache.del k }
  | .upset core q fetch v => { s with upsets := s.upsets ++ [(core, q, fetch, v)] }
  | .linkQueue d w p => s.modLink (s.linkFor d) fun l => { l with queued := l.queued ++ [(false, w, p)] }
  | .port k up => { s with mgmt := { s.mgmt with ports := modAt s.mgmt.ports k fun _ => up } }
  | .romTest d ok => if s.mgmt.stage = 1 then { s with mgmt := { s.mgmt with healthy := modAt s.mgmt.healthy d fun _ => ok } } else s
  | .flash a bs => { s with mgmt := { s.mgmt with flash := s.mgmt.flash.writeN a bs } }
  | .issue _ _ => s
  | .event _ => s

/-! ### An instruction laid where a warp fetches -/

/-- The line word of a line that holds `body` in its first 60 bytes: parity of its chunks and every slot a target (R34, R35). -/
def lineWordFor (body : List Byte) : Nat :=
  (List.range 8).foldl (fun m k => if parityN 60 (bitsN (leNat body) (60 * k) 60) then m + 2 ^ (24 + k) else m) (31 * 2 ^ 15)

/-- A fetch line whose slot 0 holds a word (R33 to R35, R47). -/
def lineOfWord (w : Nat) : List Byte :=
  let body := leBytes 12 w ++ List.replicate 48 0
  body ++ leBytes 4 (lineWordFor body)

/-- The gang of one firmware thread on core 0 that `withFetchWord` supplies: 256 registers, its table root in frame 64. -/
def hostGang (gid : Nat) : Gang :=
  { gid := gid, bib := 1, world := 0, launch := 0, block := 0, blockT := 1, threadsN := 1, cores := [0], n := 256, spBytes := 1024,
    minop := 3, prio := 1, levels := [{ dom := 0, scope := .core, extent := 1 }], root := some 64, sp := [[]], rowBase := [0],
    warps := [{ newWarp 0 0 0 256 0x10000 [0] with stride := some { pc := 0x10000, n := 0 }, entry := none }] }

/-- A state with an instruction's 96 bits stored where a warp that holds the issue slot fetches next, and that warp's issue the next
move: the tables of one page (a level-1 table in frame 64, a level-2 table in frame 65, a code frame 66), the line, the gang. -/
def State.layWord (s : State) (w : Nat) : State :=
  let gid := s.nextId
  let mem := ((s.mem.writeN (64 * 65536) (leBytes 8 (2 ^ 63 + 65 * 2 ^ 33))).writeN (65 * 65536 + 8)
    (leBytes 8 (2 ^ 63 + 2 ^ 62 + 2 ^ 60 + 2 * 2 ^ 58 + 66 * 2 ^ 33))).writeN (66 * 65536) (lineOfWord w)
  { ((s.modQuarter 0 0 fun q => { q with running := some (gid, 0) }).modCore 0 fun c => { c with gated := false }) with
    nextId := gid + 1, mem := mem, gangs := s.gangs ++ [hostGang gid], agenda := [.issue 0 0],
    tlb := s.tlb.filter (fun e => e.root ≠ 64), frames := s.frames.del 66,
    upsets := s.upsets.filter (fun u => !(u.1 = 0 && u.2.1 = 0)), mgmt := { s.mgmt with locked := false } }

end Sys2Proof.Machine
end

