-- ==== Sys2Proof/Machine/Step.lean ====
section
/-!
DEFINITION. One step of the device: one indivisible move of one agent (spec/00 R20; log entry 1). It only calls what Fetch and the
meanings define.
-/
namespace Sys2Proof.Machine

/-- The issue of a quarter's running warp: what stands before the instruction, the instruction, what follows it. -/
def issueOf (core q : Nat) (s : State) : Host.Outcome State Fault Refusal :=
  match s.slot? core q with
  | none => .next s
  | some x =>
    if x.act = [] then .next (s.idle x)
    else
      match s.before core q x with
      | .word w =>
        match decodeWord x.g.decodes w with
        | .bad f => .next (s.meet core q x (.trap (x.all (decodeFlt f)) false))
        | .ok i =>
          match exec i ((s.spendLine core q).enter x i) with
          | .next t => .next (State.after ((s.spendLine core q).enter x i) t core q x w)
          | .fault f => .fault f
          | .refused r => .refused r
      | b => .next (s.meet core q x b)

/-- A turn taken. -/
def take (t : Turn) (s : State) : Host.Outcome State Fault Refusal :=
  match t with
  | .issue core q => issueOf core q s
  | .event i => exec i s
  | t => .next (s.move t)

/-- The next turn, and the state without it: the agenda's first, else the agent that Config names. -/
def State.nextTurn (s : State) : Turn × State :=
  match s.agenda with
  | t :: r => (t, { s with agenda := r })
  | [] => (Config.turn s.tick, s)

/-- A move is over. -/
def State.tock (s : State) : State := { s with tick := s.tick + 1 }

/-- One step. -/
def step (s : State) : Host.Outcome State Fault Refusal :=
  match take s.nextTurn.1 s.nextTurn.2 with
  | .next t => .next t.tock
  | .fault f => .fault f
  | .refused r => .refused r

/-- A state whose very next step fetches and runs the instruction of these bits: this stands for the loading and placing of a program
from outside (log entry 1). -/
def State.withFetchWord (s : State) (_nbits w : Nat) : State := s.layWord w

end Sys2Proof.Machine
end

