-- ==== Sys2Proof/Safety.lean ====
section
/-!
DEFINITION. The terms the statements use: the invariants of a safe run (memory in canonical form; register files of the widths
spec/02 R21 to R31 give them and thread numbers distinct), when an issue's operands are readable (spec/02 R28 to R31, R38), and
what a completed issue leaves as it was.
-/
namespace Sys2Proof.Machine

/-! ### Invariants -/

/-- Every gang the state holds: resident, dying and sealed. -/
def State.allGangs (s : State) : List Gang := s.gangs ++ s.dying ++ s.sealed.map (·.gang)

/-- Every byte store is in canonical form: HBM, the bridge buffer, the flash and each scratchpad. -/
def State.memWf (s : State) : Prop :=
  s.mem.wf = true ∧ s.bb.wf = true ∧ s.mgmt.flash.wf = true ∧ ∀ g ∈ s.allGangs, ∀ p ∈ g.sp, Memory.wf p = true

/-- The register files of a thread have their lengths: N main registers (R21), 8 o and 2 l registers and their copies in the trap
record (R31, R309). -/
def Thread.shaped (n : Nat) (th : Thread) : Prop :=
  th.m.length = n ∧ th.o.length = 8 ∧ th.l.length = 2 ∧ th.recO.length = 8 ∧ th.recL.length = 2

/-- A warp's scalar registers and rejoin sets have their numbers (R23, R165), and no two of its threads share a number (R153). -/
def Warp.shaped (n : Nat) (w : Warp) : Prop :=
  w.s.length = 64 ∧ w.j.length = 16 ∧ w.arr.length = 16 ∧ (w.threads.map (·.t)).Nodup ∧ ∀ th ∈ w.threads, th.shaped n

/-- Every warp of every gang is shaped. -/
def State.shaped (s : State) : Prop := ∀ g ∈ s.allGangs, ∀ w ∈ g.warps, w.shaped g.n

/-! ### Operands -/

/-- Whether a window operand of a plain form reads a value, or zero beyond its bound (R40, R107). -/
def State.windowReads (s : State) (g : Gang) (core : Nat) (f : Fld) (imm : BitVec 21) : Bool :=
  match f.x with
  | .win i =>
    (match s.pwRead g core i.toNat (4 * f.n) imm.toNat with
     | .value _ => true
     | .beyond => true
     | _ => false)
  | _ => true

/-- A warp's issue of an instruction with this header, its threads numbered apart (`State.shaped`). -/
def Issues (s : State) (h : Hdr) (i : Iss) : Prop := s.iss? h = some i ∧ (i.w.threads.map (·.t)).Nodup

/-- The three source fields of a V word and their widths in registers; 0 where a field is unused. -/
def flds (x : VOps) (a b c : Nat) : List Fld := [⟨x.a, a⟩, ⟨x.b, b⟩, ⟨x.c, c⟩]

/-- What operand `o` reads as `n` registers in a thread of an issue. -/
def Iss.arg (i : Iss) (s : State) (imm : BitVec 21) (o : Opnd) (n : Nat) (th : Thread) : Nat := s.value i.g i.w th o n imm

/-- A thread's operands stand ready (R28 to R31, R38 step 4, R299, R343): no source or destination register is empty; no source is an
o or l register this stride has not filled, poisoned, or a window that faults or misses the parameter cache. `dRead`: the destination
is read as well. -/
def Iss.ready (i : Iss) (s : State) (src dst : List Fld) (dRead : Bool) (imm : BitVec 21) (th : Thread) : Prop :=
  (∀ f ∈ src ++ dst, emptyAt i.w th f.x f.n = none) ∧
  (∀ f ∈ (if dRead then src ++ dst else src), stale th f.x f.n = false ∧ poisonAt i.w th f.x f.n = none) ∧
  (∀ f ∈ src, s.windowReads i.g i.w.core f imm = true)

/-- The threads a destination is written for: each guard-true thread, or the lowest of them for a scalar register (R64; log
entry 14). -/
def Iss.writers (i : Iss) (d : Opnd) : List Thread := if d.cls = .s then i.on.take 1 else i.on

/-! ### What a completed issue leaves -/

/-- The state but for its gangs and cores. -/
def State.outside (s : State) : State := { s with gangs := [], dying := [], cores := [] }

/-- A gang but for its warps. -/
def Gang.outside (g : Gang) : Gang := { g with warps := [] }

/-- A warp but for its threads, its scalar registers and what the scheduler keeps of it. -/
def Warp.outside (w : Warp) : Warp :=
  { w with
    s := [], threads := [], stride := none, stall := none, demoted := false, spinPc := 0, spinN := 0, spinBusy := false,
    dretry := none, noHit := none }

/-- A core but for its clock, its next store sequence number and the warps that hold its issue slots. -/
def Core.outside (k : Core) : Core := { k with clock := 0, osSeq := 0, quarters := k.quarters.map fun q => { q with running := none } }

/-- A thread but for which of its scratchpad loads are still late (R46, R111; log entry 62). -/
def Thread.outside (th : Thread) : Thread := { th with lates := [] }

/-- A thread after an issue, before the instruction's own effect: one of the active set stands at the next slot (R39). -/
def Iss.moved (i : Iss) (tick : Nat) (th : Thread) : Thread :=
  if th ∈ i.act then { th with pc := nextPc i.pc, lastIssue := tick + 1, wait := .none } else th

/-- An issue completed. The issuing warp is `W` but for its threads and what the scheduler keeps of it; each thread is what `upd` makes
of it, but that its o and l registers are empty where the stride has ended (R31) and for which of its loads are late; every other warp and gang is as before, a core but
for its clock and issue slots. -/
structure Leaves (s t : State) (i : Iss) (W : Warp) (upd : Thread → Thread) : Prop where
  gangs : ∀ gid, (t.gang? gid).map Gang.outside = (s.gang? gid).map Gang.outside
  warps : ∀ r, r ≠ i.r → t.warp? r = s.warp? r
  cores : ∀ c, (t.core c).outside = (s.core c).outside
  warp : ∃ w, t.warp? i.r = some w ∧ w.outside = W.outside ∧ w.s = W.s ∧
    ∀ th ∈ i.w.threads, ∃ u, w.thread? th.t = some u ∧
      u.outside = (if w.stride = none then Thread.clearOl (upd th) else upd th).outside

/-- An issue completed that changed nothing but its own warp: everything outside the gangs and cores is as before, every byte of memory
with it. -/
structure Keeps (s t : State) (i : Iss) (W : Warp) (upd : Thread → Thread) : Prop extends Leaves s t i W upd where
  outside : t.outside = s.outside
  seqs : ∀ c, (t.core c).osSeq = (s.core c).osSeq

/-! ### Plain results -/

/-- A thread after a plain instruction: the guard-true ones carry $pwerr of the windows read beyond their bound (R26, R40) and the effect
`eff`, and a writer's destination holds its value (R28, R31). -/
def Iss.plainThread (i : Iss) (s : State) (d : Opnd) (n : Nat) (src : List Fld) (imm : BitVec 21) (eff : Thread → Thread → Thread)
    (v : Thread → Nat) (th : Thread) : Thread :=
  let th1 := i.moved s.tick th
  let th2 := if th ∈ i.on then { th1 with pwerr := th1.pwerr ||| s.windowOver i.g i.w src imm } else th1
  if th ∈ i.writers d then (eff th th2).put d n (v th) else th2

/-- The warp with its scalar registers written by threads of an issue, in ascending t (R23, R64). -/
def Iss.scalars (i : Iss) (who : List Thread) (d : Opnd) (n : Nat) (v : Thread → Nat) : Warp :=
  match d with
  | .s k _ => { i.w with s := who.foldl (fun rs th => putRegs rs k.toNat (natWords n (v th))) i.w.s }
  | _ => i.w

/-- A PLAIN INSTRUCTION COMPLETES wherever a warp issues it and its operands stand ready: D (of `n` registers; none where `n` is 0) of
each writer holds `v`, `eff` is its effect on that thread's other registers, and nothing else changes. `src` are its source fields. -/
def Plainly (ins : Instr) (h : Hdr) (d : Opnd) (n : Nat) (src : List Fld) (imm : BitVec 21) (dRead : Bool)
    (eff : State → Iss → Thread → Thread → Thread) (v : State → Iss → Thread → Nat) : Prop :=
  ∀ (s : State) (i : Iss), Issues s h i →
    (∀ th ∈ i.writers d, i.ready s src (if n = 0 then [] else [⟨d, n⟩]) dRead imm th) →
    ∃ t, exec ins s = .next t ∧
      Keeps s t i (i.scalars (i.writers d) d n (v s i)) (i.plainThread s d n src imm (eff s i) (v s i))

/-- A plain instruction that writes a register and nothing else. -/
def Computes (ins : Instr) (h : Hdr) (d : Opnd) (n : Nat) (src : List Fld) (imm : BitVec 21)
    (v : State → Iss → Thread → Nat) : Prop :=
  Plainly ins h d n src imm false (fun _ _ _ th => th) v

/-! ### What an access on its way leaves -/

/-- A flight but for the outstanding-store entry it may be given meanwhile (R358), and for who may see it, or has seen it, before it reaches
its home slice (R231, R355, R356). -/
def Flight.sent (f : Flight) : Flight := { f with seq := none, fwd := false, seen := false, narrow := false }

/-- The state but for its gangs and cores and what a memory access on its way adds or drops: flights, numbers, cached translations and
copies. -/
def State.still (s : State) : State := { s.outside with flights := [], nextId := 0, tlb := [], copies := [] }

/-- A thread whose destination of `n` registers empties (R28). -/
def Thread.vacate (th : Thread) (d : Opnd) (n : Nat) : Thread :=
  match d with
  | .m k _ => { th with m := emptyRegs th.m k.toNat n }
  | _ => th

/-- The issuing warp, a scalar destination of `n` registers emptied for a writer (R23, R28). -/
def Iss.vacated (i : Iss) (d : Opnd) (n : Nat) : Warp :=
  match d, i.writers d with
  | .s k _, _ :: _ => { i.w with s := emptyRegs i.w.s k.toNat n }
  | _, _ => i.w

/-- A thread after a long-latency instruction whose result is on its way: `past` is what its windows add to $pwerr. -/
def Iss.owed (i : Iss) (tick : Nat) (d : Opnd) (n : Nat) (past : BitVec 8) (th : Thread) : Thread :=
  let th1 := if th ∈ i.on then { i.moved tick th with pwerr := th.pwerr ||| past } else i.moved tick th
  if th ∈ i.writers d then th1.vacate d n else th1

/-- An issue completed that sent accesses on their way and performed none: the memories, the barrier objects and everything else
outside the issuing warp are as before, and so is every access that was under way. -/
structure Sends (s t : State) (i : Iss) (W : Warp) (upd : Thread → Thread) : Prop extends Leaves s t i W upd where
  still : t.still = s.still
  flights : s.flights.map Flight.sent <+: t.flights.map Flight.sent

/-- A new flight of a thread of the issue with these properties is on its way. -/
def Iss.flies (i : Iss) (s t : State) (th : Thread) (P : Flight → Prop) : Prop :=
  ∃ f ∈ t.flights, s.nextId ≤ f.id ∧ f.gid = i.r.1 ∧ f.wi = i.r.2 ∧ f.t = th.t ∧ P f

/-- No own store of a thread on its way meets these scratchpad bytes (R46). -/
def State.padQuiet (s : State) (r : WRef) (t gc off n : Nat) : Prop :=
  ∀ f ∈ s.flights, f.gid = r.1 → f.wi = r.2 → f.t = t → f.isStore = true → ∀ o, f.place = .pad gc o → overlaps o f.len off n = false

/-- A destination of a warp holds these words, full and unpoisoned (R28). -/
def Warp.holds (w : Warp) (t : Nat) (d : Dst) (ws : List Word) : Prop :=
  match d with
  | .m k _ => ∃ th, w.thread? t = some th ∧ ∀ j < ws.length, nth th.m (k + j) {} = { v := nth ws j 0 }
  | .s k _ => ∀ j < ws.length, nth w.s (k + j) {} = { v := nth ws j 0 }

/-- A destination lies in its register file. -/
def Warp.hasDst (w : Warp) (t : Nat) (d : Dst) : Prop :=
  match d with
  | .m k n => ∃ th, w.thread? t = some th ∧ th.exited = false ∧ k + n ≤ th.m.length
  | .s k n => k + n ≤ w.s.length

/-- A gang as it was, but that threads which waited for a command slot or a queue entry may wait no more (R183, R257, R284). -/
def Gang.woken (h h' : Gang) : Prop :=
  h'.outside = h.outside ∧ h'.warps.length = h.warps.length ∧
  ∀ (j : Nat) (v v' : Warp), h.warps[j]? = some v → h'.warps[j]? = some v' →
    { v' with threads := v.threads } = v ∧ v'.threads.length = v.threads.length ∧
    ∀ (n : Nat) (u u' : Thread), v.threads[n]? = some u → v'.threads[n]? = some u' →
      u' = u ∨ ∃ c, u.wait = .entry c ∧ u' = { u with wait := .none }

/-! ### Exact values and their rounding (R112, R116, R117) -/

/-- The number n × 2^e. -/
def dyadic (n e : Int) : ℚ := n * (2 : ℚ) ^ e

/-- The value of a magnitude code of a format, its exponent unbounded above (R112, R116). -/
def Fmt.mag (f : Fmt) (c : Nat) : ℚ :=
  if c / 2 ^ f.m = 0 then dyadic c (1 - f.bias - f.m) else dyadic (2 ^ f.m + c % 2 ^ f.m : Nat) ((c / 2 ^ f.m : Nat) - f.bias - f.m)

/-- The magnitude code that a positive size rounds to in a format, before any overflow (R116): its own, or of the two beside it the one
that the mode takes for its sign. -/
def Fmt.takes (f : Fmt) (r : Rnd) (neg : Bool) (a : ℚ) (c : Nat) : Prop :=
  f.mag c = a ∨ ∃ k, f.mag k < a ∧ a < f.mag (k + 1) ∧ c =
    match r with
    | .rz => k
    | .ru => if neg then k else k + 1
    | .rd => if neg then k + 1 else k
    | .rne =>
      if a - f.mag k < f.mag (k + 1) - a then k else if f.mag (k + 1) - a < a - f.mag k then k + 1 else if k % 2 = 0 then k else k + 1

/-- The integer that a number rounds to (R117, R135). -/
def roundsTo (r : Rnd) (z : ℚ) (m : Int) : Prop :=
  match r with
  | .rz => m = if 0 ≤ z then ⌊z⌋ else ⌈z⌉
  | .ru => m = ⌈z⌉
  | .rd => m = ⌊z⌋
  | .rne => |z - m| ≤ 1 / 2 ∧ (|z - m| = 1 / 2 → m % 2 = 0)

/-! ### Entries of the error log -/

/-- One entry more stands in a die's error log: behind it, in the order they had, the entries that must follow it or one that follows it,
and before it all others, in theirs (R402). -/
def State.logged (s t : State) (die : Nat) (P : LogE → Prop) : Prop :=
  let old := (nth s.mgmt.logs die {}).entries
  ∃ e es rest, (nth t.mgmt.logs die {}).entries = es ++ e :: rest ∧ (es ++ rest).Perm old ∧ es.Sublist old ∧ rest.Sublist old ∧
    (∀ x ∈ es, x.behind e = false) ∧ (∀ x ∈ rest, x.behind e = true ∨ ∃ y ∈ rest, x.behind y = true) ∧ P e

/-- A die's error log has room (R402). -/
def State.logRoom (s : State) (die : Nat) : Prop :=
  s.mgmt.logs.length = 4 ∧ die < 4 ∧ (nth s.mgmt.logs die {}).entries.length < 4096

end Sys2Proof.Machine
end

