-- ==== Sys2Proof/Certificates/Slice0/Obligations.lean ====
section
/-!
DEFINITION. The statements about the model. An instruction's statement has its result, its completion and its frame in one: `Computes`,
`Plainly`, `Leaves`, `Keeps` and `Sends` (Safety) say what a completed issue leaves as it was. A statement says in its docstring
which rules it formalises, and where it rests on a choice of the model it names the log entry.
-/
open Sys2Proof Sys2Proof.Machine

/-- R91, R94: iadd, isub, imul, imulh, imad, imad64, iabs, imin, imax and lea write D with the exact result on num(x), wrapped or, with
`.sat`, clamped, and change nothing else.
A scalar D is written once, from the lowest guard-true thread (log entry 14, the model's choice).

R92: iaddc and isubb write the wrapped sum or difference with the carry in, and g[CO] with the carry or borrow out; the carry in is
read before g[CO] is written (R83), and g0 discards the write (R24). -/
def Obligations.IntegerArithmeticComputes : Prop :=
  (∀ (h : Hdr) (x : VOps) (t : Ty) (sat : Bool) (sh : BitVec 3),
    let w := t.words
    let num := fun (s : State) (i : Iss) (o : Opnd) (th : Thread) => numOf t (i.arg s x.imm o w th)
    let wrap := fun (v : Int) => wrapN (tyBits t) v
    let narrow := fun (v : Int) => if sat then satOf t v else wrapN (tyBits t) v
    Computes (.iadd h x t sat) h x.d w (flds x w w 0) x.imm (fun s i th => narrow (num s i x.a th + num s i x.b th)) ∧
    Computes (.isub h x t sat) h x.d w (flds x w w 0) x.imm (fun s i th => narrow (num s i x.a th - num s i x.b th)) ∧
    Computes (.imul h x t) h x.d w (flds x w w 0) x.imm (fun s i th => wrap (num s i x.a th * num s i x.b th)) ∧
    Computes (.imulh h x t) h x.d w (flds x w w 0) x.imm
      (fun s i th => wrap (num s i x.a th * num s i x.b th / (2 ^ tyBits t : Nat))) ∧
    Computes (.imin h x t) h x.d w (flds x w w 0) x.imm (fun s i th => wrap (min (num s i x.a th) (num s i x.b th))) ∧
    Computes (.imax h x t) h x.d w (flds x w w 0) x.imm (fun s i th => wrap (max (num s i x.a th) (num s i x.b th))) ∧
    Computes (.imad h x t) h x.d w (flds x w w w) x.imm
      (fun s i th => wrap (num s i x.a th * num s i x.b th + num s i x.c th)) ∧
    Computes (.imad64 h x t) h x.d 2 (flds x 1 1 2) x.imm
      (fun s i th => wrapN 64 (numOf t (i.arg s x.imm x.a 1 th) * numOf t (i.arg s x.imm x.b 1 th) + i.arg s x.imm x.c 2 th)) ∧
    Computes (.iabs h x t sat) h x.d w (flds x w 0 0) x.imm (fun s i th => narrow |num s i x.a th|) ∧
    Computes (.lea h x t sh) h x.d 2 (flds x 2 w 0) x.imm
      (fun s i th => wrapN 64 (i.arg s x.imm x.a 2 th + num s i x.b th * 2 ^ sh.toNat))) ∧
  (∀ (h : Hdr) (x : VOps) (t : Ty) (ci : Option (BitVec 3)) (co : BitVec 3),
    let w := t.words
    let cin := fun (th : Thread) => match ci with | none => 0 | some g => if th.guard g then 1 else 0
    let sum := fun (s : State) (i : Iss) (th : Thread) => i.arg s x.imm x.a w th + i.arg s x.imm x.b w th + cin th
    let diff := fun (s : State) (i : Iss) (th : Thread) => (i.arg s x.imm x.a w th : Int) - i.arg s x.imm x.b w th - cin th
    Plainly (.iaddc h x t ci co) h x.d w (flds x w w 0) x.imm false
      (fun s i th u => u.setGuard co (decide (2 ^ tyBits t ≤ sum s i th))) (fun s i th => sum s i th % 2 ^ tyBits t) ∧
    Plainly (.isubb h x t ci co) h x.d w (flds x w w 0) x.imm false
      (fun s i th u => u.setGuard co (decide (diff s i th < 0))) (fun s i th => wrapN (tyBits t) (diff s i th)))

/-- R95: and, or, xor, andn, the shifts shl, shr and sar, rotl and fsh write D with the bit vector operation of their names, and change
nothing else; a count of w or more gives 0, and sar's stops at w - 1. A scalar D is written once, from the lowest guard-true thread (log entry 14, the model's
choice).

R95 to R98: lmux, bfx, bfi, popc, clz, brev and bperm write D with these values, bit by bit or byte by byte, and change nothing
else. -/
def Obligations.LogicComputes : Prop :=
  (∀ (h : Hdr) (x : VOps) (t : Ty), t.isInt = true →
    let w := t.words
    let bv := fun (s : State) (i : Iss) (o : Opnd) (th : Thread) => BitVec.ofNat (tyBits t) (i.arg s x.imm o w th)
    let cnt := fun (s : State) (i : Iss) (o : Opnd) (th : Thread) => i.arg s x.imm o 1 th % 256
    Computes (.and h x t) h x.d w (flds x w w 0) x.imm (fun s i th => (bv s i x.a th &&& bv s i x.b th).toNat) ∧
    Computes (.or h x t) h x.d w (flds x w w 0) x.imm (fun s i th => (bv s i x.a th ||| bv s i x.b th).toNat) ∧
    Computes (.xor h x t) h x.d w (flds x w w 0) x.imm (fun s i th => (bv s i x.a th ^^^ bv s i x.b th).toNat) ∧
    Computes (.andn h x t) h x.d w (flds x w w 0) x.imm (fun s i th => (bv s i x.a th &&& ~~~(bv s i x.b th)).toNat) ∧
    Computes (.shl h x t) h x.d w (flds x w 1 0) x.imm (fun s i th => (bv s i x.a th <<< cnt s i x.b th).toNat) ∧
    Computes (.shr h x t) h x.d w (flds x w 1 0) x.imm (fun s i th => (bv s i x.a th >>> cnt s i x.b th).toNat) ∧
    Computes (.sar h x t) h x.d w (flds x w 1 0) x.imm
      (fun s i th => ((bv s i x.a th).sshiftRight (min (cnt s i x.b th) (tyBits t - 1))).toNat) ∧
    Computes (.rotl h x t) h x.d w (flds x w 1 0) x.imm
      (fun s i th => ((bv s i x.a th).rotateLeft (cnt s i x.b th % tyBits t)).toNat) ∧
    Computes (.fsh h x t) h x.d w (flds x w w 1) x.imm
      (fun s i th => (((bv s i x.b th ++ bv s i x.a th) >>> min (cnt s i x.c th) (tyBits t)).setWidth (tyBits t)).toNat)) ∧
  (∀ (h : Hdr) (x : VOps) (t : Ty), t.isInt = true →
    let w := t.words
    let n := tyBits t
    let bit := fun (s : State) (i : Iss) (o : Opnd) (th : Thread) (k : Nat) => (i.arg s x.imm o w th).testBit k
    (∀ f1 f0, ∃ v, Computes (.lmux h x t f1 f0) h x.d w (flds x w w w) x.imm v ∧ ∀ s i th, v s i th < 2 ^ n ∧ ∀ k < n,
      (v s i th).testBit k =
        (if bit s i x.c th k then f1 else f0).getLsbD (2 * (bit s i x.a th k).toNat + (bit s i x.b th k).toNat)) ∧
    (∃ v, Computes (.bfi h x t) h x.d w (flds x w w 1) x.imm v ∧ ∀ s i th,
      let pos := i.arg s x.imm x.c 1 th % 256
      let len := min (i.arg s x.imm x.c 1 th / 256 % 256) n
      v s i th < 2 ^ n ∧ ∀ k < n, (v s i th).testBit k =
        if pos ≤ k ∧ k < pos + len then bit s i x.b th (k - pos) else bit s i x.a th k) ∧
    (∃ v, Computes (.bfx h x t) h x.d w (flds x w 1 0) x.imm v ∧ ∀ s i th,
      let pos := i.arg s x.imm x.b 1 th % 256
      let len := min (i.arg s x.imm x.b 1 th / 256 % 256) n
      let ext := fun k => if k < n then bit s i x.a th k else tySigned t && bit s i x.a th (n - 1)
      v s i th < 2 ^ n ∧ ∀ k < n, (v s i th).testBit k =
        if len = 0 then false else if k < len then ext (pos + k) else tySigned t && ext (pos + len - 1)) ∧
    Computes (.popc h x t) h x.d 1 (flds x w 0 0) x.imm
      (fun s i th => ((List.range n).map fun k => (bit s i x.a th k).toNat).sum) ∧
    Computes (.clz h x t) h x.d 1 (flds x w 0 0) x.imm (fun s i th => n - (i.arg s x.imm x.a w th).size) ∧
    Computes (.brev h x t) h x.d w (flds x w 0 0) x.imm
      (fun s i th => (BitVec.ofNat n (i.arg s x.imm x.a w th)).reverse.toNat) ∧
    (∃ v, Computes (.bperm h x t) h x.d 1 (flds x 1 1 1) x.imm v ∧ ∀ s i th,
      let a := i.arg s x.imm x.a 1 th
      let b := i.arg s x.imm x.b 1 th
      let c := i.arg s x.imm x.c 1 th
      v s i th < 2 ^ 32 ∧ ∀ k < 4,
        let j := c / 2 ^ (4 * k) % 8
        let byte := if j < 4 then a / 2 ^ (8 * j) % 256 else b / 2 ^ (8 * (j - 4)) % 256
        v s i th / 2 ^ (8 * k) % 256 = if c.testBit (4 * k + 3) then (if 128 ≤ byte then 255 else 0) else byte))

/-- R99 to R102: icmp, ucmp and fcmp write g[DG] with the condition as CMB combines it with the old g[DG]; gop writes g[GD] with
LUT[4 g[GA] + 2 g[GB] + g[GC]]; gunpk writes g1 to g7 from the bits of A; gpack writes D with the eight guards, g0 as one. Nothing else
changes. A scalar D is written once, from the lowest guard-true thread (log entry 14, the model's choice).

R103 to R105: sel writes D with A or B by a guard, mov with A, movi with IMM32, movsp with the special register whose index A holds
where that is one; wrsp to $dcs takes the value, to $pwerr clears the bits that are one, and to any other special register is ignored.
Nothing else changes. -/
def Obligations.GuardsAndMovesCompute : Prop :=
  (∀ (h : Hdr) (x : VOps) (t : Ty) (c : Cond) (dg : BitVec 3) (cm : Cmb),
    let w := t.words
    let holds := fun (o : Ordering) => match c with
      | .eq => o == .eq | .ne => o != .eq | .lt => o == .lt | .le => o != .gt | .gt => o == .gt | .ge => o != .lt
      | .un => false | .ord => true
    let writes := fun (th u : Thread) (b : Bool) =>
      u.setGuard dg (match cm with | .set => b | .and => th.guard dg && b | .or => th.guard dg || b)
    let int := fun (s : State) (i : Iss) (th u : Thread) =>
      writes th u (holds (compare (numOf t (i.arg s x.imm x.a w th)) (numOf t (i.arg s x.imm x.b w th))))
    Plainly (.icmp h x t c dg cm) h x.d 0 (flds x w w 0) x.imm false int (fun _ _ _ => 0) ∧
    Plainly (.ucmp h x t c dg cm) h x.d 0 (flds x w w 0) x.imm false int (fun _ _ _ => 0) ∧
    Plainly (.fcmp h x c dg cm) h x.d 0 (flds x 1 1 0) x.imm false
      (fun s i th u => writes th u (condFloat c (fp32.decode (i.arg s x.imm x.a 1 th)) (fp32.decode (i.arg s x.imm x.b 1 th))))
      (fun _ _ _ => 0) ∧
    Plainly (.gop h x) h x.d 0 (flds x 0 0 0) x.imm false
      (fun _ _ th u =>
        let g := fun k => (th.guard (x.imm.extractLsb' k 3)).toNat
        u.setGuard (x.imm.extractLsb' 0 3) (x.imm.getLsbD (12 + 4 * g 3 + 2 * g 6 + g 9))) (fun _ _ _ => 0) ∧
    Plainly (.gunpk h x) h x.d 0 (flds x 1 0 0) x.imm false
      (fun s i th u => { u with g := (BitVec.ofNat 8 (i.arg s x.imm x.a 1 th) &&& 0xFE#8) ||| (u.g &&& 1#8) }) (fun _ _ _ => 0) ∧
    Computes (.gpack h x) h x.d 1 (flds x 0 0 0) x.imm (fun _ _ th => (th.g ||| 1#8).toNat)) ∧
  (∀ (h : Hdr) (x : VOps) (t : Ty) (sg : BitVec 3) (sn : Bool),
    let w := t.words
    Computes (.sel h x t sg sn) h x.d w (flds x w w 0) x.imm
      (fun s i th => if xor (th.guard sg) sn then i.arg s x.imm x.a w th else i.arg s x.imm x.b w th) ∧
    Computes (.mov h x t) h x.d w (flds x w 0 0) x.imm (fun s i th => i.arg s x.imm x.a w th) ∧
    (∀ k : KOps, Computes (.movi h k) h k.d 1 [⟨.none, 0⟩, ⟨.none, 0⟩, ⟨.none, 0⟩] 0 (fun _ _ _ => k.imm.toNat)) ∧
    (∀ (s : State) (i : Iss), Issues s h i →
      (∀ th ∈ i.writers x.d, i.ready s (flds x 1 0 0) [⟨x.d, 1⟩] false x.imm th ∧
        i.arg s x.imm x.a 1 th < 0x100 ∧ s.special i.g i.w th (i.arg s x.imm x.a 1 th) ≠ none) →
      let v := fun th => (s.special i.g i.w th (i.arg s x.imm x.a 1 th)).getD 0
      ∃ t, exec (.movsp h x) s = .next t ∧
        Keeps s t i (i.scalars (i.writers x.d) x.d 1 v) (i.plainThread s x.d 1 (flds x 1 0 0) x.imm (fun _ th => th) v)) ∧
    (∀ k, x.d = .sr k → Plainly (.wrsp h x) h x.d 0 (flds x 1 0 0) x.imm false
      (fun s i th u =>
        let v := i.arg s x.imm x.a 1 th
        if k = 0x0D then { u with dcs := BitVec.ofNat 32 v }
        else if k = 0x0C then { u with pwerr := u.pwerr &&& ~~~(BitVec.ofNat 8 v) }
        else u) (fun _ _ _ => 0)))

/-- R82: num(x) is the two's complement or the unsigned number of a pattern, wrap(v) the pattern of v mod 2^w, satw(v) the pattern of v
clamped to the type's range: for the four types of groups 1 to 3, in the terms of Lean's bit vectors.

R112, R113, R116 to R118, R126: codes, exact sums and products, and rounding. A code has the value of its sign and magnitude, or is an
infinity or NaN, as the table of R112 says. Sums and products of finite values are exact. A nonzero value takes its own code, or the
neighbour that the mode picks, and past the largest finite one an infinity or that one as overflow() says; narrow() stops at the largest
finite code in every mode. Zeros, infinities and NaN take the codes of R113, R117 and R118.

R112, R116: rounding the value of a finite nonzero code of FP32, FP16, BF16 or S24 gives that code back in every mode, and rounding a
zero that carries its sign gives that zero.

R241: what an atomic writes over an old word: the integer sum wrapped, the lesser or greater by TYPE, the bitwise results, the operand
(xchg), and the wrapping increment (incw); acas writes B where the old word is C. -/
def Obligations.NumberHelpersAgree : Prop :=
  (∀ (t : Ty), t.isInt = true → ∀ (v : Nat) (z : Int),
    numOf t v = (if tySigned t then (BitVec.ofNat (tyBits t) v).toInt else ((BitVec.ofNat (tyBits t) v).toNat : Int)) ∧
    wrapN (tyBits t) z = (BitVec.ofInt (tyBits t) z).toNat ∧
    let lo : Int := if tySigned t then -2 ^ (tyBits t - 1) else 0
    let hi : Int := if tySigned t then 2 ^ (tyBits t - 1) - 1 else 2 ^ tyBits t - 1
    numOf t (satOf t z) = if z < lo then lo else if hi < z then hi else z) ∧
  (let wide := [fp32, fp16, bf16, s24]
  let short := [e4m3, e5m2, e2m1]
  let signed := fun (f : Machine.Fmt) (neg : Bool) (c : Nat) => (if neg then 2 ^ (f.eb + f.m) else 0) + c
  (wide.map fun f => (f.eb, f.m, f.bias, f.top, f.inf, f.nan)) =
    [(8, 23, 127, 0x7F7FFFFF, true, 0x7FC00000), (5, 10, 15, 0x7BFF, true, 0x7E00), (8, 7, 127, 0x7F7F, true, 0x7FC0),
     (8, 15, 127, 0x7F7FFF, true, 0x7FC000)] ∧
  (short.map fun f => (f.eb, f.m, f.bias, f.top, f.inf, f.nan)) =
    [(4, 3, 7, 0x7E, false, 0x7F), (5, 2, 15, 0x7B, true, 0x7E), (2, 1, 1, 0x7, false, 0)] ∧
  (∀ f ∈ wide ++ short, ∀ (neg : Bool) (c : Nat), c < 2 ^ (f.eb + f.m) →
    (c = 0 → f.decode (signed f neg c) = if neg then .negZero else .num 0 0) ∧
    (0 < c → c ≤ f.top → ∃ n e, f.decode (signed f neg c) = .num n e ∧ dyadic n e = if neg then - f.mag c else f.mag c) ∧
    (f.top < c → f.decode (signed f neg c) = if f.inf = true ∧ c = f.top + 1 then .inf neg else .nan)) ∧
  (∀ a e b k : Int,
    (∃ n q, (Exact.num a e).add (.num b k) = .num n q ∧ dyadic n q = dyadic a e + dyadic b k) ∧
    (a ≠ 0 → b ≠ 0 → ∃ n q, (Exact.num a e).mul (.num b k) = .num n q ∧ dyadic n q = dyadic a e * dyadic b k)) ∧
  (∀ x y : Exact, x.isZero = true → (y.isZero = true ∨ ∃ b k, y = .num b k) →
    x.mul y = (if x.isNeg = y.isNeg then .num 0 0 else .negZero) ∧ (x.add y = .negZero ↔ x = .negZero ∧ y = .negZero)) ∧
  ∀ (r : Rnd),
    (∀ f ∈ wide ++ short, f.round r .nan = f.nan ∧ f.round r .negZero = signed f true 0 ∧
      ∀ e, f.round r (.num 0 e) = signed f (r = .rd) 0) ∧
    (∀ f ∈ short, f.narrow r .nan = f.nan ∧ f.narrow r .negZero = signed f true 0 ∧ (∀ e, f.narrow r (.num 0 e) = signed f (r = .rd) 0) ∧
      ∀ neg, f.narrow r (.inf neg) = signed f neg (if f.inf then f.top + 1 else f.top)) ∧
    (∀ f ∈ wide, ∀ neg, f.round r (.inf neg) = signed f neg (f.top + 1)) ∧
    ∀ n e : Int, n ≠ 0 →
      let neg := decide (n < 0)
      (∀ f ∈ wide, ∃ c, f.takes r neg |dyadic n e| c ∧ f.round r (.num n e) =
        if c ≤ f.top then signed f neg c
        else if r = .rne ∨ (r = .ru ∧ 0 < n) ∨ (r = .rd ∧ n < 0) then signed f neg (f.top + 1) else signed f neg f.top) ∧
      ∀ f ∈ short, ∃ c, f.takes r neg |dyadic n e| c ∧ f.narrow r (.num n e) = signed f neg (min c f.top)) ∧
  (∀ f ∈ [fp32, fp16, bf16, s24], ∀ (r : Rnd) (v : Nat), v < 2 * f.signBit →
    (∀ n e, f.decode v = .num n e → n ≠ 0 → f.round r (f.decode v) = v) ∧
    (f.decode v = .negZero → f.round r (f.decode v) = v)) ∧
  (∀ (t : Ty) (old b : Nat), t.isInt = true → old < 2 ^ tyBits t → b < 2 ^ tyBits t →
    let new := fun op => atomNew t op old b none atomFloat
    let n := tyBits t
    let le := fun (u v : Nat) => if tySigned t then (BitVec.ofNat n u).sle (BitVec.ofNat n v) else (BitVec.ofNat n u).ule (BitVec.ofNat n v)
    new .add = (old + b) % 2 ^ n ∧
    new .min = (if le old b then old else b) ∧
    new .max = (if le b old then old else b) ∧
    new .and = (BitVec.ofNat n old &&& BitVec.ofNat n b).toNat ∧
    new .or = (BitVec.ofNat n old ||| BitVec.ofNat n b).toNat ∧
    new .xor = (BitVec.ofNat n old ^^^ BitVec.ofNat n b).toNat ∧
    new .xchg = b ∧
    new .incw = (if old ≥ b then 0 else old + 1) ∧
    ∀ c, atomNew t .xchg old b (some c) atomFloat = if old = c then b else old)

/-- R133: fadd, fsub, fmul and ffma write D with the exact result rounded once into FP32, and hadd2, hmul2 and hfma2 do so element by
element in FP16 or BF16; R134: fmin, fmax and their packed forms select one operand bit for bit. Nothing else changes. A
scalar D is written once, from the lowest guard-true thread (log entry 14, the model's choice).

R119, R135 to R137: fdiv, frcp, fsqrt, frsq, fexp2, flog2, frnd, fclass and fscale complete with the function of their names of the
value A holds (and B, for fdiv and fscale), and change nothing but D. What these functions are: fdiv, frcp, fsqrt and frsq round the exact
quotient or root once (no value below it rounds above the result, and none above it below), with the special cases of R119 by name; fexp2
and flog2 have theirs and are exact where the function is; in between, where the precision of log entry 20 decides their rounding, the
model's choice, they lie between the results for the integers beside. frnd gives the integer its mode picks. (The quotient of an infinity and a
finite value, and the sign of a zero quotient, are log entry 27.) -/
def Obligations.FloatComputes : Prop :=
  (∀ (h : Hdr) (x : VOps) (t : Ty) (r : Rnd),
    let a := fun (s : State) (i : Iss) (th : Thread) => i.arg s x.imm x.a 1 th
    let b := fun (s : State) (i : Iss) (th : Thread) => i.arg s x.imm x.b 1 th
    let c := fun (s : State) (i : Iss) (th : Thread) => i.arg s x.imm x.c 1 th
    let val := fun (f : Machine.Fmt) (t : Ty) (v k : Nat) => f.decode (elem t v k)
    let selects := fun (mx : Bool) (f : Machine.Fmt) (p q : Nat) =>
      match f.decode p, f.decode q with
      | .nan, .nan => f.nan
      | .nan, _ => q
      | _, .nan => p
      | u, v =>
        match u.cmp v with
        | some .lt => if mx then q else p
        | some .gt => if mx then p else q
        | _ => if u.isNeg = v.isNeg then p else if u.isNeg = mx then q else p
    Computes (.fadd h x r) h x.d 1 (flds x 1 1 0) x.imm
      (fun s i th => fp32.round r ((fp32.decode (a s i th)).add (fp32.decode (b s i th)))) ∧
    Computes (.fsub h x r) h x.d 1 (flds x 1 1 0) x.imm
      (fun s i th => fp32.round r ((fp32.decode (a s i th)).add (fp32.decode (b s i th)).neg)) ∧
    Computes (.fmul h x r) h x.d 1 (flds x 1 1 0) x.imm
      (fun s i th => fp32.round r ((fp32.decode (a s i th)).mul (fp32.decode (b s i th)))) ∧
    Computes (.ffma h x r) h x.d 1 (flds x 1 1 1) x.imm
      (fun s i th => fp32.round r (((fp32.decode (a s i th)).mul (fp32.decode (b s i th))).add (fp32.decode (c s i th)))) ∧
    Computes (.fmin h x) h x.d 1 (flds x 1 1 0) x.imm (fun s i th => selects false fp32 (a s i th) (b s i th)) ∧
    Computes (.fmax h x) h x.d 1 (flds x 1 1 0) x.imm (fun s i th => selects true fp32 (a s i th) (b s i th)) ∧
    Computes (.hadd2 h x t r) h x.d 1 (flds x 1 1 0) x.imm (fun s i th => mapEls t fun k =>
      (fmtOf t).round r ((val (fmtOf t) t (a s i th) k).add (val (fmtOf t) t (b s i th) k))) ∧
    Computes (.hmul2 h x t r) h x.d 1 (flds x 1 1 0) x.imm (fun s i th => mapEls t fun k =>
      (fmtOf t).round r ((val (fmtOf t) t (a s i th) k).mul (val (fmtOf t) t (b s i th) k))) ∧
    Computes (.hfma2 h x t r) h x.d 1 (flds x 1 1 1) x.imm (fun s i th => mapEls t fun k =>
      (fmtOf t).round r (((val (fmtOf t) t (a s i th) k).mul (val (fmtOf t) t (b s i th) k)).add (val (fmtOf t) t (c s i th) k))) ∧
    Computes (.hmin2 h x t) h x.d 1 (flds x 1 1 0) x.imm
      (fun s i th => mapEls t fun k => selects false (fmtOf t) (elem t (a s i th) k) (elem t (b s i th) k)) ∧
    Computes (.hmax2 h x t) h x.d 1 (flds x 1 1 0) x.imm
      (fun s i th => mapEls t fun k => selects true (fmtOf t) (elem t (a s i th) k) (elem t (b s i th) k))) ∧
  ((∀ (h : Hdr) (x : VOps) (r : Rnd),
    let a := fun (s : State) (i : Iss) (th : Thread) => i.arg s x.imm x.a 1 th
    let b := fun (s : State) (i : Iss) (th : Thread) => i.arg s x.imm x.b 1 th
    Computes (.fdiv h x r) h x.d 1 (flds x 1 1 0) x.imm
      (fun s i th => fdivN r (fp32.decode (a s i th)) (fp32.decode (b s i th))) ∧
    Computes (.frcp h x r) h x.d 1 (flds x 1 0 0) x.imm (fun s i th => frcpN r (fp32.decode (a s i th))) ∧
    Computes (.fsqrt h x r) h x.d 1 (flds x 1 0 0) x.imm (fun s i th => fsqrtN r (fp32.decode (a s i th))) ∧
    Computes (.frsq h x r) h x.d 1 (flds x 1 0 0) x.imm (fun s i th => frsqN r (fp32.decode (a s i th))) ∧
    Computes (.fexp2 h x r) h x.d 1 (flds x 1 0 0) x.imm (fun s i th => fexp2N r (fp32.decode (a s i th))) ∧
    Computes (.flog2 h x r) h x.d 1 (flds x 1 0 0) x.imm (fun s i th => flog2N r (fp32.decode (a s i th))) ∧
    Computes (.frnd h x r) h x.d 1 (flds x 1 0 0) x.imm (fun s i th => frndN r (a s i th)) ∧
    (∃ v, Computes (.fclass h x) h x.d 1 (flds x 1 0 0) x.imm v ∧ ∀ s i th,
      let e := a s i th / 2 ^ 23 % 256
      let f := a s i th % 2 ^ 23
      let sign := (a s i th).testBit 31
      v s i th = 2 ^ (if e = 255 ∧ f = 0 then (if sign then 0 else 7)
        else if e = 255 then (if f < 2 ^ 22 then 8 else 9)
        else if e = 0 ∧ f = 0 then (if sign then 3 else 4)
        else if e = 0 then (if sign then 2 else 5)
        else if sign then 1 else 6)) ∧
    (∃ v, Computes (.fscale h x r) h x.d 1 (flds x 1 1 0) x.imm v ∧ ∀ s i th,
      v s i th = match fp32.decode (a s i th) with
        | .nan => 0x7FC00000
        | .num n e => if n = 0 then a s i th else fp32.round r (.num n (e + (BitVec.ofNat 32 (b s i th)).toInt))
        | _ => a s i th)) ∧
  ∀ (r : Rnd),
    let val := fun (n e : Int) => (n : ℚ) * (2 : ℚ) ^ e
    let key := fun (c : Nat) => if c < 2 ^ 31 then (c : Int) else 2 ^ 31 - c
    let inf := fun (neg : Bool) => if neg then 0xFF800000 else 0x7F800000
    let zero := fun (neg : Bool) => if neg then 0x80000000 else 0
    let finite := fun (y : Exact) => ∀ s, y ≠ .nan ∧ y ≠ .inf s
    let rounds := fun (c : Nat) (below above : ℚ → Prop) => ∀ p q : Int,
      (below (val p q) → key (fp32.round r (.num p q)) ≤ key c) ∧ (above (val p q) → key c ≤ key (fp32.round r (.num p q)))
    (∀ y, fdivN r .nan y = 0x7FC00000 ∧ fdivN r y .nan = 0x7FC00000) ∧
    (∀ s s' y, fdivN r (.inf s) (.inf s') = 0x7FC00000 ∧
      (finite y → fdivN r (.inf s) y = inf (s != y.isNeg) ∧ key (fdivN r y (.inf s)) = 0)) ∧
    (∀ y z : Exact, z.isZero = true →
      (y.isZero = true → fdivN r y z = 0x7FC00000) ∧ (y.isZero = false → finite y → fdivN r y z = inf (y.isNeg != z.isNeg))) ∧
    (∀ a b n e m k, fp32.decode a = .num n e → fp32.decode b = .num m k → n ≠ 0 → m ≠ 0 →
      (fdivN r (.num n e) (.num m k)).testBit 31 = (decide (n < 0) != decide (m < 0)) ∧
      rounds (fdivN r (.num n e) (.num m k)) (· ≤ val n e / val m k) (val n e / val m k ≤ ·)) ∧
    frcpN r .nan = 0x7FC00000 ∧ (∀ s, frcpN r (.inf s) = zero s) ∧ (∀ z : Exact, z.isZero = true → frcpN r z = inf z.isNeg) ∧
    (∀ b m k, fp32.decode b = .num m k → m ≠ 0 → rounds (frcpN r (.num m k)) (· ≤ 1 / val m k) (1 / val m k ≤ ·)) ∧
    fsqrtN r .nan = 0x7FC00000 ∧ fsqrtN r .negZero = 0x80000000 ∧ fsqrtN r (.inf false) = 0x7F800000 ∧
    fsqrtN r (.inf true) = 0x7FC00000 ∧
    frsqN r .nan = 0x7FC00000 ∧ (∀ z : Exact, z.isZero = true → frsqN r z = inf z.isNeg) ∧ frsqN r (.inf false) = 0 ∧
    frsqN r (.inf true) = 0x7FC00000 ∧
    (∀ a n e, fp32.decode a = .num n e → n ≠ 0 →
      (n < 0 → fsqrtN r (.num n e) = 0x7FC00000 ∧ frsqN r (.num n e) = 0x7FC00000 ∧ flog2N r (.num n e) = 0x7FC00000) ∧
      (0 < n →
        rounds (fsqrtN r (.num n e)) (fun z => z ≤ 0 ∨ z * z ≤ val n e) (fun z => 0 ≤ z ∧ val n e ≤ z * z) ∧
        rounds (frsqN r (.num n e)) (fun z => z ≤ 0 ∨ z * z * val n e ≤ 1) (fun z => 0 ≤ z ∧ 1 ≤ z * z * val n e)) ∧
      (∀ m : Int, val n e = m → fexp2N r (.num n e) = fp32.round r (.num 1 (max (-400) (min 400 m)))) ∧
      (∀ m : Int, m < val n e → val n e < m + 1 → -400 < m → m < 400 →
        key (fp32.round .rz (.num 1 m)) ≤ key (fexp2N r (.num n e)) ∧ key (fexp2N r (.num n e)) ≤ key (fp32.round .ru (.num 1 (m + 1)))) ∧
      (∀ m : Int, 0 < n → val n e = (2 : ℚ) ^ m → flog2N r (.num n e) = if m = 0 then 0 else fp32.round r (.num m 0)) ∧
      (∀ m : Int, (2 : ℚ) ^ m < val n e → val n e < (2 : ℚ) ^ (m + 1) →
        key (fp32.round r (.num m 0)) ≤ key (flog2N r (.num n e)) ∧ key (flog2N r (.num n e)) ≤ key (fp32.round r (.num (m + 1) 0)))) ∧
    fexp2N r .nan = 0x7FC00000 ∧ fexp2N r (.inf true) = 0 ∧ fexp2N r (.inf false) = 0x7F800000 ∧
    (∀ z : Exact, z.isZero = true → fexp2N r z = 0x3F800000 ∧ flog2N r z = 0xFF800000) ∧
    flog2N r .nan = 0x7FC00000 ∧ flog2N r (.inf false) = 0x7F800000 ∧ flog2N r (.inf true) = 0x7FC00000 ∧
    (∀ a, fp32.decode a = .nan → frndN r a = 0x7FC00000) ∧
    (∀ a, (∃ s, fp32.decode a = .inf s) ∨ (fp32.decode a).isZero = true → frndN r a = a) ∧
    ∀ a n e, a < 2 ^ 32 → fp32.decode a = .num n e → n ≠ 0 →
      (2 ^ 23 ≤ |val n e| → frndN r a = a) ∧ (frndN r a < 2 ^ 31 ↔ 0 < n) ∧
      ∃ m : Int,
        (∃ p q, fp32.decode (frndN r a % 2 ^ 31) = .num p q ∧ val p q = |m|) ∧ (0 < n → 0 ≤ m) ∧ (n < 0 → m ≤ 0) ∧
        (r = .rz → |(m : ℚ)| ≤ |val n e| ∧ |val n e| < |(m : ℚ)| + 1) ∧ (r = .ru → m = ⌈val n e⌉) ∧ (r = .rd → m = ⌊val n e⌋) ∧
        (r = .rne → |val n e - m| ≤ 1 / 2 ∧ (|val n e - m| = 1 / 2 → m % 2 = 0)))

/-- R124, R138, R139, R141: the packed integer forms act on each element, wrapped or, with `.sat`, clamped to the element's range; dot4 and dot8
add the pairwise products to C, wrapping for integers and rounding the exact sum once to FP32 for floats; acs2 writes the survivors and
shifts their decisions into $dcs. Nothing else changes. A scalar D is written once, from the lowest guard-true thread (log entry 14,
the model's choice). -/
def Obligations.PackedComputes : Prop :=  ∀ (h : Hdr) (x : VOps) (t : Ty) (bt : Option Ty) (sat : Bool),
    let a := fun (s : State) (i : Iss) (th : Thread) => i.arg s x.imm x.a 1 th
    let b := fun (s : State) (i : Iss) (th : Thread) => i.arg s x.imm x.b 1 th
    let c := fun (s : State) (i : Iss) (th : Thread) => i.arg s x.imm x.c 1 th
    let lo : Int := if tySigned t then -2 ^ (elBits t - 1) else 0
    let hi : Int := if tySigned t then 2 ^ (elBits t - 1) - 1 else 2 ^ elBits t - 1
    let clamp := fun (v : Int) => wrapN (elBits t) (max lo (min hi v))
    let narrow := fun (v : Int) => if sat then clamp v else wrapN (elBits t) v
    let each := fun (f : Int → Int → Nat) (s : State) (i : Iss) (th : Thread) =>
      mapEls t fun k => f (elNum t (a s i th) k) (elNum t (b s i th) k)
    let elems := fun (ins : Instr) (f : Int → Int → Nat) => Computes ins h x.d 1 (flds x 1 1 0) x.imm (each f)
    let dot := fun (n : Nat) (s : State) (i : Iss) (th : Thread) =>
      if t.isInteger then
        wrapN 32 ((List.range n).foldl (fun z k => z + elNum t (a s i th) k * elNum (bt.getD t) (b s i th) k)
          (signedN 32 (c s i th)))
      else fp32.round .rne (Exact.sum (fp32.decode (c s i th) ::
        (List.range n).map fun k => (elVal t (a s i th) k).mul (elVal (bt.getD t) (b s i th) k)))
    let c0 := fun s i th k => clamp (elNum t (a s i th) k + (c s i th / 2 ^ (16 * k) % 256 : Nat))
    let c1 := fun s i th k => clamp (elNum t (b s i th) k + (c s i th / 2 ^ (16 * k + 8) % 256 : Nat))
    let less := fun s i th k => decide (elNum t (c1 s i th k) 0 < elNum t (c0 s i th k) 0)
    elems (.vadd2 h x t sat) (fun u v => narrow (u + v)) ∧ elems (.vsub2 h x t sat) (fun u v => narrow (u - v)) ∧
    elems (.vmin2 h x t) (fun u v => wrapN (elBits t) (min u v)) ∧ elems (.vmax2 h x t) (fun u v => wrapN (elBits t) (max u v)) ∧
    elems (.vabsd2 h x t) (fun u v => wrapN (elBits t) |u - v|) ∧
    elems (.vadd4 h x t sat) (fun u v => narrow (u + v)) ∧ elems (.vsub4 h x t sat) (fun u v => narrow (u - v)) ∧
    elems (.vmin4 h x t) (fun u v => wrapN (elBits t) (min u v)) ∧ elems (.vmax4 h x t) (fun u v => wrapN (elBits t) (max u v)) ∧
    Computes (.dot4 h x t bt) h x.d 1 (flds x 1 1 1) x.imm (dot 4) ∧
    Computes (.dot8 h x t bt) h x.d 1 (flds x 1 1 1) x.imm (dot 8) ∧
    Plainly (.acs2 h x t) h x.d 1 (flds x 1 1 1) x.imm false
      (fun s i th u => { u with dcs := BitVec.ofNat 32 (u.dcs.toNat * 4 + 2 * (less s i th 1).toNat + (less s i th 0).toNat) })
      (fun s i th => mapEls t fun k => if less s i th k then c1 s i th k else c0 s i th k)

/-- R142 to R145, R151: cvt, cvtp, cvtn, cvtw and scl write D with A's values converted, each rounded or clamped once into D's type, and
change nothing else. A scalar D is written once, from the lowest guard-true thread (log entry 14, the model's choice).

R100, R114, R115, R117, R123, R142 to R145: what conversions and the float compare compute. A value becomes an integer by its mode and is
clamped to the range, NaN is 0; a float or an S24, whose low byte is zero, or an element of one, is rounded or narrowed; widening keeps every
value, sign and infinity. The scale of hqs is the least S24 code not below the largest magnitude over the format's largest finite value,
and a code of hq the quotient by it, rounded once. fcmp orders finite values and infinities as numbers, zeros alike, and a NaN meets `.ne`
and `.un` only. (What hq does under a negative scale is log entry 27.)

R120, R123, R146 to R150: hqs, hq and hdq complete in a row whose sixteen lanes all take part, where every lane writes its own D and
nothing else changes. hqs writes the scale of R123 for the rotated block of the row; hq the codes of R123 for the lane's own values of that
block under the lane's own scale, in the elements POS names, the others kept; hdq the rotation of the row's dequantised values, the exact
sum over n rounded once. (R131 refuses a scalar D at decode.) -/
def Obligations.ConversionsCompute : Prop :=
  (∀ (h : Hdr) (x : VOps) (t src : Ty) (r : Rnd) (div : Div),
    let a := fun (s : State) (i : Iss) (th : Thread) => i.arg s x.imm x.a 1 th
    let b := fun (s : State) (i : Iss) (th : Thread) => i.arg s x.imm x.b 1 th
    let c := fun (s : State) (i : Iss) (th : Thread) => i.arg s x.imm x.c 1 th
    Computes (.cvt h x t src r) h x.d t.words (flds x src.words 0 0) x.imm
      (fun s i th => toScalar t r (ofScalar src (i.arg s x.imm x.a src.words th))) ∧
    Computes (.cvtp h x t r) h x.d 1 (flds x 1 1 1) x.imm (fun s i th =>
      let pos := x.imm.toNat % 4
      let one := fun v => toElem t r (ofScalar (if t.isInteger then .w32 else .f32) v)
      mapEls t fun k =>
        if k = 2 * pos + 1 then one (b s i th) else if k = 2 * pos then one (a s i th) else elem t (c s i th) k) ∧
    Computes (.cvtn h x t src r) h x.d 1 (flds x 1 1 0) x.imm (fun s i th =>
      mapEls t fun k => toElem t r
        (if k < elCount src then elVal src (a s i th) k else elVal src (b s i th) (k - elCount src))) ∧
    Computes (.cvtw h x t src) h x.d 1 (flds x 1 0 0) x.imm (fun s i th =>
      mapEls t fun k => wideElem t (elVal src (a s i th) (x.imm.toNat % 8 * elCount t + k))) ∧
    Computes (.scl h x t r div) h x.d 1 (flds x 1 1 1) x.imm (fun s i th =>
      toScalar t r (((fp32.decode (a s i th)).mul (regVal .s24 (c s i th))).scale
        (match div with | .d1 => 0 | .d16 => -4 | .d32 => -5)))) ∧
  (let value := fun (x : Exact) (z : ℚ) => (x = .negZero ∧ z = 0) ∨ ∃ n e, x = .num n e ∧ dyadic n e = z
  (∀ (r : Rnd) (t : Ty), t.isInteger = true →
    let w := if t.isInt then tyBits t else elBits t
    let lo : Int := if tySigned t then -2 ^ (w - 1) else 0
    let hi : Int := if tySigned t then 2 ^ (w - 1) - 1 else 2 ^ w - 1
    let becomes := fun (v : Nat) (m : Int) => v < 2 ^ w ∧ m = if tySigned t then (BitVec.ofNat w v).toInt else (v : Int)
    let converts := fun (f : Exact → Nat) => becomes (f .nan) 0 ∧ becomes (f .negZero) 0 ∧ becomes (f (.inf false)) hi ∧
      becomes (f (.inf true)) lo ∧ ∀ n e, ∃ m, roundsTo r (dyadic n e) m ∧ becomes (f (.num n e)) (max lo (min hi m))
    (t.isInt = true → converts (toScalar t r) ∧ ∀ v, ofScalar t v = .num (numOf t v) 0) ∧ (t.isInt = false → converts (toElem t r))) ∧
  (∀ (r : Rnd) (x : Exact) (v : Nat), toScalar .f32 r x = fp32.round r x ∧ toScalar .s24 r x = 256 * s24.round r x ∧
    ofScalar .f32 v = fp32.decode v ∧ (v < 2 ^ 32 → ofScalar .s24 v = s24.decode (v / 256)) ∧
    toElem .f16x2 r x = fp16.round r x ∧ toElem .bf16x2 r x = bf16.round r x ∧ toElem .e4m3x4 r x = e4m3.narrow r x ∧
    toElem .e5m2x4 r x = e5m2.narrow r x ∧ toElem .e2m1x8 r x = e2m1.narrow r x) ∧
  (∀ p ∈ ([(.e4m3x4, .f16x2), (.e4m3x4, .bf16x2), (.e4m3x4, .f32), (.e5m2x4, .f16x2), (.e5m2x4, .bf16x2), (.e5m2x4, .f32),
      (.e2m1x8, .e4m3x4), (.e2m1x8, .f16x2), (.e2m1x8, .bf16x2), (.e2m1x8, .f32), (.f16x2, .f32), (.bf16x2, .f32), (.n8, .b4),
      (.n8, .h2), (.n8, .w32), (.b4, .h2), (.b4, .w32), (.ub4, .uh2), (.ub4, .uw32), (.h2, .w32), (.uh2, .uw32)] : List (Ty × Ty)),
    ∀ v j, v < 2 ^ 32 → j < 32 / elBits p.1 →
      let x := elVal p.1 v j
      let y := wideElem p.2 x
      (x = .nan → y = (fmtOf p.2).nan) ∧ (∀ neg, x = .inf neg → elVal p.2 y 0 = .inf neg) ∧ (x = .negZero → elVal p.2 y 0 = .negZero) ∧
      ∀ n e, x = .num n e → ∃ q k, elVal p.2 y 0 = .num q k ∧ dyadic q k = dyadic n e) ∧
  (∀ f ∈ [(e4m3, 448), (e5m2, 57344), (e2m1, 6)], ∀ ys : List Exact,
    (.nan ∈ ys → blockScale f.1 ys = 0x7FC000) ∧ (.nan ∉ ys → (∃ neg, .inf neg ∈ ys) → blockScale f.1 ys = 0x7F8000) ∧
    ((∀ y ∈ ys, value y 0) → blockScale f.1 ys = 0) ∧
    (∀ (mx : ℚ) (y : Exact), 0 < mx → y ∈ ys → (value y mx ∨ value y (-mx)) → (∀ u ∈ ys, ∃ z, value u z ∧ |z| ≤ mx) →
      ∃ c, mx / (f.2 : ℕ) ≤ s24.mag c ∧ (∀ d < c, s24.mag d < mx / (f.2 : ℕ)) ∧ blockScale f.1 ys = min c 0x7F7FFF)) ∧
  (∀ f ∈ [e4m3, e5m2, e2m1], ∀ y : Exact, quantCode f y .nan = f.nan ∧ (∀ neg, quantCode f y (.inf neg) = f.nan) ∧
    (∀ z : Exact, z.isZero = true → quantCode f y z = 0) ∧
    ∀ a k : Int, 0 < a → (y = .nan → quantCode f y (.num a k) = f.nan) ∧
      (∀ neg, y = .inf neg → quantCode f y (.num a k) = (if neg then f.signBit else 0) + if f.inf then f.top + 1 else f.top) ∧
      (y = .negZero → quantCode f y (.num a k) = f.signBit) ∧ (∀ e, y = .num 0 e → quantCode f y (.num a k) = 0) ∧
      ∀ n e, y = .num n e → n ≠ 0 → ∃ c, f.takes .rne (n < 0) (|dyadic n e| / dyadic a k) c ∧
        quantCode f y (.num a k) = (if n < 0 then f.signBit else 0) + min c f.top) ∧
  ∀ (c : Cond) (x y : Exact),
    let at_ := fun (x : Exact) => (match x with | .inf neg => if neg then -1 else 1 | _ => 0 : Int)
    let less := fun (x y : Exact) => at_ x < at_ y ∨ (at_ x = 0 ∧ at_ y = 0 ∧ ∃ u v, value x u ∧ value y v ∧ u < v)
    (x = .nan ∨ y = .nan → (condFloat c x y = true ↔ c = .ne ∨ c = .un)) ∧
    (x ≠ .nan → y ≠ .nan → (condFloat c x y = true ↔ match c with
      | .eq => ¬ less x y ∧ ¬ less y x | .ne => less x y ∨ less y x | .lt => less x y | .le => ¬ less y x | .gt => less y x
      | .ge => ¬ less x y | .un => False | .ord => True))) ∧
  (∀ (h : Hdr) (x : VOps) (t : Ty) (n32 : Bool) (r : Rnd) (s : State) (i : Iss), Issues s h i →
    (∀ th ∈ i.on, ∀ k < 16, ∃ u ∈ i.on, u.t = th.t / 16 * 16 + k) → x.d.cls ≠ .s →
    let two := if n32 then 1 else 0
    let row := fun (th : Thread) => (List.range 16).filterMap fun k => i.on.find? fun u => u.t = th.t / 16 * 16 + k
    let a := fun (th : Thread) => i.arg s x.imm x.a 1 th
    let b := fun (th : Thread) => i.arg s x.imm x.b two th
    let scale := fun (th : Thread) => regVal .s24 (i.arg s x.imm x.c 1 th)
    let done := fun (ins : Instr) (wd wb wc : Nat) (dRead : Bool) (v : Thread → Nat) =>
      (∀ th ∈ i.on, i.ready s (flds x 1 wb wc) [⟨x.d, wd⟩] dRead x.imm th) →
      ∃ t, exec ins s = .next t ∧ Keeps s t i i.w (i.plainThread s x.d wd (flds x 1 wb wc) x.imm (fun _ th => th) v)
    let sign := fun (k j : Nat) (v : Exact) => if ((List.range 5).countP fun m => k.testBit m && j.testBit m) % 2 = 1 then v.neg else v
    let rotated := fun (v : List Exact) (k : Nat) => Exact.sum ((List.range v.length).map fun j => sign k j (nth v j (.num 0 0)))
    let block := fun (th : Thread) => (row th).flatMap fun u =>
      if n32 then [fp32.decode (a u), fp32.decode (b u)] else [fp32.decode (a u)]
    let y := fun (th : Thread) => (List.range (block th).length).map fun k => rotated (block th) k
    let pos := x.imm.toNat % 8
    done (.hqs h x t n32) 1 two 0 false (fun th => blockScale (fmtOf t) (y th) * 256) ∧
    done (.hq h x t n32) 1 two 1 true (fun th =>
      let code := fun k => quantCode (fmtOf t) (nth (y th) k (.num 0 0)) (scale th)
      let k := th.t % 16
      mapEls t fun j =>
        if n32 then (if j = 2 * pos + 1 then code (2 * k + 1) else if j = 2 * pos then code (2 * k) else elem t (i.arg s x.imm x.d 1 th) j)
        else if j = pos then code k else elem t (i.arg s x.imm x.d 1 th) j) ∧
    done (.hdq h x t n32 r) (1 + two) 0 1 false (fun th =>
      let one := fun (u : Thread) (p : Nat) => ((fmtOf t).decode (elem t (a u) p)).mul (scale u)
      let v := (row th).flatMap fun u => if n32 then [one u (2 * pos), one u (2 * pos + 1)] else [one u pos]
      let out := fun k => fp32.round r ((rotated v k).scale (if n32 then -5 else -4))
      let k := th.t % 16
      if n32 then out (2 * k) + out (2 * k + 1) * 2 ^ 32 else out k))

/-- R85, R87, R89: bra and brx send each guard-true thread to its target where the target passes the checks of R85 (none is made where no
thread's guard is true) and its line can be read (R355, R361; else a bra waits); loopd decrements A, not below 0, and sends the threads
whose count was 2 or more; nop only moves on. Nothing else changes.

R86: call and callx push the address of the next slot, write it to D where D is named, and go to their targets; a thread whose eight
entries are full first stores the oldest to its spill area, and its spill count rises. ret goes to the popped address: the youngest
entry, or, once its fill has arrived, the word at the spill area's top, where its line serves reads and no older access of the thread must
come first (R46, R232, R355). A fill reads its word when the ret issues again (log entry 71, the model's choice). -/
def Obligations.TransfersGo : Prop :=
  (∀ (h : Hdr) (s : State) (i : Iss), Issues s h i →
    let sent := fun (pc : Thread → Nat) (go : Thread → Bool) (th : Thread) =>
      if th ∈ i.on ∧ go th then { i.moved s.tick th with pc := BitVec.ofNat 42 (pc th) } else i.moved s.tick th
    let jump := fun (x : JOps) => (i.pc.toNat / 64 * 64 : Int) + 64 * x.off.toInt + 12 * (x.slot.toNat : Int)
    let fine := fun (v : Int) => 0 ≤ v ∧ s.targetFault i.g i.w.core v.toNat true = none ∧ s.fetchHeld i.g i.w.core v.toNat = false
    (∀ x : JOps, (i.on ≠ [] → fine (jump x)) →
      ∃ t, exec (.bra h x) s = .next t ∧ Keeps s t i i.w (sent (fun _ => (jump x).toNat) fun _ => true)) ∧
    (∀ x : JOps, i.on ≠ [] → 0 ≤ jump x → s.fetchHeld i.g i.w.core (jump x).toNat = true → exec (.bra h x) s = .next s) ∧
    (∀ x : VOps, (∀ th ∈ i.on, i.ready s [⟨x.a, 2⟩] [] false x.imm th ∧ fine (i.arg s x.imm x.a 2 th)) →
      ∃ t, exec (.brx h x) s = .next t ∧ Keeps s t i i.w (sent (i.arg s x.imm x.a 2) fun _ => true)) ∧
    (∀ x : VOps, ∃ t, exec (.nop h x) s = .next t ∧ Keeps s t i i.w (i.moved s.tick)) ∧
    (∀ x : JOps,
      let c := fun th => i.arg s 0 x.a 1 th
      (∀ th ∈ i.on, i.ready s [⟨x.a, 1⟩] [] false 0 th ∧ (2 ≤ c th → fine (jump x))) →
      ∃ t, exec (.loopd h x) s = .next t ∧ Keeps s t i (i.scalars i.on x.a 1 fun th => c th - 1)
        (fun th => if th ∈ i.on then (sent (fun _ => (jump x).toNat) (fun u => decide (2 ≤ c u)) th).put x.a 1 (c th - 1)
          else i.moved s.tick th))) ∧
  (∀ (h : Hdr) (s : State) (i : Iss), Issues s h i →
    let ra := nextPc i.pc
    let jump := fun (x : JOps) => (i.pc.toNat / 64 * 64 : Int) + 64 * x.off.toInt + 12 * (x.slot.toNat : Int)
    let fine := fun (v : Int) => 0 ≤ v ∧ s.targetFault i.g i.w.core v.toNat true = none ∧ s.fetchHeld i.g i.w.core v.toNat = false
    let spillAt := fun (th : Thread) (k : Nat) => (i.g.spillBase + i.g.launchIndex th * i.g.spillSize + 8 * k) % 2 ^ 64
    let calls := fun (ins : Instr) (d : Opnd) (src : List Fld) (tg : Thread → Int) =>
      d.cls ≠ .s →
      (∀ th ∈ i.on, i.ready s src (if d = .none then [] else [⟨d, 2⟩]) false 0 th ∧ fine (tg th) ∧
        (th.rs.length < 8 ∨ 8 * (th.k + 1) ≤ i.g.spillSize ∧ s.acqWaits i.r th = false ∧
          ∃ pa, s.locate i.g i.w .glDev .plainStore 8 (spillAt th th.k) = .ok (.phys pa, false))) →
      ∃ t, exec ins s = .next t ∧ t.mem = s.mem ∧
        Leaves s t i i.w (fun th =>
          if th ∈ i.on then
            let th1 := { i.moved s.tick th with
              rs := (if th.rs.length < 8 then th.rs else th.rs.drop 1) ++ [ra.setWidth 64]
              k := if th.rs.length < 8 then th.k else th.k + 1 }
            { th1.put d 2 ra.toNat with pc := BitVec.ofInt 42 (tg th) }
          else i.moved s.tick th) ∧
        (∀ th ∈ i.on, 8 ≤ th.rs.length → ∃ f ∈ t.flights, f.gid = i.r.1 ∧ f.wi = i.r.2 ∧ f.t = th.t ∧ f.act = .store ∧
          f.va = spillAt th th.k ∧ f.len = 8 ∧ f.data = leBytes 8 (nth th.rs 0 0).toNat) ∧
        ((∀ th ∈ i.on, th.rs.length < 8) → t.outside = s.outside)
    (∀ x : JOps, calls (.call h x) x.d [] fun _ => jump x) ∧
    (∀ x : VOps, x.a ≠ .none → x.imm = 0 → calls (.callx h x) x.d [⟨x.a, 2⟩] fun th => i.arg s 0 x.a 2 th) ∧
    (∀ (x : VOps) (v : Thread → Nat),
      (∀ th ∈ i.on, fine (v th) ∧
        if th.rs = [] then
          i.w.stall = some (.ret true) ∧ th.k ≠ 0 ∧ ∃ pa, s.locate i.g i.w .glDev .load 8 (spillAt th (th.k - 1)) = .ok (.phys pa, false) ∧
            s.homeHeld i.w.core pa true = false ∧ s.acqWaits i.r th = false ∧
            (∀ f ∈ s.flights, (s.fillLoadOf i th pa).ownBefore f = false) ∧ v th = s.fillWord i th pa
        else v th = (th.rs.getLast?.getD 0).toNat) →
      ∃ t, exec (.ret h x) s = .next t ∧
        Leaves s t i i.w (fun th =>
          if th ∈ i.on then
            { i.moved s.tick th with
              pc := BitVec.ofNat 42 (v th), rs := th.rs.dropLast, k := if th.rs = [] then th.k - 1 else th.k }
          else i.moved s.tick th) ∧
        { t.outside with flights := [] } = { s.outside with flights := [] } ∧ t.flights.map Flight.sent = s.flights.map Flight.sent ∧
        (∀ c, (t.core c).osSeq = (s.core c).osSeq) ∧ ((∀ th ∈ i.on, th.rs ≠ []) → t.outside = s.outside)))

/-- R88, R253: exit is an ordering point; with no report pending, each guard-true thread has exited, each other thread of the active set has
not, and global memory is as before. On each object whose members include the warp each of these threads counts as exited, and arrives with
SHORT where it has no arrival open on the current phase; one that completes the phase with that begins the next with all who have exited
arrived. An object of which the warp is no member is as it was. (A gang whose last thread exits may end with it.) -/
def Obligations.ExitEndsThreads : Prop :=  ∀ (h : Hdr) (x : VOps) (s : State) (i : Iss), Issues s h i → i.w.report? (i.on.map (·.t)) = none →
    ∃ t, exec (.exit h x) s = .next t ∧ t.mem = s.mem ∧
      (∀ w, t.warp? i.r = some w → ∀ th ∈ i.act, ∃ u, w.thread? th.t = some u ∧ u.exited = decide (th ∈ i.on)) ∧
      ∀ g' o, t.gang? i.r.1 = some g' → i.g.obj? o.ref = some o → (i.g.objs.map (·.ref)).Nodup → o.held = [] →
        s.unitFails i.g o.ref = false →
        let n := i.on.length
        let fresh := (i.on.filter fun th => decide ((o.ref, o.lap) ∉ th.opens)).length
        (o.members.getLsbD i.w.wi = false → g'.obj? o.ref = some o) ∧
        (o.members.getLsbD i.w.wi = true → o.arr + fresh < o.expArr →
          g'.obj? o.ref = some { o with exited := o.exited + n, arr := o.arr + fresh, shortCur := o.shortCur || decide (0 < fresh) }) ∧
        (o.members.getLsbD i.w.wi = true → n = 1 → fresh = 1 → o.arr + 1 = o.expArr → o.expBytes ≤ o.landed →
          g'.obj? o.ref = some { o with
            exited := o.exited + 1, lap := o.lap + 1, arr := o.exited + 1, landed := o.landed - o.expBytes,
            expBytes := if o.keep then o.expBytes else 0, lastShort := true, shortCur := true, lastErr := o.errCur, errCur := false })

/-- R157, R160, R161, R163, R164: where every presenting thread's group is whole (each is in its own membership, no two memberships
overlap and differ, and each member that has not exited is in the active set), shfl, shflw, vote, rdx, bcast and vread write D of each
present member with the value of their rule over the present members of its group, a value read from a thread that is not present being
zero, and change nothing else. Where several groups of one exchange write one scalar D, the last in ascending t stays (log entry 54, the
model's choice).

R162: wsync with every presenting thread's group whole, and no older access of its members that must come first holding one of these
stores back (R46, R198), completes: each scratchpad store that a member issued before it has been
performed (none is still on its way), global memory is as before, and the active set stands at the next slot. -/
def Obligations.ExchangesComplete : Prop :=
  (∀ (h : Hdr) (x : VOps) (t : Ty) (full : Bool) (s : State) (i : Iss), Issues s h i →
    let mem := fun (th : Thread) => if full then BitVec.allOnes 128 else BitVec.ofNat 128 (i.arg s x.imm x.c 4 th)
    (∀ th ∈ i.on, (mem th).getLsbD th.t ∧ (∀ u ∈ i.on, (mem u).getLsbD th.t → mem u = mem th) ∧
      ∀ u ∈ i.w.threads, (mem th).getLsbD u.t → u.exited = false → u ∈ i.act) →
    let mates := fun (th : Thread) => i.on.filter fun u => mem u = mem th
    let from_ := fun (n : Nat) (th : Thread) (k : Nat) =>
      match (mates th).find? fun u => u.t = k with
      | some u => i.arg s x.imm x.a n u
      | none => 0
    let writes := fun (ins : Instr) (n a b : Nat) (v : Thread → Nat) =>
      let src := flds x a b (if full then 0 else 4)
      (∀ th ∈ i.on, i.ready s src (if n = 0 then [] else [⟨x.d, n⟩]) false x.imm th) →
      ∃ s', exec ins s = .next s' ∧ Keeps s s' i (i.scalars i.on x.d n v) fun th =>
        let th1 := i.moved s.tick th
        if th ∈ i.on then ({ th1 with pwerr := th1.pwerr ||| s.windowOver i.g i.w src x.imm }).put x.d n (v th) else th1
    let w := t.words
    let b := fun th => i.arg s x.imm x.b 1 th
    let lane := fun (th : Thread) => th.t % 16
    let pred := fun (th : Thread) => xor (th.guard (x.imm.extractLsb' 0 3)) (x.imm.getLsbD 3)
    let yes := fun (th : Thread) => ((mates th).filter pred).map (·.t)
    writes (.shfl h x t .pick full) w w 1 (fun th => from_ w th (th.t - lane th + b th % 16)) ∧
    writes (.shfl h x t .rot full) w w 1 (fun th => from_ w th (th.t - lane th + (lane th + b th % 16) % 16)) ∧
    writes (.shfl h x t .flip full) w w 1 (fun th => from_ w th (th.t - lane th + (lane th ^^^ (b th % 16)))) ∧
    writes (.shfl h x t .seg full) w w 1 (fun th =>
      let sz := 2 ^ min (b th / 16 % 8) 4
      from_ w th (th.t - lane th + (lane th - lane th % sz) + b th % 16 % sz)) ∧
    writes (.shflw h x t .pick full) w w 1 (fun th => from_ w th (b th % 128)) ∧
    writes (.shflw h x t .rot full) w w 1 (fun th => from_ w th ((th.t + b th % 128) % 128)) ∧
    writes (.shflw h x t .flip full) w w 1 (fun th => from_ w th (th.t ^^^ (b th % 128))) ∧
    writes (.bcast h x t full) w w 1 (fun th => from_ w th (b th % 128)) ∧
    writes (.vread h x t full) w w 1 (fun th => from_ w th (b th % 8 * 16 + lane th)) ∧
    writes (.vote h x .count full) 1 0 0 (fun th => (yes th).length + 256 * (mates th).length) ∧
    writes (.vote h x .mask full) 4 0 0 (fun th => ((yes th).map fun k => 2 ^ k).sum) ∧
    writes (.vote h x .low full) 1 0 0 (fun th => (yes th).min?.getD 0xFFFFFFFF) ∧
    writes (.vote h x .high full) 1 0 0 (fun th => (yes th).max?.getD 0xFFFFFFFF) ∧
    ∀ op, writes (.rdx h x t op full) 1 1 0 (fun th =>
      rdxN t op (x.imm.getLsbD 0) (fun k => ((mates th).find? fun u => u.t = k).map (i.arg s x.imm x.a 1)) th.t)) ∧
  (∀ (h : Hdr) (x : VOps) (full : Bool) (s : State) (i : Iss), Issues s h i →
    let mem := fun (th : Thread) => if full then BitVec.allOnes 128 else BitVec.ofNat 128 (i.arg s x.imm x.c 4 th)
    (∀ th ∈ i.on, (mem th).getLsbD th.t ∧ (∀ u ∈ i.on, (mem u).getLsbD th.t → mem u = mem th) ∧
      ∀ u ∈ i.w.threads, (mem th).getLsbD u.t → u.exited = false → u ∈ i.act) →
    (∀ th ∈ i.on, i.ready s (flds x 0 0 (if full then 0 else 4)) [] false x.imm th) →
    (∀ th ∈ i.on, s.flushHeld i.r (fun f => (mem th).getLsbD f.t && !f.gw) = false) →
    ∃ t, exec (.wsync h x full) s = .next t ∧ t.mem = s.mem ∧
      (∀ f ∈ t.flights, f ∈ s.flights) ∧
      (∀ f ∈ t.flights, f.gid = i.r.1 → f.wi = i.r.2 → f.isStore = true → f.gw = false → (∃ c o, f.place = .pad c o) →
        ∀ th ∈ i.on, f.t < 128 → (mem th).getLsbD f.t = false) ∧
      ∃ w, t.warp? i.r = some w ∧ w.s = i.w.s ∧ ∀ th ∈ i.act, ∃ u, w.thread? th.t = some u ∧ u.pc = nextPc i.pc ∧ u.m = th.m)

/-- R165: join writes jN with the guard-true threads, or them joined with or taken from the old jN; jset writes it with A; jget writes
D with it. Threads are released only where jN changes under recorded arrivals that then cover its live threads.

R166, R167: an arrival of a jwait or jwaitt. A thread of the issue outside jN goes on at once. The others are recorded; where every live
thread of jN then is, every recorded thread, whenever it arrived, goes on past its own instruction and the record is empty; where not, they
wait at the instruction, with a jwaitt's limit, but that a limit of 0 gives up at once. A jwaitt's D empties with 1 on its way to it, or
0 where it gives up; one that waited before receives 1. Every other thread's registers are as before. (No jwaitt whose limit lies behind
is left in the warp; log entry 97.)

R167: JWAITT_EXPIRY. A thread whose limit lies behind withdraws its arrival and continues with its status 0; one whose limit does not
lie behind waits on. The arrivals of threads whose limits do not lie behind stand (log entry 97). -/
def Obligations.RejoinsComplete : Prop :=
  (∀ (h : Hdr) (x : VOps) (jn : BitVec 4),
    let old := fun (i : Iss) => nth i.w.j jn.toNat 0
    let quiet := fun (i : Iss) (new : TMask) => old i = new ∨ nth i.w.arr jn.toNat 0 = 0
    let sets := fun (ins : Instr) (s : State) (i : Iss) (new : TMask) =>
      quiet i new → ∃ t, exec ins s = .next t ∧ Keeps s t i { i.w with j := modAt i.w.j jn.toNat fun _ => new } (i.moved s.tick)
    (∀ s i, Issues s h i → i.on ≠ [] →
      sets (.join h x .set jn) s i (maskOf (i.on.map (·.t))) ∧
      sets (.join h x .or jn) s i (old i ||| maskOf (i.on.map (·.t))) ∧
      sets (.join h x .andn jn) s i (old i &&& ~~~(maskOf (i.on.map (·.t)))) ∧
      ∀ th r, i.on = th :: r → i.ready s [⟨x.a, 4⟩] [] false x.imm th →
        sets (.jset h x jn) s i (BitVec.ofNat 128 (i.arg s x.imm x.a 4 th))) ∧
    Computes (.jget h x jn) h x.d 4 (flds x 0 0 0) x.imm (fun _ i _ => (old i).toNat)) ∧
  (∀ (h : Hdr) (x : VOps) (jn : BitVec 4) (s : State) (i : Iss), Issues s h i → i.on ≠ [] → i.w.arr.length = 16 →
    (∀ v ∈ i.w.threads, ∀ j z e, v.wait = .jwait j (some (z, e)) → s.now i.w.core ≤ z) →
    let jm := nth i.w.j jn.toNat 0
    let here := fun (th : Thread) => th ∈ i.on ∧ jm.getLsbD th.t = true
    let before := fun (th : Thread) => (nth i.w.arr jn.toNat 0).getLsbD th.t = true ∧ ∃ l, th.wait = .jwait jn.toNat l
    let all := nth i.w.arr jn.toNat 0 ||| maskOf ((i.on.filter fun th => jm.getLsbD th.t).map (·.t))
    let whole := jm &&& maskOf (i.w.live.map (·.t)) &&& ~~~all = 0
    let owes := fun (t : State) (k v : Nat) (th u : Thread) => (nth u.m k {}).full = false ∧
      ∃ f ∈ t.flights, f.gid = i.r.1 ∧ f.wi = i.r.2 ∧ f.t = th.t ∧ f.act = .value v ∧ f.dst = some (.m k 1)
    let arrives := fun (ins : Instr) (reg : Option Nat) (lim : Thread → Nat) =>
      ∃ t w, exec ins s = .next t ∧ t.mem = s.mem ∧ t.warp? i.r = some w ∧ w.s = i.w.s ∧ w.j = i.w.j ∧
        (whole → nth w.arr jn.toNat 0 = 0) ∧ (¬ whole → (reg = none ∨ ∀ th, here th → 1 ≤ lim th) → nth w.arr jn.toNat 0 = all) ∧
        ∀ th ∈ i.w.threads, ∃ u, w.thread? th.t = some u ∧
          let gives := fun (v : Nat) => u.pc = nextPc th.pc ∧ u.wait = .none ∧
            match reg with | none => u.m = th.m | some k => owes t k v th u
          (th ∈ i.on → jm.getLsbD th.t = false → gives 1) ∧ (here th → whole → gives 1) ∧
          (th ∉ i.act → before th → whole → u.pc = nextPc th.pc ∧ u.wait = .none ∧
            ∀ z e, th.wait = .jwait jn.toNat (some (z, e)) → e < th.m.length → nth u.m e {} = { v := 1 }) ∧
          (here th → ¬ whole → match reg with
            | none => u.pc = i.pc ∧ u.m = th.m ∧ (u.wait = .jwait jn.toNat none ∨ ∃ a, u.wait = .unreach a)
            | some k => (lim th = 0 → gives 0) ∧
                (1 ≤ lim th → u.pc = i.pc ∧ u.m = th.m ∧ u.wait = .jwait jn.toNat (some (s.now i.w.core + lim th, k)))) ∧
          (th ∈ i.act → th ∉ i.on → u.pc = nextPc i.pc ∧ u.m = th.m) ∧
          (th ∉ i.act → (nth i.w.arr jn.toNat 0).getLsbD th.t = false ∨ ¬ whole → u.pc = th.pc ∧ u.m = th.m)
    (∀ th ∈ i.on, th.wait = .none) →
      arrives (.jwait h x jn) none (fun _ => 0) ∧
      ∀ k wt, x.d = .m k wt → (∀ th ∈ i.on, k.toNat < th.m.length ∧ i.ready s [⟨x.a, 1⟩] [⟨x.d, 1⟩] false x.imm th) →
        arrives (.jwaitt h x jn) (some k.toNat) (i.arg s x.imm x.a 1)) ∧
  (∀ (s : State) (gid wi tn jn l d : Nat) (w : Warp) (th : Thread), s.warp? (gid, wi) = some w → w.thread? tn = some th →
    th.wait = .jwait jn (some (l, d)) → d < th.m.length → jn < w.arr.length → tn < 128 →
    (s.now w.core ≤ l → exec (.jwaittExpiry gid wi tn) s = .next s) ∧
    (l < s.now w.core → ∃ t w' u, exec (.jwaittExpiry gid wi tn) s = .next t ∧ t.mem = s.mem ∧ t.warp? (gid, wi) = some w' ∧
      w'.thread? tn = some u ∧ u.pc = nextPc th.pc ∧ u.wait = .none ∧ nth u.m d {} = { v := 0 } ∧
      (∀ k ≠ d, nth u.m k {} = nth th.m k {}) ∧ (nth w'.arr jn 0).getLsbD tn = false ∧
      ∀ k, (∀ v ∈ w.threads, ∀ j z e, v.t = k → v.wait = .jwait j (some (z, e)) → s.now w.core ≤ z) →
        (nth w'.arr jn 0).getLsbD k = (nth w.arr jn 0).getLsbD k))

/-- R28, R93: idiv and irem complete at once: D of each writer empties and its quotient or remainder, truncated toward zero, is on its way;
division by zero gives all ones and the dividend, the most negative number by -1 gives itself and zero, and neither faults. Nothing else
changes. -/
def Obligations.DivisionsDepart : Prop :=  ∀ (h : Hdr) (x : VOps) (t : Ty) (s : State) (i : Iss), Issues s h i → t.isInt = true → (x.d.cls = .m ∨ x.d.cls = .s) →
    let w := t.words
    (∀ th ∈ i.writers x.d, i.ready s [⟨x.a, w⟩, ⟨x.b, w⟩] [⟨x.d, w⟩] false x.imm th) →
    let sends := fun (ins : Instr) (v : Thread → Nat) =>
      ∃ u, exec ins s = .next u ∧
        Sends s u i (i.vacated x.d w) (i.owed s.tick x.d w (s.windowOver i.g i.w [⟨x.a, w⟩, ⟨x.b, w⟩] x.imm)) ∧
        ∀ th ∈ i.writers x.d, i.flies s u th fun f => f.act = .value (v th) ∧ f.dst = opDst x.d w ∧ f.len = 4 * w ∧ f.place = .reg
    let a := fun th => i.arg s x.imm x.a w th
    let num := fun (v : Nat) => numOf t v
    let b := fun th => num (i.arg s x.imm x.b w th)
    let least : Int := -2 ^ (tyBits t - 1)
    sends (.idiv h x t) (fun th =>
      if b th = 0 then 2 ^ tyBits t - 1
      else if tySigned t ∧ num (a th) = least ∧ b th = -1 then a th
      else wrapN (tyBits t) ((num (a th)).tdiv (b th))) ∧
    sends (.irem h x t) (fun th =>
      if b th = 0 then a th
      else if tySigned t ∧ num (a th) = least ∧ b th = -1 then 0
      else wrapN (tyBits t) ((num (a th)).tmod (b th)))

/-- R107, R235, R46, R111: a scratchpad load completes at once where each writer's address A + sext(IMM21) is aligned, inside the block's
scratchpad and unpoisoned: D holds the bytes, sign-extended where SZ says so, of the thread's own newest store on its way, else of what a
write it need not see yet has replaced, else of the scratchpad; nothing else changes. An observed load performs the thread's own stores
that it meets and every write to its bytes is seen by all: it reads the scratchpad. That a plain load reads at its issue, and may then
be late (log entry 62), that it waits there for what an acquire fence orders before it (acqWaits; log entry 12), and that an access stalls in its slot while an own access through the gang window to its bytes must come first (padHeld; log entry 33), are the
model's choices, as is the one access of a scalar D (log entry 14).

R46, R111: a late scratchpad load, of which nothing has used the value yet, may take it again: its destination then holds what its thread
may read by now, its own newest store before it still on its way, else what a write it need not see yet has replaced, else the scratchpad; no
memory and no access under way changes. (Late loads are how the model lets a load be passed by a later store: log entry 62.)

R107, R196: a load through a parameter window completes at once where no acquire fence holds it back (log entry 12) and each writer's word
is in the parameter cache or lies beyond the window's bound: D holds the word, sign-extended where SZ says so, or zero with the window's bit of $pwerr set; nothing else changes. -/
def Obligations.NearLoadsComplete : Prop :=
  (∀ (h : Hdr) (x : VOps) (z : Sz) (win : BitVec 3) (s : State) (i : Iss), Issues s h i →
    let n := szLen z
    let gc := i.w.wi / warpsPerCore i.g.n
    let off := fun th => wrapN 32 (i.arg s x.imm x.a 1 th + x.imm.toInt)
    (∀ th ∈ i.writers x.d, i.ready s [⟨x.a, 1⟩] [⟨x.d, z.words⟩] false x.imm th ∧ s.acqWaits i.r th = false ∧
      s.padHeld i.r th.t gc (off th) n true = false ∧
      off th % n = 0 ∧ off th + n ≤ i.g.spBytes ∧ s.padBad i.g.gid gc (off th) n = false) →
    let raw := fun th => leNat ((List.range n).map fun k => s.padLoadByte i.g i.r th.t gc (off th + k) s.nextId)
    let v := fun th => if z = .b8s ∨ z = .b16s then ((BitVec.ofNat (8 * n) (raw th)).signExtend 32).toNat else raw th
    let loaded := fun th =>
      if th ∈ i.writers x.d then (i.moved s.tick th).put x.d z.words (v th) else i.moved s.tick th
    (∃ t, exec (.ld h x z .sp win) s = .next t ∧ Keeps s t i (i.scalars (i.writers x.d) x.d z.words v) loaded) ∧
    ((∀ th ∈ i.writers x.d, s.padQuiet i.r th.t gc (off th) n ∧ s.padHeld i.r th.t gc (off th) n false = false ∧
        ∀ k ∈ i.g.veils, k.meets gc (off th) n = false) →
      ∃ t, exec (.ldo h x z .sp) s = .next t ∧ Keeps s t i (i.scalars (i.writers x.d) x.d z.words v) loaded) ∧
    ((∀ th ∈ i.writers x.d, s.padHeld i.r th.t gc (off th) n false = false) →
      ∃ t g w, exec (.ldo h x z .sp) s = .next t ∧ t.mem = s.mem ∧ (∀ f ∈ t.flights, f ∈ s.flights) ∧
        t.gang? i.r.1 = some g ∧ t.warp? i.r = some w ∧
        ∀ th ∈ i.writers x.d, t.padQuiet i.r th.t gc (off th) n ∧ (∀ k ∈ g.veils, k.meets gc (off th) n = false) ∧
          let got := leNat (g.padBytes gc (off th) n)
          ∀ d, opDst x.d z.words = some d → i.w.hasDst th.t d →
            w.holds th.t d (natWords z.words (if z = .b8s ∨ z = .b16s then ((BitVec.ofNat (8 * n) got).signExtend 32).toNat else got)))) ∧
  (∀ (s : State) (gid wi t k : Nat) (g : Gang) (w : Warp) (th : Thread) (l : Late),
    s.gang? gid = some g → s.warp? (gid, wi) = some w → w.thread? t = some th → th.lates[k]? = some l → w.hasDst t l.dst →
    let n := match l.dst with | .m _ n => n | .s _ n => n
    (l.len + 3) / 4 = n → s.padBad gid l.gc l.off l.len = false → (∀ r ∈ l.dst.keys t, (w.regAt r).bad = none) →
    let u := s.move (.relook gid wi t k)
    let raw := leNat ((List.range l.len).map fun j => s.padLoadByte g (gid, wi) t l.gc (l.off + j) l.id)
    u.mem = s.mem ∧ u.flights = s.flights ∧
    ∃ w', u.warp? (gid, wi) = some w' ∧
      w'.holds t l.dst (natWords n (if l.signed then ((BitVec.ofNat (8 * l.len) raw).signExtend 32).toNat else raw))) ∧
  (∀ (h : Hdr) (x : VOps) (z : Sz) (win : BitVec 3) (s : State) (i : Iss), Issues s h i →
    let n := szLen z
    let rd := fun th => s.pwRead i.g i.w.core win.toNat n (i.arg s x.imm x.a 1 th + x.imm.toInt)
    ∀ raw : Thread → Option Nat,
    (∀ th ∈ i.writers x.d, i.ready s [⟨x.a, 1⟩] [⟨x.d, z.words⟩] false x.imm th ∧ s.acqWaits i.r th = false ∧
      rd th = match raw th with | some v => .value v | none => .beyond) →
    let v := fun th => match raw th with
      | none => 0
      | some r => if z = .b8s ∨ z = .b16s then ((BitVec.ofNat (8 * n) r).signExtend 32).toNat else r
    ∃ t, exec (.ld h x z .pw win) s = .next t ∧ Keeps s t i (i.scalars (i.writers x.d) x.d z.words v) fun th =>
      let th1 := i.moved s.tick th
      if th ∈ i.writers x.d then
        ({ th1 with pwerr := if raw th = none then th1.pwerr ||| (1#8 <<< win.toNat) else th1.pwerr }).put x.d z.words (v th)
      else th1)

/-- R28, R107, R195, R235: a load of gw or gl completes at once where no acquire fence holds it back (R237; that it waits at
issue is log entry 12) and each writer's address passes the checks of R110: D empties, the load
is on its way to the place its address names, and nothing else changes.

R28, R240 to R242, R256: an atomic of gw or gl completes at once where no fence holds it back (R237; that it waits at issue is
log entry 12) and each acting thread's address passes the checks of R110: D, where
it has one, empties, the access is on its way with its operands, and nothing else changes. It is an ordering point. (A scalar D makes it one access: log entry 14, the
model's choice.)

R109: pf completes, and changes nothing, unless its address register is on its way. -/
def Obligations.FarAccessesDepart : Prop :=
  (∀ (h : Hdr) (x : VOps) (z : Sz) (p : Spc) (win : BitVec 3) (s : State) (i : Iss), Issues s h i →
    (p = .gw ∨ p = .glDev ∨ p = .glSys) → (x.d.cls = .m ∨ x.d.cls = .s) →
    let k := if p = .gw then 1 else 2
    let addr := fun th => wrapN (if p = .gw then 32 else 64) (i.arg s x.imm x.a k th + x.imm.toInt)
    ∀ place : Thread → Place,
    (∀ th ∈ i.writers x.d, i.ready s [⟨x.a, k⟩] [⟨x.d, z.words⟩] false x.imm th ∧ s.acqWaits i.r th = false ∧
      s.locate i.g i.w p .load (szLen z) (addr th) = .ok (place th, false)) →
    let sends := fun (ins : Instr) (obs : Bool) =>
      ∃ u, exec ins s = .next u ∧ Sends s u i (i.vacated x.d z.words) (i.owed s.tick x.d z.words 0) ∧
        ∀ th ∈ i.writers x.d, i.flies s u th fun f => f.act = .load (szSigned z) ∧ f.place = place th ∧ f.len = szLen z ∧
          f.dst = opDst x.d z.words ∧ f.observed = obs ∧ f.va = addr th
    sends (.ld h x z p win) false ∧ sends (.ldo h x z p) true) ∧
  (∀ (h : Hdr) (x : VOps) (t : Ty) (op : AOp) (p : Spc) (ga : Bool) (s : State) (i : Iss), Issues s h i →
    (p = .gw ∨ p = .glDev ∨ p = .glSys) →
    let k := t.words
    let ka := if p = .gw then 1 else 2
    let addr := fun th => wrapN (if p = .gw then 32 else 64) (i.arg s x.imm x.a ka th + x.imm.toInt)
    let who := i.writers x.d
    ∀ place : Thread → Place,
    i.w.report? (i.on.map (·.t)) = none →
    (∀ th ∈ who, s.acqWaits i.r th = false ∧ s.relWaits i.r th = false ∧ s.locate i.g i.w p .atomic (4 * k) (addr th) = .ok (place th, false)) →
    let b := fun th => i.arg s x.imm x.b k th
    let sends := fun (ins : Instr) (hasD : Bool) (act : Thread → Act) =>
      ∃ u, exec ins s = .next u ∧
        Sends s u i (if hasD then i.vacated x.d k else i.w) (if hasD then i.owed s.tick x.d k 0 else i.moved s.tick) ∧
        ∀ th ∈ who, i.flies s u th fun f => f.act = act th ∧ f.place = place th ∧ f.len = 4 * k ∧ f.observed = true ∧
          f.dst = if hasD then opDst x.d k else none
    ((∀ th ∈ who, i.ready s [⟨x.a, ka⟩, ⟨x.b, k⟩] [⟨x.d, k⟩] false x.imm th) →
      sends (.atom h x t op p ga) true fun th => .atom t op (b th) none) ∧
    ((∀ th ∈ who, i.ready s [⟨x.a, ka⟩, ⟨x.b, k⟩] [] false x.imm th) →
      sends (.ared h x t op p ga) false fun th => .atom t op (b th) none) ∧
    ((∀ th ∈ who, i.ready s [⟨x.a, ka⟩, ⟨x.b, k⟩, ⟨x.c, k⟩] [⟨x.d, k⟩] false x.imm th) →
      sends (.acas h x t p ga) true fun th => .atom t .xchg (b th) (some (i.arg s x.imm x.c k th)))) ∧
  (∀ (h : Hdr) (x : VOps) (sys wr : Bool) (s : State) (i : Iss), Issues s h i →
    (∀ th ∈ i.on, emptyAt i.w th x.a 2 ≠ some true) →
    ∃ t, exec (.pf h x sys wr) s = .next t ∧ Keeps s t i i.w (i.moved s.tick))

/-- R28, R46, R107, R343: REGISTER_FILL. A load that may take its value now fills its destination with the bytes its place reads,
sign-extended where it says so, and is over; a quotient or remainder fills its own; where the bytes are poisoned the destination fills
poisoned (log entry 66, the model's reading). Memory is as before. -/
def Obligations.FillsDeliver : Prop :=  ∀ (s : State) (id : Nat) (f : Flight) (d : Dst) (w : Warp),
    s.flight? id = some f → f.dst = some d → s.warp? (f.gid, f.wi) = some w → w.hasDst f.t d →
    (∃ th ∈ w.threads, th.exited = false) → w.relayTo = none →
    let n := match d with | .m _ n => n | .s _ n => n
    let fills := fun (P : Warp → Prop) =>
      ∃ t w', exec (.registerFill id 0) s = .next t ∧ t.mem = s.mem ∧
        t.flights.map Flight.sent = (s.flights.filter fun g => g.id ≠ id).map Flight.sent ∧ t.warp? (f.gid, f.wi) = some w' ∧ P w'
    (∀ v, f.act = .value v → f.len = 4 * n → fills fun w' => w'.holds f.t d (natWords n v)) ∧
    (∀ sg, f.act = .load sg → f.done ≤ f.parts → (f.len + 3) / 4 = n → s.maySample f = true →
      let raw := leNat (s.sample f 0 f.len)
      (s.sampleBad f = false → fills fun w' => w'.holds f.t d
        (natWords n (if sg then ((BitVec.ofNat (8 * f.len) raw).signExtend 32).toNat else raw))) ∧
      (s.sampleBad f = true → fills fun w' => match d with
        | .m k n => ∃ u, w'.thread? f.t = some u ∧ ∀ j < n, (nth u.m (k + j) {}).bad = some .ecc
        | .s k n => ∀ j < n, (nth w'.s (k + j) {}).bad = some .ecc))

/-- R28, R108, R195, R235: st of any space, and sto of gw or gl, complete at once where no fence holds them back (R237; that they wait at issue
is log entry 12) and each guard-true thread's address passes the checks of R110: each store is on its way with the low bytes of B, and no byte of any memory has changed yet. An observed store is an ordering point. (The order of F_ECC
of a poisoned frame-table entry behind F_PERM among those checks is log entry 66, the model's choice.) -/
def Obligations.StoresDepart : Prop :=  ∀ (h : Hdr) (x : VOps) (z : Sz) (p : Spc) (ga obs : Bool) (s : State) (i : Iss), Issues s h i → p ≠ .pw → (obs = true → p ≠ .sp) →
    let k := if p = .sp ∨ p = .gw then 1 else 2
    let n := szLen z
    let addr := fun th => wrapN (if p = .sp ∨ p = .gw then 32 else 64) (i.arg s x.imm x.a k th + x.imm.toInt)
    ∀ place : Thread → Place,
    (∀ a, i.w.stall ≠ some (.table [] a)) →
    (∀ th ∈ i.on, i.ready s [⟨x.a, k⟩, ⟨x.b, z.words⟩] [] false x.imm th ∧ s.acqWaits i.r th = false ∧
      (obs = true → s.relWaits i.r th = false) ∧ s.locate i.g i.w p .store n (addr th) = .ok (place th, false)) →
    (obs = true → i.w.report? (i.on.map (·.t)) = none) →
    ∃ t, exec (if obs then .sto h x z p ga else .st h x z p ga) s = .next t ∧ Sends s t i i.w (i.moved s.tick) ∧
      ∀ th ∈ i.on, i.flies s t th fun f => f.act = .store ∧ f.place = place th ∧ f.len = n ∧
        f.data = leBytes n (i.arg s x.imm x.b z.words th) ∧ f.observed = obs ∧ f.needOst = (p = .glDev ∨ p = .glSys)

/-- R233, R235: sto of sp performs its stores in ascending t and completes: the scratchpad holds the low bytes of each guard-true thread's B
at that thread's address, seen by every load, and every byte outside them is as before, as is every other memory. (That an access stalls
in its slot while an own access through the gang window to its bytes must come first is the model's choice: padHeld; log entry 33.)

R45, R46, R108: a scratchpad store on its way that may be performed puts its bytes in memory, and every byte outside them is as before,
as is global memory. -/
def Obligations.ScratchpadStoresLand : Prop :=
  (∀ (h : Hdr) (x : VOps) (z : Sz) (ga : Bool) (s : State) (i : Iss), Issues s h i →
    let n := szLen z
    let gc := i.w.wi / warpsPerCore i.g.n
    let off := fun th => wrapN 32 (i.arg s x.imm x.a 1 th + x.imm.toInt)
    let data := fun th => leBytes n (i.arg s x.imm x.b z.words th)
    let pad := i.on.foldl (fun m th => m.writeN (off th) (data th)) (nth i.g.sp gc [])
    (∀ a, i.w.stall ≠ some (.table [] a)) → i.w.report? (i.on.map (·.t)) = none →
    (∀ th ∈ i.on, i.ready s [⟨x.a, 1⟩, ⟨x.b, z.words⟩] [] false x.imm th ∧ s.acqWaits i.r th = false ∧ s.relWaits i.r th = false ∧
      s.padQuiet i.r th.t gc (off th) n ∧ s.padHeld i.r th.t gc (off th) n false = false ∧
      off th % n = 0 ∧ off th + n ≤ i.g.spBytes ∧ i.g.touchesObj gc (off th) n = false) →
    (∃ t, exec (.sto h x z .sp ga) s = .next t ∧ t.mem = s.mem ∧ t.flights = s.flights ∧
      Leaves (s.modGang i.r.1 fun g => { i.on.foldl (fun g th => g.bare gc (off th) n) g with sp := modAt g.sp gc fun _ => pad }) t i i.w
        (i.moved s.tick)) ∧
    (∀ a, (∀ th ∈ i.on, a < off th ∨ off th + n ≤ a) → pad.read a = (nth i.g.sp gc []).read a) ∧
    (Memory.wf (nth i.g.sp gc []) = true → ∀ (l r : List Thread) (th : Thread), i.on = l ++ th :: r →
      (∀ u ∈ r, overlaps (off u) n (off th) n = false) → pad.readN (off th) n = data th)) ∧
  (∀ (s : State) (id : Nat) (f : Flight) (g : Gang) (gc off : Nat),
    s.flight? id = some f → f.act = .store → f.place = .pad gc off → f.finished = false → s.mayPerform f = true →
    s.gang? f.gid = some g → Memory.wf (nth g.sp gc []) = true → gc < g.sp.length →
    (∃ w ∈ g.warps, ∃ th ∈ w.threads, th.exited = false) →
    let t := s.move (.perform id)
    t.mem = s.mem ∧ (∀ k ∈ t.flights, k.id ≠ id) ∧
    ∃ g', t.gang? f.gid = some g' ∧ g'.warps = g.warps ∧ g'.objs = g.objs ∧ (∀ c, c ≠ gc → nth g'.sp c [] = nth g.sp c []) ∧
      (nth g'.sp gc []).readN off f.data.length = f.data ∧
      ∀ a, (a < off ∨ off + f.data.length ≤ a) → (nth g'.sp gc []).read a = (nth g.sp gc []).read a)

/-- R45, R229, R230, R355, R359: STORE_AT_HOME. A store that may be performed and is not refused puts its bytes (or one half of sixteen) in
memory at its address and no others, and every copy of the line on another die has an invalidation on its way; an atomic replaces the word
it reads by its operation's result, as one step, and keeps the old one, and changes nothing where it meets a poisoned one (R343); one the
home refuses changes no memory. -/
def Obligations.StoresReachHome : Prop :=  ∀ (s : State) (id part pa : Nat) (f : Flight),
    s.flight? id = some f → f.place = .phys pa → f.finished = false → s.mayPerform f = true → s.routeHeld f = false →
    s.mem.wf = true →
    let only := fun (t : State) (a n : Nat) => ∀ b, (b < a ∨ a + n ≤ b) → t.mem.read b = s.mem.read b
    (f.act = .store → s.refusal f pa = none → f.data.length = f.len → part ≤ 2 →
      let lo := if f.len = 16 ∧ part = 2 then 8 else 0
      let n := if f.len = 16 ∧ part ≠ 0 then 8 else f.len
      (f.done = 0 ∨ f.len = 16 ∧ part ≠ 0 ∧ f.done &&& part = 0) →
      ∃ t, exec (.storeAtHome id part) s = .next t ∧ t.mem.readN (pa + lo) n = (f.data.drop lo).take n ∧ only t (pa + lo) n ∧
        t.gangs = s.gangs ∧
        ∀ c ∈ s.copies, c.line = lineOf (pa + lo) → c.die ≠ f.die → ∃ v ∈ t.invals, v.line = c.line ∧ v.die = c.die ∧ v.arrived = false) ∧
    (∀ ty op b cmp, f.act = .atom ty op b cmp → s.refusal f pa = none → s.hotAt pa = none → s.lineHeld (lineOf pa) = false →
      ∃ t f', exec (.storeAtHome id 0) s = .next t ∧ t.gangs = s.gangs ∧ t.flight? id = some f' ∧ f'.done = 1 ∧
        (s.memBad pa f.len = false → f'.old = natWords (f.len / 4) (s.mem.num pa f.len) ∧ only t pa f.len ∧
          t.mem.readN pa f.len = leBytes f.len (atomNew ty op (s.mem.num pa f.len) b cmp atomFloat)) ∧
        (s.memBad pa f.len = true → t.mem = s.mem)) ∧
    (∀ c, f.done = 0 → s.refusal f pa = some c →
      ∃ t f', exec (.storeAtHome id part) s = .next t ∧ t.mem = s.mem ∧ t.flight? id = some f' ∧ f'.refused = true)

/-- R357 to R360: STORE_ACK ends an access that has been performed; NEGATIVE_ACK ends a refused one with F_REMOTE, and ACK_TIMEOUT one
without an acknowledgement for 2^24 clocks with F_ACKLOST: the report of its thread's warp is pending, and an atomic's destination is full
again. Memory is as before. (That a lost access is not applied later is the model's choice: log entry 67.)

R202, R355 to R357: HOT_WORD_RETIRE applies the atomic at the head of a hot word's queue; INVALIDATION removes a die's copy of a line,
and INVALIDATION_ACK, once it has arrived, ends it. -/
def Obligations.HomeTrafficMoves : Prop :=
  (∀ (s : State) (id : Nat) (f : Flight) (w : Warp) (th : Thread) (q : Word),
    s.flight? id = some f → s.warp? (f.gid, f.wi) = some w → w.thread? f.t = some th → th.exited = false → f.seq = some q →
    let ends := fun (ins : Instr) (P : Warp → Prop) =>
      ∃ t w', exec ins s = .next t ∧ t.mem = s.mem ∧ (∀ g ∈ t.flights, g.id ≠ id) ∧ t.warp? (f.gid, f.wi) = some w' ∧ P w'
    let reports := fun (code : Nat) (w' : Warp) =>
      w'.reports = w.reports ++ [{ seq := q, t := f.t, code := code, pc := f.pc }] ∧
      match f.dst with
      | some (.m k n) => ∀ u, w'.thread? f.t = some u → ∀ j < n, (nth u.m (k + j) {}).full = true
      | some (.s k n) => ∀ j < n, (nth w'.s (k + j) {}).full = true
      | none => True
    (f.place.isPhys = true → f.writes = true → f.refused = false → s.performedDev f = true → f.dst = none →
      ends (.storeAck id) fun w' => w' = w) ∧
    (f.refused = true → ends (.negativeAck id) (reports 0x2201)) ∧
    (f.needOst = true → f.issued + 2 ^ 24 ≤ s.now f.core → ends (.ackTimeout id) (reports 0x2202))) ∧
  (∀ (s : State),
    (∀ (addr id pa : Nat) (rest : List Nat) (f : Flight) (ty : Ty) (op : AOp) (b : Nat) (cmp : Option Nat),
      s.hot.find? (fun h => h.1 = addr / 4) = some (addr / 4, id :: rest) → id ∉ rest → s.flight? id = some f → f.place = .phys pa →
      f.act = .atom ty op b cmp → s.refusal f pa = none → s.lineHeld (addr / 128) = false → s.mem.wf = true → f.finished = false →
      s.memBad pa f.len = false → s.struck (48 * homeDie addr + sliceOf addr) 4 18 = false →
      ∃ t, exec (.hotWordRetire addr [id]) s = .next t ∧
        t.mem.readN pa f.len = leBytes f.len (atomNew ty op (s.mem.num pa f.len) b cmp atomFloat) ∧
        (∀ a, (a < pa ∨ pa + f.len ≤ a) → t.mem.read a = s.mem.read a) ∧
        (rest ≠ [] → t.hot.find? (fun h => h.1 = addr / 4) = some (addr / 4, rest)) ∧
        (rest = [] → t.hot.find? (fun h => h.1 = addr / 4) = none)) ∧
    (∀ (die line : Nat) (v : Inval), s.invals.find? (fun v => v.die = die && v.line = line && !v.arrived) = some v →
      ∃ t, exec (.invalidation die line) s = .next t ∧ t.copy? die line = none ∧ t.mem = s.mem ∧ t.gangs = s.gangs ∧
        (∀ d l, (d ≠ die ∨ l ≠ line) → t.copy? d l = s.copy? d l) ∧ { v with arrived := true } ∈ t.invals ∧
        t.invals.length = s.invals.length) ∧
    (∀ (die line : Nat) (v : Inval), s.invals.find? (fun v => v.die = die && v.line = line && v.arrived) = some v →
      ∃ t, exec (.invalidationAck die line) s = .next t ∧ t = { s with invals := s.invals.erase v }))

/-- R240 to R242: a scratchpad atomic is performed at issue, one guard-true thread after another in ascending t: each reads the word its
address holds, writes back the result of its operation, and D (where it has one) holds the word read; every byte outside these words is
as before. It is an ordering point. (A scalar D makes it one access, of the lowest guard-true thread: log entry 14; and it stalls while an
own access through the gang window to its bytes must come first: log entry 33; both the model's choices.) -/
def Obligations.ScratchpadAtomicsComplete : Prop :=  ∀ (h : Hdr) (x : VOps) (t : Ty) (op : AOp) (ga : Bool) (s : State) (i : Iss), Issues s h i →
    let k := t.words
    let n := 4 * k
    let gc := i.w.wi / warpsPerCore i.g.n
    let off := fun th => wrapN 32 (i.arg s x.imm x.a 1 th + x.imm.toInt)
    let who := i.writers x.d
    i.w.report? (i.on.map (·.t)) = none → s.struck i.w.core i.w.quarter 16 = false →
    (∀ th ∈ who, s.acqWaits i.r th = false ∧ s.relWaits i.r th = false ∧ s.padQuiet i.r th.t gc (off th) n ∧
      s.padHeld i.r th.t gc (off th) n false = false ∧ off th % n = 0 ∧ off th + n ≤ i.g.spBytes ∧
      i.g.touchesObj gc (off th) n = false ∧ s.padBad i.g.gid gc (off th) n = false) →
    let performs := fun (ins : Instr) (hasD : Bool) (new : Nat → Thread → Nat) =>
      let step := fun (m : Memory) (th : Thread) => m.writeN (off th) (leBytes n (new (m.num (off th) n) th))
      let old := fun th => ((who.takeWhile fun u => u.t ≠ th.t).foldl step (nth i.g.sp gc [])).num (off th) n
      ∃ u, exec ins s = .next u ∧ u.mem = s.mem ∧ u.flights = s.flights ∧
        Leaves (s.modGang i.r.1 fun g =>
            { who.foldl (fun g th => g.bare gc (off th) n) g with sp := modAt g.sp gc fun _ => who.foldl step (nth i.g.sp gc []) }) u i
          (if hasD then i.scalars who x.d k old else i.w)
          (fun th => if hasD ∧ th ∈ who then (i.moved s.tick th).put x.d k (old th) else i.moved s.tick th)
    let b := fun th => i.arg s x.imm x.b k th
    let c := fun th => i.arg s x.imm x.c k th
    ((∀ th ∈ who, i.ready s [⟨x.a, 1⟩, ⟨x.b, k⟩] [⟨x.d, k⟩] false x.imm th) →
      performs (.atom h x t op .sp ga) true fun old th => atomNew t op old (b th) none atomFloat) ∧
    ((∀ th ∈ who, i.ready s [⟨x.a, 1⟩, ⟨x.b, k⟩] [] false x.imm th) →
      performs (.ared h x t op .sp ga) false fun old th => atomNew t op old (b th) none atomFloat) ∧
    ((∀ th ∈ who, i.ready s [⟨x.a, 1⟩, ⟨x.b, k⟩, ⟨x.c, k⟩] [⟨x.d, k⟩] false x.imm th) →
      performs (.acas h x t .sp ga) true fun old th => if old = c th then b th else old)

/-- R243, R245, R246: binit of a thread on 64 bytes that no live object overlaps, with members that are warps of the block in reach and room
in the unit, makes the object: live, at lap 0, with the counts of B, no member arrived but those that have exited; its image stands in the
scratchpad and no other byte has changed; status 0 is on its way to D. binit.retire of an object that nothing uses ends it, clears LIVE
and leaves its other bytes as scratchpad; without a live object there its status is 0x00130000 and nothing else happens. -/
def Obligations.ObjectsAreMadeAndRetired : Prop :=  ∀ (h : Hdr) (x : VOps) (gw : Bool) (sc : Scope) (keep full : Bool) (s : State) (i : Iss) (th : Thread) (r : ObjRef),
    Issues s h i → i.writers x.d = [th] → (x.d.cls = .m ∨ x.d.cls = .s) → r.gc < i.g.sp.length →
    Memory.wf (nth i.g.sp r.gc []) = true →
    s.padSpan i.g i.w gw 64 64 (i.arg s x.imm x.a 1 th) = .ok r →
    let does := fun (ins : Instr) (status : Nat) (P : Gang → Prop) =>
      ∃ t g', exec ins s = .next t ∧ t.mem = s.mem ∧ t.gang? i.r.1 = some g' ∧ P g' ∧
        (∀ k, k ≠ i.r.1 → t.gang? k = s.gang? k) ∧
        (∀ c a, (c ≠ r.gc ∨ a < r.off ∨ r.off + 64 ≤ a) → (nth g'.sp c []).read a = (nth i.g.sp c []).read a) ∧
        (∀ q, q ≠ r → g'.obj? q = i.g.obj? q) ∧
        i.flies s t th fun f => f.act = .value status ∧ f.dst = opDst x.d 1
    let m := if full then maskOf (i.g.warps.map (·.wi)) else BitVec.ofNat 128 (i.arg s x.imm x.c 4 th)
    let counts := i.arg s x.imm x.b 2 th
    (i.ready s ([⟨x.a, 1⟩, ⟨x.b, 2⟩] ++ if full then [] else [⟨x.c, 4⟩]) [⟨x.d, 1⟩] false x.imm th →
      (∀ o ∈ i.g.objs, o.ref.gc = r.gc → overlaps o.ref.off 64 r.off 64 = false) →
      i.g.badMembers gw r.gc sc m = false → s.unitObjs i.g r.gc gw < (if gw then 512 else 2048) →
      let e := i.g.exitedOf m
      does (.binit h x gw sc keep full) 0 fun g' =>
        ∃ o, g'.obj? r = some o ∧ o.lap = 0 ∧ o.expArr = counts % 2 ^ 16 ∧ o.expBytes = counts / 2 ^ 32 % 2 ^ 32 ∧ o.members = m ∧
          o.arr = e ∧ o.exited = e ∧ o.landed = 0 ∧ o.region0 = 0 ∧ o.region1 = 0 ∧ o.error = 0 ∧ o.clu = gw ∧ o.scope = sc ∧
          o.keep = keep ∧ (nth g'.sp r.gc []).readN r.off 64 = o.image) ∧
    (i.ready s [⟨x.a, 1⟩] [⟨x.d, 1⟩] false x.imm th →
      (∀ o, i.g.obj? r = some o → o.bad = false → o.inflight = 0 →
        (∀ w ∈ i.g.warps, ∀ u ∈ w.live, u.wait.object ≠ some r ∧ ∀ p ∈ u.opens, p.1 ≠ r) →
        (∀ b ∈ i.g.binds, b.fillObj ≠ r ∧ b.freeObj ≠ r) →
        does (.binitRetire h x gw sc) 0 fun g' => g'.obj? r = none ∧
          (nth g'.sp r.gc []).readN r.off 64 = modAt o.image 57 (fun b => b &&& 0xFE)) ∧
      (i.g.obj? r = none → does (.binitRetire h x gw sc) 0x00130000 fun g' => g'.objs = i.g.objs ∧ g'.sp = i.g.sp))

/-- R247, R248, R250: barr and bexp.arr whose releases are complete count an arrival of each acting thread on one object, bexp.arr the bytes
it expects with it, or with the last one the phase completes. Below the expected number the object has the greater counts, and each of
these threads has an open arrival on its phase; at it, with all expected bytes landed, the lap rises by one, the arrivals close, and every
thread that waits for that phase continues. bexp without arr counts the bytes alone. D, where named, is told the lap. Memory is as
before. -/
def Obligations.ArrivalsCount : Prop :=  ∀ (h : Hdr) (x : VOps) (gw : Bool) (rel : ArrRel) (s : State) (i : Iss) (o : Obj), Issues s h i → i.on ≠ [] →
    (∀ th ∈ i.act, th.wait = .none) → o.held = [] → s.unitFails i.g o.ref = false → (rel ≠ .nrel → i.w.report? (i.on.map (·.t)) = none) →
    let who := i.writers x.d
    let n := who.length
    let named := fun (src : List Fld) => ∀ th ∈ who,
      i.ready s src (if x.d = .none then [] else [⟨x.d, 1⟩]) false x.imm th ∧ s.named i.g i.w gw (i.arg s x.imm x.a 1 th) = .ok o
    let arrives := fun (how : ArrRel) => ∀ th ∈ who, o.members.getLsbD i.w.wi = true ∧
      (∀ p ∈ th.opens, p.1 ≠ o.ref) ∧ th.opens.length < 4 ∧ s.relWaits i.r th = false ∧
      (how = .nrel ∨ s.released i.r th.t o.scope (i.g.releaseSet o how) = true)
    let passes := fun (ins : Instr) (P : State → Gang → Warp → Prop) =>
      ∃ t g' w', exec ins s = .next t ∧ t.mem = s.mem ∧ t.gang? i.r.1 = some g' ∧ t.warp? i.r = some w' ∧ g'.sp = i.g.sp ∧
        (∀ q, q ≠ o.ref → g'.obj? q = i.g.obj? q) ∧ P t g' w' ∧
        ∀ th ∈ who, ∃ u, w'.thread? th.t = some u ∧ u.pc = nextPc i.pc ∧ u.wait = .none ∧
          (opDst x.d 1 ≠ none → i.flies s t th fun f => f.act = .value o.lap.toNat ∧ f.dst = opDst x.d 1)
    let counted := fun (o' : Obj) (_ : State) (g' : Gang) (w' : Warp) =>
      g'.obj? o.ref = some o' ∧ ∀ th ∈ who, ∃ u, w'.thread? th.t = some u ∧ (o.ref, o.lap) ∈ u.opens
    let complete := fun (bytes : Nat) (t : State) (g' : Gang) (_ : Warp) =>
      g'.obj? o.ref = some { o with
        lap := o.lap + 1, arr := o.exited, landed := o.landed - bytes, expBytes := if o.keep then bytes else 0,
        lastShort := o.shortCur, shortCur := decide (0 < o.exited), lastErr := o.errCur, errCur := false } ∧
      ∀ r w th lim d slot, r.1 = i.r.1 → s.warp? r = some w → (w.threads.map (·.t)).Nodup → th ∈ w.threads →
        th.wait = .phase o.ref o.lap lim d slot →
        ∃ w' u, t.warp? r = some w' ∧ w'.thread? th.t = some u ∧ u.pc = nextPc th.pc ∧ u.wait = .none
    let expect := o.expBytes + (who.map fun th => i.arg s x.imm x.b 1 th).sum
    (named [⟨x.a, 1⟩] → arrives rel → o.arr + n < o.expArr →
      passes (.barr h x gw rel) (counted { o with arr := o.arr + n })) ∧
    (named [⟨x.a, 1⟩] → arrives rel → o.arr + n = o.expArr → o.expBytes ≤ o.landed →
      passes (.barr h x gw rel) (complete o.expBytes)) ∧
    (rel ≠ .nrel → named [⟨x.a, 1⟩, ⟨x.b, 1⟩] → arrives .bound → o.arr + n < o.expArr → expect ≤ 0xFFFFFFFF →
      passes (.bexp h x gw true) (counted { o with arr := o.arr + n, expBytes := expect })) ∧
    (rel ≠ .nrel → named [⟨x.a, 1⟩, ⟨x.b, 1⟩] → arrives .bound → o.arr + n = o.expArr → expect ≤ 0xFFFFFFFF → expect ≤ o.landed →
      passes (.bexp h x gw true) (complete expect)) ∧
    (named [⟨x.a, 1⟩, ⟨x.b, 1⟩] → o.arr ≠ o.expArr → expect ≤ 0xFFFFFFFF →
      passes (.bexp h x gw false) fun _ g' _ => g'.obj? o.ref = some { o with expBytes := expect })

/-- R243, R251: bwait and bwaitt for phases that are complete send each thread its status (DONE, the phase's low bits, SHORT and ERR of a
phase just over, PAST of an older one) and change nothing else; for phases that are not, each thread waits at the instruction, its
registers and $pwerr as they were, at bwaitt until its limit of C clocks, and a bwaitt with a limit of none goes on at once with DONE = 0;
where nothing can complete the phase its F_UNREACH is due (R254). BWAITT_EXPIRY lets a thread whose limit lies behind go on with
DONE = 0. -/
def Obligations.WaitsComplete : Prop :=  ∀ (h : Hdr) (x : VOps) (gw : Bool),
    (∀ (s : State) (i : Iss) (ob : Thread → Obj), Issues s h i → i.on ≠ [] → (∀ th ∈ i.act, th.wait = .none) → x.d.cls = .m →
      let p := fun th => BitVec.ofNat 32 (i.arg s x.imm x.b 1 th)
      let status := fun th =>
        let past := (ob th).lap - p th ≠ 1
        (p th).toNat % 2 ^ 16 * 2 ^ 16 + (if past then 8 else 0) + (if (ob th).lastErr ∧ ¬ past then 4 else 0) +
          (if (ob th).lastShort ∧ ¬ past then 2 else 0) + 1
      let waits := fun (ins : Instr) (src : List Fld) =>
        (∀ th ∈ i.on, i.ready s src [⟨x.d, 1⟩] false x.imm th ∧ s.named i.g i.w gw (i.arg s x.imm x.a 1 th) = .ok (ob th)) →
        ((∀ th ∈ i.on, 1 ≤ ((ob th).lap - p th).toNat ∧ ((ob th).lap - p th).toNat ≤ 2 ^ 31) →
          ∃ t, exec ins s = .next t ∧ Sends (s.unveil i.r.1) t i i.w (i.owed s.tick x.d 1 (s.windowOver i.g i.w src x.imm)) ∧
            ∀ th ∈ i.on, i.flies s t th fun f => f.act = .value (status th) ∧ f.dst = opDst x.d 1) ∧
        ((∀ th ∈ i.on, (ob th).lap = p th ∨ 2 ^ 31 < ((ob th).lap - p th).toNat) →
          ((∀ th ∈ i.on, ins = .bwait h x gw ∨ i.arg s x.imm x.c 1 th ≠ 0) →
            ∃ t w', exec ins s = .next t ∧ t.mem = s.mem ∧ t.warp? i.r = some w' ∧ ∀ th ∈ i.on, ∃ u,
              w'.thread? th.t = some u ∧ u.pc = i.pc ∧ u.m = th.m ∧ u.pwerr = th.pwerr ∧
                let limit := if ins = .bwait h x gw then none else some (s.now i.w.core + i.arg s x.imm x.c 1 th)
                ((w'.s = i.w.s ∧ ∃ d, u.wait = .phase (ob th).ref (p th) limit d none) ∨ u.wait = .unreach (ob th).addr)) ∧
          (ins ≠ .bwait h x gw → (∀ th ∈ i.on, i.arg s x.imm x.c 1 th = 0) →
            ∃ t, exec ins s = .next t ∧ Sends s t i i.w (i.owed s.tick x.d 1 (s.windowOver i.g i.w src x.imm)) ∧
              ∀ th ∈ i.on, i.flies s t th fun f => f.act = .value ((p th).toNat % 2 ^ 16 * 2 ^ 16) ∧ f.dst = opDst x.d 1))
      waits (.bwait h x gw) [⟨x.a, 1⟩, ⟨x.b, 1⟩] ∧ waits (.bwaitt h x gw) [⟨x.a, 1⟩, ⟨x.b, 1⟩, ⟨x.c, 1⟩]) ∧
    ∀ (s : State) (gid wi tn : Nat) (w : Warp) (th : Thread) (o : ObjRef) (p : Word) (l k : Nat),
      s.warp? (gid, wi) = some w → w.thread? tn = some th → th.wait = .phase o p (some l) (.m k 1) none → l < s.now w.core →
      k < th.m.length → (w.threads.map (·.t)).Nodup →
      ∃ t w' u, exec (.bwaittExpiry gid wi tn) s = .next t ∧ t.mem = s.mem ∧ t.warp? (gid, wi) = some w' ∧ w'.thread? tn = some u ∧
        u.pc = nextPc th.pc ∧ u.wait = .none ∧ nth u.m k {} = { v := BitVec.ofNat 32 (p.toNat % 2 ^ 16 * 2 ^ 16) }

/-- R244, R249, R251: bstat of sp writes each thread's D with a field of its object (gw: it is on its way) and without CLR changes nothing
else; with CLR the object's ERROR is zero afterwards, and threads that name one object read it in order, so that the first of them reads
what it was; bind writes the region its SLOT names with the kind, length and base of the bytes, and unbind clears the ones it names; of threads
that name one object the last acts last. (A base above 2^42 is cut to the descriptor's field: log entry 57, the model's reading.) -/
def Obligations.ObjectsAreReadAndBound : Prop :=  ∀ (h : Hdr) (x : VOps) (gw : Bool) (s : State) (i : Iss) (ob : Thread → Obj), Issues s h i →
    (∀ th ∈ i.on, s.named i.g i.w gw (i.arg s x.imm x.a 1 th) = .ok (ob th)) →
    let field := fun (o : Obj) =>
      match (x.imm.extractLsb' 0 3).toNat with
      | 0 => o.lap.toNat
      | 1 => o.expArr + 2 ^ 16 * o.arr
      | 2 => o.expBytes
      | 3 => min o.landed (2 ^ 32 - 1)
      | 4 => o.error.toNat % 2 ^ 32
      | 5 => o.error.toNat / 2 ^ 32
      | 6 => o.ctl % 2 ^ 32
      | _ => o.ctl / 2 ^ 32
    let who := i.writers x.d
    let reads := fun (s1 : State) (seen : Thread → Obj) => (∀ th ∈ who, i.ready s [⟨x.a, 1⟩] [⟨x.d, 1⟩] false x.imm th) →
      (gw = false → ∃ t, exec (.bstat h x gw) s = .next t ∧
        Keeps s1 t i (i.scalars who x.d 1 fun th => field (seen th)) fun th =>
          if th ∈ who then (i.moved s.tick th).put x.d 1 (field (seen th)) else i.moved s.tick th) ∧
      (gw = true → (x.d.cls = .m ∨ x.d.cls = .s) → ∃ t, exec (.bstat h x gw) s = .next t ∧
        Sends s1 t i (i.vacated x.d 1) (i.owed s.tick x.d 1 0) ∧
        ∀ th ∈ who, i.flies s t th fun f => f.act = .value (field (seen th)) ∧ f.dst = opDst x.d 1)
    (x.imm.getLsbD 3 = false → reads s ob) ∧
    (x.imm.getLsbD 3 = true →
      reads (s.modGang i.r.1 fun g => { g with
          objs := g.objs.map fun o => if who.any fun th => decide ((ob th).ref = o.ref) then { o with error := 0 } else o })
        fun th =>
          if (who.takeWhile fun u => decide (u.t ≠ th.t)).any fun u => decide ((ob u).ref = (ob th).ref) then { ob th with error := 0 }
          else ob th) ∧
    let sets := fun (ins : Instr) (f : Thread → Obj → Obj) =>
      ∃ t g', exec ins s = .next t ∧ t.mem = s.mem ∧ t.gang? i.r.1 = some g' ∧ g'.sp = i.g.sp ∧
        (∀ q, (∀ th ∈ i.on, (ob th).ref ≠ q) → g'.obj? q = i.g.obj? q) ∧
        ∀ l th r, i.on = l ++ th :: r → (∀ u ∈ l ++ r, (ob u).ref ≠ (ob th).ref) → g'.obj? (ob th).ref = some (f th (ob th))
    let rsp := (x.imm.extractLsb' 1 2).toNat
    let bw := if rsp = 2 then 2 else 1
    let b := fun th => i.arg s x.imm x.b bw th
    let c := fun th => i.arg s x.imm x.c 1 th
    let desc := fun th => BitVec.ofNat 2 (rsp + 1) ++ BitVec.ofNat 20 (c th / 64) ++ BitVec.ofNat 42 (b th)
    (rsp < 3 → (∀ th ∈ i.on, i.ready s [⟨x.a, 1⟩, ⟨x.b, bw⟩, ⟨x.c, 1⟩] [] false x.imm th ∧ b th % 64 = 0 ∧ c th % 64 = 0 ∧
        0 < c th ∧ c th ≤ 2 ^ 26 - 64) →
      sets (.bind h x gw) fun th o => if x.imm.getLsbD 0 then { o with region1 := desc th } else { o with region0 := desc th }) ∧
    ((∀ th ∈ i.on, i.ready s [⟨x.a, 1⟩] [] false x.imm th) →
      let which := x.imm.extractLsb' 0 2
      sets (.unbind h x gw) fun _ o =>
        { o with region0 := if which = 1 then o.region0 else 0, region1 := if which = 0 then o.region1 else 0 })

/-- R237 to R239, R256, R361: a fence completes once what it orders has been performed, and changes only the point behind which later
accesses of its threads stand, and the marks of what it counts as performed and is still on its way; until then the warp stays at it, and
at dev and sys sends a marker along each route on which its threads have entries outstanding, at sys one behind messages that have not
landed (R380). acq never waits; rel, ar and sc wait for the thread's earlier stores at the scope, sc for its loads too; fencex waits for both
where FROM names path t, and for the warp's scratchpad commands of group C where it names path x (R301); fencerec drops from the core's
record cache the records its threads name, or all. What stands behind the point is log entry 12, the commands of path x are log entry 32,
and what counts as performed at the narrow scopes is log entry 69: the model's readings.

R361, R380: RELEASE_MARKER answers a marker once the fence counter of its core is zero at every router of its route: the messages it was
sent behind have landed, and the marker is gone; before that nothing happens. -/
def Obligations.FencesComplete : Prop :=
  (∀ (h : Hdr) (x : VOps) (sc : Scope) (s : State) (i : Iss), Issues s h i →
    let calm := i.w.report? (i.on.map (·.t)) = none
    let marked := fun (rel acq : Bool) (th : Thread) =>
      let th1 := i.moved s.tick th
      if th ∈ i.on then
        { th1 with acqPt := if acq then s.nextId else th1.acqPt, relPt := if rel then s.nextId else th1.relPt }
      else th1
    let own := fun (r : WRef) (t : Nat) => r = i.r ∧ ∃ th ∈ i.on, th.t = t
    let over_ := { s with flights := s.flights.map fun f =>
      if f.fwd = true ∧ f.gid = i.r.1 ∧ f.wi = i.r.2 ∧ f.t ∈ i.on.map (·.t) then
        { f with seen := true, narrow := f.narrow || decide (sc = .core ∨ sc = .clu) } else f }
    let goes := fun (ins : Instr) (rel acq marks : Bool) =>
      let s1 := if marks then over_ else s
      ∃ t, exec ins s = .next t ∧ Keeps (if acq then s1.unveil i.r.1 else s1) t i i.w (marked rel acq)
    let waits := fun (ins : Instr) => ∃ ms, exec ins s = .next { s with markers := s.markers ++ ms } ∧
      (sc = .core ∨ sc = .clu → ms = []) ∧ (∀ m ∈ ms, own (m.gid, m.wi) m.t ∧ m.core = i.w.core) ∧
      (sc = .dev ∨ sc = .sys → ∀ f ∈ s.flights, own (f.gid, f.wi) f.t → f.needOst = true → f.seq.isSome → f.route ≠ [] →
        ∃ m ∈ s.markers ++ ms, (m.gid, m.wi, m.t) = (f.gid, f.wi, f.t) ∧ m.route = f.route) ∧
      (sc = .sys → ∀ th ∈ i.on, s.messagesOf i.r th.t ≠ [] →
        ∃ m ∈ s.markers ++ ms, (m.gid, m.wi, m.t) = (i.r.1, i.r.2, th.t) ∧ m.route = [])
    let out := fun (th : Thread) => s.released i.r th.t sc (fun _ => true) = true
    let back := fun (th : Thread) => s.loadsDone i.r th.t = true
    (i.on ≠ [] → goes (.fence h x sc .acq) false true false) ∧
    (i.on ≠ [] → calm → (∀ th ∈ i.on, out th) → goes (.fence h x sc .rel) true false true ∧ goes (.fence h x sc .ar) true true true) ∧
    (i.on ≠ [] → calm → (∀ th ∈ i.on, out th ∧ back th) → goes (.fence h x sc .sc) true true true) ∧
    (i.on ≠ [] → calm → (x.imm.getLsbD 0 = true → ∀ th ∈ i.on, out th ∧ back th) → (x.imm.getLsbD 2 = true → s.pendingX i = []) →
      goes (.fencex h x sc) false true (x.imm.getLsbD 0)) ∧
    (i.on ≠ [] → calm → (x.imm.getLsbD 2 = true ∧ s.pendingX i ≠ [] ∨ x.imm.getLsbD 0 = true ∧ ∃ th ∈ i.on, ¬ (out th ∧ back th)) →
      waits (.fencex h x sc)) ∧
    (calm → (∃ th ∈ i.on, ¬ out th) → waits (.fence h x sc .rel) ∧ waits (.fence h x sc .ar)) ∧
    (calm → (∃ th ∈ i.on, ¬ (out th ∧ back th)) → waits (.fence h x sc .sc)) ∧
    ∀ gl all : Bool,
      let n := if gl then 2 else 1
      let a := fun th => i.arg s x.imm x.a n th
      calm → (∀ th ∈ i.on, i.ready s (if all then [] else [⟨x.a, n⟩]) [] false x.imm th ∧ (all = true ∨ a th % 64 = 0) ∧
        s.writesDone i.r th.t .dev (fun f => all || s.inRecord i.g i.w.core f gl (a th)) = true) →
      let named := fun (e : RecE) => ∃ th ∈ i.on, all = true ∨ (e.gl = gl ∧ e.world = i.g.world ∧ e.addr = a th)
      ∃ t, exec (.fencerec h x gl all) s = .next t ∧
        (∀ e, e ∈ (t.core i.w.core).recCache ↔ e ∈ (s.core i.w.core).recCache ∧ ¬ named e) ∧ t.outside = s.outside ∧
        ∃ w, t.warp? i.r = some w ∧ w.s = i.w.s ∧ ∀ th ∈ i.act, ∃ u, w.thread? th.t = some u ∧ u.pc = nextPc i.pc ∧ u.m = th.m) ∧
  (∀ (s : State) (k : Nat) (m : Marker), s.markers[k]? = some m →
    let over_ := fun (die : Nat) => s.fenceCount die m.core = 0
    let through := fun (die : Nat) => ∃ b ∈ m.route, (bridgeDies b).1 = die ∨ (bridgeDies b).2 = die
    ((∀ die < 4, through die → over_ die) → ∃ t, exec (.releaseMarker k) s = .next t ∧ t.markers = s.markers.eraseIdx k ∧
      t.mem = s.mem ∧ t.gangs = s.gangs ∧ t.flights = s.flights ∧ t.sendQs.length = s.sendQs.length ∧
      ∀ q ∈ t.sendQs, ∀ x ∈ q.msgs, x.id ∈ m.msgs → x.landed = true) ∧
    ((∃ die < 4, through die ∧ ¬ over_ die) → exec (.releaseMarker k) s = .next s))

/-- R257, R259, R260, R264 to R271, R367: cpy, cpyg, cpyn, cpyt, nget, nred and ncvt start one command in each acting thread, where at most
eight act, slots are free and the checks pass: it takes a slot and the next number of the core's engine, D empties, the counter it names
has one more producer, the record cpyt used is its cache's most recent, and nothing else changes; no byte has moved yet. (Which threads
act is log entry 14.) -/
def Obligations.CommandsStart : Prop :=  ∀ (h : Hdr) (x : VOps) (s : State) (i : Iss), Issues s h i → (x.d.cls = .m ∨ x.d.cls = .s) →
    let who := i.writers x.d
    let n := who.length
    let c := i.w.core
    (s.core c).slots.length + n ≤ 8 →
    ∀ counter : Option ObjRef,
    (match counterOf x.imm with
     | none => counter = none
     | some (gw, a) => ∃ o, s.named i.g i.w gw a = .ok o ∧ counter = some o.ref) →
    let starts := fun (ins : Instr) (src : List Fld) (kind : Thread → CmdKind) (total : Thread → Nat) (code : Nat) (ga sys : Bool)
        (used : Thread → Option (Bool × Nat)) =>
      (∀ th ∈ who, i.ready s src [⟨x.d, 1⟩] false x.imm th) →
      ∃ t ks, exec ins s = .next t ∧ t.outside = s.outside ∧ ks.length = n ∧
        Leaves
          ((s.modCore c fun k =>
            { k with
              slots := k.slots ++ ks, ceSeq := k.ceSeq + BitVec.ofNat 32 n,
              recCache := (who.filterMap used).foldl (fun rs p => recentRec i.g.world p.1 p.2 rs) k.recCache }).modGang i.r.1 fun g =>
            match counter with
            | some r => g.modObj r fun o => { o with inflight := o.inflight + n }
            | none => g)
          t i (i.vacated x.d 1) (i.owed s.tick x.d 1 0) ∧
        ∀ j k th, ks[j]? = some k → who[j]? = some th →
          k.seq = (s.core c).ceSeq + BitVec.ofNat 32 j ∧ k.slot < 8 ∧ (∀ q ∈ (s.core c).slots, q.slot ≠ k.slot) ∧
          k.gid = i.r.1 ∧ k.wi = i.r.2 ∧ k.t = th.t ∧ opDst x.d 1 = some k.dst ∧ k.kind = kind th ∧ k.total = total th ∧
          k.code = code ∧ k.ga = ga ∧ k.sys = sys ∧ k.draft = false ∧ k.counted = 0 ∧ k.donePcs = [] ∧ k.status = none ∧
          k.killed = false
    let arg := fun (o : Opnd) (w : Nat) (th : Thread) => i.arg s x.imm o w th
    (∀ (dsp ssp : CSpc) (ga sys : Bool),
      let a := arg x.a dsp.addrWords
      let b := arg x.b ssp.addrWords
      let len := arg x.c 1
      (∀ th ∈ who, a th % 4 = 0 ∧ b th % 4 = 0 ∧ len th % 4 = 0 ∧ len th < 2 ^ 31 ∧
        i.g.spanFault dsp (a th) (len th) = none ∧ i.g.spanFault ssp (b th) (len th) = none) →
      starts (.cpy h x dsp ssp ga sys) [⟨x.a, dsp.addrWords⟩, ⟨x.b, ssp.addrWords⟩, ⟨x.c, 1⟩]
        (fun th => .copy ⟨ssp, b th⟩ ⟨dsp, a th⟩ (len th)) len 0 ga sys fun _ => none) ∧
    (∀ (dsp ssp : CSpc) (ga sys : Bool),
      let a := arg x.a dsp.addrWords
      let b := arg x.b 1
      let k := arg x.c 1
      (∀ th ∈ who, a th % 4 = 0 ∧ b th % 16 = 0 ∧ 1 ≤ k th ∧ k th ≤ 4096 ∧ (dsp = .bb → bbForm (a th) = true) ∧
        b th + 16 * k th ≤ i.g.spBytes) →
      starts (.cpyg h x dsp ssp ga sys) [⟨x.a, dsp.addrWords⟩, ⟨x.b, 1⟩, ⟨x.c, 1⟩]
        (fun th => .gather (b th) (k th) ssp ⟨dsp, a th⟩) (fun _ => 0) 2 ga sys fun _ => none) ∧
    (∀ (ssp : CSpc) (sys : Bool),
      let q := arg x.a 1
      let b := arg x.b ssp.addrWords
      let len := arg x.c 1
      (∀ th ∈ who, q th < 64 ∧ b th % 4 = 0 ∧ len th % 4 = 0 ∧ 4 ≤ len th ∧ len th ≤ 65536 ∧ i.g.spanFault ssp (b th) (len th) = none) →
      starts (.cpyn h x ssp sys) [⟨x.a, 1⟩, ⟨x.b, ssp.addrWords⟩, ⟨x.c, 1⟩]
        (fun th => .send (q th) ⟨ssp, b th⟩ (len th)) len 3 false sys fun _ => none) ∧
    (∀ (lgw store rgl ga sys : Bool) (r : Thread → List Byte),
      let w := if rgl then 2 else 1
      let a := arg x.a w
      let b := arg x.b 1
      let coords := fun th => coordsOf (arg x.c 4 th)
      (∀ th ∈ who, a th % 64 = 0 ∧ b th % 16 = 0 ∧ s.cachedRec i rgl (a th) = some (r th) ∧ recordFault (r th) ga = none ∧
        ((tensorOf (r th)).n = 0 ∨ nth (coords th) 0 0 % (max 1 (tensorOf (r th)).n : Nat) = 0) ∧
        (tensorOf (r th)).localFault i.g lgw (b th) = none) →
      starts (.cpyt h x lgw store rgl ga sys) ([⟨x.a, w⟩, ⟨x.b, 1⟩] ++ if x.c = .none then [] else [⟨x.c, 4⟩])
        (fun th => .tensor store (r th) lgw (b th) (coords th)) (fun th => (tensorOf (r th)).total) 1 ga sys
        fun th => some (rgl, a th)) ∧
    let gc := i.w.wi / warpsPerCore i.g.n
    let desc := fun th => (List.range 32).map fun k => s.padLoadByte i.g i.r th.t gc (arg x.a 1 th + k) s.nextId
    let near := fun (auxZero : Bool) (mult : Nat) => ∀ th ∈ who,
      arg x.a 1 th % 32 = 0 ∧ arg x.a 1 th + 32 ≤ i.g.spBytes ∧ s.padBad i.r.1 gc (arg x.a 1 th) 32 = false ∧
        nearFault (desc th) auxZero mult = none
    ∀ (ty src : Ty) (op : NOp) (ord : NOrd),
      (near false 1 →
        starts (.nget h x ty) [⟨x.a, 1⟩] (fun th => .nget ty (desc th)) (fun th => 4 * ty.words * (nearOf (desc th)).count)
          17 false false fun _ => none) ∧
      (near true (max 1 (32 / elBits ty)) →
        starts (.nred h x ty op) [⟨x.a, 1⟩] (fun th => .nred ty op (desc th)) (fun th => elBits ty * (nearOf (desc th)).count / 8)
          18 false false fun _ => none) ∧
      let block := if elBits ty < 16 then (if ord = .n16 then 16 else 32) else 1
      (near false (max block (max (max 1 (32 / elBits ty)) (max 1 (32 / elBits src)))) →
        starts (.ncvt h x ty ord src) [⟨x.a, 1⟩] (fun th => .ncvt ty ord src (desc th))
          (fun th => elBits ty * (nearOf (desc th)).count / 8 +
            if elBits ty < 16 then 4 * ((nearOf (desc th)).count / block) else 0) 19 false false fun _ => none)

/-- R20, R230, R354, R367: a command reads a word of its sources once, as it stands where the engine reads it (in gl at the home slice; of a
near-memory command only in its own stack, else it fails with F_PERM), and keeps it; nothing but cached translations, copies and the older
bytes that its die may still read changes. BYTES_COUNTED may read a word of a piece long before the piece moves (which words and when is log entry 64).

R230, R252, R264, R265, R269 to R272, R368: BYTES_COUNTED moves a piece of a command whose words can be read: a word of a copy, of an entry
of a list, of a tensor (a store leaves the bits that hold no element of it) or of a message, or part of what a near-memory command writes.
The bytes stand at the destination, all others are as before, and they are counted, in the counter once every die sees them. (How long
a write stays unseen is log entry 64.)

R265, R368: before any piece moves, cpyg reads its list and checks it (with a bad entry, whose LEN word becomes 0xFFFF_FFFF, or too many
bytes it fails with F_ALIGN), nget its list and the sources that the list names, nred its source; ncvt reads nothing first. A near-memory
command whose addresses do not suit its elements fails with F_ALIGN. (What is read when is log entry 64.)

R257, R260, R261, R271, R282: COMMAND_END. A command of any kind whose pieces have all moved ends with status 0, a failed one with its
code and an abandoned one with KILLED in the upper half and its number in the lower: the status fills its destination and its slot is free.
Its counter counts the bytes still due, holds the error record of a failure where it held none, and has one producer less. A send is
accepted whole by its queue, or ends with 2 where the queue is not open; a ckill whose last command stops answers their number. -/
def Obligations.CommandsMoveAndEnd : Prop :=
  (∀ (s : State) (core : Nat) (k : Cmd) (spc : CSpc) (a : Nat), a % 4 = 0 →
    let e := k.eng core
    let still := fun (s : State) => { s with tlb := [], copies := [], glVeils := [] }
    let own := fun (q : EPlace) (stack : Nat) =>
      match q with
      | .phys pa => frameOf pa < 0x800000 ∧ frameOf pa / 0x100000 = stack
      | .bb x => x / 2 ^ 22 = stack
      | .pad _ _ => False
    let held := fun (q : EPlace) (stack : Nat) =>
      match q with
      | .phys pa => s.quiesced.contains (Config.dramChannel (lineOf pa)) = true ∨ s.portFull stack 1 = true
      | _ => False
    let becomes := fun (v : Nat) => { k with buf := k.buf.put (wordKey spc a) (BitVec.ofNat 32 v) }
    (∀ v, k.got spc a = some v → State.readWord core (s, k) (spc, a) = .ok (s, k)) ∧
    (∀ q, k.got spc a = none → s.engWhere e false spc a 4 = .ok q →
      (∀ d, k.kind.near? = some d → own q (nearOf d).stack ∧ ¬ held q (nearOf d).stack) →
      let k' := becomes (leNat (s.placeBytes e q 4))
      (∃ s', State.readWord core (s, k) (spc, a) = .ok (s', k') ∧ still s' = still s) ∧
      k'.got spc a = some (BitVec.ofNat 32 (leNat (s.placeBytes e q 4))) ∧
      (∀ spc' a', (spc', a' / 4) ≠ (spc, a / 4) → k'.got spc' a' = k.got spc' a') ∧
      ∀ slot p j, s.cmd? core slot = some k → k.killed = false → k.status = none → k.unread = false → k.due = 0 → p ∉ k.donePcs →
        p < k.kind.count → p < 2 ^ 31 → s.pieceFault k.gid k.kind p = none → nearSkew k.kind = false →
        (k.kind.needs p)[j]? = some (spc, a) →
        ∃ t, exec (.bytesCounted core slot [p + 2 ^ 31 + 2 ^ 32 * j]) s = .next t ∧ t.cmd? core slot = some k' ∧ t.mem = s.mem ∧
          t.bb = s.bb ∧ t.gangs = s.gangs) ∧
    ∀ q d, k.got spc a = none → s.engWhere e false spc a 4 = .ok q → k.kind.near? = some d → ¬ own q (nearOf d).stack →
      State.readWord core (s, k) (spc, a) = .error (.fail 0x2002)) ∧
  (∀ (s s1 : State) (core slot p : Nat) (k k1 : Cmd) (needs : List (CSpc × Nat)),
    s.cmd? core slot = some k → k.killed = false → k.status = none → k.unread = false → p ∉ k.donePcs → p < 2 ^ 31 →
    s.mem.wf = true → s.bb.wf = true → (∀ g ∈ s.allGangs, ∀ m ∈ g.sp, Memory.wf m = true) →
    (∀ q, k.cnt = some q → ∃ g o, s.gang? k.gid = some g ∧ g.obj? q.2 = some o ∧ o.held = [] ∧ o.arr ≠ o.expArr ∧
      s.unitFails g q.2 = false) →
    State.readWords core (s, k) needs = .ok (s1, k1) →
    let e := k.eng core
    let rd := k1.reads
    let counts := fun (t : State) (n : Nat) (keep : Bool) => ∃ k', t.cmd? core slot = some k' ∧
      let k1 := { k1 with
        donePcs := p :: k.donePcs, sent := s.now core, buf := if keep then k1.buf else needs.foldl (fun b (w : CSpc × Nat) => b.del (wordKey w.1 w.2)) k1.buf }
      match k.cnt with
      | none => k' = { k1 with counted := k.counted + n }
      | some q => ∀ g o, s.gang? k.gid = some g → g.obj? q.2 = some o → ∃ g', t.gang? k.gid = some g' ∧
        if t.landing core k then k' = { k1 with due := k.due + n } ∧ g'.obj? q.2 = some o
        else
          k' = { k1 with counted := k.counted + (k.due + n), due := 0 } ∧
          g'.obj? q.2 = some { o with landed := if k.due + n = 0 then o.landed else min 0xFFFFFFFF (o.landed + (k.due + n)) }
    let others := fun (t : State) (dest : EPlace) (n : Nat) =>
      (∀ a, (∀ q, dest = .phys q → a < q ∨ q + n ≤ a) → t.mem.read a = s.mem.read a) ∧
      (∀ a, (∀ q, dest = .bb q → a < q ∨ q + n ≤ a) → t.bb.read a = s.bb.read a) ∧
      ∀ gid g g', s.anyGang? gid = some g → t.anyGang? gid = some g' → ∀ gc a,
        (∀ o, dest = .pad gc o → gid = k.gid → a < o ∨ o + n ≤ a) → (nth g'.sp gc []).read a = (nth g.sp gc []).read a
    let there := fun (dest : EPlace) => ∀ gc off g, dest = .pad gc off → s.anyGang? k.gid = some g → gc < g.sp.length
    let moves := fun (spc : CSpc) (a : Nat) (v : List Byte) (keep : Bool) => ∀ dest,
      s1.engWhere e true spc a v.length = .ok dest → there dest →
      ∃ t, exec (.bytesCounted core slot [p]) s = .next t ∧ t.placeBytes e dest v.length = v ∧ others t dest v.length ∧
        counts t v.length keep
    (∀ src dst len, k.kind = .copy src dst len → 4 * p + 4 ≤ len → src.a % 4 = 0 → needs = [(src.spc, src.a + 4 * p)] →
      moves dst.spc (dst.a + 4 * p) (leBytes 4 (rd src.spc (src.a + 4 * p))) false) ∧
    (∀ ps ssp dst j m a n, k.kind = .pieces ps ssp dst → ps[j]? = some (a, n) → 4 * m + 4 ≤ n → a % 4 = 0 →
      p = ((ps.take j).map fun q => q.2 / 4).sum + m → needs = [(ssp, a + 4 * m)] →
      moves dst.spc (dst.a + 4 * p) (leBytes 4 (rd ssp (a + 4 * m))) false) ∧
    (∀ r gw loc c, k.kind = .tensor false r gw loc c → 4 * p + 4 ≤ (tensorOf r).total → needs = (tensorOf r).loadNeeds c p →
      let t := tensorOf r
      let row := p / (t.rowBytes / 4)
      let b := p % (t.rowBytes / 4) * 4
      let x := fun (j : Nat) => t.loadElem rd c row (8 * b / t.lb + j)
      moves (if gw then .gw else .sp) (t.localAt loc row b)
        (leBytes 4 (if t.lb = 64 then x 0 / 2 ^ (8 * (b % 8)) % 2 ^ 32 else packEls t.lb (32 / t.lb) x)) (decide (t.n ≠ 0))) ∧
    (∀ r gw loc c row w dest, k.kind = .tensor true r gw loc c → ((tensorOf r).storeWords c)[p]? = some (row, w) →
      needs = (tensorOf r).storeNeeds c gw loc (row, w) →
      let t := tensorOf r
      let u := min 32 t.eb
      s1.engWhere e true t.spc (4 * w) 4 = .ok dest →
      ∃ t', exec (.bytesCounted core slot [p]) s = .next t' ∧ others t' dest 4 ∧ counts t' 0 (decide (t.n ≠ 0)) ∧
        ∀ j < 32 / u, bitsN (leNat (t'.placeBytes e dest 4)) (u * j) u =
          match t.partAt c (row, w) j with
          | some q => t.storeElem rd gw loc row q.1 / 2 ^ q.2 % 2 ^ u
          | none => bitsN (leNat (s.placeBytes e dest 4)) (u * j) u) ∧
    (∀ d, k.kind.near? = some d → p < nearCount k.kind d → needs = nearNeeds k.kind d p →
      let n := nearOf d
      let (aux, a, len) := nearPiece k.kind d p
      let spc := if aux then n.asp else n.dsp
      s1.nearIn e n.stack true spc a len = .ok () → 0 < len → moves spc a (nearBytes rd k.kind d p) true) ∧
    ∀ q src len g, k.kind = .send q src len → 4 * p + 4 ≤ len → s.anyGang? k.gid = some g → s.sendQ? g.world q ≠ none →
      needs = [(src.spc, src.a + 4 * p)] →
      ∃ t, exec (.bytesCounted core slot [p]) s = .next t ∧ t.mem = s.mem ∧ t.bb = s.bb ∧ counts t 4 true) ∧
  (∀ (s : State) (core slot : Nat) (k : Cmd), s.cmd? core slot = some k → k.killed = false → k.status = none → k.due = 0 →
    let becomes := fun (k' : Cmd) => ∃ t, exec (.bytesCounted core slot []) s = .next t ∧ t.cmd? core slot = some k' ∧ t.mem = s.mem ∧
      t.bb = s.bb
    (∀ list n ssp dst g s1 k1, k.kind = .gather list n ssp dst → s.anyGang? k.gid = some g → list % 16 = 0 →
      State.readWords core (s, k) ((List.range (4 * n)).map fun i => (.sp, list + 4 * i)) = .ok (s1, k1) →
      let at_ := fun (i o : Nat) => k1.reads .sp (list + 16 * i + o) % 2 ^ 32
      let bad := fun (i : Nat) => at_ i 8 % 4 ≠ 0 ∨ at_ i 12 ≠ 0 ∨ (ssp = .sp ∨ ssp = .gw) ∧ at_ i 4 ≠ 0
      let total := ((List.range n).map fun i => at_ i 8 / 4 * 4).sum
      ((∀ i < n, ¬ bad i) → total < 2 ^ 31 →
        becomes { k1 with
          total := total, buf := [], kind := .pieces ((List.range n).map fun i => (at_ i 0 + 2 ^ 32 * at_ i 4, at_ i 8)) ssp dst }) ∧
      ((∀ i < n, ¬ bad i) → 2 ^ 31 ≤ total → becomes { k1 with total := total, status := some fAlign }) ∧
      ∀ i < n, bad i → (∀ j < i, ¬ bad j) → list + 16 * n ≤ g.spBytes →
        let gc := g.gcOf k.wi
        g.touchesObj gc (list + 16 * i + 12) 4 = false → gc < g.sp.length → (∀ m ∈ g.sp, Memory.wf m = true) →
        ∃ t g', exec (.bytesCounted core slot []) s = .next t ∧ t.cmd? core slot = some { k1 with total := total, status := some fAlign } ∧
          t.anyGang? k.gid = some g' ∧ g'.padBytes gc (list + 16 * i + 12) 4 = leBytes 4 0xFFFFFFFF) ∧
    ∀ d, k.kind.near? = some d → k.ready = false →
      (nearSkew k.kind = true → becomes { k with status := some fAlign }) ∧
      ∀ x s2 k2, nearSkew k.kind = false → State.readWords core (s, k) k.first = .ok x → State.readWords core x x.2.first = .ok (s2, k2) →
        let n := nearOf d
        let has := fun (spc : CSpc) (a len : Nat) => ∀ b < len, k2.got spc ((a + b) / 4 * 4) ≠ none
        becomes { k2 with ready := true } ∧
        (∀ t, k.kind = .nget t d → ∀ i < n.count, has n.asp (n.aux + 4 * i) 4 ∧
          has n.ssp (n.src + 4 * t.words * k2.reads n.asp (n.aux + 4 * i)) (4 * t.words)) ∧
        (∀ t op, k.kind = .nred t op d → has n.ssp n.src (elBits t * n.count / 8)) ∧
        ∀ t ord src, k.kind = .ncvt t ord src d → k2 = k ∧ s2 = s) ∧
  (∀ (s : State) (core slot : Nat) (k : Cmd) (w : Warp) (g : Gang),
    s.cmd? core slot = some k → s.gang? k.gid = some g → s.warp? (k.gid, k.wi) = some w → (∃ th ∈ w.threads, th.exited = false) →
    s.landing core k = false →
    (∀ q, k.cnt = some q → ∃ o, g.obj? q.2 = some o ∧ o.held = [] ∧ o.arr ≠ o.expArr ∧ s.unitFails g q.2 = false) →
    let all := match k.kind with
      | .gather list n _ _ => if k.total ≠ 0 then k.total
        else ((List.range n).map fun i => leNat (g.padBytes (g.gcOf k.wi) (list + 16 * i + 8) 4) / 4 * 4).sum
      | _ => k.total
    let ends := fun (status : Nat) (P : State → Prop) =>
      ∃ t g', exec (.commandEnd core slot) s = .next t ∧ t.mem = s.mem ∧ t.bb = s.bb ∧ (∀ c ∈ (t.core core).slots, c.slot ≠ slot) ∧
        t.gang? k.gid = some g' ∧ P t ∧
        (w.hasDst k.t k.dst → (∀ c ∈ s.cores, c.2.kills = []) → (match k.dst with | .m _ n => n = 1 | .s _ n => n = 1) →
          ∃ w', t.warp? (k.gid, k.wi) = some w' ∧
            w'.holds k.t k.dst [BitVec.ofNat 32 (if status = 0 then 0 else status * 2 ^ 16 + k.seq.toNat % 2 ^ 16)]) ∧
        ∀ q o, k.cnt = some q → g.obj? q.2 = some o →
          let o1 := if status = 0 ∨ o.errCur = true then o else
            { o with errCur := true, error := BitVec.ofNat 64 (status * 2 ^ 48 + slot * 2 ^ 45 + k.code * 2 ^ 40 + k.seq.toNat) }
          g'.obj? q.2 = some { o1 with
            landed := if all ≤ k.counted then o.landed else min 0xFFFFFFFF (o.landed + (all - k.counted)), inflight := o.inflight - 1 }
    (k.killed = true → ends 1 fun _ => True) ∧
    (k.killed = false → ∀ c, k.status = some c → c ≠ 0 → ends c fun _ => True) ∧
    (k.killed = false → k.status = none → k.unread = false → (∀ p < k.kind.count, p ∈ k.donePcs) →
      k.kind.count ≤ k.donePcs.length →
      ((∀ q src len, k.kind ≠ .send q src len) → ends 0 fun _ => True) ∧
      ∀ q src len, k.kind = .send q src len → s.sendBefore core k = false →
        (s.sendQ? g.world q = none → ends 2 fun _ => True) ∧
        ∀ n, s.sendQ? g.world q = some n → ends 0 fun t => ∃ n' m, t.sendQ? g.world q = some n' ∧ n'.msgs = n.msgs ++ [m] ∧
          n'.seq = n.seq + 1 ∧ m.seq = n.seq ∧ m.owner = some (k.gid, k.wi, k.t) ∧
          m.payload = (List.range (len / 4)).flatMap fun i => leBytes 4 (k.reads src.spc (src.a + 4 * i))) ∧
    ∀ c kw v, (c, kw) ∈ s.cores → v ∈ kw.kills → v.left = [(core, k.seq)] → k.killed = true → k.cnt = none →
      (∀ c' ∈ s.cores, ∀ v' ∈ c'.2.kills, v' = v) → (v.gid, v.wi) = (k.gid, k.wi) → w.hasDst v.t v.dst →
      (match v.dst with | .m _ n => n = 1 | .s _ n => n = 1) →
      ∃ t w', exec (.commandEnd core slot) s = .next t ∧ t.warp? (k.gid, k.wi) = some w' ∧
        w'.holds v.t v.dst [BitVec.ofNat 32 (v.n % 2 ^ 16)] ∧ ∀ c' ∈ t.cores, c'.2.kills = [])

/-- R274 to R277: bget for a slot whose fill phase is complete, and bput.get for one whose free phase, of COUNT slots before, is (or that is
new), send D its status and the slot's address and change nothing else; where the phase is not complete the thread waits with D empty (log
entry 55), for a scalar D all threads with the one that acts (log entry 14), or its F_UNREACH is due where nothing can complete the phase
(R254). The phase bits of the status for a new slot are log entry 113. bput.put counts the slot's bytes and completes the fill phase; bfree
counts an arrival of each thread on the free object, and with the last one that phase completes and its waiters continue. -/
def Obligations.BobbinsWork : Prop :=  ∀ (h : Hdr) (x : VOps) (gw : Bool) (s : State) (i : Iss) (b : Thread → Bobbin) (fill free : Thread → Obj),
    Issues s h i → i.on ≠ [] → (∀ th ∈ i.act, th.wait = .none) →
    (∀ th ∈ i.on, s.bobbin i th gw (i.arg s x.imm x.a 1 th) = .ok (b th, fill th, free th)) →
    let slot := fun th => i.arg s x.imm x.b 1 th
    let who := i.writers x.d
    let status := fun (o : Obj) (p : Word) =>
      let past := o.lap - p ≠ 1
      p.toNat % 2 ^ 16 * 2 ^ 16 + (if past then 8 else (if o.lastErr then 4 else 0) + if o.lastShort then 2 else 0) + 1
    let done := fun (o : Obj) (p : Word) => 1 ≤ (o.lap - p).toNat ∧ (o.lap - p).toNat ≤ 2 ^ 31
    let ready := (x.d.cls = .m ∨ x.d.cls = .s) ∧ ∀ th ∈ who, i.ready s [⟨x.a, 1⟩, ⟨x.b, 1⟩] [⟨x.d, 2⟩] false x.imm th
    let answers := fun (ins : Instr) (s0 : State) (status : Thread → Nat) =>
      ready → ∃ t, exec ins s = .next t ∧ Sends s0 t i (i.vacated x.d 2)
          (i.owed s.tick x.d 2 (s.windowOver i.g i.w [⟨x.a, 1⟩, ⟨x.b, 1⟩] x.imm)) ∧
        ∀ th ∈ who, i.flies s t th fun f => f.dst = opDst x.d 2 ∧
          f.act = .value (status th + 2 ^ 32 * (((b th).base + slot th % (max 1 (b th).count) * (b th).slotb) % 2 ^ 32))
    let waits := fun (ins : Instr) (ob : Thread → Obj) (p : Thread → Word) =>
      ready → (∀ th ∈ who, ¬ done (ob th) (p th)) →
      ∃ t w', exec ins s = .next t ∧ t.mem = s.mem ∧ t.warp? i.r = some w' ∧ ∀ th ∈ i.on, ∃ u,
        w'.thread? th.t = some u ∧ u.pc = i.pc ∧ u.pwerr = th.pwerr ∧
          ((w'.s = (i.vacated x.d 2).s ∧ u.m = (th.vacate x.d 2).m ∧ ∃ th0 ∈ who, ∃ d, (th ∈ who → th0 = th) ∧ opDst x.d 2 = some d ∧
              u.wait = .phase (ob th0).ref (p th0) none d
                (some (BitVec.ofNat 32 ((b th0).base + slot th0 % (max 1 (b th0).count) * (b th0).slotb)))) ∨
            ∃ a, u.wait = .unreach a)
    ((∀ th ∈ who, done (fill th) (BitVec.ofNat 32 (slot th))) →
      answers (.bget h x gw) (s.unveil i.r.1) fun th => status (fill th) (BitVec.ofNat 32 (slot th))) ∧
    (waits (.bget h x gw) fill fun th => BitVec.ofNat 32 (slot th)) ∧
    ((∀ th ∈ who, (b th).count ≤ slot th) → waits (.bputGet h x gw) free fun th => BitVec.ofNat 32 (slot th - (b th).count)) ∧
    ((∀ th ∈ who, (b th).count ≤ slot th → done (free th) (BitVec.ofNat 32 (slot th - (b th).count))) →
      answers (.bputGet h x gw) (if who.all (fun th => slot th < (b th).count) then s else s.unveil i.r.1) fun th =>
        if slot th < (b th).count then slot th % 2 ^ 16 * 2 ^ 16 + 9
        else status (free th) (BitVec.ofNat 32 (slot th - (b th).count))) ∧
    (∀ th, who = [th] → i.ready s [⟨x.a, 1⟩, ⟨x.b, 1⟩] [] false x.imm th → (fill th).boundq = false → s.unitFails i.g (fill th).ref = false →
      s.released i.r th.t (fill th).scope ((b th).inSlot i.g (slot th)) = true → (fill th).arr = 0 → (fill th).held = [] →
      0 < (b th).slotb → (fill th).landed + (b th).slotb ≤ 0xFFFFFFFF →
      ∃ t g' o, exec (.bputPut h x gw) s = .next t ∧ t.mem = s.mem ∧ t.gang? i.r.1 = some g' ∧ g'.sp = i.g.sp ∧
        g'.obj? (fill th).ref = some o ∧ o.lap = (fill th).lap + 1 ∧ o.landed = (fill th).landed ∧
        (∀ q, q ≠ (fill th).ref → g'.obj? q = i.g.obj? q) ∧
        ∃ w u, t.warp? i.r = some w ∧ w.thread? th.t = some u ∧ u.pc = nextPc i.pc) ∧
    (∀ o, (∀ th ∈ i.on, free th = o ∧ (∀ p ∈ th.opens, p.1 ≠ o.ref) ∧ th.opens.length < 4 ∧ i.ready s [⟨x.a, 1⟩] [] false x.imm th ∧
        s.loadsDone i.r th.t = true ∧ s.relWaits i.r th = false) → s.unitFails i.g o.ref = false →
      o.members.getLsbD i.w.wi = true → o.held = [] → i.w.report? (i.on.map (·.t)) = none →
      let frees := fun (P : State → Gang → Warp → Prop) =>
        ∃ t g' w, exec (.bfree h x gw) s = .next t ∧ t.mem = s.mem ∧ t.gang? i.r.1 = some g' ∧ g'.sp = i.g.sp ∧ t.warp? i.r = some w ∧
          (∀ q, q ≠ o.ref → g'.obj? q = i.g.obj? q) ∧ P t g' w ∧ ∀ th ∈ i.on, ∃ u, w.thread? th.t = some u ∧ u.pc = nextPc i.pc
      (o.arr + i.on.length < o.expArr →
        frees fun _ g' w => g'.obj? o.ref = some { o with arr := o.arr + i.on.length } ∧
          ∀ th ∈ i.on, ∃ u, w.thread? th.t = some u ∧ (o.ref, o.lap) ∈ u.opens) ∧
      (o.arr + i.on.length = o.expArr → o.expBytes ≤ o.landed →
        frees fun t g' _ =>
          g'.obj? o.ref = some { o with
            lap := o.lap + 1, arr := o.exited, landed := o.landed - o.expBytes, expBytes := if o.keep then o.expBytes else 0,
            lastShort := o.shortCur, shortCur := decide (0 < o.exited), lastErr := o.errCur, errCur := false } ∧
          ∀ r w th lim d slot, r.1 = i.r.1 → s.warp? r = some w → (w.threads.map (·.t)).Nodup → th ∈ w.threads →
            th.wait = .phase o.ref o.lap lim d slot →
            ∃ w' u, t.warp? r = some w' ∧ w'.thread? th.t = some u ∧ u.pc = nextPc th.pc ∧ u.wait = .none))

/-- R278: bbind.rq of one thread binds an open, unbound queue to a bobbin whose objects are unbound and at one lap, with BOUNDQ set in the fill
object and status 0 on its way to D; with the queue not open its status is 0x0002 and nothing is bound. bbind.off ends the binding with
status 0. A message of a bound queue lands in its slot, leaves the queue, and counts the slot's bytes in the fill object,
whose phase completes with them where nothing else is due. -/
def Obligations.QueuesAreBound : Prop :=  (∀ (h : Hdr) (x : VOps) (gw : Bool) (s : State) (i : Iss) (th : Thread) (b : Bobbin) (fill free : Obj),
    Issues s h i → i.writers x.d = [th] → (x.d.cls = .m ∨ x.d.cls = .s) → i.on ≠ [] → (∀ u ∈ i.act, u.wait = .none) →
    s.bobbin i th gw (i.arg s x.imm x.a 1 th) = .ok (b, fill, free) →
    let q := i.arg s x.imm x.b 1 th
    let answers := fun (ins : Instr) (v : Nat) (P : Gang → Prop) =>
      ∃ t g', exec ins s = .next t ∧ t.mem = s.mem ∧ t.gang? i.r.1 = some g' ∧ g'.sp = i.g.sp ∧ P g' ∧
        i.flies s t th fun f => f.act = .value v ∧ f.dst = opDst x.d 1
    (q < 64 → i.ready s [⟨x.a, 1⟩, ⟨x.b, 1⟩] [⟨x.d, 1⟩] false x.imm th →
      (s.recvQ? i.g.world q ≠ none → (∀ p ∈ s.allBinds, p.1.world = i.g.world → p.2.queue ≠ q) →
        (∀ k ∈ s.sealed, k.gang.world = i.g.world → ∀ b ∈ k.gang.binds, b.queue ≠ q) →
        (∀ k ∈ i.g.binds, k.fillObj ≠ fill.ref ∧ k.freeObj ≠ free.ref) →
        (s.allBinds.filter fun p => nth p.1.cores p.2.core 0 = i.w.core).length < 4 → fill.lap = free.lap →
        answers (.bbindRq h x gw) 0 fun g' =>
          g'.obj? fill.ref = some { fill with boundq := true } ∧
          g'.binds = i.g.binds ++ [⟨i.w.wi / warpsPerCore i.g.n, q, b, fill.ref, free.ref, fill.lap, fill.lap.toNat⟩]) ∧
      (s.recvQ? i.g.world q = none →
        answers (.bbindRq h x gw) (2 * 2 ^ 16) fun g' => g'.binds = i.g.binds ∧ g'.objs = i.g.objs)) ∧
    ((∃ k ∈ i.g.binds, k.fillObj = fill.ref) → i.ready s [⟨x.a, 1⟩] [⟨x.d, 1⟩] false x.imm th →
      answers (.bbindOff h x gw) 0 fun g' =>
        g'.obj? fill.ref = some { fill with boundq := false } ∧ ∀ k ∈ g'.binds, k.fillObj ≠ fill.ref)) ∧
  ∀ (s : State) (core j : Nat) (g : Gang) (b : Binding) (q : NetQueue) (fr fo : Obj) (m : Msg) (ms : List Msg),
    (s.allBinds.filter fun p => nth p.1.cores p.2.core 0 = core)[j]? = some (g, b) → s.gang? g.gid = some g →
    s.recvQ? g.world b.queue = some q → g.obj? b.freeObj = some fr → g.obj? b.fillObj = some fo → q.msgs = m :: ms →
    (BitVec.ofNat 32 b.next - b.l0).toNat < b.bob.count → b.bob.gwRing = false → b.core < g.sp.length →
    Memory.wf (nth g.sp b.core []) = true → 16 ≤ b.bob.slotb → m.payload.length ≤ b.bob.slotb - 16 →
    let at_ := b.bob.base + b.next % b.bob.count * b.bob.slotb
    let bytes := leBytes 4 m.payload.length ++ leBytes 4 m.seq.toNat ++ leBytes 4 0 ++ leBytes 4 0 ++ m.payload
    g.touchesObj b.core at_ bytes.length = false → fo.held = [] → s.unitFails g b.fillObj = false → fo.landed + b.bob.slotb ≤ 0xFFFFFFFF →
    ∃ t g', exec (.receiveLanding core j) s = .next t ∧ t.mem = s.mem ∧ t.gang? g.gid = some g' ∧
      (nth g'.sp b.core []).readN at_ bytes.length = bytes ∧
      (∀ a, (a < at_ ∨ at_ + bytes.length ≤ a) → (nth g'.sp b.core []).read a = (nth g.sp b.core []).read a) ∧
      (∃ q', t.recvQ? g.world b.queue = some q' ∧ q'.msgs = ms) ∧ (∀ k ∈ g'.binds, k.fillObj = b.fillObj → k.next = (b.next + 1) % 2 ^ 32) ∧
      let landed := fo.landed + b.bob.slotb
      g'.obj? b.fillObj = some
        (if fo.arr = fo.expArr ∧ fo.expBytes ≤ landed ∧ 0 < fo.expArr + fo.expBytes then
          { fo with
            lap := fo.lap + 1, arr := fo.exited, landed := landed - fo.expBytes, expBytes := if fo.keep then fo.expBytes else 0,
            lastShort := fo.shortCur, shortCur := decide (0 < fo.exited), lastErr := fo.errCur, errCur := false }
        else { fo with landed := landed })

/-- R280 to R282: dadv with a stage left whose commands pass and fit starts them in entry order for the lowest guard-true thread and answers
the stage's number; past the last stage it answers 0xFFFF_FFFF. dstat writes D with the next stage, the stages and the open commands of
the draft. ckill abandons the commands it names; with none to abandon it answers 0, and else it is kept, with those it waits for, until
the last has stopped (the statement of COMMAND_END). -/
def Obligations.DraftsAdvance : Prop :=  ∀ (h : Hdr) (x : VOps),
    (∀ (s : State) (i : Iss) (th : Thread) (r : List Thread), Issues s h i → i.on = th :: r →
      i.ready s [] (if x.d = .none then [] else [⟨x.d, 1⟩]) false x.imm th →
      let answers := fun (v : Nat) (P : State → Prop) =>
        ∃ t w, exec (.dadv h x) s = .next t ∧ t.mem = s.mem ∧ P t ∧ t.warp? i.r = some w ∧
          (∃ u, w.thread? th.t = some u ∧ u.pc = nextPc i.pc) ∧
          (opDst x.d 1 ≠ none → i.flies s t th fun f => f.act = .value v ∧ f.dst = opDst x.d 1)
      (i.g.nstage ≤ i.g.nextStage → answers 0xFFFFFFFF fun t => ∀ c, (t.core c).slots = (s.core c).slots) ∧
      (∀ fs, i.g.nextStage < i.g.nstage → i.g.stageForms i.g.nextStage = fs → (∀ f ∈ fs, s.entryGate i th f = .go) →
        (s.core i.w.core).slots.length + fs.length ≤ 8 →
        answers i.g.nextStage fun t => ∃ g', t.gang? i.r.1 = some g' ∧ g'.nextStage = i.g.nextStage + 1 ∧
          ∃ ks, (t.core i.w.core).slots = (s.core i.w.core).slots ++ ks ∧
            ((∀ f ∈ fs, opDst f.d 1 ≠ none) → ks.length = fs.length) ∧
            ((∀ f ∈ fs, opDst f.d 1 ≠ none) → ∀ (j : Nat) (f : CmdForm) (k : Cmd), fs[j]? = some f → ks[j]? = some k →
              k.seq = (s.core i.w.core).ceSeq + BitVec.ofNat 32 j ∧ opDst f.d 1 = some k.dst ∧ f.chk s i th = .ok (k.kind, k.total) ∧
              k.code = f.code ∧ k.ga = f.ga ∧ k.sys = f.sys) ∧
            ∀ k ∈ ks, k.draft = true ∧ k.t = th.t ∧ k.gid = i.r.1 ∧ k.wi = i.r.2)) ∧
    (∀ (s : State) (i : Iss), Issues s h i → (∀ th ∈ i.writers x.d, i.ready s (flds x 0 0 0) [⟨x.d, 1⟩] false x.imm th) →
      let v := i.g.nextStage * 2 ^ 24 + i.g.nstage * 2 ^ 16 + (s.cmdsOf i.g.gid fun k => k.draft).length % 2 ^ 16
      ∃ t, exec (.dstat h x) s = .next t ∧
        Keeps s t i (i.scalars (i.writers x.d) x.d 1 fun _ => v) (i.plainThread s x.d 1 (flds x 0 0 0) x.imm (fun _ th => th) fun _ => v)) ∧
    ∀ (s : State) (i : Iss) (th : Thread) (which : Kill), Issues s h i → i.writers x.d = [th] → (x.d.cls = .m ∨ x.d.cls = .s) →
      i.ready s [] [⟨x.d, 1⟩] false x.imm th →
      let named := fun (k : Cmd) => k.gid = i.r.1 ∧
        match which with
        | .own => k.wi = i.r.2 ∧ k.t = th.t
        | .block => True
        | .draft => k.draft = true
      ∃ t g', exec (.ckill h x which) s = .next t ∧ t.mem = s.mem ∧ t.gang? i.r.1 = some g' ∧
        (∀ c k, k ∈ (t.core c).slots → named k → k.killed = true) ∧
        (∀ c k, k ∈ (s.core c).slots → ¬ named k → k ∈ (t.core c).slots) ∧
        (which = .draft → g'.nextStage = i.g.nstage) ∧
        (let hit := s.cmdsOf i.r.1 fun k => !k.killed && killWants which i.r th.t k
         hit ≠ [] → ∃ v ∈ (t.core i.w.core).kills, v.gid = i.r.1 ∧ v.wi = i.r.2 ∧ v.t = th.t ∧ opDst x.d 1 = some v.dst ∧
           v.n = hit.length ∧ v.left = hit.map fun p => (p.1, p.2.seq)) ∧
        ((∀ c ∈ s.cores, ∀ k ∈ c.2.slots, named k → k.killed = true) → i.flies s t th fun f => f.act = .value 0 ∧ f.dst = opDst x.d 1)

/-- R284 to R286, R290 to R297: a group C instruction that the whole warp takes part in, with operands readable, its checks passed and room in
its quarter's queue, is placed there: the command holds the instruction, its threads, its captured fragments and in-place C and its
addresses; its destination registers empty in every thread; the counter it names has one more producer; nothing else changes. Where a warp
of the team has no live thread the command is discarded at once (R286), which this does not cover. -/
def Obligations.MatrixCommandsQueue : Prop :=  ∀ (h : Hdr) (x : VOps) (t : Ty) (s : State) (i : Iss) (th : Thread) (rest : List Thread),
    Issues s h i → i.on = th :: rest → (∀ u ∈ i.w.live, u ∈ i.on) → (s.quarter i.w.core i.w.quarter).mq.length < 8 →
    (∀ w ∈ i.g.warps, w.wi / 4 = i.w.wi / 4 → w.live ≠ []) →
    let arg := fun (o : Opnd) (u : Thread) => i.arg s x.imm o 1 u
    let places := fun (ins : Instr) (src dst : List Fld) (a b c : Fld) (counts : Bool) (adr : Nat × Nat) (fine : Thread → Prop) =>
      s.mGate i src dst (decide (c.n ≠ 0)) (fun _ => none) = .go → (∀ u ∈ i.on, fine u) → s.teamFault i ins = none →
      (∀ pt keep, mReads ins = some (pt, keep) → s.ownsTile i pt = true) →
      ∀ counter : Option ObjRef,
      (match if counts then counterOf x.imm else none with
       | none => counter = none
       | some (gw, v) => ∃ o, s.named i.g i.w gw v = .ok o ∧ counter = some o.ref) →
      ∃ u k, exec ins s = .next u ∧ { u.outside with nextId := 0 } = { s.outside with nextId := 0 } ∧
        k.gid = i.r.1 ∧ k.wi = i.r.2 ∧ k.instr = ins ∧ k.threads = maskOf (i.on.map (·.t)) ∧
        k.seq = (s.quarter i.w.core i.w.quarter).mSeq ∧ k.a = s.capture i a.x a.n ∧ k.b = s.capture i b.x b.n ∧
        k.c = s.capture i c.x c.n ∧ k.addr = adr.1 ∧ k.addr2 = adr.2 ∧ k.started = false ∧
        Leaves
          ((s.modQuarter i.w.core i.w.quarter fun r => { r with mq := r.mq ++ [k], mSeq := r.mSeq + 1 }).modGang i.r.1 fun g =>
            match counter with
            | some r => g.modObj r fun o => { o with inflight := o.inflight + 1 }
            | none => g)
          u i { i.w with teamSeq := if mTeam ins then i.w.teamSeq + 1 else i.w.teamSeq }
          (fun v => match mDst ins with
            | some d => if v ∈ i.on then { i.moved s.tick v with m := emptyRegs v.m d.1 d.2 } else i.moved s.tick v
            | none => i.moved s.tick v)
    let off : Fld := ⟨.none, 0⟩
    let f := t.fragWords
    (∀ (acc : Acc) (part pt solo : Bool),
      let c : Fld := ⟨x.d, cWords acc.half solo⟩
      places (.mxm h x t acc part pt solo) [⟨x.a, f⟩, ⟨x.b, f⟩] (if part then [] else [c]) ⟨x.a, f⟩ ⟨x.b, f⟩ (if part then off else c)
        true (0, 0) fun _ => True) ∧
    (∀ (tr part pt solo : Bool) (acc : Acc) (k : Konst),
      let c : Fld := ⟨x.d, cWords acc.half solo⟩
      places (.mxc h x t tr acc part pt solo k) ([⟨x.a, f⟩] ++ if k = .perm then [⟨x.b, 1⟩] else []) (if part then [] else [c])
        ⟨x.a, f⟩ off (if part then off else c) true (arg x.b th, 0)
        fun u => k = .perm → arg x.b u % 32 = 0 ∧ arg x.b u + 32 ≤ i.g.spBytes) ∧
    (∀ (pt keep : Bool) (div : Div),
      let c : Fld := ⟨x.d, cWords t.half false⟩
      places (.msca h x t pt keep div) [⟨x.a, 1⟩, ⟨x.b, 1⟩] [c] off off c true (arg x.a th, arg x.b th)
        fun u => arg x.a u % 4 = 0 ∧ arg x.b u % 4 = 0 ∧ arg x.a u + 128 * i.w.quarter + 128 ≤ i.g.spBytes ∧
          arg x.b u + 512 ≤ i.g.spBytes) ∧
    (∀ (pt tile solo : Bool), places (.mzero h x t pt tile solo) [] (if tile then [] else [⟨x.d, cWords t.half solo⟩]) off off off true
      (0, 0) fun _ => True) ∧
    (∀ (pt keep : Bool), places (.mxrd h x t pt keep) [] [⟨x.d, cWords t.half false⟩] off off off true (0, 0) fun _ => True) ∧
    ∀ (cc solo : Bool),
      let lb := lineBytes t cc solo
      let at_ := fun u => wrapN 32 (arg x.a u + x.imm.toInt)
      let pitch := fun u => if x.c = .none then lb else arg x.c u
      let fine := fun u => at_ u % 16 = 0 ∧ pitch u % 16 = 0 ∧ lb ≤ pitch u ∧ at_ u + 31 * pitch u + lb ≤ i.g.spBytes
      let tail : List Fld := if x.c = .none then [] else [⟨x.c, 1⟩]
      places (.ldf h x t cc solo) (⟨x.a, 1⟩ :: tail) [⟨x.d, lb / 16⟩] off off off false (at_ th, pitch th) fine ∧
      places (.stf h x t cc solo) ([⟨x.a, 1⟩, ⟨x.b, lb / 16⟩] ++ tail) [] off ⟨x.b, lb / 16⟩ off false (at_ th, pitch th) fine

/-- R295, R297: MATRIX_COMMAND_START. A command whose inputs have been captured and whose unit and tile are free starts with the scratchpad
bytes it reads, and claims its tile; TEAM_COMMAND_START starts the four commands of a team together. Memory and registers are as before.

R243, R285, R298: MATRIX_COMMAND_END. A started command that no unit struck leaves its queue with its results: the destination registers of
each of its threads that lives are full with them, or its tile holds them, or, for stf, the scratchpad bytes of each such thread's line
piece hold its registers and no other byte has changed. A command that found its tile unowned, for the claim before it was discarded, leaves
free values in its registers (log entry 111, the model's choice). -/
def Obligations.MatrixCommandsRun : Prop :=
  (∀ (s : State),
    (∀ (core q id : Nat) (k : MCmd) (g : Gang),
      (s.quarter core q).mq.find? (fun k => k.id = id) = some k → mTeam k.instr = false → s.mayStart core q k = true →
      q < (s.core core).quarters.length → s.gang? k.gid = some g →
      ∃ t k', exec (.matrixCommandStart core q id) s = .next t ∧ t.outside = s.outside ∧ t.gangs = s.gangs ∧
        (t.quarter core q).mq.find? (fun k => k.id = id) = some k' ∧ k'.started = true ∧
        k'.data = ((k.readsAt q).flatMap fun p => g.padBytes (g.gcOf k.wi) p.1 p.2) ∧
        ∀ pt, mClaim k.instr = some pt → pt < (s.quarter core q).tiles.length →
          (nth (t.quarter core q).tiles pt {}).owner = some (k.gid, k.wi)) ∧
    ∀ (gid team : Nat),
      s.teamReady gid team ≠ [] → (∀ e ∈ s.teamReady gid team, s.mayStart e.1 e.2.1 e.2.2 = true) →
      (∀ e ∈ s.teamReady gid team, e.2.1 < (s.core e.1).quarters.length ∧ e.2.2 ∈ (s.quarter e.1 e.2.1).mq) →
      ∃ t, exec (.teamCommandStart gid team) s = .next t ∧ t.outside = s.outside ∧ t.gangs = s.gangs ∧
        ∀ e ∈ s.teamReady gid team, ∃ k ∈ (t.quarter e.1 e.2.1).mq, k.id = e.2.2.id ∧ k.started = true) ∧
  (∀ (s : State) (core q id : Nat) (k : MCmd) (g : Gang) (w : Warp),
    (s.quarter core q).mq.find? (fun k => k.id = id) = some k → k.started = true → mTeam k.instr = false → k.cnt = none → k.bad = none →
    q < (s.core core).quarters.length → (∀ j ∈ (s.quarter core q).mq, j.id ≠ id → j.gid ≠ k.gid ∨ j.wi ≠ k.wi) →
    s.gang? k.gid = some g → s.warp? (k.gid, k.wi) = some w → (∃ th ∈ w.threads, th.exited = false) →
    let out := k.out [k.b] (s.quarter core q).tiles
    let ends := fun (P : State → Gang → Prop) =>
      ∃ t g', exec (.matrixCommandEnd core q id 0) s = .next t ∧ t.mem = s.mem ∧ (∀ j ∈ (t.quarter core q).mq, j.id ≠ id) ∧
        t.gang? k.gid = some g' ∧ P t g'
    (∀ v d, out = (if k.stray then out else .regs v) → mDst k.instr = some d →
      (k.stray = true → v = (List.range 128).map fun n => (List.range d.2).map (Config.strayTile k.id n)) →
      ends fun t g' => g'.sp = g.sp ∧ ∀ n th, w.thread? n = some th → th.exited = false → k.threads.getLsbD n = true →
        ∃ w' u, t.warp? (k.gid, k.wi) = some w' ∧ w'.thread? n = some u ∧
          ∀ j < d.2, d.1 + j < th.m.length → nth u.m (d.1 + j) {} = { v := nth (nth v n []) j 0 }) ∧
    (∀ pt y, k.stray = false → out = .tile pt y → pt < (s.quarter core q).tiles.length → (∀ keep, mReads k.instr ≠ some (pt, keep)) →
      ends fun t g' => g'.sp = g.sp ∧ (nth (t.quarter core q).tiles pt {}).x = y ∧ (nth (t.quarter core q).tiles pt {}).bad = none) ∧
    (∀ v, k.stray = false → out = .stores v → (g.gcOf k.wi < g.sp.length ∧ Memory.wf (nth g.sp (g.gcOf k.wi) []) = true) →
      (∀ p ∈ v, p.2.length % 4 = 0 ∧ g.touchesObj (g.gcOf k.wi) p.1 p.2.length = false) →
      (v.Pairwise fun p p' => overlaps p.1 p.2.length p'.1 p'.2.length = false) →
      let writes := fun (n : Nat) => k.threads.getLsbD n = true ∧ ∃ th, w.thread? n = some th ∧ th.exited = false
      ends fun _ g' =>
        (∀ n p, v[n]? = some p → writes n → (nth g'.sp (g.gcOf k.wi) []).readN p.1 p.2.length = p.2) ∧
        ∀ a, (∀ n p, v[n]? = some p → writes n → a < p.1 ∨ p.1 + p.2.length ≤ a) →
          (nth g'.sp (g.gcOf k.wi) []).read a = (nth g.sp (g.gcOf k.wi) []).read a))

/-- R125 to R128, R287, R290, R291: where mxm or mxc accumulates in its registers, the C element at row r and column j, held by thread
4 r + j / (columns a thread holds), is made of the old one and the 32 products of line r of A and column j of B, the team's or the constant:
for 8-bit and 4-bit inputs the exact sum rounded once, or wrapped for integers; for 16-bit inputs the sum of the terms truncated 48 bits
below the largest, or of the fixed tree for the ones constant. With .tr the element at row s and column 32 c + r stands at row r and column
32 c + s. A partial tile takes the exact sum of the products.

R129, R287, R292 to R294, R296: what the other commands of group C yield at row r and column j, or in thread n: msca the old element plus
the tile's times its row and column scales over div, rounded once; mxrd the tile's element rounded, or for w32 clamped; mzero zeros, in
registers or in a tile; ldf the words of the thread's quarter of its line; stf the bytes of its registers, at that quarter's place. -/
def Obligations.ProductsAccumulate : Prop :=
  (∀ (k : MCmd) (h : Hdr) (x : VOps) (t : Ty) (acc : Acc) (pt solo : Bool) (bs : List (List MSrc)) (tiles : List Tile) (r j : Nat),
    r < 32 → j < (if solo then 32 else 128) →
    let per := if solo then 8 else 32
    let at_ := fun (word : Nat → Nat → Nat) (r j : Nat) =>
      let n := 4 * r + j / per
      let m := j % per
      if acc.half then word n (m / 2) / 2 ^ (16 * (m % 2)) % 2 ^ 16 else word n m
    let old := at_ fun n m => (nth k.c m (.cap [] none)).word n
    let int := fun (e : Exact) => match e with | .num n _ => n | _ => 0
    -- `new` is what R125 or R127 makes of an old element and the products of `a` and `b`
    let made := fun (a b : Nat → Exact) (old new : Nat) =>
      let ps := (List.range 32).map fun n => (a n).mul (b n)
      let terms := ps ++ [fp32.decode old]
      (t.isInteger = true → acc = .aw32 →
        new = wrapN 32 (old + ((List.range 32).map fun n => int (a n) * int (b n)).sum)) ∧
      (t.isInteger = false → t.half = false → ∀ f, (acc = .af32 ∧ f = fp32 ∨ acc = .af16 ∧ f = fp16 ∨ acc = .abf16 ∧ f = bf16) →
        new = f.round .rne ((f.decode old).add (Exact.sum ps))) ∧
      (t.half = true → acc = .af32 →
        ((∀ n e, Exact.sum terms ≠ .num n e) → Exact.sum terms ≠ .negZero → new = fp32.round .rne (Exact.sum terms)) ∧
        ((∀ u ∈ terms, ∀ n e, u = .num n e → n = 0) → new = fp32.round .rne (Exact.sum terms)) ∧
        ∀ top : Int, Exact.sum terms ≠ .nan → (∀ b, Exact.sum terms ≠ .inf b) →
          (∃ u ∈ terms, ∃ n e, u = .num n e ∧ n ≠ 0 ∧ (Nat.log2 n.natAbs : Int) + e = top) →
          (∀ u ∈ terms, ∀ n e, u = .num n e → n ≠ 0 → (Nat.log2 n.natAbs : Int) + e ≤ top) →
          let cut := fun (u : Exact) =>
            match u with
            | .num n e => if top - 48 ≤ e then n * 2 ^ (e - (top - 48)).toNat else n.tdiv (2 ^ (top - 48 - e).toNat)
            | _ => 0
          new = fp32.round .rne (.num ((terms.map cut).sum) (top - 48)))
    -- the exact sum a partial tile takes
    let exact_ := fun (a b : Nat → Exact) (p : Exact) =>
      (t.isInteger = true → ∃ n e, p = .num n e ∧ 0 ≤ e ∧ n * 2 ^ e.toNat = ((List.range 32).map fun n => int (a n) * int (b n)).sum) ∧
      (t.isInteger = false → p = Exact.sum ((List.range 32).map fun n => (a n).mul (b n)))
    let row := fun (r n : Nat) => fragEl t k.a r n
    let col := fun (n : Nat) => fragEl t (nth bs (j / 32) []) (j % 32) n
    (k.instr = .mxm h x t acc false pt solo → ∃ v, k.out bs tiles = .regs v ∧ v.length = 128 ∧
      made (row r) col (old r j) (at_ (fun n m => (nth (nth v n []) m 0).toNat) r j)) ∧
    (k.instr = .mxm h x t acc true pt solo → ∃ y, k.out bs tiles = .tile pt.toNat y ∧
      exact_ (row r) col (nth (nth y r []) j .nan)) ∧
    ∀ (tr : Bool) (c : Konst),
      let one := fun (j n : Nat) =>
        if (match c with | .ones => true | .id => n = j % 32 | .perm => n = (nth k.data (j % 32) 0).toNat % 32) then Exact.num 1 0
        else .num 0 0
      let r' := if tr then j % 32 else r
      let j' := if tr then j / 32 * 32 + r else j
      (k.instr = .mxc h x t tr acc false pt solo c → ∃ v, k.out bs tiles = .regs v ∧ v.length = 128 ∧
        let new := at_ (fun n m => (nth (nth v n []) m 0).toNat) r j
        (¬ (t.half = true ∧ c = .ones) → made (row r') (one j') (old r' j') new) ∧
        (t.half = true → c = .ones → acc = .af32 →
          let add := fun (a b : Exact) => fp32.decode (fp32.round .rne (a.add b))
          let level := fun (v : Nat → Exact) (n : Nat) => add (v (2 * n)) (v (2 * n + 1))
          new = fp32.round .rne ((fp32.decode (old r' j')).add (level (level (level (level (level (row r'))))) 0)))) ∧
      (k.instr = .mxc h x t tr acc true pt solo c → ∃ y, k.out bs tiles = .tile pt.toNat y ∧
        exact_ (row r) (one j) (nth (nth y r []) j .nan))) ∧
  (∀ (k : MCmd) (h : Hdr) (x : VOps) (t : Ty) (pt : Bool) (bs : List (List MSrc)) (tiles : List Tile) (r j n : Nat),
    r < 32 → j < 128 → n < 128 →
    let at_ := fun (word : Nat → Nat → Nat) =>
      let n := 4 * r + j / 32
      let m := j % 32
      if t.half then word n (m / 2) / 2 ^ (16 * (m % 2)) % 2 ^ 16 else word n m
    let yields := fun (P : (Nat → Nat → Nat) → Prop) => ∃ v, k.out bs tiles = .regs v ∧ v.length = 128 ∧
      P fun n m => (nth (nth v n []) m 0).toNat
    let el := nth (nth (nth tiles pt.toNat {}).x r []) j (.num 0 0)
    let old := at_ fun n m => (nth k.c m (.cap [] none)).word n
    let f := match t with | .f16x2 => fp16 | .bf16x2 => bf16 | _ => fp32
    let scale := fun (i : Nat) => s24.decode (leNat ((k.data.drop (4 * i)).take 4) / 256)
    (∀ keep div, t = .f32 ∨ t = .f16x2 ∨ t = .bf16x2 → k.instr = .msca h x t pt keep div →
      let d : Int := match div with | .d1 => 0 | .d16 => 4 | .d32 => 5
      yields fun word => at_ word = f.round .rne ((f.decode old).add (((el.mul (scale r)).mul (scale (32 + j))).scale (-d)))) ∧
    (∀ keep, k.instr = .mxrd h x t pt keep →
      (t = .f32 ∨ t = .f16x2 ∨ t = .bf16x2 → yields fun word => at_ word = f.round .rne el) ∧
      (t = .w32 → yields fun word => at_ word = wrapN 32 (toRange .rne (-(2 ^ 31)) (2 ^ 31 - 1) el))) ∧
    (∀ solo, k.instr = .mzero h x t pt false solo → yields fun word => ∀ m, word n m = 0) ∧
    (∀ solo, k.instr = .mzero h x t pt true solo → ∃ y, k.out bs tiles = .tile pt.toNat y ∧ nth (nth y r []) j .nan = .num 0 0) ∧
    ∀ (cc solo : Bool),
      let line := if cc then (if t.half then 256 else 512) / (if solo then 4 else 1) else 16 * t.fragWords
      (k.instr = .ldf h x t cc solo → yields fun word => ∀ m < line / 16,
        word n m = leNat ((k.data.drop (n / 4 * line + n % 4 * (line / 4) + 4 * m)).take 4)) ∧
      (k.instr = .stf h x t cc solo → ∃ v, k.out bs tiles = .stores v ∧ v.length = 128 ∧
        v[n]? = some (k.addr + n / 4 * k.addr2 + n % 4 * (line / 4), k.b.flatMap fun m => leBytes 4 (m.word n))))

/-- R307 to R309, R314, R317: a trap of any instruction and faults, in a warp outside a handler whose HENTRY passes the checks of R85 and
under no lock-down response that takes a fault's class: INH is set, the warp's record holds PC and the active set, each thread of the
active set holds its own fault, or 0, with its o and l as they stood, and stands at HENTRY with o and l empty; the stride has ended, and
memory is as before. trap.sw raises its code in every guard-true thread, and brk.hit F_BRK in the lowest. (That brk.hit acts in the
lowest guard-true thread is log entry 14.)

R29 to R31, R38, R110, R299, R307, R343: where operands fault or block. In each thread that acts, the first source of A to D that is an
unfilled o or l register raises F_STALE; failing that, the first operand, D with them, that is empty with W = 0 raises F_EMPTY, and ADDR
holds its field value. If any thread so faults, or none has an empty operand and one has a poisoned source, or an address that is
misaligned or, in sp, outside S, the issue traps with each thread's own fault; a thread that only an empty operand would hold raises none.
If none so faults and one has an empty operand, the issue blocks: the stride ends, no register, program counter or guard changes, and the
threads wait for the registers that are empty. So it is with iadd, ffma, ld and st, whose windows read. -/
def Obligations.TrapsEnterTheHandler : Prop :=
  (∀ (h : Hdr) (x : VOps) (s : State) (i : Iss), Issues s h i →
    i.w.inh = false → i.w.hentry ≠ 0 → i.w.hentry.toNat < 2 ^ 42 → s.targetFault i.g i.w.core i.w.hentry.toNat true = none →
    let enters := fun (ins : Instr) (mine : Thread → Option Flt) =>
      ∃ t w, exec ins s = .next t ∧ t.mem = s.mem ∧ t.warp? i.r = some w ∧ w.inh = true ∧ w.recPc = i.pc ∧
        w.recMask = maskOf (i.act.map (·.t)) ∧ w.hentry = i.w.hentry ∧ w.stride = none ∧ w.s = i.w.s ∧ w.j = i.w.j ∧
        (∀ u ∈ i.act, ∃ v, w.thread? u.t = some v ∧ v.pc = BitVec.ofNat 42 i.w.hentry.toNat ∧ v.m = u.m ∧ v.g = u.g ∧
          v.recO = u.o ∧ v.recL = u.l ∧ v.o = List.replicate 8 none ∧ v.l = List.replicate 2 none ∧
          (match mine u with
           | some f => v.recCode = f.code ∧ v.recAddr = f.addr ∧ v.recAux = f.aux
           | none => v.recCode = 0 ∧ v.recAddr = 0 ∧ v.recAux = 0)) ∧
        ∀ u ∈ i.w.threads, u ∉ i.act → ∃ v, w.thread? u.t = some v ∧ v.pc = u.pc ∧ v.m = u.m ∧ v.recCode = u.recCode
    (∀ (ins : Instr) (fs : List (Nat × Flt)), exec ins s = .next (s.trap i.r i.pc (i.act.map (·.t)) fs) → s.lockCause fs = none →
      enters ins fun u => (fs.find? fun p => p.1 = u.t).map (·.2)) ∧
    ∀ (th : Thread) (rest : List Thread), i.on = th :: rest →
      enters (.trapSw h x) (fun u => if u ∈ i.on then some { code := 0x8000 + (x.imm.extractLsb' 0 12).toNat } else none) ∧
      enters (.brkHit h x) (fun u => if u = th then some { code := 0x7001, addr := (x.imm.extractLsb' 0 16).toNat } else none)) ∧
  (∀ (h : Hdr) (x : VOps) (s : State) (i : Iss), Issues s h i →
    let checks := fun (ins : Instr) (who : List Thread) (src dst : List Fld) (late : Thread → Option Flt) =>
      (∀ f ∈ src, s.windowReads i.g i.w.core f x.imm = true) →
      let first := fun (th : Thread) =>
        match src.find? fun f => stale th f.x f.n with
        | some f => some ({ code := 0x1006, addr := (Opnd.bits f.x).toNat } : Flt)
        | none => ((src ++ dst).find? fun f => emptyAt i.w th f.x f.n = some false).map fun f =>
          { code := 0x1005, addr := (Opnd.bits f.x).toNat }
      let holds := fun (th : Thread) => (src ++ dst).any fun f => (emptyAt i.w th f.x f.n).isSome
      let poison := fun (th : Thread) => src.findSome? fun f => (poisonAt i.w th f.x f.n).map fun p =>
        ({ code := if p = .pipe then 0x5001 else 0x5002, addr := 0x8000 + (Opnd.bits f.x).toNat } : Flt)
      let mine := fun (th : Thread) => (first th).or (if holds th then none else (poison th).or (late th))
      ((∃ th ∈ who, first th ≠ none) ∨ (∀ th ∈ who, holds th = false) → ∀ th ∈ who, mine th ≠ none →
        ∃ fs, exec ins s = .next (s.trap i.r i.pc (i.act.map (·.t)) fs) ∧ (∀ p ∈ fs, ∃ u ∈ who, u.t = p.1) ∧
          ∀ u ∈ who, (fs.find? fun p => p.1 = u.t).map (·.2) = mine u) ∧
      ((∀ th ∈ who, first th = none) → (∃ th ∈ who, holds th = true) →
        ∃ t owed w, exec ins s = .next t ∧ t.warp? i.r = some w ∧ w.stride = none ∧
          (∀ k, k ∈ owed ↔ ∃ th ∈ who, ∃ f ∈ src ++ dst, ∃ d, opDst f.x f.n = some d ∧ k ∈ d.keys th.t ∧ (i.w.regAt k).full = false) ∧
          Keeps s t i i.w fun th => if th ∈ i.act ∧ th.wait = .none then { th with wait := .regs owed } else th)
    checks (.iadd h x .w32 false) (i.writers x.d) (flds x 1 1 0) [⟨x.d, 1⟩] (fun _ => none) ∧
    (∀ r, checks (.ffma h x r) (i.writers x.d) (flds x 1 1 1) [⟨x.d, 1⟩] (fun _ => none)) ∧
    ∀ (z : Sz) (p : Spc) (win : BitVec 3) (ga : Bool), p ≠ .pw → i.w.stall = none → (∀ th ∈ i.on, s.acqWaits i.r th = false) →
      let n := szLen z
      let addr := fun (th : Thread) => accAddr p (i.arg s x.imm x.a p.addrWords th) x.imm
      (∀ th ∈ i.on, addr th % n ≠ 0 ∨ (p = .sp ∧ i.g.spBytes < addr th + n)) →
      let late := fun (th : Thread) =>
        some ({ code := if addr th % n ≠ 0 then 0x1007 else 0x2002, addr := addr th } : Flt)
      checks (.ld h x z p win) (i.writers x.d) [⟨x.a, p.addrWords⟩] [⟨x.d, z.words⟩] late ∧
      checks (.st h x z p ga) i.on [⟨x.a, p.addrWords⟩, ⟨x.b, z.words⟩] [] late)

/-- R310: whatever the instruction and the faults, an issue that traps in a handler, or with HENTRY zero and a code other than F_PIPE and
F_FETCH, or those a second time, or with an HENTRY that fails its checks, kills the context where no lock-down response takes it: its gang
is resident no more, its launch is marked, and the error log of its core's die has the code, the program counter and the world. So it is
with trap.sw, brk.hit and an rte outside a handler. -/
def Obligations.UnhandledTrapsKill : Prop :=  ∀ (h : Hdr) (x : VOps) (s : State) (i : Iss) (th : Thread) (rest : List Thread), Issues s h i → i.on = th :: rest →
    s.logRoom (dieOfCore i.w.core) →
    let kills := fun (ins : Instr) (f : Flt) =>
      ∃ t, exec ins s = .next t ∧ t.mem = s.mem ∧ t.gang? i.r.1 = none ∧
        (∀ g k, g ≠ i.r.1 → s.gang? g = some k → ∃ k', t.gang? g = some k' ∧ k.woken k') ∧ (∀ l ∈ t.launches, l.lid = i.g.launch → l.killed = true) ∧
        s.logged t (dieOfCore i.w.core) fun e =>
          e.code = f.code ∧ e.addr = f.addr ∧ e.pc = i.pc.toNat ∧ e.world = i.g.world ∧ e.src = 1 ∧ e.srcId = i.w.core
    (∀ (ins : Instr) (n : Nat) (f : Flt) (fs : List (Nat × Flt)),
      exec ins s = .next (s.trap i.r i.pc (i.act.map (·.t)) ((n, f) :: fs)) → s.lockCause ((n, f) :: fs) = none →
      (i.w.inh = true ∨
        (i.w.hentry = 0 ∧ ((∃ p ∈ (n, f) :: fs, p.2.code ≠ 0x5001 ∧ p.2.code ≠ 0x100A) ∨ i.w.dretry = some i.pc)) ∨
        (i.w.hentry ≠ 0 ∧ s.targetFault i.g i.w.core i.w.hentry.toNat true ≠ none)) →
      kills ins f) ∧
    (i.w.inh = true ∨ i.w.hentry = 0 →
      kills (.trapSw h x) { code := 0x8000 + (x.imm.extractLsb' 0 12).toNat } ∧
      kills (.brkHit h x) { code := 0x7001, addr := (x.imm.extractLsb' 0 16).toNat }) ∧
    ∀ skip, i.w.inh = false → i.w.hentry = 0 → kills (.rte h x skip) { code := 0x1001, addr := 0x381 }

/-- R41, R42, R315: an rte that every thread of AMASK that has not exited executes in one issue returns: INH is clear, each continues at PC, or
after it with `.skip`, and where the stride goes on its o and l are those of its record. Where others of AMASK are still due, it waits. An
rte outside a handler raises F_ILLOP, and a guard-false one does nothing. In a handler it first waits for a line of its target that cannot
be read yet (R355, R361). (That a target that fails its checks is a fault of the rte, and that none needs a TGT mark, is log entry 21.) -/
def Obligations.RteReturns : Prop :=  ∀ (h : Hdr) (x : VOps) (skip : Bool) (s : State) (i : Iss), Issues s h i →
    let back := if skip then nextPc i.w.recPc else i.w.recPc
    (i.on = [] → ∃ t, exec (.rte h x skip) s = .next t ∧ t.mem = s.mem ∧ t.outside = s.outside) ∧
    (i.on ≠ [] → i.w.inh = true → (∀ th ∈ i.on, i.w.recMask.getLsbD th.t = true) →
      s.targetFault i.g i.w.core back.toNat false = none → s.fetchHeld i.g i.w.core back.toNat = false →
      ((∀ th ∈ i.w.live, i.w.recMask.getLsbD th.t = true → th ∈ i.on) →
        ∃ t w, exec (.rte h x skip) s = .next t ∧ t.mem = s.mem ∧ t.warp? i.r = some w ∧ w.inh = false ∧ w.s = i.w.s ∧
          ∀ th ∈ i.on, ∃ u, w.thread? th.t = some u ∧ u.pc = back ∧ u.wait = .none ∧ u.m = th.m ∧ u.g = th.g ∧
            (w.stride ≠ none → u.o = th.recO ∧ u.l = th.recL)) ∧
      ((∃ th ∈ i.w.live, i.w.recMask.getLsbD th.t = true ∧ th ∉ i.on ∧ ∀ k, th.wait ≠ .rte k) →
        ∃ t w, exec (.rte h x skip) s = .next t ∧ t.mem = s.mem ∧ t.warp? i.r = some w ∧ w.inh = true ∧
          ∀ th ∈ i.on, ∃ u, w.thread? th.t = some u ∧ u.pc = i.pc ∧ u.wait = .rte skip)) ∧
    (i.on ≠ [] → i.w.inh = false →
      exec (.rte h x skip) s = .next (s.trap i.r i.pc (i.act.map (·.t)) (i.on.map fun th => (th.t, { code := 0x1001, addr := 0x381 }))))

/-- R309, R314, R316: trap.hset writes HENTRY with a program counter or zero, and trap.hget reads it; rdf writes D with the field of the trap
record that SEL names. They change nothing else.

R317, R319 to R321: brk.bp and brk.wp write the breakpoint or watchpoint register of the block that IMM names; evtack clears the bits of its
mask in the warp's event register and D holds the old one: of a D in m each thread in turn, else once for the warp, for its lowest thread
(log entry 14); yld marks the warp as yielded and ends the stride. Nothing else changes. -/
def Obligations.TrapRegistersMove : Prop :=
  (∀ (h : Hdr) (x : VOps) (s : State) (i : Iss), Issues s h i →
    (∀ th rest, i.on = th :: rest → i.ready s [⟨x.a, 2⟩] [] false x.imm th →
      let a := i.arg s x.imm x.a 2 th
      a < 2 ^ 42 ∧ (a % 64 = 0 ∨ a % 64 = 12 ∨ a % 64 = 24 ∨ a % 64 = 36 ∨ a % 64 = 48) →
      ∃ t, exec (.trapHset h x) s = .next t ∧ Keeps s t i { i.w with hentry := BitVec.ofNat 64 a } fun u =>
        if u ∈ i.on then { i.moved s.tick u with pwerr := u.pwerr ||| s.windowOver i.g i.w [⟨x.a, 2⟩] x.imm } else i.moved s.tick u) ∧
    let reads := fun (ins : Instr) (n : Nat) (v : Thread → Nat) =>
      (∀ th ∈ i.writers x.d, i.ready s (flds x 0 0 0) [⟨x.d, n⟩] false x.imm th) →
      ∃ t, exec ins s = .next t ∧
        Keeps s t i (i.scalars (i.writers x.d) x.d n v) (i.plainThread s x.d n (flds x 0 0 0) x.imm (fun _ th => th) v)
    reads (.trapHget h x) 2 (fun _ => i.w.hentry.toNat) ∧
    let sel := (x.imm.extractLsb' 0 5).toNat
    (sel = 0 → reads (.rdf h x) 1 fun th => th.recCode) ∧
    (sel = 1 → reads (.rdf h x) 1 fun th => th.recAddr % 2 ^ 32) ∧
    (sel = 2 → reads (.rdf h x) 1 fun th => th.recAddr / 2 ^ 32) ∧
    (sel = 3 → reads (.rdf h x) 1 fun th => th.recAux) ∧
    (sel = 4 → reads (.rdf h x) 2 fun _ => i.w.recPc.toNat) ∧
    (sel = 5 → reads (.rdf h x) 4 fun _ => i.w.recMask.toNat) ∧
    (sel = 6 → reads (.rdf h x) 1 fun _ => i.w.inh.toNat + 2 * i.w.recDefer.toNat) ∧
    (∀ v : Thread → Word, 8 ≤ sel → sel < 16 → (∀ th ∈ i.writers x.d, nth th.recO (sel - 8) none = some (v th)) →
      reads (.rdf h x) 1 fun th => (v th).toNat) ∧
    (∀ v : Thread → Word, (sel = 16 ∨ sel = 17) → (∀ th ∈ i.writers x.d, nth th.recL (sel - 16) none = some (v th)) →
      reads (.rdf h x) 1 fun th => (v th).toNat)) ∧
  (∀ (h : Hdr) (x : VOps) (s : State) (i : Iss) (th : Thread) (rest : List Thread), Issues s h i → i.on = th :: rest →
    let a := i.arg s x.imm x.a 2 th
    let b := i.arg s x.imm x.b 1 th
    (i.ready s [⟨x.a, 2⟩] [] false x.imm th →
      a < 2 ^ 42 ∧ (a % 64 = 0 ∨ a % 64 = 12 ∨ a % 64 = 24 ∨ a % 64 = 36 ∨ a % 64 = 48) →
      ∃ t, exec (.brkBp h x) s = .next t ∧ t.outside = s.outside ∧
        Leaves (s.modGang i.r.1 fun g => { g with bp := modAt g.bp (x.imm.extractLsb' 0 2).toNat fun _ => BitVec.ofNat 64 a }) t i i.w
          (i.moved s.tick)) ∧
    (i.ready s [⟨x.a, 2⟩, ⟨x.b, 1⟩] [] false x.imm th → (∃ k, 2 ≤ k ∧ k ≤ 16 ∧ b = 2 ^ k) → a % b = 0 →
      ∃ t, exec (.brkWp h x) s = .next t ∧ t.outside = s.outside ∧
        Leaves (s.modGang i.r.1 fun g => { g with wp := modAt g.wp (x.imm.extractLsb' 0 1).toNat fun _ =>
          { addr := a, len := b, kind := x.imm.extractLsb' 2 2 } }) t i i.w (i.moved s.tick)) ∧
    (let who := if x.d.cls = .m then i.on else i.on.take 1
     (∀ u ∈ who, i.ready s [⟨x.a, 1⟩] (if x.d = .none then [] else [⟨x.d, 1⟩]) false x.imm u) →
      let after := fun (us : List Thread) =>
        us.foldl (fun (e : BitVec 4) (u : Thread) => e &&& ~~~(BitVec.ofNat 4 (i.arg s x.imm x.a 1 u))) i.w.evt
      ∃ t, exec (.evtack h x) s = .next t ∧ t.outside = s.outside ∧
        Leaves s t i { i.scalars who x.d 1 (fun _ => i.w.evt.toNat) with evt := after who } fun u =>
          let u1 := if u ∈ i.on then { i.moved s.tick u with pwerr := u.pwerr ||| s.windowOver i.g i.w [⟨x.a, 1⟩] x.imm } else i.moved s.tick u
          if u ∈ who then u1.put x.d 1 (after (who.takeWhile (· ≠ u))).toNat else u1) ∧
    ∃ t w, exec (.yld h x) s = .next t ∧ Keeps s t i { i.w with yielded := true, noticeYld := true } (i.moved s.tick) ∧
      t.warp? i.r = some w ∧ w.stride = none)

/-- R218 to R224, R313, R322: setroot, retype and tinv of an acting thread complete at once: D empties and the request is pending with its
operands. setroot has taken a root that the frame table allows, and its status says why not otherwise; SETROOT_COMPLETE, RETYPE_AT_HOME
and TINV_COMPLETE answer. (That the root is taken at the issue is log entry 83.) -/
def Obligations.RequestsDepart : Prop :=  ∀ (h : Hdr) (x : VOps) (s : State) (i : Iss) (th : Thread) (dst : Dst), Issues s h i → i.on ≠ [] →
    (if x.d.cls = .m then i.on else i.on.take 1) = [th] → opDst x.d 1 = some dst →
    let a := i.arg s x.imm x.a 1 th
    let b := i.arg s x.imm x.b 1 th
    let c := i.arg s x.imm x.c 1 th
    let asks := fun (ins : Instr) (src : List Fld) (req : Req → Prop) (P : State → Prop) =>
      i.ready s src [⟨x.d, 1⟩] false x.imm th →
      ∃ t w p, exec ins s = .next t ∧ t.mem = s.mem ∧ t.pending = s.pending ++ [p] ∧ p.gid = i.r.1 ∧ p.wi = i.r.2 ∧ p.t = th.t ∧
        p.dst = dst ∧ req p.req ∧ t.warp? i.r = some w ∧ (∃ u, w.thread? th.t = some u ∧ u.pc = nextPc i.pc) ∧ P t
    let f := s.frame a
    let status := if 0x2000000 ≤ a ∨ f.owner ≠ i.g.world then 2 * 2 ^ 16 else if f.type ≠ 3 then 3 * 2 ^ 16 + f.type % 2 ^ 16
      else if f.mig then 6 * 2 ^ 16 else if 65535 ≤ f.use then 7 * 2 ^ 16 else 0
    (a = 0xFFFFFFFF → asks (.setroot h x) [⟨x.a, 1⟩] (· = .setroot 0) fun t => ∃ g, t.gang? i.r.1 = some g ∧ g.root = none) ∧
    (a ≠ 0xFFFFFFFF → asks (.setroot h x) [⟨x.a, 1⟩] (· = .setroot (BitVec.ofNat 32 status)) fun t =>
      ∃ g, t.gang? i.r.1 = some g ∧ g.root = if status = 0 then some a else i.g.root) ∧
    (b < 8 → x.c = .none → asks (.retype h x) [⟨x.a, 1⟩, ⟨x.b, 1⟩] (· = .retype a b none (i.g.world = 0) i.g.world) fun t => t.frames = s.frames) ∧
    (b < 8 → c < 64 → x.c ≠ .none →
      asks (.retype h x) [⟨x.a, 1⟩, ⟨x.b, 1⟩, ⟨x.c, 1⟩] (· = .retype a b (some c) (i.g.world = 0) i.g.world) fun t => t.frames = s.frames) ∧
    asks (.tinv h x) [⟨x.a, 1⟩, ⟨x.b, 1⟩]
      (fun r => ∃ before, r = .tinv i.g.world (i.g.root.getD 0) (a % 2 ^ 26) b ((s.core i.w.core).tinvSeq.setWidth 32) before)
      fun t => t.frames = s.frames ∧ (t.core i.w.core).tinvSeq = (s.core i.w.core).tinvSeq + 1

/-- R178, R208, R323, R324: launch, once its stores are performed, places its record at the tail of a queue with room and its status 0 is on
its way, and into a full queue places nothing, with status 0x00300000; opreq begins a step to another point where none is pending (0),
and otherwise answers 0x00400000 or 0x00410000 at once; a step downward asks for the contexts that R182 pre-empts. LAUNCH_QUEUE_WRITE
places a record in the same way. (That a record carries the root of its issuer is log entry 5.) -/
def Obligations.LaunchAndOpreqComplete : Prop :=  (∀ (h : Hdr) (x : VOps) (s : State) (i : Iss) (th : Thread), Issues s h i →
    (if x.d.cls = .m then i.on else i.on.take 1) = [th] →
    let a := i.arg s x.imm x.a 2 th
    let b := i.arg s x.imm x.b 1 th
    (i.ready s [⟨x.a, 2⟩, ⟨x.b, 1⟩] [⟨x.d, 1⟩] false x.imm th → a % 256 = 0 → b < 64 → (x.d.cls = .m ∨ x.d.cls = .s) →
      s.writesDone i.r th.t .dev (fun _ => true) = true →
      ∃ t, exec (.launch h x) s = .next t ∧ t.mem = s.mem ∧ t.launches = s.launches ∧
        if (s.queue i.g.world b).used < 16 then
          (t.queue i.g.world b).records = (s.queue i.g.world b).records ++ [(a, i.g.root)] ∧
          i.flies s t th fun f => f.act = .value 0 ∧ f.dst = opDst x.d 1
        else t.queues = s.queues ∧ i.flies s t th fun f => f.act = .value 0x00300000 ∧ f.dst = opDst x.d 1) ∧
    ∀ k : BitVec 2, i.ready s [⟨x.a, 1⟩] [⟨x.d, 1⟩] false x.imm th → i.arg s x.imm x.a 1 th = k.toNat →
      let status := if s.opstep.isSome then 0x00400000 else if k.toNat = s.opcur then 0x00410000 else 0
      ∃ t, exec (.opreq h x) s = .next t ∧ t.mem = s.mem ∧ t.opcur = s.opcur ∧
        (status ≠ 0 → t.opstep = s.opstep) ∧
        (status = 0 → ∃ q, t.opstep = some q ∧ q.target = k.toNat ∧ q.stage = 1 ∧
          ∀ g ∈ s.gangs, g.ctl = false → (s.gangs.map (·.gid)).Nodup →
            (g.gid ∈ q.asked ↔ s.opcur < k.toNat ∧ (g.minop < k.toNat ∨ ∃ c ∈ g.cores, s.capAt c k.toNat < s.highWater c))) ∧
        Leaves s t i (i.scalars [th] x.d 1 fun _ => status) fun u =>
          let past := s.windowOver i.g i.w [⟨x.a, 1⟩] x.imm
          let v := if u ∈ i.on then { i.moved s.tick u with pwerr := u.pwerr ||| past } else i.moved s.tick u
          if u = th then v.put x.d 1 status else v) ∧
  ∀ (s : State) (world q a : Nat) (root : Option Nat), world < 64 → q < 64 →
    ∃ t, exec (.launchQueueWrite world q a root) s = .next t ∧
      if (s.queue world q).used < 16 then
        (t.queue world q).records = (s.queue world q).records ++ [(a, root)] ∧ { t with queues := s.queues } = s
      else t = s

/-- R362 to R365: relay by the whole warp of a relay-capable launch, with its registers full, nothing outstanding and no report pending, to
the die that homes its address: it stays where it is with status 1 and its die where that is its own; else it goes home, or to the landing
slot of the first core of that die that has one, and RELAY_ARRIVAL moves it there with its status; with no slot free its status is 0x50
and it stays. Its tiles go with it and stand in the array of its new quarter (log entries 84 and 100). -/
def Obligations.RelaysMove : Prop :=  (∀ (h : Hdr) (x : VOps) (s : State) (i : Iss) (th : Thread) (rest : List Thread) (pa : Nat), Issues s h i → i.on = th :: rest →
    (∀ u ∈ i.w.live, u ∈ i.on) → i.g.relayCap = true → (x.d.cls = .m ∨ x.d.cls = .s) →
    (∀ u ∈ i.on, i.ready s [⟨x.a, 2⟩] [⟨x.d, 1⟩] false x.imm u ∧
      ∃ q, s.translate i.w.core i.g.world i.g.root (i.arg s x.imm x.a 2 u) .load = .ok q false) →
    s.translate i.w.core i.g.world i.g.root (i.arg s x.imm x.a 2 th) .load = .ok pa false →
    s.outstanding i.w i.r.1 = 0 → i.w.allFull = true → i.w.report? (i.on.map (·.t)) = none →
    (∀ f ∈ s.flights, f.gid = i.r.1 → f.wi = i.r.2 → f.needOst = false) →
    let die := homeDie pa
    let landing := (s.visibleOn die).find? fun c => (s.core c).landing.isNone
    let goes := fun (status : Nat) (dest : Option (Nat × Nat × Nat)) =>
      ∃ t w, exec (.relay h x) s = .next t ∧ t.mem = s.mem ∧ t.warp? i.r = some w ∧ w.relayTo = (if dest = none then i.w.relayTo else dest) ∧
        (dest ≠ none → w.carried = s.tilesOf i.r i.w ∧ t.tilesOf i.r i.w = []) ∧
        ∀ u ∈ i.writers x.d, i.flies s t u fun f => f.act = .value status ∧ f.dst = opDst x.d 1
    (die = dieOfCore i.w.core → goes (0x00010000 + die) none) ∧
    (die ≠ dieOfCore i.w.core → die = dieOfCore i.w.homeCore → goes die (some (i.w.homeCore, i.w.wi % 4, i.w.homeSlot))) ∧
    (die ≠ dieOfCore i.w.core → die ≠ dieOfCore i.w.homeCore →
      (∀ c, landing = some c → goes die (some (c, 0, 4))) ∧ (landing = none → goes (0x00500000 + die) none))) ∧
  ∀ (s : State) (gid wi core q slot : Nat) (w : Warp), s.warp? (gid, wi) = some w → w.relayTo = some (core, q, slot) →
    (∀ p ∈ w.carried, s.tileFree core q p.1 = true) →
    ∃ t w', exec (.relayArrival gid wi) s = .next t ∧ t.mem = s.mem ∧ t.warp? (gid, wi) = some w' ∧ w'.core = core ∧ w'.quarter = q ∧
      w'.slot = slot ∧ w'.relayTo = none ∧ w'.carried = [] ∧
      (q < (s.core core).quarters.length → (w.carried.map (·.1)).Nodup → ∀ p ∈ w.carried, p.1 < (s.quarter core q).tiles.length →
        nth (t.quarter core q).tiles p.1 {} = p.2) ∧
      ∀ f k v th, f ∈ s.flights → f.gid = gid → f.wi = wi → f.act = .value v → f.dst = some (.m k 1) → f.len = 4 →
        (∀ f' ∈ s.flights, f'.gid = gid → f'.wi = wi → f'.t = f.t → f' = f) →
        w.thread? f.t = some th → th.exited = false → k < th.m.length →
        ∃ u, w'.thread? f.t = some u ∧ nth u.m k {} = { v := BitVec.ofNat 32 v }

/-- R155, R183, R184: STRIDE_SLOT. A quarter whose issue slot is free, on a core that runs, gives it to its only ready warp, which begins a
stride with the thread group that has gone longest without issuing, of lowest program counter among equals. Of several, where no wait
counter has reached its bound, the chosen one has the greatest class, and is the next behind the slot that class served last; with one that
has been ready and passed over in 60 slots, or unissued in 256, it is one with the greatest count; nothing outside the gangs and cores
changes.

R86, R186, R196, R268: STALL_DATA_ARRIVAL brings what a warp stalls for: a return's data, a window's word, which enters the core's
parameter cache, or its records, once their lines can be read; the warp keeps its slot and stride. CLOCK_GATE gates an idle core, WAKE runs it again at its wake time with
the causes in $wake for the warps it then has, and not before. Memory is as before. -/
def Obligations.SlotsAndCoresMove : Prop :=
  ((∀ (s : State) (core q : Nat) (g : Gang) (w : Warp), s.mgmt.locked = false → (s.core core).gated = false →
    (s.quarter core q).running = none → q < (s.core core).quarters.length →
    s.warpsOf core q = [(g, w)] → g.ready w = true → s.warp? (g.gid, w.wi) = some w →
    ∃ t w' th, exec (.strideSlot core q) s = .next t ∧ t.outside = s.outside ∧
      (t.quarter core q).running = some (g.gid, w.wi) ∧ t.warp? (g.gid, w.wi) = some w' ∧
      w' = { w with stride := some { pc := th.pc, n := 0 }, passed := 0, unissued := 0, yielded := false } ∧
      th ∈ w.threads ∧ th.exited = false ∧ th.waits = false ∧
      ∀ u ∈ w.threads, w.eligible u = true → u.waits = false →
        w.groupLast th.pc < w.groupLast u.pc ∨ (w.groupLast th.pc = w.groupLast u.pc ∧ th.pc.toNat ≤ u.pc.toNat)) ∧
  ∀ (rr : Map Nat) (ws : List (Gang × Warp)), (∀ v ∈ ws, v.1.prio < 8 ∧ v.2.slot < 8) → ws ≠ [] →
    let cls := fun (v : Gang × Warp) => if v.2.demoted then 0 else v.1.prio
    ∃ p ∈ ws, ∃ turn, chooseWarp rr ws = some (p, turn) ∧
      ((∃ v ∈ ws, 60 ≤ v.2.passed) → ∀ v ∈ ws, v.2.passed ≤ p.2.passed) ∧
      ((∀ v ∈ ws, v.2.passed < 60) → (∃ v ∈ ws, 256 ≤ v.2.unissued) → ∀ v ∈ ws, v.2.unissued ≤ p.2.unissued) ∧
      ((∀ v ∈ ws, v.2.passed < 60 ∧ v.2.unissued < 256) → turn = some (cls p) ∧ ∀ v ∈ ws, cls v ≤ cls p ∧
        ∀ last, rr.get (cls p) 7 = last → last < 8 → cls v = cls p → (p.2.slot + 7 - last) % 8 ≤ (v.2.slot + 7 - last) % 8)) ∧
  ((∀ (s : State) (gid wi : Nat) (g : Gang) (w : Warp) (st : Stall), s.gang? gid = some g → s.warp? (gid, wi) = some w →
    w.stall = some st →
    let arrives := fun (st' : Stall) (P : State → Prop) =>
      ∃ t, exec (.stallDataArrival gid wi) s = .next t ∧ t.outside = s.outside ∧
        t.warp? (gid, wi) = some { w with stall := some st' } ∧ P t
    (∀ b, st = .ret b → arrives (.ret true) fun _ => True) ∧
    (∀ a pa, st = .param [a] → s.translate w.core g.world g.root a .load = .ok pa false → s.heldFor (gid, wi) a = false →
      arrives (.param []) fun t => (t.core w.core).pcache.get? (pcKey g a) = some (BitVec.ofNat 32 (s.mem.num pa 4))) ∧
    (∀ rs, st = .record rs →
      (∀ p ∈ rs, p.1 = true → ∀ k ∈ [0, 64, 128], s.heldFor (gid, wi) (p.2 + k) = false) →
      arrives (.record []) fun _ => True)) ∧
  ∀ (s : State) (c : Nat),
    (s.idleCore c = true → (s.core c).gated = false → ∃ t, exec (.clockGate c) s = .next t ∧ t.outside = s.outside ∧ t.gangs = s.gangs ∧
      t.core c = { s.core c with gated := true, causes := 0, wakeAt := none } ∧ ∀ k, k ≠ c → t.core k = s.core k) ∧
    (s.idleCore c = false → exec (.clockGate c) s = .next s) ∧
    ∀ u, (s.core c).gated = true → (s.core c).wakeAt = some u →
      (u ≤ (s.core c).clock → ∃ t, exec (.wake c) s = .next t ∧ t.outside = s.outside ∧
        t.gangs = s.gangs.map (fun g =>
          { g with warps := g.warps.map fun (w : Warp) => if w.core = c then { w with woke := true } else w }) ∧
        t.core c = { s.core c with gated := false, wakeReg := (s.core c).causes, wakeAt := none } ∧ ∀ k, k ≠ c → t.core k = s.core k) ∧
      ((s.core c).clock < u → exec (.wake c) s = .next s))

/-- R28, R171, R178 to R180: DISPATCH_ROUND with one current launch of one block, whose draft is sound and which fits, places that block on
the cores found: a resident gang whose threads stand at the entry with every register full, zero and unpoisoned, its scratchpad zero; the
launch has placed its last block and its queue is free. A launch that fits nowhere stays as it is. (The event names the cores each block prefers, which
R20 leaves open; the slot of each warp, not stated here, is log entry 16.)

R179: the current launches are ranked by PRIO, then by the turn of their worlds, then by that of a world's queues, and DISPATCH_ROUND
serves them in that order. Of two launches of one block each, the first has the first gang wherever it fits; where it fits nowhere the
second fills the cores it cannot use, the first has been passed over once more, and from 64 times on the cluster with the fewest
occupied cores is kept for it. (From where a turn counts is log entry 6.)

R170, R175, R176, R181, R363: a record that DISPATCH_ROUND takes is checked. One that cannot be read is logged and gone. The invalid
field of lowest offset is reported in the completion word, with STATUS 0x0003; a misaligned CPL is logged instead. A sound record whose
rows exceed the guarantee at its OPMINOP ends with 0x6001 and its rows before any block runs; any other is current, with the fields that
stand in the record. (P of a record whose REGS is out of range is log entry 101.)

R88, R177, R310: LAUNCH_COMPLETION of a launch whose every block has ended writes its completion word, and no other byte, and the launch
is gone; with a block still running it does nothing. KILL_COMPLETE ends a killed context for which nothing works any more, which counts
as an ended block of its launch, and its root has one use less. (The root the word's address is translated under, and the use that a
killed context gives up, are log entry 5.) -/
def Obligations.BlocksAndLaunchesMove : Prop :=
  (∀ (s : State) (k : Queue) (l : Launch) (prefs : List (List Nat)), s.mgmt.locked = false → s.queues = [k] → s.launches = [l] → k.cur = some l.lid →
    l.placed = 0 → l.blocks = 1 →
    let pref := prefs.headD []
    (∀ cl cs d, s.findPlace l.need l.bib [] pref = some (cl, cs) → s.draftHeld l.world l.root l.draft = false →
      s.readDraft l.world l.root l.regs l.draft = some d →
      ∃ t g, exec (.dispatchRound prefs) s = .next t ∧ t.mem = s.mem ∧ t.gangs = s.gangs ++ [g] ∧
        t.launches = [{ l with placed := 1, reserve := none, passed := 0 }] ∧
        (∀ j ∈ t.queues, j.cur = none ∧ j.records = k.records) ∧ g.cores = cs ∧ g.world = l.world ∧ g.launch = l.lid ∧ g.block = 0 ∧ g.n = l.regs ∧
        g.windows = l.windows ∧ g.levels = l.levels ∧ g.objs = [] ∧ g.draft = d.1 ∧ g.nstage = d.2 ∧ g.nextStage = 0 ∧
        (∀ p ∈ g.sp, p = []) ∧ (∀ p ∈ t.badPad, p.1 ≠ g.gid) ∧
        (∀ w ∈ g.warps, w.core = nth cs (w.wi / warpsPerCore l.regs) 0 ∧ w.s = List.replicate 64 ({} : Reg) ∧ w.hentry = 0 ∧ w.inh = false) ∧
        ∀ w ∈ g.warps, ∀ th ∈ w.threads, th.pc = BitVec.ofNat 42 l.entry ∧ th.exited = false ∧ th.m = List.replicate l.regs ({} : Reg) ∧
          th.g = 1 ∧ th.pwerr = 0 ∧ th.bi = 128 * w.wi + th.t ∧ th.bi < min l.blockT l.threads) ∧
    (s.findPlace l.need l.bib [] pref = none → ∃ t, exec (.dispatchRound prefs) s = .next t ∧ t.mem = s.mem ∧ t.gangs = s.gangs ∧
      t.launches = s.launches ∧ t.queues = s.queues)) ∧
  ((∀ s : State,
    let world := fun (l : Launch) => (l.world + 64 - s.rrWorld.get l.prio 0) % 64
    let queue := fun (l : Launch) => (l.queue + 64 - s.rrQueue.get (64 * l.prio + l.world) 0) % 64
    (∀ l, l ∈ s.ranked ↔ ∃ k ∈ s.queues, ∃ n, k.cur = some n ∧ s.launch? n = some l) ∧
    ((∀ l ∈ s.ranked, l.prio ≤ 7) → ∀ (i j : Nat) (a b : Launch), i < j → s.ranked[i]? = some a → s.ranked[j]? = some b →
      b.prio ≤ a.prio ∧ (a.prio = b.prio → world a ≤ world b ∧ (a.world = b.world → queue a ≤ queue b)))) ∧
  ∀ (s : State) (k1 k2 : Queue) (l1 l2 : Launch) (prefs : List (List Nat)), s.mgmt.locked = false → s.queues = [k1, k2] →
    k1.cur = some l1.lid → k2.cur = some l2.lid → s.launches = [l1, l2] → l1.lid ≠ l2.lid → s.ranked = [l1, l2] →
    (∀ l ∈ [l1, l2], l.placed = 0 ∧ l.blocks = 1 ∧ s.draftHeld l.world l.root l.draft = false ∧
      ∃ d, s.readDraft l.world l.root l.regs l.draft = some d) →
    (∀ cl cs, s.findPlace l1.need l1.bib l2.reserve.toList (prefs.headD []) = some (cl, cs) →
      ∃ t g more, exec (.dispatchRound prefs) s = .next t ∧ t.mem = s.mem ∧ t.gangs = s.gangs ++ g :: more ∧ g.launch = l1.lid ∧
        g.cores = cs ∧ more.length ≤ 1 ∧ ∀ h ∈ more, h.launch = l2.lid) ∧
    ∀ cl cs, s.findPlace l1.need l1.bib l2.reserve.toList (prefs.headD []) = none →
      s.findPlace l2.need l2.bib l1.reserve.toList (prefs.headD []) = some (cl, cs) →
      ∃ t g l, exec (.dispatchRound prefs) s = .next t ∧ t.mem = s.mem ∧ t.gangs = s.gangs ++ [g] ∧ g.launch = l2.lid ∧ g.cores = cs ∧
        t.launch? l1.lid = some l ∧ l.placed = 0 ∧ l.passed = l1.passed + 1 ∧
        l.reserve = (if 64 ≤ l1.passed + 1 then l1.reserve.or t.emptiest else l1.reserve) ∧
        ∀ u, t.emptiest = some u →
          let occupied := fun (c : Cluster) => (c.cores.filter fun k => t.onCore k ≠ []).length
          ∃ c ∈ t.clusters, c.unit = u ∧ ∀ c' ∈ t.clusters, occupied c ≤ occupied c') ∧
  ((∀ (bs : List Byte) (draftOk : Bool),
    let f := fun (o n : Nat) => leNat ((bs.drop o).take n)
    let P := 4 * min 4 (256 / max 8 (min 256 (f 72 2)))
    let entry := fun (k : Nat) => f (8 + 8 * k) 8
    let dom := fun (k : Nat) => entry k / 2 ^ 40 % 8
    let units := fun (k : Nat) => ((List.range (k + 1)).map fun j => entry j % 2 ^ 32).prod
    let fits := fun (k : Nat) =>
      (dom k = 0 → units k = 1) ∧ (dom k = 1 → 128 % units k = 0) ∧ (dom k = 2 → 512 % units k = 0) ∧
      (dom k = 3 → units k ≤ 128 * P) ∧ (dom k = 4 → units k ≤ 512 * P ∧ units k ≤ 8192)
    let wide := fun (k : Nat) =>
      let sc := entry k / 2 ^ 32 % 4;
      (dom k = 4 → 1 ≤ sc) ∧ (dom k = 5 ∨ dom k = 6 → 2 ≤ sc) ∧ (dom k = 7 → sc = 3)
    let sound := fun (k : Nat) =>
      if ∀ j ≤ k, 2 ^ 63 ≤ entry j then
        entry k / 2 ^ 43 % 2 ^ 20 = 0 ∧ entry k / 2 ^ 34 % 2 ^ 6 = 0 ∧ 1 ≤ entry k % 2 ^ 32 ∧ wide k ∧ (k = 0 ∨ dom (k - 1) ≤ dom k) ∧ fits k
      else k ≠ 0 ∧ entry k = 0
    let relay := f 77 1 % 2 = 1
    let bad := fun (o : Nat) =>
      (∃ k < 8, o = 8 + 8 * k ∧ ¬ sound k) ∨
      (o = 72 ∧ ¬ (8 ≤ f 72 2 ∧ f 72 2 ≤ 256 ∧ f 72 2 % 8 = 0 ∧ (relay → f 72 2 ≤ 64))) ∨ (o = 74 ∧ 4 ≤ f 74 1) ∨
      (o = 75 ∧ ¬ (1 ≤ f 75 1 ∧ f 75 1 ≤ 7)) ∨ (o = 76 ∧ 4 < f 76 1) ∨ (o = 77 ∧ 2 ≤ f 77 1) ∨ (o = 78 ∧ f 78 2 ≠ 0) ∨
      (o = 80 ∧ ¬ (f 80 4 ≤ 2097152 ∧ (relay → f 80 4 = 0))) ∨ (o = 84 ∧ 2 ^ 16 ≤ f 84 4) ∨ (o = 88 ∧ draftOk = false) ∨
      (o = 104 ∧ f 104 4 % 8 ≠ 0) ∨ (o = 108 ∧ f 108 4 ≠ 0) ∨ (o = 112 ∧ f 112 8 % 8 ≠ 0) ∨ (o = 120 ∧ f 120 8 ≠ 0) ∨
      ∃ w < 8, o = 128 + 16 * w + 12 ∧ 2 ≤ f o 4
    (∀ o, launchFault bs draftOk = some o → bad o ∧ ∀ o' < o, ¬ bad o') ∧ (launchFault bs draftOk = none → ∀ o, ¬ bad o)) ∧
  ∀ (s : State) (k : Queue) (a : Nat) (root : Option Nat) (prefs : List (List Nat)), s.mgmt.locked = false → s.queues = [k] →
    k.cur = none → k.records = [(a, root)] → s.launches = [] → s.recordHeld k.world a root = false →
    let rounds := fun (P : State → Prop) =>
      ∃ t, exec (.dispatchRound prefs) s = .next t ∧ t.mem = s.mem ∧ (∀ j ∈ t.queues, j.records = []) ∧ P t
    let logs := fun (t : State) (code : Nat) =>
      t.launches = [] ∧ t.gangs = s.gangs ∧ s.logged t 0 fun e => e.src = 7 ∧ e.code = code ∧ e.world = k.world ∧ e.addr = a
    (s.logRoom 0 → a % 256 ≠ 0 → rounds fun t => logs t 0x1007) ∧
    (∀ f, s.logRoom 0 → a % 256 = 0 → s.translate 1024 k.world (s.rootNow k.world root) a .load = .bad f → rounds fun t => logs t f.code) ∧
    ∀ bs pa b, a % 256 = 0 → s.translate 1024 k.world (s.rootNow k.world root) a .load = .ok pa b → s.dispatchRead k.world root a 256 = some bs →
      let f := fun (o n : Nat) => leNat ((bs.drop o).take n)
      let draftOk := (s.readDraft k.world root (f 72 2) (f 88 8)).isSome
      let rows := (f 80 4 + 1023) / 1024
      let most := if f 74 1 = 0 then 2048 else if f 74 1 = 1 then 1984 else if f 74 1 = 2 then 1920 else 1792
      let ends := fun (t : State) (word : Nat) =>
        t.gangs = s.gangs ∧ ∃ l, t.launches = [l] ∧ l.status = some word ∧ l.blocks = 0 ∧ l.placed = 0 ∧ l.cpl = f 112 8 ∧ l.world = k.world
      (∀ o, launchFault bs draftOk = some o → f 112 8 % 8 = 0 → rounds fun t => ends t (0x00030000 + o)) ∧
      (∀ o, s.logRoom 0 → launchFault bs draftOk = some o → f 112 8 % 8 ≠ 0 → rounds fun t => logs t 0x0003) ∧
      (launchFault bs draftOk = none → most < rows → rounds fun t => ends t (0x60010000 + rows)) ∧
      (launchFault bs draftOk = none → rows ≤ most → rounds fun t => ∃ l ∈ t.launches, l.record = a ∧ l.world = k.world ∧ l.queue = k.q ∧
        l.entry = f 0 8 ∧ l.regs = f 72 2 ∧ l.minop = f 74 1 ∧ l.prio = f 75 1 ∧ l.minCores = f 76 1 ∧ l.spBytes = f 80 4 ∧
        l.bib = f 84 4 ∧ l.cpl = f 112 8)) ∧
  ((∀ (s : State) (l : Launch), s.launch? l.lid = some l →
    (l.blocks ≤ l.placed → l.placed ≤ l.ended →
      (l.cpl = 0 → ∃ t, exec (.launchCompletion l.lid) s = .next t ∧ t.mem = s.mem ∧ t.launch? l.lid = none) ∧
      (∀ pa, l.cpl ≠ 0 → s.mem.wf = true → s.translate 1024 l.world (s.rootNow l.world l.root) l.cpl .plainStore = .ok pa false →
        ∃ t, exec (.launchCompletion l.lid) s = .next t ∧ t.launch? l.lid = none ∧
          t.mem.num pa 4 = (match l.status with | some v => v | none => if l.killed then 0x00020000 else 0x00010000) % 2 ^ 32 ∧
          ∀ a, (a < pa ∨ pa + 4 ≤ a) → t.mem.read a = s.mem.read a)) ∧
    (l.ended < l.placed → exec (.launchCompletion l.lid) s = .next s)) ∧
  ∀ (s : State) (g : Gang), s.dying.find? (fun h => h.gid = g.gid) = some g →
    (s.busy g.gid = true → exec (.killComplete g.gid) s = .next s) ∧
    (s.busy g.gid = false → ∃ t, exec (.killComplete g.gid) s = .next t ∧ t.mem = s.mem ∧ (∀ h ∈ t.dying, h.gid ≠ g.gid) ∧
      (∀ l, s.launch? g.launch = some l → t.launch? g.launch = some { l with ended := l.ended + 1 }) ∧
      ∀ f, g.root = some f → (t.frame f).use = (s.frame f).use - 1))

/-- R218 to R223, R313: SETROOT_COMPLETE, TINV_COMPLETE and RETYPE_AT_HOME answer a pending request: its destination fills with the status and
the request is gone. tinv's cached translations of the pages it names are gone, others are not. A retype that the home slice accepts gives
the frame its type, a frame that becomes or was a table reads zero and every other frame is as before; one that it refuses changes nothing
and is answered with the reason. -/
def Obligations.RequestsAreAnswered : Prop :=  ∀ (s : State) (p : Pending) (w : Warp), s.pending.find? (fun q => q.id = p.id) = some p → s.warp? (p.gid, p.wi) = some w →
    w.hasDst p.t p.dst → (∃ th ∈ w.threads, th.exited = false) → (match p.dst with | .m _ n => n = 1 | .s _ n => n = 1) →
    let answers := fun (ins : Instr) (v : Nat) (P : State → Prop) =>
      ∃ t w', exec ins s = .next t ∧ (∀ q ∈ t.pending, q.id ≠ p.id) ∧ t.warp? (p.gid, p.wi) = some w' ∧
        w'.holds p.t p.dst [BitVec.ofNat 32 v] ∧ P t
    (∀ st, p.req = .setroot st → answers (.setrootComplete p.id) st.toNat fun t => t.mem = s.mem ∧ t.frames = s.frames) ∧
    (∀ world root vpn n st before, p.req = .tinv world root vpn n st before →
      (∀ f ∈ s.threadFlights (p.gid, p.wi) p.t, before ≤ f.id) →
      answers (.tinvComplete p.id) st.toNat fun t => t.mem = s.mem ∧
        (∀ e ∈ t.tlb, e ∈ s.tlb) ∧
        ∀ e ∈ s.tlb, e.l1 = false →
          (e ∈ t.tlb ↔ ¬ (e.world = world ∧ e.root = root ∧ (n = 0 ∨ (e.vpn + 2 ^ 26 - vpn) % 2 ^ 26 < n)))) ∧
    ∀ f ty owner fw world, p.req = .retype f ty owner fw world →
      let e := s.frame f
      let table := fun (k : Nat) => k = 3 ∨ k = 4
      let allowed := if fw then ty ≠ 7 else 1 ≤ ty ∧ ty ≤ 4 ∧ 1 ≤ e.type ∧ e.type ≤ 4
      let refused := fun (status detail : Nat) =>
        answers (.retypeAtHome p.id) (status * 2 ^ 16 + detail % 2 ^ 16) fun t => t.mem = s.mem ∧ t.frames = s.frames
      let named := f < 0x2000000 ∧ (fw = true ∨ e.owner = world)
      (¬ named → refused 2 0) ∧
      (named → ¬ allowed → refused 3 e.type) ∧
      (named → allowed → e.mig = true → refused 6 0) ∧
      (named → allowed → e.mig = false → e.use ≠ 0 → refused 4 e.use) ∧
      (named → allowed → e.mig = false → e.use = 0 → e.valid ≠ 0 → refused 5 e.valid) ∧
      (named → allowed → e.mig = false → e.use = 0 → e.valid = 0 → (∃ k < 16, s.hasPassed k f = false) →
        refused 1 ((List.range 16).filter fun k => !s.hasPassed k f).length) ∧
      (named → allowed → e.mig = false → e.use = 0 → e.valid = 0 → (∀ k < 16, s.hasPassed k f = true) →
        answers (.retypeAtHome p.id) 0 fun t => (t.frame f).type = ty ∧ (fw = false → (t.frame f).owner = e.owner) ∧
          (∀ k, k ≠ f → t.frame k = s.frame k) ∧
          (table ty ∨ table e.type → ∀ a, a / 65536 = f → t.mem.read a = 0) ∧
          ∀ a, a / 65536 ≠ f → t.mem.read a = s.mem.read a)

/-- R215, R216, R219: TABLE_STORE_ADMISSION gives the next table store of a stalled warp, of any width and value, to the home slice of its table
frame; one of 8 bytes is aligned (R45). The first check that fails gives its subcode and nothing is written. Else the value stands in its
entry, no other byte has changed, a new target has one use more and the old one, dropped, one less, and the table counts one valid entry
more, or less. Where the dropped frame had one use left, its home slice's next number stands in its DROPSEQ and a purge with it is on its
way to each of the 16 slices; else none is. Beside it: PURGE of a frame at a slice, the oldest there of its home slice, removes that
frame's translations there, in the buffers of its die, and in every buffer those whose walks the slice makes, and marks its number
passed. -/
def Obligations.TablesAreStored : Prop :=  (∀ (s : State) (gid wi : Nat) (w : Warp) (st : TStore) (rest : List TStore) (answers : List (Nat × Nat)),
    s.warp? (gid, wi) = some w → w.stall = some (.table (st :: rest) answers) → s.mem.wf = true → (st.sz = 8 → st.pa % 8 = 0) →
    let T := st.pa / 65536
    let bits := fun (v : DWord) (lo n : Nat) => (v.extractLsb' lo n).toNat
    let e : DWord := BitVec.ofNat 64 st.v
    let old : DWord := BitVec.ofNat 64 (s.mem.num st.pa 8)
    let kind := bits e 58 2
    let target := bits e 33 25
    let F := s.frame target
    let newref := bits old 63 1 = 0 ∨ bits old 33 25 ≠ target
    let table := F.type = 3 ∨ F.type = 4
    let firm := (s.frame T).owner = 0 ∧ F.type = 6
    let subcode :=
      if st.sz ≠ 8 then 0x06
      else if bits e 63 1 = 0 then 0
      else if ((s.frame T).type = 3 ∧ kind ≠ 0) ∨ ((s.frame T).type = 4 ∧ kind = 0) ∨ (kind = 0 ∧ F.type = 3) then 0x01
      else if F.owner ≠ (s.frame T).owner then 0x02
      else if bits e 61 1 = 1 ∧ table then 0x03
      else if kind = 3 ∨ bits e 16 17 ≠ 0 then 0x04
      else if kind = 0 ∧ (F.type ≠ 4 ∨ bits e 62 1 = 1 ∨ bits e 60 1 = 1) then 0x04
      else if kind = 1 ∧ ¬ (((F.type = 1 ∨ firm) ∧ bits e 60 1 = 0) ∨ (table ∧ bits e 62 1 = 1 ∧ bits e 60 1 = 0)) then 0x04
      else if kind = 2 ∧ (¬ (F.type = 2 ∨ firm) ∨ bits e 61 1 = 1) then 0x04
      else if newref ∧ F.use = 65535 then 0x05
      else 0
    ∃ t, exec (.tableStoreAdmission gid wi) s = .next t ∧
      t.warp? (gid, wi) = some { w with stall := some (.table rest (answers ++ [(st.t, subcode)])) } ∧
      (subcode ≠ 0 → t.mem = s.mem ∧ t.frames = s.frames) ∧
      (subcode = 0 →
        t.mem.num st.pa 8 = st.v % 2 ^ 64 ∧ (∀ a, (a < st.pa ∨ st.pa + 8 ≤ a) → t.mem.read a = s.mem.read a) ∧
        ∀ f, (t.frame f).owner = (s.frame f).owner ∧ (t.frame f).type = (s.frame f).type ∧
          (t.frame f).use = (s.frame f).use + (if bits e 63 1 = 1 ∧ newref ∧ f = target then 1 else 0) -
            (if bits old 63 1 = 1 ∧ (bits e 63 1 = 0 ∨ newref) ∧ f = bits old 33 25 then 1 else 0) ∧
          (t.frame f).valid = if f = T then (s.frame f).valid + bits e 63 1 - bits old 63 1 else (s.frame f).valid) ∧
      let gone := bits old 33 25
      let dropped := subcode = 0 ∧ bits old 63 1 = 1 ∧ (bits e 63 1 = 0 ∨ newref)
      let home := homeSliceOfFrame gone
      let n := s.dropNext.get home 1
      (dropped → (s.frame gone).use = 1 → (t.frame gone).dropSeq = n ∧ t.dropNext.get home 1 = n + 1 ∧
        t.purges = s.purges ++ (List.range 16).map fun k => { slice := k, src := home, seq := n, frame := gone }) ∧
      (¬ dropped ∨ 2 ≤ (s.frame gone).use → t.purges = s.purges ∧ t.dropNext = s.dropNext ∧ ∀ f, (t.frame f).dropSeq = (s.frame f).dropSeq)) ∧
  ∀ (s : State) (slice frame : Nat) (p : Purge), s.purges.find? (fun p => p.slice = slice && p.frame = frame) = some p →
    s.purges.find? (fun q => q.slice = slice && q.src = p.src) = some p →
    ∃ t, exec (.purge slice frame) s = .next t ∧ t.mem = s.mem ∧ t.frames = s.frames ∧ t.purges = s.purges.erase p ∧
      t.passed.get (slice * 192 + p.src) 0 = p.seq ∧
      ∀ e, e ∈ t.tlb ↔ e ∈ s.tlb ∧
        ¬ ((e.slice = true ∧ e.at_ = slice ∨ e.slice = false ∧ (dieOfCore e.at_ = slice / 4 ∨ tlbSlice e.vpn = slice)) ∧
          (e.root = frame ∨ eFrame e.e1 = frame ∨ (e.l1 = false ∧ eFrame e.e2 = frame)))

/-- R187, R300, R319, R321, R325, R326: PREEMPT_REQUEST with enough CONTEXT frames of the world marks the gang and posts NOTICE where it gives a
notice period, and with too few does nothing; NOTICE_EXPIRY ends the period. SEAL of a gang at stride boundaries for which nothing is in
progress saves it with its registers, scratchpad and objects and with a tag over its image, and frees what it held. Memory is as before.
(That the notice runs on the first core's clock is log 44, that a seal waits for loads, requests and stores that others have seen is log
38, and the tag is Config's opaque value, log 7.)

R312, R328: RESUME checks the tag first. A sealed gang whose tag agrees is resident again on the cores offered, where they suit it, with its
registers, objects and scratchpad; one whose tag fails is gone, with nothing of it restored. Memory is as before. Whether cores suit it
asks their tiles too (log 42); the tag is Config's opaque value (log 7). -/
def Obligations.ContextsMove : Prop :=
  (∀ (s : State) (g : Gang), s.gang? g.gid = some g →
    let now := s.now (nth g.cores 0 0)
    (∀ (notice : Option Nat) (frames : List Nat), g.preempt = none →
      (∀ f ∈ frames, (s.frame f).type = 5 ∧ (s.frame f).owner = g.world) → frames.Nodup →
      (g.framesNeeded ≤ frames.length → ∃ t g', exec (.preemptRequest g.gid notice frames) s = .next t ∧ t.mem = s.mem ∧
        t.gang? g.gid = some g' ∧ g'.preempt = some { notice := notice.map (now + ·), frames := frames } ∧ g'.sp = g.sp ∧ g'.objs = g.objs ∧
        ∀ w ∈ g'.warps, w.noticeYld = false ∧ (notice ≠ none → w.evt.getLsbD 2 = true)) ∧
      (frames.length < g.framesNeeded → exec (.preemptRequest g.gid notice frames) s = .next s)) ∧
    (∀ (p : Preempt) (u : Nat), g.preempt = some p → p.notice = some u →
      (u ≤ now → ∃ t, exec (.noticeExpiry g.gid) s = .next t ∧ t.mem = s.mem ∧
        t.gang? g.gid = some { g with preempt := some { p with notice := none } }) ∧
      (now < u → exec (.noticeExpiry g.gid) s = .next s)) ∧
    (∀ p : Preempt, g.preempt = some p → p.notice = none → s.mgmt.locked = false →
      (∀ w ∈ g.warps, w.stride = none ∧ w.stall = none ∧ w.relayTo = none) →
      (s.drained g.gid = true → (∀ f ∈ s.flights, f.seen = true → f.finished = true) →
        ∃ t k, exec (.sealGang g.gid) s = .next t ∧ t.mem = s.mem ∧ t.gang? g.gid = none ∧
        (∀ h x, h ≠ g.gid → s.gang? h = some x → ∃ x', t.gang? h = some x' ∧ x.woken x') ∧ t.glVeils = [] ∧ k.gang.veils = [] ∧ t.sealed = s.sealed ++ [k] ∧ k.frames = p.frames ∧
        k.tag = Config.imageTag s.mgmt.sealKey k.image g.world g.bib ∧ k.image = s.nextId ∧ k.gang.gid = g.gid ∧ k.gang.sp = g.sp ∧
        k.gang.objs = g.objs ∧ k.gang.root = g.root ∧
        k.gang.warps.map (fun w => (w.wi, w.s, w.j, w.hentry, w.evt, w.threads.map fun th => (th.t, th.pc, th.m, th.o, th.l, th.g, th.rs))) =
          g.warps.map (fun w => (w.wi, w.s, w.j, w.hentry, w.evt, w.threads.map fun th => (th.t, th.pc, th.m, th.o, th.l, th.g, th.rs))) ∧
        ∀ c ∈ t.cores, ∀ q ∈ c.2.quarters, (∀ m ∈ q.mq, m.gid ≠ g.gid) ∧ ∀ x ∈ q.tiles, ∀ r, x.owner = some r → r.1 ≠ g.gid) ∧
      (s.drained g.gid = false ∨ (∃ f ∈ s.flights, f.seen = true ∧ f.finished = false) → exec (.sealGang g.gid) s = .next s))) ∧
  (∀ (s : State) (k : Sealed) (cores : List Nat), s.sealed.find? (fun j => j.gang.gid = k.gang.gid) = some k → s.mgmt.locked = false →
    s.gang? k.gang.gid = none →
    let tag := Config.imageTag s.mgmt.sealKey (s.imageIn k) k.gang.world k.gang.bib
    (tag = k.tag → s.suits k cores = true → ∃ t g, exec (.resume k.gang.gid cores) s = .next t ∧ t.mem = s.mem ∧
      t.gang? k.gang.gid = some g ∧ g.cores = cores ∧ g.sp = k.gang.sp ∧ g.objs = k.gang.objs ∧ g.root = k.gang.root ∧
      (∀ j ∈ t.sealed, j.gang.gid ≠ k.gang.gid) ∧
      g.warps.map (fun w => (w.wi, w.s, w.j, w.hentry, w.threads.map fun th => (th.t, th.pc, th.m, th.g, th.rs))) =
        k.gang.warps.map (fun w => (w.wi, w.s, w.j, w.hentry, w.threads.map fun th => (th.t, th.pc, th.m, th.g, th.rs))) ∧
      ((∀ w ∈ k.gang.warps, w.slot ≠ 4) → ∀ w ∈ g.warps, w.core = nth cores (w.wi / warpsPerCore k.gang.n) 0) ∧
      (k.gang.cores ≠ cores → ∀ w ∈ g.warps, w.evt.getLsbD 3 = true)) ∧
    (tag = k.tag → s.suits k cores = false → exec (.resume k.gang.gid cores) s = .next s) ∧
    (tag ≠ k.tag → ∃ t, exec (.resume k.gang.gid cores) s = .next t ∧ t.mem = s.mem ∧ t.gang? k.gang.gid = none ∧
      (∀ h x, s.gang? h = some x → ∃ x', t.gang? h = some x' ∧ x.woken x') ∧
      (∀ l ∈ t.launches, l.lid = k.gang.launch → l.killed = true) ∧ ∀ j ∈ t.sealed, j.gang.gid ≠ k.gang.gid))

/-- R205 to R209: a step of the operating point. Downward, to a lower voltage and a higher OP number, OP_EVACUATE_SCRATCHPAD goes on once every
core's high-water mark fits the target, and until then does nothing; OP_EVACUATE_SLICES goes on; OP_SWITCH changes the point once those
stages are done, of an upward step at once, ends the step and posts OPCHG to the resident contexts. Memory is as before.

R8, R12, R310, R347, R348, R360, R361: SPARE_TAKEOVER of a core or a cluster unit on whose cluster no gang resides puts a spare of its kind
and die in its place, or with no spare takes the cluster out of the visible set and posts TOPO; of a dead part it kills the gangs that have
it. BRIDGE_FAILURE takes a bridge out of service; what is under way keeps its route, and a command whose message the bridge carried and lost
fails with 0x2202. Memory is as before. (That the spare is the lowest of its kind is the model's choice, log entry 110.) -/
def Obligations.PointsStepAndPartsAreReplaced : Prop :=
  (∀ (s : State) (st : OpStep), s.opstep = some st →
    let reaches := fun (ins : Instr) (st' : Option OpStep) (point : Nat) (P : State → Prop) =>
      ∃ t, exec ins s = .next t ∧ t.mem = s.mem ∧ t.opstep = st' ∧ t.opcur = point ∧ P t
    let switched := fun (t : State) => t.sealed = s.sealed ∧ ∀ g ∈ t.gangs, ∀ w ∈ g.warps, w.evt.getLsbD 1 = true
    (st.stage = 1 → s.opcur < st.target → (∀ c < 160, s.highWater c ≤ s.capAt c st.target) →
      reaches .opEvacuateScratchpad (some { st with stage := 2 }) s.opcur fun t => t.gangs = s.gangs) ∧
    (st.stage = 1 → s.opcur < st.target → (∃ c < 160, s.capAt c st.target < s.highWater c) →
      exec .opEvacuateScratchpad s = .next s) ∧
    (st.stage = 2 → reaches .opEvacuateSlices (some { st with stage := 3 }) s.opcur fun t => t.gangs = s.gangs) ∧
    (st.stage = 3 → s.opcur < st.target → reaches .opSwitch none st.target switched) ∧
    (st.target < s.opcur → reaches .opSwitch none st.target switched) ∧
    (st.stage ≠ 3 → s.opcur < st.target → exec .opSwitch s = .next s)) ∧
  ((∀ (s : State) (k part : Nat) (cl : Cluster), s.clusters[k]? = some cl → part ∈ cl.cores →
    (∀ j cl', s.clusters[j]? = some cl' → part ∈ cl'.cores → j = k) →
    let die := cl.unit / 10
    (s.resides cl = false → ∀ c ∈ s.poolCores, dieOfCore c = die → (∀ d ∈ s.poolCores, dieOfCore d = die → c ≤ d) → c < 160 →
      (∀ d ∈ cl.cores, d < 160) →
      ∃ t cl', exec (.spareTakeover false part false) s = .next t ∧ t.mem = s.mem ∧ t.gangs = s.gangs ∧
        t.clusters.length = s.clusters.length ∧ t.clusters[k]? = some cl' ∧ cl'.unit = cl.unit ∧
        (∀ d, d ∈ cl'.cores ↔ d = c ∨ (d ∈ cl.cores ∧ d ≠ part)) ∧ (∀ j, j ≠ k → t.clusters[j]? = s.clusters[j]?) ∧
        ∀ d, d ∈ t.poolCores ↔ d ∈ s.poolCores ∧ d ≠ c) ∧
    (s.resides cl = false → (∀ c ∈ s.poolCores, dieOfCore c ≠ die) → (∀ l ∈ s.clusters, s.resides l = false) →
      ∃ t, exec (.spareTakeover false part false) s = .next t ∧ t.mem = s.mem ∧ t.clusters.length + 1 = s.clusters.length ∧
        (∀ l ∈ t.clusters, part ∉ l.cores) ∧ (∀ d ∈ cl.cores, d ≠ part → d ∈ t.poolCores) ∧
        ∀ g ∈ t.gangs, ∀ w ∈ g.warps, w.evt.getLsbD 0 = true) ∧
    (s.resides cl = false → ∀ u ∈ s.poolUnits, u / 10 = die → (∀ v ∈ s.poolUnits, v / 10 = die → u ≤ v) →
      (∀ j cl', s.clusters[j]? = some cl' → cl'.unit = cl.unit → j = k) →
      ∃ t, exec (.spareTakeover true cl.unit false) s = .next t ∧ t.mem = s.mem ∧ t.gangs = s.gangs ∧
        t.clusters.length = s.clusters.length ∧ t.clusters[k]? = some { cl with unit := u } ∧
        (∀ j, j ≠ k → t.clusters[j]? = s.clusters[j]?) ∧ ∀ v, v ∈ t.poolUnits ↔ v ∈ s.poolUnits ∧ v ≠ u) ∧
    (s.resides cl = false → (∀ u ∈ s.poolUnits, u / 10 ≠ die) → (∀ l ∈ s.clusters, s.resides l = false) →
      (∀ j cl', s.clusters[j]? = some cl' → cl'.unit = cl.unit → j = k) →
      ∃ t, exec (.spareTakeover true cl.unit false) s = .next t ∧ t.mem = s.mem ∧ t.clusters.length + 1 = s.clusters.length ∧
        (∀ l ∈ t.clusters, l.unit ≠ cl.unit) ∧ (∀ d ∈ cl.cores, d ∈ t.poolCores) ∧
        ∀ g ∈ t.gangs, ∀ w ∈ g.warps, w.evt.getLsbD 0 = true) ∧
    ((∀ j cl', s.clusters[j]? = some cl' → cl'.unit = cl.unit → j = k) →
      ∃ t, exec (.spareTakeover true cl.unit true) s = .next t ∧ t.mem = s.mem ∧ t.clusters = s.clusters ∧
        (∀ g ∈ t.gangs, ∀ c ∈ g.cores, c ∉ cl.cores) ∧
        ∀ g ∈ s.gangs, (∀ h ∈ s.gangs, h.gid = g.gid → ∀ c ∈ h.cores, c ∉ cl.cores) →
          ∀ x, s.gang? g.gid = some x → ∃ x', t.gang? g.gid = some x' ∧ x.woken x') ∧
    ∃ t, exec (.spareTakeover false part true) s = .next t ∧ t.mem = s.mem ∧ t.clusters = s.clusters ∧
      (∀ g ∈ t.gangs, part ∉ g.cores) ∧
      ∀ g ∈ s.gangs, (∀ h ∈ s.gangs, h.gid = g.gid → part ∉ h.cores ∧ ∀ w ∈ h.warps, w.core ≠ part) →
        ∀ x, s.gang? g.gid = some x → ∃ x', t.gang? g.gid = some x' ∧ x.woken x') ∧
  ∀ (s : State) (b : Nat), b < s.bridges.length →
    (∃ t, exec (.bridgeFailure b [] []) s = .next t ∧ nth t.bridges b true = false ∧ (∀ j, j ≠ b → t.bridges[j]? = s.bridges[j]?) ∧
      t = { s with bridges := t.bridges, flights := t.flights } ∧ t.flights.length = s.flights.length ∧
      ∀ (j : Nat) (f f' : Flight), s.flights[j]? = some f → t.flights[j]? = some f' →
        f' = if f.seq = none ∧ f.done = 0 then { f with route := t.routeFor f } else f) ∧
    ∀ core slot k, s.cmd? core slot = some k → k.status = none → k.killed = false → s.cmdCarried b core k = true →
      ∃ t, exec (.bridgeFailure b [] [(core, slot)]) s = .next t ∧ t.mem = s.mem ∧ nth t.bridges b true = false ∧
        t.cmd? core slot = some { k with status := some 0x2202 })

/-- R205, R226, R333, R343 to R346: FRAME_MIGRATION marks a frame that has spare storage left and counts the spare, and MIGRATION_SWITCH ends
the migration; SOFT_PPR holds the channel of a row whose bank has its spare row left until SOFT_PPR_COMPLETE, and may record the repair for
the next reset, as it may where the bank's soft repair stands already or the row's frame is being migrated; ROW_RETIRE takes a scratchpad row out of every good set, or stands pending while the rows in use do not fit what is left, or takes a
row out of a home slice; SCRUB and PATROL log what they find, and poison what they cannot correct. None changes a byte of memory. (A core's
entries and a clean CHECK: log entries 99 and 108.) -/
def Obligations.RepairsRun : Prop :=  ∀ (s : State),
    let does := fun (ins : Instr) (P : State → Prop) => ∃ t, exec ins s = .next t ∧ t.mem = s.mem ∧ P t
    (∀ fn, let st := if fn < 0x800000 then fn / 0x100000 else 8 + (fn - 0x800000) / 0x80000
      fn < 0x1800000 → (s.frame fn).mig = false → s.spares.get st 0 < (if st < 8 then 64 else 32) →
      does (.frameMigration fn) fun t => (t.frame fn).mig = true ∧ (∃ m ∈ t.migs, m.frame = fn) ∧ t.gangs = s.gangs ∧
        t.spares.get st 0 = s.spares.get st 0 + 1 ∧ ∀ k, k ≠ fn → t.frame k = s.frame k) ∧
    (∀ fn, (∃ m ∈ s.migs, m.frame = fn) → does (.migrationSwitch fn) fun t => (t.frame fn).mig = false ∧
      (∀ m ∈ t.migs, m.frame ≠ fn) ∧ t.gangs = s.gangs ∧ ∀ k, k ≠ fn → t.frame k = s.frame k) ∧
    (∀ line hard, 128 * line / 65536 < 0x800000 →
      let ch := Config.dramChannel line
      let bank := Config.dramBank line
      let moves := hard = true ∧ (s.frame (128 * line / 65536)).mig = true
      (bank ∉ s.rowSpares → bank ∉ s.burned → ¬ moves → does (.softPpr line hard) fun t => ch ∈ t.quiesced ∧ bank ∈ t.rowSpares ∧
        (hard = true → bank ∈ t.hardRepairs) ∧ t.gangs = s.gangs ∧
        t.outside = { s.outside with quiesced := t.quiesced, rowSpares := t.rowSpares, hardRepairs := t.hardRepairs }) ∧
      (bank ∉ s.burned → bank ∈ s.rowSpares ∨ moves → hard = true → does (.softPpr line hard) fun t => bank ∈ t.hardRepairs ∧
        { t with hardRepairs := s.hardRepairs } = s) ∧
      (bank ∈ s.burned ∨ (bank ∈ s.rowSpares ∧ hard = false) → exec (.softPpr line hard) s = .next s) ∧
      does (.softPprComplete line) fun t => (∀ c, c ∈ t.quiesced ↔ c ∈ s.quiesced ∧ c ≠ ch) ∧ t.gangs = s.gangs) ∧
    (∀ core row, core < 160 → row < 2176 → (s.core core).bad.length = 4 → (∀ b ∈ (s.core core).bad, row ∉ b) →
      s.opcur < 4 → s.highWater core ≤ min 2048 (2176 - ((nth (s.core core).bad s.opcur []).length + 1)) →
      does (.rowRetire false core row) fun t => (t.core core).bad = (s.core core).bad.map (row :: ·) ∧
        (core, row) ∉ t.retiring ∧
        (t.capAt core s.opcur < s.capAt core s.opcur → ∀ g ∈ t.gangs, ∀ w ∈ g.warps, w.evt.getLsbD 1 = true)) ∧
    (∀ core row, core < 160 → row < 2176 → (s.core core).bad.length = 4 → (∀ b ∈ (s.core core).bad, row ∉ b) → s.opcur < 4 →
      let cap := min 2048 (2176 - ((nth (s.core core).bad s.opcur []).length + 1))
      cap < s.capAt core s.opcur → cap < s.highWater core →
      does (.rowRetire false core row) fun t => (core, row) ∈ t.retiring ∧ t.cores = s.cores ∧ t.gangs = s.gangs) ∧
    (∀ u row, row ∉ s.slicesBad.get u [] → does (.rowRetire true u row) fun t =>
      t.slicesBad.get u [] = row :: s.slicesBad.get u [] ∧ t.gangs = s.gangs) ∧
    (∀ core w, core < 160 → s.logRoom (dieOfCore core) → s.logRoom (homeDie (4 * w)) →
      (∀ gid gc, does (.scrub core [(.pad gid gc w, false)]) fun t => t.badPad = s.badPad ∧ t.gangs = s.gangs ∧
        s.logged t (dieOfCore core) fun e => e.cls = 0 ∧ e.code = 0x5002 ∧ e.src = 1 ∧ e.srcId = core) ∧
      (∀ gid gc, does (.scrub core [(.pad gid gc w, true)]) fun t => (gid, gc, w) ∈ t.badPad ∧
        s.logged t (dieOfCore core) fun e => e.cls = 2 ∧ e.code = 0x5002) ∧
      does (.scrub core [(.slice w, true)]) fun t => (∀ v, v / 32 = w / 32 → v ∈ t.badMem) ∧
        s.logged t (homeDie (4 * w)) fun e => e.cls = 2 ∧ e.code = 0x5002 ∧ e.src = 2) ∧
    ∀ line k, k < 4 → s.logRoom (homeDie (128 * line)) →
      let finds := fun (found : List (Nat × Bool)) (tag : Bool) (cls code addr : Nat) (bad : Bool) =>
        does (.patrol line found tag) fun t => (if bad then ∀ v, v / 32 = line → v ∈ t.badMem else t.badMem = s.badMem) ∧
          s.logged t (homeDie (128 * line)) fun e => e.cls = cls ∧ e.code = code ∧ e.addr = addr ∧ e.src = 5
      finds [(k, true)] false 2 0x5002 (128 * line + 32 * k) true ∧ finds [(k, false)] false 0 0x5002 (128 * line + 32 * k) false ∧
      finds [] true 2 0 (128 * line) true

/-- R13, R211, R334, R397 to R400, R403, R407: DEVICE_RESET and RESET_GO begin bring-up again, with no work resident and every counter at its
start; the ROM's test of each die says whether it is healthy; KEYS_AND_FILL ends the tests, gives control to the lowest healthy die, draws the keys and zeroes memory; IMAGE_VERIFY begins
stage 3, then takes slot A and slot B in turn: the first that passes is measured and its entry runs on the 16 control cores of the die in
control, a rejected one is logged with its code, and after both bring-up has failed. CONTROL_TAKEOVER gives control to the lowest healthy
die. (What a reset starts from and keeps, and the form a slot must have: log entries 4, 7, 8, 9, 19 and 104.) -/
def Obligations.DeviceComesUp : Prop :=  ∀ (s : State),
    let starts := fun (ins : Instr) => ∃ t, exec ins s = .next t ∧ t.gangs = [] ∧ t.launches = [] ∧ t.queues = [] ∧ t.flights = [] ∧
      t.frames = [] ∧ t.sealed = [] ∧ t.links = [] ∧ t.opcur = 3 ∧ t.bib = 1 ∧ t.mgmt.stage = 1 ∧ t.mgmt.slotSel = 15 ∧ t.mgmt.fail = 0 ∧
      t.mgmt.locked = false ∧ t.mgmt.worldKeys = [] ∧ t.mgmt.resets = s.mgmt.resets + 1 ∧ t.mgmt.ident = s.mgmt.ident ∧
      (∀ c, (t.core c).clock = 0 ∧ (t.core c).ceSeq = 0 ∧ (t.core c).osSeq = 0 ∧ (t.core c).slots = [] ∧ (t.core c).bad = (s.core c).bad)
    starts .deviceReset ∧ starts .resetGo ∧
    (s.mgmt.stage = 1 → (∀ d ok, d < s.mgmt.healthy.length → s.move (.romTest d ok) =
      { s with mgmt := { s.mgmt with healthy := s.mgmt.healthy.set d ok } }) ∧
      ∀ d, d < 4 → nth s.mgmt.healthy d false = true → (∀ c < d, nth s.mgmt.healthy c false = false) →
      ∃ t, exec .keysAndFill s = .next t ∧ t.mem = [] ∧ t.badMem = [] ∧ t.hardRepairs = [] ∧ t.burned = s.burned ++ s.hardRepairs ∧
      t.mgmt.stage = 2 ∧ t.mgmt.ctlDie = d ∧ (∀ w < 64, t.mgmt.worldKeys.get? w ≠ none) ∧ t.gangs = s.gangs ∧ t.frames = s.frames) ∧
    (s.mgmt.stage = 2 → ∃ t, exec .imageVerify s = .next t ∧ t = { s with mgmt := { s.mgmt with stage := 3, tried := 0 } }) ∧
    (s.mgmt.stage = 3 →
      let slot := s.mgmt.tried
      (s.slotFail slot = 0 → ∃ t entry, exec .imageVerify s = .next t ∧ t.mgmt.stage = 4 ∧ t.mgmt.slotSel = slot ∧
        t.mgmt.measure = s.imageDigest slot ∧ s.imageEntry slot = some entry ∧ (t.gangs.filter (·.ctl)).length = 16 ∧
        t.gangs.filter (!·.ctl) = s.gangs.filter (!·.ctl) ∧
        ∀ g ∈ t.gangs, g.ctl = true → g.world = 0 ∧ g.n = 256 ∧ (∃ k < 16, g.cores = [160 + 16 * s.mgmt.ctlDie + k]) ∧
          g.warps.length = 4 ∧ ∀ w ∈ g.warps, ∃ th, w.threads = [th] ∧ th.pc = BitVec.ofNat 42 entry) ∧
      (s.slotFail slot ≠ 0 → s.logRoom s.mgmt.ctlDie → ∃ t, exec .imageVerify s = .next t ∧
        t.mgmt.stage = (if slot = 0 then 3 else 15) ∧ t.mgmt.tried = slot + 1 ∧ t.mgmt.fail = s.slotFail slot ∧
        t.mem = s.mem ∧ t.gangs = s.gangs ∧
        s.logged t s.mgmt.ctlDie fun e => e.code = s.slotFail slot ∧ e.src = 6 ∧ e.srcId = s.mgmt.ctlDie)) ∧
    (s.mgmt.stage = 4 → ∀ d, nth s.mgmt.healthy d false = true → d ≠ s.mgmt.ctlDie → d < 4 →
      (∀ c < d, c ≠ s.mgmt.ctlDie → nth s.mgmt.healthy c false = false) →
      ∃ t, exec .controlTakeover s = .next t ∧ t.mgmt.stage = 3 ∧ t.mgmt.tried = 0 ∧ t.mgmt.ctlDie = d ∧ t.mem = s.mem ∧
        t.gangs = s.gangs.filter (!·.ctl))

/-- R312, R331, R338 to R340, R400 to R402: ENVIRONMENTAL_ALARM is logged, or under the class I response locks the device down with an alarm
record, sent in a datagram to the owner from the lowest Ethernet port that is up, which ALARM_RESEND sends again unchanged. RESPONSE_WRITE sets response bits not set before in this reset; REGISTER_WRITE takes
FTSEL; ATTESTATION_REQUEST returns a report with the nonce; LOG_HEAD_ADVANCE frees the oldest entries; NEW_WORLD_KEY replaces a key
while no kill of its world is under way; ENROLMENT fixes the identity once. Nothing outside the management state changes. (Keys and nonces are
free values, log entry 7; that a part is enrolled once is log entry 53.) -/
def Obligations.ManagementMoves : Prop :=  ∀ (s : State),
    let manages := fun (ins : Instr) (P : Mgmt → Prop) => ∃ t, exec ins s = .next t ∧ { t with mgmt := s.mgmt } = s ∧ P t.mgmt
    let form := match s.mgmt.ident with | some i => i.module_ | none => false
    (∀ cond die, 1 ≤ cond → cond ≤ 5 → (cond = 3 ∨ cond = 4 → form = true) →
      (s.mgmt.respI = false → s.logRoom die → manages (.environmentalAlarm cond die) fun m => m.locked = s.mgmt.locked ∧
        s.logged { s with mgmt := m } die fun e => e.code = cond ∧ e.cls = 2 ∧ e.src = 6) ∧
      (s.mgmt.respI = true → s.mgmt.locked = false → s.mgmt.alarmPort = none → manages (.environmentalAlarm cond die) fun m =>
        m.locked = true ∧ m.alarmKind = 3 ∧ m.aseq = s.mgmt.aseq + 1 ∧
        ∃ r, m.alarm = some r ∧ r.length = 200 ∧ r.take 4 = [0x4C, 0x59, 0x41, 0x4C] ∧
          ((∀ p < 8, nth s.mgmt.ports p false = false) → m.sent = 0 ∧ m.datagrams = []) ∧
          ∀ p < 8, nth s.mgmt.ports p false = true → (∀ q < p, nth s.mgmt.ports q false = false) →
            m.sent = 1 ∧ m.alarmPort = some p ∧
            m.datagrams = [⟨p, (s.mgmt.ident.getD {}).owner, (s.mgmt.ident.getD {}).port, r⟩])) ∧
    (∀ r p, s.mgmt.locked = true → s.mgmt.alarm = some r → s.mgmt.alarmPort = some p → manages .alarmResend fun m =>
      m.alarm = some r ∧ m.aseq = s.mgmt.aseq ∧ m.sent = s.mgmt.sent + 1 ∧
      m.datagrams = s.mgmt.datagrams ++ [⟨p, (s.mgmt.ident.getD {}).owner, (s.mgmt.ident.getD {}).port, r⟩]) ∧
    (s.mgmt.stage = 4 → ∀ cls : BitVec 2, s.mgmt.respV = false → s.mgmt.respI = false → s.mgmt.spent = 0 →
      manages (.responseWrite cls) fun m => m.respV = cls.getLsbD 0 ∧ m.respI = cls.getLsbD 1) ∧
    (s.mgmt.stage = 4 → ∀ v : Word, manages (.registerWrite 0x200 v) fun m => m.ftsel = v.setWidth 25) ∧
    (∀ a v, a ≠ 0x200 ∨ s.mgmt.stage ≠ 4 → exec (.registerWrite a v) s = .next s) ∧
    (s.mgmt.stage = 4 → ∀ nonce : List Byte, nonce.length = 48 → manages (.attestationRequest nonce) fun m =>
      ∃ r, m.report = some r ∧ r.length = 204 ∧ (r.drop 4).take 48 = nonce ∧
        (s.mgmt.measure.length = 48 → (r.drop 52).take 48 = s.mgmt.measure) ∧
        r.drop 108 = ecSign (s.mgmt.ident.getD {}).key (Config.nonce s.tick) (r.take 108)) ∧
    (∀ die n, manages (.logHeadAdvance die n) fun m => (nth m.logs die {}).entries = (nth s.mgmt.logs die {}).entries.drop n) ∧
    (∀ w, w < 64 → (∀ g ∈ s.dying, g.world ≠ w) → manages (.newWorldKey w) fun m =>
      m.worldKeys.get? w = some ((Config.freshKey (100 * s.tick)).extractLsb' 0 128) ∧
        ∀ v, v ≠ w → m.worldKeys.get? v = s.mgmt.worldKeys.get? v) ∧
    (∀ owner port flow keys form, (s.mgmt.ident = none → manages (.enrolment owner port flow keys form) fun m =>
        ∃ i, m.ident = some i ∧ i.owner = owner ∧ i.port = port ∧ i.flowMin = flow ∧ i.keyHashes = keys.take 4 ∧ i.module_ = form ∧
        i.point = ecPoint i.key ∧ i.devid = sha384 i.point ∧ m.resets = 0) ∧
      (s.mgmt.ident ≠ none → exec (.enrolment owner port flow keys form) s = .next s))

/-- R346, R366, R370, R371: BASE_RD, BASE_WR and BASE_WRM of a request the stack takes, with a tag of their port free, hold the lowest free tag, a
write with memory's bytes. BASE_ACK puts a write at the end of the controller's queue and frees its tag, once the writes its port sent
before it stand there; the reads its port sent before it take what they read first; BASE_RSP answers a read with the bytes last queued over it or in memory, once no earlier write over its bytes is
still unqueued, and marks poisoned data (which channel a line lies on is the model's choice, log 46; packets are formed by these events
alone, log 48). GRANT_OWNER_CHANGE zeroes a grant that changes hands, and no other byte. HBM is as before.

R378: QUEUE_OPEN opens a queue that is closed, to the peer and in the mode named, and lands what a receive queue held of that peer, on a ROD
queue in its sender's order without a gap; QUEUE_CLOSE closes it, and a receive queue holds what has not landed. MESSAGE_ARRIVAL puts a
message of its peer into an open receive queue with room, where no earlier one is missing on a ROD queue, or holds it; with 16 messages not
landed it does nothing. No message is dropped. (What is numbered from where is the model's reading, log 107.) -/
def Obligations.BasePacketsAndMessagesMove : Prop :=
  ((∀ (s : State) (k port addr len world tag : Nat) (mask : TMask), k < 8 → port < 2 → addr % 64 = 0 → (len = 64 ∨ len = 128) →
    world < 64 → storageOf (addr / 65536) = k → Config.dramChannel (lineOf addr) ∉ s.quiesced → tag < 8 →
    (∀ r ∈ (s.stack k).reqs, r.port = port → r.tag ≠ tag) → (∀ j < tag, ∃ r ∈ (s.stack k).reqs, r.port = port ∧ r.tag = j) →
    let takes := fun (ins : Instr) (kind : Nat) (mask : TMask) (data : List Byte) =>
      ∃ t r, exec ins s = .next t ∧ t.mem = s.mem ∧ t.bb = s.bb ∧ (t.stack k).reqs = (s.stack k).reqs ++ [r] ∧ r.kind = kind ∧ r.port = port ∧
        r.tag = tag ∧ r.addr = addr ∧ r.len = len ∧ r.world = world ∧ r.mask = mask ∧ r.data = data ∧
        (t.stack k).queue = (s.stack k).queue ∧ ∀ j, j ≠ k → t.stack j = s.stack j
    takes (.baseRd k port addr len world) 0 0 [] ∧
    takes (.baseWr k port addr len world) 1 (BitVec.allOnes 128) (s.mem.readN addr len) ∧
    takes (.baseWrm k port addr len world mask) 2 mask (s.mem.readN addr len)) ∧
  (∀ (s : State) (k port tag : Nat) (r : BaseReq), (s.stack k).req? port tag = some r →
    let earlier := (s.stack k).before port tag
    let queue := (s.stack k).queue
    let others := (s.stack k).reqs.filter fun x => !(decide (x.port = port) && decide (x.tag = tag))
    let sees := fun (a : Nat) (v : Byte) =>
      (∀ l w rest, queue = l ++ w :: rest → w.writes a = true → (∀ x ∈ rest, x.writes a = false) → v = nth w.data (a - w.addr) 0) ∧
      ((∀ x ∈ queue, x.writes a = false) → v = s.mem.read a)
    let reads := fun (x : BaseReq) (data : List Byte) => data.length = x.len ∧ ∀ j < x.len, sees (x.addr + j) (nth data j 0)
    let held := fun (x : BaseReq) (l : List BaseReq) => ∃ w ∈ l, w.kind ≠ 0 ∧ overlaps w.addr w.len x.addr x.len = true
    let replies := fun (ins : Instr) (queue : List BaseReq) (P : BaseReq → List BaseReq → Prop) =>
      ∃ t q, exec ins s = .next t ∧ t.mem = s.mem ∧ t.bb = s.bb ∧ (t.stack k).reply = some q ∧ q.port = port ∧ q.tag = tag ∧
        P q (t.stack k).reqs ∧ (t.stack k).queue = queue
    (r.kind = 0 → ¬ held r earlier → replies (.baseRsp k port tag) queue fun q reqs => q.kind = 3 ∧ reqs = others ∧
      (r.data ≠ [] → q.data = r.data) ∧ (r.data = [] → reads r q.data) ∧
      (r.data = [] → queue = [] → (q.poison = true ↔ ∃ j < r.len / 32, s.memBad (r.addr + 32 * j) 32 = true))) ∧
    (r.kind = 0 → held r earlier → exec (.baseRsp k port tag) s = .next s) ∧
    (r.kind ≠ 0 → (∀ w ∈ earlier, w.port = port → w.kind = 0 ∧ ¬ held w ((s.stack k).before w.port w.tag)) →
      replies (.baseAck k port tag) (queue ++ [r]) fun q (reqs : List BaseReq) => q.kind = 4 ∧ reqs.length = others.length ∧
        ∀ (j : Nat) (x y : BaseReq), others[j]? = some x → reqs[j]? = some y →
          (x ∉ earlier ∨ x.port ≠ port ∨ x.data ≠ [] → y = x) ∧
          (x ∈ earlier → x.port = port → x.data = [] → reads x y.data ∧ y = { x with data := y.data, granules := y.granules })) ∧
    (r.kind ≠ 0 → (∃ w ∈ earlier, w.kind ≠ 0 ∧ w.port = port) → exec (.baseAck k port tag) s = .next s) ∧
    (r.kind ≠ 0 → exec (.baseRsp k port tag) s = .next s) ∧ (r.kind = 0 → exec (.baseAck k port tag) s = .next s)) ∧
  ∀ (s : State) (k g world : Nat), k < 8 → g < 48 → world < 64 →
    let lo := k * 2 ^ 22 + g * 65536
    ((s.stack k).grants.get g 0 = world → exec (.grantOwnerChange k g world) s = .next s) ∧
    ((s.stack k).grants.get g 0 ≠ world → ∃ t, exec (.grantOwnerChange k g world) s = .next t ∧ t.mem = s.mem ∧
      (t.stack k).grants.get g 0 = world ∧ (∀ h, h ≠ g → (t.stack k).grants.get h 0 = (s.stack k).grants.get h 0) ∧
      (∀ a, lo ≤ a → a < lo + 65536 → t.bb.read a = 0) ∧ ∀ a, (a < lo ∨ lo + 65536 ≤ a) → t.bb.read a = s.bb.read a)) ∧
  (∀ (s : State) (world q : Nat), world < 64 → q < 64 →
    let send := queueIn s.sendQs world q
    let recv := queueIn s.recvQs world q
    let moves := fun (ins : Instr) (P : NetQueue → NetQueue → Prop) =>
      ∃ t, exec ins s = .next t ∧ t.mem = s.mem ∧ t.gangs = s.gangs ∧ P (queueIn t.sendQs world q) (queueIn t.recvQs world q)
    let lands := fun (b : NetQueue) (peer : Nat) (rod : Bool) (added : List Msg) =>
      (b.msgs ++ b.held).Perm (recv.msgs ++ recv.held ++ added) ∧
      ∃ new, b.msgs = recv.msgs ++ new ∧ (∀ m ∈ new, m.peer = peer) ∧ (rod = false → ∀ m ∈ b.held, m.peer ≠ peer) ∧
        (rod = true → ∀ j m, new[j]? = some m → m.seq = recv.want.get peer 0 + BitVec.ofNat 32 j)
    (∀ peer rod, send.opened = false → send.held = [] → moves (.queueOpen world q true peer rod) fun a b => b = recv ∧
      a = { send with opened := true, peer := peer, rod := rod }) ∧
    (∀ peer rod, recv.opened = false → moves (.queueOpen world q false peer rod) fun a b => a = send ∧ b.opened = true ∧ b.peer = peer ∧
      b.rod = rod ∧ lands b peer rod []) ∧
    (moves (.queueClose world q true) fun a b => b = recv ∧ a = { send with opened := false }) ∧
    (moves (.queueClose world q false) fun a b => a = send ∧
      b = { recv with opened := false, held := recv.msgs ++ recv.held, msgs := [], want := b.want } ∧
      (∀ p, (∀ m ∈ recv.msgs, m.peer ≠ p) → b.want.get p 0 = recv.want.get p 0) ∧
      ∀ m ms, recv.msgs = m :: ms → (∀ y ∈ ms, y.peer = m.peer → seqBefore m.seq y.seq = true) →
        seqBefore m.seq (recv.want.get m.peer 0) = true → b.want.get m.peer 0 = m.seq) ∧
    ∀ (peer : Nat) (seq : Word) (payload : List Byte),
      (recv.msgs.length + recv.held.length < 16 → payload.length ≤ 65536 →
        moves (.messageArrival world q (peer, seq) payload) fun a b => a = send ∧ ∃ m, m.seq = seq ∧ m.payload = payload ∧ m.peer = peer ∧
          m.landed = false ∧ (recv.opened = false → b = { recv with held := recv.held ++ [m] }) ∧
          (recv.opened = true → b.opened = true ∧ b.peer = recv.peer ∧ lands b recv.peer recv.rod [m] ∧
            (recv.held = [] →
              if peer = recv.peer ∧ (recv.rod = true → recv.want.get peer 0 = seq) then b.msgs = recv.msgs ++ [m] ∧ b.held = []
              else b.msgs = recv.msgs ∧ b.held = [m]))) ∧
      (16 ≤ recv.msgs.length + recv.held.length → exec (.messageArrival world q (peer, seq) payload) s = .next s))

/-- R372 to R376: on a trained link below the bounds of its key and window, a new flit is sealed with the next SEQ and held. Where it is the
one its receiver expects, of which it has not refused three, FLIT_DATA delivers the oldest queued payload of its world once, or, harmed, asks for it again; FLIT_IDLE,
FLIT_VOID and FLIT_NAK deliver nothing; FLIT_MARKER changes the key slot; FLIT_NAK has what the other direction holds sent again from
the number it names. A replay is the held flit unchanged, and a flit out of order is discarded. A nak's SEQ counts no invocation
(log 106 reads that); the tags and keys are Config's opaque values (log 7).

R373 to R376, R382: LINK_TRAINING gives both directions of a link fresh keys and starts their numbers at 0, what they had still to
deliver first in the queue, and behind it what failed links still held goes to links in service; KEY_LOAD loads a key into an idle slot that holds none; LINK_FAILURE of a link in service with three tag
failures in a row takes it out of service, has a remaining link carry what it had not delivered, where there is one, and logs it, as log 49
has the events. FUNCTION_LEVEL_RESET kills the world's contexts, sealed ones too, makes its unsent flits void and lets none of its sent
ones deliver (log 112); of other contexts it may only wake threads that waited for the entries it frees. Memory is as before. The keys are Config's opaque values, one a tick (log 7), and the log's first SEQ and
order are logs 41 and 99. -/
def Obligations.LinksMove : Prop :=
  (∀ (s : State) (d : Nat) (key : BitVec 256),
    let l := s.link d
    let back := s.link (otherWay d)
    let slot := l.slot l.cur
    let other := l.slot (!l.cur)
    let behind := fun (a q : Word) => a ≠ q ∧ (q - a).toNat < 2 ^ 31
    l.trained = true → l.failed = false → l.fails < 3 →
    (l.held.length < 64 → slot.key = some key → slot.count < 0xFFFFFFFF → l.resend = [] →
      let sends := fun (ins : Instr) (type world : Nat) (payload : List Byte) (P : Link → Link → Prop) =>
        ∃ t f, exec ins s = .next t ∧ t.mem = s.mem ∧ f.type = type ∧ f.world = world ∧ f.payload = flitPayload payload ∧ f.seq = l.txSeq ∧
          f.ackSeq = back.rxSeq ∧ f.credit = min back.freed 65535 ∧ f.kslot = l.cur ∧ f.tag = f.sealed key d ∧
          (t.link d).held = l.held ++ [f] ∧ (t.link d).txSeq = l.txSeq + 1 ∧ P (t.link d) (t.link (otherWay d))
      (l.rxSeq = l.txSeq →
        let passes := fun (k : Link) => k.rxSeq = l.rxSeq + 1 ∧ k.fails = 0 ∧ k.nak = none
        let acked := fun (b : Link) => ∀ g, g ∈ b.held ↔ g ∈ back.held ∧ ¬ behind g.seq back.rxSeq
        let counts := fun (k : Link) (n : Nat) => (k.slot l.cur).count = slot.count + n
        (slot.count < 0xFFF00000 → (∀ w p rest,
          (l.queued = (false, w, p) :: rest →
            sends (.flitData d true) 0 w p (fun k b => passes k ∧ acked b ∧ counts k 1 ∧ k.queued = rest ∧
              k.delivered = if ∃ v ∈ l.voided, v.1 = w ∧ ∀ q, v.2 = some q → seqBefore l.txSeq q = true then l.delivered
                else l.delivered ++ [(w, flitPayload p)]) ∧
            sends (.flitData d false) 0 w p (fun k _ => k.rxSeq = l.rxSeq ∧ k.delivered = l.delivered ∧ k.nak = some l.txSeq ∧
              k.fails = l.fails + 1 ∧ k.queued = rest)) ∧
          (l.queued = (true, w, p) :: rest →
            sends (.flitVoid d true) 4 w [] (fun k b => passes k ∧ acked b ∧ counts k 1 ∧ k.delivered = l.delivered ∧ k.queued = rest))) ∧
          ∀ q, back.nak = some q →
            sends (.flitNak (d, true)) 3 0 (leBytes 4 q.toNat) (fun k b => passes k ∧ acked b ∧ counts k 0 ∧ k.delivered = l.delivered ∧
              b.nak = none ∧ ∀ g, g ∈ b.resend ↔ g ∈ back.held ∧ ¬ behind g.seq back.rxSeq ∧ ¬ behind g.seq q)) ∧
        ((slot.count < 0xFFF00000 ∨ other.key = none) →
          sends (.flitIdle d true) 1 0 [] (fun k b => passes k ∧ acked b ∧ counts k 1 ∧ k.delivered = l.delivered ∧ k.queued = l.queued)) ∧
        (0xFFF00000 ≤ slot.count → other.key ≠ none →
          sends (.flitMarker d true) 2 0 [if l.cur then 0 else 1] (fun k _ => passes k ∧ counts k 1 ∧ k.cur = !l.cur ∧
            k.delivered = l.delivered ∧ k.slot (!l.cur) = { other with count := 0 }))) ∧
      (l.rxSeq ≠ l.txSeq → slot.count < 0xFFF00000 → ∀ w p rest ok, l.queued = (false, w, p) :: rest →
        sends (.flitData d ok) 0 w p fun k _ => k.rxSeq = l.rxSeq ∧ k.delivered = l.delivered ∧ k.queued = rest)) ∧
    ∀ f rest, l.resend = f :: rest → f.type = 0 → ∃ t, exec (.flitData d true) s = .next t ∧ t.mem = s.mem ∧ (t.link d).resend = rest ∧
      (t.link d).held = l.held ∧ (t.link d).txSeq = l.txSeq ∧ (t.link d).slot0 = l.slot0 ∧ (t.link d).slot1 = l.slot1 ∧
      (f.seq ≠ l.rxSeq → (t.link d).delivered = l.delivered ∧ (t.link d).rxSeq = l.rxSeq) ∧
      (f.seq = l.rxSeq → (l.slot f.kslot).key = some key → f.tag = f.sealed key d → l.voided = [] →
        (t.link d).delivered = l.delivered ++ [(f.world, f.payload)] ∧ (t.link d).rxSeq = l.rxSeq + 1)) ∧
  (∀ (s : State),
    (∀ k, k < 20 → ∃ t, exec (.linkTraining k) s = .next t ∧ t.mem = s.mem ∧ ∀ d, d = 2 * k ∨ d = 2 * k + 1 →
      (t.link d).trained = true ∧ (t.link d).failed = false ∧ (t.link d).txSeq = 0 ∧ (t.link d).rxSeq = 0 ∧ (t.link d).held = [] ∧
      (t.link d).slot0 = { key := some (Config.linkKey s.tick false) } ∧ (t.link d).slot1 = { key := some (Config.linkKey s.tick true) } ∧
      (t.link d).delivered = (s.link d).delivered ∧
      (let waits := fun (e : Nat) => e < 40 ∧ e / 2 ≠ k ∧ (s.link e).failed = true ∧ (s.link e).queued ≠ [];
        (∃ first more, (t.link d).queued = first ++ (s.link d).queued ++ more ∧
          (first = [] ↔ ∀ f ∈ (s.link d).held, f.type = 0 → seqBefore f.seq (s.link d).rxSeq = true) ∧ ((∀ e, ¬ waits e) → more = [])) ∧
        ∀ e, waits e → (t.link e).queued = [] ∧ ∃ e' < 40, (t.link e').trained = true ∧ (t.link e').failed = false ∧ e' % 2 = e % 2 ∧
          ∀ x ∈ (s.link e).queued, x ∈ (t.link e').queued)) ∧
    (∀ d, (s.link d).trained = true → ∃ t, exec (.keyLoad d) s = .next t ∧ t.mem = s.mem ∧
      (if (s.link d).cur then (t.link d).slot1 = (s.link d).slot1 else (t.link d).slot0 = (s.link d).slot0) ∧
      let old := if (s.link d).cur then (s.link d).slot0 else (s.link d).slot1
      (if (s.link d).cur then (t.link d).slot0 else (t.link d).slot1) =
        if old.key = none then { key := some (Config.linkKey s.tick !(s.link d).cur), count := 0 } else old) ∧
    (∀ k d, k < 20 → (d = 2 * k ∨ d = 2 * k + 1) → (s.link d).trained = true → (s.link d).failed = false → 3 ≤ (s.link d).fails →
      s.logRoom (k / 5) →
      ∃ t, exec (.linkFailure k) s = .next t ∧ t.mem = s.mem ∧ (t.link (2 * k)).failed = true ∧ (t.link (2 * k + 1)).failed = true ∧
        s.logged t (k / 5) (fun e => e.src = 3 ∧ e.srcId = k ∧ e.cls = 2) ∧
        ∀ e, e = 2 * k ∨ e = 2 * k + 1 →
          ∃ e', e' % 2 = e % 2 ∧ (∀ x ∈ (s.link e).queued, x ∈ (t.link e').queued) ∧
            (∀ f ∈ (s.link e).held, f.type = 0 → seqBefore f.seq (s.link e).rxSeq = false → ∃ b, (b, f.world, f.payload) ∈ (t.link e').queued) ∧
            ((∃ j < 20, j ≠ k ∧ (s.link (2 * j + e % 2)).trained = true ∧ (s.link (2 * j + e % 2)).failed = false) →
              (t.link e').trained = true ∧ (t.link e').failed = false)) ∧
    (∀ k, (s.linkFails (2 * k) || s.linkFails (2 * k + 1)) = false → exec (.linkFailure k) s = .next s) ∧
    ∀ w, ∃ t, exec (.functionLevelReset w []) s = .next t ∧ t.mem = s.mem ∧ (∀ g ∈ t.gangs, g.world ≠ w) ∧
      (∀ k ∈ t.sealed, k.gang.world ≠ w) ∧ (∀ p ∈ t.links, (w, none) ∈ p.2.voided ∧ ∀ q ∈ p.2.queued, q.2.1 = w → q.1 = true) ∧
      ∀ g h, s.gang? g = some h → (∀ h ∈ s.gangs, h.gid = g → h.world ≠ w) → (∀ k ∈ s.sealed, k.gang.gid ≠ g) →
        ∃ h', t.gang? g = some h' ∧ h.woken h')

/-- AFTER RESET the state is what the spec gives (R407, R400, R403, R9, R12, R211, R334). That memory reads 0 before
KEYS_AND_FILL and that each core's clock starts at 0 are the model's choices (log 8 and 9); that nothing is resident or queued on a
fresh device is log 4.

THE STATE AFTER RESET meets the invariants: its byte stores are in canonical form and its register files have their lengths. -/
def Obligations.ResetState : Prop :=
  (State.reset.mgmt.stage = 1 ∧ State.reset.mgmt.slotSel = 15 ∧ State.reset.mgmt.fail = 0 ∧ State.reset.opcur = 3 ∧
    State.reset.bib = 1 ∧ State.reset.nclu = 36 ∧ State.reset.gangs = [] ∧ State.reset.launches = [] ∧ State.reset.queues = [] ∧
    (∀ a, State.reset.mem.read a = 0) ∧
    (∀ f, (State.reset.frame f).type = 6 ∧ (State.reset.frame f).owner = 0 ∧ (State.reset.frame f).use = 0 ∧
      (State.reset.frame f).valid = 0) ∧
    (∀ c, (State.reset.core c).clock = 0 ∧ (State.reset.core c).wakeReg = 0 ∧ (State.reset.core c).ceSeq = 0 ∧ (State.reset.core c).osSeq = 0 ∧
      (State.reset.core c).tinvSeq = 0)) ∧
  (State.reset.memWf ∧ State.reset.shaped)

/-- A STEP KEEPS EVERY BYTE STORE in canonical form (addresses rising, no zero byte listed): HBM, the bridge buffer, the flash and every
gang's scratchpads, resident, dying or sealed. -/
def Obligations.StepKeepsMemory : Prop := ∀ (s t : State), s.memWf → step s = .next t → t.memWf

/-- A STEP KEEPS THE REGISTER FILES at the lengths of R21, R23, R31, R165 and R309, and the threads of a warp numbered apart (R153). -/
def Obligations.StepKeepsShape : Prop := ∀ (s t : State), s.shaped → step s = .next t → t.shaped

/-- A STEP RUNS THE DECODED INSTRUCTION: where the next turn is a quarter's issue, its warp is about to issue (no line it needs is held, nothing
due, no pending debug event, no breakpoint, its entry checked) and the word of its slot in the line fetched decodes to `i`, the step is `exec i` with the
issue's own frame around it; a word that is no instruction raises its fault in the active set; an event's turn is `exec` of it. -/
def Obligations.StepRunsDecoded : Prop :=  (∀ (s : State) (core q : Nat) (rest : List Turn) (x : Slot) (line : List Byte) (i : Instr) (e : State),
    s.agenda = .issue core q :: rest → ({ s with agenda := rest }).slot? core q = some x → x.act ≠ [] →
    ({ s with agenda := rest }).lineWaits x = false → dueUnreach x.act = [] → x.deferred = [] → x.breakAt = none → x.w.entry = none →
    ({ s with agenda := rest }).fetch x.g x.w.core x.pc.toNat = .ok line →
    lineFault line (({ s with agenda := rest }).struckLine core q) = none →
    e = (({ s with agenda := rest }).spendLine core q).enter x i →
    (decodeWord x.g.decodes (wordOfBytes (line.drop (12 * pcSlot x.pc))) = .ok i →
      (∀ t, exec i e = .next t → step s = .next (State.after e t core q x (wordOfBytes (line.drop (12 * pcSlot x.pc)))).tock) ∧
      (∀ f, exec i e = .fault f → step s = .fault f) ∧ ∀ r, exec i e = .refused r → step s = .refused r) ∧
    ∀ f, decodeWord x.g.decodes (wordOfBytes (line.drop (12 * pcSlot x.pc))) = .bad f →
      step s = .next (({ s with agenda := rest }).meet core q x (.trap (x.all (decodeFlt f)) false)).tock) ∧
  ∀ (s : State) (i : Instr) (rest : List Turn), s.agenda = .event i :: rest →
    (∀ t, exec i { s with agenda := rest } = .next t → step s = .next t.tock) ∧
    ∀ f, exec i { s with agenda := rest } = .fault f → step s = .fault f

/-- WORDS DECODE AS THEY ARE WRITTEN: words laid out from the spec's encodings read as their instructions (R47 to R59). -/
def Obligations.WordsDecode : Prop :=  decodeWord widest 0x0006000000001FFFFE200000 = .ok (.bra ⟨false, false, 3⟩ ⟨.none, .none, 0x1FFFFE, 1⟩) ∧
  decodeWord widest 0x01E000000000000000000000 = .ok (.nop ⟨true, false, 0⟩ ⟨.none, .none, .none, .none, 0⟩) ∧
  decodeWord widest 0x100041241A41E00000000000 = .ok (.iadd ⟨false, false, 0⟩ ⟨.m 4 true, .m 6 true, .m 7 true, .none, 0⟩ .w32 false) ∧
  decodeWord widest 0x23C081241241680E00000000 = .ok (.bperm ⟨false, false, 0⟩ ⟨.o 4, .m 4 true, .m 5 true, .o 3, 0⟩ .w32) ∧
  decodeWord widest 0x320042A7F000000000000000 = .ok (.movi ⟨false, false, 0⟩ ⟨.m 10 true, 0x3F800000⟩) ∧
  decodeWord widest 0x40C041241641A41F24000000 = .ok (.ffma ⟨false, false, 0⟩ ⟨.m 4 true, .m 5 true, .m 6 true, .m 7 true, 0⟩ .rz) ∧
  decodeWord widest 0x5140402802806812A0000000 = .ok (.acs2 ⟨false, false, 0⟩ ⟨.m 0 true, .o 0, .o 1, .o 4, 0⟩ .uh2) ∧
  decodeWord widest 0x600041241600000124000000 = .ok (.cvt ⟨false, false, 0⟩ ⟨.m 4 true, .m 5 true, .none, .none, 0⟩ .f32 .w32 .rz) ∧
  decodeWord widest 0x700042640241E4F200000000 = .ok (.shfl ⟨false, false, 0⟩ ⟨.m 9 true, .m 0 true, .m 7 true, .m 60 true, 0⟩ .w32 .pick false) ∧
  decodeWord widest 0x800042240A00000094000040 = .ok (.ld ⟨false, false, 0⟩ ⟨.m 8 true, .m 2 true, .none, .none, 0x40⟩ .b32 .glDev 0) ∧
  decodeWord widest 0x804000040A42600095000008 = .ok (.st ⟨false, false, 0⟩ ⟨.none, .m 2 true, .m 9 true, .none, 8⟩ .b32 .glDev true) ∧
  decodeWord widest 0x900042240A42600014000010 = .ok (.atom ⟨false, false, 0⟩ ⟨.m 8 true, .m 2 true, .m 9 true, .none, 0x10⟩ .w32 .add .glDev false) ∧
  decodeWord widest 0xA20000000000000004400000 = .ok (.fence ⟨false, false, 0⟩ ⟨.none, .none, .none, .none, 0⟩ .dev .rel) ∧
  decodeWord widest 0xB00042243240A43A40100040 = .ok (.cpy ⟨false, false, 0⟩ ⟨.m 8 true, .m 12 true, .m 2 true, .m 14 true, 0x100040⟩ .sp .gl false false) ∧
  decodeWord widest 0xC00000040240A00182000000 = .ok (.mxm ⟨false, false, 0⟩ ⟨.none, .m 0 true, .m 2 true, .none, 0⟩ .e4m3x4 .af32 true false false) ∧
  decodeWord widest 0xD08042301200000120100040 = .ok (.nred ⟨false, false, 0⟩ ⟨.m 8 true, .s 4 true, .none, .none, 0x100040⟩ .f32 .add) ∧
  decodeWord widest 0xE04000000000000000200000 = .ok (.rte ⟨false, false, 0⟩ ⟨.none, .none, .none, .none, 0⟩ true)

/-- DECODE OF ENCODE: every well-formed instruction has a word, and the word decodes to it. -/
def Obligations.DecodeEncode : Prop :=  ∀ (cx : DecCtx) (i : Instr), i.wf cx = true → ∃ w, encode i = some w ∧ decodeWord cx w = .ok i

/-- ENCODE OF DECODE: a word that decodes is the word of the instruction it decodes to, and that instruction is well formed: no word
but one stands for an instruction. -/
def Obligations.EncodeDecode : Prop :=  ∀ (cx : DecCtx) (w : IWord) (i : Instr), decodeWord cx w = .ok i → i.wf cx = true ∧ encode i = some w

/-- R39. WHERE NO THREAD'S GUARD IS TRUE an issue does nothing but move on: every active thread stands at the next slot, the stride goes on
or, at E, ends, and nothing else changes, whatever the instruction. A word that is no instruction raises its decode fault in the whole
active set, whatever its guard. -/
def Obligations.GuardFalseDoesNothing : Prop :=  (∀ (ins : Instr) (h : Hdr) (d a b c : Opnd) (s : State) (i : Iss), ins.opnds = some (h, d, a, b, c) → Issues s h i → i.on = [] →
    ∃ t, exec ins s = .next t ∧ Keeps s t i i.w (i.moved s.tick) ∧ (h.e = true → ∃ w, t.warp? i.r = some w ∧ w.stride = none)) ∧
  ∀ (s : State) (core q : Nat) (rest : List Turn) (x : Slot) (line : List Byte) (f : DecFault),
    s.agenda = .issue core q :: rest → ({ s with agenda := rest }).slot? core q = some x → x.act ≠ [] →
    ({ s with agenda := rest }).lineWaits x = false → dueUnreach x.act = [] → x.deferred = [] → x.breakAt = none → x.w.entry = none →
    ({ s with agenda := rest }).fetch x.g x.w.core x.pc.toNat = .ok line →
    lineFault line (({ s with agenda := rest }).struckLine core q) = none →
    decodeWord x.g.decodes (wordOfBytes (line.drop (12 * pcSlot x.pc))) = .bad f →
    step s = .next (({ s with agenda := rest }).meet core q x (.trap (x.act.map fun th : Thread => (th.t, decodeFlt f)) false)).tock

/-- R267, R269, R270: the elements a tensor command moves, by the words it has read. Of a load: without conversion an element in bounds is the
bits at its address and one out of bounds is the fill pattern; a converted element is the rounded value, one of a rotated block the
rotation of the block's values. Of a store: the local pattern, its rounded value, or the rotation of the local block over n.

R264, R265, R269 to R271, R368: what a piece writes depends on no words but those its command reads for it, and before any piece those of
the list of nget with the sources it names and of the source of nred.

R114, R123, R367, R368: what near-memory commands write, by the words they have read. Their pieces cover DST, and for ncvt to 8 or 4 bits
AUX, byte by byte: nget the elements that the list names, nred the elements combined, ncvt the values rounded, or the codes of the block, of
its rotation where ORD asks for it, with the block scales in register form in AUX. -/
def Obligations.CommandsCompute : Prop :=
  (∀ (rd : Reads) (r : List Byte) (c : List Int) (row i : Nat) (gw : Bool) (loc : Nat),
    let t := tensorOf r
    let mem := match t.mf with | 0 => fp32 | 1 => bf16 | _ => fp16
    let own := match t.lf with | 0 => fp32 | 1 => bf16 | _ => fp16
    let at_ := fun (k : Nat) => t.rowBit c row + (nth c 0 0 + k).toNat * t.eb
    let word := fun (spc : CSpc) (a : Nat) => rd spc (a / 4 * 4) % 2 ^ 32 + 2 ^ 32 * (rd spc (a / 4 * 4 + 4) % 2 ^ 32)
    let bits := fun (bit : Nat) => word t.spc (bit / 8) / 2 ^ (bit % 32) % 2 ^ t.eb
    let local_ := fun (k : Nat) =>
      let a := t.localAt loc row (k * t.lb / 8)
      word (if gw then .gw else .sp) a / 2 ^ (8 * (a % 4) + k * t.lb % 8) % 2 ^ t.lb
    let block := fun (k : Nat) => i / t.n * t.n + k
    let fills := fun (k : Nat) => if t.elIn c row k = true then bits (at_ k) else t.fill % 2 ^ t.eb
    ((∀ k, at_ k % min 32 t.eb = 0) →
      (t.cvt = false → t.loadElem rd c row i = fills i) ∧
      (t.cvt = true → t.n = 0 →
        t.loadElem rd c row i = if t.elIn c row i = true then own.round .rne (mem.decode (bits (at_ i))) else t.fill % 2 ^ t.lb) ∧
      (t.cvt = true → 0 < t.n → t.loadElem rd c row i =
        own.round .rne (nth (hadamard ((List.range t.n).map fun k => mem.decode (fills (block k)))) (i % t.n) (.num 0 0)))) ∧
    ((∀ k, t.localAt loc row (k * t.lb / 8) % max 1 (min 4 (t.lb / 8)) = 0) →
      (t.cvt = false → t.storeElem rd gw loc row i = local_ i) ∧
      (t.cvt = true → t.n = 0 → t.storeElem rd gw loc row i = mem.round .rne (own.decode (local_ i))) ∧
      (t.cvt = true → 0 < t.n →
        let y := nth (hadamard ((List.range t.n).map fun k => own.decode (local_ (block k)))) (i % t.n) (.num 0 0)
        t.storeElem rd gw loc row i = mem.round .rne (y.scale (if t.n = 16 then -4 else -5))))) ∧
  (∀ (k : CmdKind) (p : Nat) (rd rd' : Reads), nearSkew k = false → p < k.count →
    (∀ t op d, k = .nred t op d → elBits t ≤ 32) →
    (∀ w ∈ k.needs p ++ nearFirst k (fun spc a => some (BitVec.ofNat 32 (rd spc a))), rd w.1 w.2 = rd' w.1 w.2) →
    k.value rd p = k.value rd' p) ∧
  (∀ (rd : Reads) (k : CmdKind) (d : List Byte), k.near? = some d → nearSkew k = false →
    let n := nearOf d
    let word := fun (spc : CSpc) (a : Nat) => rd spc (a / 4 * 4) % 2 ^ 32
    let elem := fun (spc : CSpc) (a w : Nat) => ((List.range ((w + 3) / 4)).map fun j => word spc (a + 4 * j) * 2 ^ (32 * j)).sum /
      2 ^ (8 * (a % 4)) % 2 ^ (8 * w)
    let writes := fun (aux : Bool) (base total : Nat) (v : Nat → Nat) => ∀ x < total,
      ∃ p a len, nearPiece k d p = (aux, a, len) ∧ p < nearCount k d ∧ a ≤ base + x ∧ base + x < a + len ∧
        (nth (nearBytes rd k d p) (base + x - a) 0).toNat = v x
    let bytes := fun (w : Nat) (v : Nat → Nat) (x : Nat) => v (x / w) / 2 ^ (8 * (x % w)) % 256
    (∀ t, k = .nget t d →
      let w := 4 * t.words
      writes false n.dst (w * n.count) (bytes w fun i => elem n.ssp (n.src + w * elem n.asp (n.aux + 4 * i) 4) w)) ∧
    (∀ t op, k = .nred t op d → elBits t = 8 ∨ elBits t = 16 ∨ elBits t = 32 →
      let w := elBits t / 8
      let x := fun i => elem n.dsp (n.dst + w * i) w
      let y := fun i => elem n.ssp (n.src + w * i) w
      writes false n.dst (w * n.count) (bytes w fun i =>
        match op with
        | .add => if t.isInt then (x i + y i) % 2 ^ elBits t else (fmtOf t).addN .rne (x i) (y i)
        | .min => if t.isInt then (if numOf t (y i) < numOf t (x i) then y i else x i) else (fmtOf t).minMax false (x i) (y i)
        | .max => if t.isInt then (if numOf t (x i) < numOf t (y i) then y i else x i) else (fmtOf t).minMax true (x i) (y i))) ∧
    ∀ t ord src, k = .ncvt t ord src d → elBits src = 16 ∨ elBits src = 32 →
      let w := elBits src / 8
      let val := fun (i : Nat) => (fmtOf src).decode (elem n.ssp (n.src + w * i) w)
      (elBits t = 16 ∨ elBits t = 32 →
        writes false n.dst (elBits t / 8 * n.count) (bytes (elBits t / 8) fun i => (fmtOf t).round .rne (val i))) ∧
      let b := if ord = .n16 then 16 else 32
      let row := fun (j : Nat) =>
        let xs := (List.range b).map fun i => val (b * j + i)
        if ord = .none then xs else hadamard xs
      let scale := fun (j : Nat) => blockScale (fmtOf t) (row j) * 256
      let code := fun (i : Nat) => quantCode (fmtOf t) (nth (row (i / b)) (i % b) (.num 0 0)) (regVal .s24 (scale (i / b)))
      (elBits t = 8 ∨ elBits t = 4 → n.count % b = 0 →
        writes true n.aux (4 * (n.count / b)) (bytes 4 scale) ∧
        (elBits t = 8 → writes false n.dst n.count fun x => code x % 256) ∧
        (elBits t = 4 → writes false n.dst (n.count / 2) fun x => code (2 * x) % 16 + 16 * (code (2 * x + 1) % 16))))
end

