-- ==== Sys2Proof/Laws/Lookup.lean ====
section
/-!
SUPPORT. Lookups after updates: maps by key, gangs, warps, threads, cores and quarters.
-/
namespace Sys2Proof.Machine

/-! ### Lists -/

/-- Searching a mapped list for a key that the map keeps. -/
theorem find?_map_key {α : Type} (key : α → Nat) (f : α → α) (l : List α) (k : Nat) (hf : ∀ x ∈ l, key (f x) = key x) :
    (l.map f).find? (fun x => key x = k) = (l.find? fun x => key x = k).map f := by
  induction l with
  | nil => rfl
  | cons x r ih =>
    have hx := hf x (by simp)
    have hr := ih fun y hy => hf y (by simp [hy])
    by_cases h : key x = k <;> simp [hx, h, hr]

/-- Changing the elements of one key changes what a search for that key finds. -/
theorem find?_modify_self {α : Type} (key : α → Nat) (f : α → α) (l : List α) (k : Nat) (hf : ∀ x, key (f x) = key x) :
    (l.map fun x => if key x = k then f x else x).find? (fun x => key x = k) = (l.find? fun x => key x = k).map f := by
  rw [find?_map_key key _ l k (by intro x _; split <;> simp [hf])]
  cases h : l.find? fun x => key x = k with
  | none => rfl
  | some x =>
    have := List.find?_some h
    simp_all

/-- Changing the elements of one key leaves the others as found. -/
theorem find?_modify_ne {α : Type} (key : α → Nat) (f : α → α) (l : List α) {k j : Nat} (hj : j ≠ k)
    (hf : ∀ x, key (f x) = key x) :
    (l.map fun x => if key x = k then f x else x).find? (fun x => key x = j) = l.find? fun x => key x = j := by
  rw [find?_map_key key _ l j (by intro x _; split <;> simp [hf])]
  cases h : l.find? fun x => key x = j with
  | none => rfl
  | some x =>
    have := List.find?_some h
    simp_all

@[simp] theorem modAt_length {α : Type} (l : List α) (i : Nat) (f : α → α) : (modAt l i f).length = l.length := by
  induction l generalizing i with
  | nil => rfl
  | cons x r ih => cases i <;> simp [modAt, ih]

@[simp] theorem modAt_get? {α : Type} (l : List α) (i j : Nat) (f : α → α) :
    (modAt l i f)[j]? = if i = j then (l[j]?).map f else l[j]? := by
  induction l generalizing i j with
  | nil => simp [modAt]
  | cons x r ih => cases i <;> cases j <;> simp [modAt, ih]

/-- A position of a list that was set. -/
theorem nth_modAt {α : Type} (l : List α) (i j : Nat) (f : α → α) (d : α) :
    nth (modAt l i f) j d = if i = j ∧ j < l.length then f (nth l j d) else nth l j d := by
  unfold nth
  rw [modAt_get?]
  by_cases h : i = j
  · subst h
    by_cases hl : i < l.length <;> simp [hl]
  · simp [h]

theorem map_modAt {α β : Type} (l : List α) (i : Nat) (f : α → α) (g : α → β) (h : ∀ x, g (f x) = g x) :
    (modAt l i f).map g = l.map g := by
  induction l generalizing i with
  | nil => rfl
  | cons x r ih => cases i <;> simp [modAt, ih, h]

/-! ### Maps -/

@[simp] theorem Map.get_put_self {α : Type} (m : Map α) (k : Nat) (v d : α) : (m.put k v).get k d = v := by
  simp [Map.get, Map.put]

theorem Map.get_put_ne {α : Type} (m : Map α) {k j : Nat} (v d : α) (h : j ≠ k) : (m.put k v).get j d = m.get j d := by
  have hk : ¬ k = j := fun e => h e.symm
  simp only [Map.get, Map.put, List.find?_cons, hk, decide_false, List.find?_filter]
  congr 1
  congr 1
  funext p
  by_cases hp : p.1 = j <;> simp [hp, h]

/-! ### Gangs and warps -/

theorem State.gang?_modGang (s : State) (gid : Nat) (f : Gang → Gang) (hf : ∀ g, (f g).gid = g.gid) :
    (s.modGang gid f).gang? gid = (s.gang? gid).map f := find?_modify_self Gang.gid f s.gangs gid hf

theorem State.gang?_modGang_ne (s : State) {gid k : Nat} (f : Gang → Gang) (h : k ≠ gid) (hf : ∀ g, (f g).gid = g.gid) :
    (s.modGang gid f).gang? k = s.gang? k := find?_modify_ne Gang.gid f s.gangs h hf

@[simp] theorem Gang.modWarp_gid (g : Gang) (wi : Nat) (f : Warp → Warp) : (g.modWarp wi f).gid = g.gid := rfl

@[simp] theorem Gang.modWarp_sp (g : Gang) (wi : Nat) (f : Warp → Warp) : (g.modWarp wi f).sp = g.sp := rfl

@[simp] theorem Gang.modWarp_n (g : Gang) (wi : Nat) (f : Warp → Warp) : (g.modWarp wi f).n = g.n := rfl

theorem Gang.warp?_modWarp (g : Gang) (wi : Nat) (f : Warp → Warp) (hf : ∀ w, (f w).wi = w.wi) :
    (g.modWarp wi f).warp? wi = (g.warp? wi).map f := find?_modify_self Warp.wi f g.warps wi hf

theorem Gang.warp?_modWarp_ne (g : Gang) {wi k : Nat} (f : Warp → Warp) (h : k ≠ wi) (hf : ∀ w, (f w).wi = w.wi) :
    (g.modWarp wi f).warp? k = g.warp? k := find?_modify_ne Warp.wi f g.warps h hf

theorem State.warp?_modWarp (s : State) (r : WRef) (f : Warp → Warp) (hf : ∀ w, (f w).wi = w.wi) :
    (s.modWarp r f).warp? r = (s.warp? r).map f := by
  unfold State.warp? State.modWarp
  rw [State.gang?_modGang _ _ _ (fun g => Gang.modWarp_gid g _ _)]
  cases s.gang? r.1 <;> simp [Gang.warp?_modWarp _ _ _ hf]

theorem State.warp?_modWarp_ne (s : State) {r q : WRef} (f : Warp → Warp) (h : q ≠ r) (hf : ∀ w, (f w).wi = w.wi) :
    (s.modWarp r f).warp? q = s.warp? q := by
  unfold State.warp? State.modWarp
  by_cases hg : q.1 = r.1
  · have hw : q.2 ≠ r.2 := fun e => h (Prod.ext hg e)
    rw [hg, State.gang?_modGang _ _ _ (fun g => Gang.modWarp_gid g _ _)]
    cases s.gang? r.1 <;> simp [Gang.warp?_modWarp_ne _ _ hw hf]
  · rw [State.gang?_modGang_ne _ _ hg (fun g => Gang.modWarp_gid g _ _)]

/-- Two changes of one warp are one. -/
theorem State.modWarp_modWarp (s : State) (r : WRef) (f g : Warp → Warp) (hg : ∀ w, (g w).wi = w.wi) :
    (s.modWarp r g).modWarp r f = s.modWarp r fun w => f (g w) := by
  have key : ∀ l : List Gang,
      (l.map fun x : Gang => if x.gid = r.1 then x.modWarp r.2 g else x).map (fun x => if x.gid = r.1 then x.modWarp r.2 f else x) =
        l.map fun x : Gang => if x.gid = r.1 then x.modWarp r.2 fun w => f (g w) else x := by
    intro l
    rw [List.map_map]
    apply List.map_congr_left
    intro x _
    by_cases h : x.gid = r.1
    · simp only [Function.comp, h, if_true, Gang.modWarp, List.map_map, Gang.mk.injEq, true_and]
      apply List.map_congr_left
      intro w _
      by_cases hw : w.wi = r.2 <;> simp [hw, hg]
    · simp [h]
  simp only [State.modWarp, State.modGang, State.mk.injEq, true_and, and_true]
  exact ⟨key _, key _⟩

/-! ### Threads -/

theorem Warp.thread?_modThread (w : Warp) (t : Nat) (f : Thread → Thread) (hf : ∀ th, (f th).t = th.t) :
    (w.modThread t f).thread? t = (w.thread? t).map f := find?_modify_self Thread.t f w.threads t hf

theorem Warp.thread?_modThread_ne (w : Warp) {t k : Nat} (f : Thread → Thread) (h : k ≠ t) (hf : ∀ th, (f th).t = th.t) :
    (w.modThread t f).thread? k = w.thread? k := find?_modify_ne Thread.t f w.threads h hf

theorem Warp.thread?_mapThreads (w : Warp) (t : Nat) (f : Thread → Thread) (hf : ∀ th, (f th).t = th.t) :
    (w.mapThreads f).thread? t = (w.thread? t).map f := find?_map_key Thread.t f w.threads t fun th _ => hf th

/-- A thread of a warp is the one found by its number where the numbers are distinct. -/
theorem Warp.thread?_of_mem (w : Warp) (h : (w.threads.map (·.t)).Nodup) {th : Thread} (hm : th ∈ w.threads) :
    w.thread? th.t = some th := by
  unfold Warp.thread?
  generalize w.threads = l at h hm
  induction l with
  | nil => simp at hm
  | cons x r ih =>
    simp only [List.map_cons, List.nodup_cons, List.mem_map, not_exists, not_and] at h
    rcases List.mem_cons.mp hm with rfl | hr
    · simp
    · have : x.t ≠ th.t := fun e => h.1 th hr e.symm
      simp [this, ih h.2 hr]

/-! ### Cores and quarters -/

@[simp] theorem State.core_modCore (s : State) (c : Nat) (f : Core → Core) : (s.modCore c f).core c = f (s.core c) := by
  simp [State.core, State.modCore]

theorem State.core_modCore_ne (s : State) {c k : Nat} (f : Core → Core) (h : k ≠ c) : (s.modCore c f).core k = s.core k := by
  simp [State.core, State.modCore, Map.get_put_ne _ _ _ h]

@[simp] theorem State.gang?_modCore (s : State) (c gid : Nat) (f : Core → Core) : (s.modCore c f).gang? gid = s.gang? gid := rfl

@[simp] theorem State.warp?_modCore (s : State) (c : Nat) (r : WRef) (f : Core → Core) : (s.modCore c f).warp? r = s.warp? r := rfl

@[simp] theorem State.core_modGang (s : State) (gid c : Nat) (f : Gang → Gang) : (s.modGang gid f).core c = s.core c := rfl

@[simp] theorem State.core_modWarp (s : State) (r : WRef) (c : Nat) (f : Warp → Warp) : (s.modWarp r f).core c = s.core c := rfl

end Sys2Proof.Machine
end

