-- ==== Sys2Proof/Laws/Issue.lean ====
section
/-!
SUPPORT. What the shared operations of an issue do: the operand gate, the end of a stride, the completion of an issue, and the plain
pattern as a whole.
-/
namespace Sys2Proof.Machine

/-! ### The gate -/

theorem faultsOf_eq_nil {ths : List Thread} {f : Thread → Option Flt} (h : ∀ th ∈ ths, f th = none) : faultsOf ths f = [] := by
  unfold faultsOf
  rw [List.filterMap_eq_nil_iff]
  intro th hth
  simp [h th hth]

theorem faultsOf_ne_nil {ths : List Thread} {f : Thread → Option Flt} {th : Thread} (hm : th ∈ ths) (h : f th ≠ none) :
    faultsOf ths f ≠ [] := by
  unfold faultsOf
  intro e
  rw [List.filterMap_eq_nil_iff] at e
  cases hf : f th with
  | none => exact h hf
  | some a => simpa [hf] using e th hm

/-- The passes open where no acting thread faults or blocks and no window word is missed. -/
theorem gateOf_go {who : List Thread} {early late : Thread → Option Flt} {blocks : Thread → Bool} {owed : Thread → List Nat}
    {miss : List Nat} (he : ∀ th ∈ who, early th = none) (hb : ∀ th ∈ who, blocks th = false) (hl : ∀ th ∈ who, late th = none)
    (hm : who ≠ [] → miss = []) : gateOf who early blocks owed miss late = .go := by
  have h1 : who.any blocks = false := List.any_eq_false.mpr fun th ht => by simp [hb th ht]
  have h2 : (if who = [] then [] else miss) = [] := by
    split
    · rfl
    · exact hm ‹_›
  have h3 : (faultsOf who fun th => (early th).or (if blocks th then none else late th)) = [] :=
    faultsOf_eq_nil fun th ht => by simp [he th ht, hb th ht, hl th ht]
  simp [gateOf, h1, h2, h3]

/-- Where every acting thread's operands stand ready and the further check raises nothing, the gate is open. -/
theorem State.gate_go {s : State} {i : Iss} {who : List Thread} {src dst : List Fld} {dRead : Bool} {imm : BitVec 21}
    {chk : Thread → Option Flt} (h : ∀ th ∈ who, i.ready s src dst dRead imm th) (hc : ∀ th ∈ who, chk th = none) :
    s.gate i who src dst dRead imm chk = .go := by
  have hs : ∀ th ∈ who, ∀ f ∈ (if dRead then src ++ dst else src), stale th f.x f.n = false ∧ poisonAt i.w th f.x f.n = none :=
    fun th ht => (h th ht).2.1
  have hwin : ∀ th ∈ who, ∀ f ∈ src, s.windowReads i.g i.w.core f imm = true := fun th ht => (h th ht).2.2
  refine gateOf_go (fun th ht => ?_) (fun th ht => ?_) (fun th ht => ?_) fun hne => ?_
  · have ha : staleFlt th (if dRead then src ++ dst else src) = none := by
      simp only [staleFlt, Option.map_eq_none_iff, List.find?_eq_none]
      intro f hf
      simp [(hs th ht f hf).1]
    have hb : emptyFlt i.w th (src ++ dst) = none := by
      simp only [emptyFlt, Option.map_eq_none_iff, List.find?_eq_none]
      intro f hf
      simp [(h th ht).1 f hf]
    rw [ha, hb]; rfl
  · simp only [anyBlock, List.any_eq_false, Bool.not_eq_true]
    intro f hf
    simp [(h th ht).1 f hf]
  · have ha : poisonFault i.w th (if dRead then src ++ dst else src) = none := by
      simp only [poisonFault, List.findSome?_eq_none_iff]
      intro f hf
      simp [(hs th ht f hf).2]
    have hb : s.windowFlt i.g i.w src imm = none := by
      simp only [State.windowFlt, List.findSome?_eq_none_iff]
      intro f hf
      have := hwin th ht f hf
      unfold State.windowReads at this
      split <;> simp_all
      split <;> simp_all
    rw [ha, hb, hc th ht]; rfl
  · obtain ⟨th, r, rfl⟩ := List.exists_cons_of_ne_nil hne
    simp only [State.windowMiss, List.flatMap_eq_nil_iff]
    intro f hf
    have := hwin th (by simp) f hf
    unfold State.windowReads at this
    split <;> simp_all
    split <;> simp_all

/-! ### The end of a stride -/

theorem State.endStride_warp? (s : State) (r : WRef) :
    (s.endStride r).warp? r = (s.warp? r).map Warp.ended := by
  unfold State.endStride
  cases h : s.warp? r with
  | none => simp [h]
  | some w =>
    simp only [State.modQuarter, State.warp?_modCore]
    rw [State.warp?_modWarp _ _ _ (by intro w; rfl), h]

theorem State.endStride_warp?_ne (s : State) {r q : WRef} (h : q ≠ r) : (s.endStride r).warp? q = s.warp? q := by
  unfold State.endStride
  cases s.warp? r with
  | none => rfl
  | some w =>
    simp only [State.modQuarter, State.warp?_modCore]
    exact State.warp?_modWarp_ne _ _ h (by intro w; rfl)

@[simp] theorem State.endStride_outside (s : State) (r : WRef) : (s.endStride r).outside = s.outside := by
  unfold State.endStride
  cases s.warp? r <;> rfl

theorem State.modWarp_gang_outside (s : State) (r : WRef) (f : Warp → Warp) (gid : Nat) :
    ((s.modWarp r f).gang? gid).map Gang.outside = (s.gang? gid).map Gang.outside := by
  unfold State.modWarp
  by_cases h : gid = r.1
  · subst h
    rw [State.gang?_modGang _ _ _ (fun g => Gang.modWarp_gid g _ _)]
    cases s.gang? r.1 <;> simp [Gang.outside, Gang.modWarp]
  · rw [State.gang?_modGang_ne _ _ h (fun g => Gang.modWarp_gid g _ _)]

theorem State.endStride_gang_outside (s : State) (r : WRef) (gid : Nat) :
    ((s.endStride r).gang? gid).map Gang.outside = (s.gang? gid).map Gang.outside := by
  unfold State.endStride
  cases s.warp? r with
  | none => rfl
  | some w => exact State.modWarp_gang_outside _ _ _ _

theorem Core.outside_modQuarter (k : Core) (q : Nat) (f : Quarter → Quarter) (h : ∀ x, { f x with running := none } = { x with running := none }) :
    ({ k with quarters := modAt k.quarters q f } : Core).outside = k.outside := by
  have := map_modAt k.quarters q f (fun q : Quarter => { q with running := none }) h
  simp only [Core.outside]
  rw [this]

theorem State.endStride_core_outside (s : State) (r : WRef) (c : Nat) : ((s.endStride r).core c).outside = (s.core c).outside := by
  unfold State.endStride
  cases s.warp? r with
  | none => rfl
  | some w =>
    simp only [State.modQuarter]
    by_cases h : c = w.core
    · subst h
      rw [State.core_modCore, Core.outside_modQuarter _ _ _ (by intro x; split <;> rfl)]
      rfl
    · rw [State.core_modCore_ne _ _ h]
      rfl

/-! ### The completion of an issue -/

/-- What stands before an issue is closed: as `Leaves`, the stride still as it was. -/
structure Made (s t : State) (i : Iss) (W : Warp) (upd : Thread → Thread) : Prop where
  gangs : ∀ gid, (t.gang? gid).map Gang.outside = (s.gang? gid).map Gang.outside
  warps : ∀ r, r ≠ i.r → t.warp? r = s.warp? r
  cores : ∀ c, (t.core c).outside = (s.core c).outside
  warp : ∃ w, t.warp? i.r = some w ∧ w.outside = W.outside ∧ w.s = W.s ∧ ∀ th ∈ i.w.threads, w.thread? th.t = some (upd th)

/-- Closing an issue leaves what was made, but for o and l where the stride ends. -/
theorem State.closeIssue_leaves {s t : State} {i : Iss} {W : Warp} {upd : Thread → Thread} (h : Made s t i W upd)
    (e : Bool) (extra : Nat) (busy : Bool) : Leaves s (t.closeIssue i e extra busy) i W upd := by
  obtain ⟨w, hw, ho, hs, hth⟩ := h.warp
  have wi0 : ∀ b c, ∀ k : Warp, (k.noted b c).wi = k.wi := fun _ _ _ => rfl
  have out0 : ∀ b c, ∀ k : Warp, (k.noted b c).outside = k.outside := fun _ _ _ => rfl
  have core : ∀ (b c : Bool) (k : Nat),
      (((t.modWarp i.r fun x => x.noted b c).modCore i.w.core fun k =>
        { k with clock := k.clock + issueCycles i.act + extra }).core k).outside = (t.core k).outside := by
    intro b c k
    by_cases hk : k = i.w.core
    · subst hk; simp [Core.outside]
    · simp [State.core_modCore_ne _ _ hk]
  have thr : ∀ b c, ∀ q, (Warp.noted w b c).thread? q = w.thread? q := fun _ _ _ => rfl
  have endT : ∀ (x : Warp) q, x.ended.thread? q = (x.thread? q).map Thread.clearOl :=
    fun x q => Warp.thread?_mapThreads x q _ fun _ => rfl
  simp only [State.closeIssue, hw]
  generalize (busy || w.watched != i.w.watched) = bz
  generalize List.any _ _ = wt
  have gone : Leaves s (((t.modWarp i.r fun x => x.noted bz wt).modCore i.w.core fun k =>
      { k with clock := k.clock + issueCycles i.act + extra }).endStride i.r) i W upd := by
    constructor
    · intro gid
      rw [State.endStride_gang_outside, State.gang?_modCore, State.modWarp_gang_outside, h.gangs]
    · intro r hr
      rw [State.endStride_warp?_ne _ hr, State.warp?_modCore, State.warp?_modWarp_ne _ _ hr (wi0 bz wt), h.warps r hr]
    · intro c
      rw [State.endStride_core_outside, core, h.cores]
    · refine ⟨(w.noted bz wt).ended, by rw [State.endStride_warp?, State.warp?_modCore, State.warp?_modWarp _ _ _ (wi0 bz wt), hw]; rfl, ho, hs, ?_⟩
      intro th hm
      refine ⟨_, ?_, rfl⟩
      rw [endT, thr, hth th hm]
      simp [Warp.ended]
  split
  · exact gone
  · split
    · exact gone
    · constructor
      · intro gid
        rw [State.modWarp_gang_outside, State.gang?_modCore, State.modWarp_gang_outside, h.gangs]
      · intro r hr
        rw [State.warp?_modWarp_ne _ _ hr (by intro x; rfl), State.warp?_modCore, State.warp?_modWarp_ne _ _ hr (wi0 bz wt),
          h.warps r hr]
      · intro c
        rw [State.core_modWarp, core, h.cores]
      · refine ⟨(w.noted bz wt).goesOn _ _, by rw [State.warp?_modWarp _ _ _ (by intro x; rfl), State.warp?_modCore,
          State.warp?_modWarp _ _ _ (wi0 bz wt), hw]; rfl, ho, hs, ?_⟩
        intro th hm
        exact ⟨_, hth th hm, by simp [Warp.goesOn]⟩

theorem State.endStride_osSeq (s : State) (r : WRef) (c : Nat) : ((s.endStride r).core c).osSeq = (s.core c).osSeq := by
  unfold State.endStride
  cases s.warp? r with
  | none => rfl
  | some w =>
    simp only [State.modQuarter]
    by_cases h : c = w.core
    · subst h
      rw [State.core_modCore]
      rfl
    · rw [State.core_modCore_ne _ _ h]
      rfl

theorem State.closeIssue_osSeq (s : State) (i : Iss) (e : Bool) (extra : Nat) (busy : Bool) (c : Nat) :
    ((s.closeIssue i e extra busy).core c).osSeq = (s.core c).osSeq := by
  have mid : ∀ (f : Warp → Warp) (g : Core → Core), (∀ k, (g k).osSeq = k.osSeq) →
      (((s.modWarp i.r f).modCore i.w.core g).core c).osSeq = (s.core c).osSeq := by
    intro f g hg
    by_cases h : c = i.w.core
    · subst h
      rw [State.core_modCore, hg]
      rfl
    · rw [State.core_modCore_ne _ _ h]
      rfl
  unfold State.closeIssue
  cases s.warp? i.r with
  | none => rfl
  | some w =>
    simp only
    split
    · rw [State.endStride_osSeq, mid _ _ (by intro k; rfl)]
    · split
      · rw [State.endStride_osSeq, mid _ _ (by intro k; rfl)]
      · rw [State.core_modWarp, mid _ _ (by intro k; rfl)]

@[simp] theorem State.closeIssue_outside (s : State) (i : Iss) (e : Bool) (extra : Nat) (busy : Bool) :
    (s.closeIssue i e extra busy).outside = s.outside := by
  unfold State.closeIssue
  cases s.warp? i.r with
  | none => rfl
  | some w =>
    simp only
    split
    · rw [State.endStride_outside]; rfl
    · split
      · rw [State.endStride_outside]; rfl
      · rfl

end Sys2Proof.Machine
end

