-- ==== Sys2Proof/Laws/Memory.lean ====
section
/-!
SUPPORT. Memory: every operation keeps the canonical form, a read after a write, equal memories are equal data, and the memory after
reset.
-/
namespace Sys2Proof.Machine

/-! ### The canonical form -/

theorem Memory.wfFrom_cons (b : Nat) (w : Byte) (r : Memory) (lo : Nat) :
    Memory.wfFrom ((b, w) :: r) lo = true ↔ lo ≤ b ∧ w ≠ 0 ∧ Memory.wfFrom r (b + 1) = true := by
  simp [Memory.wfFrom, and_assoc]

theorem Memory.write_nil (a : Nat) (v : Byte) : Memory.write [] a v = if v = 0 then [] else [(a, v)] := rfl

theorem Memory.write_cons (b : Nat) (w : Byte) (r : Memory) (a : Nat) (v : Byte) :
    Memory.write ((b, w) :: r) a v =
      if a < b then (if v = 0 then (b, w) :: r else (a, v) :: (b, w) :: r)
      else if a = b then (if v = 0 then r else (a, v) :: r)
      else (b, w) :: Memory.write r a v := rfl

/-- A memory canonical from an address is canonical from every lower one. -/
theorem Memory.wfFrom_mono {m : Memory} {lo k : Nat} (h : m.wfFrom lo = true) (hk : k ≤ lo) : m.wfFrom k = true := by
  cases m with
  | nil => rfl
  | cons p r =>
    obtain ⟨b, w⟩ := p
    rw [wfFrom_cons] at *
    exact ⟨hk.trans h.1, h.2⟩

/-- A write keeps the form above any address it does not pass below. -/
theorem Memory.write_wfFrom {m : Memory} {lo : Nat} (h : m.wfFrom lo = true) {a : Nat} (ha : lo ≤ a) (v : Byte) :
    (m.write a v).wfFrom lo = true := by
  induction m generalizing lo with
  | nil =>
    rw [write_nil]
    split
    · rfl
    · exact (wfFrom_cons ..).2 ⟨ha, ‹_›, rfl⟩
  | cons p r ih =>
    obtain ⟨b, w⟩ := p
    rw [wfFrom_cons] at h
    obtain ⟨hb, hw, hr⟩ := h
    rw [write_cons]
    split_ifs with h1 h2 h3 h4
    · exact (wfFrom_cons ..).2 ⟨hb, hw, hr⟩
    · exact (wfFrom_cons ..).2 ⟨ha, h2, (wfFrom_cons ..).2 ⟨h1, hw, hr⟩⟩
    · exact wfFrom_mono hr (by omega)
    · exact (wfFrom_cons ..).2 ⟨ha, h4, h3 ▸ hr⟩
    · exact (wfFrom_cons ..).2 ⟨hb, hw, ih hr (by omega)⟩

/-- A byte written keeps the canonical form. -/
@[simp] theorem Memory.write_wf {m : Memory} (h : m.wf = true) (a : Nat) (v : Byte) : (m.write a v).wf = true :=
  write_wfFrom h (Nat.zero_le a) v

/-- Bytes written keep the canonical form. -/
@[simp] theorem Memory.writeN_wf {m : Memory} (h : m.wf = true) (a : Nat) (bs : List Byte) : (m.writeN a bs).wf = true := by
  induction bs generalizing m a with
  | nil => exact h
  | cons b r ih => exact ih (write_wf h a b) (a + 1)

/-- Cells dropped keep the canonical form. -/
theorem Memory.filter_wfFrom {m : Memory} {lo : Nat} (h : m.wfFrom lo = true) (p : Host.Cell → Bool) :
    Memory.wfFrom (m.filter p) lo = true := by
  induction m generalizing lo with
  | nil => rfl
  | cons q r ih =>
    obtain ⟨b, w⟩ := q
    rw [wfFrom_cons] at h
    rw [List.filter_cons]
    split
    · exact (wfFrom_cons ..).2 ⟨h.1, h.2.1, ih h.2.2⟩
    · exact wfFrom_mono (ih h.2.2) (by omega)

@[simp] theorem Memory.filter_wf {m : Memory} (h : m.wf = true) (p : Host.Cell → Bool) : Memory.wf (m.filter p) = true :=
  filter_wfFrom h p

@[simp] theorem Memory.nil_wf : Memory.wf [] = true := rfl

/-! ### Reading -/

@[simp] theorem Memory.read_nil (a : Nat) : Memory.read [] a = 0 := rfl

theorem Memory.read_cons (b : Nat) (w : Byte) (r : Memory) (a : Nat) :
    Memory.read ((b, w) :: r) a = if b = a then w else Memory.read r a := by
  unfold Memory.read
  by_cases h : b = a <;> simp [h]

/-- Below the first listed address every byte is zero. -/
theorem Memory.read_of_wfFrom {m : Memory} {lo : Nat} (h : m.wfFrom lo = true) {a : Nat} (ha : a < lo) : m.read a = 0 := by
  induction m generalizing lo with
  | nil => rfl
  | cons p r ih =>
    obtain ⟨b, w⟩ := p
    rw [wfFrom_cons] at h
    rw [read_cons, if_neg (by omega)]
    exact ih h.2.2 (by omega)

/-- What a byte reads as after a write: the value written at its address, and the byte before it everywhere else. -/
theorem Memory.read_write_from {m : Memory} {lo : Nat} (h : m.wfFrom lo = true) (a : Nat) (v : Byte) (k : Nat) :
    (m.write a v).read k = if k = a then v else m.read k := by
  induction m generalizing lo with
  | nil =>
    rw [write_nil]
    by_cases hv : v = 0
    · simp [hv]
    · rw [if_neg hv, read_cons]
      by_cases hk : a = k <;> simp [hk, eq_comm]
  | cons p r ih =>
    obtain ⟨b, w⟩ := p
    rw [wfFrom_cons] at h
    have low : ∀ {j}, j ≤ b → Memory.read r j = 0 := fun hj => read_of_wfFrom h.2.2 (Nat.lt_succ_of_le hj)
    rw [write_cons, read_cons]
    rcases Nat.lt_trichotomy a b with hlt | rfl | hgt
    · rw [if_pos hlt]
      by_cases hv : v = 0
      · rw [if_pos hv, read_cons]
        by_cases hk : k = a
        · rw [if_pos hk, if_neg (by omega), low (by omega), hv]
        · rw [if_neg hk]
      · rw [if_neg hv, read_cons, read_cons]
        by_cases hk : k = a
        · rw [if_pos hk, if_pos hk.symm]
        · rw [if_neg hk, if_neg (Ne.symm hk)]
    · rw [if_neg (lt_irrefl a), if_pos rfl]
      by_cases hv : v = 0
      · rw [if_pos hv]
        by_cases hk : k = a
        · rw [if_pos hk, hk, low le_rfl, hv]
        · rw [if_neg hk, if_neg (Ne.symm hk)]
      · rw [if_neg hv, read_cons]
        by_cases hk : k = a
        · rw [if_pos hk, if_pos hk.symm]
        · rw [if_neg hk, if_neg (Ne.symm hk), if_neg (Ne.symm hk)]
    · rw [if_neg (by omega), if_neg (by omega), read_cons, ih h.2.2]
      by_cases hb : b = k
      · rw [if_pos hb, if_neg (by omega), if_pos hb]
      · rw [if_neg hb, if_neg hb]

/-- READ AFTER WRITE: the byte written. -/
theorem Memory.read_write_self {m : Memory} (h : m.wf = true) (a : Nat) (v : Byte) : (m.write a v).read a = v := by
  rw [read_write_from h, if_pos rfl]

/-- A WRITE LEAVES EVERY OTHER BYTE. -/
theorem Memory.read_write_ne {m : Memory} (h : m.wf = true) {a k : Nat} (hk : k ≠ a) (v : Byte) : (m.write a v).read k = m.read k := by
  rw [read_write_from h, if_neg hk]

/-- A write of bytes leaves every byte outside them. -/
theorem Memory.read_writeN_outside {m : Memory} (h : m.wf = true) (a : Nat) (bs : List Byte) {k : Nat} (hk : k < a ∨ a + bs.length ≤ k) :
    (m.writeN a bs).read k = m.read k := by
  induction bs generalizing m a with
  | nil => rfl
  | cons b r ih =>
    rw [List.length_cons] at hk
    rw [show m.writeN a (b :: r) = (m.write a b).writeN (a + 1) r from rfl, ih (write_wf h a b) (a + 1) (by omega),
      read_write_ne h (by omega)]

/-- The bytes written read back. -/
theorem Memory.read_writeN {m : Memory} (h : m.wf = true) (a : Nat) (bs : List Byte) {i : Nat} (hi : i < bs.length) :
    (m.writeN a bs).read (a + i) = bs[i] := by
  induction bs generalizing m a i with
  | nil => simp at hi
  | cons b r ih =>
    rw [show m.writeN a (b :: r) = (m.write a b).writeN (a + 1) r from rfl]
    cases i with
    | zero =>
      rw [read_writeN_outside (write_wf h a b) (a + 1) r (by omega)]
      exact read_write_self h a b
    | succ j =>
      have := ih (write_wf h a b) (a + 1) (i := j) (by simpa using hi)
      rwa [show a + 1 + j = a + (j + 1) by omega] at this

/-- EQUAL MEMORIES ARE EQUAL DATA: two canonical memories that read alike are one list. -/
theorem Memory.ext_of_read {m k : Memory} {lo : Nat} (hm : m.wfFrom lo = true) (hk : k.wfFrom lo = true) (h : ∀ a, m.read a = k.read a) :
    m = k := by
  induction m generalizing k lo with
  | nil =>
    cases k with
    | nil => rfl
    | cons q s =>
      obtain ⟨c, x⟩ := q
      have := h c
      rw [read_cons, if_pos rfl] at this
      exact absurd this.symm ((wfFrom_cons ..).1 hk).2.1
  | cons p r ih =>
    obtain ⟨b, w⟩ := p
    have hm' := (wfFrom_cons ..).1 hm
    cases k with
    | nil =>
      have := h b
      rw [read_cons, if_pos rfl] at this
      exact absurd this hm'.2.1
    | cons q s =>
      obtain ⟨c, x⟩ := q
      have hk' := (wfFrom_cons ..).1 hk
      have hbc : b = c := by
        rcases Nat.lt_trichotomy b c with hlt | heq | hgt
        · have := h b
          rw [read_cons, if_pos rfl, read_cons, if_neg (by omega), read_of_wfFrom hk'.2.2 (by omega)] at this
          exact absurd this hm'.2.1
        · exact heq
        · have := h c
          rw [read_cons, if_neg (by omega), read_cons, if_pos rfl, read_of_wfFrom hm'.2.2 (by omega)] at this
          exact absurd this.symm hk'.2.1
      subst hbc
      have hwx : w = x := by simpa [read_cons] using h b
      subst hwx
      rw [ih hm'.2.2 hk'.2.2 fun a => ?_]
      by_cases ha : a = b
      · subst ha; rw [read_of_wfFrom hm'.2.2 (by omega), read_of_wfFrom hk'.2.2 (by omega)]
      · simpa [read_cons, Ne.symm ha] using h a

/-! ### After reset -/

/-- The memory after reset is in canonical form. -/
theorem State.reset_mem_wf : State.reset.mem.wf = true := rfl

end Sys2Proof.Machine
end

