-- ==== Sys2Proof/Laws/Plain.lean ====
section
/-!
SUPPORT. Folds of register writes over the threads of an issue, and what a plain instruction leaves (`State.plain`).
-/
namespace Sys2Proof.Machine

/-! ### Changes of one warp as one change -/

@[simp] theorem State.modWarp_id (s : State) (r : WRef) : (s.modWarp r fun w => w) = s := by
  have hw : ∀ g : Gang, g.modWarp r.2 (fun w => w) = g := by
    intro g
    have : g.warps.map (fun w => if w.wi = r.2 then w else w) = g.warps := by simp
    simp only [Gang.modWarp, this]
  have hg : ∀ l : List Gang, (l.map fun g => if g.gid = r.1 then g.modWarp r.2 (fun w => w) else g) = l := by
    intro l; simp [hw]
  simp only [State.modWarp, State.modGang, hg]

/-- A fold of changes of one warp is one change. -/
theorem State.foldl_modWarp {α : Type} (r : WRef) (f : α → Warp → Warp) (hf : ∀ a w, (f a w).wi = w.wi) (l : List α) (s : State) :
    l.foldl (fun s a => s.modWarp r (f a)) s = s.modWarp r fun w => l.foldl (fun w a => f a w) w := by
  induction l generalizing s with
  | nil => simp
  | cons a l ih => rw [List.foldl_cons, ih, State.modWarp_modWarp _ _ _ _ (hf a)]; rfl

/-- What a step of a fold keeps, the fold keeps. -/
theorem foldl_keeps {α β γ : Type} (key : β → γ) (f : β → α → β) (hf : ∀ b a, key (f b a) = key b) (l : List α) (b : β) :
    key (l.foldl f b) = key b := by
  induction l generalizing b with
  | nil => rfl
  | cons a l ih => rw [List.foldl_cons, ih, hf]

/-! ### Register writes over threads -/

theorem Thread.put_t (th : Thread) (d : Opnd) (n v : Nat) : (th.put d n v).t = th.t := by cases d <;> rfl

theorem Warp.put_wi (w : Warp) (t : Nat) (d : Opnd) (n v : Nat) : (w.put t d n v).wi = w.wi := by cases d <;> rfl

theorem Warp.put_outside (w : Warp) (t : Nat) (d : Opnd) (n v : Nat) : (w.put t d n v).outside = w.outside := by cases d <;> rfl

theorem Warp.put_of_thread (w : Warp) (t : Nat) {d : Opnd} (n v : Nat) (h : d.cls ≠ .s) :
    w.put t d n v = w.modThread t fun th => th.put d n v := by
  cases d <;> first | rfl | exact absurd rfl h

theorem Thread.put_scalar (th : Thread) (k : BitVec 6) (wt : Bool) (n v : Nat) : th.put (.s k wt) n v = th := rfl

theorem and_not_olBits_zero (x : BitVec 10) (i : Nat) : x &&& ~~~(olBits i 0) = x := by
  rw [show olBits i 0 = 0#10 by simp [olBits], show ~~~(0#10) = BitVec.allOnes 10 by decide, BitVec.and_allOnes]

theorem Thread.put_zero (th : Thread) (d : Opnd) (v : Nat) : th.put d 0 v = th := by
  cases d <;> first | rfl | simp [Thread.put, natWords, putOl, and_not_olBits_zero]

theorem Warp.put_zero (w : Warp) (t : Nat) (d : Opnd) (v : Nat) : w.put t d 0 v = w := by
  cases d <;> simp [Warp.put, Thread.put, natWords, putRegs, putOl, and_not_olBits_zero, Warp.modThread]

theorem Warp.modThread_modThread (w : Warp) (t : Nat) (f g : Thread → Thread) (hg : ∀ th, (g th).t = th.t) :
    (w.modThread t g).modThread t f = w.modThread t fun th => f (g th) := by
  simp only [Warp.modThread, List.map_map, Warp.mk.injEq, true_and]
  apply List.map_congr_left
  intro th _
  by_cases h : th.t = t <;> simp [h, hg]

/-- Writes to distinct threads, one each: a thread gets its own. -/
theorem Warp.foldl_modThread (who : List Thread) (G : Thread → Thread → Thread) (hG : ∀ a u, (G a u).t = u.t)
    (hN : (who.map (·.t)).Nodup) (w : Warp) (k : Nat) :
    (who.foldl (fun w th => w.modThread th.t (G th)) w).thread? k =
      (w.thread? k).map fun u => match who.find? (fun th => th.t = k) with | some th => G th u | none => u := by
  induction who generalizing w with
  | nil => simp
  | cons a l ih =>
    simp only [List.map_cons, List.nodup_cons, List.mem_map, not_exists, not_and] at hN
    rw [List.foldl_cons, ih hN.2, List.find?_cons]
    by_cases h : a.t = k
    · have hl : l.find? (fun th => th.t = k) = none := by
        rw [List.find?_eq_none]
        intro x hx e
        exact hN.1 x hx (by simpa [h] using e)
      rw [← h, Warp.thread?_modThread _ _ _ (hG a)]
      rw [h, hl]
      cases w.thread? k <;> simp
    · rw [Warp.thread?_modThread_ne _ _ (Ne.symm h) (hG a)]
      simp [h]

/-- A thread of a list with distinct numbers is found by its number. -/
theorem find?_thread {l : List Thread} (hN : (l.map (·.t)).Nodup) {th : Thread} (hm : th ∈ l) :
    l.find? (fun x => x.t = th.t) = some th :=
  Warp.thread?_of_mem { wi := 0, core := 0, quarter := 0, slot := 0, homeCore := 0, homeSlot := 0, threads := l } hN hm

/-! ### The threads of an issue -/

/-- What `iss?` answers: a resident gang's warp with a stride, its active set and the guard-true threads of it. -/
theorem State.iss?_some {s : State} {h : Hdr} {i : Iss} (hi : s.iss? h = some i) :
    s.cur = some i.r ∧ s.gang? i.r.1 = some i.g ∧ s.warp? i.r = some i.w ∧ (∃ st, i.w.stride = some st ∧ i.pc = st.pc) ∧
      i.act = i.w.active i.pc ∧ i.on = i.act.filter (guardOn h) := by
  unfold State.iss? at hi
  split at hi
  · simp at hi
  · rename_i r hr
    split at hi
    · rename_i g w hg hw
      split at hi
      · simp at hi
      · rename_i st hst
        simp only [Option.some.injEq] at hi
        subst hi
        exact ⟨hr, hg, hw, ⟨st, hst, rfl⟩, rfl, rfl⟩
    · simp at hi

theorem Iss.mem_act_of_on {s : State} {h : Hdr} {i : Iss} (hi : s.iss? h = some i) {th : Thread} (hm : th ∈ i.on) : th ∈ i.act := by
  obtain ⟨-, -, -, -, -, ho⟩ := State.iss?_some hi
  rw [ho] at hm
  exact List.mem_of_mem_filter hm

theorem Iss.mem_threads_of_act {s : State} {h : Hdr} {i : Iss} (hi : s.iss? h = some i) {th : Thread} (hm : th ∈ i.act) :
    th ∈ i.w.threads := by
  obtain ⟨-, -, -, -, ha, -⟩ := State.iss?_some hi
  rw [ha] at hm
  exact List.mem_of_mem_filter hm

theorem Iss.act_nodup {s : State} {h : Hdr} {i : Iss} (hi : s.iss? h = some i) (hN : (i.w.threads.map (·.t)).Nodup) :
    (i.act.map (·.t)).Nodup := by
  obtain ⟨-, -, -, -, ha, -⟩ := State.iss?_some hi
  rw [ha]
  exact hN.sublist (List.Sublist.map _ List.filter_sublist)

theorem Iss.on_nodup {s : State} {h : Hdr} {i : Iss} (hi : s.iss? h = some i) (hN : (i.w.threads.map (·.t)).Nodup) :
    (i.on.map (·.t)).Nodup := by
  obtain ⟨-, -, -, -, -, ho⟩ := State.iss?_some hi
  rw [ho]
  exact (Iss.act_nodup hi hN).sublist (List.Sublist.map _ List.filter_sublist)

/-- With distinct thread numbers, a thread of the warp is in a sublist of its threads exactly when its number is. -/
theorem mem_of_number {l k : List Thread} (hN : (l.map (·.t)).Nodup) (hk : ∀ th ∈ k, th ∈ l) {th : Thread} (hm : th ∈ l) :
    th.t ∈ k.map (·.t) ↔ th ∈ k := by
  constructor
  · intro h
    obtain ⟨u, hu, e⟩ := List.mem_map.mp h
    have h1 := find?_thread hN (hk u hu)
    have h2 := find?_thread hN hm
    rw [e, h2] at h1
    simpa using Option.some.inj h1 ▸ hu
  · exact fun h => List.mem_map.mpr ⟨th, h, rfl⟩

theorem Iss.ts_contains {s : State} {h : Hdr} {i : Iss} (hi : s.iss? h = some i) (hN : (i.w.threads.map (·.t)).Nodup)
    {th : Thread} (hm : th ∈ i.w.threads) : i.ts.contains th.t = decide (th ∈ i.act) := by
  have := mem_of_number hN (fun u hu => Iss.mem_threads_of_act hi hu) hm
  by_cases ha : th ∈ i.act
  · simp [Iss.ts, ha, this.mpr ha]
  · have : ¬ th.t ∈ i.act.map (·.t) := fun e => ha (this.mp e)
    simp only [Iss.ts, ha, decide_false, List.contains_eq_mem, this]

/-! ### A change of the issuing warp -/

/-- A state that differs from `s` by a change of the issuing warp alone. -/
theorem Made.of_modWarp {s : State} {i : Iss} (hw : s.warp? i.r = some i.w) (F : Warp → Warp) (hwi : ∀ w, (F w).wi = w.wi)
    {W : Warp} (ho : (F i.w).outside = W.outside) (hs : (F i.w).s = W.s) {upd : Thread → Thread}
    (hth : ∀ th ∈ i.w.threads, (F i.w).thread? th.t = some (upd th)) : Made s (s.modWarp i.r F) i W upd where
  gangs gid := State.modWarp_gang_outside s i.r F gid
  warps r hr := State.warp?_modWarp_ne s F hr hwi
  cores c := by rw [State.core_modWarp]
  warp := ⟨F i.w, by rw [State.warp?_modWarp _ _ _ hwi, hw]; rfl, ho, hs, hth⟩

/-! ### The plain pattern -/

/-- The warp after the active set has advanced and $pwerr has been set. -/
def Iss.base (i : Iss) (tick : Nat) (past : BitVec 8) (w : Warp) : Warp :=
  w.mapThreads fun th =>
    let a := if i.ts.contains th.t then { th with pc := nextPc i.pc, lastIssue := tick + 1, wait := .none } else th
    if (i.on.map (·.t)).contains th.t then { a with pwerr := a.pwerr ||| past } else a

theorem Iss.base_thread {s : State} {h : Hdr} {i : Iss} (hi : s.iss? h = some i) (hN : (i.w.threads.map (·.t)).Nodup)
    (past : BitVec 8) {th : Thread} (hm : th ∈ i.w.threads) :
    (i.base s.tick past i.w).thread? th.t =
      some (if th ∈ i.on then { i.moved s.tick th with pwerr := th.pwerr ||| past } else i.moved s.tick th) := by
  have h1 := Iss.ts_contains hi hN hm
  have h2 := mem_of_number hN (fun u hu => Iss.mem_threads_of_act hi (Iss.mem_act_of_on hi hu)) hm
  unfold Iss.base
  rw [Warp.thread?_mapThreads _ _ _ (by intro u; dsimp only; split <;> split <;> rfl), Warp.thread?_of_mem _ hN hm]
  simp only [Option.map_some, h1]
  by_cases ha : th ∈ i.act
  · by_cases ho : th ∈ i.on
    · simp [ha, ho, h2.mpr ho, Iss.moved]
    · have : ¬ th.t ∈ i.on.map (·.t) := fun e => ho (h2.mp e)
      simp only [ha, ho, decide_true, if_true, if_false, List.contains_eq_mem, this, decide_false, Bool.false_eq_true, Iss.moved]
  · have ho : ¬ th ∈ i.on := fun e => ha (Iss.mem_act_of_on hi e)
    have : ¬ th.t ∈ i.on.map (·.t) := fun e => ho (h2.mp e)
    simp only [ha, ho, if_false, List.contains_eq_mem, this, decide_false, Bool.false_eq_true, Iss.moved]

/-- The writes of a plain instruction over a warp. -/
def writesOf (who : List Thread) (d : Opnd) (n : Nat) (eff : Thread → Thread → Thread) (v : Thread → Nat) (w : Warp) : Warp :=
  who.foldl (fun w th => (w.modThread th.t (eff th)).put th.t d n (v th)) w

theorem writesOf_wi (who : List Thread) (d : Opnd) (n : Nat) (eff : Thread → Thread → Thread) (v : Thread → Nat) (w : Warp) :
    (writesOf who d n eff v w).wi = w.wi := foldl_keeps Warp.wi _ (fun _ _ => by rw [Warp.put_wi]; rfl) who w

theorem writesOf_outside (who : List Thread) (d : Opnd) (n : Nat) (eff : Thread → Thread → Thread) (v : Thread → Nat) (w : Warp) :
    (writesOf who d n eff v w).outside = w.outside :=
  foldl_keeps Warp.outside _ (fun _ _ => by rw [Warp.put_outside]; rfl) who w

theorem Opnd.cls_s {d : Opnd} (h : d.cls = .s) : ∃ k wt, d = .s k wt := by
  cases d <;> first | exact ⟨_, _, rfl⟩ | exact absurd h (by simp [Opnd.cls])

/-- The threads after the writes. -/
theorem writesOf_thread (who : List Thread) (d : Opnd) (n : Nat) (eff : Thread → Thread → Thread) (v : Thread → Nat)
    (he : ∀ a u, (eff a u).t = u.t) (hN : (who.map (·.t)).Nodup) (w : Warp) (k : Nat) :
    (writesOf who d n eff v w).thread? k =
      (w.thread? k).map fun u => match who.find? (fun th => th.t = k) with | some th => (eff th u).put d n (v th) | none => u := by
  by_cases hd : d.cls = .s
  · obtain ⟨j, wt, rfl⟩ := Opnd.cls_s hd
    have hs : ∀ (l : List Thread) (w w' : Warp), w.threads = w'.threads →
        (writesOf l (.s j wt) n eff v w).threads = (l.foldl (fun w th => w.modThread th.t (eff th)) w').threads := by
      intro l
      induction l with
      | nil => intro w w' h; exact h
      | cons a l ih =>
        intro w w' h
        exact ih _ _ (by simp [Warp.put, Warp.modThread, h])
    have := Warp.foldl_modThread who eff he hN w k
    simp only [Thread.put_scalar]
    rw [← this]
    unfold Warp.thread?
    rw [hs who w w rfl]
  · have : writesOf who d n eff v w = who.foldl (fun w th => w.modThread th.t fun u => (eff th u).put d n (v th)) w := by
      unfold writesOf
      congr 1
      funext w th
      rw [Warp.put_of_thread _ _ _ _ hd, Warp.modThread_modThread _ _ _ _ (he th)]
    rw [this]
    exact Warp.foldl_modThread who (fun th u => (eff th u).put d n (v th)) (fun a u => by rw [Thread.put_t, he]) hN w k

theorem writesOf_s (who : List Thread) (d : Opnd) (n : Nat) (eff : Thread → Thread → Thread) (v : Thread → Nat) (w : Warp) :
    (writesOf who d n eff v w).s =
      match d with
      | .s k _ => who.foldl (fun rs th => putRegs rs k.toNat (natWords n (v th))) w.s
      | _ => w.s := by
  cases d <;> unfold writesOf <;> induction who generalizing w <;> first | rfl | simp_all [Warp.put, Warp.modThread]

/-- The writers of a destination, by number. -/
theorem Iss.writers_nodup {s : State} {h : Hdr} {i : Iss} (hi : s.iss? h = some i) (hN : (i.w.threads.map (·.t)).Nodup) (d : Opnd) :
    ((i.writers d).map (·.t)).Nodup := by
  unfold Iss.writers
  split
  · exact (Iss.on_nodup hi hN).sublist (List.Sublist.map _ (List.take_sublist _ _))
  · exact Iss.on_nodup hi hN

theorem Iss.writers_on {i : Iss} {d : Opnd} {th : Thread} (h : th ∈ i.writers d) : th ∈ i.on := by
  unfold Iss.writers at h
  split at h
  · exact List.mem_of_mem_take h
  · exact h

/-- Every active thread moved on, and the issue closed: nothing but its own warp has changed. -/
theorem State.advance_closes {s : State} {h : Hdr} {i : Iss} (hi : s.iss? h = some i) (hN : (i.w.threads.map (·.t)).Nodup)
    (e : Bool) (extra : Nat) (busy : Bool) : Keeps s ((s.advance i).closeIssue i e extra busy) i i.w (i.moved s.tick) := by
  obtain ⟨-, -, hw, -, -, -⟩ := State.iss?_some hi
  have hmade : Made s (s.advance i) i i.w (i.moved s.tick) := by
    refine Made.of_modWarp (W := i.w) hw (fun w => w.mapThreads fun th => if i.ts.contains th.t then
      { th with pc := nextPc i.pc, lastIssue := s.tick + 1, wait := .none } else th) (by intro w; rfl) rfl rfl ?_
    intro th hm
    rw [Warp.thread?_mapThreads _ _ _ (by intro u; split <;> rfl), Warp.thread?_of_mem _ hN hm]
    simp only [Option.map_some, Iss.ts_contains hi hN hm, Iss.moved]
    by_cases ha : th ∈ i.act <;> simp [ha]
  exact { toLeaves := State.closeIssue_leaves hmade _ _ _, outside := by rw [State.closeIssue_outside]; rfl
          seqs := fun c => by rw [State.closeIssue_osSeq]; rfl }

/-- An issue in which no guard is true moves its active set on and does nothing else (R39). -/
theorem run_guardFalse {s : State} {h : Hdr} {i : Iss} (hi : s.iss? h = some i) (hN : (i.w.threads.map (·.t)).Nodup)
    (ho : i.on = []) (k : Iss → State) : ∃ t, run s h k = .next t ∧ Keeps s t i i.w (i.moved s.tick) := by
  refine ⟨_, ?_, State.advance_closes hi hN h.e 0 false⟩
  simp [run, hi, ho]

/-- A PLAIN INSTRUCTION COMPLETES where its operands stand ready and its own check raises nothing, and leaves what `Keeps` says. -/
theorem State.plain_completes {s : State} {h : Hdr} {i : Iss} (hi : s.iss? h = some i) (hN : (i.w.threads.map (·.t)).Nodup)
    (x : VOps) (n : Wid) (dRead : Bool) (f : TIn → TOut) (chk : TIn → Option Flt)
    (hr : ∀ th ∈ i.writers x.d,
      i.ready s [⟨x.a, n.a⟩, ⟨x.b, n.b⟩, ⟨x.c, n.c⟩] (if n.d = 0 then [] else [⟨x.d, n.d⟩]) dRead x.imm th)
    (hc : ∀ th ∈ i.writers x.d, chk (s.tin i x n th) = none)
    (hd : ∀ v, (f v).d = none → n.d = 0) (ht : ∀ v th, ((f v).th th).t = th.t) :
    ∃ t, s.plain h x n dRead f chk = .next t ∧
      Keeps s t i (i.scalars (i.writers x.d) x.d n.d fun th => ((f (s.tin i x n th)).d).getD 0)
        (i.plainThread s x.d n.d [⟨x.a, n.a⟩, ⟨x.b, n.b⟩, ⟨x.c, n.c⟩] x.imm (fun th => (f (s.tin i x n th)).th)
          fun th => ((f (s.tin i x n th)).d).getD 0) := by
  obtain ⟨-, -, hw, -, -, -⟩ := State.iss?_some hi
  have hwho : (if x.d.cls = .s then i.on.take 1 else i.on) = i.writers x.d := rfl
  have hgate := State.gate_go hr hc
  by_cases hon : i.on = []
  · obtain ⟨t, h1, h2⟩ := run_guardFalse hi hN hon _
    refine ⟨t, h1, ?_⟩
    have hwn : i.writers x.d = [] := by simp [Iss.writers, hon]
    have hsc : i.scalars (i.writers x.d) x.d n.d (fun th => ((f (s.tin i x n th)).d).getD 0) = i.w := by
      rw [hwn]; unfold Iss.scalars; cases x.d <;> rfl
    have hpl : i.plainThread s x.d n.d [⟨x.a, n.a⟩, ⟨x.b, n.b⟩, ⟨x.c, n.c⟩] x.imm (fun th => (f (s.tin i x n th)).th)
        (fun th => ((f (s.tin i x n th)).d).getD 0) = i.moved s.tick := by
      funext th; simp [Iss.plainThread, hwn, hon]
    rw [hsc, hpl]; exact h2
  unfold State.plain run
  simp only [hi, hon, if_false, hwho, hgate, State.through]
  refine ⟨_, rfl, ?_⟩
  generalize hpast : s.windowOver i.g i.w [⟨x.a, n.a⟩, ⟨x.b, n.b⟩, ⟨x.c, n.c⟩] x.imm = past
  generalize heff : (fun th => (f (s.tin i x n th)).th) = eff
  generalize hv : (fun th => ((f (s.tin i x n th)).d).getD 0) = v
  -- the state before the close is one change of the warp
  have hbase : (if past = 0 then s.advance i
      else (s.advance i).modThreads i.r (i.on.map (·.t)) fun th => { th with pwerr := th.pwerr ||| past }) =
      s.modWarp i.r (i.base s.tick past) := by
    have h2 : (s.advance i).modThreads i.r (i.on.map (·.t)) (fun th => { th with pwerr := th.pwerr ||| past }) =
        s.modWarp i.r (i.base s.tick past) := by
      simp only [State.advance, State.modThreads]
      rw [State.modWarp_modWarp _ _ _ _ (by intro w; rfl)]
      congr 1
      funext w
      simp only [Iss.base, Warp.mapThreads, List.map_map]
      congr 1
      apply List.map_congr_left
      intro th _
      cases hts : i.ts.contains th.t <;>
        simp only [Function.comp, hts, if_true, if_false, Bool.false_eq_true]
    by_cases hp : past = 0
    · rw [if_pos hp, ← h2, hp]
      simp only [State.advance, State.modThreads]
      rw [State.modWarp_modWarp _ _ _ _ (by intro w; rfl)]
      congr 1
      funext w
      simp [Warp.mapThreads]
    · rw [if_neg hp, h2]
  have hfold : (i.writers x.d).foldl (fun s2 th => s2.modWarp i.r ((f (s.tin i x n th)).write th.t x.d n.d))
      (s.modWarp i.r (i.base s.tick past)) =
      s.modWarp i.r fun w => writesOf (i.writers x.d) x.d n.d eff v (i.base s.tick past w) := by
    have hone : ∀ th, (f (s.tin i x n th)).write th.t x.d n.d = fun w => (w.modThread th.t (eff th)).put th.t x.d n.d (v th) := by
      intro th
      subst heff hv
      funext w
      unfold TOut.write
      cases hdv : (f (s.tin i x n th)).d with
      | some u => simp [hdv]
      | none => simp only [hd _ hdv, Warp.put_zero]
    simp only [hone]
    rw [State.foldl_modWarp _ _ (by intro a w; rw [Warp.put_wi]; rfl), State.modWarp_modWarp _ _ _ _ (by intro w; rfl)]
    rfl
  rw [hbase, hfold]
  have het : ∀ a u, (eff a u).t = u.t := by subst heff; intro a u; exact ht _ _
  have hmade : Made s (s.modWarp i.r fun w => writesOf (i.writers x.d) x.d n.d eff v (i.base s.tick past w)) i
      (i.scalars (i.writers x.d) x.d n.d v)
      (i.plainThread s x.d n.d [⟨x.a, n.a⟩, ⟨x.b, n.b⟩, ⟨x.c, n.c⟩] x.imm eff v) := by
    refine Made.of_modWarp hw _ (by intro w; rw [writesOf_wi]; rfl) ?_ ?_ ?_
    · rw [writesOf_outside]; unfold Iss.scalars; cases x.d <;> rfl
    · rw [writesOf_s]; unfold Iss.scalars; cases x.d <;> rfl
    intro th hm
    rw [writesOf_thread _ _ _ _ _ het (Iss.writers_nodup hi hN _), Iss.base_thread hi hN past hm]
    have hnum := mem_of_number hN (k := i.writers x.d)
      (fun u hu => Iss.mem_threads_of_act hi (Iss.mem_act_of_on hi (Iss.writers_on hu))) hm
    simp only [Option.map_some, Option.some.injEq]
    by_cases hwr : th ∈ i.writers x.d
    · have hon := Iss.writers_on hwr
      have hact := Iss.mem_act_of_on hi hon
      rw [find?_thread (Iss.writers_nodup hi hN _) hwr]
      simp [Iss.plainThread, hwr, hon, hact, hpast, Iss.moved]
    · have hnf : (i.writers x.d).find? (fun u => u.t = th.t) = none := by
        rw [List.find?_eq_none]
        intro u hu e
        exact hwr (hnum.mp (List.mem_map.mpr ⟨u, hu, by simpa using e⟩))
      rw [hnf]
      by_cases hact : th ∈ i.act <;> by_cases hon : th ∈ i.on <;> simp [Iss.plainThread, hwr, hon, hact, hpast, Iss.moved]
  exact { toLeaves := State.closeIssue_leaves hmade _ _ _, outside := by rw [State.closeIssue_outside]; rfl
          seqs := fun c => by rw [State.closeIssue_osSeq]; rfl }

/-- A meaning that is the plain pattern completes plainly. -/
theorem Plainly.of_plain {ins : Instr} {h : Hdr} {x : VOps} (n : Wid) {dRead : Bool} (f : TIn → TOut)
    {eff : State → Iss → Thread → Thread → Thread} {v : State → Iss → Thread → Nat}
    (he : ∀ s, exec ins s = s.plain h x n dRead f)
    (hd : ∀ v, (f v).d = none → n.d = 0) (ht : ∀ v th, ((f v).th th).t = th.t)
    (heff : ∀ s i th, (f (s.tin i x n th)).th = eff s i th) (hv : ∀ s i th, ((f (s.tin i x n th)).d).getD 0 = v s i th) :
    Plainly ins h x.d n.d (flds x n.a n.b n.c) x.imm dRead eff v := by
  intro s i hi hr
  obtain ⟨t, h1, h2⟩ := State.plain_completes hi.1 hi.2 x n dRead f (fun _ => none) hr (fun _ _ => rfl) hd ht
  refine ⟨t, by rw [he, h1], ?_⟩
  rw [show eff s i = fun th => (f (s.tin i x n th)).th from funext fun th => (heff s i th).symm,
    show v s i = fun th => ((f (s.tin i x n th)).d).getD 0 from funext fun th => (hv s i th).symm]
  exact h2

/-- A meaning that writes D by the plain pattern computes. -/
theorem Computes.of_plain {ins : Instr} {h : Hdr} {x : VOps} (n : Wid) (f : TIn → Nat) {v : State → Iss → Thread → Nat}
    (he : ∀ s, exec ins s = s.plain h x n false fun u => { d := some (f u) }) (hv : ∀ s i th, f (s.tin i x n th) = v s i th) :
    Computes ins h x.d n.d (flds x n.a n.b n.c) x.imm v :=
  Plainly.of_plain n _ he (by intro u hu; simp at hu) (fun _ _ => rfl) (fun _ _ _ => rfl) hv

end Sys2Proof.Machine
end

