-- ==== Sys2Proof/Laws/Keep.lean ====
section
/-!
SUPPORT. What the shared operations keep: the canonical form of every byte store (`State.memWf`) and the lengths of the register files
(`State.shaped`), for the named updates, a fill, the end of a stride, TAKING A TRAP, the return from one, a kill, and the writes of
memory; and what a trap does to a warp with a handler.
-/
namespace Sys2Proof.Machine

/-! ### The gangs of an updated state -/

theorem State.mem_allGangs (s : State) (g : Gang) :
    g ∈ s.allGangs ↔ g ∈ s.gangs ∨ g ∈ s.dying ∨ ∃ k ∈ s.sealed, k.gang = g := by
  simp [State.allGangs]

theorem State.allGangs_modGang (s : State) (gid : Nat) (f : Gang → Gang) {h : Gang} (hm : h ∈ (s.modGang gid f).allGangs) :
    h ∈ s.allGangs ∨ ∃ g ∈ s.allGangs, h = f g := by
  rw [mem_allGangs] at hm
  rcases hm with hm | hm | hm
  · obtain ⟨g, hg, rfl⟩ := List.mem_map.1 hm
    have : g ∈ s.allGangs := (mem_allGangs ..).2 (.inl hg)
    split
    · exact .inr ⟨g, this, rfl⟩
    · exact .inl this
  · obtain ⟨g, hg, rfl⟩ := List.mem_map.1 hm
    have : g ∈ s.allGangs := (mem_allGangs ..).2 (.inr (.inl hg))
    split
    · exact .inr ⟨g, this, rfl⟩
    · exact .inl this
  · exact .inl ((mem_allGangs ..).2 (.inr (.inr hm)))

/-! ### Byte stores -/

/-- A gang's scratchpads are in canonical form. -/
def Gang.memWf (g : Gang) : Prop := ∀ p ∈ g.sp, Memory.wf p = true

/-- A changed gang whose scratchpads stay canonical keeps the state's byte stores. -/
theorem State.memWf_modGang {s : State} (h : s.memWf) (gid : Nat) {f : Gang → Gang} (hf : ∀ g, g.memWf → (f g).memWf) :
    (s.modGang gid f).memWf := by
  refine ⟨h.1, h.2.1, h.2.2.1, fun g hg => ?_⟩
  rcases s.allGangs_modGang gid f hg with hg | ⟨k, hk, rfl⟩
  · exact h.2.2.2 g hg
  · exact hf k (h.2.2.2 k hk)

theorem State.memWf_modWarp {s : State} (h : s.memWf) (r : WRef) (f : Warp → Warp) : (s.modWarp r f).memWf :=
  memWf_modGang h r.1 fun _ hg => hg

theorem State.memWf_modThread {s : State} (h : s.memWf) (r : WRef) (t : Nat) (f : Thread → Thread) : (s.modThread r t f).memWf :=
  memWf_modWarp h r _

theorem State.memWf_modCore {s : State} (h : s.memWf) (c : Nat) (f : Core → Core) : (s.modCore c f).memWf := h

/-- A position of a list of memories changed by an operation that keeps the form. -/
theorem modAt_memWf {l : List Memory} (h : ∀ p ∈ l, Memory.wf p = true) (i : Nat) {f : Memory → Memory}
    (hf : ∀ m, Memory.wf m = true → Memory.wf (f m) = true) : ∀ p ∈ modAt l i f, Memory.wf p = true := by
  induction l generalizing i with
  | nil => simp [modAt]
  | cons x r ih =>
    simp only [List.mem_cons, forall_eq_or_imp] at h
    cases i with
    | zero =>
      simp only [modAt, List.mem_cons, forall_eq_or_imp]
      exact ⟨hf x h.1, h.2⟩
    | succ k =>
      simp only [modAt, List.mem_cons, forall_eq_or_imp]
      exact ⟨h.1, ih h.2 k⟩

/-- A SCRATCHPAD WRITE keeps the byte stores. -/
theorem State.memWf_padWrite {s : State} (h : s.memWf) (gid gc a : Nat) (bs : List Byte) : (s.padWrite gid gc a bs).memWf :=
  memWf_modGang h gid fun _ hg => modAt_memWf hg gc fun _ hm => Memory.writeN_wf hm a bs

/-- A scratchpad write that loads need not see yet keeps the byte stores. -/
theorem State.memWf_padVeil {s : State} (h : s.memWf) (gid gc a : Nat) (bs : List Byte) (b : Option (Nat × Nat)) :
    (s.padVeil gid gc a bs b).memWf := by
  unfold State.padVeil
  split
  · exact memWf_padWrite h gid gc a bs
  · exact memWf_modGang (memWf_padWrite h gid gc a bs) gid fun _ hg => hg

/-- A WRITE OF GLOBAL MEMORY keeps the byte stores. -/
theorem State.memWf_memWrite {s : State} (h : s.memWf) (pa : Nat) (bs : List Byte) : (s.memWrite pa bs).memWf :=
  ⟨Memory.writeN_wf h.1 pa bs, h.2.1, h.2.2.1, h.2.2.2⟩

/-- A device's write keeps the byte stores. -/
theorem State.memWf_deviceWrite {s : State} (h : s.memWf) (pa : Nat) (bs : List Byte) : (s.deviceWrite pa bs).memWf :=
  memWf_memWrite h pa bs

/-- An engine's write keeps the byte stores. -/
theorem State.memWf_placeWrite {s : State} (h : s.memWf) (e : Eng) (p : EPlace) (bs : List Byte) : (s.placeWrite e p bs).memWf := by
  cases p with
  | pad gc o =>
    unfold State.placeWrite
    exact memWf_padVeil h ..
  | phys pa =>
    unfold State.placeWrite
    dsimp only
    split
    · exact memWf_memWrite h pa bs
    · unfold State.freshen
      split <;> exact memWf_memWrite h pa bs
  | bb k => exact ⟨h.1, Memory.writeN_wf h.2.1 k bs, h.2.2.1, h.2.2.2⟩

/-- A frame filled with zeros keeps the byte stores. -/
theorem State.memWf_zeroFrame {s : State} (h : s.memWf) (f : Nat) : (s.zeroFrame f).memWf :=
  ⟨Memory.filter_wf h.1 _, h.2.1, h.2.2.1, h.2.2.2⟩

/-- Fewer gangs keep the byte stores. -/
theorem State.memWf_of_gangs {s t : State} (h : s.memWf) (hm : t.mem = s.mem) (hb : t.bb = s.bb) (hf : t.mgmt.flash = s.mgmt.flash)
    (hg : ∀ g ∈ t.allGangs, ∃ k ∈ s.allGangs, g.sp = k.sp) : t.memWf := by
  refine ⟨hm ▸ h.1, hb ▸ h.2.1, hf ▸ h.2.2.1, fun g hg' => ?_⟩
  obtain ⟨k, hk, he⟩ := hg g hg'
  exact he ▸ h.2.2.2 k hk

/-! ### Register files -/

theorem Warp.shaped_mapThreads {n : Nat} {w : Warp} (h : w.shaped n) {f : Thread → Thread} (ht : ∀ th, (f th).t = th.t)
    (hf : ∀ th, th.shaped n → (f th).shaped n) : (w.mapThreads f).shaped n := by
  obtain ⟨hs, hj, ha, hn, hth⟩ := h
  refine ⟨hs, hj, ha, ?_, ?_⟩
  · have : (w.threads.map f).map (·.t) = w.threads.map (·.t) := by simp [List.map_map, Function.comp_def, ht]
    exact this ▸ hn
  · intro th hm
    obtain ⟨u, hu, rfl⟩ := List.mem_map.1 hm
    exact hf u (hth u hu)

theorem Warp.shaped_modThread {n : Nat} {w : Warp} (h : w.shaped n) (t : Nat) {f : Thread → Thread} (ht : ∀ th, (f th).t = th.t)
    (hf : ∀ th, th.shaped n → (f th).shaped n) : (w.modThread t f).shaped n := by
  refine Warp.shaped_mapThreads (f := fun th => if th.t = t then f th else th) h (fun th => ?_) fun th hs => ?_
  · split
    · exact ht th
    · rfl
  · split
    · exact hf th hs
    · exact hs

/-- A changed gang whose warps keep their shape keeps the state's. -/
theorem State.shaped_modGang {s : State} (h : s.shaped) (gid : Nat) {f : Gang → Gang}
    (hf : ∀ g, (∀ w ∈ g.warps, w.shaped g.n) → ∀ w ∈ (f g).warps, w.shaped (f g).n) : (s.modGang gid f).shaped := by
  intro g hg
  rcases s.allGangs_modGang gid f hg with hg | ⟨k, hk, rfl⟩
  · exact h g hg
  · exact hf k (h k hk)

theorem State.shaped_modWarp {s : State} (h : s.shaped) (r : WRef) {f : Warp → Warp} (hf : ∀ n w, w.shaped n → (f w).shaped n) :
    (s.modWarp r f).shaped := by
  refine shaped_modGang h r.1 fun g hg w hw => ?_
  obtain ⟨u, hu, rfl⟩ := List.mem_map.1 hw
  split
  · exact hf g.n u (hg u hu)
  · exact hg u hu

theorem State.shaped_modThread {s : State} (h : s.shaped) (r : WRef) (t : Nat) {f : Thread → Thread} (ht : ∀ th, (f th).t = th.t)
    (hf : ∀ n th, th.shaped n → (f th).shaped n) : (s.modThread r t f).shaped :=
  shaped_modWarp h r fun n _ hw => Warp.shaped_modThread hw t ht (hf n)

theorem State.shaped_modCore {s : State} (h : s.shaped) (c : Nat) (f : Core → Core) : (s.modCore c f).shaped := h

@[simp] theorem putRegs_length (rs : List Reg) (i : Nat) (ws : List Word) : (putRegs rs i ws).length = rs.length := by
  induction ws generalizing rs i with
  | nil => rfl
  | cons v r ih => simp [putRegs, ih]

@[simp] theorem emptyRegs_length (rs : List Reg) (i n : Nat) : (emptyRegs rs i n).length = rs.length := by
  induction n generalizing rs i with
  | zero => rfl
  | succ k ih => simp [emptyRegs, ih]

@[simp] theorem refillRegs_length (rs : List Reg) (i n : Nat) : (refillRegs rs i n).length = rs.length := by
  induction n generalizing rs i with
  | zero => rfl
  | succ k ih => simp [refillRegs, ih]

@[simp] theorem poisonRegs_length (rs : List Reg) (i n : Nat) (p : Poison) : (poisonRegs rs i n p).length = rs.length := by
  induction n generalizing rs i with
  | zero => rfl
  | succ k ih => simp [poisonRegs, ih]

/-- A destination changed by an operation that keeps the file's length. -/
theorem Warp.shaped_onDst {n : Nat} {w : Warp} (h : w.shaped n) (t : Nat) (d : Dst) {f : List Reg → Nat → Nat → List Reg}
    (hf : ∀ rs i k, (f rs i k).length = rs.length) : (w.onDst t d f).shaped n := by
  cases d with
  | m i k => exact Warp.shaped_modThread h t (fun _ => rfl) fun th hs => ⟨by simpa [hf] using hs.1, hs.2⟩
  | s i k => exact ⟨by simpa [Warp.onDst, hf] using h.1, h.2⟩

theorem Warp.shaped_wakeSlots {n : Nat} {w : Warp} (h : w.shaped n) (a b : Nat) : (w.wakeSlots a b).shaped n := by
  refine Warp.shaped_mapThreads h (fun th => ?_) fun th hs => ?_ <;> split <;> (try split) <;> first | rfl | exact hs

theorem Warp.shaped_refilled {n : Nat} {w : Warp} (h : w.shaped n) : w.refilled.shaped n := by
  refine Warp.shaped_mapThreads h (fun th => ?_) fun th hs => ?_ <;> split <;> try split
  all_goals first | rfl | exact hs

/-! ### Fills -/

theorem State.wakeCause_keeps (s : State) (r : WRef) (bit : Nat) : ∃ c f, s.wakeCause r bit = s.modCore c f ∨ s.wakeCause r bit = s := by
  unfold State.wakeCause
  split
  · exact ⟨_, _, .inl rfl⟩
  · exact ⟨0, id, .inr rfl⟩

theorem State.memWf_wakeCause {s : State} (h : s.memWf) (r : WRef) (bit : Nat) : (s.wakeCause r bit).memWf := by
  obtain ⟨c, f, e | e⟩ := s.wakeCause_keeps r bit <;> rw [e] <;> exact h

theorem State.shaped_wakeCause {s : State} (h : s.shaped) (r : WRef) (bit : Nat) : (s.wakeCause r bit).shaped := by
  obtain ⟨c, f, e | e⟩ := s.wakeCause_keeps r bit <;> rw [e] <;> exact h

/-- A FILL, of any kind, keeps the byte stores. -/
theorem State.memWf_filled {s : State} (h : s.memWf) (r : WRef) (t : Nat) (d : Dst) (f : List Reg → Nat → Nat → List Reg) :
    (s.filled r t d f).memWf := by
  unfold State.filled
  split
  · exact h
  · dsimp only
    split
    · exact memWf_wakeCause (memWf_modWarp h r _) r 1
    · exact memWf_modWarp h r _

/-- A FILL that keeps the length of a register file keeps the register files. -/
theorem State.shaped_filled {s : State} (h : s.shaped) (r : WRef) (t : Nat) (d : Dst) {f : List Reg → Nat → Nat → List Reg}
    (hf : ∀ rs i k, (f rs i k).length = rs.length) : (s.filled r t d f).shaped := by
  have go : ∀ a b : Warp → Bool, (s.modWarp r fun w => { (w.onDst t d f).refilled with demoted := a w, spinBusy := b w }).shaped :=
    fun a b => shaped_modWarp (f := fun w => { (w.onDst t d f).refilled with demoted := a w, spinBusy := b w }) h r
      fun _ _ hw => Warp.shaped_refilled (Warp.shaped_onDst hw t d hf)
  unfold State.filled
  split
  · exact h
  · dsimp only
    split
    · exact shaped_wakeCause (go (fun w => w.demoted && _) fun w => w.spinBusy || _) r 1
    · exact go (fun w => w.demoted && _) fun w => w.spinBusy || _

/-- A result that arrives is discarded or fills its destination. -/
theorem State.fill_cases (s : State) (r : WRef) (t : Nat) (d : Dst) (ws : List Word) :
    s.fill r t d ws = s ∨ s.fill r t d ws = s.filled r t d fun rs i _ => putRegs rs i ws := by
  unfold State.fill
  exact ite_eq_or_eq _ _ _

theorem State.memWf_fill {s : State} (h : s.memWf) (r : WRef) (t : Nat) (d : Dst) (ws : List Word) : (s.fill r t d ws).memWf := by
  rcases s.fill_cases r t d ws with e | e <;> rw [e]
  · exact h
  · exact memWf_filled h ..

theorem State.shaped_fill {s : State} (h : s.shaped) (r : WRef) (t : Nat) (d : Dst) (ws : List Word) : (s.fill r t d ws).shaped := by
  rcases s.fill_cases r t d ws with e | e <;> rw [e]
  · exact h
  · exact shaped_filled h _ _ _ fun _ _ _ => putRegs_length ..

theorem State.memWf_fillBad {s : State} (h : s.memWf) (r : WRef) (t : Nat) (d : Dst) (p : Poison) : (s.fillBad r t d p).memWf :=
  memWf_filled h ..

theorem State.shaped_fillBad {s : State} (h : s.shaped) (r : WRef) (t : Nat) (d : Dst) (p : Poison) : (s.fillBad r t d p).shaped :=
  shaped_filled h r t d fun _ _ _ => poisonRegs_length ..

theorem State.memWf_refill {s : State} (h : s.memWf) (r : WRef) (t : Nat) (d : Dst) : (s.refill r t d).memWf := memWf_filled h ..

theorem State.shaped_refill {s : State} (h : s.shaped) (r : WRef) (t : Nat) (d : Dst) : (s.refill r t d).shaped :=
  shaped_filled h r t d fun _ _ _ => refillRegs_length ..

theorem State.memWf_emptyDst {s : State} (h : s.memWf) (r : WRef) (t : Nat) (d : Dst) : (s.emptyDst r t d).memWf := memWf_modWarp h r _

theorem State.shaped_emptyDst {s : State} (h : s.shaped) (r : WRef) (t : Nat) (d : Dst) : (s.emptyDst r t d).shaped :=
  shaped_modWarp h r fun _ _ hw => Warp.shaped_onDst hw t d fun _ _ _ => emptyRegs_length ..

/-! ### Strides, traps, the return from a trap -/

theorem Thread.shaped_clearOl {n : Nat} {th : Thread} (h : th.shaped n) : th.clearOl.shaped n :=
  ⟨h.1, by simp [Thread.clearOl], by simp [Thread.clearOl], h.2.2.2⟩

theorem Warp.shaped_ended {n : Nat} {w : Warp} (h : w.shaped n) : w.ended.shaped n :=
  Warp.shaped_mapThreads h (fun _ => rfl) fun _ hs => Thread.shaped_clearOl hs

/-- Entering the handler keeps a thread's register files. -/
theorem Thread.shaped_enter {n : Nat} {th : Thread} (h : th.shaped n) (f : Option Flt) (e : VAddr) (k : Nat) :
    (th.enter f e k).shaped n := ⟨h.1, h.2.1, h.2.2.1, h.2.1, h.2.2.1⟩

theorem Thread.shaped_leave {n : Nat} {th : Thread} (h : th.shaped n) (pc : VAddr) : (th.leave pc).shaped n := by
  unfold Thread.leave
  split
  · exact ⟨h.1, h.2.2.2.1, h.2.2.2.2, h.2.2.2⟩
  · exact h

theorem State.memWf_endStride {s : State} (h : s.memWf) (r : WRef) : (s.endStride r).memWf := by
  unfold State.endStride
  split
  · exact h
  · exact memWf_modWarp h r _

theorem State.shaped_endStride {s : State} (h : s.shaped) (r : WRef) : (s.endStride r).shaped := by
  unfold State.endStride
  split
  · exact h
  · exact shaped_modWarp h r fun _ _ hw => Warp.shaped_ended hw

theorem State.memWf_logEntry {s : State} (h : s.memWf) (die : Nat) (e : LogE) : (s.logEntry die e).memWf := by
  unfold State.logEntry
  split <;> exact h

theorem State.shaped_logEntry {s : State} (h : s.shaped) (die : Nat) (e : LogE) : (s.logEntry die e).shaped := by
  unfold State.logEntry
  split <;> exact h

theorem State.logEntry_allGangs (s : State) (die : Nat) (e : LogE) : (s.logEntry die e).allGangs = s.allGangs := by
  unfold State.logEntry
  split <;> rfl

theorem State.memWf_logCause {s : State} (h : s.memWf) (a b c d e f : Nat) : (s.logCause a b c d e f).memWf := memWf_logEntry h ..

theorem State.shaped_logCause {s : State} (h : s.shaped) (a b c d e f : Nat) : (s.logCause a b c d e f).shaped := by
  unfold State.logCause
  exact shaped_logEntry h _ _

theorem State.memWf_sendAlarm {s : State} (h : s.memWf) : s.sendAlarm.memWf := by
  unfold State.sendAlarm
  dsimp only
  split <;> exact h

theorem State.shaped_sendAlarm {s : State} (h : s.shaped) : s.sendAlarm.shaped := by
  unfold State.sendAlarm
  dsimp only
  split <;> exact h

theorem State.memWf_lockDown {s : State} (h : s.memWf) (a b c d e f g : Nat) : (s.lockDown a b c d e f g).memWf := by
  unfold State.lockDown
  dsimp only
  split
  · exact memWf_logCause h _ _ _ _ _ _
  · refine memWf_sendAlarm ?_
    split
    · generalize hq : s.logCause _ _ _ _ _ _ = u
      have hu : u.memWf := hq ▸ memWf_logCause h _ _ _ _ _ _
      exact hu
    · exact h

theorem State.shaped_lockDown {s : State} (h : s.shaped) (a b c d e f g : Nat) : (s.lockDown a b c d e f g).shaped := by
  unfold State.lockDown
  dsimp only
  split
  · exact shaped_logCause h _ _ _ _ _ _
  · refine shaped_sendAlarm ?_
    split
    · generalize hq : s.logCause _ _ _ _ _ _ = u
      have hu : u.shaped := hq ▸ shaped_logCause h _ _ _ _ _ _
      exact hu
    · exact h

/-- The gangs of a state whose waiting warps were woken: only waits have changed. -/
theorem State.wakeOn_gangs {s : State} (on : Nat → Bool) {h : Gang} (hm : h ∈ (s.wakeOn on).allGangs) :
    ∃ g ∈ s.allGangs, h.sp = g.sp ∧ h.n = g.n ∧ ∀ w ∈ h.warps, ∃ u ∈ g.warps, w = u ∨ ∃ a b, w = u.wakeSlots a b := by
  rw [mem_allGangs] at hm
  rcases hm with hm | hm | hm
  · obtain ⟨g, hg, rfl⟩ := List.mem_map.1 hm
    refine ⟨g, (mem_allGangs ..).2 (.inl hg), rfl, rfl, fun w hw => ?_⟩
    obtain ⟨u, hu, rfl⟩ := List.mem_map.1 hw
    refine ⟨u, hu, ?_⟩
    split
    · exact .inr ⟨_, _, rfl⟩
    · exact .inl rfl
  · exact ⟨h, (mem_allGangs ..).2 (.inr (.inl hm)), rfl, rfl, fun w hw => ⟨w, hw, .inl rfl⟩⟩
  · exact ⟨h, (mem_allGangs ..).2 (.inr (.inr hm)), rfl, rfl, fun w hw => ⟨w, hw, .inl rfl⟩⟩

theorem State.memWf_wakeOn {s : State} (h : s.memWf) (on : Nat → Bool) : (s.wakeOn on).memWf :=
  memWf_of_gangs h rfl rfl rfl fun _ hg => (State.wakeOn_gangs on hg).imp fun _ hk => ⟨hk.1, hk.2.1⟩

theorem State.shaped_wakeOn {s : State} (h : s.shaped) (on : Nat → Bool) : (s.wakeOn on).shaped := by
  intro g hg w hw
  obtain ⟨k, hk, -, hn, hws⟩ := State.wakeOn_gangs on hg
  obtain ⟨u, hu, rfl | ⟨a, b, rfl⟩⟩ := hws w hw
  · exact hn ▸ h k hk w hu
  · exact hn ▸ Warp.shaped_wakeSlots (h k hk u hu) a b

theorem State.memWf_freeQueues {s : State} (h : s.memWf) (gid : Nat) : (s.freeQueues gid).memWf := h
theorem State.shaped_freeQueues {s : State} (h : s.shaped) (gid : Nat) : (s.freeQueues gid).shaped := h

/-- RELEASE keeps the byte stores. -/
theorem State.memWf_release {s : State} (h : s.memWf) (gid : Nat) : (s.release gid).memWf :=
  memWf_wakeOn (memWf_freeQueues h gid) _

/-- RELEASE keeps the register files. -/
theorem State.shaped_release {s : State} (h : s.shaped) (gid : Nat) : (s.release gid).shaped :=
  shaped_wakeOn (shaped_freeQueues h gid) _

/-- The gangs of a state in which a gang was stopped: the others, and its own, dead (R310). -/
theorem State.stopGang_gangs {s : State} {g : Gang} (hg : g ∈ s.allGangs) {h : Gang} (hm : h ∈ (s.stopGang g).allGangs) :
    ∃ k ∈ s.allGangs, h.sp = k.sp ∧ h.n = k.n ∧ (h.warps = k.warps ∨ h.warps = k.warps.map fun w =>
      { Warp.mapThreads w (fun th => { th with exited := true, wait := .none }) with stride := none, stall := none }) := by
  rw [mem_allGangs] at hm
  rcases hm with hm | hm | hm
  · exact ⟨h, (mem_allGangs ..).2 (.inl (List.mem_filter.1 hm).1), rfl, rfl, .inl rfl⟩
  · rcases List.mem_append.1 hm with hm | hm
    · exact ⟨h, (mem_allGangs ..).2 (.inr (.inl hm)), rfl, rfl, .inl rfl⟩
    · refine ⟨g, hg, ?_⟩
      rw [List.mem_singleton.1 hm]
      exact ⟨rfl, rfl, .inr rfl⟩
  · exact ⟨h, (mem_allGangs ..).2 (.inr (.inr hm)), rfl, rfl, .inl rfl⟩

theorem State.memWf_stopGang {s : State} (h : s.memWf) {g : Gang} (hg : g ∈ s.allGangs) : (s.stopGang g).memWf :=
  memWf_of_gangs h rfl rfl rfl fun _ hm => (State.stopGang_gangs hg hm).imp fun _ hk => ⟨hk.1, hk.2.1⟩

theorem State.shaped_stopGang {s : State} (h : s.shaped) {g : Gang} (hg : g ∈ s.allGangs) : (s.stopGang g).shaped := by
  intro k hk w hw
  obtain ⟨j, hj, -, hn, he | he⟩ := State.stopGang_gangs hg hk
  · exact hn ▸ h j hj w (he ▸ hw)
  · rw [he] at hw
    obtain ⟨u, hu, rfl⟩ := List.mem_map.1 hw
    rw [hn]
    exact Warp.shaped_mapThreads (f := fun th => { th with exited := true, wait := .none }) (h j hj u hu) (fun _ => rfl) fun _ hs => hs

/-- A KILL keeps the byte stores. -/
theorem State.memWf_kill {s : State} (h : s.memWf) (gid : Nat) (f : Flt) (pc core : Nat) : (s.kill gid f pc core).memWf := by
  unfold State.kill
  split
  · exact h
  · next g hg =>
    refine memWf_release (memWf_stopGang (memWf_logEntry h ..) ?_) gid
    rw [State.logEntry_allGangs]
    exact (mem_allGangs ..).2 (.inl (List.mem_of_find?_eq_some hg))

/-- A KILL keeps the register files. -/
theorem State.shaped_kill {s : State} (h : s.shaped) (gid : Nat) (f : Flt) (pc core : Nat) : (s.kill gid f pc core).shaped := by
  unfold State.kill
  split
  · exact h
  · next g hg =>
    refine shaped_release (shaped_stopGang (State.shaped_logEntry h _ _) ?_) gid
    rw [State.logEntry_allGangs]
    exact (mem_allGangs ..).2 (.inl (List.mem_of_find?_eq_some hg))

/-- WHAT TAKING A TRAP CAN DO: lock down, kill the context, retry once without a handler, or enter the handler with INH set and the
record written; the stride ends (R307 to R312). -/
theorem State.trapAs_cases (s : State) (r : WRef) (pc : VAddr) (act : List Nat) (fs : List (Nat × Flt)) (defer : Bool) :
    s.trapAs r pc act fs defer = s ∨
    (∃ a b c d e f g, s.trapAs r pc act fs defer = s.lockDown a b c d e f g) ∨
    (∃ f p c, s.trapAs r pc act fs defer = s.kill r.1 f p c) ∨
    s.trapAs r pc act fs defer = (s.modWarp r fun w => { w with dretry := some pc }) ∨
    ∃ entry, s.trapAs r pc act fs defer = (s.modWarp r fun w =>
      { w.mapThreads fun th => if act.contains th.t then th.enter (faultOf fs th.t) entry s.tick else th with
        inh := true, recPc := pc, recMask := maskOf act, recDefer := defer, dretry := none,
        noHit := if w.noHit = some pc then none else w.noHit }).endStride r := by
  unfold State.trapAs
  split
  · dsimp only
    split
    · exact .inr (.inl ⟨_, _, _, _, _, _, _, rfl⟩)
    · split
      · exact .inr (.inr (.inl ⟨_, _, _, rfl⟩))
      · split
        · split
          · exact .inr (.inr (.inr (.inl rfl)))
          · exact .inr (.inr (.inl ⟨_, _, _, rfl⟩))
        · split
          · exact .inr (.inr (.inl ⟨_, _, _, rfl⟩))
          · exact .inr (.inr (.inr (.inr ⟨_, rfl⟩)))
  · exact .inl rfl

/-- TAKING A TRAP keeps the byte stores. -/
theorem State.memWf_trapAs {s : State} (h : s.memWf) (r : WRef) (pc : VAddr) (act : List Nat) (fs : List (Nat × Flt)) (defer : Bool) :
    (s.trapAs r pc act fs defer).memWf := by
  obtain e | ⟨_, _, _, _, _, _, _, e⟩ | ⟨_, _, _, e⟩ | e | ⟨_, e⟩ := s.trapAs_cases r pc act fs defer <;> rw [e]
  · exact h
  · exact memWf_lockDown h ..
  · exact memWf_kill h ..
  · exact memWf_modWarp h r _
  · exact memWf_endStride (memWf_modWarp h r _) r

/-- TAKING A TRAP keeps the register files. -/
theorem State.shaped_trapAs {s : State} (h : s.shaped) (r : WRef) (pc : VAddr) (act : List Nat) (fs : List (Nat × Flt)) (defer : Bool) :
    (s.trapAs r pc act fs defer).shaped := by
  obtain e | ⟨_, _, _, _, _, _, _, e⟩ | ⟨_, _, _, e⟩ | e | ⟨entry, e⟩ := s.trapAs_cases r pc act fs defer <;> rw [e]
  · exact h
  · exact shaped_lockDown h _ _ _ _ _ _ _
  · exact shaped_kill h _ _ _ _
  · exact shaped_modWarp (f := fun w => { w with dretry := some pc }) h r fun _ _ hw => hw
  · refine shaped_endStride (shaped_modWarp h r fun n w hw => ?_) r
    refine Warp.shaped_mapThreads (f := fun th => if act.contains th.t then th.enter (faultOf fs th.t) entry s.tick else th) hw
      (fun th => ?_) fun th hs => ?_
    · split <;> rfl
    · split
      · exact Thread.shaped_enter hs ..
      · exact hs

/-- THE RETURN FROM A TRAP keeps the byte stores. -/
theorem State.memWf_rteReturn {s : State} (h : s.memWf) (r : WRef) : (s.rteReturn r).memWf := by
  unfold State.rteReturn
  split
  · exact h
  · split
    · exact memWf_modWarp h r _
    · exact h

theorem Thread.leave_t (th : Thread) (pc : VAddr) : (th.leave pc).t = th.t := by
  unfold Thread.leave
  split <;> rfl

/-- THE RETURN FROM A TRAP keeps the register files. -/
theorem State.shaped_rteReturn {s : State} (h : s.shaped) (r : WRef) : (s.rteReturn r).shaped := by
  unfold State.rteReturn
  split
  · exact h
  · split
    · refine shaped_modWarp h r fun n w hw => ?_
      refine Warp.shaped_mapThreads (f := fun th => if w.recMask.getLsbD th.t then th.leave w.recPc else th) hw
        (fun th => ?_) fun th hs => ?_
      · split
        · exact Thread.leave_t ..
        · rfl
      · split
        · exact Thread.shaped_leave hs _
        · exact hs
    · exact h

end Sys2Proof.Machine
end

