-- ==== Sys2Proof/Laws/Operands.lean ====
section
/-!
SUPPORT. The size of what an operand reads, and registers read back after a write.
-/
namespace Sys2Proof.Machine

theorem wordsNat_lt (ws : List Word) : wordsNat ws < 2 ^ (32 * ws.length) := by
  induction ws with
  | nil => simp [wordsNat]
  | cons w r ih =>
    have h1 := w.isLt
    have h2 : 2 ^ (32 * (w :: r).length) = 4294967296 * 2 ^ (32 * r.length) := by
      rw [List.length_cons, Nat.mul_add, Nat.pow_add]; omega
    simp only [wordsNat]
    omega

theorem wrapN_lt (w : Nat) (v : Int) : wrapN w v < 2 ^ w := by
  have hp : (0 : Int) < (2 ^ w : Nat) := by exact_mod_cast Nat.two_pow_pos w
  have h1 := Int.emod_nonneg v (Int.ne_of_gt hp)
  have h2 := Int.emod_lt_of_pos v hp
  unfold wrapN
  omega

theorem lowN_lt (w v : Nat) : lowN w v < 2 ^ w := Nat.mod_lt _ (Nat.two_pow_pos w)

/-- An operand of one register or more reads a number that fits it; a special register is one word (R22, R25, R51). -/
theorem State.value_lt (s : State) (g : Gang) (w : Warp) (th : Thread) (x : Opnd) {n : Nat} (hn : 0 < n) (imm : BitVec 21) :
    s.value g w th x n imm < 2 ^ (32 * n) := by
  have len : ∀ l : List Word, l.length = n → wordsNat l < 2 ^ (32 * n) := fun l h => h ▸ wordsNat_lt l
  have pos := Nat.two_pow_pos (32 * n)
  cases x with
  | none => exact pos
  | m i _ => exact len _ (by simp [regWords])
  | o i => exact len _ (by simp)
  | l i => exact len _ (by simp)
  | s i _ => exact len _ (by simp [regWords])
  | sr i => exact Nat.lt_of_lt_of_le (lowN_lt 32 _) (Nat.pow_le_pow_right (by omega) (by omega))
  | win i =>
    simp only [State.value]
    split
    · rename_i v h
      unfold State.pwRead at h
      split at h
      · simp at h
      · split at h
        · simp at h
        · split at h
          · simp at h
          · split at h
            · simp at h
            · dsimp only at h
              split at h
              · simp at h
              · split at h
                · simp at h
                · simp only [PwRead.value.injEq] at h
                  subst h
                  have : 8 * (4 * n) = 32 * n := by omega
                  rw [this]
                  exact Nat.mod_lt _ pos
                · simp at h
    · exact pos
  | imm => exact wrapN_lt _ _

theorem Iss.arg_lt (i : Iss) (s : State) (imm : BitVec 21) (o : Opnd) {n : Nat} (hn : 0 < n) (th : Thread) :
    i.arg s imm o n th < 2 ^ (32 * n) := State.value_lt _ _ _ _ _ hn _

end Sys2Proof.Machine
end

