-- ==== Sys2Proof/Laws/PerInstr.lean ====
section
/-!
SUPPORT. What every instruction's fields are read as (spec/03 R47 to R59): the opcode and FN of an instruction name it again, one lemma
per constructor; an event has no word.
-/
set_option Elab.async false

set_option linter.unusedSimpArgs false
namespace Sys2Proof

/-! ### Fields of an appended word -/

theorem extract_high {a b : Nat} (x : BitVec a) (y : BitVec b) {lo : Nat} (n : Nat) (h : b ≤ lo) :
    (x ++ y).extractLsb' lo n = x.extractLsb' (lo - b) n := by
  ext k hk
  simp only [BitVec.getElem_extractLsb', BitVec.getLsbD_append]
  rw [if_neg (by omega)]
  congr 1
  omega

theorem extract_low {a b : Nat} (x : BitVec a) (y : BitVec b) {lo n : Nat} (h : lo + n ≤ b) :
    (x ++ y).extractLsb' lo n = y.extractLsb' lo n := by
  ext k hk
  simp only [BitVec.getElem_extractLsb', BitVec.getLsbD_append]
  rw [if_pos (by omega)]

theorem getLsbD_high {a b : Nat} (x : BitVec a) (y : BitVec b) {k : Nat} (h : b ≤ k) :
    (x ++ y).getLsbD k = x.getLsbD (k - b) := by
  rw [BitVec.getLsbD_append, if_neg (by omega)]

theorem getLsbD_low {a b : Nat} (x : BitVec a) (y : BitVec b) {k : Nat} (h : k < b) : (x ++ y).getLsbD k = y.getLsbD k := by
  rw [BitVec.getLsbD_append, if_pos h]

@[simp] theorem bit_zero (b : Bool) : (bit b).getLsbD 0 = b := by cases b <;> rfl

@[simp] theorem Ty.ofCode_code (c : Ty) : Ty.ofCode c.code = c := by cases c <;> rfl
@[simp] theorem Rnd.ofCode_code (c : Rnd) : Rnd.ofCode c.code = c := by cases c <;> rfl
@[simp] theorem Cond.ofCode_code (c : Cond) : Cond.ofCode c.code = c := by cases c <;> rfl
@[simp] theorem Cmb.ofCode_code (c : Cmb) : Cmb.ofCode c.code = c := by cases c <;> rfl
@[simp] theorem Div.ofCode_code (c : Div) : Div.ofCode c.code = c := by cases c <;> rfl
@[simp] theorem Shf.ofCode_code (c : Shf) : Shf.ofCode c.code = c := by cases c <;> rfl
@[simp] theorem Vote.ofCode_code (c : Vote) : Vote.ofCode c.code = c := by cases c <;> rfl
@[simp] theorem Rdx.ofCode_code (c : Rdx) : Rdx.ofCode c.code = c := by cases c <;> rfl
@[simp] theorem JoinOp.ofCode_code (c : JoinOp) : JoinOp.ofCode c.code = c := by cases c <;> rfl
@[simp] theorem Sz.ofCode_code (c : Sz) : Sz.ofCode c.code = c := by cases c <;> rfl
@[simp] theorem Spc.ofCode_code (c : Spc) : Spc.ofCode c.code = c := by cases c <;> rfl
@[simp] theorem Scope.ofCode_code (c : Scope) : Scope.ofCode c.code = c := by cases c <;> rfl
@[simp] theorem AOp.ofCode_code (c : AOp) : AOp.ofCode c.code = c := by cases c <;> rfl
@[simp] theorem ArrRel.ofCode_code (c : ArrRel) : ArrRel.ofCode c.code = c := by cases c <;> rfl
@[simp] theorem Fence.ofCode_code (c : Fence) : Fence.ofCode c.code = c := by cases c <;> rfl
@[simp] theorem CSpc.ofCode_code (c : CSpc) : CSpc.ofCode c.code = c := by cases c <;> rfl
@[simp] theorem Kill.ofCode_code (c : Kill) : Kill.ofCode c.code = c := by cases c <;> rfl
@[simp] theorem Acc.ofCode_code (c : Acc) : Acc.ofCode c.code = c := by cases c <;> rfl
@[simp] theorem Konst.ofCode_code (c : Konst) : Konst.ofCode c.code = c := by cases c <;> rfl
@[simp] theorem NOp.ofCode_code (c : NOp) : NOp.ofCode c.code = c := by cases c <;> rfl
@[simp] theorem NOrd.ofCode_code (c : NOrd) : NOrd.ofCode c.code = c := by cases c <;> rfl

theorem btOf_btBits {bt : Option Ty} (c : BitVec 4) (h : bt ≠ some .w32) : btOf (c ++ btBits bt ++ 0#4) = bt := by
  simp (disch := decide) only [btOf, extract_high, extract_low, BitVec.extractLsb'_eq_self, Nat.reduceSub]
  cases bt with
  | none => simp [btBits]
  | some b => cases b <;> simp [btBits, Ty.code, Ty.ofCode] at *

/-! ### The family -/

namespace Laws.Reads

/-- The opcode and FN of an instruction with modifiers that its description lists name the instruction. -/
def Statement (i : Instr) : Prop :=
  match i.op, i.body with
  | some op, some (.v h x) => i.modsOk = true → mkV op.toNat h x i.fn = some i
  | some op, some (.j h x) => mkJ op.toNat h x = some i
  | some op, some (.k h x) => mkK op.toNat h x = some i
  | _, _ => True

theorem bra h x : Statement (.bra h x) := rfl

theorem brx h x : Statement (.brx h x) := fun _ => rfl

theorem call h x : Statement (.call h x) := rfl

theorem callx h x : Statement (.callx h x) := fun _ => rfl

theorem ret h x : Statement (.ret h x) := fun _ => rfl

theorem loopd h x : Statement (.loopd h x) := rfl

theorem exit h x : Statement (.exit h x) := fun _ => rfl

theorem nop h x : Statement (.nop h x) := fun _ => rfl

theorem iadd h x ty sat : Statement (.iadd h x ty sat) := by
  intro _
  show some (Instr.iadd h x (tyOf _) (BitVec.getLsbD _ 7)) = _
  simp (disch := decide) only [Instr.fn, extract_high, extract_low, BitVec.extractLsb'_eq_self, Nat.reduceSub, getLsbD_high, getLsbD_low, bit_zero, tyOf, Ty.ofCode_code]

theorem isub h x ty sat : Statement (.isub h x ty sat) := by
  intro _
  show some (Instr.isub h x (tyOf _) (BitVec.getLsbD _ 7)) = _
  simp (disch := decide) only [Instr.fn, extract_high, extract_low, BitVec.extractLsb'_eq_self, Nat.reduceSub, getLsbD_high, getLsbD_low, bit_zero, tyOf, Ty.ofCode_code]

theorem iaddc h x ty ci co : Statement (.iaddc h x ty ci co) := by
  intro _
  show some (Instr.iaddc h x (tyOf _) (ciOf _) (BitVec.extractLsb' 1 3 _)) = _
  cases ci <;> simp (disch := decide) only [Instr.fn, extract_high, extract_low, BitVec.extractLsb'_eq_self, Nat.reduceSub, getLsbD_high, getLsbD_low, bit_zero, tyOf, ciOf, ciBits, Ty.ofCode_code, Option.some.injEq, Instr.iaddc.injEq]
  all_goals simp

theorem isubb h x ty ci co : Statement (.isubb h x ty ci co) := by
  intro _
  show some (Instr.isubb h x (tyOf _) (ciOf _) (BitVec.extractLsb' 1 3 _)) = _
  cases ci <;> simp (disch := decide) only [Instr.fn, extract_high, extract_low, BitVec.extractLsb'_eq_self, Nat.reduceSub, getLsbD_high, getLsbD_low, bit_zero, tyOf, ciOf, ciBits, Ty.ofCode_code, Option.some.injEq, Instr.iaddc.injEq]
  all_goals simp

theorem imul h x ty : Statement (.imul h x ty) := by
  intro _
  show some (Instr.imul h x (tyOf _)) = _
  simp (disch := decide) only [Instr.fn, extract_high, extract_low, BitVec.extractLsb'_eq_self, Nat.reduceSub, tyOf, Ty.ofCode_code]

theorem imulh h x ty : Statement (.imulh h x ty) := by
  intro _
  show some (Instr.imulh h x (tyOf _)) = _
  simp (disch := decide) only [Instr.fn, extract_high, extract_low, BitVec.extractLsb'_eq_self, Nat.reduceSub, tyOf, Ty.ofCode_code]

theorem imad h x ty : Statement (.imad h x ty) := by
  intro _
  show some (Instr.imad h x (tyOf _)) = _
  simp (disch := decide) only [Instr.fn, extract_high, extract_low, BitVec.extractLsb'_eq_self, Nat.reduceSub, tyOf, Ty.ofCode_code]

theorem imad64 h x ty : Statement (.imad64 h x ty) := by
  intro _
  show some (Instr.imad64 h x (tyOf _)) = _
  simp (disch := decide) only [Instr.fn, extract_high, extract_low, BitVec.extractLsb'_eq_self, Nat.reduceSub, tyOf, Ty.ofCode_code]

theorem iabs h x ty sat : Statement (.iabs h x ty sat) := by
  intro _
  show some (Instr.iabs h x (tyOf _) (BitVec.getLsbD _ 7)) = _
  simp (disch := decide) only [Instr.fn, extract_high, extract_low, BitVec.extractLsb'_eq_self, Nat.reduceSub, getLsbD_high, getLsbD_low, bit_zero, tyOf, Ty.ofCode_code]

theorem imin h x ty : Statement (.imin h x ty) := by
  intro _
  show some (Instr.imin h x (tyOf _)) = _
  simp (disch := decide) only [Instr.fn, extract_high, extract_low, BitVec.extractLsb'_eq_self, Nat.reduceSub, tyOf, Ty.ofCode_code]

theorem imax h x ty : Statement (.imax h x ty) := by
  intro _
  show some (Instr.imax h x (tyOf _)) = _
  simp (disch := decide) only [Instr.fn, extract_high, extract_low, BitVec.extractLsb'_eq_self, Nat.reduceSub, tyOf, Ty.ofCode_code]

theorem lea h x ty sh : Statement (.lea h x ty sh) := by
  intro _
  show some (Instr.lea h x (tyOf _) (BitVec.extractLsb' 5 3 _)) = _
  simp (disch := decide) only [Instr.fn, extract_high, extract_low, BitVec.extractLsb'_eq_self, Nat.reduceSub, tyOf, Ty.ofCode_code]

theorem idiv h x ty : Statement (.idiv h x ty) := by
  intro _
  show some (Instr.idiv h x (tyOf _)) = _
  simp (disch := decide) only [Instr.fn, extract_high, extract_low, BitVec.extractLsb'_eq_self, Nat.reduceSub, tyOf, Ty.ofCode_code]

theorem irem h x ty : Statement (.irem h x ty) := by
  intro _
  show some (Instr.irem h x (tyOf _)) = _
  simp (disch := decide) only [Instr.fn, extract_high, extract_low, BitVec.extractLsb'_eq_self, Nat.reduceSub, tyOf, Ty.ofCode_code]

theorem and h x ty : Statement (.and h x ty) := by
  intro _
  show some (Instr.and h x (tyOf _)) = _
  simp (disch := decide) only [Instr.fn, extract_high, extract_low, BitVec.extractLsb'_eq_self, Nat.reduceSub, tyOf, Ty.ofCode_code]

theorem or h x ty : Statement (.or h x ty) := by
  intro _
  show some (Instr.or h x (tyOf _)) = _
  simp (disch := decide) only [Instr.fn, extract_high, extract_low, BitVec.extractLsb'_eq_self, Nat.reduceSub, tyOf, Ty.ofCode_code]

theorem xor h x ty : Statement (.xor h x ty) := by
  intro _
  show some (Instr.xor h x (tyOf _)) = _
  simp (disch := decide) only [Instr.fn, extract_high, extract_low, BitVec.extractLsb'_eq_self, Nat.reduceSub, tyOf, Ty.ofCode_code]

theorem andn h x ty : Statement (.andn h x ty) := by
  intro _
  show some (Instr.andn h x (tyOf _)) = _
  simp (disch := decide) only [Instr.fn, extract_high, extract_low, BitVec.extractLsb'_eq_self, Nat.reduceSub, tyOf, Ty.ofCode_code]

theorem lmux h x ty f1 f0 : Statement (.lmux h x ty f1 f0) := by
  intro _
  show some (Instr.lmux h x (tyOf _) (BitVec.extractLsb' 4 4 _) (BitVec.extractLsb' 0 4 _)) = _
  simp (disch := decide) only [Instr.fn, extract_high, extract_low, BitVec.extractLsb'_eq_self, Nat.reduceSub, tyOf, Ty.ofCode_code]

theorem shl h x ty : Statement (.shl h x ty) := by
  intro _
  show some (Instr.shl h x (tyOf _)) = _
  simp (disch := decide) only [Instr.fn, extract_high, extract_low, BitVec.extractLsb'_eq_self, Nat.reduceSub, tyOf, Ty.ofCode_code]

theorem shr h x ty : Statement (.shr h x ty) := by
  intro _
  show some (Instr.shr h x (tyOf _)) = _
  simp (disch := decide) only [Instr.fn, extract_high, extract_low, BitVec.extractLsb'_eq_self, Nat.reduceSub, tyOf, Ty.ofCode_code]

theorem sar h x ty : Statement (.sar h x ty) := by
  intro _
  show some (Instr.sar h x (tyOf _)) = _
  simp (disch := decide) only [Instr.fn, extract_high, extract_low, BitVec.extractLsb'_eq_self, Nat.reduceSub, tyOf, Ty.ofCode_code]

theorem rotl h x ty : Statement (.rotl h x ty) := by
  intro _
  show some (Instr.rotl h x (tyOf _)) = _
  simp (disch := decide) only [Instr.fn, extract_high, extract_low, BitVec.extractLsb'_eq_self, Nat.reduceSub, tyOf, Ty.ofCode_code]

theorem fsh h x ty : Statement (.fsh h x ty) := by
  intro _
  show some (Instr.fsh h x (tyOf _)) = _
  simp (disch := decide) only [Instr.fn, extract_high, extract_low, BitVec.extractLsb'_eq_self, Nat.reduceSub, tyOf, Ty.ofCode_code]

theorem bfx h x ty : Statement (.bfx h x ty) := by
  intro _
  show some (Instr.bfx h x (tyOf _)) = _
  simp (disch := decide) only [Instr.fn, extract_high, extract_low, BitVec.extractLsb'_eq_self, Nat.reduceSub, tyOf, Ty.ofCode_code]

theorem bfi h x ty : Statement (.bfi h x ty) := by
  intro _
  show some (Instr.bfi h x (tyOf _)) = _
  simp (disch := decide) only [Instr.fn, extract_high, extract_low, BitVec.extractLsb'_eq_self, Nat.reduceSub, tyOf, Ty.ofCode_code]

theorem popc h x ty : Statement (.popc h x ty) := by
  intro _
  show some (Instr.popc h x (tyOf _)) = _
  simp (disch := decide) only [Instr.fn, extract_high, extract_low, BitVec.extractLsb'_eq_self, Nat.reduceSub, tyOf, Ty.ofCode_code]

theorem clz h x ty : Statement (.clz h x ty) := by
  intro _
  show some (Instr.clz h x (tyOf _)) = _
  simp (disch := decide) only [Instr.fn, extract_high, extract_low, BitVec.extractLsb'_eq_self, Nat.reduceSub, tyOf, Ty.ofCode_code]

theorem brev h x ty : Statement (.brev h x ty) := by
  intro _
  show some (Instr.brev h x (tyOf _)) = _
  simp (disch := decide) only [Instr.fn, extract_high, extract_low, BitVec.extractLsb'_eq_self, Nat.reduceSub, tyOf, Ty.ofCode_code]

theorem bperm h x ty : Statement (.bperm h x ty) := by
  intro _
  show some (Instr.bperm h x (tyOf _)) = _
  simp (disch := decide) only [Instr.fn, extract_high, extract_low, BitVec.extractLsb'_eq_self, Nat.reduceSub, tyOf, Ty.ofCode_code]

theorem icmp h x ty cond dg cmb : Statement (.icmp h x ty cond dg cmb) := by
  intro _
  show some (Instr.icmp h x (tyOf _) (condOf _) (BitVec.extractLsb' 2 3 _) (cmbOf _)) = _
  simp (disch := decide) only [Instr.fn, extract_high, extract_low, BitVec.extractLsb'_eq_self, Nat.reduceSub, tyOf, condOf, cmbOf, Cmb.ofCode_code, Cond.ofCode_code, Ty.ofCode_code]

theorem ucmp h x ty cond dg cmb : Statement (.ucmp h x ty cond dg cmb) := by
  intro _
  show some (Instr.ucmp h x (tyOf _) (condOf _) (BitVec.extractLsb' 2 3 _) (cmbOf _)) = _
  simp (disch := decide) only [Instr.fn, extract_high, extract_low, BitVec.extractLsb'_eq_self, Nat.reduceSub, tyOf, condOf, cmbOf, Cmb.ofCode_code, Cond.ofCode_code, Ty.ofCode_code]

theorem fcmp h x cond dg cmb : Statement (.fcmp h x cond dg cmb) := by
  intro _
  show some (Instr.fcmp h x (condOf _) (BitVec.extractLsb' 2 3 _) (cmbOf _)) = _
  simp (disch := decide) only [Instr.fn, extract_high, extract_low, BitVec.extractLsb'_eq_self, Nat.reduceSub, condOf, cmbOf, Cmb.ofCode_code, Cond.ofCode_code]

theorem gop h x : Statement (.gop h x) := fun _ => rfl

theorem gpack h x : Statement (.gpack h x) := fun _ => rfl

theorem gunpk h x : Statement (.gunpk h x) := fun _ => rfl

theorem sel h x ty sg sn : Statement (.sel h x ty sg sn) := by
  intro _
  show some (Instr.sel h x (tyOf _) (BitVec.extractLsb' 2 3 _) (BitVec.getLsbD _ 0)) = _
  simp (disch := decide) only [Instr.fn, extract_high, extract_low, BitVec.extractLsb'_eq_self, Nat.reduceSub, getLsbD_high, getLsbD_low, bit_zero, tyOf, Ty.ofCode_code]

theorem mov h x ty : Statement (.mov h x ty) := by
  intro _
  show some (Instr.mov h x (tyOf _)) = _
  simp (disch := decide) only [Instr.fn, extract_high, extract_low, BitVec.extractLsb'_eq_self, Nat.reduceSub, tyOf, Ty.ofCode_code]

theorem movi h x : Statement (.movi h x) := rfl

theorem movsp h x : Statement (.movsp h x) := fun _ => rfl

theorem wrsp h x : Statement (.wrsp h x) := fun _ => rfl

theorem fadd h x rnd : Statement (.fadd h x rnd) := by
  intro _
  show some (Instr.fadd h x (rndOf _)) = _
  simp (disch := decide) only [Instr.fn, extract_high, extract_low, BitVec.extractLsb'_eq_self, Nat.reduceSub, rndOf, Rnd.ofCode_code]

theorem fsub h x rnd : Statement (.fsub h x rnd) := by
  intro _
  show some (Instr.fsub h x (rndOf _)) = _
  simp (disch := decide) only [Instr.fn, extract_high, extract_low, BitVec.extractLsb'_eq_self, Nat.reduceSub, rndOf, Rnd.ofCode_code]

theorem fmul h x rnd : Statement (.fmul h x rnd) := by
  intro _
  show some (Instr.fmul h x (rndOf _)) = _
  simp (disch := decide) only [Instr.fn, extract_high, extract_low, BitVec.extractLsb'_eq_self, Nat.reduceSub, rndOf, Rnd.ofCode_code]

theorem ffma h x rnd : Statement (.ffma h x rnd) := by
  intro _
  show some (Instr.ffma h x (rndOf _)) = _
  simp (disch := decide) only [Instr.fn, extract_high, extract_low, BitVec.extractLsb'_eq_self, Nat.reduceSub, rndOf, Rnd.ofCode_code]

theorem fmin h x : Statement (.fmin h x) := fun _ => rfl

theorem fmax h x : Statement (.fmax h x) := fun _ => rfl

theorem fdiv h x rnd : Statement (.fdiv h x rnd) := by
  intro _
  show some (Instr.fdiv h x (rndOf _)) = _
  simp (disch := decide) only [Instr.fn, extract_high, extract_low, BitVec.extractLsb'_eq_self, Nat.reduceSub, rndOf, Rnd.ofCode_code]

theorem frcp h x rnd : Statement (.frcp h x rnd) := by
  intro _
  show some (Instr.frcp h x (rndOf _)) = _
  simp (disch := decide) only [Instr.fn, extract_high, extract_low, BitVec.extractLsb'_eq_self, Nat.reduceSub, rndOf, Rnd.ofCode_code]

theorem fsqrt h x rnd : Statement (.fsqrt h x rnd) := by
  intro _
  show some (Instr.fsqrt h x (rndOf _)) = _
  simp (disch := decide) only [Instr.fn, extract_high, extract_low, BitVec.extractLsb'_eq_self, Nat.reduceSub, rndOf, Rnd.ofCode_code]

theorem frsq h x rnd : Statement (.frsq h x rnd) := by
  intro _
  show some (Instr.frsq h x (rndOf _)) = _
  simp (disch := decide) only [Instr.fn, extract_high, extract_low, BitVec.extractLsb'_eq_self, Nat.reduceSub, rndOf, Rnd.ofCode_code]

theorem fexp2 h x rnd : Statement (.fexp2 h x rnd) := by
  intro _
  show some (Instr.fexp2 h x (rndOf _)) = _
  simp (disch := decide) only [Instr.fn, extract_high, extract_low, BitVec.extractLsb'_eq_self, Nat.reduceSub, rndOf, Rnd.ofCode_code]

theorem flog2 h x rnd : Statement (.flog2 h x rnd) := by
  intro _
  show some (Instr.flog2 h x (rndOf _)) = _
  simp (disch := decide) only [Instr.fn, extract_high, extract_low, BitVec.extractLsb'_eq_self, Nat.reduceSub, rndOf, Rnd.ofCode_code]

theorem frnd h x rnd : Statement (.frnd h x rnd) := by
  intro _
  show some (Instr.frnd h x (rndOf _)) = _
  simp (disch := decide) only [Instr.fn, extract_high, extract_low, BitVec.extractLsb'_eq_self, Nat.reduceSub, rndOf, Rnd.ofCode_code]

theorem fclass h x : Statement (.fclass h x) := fun _ => rfl

theorem fscale h x rnd : Statement (.fscale h x rnd) := by
  intro _
  show some (Instr.fscale h x (rndOf _)) = _
  simp (disch := decide) only [Instr.fn, extract_high, extract_low, BitVec.extractLsb'_eq_self, Nat.reduceSub, rndOf, Rnd.ofCode_code]

theorem hadd2 h x ty rnd : Statement (.hadd2 h x ty rnd) := by
  intro _
  show some (Instr.hadd2 h x (tyOf _) (rndOf _)) = _
  simp (disch := decide) only [Instr.fn, extract_high, extract_low, BitVec.extractLsb'_eq_self, Nat.reduceSub, tyOf, rndOf, Rnd.ofCode_code, Ty.ofCode_code]

theorem hmul2 h x ty rnd : Statement (.hmul2 h x ty rnd) := by
  intro _
  show some (Instr.hmul2 h x (tyOf _) (rndOf _)) = _
  simp (disch := decide) only [Instr.fn, extract_high, extract_low, BitVec.extractLsb'_eq_self, Nat.reduceSub, tyOf, rndOf, Rnd.ofCode_code, Ty.ofCode_code]

theorem hfma2 h x ty rnd : Statement (.hfma2 h x ty rnd) := by
  intro _
  show some (Instr.hfma2 h x (tyOf _) (rndOf _)) = _
  simp (disch := decide) only [Instr.fn, extract_high, extract_low, BitVec.extractLsb'_eq_self, Nat.reduceSub, tyOf, rndOf, Rnd.ofCode_code, Ty.ofCode_code]

theorem hmin2 h x ty : Statement (.hmin2 h x ty) := by
  intro _
  show some (Instr.hmin2 h x (tyOf _)) = _
  simp (disch := decide) only [Instr.fn, extract_high, extract_low, BitVec.extractLsb'_eq_self, Nat.reduceSub, tyOf, Ty.ofCode_code]

theorem hmax2 h x ty : Statement (.hmax2 h x ty) := by
  intro _
  show some (Instr.hmax2 h x (tyOf _)) = _
  simp (disch := decide) only [Instr.fn, extract_high, extract_low, BitVec.extractLsb'_eq_self, Nat.reduceSub, tyOf, Ty.ofCode_code]

theorem vadd2 h x ty sat : Statement (.vadd2 h x ty sat) := by
  intro _
  show some (Instr.vadd2 h x (tyOf _) (BitVec.getLsbD _ 7)) = _
  simp (disch := decide) only [Instr.fn, extract_high, extract_low, BitVec.extractLsb'_eq_self, Nat.reduceSub, getLsbD_high, getLsbD_low, bit_zero, tyOf, Ty.ofCode_code]

theorem vsub2 h x ty sat : Statement (.vsub2 h x ty sat) := by
  intro _
  show some (Instr.vsub2 h x (tyOf _) (BitVec.getLsbD _ 7)) = _
  simp (disch := decide) only [Instr.fn, extract_high, extract_low, BitVec.extractLsb'_eq_self, Nat.reduceSub, getLsbD_high, getLsbD_low, bit_zero, tyOf, Ty.ofCode_code]

theorem vmin2 h x ty : Statement (.vmin2 h x ty) := by
  intro _
  show some (Instr.vmin2 h x (tyOf _)) = _
  simp (disch := decide) only [Instr.fn, extract_high, extract_low, BitVec.extractLsb'_eq_self, Nat.reduceSub, tyOf, Ty.ofCode_code]

theorem vmax2 h x ty : Statement (.vmax2 h x ty) := by
  intro _
  show some (Instr.vmax2 h x (tyOf _)) = _
  simp (disch := decide) only [Instr.fn, extract_high, extract_low, BitVec.extractLsb'_eq_self, Nat.reduceSub, tyOf, Ty.ofCode_code]

theorem vabsd2 h x ty : Statement (.vabsd2 h x ty) := by
  intro _
  show some (Instr.vabsd2 h x (tyOf _)) = _
  simp (disch := decide) only [Instr.fn, extract_high, extract_low, BitVec.extractLsb'_eq_self, Nat.reduceSub, tyOf, Ty.ofCode_code]

theorem acs2 h x ty : Statement (.acs2 h x ty) := by
  intro _
  show some (Instr.acs2 h x (tyOf _)) = _
  simp (disch := decide) only [Instr.fn, extract_high, extract_low, BitVec.extractLsb'_eq_self, Nat.reduceSub, tyOf, Ty.ofCode_code]

theorem vadd4 h x ty sat : Statement (.vadd4 h x ty sat) := by
  intro _
  show some (Instr.vadd4 h x (tyOf _) (BitVec.getLsbD _ 7)) = _
  simp (disch := decide) only [Instr.fn, extract_high, extract_low, BitVec.extractLsb'_eq_self, Nat.reduceSub, getLsbD_high, getLsbD_low, bit_zero, tyOf, Ty.ofCode_code]

theorem vsub4 h x ty sat : Statement (.vsub4 h x ty sat) := by
  intro _
  show some (Instr.vsub4 h x (tyOf _) (BitVec.getLsbD _ 7)) = _
  simp (disch := decide) only [Instr.fn, extract_high, extract_low, BitVec.extractLsb'_eq_self, Nat.reduceSub, getLsbD_high, getLsbD_low, bit_zero, tyOf, Ty.ofCode_code]

theorem vmin4 h x ty : Statement (.vmin4 h x ty) := by
  intro _
  show some (Instr.vmin4 h x (tyOf _)) = _
  simp (disch := decide) only [Instr.fn, extract_high, extract_low, BitVec.extractLsb'_eq_self, Nat.reduceSub, tyOf, Ty.ofCode_code]

theorem vmax4 h x ty : Statement (.vmax4 h x ty) := by
  intro _
  show some (Instr.vmax4 h x (tyOf _)) = _
  simp (disch := decide) only [Instr.fn, extract_high, extract_low, BitVec.extractLsb'_eq_self, Nat.reduceSub, tyOf, Ty.ofCode_code]

theorem dot4 h x ty bt : Statement (.dot4 h x ty bt) := by
  intro hm
  have hb : bt ≠ some .w32 := by rintro rfl; simp [Instr.modsOk] at hm
  show some (Instr.dot4 h x (tyOf _) (btOf _)) = _
  simp (disch := decide) only [Instr.fn, extract_high, extract_low, BitVec.extractLsb'_eq_self, Nat.reduceSub, tyOf, Ty.ofCode_code]
  rw [btOf_btBits _ hb]

theorem dot8 h x ty bt : Statement (.dot8 h x ty bt) := by
  intro hm
  have hb : bt ≠ some .w32 := by rintro rfl; simp [Instr.modsOk] at hm
  show some (Instr.dot8 h x (tyOf _) (btOf _)) = _
  simp (disch := decide) only [Instr.fn, extract_high, extract_low, BitVec.extractLsb'_eq_self, Nat.reduceSub, tyOf, Ty.ofCode_code]
  rw [btOf_btBits _ hb]

theorem cvt h x ty src rnd : Statement (.cvt h x ty src rnd) := by
  intro _
  show some (Instr.cvt h x (tyOf _) (srcOf _) (rndOf _)) = _
  simp (disch := decide) only [Instr.fn, extract_high, extract_low, BitVec.extractLsb'_eq_self, Nat.reduceSub, tyOf, srcOf, rndOf, Rnd.ofCode_code, Ty.ofCode_code]

theorem cvtp h x ty rnd : Statement (.cvtp h x ty rnd) := by
  intro _
  show some (Instr.cvtp h x (tyOf _) (rndOf _)) = _
  simp (disch := decide) only [Instr.fn, extract_high, extract_low, BitVec.extractLsb'_eq_self, Nat.reduceSub, tyOf, rndOf, Rnd.ofCode_code, Ty.ofCode_code]

theorem cvtn h x ty src rnd : Statement (.cvtn h x ty src rnd) := by
  intro _
  show some (Instr.cvtn h x (tyOf _) (srcOf _) (rndOf _)) = _
  simp (disch := decide) only [Instr.fn, extract_high, extract_low, BitVec.extractLsb'_eq_self, Nat.reduceSub, tyOf, srcOf, rndOf, Rnd.ofCode_code, Ty.ofCode_code]

theorem cvtw h x ty src : Statement (.cvtw h x ty src) := by
  intro _
  show some (Instr.cvtw h x (tyOf _) (srcOf _)) = _
  simp (disch := decide) only [Instr.fn, extract_high, extract_low, BitVec.extractLsb'_eq_self, Nat.reduceSub, tyOf, srcOf, Ty.ofCode_code]

theorem hqs h x ty n32 : Statement (.hqs h x ty n32) := by
  intro _
  show some (Instr.hqs h x (tyOf _) (BitVec.getLsbD _ 4)) = _
  simp (disch := decide) only [Instr.fn, extract_high, extract_low, BitVec.extractLsb'_eq_self, Nat.reduceSub, getLsbD_high, getLsbD_low, bit_zero, tyOf, Ty.ofCode_code]

theorem hq h x ty n32 : Statement (.hq h x ty n32) := by
  intro _
  show some (Instr.hq h x (tyOf _) (BitVec.getLsbD _ 4)) = _
  simp (disch := decide) only [Instr.fn, extract_high, extract_low, BitVec.extractLsb'_eq_self, Nat.reduceSub, getLsbD_high, getLsbD_low, bit_zero, tyOf, Ty.ofCode_code]

theorem hdq h x ty n32 rnd : Statement (.hdq h x ty n32 rnd) := by
  intro _
  show some (Instr.hdq h x (tyOf _) (BitVec.getLsbD _ 4) (rndOf _)) = _
  simp (disch := decide) only [Instr.fn, extract_high, extract_low, BitVec.extractLsb'_eq_self, Nat.reduceSub, getLsbD_high, getLsbD_low, bit_zero, tyOf, rndOf, Rnd.ofCode_code, Ty.ofCode_code]

theorem scl h x ty rnd div : Statement (.scl h x ty rnd div) := by
  intro _
  show some (Instr.scl h x (tyOf _) (rndOf _) (Div.ofCode (BitVec.extractLsb' 3 2 _))) = _
  simp (disch := decide) only [Instr.fn, extract_high, extract_low, BitVec.extractLsb'_eq_self, Nat.reduceSub, tyOf, rndOf, Div.ofCode_code, Rnd.ofCode_code, Ty.ofCode_code]

theorem shfl h x ty mode full : Statement (.shfl h x ty mode full) := by
  intro _
  show some (Instr.shfl h x (tyOf _) (Shf.ofCode (BitVec.extractLsb' 5 3 _)) (BitVec.getLsbD _ 4)) = _
  simp (disch := decide) only [Instr.fn, extract_high, extract_low, BitVec.extractLsb'_eq_self, Nat.reduceSub, getLsbD_high, getLsbD_low, bit_zero, tyOf, Shf.ofCode_code, Ty.ofCode_code]

theorem shflw h x ty mode full : Statement (.shflw h x ty mode full) := by
  intro _
  show some (Instr.shflw h x (tyOf _) (Shf.ofCode (BitVec.extractLsb' 5 3 _)) (BitVec.getLsbD _ 4)) = _
  simp (disch := decide) only [Instr.fn, extract_high, extract_low, BitVec.extractLsb'_eq_self, Nat.reduceSub, getLsbD_high, getLsbD_low, bit_zero, tyOf, Shf.ofCode_code, Ty.ofCode_code]

theorem vote h x mode full : Statement (.vote h x mode full) := by
  intro _
  show some (Instr.vote h x (Vote.ofCode (BitVec.extractLsb' 5 3 _)) (BitVec.getLsbD _ 4)) = _
  simp (disch := decide) only [Instr.fn, extract_high, extract_low, BitVec.extractLsb'_eq_self, Nat.reduceSub, getLsbD_high, getLsbD_low, bit_zero, Vote.ofCode_code]

theorem wsync h x full : Statement (.wsync h x full) := by
  intro _
  show some (Instr.wsync h x (BitVec.getLsbD _ 4)) = _
  simp (disch := decide) only [Instr.fn, getLsbD_high, getLsbD_low, bit_zero, Nat.reduceSub]

theorem rdx h x ty rop full : Statement (.rdx h x ty rop full) := by
  intro _
  show some (Instr.rdx h x (tyOf _) (Rdx.ofCode (BitVec.extractLsb' 5 3 _)) (BitVec.getLsbD _ 4)) = _
  simp (disch := decide) only [Instr.fn, extract_high, extract_low, BitVec.extractLsb'_eq_self, Nat.reduceSub, getLsbD_high, getLsbD_low, bit_zero, tyOf, Rdx.ofCode_code, Ty.ofCode_code]

theorem join h x jop jn : Statement (.join h x jop jn) := by
  intro _
  show some (Instr.join h x (JoinOp.ofCode (BitVec.extractLsb' 5 3 _)) (BitVec.extractLsb' 0 4 _)) = _
  simp (disch := decide) only [Instr.fn, extract_high, extract_low, BitVec.extractLsb'_eq_self, Nat.reduceSub, JoinOp.ofCode_code]

theorem jwait h x jn : Statement (.jwait h x jn) := by
  intro _
  show some (Instr.jwait h x (BitVec.extractLsb' 0 4 _)) = _
  simp (disch := decide) only [Instr.fn, extract_high, extract_low, BitVec.extractLsb'_eq_self, Nat.reduceSub]

theorem jwaitt h x jn : Statement (.jwaitt h x jn) := by
  intro _
  show some (Instr.jwaitt h x (BitVec.extractLsb' 0 4 _)) = _
  simp (disch := decide) only [Instr.fn, extract_high, extract_low, BitVec.extractLsb'_eq_self, Nat.reduceSub]

theorem jget h x jn : Statement (.jget h x jn) := by
  intro _
  show some (Instr.jget h x (BitVec.extractLsb' 0 4 _)) = _
  simp (disch := decide) only [Instr.fn, extract_high, extract_low, BitVec.extractLsb'_eq_self, Nat.reduceSub]

theorem jset h x jn : Statement (.jset h x jn) := by
  intro _
  show some (Instr.jset h x (BitVec.extractLsb' 0 4 _)) = _
  simp (disch := decide) only [Instr.fn, extract_high, extract_low, BitVec.extractLsb'_eq_self, Nat.reduceSub]

theorem bcast h x ty full : Statement (.bcast h x ty full) := by
  intro _
  show some (Instr.bcast h x (tyOf _) (BitVec.getLsbD _ 4)) = _
  simp (disch := decide) only [Instr.fn, extract_high, extract_low, BitVec.extractLsb'_eq_self, Nat.reduceSub, getLsbD_high, getLsbD_low, bit_zero, tyOf, Ty.ofCode_code]

theorem vread h x ty full : Statement (.vread h x ty full) := by
  intro _
  show some (Instr.vread h x (tyOf _) (BitVec.getLsbD _ 4)) = _
  simp (disch := decide) only [Instr.fn, extract_high, extract_low, BitVec.extractLsb'_eq_self, Nat.reduceSub, getLsbD_high, getLsbD_low, bit_zero, tyOf, Ty.ofCode_code]

theorem ld h x sz spc win : Statement (.ld h x sz spc win) := by
  intro _
  show some (Instr.ld h x (szOf _) (spcOf _) (BitVec.extractLsb' 0 3 _)) = _
  simp (disch := decide) only [Instr.fn, extract_high, extract_low, BitVec.extractLsb'_eq_self, Nat.reduceSub, szOf, spcOf, Spc.ofCode_code, Sz.ofCode_code]

theorem st h x sz spc ga : Statement (.st h x sz spc ga) := by
  intro _
  show some (Instr.st h x (szOf _) (spcOf _) (BitVec.getLsbD _ 3)) = _
  simp (disch := decide) only [Instr.fn, extract_high, extract_low, BitVec.extractLsb'_eq_self, Nat.reduceSub, getLsbD_high, getLsbD_low, bit_zero, szOf, spcOf, Spc.ofCode_code, Sz.ofCode_code]

theorem ldo h x sz spc : Statement (.ldo h x sz spc) := by
  intro _
  show some (Instr.ldo h x (szOf _) (spcOf _)) = _
  simp (disch := decide) only [Instr.fn, extract_high, extract_low, BitVec.extractLsb'_eq_self, Nat.reduceSub, szOf, spcOf, Spc.ofCode_code, Sz.ofCode_code]

theorem sto h x sz spc ga : Statement (.sto h x sz spc ga) := by
  intro _
  show some (Instr.sto h x (szOf _) (spcOf _) (BitVec.getLsbD _ 3)) = _
  simp (disch := decide) only [Instr.fn, extract_high, extract_low, BitVec.extractLsb'_eq_self, Nat.reduceSub, getLsbD_high, getLsbD_low, bit_zero, szOf, spcOf, Spc.ofCode_code, Sz.ofCode_code]

theorem pf h x sys wr : Statement (.pf h x sys wr) := by
  intro _
  show some (Instr.pf h x (BitVec.getLsbD _ 4) (BitVec.getLsbD _ 0)) = _
  simp (disch := decide) only [Instr.fn, extract_high, extract_low, BitVec.extractLsb'_eq_self, Nat.reduceSub, getLsbD_high, getLsbD_low, bit_zero]
  cases sys <;> rfl

theorem atom h x ty aop spc ga : Statement (.atom h x ty aop spc ga) := by
  intro _
  show some (Instr.atom h x (tyOf _) (AOp.ofCode (BitVec.extractLsb' 0 3 _)) (spcOf _) (BitVec.getLsbD _ 3)) = _
  simp (disch := decide) only [Instr.fn, extract_high, extract_low, BitVec.extractLsb'_eq_self, Nat.reduceSub, getLsbD_high, getLsbD_low, bit_zero, tyOf, spcOf, AOp.ofCode_code, Spc.ofCode_code, Ty.ofCode_code]

theorem ared h x ty aop spc ga : Statement (.ared h x ty aop spc ga) := by
  intro _
  show some (Instr.ared h x (tyOf _) (AOp.ofCode (BitVec.extractLsb' 0 3 _)) (spcOf _) (BitVec.getLsbD _ 3)) = _
  simp (disch := decide) only [Instr.fn, extract_high, extract_low, BitVec.extractLsb'_eq_self, Nat.reduceSub, getLsbD_high, getLsbD_low, bit_zero, tyOf, spcOf, AOp.ofCode_code, Spc.ofCode_code, Ty.ofCode_code]

theorem acas h x ty spc ga : Statement (.acas h x ty spc ga) := by
  intro _
  show some (Instr.acas h x (tyOf _) (spcOf _) (BitVec.getLsbD _ 3)) = _
  simp (disch := decide) only [Instr.fn, extract_high, extract_low, BitVec.extractLsb'_eq_self, Nat.reduceSub, getLsbD_high, getLsbD_low, bit_zero, tyOf, spcOf, Spc.ofCode_code, Ty.ofCode_code]

theorem binit h x gw scope keep full : Statement (.binit h x gw scope keep full) := by
  intro _
  show some (if (Instr.fn (Instr.binit h x gw scope keep full)).getLsbD 3 then Instr.binitRetire h x ((Instr.fn (Instr.binit h x gw scope keep full)).getLsbD 6) (scopeOf (Instr.fn (Instr.binit h x gw scope keep full))) else Instr.binit h x ((Instr.fn (Instr.binit h x gw scope keep full)).getLsbD 6) (scopeOf (Instr.fn (Instr.binit h x gw scope keep full))) ((Instr.fn (Instr.binit h x gw scope keep full)).getLsbD 0) ((Instr.fn (Instr.binit h x gw scope keep full)).getLsbD 1)) = _
  simp (disch := decide) only [Instr.fn, extract_high, extract_low, BitVec.extractLsb'_eq_self, Nat.reduceSub, getLsbD_high, getLsbD_low, bit_zero, scopeOf, Scope.ofCode_code]
  simp

theorem binitRetire h x gw scope : Statement (.binitRetire h x gw scope) := by
  intro _
  show some (if (Instr.fn (Instr.binitRetire h x gw scope)).getLsbD 3 then Instr.binitRetire h x ((Instr.fn (Instr.binitRetire h x gw scope)).getLsbD 6) (scopeOf (Instr.fn (Instr.binitRetire h x gw scope))) else Instr.binit h x ((Instr.fn (Instr.binitRetire h x gw scope)).getLsbD 6) (scopeOf (Instr.fn (Instr.binitRetire h x gw scope))) ((Instr.fn (Instr.binitRetire h x gw scope)).getLsbD 0) ((Instr.fn (Instr.binitRetire h x gw scope)).getLsbD 1)) = _
  simp (disch := decide) only [Instr.fn, extract_high, extract_low, BitVec.extractLsb'_eq_self, Nat.reduceSub, getLsbD_high, getLsbD_low, bit_zero, scopeOf, Scope.ofCode_code]
  simp

theorem barr h x gw rel : Statement (.barr h x gw rel) := by
  intro _
  show some (Instr.barr h x (BitVec.getLsbD _ 6) (ArrRel.ofCode (BitVec.extractLsb' 0 2 _))) = _
  simp (disch := decide) only [Instr.fn, extract_high, extract_low, BitVec.extractLsb'_eq_self, Nat.reduceSub, getLsbD_high, getLsbD_low, bit_zero, ArrRel.ofCode_code]

theorem bexp h x gw arr : Statement (.bexp h x gw arr) := by
  intro _
  show some (Instr.bexp h x (BitVec.getLsbD _ 6) (BitVec.getLsbD _ 0)) = _
  simp (disch := decide) only [Instr.fn, getLsbD_high, getLsbD_low, bit_zero, Nat.reduceSub]

theorem bwait h x gw : Statement (.bwait h x gw) := by
  intro _
  show some (Instr.bwait h x (BitVec.getLsbD _ 6)) = _
  simp (disch := decide) only [Instr.fn, getLsbD_high, getLsbD_low, bit_zero, Nat.reduceSub]

theorem bwaitt h x gw : Statement (.bwaitt h x gw) := by
  intro _
  show some (Instr.bwaitt h x (BitVec.getLsbD _ 6)) = _
  simp (disch := decide) only [Instr.fn, getLsbD_high, getLsbD_low, bit_zero, Nat.reduceSub]

theorem bstat h x gw : Statement (.bstat h x gw) := by
  intro _
  show some (Instr.bstat h x (BitVec.getLsbD _ 6)) = _
  simp (disch := decide) only [Instr.fn, getLsbD_high, getLsbD_low, bit_zero, Nat.reduceSub]

theorem bind h x gw : Statement (.bind h x gw) := by
  intro _
  show some (Instr.bind h x (BitVec.getLsbD _ 6)) = _
  simp (disch := decide) only [Instr.fn, getLsbD_high, getLsbD_low, bit_zero, Nat.reduceSub]

theorem unbind h x gw : Statement (.unbind h x gw) := by
  intro _
  show some (Instr.unbind h x (BitVec.getLsbD _ 6)) = _
  simp (disch := decide) only [Instr.fn, getLsbD_high, getLsbD_low, bit_zero, Nat.reduceSub]

theorem fence h x scope kind : Statement (.fence h x scope kind) := by
  intro _
  show some (Instr.fence h x (scopeOf _) (Fence.ofCode (BitVec.extractLsb' 0 4 _))) = _
  simp (disch := decide) only [Instr.fn, extract_high, extract_low, BitVec.extractLsb'_eq_self, Nat.reduceSub, scopeOf, Fence.ofCode_code, Scope.ofCode_code]

theorem fencex h x scope : Statement (.fencex h x scope) := by
  intro _
  show some (Instr.fencex h x (scopeOf _)) = _
  simp (disch := decide) only [Instr.fn, extract_high, extract_low, BitVec.extractLsb'_eq_self, Nat.reduceSub, scopeOf, Scope.ofCode_code]

theorem fencerec h x gl all : Statement (.fencerec h x gl all) := by
  intro _
  show some (Instr.fencerec h x (BitVec.getLsbD _ 7) (BitVec.getLsbD _ 0)) = _
  simp (disch := decide) only [Instr.fn, getLsbD_high, getLsbD_low, bit_zero, Nat.reduceSub]

theorem cpy h x dsp ssp ga sys : Statement (.cpy h x dsp ssp ga sys) := by
  intro _
  show some (Instr.cpy h x (CSpc.ofCode (BitVec.extractLsb' 10 2 _)) (CSpc.ofCode (BitVec.extractLsb' 8 2 _)) (BitVec.getLsbD _ 7) (BitVec.getLsbD _ 6)) = _
  simp (disch := decide) only [Instr.fn, extract_high, extract_low, BitVec.extractLsb'_eq_self, Nat.reduceSub, getLsbD_high, getLsbD_low, bit_zero, CSpc.ofCode_code]

theorem cpyt h x lgw store rgl ga sys : Statement (.cpyt h x lgw store rgl ga sys) := by
  intro _
  show some (Instr.cpyt h x (BitVec.getLsbD _ 10) (BitVec.getLsbD _ 9) (BitVec.getLsbD _ 8) (BitVec.getLsbD _ 7) (BitVec.getLsbD _ 6)) = _
  simp (disch := decide) only [Instr.fn, getLsbD_high, getLsbD_low, bit_zero, Nat.reduceSub]

theorem cpyg h x dsp ssp ga sys : Statement (.cpyg h x dsp ssp ga sys) := by
  intro _
  show some (Instr.cpyg h x (CSpc.ofCode (BitVec.extractLsb' 10 2 _)) (CSpc.ofCode (BitVec.extractLsb' 8 2 _)) (BitVec.getLsbD _ 7) (BitVec.getLsbD _ 6)) = _
  simp (disch := decide) only [Instr.fn, extract_high, extract_low, BitVec.extractLsb'_eq_self, Nat.reduceSub, getLsbD_high, getLsbD_low, bit_zero, CSpc.ofCode_code]

theorem cpyn h x ssp sys : Statement (.cpyn h x ssp sys) := by
  intro _
  show some (Instr.cpyn h x (CSpc.ofCode (BitVec.extractLsb' 8 2 _)) (BitVec.getLsbD _ 6)) = _
  simp (disch := decide) only [Instr.fn, extract_high, extract_low, BitVec.extractLsb'_eq_self, Nat.reduceSub, getLsbD_high, getLsbD_low, bit_zero, CSpc.ofCode_code]

theorem bget h x gw : Statement (.bget h x gw) := by
  intro _
  show some (Instr.bget h x (BitVec.getLsbD _ 6)) = _
  simp (disch := decide) only [Instr.fn, getLsbD_high, getLsbD_low, bit_zero, Nat.reduceSub]

theorem bputGet h x gw : Statement (.bputGet h x gw) := by
  intro _
  show some (if (Instr.fn (Instr.bputGet h x gw)).getLsbD 0 then Instr.bputPut h x ((Instr.fn (Instr.bputGet h x gw)).getLsbD 6) else Instr.bputGet h x ((Instr.fn (Instr.bputGet h x gw)).getLsbD 6)) = _
  simp (disch := decide) only [Instr.fn, extract_high, extract_low, BitVec.extractLsb'_eq_self, Nat.reduceSub, getLsbD_high, getLsbD_low, bit_zero, scopeOf, Scope.ofCode_code]
  simp

theorem bputPut h x gw : Statement (.bputPut h x gw) := by
  intro _
  show some (if (Instr.fn (Instr.bputPut h x gw)).getLsbD 0 then Instr.bputPut h x ((Instr.fn (Instr.bputPut h x gw)).getLsbD 6) else Instr.bputGet h x ((Instr.fn (Instr.bputPut h x gw)).getLsbD 6)) = _
  simp (disch := decide) only [Instr.fn, extract_high, extract_low, BitVec.extractLsb'_eq_self, Nat.reduceSub, getLsbD_high, getLsbD_low, bit_zero, scopeOf, Scope.ofCode_code]
  simp

theorem bfree h x gw : Statement (.bfree h x gw) := by
  intro _
  show some (Instr.bfree h x (BitVec.getLsbD _ 6)) = _
  simp (disch := decide) only [Instr.fn, getLsbD_high, getLsbD_low, bit_zero, Nat.reduceSub]

theorem bbindRq h x gw : Statement (.bbindRq h x gw) := by
  intro _
  show some (if (Instr.fn (Instr.bbindRq h x gw)).getLsbD 0 then Instr.bbindOff h x ((Instr.fn (Instr.bbindRq h x gw)).getLsbD 6) else Instr.bbindRq h x ((Instr.fn (Instr.bbindRq h x gw)).getLsbD 6)) = _
  simp (disch := decide) only [Instr.fn, extract_high, extract_low, BitVec.extractLsb'_eq_self, Nat.reduceSub, getLsbD_high, getLsbD_low, bit_zero, scopeOf, Scope.ofCode_code]
  simp

theorem bbindOff h x gw : Statement (.bbindOff h x gw) := by
  intro _
  show some (if (Instr.fn (Instr.bbindOff h x gw)).getLsbD 0 then Instr.bbindOff h x ((Instr.fn (Instr.bbindOff h x gw)).getLsbD 6) else Instr.bbindRq h x ((Instr.fn (Instr.bbindOff h x gw)).getLsbD 6)) = _
  simp (disch := decide) only [Instr.fn, extract_high, extract_low, BitVec.extractLsb'_eq_self, Nat.reduceSub, getLsbD_high, getLsbD_low, bit_zero, scopeOf, Scope.ofCode_code]
  simp

theorem dadv h x : Statement (.dadv h x) := fun _ => rfl

theorem dstat h x : Statement (.dstat h x) := fun _ => rfl

theorem ckill h x which : Statement (.ckill h x which) := by
  intro _
  show some (Instr.ckill h x (Kill.ofCode (BitVec.extractLsb' 0 2 _))) = _
  simp (disch := decide) only [Instr.fn, extract_high, extract_low, BitVec.extractLsb'_eq_self, Nat.reduceSub, Kill.ofCode_code]

theorem mxm h x ty acc part pt solo : Statement (.mxm h x ty acc part pt solo) := by
  intro _
  show some (Instr.mxm h x (tyOf _) (Acc.ofCode (BitVec.extractLsb' 5 2 _)) (BitVec.getLsbD _ 4) (BitVec.getLsbD _ 3) (BitVec.getLsbD _ 2)) = _
  simp (disch := decide) only [Instr.fn, extract_high, extract_low, BitVec.extractLsb'_eq_self, Nat.reduceSub, getLsbD_high, getLsbD_low, bit_zero, tyOf, Acc.ofCode_code, Ty.ofCode_code]

theorem mxc h x ty tr acc part pt solo konst : Statement (.mxc h x ty tr acc part pt solo konst) := by
  intro _
  show some (Instr.mxc h x (tyOf _) (BitVec.getLsbD _ 7) (Acc.ofCode (BitVec.extractLsb' 5 2 _)) (BitVec.getLsbD _ 4) (BitVec.getLsbD _ 3) (BitVec.getLsbD _ 2) (Konst.ofCode (BitVec.extractLsb' 0 2 _))) = _
  simp (disch := decide) only [Instr.fn, extract_high, extract_low, BitVec.extractLsb'_eq_self, Nat.reduceSub, getLsbD_high, getLsbD_low, bit_zero, tyOf, Acc.ofCode_code, Konst.ofCode_code, Ty.ofCode_code]

theorem msca h x ty pt keep div : Statement (.msca h x ty pt keep div) := by
  intro _
  show some (Instr.msca h x (tyOf _) (BitVec.getLsbD _ 7) (BitVec.getLsbD _ 6) (Div.ofCode (BitVec.extractLsb' 4 2 _))) = _
  simp (disch := decide) only [Instr.fn, extract_high, extract_low, BitVec.extractLsb'_eq_self, Nat.reduceSub, getLsbD_high, getLsbD_low, bit_zero, tyOf, Div.ofCode_code, Ty.ofCode_code]

theorem mzero h x ty pt tile solo : Statement (.mzero h x ty pt tile solo) := by
  intro _
  show some (Instr.mzero h x (tyOf _) (BitVec.getLsbD _ 7) (BitVec.getLsbD _ 6) (BitVec.getLsbD _ 5)) = _
  simp (disch := decide) only [Instr.fn, extract_high, extract_low, BitVec.extractLsb'_eq_self, Nat.reduceSub, getLsbD_high, getLsbD_low, bit_zero, tyOf, Ty.ofCode_code]

theorem ldf h x ty c solo : Statement (.ldf h x ty c solo) := by
  intro _
  show some (Instr.ldf h x (tyOf _) (BitVec.getLsbD _ 7) (BitVec.getLsbD _ 6)) = _
  simp (disch := decide) only [Instr.fn, extract_high, extract_low, BitVec.extractLsb'_eq_self, Nat.reduceSub, getLsbD_high, getLsbD_low, bit_zero, tyOf, Ty.ofCode_code]

theorem stf h x ty c solo : Statement (.stf h x ty c solo) := by
  intro _
  show some (Instr.stf h x (tyOf _) (BitVec.getLsbD _ 7) (BitVec.getLsbD _ 6)) = _
  simp (disch := decide) only [Instr.fn, extract_high, extract_low, BitVec.extractLsb'_eq_self, Nat.reduceSub, getLsbD_high, getLsbD_low, bit_zero, tyOf, Ty.ofCode_code]

theorem mxrd h x ty pt keep : Statement (.mxrd h x ty pt keep) := by
  intro _
  show some (Instr.mxrd h x (tyOf _) (BitVec.getLsbD _ 7) (BitVec.getLsbD _ 6)) = _
  simp (disch := decide) only [Instr.fn, extract_high, extract_low, BitVec.extractLsb'_eq_self, Nat.reduceSub, getLsbD_high, getLsbD_low, bit_zero, tyOf, Ty.ofCode_code]

theorem relay h x : Statement (.relay h x) := fun _ => rfl

theorem nget h x ty : Statement (.nget h x ty) := by
  intro _
  show some (Instr.nget h x (tyOf _)) = _
  simp (disch := decide) only [Instr.fn, extract_high, extract_low, BitVec.extractLsb'_eq_self, Nat.reduceSub, tyOf, Ty.ofCode_code]

theorem nred h x ty nop : Statement (.nred h x ty nop) := by
  intro _
  show some (Instr.nred h x (tyOf _) (NOp.ofCode (BitVec.extractLsb' 5 3 _))) = _
  simp (disch := decide) only [Instr.fn, extract_high, extract_low, BitVec.extractLsb'_eq_self, Nat.reduceSub, tyOf, NOp.ofCode_code, Ty.ofCode_code]

theorem ncvt h x ty ord src : Statement (.ncvt h x ty ord src) := by
  intro _
  show some (Instr.ncvt h x (tyOf _) (NOrd.ofCode (BitVec.extractLsb' 6 2 _)) (srcOf _)) = _
  simp (disch := decide) only [Instr.fn, extract_high, extract_low, BitVec.extractLsb'_eq_self, Nat.reduceSub, tyOf, srcOf, NOrd.ofCode_code, Ty.ofCode_code]

theorem trapSw h x : Statement (.trapSw h x) := by
  intro _
  show some (if (Instr.fn (Instr.trapSw h x)).getLsbD 1 then Instr.trapHget h x else if (Instr.fn (Instr.trapSw h x)).getLsbD 0 then Instr.trapHset h x else Instr.trapSw h x) = _
  simp (disch := decide) only [Instr.fn, extract_high, extract_low, BitVec.extractLsb'_eq_self, Nat.reduceSub, getLsbD_high, getLsbD_low, bit_zero, scopeOf, Scope.ofCode_code]
  simp

theorem trapHset h x : Statement (.trapHset h x) := by
  intro _
  show some (if (Instr.fn (Instr.trapHset h x)).getLsbD 1 then Instr.trapHget h x else if (Instr.fn (Instr.trapHset h x)).getLsbD 0 then Instr.trapHset h x else Instr.trapSw h x) = _
  simp (disch := decide) only [Instr.fn, extract_high, extract_low, BitVec.extractLsb'_eq_self, Nat.reduceSub, getLsbD_high, getLsbD_low, bit_zero, scopeOf, Scope.ofCode_code]
  simp

theorem trapHget h x : Statement (.trapHget h x) := by
  intro _
  show some (if (Instr.fn (Instr.trapHget h x)).getLsbD 1 then Instr.trapHget h x else if (Instr.fn (Instr.trapHget h x)).getLsbD 0 then Instr.trapHset h x else Instr.trapSw h x) = _
  simp (disch := decide) only [Instr.fn, extract_high, extract_low, BitVec.extractLsb'_eq_self, Nat.reduceSub, getLsbD_high, getLsbD_low, bit_zero, scopeOf, Scope.ofCode_code]
  simp

theorem rte h x skip : Statement (.rte h x skip) := by
  intro _
  show some (Instr.rte h x (BitVec.getLsbD _ 0)) = _
  simp (disch := decide) only [Instr.fn, getLsbD_high, getLsbD_low, bit_zero, Nat.reduceSub]

theorem rdf h x : Statement (.rdf h x) := fun _ => rfl

theorem brkHit h x : Statement (.brkHit h x) := by
  intro _
  show some (if (Instr.fn (Instr.brkHit h x)).getLsbD 1 then Instr.brkWp h x else if (Instr.fn (Instr.brkHit h x)).getLsbD 0 then Instr.brkBp h x else Instr.brkHit h x) = _
  simp (disch := decide) only [Instr.fn, extract_high, extract_low, BitVec.extractLsb'_eq_self, Nat.reduceSub, getLsbD_high, getLsbD_low, bit_zero, scopeOf, Scope.ofCode_code]
  simp

theorem brkBp h x : Statement (.brkBp h x) := by
  intro _
  show some (if (Instr.fn (Instr.brkBp h x)).getLsbD 1 then Instr.brkWp h x else if (Instr.fn (Instr.brkBp h x)).getLsbD 0 then Instr.brkBp h x else Instr.brkHit h x) = _
  simp (disch := decide) only [Instr.fn, extract_high, extract_low, BitVec.extractLsb'_eq_self, Nat.reduceSub, getLsbD_high, getLsbD_low, bit_zero, scopeOf, Scope.ofCode_code]
  simp

theorem brkWp h x : Statement (.brkWp h x) := by
  intro _
  show some (if (Instr.fn (Instr.brkWp h x)).getLsbD 1 then Instr.brkWp h x else if (Instr.fn (Instr.brkWp h x)).getLsbD 0 then Instr.brkBp h x else Instr.brkHit h x) = _
  simp (disch := decide) only [Instr.fn, extract_high, extract_low, BitVec.extractLsb'_eq_self, Nat.reduceSub, getLsbD_high, getLsbD_low, bit_zero, scopeOf, Scope.ofCode_code]
  simp

theorem setroot h x : Statement (.setroot h x) := fun _ => rfl

theorem retype h x : Statement (.retype h x) := fun _ => rfl

theorem tinv h x : Statement (.tinv h x) := fun _ => rfl

theorem evtack h x : Statement (.evtack h x) := fun _ => rfl

theorem yld h x : Statement (.yld h x) := fun _ => rfl

theorem launch h x : Statement (.launch h x) := fun _ => rfl

theorem opreq h x : Statement (.opreq h x) := fun _ => rfl

theorem killComplete gid : Statement (.killComplete gid) := trivial

theorem registerFill id part : Statement (.registerFill id part) := trivial

theorem stallDataArrival gid wi : Statement (.stallDataArrival gid wi) := trivial

theorem strideSlot core q : Statement (.strideSlot core q) := trivial

theorem jwaittExpiry gid wi t : Statement (.jwaittExpiry gid wi t) := trivial

theorem bwaittExpiry gid wi t : Statement (.bwaittExpiry gid wi t) := trivial

theorem bytesCounted core slot pieces : Statement (.bytesCounted core slot pieces) := trivial

theorem commandEnd core slot : Statement (.commandEnd core slot) := trivial

theorem receiveLanding core bind : Statement (.receiveLanding core bind) := trivial

theorem messageArrival world queue sender payload : Statement (.messageArrival world queue sender payload) := trivial

theorem teamCommandStart gid team : Statement (.teamCommandStart gid team) := trivial

theorem matrixCommandStart core q id : Statement (.matrixCommandStart core q id) := trivial

theorem matrixCommandEnd core q id detections : Statement (.matrixCommandEnd core q id detections) := trivial

theorem storeAtHome id part : Statement (.storeAtHome id part) := trivial

theorem hotWordRetire addr ids : Statement (.hotWordRetire addr ids) := trivial

theorem invalidation die line : Statement (.invalidation die line) := trivial

theorem invalidationAck die line : Statement (.invalidationAck die line) := trivial

theorem storeAck id : Statement (.storeAck id) := trivial

theorem negativeAck id : Statement (.negativeAck id) := trivial

theorem ackTimeout id : Statement (.ackTimeout id) := trivial

theorem bridgeFailure bridge dropped cmds : Statement (.bridgeFailure bridge dropped cmds) := trivial

theorem releaseMarker id : Statement (.releaseMarker id) := trivial

theorem relayArrival gid wi : Statement (.relayArrival gid wi) := trivial

theorem tableStoreAdmission gid wi : Statement (.tableStoreAdmission gid wi) := trivial

theorem purge slice frame : Statement (.purge slice frame) := trivial

theorem tinvComplete id : Statement (.tinvComplete id) := trivial

theorem setrootComplete id : Statement (.setrootComplete id) := trivial

theorem retypeAtHome id : Statement (.retypeAtHome id) := trivial

theorem frameMigration frame : Statement (.frameMigration frame) := trivial

theorem migrationSwitch frame : Statement (.migrationSwitch frame) := trivial

theorem dispatchRound pref : Statement (.dispatchRound pref) := trivial

theorem launchCompletion lid : Statement (.launchCompletion lid) := trivial

theorem clockGate core : Statement (.clockGate core) := trivial

theorem wake core : Statement (.wake core) := trivial

theorem preemptRequest gid notice frames : Statement (.preemptRequest gid notice frames) := trivial

theorem noticeExpiry gid : Statement (.noticeExpiry gid) := trivial

theorem resume gid cores : Statement (.resume gid cores) := trivial

theorem opEvacuateScratchpad : Statement (.opEvacuateScratchpad) := trivial

theorem opEvacuateSlices : Statement (.opEvacuateSlices) := trivial

theorem opSwitch : Statement (.opSwitch) := trivial

theorem rowRetire slice unit row : Statement (.rowRetire slice unit row) := trivial

theorem softPpr line hard : Statement (.softPpr line hard) := trivial

theorem softPprComplete line : Statement (.softPprComplete line) := trivial

theorem scrub core found : Statement (.scrub core found) := trivial

theorem patrol line found tag : Statement (.patrol line found tag) := trivial

theorem spareTakeover isUnit part dead : Statement (.spareTakeover isUnit part dead) := trivial

theorem environmentalAlarm cond die : Statement (.environmentalAlarm cond die) := trivial

theorem alarmResend : Statement (.alarmResend) := trivial

theorem controlTakeover : Statement (.controlTakeover) := trivial

theorem baseRd stack port addr len world : Statement (.baseRd stack port addr len world) := trivial

theorem baseWr stack port addr len world : Statement (.baseWr stack port addr len world) := trivial

theorem baseWrm stack port addr len world mask : Statement (.baseWrm stack port addr len world mask) := trivial

theorem baseRsp stack port tag : Statement (.baseRsp stack port tag) := trivial

theorem baseAck stack port tag : Statement (.baseAck stack port tag) := trivial

theorem flitData link ok : Statement (.flitData link ok) := trivial

theorem flitIdle link ok : Statement (.flitIdle link ok) := trivial

theorem flitMarker link ok : Statement (.flitMarker link ok) := trivial

theorem flitNak link : Statement (.flitNak link) := trivial

theorem flitVoid link ok : Statement (.flitVoid link ok) := trivial

theorem keyLoad link : Statement (.keyLoad link) := trivial

theorem linkFailure link : Statement (.linkFailure link) := trivial

theorem functionLevelReset world lost : Statement (.functionLevelReset world lost) := trivial

theorem queueOpen world queue send peer rod : Statement (.queueOpen world queue send peer rod) := trivial

theorem queueClose world queue send : Statement (.queueClose world queue send) := trivial

theorem deviceReset : Statement (.deviceReset) := trivial

theorem keysAndFill : Statement .keysAndFill := trivial

theorem imageVerify : Statement (.imageVerify) := trivial

theorem resetGo : Statement (.resetGo) := trivial

theorem responseWrite cls : Statement (.responseWrite cls) := trivial

theorem registerWrite addr val : Statement (.registerWrite addr val) := trivial

theorem attestationRequest nonce : Statement (.attestationRequest nonce) := trivial

theorem logHeadAdvance die n : Statement (.logHeadAdvance die n) := trivial

theorem linkTraining link : Statement (.linkTraining link) := trivial

theorem newWorldKey world : Statement (.newWorldKey world) := trivial

theorem grantOwnerChange stack grant world : Statement (.grantOwnerChange stack grant world) := trivial

theorem launchQueueWrite world queue record root : Statement (.launchQueueWrite world queue record root) := trivial

theorem enrolment owner port flowMin keyHashes module_ : Statement (.enrolment owner port flowMin keyHashes module_) := trivial

theorem sealGang gid : Statement (.sealGang gid) := trivial

end Laws.Reads

end Sys2Proof
end

