-- ==== Sys2Proof/Laws/State.lean ====
section
/-!
SUPPORT. What each named update of the state leaves as it was, field by field: no later proof unfolds a record update.
-/
namespace Sys2Proof.Machine

/-! ### `State.modGang` -/

@[simp] theorem State.modGang_tick (s : State) (gid : Nat) (f : Gang → Gang) : (s.modGang gid f).tick = s.tick := rfl
@[simp] theorem State.modGang_nextId (s : State) (gid : Nat) (f : Gang → Gang) : (s.modGang gid f).nextId = s.nextId := rfl
@[simp] theorem State.modGang_agenda (s : State) (gid : Nat) (f : Gang → Gang) : (s.modGang gid f).agenda = s.agenda := rfl
@[simp] theorem State.modGang_cur (s : State) (gid : Nat) (f : Gang → Gang) : (s.modGang gid f).cur = s.cur := rfl
@[simp] theorem State.modGang_upsets (s : State) (gid : Nat) (f : Gang → Gang) : (s.modGang gid f).upsets = s.upsets := rfl
@[simp] theorem State.modGang_mem (s : State) (gid : Nat) (f : Gang → Gang) : (s.modGang gid f).mem = s.mem := rfl
@[simp] theorem State.modGang_bb (s : State) (gid : Nat) (f : Gang → Gang) : (s.modGang gid f).bb = s.bb := rfl
@[simp] theorem State.modGang_copies (s : State) (gid : Nat) (f : Gang → Gang) : (s.modGang gid f).copies = s.copies := rfl
@[simp] theorem State.modGang_flights (s : State) (gid : Nat) (f : Gang → Gang) : (s.modGang gid f).flights = s.flights := rfl
@[simp] theorem State.modGang_glVeils (s : State) (gid : Nat) (f : Gang → Gang) : (s.modGang gid f).glVeils = s.glVeils := rfl
@[simp] theorem State.modGang_invals (s : State) (gid : Nat) (f : Gang → Gang) : (s.modGang gid f).invals = s.invals := rfl
@[simp] theorem State.modGang_hot (s : State) (gid : Nat) (f : Gang → Gang) : (s.modGang gid f).hot = s.hot := rfl
@[simp] theorem State.modGang_badMem (s : State) (gid : Nat) (f : Gang → Gang) : (s.modGang gid f).badMem = s.badMem := rfl
@[simp] theorem State.modGang_badBb (s : State) (gid : Nat) (f : Gang → Gang) : (s.modGang gid f).badBb = s.badBb := rfl
@[simp] theorem State.modGang_badPad (s : State) (gid : Nat) (f : Gang → Gang) : (s.modGang gid f).badPad = s.badPad := rfl
@[simp] theorem State.modGang_frames (s : State) (gid : Nat) (f : Gang → Gang) : (s.modGang gid f).frames = s.frames := rfl
@[simp] theorem State.modGang_dropNext (s : State) (gid : Nat) (f : Gang → Gang) : (s.modGang gid f).dropNext = s.dropNext := rfl
@[simp] theorem State.modGang_purges (s : State) (gid : Nat) (f : Gang → Gang) : (s.modGang gid f).purges = s.purges := rfl
@[simp] theorem State.modGang_passed (s : State) (gid : Nat) (f : Gang → Gang) : (s.modGang gid f).passed = s.passed := rfl
@[simp] theorem State.modGang_tlb (s : State) (gid : Nat) (f : Gang → Gang) : (s.modGang gid f).tlb = s.tlb := rfl
@[simp] theorem State.modGang_migs (s : State) (gid : Nat) (f : Gang → Gang) : (s.modGang gid f).migs = s.migs := rfl
@[simp] theorem State.modGang_spares (s : State) (gid : Nat) (f : Gang → Gang) : (s.modGang gid f).spares = s.spares := rfl
@[simp] theorem State.modGang_pending (s : State) (gid : Nat) (f : Gang → Gang) : (s.modGang gid f).pending = s.pending := rfl
@[simp] theorem State.modGang_sealed (s : State) (gid : Nat) (f : Gang → Gang) : (s.modGang gid f).sealed = s.sealed := rfl
@[simp] theorem State.modGang_launches (s : State) (gid : Nat) (f : Gang → Gang) : (s.modGang gid f).launches = s.launches := rfl
@[simp] theorem State.modGang_queues (s : State) (gid : Nat) (f : Gang → Gang) : (s.modGang gid f).queues = s.queues := rfl
@[simp] theorem State.modGang_rrWorld (s : State) (gid : Nat) (f : Gang → Gang) : (s.modGang gid f).rrWorld = s.rrWorld := rfl
@[simp] theorem State.modGang_rrQueue (s : State) (gid : Nat) (f : Gang → Gang) : (s.modGang gid f).rrQueue = s.rrQueue := rfl
@[simp] theorem State.modGang_bib (s : State) (gid : Nat) (f : Gang → Gang) : (s.modGang gid f).bib = s.bib := rfl
@[simp] theorem State.modGang_opcur (s : State) (gid : Nat) (f : Gang → Gang) : (s.modGang gid f).opcur = s.opcur := rfl
@[simp] theorem State.modGang_opstep (s : State) (gid : Nat) (f : Gang → Gang) : (s.modGang gid f).opstep = s.opstep := rfl
@[simp] theorem State.modGang_clusters (s : State) (gid : Nat) (f : Gang → Gang) : (s.modGang gid f).clusters = s.clusters := rfl
@[simp] theorem State.modGang_poolCores (s : State) (gid : Nat) (f : Gang → Gang) : (s.modGang gid f).poolCores = s.poolCores := rfl
@[simp] theorem State.modGang_poolUnits (s : State) (gid : Nat) (f : Gang → Gang) : (s.modGang gid f).poolUnits = s.poolUnits := rfl
@[simp] theorem State.modGang_cores (s : State) (gid : Nat) (f : Gang → Gang) : (s.modGang gid f).cores = s.cores := rfl
@[simp] theorem State.modGang_slicesBad (s : State) (gid : Nat) (f : Gang → Gang) : (s.modGang gid f).slicesBad = s.slicesBad := rfl
@[simp] theorem State.modGang_retiring (s : State) (gid : Nat) (f : Gang → Gang) : (s.modGang gid f).retiring = s.retiring := rfl
@[simp] theorem State.modGang_bridges (s : State) (gid : Nat) (f : Gang → Gang) : (s.modGang gid f).bridges = s.bridges := rfl
@[simp] theorem State.modGang_markers (s : State) (gid : Nat) (f : Gang → Gang) : (s.modGang gid f).markers = s.markers := rfl
@[simp] theorem State.modGang_hbm (s : State) (gid : Nat) (f : Gang → Gang) : (s.modGang gid f).hbm = s.hbm := rfl
@[simp] theorem State.modGang_quiesced (s : State) (gid : Nat) (f : Gang → Gang) : (s.modGang gid f).quiesced = s.quiesced := rfl
@[simp] theorem State.modGang_hardRepairs (s : State) (gid : Nat) (f : Gang → Gang) : (s.modGang gid f).hardRepairs = s.hardRepairs := rfl
@[simp] theorem State.modGang_rowSpares (s : State) (gid : Nat) (f : Gang → Gang) : (s.modGang gid f).rowSpares = s.rowSpares := rfl
@[simp] theorem State.modGang_burned (s : State) (gid : Nat) (f : Gang → Gang) : (s.modGang gid f).burned = s.burned := rfl
@[simp] theorem State.modGang_links (s : State) (gid : Nat) (f : Gang → Gang) : (s.modGang gid f).links = s.links := rfl
@[simp] theorem State.modGang_sendQs (s : State) (gid : Nat) (f : Gang → Gang) : (s.modGang gid f).sendQs = s.sendQs := rfl
@[simp] theorem State.modGang_recvQs (s : State) (gid : Nat) (f : Gang → Gang) : (s.modGang gid f).recvQs = s.recvQs := rfl
@[simp] theorem State.modGang_mgmt (s : State) (gid : Nat) (f : Gang → Gang) : (s.modGang gid f).mgmt = s.mgmt := rfl

/-! ### `State.modWarp` -/

@[simp] theorem State.modWarp_tick (s : State) (r : WRef) (f : Warp → Warp) : (s.modWarp r f).tick = s.tick := rfl
@[simp] theorem State.modWarp_nextId (s : State) (r : WRef) (f : Warp → Warp) : (s.modWarp r f).nextId = s.nextId := rfl
@[simp] theorem State.modWarp_agenda (s : State) (r : WRef) (f : Warp → Warp) : (s.modWarp r f).agenda = s.agenda := rfl
@[simp] theorem State.modWarp_cur (s : State) (r : WRef) (f : Warp → Warp) : (s.modWarp r f).cur = s.cur := rfl
@[simp] theorem State.modWarp_upsets (s : State) (r : WRef) (f : Warp → Warp) : (s.modWarp r f).upsets = s.upsets := rfl
@[simp] theorem State.modWarp_mem (s : State) (r : WRef) (f : Warp → Warp) : (s.modWarp r f).mem = s.mem := rfl
@[simp] theorem State.modWarp_bb (s : State) (r : WRef) (f : Warp → Warp) : (s.modWarp r f).bb = s.bb := rfl
@[simp] theorem State.modWarp_copies (s : State) (r : WRef) (f : Warp → Warp) : (s.modWarp r f).copies = s.copies := rfl
@[simp] theorem State.modWarp_flights (s : State) (r : WRef) (f : Warp → Warp) : (s.modWarp r f).flights = s.flights := rfl
@[simp] theorem State.modWarp_glVeils (s : State) (r : WRef) (f : Warp → Warp) : (s.modWarp r f).glVeils = s.glVeils := rfl
@[simp] theorem State.modWarp_invals (s : State) (r : WRef) (f : Warp → Warp) : (s.modWarp r f).invals = s.invals := rfl
@[simp] theorem State.modWarp_hot (s : State) (r : WRef) (f : Warp → Warp) : (s.modWarp r f).hot = s.hot := rfl
@[simp] theorem State.modWarp_badMem (s : State) (r : WRef) (f : Warp → Warp) : (s.modWarp r f).badMem = s.badMem := rfl
@[simp] theorem State.modWarp_badBb (s : State) (r : WRef) (f : Warp → Warp) : (s.modWarp r f).badBb = s.badBb := rfl
@[simp] theorem State.modWarp_badPad (s : State) (r : WRef) (f : Warp → Warp) : (s.modWarp r f).badPad = s.badPad := rfl
@[simp] theorem State.modWarp_frames (s : State) (r : WRef) (f : Warp → Warp) : (s.modWarp r f).frames = s.frames := rfl
@[simp] theorem State.modWarp_dropNext (s : State) (r : WRef) (f : Warp → Warp) : (s.modWarp r f).dropNext = s.dropNext := rfl
@[simp] theorem State.modWarp_purges (s : State) (r : WRef) (f : Warp → Warp) : (s.modWarp r f).purges = s.purges := rfl
@[simp] theorem State.modWarp_passed (s : State) (r : WRef) (f : Warp → Warp) : (s.modWarp r f).passed = s.passed := rfl
@[simp] theorem State.modWarp_tlb (s : State) (r : WRef) (f : Warp → Warp) : (s.modWarp r f).tlb = s.tlb := rfl
@[simp] theorem State.modWarp_migs (s : State) (r : WRef) (f : Warp → Warp) : (s.modWarp r f).migs = s.migs := rfl
@[simp] theorem State.modWarp_spares (s : State) (r : WRef) (f : Warp → Warp) : (s.modWarp r f).spares = s.spares := rfl
@[simp] theorem State.modWarp_pending (s : State) (r : WRef) (f : Warp → Warp) : (s.modWarp r f).pending = s.pending := rfl
@[simp] theorem State.modWarp_sealed (s : State) (r : WRef) (f : Warp → Warp) : (s.modWarp r f).sealed = s.sealed := rfl
@[simp] theorem State.modWarp_launches (s : State) (r : WRef) (f : Warp → Warp) : (s.modWarp r f).launches = s.launches := rfl
@[simp] theorem State.modWarp_queues (s : State) (r : WRef) (f : Warp → Warp) : (s.modWarp r f).queues = s.queues := rfl
@[simp] theorem State.modWarp_rrWorld (s : State) (r : WRef) (f : Warp → Warp) : (s.modWarp r f).rrWorld = s.rrWorld := rfl
@[simp] theorem State.modWarp_rrQueue (s : State) (r : WRef) (f : Warp → Warp) : (s.modWarp r f).rrQueue = s.rrQueue := rfl
@[simp] theorem State.modWarp_bib (s : State) (r : WRef) (f : Warp → Warp) : (s.modWarp r f).bib = s.bib := rfl
@[simp] theorem State.modWarp_opcur (s : State) (r : WRef) (f : Warp → Warp) : (s.modWarp r f).opcur = s.opcur := rfl
@[simp] theorem State.modWarp_opstep (s : State) (r : WRef) (f : Warp → Warp) : (s.modWarp r f).opstep = s.opstep := rfl
@[simp] theorem State.modWarp_clusters (s : State) (r : WRef) (f : Warp → Warp) : (s.modWarp r f).clusters = s.clusters := rfl
@[simp] theorem State.modWarp_poolCores (s : State) (r : WRef) (f : Warp → Warp) : (s.modWarp r f).poolCores = s.poolCores := rfl
@[simp] theorem State.modWarp_poolUnits (s : State) (r : WRef) (f : Warp → Warp) : (s.modWarp r f).poolUnits = s.poolUnits := rfl
@[simp] theorem State.modWarp_cores (s : State) (r : WRef) (f : Warp → Warp) : (s.modWarp r f).cores = s.cores := rfl
@[simp] theorem State.modWarp_slicesBad (s : State) (r : WRef) (f : Warp → Warp) : (s.modWarp r f).slicesBad = s.slicesBad := rfl
@[simp] theorem State.modWarp_retiring (s : State) (r : WRef) (f : Warp → Warp) : (s.modWarp r f).retiring = s.retiring := rfl
@[simp] theorem State.modWarp_bridges (s : State) (r : WRef) (f : Warp → Warp) : (s.modWarp r f).bridges = s.bridges := rfl
@[simp] theorem State.modWarp_markers (s : State) (r : WRef) (f : Warp → Warp) : (s.modWarp r f).markers = s.markers := rfl
@[simp] theorem State.modWarp_hbm (s : State) (r : WRef) (f : Warp → Warp) : (s.modWarp r f).hbm = s.hbm := rfl
@[simp] theorem State.modWarp_quiesced (s : State) (r : WRef) (f : Warp → Warp) : (s.modWarp r f).quiesced = s.quiesced := rfl
@[simp] theorem State.modWarp_hardRepairs (s : State) (r : WRef) (f : Warp → Warp) : (s.modWarp r f).hardRepairs = s.hardRepairs := rfl
@[simp] theorem State.modWarp_rowSpares (s : State) (r : WRef) (f : Warp → Warp) : (s.modWarp r f).rowSpares = s.rowSpares := rfl
@[simp] theorem State.modWarp_burned (s : State) (r : WRef) (f : Warp → Warp) : (s.modWarp r f).burned = s.burned := rfl
@[simp] theorem State.modWarp_links (s : State) (r : WRef) (f : Warp → Warp) : (s.modWarp r f).links = s.links := rfl
@[simp] theorem State.modWarp_sendQs (s : State) (r : WRef) (f : Warp → Warp) : (s.modWarp r f).sendQs = s.sendQs := rfl
@[simp] theorem State.modWarp_recvQs (s : State) (r : WRef) (f : Warp → Warp) : (s.modWarp r f).recvQs = s.recvQs := rfl
@[simp] theorem State.modWarp_mgmt (s : State) (r : WRef) (f : Warp → Warp) : (s.modWarp r f).mgmt = s.mgmt := rfl

/-! ### `State.modThread` -/

@[simp] theorem State.modThread_tick (s : State) (r : WRef) (t : Nat) (f : Thread → Thread) : (s.modThread r t f).tick = s.tick := rfl
@[simp] theorem State.modThread_nextId (s : State) (r : WRef) (t : Nat) (f : Thread → Thread) : (s.modThread r t f).nextId = s.nextId := rfl
@[simp] theorem State.modThread_agenda (s : State) (r : WRef) (t : Nat) (f : Thread → Thread) : (s.modThread r t f).agenda = s.agenda := rfl
@[simp] theorem State.modThread_cur (s : State) (r : WRef) (t : Nat) (f : Thread → Thread) : (s.modThread r t f).cur = s.cur := rfl
@[simp] theorem State.modThread_upsets (s : State) (r : WRef) (t : Nat) (f : Thread → Thread) : (s.modThread r t f).upsets = s.upsets := rfl
@[simp] theorem State.modThread_mem (s : State) (r : WRef) (t : Nat) (f : Thread → Thread) : (s.modThread r t f).mem = s.mem := rfl
@[simp] theorem State.modThread_bb (s : State) (r : WRef) (t : Nat) (f : Thread → Thread) : (s.modThread r t f).bb = s.bb := rfl
@[simp] theorem State.modThread_copies (s : State) (r : WRef) (t : Nat) (f : Thread → Thread) : (s.modThread r t f).copies = s.copies := rfl
@[simp] theorem State.modThread_flights (s : State) (r : WRef) (t : Nat) (f : Thread → Thread) : (s.modThread r t f).flights = s.flights := rfl
@[simp] theorem State.modThread_glVeils (s : State) (r : WRef) (t : Nat) (f : Thread → Thread) : (s.modThread r t f).glVeils = s.glVeils := rfl
@[simp] theorem State.modThread_invals (s : State) (r : WRef) (t : Nat) (f : Thread → Thread) : (s.modThread r t f).invals = s.invals := rfl
@[simp] theorem State.modThread_hot (s : State) (r : WRef) (t : Nat) (f : Thread → Thread) : (s.modThread r t f).hot = s.hot := rfl
@[simp] theorem State.modThread_badMem (s : State) (r : WRef) (t : Nat) (f : Thread → Thread) : (s.modThread r t f).badMem = s.badMem := rfl
@[simp] theorem State.modThread_badBb (s : State) (r : WRef) (t : Nat) (f : Thread → Thread) : (s.modThread r t f).badBb = s.badBb := rfl
@[simp] theorem State.modThread_badPad (s : State) (r : WRef) (t : Nat) (f : Thread → Thread) : (s.modThread r t f).badPad = s.badPad := rfl
@[simp] theorem State.modThread_frames (s : State) (r : WRef) (t : Nat) (f : Thread → Thread) : (s.modThread r t f).frames = s.frames := rfl
@[simp] theorem State.modThread_dropNext (s : State) (r : WRef) (t : Nat) (f : Thread → Thread) : (s.modThread r t f).dropNext = s.dropNext := rfl
@[simp] theorem State.modThread_purges (s : State) (r : WRef) (t : Nat) (f : Thread → Thread) : (s.modThread r t f).purges = s.purges := rfl
@[simp] theorem State.modThread_passed (s : State) (r : WRef) (t : Nat) (f : Thread → Thread) : (s.modThread r t f).passed = s.passed := rfl
@[simp] theorem State.modThread_tlb (s : State) (r : WRef) (t : Nat) (f : Thread → Thread) : (s.modThread r t f).tlb = s.tlb := rfl
@[simp] theorem State.modThread_migs (s : State) (r : WRef) (t : Nat) (f : Thread → Thread) : (s.modThread r t f).migs = s.migs := rfl
@[simp] theorem State.modThread_spares (s : State) (r : WRef) (t : Nat) (f : Thread → Thread) : (s.modThread r t f).spares = s.spares := rfl
@[simp] theorem State.modThread_pending (s : State) (r : WRef) (t : Nat) (f : Thread → Thread) : (s.modThread r t f).pending = s.pending := rfl
@[simp] theorem State.modThread_sealed (s : State) (r : WRef) (t : Nat) (f : Thread → Thread) : (s.modThread r t f).sealed = s.sealed := rfl
@[simp] theorem State.modThread_launches (s : State) (r : WRef) (t : Nat) (f : Thread → Thread) : (s.modThread r t f).launches = s.launches := rfl
@[simp] theorem State.modThread_queues (s : State) (r : WRef) (t : Nat) (f : Thread → Thread) : (s.modThread r t f).queues = s.queues := rfl
@[simp] theorem State.modThread_rrWorld (s : State) (r : WRef) (t : Nat) (f : Thread → Thread) : (s.modThread r t f).rrWorld = s.rrWorld := rfl
@[simp] theorem State.modThread_rrQueue (s : State) (r : WRef) (t : Nat) (f : Thread → Thread) : (s.modThread r t f).rrQueue = s.rrQueue := rfl
@[simp] theorem State.modThread_bib (s : State) (r : WRef) (t : Nat) (f : Thread → Thread) : (s.modThread r t f).bib = s.bib := rfl
@[simp] theorem State.modThread_opcur (s : State) (r : WRef) (t : Nat) (f : Thread → Thread) : (s.modThread r t f).opcur = s.opcur := rfl
@[simp] theorem State.modThread_opstep (s : State) (r : WRef) (t : Nat) (f : Thread → Thread) : (s.modThread r t f).opstep = s.opstep := rfl
@[simp] theorem State.modThread_clusters (s : State) (r : WRef) (t : Nat) (f : Thread → Thread) : (s.modThread r t f).clusters = s.clusters := rfl
@[simp] theorem State.modThread_poolCores (s : State) (r : WRef) (t : Nat) (f : Thread → Thread) : (s.modThread r t f).poolCores = s.poolCores := rfl
@[simp] theorem State.modThread_poolUnits (s : State) (r : WRef) (t : Nat) (f : Thread → Thread) : (s.modThread r t f).poolUnits = s.poolUnits := rfl
@[simp] theorem State.modThread_cores (s : State) (r : WRef) (t : Nat) (f : Thread → Thread) : (s.modThread r t f).cores = s.cores := rfl
@[simp] theorem State.modThread_slicesBad (s : State) (r : WRef) (t : Nat) (f : Thread → Thread) : (s.modThread r t f).slicesBad = s.slicesBad := rfl
@[simp] theorem State.modThread_retiring (s : State) (r : WRef) (t : Nat) (f : Thread → Thread) : (s.modThread r t f).retiring = s.retiring := rfl
@[simp] theorem State.modThread_bridges (s : State) (r : WRef) (t : Nat) (f : Thread → Thread) : (s.modThread r t f).bridges = s.bridges := rfl
@[simp] theorem State.modThread_markers (s : State) (r : WRef) (t : Nat) (f : Thread → Thread) : (s.modThread r t f).markers = s.markers := rfl
@[simp] theorem State.modThread_hbm (s : State) (r : WRef) (t : Nat) (f : Thread → Thread) : (s.modThread r t f).hbm = s.hbm := rfl
@[simp] theorem State.modThread_quiesced (s : State) (r : WRef) (t : Nat) (f : Thread → Thread) : (s.modThread r t f).quiesced = s.quiesced := rfl
@[simp] theorem State.modThread_hardRepairs (s : State) (r : WRef) (t : Nat) (f : Thread → Thread) : (s.modThread r t f).hardRepairs = s.hardRepairs := rfl
@[simp] theorem State.modThread_rowSpares (s : State) (r : WRef) (t : Nat) (f : Thread → Thread) : (s.modThread r t f).rowSpares = s.rowSpares := rfl
@[simp] theorem State.modThread_burned (s : State) (r : WRef) (t : Nat) (f : Thread → Thread) : (s.modThread r t f).burned = s.burned := rfl
@[simp] theorem State.modThread_links (s : State) (r : WRef) (t : Nat) (f : Thread → Thread) : (s.modThread r t f).links = s.links := rfl
@[simp] theorem State.modThread_sendQs (s : State) (r : WRef) (t : Nat) (f : Thread → Thread) : (s.modThread r t f).sendQs = s.sendQs := rfl
@[simp] theorem State.modThread_recvQs (s : State) (r : WRef) (t : Nat) (f : Thread → Thread) : (s.modThread r t f).recvQs = s.recvQs := rfl
@[simp] theorem State.modThread_mgmt (s : State) (r : WRef) (t : Nat) (f : Thread → Thread) : (s.modThread r t f).mgmt = s.mgmt := rfl

/-! ### `State.modThreads` -/

@[simp] theorem State.modThreads_tick (s : State) (r : WRef) (ts : List Nat) (f : Thread → Thread) : (s.modThreads r ts f).tick = s.tick := rfl
@[simp] theorem State.modThreads_nextId (s : State) (r : WRef) (ts : List Nat) (f : Thread → Thread) : (s.modThreads r ts f).nextId = s.nextId := rfl
@[simp] theorem State.modThreads_agenda (s : State) (r : WRef) (ts : List Nat) (f : Thread → Thread) : (s.modThreads r ts f).agenda = s.agenda := rfl
@[simp] theorem State.modThreads_cur (s : State) (r : WRef) (ts : List Nat) (f : Thread → Thread) : (s.modThreads r ts f).cur = s.cur := rfl
@[simp] theorem State.modThreads_upsets (s : State) (r : WRef) (ts : List Nat) (f : Thread → Thread) : (s.modThreads r ts f).upsets = s.upsets := rfl
@[simp] theorem State.modThreads_mem (s : State) (r : WRef) (ts : List Nat) (f : Thread → Thread) : (s.modThreads r ts f).mem = s.mem := rfl
@[simp] theorem State.modThreads_bb (s : State) (r : WRef) (ts : List Nat) (f : Thread → Thread) : (s.modThreads r ts f).bb = s.bb := rfl
@[simp] theorem State.modThreads_copies (s : State) (r : WRef) (ts : List Nat) (f : Thread → Thread) : (s.modThreads r ts f).copies = s.copies := rfl
@[simp] theorem State.modThreads_flights (s : State) (r : WRef) (ts : List Nat) (f : Thread → Thread) : (s.modThreads r ts f).flights = s.flights := rfl
@[simp] theorem State.modThreads_glVeils (s : State) (r : WRef) (ts : List Nat) (f : Thread → Thread) : (s.modThreads r ts f).glVeils = s.glVeils := rfl
@[simp] theorem State.modThreads_invals (s : State) (r : WRef) (ts : List Nat) (f : Thread → Thread) : (s.modThreads r ts f).invals = s.invals := rfl
@[simp] theorem State.modThreads_hot (s : State) (r : WRef) (ts : List Nat) (f : Thread → Thread) : (s.modThreads r ts f).hot = s.hot := rfl
@[simp] theorem State.modThreads_badMem (s : State) (r : WRef) (ts : List Nat) (f : Thread → Thread) : (s.modThreads r ts f).badMem = s.badMem := rfl
@[simp] theorem State.modThreads_badBb (s : State) (r : WRef) (ts : List Nat) (f : Thread → Thread) : (s.modThreads r ts f).badBb = s.badBb := rfl
@[simp] theorem State.modThreads_badPad (s : State) (r : WRef) (ts : List Nat) (f : Thread → Thread) : (s.modThreads r ts f).badPad = s.badPad := rfl
@[simp] theorem State.modThreads_frames (s : State) (r : WRef) (ts : List Nat) (f : Thread → Thread) : (s.modThreads r ts f).frames = s.frames := rfl
@[simp] theorem State.modThreads_dropNext (s : State) (r : WRef) (ts : List Nat) (f : Thread → Thread) : (s.modThreads r ts f).dropNext = s.dropNext := rfl
@[simp] theorem State.modThreads_purges (s : State) (r : WRef) (ts : List Nat) (f : Thread → Thread) : (s.modThreads r ts f).purges = s.purges := rfl
@[simp] theorem State.modThreads_passed (s : State) (r : WRef) (ts : List Nat) (f : Thread → Thread) : (s.modThreads r ts f).passed = s.passed := rfl
@[simp] theorem State.modThreads_tlb (s : State) (r : WRef) (ts : List Nat) (f : Thread → Thread) : (s.modThreads r ts f).tlb = s.tlb := rfl
@[simp] theorem State.modThreads_migs (s : State) (r : WRef) (ts : List Nat) (f : Thread → Thread) : (s.modThreads r ts f).migs = s.migs := rfl
@[simp] theorem State.modThreads_spares (s : State) (r : WRef) (ts : List Nat) (f : Thread → Thread) : (s.modThreads r ts f).spares = s.spares := rfl
@[simp] theorem State.modThreads_pending (s : State) (r : WRef) (ts : List Nat) (f : Thread → Thread) : (s.modThreads r ts f).pending = s.pending := rfl
@[simp] theorem State.modThreads_sealed (s : State) (r : WRef) (ts : List Nat) (f : Thread → Thread) : (s.modThreads r ts f).sealed = s.sealed := rfl
@[simp] theorem State.modThreads_launches (s : State) (r : WRef) (ts : List Nat) (f : Thread → Thread) : (s.modThreads r ts f).launches = s.launches := rfl
@[simp] theorem State.modThreads_queues (s : State) (r : WRef) (ts : List Nat) (f : Thread → Thread) : (s.modThreads r ts f).queues = s.queues := rfl
@[simp] theorem State.modThreads_rrWorld (s : State) (r : WRef) (ts : List Nat) (f : Thread → Thread) : (s.modThreads r ts f).rrWorld = s.rrWorld := rfl
@[simp] theorem State.modThreads_rrQueue (s : State) (r : WRef) (ts : List Nat) (f : Thread → Thread) : (s.modThreads r ts f).rrQueue = s.rrQueue := rfl
@[simp] theorem State.modThreads_bib (s : State) (r : WRef) (ts : List Nat) (f : Thread → Thread) : (s.modThreads r ts f).bib = s.bib := rfl
@[simp] theorem State.modThreads_opcur (s : State) (r : WRef) (ts : List Nat) (f : Thread → Thread) : (s.modThreads r ts f).opcur = s.opcur := rfl
@[simp] theorem State.modThreads_opstep (s : State) (r : WRef) (ts : List Nat) (f : Thread → Thread) : (s.modThreads r ts f).opstep = s.opstep := rfl
@[simp] theorem State.modThreads_clusters (s : State) (r : WRef) (ts : List Nat) (f : Thread → Thread) : (s.modThreads r ts f).clusters = s.clusters := rfl
@[simp] theorem State.modThreads_poolCores (s : State) (r : WRef) (ts : List Nat) (f : Thread → Thread) : (s.modThreads r ts f).poolCores = s.poolCores := rfl
@[simp] theorem State.modThreads_poolUnits (s : State) (r : WRef) (ts : List Nat) (f : Thread → Thread) : (s.modThreads r ts f).poolUnits = s.poolUnits := rfl
@[simp] theorem State.modThreads_cores (s : State) (r : WRef) (ts : List Nat) (f : Thread → Thread) : (s.modThreads r ts f).cores = s.cores := rfl
@[simp] theorem State.modThreads_slicesBad (s : State) (r : WRef) (ts : List Nat) (f : Thread → Thread) : (s.modThreads r ts f).slicesBad = s.slicesBad := rfl
@[simp] theorem State.modThreads_retiring (s : State) (r : WRef) (ts : List Nat) (f : Thread → Thread) : (s.modThreads r ts f).retiring = s.retiring := rfl
@[simp] theorem State.modThreads_bridges (s : State) (r : WRef) (ts : List Nat) (f : Thread → Thread) : (s.modThreads r ts f).bridges = s.bridges := rfl
@[simp] theorem State.modThreads_markers (s : State) (r : WRef) (ts : List Nat) (f : Thread → Thread) : (s.modThreads r ts f).markers = s.markers := rfl
@[simp] theorem State.modThreads_hbm (s : State) (r : WRef) (ts : List Nat) (f : Thread → Thread) : (s.modThreads r ts f).hbm = s.hbm := rfl
@[simp] theorem State.modThreads_quiesced (s : State) (r : WRef) (ts : List Nat) (f : Thread → Thread) : (s.modThreads r ts f).quiesced = s.quiesced := rfl
@[simp] theorem State.modThreads_hardRepairs (s : State) (r : WRef) (ts : List Nat) (f : Thread → Thread) : (s.modThreads r ts f).hardRepairs = s.hardRepairs := rfl
@[simp] theorem State.modThreads_rowSpares (s : State) (r : WRef) (ts : List Nat) (f : Thread → Thread) : (s.modThreads r ts f).rowSpares = s.rowSpares := rfl
@[simp] theorem State.modThreads_burned (s : State) (r : WRef) (ts : List Nat) (f : Thread → Thread) : (s.modThreads r ts f).burned = s.burned := rfl
@[simp] theorem State.modThreads_links (s : State) (r : WRef) (ts : List Nat) (f : Thread → Thread) : (s.modThreads r ts f).links = s.links := rfl
@[simp] theorem State.modThreads_sendQs (s : State) (r : WRef) (ts : List Nat) (f : Thread → Thread) : (s.modThreads r ts f).sendQs = s.sendQs := rfl
@[simp] theorem State.modThreads_recvQs (s : State) (r : WRef) (ts : List Nat) (f : Thread → Thread) : (s.modThreads r ts f).recvQs = s.recvQs := rfl
@[simp] theorem State.modThreads_mgmt (s : State) (r : WRef) (ts : List Nat) (f : Thread → Thread) : (s.modThreads r ts f).mgmt = s.mgmt := rfl

/-! ### `State.modCore` -/

@[simp] theorem State.modCore_tick (s : State) (c : Nat) (f : Core → Core) : (s.modCore c f).tick = s.tick := rfl
@[simp] theorem State.modCore_nextId (s : State) (c : Nat) (f : Core → Core) : (s.modCore c f).nextId = s.nextId := rfl
@[simp] theorem State.modCore_agenda (s : State) (c : Nat) (f : Core → Core) : (s.modCore c f).agenda = s.agenda := rfl
@[simp] theorem State.modCore_cur (s : State) (c : Nat) (f : Core → Core) : (s.modCore c f).cur = s.cur := rfl
@[simp] theorem State.modCore_upsets (s : State) (c : Nat) (f : Core → Core) : (s.modCore c f).upsets = s.upsets := rfl
@[simp] theorem State.modCore_mem (s : State) (c : Nat) (f : Core → Core) : (s.modCore c f).mem = s.mem := rfl
@[simp] theorem State.modCore_bb (s : State) (c : Nat) (f : Core → Core) : (s.modCore c f).bb = s.bb := rfl
@[simp] theorem State.modCore_copies (s : State) (c : Nat) (f : Core → Core) : (s.modCore c f).copies = s.copies := rfl
@[simp] theorem State.modCore_flights (s : State) (c : Nat) (f : Core → Core) : (s.modCore c f).flights = s.flights := rfl
@[simp] theorem State.modCore_glVeils (s : State) (c : Nat) (f : Core → Core) : (s.modCore c f).glVeils = s.glVeils := rfl
@[simp] theorem State.modCore_invals (s : State) (c : Nat) (f : Core → Core) : (s.modCore c f).invals = s.invals := rfl
@[simp] theorem State.modCore_hot (s : State) (c : Nat) (f : Core → Core) : (s.modCore c f).hot = s.hot := rfl
@[simp] theorem State.modCore_badMem (s : State) (c : Nat) (f : Core → Core) : (s.modCore c f).badMem = s.badMem := rfl
@[simp] theorem State.modCore_badBb (s : State) (c : Nat) (f : Core → Core) : (s.modCore c f).badBb = s.badBb := rfl
@[simp] theorem State.modCore_badPad (s : State) (c : Nat) (f : Core → Core) : (s.modCore c f).badPad = s.badPad := rfl
@[simp] theorem State.modCore_frames (s : State) (c : Nat) (f : Core → Core) : (s.modCore c f).frames = s.frames := rfl
@[simp] theorem State.modCore_dropNext (s : State) (c : Nat) (f : Core → Core) : (s.modCore c f).dropNext = s.dropNext := rfl
@[simp] theorem State.modCore_purges (s : State) (c : Nat) (f : Core → Core) : (s.modCore c f).purges = s.purges := rfl
@[simp] theorem State.modCore_passed (s : State) (c : Nat) (f : Core → Core) : (s.modCore c f).passed = s.passed := rfl
@[simp] theorem State.modCore_tlb (s : State) (c : Nat) (f : Core → Core) : (s.modCore c f).tlb = s.tlb := rfl
@[simp] theorem State.modCore_migs (s : State) (c : Nat) (f : Core → Core) : (s.modCore c f).migs = s.migs := rfl
@[simp] theorem State.modCore_spares (s : State) (c : Nat) (f : Core → Core) : (s.modCore c f).spares = s.spares := rfl
@[simp] theorem State.modCore_pending (s : State) (c : Nat) (f : Core → Core) : (s.modCore c f).pending = s.pending := rfl
@[simp] theorem State.modCore_gangs (s : State) (c : Nat) (f : Core → Core) : (s.modCore c f).gangs = s.gangs := rfl
@[simp] theorem State.modCore_dying (s : State) (c : Nat) (f : Core → Core) : (s.modCore c f).dying = s.dying := rfl
@[simp] theorem State.modCore_sealed (s : State) (c : Nat) (f : Core → Core) : (s.modCore c f).sealed = s.sealed := rfl
@[simp] theorem State.modCore_launches (s : State) (c : Nat) (f : Core → Core) : (s.modCore c f).launches = s.launches := rfl
@[simp] theorem State.modCore_queues (s : State) (c : Nat) (f : Core → Core) : (s.modCore c f).queues = s.queues := rfl
@[simp] theorem State.modCore_rrWorld (s : State) (c : Nat) (f : Core → Core) : (s.modCore c f).rrWorld = s.rrWorld := rfl
@[simp] theorem State.modCore_rrQueue (s : State) (c : Nat) (f : Core → Core) : (s.modCore c f).rrQueue = s.rrQueue := rfl
@[simp] theorem State.modCore_bib (s : State) (c : Nat) (f : Core → Core) : (s.modCore c f).bib = s.bib := rfl
@[simp] theorem State.modCore_opcur (s : State) (c : Nat) (f : Core → Core) : (s.modCore c f).opcur = s.opcur := rfl
@[simp] theorem State.modCore_opstep (s : State) (c : Nat) (f : Core → Core) : (s.modCore c f).opstep = s.opstep := rfl
@[simp] theorem State.modCore_clusters (s : State) (c : Nat) (f : Core → Core) : (s.modCore c f).clusters = s.clusters := rfl
@[simp] theorem State.modCore_poolCores (s : State) (c : Nat) (f : Core → Core) : (s.modCore c f).poolCores = s.poolCores := rfl
@[simp] theorem State.modCore_poolUnits (s : State) (c : Nat) (f : Core → Core) : (s.modCore c f).poolUnits = s.poolUnits := rfl
@[simp] theorem State.modCore_slicesBad (s : State) (c : Nat) (f : Core → Core) : (s.modCore c f).slicesBad = s.slicesBad := rfl
@[simp] theorem State.modCore_retiring (s : State) (c : Nat) (f : Core → Core) : (s.modCore c f).retiring = s.retiring := rfl
@[simp] theorem State.modCore_bridges (s : State) (c : Nat) (f : Core → Core) : (s.modCore c f).bridges = s.bridges := rfl
@[simp] theorem State.modCore_markers (s : State) (c : Nat) (f : Core → Core) : (s.modCore c f).markers = s.markers := rfl
@[simp] theorem State.modCore_hbm (s : State) (c : Nat) (f : Core → Core) : (s.modCore c f).hbm = s.hbm := rfl
@[simp] theorem State.modCore_quiesced (s : State) (c : Nat) (f : Core → Core) : (s.modCore c f).quiesced = s.quiesced := rfl
@[simp] theorem State.modCore_hardRepairs (s : State) (c : Nat) (f : Core → Core) : (s.modCore c f).hardRepairs = s.hardRepairs := rfl
@[simp] theorem State.modCore_rowSpares (s : State) (c : Nat) (f : Core → Core) : (s.modCore c f).rowSpares = s.rowSpares := rfl
@[simp] theorem State.modCore_burned (s : State) (c : Nat) (f : Core → Core) : (s.modCore c f).burned = s.burned := rfl
@[simp] theorem State.modCore_links (s : State) (c : Nat) (f : Core → Core) : (s.modCore c f).links = s.links := rfl
@[simp] theorem State.modCore_sendQs (s : State) (c : Nat) (f : Core → Core) : (s.modCore c f).sendQs = s.sendQs := rfl
@[simp] theorem State.modCore_recvQs (s : State) (c : Nat) (f : Core → Core) : (s.modCore c f).recvQs = s.recvQs := rfl
@[simp] theorem State.modCore_mgmt (s : State) (c : Nat) (f : Core → Core) : (s.modCore c f).mgmt = s.mgmt := rfl

/-! ### `State.modQuarter` -/

@[simp] theorem State.modQuarter_tick (s : State) (c q : Nat) (f : Quarter → Quarter) : (s.modQuarter c q f).tick = s.tick := rfl
@[simp] theorem State.modQuarter_nextId (s : State) (c q : Nat) (f : Quarter → Quarter) : (s.modQuarter c q f).nextId = s.nextId := rfl
@[simp] theorem State.modQuarter_agenda (s : State) (c q : Nat) (f : Quarter → Quarter) : (s.modQuarter c q f).agenda = s.agenda := rfl
@[simp] theorem State.modQuarter_cur (s : State) (c q : Nat) (f : Quarter → Quarter) : (s.modQuarter c q f).cur = s.cur := rfl
@[simp] theorem State.modQuarter_upsets (s : State) (c q : Nat) (f : Quarter → Quarter) : (s.modQuarter c q f).upsets = s.upsets := rfl
@[simp] theorem State.modQuarter_mem (s : State) (c q : Nat) (f : Quarter → Quarter) : (s.modQuarter c q f).mem = s.mem := rfl
@[simp] theorem State.modQuarter_bb (s : State) (c q : Nat) (f : Quarter → Quarter) : (s.modQuarter c q f).bb = s.bb := rfl
@[simp] theorem State.modQuarter_copies (s : State) (c q : Nat) (f : Quarter → Quarter) : (s.modQuarter c q f).copies = s.copies := rfl
@[simp] theorem State.modQuarter_flights (s : State) (c q : Nat) (f : Quarter → Quarter) : (s.modQuarter c q f).flights = s.flights := rfl
@[simp] theorem State.modQuarter_glVeils (s : State) (c q : Nat) (f : Quarter → Quarter) : (s.modQuarter c q f).glVeils = s.glVeils := rfl
@[simp] theorem State.modQuarter_invals (s : State) (c q : Nat) (f : Quarter → Quarter) : (s.modQuarter c q f).invals = s.invals := rfl
@[simp] theorem State.modQuarter_hot (s : State) (c q : Nat) (f : Quarter → Quarter) : (s.modQuarter c q f).hot = s.hot := rfl
@[simp] theorem State.modQuarter_badMem (s : State) (c q : Nat) (f : Quarter → Quarter) : (s.modQuarter c q f).badMem = s.badMem := rfl
@[simp] theorem State.modQuarter_badBb (s : State) (c q : Nat) (f : Quarter → Quarter) : (s.modQuarter c q f).badBb = s.badBb := rfl
@[simp] theorem State.modQuarter_badPad (s : State) (c q : Nat) (f : Quarter → Quarter) : (s.modQuarter c q f).badPad = s.badPad := rfl
@[simp] theorem State.modQuarter_frames (s : State) (c q : Nat) (f : Quarter → Quarter) : (s.modQuarter c q f).frames = s.frames := rfl
@[simp] theorem State.modQuarter_dropNext (s : State) (c q : Nat) (f : Quarter → Quarter) : (s.modQuarter c q f).dropNext = s.dropNext := rfl
@[simp] theorem State.modQuarter_purges (s : State) (c q : Nat) (f : Quarter → Quarter) : (s.modQuarter c q f).purges = s.purges := rfl
@[simp] theorem State.modQuarter_passed (s : State) (c q : Nat) (f : Quarter → Quarter) : (s.modQuarter c q f).passed = s.passed := rfl
@[simp] theorem State.modQuarter_tlb (s : State) (c q : Nat) (f : Quarter → Quarter) : (s.modQuarter c q f).tlb = s.tlb := rfl
@[simp] theorem State.modQuarter_migs (s : State) (c q : Nat) (f : Quarter → Quarter) : (s.modQuarter c q f).migs = s.migs := rfl
@[simp] theorem State.modQuarter_spares (s : State) (c q : Nat) (f : Quarter → Quarter) : (s.modQuarter c q f).spares = s.spares := rfl
@[simp] theorem State.modQuarter_pending (s : State) (c q : Nat) (f : Quarter → Quarter) : (s.modQuarter c q f).pending = s.pending := rfl
@[simp] theorem State.modQuarter_gangs (s : State) (c q : Nat) (f : Quarter → Quarter) : (s.modQuarter c q f).gangs = s.gangs := rfl
@[simp] theorem State.modQuarter_dying (s : State) (c q : Nat) (f : Quarter → Quarter) : (s.modQuarter c q f).dying = s.dying := rfl
@[simp] theorem State.modQuarter_sealed (s : State) (c q : Nat) (f : Quarter → Quarter) : (s.modQuarter c q f).sealed = s.sealed := rfl
@[simp] theorem State.modQuarter_launches (s : State) (c q : Nat) (f : Quarter → Quarter) : (s.modQuarter c q f).launches = s.launches := rfl
@[simp] theorem State.modQuarter_queues (s : State) (c q : Nat) (f : Quarter → Quarter) : (s.modQuarter c q f).queues = s.queues := rfl
@[simp] theorem State.modQuarter_rrWorld (s : State) (c q : Nat) (f : Quarter → Quarter) : (s.modQuarter c q f).rrWorld = s.rrWorld := rfl
@[simp] theorem State.modQuarter_rrQueue (s : State) (c q : Nat) (f : Quarter → Quarter) : (s.modQuarter c q f).rrQueue = s.rrQueue := rfl
@[simp] theorem State.modQuarter_bib (s : State) (c q : Nat) (f : Quarter → Quarter) : (s.modQuarter c q f).bib = s.bib := rfl
@[simp] theorem State.modQuarter_opcur (s : State) (c q : Nat) (f : Quarter → Quarter) : (s.modQuarter c q f).opcur = s.opcur := rfl
@[simp] theorem State.modQuarter_opstep (s : State) (c q : Nat) (f : Quarter → Quarter) : (s.modQuarter c q f).opstep = s.opstep := rfl
@[simp] theorem State.modQuarter_clusters (s : State) (c q : Nat) (f : Quarter → Quarter) : (s.modQuarter c q f).clusters = s.clusters := rfl
@[simp] theorem State.modQuarter_poolCores (s : State) (c q : Nat) (f : Quarter → Quarter) : (s.modQuarter c q f).poolCores = s.poolCores := rfl
@[simp] theorem State.modQuarter_poolUnits (s : State) (c q : Nat) (f : Quarter → Quarter) : (s.modQuarter c q f).poolUnits = s.poolUnits := rfl
@[simp] theorem State.modQuarter_slicesBad (s : State) (c q : Nat) (f : Quarter → Quarter) : (s.modQuarter c q f).slicesBad = s.slicesBad := rfl
@[simp] theorem State.modQuarter_retiring (s : State) (c q : Nat) (f : Quarter → Quarter) : (s.modQuarter c q f).retiring = s.retiring := rfl
@[simp] theorem State.modQuarter_bridges (s : State) (c q : Nat) (f : Quarter → Quarter) : (s.modQuarter c q f).bridges = s.bridges := rfl
@[simp] theorem State.modQuarter_markers (s : State) (c q : Nat) (f : Quarter → Quarter) : (s.modQuarter c q f).markers = s.markers := rfl
@[simp] theorem State.modQuarter_hbm (s : State) (c q : Nat) (f : Quarter → Quarter) : (s.modQuarter c q f).hbm = s.hbm := rfl
@[simp] theorem State.modQuarter_quiesced (s : State) (c q : Nat) (f : Quarter → Quarter) : (s.modQuarter c q f).quiesced = s.quiesced := rfl
@[simp] theorem State.modQuarter_hardRepairs (s : State) (c q : Nat) (f : Quarter → Quarter) : (s.modQuarter c q f).hardRepairs = s.hardRepairs := rfl
@[simp] theorem State.modQuarter_rowSpares (s : State) (c q : Nat) (f : Quarter → Quarter) : (s.modQuarter c q f).rowSpares = s.rowSpares := rfl
@[simp] theorem State.modQuarter_burned (s : State) (c q : Nat) (f : Quarter → Quarter) : (s.modQuarter c q f).burned = s.burned := rfl
@[simp] theorem State.modQuarter_links (s : State) (c q : Nat) (f : Quarter → Quarter) : (s.modQuarter c q f).links = s.links := rfl
@[simp] theorem State.modQuarter_sendQs (s : State) (c q : Nat) (f : Quarter → Quarter) : (s.modQuarter c q f).sendQs = s.sendQs := rfl
@[simp] theorem State.modQuarter_recvQs (s : State) (c q : Nat) (f : Quarter → Quarter) : (s.modQuarter c q f).recvQs = s.recvQs := rfl
@[simp] theorem State.modQuarter_mgmt (s : State) (c q : Nat) (f : Quarter → Quarter) : (s.modQuarter c q f).mgmt = s.mgmt := rfl

/-! ### `State.modFrame` -/

@[simp] theorem State.modFrame_tick (s : State) (fn : Nat) (f : FrameE → FrameE) : (s.modFrame fn f).tick = s.tick := rfl
@[simp] theorem State.modFrame_nextId (s : State) (fn : Nat) (f : FrameE → FrameE) : (s.modFrame fn f).nextId = s.nextId := rfl
@[simp] theorem State.modFrame_agenda (s : State) (fn : Nat) (f : FrameE → FrameE) : (s.modFrame fn f).agenda = s.agenda := rfl
@[simp] theorem State.modFrame_cur (s : State) (fn : Nat) (f : FrameE → FrameE) : (s.modFrame fn f).cur = s.cur := rfl
@[simp] theorem State.modFrame_upsets (s : State) (fn : Nat) (f : FrameE → FrameE) : (s.modFrame fn f).upsets = s.upsets := rfl
@[simp] theorem State.modFrame_mem (s : State) (fn : Nat) (f : FrameE → FrameE) : (s.modFrame fn f).mem = s.mem := rfl
@[simp] theorem State.modFrame_bb (s : State) (fn : Nat) (f : FrameE → FrameE) : (s.modFrame fn f).bb = s.bb := rfl
@[simp] theorem State.modFrame_copies (s : State) (fn : Nat) (f : FrameE → FrameE) : (s.modFrame fn f).copies = s.copies := rfl
@[simp] theorem State.modFrame_flights (s : State) (fn : Nat) (f : FrameE → FrameE) : (s.modFrame fn f).flights = s.flights := rfl
@[simp] theorem State.modFrame_glVeils (s : State) (fn : Nat) (f : FrameE → FrameE) : (s.modFrame fn f).glVeils = s.glVeils := rfl
@[simp] theorem State.modFrame_invals (s : State) (fn : Nat) (f : FrameE → FrameE) : (s.modFrame fn f).invals = s.invals := rfl
@[simp] theorem State.modFrame_hot (s : State) (fn : Nat) (f : FrameE → FrameE) : (s.modFrame fn f).hot = s.hot := rfl
@[simp] theorem State.modFrame_badMem (s : State) (fn : Nat) (f : FrameE → FrameE) : (s.modFrame fn f).badMem = s.badMem := rfl
@[simp] theorem State.modFrame_badBb (s : State) (fn : Nat) (f : FrameE → FrameE) : (s.modFrame fn f).badBb = s.badBb := rfl
@[simp] theorem State.modFrame_badPad (s : State) (fn : Nat) (f : FrameE → FrameE) : (s.modFrame fn f).badPad = s.badPad := rfl
@[simp] theorem State.modFrame_dropNext (s : State) (fn : Nat) (f : FrameE → FrameE) : (s.modFrame fn f).dropNext = s.dropNext := rfl
@[simp] theorem State.modFrame_purges (s : State) (fn : Nat) (f : FrameE → FrameE) : (s.modFrame fn f).purges = s.purges := rfl
@[simp] theorem State.modFrame_passed (s : State) (fn : Nat) (f : FrameE → FrameE) : (s.modFrame fn f).passed = s.passed := rfl
@[simp] theorem State.modFrame_tlb (s : State) (fn : Nat) (f : FrameE → FrameE) : (s.modFrame fn f).tlb = s.tlb := rfl
@[simp] theorem State.modFrame_migs (s : State) (fn : Nat) (f : FrameE → FrameE) : (s.modFrame fn f).migs = s.migs := rfl
@[simp] theorem State.modFrame_spares (s : State) (fn : Nat) (f : FrameE → FrameE) : (s.modFrame fn f).spares = s.spares := rfl
@[simp] theorem State.modFrame_pending (s : State) (fn : Nat) (f : FrameE → FrameE) : (s.modFrame fn f).pending = s.pending := rfl
@[simp] theorem State.modFrame_gangs (s : State) (fn : Nat) (f : FrameE → FrameE) : (s.modFrame fn f).gangs = s.gangs := rfl
@[simp] theorem State.modFrame_dying (s : State) (fn : Nat) (f : FrameE → FrameE) : (s.modFrame fn f).dying = s.dying := rfl
@[simp] theorem State.modFrame_sealed (s : State) (fn : Nat) (f : FrameE → FrameE) : (s.modFrame fn f).sealed = s.sealed := rfl
@[simp] theorem State.modFrame_launches (s : State) (fn : Nat) (f : FrameE → FrameE) : (s.modFrame fn f).launches = s.launches := rfl
@[simp] theorem State.modFrame_queues (s : State) (fn : Nat) (f : FrameE → FrameE) : (s.modFrame fn f).queues = s.queues := rfl
@[simp] theorem State.modFrame_rrWorld (s : State) (fn : Nat) (f : FrameE → FrameE) : (s.modFrame fn f).rrWorld = s.rrWorld := rfl
@[simp] theorem State.modFrame_rrQueue (s : State) (fn : Nat) (f : FrameE → FrameE) : (s.modFrame fn f).rrQueue = s.rrQueue := rfl
@[simp] theorem State.modFrame_bib (s : State) (fn : Nat) (f : FrameE → FrameE) : (s.modFrame fn f).bib = s.bib := rfl
@[simp] theorem State.modFrame_opcur (s : State) (fn : Nat) (f : FrameE → FrameE) : (s.modFrame fn f).opcur = s.opcur := rfl
@[simp] theorem State.modFrame_opstep (s : State) (fn : Nat) (f : FrameE → FrameE) : (s.modFrame fn f).opstep = s.opstep := rfl
@[simp] theorem State.modFrame_clusters (s : State) (fn : Nat) (f : FrameE → FrameE) : (s.modFrame fn f).clusters = s.clusters := rfl
@[simp] theorem State.modFrame_poolCores (s : State) (fn : Nat) (f : FrameE → FrameE) : (s.modFrame fn f).poolCores = s.poolCores := rfl
@[simp] theorem State.modFrame_poolUnits (s : State) (fn : Nat) (f : FrameE → FrameE) : (s.modFrame fn f).poolUnits = s.poolUnits := rfl
@[simp] theorem State.modFrame_cores (s : State) (fn : Nat) (f : FrameE → FrameE) : (s.modFrame fn f).cores = s.cores := rfl
@[simp] theorem State.modFrame_slicesBad (s : State) (fn : Nat) (f : FrameE → FrameE) : (s.modFrame fn f).slicesBad = s.slicesBad := rfl
@[simp] theorem State.modFrame_retiring (s : State) (fn : Nat) (f : FrameE → FrameE) : (s.modFrame fn f).retiring = s.retiring := rfl
@[simp] theorem State.modFrame_bridges (s : State) (fn : Nat) (f : FrameE → FrameE) : (s.modFrame fn f).bridges = s.bridges := rfl
@[simp] theorem State.modFrame_markers (s : State) (fn : Nat) (f : FrameE → FrameE) : (s.modFrame fn f).markers = s.markers := rfl
@[simp] theorem State.modFrame_hbm (s : State) (fn : Nat) (f : FrameE → FrameE) : (s.modFrame fn f).hbm = s.hbm := rfl
@[simp] theorem State.modFrame_quiesced (s : State) (fn : Nat) (f : FrameE → FrameE) : (s.modFrame fn f).quiesced = s.quiesced := rfl
@[simp] theorem State.modFrame_hardRepairs (s : State) (fn : Nat) (f : FrameE → FrameE) : (s.modFrame fn f).hardRepairs = s.hardRepairs := rfl
@[simp] theorem State.modFrame_rowSpares (s : State) (fn : Nat) (f : FrameE → FrameE) : (s.modFrame fn f).rowSpares = s.rowSpares := rfl
@[simp] theorem State.modFrame_burned (s : State) (fn : Nat) (f : FrameE → FrameE) : (s.modFrame fn f).burned = s.burned := rfl
@[simp] theorem State.modFrame_links (s : State) (fn : Nat) (f : FrameE → FrameE) : (s.modFrame fn f).links = s.links := rfl
@[simp] theorem State.modFrame_sendQs (s : State) (fn : Nat) (f : FrameE → FrameE) : (s.modFrame fn f).sendQs = s.sendQs := rfl
@[simp] theorem State.modFrame_recvQs (s : State) (fn : Nat) (f : FrameE → FrameE) : (s.modFrame fn f).recvQs = s.recvQs := rfl
@[simp] theorem State.modFrame_mgmt (s : State) (fn : Nat) (f : FrameE → FrameE) : (s.modFrame fn f).mgmt = s.mgmt := rfl

/-! ### `State.modStack` -/

@[simp] theorem State.modStack_tick (s : State) (k : Nat) (f : Stack → Stack) : (s.modStack k f).tick = s.tick := rfl
@[simp] theorem State.modStack_nextId (s : State) (k : Nat) (f : Stack → Stack) : (s.modStack k f).nextId = s.nextId := rfl
@[simp] theorem State.modStack_agenda (s : State) (k : Nat) (f : Stack → Stack) : (s.modStack k f).agenda = s.agenda := rfl
@[simp] theorem State.modStack_cur (s : State) (k : Nat) (f : Stack → Stack) : (s.modStack k f).cur = s.cur := rfl
@[simp] theorem State.modStack_upsets (s : State) (k : Nat) (f : Stack → Stack) : (s.modStack k f).upsets = s.upsets := rfl
@[simp] theorem State.modStack_mem (s : State) (k : Nat) (f : Stack → Stack) : (s.modStack k f).mem = s.mem := rfl
@[simp] theorem State.modStack_bb (s : State) (k : Nat) (f : Stack → Stack) : (s.modStack k f).bb = s.bb := rfl
@[simp] theorem State.modStack_copies (s : State) (k : Nat) (f : Stack → Stack) : (s.modStack k f).copies = s.copies := rfl
@[simp] theorem State.modStack_flights (s : State) (k : Nat) (f : Stack → Stack) : (s.modStack k f).flights = s.flights := rfl
@[simp] theorem State.modStack_glVeils (s : State) (k : Nat) (f : Stack → Stack) : (s.modStack k f).glVeils = s.glVeils := rfl
@[simp] theorem State.modStack_invals (s : State) (k : Nat) (f : Stack → Stack) : (s.modStack k f).invals = s.invals := rfl
@[simp] theorem State.modStack_hot (s : State) (k : Nat) (f : Stack → Stack) : (s.modStack k f).hot = s.hot := rfl
@[simp] theorem State.modStack_badMem (s : State) (k : Nat) (f : Stack → Stack) : (s.modStack k f).badMem = s.badMem := rfl
@[simp] theorem State.modStack_badBb (s : State) (k : Nat) (f : Stack → Stack) : (s.modStack k f).badBb = s.badBb := rfl
@[simp] theorem State.modStack_badPad (s : State) (k : Nat) (f : Stack → Stack) : (s.modStack k f).badPad = s.badPad := rfl
@[simp] theorem State.modStack_frames (s : State) (k : Nat) (f : Stack → Stack) : (s.modStack k f).frames = s.frames := rfl
@[simp] theorem State.modStack_dropNext (s : State) (k : Nat) (f : Stack → Stack) : (s.modStack k f).dropNext = s.dropNext := rfl
@[simp] theorem State.modStack_purges (s : State) (k : Nat) (f : Stack → Stack) : (s.modStack k f).purges = s.purges := rfl
@[simp] theorem State.modStack_passed (s : State) (k : Nat) (f : Stack → Stack) : (s.modStack k f).passed = s.passed := rfl
@[simp] theorem State.modStack_tlb (s : State) (k : Nat) (f : Stack → Stack) : (s.modStack k f).tlb = s.tlb := rfl
@[simp] theorem State.modStack_migs (s : State) (k : Nat) (f : Stack → Stack) : (s.modStack k f).migs = s.migs := rfl
@[simp] theorem State.modStack_spares (s : State) (k : Nat) (f : Stack → Stack) : (s.modStack k f).spares = s.spares := rfl
@[simp] theorem State.modStack_pending (s : State) (k : Nat) (f : Stack → Stack) : (s.modStack k f).pending = s.pending := rfl
@[simp] theorem State.modStack_gangs (s : State) (k : Nat) (f : Stack → Stack) : (s.modStack k f).gangs = s.gangs := rfl
@[simp] theorem State.modStack_dying (s : State) (k : Nat) (f : Stack → Stack) : (s.modStack k f).dying = s.dying := rfl
@[simp] theorem State.modStack_sealed (s : State) (k : Nat) (f : Stack → Stack) : (s.modStack k f).sealed = s.sealed := rfl
@[simp] theorem State.modStack_launches (s : State) (k : Nat) (f : Stack → Stack) : (s.modStack k f).launches = s.launches := rfl
@[simp] theorem State.modStack_queues (s : State) (k : Nat) (f : Stack → Stack) : (s.modStack k f).queues = s.queues := rfl
@[simp] theorem State.modStack_rrWorld (s : State) (k : Nat) (f : Stack → Stack) : (s.modStack k f).rrWorld = s.rrWorld := rfl
@[simp] theorem State.modStack_rrQueue (s : State) (k : Nat) (f : Stack → Stack) : (s.modStack k f).rrQueue = s.rrQueue := rfl
@[simp] theorem State.modStack_bib (s : State) (k : Nat) (f : Stack → Stack) : (s.modStack k f).bib = s.bib := rfl
@[simp] theorem State.modStack_opcur (s : State) (k : Nat) (f : Stack → Stack) : (s.modStack k f).opcur = s.opcur := rfl
@[simp] theorem State.modStack_opstep (s : State) (k : Nat) (f : Stack → Stack) : (s.modStack k f).opstep = s.opstep := rfl
@[simp] theorem State.modStack_clusters (s : State) (k : Nat) (f : Stack → Stack) : (s.modStack k f).clusters = s.clusters := rfl
@[simp] theorem State.modStack_poolCores (s : State) (k : Nat) (f : Stack → Stack) : (s.modStack k f).poolCores = s.poolCores := rfl
@[simp] theorem State.modStack_poolUnits (s : State) (k : Nat) (f : Stack → Stack) : (s.modStack k f).poolUnits = s.poolUnits := rfl
@[simp] theorem State.modStack_cores (s : State) (k : Nat) (f : Stack → Stack) : (s.modStack k f).cores = s.cores := rfl
@[simp] theorem State.modStack_slicesBad (s : State) (k : Nat) (f : Stack → Stack) : (s.modStack k f).slicesBad = s.slicesBad := rfl
@[simp] theorem State.modStack_retiring (s : State) (k : Nat) (f : Stack → Stack) : (s.modStack k f).retiring = s.retiring := rfl
@[simp] theorem State.modStack_bridges (s : State) (k : Nat) (f : Stack → Stack) : (s.modStack k f).bridges = s.bridges := rfl
@[simp] theorem State.modStack_markers (s : State) (k : Nat) (f : Stack → Stack) : (s.modStack k f).markers = s.markers := rfl
@[simp] theorem State.modStack_quiesced (s : State) (k : Nat) (f : Stack → Stack) : (s.modStack k f).quiesced = s.quiesced := rfl
@[simp] theorem State.modStack_hardRepairs (s : State) (k : Nat) (f : Stack → Stack) : (s.modStack k f).hardRepairs = s.hardRepairs := rfl
@[simp] theorem State.modStack_rowSpares (s : State) (k : Nat) (f : Stack → Stack) : (s.modStack k f).rowSpares = s.rowSpares := rfl
@[simp] theorem State.modStack_burned (s : State) (k : Nat) (f : Stack → Stack) : (s.modStack k f).burned = s.burned := rfl
@[simp] theorem State.modStack_links (s : State) (k : Nat) (f : Stack → Stack) : (s.modStack k f).links = s.links := rfl
@[simp] theorem State.modStack_sendQs (s : State) (k : Nat) (f : Stack → Stack) : (s.modStack k f).sendQs = s.sendQs := rfl
@[simp] theorem State.modStack_recvQs (s : State) (k : Nat) (f : Stack → Stack) : (s.modStack k f).recvQs = s.recvQs := rfl
@[simp] theorem State.modStack_mgmt (s : State) (k : Nat) (f : Stack → Stack) : (s.modStack k f).mgmt = s.mgmt := rfl

/-! ### `State.modLink` -/

@[simp] theorem State.modLink_tick (s : State) (d : Nat) (f : Link → Link) : (s.modLink d f).tick = s.tick := rfl
@[simp] theorem State.modLink_nextId (s : State) (d : Nat) (f : Link → Link) : (s.modLink d f).nextId = s.nextId := rfl
@[simp] theorem State.modLink_agenda (s : State) (d : Nat) (f : Link → Link) : (s.modLink d f).agenda = s.agenda := rfl
@[simp] theorem State.modLink_cur (s : State) (d : Nat) (f : Link → Link) : (s.modLink d f).cur = s.cur := rfl
@[simp] theorem State.modLink_upsets (s : State) (d : Nat) (f : Link → Link) : (s.modLink d f).upsets = s.upsets := rfl
@[simp] theorem State.modLink_mem (s : State) (d : Nat) (f : Link → Link) : (s.modLink d f).mem = s.mem := rfl
@[simp] theorem State.modLink_bb (s : State) (d : Nat) (f : Link → Link) : (s.modLink d f).bb = s.bb := rfl
@[simp] theorem State.modLink_copies (s : State) (d : Nat) (f : Link → Link) : (s.modLink d f).copies = s.copies := rfl
@[simp] theorem State.modLink_flights (s : State) (d : Nat) (f : Link → Link) : (s.modLink d f).flights = s.flights := rfl
@[simp] theorem State.modLink_glVeils (s : State) (d : Nat) (f : Link → Link) : (s.modLink d f).glVeils = s.glVeils := rfl
@[simp] theorem State.modLink_invals (s : State) (d : Nat) (f : Link → Link) : (s.modLink d f).invals = s.invals := rfl
@[simp] theorem State.modLink_hot (s : State) (d : Nat) (f : Link → Link) : (s.modLink d f).hot = s.hot := rfl
@[simp] theorem State.modLink_badMem (s : State) (d : Nat) (f : Link → Link) : (s.modLink d f).badMem = s.badMem := rfl
@[simp] theorem State.modLink_badBb (s : State) (d : Nat) (f : Link → Link) : (s.modLink d f).badBb = s.badBb := rfl
@[simp] theorem State.modLink_badPad (s : State) (d : Nat) (f : Link → Link) : (s.modLink d f).badPad = s.badPad := rfl
@[simp] theorem State.modLink_frames (s : State) (d : Nat) (f : Link → Link) : (s.modLink d f).frames = s.frames := rfl
@[simp] theorem State.modLink_dropNext (s : State) (d : Nat) (f : Link → Link) : (s.modLink d f).dropNext = s.dropNext := rfl
@[simp] theorem State.modLink_purges (s : State) (d : Nat) (f : Link → Link) : (s.modLink d f).purges = s.purges := rfl
@[simp] theorem State.modLink_passed (s : State) (d : Nat) (f : Link → Link) : (s.modLink d f).passed = s.passed := rfl
@[simp] theorem State.modLink_tlb (s : State) (d : Nat) (f : Link → Link) : (s.modLink d f).tlb = s.tlb := rfl
@[simp] theorem State.modLink_migs (s : State) (d : Nat) (f : Link → Link) : (s.modLink d f).migs = s.migs := rfl
@[simp] theorem State.modLink_spares (s : State) (d : Nat) (f : Link → Link) : (s.modLink d f).spares = s.spares := rfl
@[simp] theorem State.modLink_pending (s : State) (d : Nat) (f : Link → Link) : (s.modLink d f).pending = s.pending := rfl
@[simp] theorem State.modLink_gangs (s : State) (d : Nat) (f : Link → Link) : (s.modLink d f).gangs = s.gangs := rfl
@[simp] theorem State.modLink_dying (s : State) (d : Nat) (f : Link → Link) : (s.modLink d f).dying = s.dying := rfl
@[simp] theorem State.modLink_sealed (s : State) (d : Nat) (f : Link → Link) : (s.modLink d f).sealed = s.sealed := rfl
@[simp] theorem State.modLink_launches (s : State) (d : Nat) (f : Link → Link) : (s.modLink d f).launches = s.launches := rfl
@[simp] theorem State.modLink_queues (s : State) (d : Nat) (f : Link → Link) : (s.modLink d f).queues = s.queues := rfl
@[simp] theorem State.modLink_rrWorld (s : State) (d : Nat) (f : Link → Link) : (s.modLink d f).rrWorld = s.rrWorld := rfl
@[simp] theorem State.modLink_rrQueue (s : State) (d : Nat) (f : Link → Link) : (s.modLink d f).rrQueue = s.rrQueue := rfl
@[simp] theorem State.modLink_bib (s : State) (d : Nat) (f : Link → Link) : (s.modLink d f).bib = s.bib := rfl
@[simp] theorem State.modLink_opcur (s : State) (d : Nat) (f : Link → Link) : (s.modLink d f).opcur = s.opcur := rfl
@[simp] theorem State.modLink_opstep (s : State) (d : Nat) (f : Link → Link) : (s.modLink d f).opstep = s.opstep := rfl
@[simp] theorem State.modLink_clusters (s : State) (d : Nat) (f : Link → Link) : (s.modLink d f).clusters = s.clusters := rfl
@[simp] theorem State.modLink_poolCores (s : State) (d : Nat) (f : Link → Link) : (s.modLink d f).poolCores = s.poolCores := rfl
@[simp] theorem State.modLink_poolUnits (s : State) (d : Nat) (f : Link → Link) : (s.modLink d f).poolUnits = s.poolUnits := rfl
@[simp] theorem State.modLink_cores (s : State) (d : Nat) (f : Link → Link) : (s.modLink d f).cores = s.cores := rfl
@[simp] theorem State.modLink_slicesBad (s : State) (d : Nat) (f : Link → Link) : (s.modLink d f).slicesBad = s.slicesBad := rfl
@[simp] theorem State.modLink_retiring (s : State) (d : Nat) (f : Link → Link) : (s.modLink d f).retiring = s.retiring := rfl
@[simp] theorem State.modLink_bridges (s : State) (d : Nat) (f : Link → Link) : (s.modLink d f).bridges = s.bridges := rfl
@[simp] theorem State.modLink_markers (s : State) (d : Nat) (f : Link → Link) : (s.modLink d f).markers = s.markers := rfl
@[simp] theorem State.modLink_hbm (s : State) (d : Nat) (f : Link → Link) : (s.modLink d f).hbm = s.hbm := rfl
@[simp] theorem State.modLink_quiesced (s : State) (d : Nat) (f : Link → Link) : (s.modLink d f).quiesced = s.quiesced := rfl
@[simp] theorem State.modLink_hardRepairs (s : State) (d : Nat) (f : Link → Link) : (s.modLink d f).hardRepairs = s.hardRepairs := rfl
@[simp] theorem State.modLink_rowSpares (s : State) (d : Nat) (f : Link → Link) : (s.modLink d f).rowSpares = s.rowSpares := rfl
@[simp] theorem State.modLink_burned (s : State) (d : Nat) (f : Link → Link) : (s.modLink d f).burned = s.burned := rfl
@[simp] theorem State.modLink_sendQs (s : State) (d : Nat) (f : Link → Link) : (s.modLink d f).sendQs = s.sendQs := rfl
@[simp] theorem State.modLink_recvQs (s : State) (d : Nat) (f : Link → Link) : (s.modLink d f).recvQs = s.recvQs := rfl
@[simp] theorem State.modLink_mgmt (s : State) (d : Nat) (f : Link → Link) : (s.modLink d f).mgmt = s.mgmt := rfl

/-! ### `State.modLaunch` -/

@[simp] theorem State.modLaunch_tick (s : State) (lid : Nat) (f : Launch → Launch) : (s.modLaunch lid f).tick = s.tick := rfl
@[simp] theorem State.modLaunch_nextId (s : State) (lid : Nat) (f : Launch → Launch) : (s.modLaunch lid f).nextId = s.nextId := rfl
@[simp] theorem State.modLaunch_agenda (s : State) (lid : Nat) (f : Launch → Launch) : (s.modLaunch lid f).agenda = s.agenda := rfl
@[simp] theorem State.modLaunch_cur (s : State) (lid : Nat) (f : Launch → Launch) : (s.modLaunch lid f).cur = s.cur := rfl
@[simp] theorem State.modLaunch_upsets (s : State) (lid : Nat) (f : Launch → Launch) : (s.modLaunch lid f).upsets = s.upsets := rfl
@[simp] theorem State.modLaunch_mem (s : State) (lid : Nat) (f : Launch → Launch) : (s.modLaunch lid f).mem = s.mem := rfl
@[simp] theorem State.modLaunch_bb (s : State) (lid : Nat) (f : Launch → Launch) : (s.modLaunch lid f).bb = s.bb := rfl
@[simp] theorem State.modLaunch_copies (s : State) (lid : Nat) (f : Launch → Launch) : (s.modLaunch lid f).copies = s.copies := rfl
@[simp] theorem State.modLaunch_flights (s : State) (lid : Nat) (f : Launch → Launch) : (s.modLaunch lid f).flights = s.flights := rfl
@[simp] theorem State.modLaunch_glVeils (s : State) (lid : Nat) (f : Launch → Launch) : (s.modLaunch lid f).glVeils = s.glVeils := rfl
@[simp] theorem State.modLaunch_invals (s : State) (lid : Nat) (f : Launch → Launch) : (s.modLaunch lid f).invals = s.invals := rfl
@[simp] theorem State.modLaunch_hot (s : State) (lid : Nat) (f : Launch → Launch) : (s.modLaunch lid f).hot = s.hot := rfl
@[simp] theorem State.modLaunch_badMem (s : State) (lid : Nat) (f : Launch → Launch) : (s.modLaunch lid f).badMem = s.badMem := rfl
@[simp] theorem State.modLaunch_badBb (s : State) (lid : Nat) (f : Launch → Launch) : (s.modLaunch lid f).badBb = s.badBb := rfl
@[simp] theorem State.modLaunch_badPad (s : State) (lid : Nat) (f : Launch → Launch) : (s.modLaunch lid f).badPad = s.badPad := rfl
@[simp] theorem State.modLaunch_frames (s : State) (lid : Nat) (f : Launch → Launch) : (s.modLaunch lid f).frames = s.frames := rfl
@[simp] theorem State.modLaunch_dropNext (s : State) (lid : Nat) (f : Launch → Launch) : (s.modLaunch lid f).dropNext = s.dropNext := rfl
@[simp] theorem State.modLaunch_purges (s : State) (lid : Nat) (f : Launch → Launch) : (s.modLaunch lid f).purges = s.purges := rfl
@[simp] theorem State.modLaunch_passed (s : State) (lid : Nat) (f : Launch → Launch) : (s.modLaunch lid f).passed = s.passed := rfl
@[simp] theorem State.modLaunch_tlb (s : State) (lid : Nat) (f : Launch → Launch) : (s.modLaunch lid f).tlb = s.tlb := rfl
@[simp] theorem State.modLaunch_migs (s : State) (lid : Nat) (f : Launch → Launch) : (s.modLaunch lid f).migs = s.migs := rfl
@[simp] theorem State.modLaunch_spares (s : State) (lid : Nat) (f : Launch → Launch) : (s.modLaunch lid f).spares = s.spares := rfl
@[simp] theorem State.modLaunch_pending (s : State) (lid : Nat) (f : Launch → Launch) : (s.modLaunch lid f).pending = s.pending := rfl
@[simp] theorem State.modLaunch_gangs (s : State) (lid : Nat) (f : Launch → Launch) : (s.modLaunch lid f).gangs = s.gangs := rfl
@[simp] theorem State.modLaunch_dying (s : State) (lid : Nat) (f : Launch → Launch) : (s.modLaunch lid f).dying = s.dying := rfl
@[simp] theorem State.modLaunch_sealed (s : State) (lid : Nat) (f : Launch → Launch) : (s.modLaunch lid f).sealed = s.sealed := rfl
@[simp] theorem State.modLaunch_queues (s : State) (lid : Nat) (f : Launch → Launch) : (s.modLaunch lid f).queues = s.queues := rfl
@[simp] theorem State.modLaunch_rrWorld (s : State) (lid : Nat) (f : Launch → Launch) : (s.modLaunch lid f).rrWorld = s.rrWorld := rfl
@[simp] theorem State.modLaunch_rrQueue (s : State) (lid : Nat) (f : Launch → Launch) : (s.modLaunch lid f).rrQueue = s.rrQueue := rfl
@[simp] theorem State.modLaunch_bib (s : State) (lid : Nat) (f : Launch → Launch) : (s.modLaunch lid f).bib = s.bib := rfl
@[simp] theorem State.modLaunch_opcur (s : State) (lid : Nat) (f : Launch → Launch) : (s.modLaunch lid f).opcur = s.opcur := rfl
@[simp] theorem State.modLaunch_opstep (s : State) (lid : Nat) (f : Launch → Launch) : (s.modLaunch lid f).opstep = s.opstep := rfl
@[simp] theorem State.modLaunch_clusters (s : State) (lid : Nat) (f : Launch → Launch) : (s.modLaunch lid f).clusters = s.clusters := rfl
@[simp] theorem State.modLaunch_poolCores (s : State) (lid : Nat) (f : Launch → Launch) : (s.modLaunch lid f).poolCores = s.poolCores := rfl
@[simp] theorem State.modLaunch_poolUnits (s : State) (lid : Nat) (f : Launch → Launch) : (s.modLaunch lid f).poolUnits = s.poolUnits := rfl
@[simp] theorem State.modLaunch_cores (s : State) (lid : Nat) (f : Launch → Launch) : (s.modLaunch lid f).cores = s.cores := rfl
@[simp] theorem State.modLaunch_slicesBad (s : State) (lid : Nat) (f : Launch → Launch) : (s.modLaunch lid f).slicesBad = s.slicesBad := rfl
@[simp] theorem State.modLaunch_retiring (s : State) (lid : Nat) (f : Launch → Launch) : (s.modLaunch lid f).retiring = s.retiring := rfl
@[simp] theorem State.modLaunch_bridges (s : State) (lid : Nat) (f : Launch → Launch) : (s.modLaunch lid f).bridges = s.bridges := rfl
@[simp] theorem State.modLaunch_markers (s : State) (lid : Nat) (f : Launch → Launch) : (s.modLaunch lid f).markers = s.markers := rfl
@[simp] theorem State.modLaunch_hbm (s : State) (lid : Nat) (f : Launch → Launch) : (s.modLaunch lid f).hbm = s.hbm := rfl
@[simp] theorem State.modLaunch_quiesced (s : State) (lid : Nat) (f : Launch → Launch) : (s.modLaunch lid f).quiesced = s.quiesced := rfl
@[simp] theorem State.modLaunch_hardRepairs (s : State) (lid : Nat) (f : Launch → Launch) : (s.modLaunch lid f).hardRepairs = s.hardRepairs := rfl
@[simp] theorem State.modLaunch_rowSpares (s : State) (lid : Nat) (f : Launch → Launch) : (s.modLaunch lid f).rowSpares = s.rowSpares := rfl
@[simp] theorem State.modLaunch_burned (s : State) (lid : Nat) (f : Launch → Launch) : (s.modLaunch lid f).burned = s.burned := rfl
@[simp] theorem State.modLaunch_links (s : State) (lid : Nat) (f : Launch → Launch) : (s.modLaunch lid f).links = s.links := rfl
@[simp] theorem State.modLaunch_sendQs (s : State) (lid : Nat) (f : Launch → Launch) : (s.modLaunch lid f).sendQs = s.sendQs := rfl
@[simp] theorem State.modLaunch_recvQs (s : State) (lid : Nat) (f : Launch → Launch) : (s.modLaunch lid f).recvQs = s.recvQs := rfl
@[simp] theorem State.modLaunch_mgmt (s : State) (lid : Nat) (f : Launch → Launch) : (s.modLaunch lid f).mgmt = s.mgmt := rfl

/-! ### `State.modFlight` -/

@[simp] theorem State.modFlight_tick (s : State) (id : Nat) (f : Flight → Flight) : (s.modFlight id f).tick = s.tick := rfl
@[simp] theorem State.modFlight_nextId (s : State) (id : Nat) (f : Flight → Flight) : (s.modFlight id f).nextId = s.nextId := rfl
@[simp] theorem State.modFlight_agenda (s : State) (id : Nat) (f : Flight → Flight) : (s.modFlight id f).agenda = s.agenda := rfl
@[simp] theorem State.modFlight_cur (s : State) (id : Nat) (f : Flight → Flight) : (s.modFlight id f).cur = s.cur := rfl
@[simp] theorem State.modFlight_upsets (s : State) (id : Nat) (f : Flight → Flight) : (s.modFlight id f).upsets = s.upsets := rfl
@[simp] theorem State.modFlight_mem (s : State) (id : Nat) (f : Flight → Flight) : (s.modFlight id f).mem = s.mem := rfl
@[simp] theorem State.modFlight_bb (s : State) (id : Nat) (f : Flight → Flight) : (s.modFlight id f).bb = s.bb := rfl
@[simp] theorem State.modFlight_copies (s : State) (id : Nat) (f : Flight → Flight) : (s.modFlight id f).copies = s.copies := rfl
@[simp] theorem State.modFlight_glVeils (s : State) (id : Nat) (f : Flight → Flight) : (s.modFlight id f).glVeils = s.glVeils := rfl
@[simp] theorem State.modFlight_invals (s : State) (id : Nat) (f : Flight → Flight) : (s.modFlight id f).invals = s.invals := rfl
@[simp] theorem State.modFlight_hot (s : State) (id : Nat) (f : Flight → Flight) : (s.modFlight id f).hot = s.hot := rfl
@[simp] theorem State.modFlight_badMem (s : State) (id : Nat) (f : Flight → Flight) : (s.modFlight id f).badMem = s.badMem := rfl
@[simp] theorem State.modFlight_badBb (s : State) (id : Nat) (f : Flight → Flight) : (s.modFlight id f).badBb = s.badBb := rfl
@[simp] theorem State.modFlight_badPad (s : State) (id : Nat) (f : Flight → Flight) : (s.modFlight id f).badPad = s.badPad := rfl
@[simp] theorem State.modFlight_frames (s : State) (id : Nat) (f : Flight → Flight) : (s.modFlight id f).frames = s.frames := rfl
@[simp] theorem State.modFlight_dropNext (s : State) (id : Nat) (f : Flight → Flight) : (s.modFlight id f).dropNext = s.dropNext := rfl
@[simp] theorem State.modFlight_purges (s : State) (id : Nat) (f : Flight → Flight) : (s.modFlight id f).purges = s.purges := rfl
@[simp] theorem State.modFlight_passed (s : State) (id : Nat) (f : Flight → Flight) : (s.modFlight id f).passed = s.passed := rfl
@[simp] theorem State.modFlight_tlb (s : State) (id : Nat) (f : Flight → Flight) : (s.modFlight id f).tlb = s.tlb := rfl
@[simp] theorem State.modFlight_migs (s : State) (id : Nat) (f : Flight → Flight) : (s.modFlight id f).migs = s.migs := rfl
@[simp] theorem State.modFlight_spares (s : State) (id : Nat) (f : Flight → Flight) : (s.modFlight id f).spares = s.spares := rfl
@[simp] theorem State.modFlight_pending (s : State) (id : Nat) (f : Flight → Flight) : (s.modFlight id f).pending = s.pending := rfl
@[simp] theorem State.modFlight_gangs (s : State) (id : Nat) (f : Flight → Flight) : (s.modFlight id f).gangs = s.gangs := rfl
@[simp] theorem State.modFlight_dying (s : State) (id : Nat) (f : Flight → Flight) : (s.modFlight id f).dying = s.dying := rfl
@[simp] theorem State.modFlight_sealed (s : State) (id : Nat) (f : Flight → Flight) : (s.modFlight id f).sealed = s.sealed := rfl
@[simp] theorem State.modFlight_launches (s : State) (id : Nat) (f : Flight → Flight) : (s.modFlight id f).launches = s.launches := rfl
@[simp] theorem State.modFlight_queues (s : State) (id : Nat) (f : Flight → Flight) : (s.modFlight id f).queues = s.queues := rfl
@[simp] theorem State.modFlight_rrWorld (s : State) (id : Nat) (f : Flight → Flight) : (s.modFlight id f).rrWorld = s.rrWorld := rfl
@[simp] theorem State.modFlight_rrQueue (s : State) (id : Nat) (f : Flight → Flight) : (s.modFlight id f).rrQueue = s.rrQueue := rfl
@[simp] theorem State.modFlight_bib (s : State) (id : Nat) (f : Flight → Flight) : (s.modFlight id f).bib = s.bib := rfl
@[simp] theorem State.modFlight_opcur (s : State) (id : Nat) (f : Flight → Flight) : (s.modFlight id f).opcur = s.opcur := rfl
@[simp] theorem State.modFlight_opstep (s : State) (id : Nat) (f : Flight → Flight) : (s.modFlight id f).opstep = s.opstep := rfl
@[simp] theorem State.modFlight_clusters (s : State) (id : Nat) (f : Flight → Flight) : (s.modFlight id f).clusters = s.clusters := rfl
@[simp] theorem State.modFlight_poolCores (s : State) (id : Nat) (f : Flight → Flight) : (s.modFlight id f).poolCores = s.poolCores := rfl
@[simp] theorem State.modFlight_poolUnits (s : State) (id : Nat) (f : Flight → Flight) : (s.modFlight id f).poolUnits = s.poolUnits := rfl
@[simp] theorem State.modFlight_cores (s : State) (id : Nat) (f : Flight → Flight) : (s.modFlight id f).cores = s.cores := rfl
@[simp] theorem State.modFlight_slicesBad (s : State) (id : Nat) (f : Flight → Flight) : (s.modFlight id f).slicesBad = s.slicesBad := rfl
@[simp] theorem State.modFlight_retiring (s : State) (id : Nat) (f : Flight → Flight) : (s.modFlight id f).retiring = s.retiring := rfl
@[simp] theorem State.modFlight_bridges (s : State) (id : Nat) (f : Flight → Flight) : (s.modFlight id f).bridges = s.bridges := rfl
@[simp] theorem State.modFlight_markers (s : State) (id : Nat) (f : Flight → Flight) : (s.modFlight id f).markers = s.markers := rfl
@[simp] theorem State.modFlight_hbm (s : State) (id : Nat) (f : Flight → Flight) : (s.modFlight id f).hbm = s.hbm := rfl
@[simp] theorem State.modFlight_quiesced (s : State) (id : Nat) (f : Flight → Flight) : (s.modFlight id f).quiesced = s.quiesced := rfl
@[simp] theorem State.modFlight_hardRepairs (s : State) (id : Nat) (f : Flight → Flight) : (s.modFlight id f).hardRepairs = s.hardRepairs := rfl
@[simp] theorem State.modFlight_rowSpares (s : State) (id : Nat) (f : Flight → Flight) : (s.modFlight id f).rowSpares = s.rowSpares := rfl
@[simp] theorem State.modFlight_burned (s : State) (id : Nat) (f : Flight → Flight) : (s.modFlight id f).burned = s.burned := rfl
@[simp] theorem State.modFlight_links (s : State) (id : Nat) (f : Flight → Flight) : (s.modFlight id f).links = s.links := rfl
@[simp] theorem State.modFlight_sendQs (s : State) (id : Nat) (f : Flight → Flight) : (s.modFlight id f).sendQs = s.sendQs := rfl
@[simp] theorem State.modFlight_recvQs (s : State) (id : Nat) (f : Flight → Flight) : (s.modFlight id f).recvQs = s.recvQs := rfl
@[simp] theorem State.modFlight_mgmt (s : State) (id : Nat) (f : Flight → Flight) : (s.modFlight id f).mgmt = s.mgmt := rfl

/-! ### `State.dropFlight` -/

@[simp] theorem State.dropFlight_tick (s : State) (id : Nat) : (s.dropFlight id).tick = s.tick := rfl
@[simp] theorem State.dropFlight_nextId (s : State) (id : Nat) : (s.dropFlight id).nextId = s.nextId := rfl
@[simp] theorem State.dropFlight_agenda (s : State) (id : Nat) : (s.dropFlight id).agenda = s.agenda := rfl
@[simp] theorem State.dropFlight_cur (s : State) (id : Nat) : (s.dropFlight id).cur = s.cur := rfl
@[simp] theorem State.dropFlight_upsets (s : State) (id : Nat) : (s.dropFlight id).upsets = s.upsets := rfl
@[simp] theorem State.dropFlight_mem (s : State) (id : Nat) : (s.dropFlight id).mem = s.mem := rfl
@[simp] theorem State.dropFlight_bb (s : State) (id : Nat) : (s.dropFlight id).bb = s.bb := rfl
@[simp] theorem State.dropFlight_copies (s : State) (id : Nat) : (s.dropFlight id).copies = s.copies := rfl
@[simp] theorem State.dropFlight_glVeils (s : State) (id : Nat) : (s.dropFlight id).glVeils = s.glVeils := rfl
@[simp] theorem State.dropFlight_invals (s : State) (id : Nat) : (s.dropFlight id).invals = s.invals := rfl
@[simp] theorem State.dropFlight_hot (s : State) (id : Nat) : (s.dropFlight id).hot = s.hot := rfl
@[simp] theorem State.dropFlight_badMem (s : State) (id : Nat) : (s.dropFlight id).badMem = s.badMem := rfl
@[simp] theorem State.dropFlight_badBb (s : State) (id : Nat) : (s.dropFlight id).badBb = s.badBb := rfl
@[simp] theorem State.dropFlight_badPad (s : State) (id : Nat) : (s.dropFlight id).badPad = s.badPad := rfl
@[simp] theorem State.dropFlight_frames (s : State) (id : Nat) : (s.dropFlight id).frames = s.frames := rfl
@[simp] theorem State.dropFlight_dropNext (s : State) (id : Nat) : (s.dropFlight id).dropNext = s.dropNext := rfl
@[simp] theorem State.dropFlight_purges (s : State) (id : Nat) : (s.dropFlight id).purges = s.purges := rfl
@[simp] theorem State.dropFlight_passed (s : State) (id : Nat) : (s.dropFlight id).passed = s.passed := rfl
@[simp] theorem State.dropFlight_tlb (s : State) (id : Nat) : (s.dropFlight id).tlb = s.tlb := rfl
@[simp] theorem State.dropFlight_migs (s : State) (id : Nat) : (s.dropFlight id).migs = s.migs := rfl
@[simp] theorem State.dropFlight_spares (s : State) (id : Nat) : (s.dropFlight id).spares = s.spares := rfl
@[simp] theorem State.dropFlight_pending (s : State) (id : Nat) : (s.dropFlight id).pending = s.pending := rfl
@[simp] theorem State.dropFlight_gangs (s : State) (id : Nat) : (s.dropFlight id).gangs = s.gangs := rfl
@[simp] theorem State.dropFlight_dying (s : State) (id : Nat) : (s.dropFlight id).dying = s.dying := rfl
@[simp] theorem State.dropFlight_sealed (s : State) (id : Nat) : (s.dropFlight id).sealed = s.sealed := rfl
@[simp] theorem State.dropFlight_launches (s : State) (id : Nat) : (s.dropFlight id).launches = s.launches := rfl
@[simp] theorem State.dropFlight_queues (s : State) (id : Nat) : (s.dropFlight id).queues = s.queues := rfl
@[simp] theorem State.dropFlight_rrWorld (s : State) (id : Nat) : (s.dropFlight id).rrWorld = s.rrWorld := rfl
@[simp] theorem State.dropFlight_rrQueue (s : State) (id : Nat) : (s.dropFlight id).rrQueue = s.rrQueue := rfl
@[simp] theorem State.dropFlight_bib (s : State) (id : Nat) : (s.dropFlight id).bib = s.bib := rfl
@[simp] theorem State.dropFlight_opcur (s : State) (id : Nat) : (s.dropFlight id).opcur = s.opcur := rfl
@[simp] theorem State.dropFlight_opstep (s : State) (id : Nat) : (s.dropFlight id).opstep = s.opstep := rfl
@[simp] theorem State.dropFlight_clusters (s : State) (id : Nat) : (s.dropFlight id).clusters = s.clusters := rfl
@[simp] theorem State.dropFlight_poolCores (s : State) (id : Nat) : (s.dropFlight id).poolCores = s.poolCores := rfl
@[simp] theorem State.dropFlight_poolUnits (s : State) (id : Nat) : (s.dropFlight id).poolUnits = s.poolUnits := rfl
@[simp] theorem State.dropFlight_cores (s : State) (id : Nat) : (s.dropFlight id).cores = s.cores := rfl
@[simp] theorem State.dropFlight_slicesBad (s : State) (id : Nat) : (s.dropFlight id).slicesBad = s.slicesBad := rfl
@[simp] theorem State.dropFlight_retiring (s : State) (id : Nat) : (s.dropFlight id).retiring = s.retiring := rfl
@[simp] theorem State.dropFlight_bridges (s : State) (id : Nat) : (s.dropFlight id).bridges = s.bridges := rfl
@[simp] theorem State.dropFlight_markers (s : State) (id : Nat) : (s.dropFlight id).markers = s.markers := rfl
@[simp] theorem State.dropFlight_hbm (s : State) (id : Nat) : (s.dropFlight id).hbm = s.hbm := rfl
@[simp] theorem State.dropFlight_quiesced (s : State) (id : Nat) : (s.dropFlight id).quiesced = s.quiesced := rfl
@[simp] theorem State.dropFlight_hardRepairs (s : State) (id : Nat) : (s.dropFlight id).hardRepairs = s.hardRepairs := rfl
@[simp] theorem State.dropFlight_rowSpares (s : State) (id : Nat) : (s.dropFlight id).rowSpares = s.rowSpares := rfl
@[simp] theorem State.dropFlight_burned (s : State) (id : Nat) : (s.dropFlight id).burned = s.burned := rfl
@[simp] theorem State.dropFlight_links (s : State) (id : Nat) : (s.dropFlight id).links = s.links := rfl
@[simp] theorem State.dropFlight_sendQs (s : State) (id : Nat) : (s.dropFlight id).sendQs = s.sendQs := rfl
@[simp] theorem State.dropFlight_recvQs (s : State) (id : Nat) : (s.dropFlight id).recvQs = s.recvQs := rfl
@[simp] theorem State.dropFlight_mgmt (s : State) (id : Nat) : (s.dropFlight id).mgmt = s.mgmt := rfl

/-! ### `State.memWrite` -/

@[simp] theorem State.memWrite_tick (s : State) (pa : Nat) (bs : List Byte) : (s.memWrite pa bs).tick = s.tick := rfl
@[simp] theorem State.memWrite_nextId (s : State) (pa : Nat) (bs : List Byte) : (s.memWrite pa bs).nextId = s.nextId := rfl
@[simp] theorem State.memWrite_agenda (s : State) (pa : Nat) (bs : List Byte) : (s.memWrite pa bs).agenda = s.agenda := rfl
@[simp] theorem State.memWrite_cur (s : State) (pa : Nat) (bs : List Byte) : (s.memWrite pa bs).cur = s.cur := rfl
@[simp] theorem State.memWrite_upsets (s : State) (pa : Nat) (bs : List Byte) : (s.memWrite pa bs).upsets = s.upsets := rfl
@[simp] theorem State.memWrite_bb (s : State) (pa : Nat) (bs : List Byte) : (s.memWrite pa bs).bb = s.bb := rfl
@[simp] theorem State.memWrite_copies (s : State) (pa : Nat) (bs : List Byte) : (s.memWrite pa bs).copies = s.copies := rfl
@[simp] theorem State.memWrite_flights (s : State) (pa : Nat) (bs : List Byte) : (s.memWrite pa bs).flights = s.flights := rfl
@[simp] theorem State.memWrite_invals (s : State) (pa : Nat) (bs : List Byte) : (s.memWrite pa bs).invals = s.invals := rfl
@[simp] theorem State.memWrite_hot (s : State) (pa : Nat) (bs : List Byte) : (s.memWrite pa bs).hot = s.hot := rfl
@[simp] theorem State.memWrite_badBb (s : State) (pa : Nat) (bs : List Byte) : (s.memWrite pa bs).badBb = s.badBb := rfl
@[simp] theorem State.memWrite_badPad (s : State) (pa : Nat) (bs : List Byte) : (s.memWrite pa bs).badPad = s.badPad := rfl
@[simp] theorem State.memWrite_frames (s : State) (pa : Nat) (bs : List Byte) : (s.memWrite pa bs).frames = s.frames := rfl
@[simp] theorem State.memWrite_dropNext (s : State) (pa : Nat) (bs : List Byte) : (s.memWrite pa bs).dropNext = s.dropNext := rfl
@[simp] theorem State.memWrite_purges (s : State) (pa : Nat) (bs : List Byte) : (s.memWrite pa bs).purges = s.purges := rfl
@[simp] theorem State.memWrite_passed (s : State) (pa : Nat) (bs : List Byte) : (s.memWrite pa bs).passed = s.passed := rfl
@[simp] theorem State.memWrite_tlb (s : State) (pa : Nat) (bs : List Byte) : (s.memWrite pa bs).tlb = s.tlb := rfl
@[simp] theorem State.memWrite_spares (s : State) (pa : Nat) (bs : List Byte) : (s.memWrite pa bs).spares = s.spares := rfl
@[simp] theorem State.memWrite_pending (s : State) (pa : Nat) (bs : List Byte) : (s.memWrite pa bs).pending = s.pending := rfl
@[simp] theorem State.memWrite_gangs (s : State) (pa : Nat) (bs : List Byte) : (s.memWrite pa bs).gangs = s.gangs := rfl
@[simp] theorem State.memWrite_dying (s : State) (pa : Nat) (bs : List Byte) : (s.memWrite pa bs).dying = s.dying := rfl
@[simp] theorem State.memWrite_sealed (s : State) (pa : Nat) (bs : List Byte) : (s.memWrite pa bs).sealed = s.sealed := rfl
@[simp] theorem State.memWrite_launches (s : State) (pa : Nat) (bs : List Byte) : (s.memWrite pa bs).launches = s.launches := rfl
@[simp] theorem State.memWrite_queues (s : State) (pa : Nat) (bs : List Byte) : (s.memWrite pa bs).queues = s.queues := rfl
@[simp] theorem State.memWrite_rrWorld (s : State) (pa : Nat) (bs : List Byte) : (s.memWrite pa bs).rrWorld = s.rrWorld := rfl
@[simp] theorem State.memWrite_rrQueue (s : State) (pa : Nat) (bs : List Byte) : (s.memWrite pa bs).rrQueue = s.rrQueue := rfl
@[simp] theorem State.memWrite_bib (s : State) (pa : Nat) (bs : List Byte) : (s.memWrite pa bs).bib = s.bib := rfl
@[simp] theorem State.memWrite_opcur (s : State) (pa : Nat) (bs : List Byte) : (s.memWrite pa bs).opcur = s.opcur := rfl
@[simp] theorem State.memWrite_opstep (s : State) (pa : Nat) (bs : List Byte) : (s.memWrite pa bs).opstep = s.opstep := rfl
@[simp] theorem State.memWrite_clusters (s : State) (pa : Nat) (bs : List Byte) : (s.memWrite pa bs).clusters = s.clusters := rfl
@[simp] theorem State.memWrite_poolCores (s : State) (pa : Nat) (bs : List Byte) : (s.memWrite pa bs).poolCores = s.poolCores := rfl
@[simp] theorem State.memWrite_poolUnits (s : State) (pa : Nat) (bs : List Byte) : (s.memWrite pa bs).poolUnits = s.poolUnits := rfl
@[simp] theorem State.memWrite_cores (s : State) (pa : Nat) (bs : List Byte) : (s.memWrite pa bs).cores = s.cores := rfl
@[simp] theorem State.memWrite_slicesBad (s : State) (pa : Nat) (bs : List Byte) : (s.memWrite pa bs).slicesBad = s.slicesBad := rfl
@[simp] theorem State.memWrite_retiring (s : State) (pa : Nat) (bs : List Byte) : (s.memWrite pa bs).retiring = s.retiring := rfl
@[simp] theorem State.memWrite_bridges (s : State) (pa : Nat) (bs : List Byte) : (s.memWrite pa bs).bridges = s.bridges := rfl
@[simp] theorem State.memWrite_markers (s : State) (pa : Nat) (bs : List Byte) : (s.memWrite pa bs).markers = s.markers := rfl
@[simp] theorem State.memWrite_hbm (s : State) (pa : Nat) (bs : List Byte) : (s.memWrite pa bs).hbm = s.hbm := rfl
@[simp] theorem State.memWrite_quiesced (s : State) (pa : Nat) (bs : List Byte) : (s.memWrite pa bs).quiesced = s.quiesced := rfl
@[simp] theorem State.memWrite_hardRepairs (s : State) (pa : Nat) (bs : List Byte) : (s.memWrite pa bs).hardRepairs = s.hardRepairs := rfl
@[simp] theorem State.memWrite_rowSpares (s : State) (pa : Nat) (bs : List Byte) : (s.memWrite pa bs).rowSpares = s.rowSpares := rfl
@[simp] theorem State.memWrite_burned (s : State) (pa : Nat) (bs : List Byte) : (s.memWrite pa bs).burned = s.burned := rfl
@[simp] theorem State.memWrite_links (s : State) (pa : Nat) (bs : List Byte) : (s.memWrite pa bs).links = s.links := rfl
@[simp] theorem State.memWrite_sendQs (s : State) (pa : Nat) (bs : List Byte) : (s.memWrite pa bs).sendQs = s.sendQs := rfl
@[simp] theorem State.memWrite_recvQs (s : State) (pa : Nat) (bs : List Byte) : (s.memWrite pa bs).recvQs = s.recvQs := rfl
@[simp] theorem State.memWrite_mgmt (s : State) (pa : Nat) (bs : List Byte) : (s.memWrite pa bs).mgmt = s.mgmt := rfl

/-! ### `State.padWrite` -/

@[simp] theorem State.padWrite_tick (s : State) (gid gc a : Nat) (bs : List Byte) : (s.padWrite gid gc a bs).tick = s.tick := rfl
@[simp] theorem State.padWrite_nextId (s : State) (gid gc a : Nat) (bs : List Byte) : (s.padWrite gid gc a bs).nextId = s.nextId := rfl
@[simp] theorem State.padWrite_agenda (s : State) (gid gc a : Nat) (bs : List Byte) : (s.padWrite gid gc a bs).agenda = s.agenda := rfl
@[simp] theorem State.padWrite_cur (s : State) (gid gc a : Nat) (bs : List Byte) : (s.padWrite gid gc a bs).cur = s.cur := rfl
@[simp] theorem State.padWrite_upsets (s : State) (gid gc a : Nat) (bs : List Byte) : (s.padWrite gid gc a bs).upsets = s.upsets := rfl
@[simp] theorem State.padWrite_mem (s : State) (gid gc a : Nat) (bs : List Byte) : (s.padWrite gid gc a bs).mem = s.mem := rfl
@[simp] theorem State.padWrite_bb (s : State) (gid gc a : Nat) (bs : List Byte) : (s.padWrite gid gc a bs).bb = s.bb := rfl
@[simp] theorem State.padWrite_copies (s : State) (gid gc a : Nat) (bs : List Byte) : (s.padWrite gid gc a bs).copies = s.copies := rfl
@[simp] theorem State.padWrite_flights (s : State) (gid gc a : Nat) (bs : List Byte) : (s.padWrite gid gc a bs).flights = s.flights := rfl
@[simp] theorem State.padWrite_glVeils (s : State) (gid gc a : Nat) (bs : List Byte) : (s.padWrite gid gc a bs).glVeils = s.glVeils := rfl
@[simp] theorem State.padWrite_invals (s : State) (gid gc a : Nat) (bs : List Byte) : (s.padWrite gid gc a bs).invals = s.invals := rfl
@[simp] theorem State.padWrite_hot (s : State) (gid gc a : Nat) (bs : List Byte) : (s.padWrite gid gc a bs).hot = s.hot := rfl
@[simp] theorem State.padWrite_badMem (s : State) (gid gc a : Nat) (bs : List Byte) : (s.padWrite gid gc a bs).badMem = s.badMem := rfl
@[simp] theorem State.padWrite_badBb (s : State) (gid gc a : Nat) (bs : List Byte) : (s.padWrite gid gc a bs).badBb = s.badBb := rfl
@[simp] theorem State.padWrite_frames (s : State) (gid gc a : Nat) (bs : List Byte) : (s.padWrite gid gc a bs).frames = s.frames := rfl
@[simp] theorem State.padWrite_dropNext (s : State) (gid gc a : Nat) (bs : List Byte) : (s.padWrite gid gc a bs).dropNext = s.dropNext := rfl
@[simp] theorem State.padWrite_purges (s : State) (gid gc a : Nat) (bs : List Byte) : (s.padWrite gid gc a bs).purges = s.purges := rfl
@[simp] theorem State.padWrite_passed (s : State) (gid gc a : Nat) (bs : List Byte) : (s.padWrite gid gc a bs).passed = s.passed := rfl
@[simp] theorem State.padWrite_tlb (s : State) (gid gc a : Nat) (bs : List Byte) : (s.padWrite gid gc a bs).tlb = s.tlb := rfl
@[simp] theorem State.padWrite_migs (s : State) (gid gc a : Nat) (bs : List Byte) : (s.padWrite gid gc a bs).migs = s.migs := rfl
@[simp] theorem State.padWrite_spares (s : State) (gid gc a : Nat) (bs : List Byte) : (s.padWrite gid gc a bs).spares = s.spares := rfl
@[simp] theorem State.padWrite_pending (s : State) (gid gc a : Nat) (bs : List Byte) : (s.padWrite gid gc a bs).pending = s.pending := rfl
@[simp] theorem State.padWrite_sealed (s : State) (gid gc a : Nat) (bs : List Byte) : (s.padWrite gid gc a bs).sealed = s.sealed := rfl
@[simp] theorem State.padWrite_launches (s : State) (gid gc a : Nat) (bs : List Byte) : (s.padWrite gid gc a bs).launches = s.launches := rfl
@[simp] theorem State.padWrite_queues (s : State) (gid gc a : Nat) (bs : List Byte) : (s.padWrite gid gc a bs).queues = s.queues := rfl
@[simp] theorem State.padWrite_rrWorld (s : State) (gid gc a : Nat) (bs : List Byte) : (s.padWrite gid gc a bs).rrWorld = s.rrWorld := rfl
@[simp] theorem State.padWrite_rrQueue (s : State) (gid gc a : Nat) (bs : List Byte) : (s.padWrite gid gc a bs).rrQueue = s.rrQueue := rfl
@[simp] theorem State.padWrite_bib (s : State) (gid gc a : Nat) (bs : List Byte) : (s.padWrite gid gc a bs).bib = s.bib := rfl
@[simp] theorem State.padWrite_opcur (s : State) (gid gc a : Nat) (bs : List Byte) : (s.padWrite gid gc a bs).opcur = s.opcur := rfl
@[simp] theorem State.padWrite_opstep (s : State) (gid gc a : Nat) (bs : List Byte) : (s.padWrite gid gc a bs).opstep = s.opstep := rfl
@[simp] theorem State.padWrite_clusters (s : State) (gid gc a : Nat) (bs : List Byte) : (s.padWrite gid gc a bs).clusters = s.clusters := rfl
@[simp] theorem State.padWrite_poolCores (s : State) (gid gc a : Nat) (bs : List Byte) : (s.padWrite gid gc a bs).poolCores = s.poolCores := rfl
@[simp] theorem State.padWrite_poolUnits (s : State) (gid gc a : Nat) (bs : List Byte) : (s.padWrite gid gc a bs).poolUnits = s.poolUnits := rfl
@[simp] theorem State.padWrite_cores (s : State) (gid gc a : Nat) (bs : List Byte) : (s.padWrite gid gc a bs).cores = s.cores := rfl
@[simp] theorem State.padWrite_slicesBad (s : State) (gid gc a : Nat) (bs : List Byte) : (s.padWrite gid gc a bs).slicesBad = s.slicesBad := rfl
@[simp] theorem State.padWrite_retiring (s : State) (gid gc a : Nat) (bs : List Byte) : (s.padWrite gid gc a bs).retiring = s.retiring := rfl
@[simp] theorem State.padWrite_bridges (s : State) (gid gc a : Nat) (bs : List Byte) : (s.padWrite gid gc a bs).bridges = s.bridges := rfl
@[simp] theorem State.padWrite_markers (s : State) (gid gc a : Nat) (bs : List Byte) : (s.padWrite gid gc a bs).markers = s.markers := rfl
@[simp] theorem State.padWrite_hbm (s : State) (gid gc a : Nat) (bs : List Byte) : (s.padWrite gid gc a bs).hbm = s.hbm := rfl
@[simp] theorem State.padWrite_quiesced (s : State) (gid gc a : Nat) (bs : List Byte) : (s.padWrite gid gc a bs).quiesced = s.quiesced := rfl
@[simp] theorem State.padWrite_hardRepairs (s : State) (gid gc a : Nat) (bs : List Byte) : (s.padWrite gid gc a bs).hardRepairs = s.hardRepairs := rfl
@[simp] theorem State.padWrite_rowSpares (s : State) (gid gc a : Nat) (bs : List Byte) : (s.padWrite gid gc a bs).rowSpares = s.rowSpares := rfl
@[simp] theorem State.padWrite_burned (s : State) (gid gc a : Nat) (bs : List Byte) : (s.padWrite gid gc a bs).burned = s.burned := rfl
@[simp] theorem State.padWrite_links (s : State) (gid gc a : Nat) (bs : List Byte) : (s.padWrite gid gc a bs).links = s.links := rfl
@[simp] theorem State.padWrite_sendQs (s : State) (gid gc a : Nat) (bs : List Byte) : (s.padWrite gid gc a bs).sendQs = s.sendQs := rfl
@[simp] theorem State.padWrite_recvQs (s : State) (gid gc a : Nat) (bs : List Byte) : (s.padWrite gid gc a bs).recvQs = s.recvQs := rfl
@[simp] theorem State.padWrite_mgmt (s : State) (gid gc a : Nat) (bs : List Byte) : (s.padWrite gid gc a bs).mgmt = s.mgmt := rfl

/-! ### `State.logEntry` -/

@[simp] theorem State.logEntry_tick (s : State) (die : Nat) (e : LogE) : (s.logEntry die e).tick = s.tick := by unfold State.logEntry; split <;> rfl
@[simp] theorem State.logEntry_nextId (s : State) (die : Nat) (e : LogE) : (s.logEntry die e).nextId = s.nextId := by unfold State.logEntry; split <;> rfl
@[simp] theorem State.logEntry_agenda (s : State) (die : Nat) (e : LogE) : (s.logEntry die e).agenda = s.agenda := by unfold State.logEntry; split <;> rfl
@[simp] theorem State.logEntry_cur (s : State) (die : Nat) (e : LogE) : (s.logEntry die e).cur = s.cur := by unfold State.logEntry; split <;> rfl
@[simp] theorem State.logEntry_upsets (s : State) (die : Nat) (e : LogE) : (s.logEntry die e).upsets = s.upsets := by unfold State.logEntry; split <;> rfl
@[simp] theorem State.logEntry_mem (s : State) (die : Nat) (e : LogE) : (s.logEntry die e).mem = s.mem := by unfold State.logEntry; split <;> rfl
@[simp] theorem State.logEntry_bb (s : State) (die : Nat) (e : LogE) : (s.logEntry die e).bb = s.bb := by unfold State.logEntry; split <;> rfl
@[simp] theorem State.logEntry_copies (s : State) (die : Nat) (e : LogE) : (s.logEntry die e).copies = s.copies := by unfold State.logEntry; split <;> rfl
@[simp] theorem State.logEntry_flights (s : State) (die : Nat) (e : LogE) : (s.logEntry die e).flights = s.flights := by unfold State.logEntry; split <;> rfl
@[simp] theorem State.logEntry_glVeils (s : State) (die : Nat) (e : LogE) : (s.logEntry die e).glVeils = s.glVeils := by unfold State.logEntry; split <;> rfl
@[simp] theorem State.logEntry_invals (s : State) (die : Nat) (e : LogE) : (s.logEntry die e).invals = s.invals := by unfold State.logEntry; split <;> rfl
@[simp] theorem State.logEntry_hot (s : State) (die : Nat) (e : LogE) : (s.logEntry die e).hot = s.hot := by unfold State.logEntry; split <;> rfl
@[simp] theorem State.logEntry_badMem (s : State) (die : Nat) (e : LogE) : (s.logEntry die e).badMem = s.badMem := by unfold State.logEntry; split <;> rfl
@[simp] theorem State.logEntry_badBb (s : State) (die : Nat) (e : LogE) : (s.logEntry die e).badBb = s.badBb := by unfold State.logEntry; split <;> rfl
@[simp] theorem State.logEntry_badPad (s : State) (die : Nat) (e : LogE) : (s.logEntry die e).badPad = s.badPad := by unfold State.logEntry; split <;> rfl
@[simp] theorem State.logEntry_frames (s : State) (die : Nat) (e : LogE) : (s.logEntry die e).frames = s.frames := by unfold State.logEntry; split <;> rfl
@[simp] theorem State.logEntry_dropNext (s : State) (die : Nat) (e : LogE) : (s.logEntry die e).dropNext = s.dropNext := by unfold State.logEntry; split <;> rfl
@[simp] theorem State.logEntry_purges (s : State) (die : Nat) (e : LogE) : (s.logEntry die e).purges = s.purges := by unfold State.logEntry; split <;> rfl
@[simp] theorem State.logEntry_passed (s : State) (die : Nat) (e : LogE) : (s.logEntry die e).passed = s.passed := by unfold State.logEntry; split <;> rfl
@[simp] theorem State.logEntry_tlb (s : State) (die : Nat) (e : LogE) : (s.logEntry die e).tlb = s.tlb := by unfold State.logEntry; split <;> rfl
@[simp] theorem State.logEntry_migs (s : State) (die : Nat) (e : LogE) : (s.logEntry die e).migs = s.migs := by unfold State.logEntry; split <;> rfl
@[simp] theorem State.logEntry_spares (s : State) (die : Nat) (e : LogE) : (s.logEntry die e).spares = s.spares := by unfold State.logEntry; split <;> rfl
@[simp] theorem State.logEntry_pending (s : State) (die : Nat) (e : LogE) : (s.logEntry die e).pending = s.pending := by unfold State.logEntry; split <;> rfl
@[simp] theorem State.logEntry_gangs (s : State) (die : Nat) (e : LogE) : (s.logEntry die e).gangs = s.gangs := by unfold State.logEntry; split <;> rfl
@[simp] theorem State.logEntry_dying (s : State) (die : Nat) (e : LogE) : (s.logEntry die e).dying = s.dying := by unfold State.logEntry; split <;> rfl
@[simp] theorem State.logEntry_sealed (s : State) (die : Nat) (e : LogE) : (s.logEntry die e).sealed = s.sealed := by unfold State.logEntry; split <;> rfl
@[simp] theorem State.logEntry_launches (s : State) (die : Nat) (e : LogE) : (s.logEntry die e).launches = s.launches := by unfold State.logEntry; split <;> rfl
@[simp] theorem State.logEntry_queues (s : State) (die : Nat) (e : LogE) : (s.logEntry die e).queues = s.queues := by unfold State.logEntry; split <;> rfl
@[simp] theorem State.logEntry_rrWorld (s : State) (die : Nat) (e : LogE) : (s.logEntry die e).rrWorld = s.rrWorld := by unfold State.logEntry; split <;> rfl
@[simp] theorem State.logEntry_rrQueue (s : State) (die : Nat) (e : LogE) : (s.logEntry die e).rrQueue = s.rrQueue := by unfold State.logEntry; split <;> rfl
@[simp] theorem State.logEntry_bib (s : State) (die : Nat) (e : LogE) : (s.logEntry die e).bib = s.bib := by unfold State.logEntry; split <;> rfl
@[simp] theorem State.logEntry_opcur (s : State) (die : Nat) (e : LogE) : (s.logEntry die e).opcur = s.opcur := by unfold State.logEntry; split <;> rfl
@[simp] theorem State.logEntry_opstep (s : State) (die : Nat) (e : LogE) : (s.logEntry die e).opstep = s.opstep := by unfold State.logEntry; split <;> rfl
@[simp] theorem State.logEntry_clusters (s : State) (die : Nat) (e : LogE) : (s.logEntry die e).clusters = s.clusters := by unfold State.logEntry; split <;> rfl
@[simp] theorem State.logEntry_poolCores (s : State) (die : Nat) (e : LogE) : (s.logEntry die e).poolCores = s.poolCores := by unfold State.logEntry; split <;> rfl
@[simp] theorem State.logEntry_poolUnits (s : State) (die : Nat) (e : LogE) : (s.logEntry die e).poolUnits = s.poolUnits := by unfold State.logEntry; split <;> rfl
@[simp] theorem State.logEntry_slicesBad (s : State) (die : Nat) (e : LogE) : (s.logEntry die e).slicesBad = s.slicesBad := by unfold State.logEntry; split <;> rfl
@[simp] theorem State.logEntry_retiring (s : State) (die : Nat) (e : LogE) : (s.logEntry die e).retiring = s.retiring := by unfold State.logEntry; split <;> rfl
@[simp] theorem State.logEntry_bridges (s : State) (die : Nat) (e : LogE) : (s.logEntry die e).bridges = s.bridges := by unfold State.logEntry; split <;> rfl
@[simp] theorem State.logEntry_markers (s : State) (die : Nat) (e : LogE) : (s.logEntry die e).markers = s.markers := by unfold State.logEntry; split <;> rfl
@[simp] theorem State.logEntry_hbm (s : State) (die : Nat) (e : LogE) : (s.logEntry die e).hbm = s.hbm := by unfold State.logEntry; split <;> rfl
@[simp] theorem State.logEntry_quiesced (s : State) (die : Nat) (e : LogE) : (s.logEntry die e).quiesced = s.quiesced := by unfold State.logEntry; split <;> rfl
@[simp] theorem State.logEntry_hardRepairs (s : State) (die : Nat) (e : LogE) : (s.logEntry die e).hardRepairs = s.hardRepairs := by unfold State.logEntry; split <;> rfl
@[simp] theorem State.logEntry_rowSpares (s : State) (die : Nat) (e : LogE) : (s.logEntry die e).rowSpares = s.rowSpares := by unfold State.logEntry; split <;> rfl
@[simp] theorem State.logEntry_burned (s : State) (die : Nat) (e : LogE) : (s.logEntry die e).burned = s.burned := by unfold State.logEntry; split <;> rfl
@[simp] theorem State.logEntry_links (s : State) (die : Nat) (e : LogE) : (s.logEntry die e).links = s.links := by unfold State.logEntry; split <;> rfl
@[simp] theorem State.logEntry_sendQs (s : State) (die : Nat) (e : LogE) : (s.logEntry die e).sendQs = s.sendQs := by unfold State.logEntry; split <;> rfl
@[simp] theorem State.logEntry_recvQs (s : State) (die : Nat) (e : LogE) : (s.logEntry die e).recvQs = s.recvQs := by unfold State.logEntry; split <;> rfl

/-! ### `State.release` -/

@[simp] theorem State.release_tick (s : State) (gid : Nat) : (s.release gid).tick = s.tick := rfl
@[simp] theorem State.release_nextId (s : State) (gid : Nat) : (s.release gid).nextId = s.nextId := rfl
@[simp] theorem State.release_agenda (s : State) (gid : Nat) : (s.release gid).agenda = s.agenda := rfl
@[simp] theorem State.release_cur (s : State) (gid : Nat) : (s.release gid).cur = s.cur := rfl
@[simp] theorem State.release_upsets (s : State) (gid : Nat) : (s.release gid).upsets = s.upsets := rfl
@[simp] theorem State.release_mem (s : State) (gid : Nat) : (s.release gid).mem = s.mem := rfl
@[simp] theorem State.release_bb (s : State) (gid : Nat) : (s.release gid).bb = s.bb := rfl
@[simp] theorem State.release_copies (s : State) (gid : Nat) : (s.release gid).copies = s.copies := rfl
@[simp] theorem State.release_flights (s : State) (gid : Nat) : (s.release gid).flights = s.flights := rfl
@[simp] theorem State.release_glVeils (s : State) (gid : Nat) : (s.release gid).glVeils = s.glVeils := rfl
@[simp] theorem State.release_invals (s : State) (gid : Nat) : (s.release gid).invals = s.invals := rfl
@[simp] theorem State.release_hot (s : State) (gid : Nat) : (s.release gid).hot = s.hot := rfl
@[simp] theorem State.release_badMem (s : State) (gid : Nat) : (s.release gid).badMem = s.badMem := rfl
@[simp] theorem State.release_badBb (s : State) (gid : Nat) : (s.release gid).badBb = s.badBb := rfl
@[simp] theorem State.release_badPad (s : State) (gid : Nat) : (s.release gid).badPad = s.badPad := rfl
@[simp] theorem State.release_frames (s : State) (gid : Nat) : (s.release gid).frames = s.frames := rfl
@[simp] theorem State.release_dropNext (s : State) (gid : Nat) : (s.release gid).dropNext = s.dropNext := rfl
@[simp] theorem State.release_purges (s : State) (gid : Nat) : (s.release gid).purges = s.purges := rfl
@[simp] theorem State.release_passed (s : State) (gid : Nat) : (s.release gid).passed = s.passed := rfl
@[simp] theorem State.release_tlb (s : State) (gid : Nat) : (s.release gid).tlb = s.tlb := rfl
@[simp] theorem State.release_migs (s : State) (gid : Nat) : (s.release gid).migs = s.migs := rfl
@[simp] theorem State.release_spares (s : State) (gid : Nat) : (s.release gid).spares = s.spares := rfl
@[simp] theorem State.release_pending (s : State) (gid : Nat) : (s.release gid).pending = s.pending := rfl
@[simp] theorem State.release_dying (s : State) (gid : Nat) : (s.release gid).dying = s.dying := rfl
@[simp] theorem State.release_sealed (s : State) (gid : Nat) : (s.release gid).sealed = s.sealed := rfl
@[simp] theorem State.release_launches (s : State) (gid : Nat) : (s.release gid).launches = s.launches := rfl
@[simp] theorem State.release_queues (s : State) (gid : Nat) : (s.release gid).queues = s.queues := rfl
@[simp] theorem State.release_rrWorld (s : State) (gid : Nat) : (s.release gid).rrWorld = s.rrWorld := rfl
@[simp] theorem State.release_rrQueue (s : State) (gid : Nat) : (s.release gid).rrQueue = s.rrQueue := rfl
@[simp] theorem State.release_bib (s : State) (gid : Nat) : (s.release gid).bib = s.bib := rfl
@[simp] theorem State.release_opcur (s : State) (gid : Nat) : (s.release gid).opcur = s.opcur := rfl
@[simp] theorem State.release_opstep (s : State) (gid : Nat) : (s.release gid).opstep = s.opstep := rfl
@[simp] theorem State.release_clusters (s : State) (gid : Nat) : (s.release gid).clusters = s.clusters := rfl
@[simp] theorem State.release_poolCores (s : State) (gid : Nat) : (s.release gid).poolCores = s.poolCores := rfl
@[simp] theorem State.release_poolUnits (s : State) (gid : Nat) : (s.release gid).poolUnits = s.poolUnits := rfl
@[simp] theorem State.release_slicesBad (s : State) (gid : Nat) : (s.release gid).slicesBad = s.slicesBad := rfl
@[simp] theorem State.release_retiring (s : State) (gid : Nat) : (s.release gid).retiring = s.retiring := rfl
@[simp] theorem State.release_bridges (s : State) (gid : Nat) : (s.release gid).bridges = s.bridges := rfl
@[simp] theorem State.release_markers (s : State) (gid : Nat) : (s.release gid).markers = s.markers := rfl
@[simp] theorem State.release_hbm (s : State) (gid : Nat) : (s.release gid).hbm = s.hbm := rfl
@[simp] theorem State.release_quiesced (s : State) (gid : Nat) : (s.release gid).quiesced = s.quiesced := rfl
@[simp] theorem State.release_hardRepairs (s : State) (gid : Nat) : (s.release gid).hardRepairs = s.hardRepairs := rfl
@[simp] theorem State.release_rowSpares (s : State) (gid : Nat) : (s.release gid).rowSpares = s.rowSpares := rfl
@[simp] theorem State.release_burned (s : State) (gid : Nat) : (s.release gid).burned = s.burned := rfl
@[simp] theorem State.release_links (s : State) (gid : Nat) : (s.release gid).links = s.links := rfl
@[simp] theorem State.release_sendQs (s : State) (gid : Nat) : (s.release gid).sendQs = s.sendQs := rfl
@[simp] theorem State.release_recvQs (s : State) (gid : Nat) : (s.release gid).recvQs = s.recvQs := rfl
@[simp] theorem State.release_mgmt (s : State) (gid : Nat) : (s.release gid).mgmt = s.mgmt := rfl

/-! ### `State.wakeCore` -/

@[simp] theorem State.wakeCore_tick (s : State) (c : Nat) : (s.wakeCore c).tick = s.tick := rfl
@[simp] theorem State.wakeCore_nextId (s : State) (c : Nat) : (s.wakeCore c).nextId = s.nextId := rfl
@[simp] theorem State.wakeCore_agenda (s : State) (c : Nat) : (s.wakeCore c).agenda = s.agenda := rfl
@[simp] theorem State.wakeCore_cur (s : State) (c : Nat) : (s.wakeCore c).cur = s.cur := rfl
@[simp] theorem State.wakeCore_upsets (s : State) (c : Nat) : (s.wakeCore c).upsets = s.upsets := rfl
@[simp] theorem State.wakeCore_mem (s : State) (c : Nat) : (s.wakeCore c).mem = s.mem := rfl
@[simp] theorem State.wakeCore_bb (s : State) (c : Nat) : (s.wakeCore c).bb = s.bb := rfl
@[simp] theorem State.wakeCore_copies (s : State) (c : Nat) : (s.wakeCore c).copies = s.copies := rfl
@[simp] theorem State.wakeCore_flights (s : State) (c : Nat) : (s.wakeCore c).flights = s.flights := rfl
@[simp] theorem State.wakeCore_glVeils (s : State) (c : Nat) : (s.wakeCore c).glVeils = s.glVeils := rfl
@[simp] theorem State.wakeCore_invals (s : State) (c : Nat) : (s.wakeCore c).invals = s.invals := rfl
@[simp] theorem State.wakeCore_hot (s : State) (c : Nat) : (s.wakeCore c).hot = s.hot := rfl
@[simp] theorem State.wakeCore_badMem (s : State) (c : Nat) : (s.wakeCore c).badMem = s.badMem := rfl
@[simp] theorem State.wakeCore_badBb (s : State) (c : Nat) : (s.wakeCore c).badBb = s.badBb := rfl
@[simp] theorem State.wakeCore_badPad (s : State) (c : Nat) : (s.wakeCore c).badPad = s.badPad := rfl
@[simp] theorem State.wakeCore_frames (s : State) (c : Nat) : (s.wakeCore c).frames = s.frames := rfl
@[simp] theorem State.wakeCore_dropNext (s : State) (c : Nat) : (s.wakeCore c).dropNext = s.dropNext := rfl
@[simp] theorem State.wakeCore_purges (s : State) (c : Nat) : (s.wakeCore c).purges = s.purges := rfl
@[simp] theorem State.wakeCore_passed (s : State) (c : Nat) : (s.wakeCore c).passed = s.passed := rfl
@[simp] theorem State.wakeCore_tlb (s : State) (c : Nat) : (s.wakeCore c).tlb = s.tlb := rfl
@[simp] theorem State.wakeCore_migs (s : State) (c : Nat) : (s.wakeCore c).migs = s.migs := rfl
@[simp] theorem State.wakeCore_spares (s : State) (c : Nat) : (s.wakeCore c).spares = s.spares := rfl
@[simp] theorem State.wakeCore_pending (s : State) (c : Nat) : (s.wakeCore c).pending = s.pending := rfl
@[simp] theorem State.wakeCore_dying (s : State) (c : Nat) : (s.wakeCore c).dying = s.dying := rfl
@[simp] theorem State.wakeCore_sealed (s : State) (c : Nat) : (s.wakeCore c).sealed = s.sealed := rfl
@[simp] theorem State.wakeCore_launches (s : State) (c : Nat) : (s.wakeCore c).launches = s.launches := rfl
@[simp] theorem State.wakeCore_queues (s : State) (c : Nat) : (s.wakeCore c).queues = s.queues := rfl
@[simp] theorem State.wakeCore_rrWorld (s : State) (c : Nat) : (s.wakeCore c).rrWorld = s.rrWorld := rfl
@[simp] theorem State.wakeCore_rrQueue (s : State) (c : Nat) : (s.wakeCore c).rrQueue = s.rrQueue := rfl
@[simp] theorem State.wakeCore_bib (s : State) (c : Nat) : (s.wakeCore c).bib = s.bib := rfl
@[simp] theorem State.wakeCore_opcur (s : State) (c : Nat) : (s.wakeCore c).opcur = s.opcur := rfl
@[simp] theorem State.wakeCore_opstep (s : State) (c : Nat) : (s.wakeCore c).opstep = s.opstep := rfl
@[simp] theorem State.wakeCore_clusters (s : State) (c : Nat) : (s.wakeCore c).clusters = s.clusters := rfl
@[simp] theorem State.wakeCore_poolCores (s : State) (c : Nat) : (s.wakeCore c).poolCores = s.poolCores := rfl
@[simp] theorem State.wakeCore_poolUnits (s : State) (c : Nat) : (s.wakeCore c).poolUnits = s.poolUnits := rfl
@[simp] theorem State.wakeCore_cores (s : State) (c : Nat) : (s.wakeCore c).cores = s.cores := rfl
@[simp] theorem State.wakeCore_slicesBad (s : State) (c : Nat) : (s.wakeCore c).slicesBad = s.slicesBad := rfl
@[simp] theorem State.wakeCore_retiring (s : State) (c : Nat) : (s.wakeCore c).retiring = s.retiring := rfl
@[simp] theorem State.wakeCore_bridges (s : State) (c : Nat) : (s.wakeCore c).bridges = s.bridges := rfl
@[simp] theorem State.wakeCore_markers (s : State) (c : Nat) : (s.wakeCore c).markers = s.markers := rfl
@[simp] theorem State.wakeCore_hbm (s : State) (c : Nat) : (s.wakeCore c).hbm = s.hbm := rfl
@[simp] theorem State.wakeCore_quiesced (s : State) (c : Nat) : (s.wakeCore c).quiesced = s.quiesced := rfl
@[simp] theorem State.wakeCore_hardRepairs (s : State) (c : Nat) : (s.wakeCore c).hardRepairs = s.hardRepairs := rfl
@[simp] theorem State.wakeCore_rowSpares (s : State) (c : Nat) : (s.wakeCore c).rowSpares = s.rowSpares := rfl
@[simp] theorem State.wakeCore_burned (s : State) (c : Nat) : (s.wakeCore c).burned = s.burned := rfl
@[simp] theorem State.wakeCore_links (s : State) (c : Nat) : (s.wakeCore c).links = s.links := rfl
@[simp] theorem State.wakeCore_sendQs (s : State) (c : Nat) : (s.wakeCore c).sendQs = s.sendQs := rfl
@[simp] theorem State.wakeCore_recvQs (s : State) (c : Nat) : (s.wakeCore c).recvQs = s.recvQs := rfl
@[simp] theorem State.wakeCore_mgmt (s : State) (c : Nat) : (s.wakeCore c).mgmt = s.mgmt := rfl

/-! ### `Gang.modWarp`, `Gang.post` -/

@[simp] theorem Gang.modWarp_bib (g : Gang) (wi : Nat) (f : Warp → Warp) : (g.modWarp wi f).bib = g.bib := rfl
@[simp] theorem Gang.modWarp_world (g : Gang) (wi : Nat) (f : Warp → Warp) : (g.modWarp wi f).world = g.world := rfl
@[simp] theorem Gang.modWarp_launch (g : Gang) (wi : Nat) (f : Warp → Warp) : (g.modWarp wi f).launch = g.launch := rfl
@[simp] theorem Gang.modWarp_block (g : Gang) (wi : Nat) (f : Warp → Warp) : (g.modWarp wi f).block = g.block := rfl
@[simp] theorem Gang.modWarp_blockT (g : Gang) (wi : Nat) (f : Warp → Warp) : (g.modWarp wi f).blockT = g.blockT := rfl
@[simp] theorem Gang.modWarp_threadsN (g : Gang) (wi : Nat) (f : Warp → Warp) : (g.modWarp wi f).threadsN = g.threadsN := rfl
@[simp] theorem Gang.modWarp_cores (g : Gang) (wi : Nat) (f : Warp → Warp) : (g.modWarp wi f).cores = g.cores := rfl
@[simp] theorem Gang.modWarp_ctl (g : Gang) (wi : Nat) (f : Warp → Warp) : (g.modWarp wi f).ctl = g.ctl := rfl
@[simp] theorem Gang.modWarp_spBytes (g : Gang) (wi : Nat) (f : Warp → Warp) : (g.modWarp wi f).spBytes = g.spBytes := rfl
@[simp] theorem Gang.modWarp_minop (g : Gang) (wi : Nat) (f : Warp → Warp) : (g.modWarp wi f).minop = g.minop := rfl
@[simp] theorem Gang.modWarp_prio (g : Gang) (wi : Nat) (f : Warp → Warp) : (g.modWarp wi f).prio = g.prio := rfl
@[simp] theorem Gang.modWarp_relayCap (g : Gang) (wi : Nat) (f : Warp → Warp) : (g.modWarp wi f).relayCap = g.relayCap := rfl
@[simp] theorem Gang.modWarp_spillBase (g : Gang) (wi : Nat) (f : Warp → Warp) : (g.modWarp wi f).spillBase = g.spillBase := rfl
@[simp] theorem Gang.modWarp_spillSize (g : Gang) (wi : Nat) (f : Warp → Warp) : (g.modWarp wi f).spillSize = g.spillSize := rfl
@[simp] theorem Gang.modWarp_levels (g : Gang) (wi : Nat) (f : Warp → Warp) : (g.modWarp wi f).levels = g.levels := rfl
@[simp] theorem Gang.modWarp_windows (g : Gang) (wi : Nat) (f : Warp → Warp) : (g.modWarp wi f).windows = g.windows := rfl
@[simp] theorem Gang.modWarp_draft (g : Gang) (wi : Nat) (f : Warp → Warp) : (g.modWarp wi f).draft = g.draft := rfl
@[simp] theorem Gang.modWarp_nstage (g : Gang) (wi : Nat) (f : Warp → Warp) : (g.modWarp wi f).nstage = g.nstage := rfl
@[simp] theorem Gang.modWarp_nextStage (g : Gang) (wi : Nat) (f : Warp → Warp) : (g.modWarp wi f).nextStage = g.nextStage := rfl
@[simp] theorem Gang.modWarp_root (g : Gang) (wi : Nat) (f : Warp → Warp) : (g.modWarp wi f).root = g.root := rfl
@[simp] theorem Gang.modWarp_bp (g : Gang) (wi : Nat) (f : Warp → Warp) : (g.modWarp wi f).bp = g.bp := rfl
@[simp] theorem Gang.modWarp_wp (g : Gang) (wi : Nat) (f : Warp → Warp) : (g.modWarp wi f).wp = g.wp := rfl
@[simp] theorem Gang.modWarp_rowBase (g : Gang) (wi : Nat) (f : Warp → Warp) : (g.modWarp wi f).rowBase = g.rowBase := rfl
@[simp] theorem Gang.modWarp_veils (g : Gang) (wi : Nat) (f : Warp → Warp) : (g.modWarp wi f).veils = g.veils := rfl
@[simp] theorem Gang.modWarp_objs (g : Gang) (wi : Nat) (f : Warp → Warp) : (g.modWarp wi f).objs = g.objs := rfl
@[simp] theorem Gang.modWarp_binds (g : Gang) (wi : Nat) (f : Warp → Warp) : (g.modWarp wi f).binds = g.binds := rfl
@[simp] theorem Gang.modWarp_preempt (g : Gang) (wi : Nat) (f : Warp → Warp) : (g.modWarp wi f).preempt = g.preempt := rfl

@[simp] theorem Gang.post_gid (g : Gang) (bit : Nat) : (g.post bit).gid = g.gid := rfl
@[simp] theorem Gang.post_bib (g : Gang) (bit : Nat) : (g.post bit).bib = g.bib := rfl
@[simp] theorem Gang.post_world (g : Gang) (bit : Nat) : (g.post bit).world = g.world := rfl
@[simp] theorem Gang.post_launch (g : Gang) (bit : Nat) : (g.post bit).launch = g.launch := rfl
@[simp] theorem Gang.post_block (g : Gang) (bit : Nat) : (g.post bit).block = g.block := rfl
@[simp] theorem Gang.post_blockT (g : Gang) (bit : Nat) : (g.post bit).blockT = g.blockT := rfl
@[simp] theorem Gang.post_threadsN (g : Gang) (bit : Nat) : (g.post bit).threadsN = g.threadsN := rfl
@[simp] theorem Gang.post_cores (g : Gang) (bit : Nat) : (g.post bit).cores = g.cores := rfl
@[simp] theorem Gang.post_ctl (g : Gang) (bit : Nat) : (g.post bit).ctl = g.ctl := rfl
@[simp] theorem Gang.post_n (g : Gang) (bit : Nat) : (g.post bit).n = g.n := rfl
@[simp] theorem Gang.post_spBytes (g : Gang) (bit : Nat) : (g.post bit).spBytes = g.spBytes := rfl
@[simp] theorem Gang.post_minop (g : Gang) (bit : Nat) : (g.post bit).minop = g.minop := rfl
@[simp] theorem Gang.post_prio (g : Gang) (bit : Nat) : (g.post bit).prio = g.prio := rfl
@[simp] theorem Gang.post_relayCap (g : Gang) (bit : Nat) : (g.post bit).relayCap = g.relayCap := rfl
@[simp] theorem Gang.post_spillBase (g : Gang) (bit : Nat) : (g.post bit).spillBase = g.spillBase := rfl
@[simp] theorem Gang.post_spillSize (g : Gang) (bit : Nat) : (g.post bit).spillSize = g.spillSize := rfl
@[simp] theorem Gang.post_levels (g : Gang) (bit : Nat) : (g.post bit).levels = g.levels := rfl
@[simp] theorem Gang.post_windows (g : Gang) (bit : Nat) : (g.post bit).windows = g.windows := rfl
@[simp] theorem Gang.post_draft (g : Gang) (bit : Nat) : (g.post bit).draft = g.draft := rfl
@[simp] theorem Gang.post_nstage (g : Gang) (bit : Nat) : (g.post bit).nstage = g.nstage := rfl
@[simp] theorem Gang.post_nextStage (g : Gang) (bit : Nat) : (g.post bit).nextStage = g.nextStage := rfl
@[simp] theorem Gang.post_root (g : Gang) (bit : Nat) : (g.post bit).root = g.root := rfl
@[simp] theorem Gang.post_bp (g : Gang) (bit : Nat) : (g.post bit).bp = g.bp := rfl
@[simp] theorem Gang.post_wp (g : Gang) (bit : Nat) : (g.post bit).wp = g.wp := rfl
@[simp] theorem Gang.post_sp (g : Gang) (bit : Nat) : (g.post bit).sp = g.sp := rfl
@[simp] theorem Gang.post_rowBase (g : Gang) (bit : Nat) : (g.post bit).rowBase = g.rowBase := rfl
@[simp] theorem Gang.post_veils (g : Gang) (bit : Nat) : (g.post bit).veils = g.veils := rfl
@[simp] theorem Gang.post_objs (g : Gang) (bit : Nat) : (g.post bit).objs = g.objs := rfl
@[simp] theorem Gang.post_binds (g : Gang) (bit : Nat) : (g.post bit).binds = g.binds := rfl
@[simp] theorem Gang.post_preempt (g : Gang) (bit : Nat) : (g.post bit).preempt = g.preempt := rfl

/-! ### `Warp.mapThreads`, `Warp.modThread`, `Warp.ended`, `Warp.wakeSlots` -/

@[simp] theorem Warp.mapThreads_wi (w : Warp) (f : Thread → Thread) : (w.mapThreads f).wi = w.wi := rfl
@[simp] theorem Warp.mapThreads_core (w : Warp) (f : Thread → Thread) : (w.mapThreads f).core = w.core := rfl
@[simp] theorem Warp.mapThreads_quarter (w : Warp) (f : Thread → Thread) : (w.mapThreads f).quarter = w.quarter := rfl
@[simp] theorem Warp.mapThreads_slot (w : Warp) (f : Thread → Thread) : (w.mapThreads f).slot = w.slot := rfl
@[simp] theorem Warp.mapThreads_homeCore (w : Warp) (f : Thread → Thread) : (w.mapThreads f).homeCore = w.homeCore := rfl
@[simp] theorem Warp.mapThreads_homeSlot (w : Warp) (f : Thread → Thread) : (w.mapThreads f).homeSlot = w.homeSlot := rfl
@[simp] theorem Warp.mapThreads_s (w : Warp) (f : Thread → Thread) : (w.mapThreads f).s = w.s := rfl
@[simp] theorem Warp.mapThreads_j (w : Warp) (f : Thread → Thread) : (w.mapThreads f).j = w.j := rfl
@[simp] theorem Warp.mapThreads_arr (w : Warp) (f : Thread → Thread) : (w.mapThreads f).arr = w.arr := rfl
@[simp] theorem Warp.mapThreads_hentry (w : Warp) (f : Thread → Thread) : (w.mapThreads f).hentry = w.hentry := rfl
@[simp] theorem Warp.mapThreads_inh (w : Warp) (f : Thread → Thread) : (w.mapThreads f).inh = w.inh := rfl
@[simp] theorem Warp.mapThreads_recPc (w : Warp) (f : Thread → Thread) : (w.mapThreads f).recPc = w.recPc := rfl
@[simp] theorem Warp.mapThreads_recMask (w : Warp) (f : Thread → Thread) : (w.mapThreads f).recMask = w.recMask := rfl
@[simp] theorem Warp.mapThreads_recDefer (w : Warp) (f : Thread → Thread) : (w.mapThreads f).recDefer = w.recDefer := rfl
@[simp] theorem Warp.mapThreads_evt (w : Warp) (f : Thread → Thread) : (w.mapThreads f).evt = w.evt := rfl
@[simp] theorem Warp.mapThreads_stride (w : Warp) (f : Thread → Thread) : (w.mapThreads f).stride = w.stride := rfl
@[simp] theorem Warp.mapThreads_passed (w : Warp) (f : Thread → Thread) : (w.mapThreads f).passed = w.passed := rfl
@[simp] theorem Warp.mapThreads_unissued (w : Warp) (f : Thread → Thread) : (w.mapThreads f).unissued = w.unissued := rfl
@[simp] theorem Warp.mapThreads_demoted (w : Warp) (f : Thread → Thread) : (w.mapThreads f).demoted = w.demoted := rfl
@[simp] theorem Warp.mapThreads_spinPc (w : Warp) (f : Thread → Thread) : (w.mapThreads f).spinPc = w.spinPc := rfl
@[simp] theorem Warp.mapThreads_spinN (w : Warp) (f : Thread → Thread) : (w.mapThreads f).spinN = w.spinN := rfl
@[simp] theorem Warp.mapThreads_spinBusy (w : Warp) (f : Thread → Thread) : (w.mapThreads f).spinBusy = w.spinBusy := rfl
@[simp] theorem Warp.mapThreads_yielded (w : Warp) (f : Thread → Thread) : (w.mapThreads f).yielded = w.yielded := rfl
@[simp] theorem Warp.mapThreads_noticeYld (w : Warp) (f : Thread → Thread) : (w.mapThreads f).noticeYld = w.noticeYld := rfl
@[simp] theorem Warp.mapThreads_woke (w : Warp) (f : Thread → Thread) : (w.mapThreads f).woke = w.woke := rfl
@[simp] theorem Warp.mapThreads_stall (w : Warp) (f : Thread → Thread) : (w.mapThreads f).stall = w.stall := rfl
@[simp] theorem Warp.mapThreads_reports (w : Warp) (f : Thread → Thread) : (w.mapThreads f).reports = w.reports := rfl
@[simp] theorem Warp.mapThreads_noHit (w : Warp) (f : Thread → Thread) : (w.mapThreads f).noHit = w.noHit := rfl
@[simp] theorem Warp.mapThreads_dretry (w : Warp) (f : Thread → Thread) : (w.mapThreads f).dretry = w.dretry := rfl
@[simp] theorem Warp.mapThreads_pend (w : Warp) (f : Thread → Thread) : (w.mapThreads f).pend = w.pend := rfl
@[simp] theorem Warp.mapThreads_relayTo (w : Warp) (f : Thread → Thread) : (w.mapThreads f).relayTo = w.relayTo := rfl
@[simp] theorem Warp.mapThreads_carried (w : Warp) (f : Thread → Thread) : (w.mapThreads f).carried = w.carried := rfl
@[simp] theorem Warp.mapThreads_entry (w : Warp) (f : Thread → Thread) : (w.mapThreads f).entry = w.entry := rfl
@[simp] theorem Warp.mapThreads_teamSeq (w : Warp) (f : Thread → Thread) : (w.mapThreads f).teamSeq = w.teamSeq := rfl

@[simp] theorem Warp.modThread_wi (w : Warp) (t : Nat) (f : Thread → Thread) : (w.modThread t f).wi = w.wi := rfl
@[simp] theorem Warp.modThread_core (w : Warp) (t : Nat) (f : Thread → Thread) : (w.modThread t f).core = w.core := rfl
@[simp] theorem Warp.modThread_quarter (w : Warp) (t : Nat) (f : Thread → Thread) : (w.modThread t f).quarter = w.quarter := rfl
@[simp] theorem Warp.modThread_slot (w : Warp) (t : Nat) (f : Thread → Thread) : (w.modThread t f).slot = w.slot := rfl
@[simp] theorem Warp.modThread_homeCore (w : Warp) (t : Nat) (f : Thread → Thread) : (w.modThread t f).homeCore = w.homeCore := rfl
@[simp] theorem Warp.modThread_homeSlot (w : Warp) (t : Nat) (f : Thread → Thread) : (w.modThread t f).homeSlot = w.homeSlot := rfl
@[simp] theorem Warp.modThread_s (w : Warp) (t : Nat) (f : Thread → Thread) : (w.modThread t f).s = w.s := rfl
@[simp] theorem Warp.modThread_j (w : Warp) (t : Nat) (f : Thread → Thread) : (w.modThread t f).j = w.j := rfl
@[simp] theorem Warp.modThread_arr (w : Warp) (t : Nat) (f : Thread → Thread) : (w.modThread t f).arr = w.arr := rfl
@[simp] theorem Warp.modThread_hentry (w : Warp) (t : Nat) (f : Thread → Thread) : (w.modThread t f).hentry = w.hentry := rfl
@[simp] theorem Warp.modThread_inh (w : Warp) (t : Nat) (f : Thread → Thread) : (w.modThread t f).inh = w.inh := rfl
@[simp] theorem Warp.modThread_recPc (w : Warp) (t : Nat) (f : Thread → Thread) : (w.modThread t f).recPc = w.recPc := rfl
@[simp] theorem Warp.modThread_recMask (w : Warp) (t : Nat) (f : Thread → Thread) : (w.modThread t f).recMask = w.recMask := rfl
@[simp] theorem Warp.modThread_recDefer (w : Warp) (t : Nat) (f : Thread → Thread) : (w.modThread t f).recDefer = w.recDefer := rfl
@[simp] theorem Warp.modThread_evt (w : Warp) (t : Nat) (f : Thread → Thread) : (w.modThread t f).evt = w.evt := rfl
@[simp] theorem Warp.modThread_stride (w : Warp) (t : Nat) (f : Thread → Thread) : (w.modThread t f).stride = w.stride := rfl
@[simp] theorem Warp.modThread_passed (w : Warp) (t : Nat) (f : Thread → Thread) : (w.modThread t f).passed = w.passed := rfl
@[simp] theorem Warp.modThread_unissued (w : Warp) (t : Nat) (f : Thread → Thread) : (w.modThread t f).unissued = w.unissued := rfl
@[simp] theorem Warp.modThread_demoted (w : Warp) (t : Nat) (f : Thread → Thread) : (w.modThread t f).demoted = w.demoted := rfl
@[simp] theorem Warp.modThread_spinPc (w : Warp) (t : Nat) (f : Thread → Thread) : (w.modThread t f).spinPc = w.spinPc := rfl
@[simp] theorem Warp.modThread_spinN (w : Warp) (t : Nat) (f : Thread → Thread) : (w.modThread t f).spinN = w.spinN := rfl
@[simp] theorem Warp.modThread_spinBusy (w : Warp) (t : Nat) (f : Thread → Thread) : (w.modThread t f).spinBusy = w.spinBusy := rfl
@[simp] theorem Warp.modThread_yielded (w : Warp) (t : Nat) (f : Thread → Thread) : (w.modThread t f).yielded = w.yielded := rfl
@[simp] theorem Warp.modThread_noticeYld (w : Warp) (t : Nat) (f : Thread → Thread) : (w.modThread t f).noticeYld = w.noticeYld := rfl
@[simp] theorem Warp.modThread_woke (w : Warp) (t : Nat) (f : Thread → Thread) : (w.modThread t f).woke = w.woke := rfl
@[simp] theorem Warp.modThread_stall (w : Warp) (t : Nat) (f : Thread → Thread) : (w.modThread t f).stall = w.stall := rfl
@[simp] theorem Warp.modThread_reports (w : Warp) (t : Nat) (f : Thread → Thread) : (w.modThread t f).reports = w.reports := rfl
@[simp] theorem Warp.modThread_noHit (w : Warp) (t : Nat) (f : Thread → Thread) : (w.modThread t f).noHit = w.noHit := rfl
@[simp] theorem Warp.modThread_dretry (w : Warp) (t : Nat) (f : Thread → Thread) : (w.modThread t f).dretry = w.dretry := rfl
@[simp] theorem Warp.modThread_pend (w : Warp) (t : Nat) (f : Thread → Thread) : (w.modThread t f).pend = w.pend := rfl
@[simp] theorem Warp.modThread_relayTo (w : Warp) (t : Nat) (f : Thread → Thread) : (w.modThread t f).relayTo = w.relayTo := rfl
@[simp] theorem Warp.modThread_carried (w : Warp) (t : Nat) (f : Thread → Thread) : (w.modThread t f).carried = w.carried := rfl
@[simp] theorem Warp.modThread_entry (w : Warp) (t : Nat) (f : Thread → Thread) : (w.modThread t f).entry = w.entry := rfl
@[simp] theorem Warp.modThread_teamSeq (w : Warp) (t : Nat) (f : Thread → Thread) : (w.modThread t f).teamSeq = w.teamSeq := rfl

@[simp] theorem Warp.ended_wi (w : Warp) : (w.ended).wi = w.wi := rfl
@[simp] theorem Warp.ended_core (w : Warp) : (w.ended).core = w.core := rfl
@[simp] theorem Warp.ended_quarter (w : Warp) : (w.ended).quarter = w.quarter := rfl
@[simp] theorem Warp.ended_slot (w : Warp) : (w.ended).slot = w.slot := rfl
@[simp] theorem Warp.ended_homeCore (w : Warp) : (w.ended).homeCore = w.homeCore := rfl
@[simp] theorem Warp.ended_homeSlot (w : Warp) : (w.ended).homeSlot = w.homeSlot := rfl
@[simp] theorem Warp.ended_s (w : Warp) : (w.ended).s = w.s := rfl
@[simp] theorem Warp.ended_j (w : Warp) : (w.ended).j = w.j := rfl
@[simp] theorem Warp.ended_arr (w : Warp) : (w.ended).arr = w.arr := rfl
@[simp] theorem Warp.ended_hentry (w : Warp) : (w.ended).hentry = w.hentry := rfl
@[simp] theorem Warp.ended_inh (w : Warp) : (w.ended).inh = w.inh := rfl
@[simp] theorem Warp.ended_recPc (w : Warp) : (w.ended).recPc = w.recPc := rfl
@[simp] theorem Warp.ended_recMask (w : Warp) : (w.ended).recMask = w.recMask := rfl
@[simp] theorem Warp.ended_recDefer (w : Warp) : (w.ended).recDefer = w.recDefer := rfl
@[simp] theorem Warp.ended_evt (w : Warp) : (w.ended).evt = w.evt := rfl
@[simp] theorem Warp.ended_passed (w : Warp) : (w.ended).passed = w.passed := rfl
@[simp] theorem Warp.ended_unissued (w : Warp) : (w.ended).unissued = w.unissued := rfl
@[simp] theorem Warp.ended_demoted (w : Warp) : (w.ended).demoted = w.demoted := rfl
@[simp] theorem Warp.ended_spinPc (w : Warp) : (w.ended).spinPc = w.spinPc := rfl
@[simp] theorem Warp.ended_spinN (w : Warp) : (w.ended).spinN = w.spinN := rfl
@[simp] theorem Warp.ended_spinBusy (w : Warp) : (w.ended).spinBusy = w.spinBusy := rfl
@[simp] theorem Warp.ended_yielded (w : Warp) : (w.ended).yielded = w.yielded := rfl
@[simp] theorem Warp.ended_noticeYld (w : Warp) : (w.ended).noticeYld = w.noticeYld := rfl
@[simp] theorem Warp.ended_woke (w : Warp) : (w.ended).woke = w.woke := rfl
@[simp] theorem Warp.ended_reports (w : Warp) : (w.ended).reports = w.reports := rfl
@[simp] theorem Warp.ended_noHit (w : Warp) : (w.ended).noHit = w.noHit := rfl
@[simp] theorem Warp.ended_dretry (w : Warp) : (w.ended).dretry = w.dretry := rfl
@[simp] theorem Warp.ended_pend (w : Warp) : (w.ended).pend = w.pend := rfl
@[simp] theorem Warp.ended_relayTo (w : Warp) : (w.ended).relayTo = w.relayTo := rfl
@[simp] theorem Warp.ended_carried (w : Warp) : (w.ended).carried = w.carried := rfl
@[simp] theorem Warp.ended_entry (w : Warp) : (w.ended).entry = w.entry := rfl
@[simp] theorem Warp.ended_teamSeq (w : Warp) : (w.ended).teamSeq = w.teamSeq := rfl

@[simp] theorem Warp.wakeSlots_wi (w : Warp) (slots entries : Nat) : (w.wakeSlots slots entries).wi = w.wi := rfl
@[simp] theorem Warp.wakeSlots_core (w : Warp) (slots entries : Nat) : (w.wakeSlots slots entries).core = w.core := rfl
@[simp] theorem Warp.wakeSlots_quarter (w : Warp) (slots entries : Nat) : (w.wakeSlots slots entries).quarter = w.quarter := rfl
@[simp] theorem Warp.wakeSlots_slot (w : Warp) (slots entries : Nat) : (w.wakeSlots slots entries).slot = w.slot := rfl
@[simp] theorem Warp.wakeSlots_homeCore (w : Warp) (slots entries : Nat) : (w.wakeSlots slots entries).homeCore = w.homeCore := rfl
@[simp] theorem Warp.wakeSlots_homeSlot (w : Warp) (slots entries : Nat) : (w.wakeSlots slots entries).homeSlot = w.homeSlot := rfl
@[simp] theorem Warp.wakeSlots_s (w : Warp) (slots entries : Nat) : (w.wakeSlots slots entries).s = w.s := rfl
@[simp] theorem Warp.wakeSlots_j (w : Warp) (slots entries : Nat) : (w.wakeSlots slots entries).j = w.j := rfl
@[simp] theorem Warp.wakeSlots_arr (w : Warp) (slots entries : Nat) : (w.wakeSlots slots entries).arr = w.arr := rfl
@[simp] theorem Warp.wakeSlots_hentry (w : Warp) (slots entries : Nat) : (w.wakeSlots slots entries).hentry = w.hentry := rfl
@[simp] theorem Warp.wakeSlots_inh (w : Warp) (slots entries : Nat) : (w.wakeSlots slots entries).inh = w.inh := rfl
@[simp] theorem Warp.wakeSlots_recPc (w : Warp) (slots entries : Nat) : (w.wakeSlots slots entries).recPc = w.recPc := rfl
@[simp] theorem Warp.wakeSlots_recMask (w : Warp) (slots entries : Nat) : (w.wakeSlots slots entries).recMask = w.recMask := rfl
@[simp] theorem Warp.wakeSlots_recDefer (w : Warp) (slots entries : Nat) : (w.wakeSlots slots entries).recDefer = w.recDefer := rfl
@[simp] theorem Warp.wakeSlots_evt (w : Warp) (slots entries : Nat) : (w.wakeSlots slots entries).evt = w.evt := rfl
@[simp] theorem Warp.wakeSlots_stride (w : Warp) (slots entries : Nat) : (w.wakeSlots slots entries).stride = w.stride := rfl
@[simp] theorem Warp.wakeSlots_passed (w : Warp) (slots entries : Nat) : (w.wakeSlots slots entries).passed = w.passed := rfl
@[simp] theorem Warp.wakeSlots_unissued (w : Warp) (slots entries : Nat) : (w.wakeSlots slots entries).unissued = w.unissued := rfl
@[simp] theorem Warp.wakeSlots_demoted (w : Warp) (slots entries : Nat) : (w.wakeSlots slots entries).demoted = w.demoted := rfl
@[simp] theorem Warp.wakeSlots_spinPc (w : Warp) (slots entries : Nat) : (w.wakeSlots slots entries).spinPc = w.spinPc := rfl
@[simp] theorem Warp.wakeSlots_spinN (w : Warp) (slots entries : Nat) : (w.wakeSlots slots entries).spinN = w.spinN := rfl
@[simp] theorem Warp.wakeSlots_spinBusy (w : Warp) (slots entries : Nat) : (w.wakeSlots slots entries).spinBusy = w.spinBusy := rfl
@[simp] theorem Warp.wakeSlots_yielded (w : Warp) (slots entries : Nat) : (w.wakeSlots slots entries).yielded = w.yielded := rfl
@[simp] theorem Warp.wakeSlots_noticeYld (w : Warp) (slots entries : Nat) : (w.wakeSlots slots entries).noticeYld = w.noticeYld := rfl
@[simp] theorem Warp.wakeSlots_woke (w : Warp) (slots entries : Nat) : (w.wakeSlots slots entries).woke = w.woke := rfl
@[simp] theorem Warp.wakeSlots_stall (w : Warp) (slots entries : Nat) : (w.wakeSlots slots entries).stall = w.stall := rfl
@[simp] theorem Warp.wakeSlots_reports (w : Warp) (slots entries : Nat) : (w.wakeSlots slots entries).reports = w.reports := rfl
@[simp] theorem Warp.wakeSlots_noHit (w : Warp) (slots entries : Nat) : (w.wakeSlots slots entries).noHit = w.noHit := rfl
@[simp] theorem Warp.wakeSlots_dretry (w : Warp) (slots entries : Nat) : (w.wakeSlots slots entries).dretry = w.dretry := rfl
@[simp] theorem Warp.wakeSlots_pend (w : Warp) (slots entries : Nat) : (w.wakeSlots slots entries).pend = w.pend := rfl
@[simp] theorem Warp.wakeSlots_relayTo (w : Warp) (slots entries : Nat) : (w.wakeSlots slots entries).relayTo = w.relayTo := rfl
@[simp] theorem Warp.wakeSlots_carried (w : Warp) (slots entries : Nat) : (w.wakeSlots slots entries).carried = w.carried := rfl
@[simp] theorem Warp.wakeSlots_entry (w : Warp) (slots entries : Nat) : (w.wakeSlots slots entries).entry = w.entry := rfl
@[simp] theorem Warp.wakeSlots_teamSeq (w : Warp) (slots entries : Nat) : (w.wakeSlots slots entries).teamSeq = w.teamSeq := rfl

/-! ### `Thread.clearOl`, `Thread.enter` -/

@[simp] theorem Thread.clearOl_t (th : Thread) : (th.clearOl).t = th.t := rfl
@[simp] theorem Thread.clearOl_bi (th : Thread) : (th.clearOl).bi = th.bi := rfl
@[simp] theorem Thread.clearOl_pc (th : Thread) : (th.clearOl).pc = th.pc := rfl
@[simp] theorem Thread.clearOl_m (th : Thread) : (th.clearOl).m = th.m := rfl
@[simp] theorem Thread.clearOl_g (th : Thread) : (th.clearOl).g = th.g := rfl
@[simp] theorem Thread.clearOl_rs (th : Thread) : (th.clearOl).rs = th.rs := rfl
@[simp] theorem Thread.clearOl_k (th : Thread) : (th.clearOl).k = th.k := rfl
@[simp] theorem Thread.clearOl_dcs (th : Thread) : (th.clearOl).dcs = th.dcs := rfl
@[simp] theorem Thread.clearOl_pwerr (th : Thread) : (th.clearOl).pwerr = th.pwerr := rfl
@[simp] theorem Thread.clearOl_opens (th : Thread) : (th.clearOl).opens = th.opens := rfl
@[simp] theorem Thread.clearOl_wait (th : Thread) : (th.clearOl).wait = th.wait := rfl
@[simp] theorem Thread.clearOl_exited (th : Thread) : (th.clearOl).exited = th.exited := rfl
@[simp] theorem Thread.clearOl_recCode (th : Thread) : (th.clearOl).recCode = th.recCode := rfl
@[simp] theorem Thread.clearOl_recAddr (th : Thread) : (th.clearOl).recAddr = th.recAddr := rfl
@[simp] theorem Thread.clearOl_recAux (th : Thread) : (th.clearOl).recAux = th.recAux := rfl
@[simp] theorem Thread.clearOl_recO (th : Thread) : (th.clearOl).recO = th.recO := rfl
@[simp] theorem Thread.clearOl_recL (th : Thread) : (th.clearOl).recL = th.recL := rfl
@[simp] theorem Thread.clearOl_recBad (th : Thread) : (th.clearOl).recBad = th.recBad := rfl
@[simp] theorem Thread.clearOl_recAt (th : Thread) : (th.clearOl).recAt = th.recAt := rfl
@[simp] theorem Thread.clearOl_lastIssue (th : Thread) : (th.clearOl).lastIssue = th.lastIssue := rfl
@[simp] theorem Thread.clearOl_acqPt (th : Thread) : (th.clearOl).acqPt = th.acqPt := rfl
@[simp] theorem Thread.clearOl_relPt (th : Thread) : (th.clearOl).relPt = th.relPt := rfl
@[simp] theorem Thread.clearOl_lates (th : Thread) : (th.clearOl).lates = th.lates := rfl
@[simp] theorem Thread.clearOl_owes (th : Thread) : (th.clearOl).owes = th.owes := rfl

@[simp] theorem Thread.enter_t (th : Thread) (f : Option Flt) (e : VAddr) (k : Nat) : (th.enter f e k).t = th.t := rfl
@[simp] theorem Thread.enter_bi (th : Thread) (f : Option Flt) (e : VAddr) (k : Nat) : (th.enter f e k).bi = th.bi := rfl
@[simp] theorem Thread.enter_m (th : Thread) (f : Option Flt) (e : VAddr) (k : Nat) : (th.enter f e k).m = th.m := rfl
@[simp] theorem Thread.enter_o (th : Thread) (f : Option Flt) (e : VAddr) (k : Nat) : (th.enter f e k).o = th.o := rfl
@[simp] theorem Thread.enter_l (th : Thread) (f : Option Flt) (e : VAddr) (k : Nat) : (th.enter f e k).l = th.l := rfl
@[simp] theorem Thread.enter_badOl (th : Thread) (f : Option Flt) (e : VAddr) (k : Nat) : (th.enter f e k).badOl = th.badOl := rfl
@[simp] theorem Thread.enter_g (th : Thread) (f : Option Flt) (e : VAddr) (k : Nat) : (th.enter f e k).g = th.g := rfl
@[simp] theorem Thread.enter_rs (th : Thread) (f : Option Flt) (e : VAddr) (k : Nat) : (th.enter f e k).rs = th.rs := rfl
@[simp] theorem Thread.enter_k (th : Thread) (f : Option Flt) (e : VAddr) (k : Nat) : (th.enter f e k).k = th.k := rfl
@[simp] theorem Thread.enter_dcs (th : Thread) (f : Option Flt) (e : VAddr) (k : Nat) : (th.enter f e k).dcs = th.dcs := rfl
@[simp] theorem Thread.enter_pwerr (th : Thread) (f : Option Flt) (e : VAddr) (k : Nat) : (th.enter f e k).pwerr = th.pwerr := rfl
@[simp] theorem Thread.enter_opens (th : Thread) (f : Option Flt) (e : VAddr) (k : Nat) : (th.enter f e k).opens = th.opens := rfl
@[simp] theorem Thread.enter_exited (th : Thread) (f : Option Flt) (e : VAddr) (k : Nat) : (th.enter f e k).exited = th.exited := rfl
@[simp] theorem Thread.enter_lastIssue (th : Thread) (f : Option Flt) (e : VAddr) (k : Nat) : (th.enter f e k).lastIssue = th.lastIssue := rfl
@[simp] theorem Thread.enter_acqPt (th : Thread) (f : Option Flt) (e : VAddr) (k : Nat) : (th.enter f e k).acqPt = th.acqPt := rfl
@[simp] theorem Thread.enter_relPt (th : Thread) (f : Option Flt) (e : VAddr) (k : Nat) : (th.enter f e k).relPt = th.relPt := rfl
@[simp] theorem Thread.enter_lates (th : Thread) (f : Option Flt) (e : VAddr) (k : Nat) : (th.enter f e k).lates = th.lates := rfl
@[simp] theorem Thread.enter_owes (th : Thread) (f : Option Flt) (e : VAddr) (k : Nat) : (th.enter f e k).owes = th.owes := rfl

end Sys2Proof.Machine
end

