-- ==== Sys2Proof/Tests/Slice0.lean ====
section
/-!
SUPPORT. The model's own tests: for each statement with hypotheses a state and operands that meet them (witness_<statement>), words that
decode to the instructions the spec's encodings give (test_decode_*), and terms that each check of WellFormed refuses (test_wf_*).
-/

set_option Elab.async false
set_option maxRecDepth 20000

namespace Sys2Proof.Tests
open Sys2Proof.Machine

/-! ### A small machine -/

/-- A header without guard or E. -/
def hdr : Hdr := ⟨false, false, 0⟩

/-- Sixteen registers that begin with these numbers. -/
def regsOf (ms : List Nat) : List Reg := (List.range 16).map fun k => { v := BitVec.ofNat 32 (nth ms k 0) }

/-- A warp of these threads at 0x10000, each with the same registers. -/
def warpOf (ts ms : List Nat) : Warp :=
  { wi := 0, core := 0, quarter := 0, slot := 0, homeCore := 0, homeSlot := 0, stride := some { pc := 0x10000, n := 0 },
    threads := ts.map fun t => { t := t, bi := t, pc := 0x10000, m := regsOf ms } }

/-- A firmware gang of one warp on core 0. -/
def gangOf (w : Warp) : Gang :=
  { gid := 1, bib := 1, world := 0, launch := 1, block := 0, blockT := 128, threadsN := 128, cores := [0], n := 16, spBytes := 1024,
    minop := 3, prio := 1, levels := [], root := some 64, sp := [[]], rowBase := [0], warps := [w] }

/-- A cached translation of a page: KIND 1 for data, 2 for code. -/
def page (vpn kind frame : Nat) : TlbE :=
  { slice := true, at_ := tlbSlice vpn, root := 64, world := 0, l1 := false, vpn := vpn, e1 := 0,
    e2 := BitVec.ofNat 64 (15 * 2 ^ 60 + kind * 2 ^ 58 + frame * 2 ^ 33) }

/-- The machine with these threads issuing, a code line at 0x10000 and a data page at 0x20000. -/
def base (ts ms : List Nat) : State :=
  { State.reset with
    gangs := [gangOf (warpOf ts ms)], cur := some (1, 0), nextId := 10, tlb := [page 1 2 66, page 2 1 67],
    mem := Memory.writeN [] (66 * 65536) (lineOfWord 0) }

/-- Its gang, its warp or each of its threads changed. -/
def onG (f : Gang → Gang) (s : State) : State := { s with gangs := s.gangs.map f }
def onW (f : Warp → Warp) (s : State) : State := onG (fun g => { g with warps := g.warps.map f }) s
def onT (f : Thread → Thread) (s : State) : State := onW (fun w => { w with threads := w.threads.map f }) s

/-- Its issue. -/
def iss (s : State) : Iss :=
  (s.iss? hdr).getD { r := (0, 0), g := gangOf (warpOf [] []), w := warpOf [] [], pc := 0, act := [], on := [] }

theorem issues {s : State} (h1 : (s.iss? hdr).isSome = true) (h2 : ((iss s).w.threads.map (·.t)).Nodup) : Issues s hdr (iss s) := by
  refine ⟨?_, h2⟩
  obtain ⟨i, hi⟩ := Option.isSome_iff_exists.mp h1
  simp [iss, hi]

/-- Operands in main registers: D, A, B and C from m0, m4, m8 and m12 on. -/
def ops : VOps := ⟨.m 0 true, .m 4 true, .m 8 true, .m 12 true, 0⟩

/-- For each of these widths of D, A, B and C an issue stands ready, D read too. -/
def Forms (fs : List (Nat × Nat × Nat × Nat)) : Prop :=
  ∃ (s : State) (i : Iss), Issues s hdr i ∧ i.writers ops.d ≠ [] ∧ ∀ f ∈ fs, ∀ th ∈ i.writers ops.d,
    i.ready s (flds ops f.2.1 f.2.2.1 f.2.2.2) (if f.1 = 0 then [] else [⟨ops.d, f.1⟩]) true 0 th

theorem witness_IntegerArithmeticComputes :
    Forms [(1, 1, 1, 0), (2, 2, 2, 0), (1, 1, 1, 1), (2, 2, 2, 2), (2, 1, 1, 2), (1, 1, 0, 0), (2, 2, 0, 0), (2, 2, 1, 0)] := by
  refine ⟨base [0, 1] [], iss (base [0, 1] []), issues (by decide) (by decide), by decide, ?_⟩
  simp only [Iss.ready]
  decide

theorem witness_LogicComputes :
    Ty.w32.isInt = true ∧ Forms [(1, 1, 1, 0), (2, 2, 2, 0), (2, 2, 1, 0), (2, 2, 2, 1), (2, 2, 2, 2), (1, 1, 1, 1), (1, 2, 0, 0)] := by
  refine ⟨rfl, base [0, 1] [], iss (base [0, 1] []), issues (by decide) (by decide), by decide, ?_⟩
  simp only [Iss.ready]
  decide

theorem witness_GuardsAndMovesCompute_forms :
    Forms [(0, 1, 1, 0), (0, 2, 2, 0), (0, 0, 0, 0), (0, 1, 0, 0), (1, 0, 0, 0), (2, 2, 2, 0), (2, 2, 0, 0)] := by
  refine ⟨base [0, 1] [], iss (base [0, 1] []), issues (by decide) (by decide), by decide, ?_⟩
  simp only [Iss.ready]
  decide

/-- movsp of the last plain special register and of $lane. -/
theorem witness_GuardsAndMovesCompute_movsp : ∀ k ∈ [0x00, 0x0D],
    ∃ (s : State) (i : Iss), Issues s hdr i ∧ i.writers ops.d ≠ [] ∧ ∀ th ∈ i.writers ops.d,
      i.ready s (flds ops 1 0 0) [⟨ops.d, 1⟩] false 0 th ∧ i.arg s 0 ops.a 1 th < 0x100 ∧
        s.special i.g i.w th (i.arg s 0 ops.a 1 th) ≠ none := by
  intro k hk
  refine ⟨base [0] [0, 0, 0, 0, k], iss (base [0] [0, 0, 0, 0, k]), ?_⟩
  simp only [List.mem_cons, List.not_mem_nil, or_false] at hk
  simp only [Iss.ready]
  rcases hk with rfl | rfl <;> exact ⟨issues (by decide) (by decide), by decide, by decide⟩

/-- wrsp to $pwerr, to $dcs and to a register that ignores it. -/
theorem witness_GuardsAndMovesCompute_wrsp : ∀ k ∈ [0x0C#8, 0x0D, 0x00],
    ∃ (s : State) (i : Iss) (x : VOps), Issues s hdr i ∧ x.d = .sr k ∧ i.writers x.d ≠ [] ∧
      ∀ th ∈ i.writers x.d, i.ready s (flds x 1 0 0) [] false x.imm th := by
  intro k hk
  refine ⟨base [0] [], iss (base [0] []), ⟨.sr k, .m 4 true, .none, .none, 0⟩, issues (by decide) (by decide), rfl, ?_⟩
  simp only [List.mem_cons, List.not_mem_nil, or_false] at hk
  simp only [Iss.ready]
  rcases hk with rfl | rfl | rfl <;> exact ⟨by decide, by decide⟩

/-- The ends of a 32-bit type, and a finite code and a negative zero of FP32. -/
theorem witness_NumberHelpersAgree :
    Ty.w32.isInt = true ∧ (∀ v ∈ [0, 2 ^ 32 - 1], v < 2 ^ tyBits .w32) ∧
      (∃ v, v < 2 * fp32.signBit ∧ ∃ n e, fp32.decode v = .num n e ∧ n ≠ 0) ∧
      ∃ v, v < 2 * fp32.signBit ∧ fp32.decode v = .negZero :=
  ⟨rfl, by decide, ⟨0x3F800000, by decide, _, _, rfl, by decide⟩, ⟨0x80000000, by decide, by decide⟩⟩

theorem witness_FloatComputes : Forms [(1, 1, 1, 0), (1, 1, 1, 1), (1, 1, 0, 0)] := by
  refine ⟨base [0, 1] [], iss (base [0, 1] []), issues (by decide) (by decide), by decide, ?_⟩
  simp only [Iss.ready]
  decide

theorem witness_PackedComputes : Forms [(1, 1, 1, 0), (1, 1, 1, 1)] := by
  refine ⟨base [0, 1] [], iss (base [0, 1] []), issues (by decide) (by decide), by decide, ?_⟩
  simp only [Iss.ready]
  decide

theorem witness_ConversionsCompute_forms : Forms [(1, 1, 0, 0), (2, 2, 0, 0), (1, 2, 0, 0), (1, 1, 1, 1), (1, 1, 1, 0)] := by
  refine ⟨base [0, 1] [], iss (base [0, 1] []), issues (by decide) (by decide), by decide, ?_⟩
  simp only [Iss.ready]
  decide

/-- Codes of a positive power of two, of a number between two integers and two powers, of a negative one, and of each special value. -/
theorem witness_FloatComputes_values :
    (∃ n e, fp32.decode 0x3F800000 = .num n e ∧ 0 < n ∧ (n : ℚ) * (2 : ℚ) ^ e = (1 : Int) ∧ (n : ℚ) * (2 : ℚ) ^ e = (2 : ℚ) ^ (0 : Int)) ∧
    (∃ n e, fp32.decode 0x3FC00000 = .num n e ∧ (1 : Int) < (n : ℚ) * (2 : ℚ) ^ e ∧ (n : ℚ) * (2 : ℚ) ^ e < (1 : Int) + 1 ∧
      (2 : ℚ) ^ (0 : Int) < (n : ℚ) * (2 : ℚ) ^ e ∧ (n : ℚ) * (2 : ℚ) ^ e < (2 : ℚ) ^ ((0 : Int) + 1)) ∧
    (∃ n e, fp32.decode 0xBF800000 = .num n e ∧ n < 0) ∧ fp32.decode 0x7FC00000 = .nan ∧ fp32.decode 0xFF800000 = .inf true ∧
    (fp32.decode 0).isZero = true ∧ (fp32.decode 0x80000000).isZero = true := by
  refine ⟨⟨0x800000, -23, by decide, by decide, by norm_num, by norm_num⟩,
    ⟨0xC00000, -23, by decide, by norm_num, by norm_num, by norm_num, by norm_num⟩, ⟨-0x800000, -23, by decide, by decide⟩, by decide, by decide, by decide,
    by decide⟩

/-- A row of sixteen lanes whose operands stand ready. -/
theorem witness_ConversionsCompute_row : ∃ (s : State) (i : Iss), Issues s hdr i ∧ i.on ≠ [] ∧
    (∀ th ∈ i.on, ∀ k < 16, ∃ u ∈ i.on, u.t = th.t / 16 * 16 + k) ∧ ops.d.cls ≠ .s ∧
    ∀ f ∈ [(1, 1, 1, 0), (1, 1, 1, 1), (2, 1, 0, 1)], ∀ th ∈ i.on,
      i.ready s (flds ops f.2.1 f.2.2.1 f.2.2.2) [⟨ops.d, f.1⟩] true 0 th := by
  refine ⟨base (List.range 16) [], iss (base (List.range 16) []), issues (by decide) (by decide), by decide, by decide, by decide, ?_⟩
  simp only [Iss.ready]
  decide

/-- The next line's second slot is a target, whose line can be read and, behind an invalidation, cannot; brx and loopd have operands ready,
loopd on both sides of its last turn. -/
theorem witness_TransfersGo : ∃ (s : State) (i : Iss), Issues s hdr i ∧ i.on ≠ [] ∧
    (let v : Int := i.pc.toNat / 64 * 64 + 64 * (0#21).toInt + 12 * ((4#3).toNat : Int)
     let held := { s with invals := [{ line := 66 * 512, die := 1, store := 4, hold := true }] }
     0 ≤ v ∧ s.targetFault i.g i.w.core v.toNat true = none ∧ s.fetchHeld i.g i.w.core v.toNat = false ∧ Issues held hdr i ∧
       held.fetchHeld i.g i.w.core v.toNat = true) ∧
    (∀ th ∈ i.on, i.ready s [⟨.m 4 true, 2⟩] [] false 0 th ∧ s.targetFault i.g i.w.core (i.arg s 0 (.m 4 true) 2 th) true = none ∧
      s.fetchHeld i.g i.w.core (i.arg s 0 (.m 4 true) 2 th) = false) ∧
    (∀ th ∈ i.on, i.ready s [⟨.m 8 true, 1⟩] [] false 0 th ∧ i.arg s 0 (.m 8 true) 1 th = 1 ∧ i.arg s 0 (.m 9 true) 1 th = 2) := by
  refine ⟨base [0] [0, 0, 0, 0, 0x1000C, 0, 0, 0, 1, 2], iss (base [0] [0, 0, 0, 0, 0x1000C, 0, 0, 0, 1, 2]),
    issues (by decide) (by decide), by decide, ⟨by decide, by decide, by decide, issues (by decide) (by decide), by decide⟩, ?_, ?_⟩
  · simp only [Iss.ready]
    decide
  · simp only [Iss.ready]
    decide

/-- A call with room in the return stack, one with all eight entries full and room to spill, a return from the stack, and one whose fill has
arrived. -/
theorem witness_TransfersGo_calls :
    let fine := fun (s : State) (i : Iss) (v : Nat) => s.targetFault i.g i.w.core v true = none ∧ s.fetchHeld i.g i.w.core v = false
    let spill := fun (i : Iss) (th : Thread) (k : Nat) => (i.g.spillBase + i.g.launchIndex th * i.g.spillSize + 8 * k) % 2 ^ 64
    (∃ (s : State) (i : Iss), Issues s hdr i ∧ ∀ th ∈ i.on, i.ready s [⟨.m 4 true, 2⟩] [⟨.m 0 true, 2⟩] false 0 th ∧
      fine s i (i.arg s 0 (.m 4 true) 2 th) ∧ th.rs.length < 8 ∧ th.rs ≠ []) ∧
    (∃ (s : State) (i : Iss), Issues s hdr i ∧ ∀ th ∈ i.on, i.ready s [⟨.m 4 true, 2⟩] [⟨.m 0 true, 2⟩] false 0 th ∧
      fine s i (i.arg s 0 (.m 4 true) 2 th) ∧ th.rs.length = 8 ∧ 8 * (th.k + 1) ≤ i.g.spillSize ∧ s.acqWaits i.r th = false ∧
      s.locate i.g i.w .glDev .plainStore 8 (spill i th th.k) = .ok (.phys (67 * 65536), false)) ∧
    ∃ (s : State) (i : Iss), Issues s hdr i ∧ i.w.stall = some (.ret true) ∧ ∀ th ∈ i.on, th.rs = [] ∧ th.k = 1 ∧
      s.locate i.g i.w .glDev .load 8 (spill i th (th.k - 1)) = .ok (.phys (67 * 65536), false) ∧ s.homeHeld i.w.core (67 * 65536) true = false ∧
      s.acqWaits i.r th = false ∧ s.flights = [] ∧
      fine s i (s.fillWord i th (67 * 65536)) := by
  let m := [0, 0, 0, 0, 0x10018]
  let g := onG fun g => { g with spillBase := 0x20000, spillSize := 64 }
  let s1 := onT (fun th => { th with rs := [0x1000C] }) (base [0] m)
  let s2 := g (onT (fun th => { th with rs := List.replicate 8 0x1000C }) (base [0] m))
  let s3 := { g (onT (fun th => { th with k := 1 }) (onW (fun w => { w with stall := some (.ret true) }) (base [0] m))) with
    mem := Memory.writeN (Memory.writeN [] (66 * 65536) (lineOfWord 0)) (67 * 65536) [0x18, 0, 1] }
  refine ⟨⟨s1, iss s1, issues (by decide) (by decide), ?_⟩, ⟨s2, iss s2, issues (by decide) (by decide), ?_⟩,
    s3, iss s3, issues (by decide) (by decide), by decide, by decide⟩
  · simp only [Iss.ready]
    decide
  · simp only [Iss.ready]
    decide

theorem witness_ExitEndsThreads : ∃ (s : State) (i : Iss), Issues s hdr i ∧ i.on ≠ [] ∧ i.w.report? (i.on.map (·.t)) = none :=
  ⟨base [0, 1] [], iss (base [0, 1] []), issues (by decide) (by decide), by decide, by decide⟩

/-- Two groups of two whole members each, named in registers, and the full membership. -/
theorem witness_ExchangesComplete : ∃ (s : State) (i : Iss), Issues s hdr i ∧
    (∀ full : Bool,
      let mem := fun (th : Thread) => if full then BitVec.allOnes 128 else BitVec.ofNat 128 (i.arg s 0 ops.c 4 th)
      ∀ th ∈ i.on, (mem th).getLsbD th.t ∧ (∀ u ∈ i.on, (mem u).getLsbD th.t → mem u = mem th) ∧
        ∀ u ∈ i.w.threads, (mem th).getLsbD u.t → u.exited = false → u ∈ i.act) ∧
    (∀ th ∈ i.on, i.ready s (flds ops 0 0 4) [] false 0 th ∧ s.flushHeld i.r (fun f => !f.gw) = false) ∧
    ∀ f ∈ [(1, 1, 1, 0), (2, 2, 1, 0), (2, 2, 1, 4), (1, 0, 0, 4), (4, 0, 0, 0), (1, 1, 0, 4)], ∀ th ∈ i.on,
      i.ready s (flds ops f.2.1 f.2.2.1 f.2.2.2) [⟨ops.d, f.1⟩] false 0 th := by
  let s := onT (fun th => { th with m := modAt th.m 12 fun _ => { v := if th.t < 2 then 3 else 12 } }) (base (List.range 4) [])
  refine ⟨s, iss s, issues (by decide) (by decide), by decide, ?_, ?_⟩
  · simp only [Iss.ready]
    decide
  · simp only [Iss.ready]
    decide

/-- join of two threads, with no arrival recorded; jset and jget have operands ready. -/
theorem witness_RejoinsComplete_masks : ∃ (s : State) (i : Iss) (th : Thread) (r : List Thread), Issues s hdr i ∧ i.on = th :: r ∧
    nth i.w.arr 15 0 = 0 ∧ i.ready s [⟨ops.a, 4⟩] [] false 0 th ∧ ∀ u ∈ i.writers ops.d, i.ready s (flds ops 0 0 0) [⟨ops.d, 4⟩] false 0 u := by
  refine ⟨base [0, 1] [], iss (base [0, 1] []), _, _, issues (by decide) (by decide), rfl, by decide, ?_, ?_⟩
  · simp only [Iss.ready]
    decide
  · simp only [Iss.ready]
    decide

/-- Threads 1 and 2 arrive behind thread 0, which has waited: they make jN whole, or a fourth thread is still due. -/
theorem witness_RejoinsComplete_waits : ∀ whole : Bool, ∃ (s : State) (i : Iss), Issues s hdr i ∧ i.on ≠ [] ∧ i.w.arr.length = 16 ∧
    (∀ v ∈ i.w.threads, ∀ j z e, v.wait = .jwait j (some (z, e)) → s.now i.w.core ≤ z) ∧ (∀ th ∈ i.on, th.wait = .none) ∧
    (let all := nth i.w.arr 15 0 ||| maskOf ((i.on.filter fun th => (nth i.w.j 15 0).getLsbD th.t).map (·.t))
     (nth i.w.j 15 0 &&& maskOf (i.w.live.map (·.t)) &&& ~~~all = 0) = (whole = true)) ∧
    (∃ th ∈ i.w.threads, (nth i.w.arr 15 0).getLsbD th.t = true ∧ th.wait = .jwait 15 (some (0, 1)) ∧ 1 < th.m.length) ∧
    (∃ th ∈ i.on, (nth i.w.j 15 0).getLsbD th.t = true) ∧ (∃ th ∈ i.on, (nth i.w.j 15 0).getLsbD th.t = false) ∧
    ∀ th ∈ i.on, 0 < th.m.length ∧ i.ready s [⟨ops.a, 1⟩] [⟨ops.d, 1⟩] false 0 th ∧ i.arg s 0 ops.a 1 th = 1 := by
  let mk := fun whole : Bool => onT (fun th => if th.t = 0 then { th with pc := 0x10018, wait := .jwait 15 (some (0, 1)) } else th)
    (onW (fun w => { w with j := modAt w.j 15 fun _ => if whole then 3 else 11, arr := modAt w.arr 15 fun _ => 1 })
      (base ([0, 1, 2] ++ if whole then [] else [3]) [0, 0, 0, 0, 1]))
  intro whole
  let s := if whole then mk true else onT (fun th => if th.t = 3 then { th with pc := 0x1000C } else th) (mk false)
  simp only [Iss.ready]
  refine ⟨s, iss s, ?_⟩
  cases whole with
  | true =>
    refine ⟨issues (by decide) (by decide), by decide, by decide, ?_, by decide, by decide, by decide, by decide, by decide, by decide⟩
    intro v _ j z e _
    exact (by decide : s.now (iss s).w.core = 0) ▸ Nat.zero_le z
  | false =>
    refine ⟨issues (by decide) (by decide), by decide, by decide, ?_, by decide, by decide, by decide, by decide, by decide, by decide⟩
    intro v _ j z e _
    exact (by decide : s.now (iss s).w.core = 0) ▸ Nat.zero_le z

/-- A jwaitt whose limit lies one clock behind, and one whose limit is its core's clock. -/
theorem witness_RejoinsComplete_expiry : ∃ (s : State) (w : Warp), s.warp? (1, 0) = some w ∧
    (∃ th, w.thread? 0 = some th ∧ th.wait = .jwait 15 (some (0, 0)) ∧ 0 < th.m.length) ∧ s.now w.core = 1 ∧
    (∃ th, w.thread? 1 = some th ∧ th.wait = .jwait 15 (some (1, 0)) ∧ 0 < th.m.length) ∧ 15 < w.arr.length ∧
    ∀ v ∈ w.threads, ∀ j z e, v.t = 1 → v.wait = .jwait j (some (z, e)) → s.now w.core ≤ z :=
  let s := (onT (fun th => { th with wait := .jwait 15 (some (th.t, 0)) }) (base [0, 1] [])).modCore 0 fun k => { k with clock := 1 }
  let w := (iss (base [0, 1] [])).w.mapThreads fun th => { th with wait := .jwait 15 (some (th.t, 0)) }
  have now : s.now 0 = 1 := by decide
  ⟨s, w, by decide, ⟨_, rfl, rfl, by decide⟩, now, ⟨_, rfl, rfl, by decide⟩, by decide, fun v hv j z e ht hw => by
    have : ∀ v ∈ w.threads, v.t = 1 → v.wait = .jwait 15 (some (1, 0)) := by decide
    cases hw.symm.trans (this v hv ht)
    exact now.le⟩
/-! ### Groups 1, 8 and 9 -/

/-- Thread 0's flight of this act at a place. -/
def flight (act : Act) (place : Place) (len : Nat) : Flight :=
  { id := 5, gid := 1, wi := 0, t := 0, core := 0, die := 0, world := 0, pc := 0x10000, act := act, place := place, len := len }

theorem witness_DivisionsDepart : ∃ (s : State) (i : Iss), Issues s hdr i ∧ Ty.w32.isInt = true ∧ ops.d.cls = .m ∧
    i.writers ops.d ≠ [] ∧ ∀ n ∈ [1, 2], ∀ th ∈ i.writers ops.d, i.ready s [⟨ops.a, n⟩, ⟨ops.b, n⟩] [⟨ops.d, n⟩] false 0 th := by
  refine ⟨base [0, 1] [], iss (base [0, 1] []), issues (by decide) (by decide), rfl, rfl, by decide, ?_⟩
  simp only [Iss.ready]
  decide

/-- The last words and the last 16 bytes of the scratchpad. -/
theorem witness_NearLoadsComplete_pad : ∀ z ∈ [Sz.b32, Sz.b128],
    ∃ (s : State) (i : Iss), Issues s hdr i ∧ i.writers ops.d ≠ [] ∧ ∀ th ∈ i.writers ops.d,
      i.ready s [⟨ops.a, 1⟩] [⟨ops.d, z.words⟩] false 0 th ∧ s.acqWaits i.r th = false ∧
      (let off := wrapN 32 (i.arg s 0 ops.a 1 th + (0#21).toInt)
       off % szLen z = 0 ∧ off + szLen z = i.g.spBytes ∧ s.padBad i.g.gid 0 off (szLen z) = false ∧
         s.padHeld i.r th.t 0 off (szLen z) true = false ∧ s.padHeld i.r th.t 0 off (szLen z) false = false) ∧ s.flights = [] ∧ i.g.veils = [] := by
  intro z hz
  simp only [List.mem_cons, List.not_mem_nil, or_false] at hz
  simp only [Iss.ready]
  rcases hz with rfl | rfl
  · exact ⟨base [0] [0, 0, 0, 0, 1020], iss (base [0] [0, 0, 0, 0, 1020]), issues (by decide) (by decide), by decide, by decide⟩
  · exact ⟨base [0] [0, 0, 0, 0, 1008], iss (base [0] [0, 0, 0, 0, 1008]), issues (by decide) (by decide), by decide, by decide⟩

/-- A late load of the last word of the scratchpad. -/
theorem witness_LateLoadsLookAgain : ∃ (s : State) (g : Gang) (w : Warp) (th : Thread) (l : Late), s.gang? 1 = some g ∧
    s.warp? (1, 0) = some w ∧ w.thread? 0 = some th ∧ th.lates[0]? = some l ∧ w.hasDst 0 l.dst ∧ l.dst = .m 15 1 ∧ (l.len + 3) / 4 = 1 ∧
    s.padBad 1 l.gc l.off l.len = false ∧ ∀ r ∈ l.dst.keys 0, (w.regAt r).bad = none :=
  let s := onT (fun th => { th with lates := [{ id := 5, dst := .m 15 1, gc := 0, off := 1020, len := 4, signed := false }] }) (base [0] [])
  ⟨s, _, _, _, _, rfl, rfl, rfl, rfl, ⟨_, rfl, rfl, by decide⟩, rfl, by decide, by decide, by decide⟩

/-- The last word of a window of 8 bytes, cached, and the word beyond it. -/
theorem witness_NearLoadsComplete_window : ∀ p ∈ [(4, PwRead.value 7), (8, .beyond)],
    ∃ (s : State) (i : Iss), Issues s hdr i ∧ i.writers ops.d ≠ [] ∧ ∀ th ∈ i.writers ops.d,
      i.ready s [⟨ops.a, 1⟩] [⟨ops.d, 1⟩] false 0 th ∧ s.acqWaits i.r th = false ∧
      s.pwRead i.g i.w.core 0 4 (i.arg s 0 ops.a 1 th + (0#21).toInt) = p.2 := by
  intro p hp
  simp only [List.mem_cons, List.not_mem_nil, or_false] at hp
  simp only [Iss.ready]
  let mk := fun a => (onG (fun g => { g with windows := [{ base := 0x20000, size := 8, bound := true }] }) (base [0] [0, 0, 0, 0, a])).modCore 0
    fun c => { c with pcache := [(pcKey (gangOf (warpOf [0] [])) 0x20004, 7)] }
  rcases hp with rfl | rfl
  · exact ⟨mk 4, iss (mk 4), issues (by decide) (by decide), by decide, by decide⟩
  · exact ⟨mk 8, iss (mk 8), issues (by decide) (by decide), by decide, by decide⟩

/-- The last word of a core of the block and of a page. -/
theorem witness_FarAccessesDepart : ∀ p ∈ [(Spc.gw, 1020, Place.pad 0 1020), (.glDev, 0x2FFFC, .phys (68 * 65536 - 4))],
    ∃ (s : State) (i : Iss), Issues s hdr i ∧ i.writers ops.d ≠ [] ∧ ops.d.cls = .m ∧ i.w.report? (i.on.map (·.t)) = none ∧
      ∀ k ∈ [AccKind.load, .atomic], ∀ th ∈ i.writers ops.d,
        i.ready s [⟨ops.a, if p.1 = .gw then 1 else 2⟩, ⟨ops.b, 1⟩, ⟨ops.c, 1⟩] [⟨ops.d, 1⟩] false 0 th ∧ s.acqWaits i.r th = false ∧
        s.relWaits i.r th = false ∧
        s.locate i.g i.w p.1 k 4 (wrapN (if p.1 = .gw then 32 else 64)
          (i.arg s 0 ops.a (if p.1 = .gw then 1 else 2) th + (0#21).toInt)) = .ok (p.2.2, false) := by
  intro p hp
  simp only [List.mem_cons, List.not_mem_nil, or_false] at hp
  simp only [Iss.ready]
  rcases hp with rfl | rfl
  · exact ⟨base [0] [0, 0, 0, 0, 1020], iss (base [0] [0, 0, 0, 0, 1020]), issues (by decide) (by decide), by decide, rfl, by decide, by decide⟩
  · exact ⟨base [0] [0, 0, 0, 0, 0x2FFFC], iss (base [0] [0, 0, 0, 0, 0x2FFFC]), issues (by decide) (by decide), by decide, rfl, by decide, by decide⟩

theorem witness_FarAccessesDepart_prefetch : ∃ (s : State) (i : Iss), Issues s hdr i ∧ i.on ≠ [] ∧
    ∀ th ∈ i.on, emptyAt i.w th ops.a 2 ≠ some true :=
  ⟨base [0] [], iss (base [0] []), issues (by decide) (by decide), by decide, by decide⟩

/-- A quotient, and a load of a clean and of a poisoned word, due to a register whose warp lives. -/
theorem witness_FillsDeliver : ∃ (s : State) (w : Warp), s.warp? (1, 0) = some w ∧ w.hasDst 0 (.m 15 1) ∧ (∃ th ∈ w.threads, th.exited = false) ∧
    w.relayTo = none ∧
    (let f : Flight := { flight (.value 7) .reg 4 with dst := some (.m 15 1) }
     ({ s with flights := [f] } : State).flight? 5 = some f ∧ f.len = 4 * 1) ∧
    let f : Flight := { flight (.load false) (.phys (67 * 65536)) 4 with dst := some (.m 15 1) }
    ({ s with flights := [f] } : State).flight? 5 = some f ∧ f.done ≤ f.parts ∧ (f.len + 3) / 4 = 1 ∧
      ({ s with flights := [f] } : State).maySample f = true ∧ ({ s with flights := [f] } : State).sampleBad f = false ∧
      ({ s with flights := [f], badMem := [67 * 16384] } : State).sampleBad f = true :=
  ⟨base [0] [], warpOf [0] [], rfl, ⟨_, rfl, rfl, by decide⟩, ⟨_, List.mem_cons_self, rfl⟩, rfl, by decide, by decide⟩

/-- Stores to the last word of the scratchpad, of a core of the block and of a page. -/
theorem witness_StoresDepart : ∀ p ∈ [(Spc.sp, 1020, Place.pad 0 1020), (.gw, 1020, .pad 0 1020), (.glDev, 0x2FFFC, .phys (68 * 65536 - 4))],
    ∃ (s : State) (i : Iss), Issues s hdr i ∧ i.on ≠ [] ∧ (∀ a, i.w.stall ≠ some (.table [] a)) ∧ i.w.report? (i.on.map (·.t)) = none ∧
      ∀ th ∈ i.on, i.ready s [⟨ops.a, if p.1 = .glDev then 2 else 1⟩, ⟨ops.b, 1⟩] [] false 0 th ∧ s.acqWaits i.r th = false ∧
        s.relWaits i.r th = false ∧ s.locate i.g i.w p.1 .store 4 (wrapN (if p.1 = .glDev then 64 else 32)
          (i.arg s 0 ops.a (if p.1 = .glDev then 2 else 1) th + (0#21).toInt)) = .ok (p.2.2, false) := by
  intro p hp
  simp only [List.mem_cons, List.not_mem_nil, or_false] at hp
  simp only [Iss.ready]
  rcases hp with rfl | rfl | rfl
  · exact ⟨base [0] [0, 0, 0, 0, 1020], iss (base [0] [0, 0, 0, 0, 1020]), issues (by decide) (by decide), by decide, (fun _ h => nomatch h), by decide, by decide⟩
  · exact ⟨base [0] [0, 0, 0, 0, 1020], iss (base [0] [0, 0, 0, 0, 1020]), issues (by decide) (by decide), by decide, (fun _ h => nomatch h), by decide, by decide⟩
  · exact ⟨base [0] [0, 0, 0, 0, 0x2FFFC], iss (base [0] [0, 0, 0, 0, 0x2FFFC]), issues (by decide) (by decide), by decide, (fun _ h => nomatch h), by decide, by decide⟩

/-- Two threads' observed stores to words that do not meet, one the last of the scratchpad. -/
theorem witness_ScratchpadStoresLand_observed : ∃ (s : State) (i : Iss), Issues s hdr i ∧ i.on.length = 2 ∧ (∀ a, i.w.stall ≠ some (.table [] a)) ∧
    i.w.report? (i.on.map (·.t)) = none ∧ Memory.wf (nth i.g.sp 0 []) = true ∧ s.flights = [] ∧
    (∀ th ∈ i.on, i.ready s [⟨ops.a, 1⟩, ⟨ops.b, 1⟩] [] false 0 th ∧ s.acqWaits i.r th = false ∧ s.relWaits i.r th = false ∧
      (let off := wrapN 32 (i.arg s 0 ops.a 1 th + (0#21).toInt)
       off % 4 = 0 ∧ off + 4 ≤ i.g.spBytes ∧ i.g.touchesObj 0 off 4 = false ∧ s.padHeld i.r th.t 0 off 4 false = false)) ∧
    ∀ th ∈ i.on, ∀ u ∈ i.on, th ≠ u → overlaps (i.arg s 0 ops.a 1 th) 4 (i.arg s 0 ops.a 1 u) 4 = false := by
  let s := onT (fun th => { th with m := modAt th.m 4 fun _ => { v := if th.t = 0 then 1016 else 1020 } }) (base [0, 1] [])
  refine ⟨s, iss s, issues (by decide) (by decide), by decide, (fun _ h => nomatch h), by decide, by decide, rfl, ?_, by decide⟩
  simp only [Iss.ready]
  decide

theorem witness_ScratchpadStoresLand : ∃ (s : State) (g : Gang) (f : Flight), s.flight? 5 = some f ∧ f.act = .store ∧ f.place = .pad 0 1020 ∧
    f.finished = false ∧ s.mayPerform f = true ∧ s.gang? f.gid = some g ∧ Memory.wf (nth g.sp 0 []) = true ∧ 0 < g.sp.length ∧
    ∃ w ∈ g.warps, ∃ th ∈ w.threads, th.exited = false :=
  let f := { flight .store (.pad 0 1020) 4 with data := [1, 2, 3, 4] }
  ⟨{ base [0] [] with flights := [f] }, gangOf (warpOf [0] []), f, rfl, rfl, rfl, rfl, by decide, rfl, rfl, by decide,
    _, List.mem_cons_self, _, List.mem_cons_self, rfl⟩

/-- A store, each half of one of sixteen bytes, the second behind the first, an atomic on a sound word and on a poisoned one, and one the
home refuses. -/
theorem witness_StoresReachHome : ∃ s : State, s.mem.wf = true ∧
    (∀ p ∈ [(4, 0, 0), (16, 0, 0), (16, 1, 0), (16, 2, 0), (16, 2, 1)], ∃ f : Flight,
      ({ s with flights := [f] } : State).flight? 5 = some f ∧ f.place = .phys (67 * 65536) ∧ f.finished = false ∧
      ({ s with flights := [f] } : State).mayPerform f = true ∧ s.routeHeld f = false ∧ f.act = .store ∧ s.refusal f (67 * 65536) = none ∧
      f.data.length = f.len ∧ f.len = p.1 ∧ f.done = p.2.2 ∧ p.2.1 ≤ 2) ∧
    (∀ b ∈ [true, false], ∃ (s : State) (f : Flight), s.flight? 5 = some f ∧ f.place = .phys (67 * 65536) ∧ f.finished = false ∧
      s.mayPerform f = true ∧ s.routeHeld f = false ∧ f.act = .atom .w32 .add 1 none ∧ s.refusal f (67 * 65536) = none ∧
      s.hotAt (67 * 65536) = none ∧ s.lineHeld (lineOf (67 * 65536)) = false ∧ s.memBad (67 * 65536) f.len = b) ∧
    ∃ f : Flight, ({ s with flights := [f] } : State).flight? 5 = some f ∧ f.place = .phys (67 * 65536) ∧ f.finished = false ∧
      ({ s with flights := [f] } : State).mayPerform f = true ∧ s.routeHeld f = false ∧ f.done = 0 ∧ s.refusal f (67 * 65536) ≠ none := by
  refine ⟨base [0] [], by decide, ?_, ?_, { flight .store (.phys (67 * 65536)) 4 with world := 3 }, by decide⟩
  · intro p hp
    simp only [List.mem_cons, List.not_mem_nil, or_false] at hp
    let big := { flight .store (.phys (67 * 65536)) 16 with data := List.replicate 16 1 }
    rcases hp with rfl | rfl | rfl | rfl | rfl
    · exact ⟨{ flight .store (.phys (67 * 65536)) 4 with data := List.replicate 4 1 }, by decide⟩
    · exact ⟨big, by decide⟩
    · exact ⟨big, by decide⟩
    · exact ⟨big, by decide⟩
    · exact ⟨{ big with done := 1 }, by decide⟩
  · intro b hb
    let f := flight (.atom .w32 .add 1 none) (.phys (67 * 65536)) 4
    refine ⟨{ base [0] [] with flights := [f], badMem := if b then [67 * 16384] else [] }, f, ?_⟩
    simp only [List.mem_cons, List.not_mem_nil, or_false] at hb
    rcases hb with rfl | rfl <;> decide

/-- An access that has been performed, one refused, and one unanswered for exactly 2^24 clocks. -/
theorem witness_HomeTrafficMoves_acks : ∃ (w : Warp) (th : Thread), w.thread? 0 = some th ∧ th.exited = false ∧
    ∀ f ∈ [{ flight .store (.phys (67 * 65536)) 4 with seq := some 0, done := 1 },
           { flight .store (.phys (67 * 65536)) 4 with seq := some 0, refused := true },
           { flight .store (.phys (67 * 65536)) 4 with seq := some 0, needOst := true }],
      ∃ s : State, s.flight? 5 = some f ∧ s.warp? (f.gid, f.wi) = some w ∧ f.seq = some 0 ∧ f.place.isPhys = true ∧ f.writes = true ∧
        f.dst = none ∧ (f.refused = true ∨ s.performedDev f = true ∨ f.needOst = true ∧ f.issued + 2 ^ 24 = s.now f.core) := by
  refine ⟨warpOf [0] [], _, rfl, rfl, ?_⟩
  intro f hf
  refine ⟨{ (base [0] []).modCore 0 fun c => { c with clock := 2 ^ 24 } with flights := [f] }, ?_⟩
  simp only [List.mem_cons, List.not_mem_nil, or_false] at hf
  rcases hf with rfl | rfl | rfl <;> decide

/-- The head of a hot word's queue, with and without one behind it; an invalidation on its way, and one arrived. -/
theorem witness_HomeTrafficMoves : ∃ (s : State) (f : Flight), s.flight? 5 = some f ∧ f.place = .phys (67 * 65536) ∧
    f.act = .atom .w32 .add 1 none ∧ s.refusal f (67 * 65536) = none ∧ s.lineHeld (67 * 65536 / 128) = false ∧ s.mem.wf = true ∧ f.finished = false ∧
    s.memBad (67 * 65536) f.len = false ∧ s.struck (48 * homeDie (67 * 65536) + sliceOf (67 * 65536)) 4 18 = false ∧
    (∀ rest ∈ [[], [6]], 5 ∉ rest ∧ ({ s with hot := [(67 * 16384, 5 :: rest)] } : State).hot.find? (fun h => h.1 = 67 * 65536 / 4) =
      some (67 * 65536 / 4, 5 :: rest)) ∧
    (∃ v, s.invals.find? (fun v => v.die = 1 && v.line = 9 && !v.arrived) = some v) ∧
    ∃ v, s.invals.find? (fun v => v.die = 2 && v.line = 9 && v.arrived) = some v :=
  let f := flight (.atom .w32 .add 1 none) (.phys (67 * 65536)) 4
  ⟨{ base [0] [] with
      flights := [f], invals := [{ line := 9, die := 1, store := 4, hold := false }, { line := 9, die := 2, store := 4, hold := false, arrived := true }] },
    f, by decide, rfl, rfl, by decide, by decide, by decide, by decide, by decide, by decide, by decide, ⟨_, rfl⟩, ⟨_, rfl⟩⟩

/-- Two threads' atomics on the last word of the scratchpad. -/
theorem witness_ScratchpadAtomicsComplete : ∃ (s : State) (i : Iss), Issues s hdr i ∧ (i.writers ops.d).length = 2 ∧
    i.w.report? (i.on.map (·.t)) = none ∧ s.struck i.w.core i.w.quarter 16 = false ∧ s.flights = [] ∧
    ∀ th ∈ i.writers ops.d, i.ready s [⟨ops.a, 1⟩, ⟨ops.b, 1⟩, ⟨ops.c, 1⟩] [⟨ops.d, 1⟩] false 0 th ∧ s.acqWaits i.r th = false ∧ s.relWaits i.r th = false ∧
      (let off := wrapN 32 (i.arg s 0 ops.a 1 th + (0#21).toInt)
       off % 4 = 0 ∧ off + 4 = i.g.spBytes ∧ i.g.touchesObj 0 off 4 = false ∧ s.padBad i.g.gid 0 off 4 = false ∧
       s.padHeld i.r th.t 0 off 4 false = false) := by
  refine ⟨base [0, 1] [0, 0, 0, 0, 1020], iss (base [0, 1] [0, 0, 0, 0, 1020]), issues (by decide) (by decide), by decide, by decide, by decide, rfl, ?_⟩
  simp only [Iss.ready]
  decide
/-! ### Groups A, B and C -/

/-- A live object in the last 64 bytes of the scratchpad that expects three arrivals. -/
def obj (arr : Nat) (lap : Word) : Obj :=
  { ref := ⟨0, 960⟩, clu := false, scope := .core, lap := lap, expArr := 3, arr := arr, expBytes := 0, members := 1, bib := 1, exited := 0,
    shortCur := false, keep := false }

/-- The machine with that object, its offset in m4. -/
def withObj (ts : List Nat) (o : Obj) (ms : List Nat) : State := onG (fun g => { g with objs := [o] }) (base ts ([0, 0, 0, 0, 960] ++ ms))

/-- Of two threads one exits that is no member, short of the arrivals, or with the last of them. -/
theorem witness_ExitEndsThreads_objects : ∀ p ∈ [(0#128, 0), (1, 0), (1, 2)], ∃ (s : State) (i : Iss) (o : Obj), Issues s hdr i ∧
    i.w.report? (i.on.map (·.t)) = none ∧ i.g.obj? o.ref = some o ∧ (i.g.objs.map (·.ref)).Nodup ∧ o.held = [] ∧ s.unitFails i.g o.ref = false ∧
    o.members = p.1 ∧ i.w.wi = 0 ∧ i.on.length = 1 ∧ (i.on.filter fun th => decide ((o.ref, o.lap) ∉ th.opens)).length = 1 ∧ o.arr = p.2 ∧
    o.expArr = 3 ∧ o.expBytes ≤ o.landed := by
  intro p hp
  let o := { obj p.2 0 with members := p.1 }
  refine ⟨withObj [0] o [], iss (withObj [0] o []), o, issues ?_ ?_, ?_⟩ <;> revert p <;> decide

/-- binit of the last 64 bytes, for the whole gang and for members in registers. -/
theorem witness_ObjectsAreMadeAndRetired : ∃ (s : State) (i : Iss) (th : Thread), Issues s hdr i ∧ i.writers ops.d = [th] ∧ 0 < i.g.sp.length ∧
    Memory.wf (nth i.g.sp 0 []) = true ∧ s.padSpan i.g i.w false 64 64 (i.arg s 0 ops.a 1 th) = .ok ⟨0, 960⟩ ∧
    i.ready s ([⟨ops.a, 1⟩, ⟨ops.b, 2⟩] ++ [⟨ops.c, 4⟩]) [⟨ops.d, 1⟩] false 0 th ∧
    (∀ o ∈ i.g.objs, o.ref.gc = 0 → overlaps o.ref.off 64 960 64 = false) ∧
    i.g.badMembers false 0 .core (maskOf (i.g.warps.map (·.wi))) = false ∧
    i.g.badMembers false 0 .core (BitVec.ofNat 128 (i.arg s 0 ops.c 4 th)) = false ∧
    s.unitObjs i.g 0 false < 2048 ∧ i.g.obj? ⟨0, 960⟩ = none := by
  let s := base [0] [0, 0, 0, 0, 960, 0, 0, 0, 3, 0, 0, 0, 1]
  simp only [Iss.ready]
  exact ⟨s, iss s, _, issues (by decide) (by decide), rfl, by decide, by decide, by decide, by decide, by decide, by decide +kernel,
    by decide +kernel, by decide, by decide⟩

/-- binit.retire of a live object that nothing uses. -/
theorem witness_ObjectsAreMadeAndRetired_retire : ∃ (s : State) (i : Iss) (th : Thread) (o : Obj), Issues s hdr i ∧ i.writers ops.d = [th] ∧
    s.padSpan i.g i.w false 64 64 (i.arg s 0 ops.a 1 th) = .ok ⟨0, 960⟩ ∧ i.ready s [⟨ops.a, 1⟩] [⟨ops.d, 1⟩] false 0 th ∧
    i.g.obj? ⟨0, 960⟩ = some o ∧ o.bad = false ∧ o.inflight = 0 ∧
    (∀ w ∈ i.g.warps, ∀ u ∈ w.live, u.wait.object ≠ some ⟨0, 960⟩ ∧ ∀ p ∈ u.opens, p.1 ≠ ⟨0, 960⟩) ∧
    ∀ b ∈ i.g.binds, b.fillObj ≠ ⟨0, 960⟩ ∧ b.freeObj ≠ ⟨0, 960⟩ := by
  simp only [Iss.ready]
  exact ⟨withObj [0] (obj 0 0) [], iss (withObj [0] (obj 0 0) []), _, obj 0 0, issues (by decide) (by decide), rfl, by decide, by decide,
    by decide, rfl, rfl, by decide, by decide⟩

/-- Two arrivals of three, and all three while a thread waits, whatever the bytes: barr, bexp.arr and bexp. -/
theorem witness_ArrivalsCount : ∀ a ∈ [0, 1], ∃ (s : State) (i : Iss) (o : Obj), Issues s hdr i ∧ i.on ≠ [] ∧ (∀ th ∈ i.act, th.wait = .none) ∧
    o.held = [] ∧ s.unitFails i.g o.ref = false ∧ i.w.report? (i.on.map (·.t)) = none ∧ o.arr + (i.writers ops.d).length = a + 2 ∧ o.expArr = 3 ∧
    (let expect := o.expBytes + ((i.writers ops.d).map fun th => i.arg s 0 ops.b 1 th).sum
     o.expBytes ≤ o.landed ∧ expect ≤ 0xFFFFFFFF ∧ expect ≤ o.landed) ∧
    (∃ th ∈ i.w.threads, th.wait = .phase o.ref o.lap none (.m 15 1) none) ∧
    ∀ th ∈ i.writers ops.d, i.ready s [⟨ops.a, 1⟩, ⟨ops.b, 1⟩] [⟨ops.d, 1⟩] false 0 th ∧
      s.named i.g i.w false (i.arg s 0 ops.a 1 th) = .ok o ∧ o.members.getLsbD i.w.wi = true ∧ (∀ p ∈ th.opens, p.1 ≠ o.ref) ∧
      th.opens.length < 4 ∧ s.relWaits i.r th = false ∧ s.released i.r th.t o.scope (i.g.releaseSet o .bound) = true := by
  intro a ha
  let s := onT (fun th => if th.t = 2 then { th with pc := 0x1000C, wait := .phase ⟨0, 960⟩ 0 none (.m 15 1) none } else th)
    (withObj [0, 1, 2] (obj a 0) [])
  simp only [Iss.ready]
  refine ⟨s, iss s, obj a 0, issues ?_ ?_, ?_⟩ <;> revert a <;> decide

/-- Waits for the phase just over, for the oldest that counts as over, for one not yet begun and for the phase under way, at once and with
a limit. -/
theorem witness_WaitsComplete : ∀ p ∈ [(1#32, 1, 0), (0x80000000, 2 ^ 31, 0), (0x80000001, 2 ^ 31 + 1, 0), (0, 0, 0), (0, 0, 5)],
    ∃ (s : State) (i : Iss), Issues s hdr i ∧ i.on ≠ [] ∧ (∀ th ∈ i.act, th.wait = .none) ∧ ops.d.cls = .m ∧
      ∀ th ∈ i.on, i.ready s [⟨ops.a, 1⟩, ⟨ops.b, 1⟩, ⟨ops.c, 1⟩] [⟨ops.d, 1⟩] false 0 th ∧
        s.named i.g i.w false (i.arg s 0 ops.a 1 th) = .ok (obj 0 p.1) ∧ (p.1 - BitVec.ofNat 32 (i.arg s 0 ops.b 1 th)).toNat = p.2.1 ∧
        i.arg s 0 ops.c 1 th = p.2.2 := by
  intro p hp
  let s := withObj [0] (obj 0 p.1) [0, 0, 0, 0, 0, 0, 0, p.2.2]
  simp only [Iss.ready]
  refine ⟨s, iss s, issues ?_ ?_, ?_⟩ <;> revert p <;> decide +kernel

theorem witness_WaitsComplete_expiry : ∃ (s : State) (w : Warp) (th : Thread), s.warp? (1, 0) = some w ∧ w.thread? 0 = some th ∧
    th.wait = .phase ⟨0, 960⟩ 0 (some 0) (.m 15 1) none ∧ 0 < s.now w.core ∧ 15 < th.m.length ∧
    (w.threads.map (·.t)).Nodup :=
  let upd : Thread → Thread := fun th => { th with wait := .phase ⟨0, 960⟩ 0 (some 0) (.m 15 1) none }
  ⟨(onT upd (base [0] [])).modCore 0 fun k => { k with clock := 1 }, (warpOf [0] []).mapThreads upd, _, by decide, rfl, rfl, by decide,
    by decide, by decide⟩

/-- bstat, with CLR and without, of an object with an error; bind of the least and the most bytes; unbind. -/
theorem witness_ObjectsAreReadAndBound : ∀ c ∈ [64, 2 ^ 26 - 64], ∃ (s : State) (i : Iss), Issues s hdr i ∧ i.on ≠ [] ∧
    (∀ th ∈ i.on, s.named i.g i.w false (i.arg s 0 ops.a 1 th) = .ok (obj 0 0)) ∧
    (∀ th ∈ i.writers ops.d, i.ready s [⟨ops.a, 1⟩] [⟨ops.d, 1⟩] false 8 th) ∧
    ∀ th ∈ i.on, i.ready s [⟨ops.a, 1⟩, ⟨ops.b, 1⟩, ⟨ops.c, 1⟩] [⟨ops.d, 1⟩] false 0 th ∧ i.arg s 0 ops.b 1 th % 64 = 0 ∧ i.arg s 0 ops.c 1 th = c ∧
      c % 64 = 0 := by
  intro c hc
  simp only [List.mem_cons, List.not_mem_nil, or_false] at hc
  simp only [Iss.ready]
  rcases hc with rfl | rfl
  · let s := withObj [0] (obj 0 0) [0, 0, 0, 64, 0, 0, 0, 64]
    exact ⟨s, iss s, issues (by decide) (by decide), by decide, by decide, by decide, by decide⟩
  · let s := withObj [0] (obj 0 0) [0, 0, 0, 64, 0, 0, 0, 2 ^ 26 - 64]
    exact ⟨s, iss s, issues (by decide) (by decide), by decide, by decide, by decide, by decide⟩

/-- A thread with nothing on its way, one with a store its die may read, one whose warp's stf waits, one with a store and a message on the
way, a fencerec, and markers whose counters are over and not. -/
theorem witness_FencesComplete :
    (∀ fs ∈ [[], [{ flight .store (.phys (67 * 65536)) 4 with fwd := true }]], ∃ (s : State) (i : Iss), Issues s hdr i ∧ s.flights = fs ∧
      i.on ≠ [] ∧ i.w.report? (i.on.map (·.t)) = none ∧ s.pendingX i = [] ∧
      (∀ sc ∈ [Scope.core, .clu] ++ (if fs = [] then [.dev, .sys] else []), ∀ th ∈ i.on, s.released i.r th.t sc (fun _ => true) = true ∧ s.loadsDone i.r th.t = true) ∧
      ∀ th ∈ i.on, i.ready s [⟨ops.a, 2⟩] [] false 0 th ∧ i.arg s 0 ops.a 2 th = 0x20100 ∧
        s.writesDone i.r th.t .dev (fun f => s.inRecord i.g i.w.core f true (i.arg s 0 ops.a 2 th)) = true) ∧
    (∃ (s : State) (i : Iss), Issues s hdr i ∧ i.on ≠ [] ∧ i.w.report? (i.on.map (·.t)) = none ∧ s.pendingX i ≠ []) ∧
    (∃ (s : State) (i : Iss), Issues s hdr i ∧ i.w.report? (i.on.map (·.t)) = none ∧
      (∃ f ∈ s.flights, (f.gid, f.wi) = i.r ∧ (∃ th ∈ i.on, th.t = f.t) ∧ f.needOst = true ∧ f.seq.isSome ∧ f.route ≠ []) ∧
      ∃ th ∈ i.on, s.messagesOf i.r th.t ≠ [] ∧ s.released i.r th.t .dev (fun _ => true) = false) ∧
    ∀ fs ∈ [[], [{ flight .store (.phys (67 * 65536)) 4 with needOst := true, seq := some 0, route := [0] }]],
      ∃ (s : State) (m : Marker), s.markers[0]? = some m ∧ m.route = [0] ∧
        ∀ die < 4, (∃ b ∈ m.route, (bridgeDies b).1 = die ∨ (bridgeDies b).2 = die) → (s.fenceCount die m.core = 0 ↔ fs = []) := by
  simp only [Iss.ready]
  let far := { flight .store (.phys (67 * 65536)) 4 with needOst := true, seq := some 0, route := [0] }
  let s := { base [0] [] with
    flights := [far], sendQs := [{ world := 0, q := 5, opened := true, msgs := [{ id := 1, seq := 0, payload := [], owner := some (1, 0, 0) }] }] }
  let u := (base [0] []).modQuarter 0 0 fun q => { q with mq := [{
    id := 3, seq := 0, gid := 1, wi := 0, instr := .stf hdr ops .f32 true true, threads := 1, a := [], b := [], c := [], cnt := none }] }
  refine ⟨?_, ⟨u, iss u, issues (by decide) (by decide), by decide, by decide, by decide⟩, ⟨s, iss s, issues (by decide) (by decide), by decide⟩,
    fun fs hf => ⟨{ base [0] [] with flights := fs, markers := [{ gid := 1, wi := 0, t := 0, msgs := [], route := [0] }] }, _, rfl, rfl, ?_⟩⟩
  · intro fs hf
    let s := { base [0] [0, 0, 0, 0, 0x20100] with flights := fs }
    simp only [List.mem_cons, List.not_mem_nil, or_false] at hf
    rcases hf with rfl | rfl <;> exact ⟨s, iss s, issues (by decide) (by decide), by decide⟩
  · revert fs
    decide

/-- Copies of the last bytes of the scratchpad, counted in an object; a list of one entry; a message of the least and the most bytes. -/
theorem witness_CommandsStart : ∃ (s : State) (i : Iss), Issues s hdr i ∧ ops.d.cls = .m ∧
    (s.core i.w.core).slots.length + (i.writers ops.d).length = 8 ∧ counterOf 0 = none ∧
    (∃ o, counterOf (BitVec.ofNat 21 (2 ^ 20 + 60)) = some (false, 960) ∧ s.named i.g i.w false 960 = .ok o) ∧
    ∀ th ∈ i.writers ops.d, i.ready s [⟨ops.a, 2⟩, ⟨ops.b, 1⟩, ⟨ops.c, 1⟩] [⟨ops.d, 1⟩] false 0 th ∧
      i.arg s 0 ops.a 2 th % 64 = 0 ∧ i.arg s 0 ops.b 1 th = 944 ∧ i.arg s 0 ops.c 1 th = 16 ∧
      i.g.spanFault .sp 944 16 = none ∧ i.g.spanFault .sp 960 64 = none ∧ 1008 + 16 * 1 = i.g.spBytes ∧
      (∀ len ∈ [4, 65536], i.g.spanFault .gl (i.arg s 0 ops.a 2 th) len = none) := by
  let s := (withObj [0] (obj 0 0) [0, 0, 0, 944, 0, 0, 0, 16]).modCore 0 fun c => { c with slots := (List.range 7).map fun k =>
    { slot := k, seq := 0, gid := 9, wi := 0, t := 0, dst := .m 0 1, kind := .copy ⟨.sp, 0⟩ ⟨.sp, 0⟩ 4, code := 0, ga := false, sys := false,
      cnt := none, total := 4 } }
  simp only [Iss.ready]
  exact ⟨s, iss s, issues (by decide) (by decide), rfl, by decide, by decide, ⟨obj 0 0, by decide, by decide⟩, by decide⟩

/-- A tensor record of one 32-bit element (R267). -/
def record : List Byte :=
  List.replicate 8 0 ++ [3, 1] ++ List.replicate 6 0 ++ (List.replicate 6 [1, 0, 0, 0]).flatten ++ List.replicate 48 0 ++
    (List.replicate 6 [1, 0, 0, 0]).flatten ++ List.replicate 80 0

/-- A tensor record in the cache whose box has one element, and a near descriptor of 32 elements between three spaces of memory. -/
theorem witness_CommandsStart_records : ∃ (s : State) (i : Iss), Issues s hdr i ∧ i.writers ops.d ≠ [] ∧
    ∀ th ∈ i.writers ops.d, i.ready s [⟨ops.a, 1⟩, ⟨ops.b, 1⟩] [⟨ops.d, 1⟩] false 0 th ∧ i.arg s 0 ops.a 1 th = 256 ∧
      s.cachedRec i false 256 = some record ∧ recordFault record false = none ∧ (tensorOf record).n = 0 ∧
      i.arg s 0 ops.b 1 th = 512 ∧ (tensorOf record).localFault i.g false 512 = none ∧
      (let desc := (List.range 32).map fun k => s.padLoadByte i.g i.r th.t 0 (256 + k) s.nextId
       s.padBad i.r.1 0 256 32 = false ∧ nearFault desc false 1 = none ∧ nearFault desc true 1 = none ∧ nearFault desc false 32 = none) := by
  let s := (onG (fun g => { g with sp := [Memory.writeN [] 280 [32, 0, 0, 0, 0, 42]] }) (base [0] [0, 0, 0, 0, 256, 0, 0, 0, 512])).modCore 0
    fun c => { c with recCache := [{ world := 0, gl := false, addr := 256, bytes := record }] }
  simp only [Iss.ready]
  exact ⟨s, iss s, issues (by decide) (by decide), by decide, by decide +kernel⟩

/-- A command of thread 0 in slot 3, its status due to m15, and the machine that runs it. -/
def cmdOf (kind : CmdKind) (total : Nat) : Cmd :=
  { slot := 3, seq := 0, gid := 1, wi := 0, t := 0, dst := .m 15 1, kind := kind, code := 0, ga := false, sys := false, cnt := none, total := total }
def running (k : Cmd) : State := (base [0] []).modCore 0 fun c => { c with slots := [k] }

/-- The words of a command are read, and a piece of it has a place for its bytes. -/
def Movable (k : Cmd) (p : Nat) (needs : List (CSpc × Nat)) (spc : CSpc) (a n : Nat) : Prop :=
  let s := running k
  s.cmd? 0 3 = some k ∧ k.killed = false ∧ k.status = none ∧ k.unread = false ∧ p ∉ k.donePcs ∧ p < 2 ^ 31 ∧ s.mem.wf = true ∧ s.bb.wf = true ∧
    (∀ g ∈ s.allGangs, ∀ m ∈ g.sp, Memory.wf m = true) ∧ k.cnt = none ∧
    ∃ s1 k1 dest, State.readWords 0 (s, k) needs = .ok (s1, k1) ∧ s1.engWhere (k.eng 0) true spc a n = .ok dest ∧
      ∀ gc off, dest = .pad gc off → gc < 1

/-- Whether words can be read, and bytes then have a place. -/
def canMove (k : Cmd) (needs : List (CSpc × Nat)) (spc : CSpc) (a n : Nat) : Bool :=
  match State.readWords 0 (running k, k) needs with
  | .error _ => false
  | .ok x =>
    match x.1.engWhere (k.eng 0) true spc a n with
    | .ok (.pad gc _) => decide (gc < 1)
    | .ok _ => true
    | .error _ => false

theorem movable {k : Cmd} {p : Nat} {needs : List (CSpc × Nat)} {spc : CSpc} {a n : Nat}
    (h1 : (running k).cmd? 0 3 = some k ∧ k.killed = false ∧ k.status = none ∧ k.unread = false ∧ p ∉ k.donePcs ∧ p < 2 ^ 31 ∧ k.cnt = none)
    (h2 : canMove k needs spc a n = true) : Movable k p needs spc a n := by
  obtain ⟨h1, h3, h4, h5, h6, h7, h8⟩ := h1
  refine ⟨h1, h3, h4, h5, h6, h7, (by decide : (base [0] []).mem.wf = true), (by decide : (base [0] []).bb.wf = true),
    (by decide : ∀ g ∈ (base [0] []).allGangs, ∀ m ∈ g.sp, Memory.wf m = true), h8, ?_⟩
  unfold canMove at h2
  split at h2
  · cases h2
  · rename_i x hx
    refine ⟨x.1, x.2, ?_⟩
    split at h2
    · rename_i gc off hd
      exact ⟨_, hx, hd, fun _ _ h => by cases h; simpa using h2⟩
    · rename_i d hn hd
      exact ⟨d, hx, hd, fun gc off h => absurd h (hn gc off)⟩
    · cases h2

/-- A tensor record at 0x20000 of 64 elements with this element size, conversion and box (R267). -/
def recOf (esz conv : Byte) (box : Nat) : List Byte :=
  leBytes 8 0x20000 ++ [esz, 1, 0, 0, conv, 0, 0, 0] ++ leBytes 4 64 ++ (List.replicate 5 (leBytes 4 1)).flatten ++ List.replicate 48 0 ++
    leBytes 4 box ++ (List.replicate 5 (leBytes 4 1)).flatten ++ List.replicate 80 0

/-- A descriptor of these addresses, count and spaces of memory on stack 0 (R367). -/
def descOf (dst src aux count : Nat) : List Byte := leBytes 8 dst ++ leBytes 8 src ++ leBytes 8 aux ++ leBytes 4 count ++ [0, 42, 0, 0]

/-- The last piece of a copy and of a gathered list; words of tensor loads with elements of 32 and 64 bits and of a store whose second word
is half in bounds; the first piece of each near-memory command; a message. -/
theorem witness_CommandsMoveAndEnd_pieces :
    (∃ k, k.kind = .copy ⟨.gl, 0x20000⟩ ⟨.sp, 1016⟩ 8 ∧ Movable k 1 [(.gl, 0x20004)] .sp 1020 4) ∧
    (∃ (k : Cmd) (ps : List (Nat × Nat)), k.kind = .pieces ps .gl ⟨.sp, 1016⟩ ∧ ps[1]? = some (0x20010, 4) ∧
      1 = ((ps.take 1).map fun q => q.2 / 4).sum + 0 ∧ Movable k 1 [(.gl, 0x20010)] .sp 1020 4) ∧
    (∀ esz ∈ [3#8, 4], ∃ k : Cmd, k.kind = .tensor false (recOf esz 0 1) false 1008 [0] ∧ 4 * 0 + 4 ≤ (tensorOf (recOf esz 0 1)).total ∧
      Movable k 0 ((tensorOf (recOf esz 0 1)).loadNeeds [0] 0) .sp 1008 4) ∧
    (∃ k : Cmd, k.kind = .tensor true (recOf 2 0 3) false 1008 [61] ∧
      ((tensorOf (recOf 2 0 3)).storeWords [61])[1]? = some (0, 0x20000 / 4 + 31) ∧
      Movable k 1 ((tensorOf (recOf 2 0 3)).storeNeeds [61] false 1008 (0, 0x20000 / 4 + 31)) .gl 0x2007C 4) ∧
    (∀ kind ∈ [CmdKind.nget .w32 (descOf 0x20000 0x20020 0x20040 2), .nred .w32 .add (descOf 0x20000 0x20020 0 2),
        .ncvt .b4 .n32 .f32 (descOf 0x20000 0x20020 0x20100 32)], ∃ (k : Cmd) (d : List Byte), k.kind = kind ∧ k.kind.near? = some d ∧
      0 < nearCount k.kind d ∧ nearSkew k.kind = false ∧ (nearPiece k.kind d 0).1 = false ∧ 0 < (nearPiece k.kind d 0).2.2 ∧
      (running k).nearIn (k.eng 0) (nearOf d).stack true .gl (nearPiece k.kind d 0).2.1 (nearPiece k.kind d 0).2.2 = .ok () ∧
      Movable k 0 (nearNeeds k.kind d 0) .gl (nearPiece k.kind d 0).2.1 (nearPiece k.kind d 0).2.2) ∧
    ∃ (k : Cmd) (s : State) (g : Gang), k.kind = .send 5 ⟨.gl, 0x20000⟩ 4 ∧ s.cmd? 0 3 = some k ∧ s.anyGang? k.gid = some g ∧
      s.sendQ? g.world 5 ≠ none ∧ k.unread = false ∧ ∃ x, State.readWords 0 (s, k) [(.gl, 0x20000)] = .ok x := by
  refine ⟨⟨cmdOf (.copy ⟨.gl, 0x20000⟩ ⟨.sp, 1016⟩ 8) 8, rfl, movable (by decide) (by decide)⟩,
    ⟨cmdOf (.pieces [(0x20000, 4), (0x20010, 4)] .gl ⟨.sp, 1016⟩) 8, _, rfl, rfl, rfl, movable (by decide) (by decide)⟩, ?_,
    ⟨cmdOf (.tensor true (recOf 2 0 3) false 1008 [61]) 8, rfl, by decide, movable (by decide) (by decide)⟩, ?_,
    cmdOf (.send 5 ⟨.gl, 0x20000⟩ 4) 4, { running (cmdOf (.send 5 ⟨.gl, 0x20000⟩ 4) 4) with sendQs := [{ world := 0, q := 5, opened := true }] }, _, rfl, rfl,
    rfl, by decide, by decide, _, rfl⟩
  · intro esz he
    refine ⟨cmdOf (.tensor false (recOf esz 0 1) false 1008 [0]) 8, rfl, ?_, movable ?_ ?_⟩ <;> revert esz <;> decide
  · intro kind hk
    let k := { cmdOf kind 8 with ready := true }
    simp only [List.mem_cons, List.not_mem_nil, or_false] at hk
    rcases hk with rfl | rfl | rfl <;>
      exact ⟨k, _, rfl, rfl, by decide, by decide, by decide, by decide, by decide, movable (by decide) (by decide)⟩

/-- A word not yet read, for a copy and for a near-memory command of its own stack and of another; and a word read before. -/
theorem witness_WordsAreRead : ∀ d ∈ [descOf 0x20000 0x20020 0x20040 2, leBytes 24 0 ++ leBytes 4 2 ++ [1, 42, 0, 0]],
    (∃ (s : State) (k : Cmd) (pa : Nat), k.kind = .copy ⟨.gl, 0x20000⟩ ⟨.sp, 1016⟩ 8 ∧ k.got .gl 0x20004 = none ∧
      s.engWhere (k.eng 0) false .gl 0x20004 4 = .ok (.phys pa) ∧ s.cmd? 0 3 = some k ∧ k.killed = false ∧ k.status = none ∧ k.unread = false ∧
      k.due = 0 ∧ 1 ∉ k.donePcs ∧ 1 < k.kind.count ∧ s.pieceFault k.gid k.kind 1 = none ∧ nearSkew k.kind = false ∧
      (k.kind.needs 1)[0]? = some (.gl, 0x20004)) ∧
    (∃ (s : State) (k : Cmd) (pa : Nat), k.got .gl 0x20020 = none ∧ s.engWhere (k.eng 0) false .gl 0x20020 4 = .ok (.phys pa) ∧
      k.kind.near? = some d ∧ frameOf pa < 0x800000 ∧ frameOf pa / 0x100000 = 0 ∧ (nearOf d).stack < 2 ∧
      s.quiesced.contains (Config.dramChannel (lineOf pa)) = false ∧ s.portFull 0 1 = false) ∧
    ∃ (k : Cmd) (v : Word), k.got .gl 0x20004 = some v := by
  intro d hd
  let k := cmdOf (.copy ⟨.gl, 0x20000⟩ ⟨.sp, 1016⟩ 8) 8
  let n := cmdOf (.nred .w32 .add d) 8
  refine ⟨⟨running k, k, 67 * 65536 + 4, by decide⟩, ⟨running n, n, 67 * 65536 + 0x20, ?_⟩,
    { k with buf := Map.put [] (wordKey .gl 0x20004) 7 }, 7, by decide⟩
  revert d
  decide

/-- Elements in and out of bounds, without conversion, with one, and with one that rotates blocks of sixteen, all on their boundaries. -/
theorem witness_TensorElements :
    (∀ conv ∈ [0#8, 0x80, 0x81], let t := tensorOf (recOf 3 conv 16)
      t.cvt = decide (conv ≠ 0) ∧ t.n = (if conv = 0x81 then 16 else 0) ∧ t.elIn [48] 0 15 = true ∧ t.elIn [48] 0 16 = false) ∧
    ∀ conv ∈ [0#8, 0x80, 0x81], let t := tensorOf (recOf 3 conv 16)
      ∀ k, (t.rowBit [48] 0 + (48 + k) * t.eb) % min 32 t.eb = 0 ∧ t.localAt 960 0 (k * t.lb / 8) % max 1 (min 4 (t.lb / 8)) = 0 := by
  refine ⟨by decide, ?_⟩
  intro conv hc t k
  have ht : t.eb = 32 ∧ t.lb = 32 ∧ t.rowBit [48] 0 = 8 * 0x20000 ∧ t.swz = 0 := by
    revert conv
    decide
  obtain ⟨h1, h2, h3, h4⟩ := ht
  simp only [Tensor.localAt, h1, h2, h3, h4, bitsN, (by decide : min 32 32 = 32), (by decide : max 1 (min 4 (32 / 8)) = 4), Nat.pow_zero, Nat.mod_one,
    Nat.zero_mul, Nat.xor_zero]
  omega

/-- Words read alike. -/
theorem witness_PiecesNeedTheirWords : ∃ (k : CmdKind) (rd : Reads), nearSkew k = false ∧ 1 < k.count ∧ (∀ t op d, k ≠ .nred t op d) ∧
    ∀ w ∈ k.needs 1 ++ nearFirst k (fun spc a => some (BitVec.ofNat 32 (rd spc a))), rd w.1 w.2 = (fun _ _ => 0 : Reads) w.1 w.2 :=
  ⟨.copy ⟨.gl, 0x20000⟩ ⟨.sp, 1016⟩ 8, fun _ a => if a = 0x20000 then 1 else 0, by decide, by decide, nofun, by decide⟩

/-- A near-memory command of each kind on aligned elements. -/
theorem witness_NearResults : ∀ k ∈ [CmdKind.nget .i64 (descOf 0x20000 0x20020 0x20040 2), .nred .b4 .add (descOf 0x20000 0x20020 0 4),
    .ncvt .h2 .none .f32 (descOf 0x20000 0x20020 0 2), .ncvt .b4 .n16 .f32 (descOf 0x20000 0x20020 0x20100 32),
    .ncvt .n8 .n32 .f16x2 (descOf 0x20000 0x20020 0x20100 32)], ∃ d, k.near? = some d ∧ nearSkew k = false ∧ (nearOf d).count % 2 = 0 := by
  intro k hk
  simp only [List.mem_cons, List.not_mem_nil, or_false] at hk
  rcases hk with rfl | rfl | rfl | rfl | rfl <;> exact ⟨_, rfl, by decide⟩

theorem both {ε α β : Type} {a : Except ε α} {f : α → Except ε β} (h : (a.bind f).toBool = true) : ∃ x y, a = .ok x ∧ f x = .ok y := by
  cases a with
  | error e => cases h
  | ok x =>
    cases hy : f x with
    | error e => simp [Except.bind, hy, Except.toBool] at h
    | ok y => exact ⟨x, y, rfl, hy⟩

/-- A sound list, one with too many bytes, one with a bad entry behind a good one; near-memory operands that can be read, and askew. -/
theorem witness_CommandsMoveAndEnd_operands :
    (∀ p ∈ [(4, 4, 0), (0x7FFFFFFC, 4, 1), (4, 6, 2)], ∃ (s : State) (k : Cmd) (g : Gang), s.cmd? 0 3 = some k ∧ k.killed = false ∧ k.status = none ∧
      k.due = 0 ∧ k.kind = .gather 992 2 .gl ⟨.sp, 0⟩ ∧ s.anyGang? k.gid = some g ∧ 992 + 16 * 2 = g.spBytes ∧ 992 % 16 = 0 ∧
      g.gcOf k.wi < g.sp.length ∧ (∀ m ∈ g.sp, Memory.wf m = true) ∧ g.touchesObj (g.gcOf k.wi) 1020 4 = false ∧
      ∃ s1 k1, State.readWords 0 (s, k) ((List.range (4 * 2)).map fun i => (.sp, 992 + 4 * i)) = .ok (s1, k1) ∧
        let at_ := fun (i o : Nat) => k1.reads .sp (992 + 16 * i + o) % 2 ^ 32
        (∀ i < 2, at_ i 12 = 0) ∧ at_ 0 8 % 4 = 0 ∧ (at_ 1 8 % 4 = 0 ↔ p.2.2 ≠ 2) ∧
          (2 ^ 31 ≤ ((List.range 2).map fun i => at_ i 8 / 4 * 4).sum ↔ p.2.2 = 1)) ∧
    ∀ kind ∈ [CmdKind.nget .w32 (descOf 0x20000 0x20020 0x20040 2), .nred .w32 .add (descOf 0x20000 0x20020 0 2),
      .ncvt .b4 .n32 .f32 (descOf 0x20000 0x20020 0x20100 32), .nred .w32 .add (descOf 0x20002 0x20020 0 2)],
      ∃ (s : State) (k : Cmd) (d : List Byte), s.cmd? 0 3 = some k ∧ k.killed = false ∧ k.status = none ∧ k.due = 0 ∧ k.kind.near? = some d ∧
        k.ready = false ∧ (nearSkew k.kind = decide ((nearOf d).dst = 0x20002)) ∧
        ∃ x y, State.readWords 0 (s, k) k.first = .ok x ∧ State.readWords 0 x x.2.first = .ok y := by
  constructor
  · intro p hp
    let k := cmdOf (.gather 992 2 .gl ⟨.sp, 0⟩) 0
    let mk := fun a b : Nat => onG (fun g => { g with sp := [Memory.writeN (Memory.writeN [] 1000 (leBytes 4 a)) 1016 (leBytes 4 b)] }) (running k)
    simp only [List.mem_cons, List.not_mem_nil, or_false] at hp
    rcases hp with rfl | rfl | rfl
    · exact ⟨mk 4 4, k, _, rfl, rfl, rfl, rfl, rfl, rfl, rfl, rfl, by decide, by decide, by decide, _, _, rfl, by decide⟩
    · exact ⟨mk 0x7FFFFFFC 4, k, _, rfl, rfl, rfl, rfl, rfl, rfl, rfl, rfl, by decide, by decide, by decide, _, _, rfl, by decide⟩
    · exact ⟨mk 4 6, k, _, rfl, rfl, rfl, rfl, rfl, rfl, rfl, rfl, by decide, by decide, by decide, _, _, rfl, by decide⟩
  · intro kind hk
    simp only [List.mem_cons, List.not_mem_nil, or_false] at hk
    let k := cmdOf kind 8
    suffices h : ∃ d, k.kind.near? = some d ∧ nearSkew k.kind = decide ((nearOf d).dst = 0x20002) ∧
        ((State.readWords 0 (running k, k) k.first).bind fun x => State.readWords 0 x x.2.first).toBool = true by
      obtain ⟨d, h1, h2, h3⟩ := h
      exact ⟨running k, k, d, rfl, rfl, rfl, rfl, h1, rfl, h2, both h3⟩
    rcases hk with rfl | rfl | rfl | rfl <;> exact ⟨_, rfl, by decide⟩

/-- A command done, killed or failed, without and with a counter that it leaves unmet; a message done, its queue open and not; and a ckill that
waits for its last command. -/
theorem witness_CommandsMoveAndEnd :
    (∀ c ∈ [none, some (⟨false, ⟨0, 960⟩⟩ : Bool × ObjRef)], ∀ n ∈ [0, 1, 2], ∃ (s : State) (k : Cmd) (g : Gang) (w : Warp), s.cmd? 0 3 = some k ∧ k.cnt = c ∧
      s.gang? k.gid = some g ∧ s.warp? (k.gid, k.wi) = some w ∧ (∃ th ∈ w.threads, th.exited = false) ∧ s.landing 0 k = false ∧
      (∃ o, g.obj? ⟨0, 960⟩ = some o ∧ o.held = [] ∧ o.arr ≠ o.expArr ∧ s.unitFails g ⟨0, 960⟩ = false) ∧ w.hasDst k.t k.dst ∧
      (∀ c ∈ s.cores, c.2.kills = []) ∧ k.killed = decide (n = 1) ∧ (k.status = if n = 2 then some 0x2001 else none) ∧
      (n = 0 → k.unread = false ∧ (∀ q src len, k.kind ≠ .send q src len) ∧ (∀ p < k.kind.count, p ∈ k.donePcs) ∧ k.kind.count ≤ k.donePcs.length)) ∧
    (∀ qs ∈ [[], [({ world := 0, q := 5, opened := true } : NetQueue)]], ∃ (s : State) (k : Cmd), s.cmd? 0 3 = some k ∧ k.killed = false ∧ k.status = none ∧
      k.kind = .send 5 ⟨.gl, 0x20000⟩ 4 ∧ k.unread = false ∧ (∀ p < k.kind.count, p ∈ k.donePcs) ∧ k.kind.count ≤ k.donePcs.length ∧
      s.sendBefore 0 k = false ∧ (s.sendQ? 0 5 = none ↔ qs = [])) ∧
    ∃ (s : State) (k : Cmd) (kw : Core) (v : KillWait), (0, kw) ∈ s.cores ∧ v ∈ kw.kills ∧ s.cmd? 0 3 = some k ∧ v.left = [(0, k.seq)] ∧ k.killed = true ∧
      k.cnt = none ∧ (∀ c ∈ s.cores, ∀ u ∈ c.2.kills, u = v) ∧ (v.gid, v.wi) = (k.gid, k.wi) ∧ v.dst = .m 14 1 := by
  refine ⟨?_, ?_, ?_⟩
  · intro c hc n hn
    let k := { cmdOf (.copy ⟨.gl, 0x20000⟩ ⟨.sp, 0⟩ 4) 4 with
      cnt := c, killed := decide (n = 1), status := if n = 2 then some 0x2001 else none, donePcs := [0], counted := 4 }
    refine ⟨(withObj [0] (obj 0 0) []).modCore 0 fun c => { c with slots := [k] }, k, _, _, rfl, rfl, rfl, rfl, ⟨_, List.mem_cons_self, rfl⟩, ?_,
      ⟨obj 0 0, rfl, rfl, by decide, rfl⟩, ⟨_, rfl, rfl, by decide⟩, ?_, rfl, rfl, ?_⟩
    · rfl
    · intro c hc
      obtain rfl := List.mem_singleton.mp hc
      rfl
    · rintro rfl
      exact ⟨rfl, nofun, (by decide : ∀ p < 1, p ∈ [0]), (by decide : 1 ≤ [0].length)⟩
  · intro qs hq
    let k := { cmdOf (.send 5 ⟨.gl, 0x20000⟩ 4) 4 with donePcs := [0], counted := 4, buf := [(0, 7)] }
    refine ⟨{ running k with sendQs := qs }, k, rfl, rfl, rfl, rfl, rfl, by decide, by decide, rfl, ?_⟩
    revert qs
    decide
  · let k := { cmdOf (.copy ⟨.gl, 0x20000⟩ ⟨.sp, 0⟩ 4) 4 with killed := true }
    let v : KillWait := { id := 2, gid := 1, wi := 0, t := 0, dst := .m 14 1, n := 1, left := [(0, 0)] }
    exact ⟨(base [0] []).modCore 0 fun c => { c with slots := [k], kills := [v] }, k, { slots := [k], kills := [v] }, v, by decide, by decide, rfl, rfl,
      rfl, rfl, by decide, rfl, rfl⟩

/-- A piece counted in an object that it does not complete. -/
theorem witness_CommandsMoveAndEnd_counted : ∃ (s : State) (g : Gang) (o : Obj), s.gang? 1 = some g ∧ g.obj? ⟨0, 960⟩ = some o ∧ o.held = [] ∧
    o.arr ≠ o.expArr ∧ s.unitFails g ⟨0, 960⟩ = false :=
  ⟨withObj [0] (obj 0 0) [], _, obj 0 0, rfl, rfl, rfl, by decide, by decide⟩
/-- A ring of two slots of 64 bytes at 512, described at 256, and its objects. -/
def ring : Bobbin := { base := 512, slotb := 64, count := 2, gwRing := false, gwBar := false, fill := 960, free := 896 }
def fillObj (lap : Word) : Obj := { obj 0 lap with expArr := 0, expBytes := 64, keep := true }
def freeObj (lap : Word) : Obj := { obj 0 lap with ref := ⟨0, 896⟩ }

/-- The machine with that ring, its descriptor's offset in m4 and a slot number in m8. -/
def withRing (fill free : Obj) (slot : Nat) : State :=
  onG (fun g => { g with
      objs := [fill, free],
      sp := [Memory.writeN [] 256 [0, 2, 0, 0, 64, 0, 0, 0, 2, 0, 0, 0, 0xC0, 3, 0, 0, 0x80, 3, 0, 0]] })
    (base [0] [0, 0, 0, 0, 256, 0, 0, 0, slot])

/-- Slots whose fill phase is over, the first new, and one whose free phase is over too; and one with neither over, whose free phase lacks
one arrival: for a D in main and in scalar registers. -/
theorem witness_BobbinsWork : ∀ p ∈ [(0, 1#32, 1#32, 0), (1, 2, 1, 0), (2, 3, 1, 0), (2, 2, 0, 2)], ∃ (s : State) (i : Iss) (th : Thread), Issues s hdr i ∧
    let fo := fillObj p.2.1
    let fr := { freeObj p.2.2.1 with arr := p.2.2.2 }
    i.on ≠ [] ∧ (∀ th ∈ i.act, th.wait = .none) ∧ i.writers ops.d = [th] ∧ i.writers (.s 4 true) = [th] ∧ i.on = [th] ∧
    s.bobbin i th false (i.arg s 0 ops.a 1 th) = .ok (ring, fo, fr) ∧ i.arg s 0 ops.b 1 th = p.1 ∧
    (∀ d ∈ [ops.d, .s 4 true], i.ready s [⟨ops.a, 1⟩, ⟨ops.b, 1⟩] [⟨d, 2⟩] false 0 th) ∧
    (let over_ := if p.2.2.2 = 0 then 1#32 else 0
     fo.lap - BitVec.ofNat 32 p.1 = over_ ∧ (2 ≤ p.1 → fr.lap - BitVec.ofNat 32 (p.1 - 2) = over_)) ∧
    s.released i.r th.t fo.scope (ring.inSlot i.g p.1) = true ∧ th.opens = [] ∧ s.loadsDone i.r th.t = true ∧ s.relWaits i.r th = false ∧
    (∀ o ∈ [fo, fr], s.unitFails i.g o.ref = false ∧ o.boundq = false ∧ o.held = []) ∧ fo.arr = 0 ∧ 0 < ring.slotb ∧
    fo.landed + ring.slotb ≤ 0xFFFFFFFF ∧ fr.members.getLsbD i.w.wi = true ∧ fr.expBytes ≤ fr.landed ∧
    (fr.arr + i.on.length < fr.expArr ↔ p.2.2.2 = 0) ∧ fr.arr + i.on.length ≤ fr.expArr ∧ i.w.report? (i.on.map (·.t)) = none := by
  intro p hp
  let s := withRing (fillObj p.2.1) { freeObj p.2.2.1 with arr := p.2.2.2 } p.1
  simp only [Iss.ready]
  refine ⟨s, iss s, nth (iss s).on 0 { t := 0, bi := 0, pc := 0, m := [] }, issues ?_ ?_, ?_⟩ <;> revert p <;> decide +kernel

/-- A queue of the world. -/
def queueOf (ms : List Msg) : NetQueue := { world := 0, q := 63, opened := true, msgs := ms }

/-- bbind.rq of the last queue, open and not, at equal laps. -/
theorem witness_QueuesAreBound : ∃ (s : State) (i : Iss) (th : Thread), Issues s hdr i ∧ i.writers ops.d = [th] ∧ ops.d.cls = .m ∧ i.on ≠ [] ∧
    (∀ u ∈ i.act, u.wait = .none) ∧ s.bobbin i th false (i.arg s 0 ops.a 1 th) = .ok (ring, fillObj 1, freeObj 1) ∧
    i.arg s 0 ops.b 1 th = 63 ∧ i.ready s [⟨ops.a, 1⟩, ⟨ops.b, 1⟩] [⟨ops.d, 1⟩] false 0 th ∧ s.allBinds = [] ∧ s.sealed = [] ∧ s.recvQ? i.g.world 63 = none ∧
    ({ s with recvQs := [queueOf []] } : State).recvQ? i.g.world 63 ≠ none := by
  simp only [Iss.ready]
  let s := withRing (fillObj 1) (freeObj 1) 63
  exact ⟨s, iss s, _, issues (by decide) (by decide), rfl, rfl, by decide, by decide, by decide, by decide, by decide, rfl, by decide,
    by decide⟩

/-- A binding, and a message of the most bytes for its last free slot. -/
theorem witness_QueuesAreBound_landing : ∃ (s : State) (g : Gang) (b : Binding) (m : Msg),
    (s.allBinds.filter fun p => nth p.1.cores p.2.core 0 = 0)[0]? = some (g, b) ∧ s.gang? g.gid = some g ∧
    s.recvQ? g.world b.queue = some (queueOf [m]) ∧ g.obj? b.freeObj = some (freeObj 1) ∧ g.obj? b.fillObj = some (fillObj 1) ∧
    (BitVec.ofNat 32 b.next - b.l0).toNat + 1 = b.bob.count ∧ b.bob.gwRing = false ∧ b.core < g.sp.length ∧
    Memory.wf (nth g.sp b.core []) = true ∧ m.payload.length + 16 = b.bob.slotb ∧
    g.touchesObj b.core (b.bob.base + b.next % b.bob.count * b.bob.slotb) 64 = false ∧ b.fillObj = (fillObj 1).ref ∧
    (fillObj 1).held = [] ∧ s.unitFails g b.fillObj = false ∧ (fillObj 1).landed + b.bob.slotb ≤ 0xFFFFFFFF :=
  let b : Binding := ⟨0, 63, ring, ⟨0, 960⟩, ⟨0, 896⟩, 1, 2⟩
  let m : Msg := { id := 3, seq := 0, payload := List.replicate 48 7 }
  let s := { onG (fun g => { g with binds := [b] }) (withRing (fillObj 1) (freeObj 1) 0) with recvQs := [queueOf [m]] }
  ⟨s, nth s.gangs 0 (gangOf (warpOf [] [])), b, m, by decide, by decide, by decide, by decide, by decide, by decide, rfl, by decide, by decide,
    by decide, by decide, rfl, rfl, by decide, by decide⟩

/-- A draft of one stage, cpy.sp.gl m8, [m12], [m2], m14: its stage left, and none left. -/
theorem witness_DraftsAdvance : ∀ next ∈ [0, 1], ∃ (s : State) (i : Iss) (th : Thread) (f : CmdForm), Issues s hdr i ∧ i.on = [th] ∧
    i.writers ops.d = [th] ∧ ops.d.cls = .m ∧ i.ready s [] [⟨ops.d, 1⟩] false 0 th ∧ i.g.nstage = 1 ∧ i.g.nextStage = next ∧
    i.g.stageForms 0 = [f] ∧ s.entryGate i th f = .go ∧ (s.core i.w.core).slots.length + 1 ≤ 8 := by
  intro next hn
  simp only [List.mem_cons, List.not_mem_nil, or_false] at hn
  simp only [Iss.ready]
  let mk := fun next => onG (fun g => { g with
      draft := [{ word := 0xB00042243240A43A40000000, stage := 0 }], nstage := 1, nextStage := next })
    (base [0] [0, 0, 0x20000, 0, 0, 0, 0, 0, 0, 0, 0, 0, 1020, 0, 4])
  let x : VOps := ⟨.m 8 true, .m 12 true, .m 2 true, .m 14 true, 0⟩
  rcases hn with rfl | rfl
  · exact ⟨mk 0, iss (mk 0), _, cpyForm x .sp .gl false false, issues (by decide) (by decide), rfl, rfl, rfl, by decide, by decide, by decide,
      rfl, by decide, by decide⟩
  · exact ⟨mk 1, iss (mk 1), _, cpyForm x .sp .gl false false, issues (by decide) (by decide), rfl, rfl, rfl, by decide, by decide, by decide,
      rfl, by decide, by decide⟩

/-- ckill of a thread. -/
theorem witness_DraftsAdvance_kill : ∃ (s : State) (i : Iss) (th : Thread), Issues s hdr i ∧ i.writers ops.d = [th] ∧ ops.d.cls = .m ∧
    i.ready s [] [⟨ops.d, 1⟩] false 0 th ∧ ∀ c ∈ s.cores, c.2.slots = [] := by
  simp only [Iss.ready]
  exact ⟨base [0] [], iss (base [0] []), _, issues (by decide) (by decide), rfl, rfl, by decide, by decide⟩

/-- A whole warp with its operands readable, in a quarter with one place left, which owns tile 1. -/
theorem witness_MatrixCommandsQueue : ∃ (s : State) (i : Iss) (th : Thread) (rest : List Thread), Issues s hdr i ∧ i.on = th :: rest ∧
    (∀ u ∈ i.w.live, u ∈ i.on) ∧ (∀ w ∈ i.g.warps, w.wi / 4 = i.w.wi / 4 → w.live ≠ []) ∧
    (s.quarter i.w.core i.w.quarter).mq.length + 1 = 8 ∧
    s.mGate i [⟨.m 0 true, 2⟩, ⟨.m 4 true, 2⟩, ⟨.s 4 true, 1⟩, ⟨.s 5 true, 1⟩] [⟨.m 8 true, 8⟩] true (fun _ => none) = .go ∧
    (∀ solo, s.teamFault i (.mxm hdr ops .f32 .af32 false false solo) = none) ∧ s.ownsTile i 1 = true ∧ s.ownsTile i 0 = false ∧
    (∃ o, counterOf (BitVec.ofNat 21 (2 ^ 20 + 60)) = some (false, 960) ∧ s.named i.g i.w false 960 = .ok o) ∧
    ∀ u ∈ i.on, i.arg s 0 (.s 4 true) 1 u = 384 ∧ 384 % 4 = 0 ∧ 384 + 128 * i.w.quarter + 128 ≤ i.g.spBytes ∧
      i.arg s 0 (.s 5 true) 1 u = 512 ∧ 512 % 32 = 0 ∧ 512 + 512 = i.g.spBytes ∧ 16 + 31 * 32 + 16 = i.g.spBytes := by
  let other : MCmd := { id := 3, seq := 0, gid := 9, wi := 0, instr := .nop hdr ops, threads := 0, a := [], b := [], c := [], cnt := none }
  let mine : Warp := { warpOf [0] [] with s := modAt (modAt (List.replicate 64 {}) 4 fun _ => { v := 384 }) 5 fun _ => { v := 512 } }
  let s := (onG (fun g => { g with objs := [obj 0 0], warps := (List.range 4).map fun k => { mine with wi := k, quarter := k } })
    (base [0] [])).modQuarter 0 0 fun q => { q with mq := List.replicate 7 other, tiles := [{}, { owner := some (1, 0) }] }
  exact ⟨s, iss s, _, _, issues (by decide) (by decide), rfl, by decide, by decide, by decide, by decide +kernel, by decide, by decide, by decide,
    ⟨obj 0 0, by decide, by decide⟩, by decide⟩

/-- A group C command of thread 0 of the machine's warp. -/
def mcmd (ins : Instr) : MCmd :=
  { id := 3, seq := 0, gid := 1, wi := 0, instr := ins, threads := 1, a := [], b := [.cap [7] none], c := [], cnt := none }

/-- Commands that may start: one that reads the scratchpad, one that claims a tile, and the four of a team. -/
theorem witness_MatrixCommandsRun_start :
    (∀ ins ∈ [Instr.ldf hdr ops .f32 true true, .mzero hdr ops .f32 true true false],
      ∃ s : State, (s.quarter 0 0).mq.find? (fun k => k.id = 3) = some (mcmd ins) ∧ mTeam ins = false ∧ s.mayStart 0 0 (mcmd ins) = true ∧
        0 < (s.core 0).quarters.length ∧ (∃ g, s.gang? 1 = some g) ∧ 1 < (s.quarter 0 0).tiles.length) ∧
    ∃ s : State, s.teamReady 1 0 ≠ [] ∧ (∀ e ∈ s.teamReady 1 0, s.mayStart e.1 e.2.1 e.2.2 = true) ∧
      ∀ e ∈ s.teamReady 1 0, e.2.1 < (s.core e.1).quarters.length ∧ e.2.2 ∈ (s.quarter e.1 e.2.1).mq := by
  constructor
  · intro ins hi
    refine ⟨(base [0] []).modQuarter 0 0 fun q => { q with mq := [mcmd ins] }, ?_⟩
    simp only [List.mem_cons, List.not_mem_nil, or_false] at hi
    rcases hi with rfl | rfl
    · exact ⟨by decide, rfl, by decide, by decide, ⟨_, rfl⟩, by decide⟩
    · exact ⟨by decide, rfl, by decide, by decide, ⟨_, rfl⟩, by decide⟩
  · let team := (List.range 4).map fun k => { mcmd (.mxm hdr ops .f32 .af32 false false false) with wi := k, id := 3 + k }
    exact ⟨(base [0] []).modCore 0 fun c => { c with quarters := team.map fun k => { mq := [k] } }, by decide, by decide, by decide⟩

/-- Commands that end: with registers, with a tile, with stores that do not meet, and one that found its tile unowned. -/
theorem witness_MatrixCommandsRun_end : ∃ (g : Gang) (w : Warp), (∃ th ∈ w.threads, th.exited = false) ∧
    ∀ p ∈ [(Instr.mzero hdr ops .f32 false false true, false), (.mzero hdr ops .f32 true true false, false), (.stf hdr ops .f32 true true, false),
        (.mxrd hdr ops .f32 true false, true)],
      ∃ (s : State) (k : MCmd), (s.quarter 0 0).mq.find? (fun k => k.id = 3) = some k ∧ k.started = true ∧ k.instr = p.1 ∧ mTeam p.1 = false ∧
        k.cnt = none ∧ k.bad = none ∧ k.stray = p.2 ∧ 0 < (s.core 0).quarters.length ∧
        (∀ j ∈ (s.quarter 0 0).mq, j.id ≠ 3 → j.gid ≠ k.gid ∨ j.wi ≠ k.wi) ∧ s.gang? k.gid = some g ∧ s.warp? (k.gid, k.wi) = some w ∧
        g.gcOf k.wi < g.sp.length ∧ Memory.wf (nth g.sp (g.gcOf k.wi) []) = true ∧
        ∀ v, k.out [k.b] (s.quarter 0 0).tiles = .stores v → (∀ p ∈ v, p.2.length % 4 = 0 ∧ g.touchesObj (g.gcOf k.wi) p.1 p.2.length = false) ∧
          v.Pairwise fun p p' => overlaps p.1 p.2.length p'.1 p'.2.length = false := by
  refine ⟨gangOf (warpOf [0] []), warpOf [0] [], ⟨_, List.mem_cons_self, rfl⟩, ?_⟩
  intro p hp
  let k := { mcmd p.1 with started := true, stray := p.2, addr2 := 128 }
  refine ⟨(base [0] []).modQuarter 0 0 fun q => { q with mq := [k] }, k, ?_⟩
  simp only [List.mem_cons, List.not_mem_nil, or_false] at hp
  rcases hp with rfl | rfl | rfl | rfl
  · exact ⟨by decide, rfl, rfl, rfl, rfl, rfl, rfl, by decide, by decide, rfl, rfl, by decide, by decide, nofun⟩
  · exact ⟨by decide, rfl, rfl, rfl, rfl, rfl, rfl, by decide, by decide, rfl, rfl, by decide, by decide, nofun⟩
  · exact ⟨by decide, rfl, rfl, rfl, rfl, rfl, rfl, by decide, by decide, rfl, rfl, by decide, by decide,
      fun v h => by cases h; exact ⟨by decide +kernel, by decide +kernel⟩⟩
  · exact ⟨by decide, rfl, rfl, rfl, rfl, rfl, rfl, by decide, by decide, rfl, rfl, by decide, by decide, nofun⟩

/-- The last row and column of each mode, for each form; and for 16-bit inputs terms that are all zero, that have a largest one, and whose
sum is no number. -/
theorem witness_ProductsAccumulate :
    (∀ ins ∈ [Instr.mxm hdr ops .b4 .aw32 false false true, .mxm hdr ops .e4m3x4 .af16 false true false, .mxm hdr ops .f16x2 .af32 false false false,
        .mxm hdr ops .n8 .aw32 true true false, .mxc hdr ops .bf16x2 true .af32 false false false .perm,
        .mxc hdr ops .f16x2 false .af32 false false true .ones, .mxc hdr ops .b4 true .aw32 true false false .id],
      (mcmd ins).instr = ins) ∧
    Ty.b4.isInteger = true ∧ (Ty.e4m3x4.isInteger = false ∧ Ty.e4m3x4.half = false) ∧ Ty.f16x2.half = true ∧ 31 < 32 ∧ 127 < 128 ∧
    ∀ p ∈ [(0, Exact.num 0 0), (0x3F800000, .num 0x800000 (-23)), (0x7FC00000, .nan)],
      let k : MCmd := { mcmd (.mxm hdr ops .f16x2 .af32 false false false) with
        b := [], c := List.replicate 32 (.cap (List.replicate 128 (BitVec.ofNat 32 p.1)) none) }
      (∀ n < 32, (fragEl .f16x2 k.a 31 n).mul (fragEl .f16x2 k.b 31 n) = .num 0 0) ∧
        fp32.decode ((nth k.c 31 (.cap [] none)).word 127) = p.2 ∧
        (Exact.sum (List.replicate 32 (.num 0 0) ++ [p.2]) = .nan ↔ p.2 = .nan) ∧
        (p.2 = .num 0x800000 (-23) → (Nat.log2 0x800000 : Int) + -23 = 0) :=
  ⟨by simp [mcmd], by decide, by decide, by decide, by decide, by decide, by decide⟩

/-- Each of the other commands with a value, at the last row, column and thread. -/
theorem witness_MatrixResults : (∀ ins ∈ [Instr.msca hdr ops .f32 true true .d16, .msca hdr ops .bf16x2 false false .d1, .mxrd hdr ops .f16x2 true false,
      .mxrd hdr ops .w32 false true, .mzero hdr ops .f32 false false true, .mzero hdr ops .f32 true true false, .ldf hdr ops .f16x2 true false,
      .stf hdr ops .f32 false true], (mcmd ins).instr = ins) ∧ 31 < 32 ∧ 127 < 128 :=
  ⟨by simp [mcmd], by decide, by decide⟩

/-! ### Groups D and E -/

theorem trapSw_traps {s : State} {i : Iss} (hi : Issues s hdr i) (hon : i.on ≠ []) (hs : i.g.sealing = false) :
    exec (.trapSw hdr ops) s =
    .next (s.trap i.r i.pc (i.act.map (·.t)) (faultsOf i.on fun _ => some { code := 0x8000 })) := by
  show run s hdr _ = _
  simp [run, hi.1, State.trapIss, ops, bitsN, hon, hs, Iss.ts]

/-- Two threads, a third elsewhere, a handler at the code line, and an instruction that traps under no response. -/
theorem witness_TrapsEnterTheHandler : ∃ (s : State) (i : Iss) (fs : List (Nat × Flt)), Issues s hdr i ∧ i.on.length = 2 ∧ i.w.inh = false ∧
    i.w.hentry ≠ 0 ∧ i.w.hentry.toNat < 2 ^ 42 ∧ s.targetFault i.g i.w.core i.w.hentry.toNat true = none ∧ s.lockCause fs = none ∧
    (∃ u ∈ i.w.threads, u ∉ i.act) ∧ exec (.trapSw hdr ops) s = .next (s.trap i.r i.pc (i.act.map (·.t)) fs) :=
  let s := onT (fun th => if th.t = 5 then { th with pc := 0x1000C } else th) (onW (fun w => { w with hentry := 0x1000C }) (base [0, 1, 5] []))
  ⟨s, iss s, _, issues (by decide) (by decide), by decide, by decide, by decide, by decide, by decide, by decide,
    ⟨_, List.mem_cons_of_mem _ (List.mem_cons_of_mem _ List.mem_cons_self), by decide⟩, trapSw_traps (issues (by decide) (by decide)) (by decide) (by decide)⟩

/-- An operand that is an unfilled o register, empty without and with W, or poisoned; a misaligned address and one beyond the scratchpad. -/
theorem witness_OperandsFaultOrBlock :
    (∀ p ∈ [(Opnd.o 7, ({} : Reg)), (.m 4 false, { full := false }), (.m 4 true, { full := false }), (.m 4 true, { bad := some .pipe })],
      ∃ (s : State) (i : Iss) (th : Thread), Issues s hdr i ∧ i.writers ops.d = [th] ∧ i.on = [th] ∧ i.w.stall = none ∧ s.acqWaits i.r th = false ∧
        (∀ f ∈ [(⟨p.1, 1⟩ : Fld), ⟨ops.b, 1⟩, ⟨ops.c, 1⟩], s.windowReads i.g i.w.core f 0 = true) ∧ stale th p.1 1 = decide (p.1 = .o 7) ∧
        (emptyAt i.w th p.1 1).isSome = !p.2.full ∧ (p.2.full = false → (emptyAt i.w th p.1 1 = some false ↔ p.1 = .m 4 false)) ∧
        poisonAt i.w th p.1 1 = p.2.bad) ∧
    ∀ a ∈ [1022, 1024], ∃ (s : State) (i : Iss) (th : Thread), Issues s hdr i ∧ i.on = [th] ∧ i.w.stall = none ∧ s.acqWaits i.r th = false ∧
      i.ready s [⟨ops.a, 1⟩, ⟨ops.b, 1⟩] [⟨ops.d, 1⟩] false 0 th ∧
      let addr := accAddr .sp (i.arg s 0 ops.a (Spc.sp).addrWords th) 0
      addr = a ∧ (addr % szLen .b32 ≠ 0 ∨ i.g.spBytes < addr + szLen .b32) := by
  simp only [Iss.ready]
  constructor
  · intro p hp
    let s := onT (fun th => { th with m := modAt th.m 4 fun _ => p.2 }) (base [0] [])
    refine ⟨s, iss s, nth (iss s).on 0 { t := 0, bi := 0, pc := 0, m := [] }, issues ?_ ?_, ?_⟩ <;> revert p <;> decide
  · intro a ha
    let s := base [0] [0, 0, 0, 0, a]
    refine ⟨s, iss s, nth (iss s).on 0 { t := 0, bi := 0, pc := 0, m := [] }, issues ?_ ?_, ?_⟩ <;> revert a <;> decide

/-- Without a handler, and in one. -/
theorem witness_UnhandledTrapsKill : ∀ inh ∈ [true, false], ∃ (s : State) (i : Iss), Issues s hdr i ∧ i.on ≠ [] ∧
    (if inh then i.w.inh = true ∧ i.w.hentry ≠ 0 else i.w.inh = false ∧ i.w.hentry = 0) ∧
    s.mgmt.logs.length = 4 ∧ dieOfCore i.w.core < 4 ∧ (nth s.mgmt.logs (dieOfCore i.w.core) {}).entries.length < 4096 := by
  intro inh hi
  simp only [List.mem_cons, List.not_mem_nil, or_false] at hi
  let s1 := onW (fun w => { w with inh := true, hentry := 0x10000, recMask := 1 }) (base [0] [])
  rcases hi with rfl | rfl
  · exact ⟨s1, iss s1, issues (by decide) (by decide), by decide, by decide, by decide, by decide, by decide⟩
  · exact ⟨base [0] [], iss (base [0] []), issues (by decide) (by decide), by decide, by decide, by decide, by decide, by decide⟩

/-- trap.sw in a handler, without one, and with one that is no slot of a line: each traps, and no response takes its class. -/
theorem witness_UnhandledTrapsKill_any : ∀ p ∈ [(true, 0x10000#64), (false, 0), (false, 0x10001)], ∃ (s : State) (i : Iss) (f : Flt), Issues s hdr i ∧
    i.w.inh = p.1 ∧ i.w.hentry = p.2 ∧ exec (.trapSw hdr ops) s = .next (s.trap i.r i.pc (i.act.map (·.t)) [(0, f)]) ∧
    s.lockCause [(0, f)] = none ∧ f.code ≠ 0x5001 ∧ f.code ≠ 0x100A ∧
    (p.1 = false → p.2 ≠ 0 → s.targetFault i.g i.w.core i.w.hentry.toNat true ≠ none) := by
  intro p hp
  let s := onW (fun w => { w with inh := p.1, hentry := p.2, recMask := 1 }) (base [0] [])
  refine ⟨s, iss s, { code := 0x8000 }, ?_⟩
  simp only [List.mem_cons, List.not_mem_nil, or_false] at hp
  rcases hp with rfl | rfl | rfl <;>
    exact have hi := issues (s := s) (by decide) (by decide); ⟨hi, by decide, by decide, trapSw_traps hi (by decide) (by decide), by decide⟩

/-- The machine in its handler for threads 0 and 1, those of `at_` standing at its rte. -/
def inHandler (at_ : List Nat) : State :=
  onT (fun th => if at_.contains th.t then th else { th with pc := 0x1000C })
    (onW (fun w => { w with inh := true, hentry := 0x10000, recMask := 3, recPc := 0x10018 }) (base [0, 1] []))

theorem witness_RteReturns : ∀ at_ ∈ [[0, 1], [0]], ∃ i : Iss, Issues (inHandler at_) hdr i ∧ i.on ≠ [] ∧ i.w.inh = true ∧
    (∀ th ∈ i.on, i.w.recMask.getLsbD th.t = true) ∧ i.w.recPc = 0x10018 ∧ nextPc 0x10018 = 0x10024 ∧
    (∀ v ∈ [0x10018, 0x10024], (inHandler at_).targetFault i.g i.w.core v false = none ∧ (inHandler at_).fetchHeld i.g i.w.core v = false) ∧
    (i.w.live.all fun th => !i.w.recMask.getLsbD th.t || i.on.contains th) = (at_ = [0, 1] : Bool) ∧ ∀ th ∈ i.w.live, th.wait = .none := by
  intro a ha
  simp only [List.mem_cons, List.not_mem_nil, or_false] at ha
  rcases ha with rfl | rfl <;> exact ⟨iss (inHandler _), issues (by decide) (by decide), by decide⟩

/-- No thread's guard true, and an rte outside a handler. -/
theorem witness_RteReturns_other : (∃ i : Iss, Issues (base [0] []) ⟨false, true, 0⟩ i ∧ i.on = []) ∧
    ∃ i : Iss, Issues (base [0] []) hdr i ∧ i.on ≠ [] ∧ i.w.inh = false := by
  refine ⟨?_, iss (base [0] []), issues (by decide) (by decide), by decide, by decide⟩
  obtain ⟨i, hi⟩ : ∃ i, (base [0] []).iss? ⟨false, true, 0⟩ = some i := ⟨_, rfl⟩
  obtain rfl := Option.some.inj hi
  exact ⟨_, ⟨rfl, by decide⟩, rfl⟩

/-- The last slot of a line and zero as handler, and every field that rdf reads. -/
theorem witness_TrapRegistersMove :
    (∀ a ∈ [0, 0x10030], ∃ (s : State) (i : Iss) (th : Thread) (rest : List Thread), Issues s hdr i ∧ i.on = th :: rest ∧
      i.ready s [⟨ops.a, 2⟩] [] false 0 th ∧ i.arg s 0 ops.a 2 th = a ∧ a < 2 ^ 42 ∧ (a % 64 = 0 ∨ a % 64 = 48)) ∧
    ∃ (s : State) (i : Iss), Issues s hdr i ∧ i.writers ops.d ≠ [] ∧ (∀ n ∈ [1, 2, 4], ∀ th ∈ i.writers ops.d,
      i.ready s (flds ops 0 0 0) [⟨ops.d, n⟩] false 0 th) ∧
      (∀ sel ∈ [8, 15], ∀ th ∈ i.writers ops.d, nth th.recO (sel - 8) none = some 7) ∧
      ∀ sel ∈ [16, 17], ∀ th ∈ i.writers ops.d, nth th.recL (sel - 16) none = some 7 := by
  simp only [Iss.ready]
  constructor
  · intro a ha
    simp only [List.mem_cons, List.not_mem_nil, or_false] at ha
    rcases ha with rfl | rfl
    · exact ⟨base [0] [], iss (base [0] []), _, _, issues (by decide) (by decide), rfl, by decide⟩
    · exact ⟨base [0] [0, 0, 0, 0, 0x10030], iss (base [0] [0, 0, 0, 0, 0x10030]), _, _, issues (by decide) (by decide), rfl, by decide⟩
  · let s := onT (fun th => { th with recO := List.replicate 8 (some 7), recL := List.replicate 2 (some 7) }) (base [0] [])
    exact ⟨s, iss s, issues (by decide) (by decide), by decide, by decide, by decide, by decide⟩

/-- Breakpoints and handlers at zero and at the last slot of a line; watchpoints of 4 and of 65536 bytes; evtack of one thread. -/
theorem witness_TrapRegistersMove_debug :
    (∀ a ∈ [0, 0x10030], ∃ (s : State) (i : Iss) (th : Thread) (rest : List Thread), Issues s hdr i ∧ i.on = th :: rest ∧
      i.ready s [⟨ops.a, 2⟩] [] false 0 th ∧ i.arg s 0 ops.a 2 th = a ∧ a < 2 ^ 42 ∧ (a % 64 = 0 ∨ a % 64 = 48)) ∧
    (∀ k ∈ [2, 16], ∃ (s : State) (i : Iss) (th : Thread) (rest : List Thread), Issues s hdr i ∧ i.on = th :: rest ∧
      i.ready s [⟨ops.a, 2⟩, ⟨ops.b, 1⟩] [] false 0 th ∧ i.arg s 0 ops.b 1 th = 2 ^ k ∧ i.arg s 0 ops.a 2 th % 2 ^ k = 0) ∧
    ∃ (s : State) (i : Iss) (th : Thread), Issues s hdr i ∧ (if ops.d.cls = .m then i.on else i.on.take 1) = [th] ∧
      i.ready s [⟨ops.a, 1⟩] [⟨ops.d, 1⟩] false 0 th := by
  simp only [Iss.ready]
  refine ⟨?_, ?_, base [0] [], iss (base [0] []), _, issues (by decide) (by decide), rfl, by decide⟩
  · intro a ha
    simp only [List.mem_cons, List.not_mem_nil, or_false] at ha
    rcases ha with rfl | rfl
    · exact ⟨base [0] [], iss (base [0] []), _, _, issues (by decide) (by decide), rfl, by decide⟩
    · exact ⟨base [0] [0, 0, 0, 0, 0x10030], iss (base [0] [0, 0, 0, 0, 0x10030]), _, _, issues (by decide) (by decide), rfl, by decide⟩
  · intro k hk
    simp only [List.mem_cons, List.not_mem_nil, or_false] at hk
    rcases hk with rfl | rfl
    · exact ⟨base [0] [0, 0, 0, 0, 0, 0, 0, 0, 4], iss (base [0] [0, 0, 0, 0, 0, 0, 0, 0, 4]), _, _, issues (by decide) (by decide), rfl, by decide⟩
    · exact ⟨base [0] [0, 0, 0, 0, 0, 0, 0, 0, 65536], iss (base [0] [0, 0, 0, 0, 0, 0, 0, 0, 65536]), _, _, issues (by decide) (by decide),
        rfl, by decide⟩

/-- setroot of none and of a frame, retype to the last type and of the last world, tinv. -/
theorem witness_RequestsDepart : ∃ (dst : Dst), opDst ops.d 1 = some dst ∧ ∀ a ∈ [0xFFFFFFFF, 65],
    ∃ (s : State) (i : Iss) (th : Thread), Issues s hdr i ∧ i.on ≠ [] ∧ (if ops.d.cls = .m then i.on else i.on.take 1) = [th] ∧
      i.arg s 0 ops.a 1 th = a ∧ i.arg s 0 ops.b 1 th = 7 ∧ i.arg s 0 ops.c 1 th = 63 ∧
      i.ready s [⟨ops.a, 1⟩, ⟨ops.b, 1⟩, ⟨ops.c, 1⟩] [⟨ops.d, 1⟩] false 0 th := by
  refine ⟨_, rfl, ?_⟩
  intro a ha
  simp only [Iss.ready]
  simp only [List.mem_cons, List.not_mem_nil, or_false] at ha
  let mk := fun a => base [0] [0, 0, 0, 0, a, 0, 0, 0, 7, 0, 0, 0, 63]
  rcases ha with rfl | rfl
  · exact ⟨mk 0xFFFFFFFF, iss (mk 0xFFFFFFFF), _, issues (by decide) (by decide), by decide, rfl, by decide, by decide, by decide, by decide⟩
  · exact ⟨mk 65, iss (mk 65), _, issues (by decide) (by decide), by decide, rfl, by decide, by decide, by decide, by decide⟩

/-- launch of a record to the last queue, and opreq of point 3. -/
theorem witness_LaunchAndOpreqComplete : ∃ (s : State) (i : Iss) (th : Thread), Issues s hdr i ∧
    (if ops.d.cls = .m then i.on else i.on.take 1) = [th] ∧ i.ready s [⟨ops.a, 2⟩, ⟨ops.b, 1⟩] [⟨ops.d, 1⟩] false 0 th ∧
    i.arg s 0 ops.a 2 th % 256 = 0 ∧ i.arg s 0 ops.b 1 th = 63 ∧ ops.d.cls = .m ∧ s.writesDone i.r th.t .dev (fun _ => true) = true ∧
    ∃ k : BitVec 2, ∃ (s : State) (i : Iss) (th : Thread), Issues s hdr i ∧ (if ops.d.cls = .m then i.on else i.on.take 1) = [th] ∧
      i.ready s [⟨ops.a, 1⟩] [⟨ops.d, 1⟩] false 0 th ∧ i.arg s 0 ops.a 1 th = k.toNat := by
  let s1 := base [0] [0, 0, 0, 0, 0x20000, 0, 0, 0, 63]
  let s2 := base [0] [0, 0, 0, 0, 3]
  simp only [Iss.ready]
  exact ⟨s1, iss s1, _, issues (by decide) (by decide), rfl, by decide, by decide, by decide, rfl, by decide, 3, s2, iss s2, _,
    issues (by decide) (by decide), rfl, by decide, by decide⟩

/-- A relay to each kind of place: an address homed on die 0 from its own core, from core 40 whose home is core 0, and from core 40. -/
theorem witness_RelaysMove : ∀ p ∈ [(0, 0), (40, 0), (40, 44)], ∃ (s : State) (i : Iss) (th : Thread) (rest : List Thread) (pa : Nat),
    Issues s hdr i ∧ i.on = th :: rest ∧ (∀ u ∈ i.w.live, u ∈ i.on) ∧ i.g.relayCap = true ∧ ops.d.cls = .m ∧
    (∀ u ∈ i.on, i.ready s [⟨ops.a, 2⟩] [⟨ops.d, 1⟩] false 0 u ∧
      ∃ q, s.translate i.w.core i.g.world i.g.root (i.arg s 0 ops.a 2 u) .load = .ok q false) ∧
    s.translate i.w.core i.g.world i.g.root (i.arg s 0 ops.a 2 th) .load = .ok pa false ∧
    s.outstanding i.w i.r.1 = 0 ∧ i.w.allFull = true ∧ i.w.report? (i.on.map (·.t)) = none ∧ s.flights = [] ∧
    homeDie pa = 0 ∧ i.w.core = p.1 ∧ i.w.homeCore = p.2 ∧ ∃ c, ((s.visibleOn 0).find? fun c => (s.core c).landing.isNone) = some c := by
  intro p hp
  simp only [Iss.ready]
  simp only [List.mem_cons, List.not_mem_nil, or_false] at hp
  let mk := fun c home => onG (fun g => { g with relayCap := true })
    (onW (fun w => { w with core := c, homeCore := home }) (base [0, 1] [0, 0, 0, 0, 0x20000]))
  rcases hp with rfl | rfl | rfl
  · exact ⟨mk 0 0, iss (mk 0 0), _, _, 67 * 65536, issues (by decide) (by decide), rfl, by decide, rfl, rfl,
      fun u _ => ⟨by revert u; decide, 67 * 65536, by revert u; decide⟩, by decide, by decide, by decide, by decide, rfl, by decide, rfl, rfl, _, rfl⟩
  · exact ⟨mk 40 0, iss (mk 40 0), _, _, 67 * 65536, issues (by decide) (by decide), rfl, by decide, rfl, rfl,
      fun u _ => ⟨by revert u; decide, 67 * 65536, by revert u; decide⟩, by decide, by decide, by decide, by decide, rfl, by decide, rfl, rfl, _, rfl⟩
  · exact ⟨mk 40 44, iss (mk 40 44), _, _, 67 * 65536, issues (by decide) (by decide), rfl, by decide, rfl, rfl,
      fun u _ => ⟨by revert u; decide, 67 * 65536, by revert u; decide⟩, by decide, by decide, by decide, by decide, rfl, by decide, rfl, rfl, _, rfl⟩

/-- No landing slot free on the die, and an arrival with its status. -/
theorem witness_RelaysMove_other : (∃ s : State, ((s.visibleOn 0).find? fun c => (s.core c).landing.isNone) = none) ∧
    ∃ (s : State) (w : Warp) (th : Thread), s.warp? (1, 0) = some w ∧ w.relayTo = some (44, 0, 4) ∧ w.carried.length = 1 ∧
      (∀ p ∈ w.carried, s.tileFree 44 0 p.1 = true ∧ p.1 < (s.quarter 44 0).tiles.length) ∧ (w.carried.map (·.1)).Nodup ∧
      0 < (s.core 44).quarters.length ∧ w.thread? 0 = some th ∧
      th.exited = false ∧ 15 < th.m.length ∧ ∃ f ∈ s.flights, f.gid = 1 ∧ f.wi = 0 ∧ f.t = 0 ∧ f.act = .value 1 ∧ f.dst = some (.m 15 1) ∧
        f.len = 4 ∧ ∀ f' ∈ s.flights, f'.gid = 1 → f'.wi = 0 → f'.t = f.t → f' = f := by
  constructor
  · exact ⟨{ base [0] [] with cores := (List.range 160).map fun c => (c, { landing := some (1, 0) }) }, by decide +kernel⟩
  · let s : State := { onW (fun w => { w with relayTo := some (44, 0, 4), carried := [(1, { owner := some (1, 0) })] }) (base [0] []) with
      flights := [{ flight (.value 1) .reg 4 with dst := some (.m 15 1) }] }
    exact ⟨s, _, _, rfl, rfl, rfl, by decide, by decide, by decide, rfl, rfl, by decide, _, List.mem_cons_self, rfl, rfl, rfl, rfl, rfl, rfl, by
      intro f' hf _ _ _; simpa [s] using hf⟩

/-! ### The scheduler, launches and clocks -/

/-- The only ready warp of a quarter; and of two ready warps, by each rule, at its bound. -/
theorem witness_SlotsAndCoresMove_stride : (∃ (s : State) (g : Gang) (w : Warp), s.mgmt.locked = false ∧ (s.core 0).gated = false ∧
    (s.quarter 0 0).running = none ∧ 0 < (s.core 0).quarters.length ∧ s.warpsOf 0 0 = [(g, w)] ∧ g.ready w = true ∧
    s.warp? (g.gid, w.wi) = some w) ∧
    ∀ n ∈ [(59, 255), (59, 256), (60, 0), (4096, 4096)], ∃ ws : List (Gang × Warp),
      (∀ v ∈ ws, v.1.prio < 8 ∧ v.2.slot < 8) ∧ ws.length = 2 ∧
      ∃ v ∈ ws, v.2.passed = n.1 ∧ v.2.unissued = n.2 := by
  constructor
  · let s := onW (fun w => { w with stride := none }) (base [0, 1] [])
    exact ⟨s, nth s.gangs 0 (gangOf (warpOf [] [])), { warpOf [0, 1] [] with stride := none }, rfl, by decide, by decide, by decide, rfl, by decide, by decide⟩
  · intro n hn
    refine ⟨[(gangOf (warpOf [] []), { warpOf [0] [] with passed := n.1, unissued := n.2 }),
      (gangOf (warpOf [] []), { warpOf [0] [] with slot := 7 })], ?_, rfl, _, List.mem_cons_self, rfl, rfl⟩
    revert n
    decide

/-- A warp that stalls for a return, a window's word and a record. -/
theorem witness_SlotsAndCoresMove_stall : ∀ st ∈ [Stall.ret false, .param [0x2FFFC], .record [(true, 0x20000)]],
    ∃ (s : State) (g : Gang) (w : Warp), s.gang? 1 = some g ∧ s.warp? (1, 0) = some w ∧ w.stall = some st ∧
      s.translate w.core g.world g.root 0x2FFFC .load = .ok (68 * 65536 - 4) false ∧
      (∀ a ∈ [0x2FFFC, 0x20000, 0x20040, 0x20080], s.heldFor (1, 0) a = false) := by
  intro st hs
  refine ⟨onW (fun w => { w with stall := some st }) (base [0] []), _, _, rfl, rfl, rfl, by rfl, ?_⟩
  revert st
  decide

/-- An idle core and one with a ready warp; a gated core at its wake time and one clock before. -/
theorem witness_SlotsAndCoresMove_wake :
    (∃ s : State, s.idleCore 0 = true ∧ (s.core 0).gated = false) ∧ (∃ s : State, s.idleCore 0 = false) ∧
    ∀ c ∈ [24, 23], ∃ s : State, (s.core 0).gated = true ∧ (s.core 0).wakeAt = some 24 ∧ (s.core 0).clock = c := by
  refine ⟨⟨State.reset, by decide⟩, ⟨onW (fun w => { w with stride := none }) (base [0] []), by decide⟩, ?_⟩
  intro c _
  exact ⟨State.reset.modCore 0 fun k => { k with gated := true, wakeAt := some 24, clock := c }, rfl, rfl, rfl⟩

/-- A launch of one block of 200 threads, all of it placed. -/
def launch1 : Launch :=
  { lid := 1, world := 0, queue := 0, record := 0, entry := 0x10000, levels := [], regs := 16, minop := 3, prio := 1, minCores := 1,
    relayCap := false, spBytes := 1024, bib := 0, draft := 0, spillBase := 0, spillSize := 0, cpl := 0, windows := [], root := some 64,
    threads := 200, blockT := 200, blocks := 1 }

/-- A launch that fits, and the same where no cluster is visible. -/
theorem witness_BlocksAndLaunchesMove_place : ∀ cls ∈ [clustersAtReset, []], ∃ (s : State) (k : Queue) (l : Launch), s.mgmt.locked = false ∧
    s.queues = [k] ∧ s.launches = [l] ∧ k.cur = some l.lid ∧ l.placed = 0 ∧ l.blocks = 1 ∧
    (s.findPlace l.need l.bib [] []).isSome = (cls ≠ [] : Bool) ∧ s.draftHeld l.world l.root l.draft = false ∧ (s.readDraft l.world l.root l.regs l.draft).isSome = true := by
  intro cls hc
  simp only [List.mem_cons, List.not_mem_nil, or_false] at hc
  rcases hc with rfl | rfl
  · exact ⟨{ State.reset with queues := [{ world := 0, q := 0, cur := some 1 }], launches := [launch1] }, _, launch1, rfl, rfl, rfl, rfl, rfl, rfl,
      by decide +kernel, by decide, by decide⟩
  · exact ⟨{ State.reset with queues := [{ world := 0, q := 0, cur := some 1 }], launches := [launch1], clusters := [] }, _, launch1, rfl, rfl, rfl,
      rfl, rfl, rfl, by decide, by decide, by decide⟩

/-- Two launches of two queues, where the first fits and where it needs two cores of a cluster of one. -/
theorem witness_BlocksAndLaunchesMove_ranks : ∀ need ∈ [1, 2], ∃ (s : State) (k1 k2 : Queue) (l1 l2 : Launch), s.mgmt.locked = false ∧
    s.queues = [k1, k2] ∧ k1.cur = some l1.lid ∧ k2.cur = some l2.lid ∧ s.launches = [l1, l2] ∧ l1.lid ≠ l2.lid ∧ s.ranked = [l1, l2] ∧
    (∀ l ∈ [l1, l2], l.prio ≤ 7 ∧ l.placed = 0 ∧ l.blocks = 1 ∧ s.draftHeld l.world l.root l.draft = false ∧
      (s.readDraft l.world l.root l.regs l.draft).isSome = true) ∧
    (s.findPlace l1.need l1.bib l2.reserve.toList []).isSome = decide (need = 1) ∧ (s.findPlace l2.need l2.bib l1.reserve.toList []).isSome = true ∧
    63 ≤ l1.passed + 1 := by
  intro need hn
  let l1 := { launch1 with prio := 2, minCores := need, passed := 63, threads := 1, blockT := 1 }
  let l2 := { launch1 with lid := 2, queue := 1, threads := 1, blockT := 1 }
  refine ⟨{ State.reset with
    queues := [{ world := 0, q := 0, cur := some 1 }, { world := 0, q := 1, cur := some 2 }], launches := [l1, l2], clusters := [⟨0, [0]⟩] },
    _, _, l1, l2, rfl, rfl, rfl, rfl, rfl, (by decide : 1 ≠ 2), ?_⟩
  revert need
  decide

/-- A launch record of one thread, with these bytes behind its levels (R175). -/
def launchOf (regs minop prio : Byte) (sp cpl : Nat) : List Byte :=
  leBytes 8 0x10000 ++ leBytes 8 (2 ^ 63 + 1) ++ List.replicate 56 0 ++ [regs, 0, minop, prio, 0, 0, 0, 0] ++ leBytes 4 sp ++ List.replicate 28 0 ++
    leBytes 8 cpl ++ List.replicate 136 0

/-- Records that are misaligned, not mapped, with an invalid field and a completion word aligned and not, with too many rows, and sound. -/
theorem witness_BlocksAndLaunchesMove_records :
    ∀ p ∈ [(0x20001, launchOf 16 0 1 0 0, none), (0x50000, launchOf 16 0 1 0 0, none), (0x20000, launchOf 16 0 0 0 8, some 75),
        (0x20000, launchOf 16 0 0 0 4, some 75), (0x20000, launchOf 8 3 7 2097152 0, none), (0x20000, launchOf 16 0 1 2097152 0, none)],
      ∃ (s : State) (k : Queue), s.mgmt.locked = false ∧ s.queues = [k] ∧ k.cur = none ∧ k.records = [(p.1, some 64)] ∧ s.launches = [] ∧
        s.recordHeld k.world p.1 (some 64) = false ∧ s.logRoom 0 ∧
        (match s.translate 1024 k.world (s.rootNow k.world (some 64)) p.1 .load with | .ok _ _ => true | .bad _ => false) =
          decide (p.1 ≠ 0x50000) ∧
        (p.1 = 0x20000 →
          s.dispatchRead k.world (some 64) p.1 256 = some p.2.1 ∧ (s.readDraft k.world (some 64) 16 0).isSome = true ∧
          launchFault p.2.1 true = p.2.2) := by
  intro p hp
  let s := { base [0] [] with
    queues := [{ world := 0, q := 0, records := [(p.1, some 64)] }], frames := [(64, { type := 3, use := 1 })],
    mem := Memory.writeN [] (67 * 65536) p.2.1 }
  refine ⟨s, _, rfl, rfl, rfl, rfl, rfl, ?_⟩
  simp only [List.mem_cons, List.not_mem_nil, or_false] at hp
  rcases hp with rfl | rfl | rfl | rfl | rfl | rfl
  · exact ⟨by decide, ⟨rfl, by decide, by decide⟩, by decide, nofun⟩
  · exact ⟨by decide, ⟨rfl, by decide, by decide⟩, by decide, nofun⟩
  all_goals exact ⟨by decide, ⟨rfl, by decide, by decide⟩, by decide, fun _ => by decide +kernel⟩

/-- A launch whose blocks have ended, without and with a completion word at the end of a page, one with a block running, and a killed gang
that is drained and one that is not. -/
theorem witness_BlocksAndLaunchesMove_end : (∀ l ∈ [{ launch1 with placed := 1, ended := 1 }, { launch1 with placed := 1, ended := 1, cpl := 0x2FFFC },
      { launch1 with placed := 1, ended := 0 }],
      ∃ s : State, s.launch? l.lid = some l ∧ s.mem.wf = true ∧
        s.translate 1024 l.world (s.rootNow l.world l.root) 0x2FFFC .plainStore = .ok (68 * 65536 - 4) false) ∧
    ∀ b ∈ [true, false], ∃ (s : State) (g : Gang), s.dying.find? (fun h => h.gid = g.gid) = some g ∧ s.busy g.gid = b ∧
      ∃ l, s.launch? g.launch = some l := by
  constructor
  · intro l hl
    refine ⟨{ base [0] [] with launches := [l], frames := [(64, { type := 3, use := 1 })] }, ?_⟩
    simp only [List.mem_cons, List.not_mem_nil, or_false] at hl
    rcases hl with rfl | rfl | rfl <;> exact ⟨rfl, by decide, by decide⟩
  · intro b hb
    refine ⟨{ base [0] [] with
      gangs := [], dying := [gangOf (warpOf [0] [])], launches := [launch1], flights := if b then [flight .store (.phys 0) 4] else [] },
      gangOf (warpOf [0] []), rfl, ?_, _, rfl⟩
    revert b
    decide

/-! ### Requests, tables and translation caches -/

/-- A request of thread 0 due to its last register. -/
def due (req : Req) : Pending := { id := 3, gid := 1, wi := 0, t := 0, dst := .m 15 1, req := req }

/-- The machine with it and a frame 65 of this entry, whose drop the slices below `n` have passed. -/
def asked (p : Req × FrameE × Nat) : State :=
  { base [0] [] with
    pending := [due p.1], frames := [(65, { p.2.1 with dropSeq := 1 })],
    passed := (List.range p.2.2).map fun k => (k * 192 + homeSliceOfFrame 65, 1) }

/-- The case of a retype's answer. -/
def retypeCase (s : State) (f ty : Nat) (fw : Bool) (world : Nat) : Nat :=
  let e := s.frame f
  if !(decide (f < 0x2000000) && (fw || e.owner = world)) then 0
  else if !(if fw then decide (ty ≠ 7) else decide (1 ≤ ty ∧ ty ≤ 4 ∧ 1 ≤ e.type ∧ e.type ≤ 4)) then 1
  else if e.mig then 2
  else if e.use ≠ 0 then 3
  else if e.valid ≠ 0 then 4
  else if !((List.range 16).all fun k => s.hasPassed k f) then 5 else 6

/-- Each request that an event answers, and each answer of a retype. -/
theorem witness_RequestsAreAnswered :
    (∀ q ∈ [(Req.setroot 0, ({} : FrameE), 0), (.tinv 0 64 0 0 0 0, {}, 0), (.tinv 0 64 2 1 0 0, {}, 0)],
      (asked q).pending.find? (fun k => k.id = 3) = some (due q.1) ∧ ∀ f ∈ (asked q).threadFlights (1, 0) 0, 0 ≤ f.id) ∧
    (∀ q ∈ [(0, 0x2000000, 1, true, 0, ({} : FrameE), 16), (0, 65, 1, false, 2, { owner := 1 }, 16), (1, 65, 7, true, 0, {}, 16),
        (1, 65, 5, false, 2, { owner := 2, type := 1 }, 16), (2, 65, 1, true, 0, { mig := true }, 16), (3, 65, 1, true, 0, { use := 1 }, 16),
        (4, 65, 3, true, 0, { valid := 1 }, 16), (5, 65, 3, true, 0, {}, 15), (6, 65, 3, true, 0, {}, 16),
        (6, 65, 4, false, 2, { owner := 2, type := 1 }, 16)],
      let s := asked (.retype q.2.1 q.2.2.1 none q.2.2.2.1 q.2.2.2.2.1, q.2.2.2.2.2)
      s.pending.find? (fun k => k.id = 3) = some (due (.retype q.2.1 q.2.2.1 none q.2.2.2.1 q.2.2.2.2.1)) ∧
        retypeCase s q.2.1 q.2.2.1 q.2.2.2.1 q.2.2.2.2.1 = q.1) ∧
    ∀ q, (asked q).warp? (1, 0) = some (warpOf [0] []) ∧ (warpOf [0] []).hasDst 0 (.m 15 1) ∧ ∃ th ∈ (warpOf [0] []).threads, th.exited = false :=
  ⟨by decide, by decide, fun _ => ⟨rfl, ⟨_, rfl, rfl, by decide⟩, _, List.mem_cons_self, rfl⟩⟩

/-- The machine with a table store at the last entry of a table, frame 69, due; frame 67 is DATA. -/
def storing (pa v sz : Nat) : State :=
  onW (fun w => { w with stall := some (.table [⟨0, 0x30000, pa, v, sz⟩] []) })
    { base [0] [] with frames := [(67, { type := 1 }), (69, { type := 4 })] }

/-- A narrow table store at an odd address, one of no valid entry, and one that the home slice admits; and one that drops the only use, or
one of two, of the frame that its entry names. -/
theorem witness_TablesAreStored :
    (∀ q ∈ [(70 * 65536 - 3, 0, 2), (70 * 65536 - 8, 0, 8), (70 * 65536 - 8, 2 ^ 63 + 67 * 2 ^ 33 + 2 ^ 58, 8)],
      (storing q.1 q.2.1 q.2.2).warp? (1, 0) = some { warpOf [0] [] with stall := some (.table [⟨0, 0x30000, q.1, q.2.1, q.2.2⟩] []) } ∧
        (storing q.1 q.2.1 q.2.2).mem.wf = true ∧ (q.2.2 = 8 → q.1 % 8 = 0)) ∧
    (storing (70 * 65536 - 8) (2 ^ 63 + 67 * 2 ^ 33 + 2 ^ 58) 8).tableRefuse 69 8191 (2 ^ 63 + 67 * 2 ^ 33 + 2 ^ 58) 8 = 0 ∧
    ∀ use ∈ [1, 2], ∃ s : State, s.warp? (1, 0) = (storing (70 * 65536 - 8) 0 8).warp? (1, 0) ∧ s.mem.wf = true ∧
      s.mem.num (70 * 65536 - 8) 8 = 2 ^ 63 + 67 * 2 ^ 33 + 2 ^ 58 ∧ (s.frame 67).use = use := by
  refine ⟨?_, by decide +kernel, fun use hu => ⟨{ storing (70 * 65536 - 8) 0 8 with
    frames := [(67, { type := 1, use := use }), (69, { type := 4, valid := 1 })],
    mem := Memory.writeN [] (70 * 65536 - 8) (leBytes 8 (2 ^ 63 + 67 * 2 ^ 33 + 2 ^ 58)) }, rfl,
    (by decide : Memory.wf (Memory.writeN [] (70 * 65536 - 8) (leBytes 8 (2 ^ 63 + 67 * 2 ^ 33 + 2 ^ 58))) = true),
    (by decide : Memory.num (Memory.writeN [] (70 * 65536 - 8) (leBytes 8 (2 ^ 63 + 67 * 2 ^ 33 + 2 ^ 58))) (70 * 65536 - 8) 8 = _), rfl⟩⟩
  intro q hq
  refine ⟨rfl, (by decide : (base [0] []).mem.wf = true), ?_⟩
  revert q
  decide

theorem witness_TablesAreStored_purge : ∃ (s : State) (p : Purge), s.purges.find? (fun p => p.slice = 1 && p.frame = 66) = some p ∧
    s.purges.find? (fun q => q.slice = 1 && q.src = p.src) = some p :=
  ⟨{ base [0] [] with purges := [⟨1, 0, 1, 66⟩] }, _, rfl, rfl⟩

/-! ### Bring-up -/

/-- The r, and the s, of the image's signature, and the hash of the point that signs with it. -/
def imageSig : Nat := 0x1ce9622775bf0d7999c292c617f1bd7a5ae0449a9eb6903c06f53a2429eeb724a98f4a410e2bdc4a104949fc5deab15b
def imageKey : List Byte := beBytes 48 0x3ff261fde695db2d9c1021ec135c9d6ee615fbfff95bdfdffe5a53c2edf53d093cc92d641d9845b45f4323724c615cf0

/-- A module flash whose slot holds an image: a text section of one line, its signature block, one entry symbol and one empty string (R78). The
signature is r = s = -e for the image's digest e, which the sum of the base point and a point with x = r signs. -/
def flashOf (base : Nat) : Memory :=
  let pad := fun (n : Nat) (b : List Byte) => (b ++ List.replicate n 0).take n
  let head := leBytes 4 0x004F4C52 ++ leBytes 2 1 ++ leBytes 2 2 ++ leBytes 8 2 ++ leBytes 8 64 ++ leBytes 8 144 ++ leBytes 4 1 ++ leBytes 12 0 ++
    leBytes 8 464 ++ leBytes 8 1
  let text := leBytes 4 0 ++ leBytes 2 1 ++ leBytes 2 3 ++ leBytes 8 0x10000 ++ leBytes 8 64 ++ leBytes 8 400 ++ leBytes 4 64
  let sign := leBytes 4 0 ++ leBytes 2 7 ++ leBytes 2 0 ++ leBytes 8 0 ++ leBytes 8 152 ++ leBytes 8 168 ++ leBytes 4 8
  let entry := leBytes 4 0 ++ leBytes 2 1 ++ leBytes 1 0 ++ leBytes 1 2 ++ leBytes 8 0x10000
  let bytes := pad 64 head ++ pad 40 text ++ pad 40 sign ++ pad 24 entry ++ (leBytes 4 1 ++ imageKey ++ beBytes 48 imageSig ++ beBytes 48 imageSig)
  bytes.zipIdx.filterMap fun p => if p.1 = 0 then none else some (base + p.2, p.1)

/-- The machine that verifies it, the image's key enrolled. -/
def booting (slot : Nat) : State :=
  { State.reset with mgmt :=
      { State.reset.mgmt with
        stage := 3, tried := slot, flash := flashOf (slot * 0x2000000), ident := some { keyHashes := [imageKey] } } }

/-- The image's digest (spec/04 R81). -/
theorem test_image_digest : sha384 (leBytes 2 1 ++ leBytes 8 0x10000 ++ leBytes 8 64 ++ List.replicate 64 0) = beBytes 48 (ecN - imageSig) := by
  decide +kernel

theorem image_signed : signatureOk imageKey (beBytes 48 (ecN - imageSig)) (beBytes 48 imageSig ++ beBytes 48 imageSig) = true := by
  decide +kernel

/-- Either slot is accepted. -/
theorem accepts (slot : Nat) (h : slot = 0 ∨ slot = 1) : (booting slot).slotFail slot = 0 := by
  have hs : (booting slot).sections slot = [⟨1, 3, 0x10000, 64, 400, 64, 0⟩, ⟨7, 0, 0, 152, 168, 8, 0⟩] := by
    rcases h with rfl | rfl <;> decide +kernel
  have he : (booting slot).imageEntry slot = some 0x10000 := by rcases h with rfl | rfl <;> decide +kernel
  have hc : ((booting slot).contents slot ⟨7, 0, 0, 152, 168, 8, 0⟩ |>.drop 4 |>.take 48) = imageKey ∧
      ((booting slot).contents slot ⟨7, 0, 0, 152, 168, 8, 0⟩ |>.drop 52 |>.take 96) = beBytes 48 imageSig ++ beBytes 48 imageSig := by
    rcases h with rfl | rfl <;> decide +kernel
  have hk : ((List.range 4).any fun i => nth [imageKey] i [] = imageKey && !nth ([] : List Bool) i false) = true := by decide +kernel
  have h1 : (booting slot).img slot 168 4 = 1 ∧ (booting slot).img slot 316 4 = 0 := by rcases h with rfl | rfl <;> decide +kernel
  have hh : (!((booting slot).img slot 0 4 = 0x004F4C52 && (booting slot).img slot 4 2 = 1 && (booting slot).img slot 6 2 = 2 &&
        (booting slot).img slot 12 4 = 0 && (booting slot).img slot 10 2 = 0 && (booting slot).img slot 36 4 = 0) ||
      !(decide ((booting slot).img slot 16 8 + 40 * (booting slot).img slot 8 2 ≤ 0x2000000) &&
        decide ((booting slot).img slot 24 8 + 24 * (booting slot).img slot 32 4 ≤ 0x2000000)) ||
      !(booting slot).stringsOk slot || !(List.range ((booting slot).img slot 32 4)).all ((booting slot).symbolOk slot)) = false := by
    rcases h with rfl | rfl <;> decide +kernel
  have hi : (booting slot).mgmt.ident = some { keyHashes := [imageKey] } := rfl
  have ht : (booting slot).contents slot ⟨1, 3, 0x10000, 64, 400, 64, 0⟩ = List.replicate 64 0 := by rcases h with rfl | rfl <;> decide +kernel
  have hd : (booting slot).imageDigest slot = beBytes 48 (ecN - imageSig) := by
    rw [← test_image_digest, State.imageDigest, hs]
    exact congrArg sha384 ((List.append_nil _).trans (congrArg _ ht))
  unfold State.slotFail
  simp only [hh, hs, he, hi]
  simp [hc, hd, h1, hk, Section.ok, minAlign, image_signed]
  exact ⟨by decide +kernel, by decide +kernel⟩

/-- An image in the first slot, or in the second behind an empty first, accepted; an empty slot; and the die that takes over. -/
theorem witness_DeviceComesUp :
    (∃ s : State, s.mgmt.stage = 1 ∧ 3 < s.mgmt.healthy.length ∧ nth s.mgmt.healthy 2 false = true ∧ ∀ c < 2, nth s.mgmt.healthy c false = false) ∧
    (∃ s : State, s.mgmt.stage = 2) ∧
    (∀ slot ∈ [0, 1], (booting slot).mgmt.stage = 3 ∧ (booting slot).mgmt.tried = slot ∧ (booting slot).slotFail slot = 0) ∧
    (∀ slot ∈ [0, 1], ∃ s : State, s.mgmt.stage = 3 ∧ s.mgmt.tried = slot ∧ s.slotFail slot ≠ 0 ∧ s.logRoom s.mgmt.ctlDie) ∧
    ∃ s : State, s.mgmt.stage = 4 ∧ nth s.mgmt.healthy 3 false = true ∧ 3 ≠ s.mgmt.ctlDie ∧
      ∀ c < 3, c ≠ s.mgmt.ctlDie → nth s.mgmt.healthy c false = false := by
  refine ⟨⟨{ State.reset with mgmt := { State.reset.mgmt with healthy := [false, false, true, true] } }, rfl, by decide, rfl, by decide⟩,
    ⟨{ State.reset with mgmt := { State.reset.mgmt with stage := 2 } }, rfl⟩, ?_, ?_,
    { State.reset with mgmt := { State.reset.mgmt with stage := 4, healthy := [true, false, false, true] } }, rfl, rfl, by decide, by decide⟩
  · intro slot h
    exact ⟨rfl, rfl, accepts slot (by simpa using h)⟩
  · intro slot h
    refine ⟨{ State.reset with mgmt := { State.reset.mgmt with stage := 3, tried := slot } }, rfl, rfl, ?_, ⟨rfl, (by decide : State.reset.mgmt.ctlDie < 4), ?_⟩⟩
    · simp only [List.mem_cons, List.not_mem_nil, or_false] at h
      rcases h with rfl | rfl <;> decide +kernel
    · show (nth State.reset.mgmt.logs State.reset.mgmt.ctlDie {}).entries.length < 4096
      decide

/-! ### Pre-emption, operating points and spares -/

/-- The machine with three CONTEXT frames, no stride running, and this pre-emption of its gang. -/
def preempting (p : Option Preempt) : State :=
  onG (fun g => { g with preempt := p }) (onW (fun w => { w with stride := none })
    { base [0, 1] [] with frames := [70, 71, 72].map fun f => (f, { type := 5 }) })

/-- Frames enough and too few; a notice at its end and one clock before; a gang drained, one that is not, and a store that others have seen. -/
theorem witness_ContextsMove_seal :
    (∀ fs ∈ [[70, 71, 72], [70, 71]], ∃ (s : State) (g : Gang), s.gang? g.gid = some g ∧ g.preempt = none ∧
      (∀ f ∈ fs, (s.frame f).type = 5 ∧ (s.frame f).owner = g.world) ∧ fs.Nodup ∧ g.framesNeeded = 3) ∧
    (∀ u ∈ [0, 1], ∃ (s : State) (g : Gang) (p : Preempt), s.gang? g.gid = some g ∧ g.preempt = some p ∧ p.notice = some u ∧
      s.now (nth g.cores 0 0) = 0) ∧
    ∀ fs ∈ [[], [flight .store (.phys 0) 4], [{ flight .store (.phys 0) 4 with gid := 9, seen := true }]],
      ∃ (s : State) (g : Gang) (p : Preempt), s.gang? g.gid = some g ∧ g.preempt = some p ∧ p.notice = none ∧ s.mgmt.locked = false ∧
        (∀ w ∈ g.warps, w.stride = none ∧ w.stall = none ∧ w.relayTo = none) ∧ s.flights = fs ∧
        (s.drained g.gid = true ∧ (∀ f ∈ s.flights, f.seen = true → f.finished = true) ↔ fs = []) := by
  refine ⟨?_, ?_, ?_⟩
  · intro fs hf
    refine ⟨preempting none, nth (preempting none).gangs 0 (gangOf (warpOf [] [])), by rfl, rfl, ?_⟩
    simp only [List.mem_cons, List.not_mem_nil, or_false] at hf
    rcases hf with rfl | rfl <;> exact ⟨by decide, by decide, by decide⟩
  · intro u _
    exact ⟨preempting (some { notice := some u, frames := [] }), nth (preempting (some { notice := some u, frames := [] })).gangs 0 (gangOf (warpOf [] [])),
      { notice := some u, frames := [] }, rfl, rfl, rfl, rfl⟩
  · intro fs hf
    let s := { preempting (some { notice := none, frames := [70, 71, 72] }) with flights := fs }
    refine ⟨s, nth s.gangs 0 (gangOf (warpOf [] [])), { notice := none, frames := [70, 71, 72] }, rfl, rfl, rfl, rfl, ?_⟩
    revert fs
    decide

/-- A sealed gang whose tag is off by `d`. -/
def sealedBy (d : BitVec 128) : Sealed :=
  { gang := { gangOf (warpOf [0] []) with preempt := none }, mq := [], tiles := [], frames := [], image := 5,
    tag := Config.imageTag 0 5 0 1 + d }

/-- A sealed gang whose tag agrees, on a core that suits it and on one of no visible cluster, and one whose tag does not. -/
theorem witness_ContextsMove_resume : ∀ d ∈ [(0 : BitVec 128), 1], ∃ s : State,
    s.sealed.find? (fun j => j.gang.gid = (sealedBy d).gang.gid) = some (sealedBy d) ∧ s.mgmt.locked = false ∧
    s.gang? (sealedBy d).gang.gid = none ∧ s.suits (sealedBy d) [4] = true ∧ s.suits (sealedBy d) [39] = false ∧
    (Config.imageTag s.mgmt.sealKey (s.imageIn (sealedBy d)) (sealedBy d).gang.world (sealedBy d).gang.bib = (sealedBy d).tag ↔ d = 0) := by
  intro d hd
  refine ⟨{ State.reset with sealed := [sealedBy d] }, rfl, rfl, rfl, ?_, ?_, ?_⟩
  · have : ∀ e, ({ State.reset with sealed := [] } : State).suits (sealedBy e) [4] = true := fun e =>
      (by decide +kernel : ({ State.reset with sealed := [] } : State).suits
        { gang := { gangOf (warpOf [0] []) with preempt := none }, mq := [], tiles := [], frames := [], image := 5, tag := 0 } [4] = true)
    exact this d
  · have : ∀ e, ({ State.reset with sealed := [] } : State).suits (sealedBy e) [39] = false := fun e =>
      (by decide +kernel : ({ State.reset with sealed := [] } : State).suits
        { gang := { gangOf (warpOf [0] []) with preempt := none }, mq := [], tiles := [], frames := [], image := 5, tag := 0 } [39] = false)
    exact this d
  · have h : Config.imageTag 0 5 0 1 = Config.imageTag 0 5 0 1 + d ↔ d = 0 := by
      simp only [List.mem_cons, List.not_mem_nil, or_false] at hd
      constructor
      · intro h
        simpa using h.symm
      · rintro rfl
        simp
    exact h

/-- The gang at its highest row, this many rows of its core bad at every point. -/
def fullCore (bad : Nat) : State :=
  onG (fun g => { g with rowBase := [2047] }) { base [0] [] with cores := [(0, { bad := List.replicate 4 (List.range bad) })] }

/-- A step down whose rows fit, and do not by one; its later stages; and a step up. -/
theorem witness_PointsStepAndPartsAreReplaced_point :
    (∀ bad ∈ [128, 129], ∃ (s : State) (st : OpStep), s.opstep = some st ∧ st.stage = 1 ∧ s.opcur < st.target ∧ s.gangs ≠ [] ∧
      ((∀ c < 160, s.highWater c ≤ s.capAt c st.target) ↔ bad = 128)) ∧
    (∀ g ∈ [2, 3], ∃ (s : State) (st : OpStep), s.opstep = some st ∧ st.stage = g ∧ s.opcur < st.target) ∧
    ∃ (s : State) (st : OpStep), s.opstep = some st ∧ st.target < s.opcur := by
  let on := fun (s : State) (g : Nat) => { s with opcur := 2, opstep := some ⟨3, g, []⟩ }
  refine ⟨fun bad hb => ⟨on (fullCore bad) 1, _, rfl, rfl, (by decide : 2 < 3), nofun, ?_⟩,
    fun g _ => ⟨on (fullCore 0) g, _, rfl, rfl, (by decide : 2 < 3)⟩, { State.reset with opstep := some ⟨2, 1, []⟩ }, _, rfl, by decide⟩
  revert bad
  decide +kernel

/-- A failed core and a failed unit of the first cluster, with a spare of its die and without, and dead with a gang on it. -/
theorem witness_PointsStepAndPartsAreReplaced_part : (∃ cl, State.reset.clusters[0]? = some cl ∧ 3 ∈ cl.cores ∧
      (∀ j < State.reset.clusters.length, ∀ cl', State.reset.clusters[j]? = some cl' → 3 ∈ cl'.cores ∨ cl'.unit = cl.unit → j = 0) ∧
      State.reset.resides cl = false ∧ 36 ∈ State.reset.poolCores ∧ (∀ d ∈ State.reset.poolCores, dieOfCore d = cl.unit / 10 → 36 ≤ d) ∧
      9 ∈ State.reset.poolUnits ∧ 9 / 10 = cl.unit / 10 ∧ (∀ v ∈ State.reset.poolUnits, v / 10 = cl.unit / 10 → 9 ≤ v) ∧ (∀ d ∈ cl.cores, d < 160) ∧
      ∃ s : State, s.clusters = State.reset.clusters ∧ (∀ c ∈ s.poolCores, dieOfCore c ≠ cl.unit / 10) ∧ (∀ u ∈ s.poolUnits, u / 10 ≠ cl.unit / 10) ∧
        ∀ l ∈ s.clusters, s.resides l = false) ∧
    ∃ g ∈ (base [0] []).gangs, 0 ∈ g.cores ∧ 5 ∉ g.cores := by
  refine ⟨⟨_, rfl, by decide, ?_, by decide +kernel, by decide, by decide +kernel, by decide, rfl, by decide +kernel, by decide,
    { State.reset with poolCores := [], poolUnits := [] }, rfl, by decide, by decide, by decide +kernel⟩, _, List.mem_cons_self, by decide, by decide⟩
  have h : ∀ j < State.reset.clusters.length, (((State.reset.clusters[j]?).getD { unit := 50, cores := [] }).cores.contains 3 ||
      ((State.reset.clusters[j]?).getD { unit := 50, cores := [] }).unit == 0) = true → j = 0 := by
    decide +kernel
  intro j hj cl hc hm
  exact h j hj (by simpa [hc] using hm)

/-- A copy from global memory, its source homed on die 0. -/
def farCmd : Cmd :=
  { slot := 7, seq := 0, gid := 1, wi := 0, t := 0, dst := .m 0 1, kind := .copy ⟨.gl, 0x20000⟩ ⟨.sp, 0⟩ 128, code := 0, ga := false,
    sys := false, cnt := none, total := 128 }

/-- Core 159 holds it. -/
def farCopy : State := (base [0] []).modCore 159 fun c => { c with slots := [farCmd] }

/-- The last bridge, which carries that copy. -/
theorem witness_PointsStepAndPartsAreReplaced_bridge : ∃ (s : State) (b : Nat) (k : Cmd), b < s.bridges.length ∧ s.cmd? 159 7 = some k ∧
    k.status = none ∧ k.killed = false ∧ s.cmdCarried b 159 k = true :=
  ⟨farCopy, 3, farCmd, by decide, by decide +kernel, rfl, rfl, by decide +kernel⟩

/-! ### Repair and management -/

/-- A frame of each tier with one spare left, migrated and moving; lines whose banks have their spare row and have not, or whose frame moves; a row that no
good set has lost, with room for the rows in use and without; a row of a slice; logs with one place left. -/
theorem witness_RepairsRun :
    (∀ p ∈ [(0x7FFFFF, 7, 63), (0x17FFFFF, 39, 31)], ∃ s : State, (s.frame p.1).mig = false ∧ s.spares.get p.2.1 0 = p.2.2 ∧
      p.2.1 = (if p.1 < 0x800000 then p.1 / 0x100000 else 8 + (p.1 - 0x800000) / 0x80000)) ∧
    (∃ s : State, ∃ m ∈ s.migs, m.frame = 65) ∧
    (∀ line, (∃ s : State, Config.dramBank line ∉ s.rowSpares ∧ Config.dramBank line ∉ s.burned) ∧
      (∃ s : State, Config.dramBank line ∈ s.rowSpares ∧ Config.dramBank line ∉ s.burned) ∧ ∃ s : State, Config.dramBank line ∈ s.burned) ∧
    (∃ s : State, (s.frame (128 * 512 / 65536)).mig = true ∧ Config.dramBank 512 ∉ s.burned) ∧
    (∃ s : State, (s.core 159).bad.length = 4 ∧ (∀ b ∈ (s.core 159).bad, 2175 ∉ b) ∧ s.opcur < 4 ∧
      s.highWater 159 ≤ min 2048 (2176 - ((nth (s.core 159).bad s.opcur []).length + 1))) ∧
    (∃ s : State, (s.core 0).bad.length = 4 ∧ (∀ b ∈ (s.core 0).bad, 2175 ∉ b) ∧ s.opcur < 4 ∧
      min 2048 (2176 - ((nth (s.core 0).bad s.opcur []).length + 1)) < s.capAt 0 s.opcur ∧
      min 2048 (2176 - ((nth (s.core 0).bad s.opcur []).length + 1)) < s.highWater 0) ∧
    (∀ b ∈ (fullCore 128).gangs, b.rowBase = [2047]) ∧ 4095 ∉ State.reset.slicesBad.get 191 [] ∧
    ∃ s : State, ∀ die < 4, s.logRoom die ∧ (nth s.mgmt.logs die {}).entries.length = 4095 := by
  refine ⟨?_, ⟨{ State.reset with migs := [⟨65, []⟩] }, _, List.mem_cons_self, rfl⟩,
    fun line => ⟨⟨State.reset, List.not_mem_nil, List.not_mem_nil⟩, ⟨{ State.reset with rowSpares := [Config.dramBank line] }, List.mem_cons_self, List.not_mem_nil⟩,
      { State.reset with burned := [Config.dramBank line] }, List.mem_cons_self⟩,
    ⟨{ State.reset with frames := [(1, { mig := true })] }, rfl, List.not_mem_nil⟩,
    ⟨State.reset, rfl, by decide, by decide, by decide⟩,
    ⟨fullCore 128, rfl, by decide +kernel, by decide, by decide +kernel, by decide +kernel⟩, by decide, by decide, ?_⟩
  · intro p hp
    refine ⟨{ State.reset with spares := [(p.2.1, p.2.2)] }, rfl, ?_⟩
    simp only [List.mem_cons, List.not_mem_nil, or_false] at hp
    rcases hp with rfl | rfl <;> exact ⟨rfl, by decide⟩
  · let l : Log := { entries := List.replicate 4095 ({ src := 6, srcId := 0, code := 1, cls := 2 } : LogE) }
    refine ⟨{ State.reset with mgmt := { State.reset.mgmt with logs := [l, l, l, l] } }, ?_⟩
    have hl : l.entries.length = 4095 := List.length_replicate
    intro die hd
    have he : nth [l, l, l, l] die {} = l := by
      match die, hd with
      | 0, _ => rfl
      | 1, _ => rfl
      | 2, _ => rfl
      | 3, _ => rfl
    exact ⟨⟨rfl, hd, by show (nth [l, l, l, l] die {}).entries.length < 4096; rw [he, hl]; decide⟩,
      by show (nth [l, l, l, l] die {}).entries.length = 4095; rw [he, hl]⟩

/-- Alarms without and with the class I response, with the last port up alone and with none; a locked device whose alarm a port carries; the
first write of CLS, a measured image, the last world, and enrolment. -/
theorem witness_ManagementMoves :
    (∃ s : State, s.mgmt.respI = false ∧ s.logRoom 3 ∧ (match s.mgmt.ident with | some i => i.module_ | none => false) = true) ∧
    (∃ s : State, s.mgmt.respI = true ∧ s.mgmt.locked = false ∧ s.mgmt.alarmPort = none ∧ ∀ p < 8, nth s.mgmt.ports p false = false) ∧
    (∃ s : State, s.mgmt.respI = true ∧ s.mgmt.locked = false ∧ s.mgmt.alarmPort = none ∧ nth s.mgmt.ports 7 false = true ∧
      ∀ q < 7, nth s.mgmt.ports q false = false) ∧
    (∃ s : State, s.mgmt.locked = true ∧ s.mgmt.alarm = some [] ∧ s.mgmt.alarmPort = some 7) ∧
    (∃ s : State, s.mgmt.stage = 4 ∧ s.mgmt.respV = false ∧ s.mgmt.respI = false ∧ s.mgmt.spent = 0 ∧ s.mgmt.measure.length = 48) ∧
    State.reset.mgmt.stage ≠ 4 ∧ (∀ g ∈ State.reset.dying, g.world ≠ 63) ∧ State.reset.mgmt.ident = none := by
  let on := fun (m : Mgmt) => { State.reset with mgmt := m }
  let m := State.reset.mgmt
  exact ⟨⟨on { m with ident := some { module_ := true } }, rfl, ⟨rfl, by decide, by decide⟩, rfl⟩,
    ⟨on { m with respI := true, ports := [] }, rfl, rfl, rfl, by decide⟩,
    ⟨on { m with respI := true, ports := [false, false, false, false, false, false, false, true] }, rfl, rfl, rfl, rfl, by decide⟩,
    ⟨on { m with locked := true, alarm := some [], alarmPort := some 7 }, rfl, rfl, rfl⟩,
    ⟨on { m with stage := 4, measure := List.replicate 48 0 }, rfl, rfl, rfl, rfl, by decide⟩, by decide, by decide, rfl⟩

/-! ### Base dies, links and network queues -/

/-- The stack 7 with the lower tags of its second port taken, up to the last; a read and a write, each behind nothing, behind a write that
it must wait for and behind one that it need not wait for; and the last grant, in its world's hands and not. -/
theorem witness_BasePacketsAndMessagesMove_base :
    (∀ n ∈ [0, 7], ∃ s : State, storageOf (7340032 * 65536 / 65536) = 7 ∧ Config.dramChannel (lineOf (7340032 * 65536)) ∉ s.quiesced ∧
      (∀ r ∈ (s.stack 7).reqs, r.port = 1 → r.tag ≠ n) ∧ ∀ j < n, ∃ r ∈ (s.stack 7).reqs, r.port = 1 ∧ r.tag = j) ∧
    (∀ q ∈ [[], [({ kind := 1, port := 0, tag := 1, addr := 128, len := 128, mask := BitVec.allOnes 128,
                    data := List.replicate 128 7 } : BaseReq)]],
      ∃ (s : State) (r : BaseReq), (s.stack 0).req? 0 0 = some r ∧ r.kind = 0 ∧ r.len = 128 ∧ (s.stack 0).queue = q ∧
        (s.stack 0).before 0 0 ≠ [] ∧ ∀ w ∈ (s.stack 0).before 0 0, w.kind = 0 ∨ overlaps w.addr w.len r.addr r.len = false) ∧
    (∃ (s : State) (r : BaseReq), (s.stack 0).req? 0 0 = some r ∧ r.kind = 0 ∧
      ∃ w ∈ (s.stack 0).before 0 0, w.kind ≠ 0 ∧ overlaps w.addr w.len r.addr r.len = true) ∧
    (∃ (s : State) (r : BaseReq), (s.stack 0).req? 0 0 = some r ∧ r.kind = 2 ∧ ((s.stack 0).before 0 0).map (·.port) = [1, 0] ∧
      ∀ w ∈ (s.stack 0).before 0 0, w.port = 0 → w.kind = 0 ∧
        ¬ ∃ v ∈ (s.stack 0).before w.port w.tag, v.kind ≠ 0 ∧ overlaps v.addr v.len w.addr w.len = true) ∧
    (∃ (s : State) (r : BaseReq), (s.stack 0).req? 0 0 = some r ∧ r.kind = 1 ∧ ∃ w ∈ (s.stack 0).before 0 0, w.kind ≠ 0 ∧ w.port = 0) ∧
    ∀ w ∈ [0, 63], ∃ s : State, (s.stack 7).grants.get 47 0 = w := by
  let wr := fun (k p a : Nat) => ({ kind := k, port := p, tag := p, addr := a, len := 128 } : BaseReq)
  refine ⟨?_, ?_, ⟨{ State.reset with hbm := [(0, { reqs := [wr 1 1 192, wr 0 0 128] })] }, _, rfl, rfl, wr 1 1 192, by decide, by decide, by decide⟩,
    ⟨{ State.reset with hbm := [(0, { reqs := [wr 1 1 128, { wr 0 0 256 with tag := 1 }, wr 2 0 128] })] }, _, rfl, rfl, by decide, by decide⟩,
    ⟨{ State.reset with hbm := [(0, { reqs := [{ wr 2 0 128 with tag := 1 }, wr 1 0 128] })] }, _, rfl, rfl, { wr 2 0 128 with tag := 1 }, by decide,
      by decide, by decide⟩, fun w _ => ⟨{ State.reset with hbm := [(7, { grants := [(47, w)] })] }, rfl⟩⟩
  · intro n hn
    refine ⟨{ State.reset with hbm := [(7, { reqs := (List.range n).map fun t => ({ kind := 0, port := 1, tag := t, addr := 0, len := 64 } : BaseReq) })] },
      by decide, List.not_mem_nil, ?_⟩
    simp only [List.mem_cons, List.not_mem_nil, or_false] at hn
    rcases hn with rfl | rfl <;> exact ⟨by decide, by decide⟩
  · intro q _
    exact ⟨{ State.reset with hbm := [(0, { reqs := [wr 1 1 256, wr 0 0 128], queue := q })] }, wr 0 0 128, rfl, rfl, rfl, rfl,
      (by decide : ({ reqs := [wr 1 1 256, wr 0 0 128] } : Stack).before 0 0 ≠ []),
      (by decide : ∀ w ∈ ({ reqs := [wr 1 1 256, wr 0 0 128] } : Stack).before 0 0, w.kind = 0 ∨ overlaps w.addr w.len 128 128 = false)⟩

/-- Queues closed and open, the latter with a place left for its next message, from a peer seen before and from a new one, and one that is
full. -/
theorem witness_BasePacketsAndMessagesMove_queue :
    (queueIn State.reset.sendQs 63 63).opened = false ∧ (queueIn State.reset.sendQs 63 63).held = [] ∧
    (queueIn State.reset.recvQs 63 63).opened = false ∧
    (∃ s : State, (queueIn s.recvQs 63 63).opened = true ∧ (queueIn s.recvQs 63 63).msgs.length + (queueIn s.recvQs 63 63).held.length = 15 ∧
      (queueIn s.recvQs 63 63).rod = true ∧ (queueIn s.recvQs 63 63).held = [] ∧ (queueIn s.recvQs 63 63).want.get? 4 = some 9 ∧
      (queueIn s.recvQs 63 63).want.get? 5 = none) ∧
    (∃ s : State, (queueIn s.recvQs 63 63).opened = false ∧ (queueIn s.recvQs 63 63).held.length = 3) ∧
    (∃ (s : State) (m : Msg) (ms : List Msg), (queueIn s.recvQs 63 63).msgs = m :: ms ∧ ms ≠ [] ∧
      (∀ y ∈ ms, y.peer = m.peer → seqBefore m.seq y.seq = true) ∧ seqBefore m.seq ((queueIn s.recvQs 63 63).want.get m.peer 0) = true) ∧
    ∃ s : State, (queueIn s.recvQs 63 63).msgs.length + (queueIn s.recvQs 63 63).held.length = 16 :=
  ⟨rfl, rfl, rfl, ⟨{ State.reset with recvQs := [{ world := 63, q := 63, opened := true, want := [(4, 9)],
                                                   msgs := List.replicate 15 { id := 1, seq := 0, payload := [] } }] }, rfl, rfl, rfl, rfl, rfl, rfl⟩,
    ⟨{ State.reset with recvQs := [{ world := 63, q := 63, held := List.replicate 3 { id := 1, seq := 0, payload := [] } }] }, rfl, rfl⟩,
    ⟨{ State.reset with recvQs := [{ world := 63, q := 63, opened := true, want := [(4, 9)],
                                     msgs := [{ id := 1, seq := 7, payload := [], peer := 4 }, { id := 2, seq := 8, payload := [], peer := 4 }] }] },
      _, _, rfl, nofun, by decide, by decide⟩,
    { State.reset with recvQs := [{ world := 63, q := 63, held := List.replicate 16 { id := 1, seq := 0, payload := [] } }] }, rfl⟩

/-- A trained link with its key one flit below the bound of data and of any flit: with a payload, a voided one, nothing to send, a key to
change to, a NAK due, and the next flit expected or another. -/
theorem witness_LinksMove : ∀ c ∈ [0xFFEFFFFF, 0xFFF00000, 0xFFFFFFFE], ∀ k2 ∈ [none, some (1 : BitVec 256)],
    ∀ q ∈ [[], [(false, 63, [1])], [(true, 63, [1])]], ∀ rx ∈ [(8 : Word), 7], ∀ v ∈ [none, some (7 : Word), some 9], ∃ (s : State) (key : BitVec 256),
      let l := s.link 39
      l.trained = true ∧ l.failed = false ∧ l.fails = 2 ∧ l.held.length = 63 ∧ l.slot0.key = some key ∧ l.cur = false ∧ l.slot0.count = c ∧ c < 0xFFFFFFFF ∧
        l.resend = [] ∧ l.txSeq = 8 ∧ l.rxSeq = rx ∧ l.voided = [(63, v)] ∧ l.queued = q ∧ l.slot1.key = k2 ∧ (s.link (otherWay 39)).nak = some 5 := by
  intro c hc k2 _ q _ rx _ v _
  have hc : c < 0xFFFFFFFF := by
    simp only [List.mem_cons, List.not_mem_nil, or_false] at hc
    omega
  let l : Link := { trained := true, slot0 := { key := some 7, count := c }, slot1 := { key := k2 }, queued := q, txSeq := 8, rxSeq := rx,
                    voided := [(63, v)], fails := 2, held := List.replicate 63 { type := 0, kslot := false, seq := 0 } }
  exact ⟨{ State.reset with links := [(38, { nak := some 5 }), (39, l)] },
    7, rfl, rfl, rfl, rfl, rfl, rfl, rfl, hc, rfl, rfl, rfl, rfl, rfl, rfl, rfl⟩

/-- A trained link with a flit to send again: the one expected, sealed with its key, and another. -/
theorem witness_LinksMove_resend : ∀ rx ∈ [(0 : Word), 1], ∃ (s : State) (key : BitVec 256) (f : Flit) (rest : List Flit),
    let l := s.link 0
    l.trained = true ∧ l.failed = false ∧ l.fails < 3 ∧ l.resend = f :: rest ∧ f.type = 0 ∧ f.seq = 0 ∧ l.rxSeq = rx ∧ (l.slot f.kslot).key = some key ∧
      f.tag = f.sealed key 0 ∧ l.voided = [] := by
  intro rx _
  let f : Flit := { type := 0, kslot := false, seq := 0, world := 3, payload := [1] }
  let g : Flit := { f with tag := f.sealed 7 0 }
  exact ⟨{ State.reset with links := [(0, { trained := true, slot0 := { key := some 7 }, resend := [g], held := [g], rxSeq := rx })] },
    7, g, [], rfl, rfl, (by decide : 0 < 3), rfl, rfl, rfl, rfl, rfl, rfl, rfl⟩

/-- A trained link at the bound of tag failures. -/
theorem witness_LinksMove_fail : ∃ s : State, (s.link 38).trained = true ∧ (s.link 38).failed = false ∧ (s.link 38).fails = 3 ∧ s.logRoom 3 :=
  ⟨{ State.reset with links := [(38, { trained := true, fails := 3 })] }, rfl, rfl, rfl, rfl, by decide, by decide⟩

/-! ### Decoding: words from the spec's examples and encodings -/

/-- R54: (g3) bra, two lines back, slot 1. -/
theorem test_decode_bra : decodeWord widest 0x0006000000001FFFFE200000 = .ok (.bra ⟨false, false, 3⟩ ⟨.none, .none, 0x1FFFFE, 1⟩) := by decide

/-- R65: nop.e. -/
theorem test_decode_nop : decodeWord widest 0x01E000000000000000000000 = .ok (.nop ⟨true, false, 0⟩ ⟨.none, .none, .none, .none, 0⟩) := by decide

/-- R52: iadd.w32 m4, m6, m7. -/
theorem test_decode_iadd : decodeWord widest 0x100041241A41E00000000000 = .ok (.iadd hdr ⟨.m 4 true, .m 6 true, .m 7 true, .none, 0⟩ .w32 false) := by decide

/-- R98: bperm.w32 o4, m4, m5, o3. -/
theorem test_decode_bperm : decodeWord widest 0x23C081241241680E00000000 = .ok (.bperm hdr ⟨.o 4, .m 4 true, .m 5 true, .o 3, 0⟩ .w32) := by decide

/-- R55: movi m10, 0x3F80_0000. -/
theorem test_decode_movi : decodeWord widest 0x320042A7F000000000000000 = .ok (.movi hdr ⟨.m 10 true, 0x3F800000⟩) := by decide

/-- R133: ffma.rz m4, m5, m6, m7. -/
theorem test_decode_ffma : decodeWord widest 0x40C041241641A41F24000000 = .ok (.ffma hdr ⟨.m 4 true, .m 5 true, .m 6 true, .m 7 true, 0⟩ .rz) := by decide

/-- R139: acs2.uh2 m0, o0, o1, o4. -/
theorem test_decode_acs2 : decodeWord widest 0x5140402802806812A0000000 = .ok (.acs2 hdr ⟨.m 0 true, .o 0, .o 1, .o 4, 0⟩ .uh2) := by decide

/-- R130, R142: cvt.f32.from_w32.rz m4, m5. -/
theorem test_decode_cvt : decodeWord widest 0x600041241600000124000000 = .ok (.cvt hdr ⟨.m 4 true, .m 5 true, .none, .none, 0⟩ .f32 .w32 .rz) := by decide

/-- R161: shfl of m0 by m7 and m60. -/
theorem test_decode_shfl : decodeWord widest 0x700042640241E4F200000000 = .ok (.shfl hdr ⟨.m 9 true, .m 0 true, .m 7 true, .m 60 true, 0⟩ .w32 .pick false) := by decide

/-- R53: ld.b32.gl.dev m8, m2+64. -/
theorem test_decode_ld : decodeWord widest 0x800042240A00000094000040 = .ok (.ld hdr ⟨.m 8 true, .m 2 true, .none, .none, 0x40⟩ .b32 .glDev 0) := by decide

/-- R58: st.b32.gl.dev.ga m2+8, m9. -/
theorem test_decode_st : decodeWord widest 0x804000040A42600095000008 = .ok (.st hdr ⟨.none, .m 2 true, .m 9 true, .none, 8⟩ .b32 .glDev true) := by decide

/-- R240: atom.add.w32.gl m8, m2+16, m9. -/
theorem test_decode_atom : decodeWord widest 0x900042240A42600014000010 = .ok (.atom hdr ⟨.m 8 true, .m 2 true, .m 9 true, .none, 0x10⟩ .w32 .add .glDev false) := by decide

/-- R237: fence.rel.dev. -/
theorem test_decode_fence : decodeWord widest 0xA20000000000000004400000 = .ok (.fence hdr ⟨.none, .none, .none, .none, 0⟩ .dev .rel) := by decide

/-- R258, R263: cpy.sp.gl m8, m12, m2, m14. -/
theorem test_decode_cpy : decodeWord widest 0xB00042243240A43A40100040 = .ok (.cpy hdr ⟨.m 8 true, .m 12 true, .m 2 true, .m 14 true, 0x100040⟩ .sp .gl false false) := by decide

/-- R285: mxm.e4m3x4 m0, m2. -/
theorem test_decode_mxm : decodeWord widest 0xC00000040240A00182000000 = .ok (.mxm hdr ⟨.none, .m 0 true, .m 2 true, .none, 0⟩ .e4m3x4 .af32 true false false) := by decide

/-- R367: nred.add.f32 m8, s4. -/
theorem test_decode_nred : decodeWord widest 0xD08042301200000120100040 = .ok (.nred hdr ⟨.m 8 true, .s 4 true, .none, .none, 0x100040⟩ .f32 .add) := by decide

/-- R315: rte.skip. -/
theorem test_decode_rte : decodeWord widest 0xE04000000000000000200000 = .ok (.rte hdr ⟨.none, .none, .none, .none, 0⟩ true) := by decide

/-- R166: jwait j1. -/
theorem test_decode_jwait : decodeWord widest 0x718000000000000000200000 = .ok (.jwait hdr ⟨.none, .none, .none, .none, 0⟩ 1) := by decide

/-- R90: iaddc. -/
theorem test_decode_iaddc : decodeWord widest 0x108041241241A00020400000 = .ok (.iaddc hdr ⟨.m 4 true, .m 4 true, .m 6 true, .none, 0⟩ .uw32 none 1) := by decide

/-- R293: ldf.e4m3x4 m0, s6+1024. -/
theorem test_decode_ldf : decodeWord widest 0xC10040301A00000180000400 = .ok (.ldf hdr ⟨.m 0 true, .s 6 true, .none, .none, 0x400⟩ .e4m3x4 false false) := by decide

/-- R314: trap.sw 42. -/
theorem test_decode_trap : decodeWord widest 0xE0000000000000000000002A = .ok (.trapSw hdr ⟨.none, .none, .none, .none, 0x2A⟩) := by decide

/-- R316: rdf m4, 1. -/
theorem test_decode_rdf : decodeWord widest 0xE08041200000000000000001 = .ok (.rdf hdr ⟨.m 4 true, .none, .none, .none, 1⟩) := by decide

/-- The sample words of spec/03: opcode before must-be-zero bits, an unassigned minor, an o index beyond 7, an unused field not zero. -/
theorem test_decode_refused :
    decodeWord widest 0xF00000000000000000000001 = .bad (.illop 0x3C0) ∧ decodeWord widest 0x020000000000000000000000 = .bad (.illop 8) ∧
      decodeWord widest 0x100082641A41E00000000000 = .bad (.illmod 69) ∧ decodeWord widest 0x100041241A41E00200000000 = .bad (.mbz 33) := by
  decide +kernel

/-- R62: group B on a control core, and opreq of a tenant. -/
theorem test_decode_reserved :
    decodeWord { n := 256, fw := true, ctl := true } 0xB00042243240A43A40100040 = .bad (.illop 0x2C0) ∧
      (Instr.opreq hdr ⟨.m 8 true, .m 4 true, .none, .none, 0⟩).wf { n := 256, fw := false, ctl := false } = false ∧
      (Instr.opreq hdr ⟨.m 8 true, .m 4 true, .none, .none, 0⟩).wf widest = true := by
  decide

/-- An encoder's word, from the tables of spec/03. -/
theorem test_encode_iadd : encode (.iadd hdr ⟨.m 4 true, .m 6 true, .m 7 true, .none, 0⟩ .w32 false) = some 0x100041241A41E00000000000 := by decide

/-! ### Ill-formed terms: one for each check of WellFormed -/

/-- Who may execute it (R62). -/
theorem test_wf_permitted : (Instr.cpy hdr ⟨.m 8 true, .m 12 true, .m 2 true, .m 14 true, 0⟩ .sp .gl false false).wf
    { n := 256, fw := true, ctl := true } = false := by decide

/-- TYPE (R56). -/
theorem test_wf_mods : (Instr.iadd hdr ⟨.m 4 true, .m 6 true, .m 7 true, .none, 0⟩ .f32 false).wf widest = false := by decide

/-- A field of IMM21 (R316). -/
theorem test_wf_imm : (Instr.rdf hdr ⟨.m 4 true, .none, .none, .none, 31⟩).wf widest = false := by decide

/-- A class not allowed in a field; an index beyond N; a misaligned pair (R49 to R51). -/
theorem test_wf_operands :
    (Instr.iadd hdr ⟨.imm, .m 6 true, .m 7 true, .none, 0⟩ .w32 false).wf widest = false ∧
    (Instr.iadd hdr ⟨.m 4 true, .m 6 true, .m 16 true, .none, 0⟩ .w32 false).wf { n := 16, fw := true, ctl := false } = false ∧
    (Instr.iadd hdr ⟨.m 4 true, .m 6 true, .m 15 true, .none, 0⟩ .i64 false).wf widest = false := by decide

/-- An unused field that is not none, two immediates, and an IMM21 that no operand reads (R40, R50). -/
theorem test_wf_fields :
    (Instr.iadd hdr ⟨.m 4 true, .m 6 true, .m 7 true, .m 8 true, 0⟩ .w32 false).wf widest = false ∧
    (Instr.iadd hdr ⟨.m 4 true, .imm, .imm, .none, 0⟩ .w32 false).wf widest = false ∧
    (Instr.iadd hdr ⟨.m 4 true, .m 6 true, .m 7 true, .none, 1⟩ .w32 false).wf widest = false := by decide

/-- A per-thread source under a scalar destination (R64). -/
theorem test_wf_scalar : (Instr.iadd hdr ⟨.s 4 true, .m 6 true, .s 7 true, .none, 0⟩ .w32 false).wf widest = false := by decide

/-- SLOT above 4 (R54). -/
theorem test_wf_slot : (Instr.bra hdr ⟨.none, .none, 0, 5⟩).wf widest = false := by decide

/-! ### The whole machine -/

/-- A state that meets each invariant and a step from it, that drops a cached translation. -/
theorem witness_StepKeepsMemory : ∃ s t : State, s.memWf ∧ step s = .next t :=
  ⟨{ State.reset with agenda := [.dropTlb 0] }, _, ⟨rfl, rfl, rfl, by decide⟩, rfl⟩

theorem witness_StepKeepsShape : ∃ s t : State, s.shaped ∧ step s = .next t := by
  have h : State.reset.shaped := fun g hg => nomatch hg
  exact ⟨{ State.reset with agenda := [.dropTlb 0] }, _, h, rfl⟩

/-- A word laid where the next step fetches, and what stands ready for its issue. -/
theorem witness_StepRunsDecoded : ∃ (core q : Nat) (rest : List Turn) (x : Slot) (line : List Byte),
    (State.reset.layWord 0x100041241A41E00000000000).agenda = .issue core q :: rest ∧
    ({ State.reset.layWord 0x100041241A41E00000000000 with agenda := rest } : State).slot? core q = some x ∧ x.act ≠ [] ∧
    ({ State.reset.layWord 0x100041241A41E00000000000 with agenda := rest } : State).lineWaits x = false ∧ dueUnreach x.act = [] ∧ x.deferred = [] ∧ x.breakAt = none ∧ x.w.entry = none ∧
    ({ State.reset.layWord 0x100041241A41E00000000000 with agenda := rest } : State).fetch x.g x.w.core x.pc.toNat = .ok line ∧
    lineFault line (({ State.reset.layWord 0x100041241A41E00000000000 with agenda := rest } : State).struckLine core q) = none ∧
    decodeWord x.g.decodes (wordOfBytes (line.drop (12 * pcSlot x.pc))) = .ok (.iadd hdr ⟨.m 4 true, .m 6 true, .m 7 true, .none, 0⟩ .w32 false) := by
  exact ⟨_, _, _, _, lineOfWord 0x100041241A41E00000000000, rfl, rfl, by decide, by decide +kernel, by decide, by decide, by decide, rfl, by decide +kernel, by decide, by decide +kernel⟩

/-- An instruction that is well formed, and a word that decodes to it. -/
theorem witness_DecodeEncode : (Instr.iadd hdr ⟨.m 4 true, .m 6 true, .m 7 true, .none, 0⟩ .w32 false).wf widest = true := by decide

theorem witness_EncodeDecode :
    decodeWord widest 0x100041241A41E00000000000 = .ok (.iadd hdr ⟨.m 4 true, .m 6 true, .m 7 true, .none, 0⟩ .w32 false) := by decide

/-- (!g0): no thread's guard is true, with and without E. -/
theorem witness_GuardFalseDoesNothing : ∀ e ∈ [true, false], ∃ (s : State) (i : Iss) (d a b c : Opnd),
    (Instr.iadd ⟨e, true, 0⟩ ops .w32 false).opnds = some (⟨e, true, 0⟩, d, a, b, c) ∧ Issues s ⟨e, true, 0⟩ i ∧ i.on = [] := by
  intro e he
  obtain ⟨i, hi⟩ : ∃ i, (base [0] []).iss? ⟨e, true, 0⟩ = some i := ⟨_, rfl⟩
  refine ⟨base [0] [], i, _, _, _, _, rfl, ⟨hi, ?_⟩, ?_⟩ <;> obtain rfl := Option.some.inj hi
  · exact (by decide : [0].Nodup)
  · simp only [List.mem_cons, List.not_mem_nil, or_false] at he
    rcases he with rfl | rfl <;> rfl


/-- A word under (!g0) that is no instruction, laid where the next step fetches. -/
theorem witness_GuardFalseDoesNothing_bad : ∃ (core q : Nat) (rest : List Turn) (x : Slot) (line : List Byte) (f : DecFault),
    (State.reset.layWord 0x0FD000000000000000000000).agenda = .issue core q :: rest ∧
    ({ State.reset.layWord 0x0FD000000000000000000000 with agenda := rest } : State).slot? core q = some x ∧ x.act ≠ [] ∧
    ({ State.reset.layWord 0x0FD000000000000000000000 with agenda := rest } : State).lineWaits x = false ∧ dueUnreach x.act = [] ∧ x.deferred = [] ∧ x.breakAt = none ∧ x.w.entry = none ∧
    ({ State.reset.layWord 0x0FD000000000000000000000 with agenda := rest } : State).fetch x.g x.w.core x.pc.toNat = .ok line ∧
    lineFault line (({ State.reset.layWord 0x0FD000000000000000000000 with agenda := rest } : State).struckLine core q) = none ∧
    decodeWord x.g.decodes (wordOfBytes (line.drop (12 * pcSlot x.pc))) = .bad f := by
  exact ⟨_, _, _, _, lineOfWord 0x0FD000000000000000000000, .illop 0x3F, rfl, rfl, by decide, by decide +kernel, by decide, by decide, by decide, rfl, by decide +kernel, by decide,
    by decide +kernel⟩

end Sys2Proof.Tests
end

section
/-!
PROOFS. A new entry's place in an error log (R402): what `State.logEntry` does to the log of its die and to the rest of the
management state.
-/
namespace Sys2Proof.Machine

/-- How a log's entries part for a new one (R402): no entry is lost, either part keeps its order, and what stands behind the new entry,
or behind an entry that does, is in the second part. -/
structure LogParts (e : LogE) (old before after : List LogE) : Prop where
  perm : (before ++ after).Perm old
  beforeSub : before.Sublist old
  afterSub : after.Sublist old
  before_not_behind : ∀ x ∈ before, x.behind e = false
  after_behind : ∀ x ∈ after, x.behind e = true ∨ ∃ y ∈ after, x.behind y = true

theorem LogParts.snoc_before {e x : LogE} {old before after : List LogE} (h : LogParts e old before after) (hx : x.behind e = false) :
    LogParts e (old ++ [x]) (before ++ [x]) after where
  perm := by
    have swap : ((before ++ [x]) ++ after).Perm ((before ++ after) ++ [x]) := by
      rw [List.append_assoc, List.append_assoc]
      exact List.perm_append_comm.append_left before
    exact swap.trans (h.perm.append_right [x])
  beforeSub := h.beforeSub.append (List.Sublist.refl [x])
  afterSub := h.afterSub.trans (List.sublist_append_left old [x])
  before_not_behind y hy := by
    rcases List.mem_append.mp hy with hy | hy
    · exact h.before_not_behind y hy
    · rwa [List.mem_singleton.mp hy]
  after_behind := h.after_behind

theorem LogParts.snoc_after {e x : LogE} {old before after : List LogE} (h : LogParts e old before after)
    (hx : x.behind e = true ∨ ∃ y ∈ after, x.behind y = true) : LogParts e (old ++ [x]) before (after ++ [x]) where
  perm := by
    rw [← List.append_assoc]
    exact h.perm.append_right [x]
  beforeSub := h.beforeSub.trans (List.sublist_append_left old [x])
  afterSub := h.afterSub.append (List.Sublist.refl [x])
  before_not_behind := h.before_not_behind
  after_behind y hy := by
    have hy' : y.behind e = true ∨ ∃ z ∈ after, y.behind z = true := by
      rcases List.mem_append.mp hy with hy | hy
      · exact h.after_behind y hy
      · rwa [List.mem_singleton.mp hy]
    exact hy'.imp_right fun ⟨z, hz, hb⟩ => ⟨z, List.mem_append_left _ hz, hb⟩

theorem partLog_snoc (es : List LogE) (x e : LogE) :
    partLog (es ++ [x]) e = if x.behind e || (partLog es e).2.any x.behind then ((partLog es e).1, (partLog es e).2 ++ [x])
      else ((partLog es e).1 ++ [x], (partLog es e).2) := by
  unfold partLog
  rw [List.foldl_append]
  rfl

theorem partLog_parts (es : List LogE) (e : LogE) : LogParts e es (partLog es e).1 (partLog es e).2 := by
  induction es using List.reverseRecOn with
  | nil => exact ⟨.nil, .slnil, .slnil, List.forall_mem_nil _, List.forall_mem_nil _⟩
  | append_singleton es x ih =>
    rw [partLog_snoc]
    split
    next hx => exact ih.snoc_after (by simpa using hx)
    next hx =>
      simp only [Bool.or_eq_true, not_or, Bool.not_eq_true] at hx
      exact ih.snoc_before hx.1

/-- Which entry a log has gained, its entries alone say. -/
theorem State.logged.of_logs {s t u : State} {die : Nat} {P : LogE → Prop} (h : s.logged t die P) (hl : u.mgmt.logs = t.mgmt.logs) :
    s.logged u die P := by
  unfold State.logged
  rw [hl]
  exact h

/-- Where the log has room, an entry put there stands in its place, with the step that made it. -/
theorem State.logged_logPut {s : State} {die : Nat} (room : s.logRoom die) {e : LogE} {P : LogE → Prop} (hP : P { e with made := s.tick }) :
    s.logged (s.logPut die e) die P := by
  obtain ⟨hlen, hdie, hfew⟩ := room
  have parts := partLog_parts (nth s.mgmt.logs die {}).entries { e with made := s.tick }
  refine ⟨{ e with made := s.tick }, _, _, ?_, parts.perm, parts.beforeSub, parts.afterSub, parts.before_not_behind, parts.after_behind, hP⟩
  simp [State.logPut, nth_modAt, hlen, hdie, hfew, placeLog]

/-- Where the log has room, `logEntry` adds the entry, under some sequence number and with the step that made it. -/
theorem State.logged_logEntry {s : State} {die : Nat} (room : s.logRoom die) {e : LogE} {P : LogE → Prop}
    (hP : ∀ n, P { e with seq := n, made := s.tick }) : s.logged (s.logEntry die e) die P := by
  unfold State.logEntry
  split
  · exact State.logged_logPut room (e := { e with seq := (s.core e.srcId).osSeq }) (hP _)
  · exact State.logged_logPut room (e := { e with seq := s.mgmt.logSeq.get (e.src * 65536 + e.srcId) 0 }) (hP _)

/-- An entry changes nothing of the management state but the logs and their sources' numbers. -/
theorem State.logEntry_mgmt (s : State) (die : Nat) (e : LogE) :
    ∃ logs seqs, (s.logEntry die e).mgmt = { s.mgmt with logs := logs, logSeq := seqs } := by
  unfold State.logEntry
  split <;> exact ⟨_, _, rfl⟩

end Sys2Proof.Machine
end

section
/-!
PROOFS. Bring-up (R397 to R400): what a reset, the keys, the choice of the control complex, an accepted and a rejected image slot make
of the state.
-/
namespace Sys2Proof.Machine

/-! ### Lists and maps -/

theorem modAt_const {α : Type} (l : List α) (i : Nat) (a : α) : modAt l i (fun _ => a) = l.set i a := by
  induction l generalizing i with
  | nil => rfl
  | cons x r ih => cases i <;> simp [modAt, ih]

/-- A map with every value changed, where the change keeps the default. -/
theorem Map.get_mapValues {α : Type} (m : Map α) (f : α → α) (k : Nat) {d : α} (hd : f d = d) :
    Map.get (m.map fun p => (p.1, f p.2)) k d = f (m.get k d) := by
  unfold Map.get
  rw [List.find?_map]
  cases h : m.find? ((fun p => decide (p.1 = k)) ∘ fun p => (p.1, f p.2)) with
  | none =>
    have h' : m.find? (fun p => decide (p.1 = k)) = none := h
    simp [h', hd]
  | some p =>
    have h' : m.find? (fun p => decide (p.1 = k)) = some p := h
    simp [h']

/-- A table of the keys below `n` lists each of them. -/
theorem Map.get?_table {α : Type} (f : Nat → α) {n k : Nat} (hk : k < n) :
    Map.get? ((List.range n).map fun w => (w, f w)) k = some (f k) := by
  have found : (List.range n).find? ((fun p : Nat × α => decide (p.1 = k)) ∘ fun w => (w, f w)) = some k :=
    List.find?_range_eq_some.mpr ⟨by simp, List.mem_range.mpr hk, fun j hj => by simp; omega⟩
  rw [Map.get?, List.find?_map, found]
  rfl

/-! ### Device reset (R397, R407) -/

/-- A reset keeps of a core what its repair has found (log entry 8). -/
theorem State.restart_core (s : State) (c : Nat) : s.restart.core c = { bad := (s.core c).bad, rowMap := (s.core c).rowMap } :=
  Map.get_mapValues s.cores (fun k => { bad := k.bad, rowMap := k.rowMap }) c rfl

/-! ### The control complex (R13) -/

/-- Control goes to the lowest healthy die. -/
theorem Mgmt.control_eq {m : Mgmt} {d : Nat} (hd : d < 4) (hok : nth m.healthy d false = true)
    (hlow : ∀ c < d, nth m.healthy c false = false) : m.control = d := by
  have found : (List.range 4).find? (fun k => nth m.healthy k false) = some d :=
    List.find?_range_eq_some.mpr ⟨hok, List.mem_range.mpr hd, fun c hc => by simp [hlow c hc]⟩
  simp [Mgmt.control, found]

/-- A die that has failed is not healthy, and the others are as they were. -/
theorem nth_failed (l : List Bool) (i j : Nat) : nth (modAt l i fun _ => false) j false = if j = i then false else nth l j false := by
  rw [nth_modAt]
  by_cases h : j = i
  · subst h
    by_cases hl : j < l.length
    · simp [hl]
    · simp [hl, nth]
  · simp [h, Ne.symm h]

theorem any_id_of_nth {l : List Bool} {i : Nat} (h : nth l i false = true) : l.any id = true := by
  unfold nth at h
  cases hi : l[i]? with
  | none => simp [hi] at h
  | some b =>
    rw [hi] at h
    exact List.any_eq_true.mpr ⟨b, List.mem_of_getElem? hi, h⟩

/-! ### Image slots (R398) -/

/-- An accepted image names its entry. -/
theorem State.imageEntry_of_accepted {s : State} {slot : Nat} (h : s.slotFail slot = 0) : ∃ entry, s.imageEntry slot = some entry := by
  rw [← Option.isSome_iff_exists]
  by_contra hn
  rw [Bool.not_eq_true, Option.isSome_eq_false_iff] at hn
  unfold State.slotFail at h
  simp only [hn, Bool.or_true, if_true] at h
  split at h
  · cases h
  · split at h <;> cases h

/-- A fold of steps that change nothing but the frame table changes nothing but the frame table. -/
theorem foldl_frames {α : Type} {f : State → α → State} (hf : ∀ s x, ∃ fr, f s x = { s with frames := fr }) (l : List α) (s : State) :
    ∃ fr, l.foldl f s = { s with frames := fr } := by
  induction l generalizing s with
  | nil => exact ⟨s.frames, rfl⟩
  | cons x r ih =>
    obtain ⟨fr, h⟩ := hf s x
    obtain ⟨fr', h'⟩ := ih (f s x)
    exact ⟨fr', by rw [List.foldl_cons, h', h]⟩

/-- Loading an image changes memory, its poison and the frame table alone. -/
theorem State.loadImage_frame (s : State) (slot : Nat) :
    ∃ mem bad fr, (s.loadImage slot).1 = { s with mem := mem, badMem := bad, frames := fr } := by
  unfold State.loadImage
  dsimp only
  refine ⟨_, _, foldl_frames (fun t i => ?_) _ _⟩
  exact ⟨_, rfl⟩

/-- An accepted slot changes memory, its poison and the frame table, shows in the management state, and starts the control cores at its
entry. -/
theorem State.boot_eq (s : State) (slot : Nat) : ∃ mem bad fr root, s.boot slot =
    ({ s with mem := mem, badMem := bad, frames := fr,
              mgmt := { s.mgmt with stage := 4, slotSel := slot, measure := s.imageDigest slot } } : State).startControl root
      ((s.imageEntry slot).getD 0) := by
  obtain ⟨mem, bad, fr, h⟩ := s.loadImage_frame slot
  unfold State.boot
  generalize s.loadImage slot = p at h
  obtain ⟨u, root⟩ := p
  obtain rfl : u = _ := h
  exact ⟨mem, bad, fr, root, rfl⟩

/-- The code of a rejected slot stands in STATUS. -/
@[simp] theorem State.rejectSlot_fail (s : State) (code : Nat) : (s.rejectSlot code).mgmt.fail = code := by
  obtain ⟨logs, seqs, h⟩ := State.logEntry_mgmt { s with mgmt := { s.mgmt with fail := code } } s.mgmt.ctlDie
    { src := 6, srcId := s.mgmt.ctlDie, code := code, cls := 3 }
  exact congrArg Mgmt.fail h

theorem State.logged_rejectSlot {s : State} (room : s.logRoom s.mgmt.ctlDie) (code : Nat) :
    s.logged (s.rejectSlot code) s.mgmt.ctlDie fun e => e.code = code ∧ e.src = 6 ∧ e.srcId = s.mgmt.ctlDie :=
  State.logged_logEntry (s := { s with mgmt := { s.mgmt with fail := code } }) room fun _ => ⟨rfl, rfl, rfl⟩

@[simp] theorem State.rejectSlot_mem (s : State) (code : Nat) : (s.rejectSlot code).mem = s.mem := State.logEntry_mem ..

@[simp] theorem State.rejectSlot_gangs (s : State) (code : Nat) : (s.rejectSlot code).gangs = s.gangs := State.logEntry_gangs ..

/-! ### The control cores (R13) -/

@[simp] theorem controlGang_ctl (gid core root entry : Nat) : (controlGang gid core root entry).ctl = true := rfl

/-- Every warp of a control core has one thread, which stands at the entry. -/
theorem controlGang_thread {gid core root entry : Nat} {w : Warp} (hw : w ∈ (controlGang gid core root entry).warps) :
    ∃ th, w.threads = [th] ∧ th.pc = BitVec.ofNat 42 entry := by
  obtain ⟨wi, -, rfl⟩ := List.mem_map.mp hw
  exact ⟨_, rfl, rfl⟩

theorem State.startControl_ctl (s : State) (root entry : Nat) : (s.startControl root entry).gangs.filter (·.ctl) =
    (List.range 16).map fun k => controlGang (s.nextId + k) (160 + 16 * s.mgmt.ctlDie + k) root entry := by
  simp [State.startControl, List.filter_append, List.filter_map, Function.comp_def]

theorem State.startControl_tenants (s : State) (root entry : Nat) :
    (s.startControl root entry).gangs.filter (!·.ctl) = s.gangs.filter (!·.ctl) := by
  simp [State.startControl, List.filter_append, List.filter_map, Function.comp_def]

/-! ### What the events make of the state -/

/-- A slot that passes is measured, and its entry runs on the 16 control cores of the die in control. -/
theorem State.boot_runs {s : State} {slot entry : Nat} (he : s.imageEntry slot = some entry) :
    (s.boot slot).mgmt.stage = 4 ∧ (s.boot slot).mgmt.slotSel = slot ∧ (s.boot slot).mgmt.measure = s.imageDigest slot ∧
      ((s.boot slot).gangs.filter (·.ctl)).length = 16 ∧ (s.boot slot).gangs.filter (!·.ctl) = s.gangs.filter (!·.ctl) ∧
      ∀ g ∈ (s.boot slot).gangs, g.ctl = true → ∃ gid root, ∃ k < 16, g = controlGang gid (160 + 16 * s.mgmt.ctlDie + k) root entry := by
  obtain ⟨mem, bad, fr, root, h⟩ := s.boot_eq slot
  rw [he, Option.getD_some] at h
  rw [h]
  refine ⟨rfl, rfl, rfl, ?_, State.startControl_tenants .., fun g hg hc => ?_⟩
  · rw [State.startControl_ctl, List.length_map, List.length_range]
  · have hg' := List.mem_filter.mpr ⟨hg, hc⟩
    rw [State.startControl_ctl] at hg'
    obtain ⟨k, hk, rfl⟩ := List.mem_map.mp hg'
    exact ⟨_, _, k, List.mem_range.mp hk, rfl⟩

/-- KEYS_AND_FILL leaves a key for each of the 64 worlds. -/
theorem State.drawKeys_worldKeys (s : State) {w : Nat} (hw : w < 64) : s.drawKeys.worldKeys.get? w ≠ none := by
  rw [State.drawKeys, Map.get?_table _ hw]
  exact Option.some_ne_none _

/-- R397: the ROM stage ends with the choice of the control complex, fresh keys and zeroed memory. -/
theorem exec_keysAndFill {s : State} (h : s.mgmt.stage = 1) : exec .keysAndFill s = .next
    { s with mem := [], badMem := [], hardRepairs := [], burned := s.burned ++ s.hardRepairs,
             mgmt := { s.drawKeys with stage := 2, ctlDie := s.mgmt.control } } :=
  congrArg Host.Outcome.next (if_neg (not_not.mpr h))

theorem exec_imageVerify_begins {s : State} (h : s.mgmt.stage = 2) :
    exec .imageVerify s = .next { s with mgmt := { s.mgmt with stage := 3, tried := 0 } } :=
  congrArg Host.Outcome.next (if_pos h)

theorem exec_imageVerify_accepts {s : State} (h : s.mgmt.stage = 3) (accepted : s.slotFail s.mgmt.tried = 0) :
    exec .imageVerify s = .next (s.boot s.mgmt.tried) := by
  have notFill : ¬ s.mgmt.stage = 2 := by omega
  exact congrArg Host.Outcome.next ((if_neg notFill).trans ((if_neg (not_not.mpr h)).trans (if_pos accepted)))

theorem exec_imageVerify_rejects {s : State} (h : s.mgmt.stage = 3) (rejected : s.slotFail s.mgmt.tried ≠ 0) :
    let t := s.rejectSlot (s.slotFail s.mgmt.tried)
    exec .imageVerify s = .next
      { t with mgmt := { t.mgmt with tried := s.mgmt.tried + 1, stage := if s.mgmt.tried = 0 then 3 else 15 } } := by
  have notFill : ¬ s.mgmt.stage = 2 := by omega
  exact congrArg Host.Outcome.next ((if_neg notFill).trans ((if_neg (not_not.mpr h)).trans (if_neg rejected)))

/-- R399: where another die is healthy it takes control, and bring-up goes on at stage 3. -/
theorem exec_controlTakeover {s : State} {d : Nat} (h : s.mgmt.stage = 4) (hok : nth s.mgmt.healthy d false = true)
    (hne : d ≠ s.mgmt.ctlDie) :
    let m := { s.mgmt with healthy := modAt s.mgmt.healthy s.mgmt.ctlDie fun _ => false }
    exec .controlTakeover s = .next
      { s with mgmt := { m with ctlDie := m.control, stage := 3, tried := 0 }, gangs := s.gangs.filter (!·.ctl) } := by
  have healthy : (modAt s.mgmt.healthy s.mgmt.ctlDie fun _ => false).any id = true :=
    any_id_of_nth (i := d) (by rwa [nth_failed, if_neg hne])
  exact congrArg Host.Outcome.next ((if_neg (not_not.mpr h)).trans (if_pos healthy))

/-! ### The statements -/

/-- Settles O48: each event of bring-up by what it makes of the state. -/
theorem deviceComesUp : Obligations.DeviceComesUp := by
  intro s starts
  have restarts : ∀ ins, exec ins s = .next s.restart → starts ins := fun ins h =>
    ⟨s.restart, h, rfl, rfl, rfl, rfl, rfl, rfl, rfl, rfl, rfl, rfl, rfl, rfl, rfl, rfl, rfl, rfl,
      fun c => by rw [s.restart_core c]; exact ⟨rfl, rfl, rfl, rfl, rfl⟩⟩
  refine ⟨restarts _ rfl, restarts _ rfl, fun h1 => ⟨fun d ok _ => ?_, fun d hd hok hlow => ?_⟩, fun h2 => ?_,
    fun h3 => ⟨fun accepted => ?_, fun rejected room => ?_⟩, fun h4 d hok hne hd hlow => ?_⟩
  · simp [State.move, h1, modAt_const]
  · exact ⟨_, exec_keysAndFill h1, rfl, rfl, rfl, rfl, rfl, Mgmt.control_eq hd hok hlow, fun w => s.drawKeys_worldKeys, rfl, rfl⟩
  · exact ⟨_, exec_imageVerify_begins h2, rfl⟩
  · obtain ⟨entry, he⟩ := State.imageEntry_of_accepted accepted
    obtain ⟨hstage, hslot, hmeasure, hcount, htenants, hcores⟩ := State.boot_runs he
    refine ⟨_, entry, exec_imageVerify_accepts h3 accepted, hstage, hslot, hmeasure, he, hcount, htenants, fun g hg hc => ?_⟩
    obtain ⟨gid, root, k, hk, rfl⟩ := hcores g hg hc
    exact ⟨rfl, rfl, ⟨k, hk, rfl⟩, rfl, fun w => controlGang_thread⟩
  · let code := s.slotFail s.mgmt.tried
    exact ⟨_, exec_imageVerify_rejects h3 rejected, rfl, rfl, s.rejectSlot_fail code, s.rejectSlot_mem code, s.rejectSlot_gangs code,
      (State.logged_rejectSlot room code).of_logs rfl⟩
  · refine ⟨_, exec_controlTakeover h4 hok hne, rfl, rfl, Mgmt.control_eq hd ?_ fun c hc => ?_, rfl, rfl⟩
    · rwa [nth_failed, if_neg hne]
    · rw [nth_failed]
      split
      · rfl
      · exact hlow c hc ‹_›

/-- Settles O52: every field of the reset state stands in its definition; a map without entries gives the default. -/
theorem resetState : Obligations.ResetState :=
  ⟨⟨rfl, rfl, rfl, rfl, rfl, rfl, rfl, rfl, rfl, Memory.read_nil, fun _ => ⟨rfl, rfl, rfl, rfl⟩, fun _ => ⟨rfl, rfl, rfl, rfl, rfl⟩⟩,
    ⟨State.reset_mem_wf, rfl, rfl, List.forall_mem_nil _⟩, List.forall_mem_nil _⟩

end Sys2Proof.Machine
end

/-!
What every move of the machine keeps of its register files (`State.shaped`): the general rules, then one rule per operation of the model,
in the order of the definitions. A rule `State.shaped.f` says that the operation `f` keeps the shape, so that a proof reads like the
operations it follows.
-/
section
set_option Elab.async false
namespace Sys2Proof.Machine

/-! ### Forms: what a shape depends on -/

/-- A thread's number and the lengths of its register files. -/
def Thread.form (th : Thread) : Nat × Nat × Nat × Nat × Nat × Nat :=
  (th.t, th.m.length, th.o.length, th.l.length, th.recO.length, th.recL.length)

/-- The lengths of a warp's register files and its threads' forms. -/
def Warp.form (w : Warp) : Nat × Nat × Nat × List (Nat × Nat × Nat × Nat × Nat × Nat) :=
  (w.s.length, w.j.length, w.arr.length, w.threads.map Thread.form)

/-- A gang's register count and its warps' forms. -/
def Gang.form (g : Gang) : Nat × List (Nat × Nat × Nat × List (Nat × Nat × Nat × Nat × Nat × Nat)) := (g.n, g.warps.map Warp.form)

/-- Every warp of a gang is shaped (`State.shaped` asks it of every gang). -/
def Gang.shaped (g : Gang) : Prop := ∀ w ∈ g.warps, w.shaped g.n

/-- Changing the elements of a list by what keeps a key keeps the list of keys. -/
theorem map_key_map {α β : Type} {key : α → β} {f : α → α} (h : ∀ a, key (f a) = key a) (l : List α) :
    (l.map f).map key = l.map key := by
  rw [List.map_map]
  exact List.map_congr_left fun a _ => h a

/-- Changing the chosen elements of a list by what keeps a key keeps the list of keys. -/
theorem map_key_ite {α β : Type} {key : α → β} {f : α → α} (p : α → Prop) [DecidablePred p] (h : ∀ a, key (f a) = key a) (l : List α) :
    (l.map fun a => if p a then f a else a).map key = l.map key :=
  map_key_map (f := fun a => if p a then f a else a) (fun a => by split <;> simp [h]) l

theorem Thread.shaped_of_form {n : Nat} {u th : Thread} (h : th.shaped n) (e : u.form = th.form) : u.shaped n := by
  simp only [Thread.form, Prod.mk.injEq] at e
  obtain ⟨-, hm, ho, hl, hro, hrl⟩ := e
  exact ⟨hm ▸ h.1, ho ▸ h.2.1, hl ▸ h.2.2.1, hro ▸ h.2.2.2.1, hrl ▸ h.2.2.2.2⟩

theorem Warp.shaped_of_form {n : Nat} {v w : Warp} (h : w.shaped n) (e : v.form = w.form) : v.shaped n := by
  simp only [Warp.form, Prod.mk.injEq] at e
  obtain ⟨es, ej, ea, et⟩ := e
  obtain ⟨hs, hj, ha, hn, hth⟩ := h
  refine ⟨es ▸ hs, ej ▸ hj, ea ▸ ha, ?_, fun th hm => ?_⟩
  · have ht : v.threads.map (·.t) = w.threads.map (·.t) := by
      simpa only [List.map_map, Function.comp_def, Thread.form] using congrArg (List.map Prod.fst) et
    exact ht ▸ hn
  · obtain ⟨u, hu, eu⟩ := List.mem_map.1 (et ▸ List.mem_map_of_mem (f := Thread.form) hm)
    exact Thread.shaped_of_form (hth u hu) eu.symm

theorem Gang.shaped_of_form {g k : Gang} (h : k.shaped) (e : g.form = k.form) : g.shaped := by
  simp only [Gang.form, Prod.mk.injEq] at e
  intro w hw
  obtain ⟨u, hu, eu⟩ := List.mem_map.1 (e.2 ▸ List.mem_map_of_mem (f := Warp.form) hw)
  exact e.1 ▸ Warp.shaped_of_form (h u hu) eu.symm

theorem Warp.form_mapThreads {f : Thread → Thread} (hf : ∀ th, (f th).form = th.form := by intro; rfl) (w : Warp) :
    (w.mapThreads f).form = w.form := by
  simp only [Warp.form, Warp.mapThreads, map_key_map hf]

theorem Warp.form_modThread (w : Warp) (t : Nat) {f : Thread → Thread} (hf : ∀ th, (f th).form = th.form := by intro; rfl) :
    (w.modThread t f).form = w.form := by
  simp only [Warp.form, Warp.modThread, map_key_ite _ hf]

theorem Gang.form_modWarp (g : Gang) (wi : Nat) {f : Warp → Warp} (hf : ∀ w, (f w).form = w.form := by intro; rfl) :
    (g.modWarp wi f).form = g.form := by
  simp only [Gang.form, Gang.modWarp, map_key_ite _ hf]

theorem Gang.form_mapWarps (g : Gang) {f : Warp → Warp} (hf : ∀ w, (f w).form = w.form := by intro; rfl) :
    ({ g with warps := g.warps.map f } : Gang).form = g.form := by
  simp only [Gang.form, map_key_map hf]

/-! ### The general rules -/

namespace State.shaped

variable {s t : State}

/-- A state whose gangs are those of a shaped one, by form, is shaped. -/
theorem of_gangs (h : s.shaped) (hg : ∀ g ∈ t.allGangs, ∃ k ∈ s.allGangs, g.form = k.form) : t.shaped := fun g hm =>
  let ⟨k, hk, e⟩ := hg g hm
  Gang.shaped_of_form (h k hk) e

/-- A change outside the gangs keeps the shape. -/
theorem frame (h : s.shaped) (hg : t.gangs = s.gangs := by rfl) (hd : t.dying = s.dying := by rfl)
    (hs : t.sealed = s.sealed := by rfl) : t.shaped := by
  intro g hm
  rw [State.allGangs, hg, hd, hs] at hm
  exact h g hm

theorem modGang (h : s.shaped) {gid : Nat} {f : Gang → Gang} (hf : ∀ g, (f g).form = g.form := by intro; rfl) :
    (s.modGang gid f).shaped :=
  State.shaped_modGang h gid fun g hg => Gang.shaped_of_form (k := g) hg (hf g)

theorem modWarp (h : s.shaped) {r : WRef} {f : Warp → Warp} (hf : ∀ w, (f w).form = w.form := by intro; rfl) : (s.modWarp r f).shaped :=
  h.modGang fun g => g.form_modWarp _ hf

theorem modThread (h : s.shaped) {r : WRef} {k : Nat} {f : Thread → Thread} (hf : ∀ th, (f th).form = th.form := by intro; rfl) :
    (s.modThread r k f).shaped :=
  h.modWarp fun w => w.form_modThread _ hf

theorem modThreads (h : s.shaped) {r : WRef} {ts : List Nat} {f : Thread → Thread} (hf : ∀ th, (f th).form = th.form := by intro; rfl) :
    (s.modThreads r ts f).shaped :=
  h.modWarp fun w => w.form_mapThreads fun th => by split <;> simp [hf]

theorem modCore (h : s.shaped) {c : Nat} {f : Core → Core} : (s.modCore c f).shaped := h

theorem modQuarter (h : s.shaped) {c q : Nat} {f : Quarter → Quarter} : (s.modQuarter c q f).shaped := h

theorem modFrame (h : s.shaped) {k : Nat} {f : FrameE → FrameE} : (s.modFrame k f).shaped := h

/-- What each step of a fold keeps, the fold keeps. -/
theorem foldl {α : Type} (h : s.shaped) {f : State → α → State} {l : List α} (hf : ∀ t a, t.shaped → (f t a).shaped) :
    (l.foldl f s).shaped := by
  induction l generalizing s with
  | nil => exact h
  | cons a l ih => exact ih (hf s a h)

/-- As `foldl`, for a fold that carries a value beside the state. -/
theorem foldl_fst {α β : Type} {p : State × β} (h : p.1.shaped) {f : State × β → α → State × β} {l : List α}
    (hf : ∀ q a, q.1.shaped → (f q a).1.shaped) : (l.foldl f p).1.shaped := by
  induction l generalizing p with
  | nil => exact h
  | cons a l ih => exact ih (hf p a h)

theorem ite {p : Prop} [Decidable p] (hs : s.shaped) (ht : t.shaped) : (if p then s else t).shaped := by
  split
  · exact hs
  · exact ht

theorem ite_fst {α : Type} {p : Prop} [Decidable p] {a b : State × α} (ha : a.1.shaped) (hb : b.1.shaped) :
    (if p then a else b).1.shaped := by
  split
  · exact ha
  · exact hb

end State.shaped

/-- An outcome's next state, if it has one, is shaped. -/
def OutShaped (o : Host.Outcome State Fault Refusal) : Prop := ∀ t, o = .next t → t.shaped

theorem OutShaped.next {t : State} (h : t.shaped) : OutShaped (.next t) := fun _ e => Host.Outcome.next.inj e ▸ h

theorem OutShaped.ite {p : Prop} [Decidable p] {a b : Host.Outcome State Fault Refusal} (ha : OutShaped a) (hb : OutShaped b) :
    OutShaped (if p then a else b) := by
  split
  · exact ha
  · exact hb

theorem OutShaped.fault (f : Fault) : OutShaped (.fault f) := fun _ e => nomatch e

theorem OutShaped.refused (f : Refusal) : OutShaped (.refused f) := fun _ e => nomatch e

/-! ### Machine/Acc, Trans and Ops -/

@[simp] theorem putOl_length (rs : List (Option Word)) (i : Nat) (ws : List Word) : (putOl rs i ws).length = rs.length := by
  induction ws generalizing rs i with
  | nil => rfl
  | cons v r ih => simp [putOl, ih]

theorem Thread.form_put (th : Thread) (x : Opnd) (n v : Nat) : (th.put x n v).form = th.form := by
  cases x <;> simp [Thread.put, Thread.form]

theorem Warp.form_put (w : Warp) (t : Nat) (x : Opnd) (n v : Nat) : (w.put t x n v).form = w.form := by
  cases x
  case s => simp [Warp.put, Warp.form]
  all_goals exact w.form_modThread t fun th => th.form_put _ n v

theorem Thread.form_setGuard (th : Thread) (k : BitVec 3) (b : Bool) : (th.setGuard k b).form = th.form := by
  unfold Thread.setGuard
  split <;> rfl

theorem TOut.form_write {o : TOut} (ht : ∀ th, (o.th th).form = th.form) (t : Nat) (d : Opnd) (n : Nat) (w : Warp) :
    (o.write t d n w).form = w.form := by
  unfold TOut.write
  split
  · rw [Warp.form_put, Warp.form_modThread w t ht]
  · exact Warp.form_modThread w t ht

theorem Thread.form_blocked (for_ : Wait) (th : Thread) : (th.blocked for_).form = th.form := by
  unfold Thread.blocked
  split <;> rfl

namespace State.shaped

variable {s : State}

theorem fill (h : s.shaped) {r : WRef} {t : Nat} {d : Dst} {ws : List Word} : (s.fill r t d ws).shaped := State.shaped_fill h r t d ws

theorem fillBad (h : s.shaped) {r : WRef} {t : Nat} {d : Dst} {p : Poison} : (s.fillBad r t d p).shaped := State.shaped_fillBad h r t d p

theorem refill (h : s.shaped) {r : WRef} {t : Nat} {d : Dst} : (s.refill r t d).shaped := State.shaped_refill h r t d

theorem emptyDst (h : s.shaped) {r : WRef} {t : Nat} {d : Dst} : (s.emptyDst r t d).shaped := State.shaped_emptyDst h r t d

theorem wakeCause (h : s.shaped) {r : WRef} {bit : Nat} : (s.wakeCause r bit).shaped := State.shaped_wakeCause h r bit

theorem wakeCore (h : s.shaped) {c : Nat} : (s.wakeCore c).shaped := State.shaped_wakeOn h _

theorem drop (h : s.shaped) {fn : Nat} : (s.drop fn).shaped := by
  unfold State.drop
  exact .ite h.frame h.modFrame

theorem logEntry (h : s.shaped) {die : Nat} {e : LogE} : (s.logEntry die e).shaped := State.shaped_logEntry h die e

theorem lockDown (h : s.shaped) {a b c d e f g : Nat} : (s.lockDown a b c d e f g).shaped := State.shaped_lockDown h a b c d e f g

theorem sendAlarm (h : s.shaped) : s.sendAlarm.shaped := State.shaped_sendAlarm h

theorem post (h : s.shaped) {gid bit : Nat} : (s.post gid bit).shaped := by
  unfold State.post
  split
  · exact h
  · exact (h.modGang fun g => g.form_mapWarps).foldl fun _ _ ht => ht

theorem postResident (h : s.shaped) {bit : Nat} : (s.postResident bit).shaped := h.foldl fun _ _ ht => ht.post

theorem postAll (h : s.shaped) {bit : Nat} : (s.postAll bit).shaped := by
  refine (h.postResident (bit := bit)).of_gangs fun g hm => ?_
  rw [State.mem_allGangs] at hm
  simp only [State.mem_allGangs]
  rcases hm with hm | hm | ⟨k, hk, rfl⟩
  · exact ⟨g, .inl hm, rfl⟩
  · exact ⟨g, .inr (.inl hm), rfl⟩
  · obtain ⟨j, hj, rfl⟩ := List.mem_map.1 hk
    exact ⟨j.gang, .inr (.inr ⟨j, hj, rfl⟩), j.gang.form_mapWarps⟩

theorem endStride (h : s.shaped) {r : WRef} : (s.endStride r).shaped := State.shaped_endStride h r

theorem release (h : s.shaped) {gid : Nat} : (s.release gid).shaped := State.shaped_release h gid

/-- Fewer resident and dying gangs. -/
theorem filter (h : s.shaped) {p q : Gang → Bool} :
    ({ s with gangs := s.gangs.filter p, dying := s.dying.filter q } : State).shaped := by
  refine h.of_gangs fun g hm => ⟨g, ?_, rfl⟩
  simp only [State.mem_allGangs, List.mem_filter] at hm ⊢
  exact hm.imp And.left (Or.imp_left And.left)

theorem retire (h : s.shaped) {g : Gang} : (s.retire g).shaped := h.filter.release.frame

theorem endKilled (h : s.shaped) {g : Gang} : (s.endKilled g).shaped := by
  unfold State.endKilled
  split
  · exact h.drop.retire
  · exact h.retire

theorem reap (h : s.shaped) {gid : Nat} : (s.reap gid).shaped := by
  unfold State.reap
  split
  · exact h
  · exact .ite h.retire h

theorem kill (h : s.shaped) {gid : Nat} {f : Flt} {pc core : Nat} : (s.kill gid f pc core).shaped := State.shaped_kill h gid f pc core

theorem trapAs (h : s.shaped) {r : WRef} {pc : VAddr} {act : List Nat} {fs : List (Nat × Flt)} {defer : Bool} :
    (s.trapAs r pc act fs defer).shaped := State.shaped_trapAs h r pc act fs defer

theorem trap (h : s.shaped) {r : WRef} {pc : VAddr} {act : List Nat} {fs : List (Nat × Flt)} : (s.trap r pc act fs).shaped := h.trapAs

theorem rteReturn (h : s.shaped) {r : WRef} : (s.rteReturn r).shaped := State.shaped_rteReturn h r

/-! ### Machine/Issue -/

theorem noteOver (h : s.shaped) {i : Iss} {past : BitVec 8} : (s.noteOver i past).shaped := h.modThreads

theorem blockFor (h : s.shaped) {i : Iss} {for_ : Wait} : (s.blockFor i for_).shaped :=
  (h.modThreads fun th => th.form_blocked for_).modWarp.endStride

theorem block (h : s.shaped) {i : Iss} {owed : List Nat} : (s.block i owed).shaped := h.blockFor

theorem stallParam (h : s.shaped) {i : Iss} {ws : List Nat} : (s.stallParam i ws).shaped := h.modWarp

theorem trapIss (h : s.shaped) {i : Iss} {fs : List (Nat × Flt)} : (s.trapIss i fs).shaped := .ite h.modWarp.endStride h.trap

theorem through (h : s.shaped) {i : Iss} {gt : Gate} {k : State} (hk : k.shaped) : (s.through i gt k).shaped := by
  cases gt with
  | trap fs => exact h.trapIss
  | block owed => exact h.block
  | stall ws => exact h.stallParam
  | go => exact hk

theorem advance (h : s.shaped) {i : Iss} : (s.advance i).shaped := h.modThreads

theorem closeIssue (h : s.shaped) {i : Iss} {e : Bool} {extra : Nat} {busy : Bool} : (s.closeIssue i e extra busy).shaped := by
  unfold State.closeIssue
  split
  · exact h
  · dsimp only
    split
    · exact h.modWarp.modCore.endStride
    · exact .ite h.modWarp.modCore.endStride h.modWarp.modCore.modWarp

theorem closeSome (h : s.shaped) {hd : Hdr} {i : Iss} {waiting : List Nat} {extra : Nat} {busy : Bool} :
    (s.closeSome hd i waiting extra busy).shaped := .ite h.closeIssue (.ite h.modWarp.endStride h.closeIssue)

theorem stay (h : s.shaped) {i : Iss} {t : Nat} {w : Wait} : (s.stay i t w).shaped := h.modThread

theorem later (h : s.shaped) {i : Iss} {th : Thread} {d : Opnd} {n v : Nat} : (s.later i th d n v).shaped := by
  unfold State.later
  split
  · exact h
  · exact State.shaped.emptyDst h.frame

/-- One destination written by each of some threads. -/
theorem putAll (h : s.shaped) {r : WRef} {who : List Thread} {d : Opnd} {n : Nat} {v : Thread → Nat} :
    (who.foldl (fun s th => s.modWarp r fun w => w.put th.t d n (v th)) s).shaped :=
  h.foldl fun _ _ ht => ht.modWarp fun w => w.form_put ..

theorem unreachWarp (h : s.shaped) {r : WRef} : (s.unreachWarp r).shaped := by
  unfold State.unreachWarp
  split
  · exact .ite (h.modWarp fun w => w.form_mapThreads fun th => by split <;> rfl) h
  · exact h

/-- An instruction keeps the shape where what it does with its issue does. -/
theorem run (h : s.shaped) {hd : Hdr} {k : Iss → State} (hk : ∀ i, s.iss? hd = some i → (k i).shaped) : OutShaped (run s hd k) := by
  unfold Machine.run
  split
  · exact .fault _
  · exact .next (.ite h.advance.closeIssue (hk _ ‹_›))

theorem plain (h : s.shaped) {hd : Hdr} {x : VOps} {n : Wid} {dRead : Bool} {f : TIn → TOut} {chk : TIn → Option Flt}
    (hf : ∀ v th, ((f v).th th).form = th.form := by intros; rfl) : OutShaped (s.plain hd x n dRead f chk) :=
  h.run fun i _ => h.through <| State.shaped.closeIssue <|
    State.shaped.foldl (.ite h.advance h.advance.modThreads) fun _ _ ht => ht.modWarp fun w => TOut.form_write (hf _) ..

end State.shaped
end Sys2Proof.Machine
end

section
set_option Elab.async false
namespace Sys2Proof.Machine

/-! ### Machine/Traffic -/

theorem Gang.form_bare (g : Gang) (gc a n : Nat) : (g.bare gc a n).form = g.form := rfl

theorem Gang.form_bares {α : Type} (g : Gang) (l : List α) (gc n : Nat) (off : α → Nat) :
    (l.foldl (fun g a => g.bare gc (off a) n) g).form = g.form :=
  foldl_keeps Gang.form _ (fun g _ => g.form_bare ..) l g

namespace State.shaped

variable {s : State}

theorem cacheTlb (h : s.shaped) {core world va : Nat} {root : Option Nat} : (s.cacheTlb core world root va).shaped := by
  unfold State.cacheTlb
  split
  · exact h
  · split
    · exact h
    · exact h.frame

theorem unveil (h : s.shaped) {gid : Nat} : (s.unveil gid).shaped :=
  (h.modGang (gid := gid) (f := fun g => { g with veils := [] })).frame

theorem padWrite (h : s.shaped) {gid gc a : Nat} {bs : List Byte} : (s.padWrite gid gc a bs).shaped :=
  (h.modGang (gid := gid) (f := fun g => { g.bare gc a bs.length with sp := modAt g.sp gc fun m => m.writeN a bs })).frame

theorem padVeil (h : s.shaped) {gid gc a : Nat} {bs : List Byte} {b : Option (Nat × Nat)} : (s.padVeil gid gc a bs b).shaped := by
  unfold State.padVeil
  split
  · exact h.padWrite
  · exact h.padWrite.modGang

theorem modFlight (h : s.shaped) {id : Nat} {f : Flight → Flight} : (s.modFlight id f).shaped := h

theorem dropFlight (h : s.shaped) {id : Nat} : (s.dropFlight id).shaped := h

theorem forward (h : s.shaped) {id : Nat} : (s.forward id).shaped := by
  unfold State.forward
  split
  · split
    · exact .ite h.frame h
    · exact h
  · exact h

theorem fetchCopy (h : s.shaped) {f : Flight} : (s.fetchCopy f).shaped := by
  unfold State.fetchCopy
  split
  · exact .ite h h.frame
  · exact h

theorem memWrite (h : s.shaped) {pa : Nat} {bs : List Byte} : (s.memWrite pa bs).shaped := h.frame

theorem deviceWrite (h : s.shaped) {pa : Nat} {bs : List Byte} : (s.deviceWrite pa bs).shaped := h.frame

theorem freshen (h : s.shaped) {pa die : Nat} : (s.freshen pa die).shaped := .ite h.frame h.frame

theorem grantOst (h : s.shaped) {core n : Nat} : (s.grantOst core n).shaped := by
  induction n generalizing s with
  | zero => exact h
  | succ k ih =>
    unfold State.grantOst
    split
    · exact h
    · split
      · exact h
      · exact ih h.frame

theorem intoCopy (h : s.shaped) {id : Nat} {f : Flight} : (s.intoCopy id f).shaped := by
  unfold State.intoCopy
  split
  · exact .ite h.forward h
  · exact h

theorem launchFlight (h : s.shaped) {f : Flight} : (s.launchFlight f).shaped := by
  unfold State.launchFlight State.fresh
  exact State.shaped.grantOst <| State.shaped.intoCopy h.frame

theorem performPad (h : s.shaped) {f : Flight} : (s.performPad f).shaped := by
  unfold State.performPad
  split
  · exact h.padWrite.dropFlight
  · exact h

theorem flushPads (h : s.shaped) {r : WRef} {want : Flight → Bool} : (s.flushPads r want).shaped := h.foldl fun _ _ ht => ht.performPad

theorem flushPad (h : s.shaped) {r : WRef} {t : Nat} {want : Flight → Bool} : (s.flushPad r t want).shaped := h.flushPads

/-! ### Machine/Mem -/

theorem orderPoint (h : s.shaped) {i : Iss} {k : State} (hk : k.shaped) : (s.orderPoint i k).shaped := by
  unfold State.orderPoint
  split
  · exact hk
  · exact h.modWarp.trapIss

theorem throughPoint (h : s.shaped) {i : Iss} {gt : Gate} {k : State} (hk : k.shaped) : (s.throughPoint i gt k).shaped := by
  unfold State.throughPoint
  split
  · refine State.shaped.trapIss ?_
    split
    · exact .ite h.modWarp h
    · exact h
  · exact h.through (h.orderPoint hk)

theorem cacheAll (h : s.shaped) {i : Iss} {p : Spc} {as : List Nat} : (s.cacheAll i p as).shaped :=
  .ite (h.foldl fun _ _ ht => ht.cacheTlb) h

theorem loadPw (h : s.shaped) {hd : Hdr} {x : VOps} {z : Sz} {win : BitVec 3} {i : Iss} {who : List Thread} :
    (s.loadPw hd x z win i who).shaped :=
  .ite h.stallParam <| State.shaped.closeIssue <| h.advance.modThreads.foldl fun _ _ ht => ht.modWarp fun w => w.form_put ..

theorem relook (h : s.shaped) {r : WRef} {t k : Nat} : (s.relook r t k).shaped := by
  unfold State.relook
  split
  · exact .ite h (State.shaped_filled h _ _ _ fun _ _ _ => putRegs_length ..)
  · exact h

theorem loadPad (h : s.shaped) {hd : Hdr} {x : VOps} {z : Sz} {obs : Bool} {i : Iss} {locs : List (Thread × Nat)} :
    (s.loadPad hd x z obs i locs).shaped := by
  unfold State.loadPad
  extract_lets n gc s0 s1 g s2
  have h0 : s0.shaped := .ite (h.foldl fun _ _ ht => ht.flushPad) h
  have h1 : s1.shaped := .ite (h0.modGang fun g => g.form_bares ..) h0
  have h2 : s2.shaped := h1.advance.foldl fun _ l ht => ht.modWarp fun w => by
    rw [Warp.form_modThread _ _ fun th => ?_, Warp.form_put]
    split
    · split <;> rfl
    · rfl
  exact .ite h h2.closeIssue

theorem loadFar (h : s.shaped) {hd : Hdr} {x : VOps} {p : Spc} {z : Sz} {obs : Bool} {i : Iss} {locs : List (Thread × Place × Nat)} :
    (s.loadFar hd x p z obs i locs).shaped := by
  refine State.shaped.closeIssue <| h.advance.foldl fun _ _ ht => ?_
  split
  · exact ht
  · exact ht.launchFlight.emptyDst

theorem loadForm (h : s.shaped) {hd : Hdr} {x : VOps} {z : Sz} {p : Spc} {win : BitVec 3} {obs : Bool} :
    OutShaped (s.loadForm hd x z p win obs) :=
  h.run fun _ _ => .ite h <| h.through <| .ite h.loadPw <| .ite h.loadPad h.cacheAll.loadFar

theorem putStores (h : s.shaped) {i : Iss} {p : Spc} {ga obs : Bool} {sts : List St1} : (s.putStores i p ga obs sts).shaped := by
  refine h.foldl fun t st ht => .ite ht ?_
  split
  · exact .ite ht.modThread.flushPad.padWrite ht.modThread.launchFlight
  · dsimp only
    split
    · exact .ite (State.shaped.frame ht.launchFlight) ht.launchFlight
    · exact ht.launchFlight

theorem tableDone (h : s.shaped) {hd : Hdr} {x : VOps} {i : Iss} {answers : List (Nat × Nat)} : (s.tableDone hd x i answers).shaped := by
  unfold State.tableDone
  dsimp only
  split
  · exact h.modWarp.advance.closeIssue
  · exact h.trapIss

theorem storeForm (h : s.shaped) {hd : Hdr} {x : VOps} {z : Sz} {p : Spc} {ga obs : Bool} : OutShaped (s.storeForm hd x z p ga obs) := by
  refine h.run fun i _ => ?_
  split
  · exact h.tableDone
  · exact .ite h (.ite (h.throughPoint <| .ite h <| .ite h.cacheAll.putStores.advance.closeIssue h.cacheAll.putStores.modWarp)
      (h.through <| .ite h <| .ite h.cacheAll.putStores.advance.closeIssue h.cacheAll.putStores.modWarp))

theorem execPf (h : s.shaped) {hd : Hdr} {x : VOps} {sys wr : Bool} : OutShaped (execPf hd x sys wr s) :=
  h.run fun _ _ => .ite h.block h.advance.closeIssue

/-! ### Machine/Atomic -/

theorem clearStrike (h : s.shaped) {core q v : Nat} : (s.clearStrike core q v).shaped := h

theorem poisonPad (h : s.shaped) {gid gc off n core world : Nat} : (s.poisonPad gid gc off n core world).shaped :=
  State.shaped.logEntry h.frame

theorem atomPad (h : s.shaped) {i : Iss} {th : Thread} {gc off n : Nat} {f : Flight} {d : Opnd} {bad : Bool} :
    (s.atomPad i th gc off n f d bad).shaped := by
  have put : ∀ {t : State} (old : Nat), t.shaped →
      (match d with | .none => t | _ => t.modWarp i.r fun w => w.put th.t d ((n + 3) / 4) old).shaped := fun old ht => by
    split
    · exact ht
    · exact ht.modWarp fun w => w.form_put ..
  unfold State.atomPad
  dsimp only
  split
  · split
    · exact (put _ h.flushPad.poisonPad).fillBad
    · exact put _ h.flushPad.poisonPad
  · exact put _ h.flushPad.padWrite

/-- A change of the copies that the place of an access decides. -/
theorem copiesAt (h : s.shaped) {pl : Place} {ga : Bool} {keep : Nat → Copy → Bool} :
    (match pl with | .phys pa => if ga then { s with copies := s.copies.filter (keep pa) } else s | _ => s : State).shaped := by
  split
  · exact .ite h.frame h
  · exact h

theorem atomForm (h : s.shaped) {hd : Hdr} {x : VOps} {t : Ty} {op : AOp} {p : Spc} {ga hasD hasC : Bool} :
    OutShaped (s.atomForm hd x t op p ga hasD hasC) := by
  refine h.run fun i _ => .ite h <| h.throughPoint <| .ite h ?_
  dsimp only
  generalize hs2 : List.foldl _ ((s.cacheAll i p _).advance i) _ = s2
  have h2 : s2.shaped := by
    subst hs2
    refine h.cacheAll.advance.foldl fun u th hu => ?_
    split
    · exact hu
    · split
      · exact hu.atomPad
      · split
        · exact hu.copiesAt.launchFlight.emptyDst
        · exact hu.copiesAt.launchFlight
  exact State.shaped.closeIssue (.ite h2.clearStrike h2)

theorem performFlight (h : s.shaped) {id : Nat} : (s.performFlight id).shaped := by
  unfold State.performFlight
  split
  · exact h
  · split
    · split
      · exact h
      · split
        · exact h.padVeil.dropFlight
        · split
          · exact h.dropFlight
          · dsimp only
            split
            · exact State.shaped.dropFlight <| .ite h.clearStrike.poisonPad (.ite h h.padWrite)
            · exact State.shaped.modFlight <| .ite h.clearStrike.poisonPad (.ite h h.padWrite)
        · exact h
    · exact h

end State.shaped
end Sys2Proof.Machine
end

section
set_option Elab.async false
namespace Sys2Proof.Machine

/-! ### Machine/Barrier -/

theorem Warp.form_onDst (w : Warp) (t : Nat) (d : Dst) {f : List Reg → Nat → Nat → List Reg} (hf : ∀ rs i k, (f rs i k).length = rs.length) :
    (w.onDst t d f).form = w.form := by
  cases d with
  | m i n => exact w.form_modThread t fun th => by simp [Thread.form, hf]
  | s i n => simp [Warp.onDst, Warp.form, hf]

theorem Warp.form_putDst (w : Warp) (t : Nat) (d : Dst) (ws : List Word) : (w.onDst t d fun rs k _ => putRegs rs k ws).form = w.form :=
  w.form_onDst t d fun _ _ _ => putRegs_length ..

theorem Warp.form_refilled (w : Warp) : w.refilled.form = w.form :=
  Warp.form_mapThreads (fun th => by split <;> (try split) <;> rfl) w

theorem Warp.form_notedFrom (w old : Warp) : (w.notedFrom old).form = w.form := by
  unfold Warp.notedFrom
  split <;> rfl

theorem Warp.form_phaseOver (w : Warp) (now : Nat) (o : Obj) : (w.phaseOver now o).form = w.form := by
  unfold Warp.phaseOver
  rw [Warp.form_notedFrom, Warp.form_refilled]
  refine foldl_keeps Warp.form _ (fun v th => ?_) _ w
  dsimp only
  split
  · split
    · rw [Warp.form_modThread, Warp.form_putDst, Warp.form_modThread]
    · rw [Warp.form_modThread]
  · split
    · rw [Warp.form_mapThreads (fun u => by split <;> rfl), Warp.form_modThread]
    · rw [Warp.form_modThread]
  · rw [Warp.form_modThread]

theorem Gang.form_countHeld (g : Gang) (o : Obj) : (g.countHeld o).form = g.form := by
  unfold Gang.countHeld
  split
  · rfl
  · refine (Gang.form_modWarp _ _ fun v => ?_).trans rfl
    rw [Warp.form_notedFrom]
    dsimp only
    split
    · rfl
    · rw [Warp.form_modThread, Warp.form_mapThreads (fun u => by split <;> rfl)]
      split
      · exact v.form_putDst ..
      · rfl

theorem Gang.form_settle (g : Gang) (clock : Nat → Nat) (fuel : Nat) (r : ObjRef) (evt : Bool) :
    (g.settle clock fuel r evt).form = g.form := by
  induction fuel generalizing g evt with
  | zero => rfl
  | succ k ih =>
    unfold Gang.settle
    split
    · rfl
    · split
      · rw [ih]
        exact g.form_mapWarps fun w => w.form_phaseOver _ _
      · split
        · rw [ih, Gang.form_countHeld]
        · rfl

theorem State.mem_allGangs_of_gang? {s : State} {gid : Nat} {g : Gang} (h : s.gang? gid = some g) : g ∈ s.allGangs :=
  (State.mem_allGangs ..).2 (.inl (List.mem_of_find?_eq_some h))

theorem Warp.form_expirePhases (w : Warp) (now : Nat) : (w.expirePhases now).form = w.form := by
  unfold Warp.expirePhases
  rw [Warp.form_notedFrom]
  refine foldl_keeps Warp.form _ (fun v th => ?_) _ w
  split
  · split
    · rw [Warp.form_modThread, Warp.form_putDst]
    · rfl
  · rfl

namespace State.shaped

variable {s : State}

/-- A resident gang replaced by one of its form. -/
theorem setGang (h : s.shaped) {gid : Nat} {g k : Gang} (hg : s.gang? gid = some g) (hk : k.form = g.form) :
    (s.modGang gid fun _ => k).shaped :=
  State.shaped_modGang h gid fun _ _ => Gang.shaped_of_form (h g (State.mem_allGangs_of_gang? hg)) hk

theorem modObj (h : s.shaped) {gid : Nat} {r : Gang → ObjRef} {f : Obj → Obj} : (s.modGang gid fun g => g.modObj (r g) f).shaped :=
  h.modGang

theorem poisonObj (h : s.shaped) {g : Gang} {r : ObjRef} : (s.poisonObj g r).shaped := h.clearStrike.modGang.logEntry

theorem objEvent (h : s.shaped) {gid : Nat} {r : ObjRef} {f : Obj → Obj} : (s.objEvent gid r f).shaped := by
  unfold State.objEvent
  split
  · exact h
  · next g hg =>
    split
    · exact h
    · next o _ =>
      split
      · exact h.poisonObj
      · have hs := h.setGang hg (Gang.form_settle (g.modObj r f) s.now (2 * o.held.length + 4) r true)
        refine State.shaped.foldl (.ite hs.unveil hs) fun t w ht => ?_
        split <;> exact ht

theorem countBytes (h : s.shaped) {gid : Nat} {r : ObjRef} {n : Nat} : (s.countBytes gid r n).shaped := h.objEvent

theorem unreachBlock (h : s.shaped) {gid : Nat} : (s.unreachBlock gid).shaped := by
  unfold State.unreachBlock
  split
  · exact h
  · refine .ite h <| .ite (h.modGang fun g => g.form_mapWarps fun w => ?_) h
    rw [Warp.form_mapThreads fun th => ?_]
    · refine foldl_keeps Warp.form _ (fun v th => ?_) _ w
      split
      · simp [Warp.form]
      · rfl
    · split
      · split
        · rfl
        · simp only [Thread.form]
          split <;> simp
      · rfl

theorem releaseMarker (h : s.shaped) {k : Nat} : OutShaped (execReleaseMarker k s) := by
  refine .next ?_
  split
  · exact h
  · exact .ite h h.frame

theorem arrive (h : s.shaped) {i : Iss} {th : Thread} {r : ObjRef} {d : Option Dst} {upd : Option (Obj → Obj)} :
    (s.arrive i th r d upd).1.shaped := by
  unfold State.arrive
  split
  · split
    · exact h
    · split
      · exact h.stay
      · split
        · dsimp only
          split
          · exact h.modGang.stay.objEvent
          · exact h.modGang.stay
        · exact h.modThread.objEvent
  · exact h

theorem stayBeside (h : s.shaped) {i : Iss} {who : List Thread} : (s.stayBeside i who).shaped := by
  refine .ite h ?_
  split
  · exact h
  · split
    · exact h
    · exact .ite (h.foldl fun _ _ ht => ht.stay) h

theorem noteLater (h : s.shaped) {i : Iss} {past : BitVec 8} : (s.noteLater i past).shaped :=
  .ite h <| h.modThreads fun th => by split <;> rfl

theorem arrivals (h : s.shaped) {hd : Hdr} {i : Iss} {past : BitVec 8} {who : List Thread} {d : Opnd} {ref : Thread → ObjRef}
    {upd : Thread → Option (Obj → Obj)} : (s.arrivals hd i past who d ref upd).shaped := by
  refine State.shaped.unreachBlock <| State.shaped.closeSome <| State.shaped.noteLater <| State.shaped.stayBeside <|
    h.advance.foldl fun _ _ ht => ?_
  dsimp only
  split
  · exact ht.arrive.later
  · exact ht.arrive

theorem sendMarkers (h : s.shaped) {i : Iss} {sc : Scope} : (s.sendMarkers i sc).shaped := h.frame

theorem releaseOver (h : s.shaped) {r : WRef} {ts : List Nat} {sc : Scope} {want : Nat → Flight → Bool} :
    (s.releaseOver r ts sc want).shaped := h.frame

theorem arrivalsReleased (h : s.shaped) {i : Iss} {who : List Thread} {ref : Thread → ObjRef} {rel : ArrRel} :
    (s.arrivalsReleased i who ref rel).shaped := by
  refine h.foldl fun _ _ ht => ?_
  split
  · exact .ite ht ht.releaseOver
  · exact ht

/-- Arrivals behind their releases. -/
theorem arrivalsDue (h : s.shaped) {hd : Hdr} {i : Iss} {past : BitVec 8} {who : List Thread} {d : Opnd} {ref : Thread → ObjRef}
    {upd : Thread → Option (Obj → Obj)} {rel : ArrRel} {due : Option Scope} {waits : Bool} :
    (if waits then s else match due with
      | some sc => s.sendMarkers i sc
      | none => (s.arrivalsReleased i who ref rel).arrivals hd i past who d ref upd).shaped := by
  refine .ite h ?_
  split
  · exact h.sendMarkers
  · exact h.arrivalsReleased.arrivals

theorem execBarr (h : s.shaped) {hd : Hdr} {x : VOps} {gw : Bool} {rel : ArrRel} : OutShaped (execBarr hd x gw rel s) :=
  h.run fun _ _ => .ite (h.through h.arrivalsDue) (h.throughPoint h.arrivalsDue)

theorem execBexp (h : s.shaped) {hd : Hdr} {x : VOps} {gw arr : Bool} : OutShaped (execBexp hd x gw arr s) := by
  refine h.run fun i _ => ?_
  cases arr with
  | true => exact h.throughPoint h.arrivalsDue
  | false =>
    exact h.through <| State.shaped.unreachBlock <| State.shaped.closeIssue <| h.noteOver.advance.foldl fun _ _ ht => ht.objEvent.later

theorem waitPhase (h : s.shaped) {i : Iss} {th : Thread} {o : Obj} {p : Word} {limit : Option Nat} {now : Nat} {d : Opnd}
    {slot : Option Word} : (s.waitPhase i th o p limit now d slot).shaped := by
  refine .ite h.unveil.later ?_
  split
  · exact .ite h.later h.stay
  · exact State.shaped.stay (.ite h.emptyDst h)
  · exact h

theorem waitForm (h : s.shaped) {hd : Hdr} {x : VOps} {gw limited : Bool} : OutShaped (s.waitForm hd x gw limited) := by
  refine h.run fun i _ => h.through <| State.shaped.unreachBlock <| State.shaped.closeSome <| State.shaped.noteLater <|
    h.advance.foldl fun _ _ ht => ?_
  dsimp only
  split
  · exact ht
  · exact ht.waitPhase

theorem execBwaittExpiry (h : s.shaped) {gid wi t : Nat} : OutShaped (execBwaittExpiry gid wi t s) := by
  refine .next ?_
  split
  · exact h
  · split
    · exact h
    · split
      · exact .ite h (h.modWarp fun w => w.form_expirePhases _).modCore
      · exact h

theorem execBstat (h : s.shaped) {hd : Hdr} {x : VOps} {gw : Bool} : OutShaped (execBstat hd x gw s) := by
  refine h.run fun i _ => h.through <| State.shaped.closeIssue <| h.advance.foldl fun _ _ ht => ?_
  exact .ite (State.shaped.later (.ite ht.modGang ht)) ((State.shaped.ite ht.modGang ht).modWarp fun w => w.form_put ..)

theorem execBind (h : s.shaped) {hd : Hdr} {x : VOps} {gw : Bool} : OutShaped (execBind hd x gw s) :=
  h.run fun _ _ => h.through <| State.shaped.closeIssue <| h.advance.foldl fun _ _ ht => ht.modGang

theorem execUnbind (h : s.shaped) {hd : Hdr} {x : VOps} {gw : Bool} : OutShaped (execUnbind hd x gw s) :=
  h.run fun _ _ => h.through <| State.shaped.closeIssue <| h.advance.foldl fun _ _ ht => ht.modGang

theorem makeObj (h : s.shaped) {gid : Nat} {r : ObjRef} {gw : Bool} {scope : Scope} {keep : Bool} {counts : Nat} {m : TMask} :
    (s.makeObj gid r gw scope keep counts m).1.shaped := by
  unfold State.makeObj
  split
  · exact h
  · exact .ite_fst h <| .ite_fst h <| .ite_fst h h.padWrite.modGang

theorem retireObj (h : s.shaped) {gid : Nat} {r : ObjRef} : (s.retireObj gid r).1.shaped := by
  unfold State.retireObj
  split
  · exact h
  · split
    · exact h
    · dsimp only
      split
      · exact h
      · exact h.modGang.padWrite

theorem binitForm (h : s.shaped) {hd : Hdr} {x : VOps} {gw : Bool} {src : List Fld} {f : State → Iss → Thread → ObjRef → State × Nat}
    (hf : ∀ t i th r, t.shaped → (f t i th r).1.shaped) : OutShaped (s.binitForm hd x gw src f) :=
  h.run fun _ _ => h.through <| State.shaped.closeIssue <| h.advance.noteOver.foldl fun _ _ ht => (hf _ _ _ _ ht).later

end State.shaped
end Sys2Proof.Machine
end

section
set_option Elab.async false
namespace Sys2Proof.Machine

theorem form_gopGuard (th : Thread) (imm : BitVec 21) : (gopGuard th imm).form = th.form := Thread.form_setGuard ..

theorem form_unpackGuards (th : Thread) (v : Nat) : (unpackGuards th v).form = th.form :=
  foldl_keeps Thread.form _ (fun u _ => u.form_setGuard ..) _ th

theorem form_wrspThread (th : Thread) (i v : Nat) : (wrspThread th i v).form = th.form := by
  unfold wrspThread
  split
  · rfl
  · split <;> rfl

theorem Warp.form_pace (w : Warp) (pc : VAddr) (v : Nat) : (w.pace pc v).form = w.form := by
  unfold Warp.pace
  dsimp only
  split <;> rfl

theorem Thread.form_push (th : Thread) (ra : DWord) : (th.push ra).form = th.form := by
  unfold Thread.push
  split <;> rfl

namespace State.shaped

variable {s : State}

theorem longArith (h : s.shaped) {hd : Hdr} {x : VOps} {t : Ty} {f : Nat → Nat → Nat} : OutShaped (s.longArith hd x t f) :=
  h.run fun _ _ => h.through <| State.shaped.closeIssue <| h.advance.noteOver.foldl fun _ _ ht => ht.later

/-! ### Machine/Control -/

theorem goTo (h : s.shaped) {i : Iss} {tg : List (Nat × Nat)} : (s.goTo i tg).shaped := by
  unfold State.goTo
  split
  · exact h
  · refine h.modWarp fun w => ?_
    rw [Warp.form_pace, Warp.form_mapThreads fun th => ?_]
    split <;> rfl

theorem execBra (h : s.shaped) {hd : Hdr} {x : JOps} : OutShaped (execBra hd x s) := by
  refine h.run fun i _ => .ite h ?_
  split
  · exact h.trapIss
  · exact h.advance.goTo.closeIssue

theorem execBrx (h : s.shaped) {hd : Hdr} {x : VOps} : OutShaped (execBrx hd x s) :=
  h.run fun _ _ => h.through <| .ite h h.advance.goTo.closeIssue

theorem spill (h : s.shaped) {i : Iss} {th : Thread} : (s.spill i th).shaped := by
  refine .ite h ?_
  split
  · exact h
  · exact h.launchFlight

theorem callForm (h : s.shaped) {hd : Hdr} {i : Iss} {d a : Opnd} {tg : Thread → Int} : (s.callForm hd i d a tg).shaped := by
  have spilt : (i.on.foldl (fun s th => s.spill i th) (s.advance i)).shaped := h.advance.foldl fun _ _ ht => ht.spill
  refine h.through <| .ite h <| State.shaped.closeIssue <| State.shaped.goTo <| spilt.foldl fun _ th ht => ht.modWarp fun w => ?_
  rw [Warp.form_put, Warp.form_modThread w _ fun th => th.form_push _]

theorem markSeen (h : s.shaped) {f : Flight} : (s.markSeen f).shaped := h.frame

theorem noteFill (h : s.shaped) {i : Iss} {th : Thread} : (s.noteFill i th).shaped := by
  unfold State.noteFill
  split
  · exact h.markSeen
  · exact h

theorem execRet (h : s.shaped) {hd : Hdr} {x : VOps} : OutShaped (execRet hd x s) := by
  refine h.run fun i _ => .ite h.modWarp <| .ite h ?_
  split
  · exact h.trapIss
  · have noted : (i.on.foldl (fun s th => s.noteFill i th) s).shaped := h.foldl fun _ _ ht => ht.noteFill
    exact (noted.advance.modThreads fun th => by split <;> rfl).goTo.closeIssue

theorem execLoopd (h : s.shaped) {hd : Hdr} {x : JOps} : OutShaped (execLoopd hd x s) :=
  h.run fun _ _ => h.through <| .ite h <| State.shaped.closeIssue <| State.shaped.goTo <| h.advance.putAll

theorem execNop (h : s.shaped) {hd : Hdr} {x : VOps} : OutShaped (execNop hd x s) := h.run fun _ _ => h.advance.closeIssue

/-! ### Machine/Convert and Fence -/

theorem rowForm (h : s.shaped) {hd : Hdr} {x : VOps} {n : Wid} {dRead : Bool} {f : List TIn → Nat → Nat} :
    OutShaped (s.rowForm hd x n dRead f) :=
  h.run fun _ _ => h.through <| State.shaped.closeIssue <| h.advance.noteOver.putAll

theorem acquire (h : s.shaped) {i : Iss} : (s.acquire i).shaped := h.modThreads.unveil

theorem markRelease (h : s.shaped) {i : Iss} : (s.markRelease i).shaped := h.modThreads

theorem execFence (h : s.shaped) {hd : Hdr} {x : VOps} {sc : Scope} {k : Fence} : OutShaped (execFence hd x sc k s) := by
  have acq : ∀ {t : State} {i : Iss}, t.shaped → (if k = .rel then t else t.acquire i).shaped := fun ht => .ite ht ht.acquire
  exact h.run fun i _ => .ite (acq h.advance).closeIssue <| h.orderPoint <|
    .ite (acq h.advance.releaseOver.markRelease).closeIssue h.sendMarkers

theorem execFencex (h : s.shaped) {hd : Hdr} {x : VOps} {sc : Scope} : OutShaped (execFencex hd x sc s) :=
  h.run fun _ _ => h.orderPoint <| .ite (State.shaped.acquire (.ite h.advance.releaseOver h.advance)).closeIssue h.sendMarkers

theorem execFencerec (h : s.shaped) {hd : Hdr} {x : VOps} {gl all : Bool} : OutShaped (execFencerec hd x gl all s) :=
  h.run fun _ _ => h.throughPoint <| .ite h.advance.noteOver.modCore.closeIssue h

end State.shaped
end Sys2Proof.Machine
end

section
set_option Elab.async false
namespace Sys2Proof.Machine

/-! ### Machine/Engine -/

/-- What an engine's access answers, if it does not fail, carries a shaped state. -/
def OkShaped {α : Type} (st : α → State) (e : Except EngErr α) : Prop := ∀ a, e = .ok a → (st a).shaped

namespace OkShaped

variable {α β : Type} {st : α → State}

theorem ok {a : α} (h : (st a).shaped) : OkShaped st (.ok a) := fun _ e => Except.ok.inj e ▸ h

theorem error (f : EngErr) : OkShaped st (.error f) := fun _ e => nomatch e

theorem bind {e : Except EngErr β} {f : β → Except EngErr α} (h : ∀ b, e = .ok b → OkShaped st (f b)) : OkShaped st (e >>= f) := by
  cases e with
  | error x => exact .error x
  | ok b => exact h b rfl

theorem ite {p : Prop} [Decidable p] {a b : Except EngErr α} (ha : OkShaped st a) (hb : OkShaped st b) :
    OkShaped st (if p then a else b) := by
  split
  · exact ha
  · exact hb

/-- A fold of accesses, each of which keeps the shape. -/
theorem foldlM {f : α → β → Except EngErr α} (hf : ∀ a b, (st a).shaped → OkShaped st (f a b)) (l : List β) (a : α) (h : (st a).shaped) :
    OkShaped st (l.foldlM f a) := by
  induction l generalizing a with
  | nil => exact .ok h
  | cons b l ih => exact .bind fun a' e => ih a' (hf a b h a' e)

end OkShaped

namespace State.shaped

variable {s : State}

theorem freshenDie (h : s.shaped) {die : Nat} : (s.freshenDie die).shaped := h.frame

theorem engCache (h : s.shaped) {e : Eng} {spc : CSpc} {a : Nat} : (s.engCache e spc a).shaped := by
  unfold State.engCache
  split
  · exact h.freshenDie.cacheTlb
  · exact h

theorem veilGl (h : s.shaped) {die pa : Nat} {old : List Byte} : (s.veilGl die pa old).shaped := h.frame

theorem placeWrite (h : s.shaped) {e : Eng} {p : EPlace} {bs : List Byte} : (s.placeWrite e p bs).shaped := by
  cases p with
  | pad gc o => exact h.padVeil
  | phys pa =>
    have sent {die : Nat} : ((s.memWrite pa bs).sendInvals pa die e.mark e.ga).shaped := h.frame
    exact State.shaped.veilGl (.ite h.frame sent.freshen)
  | bb k => exact h.frame

theorem engWrite (h : s.shaped) {e : Eng} {spc : CSpc} {a : Nat} {bs : List Byte} : OkShaped id (s.engWrite e spc a bs) :=
  .bind fun _ _ => .ok h.engCache.placeWrite

theorem engMask (h : s.shaped) {e : Eng} {spc : CSpc} {a v mask : Nat} : OkShaped id (s.engMask e spc a v mask) :=
  .ite h.engWrite <| .bind fun _ _ => .ok <| h.engCache.foldl fun _ _ ht => ht.placeWrite

theorem readWord {core : Nat} {x : State × Cmd} (h : x.1.shaped) {w : CSpc × Nat} : OkShaped Prod.fst (State.readWord core x w) := by
  obtain ⟨s, k⟩ := x
  unfold State.readWord
  dsimp only
  split
  · exact .ok h
  · exact .bind fun _ _ => .ok (State.shaped.engCache h)

theorem readWords {core : Nat} {x : State × Cmd} (h : x.1.shaped) {ws : List (CSpc × Nat)} :
    OkShaped Prod.fst (State.readWords core x ws) :=
  OkShaped.foldlM (fun _ _ ha => readWord ha) ws x h

theorem pieceWrite (h : s.shaped) {e : Eng} {k : CmdKind} {p v : Nat} : OkShaped id (s.pieceWrite e k p v) := by
  unfold State.pieceWrite
  split
  · exact .ok h
  · split
    · dsimp only
      split
      · exact .bind fun _ _ => h.engMask
      · exact h.engMask
    · dsimp only
      split
      · exact .bind fun _ _ => h.engWrite
      · exact h.engWrite

theorem cleanGranule (h : s.shaped) {e : Eng} {k : CmdKind} {done : List Nat} {p : Nat} : (s.cleanGranule e k done p).shaped := by
  refine .ite h ?_
  split
  · refine .ite h ?_
    split
    · exact h.frame
    · exact h
  · exact h

theorem startGather (h : s.shaped) {core : Nat} {k : Cmd} {list n : Nat} {ssp : CSpc} {dst : EAddr} :
    (s.startGather core k list n ssp dst).1.shaped := by
  unfold State.startGather
  dsimp only
  split
  · dsimp only
    split
    · exact h.engWrite _ ‹_›
    · exact h
  · exact .ite_fst h h

theorem prepare (h : s.shaped) {core : Nat} {k : Cmd} : (s.prepare core k).1.shaped := by
  refine .ite_fst h <| .ite_fst h ?_
  have read : OkShaped Prod.fst (do let x ← State.readWords core (s, k) k.first; State.readWords core x x.2.first) :=
    .bind fun x e => readWords (readWords h x e)
  split
  · exact h
  · exact h
  · next t j e =>
    have ht : t.shaped := read _ e
    split
    · exact ht.startGather
    · exact ht

theorem countDue (h : s.shaped) {core : Nat} {k : Cmd} : (s.countDue core k).1.shaped := by
  unfold State.countDue
  split
  · exact .ite_fst h h.countBytes
  · exact h

theorem doPiece {core : Nat} {x : State × Cmd} (h : x.1.shaped) {p : Nat} : (State.doPiece core x p).1.shaped := by
  obtain ⟨s, k⟩ := x
  refine .ite_fst h ?_
  split
  · exact h
  · split
    · exact h
    · exact h
    · next t j e =>
      have ht : t.shaped := readWords h _ e
      split
      · exact h
      · exact h
      · next u e2 =>
        have hu : u.shaped := ht.pieceWrite _ e2
        dsimp only
        split
        · exact hu.cleanGranule.countDue
        · exact hu.cleanGranule

theorem readAhead {core : Nat} {x : State × Cmd} (h : x.1.shaped) {p j : Nat} : (State.readAhead core x p j).1.shaped := by
  obtain ⟨s, k⟩ := x
  refine .ite_fst h ?_
  split
  · exact h
  · split
    · exact h
    · exact h
    · next y e => exact readWord h y e

theorem doEntry {core : Nat} {x : State × Cmd} (h : x.1.shaped) {p : Nat} : (State.doEntry core x p).1.shaped :=
  .ite_fst (readAhead h) (doPiece h)

theorem putCmd (h : s.shaped) {core : Nat} {k : Cmd} : (s.putCmd core k).shaped := h

theorem doPieces (h : s.shaped) {core : Nat} {k : Cmd} {pieces : List Nat} : (s.doPieces core k pieces).shaped := by
  refine State.shaped.putCmd (countDue (foldl_fst ?_ fun _ _ hq => doEntry hq))
  exact .ite_fst h h.prepare

theorem execBytesCounted (h : s.shaped) {core slot : Nat} {pieces : List Nat} : OutShaped (execBytesCounted core slot pieces s) := by
  refine .next ?_
  split
  · exact h
  · exact h.doPieces

theorem endCount (h : s.shaped) {gid : Nat} {r : ObjRef} {rest : Nat} {err : Option DWord} : (s.endCount gid r rest err).shaped := by
  have recorded : (match err with | some d => s.modGang gid fun g => g.modObj r fun o => o.record d | none => s).shaped := by
    split
    · exact h.modGang
    · exact h
  exact State.shaped.modGang (.ite recorded recorded.countBytes)

theorem killsDone (h : s.shaped) {core : Nat} {seq : Word} : (s.killsDone core seq).shaped :=
  State.shaped.foldl h.frame fun _ _ ht => ht.fill

theorem finishCmd (h : s.shaped) {core : Nat} {k : Cmd} {status : Nat} : (s.finishCmd core k status).shaped := by
  refine State.shaped.reap <| State.shaped.unreachBlock <| State.shaped.killsDone <| State.shaped.wakeCore <| State.shaped.fill ?_
  split
  · exact h.modCore.endCount
  · exact h.modCore

theorem accept (h : s.shaped) {world q : Nat} {k : Cmd} {len : Nat} : (s.accept world q k len).shaped := h.frame

theorem execCommandEnd (h : s.shaped) {core slot : Nat} : OutShaped (execCommandEnd core slot s) := by
  refine .next ?_
  split
  · exact h
  · next k _ =>
    refine .ite (.ite h h.finishCmd) ?_
    split
    · exact .ite h h.finishCmd
    · have moved : ((List.range (s.prepare core k).2.kind.count).foldl (State.doPiece core) (s.prepare core k)).1.shaped :=
        foldl_fst h.prepare fun _ _ hq => doPiece hq
      refine .ite moved.putCmd ?_
      split
      · exact moved.finishCmd
      · refine .ite moved.putCmd ?_
        split
        · exact .ite moved.putCmd (.ite moved.finishCmd moved.accept.finishCmd)
        · exact moved.finishCmd

end State.shaped
end Sys2Proof.Machine
end

section
set_option Elab.async false
namespace Sys2Proof.Machine

/-! ### Machine/Copy -/

namespace State.shaped

variable {s : State}

theorem useRec (h : s.shaped) {i : Iss} {p : Option (Bool × Nat)} : (s.useRec i p).shaped := by
  unfold State.useRec
  split <;> exact h

theorem readRecord (h : s.shaped) {r : WRef} {p : Bool × Nat} : (s.readRecord r p).shaped := by
  unfold State.readRecord
  split
  · exact .ite h h
  · exact h

theorem takeCounter (h : s.shaped) {gid : Nat} {cnt : Option (Bool × ObjRef)} : (s.takeCounter gid cnt).shaped := by
  unfold State.takeCounter
  split
  · exact h.modGang
  · exact h

theorem startCmd (h : s.shaped) {i : Iss} {f : CmdForm} {th : Thread} {draft : Bool} : (s.startCmd i f th draft).shaped := by
  unfold State.startCmd
  split
  · exact h.modCore.useRec.emptyDst.takeCounter
  · exact h

theorem startForm (h : s.shaped) {hd : Hdr} {f : CmdForm} : OutShaped (s.startForm hd f) := by
  refine h.run fun i _ => ?_
  dsimp only
  split
  · exact h.block
  · exact h.modWarp
  · exact h.through <| .ite h.blockFor <| (h.advance.foldl fun _ _ ht => ht.startCmd).closeIssue

theorem bobbinForm (h : s.shaped) {hd : Hdr} {x : VOps} {gw hasB : Bool} {nd : Nat} {more : Bobbin → Obj → Thread → Option Flt}
    {k : Iss → List Thread → State} (hk : ∀ i who, (k i who).shaped) : OutShaped (s.bobbinForm hd x gw nd hasB more k) :=
  h.run fun _ _ => h.through (hk _ _)

theorem slotWaits (h : s.shaped) {hd : Hdr} {x : VOps} {gw : Bool} {i : Iss} {who : List Thread}
    {on : Bobbin → Obj → Obj → Nat → Option (Obj × Word)} : (s.slotWaits hd x gw i who on).shaped := by
  refine State.shaped.unreachBlock <| State.shaped.closeSome <| State.shaped.noteLater <| State.shaped.stayBeside <|
    h.advance.foldl fun _ _ ht => ?_
  dsimp only
  split
  · exact ht
  · split
    · exact ht.waitPhase
    · exact ht.later

theorem execBputPut (h : s.shaped) {hd : Hdr} {x : VOps} {gw : Bool} : OutShaped (execBputPut hd x gw s) := by
  refine h.bobbinForm fun i who => ?_
  dsimp only
  split
  · exact h.sendMarkers
  · refine State.shaped.unreachBlock <| State.shaped.closeIssue <| h.advance.noteOver.foldl fun _ _ ht => ?_
    split
    · exact ht
    · exact ht.releaseOver.countBytes

theorem execBfree (h : s.shaped) {hd : Hdr} {x : VOps} {gw : Bool} : OutShaped (execBfree hd x gw s) :=
  h.run fun _ _ => h.throughPoint <| .ite h.arrivals h

theorem bindQueue (h : s.shaped) {i : Iss} {q : Nat} {b : Bobbin} {fill free : ObjRef} : (s.bindQueue i q b fill free).1.shaped := by
  unfold State.bindQueue
  split
  · exact h
  · split
    · exact .ite_fst h <| .ite_fst h <| .ite_fst h <| .ite_fst h h.modGang
    · exact h

theorem execBbindRq (h : s.shaped) {hd : Hdr} {x : VOps} {gw : Bool} : OutShaped (execBbindRq hd x gw s) := by
  refine h.run fun i _ => h.through <| State.shaped.closeIssue <| h.advance.noteOver.foldl fun _ _ ht => ?_
  split
  · exact ht
  · exact ht.bindQueue.later

theorem unbindQueue (h : s.shaped) {gid : Nat} {fill : ObjRef} : (s.unbindQueue gid fill).shaped :=
  h.modGang fun g => by split <;> rfl

theorem execBbindOff (h : s.shaped) {hd : Hdr} {x : VOps} {gw : Bool} : OutShaped (execBbindOff hd x gw s) := by
  refine h.bobbinForm fun i who => State.shaped.unreachBlock <| State.shaped.closeIssue <| h.advance.noteOver.foldl fun _ _ ht => ?_
  split
  · exact ht
  · exact ht.unbindQueue.later

theorem execReceiveLanding (h : s.shaped) {core k : Nat} : OutShaped (execReceiveLanding core k s) := by
  refine .next ?_
  split
  · exact h
  · split
    · split
      · exact h
      · have took {f : List NetQueue} {gid : Nat} {step : Binding → Binding} :
            (({ s with recvQs := f } : State).modGang gid fun g => { g with binds := g.binds.map step }).shaped :=
          State.shaped.modGang h.frame
        exact .ite h (State.shaped.countBytes (.ite took.modGang took.padVeil))
    · exact h

theorem execDadv (h : s.shaped) {hd : Hdr} {x : VOps} : OutShaped (execDadv hd x s) := by
  refine h.run fun i _ => ?_
  split
  · exact h.advance.closeIssue
  · refine h.through <| .ite h.advance.later.closeIssue ?_
    dsimp only
    split
    · exact h.trapIss
    · exact h.modWarp
    · exact h.block
    · exact .ite h.blockFor ((h.advance.foldl fun _ _ ht => ht.startCmd).modGang).later.closeIssue

theorem ckillOne (h : s.shaped) {i : Iss} {th : Thread} {which : Kill} {d : Opnd} : (s.ckillOne i th which d).shaped := by
  have marked {cs : Map Core} : ({ s with cores := cs } : State).shaped := h.frame
  have stopped {cs : Map Core} : (if which = .draft then ({ s with cores := cs } : State).modGang i.r.1 fun g => { g with nextStage := g.nstage }
      else { s with cores := cs }).shaped := .ite marked.modGang marked
  unfold State.ckillOne
  dsimp only
  split
  · exact stopped.later
  · exact stopped
  · exact (State.shaped.frame stopped).emptyDst

theorem execCkill (h : s.shaped) {hd : Hdr} {x : VOps} {which : Kill} : OutShaped (execCkill hd x which s) :=
  h.run fun _ _ => h.through <| State.shaped.closeIssue <| h.advance.foldl fun _ _ ht => ht.ckillOne

/-! ### Machine/Matrix -/

theorem feedBy (h : s.shaped) {core q : Nat} {k : MCmd} {give : Nat → MSrc} : (s.feedBy core q k give).shaped := h

theorem feed (h : s.shaped) {core q : Nat} {k : MCmd} {word : Nat → Nat → Word} {bad : Option Poison} :
    (s.feed core q k word bad).shaped := h

theorem putRegsOf (h : s.shaped) {core q : Nat} {k : MCmd} {f : Thread → Nat → Reg → Reg} : (s.putRegsOf core q k f).shaped := by
  have length (th : Thread) (rs : List Nat) : (rs.foldl (fun m r => modAt m r (f th r)) th.m).length = th.m.length :=
    foldl_keeps List.length (fun m r => modAt m r (f th r)) (fun _ _ => modAt_length ..) rs th.m
  have put {upd : Thread → Thread} (hu : ∀ th, (upd th).form = th.form) :
      (s.modWarp (k.gid, k.wi) fun w => Warp.notedFrom (w.mapThreads upd).refilled w).shaped :=
    h.modWarp fun w => by rw [Warp.form_notedFrom, Warp.form_refilled, Warp.form_mapThreads hu]
  have put := put (upd := fun th => if k.threads.getLsbD th.t && !th.exited then
    { th with m := (s.finalRegs core q k).foldl (fun m r => modAt m r (f th r)) th.m } else th) fun th => by
      split
      · simp [Thread.form, length]
      · rfl
  unfold State.putRegsOf
  dsimp only
  split
  · exact .ite put.wakeCause put
  · exact put

theorem countM (h : s.shaped) {q : Nat} {k : MCmd} {code : Nat} : (s.countM q k code).shaped := by
  unfold State.countM
  split
  · exact h.endCount
  · exact h

theorem dropM (h : s.shaped) {core q id : Nat} : (s.dropM core q id).shaped := h.modQuarter.wakeCore

theorem freeTiles (h : s.shaped) {r : WRef} : (s.freeTiles r).shaped := by
  unfold State.freeTiles
  split
  · exact h
  · exact .ite h h

theorem discardM (h : s.shaped) {e : Nat × Nat × MCmd} : (s.discardM e).shaped := h.putRegsOf.feedBy.dropM.freeTiles.countM

theorem teamExit (h : s.shaped) {gid wi : Nat} : (s.teamExit gid wi).shaped := h.foldl fun _ _ ht => ht.discardM

theorem teamGone (h : s.shaped) {i : Iss} {ins : Instr} : (s.teamGone i ins).shaped := .ite (h.foldl fun _ _ ht => ht.teamExit) h

theorem placeCmd (h : s.shaped) {i : Iss} {f : MForm} {th : Thread} : (s.placeCmd i f th).shaped := by
  have queued {g : Quarter → Quarter} : (s.fresh.2.modQuarter i.w.core i.w.quarter g).shaped := h.frame
  refine State.shaped.takeCounter ?_
  split
  · exact State.shaped.foldl (.ite queued.modWarp queued) fun _ _ ht => ht.emptyDst
  · exact .ite queued.modWarp queued

theorem mForm (h : s.shaped) {hd : Hdr} {f : MForm} : OutShaped (s.mForm hd f) := by
  refine h.run fun i _ => h.through ?_
  split
  · exact h.advance.closeIssue
  · exact .ite h.blockFor h.advance.placeCmd.teamGone.closeIssue

theorem startM (h : s.shaped) {core q : Nat} {k : MCmd} : (s.startM core q k).shaped := by
  unfold State.startM
  dsimp only
  split <;> exact h

theorem execMatrixCommandStart (h : s.shaped) {core q id : Nat} : OutShaped (execMatrixCommandStart core q id s) := by
  refine .next ?_
  split
  · exact h
  · exact .ite h h.startM

theorem execTeamCommandStart (h : s.shaped) {gid team : Nat} : OutShaped (execTeamCommandStart gid team s) :=
  .next <| .ite (h.foldl fun _ _ ht => ht.startM) h

theorem stfWrite (h : s.shaped) {k : MCmd} {bad : Bool} {th a : Nat} {bs : List Byte} : (s.stfWrite k bad th a bs).shaped := by
  unfold State.stfWrite
  split
  · exact h
  · exact .ite h <| h.foldl fun _ _ ht => .ite ht <| .ite ht.padWrite.frame ht.padWrite

theorem endM (h : s.shaped) {core q : Nat} {k : MCmd} {bad : Option Poison} {out : MOut} : (s.endM core q k bad out).shaped := by
  have done : ∀ {t : State}, t.shaped → (match mReads k.instr with
      | some (pt, false) =>
        if k.stray then t else t.modQuarter core q fun r => { r with tiles := modAt r.tiles pt fun t => { t with owner := none } }
      | _ => t).shaped := fun ht => by
    split
    · exact .ite ht ht
    · exact ht
  refine State.shaped.reap <| State.shaped.unreachBlock <| State.shaped.countM <| State.shaped.freeTiles <| State.shaped.dropM <| done ?_
  cases out with
  | regs v => exact h.putRegsOf.feed
  | tile pt x => exact h
  | stores v =>
    refine h.foldl fun _ _ ht => ?_
    split
    · exact ht.stfWrite
    · exact ht

theorem execMatrixCommandEnd (h : s.shaped) {core q id detections : Nat} : OutShaped (execMatrixCommandEnd core q id detections s) := by
  refine .next ?_
  split
  · exact h
  · exact .ite h <| h.foldl fun _ _ ht => ht.endM

theorem unreachTeam (h : s.shaped) {r : WRef} : (s.unreachTeam r).shaped := by
  unfold State.unreachTeam
  split
  · exact h
  · exact .ite h <| State.shaped.foldl (h.foldl fun _ _ ht => ht.discardM) fun _ _ ht => ht.modThreads

end State.shaped
end Sys2Proof.Machine
end

section
set_option Elab.async false
namespace Sys2Proof.Machine

/-! ### Machine/WarpOps -/

theorem Thread.form_pastJoin (th : Thread) (status : Word) : (th.pastJoin status).form = th.form := by
  unfold Thread.pastJoin
  split
  · simp [Thread.past, Thread.form]
  · rfl
  · rfl

/-- A warp whose threads and arrival records have changed. -/
theorem Warp.form_setArr (w : Warp) {f : Thread → Thread} (hf : ∀ th, (f th).form = th.form) {arr : List TMask}
    (ha : arr.length = w.arr.length) : ({ w.mapThreads f with arr := arr } : Warp).form = w.form := by
  simp only [Warp.form, Warp.mapThreads, map_key_map hf, ha]

theorem Warp.form_expireJoins (w : Warp) (now : Nat) : (w.expireJoins now).form = w.form := by
  unfold Warp.expireJoins
  dsimp only
  rw [Warp.form_notedFrom, Warp.form_setArr]
  · intro th
    split
    · exact th.form_pastJoin 0
    · rfl
  · simp

theorem Warp.form_decideJoin (w : Warp) (now jn : Nat) : (w.decideJoin now jn).form = w.form := by
  unfold Warp.decideJoin
  dsimp only
  split
  · rw [Warp.form_setArr, Warp.form_expireJoins]
    · intro th
      split
      · exact th.form_pastJoin 1
      · rfl
    · simp
  · exact w.form_expireJoins now

theorem Warp.form_setJoin (w : Warp) (now jn : Nat) (m : TMask) : (w.setJoin now jn m).form = w.form := by
  have set : ({ w with j := modAt w.j jn fun _ => m } : Warp).form = w.form := by simp [Warp.form]
  unfold Warp.setJoin
  dsimp only
  split
  · exact set
  · rw [Warp.form_decideJoin, set]

theorem Warp.form_unjoin (w : Warp) (t : Nat) : (w.unjoin t).form = w.form := by simp [Warp.unjoin, Warp.form]

namespace State.shaped

variable {s : State}

theorem syncForm (h : s.shaped) {hd : Hdr} {x : VOps} {full : Bool} {n : Wid} {extra : Nat} {val : Iss → List Thread → Thread → Nat}
    {also : Iss → TMask → State → State} {busy : Iss → TMask → Bool} (ha : ∀ i m t, t.shaped → (also i m t).shaped) :
    OutShaped (s.syncForm hd x full n extra val also busy) := by
  refine h.run fun i _ => h.through <| .ite h ?_
  extract_lets s1 s2 s3 s4 s5
  have h2 : s2.shaped := State.shaped.foldl h.advance.noteOver fun t m ht => ha i m t ht
  have h5 : s5.shaped := State.shaped.closeSome (h2.putAll.foldl fun _ _ ht => ht.stay)
  exact .ite h5 h5.unreachWarp.unreachBlock

theorem exchange (h : s.shaped) {hd : Hdr} {x : VOps} {t : Ty} {full : Bool} {extra : Nat} {src : Nat → Nat → Nat} :
    OutShaped (s.exchange hd x t full extra src) := h.syncForm fun _ _ _ ht => ht

theorem execVote (h : s.shaped) {hd : Hdr} {x : VOps} {mode : Vote} {full : Bool} : OutShaped (execVote hd x mode full s) := by
  unfold Machine.execVote
  exact h.syncForm fun _ _ _ ht => ht

theorem execWsync (h : s.shaped) {hd : Hdr} {x : VOps} {full : Bool} : OutShaped (execWsync hd x full s) := by
  unfold Machine.execWsync
  exact h.syncForm fun _ _ _ ht => ht.flushPads.unveil

theorem execRdx (h : s.shaped) {hd : Hdr} {x : VOps} {t : Ty} {op : Rdx} {full : Bool} : OutShaped (execRdx hd x t op full s) := by
  unfold Machine.execRdx
  exact h.syncForm fun _ _ _ ht => ht

theorem execJoin (h : s.shaped) {hd : Hdr} {x : VOps} {op : JoinOp} {jn : BitVec 4} : OutShaped (execJoin hd x op jn s) :=
  h.run fun _ _ => (h.advance.modWarp fun w => w.form_setJoin ..).closeIssue

theorem execJget (h : s.shaped) {hd : Hdr} {x : VOps} {jn : BitVec 4} : OutShaped (execJget hd x jn s) := by
  unfold Machine.execJget
  split
  · exact .fault _
  · exact h.plain

theorem execJset (h : s.shaped) {hd : Hdr} {x : VOps} {jn : BitVec 4} : OutShaped (execJset hd x jn s) := by
  refine h.run fun i _ => h.through <| State.shaped.closeIssue ?_
  split
  · exact h.advance
  · exact h.advance.modWarp fun w => w.form_setJoin ..

theorem arriveJoin (h : s.shaped) {hd : Hdr} {i : Iss} {past : BitVec 8} {jn : Nat} {lim : Thread → Option (Nat × Nat)} :
    (s.arriveJoin hd i past jn lim).shaped := by
  unfold State.arriveJoin
  extract_lets now jm mine ts go out s1 arrive quit owe s1' s2 left s3 s4
  have h1 : s1.shaped := h.advance.foldl fun _ _ ht => ht.modThread fun th => by simp [Thread.form]
  have h1' : s1'.shaped := .ite h1 h1.modThreads
  have owes (th : Thread) : (owe th).form = th.form := by
    simp only [owe, arrive]
    split
    · split <;> rfl
    · rfl
  have h2 : s2.shaped := h1'.modWarp fun w => by
    dsimp only
    rw [Warp.form_setArr, Warp.form_decideJoin, Warp.form_setArr]
    · intro th
      split
      · exact owes th
      · rfl
    · simp
    · intro th
      split
      · exact th.form_pastJoin 0
      · rfl
    · simp
  have h4 : s4.shaped := h2.modThreads.foldl fun _ _ ht => by
    split
    · exact ht.later
    · exact ht
  exact h4.closeSome.unreachWarp.unreachBlock

theorem execJwait (h : s.shaped) {hd : Hdr} {x : VOps} {jn : BitVec 4} : OutShaped (execJwait hd x jn s) := h.run fun _ _ => h.arriveJoin

theorem execJwaitt (h : s.shaped) {hd : Hdr} {x : VOps} {jn : BitVec 4} : OutShaped (execJwaitt hd x jn s) :=
  h.run fun _ _ => h.through h.arriveJoin

theorem execJwaittExpiry (h : s.shaped) {gid wi t : Nat} : OutShaped (execJwaittExpiry gid wi t s) := by
  refine .next ?_
  split
  · exact h
  · split
    · exact h
    · split
      · exact .ite h (h.modWarp fun w => w.form_expireJoins _).modCore
      · exact h

/-! ### Machine/Exit -/

theorem exitThread (h : s.shaped) {r : WRef} {t : Nat} : (s.exitThread r t).shaped := by
  unfold State.exitThread
  split
  · exact State.shaped.foldl (h.modThread.modWarp fun w => w.form_unjoin t) fun _ _ ht => ht.objEvent
  · exact h

theorem afterExit (h : s.shaped) {r : WRef} : (s.afterExit r).shaped := by
  unfold State.afterExit
  extract_lets s'
  have h' : s'.shaped := h.modWarp fun w => by
    refine (foldl_keeps Warp.form _ (fun v jn => v.form_decideJoin ..) _ _).trans (Warp.form_mapThreads (fun th => ?_) w)
    split <;> rfl
  split
  · exact h'
  · exact .ite h' h'.teamExit.freeTiles.modCore

theorem execExit (h : s.shaped) {hd : Hdr} {x : VOps} : OutShaped (execExit hd x s) :=
  h.run fun _ _ => h.orderPoint <| State.shaped.reap <| State.shaped.unreachBlock <| State.shaped.unreachWarp <| State.shaped.rteReturn <|
    State.shaped.closeIssue <| State.shaped.afterExit <| h.advance.foldl fun _ _ ht => ht.exitThread

theorem putTile (h : s.shaped) {core q : Nat} {p : Nat × Tile} : (s.putTile core q p).shaped := h

theorem depart (h : s.shaped) {r : WRef} {dest : Nat × Nat × Nat} : (s.depart r dest).shaped := by
  unfold State.depart
  split
  · exact h
  · refine State.shaped.modWarp <| State.shaped.foldl ?_ fun _ _ ht => ht.putTile
    exact .ite h.endStride.modCore.modCore h.endStride.modCore

theorem execRelay (h : s.shaped) {hd : Hdr} {x : VOps} : OutShaped (execRelay hd x s) := by
  refine h.run fun i _ => h.through ?_
  split
  · exact h.advance.closeIssue
  · refine h.orderPoint <| .ite h ?_
    extract_lets die c s1 s2
    have h1 : s1.shaped := h.advance.foldl fun _ _ ht => ht.later
    split
    · exact h1.closeIssue
    · exact h1.closeIssue.depart

theorem execRelayArrival (h : s.shaped) {gid wi : Nat} : OutShaped (execRelayArrival gid wi s) := by
  refine .next ?_
  split
  · exact h
  · split
    · exact h
    · refine .ite h ?_
      extract_lets s1 s2 mine s3
      have h1 : s1.shaped := h.modWarp
      have h2 : s2.shaped := h1.foldl fun _ _ ht => ht.putTile
      have h3 : s3.shaped := h2.foldl fun _ _ ht => by
        split
        · exact ht.fill
        · exact ht
      exact h3.frame

/-! ### Machine/Home -/

theorem fillLoad (h : s.shaped) {f : Flight} {signed : Bool} {part : Nat} : (s.fillLoad f signed part).shaped := by
  refine .ite h ?_
  extract_lets bits bs bad s'
  have h' : s'.shaped := by
    simp only [s']
    split
    · exact .ite (State.shaped.freshen h.frame) h.markSeen.fetchCopy
    · exact .ite (h.modGang fun g => g.form_bare ..) h
    · exact h
  refine .ite ?_ h'.modFlight
  split
  · exact h'.dropFlight
  · exact .ite h'.dropFlight.fillBad h'.dropFlight.fill

/-- An atomic with its old value delivered: its flight leaves, or only its destination does. -/
theorem delivered (h : s.shaped) {id : Nat} {pl : Place} :
    (match pl with
      | .phys _ => s.modFlight id fun f => { f with dst := none }
      | _ => s.dropFlight id).shaped := by
  split
  · exact h.modFlight
  · exact h.dropFlight

theorem execRegisterFill (h : s.shaped) {id part : Nat} : OutShaped (execRegisterFill id part s) := by
  refine .next ?_
  split
  · exact h
  · split
    · exact .ite h h.dropFlight.fill.reap
    · exact h.fillLoad.reap
    · exact .ite h (.ite h.delivered.fillBad.reap h.delivered.fill.reap)
    · exact h

theorem logPut (h : s.shaped) {die : Nat} {e : LogE} : (s.logPut die e).shaped := h.frame

theorem refuseAt (h : s.shaped) {f : Flight} {pa cause : Nat} : (s.refuseAt f pa cause).shaped := h.logPut.modFlight.freshen

theorem ownCopy (h : s.shaped) {f : Flight} {pa : Nat} : (s.ownCopy f pa).shaped := .ite h.frame h.freshen

theorem sendInvals (h : s.shaped) {pa die store : Nat} {hold : Bool} : (s.sendInvals pa die store hold).shaped := h.frame

theorem applyStore (h : s.shaped) {f : Flight} {pa part : Nat} : (s.applyStore f pa part).shaped :=
  .ite h h.memWrite.modFlight.sendInvals.ownCopy

theorem applyAtom (h : s.shaped) {f : Flight} {pa : Nat} : (s.applyAtom f pa).shaped :=
  .ite h.modFlight h.memWrite.modFlight.sendInvals.ownCopy

theorem poisonAtom (h : s.shaped) {f : Flight} {pa : Nat} : (s.poisonAtom f pa).shaped := (State.shaped.logEntry h.frame).modFlight

theorem joinHot (h : s.shaped) {f : Flight} {pa : Nat} : (s.joinHot f pa).shaped := by
  unfold State.joinHot
  split
  · exact .ite h h.frame
  · exact .ite h.frame h

theorem execStoreAtHome (h : s.shaped) {id part : Nat} : OutShaped (execStoreAtHome id part s) := by
  refine .next ?_
  split
  · exact h
  · split
    · refine .ite h ?_
      split
      · exact h.refuseAt
      · exact .ite h.applyStore <| .ite (.ite h.joinHot <| .ite h <| .ite h.poisonAtom h.applyAtom) h
    · exact h

theorem execHotWordRetire (h : s.shaped) {addr : Nat} {ids : List Nat} : OutShaped (execHotWordRetire addr ids s) := by
  refine .next ?_
  split
  · exact h
  · refine .ite h ?_
    extract_lets slice s' left
    have h' : s'.shaped := h.foldl fun t d ht => by
      split
      · split
        · refine .ite ht ?_
          split
          · exact ht.refuseAt
          · exact .ite ht.clearStrike.poisonAtom ht.applyAtom
        · exact ht
      · exact ht
    exact h'.frame

theorem execInvalidation (h : s.shaped) {die line : Nat} : OutShaped (execInvalidation die line s) := by
  refine .next ?_
  split
  · exact h
  · exact h.frame

theorem execInvalidationAck (h : s.shaped) {die line : Nat} : OutShaped (execInvalidationAck die line s) := by
  refine .next ?_
  split
  · exact h
  · exact h.frame

theorem report (h : s.shaped) {f : Flight} {code : Nat} : (s.report f code).shaped := by
  unfold State.report
  dsimp only
  split
  · exact .ite h.modWarp h.logPut
  · exact h.logPut

theorem refillFlight (h : s.shaped) {f : Flight} : (s.refillFlight f).shaped := by
  unfold State.refillFlight
  split
  · exact h.refill
  · exact h

theorem entryFreed (h : s.shaped) {f : Flight} : (s.entryFreed f).shaped := h.grantOst.reap

theorem execStoreAck (h : s.shaped) {id : Nat} : OutShaped (execStoreAck id s) := by
  refine .next ?_
  split
  · exact h
  · exact .ite h.dropFlight.entryFreed h

theorem execNegativeAck (h : s.shaped) {id : Nat} : OutShaped (execNegativeAck id s) := by
  refine .next ?_
  split
  · exact h
  · exact .ite h h.dropFlight.refillFlight.report.entryFreed

theorem declareLost (h : s.shaped) {f : Flight} : (s.declareLost f).shaped := by
  unfold State.declareLost
  refine .ite h (State.shaped.entryFreed <| State.shaped.report <| State.shaped.refillFlight ?_)
  split
  · exact State.shaped.freshen h.frame
  · exact h.frame

end State.shaped
end Sys2Proof.Machine
end

section
set_option Elab.async false
namespace Sys2Proof.Machine

theorem Warp.form_setEvt (w : Warp) (e : BitVec 4) : ({ w with evt := e } : Warp).form = w.form := rfl

namespace State.shaped

variable {s : State}

/-! ### Machine/System -/

theorem execTrapSw (h : s.shaped) {hd : Hdr} {x : VOps} : OutShaped (execTrapSw hd x s) := h.run fun _ _ => h.trapIss

theorem execTrapHset (h : s.shaped) {hd : Hdr} {x : VOps} : OutShaped (execTrapHset hd x s) := by
  refine h.run fun i _ => h.through <| State.shaped.closeIssue ?_
  split
  · exact h.advance.noteOver
  · exact h.advance.noteOver.modWarp

theorem execTrapHget (h : s.shaped) {hd : Hdr} {x : VOps} : OutShaped (execTrapHget hd x s) := h.plain

theorem execRte (h : s.shaped) {hd : Hdr} {x : VOps} {skip : Bool} : OutShaped (execRte hd x skip s) := by
  refine h.run fun i _ => .ite h ?_
  split
  · exact h.trapIss
  · exact (State.shaped.rteReturn (h.advance.foldl fun _ _ ht => ht.stay)).closeSome.unreachWarp.unreachBlock

theorem execRdf (h : s.shaped) {hd : Hdr} {x : VOps} : OutShaped (execRdf hd x s) := by
  unfold Machine.execRdf
  exact h.plain

theorem execBrkHit (h : s.shaped) {hd : Hdr} {x : VOps} : OutShaped (execBrkHit hd x s) := h.run fun _ _ => h.trapIss

theorem execBrkBp (h : s.shaped) {hd : Hdr} {x : VOps} : OutShaped (execBrkBp hd x s) :=
  h.run fun _ _ => h.through <| State.shaped.closeIssue <| h.advance.foldl fun _ _ ht => ht.modGang

theorem execBrkWp (h : s.shaped) {hd : Hdr} {x : VOps} : OutShaped (execBrkWp hd x s) :=
  h.run fun _ _ => h.through <| State.shaped.closeIssue <| h.advance.foldl fun _ _ ht => ht.modGang

theorem execEvtack (h : s.shaped) {hd : Hdr} {x : VOps} : OutShaped (execEvtack hd x s) :=
  h.run fun _ _ => h.through <| State.shaped.closeIssue <| h.advance.noteOver.foldl fun _ _ ht => ht.modWarp fun w => by
    rw [Warp.form_setEvt, Warp.form_put]

theorem execYld (h : s.shaped) {hd : Hdr} {x : VOps} : OutShaped (execYld hd x s) := h.run fun _ _ => h.advance.modWarp.closeIssue

theorem ask (h : s.shaped) {i : Iss} {th : Thread} {d : Opnd} {req : Req} : (s.ask i th d req).shaped := by
  unfold State.ask
  split
  · exact h
  · exact State.shaped.emptyDst h.frame

theorem answer (h : s.shaped) {p : Pending} {v : Nat} : (s.answer p v).shaped := State.shaped.reap <| State.shaped.fill h.frame

theorem requestForm (h : s.shaped) {hd : Hdr} {x : VOps} {src : List Fld} {chk : Iss → Thread → Option Flt}
    {act : Iss → Thread → State → State} (ha : ∀ i th t, t.shaped → (act i th t).shaped) : OutShaped (s.requestForm hd x src chk act) :=
  h.run fun _ _ => h.through <| State.shaped.closeIssue <| h.advance.noteOver.foldl fun _ _ ht => ha _ _ _ ht

theorem takeRoot (h : s.shaped) {gid : Nat} {new : Option Nat} : (s.takeRoot gid new).shaped := by
  unfold State.takeRoot
  split
  · exact h
  · extract_lets s1 s2
    have h1 : s1.shaped := by
      simp only [s1]
      split
      · exact h.modFrame
      · exact h
    have h2 : s2.shaped := h1.modGang
    split
    · exact h2.drop
    · exact h2

theorem execSetroot (h : s.shaped) {hd : Hdr} {x : VOps} : OutShaped (execSetroot hd x s) :=
  h.requestForm fun _ _ _ ht => .ite ht.takeRoot.ask (State.shaped.ask (.ite ht.takeRoot ht))

theorem execSetrootComplete (h : s.shaped) {id : Nat} : OutShaped (execSetrootComplete id s) := by
  refine .next ?_
  split
  · exact h
  · split
    · exact h.answer
    · exact h

theorem execRetype (h : s.shaped) {hd : Hdr} {x : VOps} : OutShaped (execRetype hd x s) := h.requestForm fun _ _ _ ht => ht.ask

theorem retypeFrame (h : s.shaped) {f t : Nat} {owner : Option Nat} {fw : Bool} : (s.retypeFrame f t owner fw).shaped :=
  State.shaped.modFrame (.ite (h.frame : (s.zeroFrame f).shaped) h)

theorem execRetypeAtHome (h : s.shaped) {id : Nat} : OutShaped (execRetypeAtHome id s) := by
  refine .next ?_
  split
  · exact h
  · split
    · exact State.shaped.answer (.ite h.retypeFrame h)
    · exact h

theorem execTinv (h : s.shaped) {hd : Hdr} {x : VOps} : OutShaped (execTinv hd x s) := h.requestForm fun _ _ _ ht => ht.modCore.ask

theorem execTinvComplete (h : s.shaped) {id : Nat} : OutShaped (execTinvComplete id s) := by
  refine .next ?_
  split
  · exact h
  · split
    · exact .ite h (State.shaped.answer h.frame)
    · exact h

theorem tableCommit (h : s.shaped) {t o v : Nat} : (s.tableCommit t o v).shaped := by
  refine State.shaped.modFrame (.ite (State.shaped.drop ?_) ?_)
  all_goals exact State.shaped.deviceWrite (.ite h.modFrame h)

theorem execTableStoreAdmission (h : s.shaped) {gid wi : Nat} : OutShaped (execTableStoreAdmission gid wi s) := by
  refine .next ?_
  split
  · exact h
  · split
    · exact State.shaped.modWarp (.ite h.tableCommit h)
    · exact h

theorem execPurge (h : s.shaped) {slice frame : Nat} : OutShaped (execPurge slice frame s) := by
  refine .next ?_
  split
  · exact h
  · exact .ite h h.frame

/-! ### Machine/Record -/

theorem putQueue (h : s.shaped) {k : Queue} : (s.putQueue k).shaped := h

theorem enqueue (h : s.shaped) {world q a : Nat} {root : Option Nat} : (s.enqueue world q a root).1.shaped := .ite_fst h h.putQueue

theorem execLaunch (h : s.shaped) {hd : Hdr} {x : VOps} : OutShaped (execLaunch hd x s) :=
  h.run fun _ _ => h.through <| .ite h <| State.shaped.closeIssue <| h.advance.noteOver.foldl fun _ _ ht => ht.enqueue.later

theorem execLaunchQueueWrite (h : s.shaped) {world q record : Nat} {root : Option Nat} :
    OutShaped (execLaunchQueueWrite world q record root s) := .next (.ite h h.enqueue)

/-! ### Machine/Place and Sched -/

theorem execOpreq (h : s.shaped) {hd : Hdr} {x : VOps} : OutShaped (execOpreq hd x s) :=
  h.run fun _ _ => h.through <| State.shaped.closeIssue <| h.advance.noteOver.foldl fun _ _ ht =>
    State.shaped.modWarp (.ite ht.frame ht) fun w => w.form_put ..

theorem logDispatch (h : s.shaped) {code world addr : Nat} : (s.logDispatch code world addr).shaped := h.logEntry

theorem takeRecord (h : s.shaped) {k : Queue} {a : Nat} {root : Option Nat} {rest : List (Nat × Option Nat)} :
    (s.takeRecord k a root rest).shaped := by
  unfold State.takeRecord
  split
  · exact h.putQueue.logDispatch
  · exact h.putQueue.logDispatch
  · dsimp only
    split
    · exact .ite (State.shaped.logDispatch h.frame) h.frame
    · exact .ite h.frame h.frame

theorem takeRecords (h : s.shaped) {world q n : Nat} : (s.takeRecords world q n).shaped := by
  induction n generalizing s with
  | zero => exact h
  | succ n ih =>
    unfold State.takeRecords
    dsimp only
    split
    · exact .ite h (ih h.takeRecord)
    · exact h

theorem modLaunch (h : s.shaped) {lid : Nat} {f : Launch → Launch} : (s.modLaunch lid f).shaped := h

end State.shaped

end Sys2Proof.Machine
end

section
set_option Elab.async false
namespace Sys2Proof.Machine

/-! ### Machine/Place and Sched -/

/-- A fresh warp of threads numbered apart is shaped. -/
theorem newWarp_shaped {wi core slot n entry : Nat} {ts : List Nat} (h : ts.Nodup) : (newWarp wi core slot n entry ts).shaped n := by
  refine ⟨rfl, rfl, rfl, ?_, fun th hm => ?_⟩
  · simpa [newWarp, List.map_map, Function.comp_def] using h
  · obtain ⟨t, -, rfl⟩ := List.mem_map.1 hm
    exact ⟨List.length_replicate, rfl, rfl, rfl, rfl⟩

/-- A gang of fresh warps is shaped. -/
theorem Gang.shaped_of_newWarps {g : Gang} (h : ∀ w ∈ g.warps, ∃ wi core slot entry ts, List.Nodup ts ∧ w = newWarp wi core slot g.n entry ts) :
    g.shaped := fun w hw => by
  obtain ⟨wi, core, slot, entry, ts, hn, rfl⟩ := h w hw
  exact newWarp_shaped hn

theorem Warp.form_skip (w : Warp) (ready : Bool) : (w.skip ready).form = w.form := by
  unfold Warp.skip
  split <;> rfl

theorem Warp.form_begin (w : Warp) : w.begin.form = w.form := by
  unfold Warp.begin
  split <;> rfl

theorem Gang.form_preempt (g : Gang) (p : Option Preempt) :
    ({ g with preempt := p, warps := g.warps.map fun w => { w with noticeYld := false } } : Gang).form = g.form := by
  simp only [Gang.form, map_key_map (fun w : Warp => (rfl : ({ w with noticeYld := false } : Warp).form = w.form))]

namespace State.shaped

variable {s : State}

/-- Every resident gang changed by what keeps its form. -/
theorem mapGangs (h : s.shaped) {f : Gang → Gang} (hf : ∀ g, (f g).form = g.form := by intro; rfl) :
    ({ s with gangs := s.gangs.map f } : State).shaped := by
  refine h.of_gangs fun g hm => ?_
  simp only [State.mem_allGangs, List.mem_map] at hm ⊢
  rcases hm with ⟨k, hk, rfl⟩ | hm
  · exact ⟨k, .inl hk, hf k⟩
  · exact ⟨g, .inr hm, rfl⟩

/-- A shaped gang more. -/
theorem addGang (h : s.shaped) {g : Gang} (hg : g.shaped) : ({ s with gangs := s.gangs ++ [g] } : State).shaped := by
  intro k hk
  simp only [State.mem_allGangs, List.mem_append, List.mem_singleton] at hk
  rcases hk with (hk | rfl) | hk | hk
  · exact h k ((State.mem_allGangs ..).2 (.inl hk))
  · exact hg
  · exact h k ((State.mem_allGangs ..).2 (.inr (.inl hk)))
  · exact h k ((State.mem_allGangs ..).2 (.inr (.inr hk)))

/-- A gang's root, if it has one, gains a use. -/
theorem useRoot (h : s.shaped) {root : Option Nat} {f : FrameE → FrameE} :
    (match root with | some k => s.modFrame k f | none => s).shaped := by
  split
  · exact h.modFrame
  · exact h

theorem placeBlock (h : s.shaped) {l : Launch} {cl : Cluster} {cores : List Nat} {draft : List DraftEntry × Nat} :
    (s.placeBlock l cl cores draft).shaped := by
  unfold State.placeBlock
  extract_lets b held auto k
  obtain ⟨gid, s', hs', h'⟩ : ∃ gid s', s.fresh = (gid, s') ∧ s'.shaped := ⟨_, _, rfl, h.frame⟩
  rw [hs']
  dsimp -zeta only
  extract_lets root g s1 s2
  have hg : g.shaped := Gang.shaped_of_newWarps fun w hw => by
    obtain ⟨wi, -, rfl⟩ := List.mem_map.1 hw
    exact ⟨_, _, _, _, _, List.nodup_range.filter _, rfl⟩
  have h1 : s1.shaped := h'.useRoot
  have h2 : s2.shaped := .ite h1.frame h1
  exact State.shaped.modLaunch (State.shaped.frame (h2.addGang hg))

theorem placeBlocks (h : s.shaped) {lid n : Nat} {shut : List Nat} {prefs : List (List Nat)} : (s.placeBlocks lid shut prefs n).1.shaped := by
  induction n generalizing s prefs with
  | zero => exact h
  | succ n ih =>
    unfold State.placeBlocks
    split
    · exact h
    · refine .ite_fst h ?_
      split
      · exact h
      · split
        · exact h.modLaunch
        · exact ih h.placeBlock

theorem serve (h : s.shaped) {lid : Nat} {prefs : List (List Nat)} : (s.serve lid prefs).1.shaped := by
  unfold State.serve
  dsimp only
  split
  · exact h.placeBlocks
  · exact .ite_fst h.placeBlocks h.placeBlocks.frame

theorem countPassed (h : s.shaped) {before : List Launch} : (s.countPassed before).shaped := by
  induction before generalizing s with
  | nil => exact h
  | cons l below ih => exact ih (.ite h.modLaunch h)

theorem rotate (h : s.shaped) {before : List Launch} : (s.rotate before).shaped := h.foldl fun _ _ ht => ht.frame

theorem execDispatchRound (h : s.shaped) {prefs : List (List Nat)} : OutShaped (execDispatchRound prefs s) := by
  refine .next (.ite h ?_)
  exact (State.shaped.foldl_fst (h.foldl fun _ _ ht => ht.takeRecords) fun _ _ hq => hq.serve).countPassed.rotate

theorem execLaunchCompletion (h : s.shaped) {lid : Nat} : OutShaped (execLaunchCompletion lid s) := by
  refine .next ?_
  split
  · exact h
  · refine .ite h (.ite h.frame ?_)
    split
    · exact State.shaped.deviceWrite h.frame
    · exact State.shaped.logDispatch h.frame

theorem execKillComplete (h : s.shaped) {gid : Nat} : OutShaped (execKillComplete gid s) := by
  refine .next ?_
  split
  · exact h
  · exact .ite h h.endKilled

theorem execStrideSlot (h : s.shaped) {core q : Nat} : OutShaped (execStrideSlot core q s) := by
  refine .next (.ite h ?_)
  dsimp only
  split
  · exact h
  · exact ((h.foldl fun _ _ ht => .ite ht (ht.modWarp fun w => w.form_skip _)).modWarp Warp.form_begin).modQuarter

theorem readParam (h : s.shaped) {r : WRef} {a : Nat} : (s.readParam r a).shaped := by
  unfold State.readParam
  split
  · split
    · exact h.modCore
    · exact h
  · exact h

theorem execStallDataArrival (h : s.shaped) {gid wi : Nat} : OutShaped (execStallDataArrival gid wi s) := by
  refine .next ?_
  dsimp only
  split
  · exact h.modWarp
  · exact .ite h (State.shaped.modWarp <| h.foldl fun _ _ ht => ht.readParam)
  · exact .ite h (State.shaped.modWarp <| h.foldl fun _ _ ht => ht.readRecord)
  · exact h

theorem execClockGate (h : s.shaped) {c : Nat} : OutShaped (execClockGate c s) := .next (.ite h.modCore h)

theorem execWake (h : s.shaped) {c : Nat} : OutShaped (execWake c s) := by
  refine .next (.ite h ?_)
  dsimp only
  split
  · refine .ite ?_ h
    exact h.modCore.mapGangs fun g => g.form_mapWarps fun w => by split <;> rfl
  · exact .ite h h.modCore

/-! ### Machine/Preempt -/

theorem causeGang (h : s.shaped) {gid bit : Nat} : (s.causeGang gid bit).shaped := by
  unfold State.causeGang
  split
  · exact h
  · exact h.foldl fun _ _ ht => ht.modCore

theorem postIf (h : s.shaped) {o : Option Nat} {gid bit : Nat} : (match o with | some _ => s.post gid bit | none => s).shaped := by
  split
  · exact h.post
  · exact h

theorem execPreemptRequest (h : s.shaped) {gid : Nat} {notice : Option Nat} {frames : List Nat} :
    OutShaped (execPreemptRequest gid notice frames s) := by
  refine .next ?_
  split
  · exact h
  · exact .ite h (State.shaped.postIf (State.shaped.causeGang (h.modGang fun g => g.form_preempt _)))

theorem execNoticeExpiry (h : s.shaped) {gid : Nat} : OutShaped (execNoticeExpiry gid s) := by
  refine .next ?_
  split
  · exact h
  · split
    · split
      · exact .ite h.modGang h
      · exact h
    · exact h

end State.shaped

end Sys2Proof.Machine
end

section
set_option Elab.async false
namespace Sys2Proof.Machine

/-! ### Machine/Preempt: sealing and resumption -/

theorem Warp.form_dropLates (w : Warp) : (w.mapThreads fun th => { th with lates := [] }).form = w.form := w.form_mapThreads

theorem Warp.form_mapLimits (w : Warp) (f : Nat → Nat) : (w.mapLimits f).form = w.form :=
  Warp.form_mapThreads (f := fun th => { th with wait := th.wait.mapLimit f }) (fun _ => rfl) w

namespace State.shaped

variable {s : State}

/-- A shaped gang sealed in the place of resident ones. -/
theorem toSealed (h : s.shaped) {k : Sealed} {p : Gang → Bool} (hk : k.gang.shaped) :
    ({ s with gangs := s.gangs.filter p, glVeils := [], sealed := s.sealed ++ [k] } : State).shaped := by
  intro g hm
  simp only [State.mem_allGangs, List.mem_filter, List.mem_append, List.mem_singleton] at hm
  rcases hm with hm | hm | ⟨j, hj | rfl, rfl⟩
  · exact h g ((State.mem_allGangs ..).2 (.inl hm.1))
  · exact h g ((State.mem_allGangs ..).2 (.inr (.inl hm)))
  · exact h j.gang ((State.mem_allGangs ..).2 (.inr (.inr ⟨j, hj, rfl⟩)))
  · exact hk

/-- Fewer sealed gangs. -/
theorem fewerSealed (h : s.shaped) {p : Sealed → Bool} : ({ s with sealed := s.sealed.filter p } : State).shaped := by
  refine h.of_gangs fun g hm => ⟨g, ?_, rfl⟩
  simp only [State.mem_allGangs, List.mem_filter] at hm ⊢
  exact hm.imp_right (Or.imp_right fun ⟨k, hk, e⟩ => ⟨k, hk.1, e⟩)

theorem execSeal (h : s.shaped) {gid : Nat} : OutShaped (execSeal gid s) := by
  refine .next ?_
  split
  · exact h
  · next g hg =>
    refine .ite h (State.shaped.release (State.shaped.toSealed h.frame ?_))
    exact Gang.shaped_of_form (h g (State.mem_allGangs_of_gang? hg)) <| g.form_mapWarps fun w =>
      (Warp.form_dropLates _).trans (w.form_mapLimits _)

theorem reseat (h : s.shaped) {gid : Nat} {home : Nat → Nat × Nat} {w : Warp} : (s.reseat gid home w).1.shaped := by
  unfold State.reseat
  dsimp only
  split
  · exact h.modCore
  · exact h

theorem reseatAll (h : s.shaped) {gid : Nat} {home : Nat → Nat × Nat} {ws : List Warp} : (s.reseatAll gid home ws).1.shaped := by
  induction ws generalizing s with
  | nil => exact h
  | cons w r ih => exact ih h.reseat

theorem requeue (h : s.shaped) {gid : Nat} {m : MCmd} : (s.requeue gid m).shaped := by
  unfold State.requeue
  split
  · exact h.modQuarter
  · exact h

theorem retile (h : s.shaped) {gid : Nat} {p : Nat × Nat × Tile} : (s.retile gid p).shaped := by
  unfold State.retile
  split
  · exact h.putTile
  · exact h

end State.shaped

theorem State.form_reseat (s : State) (gid : Nat) (home : Nat → Nat × Nat) (w : Warp) : (s.reseat gid home w).2.form = w.form := by
  unfold State.reseat
  dsimp only
  split
  · exact Warp.form_mapLimits _ _
  · exact Warp.form_mapLimits _ _

theorem State.form_reseatAll (s : State) (gid : Nat) (home : Nat → Nat × Nat) (ws : List Warp) :
    (s.reseatAll gid home ws).2.map Warp.form = ws.map Warp.form := by
  induction ws generalizing s with
  | nil => rfl
  | cons w r ih =>
    simp only [State.reseatAll, List.map_cons, s.form_reseat, ih]

namespace State.shaped

variable {s : State}

theorem restore (h : s.shaped) {k : Sealed} {cores : List Nat} (hk : k.gang.shaped) : (s.restore k cores).shaped := by
  unfold State.restore
  extract_lets gid rows s1 seats src
  obtain ⟨s2, ws, hs, h2, hw⟩ : ∃ s2 ws, s1.seats k cores = (s2, ws) ∧ s2.shaped ∧ ws.map Warp.form = k.gang.warps.map Warp.form :=
    ⟨_, _, rfl, State.shaped.reseatAll h.fewerSealed, State.form_reseatAll ..⟩
  rw [hs]
  dsimp -zeta only
  extract_lets moved s3 s4 s5
  have h3 : s3.shaped := h2.foldl fun _ _ ht => ht.freshenDie
  have h4 : s4.shaped := h3.addGang (Gang.shaped_of_form hk (Prod.ext rfl hw))
  have h5 : s5.shaped := (h4.foldl fun _ _ ht => ht.requeue).foldl fun _ _ ht => ht.retile
  exact .ite h5.post h5

theorem sealFails (h : s.shaped) {k : Sealed} : (s.sealFails k).shaped := by
  have ended {l : Nat} {f : Launch → Launch} {p : Sealed → Bool} {d : Nat} {e : LogE} {g : Gang} :
      ((({ s with sealed := s.sealed.filter p } : State).logEntry d e).modLaunch l f |>.endKilled g).shaped := h.fewerSealed.logEntry.modLaunch.endKilled
  exact .ite ended.lockDown ended

theorem execResume (h : s.shaped) {gid : Nat} {cores : List Nat} : OutShaped (execResume gid cores s) := by
  refine .next ?_
  split
  · exact h
  · next k hk =>
    refine .ite h (.ite h.sealFails (.ite (h.restore ?_) h))
    exact h k.gang ((State.mem_allGangs ..).2 (.inr (.inr ⟨k, List.mem_of_find?_eq_some hk, rfl⟩)))

/-! ### Machine/Repair -/

theorem mapCores (h : s.shaped) {f : Nat → Core → Core} : (s.mapCores f).shaped := h

theorem execOpEvacuateScratchpad (h : s.shaped) : OutShaped (execOpEvacuateScratchpad s) := by
  refine .next ?_
  split
  · exact .ite h (.ite h.frame h)
  · exact h

theorem execOpEvacuateSlices (h : s.shaped) : OutShaped (execOpEvacuateSlices s) := by
  refine .next ?_
  split
  · exact .ite h.frame h
  · exact h

theorem execOpSwitch (h : s.shaped) : OutShaped (execOpSwitch s) := by
  refine .next ?_
  split
  · exact .ite (State.shaped.postResident h.frame) (.ite (State.shaped.postResident h.frame) h)
  · exact h

theorem execRowRetire (h : s.shaped) {slice : Bool} {unit row : Nat} : OutShaped (execRowRetire slice unit row s) :=
  .next <| .ite h.frame <| .ite h <| .ite h.frame <| .ite (State.shaped.postResident h.frame) h.frame

theorem execSoftPpr (h : s.shaped) {line : Nat} {hard : Bool} : OutShaped (execSoftPpr line hard s) := by
  refine .next (.ite h ?_)
  extract_lets s'
  have h' : s'.shaped := .ite h.frame h
  exact .ite h' h'.frame

theorem execSoftPprComplete (h : s.shaped) {line : Nat} : OutShaped (execSoftPprComplete line s) := .next h.frame

theorem execFrameMigration (h : s.shaped) {fn : Nat} : OutShaped (execFrameMigration fn s) := .next <| .ite h h.frame

theorem execMigrationSwitch (h : s.shaped) {fn : Nat} : OutShaped (execMigrationSwitch fn s) := .next <| .ite h.frame h

theorem poison (h : s.shaped) {a : ArrayWord} : (s.poison a).shaped := by
  unfold State.poison
  cases a
  case obj => exact h.modGang
  case frame => exact h.modFrame
  case main => exact h.modThread fun th => by simp [Thread.form, poisonReg]
  case own => exact h.modThread
  case scalar => exact h.modWarp fun w => by simp [Warp.form, poisonReg]
  all_goals exact h.frame

theorem arrayError (h : s.shaped) {core : Nat} {e : ArrayWord × Bool} : (s.arrayError core e).shaped :=
  State.shaped.logEntry (.ite h.poison h)

theorem execScrub (h : s.shaped) {core : Nat} {found : List (ArrayWord × Bool)} : OutShaped (execScrub core found s) :=
  .next <| h.foldl fun _ _ ht => ht.arrayError

theorem execPatrol (h : s.shaped) {line : Nat} {found : List (Nat × Bool)} {tag : Bool} : OutShaped (execPatrol line found tag s) := by
  refine .next ?_
  extract_lets die src log hard s1 s2
  have h1 : s1.shaped := h.foldl fun _ _ ht => ht.logEntry
  have h2 : s2.shaped := .ite h1.logEntry h1
  exact .ite h2.frame h2

theorem killOn (h : s.shaped) {cl : Cluster} {isUnit : Bool} {part : Nat} : (s.killOn cl isUnit part).shaped := h.foldl fun _ _ ht => ht.kill

theorem takeSpare (h : s.shaped) {k part : Nat} {cl : Cluster} {isUnit : Bool} {t : State} (ht : s.takeSpare k cl isUnit part = some t) :
    t.shaped := by
  unfold State.takeSpare at ht
  dsimp only at ht
  split at ht
  · obtain ⟨u, -, rfl⟩ := Option.map_eq_some_iff.1 ht
    exact h.frame
  · obtain ⟨u, -, rfl⟩ := Option.map_eq_some_iff.1 ht
    exact h.frame

theorem shrink (h : s.shaped) {k part : Nat} {cl : Cluster} {isUnit : Bool} : (s.shrink k cl isUnit part).shaped :=
  State.shaped.postAll h.frame

theorem execSpareTakeover (h : s.shaped) {isUnit dead : Bool} {part : Nat} : OutShaped (execSpareTakeover isUnit part dead s) := by
  refine .next ?_
  dsimp only
  split
  · exact h.frame
  · refine .ite h.killOn (.ite h ?_)
    split
    · next ht => exact h.takeSpare ht
    · exact .ite h h.shrink

theorem execEnvironmentalAlarm (h : s.shaped) {cond die : Nat} : OutShaped (execEnvironmentalAlarm cond die s) :=
  .next <| .ite h <| .ite h.lockDown h.logEntry

theorem execAlarmResend (h : s.shaped) : OutShaped (execAlarmResend s) := by
  refine .next ?_
  split
  · exact .ite h.sendAlarm h
  · exact h

theorem loseCmd (h : s.shaped) {core : Nat} {k : Cmd} : (s.loseCmd core k).shaped := State.shaped.putCmd h.frame

theorem execAckTimeout (h : s.shaped) {id : Nat} : OutShaped (execAckTimeout id s) := by
  refine .next ?_
  split
  · exact .ite h.declareLost h
  · split
    · exact .ite h.loseCmd h
    · exact h

theorem execBridgeFailure (h : s.shaped) {bridge : Nat} {dropped : List Nat} {cmds : List (Nat × Nat)} :
    OutShaped (execBridgeFailure bridge dropped cmds s) := by
  refine .next ?_
  extract_lets lose fail s1 s2
  have h1 : s1.shaped := by
    refine State.shaped.foldl (h.foldl fun t id ht => ?_) fun t p ht => ?_
    · simp only [lose]
      split
      · exact ht
      · exact .ite ht.declareLost ht
    · simp only [fail]
      split
      · exact .ite ht.loseCmd ht
      · exact ht
  exact h1.frame

end State.shaped

end Sys2Proof.Machine
end

section
set_option Elab.async false
namespace Sys2Proof.Machine

namespace State.shaped

variable {s : State}

/-! ### Machine/Net -/

theorem modStack (h : s.shaped) {k : Nat} {f : Stack → Stack} : (s.modStack k f).shaped := h

theorem baseTake (h : s.shaped) {k : Nat} {r : BaseReq} : (s.baseTake k r).shaped := by
  refine .ite h ?_
  split
  · exact h
  · exact h.modStack

theorem execBaseRd (h : s.shaped) {k port addr len world : Nat} : OutShaped (execBaseRd k port addr len world s) := .next h.baseTake

theorem execBaseWr (h : s.shaped) {k port addr len world : Nat} : OutShaped (execBaseWr k port addr len world s) := .next h.baseTake

theorem execBaseWrm (h : s.shaped) {k port addr len world : Nat} {mask : TMask} : OutShaped (execBaseWrm k port addr len world mask s) :=
  .next h.baseTake

theorem execBaseRsp (h : s.shaped) {k port tag : Nat} : OutShaped (execBaseRsp k port tag s) := by
  refine .next ?_
  split
  · exact h
  · exact .ite h h.modStack

theorem execBaseAck (h : s.shaped) {k port tag : Nat} : OutShaped (execBaseAck k port tag s) := by
  refine .next ?_
  split
  · exact h
  · exact .ite h h.modStack

theorem execGrantOwnerChange (h : s.shaped) {k g world : Nat} : OutShaped (execGrantOwnerChange k g world s) :=
  .next <| .ite h <| .ite h h.frame

theorem modLink (h : s.shaped) {d : Nat} {f : Link → Link} : (s.modLink d f).shaped := h

theorem newFlit (h : s.shaped) {d type world : Nat} {payload : List Byte} {f : Flit} {t : State}
    (e : s.newFlit d type world payload = some (f, t)) : t.shaped := by
  unfold State.newFlit at e
  dsimp only at e
  split at e
  · cases e
  · split at e
    · cases e
    · cases e
      exact h.modLink.modLink

theorem nextFlit (h : s.shaped) {d type world : Nat} {payload : List Byte} {f : Flit} {t : State}
    (e : s.nextFlit d type world payload = some (f, t)) : t.shaped := by
  unfold State.nextFlit at e
  dsimp only at e
  split at e
  · split at e
    · cases e
      exact h.modLink
    · cases e
  · exact h.newFlit e

theorem receive (h : s.shaped) {d : Nat} {f : Flit} {ok : Bool} : (s.receive d f ok).shaped :=
  .ite h <| .ite h.modLink h.modLink.modLink

/-- A flit sent where one can be, and received. -/
theorem sent (h : s.shaped) {o : Option (Flit × State)} (ho : ∀ f t, o = some (f, t) → t.shaped) {d e : Nat} {ok : Bool} {g : Link → Link} :
    (match o with | some (f, t) => (t.modLink e g).receive d f ok | none => s).shaped := by
  match o with
  | some (f, t) => exact (ho f t rfl).modLink.receive
  | none => exact h

/-- As `sent`, with nothing else to note. -/
theorem resent (h : s.shaped) {o : Option (Flit × State)} (ho : ∀ f t, o = some (f, t) → t.shaped) {d : Nat} {ok : Bool} :
    (match o with | some (f, t) => t.receive d f ok | none => s).shaped := by
  match o with
  | some (f, t) => exact (ho f t rfl).receive
  | none => exact h

theorem execFlitData (h : s.shaped) {d : Nat} {ok : Bool} : OutShaped (execFlitData d ok s) := by
  refine .next ?_
  dsimp only
  split
  · exact h.sent fun _ _ => h.newFlit
  · exact h
  · exact h.resent fun _ _ => h.nextFlit

theorem execFlitVoid (h : s.shaped) {d : Nat} {ok : Bool} : OutShaped (execFlitVoid d ok s) := by
  refine .next ?_
  dsimp only
  split
  · exact h.sent fun _ _ => h.newFlit
  · exact h
  · exact h.resent fun _ _ => h.nextFlit

theorem execFlitIdle (h : s.shaped) {d : Nat} {ok : Bool} : OutShaped (execFlitIdle d ok s) := .next <| h.resent fun _ _ => h.nextFlit

theorem execFlitMarker (h : s.shaped) {d : Nat} {ok : Bool} : OutShaped (execFlitMarker d ok s) := by
  refine .next ?_
  dsimp only
  split
  · next e => exact (h.nextFlit e).modLink.receive
  · exact h

theorem execFlitNak (h : s.shaped) {link : Nat × Bool} : OutShaped (execFlitNak link s) := by
  refine .next ?_
  dsimp only
  split
  · exact h.sent fun _ _ => h.newFlit
  · exact h
  · exact h.resent fun _ _ => h.nextFlit

theorem execKeyLoad (h : s.shaped) {d : Nat} : OutShaped (execKeyLoad d s) := .next <| .ite h.modLink h

theorem reroute (h : s.shaped) {d : Nat} : (s.reroute d).shaped := h.modLink.modLink

theorem rerouteAll (h : s.shaped) : s.rerouteAll.shaped := h.foldl fun _ _ ht => .ite ht.reroute ht

theorem execLinkTraining (h : s.shaped) {k : Nat} : OutShaped (execLinkTraining k s) := .next <| .ite h h.modLink.modLink.rerouteAll

theorem execLinkFailure (h : s.shaped) {k : Nat} : OutShaped (execLinkFailure k s) :=
  .next <| .ite h.modLink.modLink.reroute.reroute.logEntry h

theorem killSealed (h : s.shaped) {world : Nat} : (s.killSealed world).shaped :=
  h.foldl fun _ _ ht => State.shaped.endKilled (State.shaped.fewerSealed ht.modLaunch.logEntry)

theorem execFunctionLevelReset (h : s.shaped) {w : Nat} {lost : List Nat} : OutShaped (execFunctionLevelReset w lost s) := by
  refine .next ?_
  extract_lets s1 s2 s3 void
  have h3 : s3.shaped := by
    refine State.shaped.foldl (State.shaped.killSealed (h.foldl fun _ _ ht => ht.kill)) fun t id ht => ?_
    split
    · split
      · exact .ite ht.declareLost ht
      · exact ht
    · exact ht
  exact h3.frame

theorem execQueueOpen (h : s.shaped) {world q peer : Nat} {send rod : Bool} : OutShaped (execQueueOpen world q send peer rod s) :=
  .next <| .ite h <| .ite h.frame h.frame

theorem execQueueClose (h : s.shaped) {world q : Nat} {send : Bool} : OutShaped (execQueueClose world q send s) :=
  .next <| .ite h <| .ite h.frame h.frame

theorem execMessageArrival (h : s.shaped) {world q : Nat} {sender : Nat × Word} {payload : List Byte} :
    OutShaped (execMessageArrival world q sender payload s) := .next <| .ite h h.frame

/-! ### Machine/Manage -/

/-- A machine without gangs. -/
theorem of_none (hg : s.gangs = []) (hd : s.dying = []) (hs : s.sealed = []) : s.shaped := by
  intro g hm
  simp [State.mem_allGangs, hg, hd, hs] at hm

/-- A change of what is managed. -/
theorem manage (h : s.shaped) {m : Mgmt} : ({ s with mgmt := m } : State).shaped := h

theorem restart : s.restart.shaped := of_none rfl rfl rfl

theorem execDeviceReset : OutShaped (execDeviceReset s) := .next restart

theorem execResetGo : OutShaped (execResetGo s) := .next restart

theorem execKeysAndFill (h : s.shaped) : OutShaped (execKeysAndFill s) := .next <| .ite h h.frame

theorem loadImage (h : s.shaped) {slot : Nat} : (s.loadImage slot).1.shaped := by
  unfold State.loadImage
  extract_lets pages tops fs put blank entry mem
  have cleared : ({ s with mem := mem, badMem := s.badMem.filter fun w => !fs.contains (w / 16384) } : State).shaped := h.frame
  dsimp -zeta only
  exact cleared.foldl fun _ _ ht => ht.modFrame

/-- Fewer resident gangs, and shaped ones more. -/
theorem replaceGangs (h : s.shaped) {p : Gang → Bool} {gs : List Gang} (hg : ∀ g ∈ gs, g.shaped) :
    ({ s with gangs := s.gangs.filter p ++ gs } : State).shaped := by
  intro g hm
  simp only [State.mem_allGangs, List.mem_append, List.mem_filter] at hm
  rcases hm with (hm | hm) | hm
  · exact h g ((State.mem_allGangs ..).2 (.inl hm.1))
  · exact hg g hm
  · exact h g ((State.mem_allGangs ..).2 (.inr hm))

end State.shaped

theorem Thread.form_setCmp (th : Thread) (dg : BitVec 3) (cm : Cmb) (r : Bool) : (setCmp th dg cm r).form = th.form := th.form_setGuard ..

theorem controlGang_shaped (gid core root entry : Nat) : (controlGang gid core root entry).shaped := fun w hw => by
  obtain ⟨wi, -, rfl⟩ := List.mem_map.1 hw
  exact Warp.shaped_of_form (newWarp_shaped (wi := wi) (core := core) (slot := wi) (entry := entry) (List.nodup_singleton 0)) rfl

namespace State.shaped

variable {s : State}

theorem startControl (h : s.shaped) {root entry : Nat} : (s.startControl root entry).shaped :=
  State.shaped.frame <| h.replaceGangs (p := fun g => !g.ctl) fun g hg => by
    obtain ⟨k, -, rfl⟩ := List.mem_map.1 hg
    exact controlGang_shaped (s.nextId + k) (160 + 16 * s.mgmt.ctlDie + k) root entry

theorem rejectSlot (h : s.shaped) {code : Nat} : (s.rejectSlot code).shaped := State.shaped.logEntry h.frame

theorem boot (h : s.shaped) {slot : Nat} : (s.boot slot).shaped := by
  unfold State.boot
  dsimp only
  exact h.loadImage.manage.startControl

theorem execImageVerify (h : s.shaped) : OutShaped (execImageVerify s) :=
  .next <| .ite h.manage <| .ite h <| .ite h.boot h.rejectSlot.manage

theorem execControlTakeover (h : s.shaped) : OutShaped (execControlTakeover s) :=
  .next <| .ite h <| .ite (State.shaped.frame (h.filter (q := fun _ => true)) rfl (by simp) rfl) h

theorem execResponseWrite (h : s.shaped) {cls : BitVec 2} : OutShaped (execResponseWrite cls s) := .next <| .ite h h.frame

theorem execRegisterWrite (h : s.shaped) {addr : Nat} {val : Word} : OutShaped (execRegisterWrite addr val s) := .next <| .ite h.frame h

theorem execAttestationRequest (h : s.shaped) {nonce : List Byte} : OutShaped (execAttestationRequest nonce s) := .next <| .ite h.frame h

theorem execLogHeadAdvance (h : s.shaped) {die n : Nat} : OutShaped (execLogHeadAdvance die n s) := .next h.frame

theorem execNewWorldKey (h : s.shaped) {w : Nat} : OutShaped (execNewWorldKey w s) := .next <| .ite h h.frame

theorem execEnrolment (h : s.shaped) {owner port flowMin : Nat} {keyHashes : List (List Byte)} {module_ : Bool} :
    OutShaped (execEnrolment owner port flowMin keyHashes module_ s) := by
  refine .next ?_
  split
  · exact h
  · exact h.frame

/-! ### Machine/Move -/

theorem compareForm (h : s.shaped) {hd : Hdr} {x : VOps} {n : Nat} {dg : BitVec 3} {cm : Cmb} {f : Nat → Nat → Bool} :
    OutShaped (s.compareForm hd x n dg cm f) := h.plain fun _ th => th.form_setCmp ..

theorem execGop (h : s.shaped) {hd : Hdr} {x : VOps} : OutShaped (execGop hd x s) := by
  unfold Machine.execGop
  exact h.plain fun v th => form_gopGuard ..

theorem execGunpk (h : s.shaped) {hd : Hdr} {x : VOps} : OutShaped (execGunpk hd x s) := by
  unfold Machine.execGunpk
  exact h.plain fun v th => form_unpackGuards ..

theorem execMovsp (h : s.shaped) {hd : Hdr} {x : VOps} : OutShaped (execMovsp hd x s) := by
  unfold Machine.execMovsp
  split
  · exact .fault _
  · exact h.plain

theorem execWrsp (h : s.shaped) {hd : Hdr} {x : VOps} : OutShaped (execWrsp hd x s) := by
  unfold Machine.execWrsp
  split
  · exact h.plain fun v th => form_wrspThread ..
  · exact h.plain

end State.shaped

end Sys2Proof.Machine
end

section
set_option Elab.async false
namespace Sys2Proof.Machine

theorem Thread.form_settleFor (th : Thread) (ins : Instr) (acts : Bool) : (th.settleFor ins acts).form = th.form := rfl

namespace State.shaped

variable {s : State}

/-! ### Plain operations that write a guard as well -/

theorem execIaddc (h : s.shaped) {hd : Hdr} {x : VOps} {t : Ty} {ci : Option (BitVec 3)} {co : BitVec 3} :
    OutShaped (execIaddc hd x t ci co s) := by
  unfold Machine.execIaddc
  exact h.plain fun _ th => th.form_setGuard ..

theorem execIsubb (h : s.shaped) {hd : Hdr} {x : VOps} {t : Ty} {ci : Option (BitVec 3)} {co : BitVec 3} :
    OutShaped (execIsubb hd x t ci co s) := by
  unfold Machine.execIsubb
  exact h.plain fun _ th => th.form_setGuard ..

theorem execFcmp (h : s.shaped) {hd : Hdr} {x : VOps} {c : Cond} {dg : BitVec 3} {cm : Cmb} : OutShaped (execFcmp hd x c dg cm s) := by
  unfold Machine.execFcmp
  exact h.plain fun _ th => th.form_setCmp ..

/-! ### Families of the dispatch -/

theorem execBinit (h : s.shaped) {hd : Hdr} {x : VOps} {gw keep full : Bool} {scope : Scope} :
    OutShaped (execBinit hd x gw scope keep full s) := h.binitForm fun _ _ _ _ ht => ht.makeObj

theorem execBinitRetire (h : s.shaped) {hd : Hdr} {x : VOps} {gw : Bool} {scope : Scope} :
    OutShaped (execBinitRetire hd x gw scope s) := by
  refine h.binitForm fun t i th r ht => ?_
  split
  · exact ht.retireObj
  · exact ht

theorem execBget (h : s.shaped) {hd : Hdr} {x : VOps} {gw : Bool} : OutShaped (execBget hd x gw s) := h.bobbinForm fun _ _ => h.slotWaits

theorem execBputGet (h : s.shaped) {hd : Hdr} {x : VOps} {gw : Bool} : OutShaped (execBputGet hd x gw s) :=
  h.bobbinForm fun _ _ => h.slotWaits

theorem arith2 (h : s.shaped) {hd : Hdr} {x : VOps} {t : Ty} {sat : Bool} {f : Int → Int → Int} : OutShaped (s.arith2 hd x t sat f) := h.plain

theorem logic2 (h : s.shaped) {hd : Hdr} {x : VOps} {t : Ty} {f : Nat → Nat → Nat} : OutShaped (s.logic2 hd x t f) := h.plain

theorem shiftForm (h : s.shaped) {hd : Hdr} {x : VOps} {t : Ty} {f : Nat → Nat → Nat} : OutShaped (s.shiftForm hd x t f) := h.plain

theorem countForm (h : s.shaped) {hd : Hdr} {x : VOps} {t : Ty} {f : Nat → Nat} : OutShaped (s.countForm hd x t f) := h.plain

theorem floatForm (h : s.shaped) {hd : Hdr} {x : VOps} {k : Nat} {f : TIn → Nat} : OutShaped (s.floatForm hd x k f) := h.plain

theorem packedFloat (h : s.shaped) {hd : Hdr} {x : VOps} {t : Ty} {k : Nat} {f : Nat → Nat → Nat → Nat} :
    OutShaped (s.packedFloat hd x t k f) := h.floatForm

theorem packedInt (h : s.shaped) {hd : Hdr} {x : VOps} {t : Ty} {sat : Bool} {f : Int → Int → Int} : OutShaped (s.packedInt hd x t sat f) :=
  h.floatForm

theorem dotForm (h : s.shaped) {hd : Hdr} {x : VOps} {n : Nat} {t : Ty} {bt : Option Ty} : OutShaped (s.dotForm hd x n t bt) := h.floatForm

/-! ### Machine/Dispatch -/

theorem exec (h : s.shaped) (i : Instr) : OutShaped (exec i s) := by
  cases i <;> dsimp only [Machine.exec]
  case bra => exact h.execBra
  case brx => exact h.execBrx
  case ret => exact h.execRet
  case loopd => exact h.execLoopd
  case exit => exact h.execExit
  case nop => exact h.execNop
  case iaddc => exact h.execIaddc
  case isubb => exact h.execIsubb
  case fcmp => exact h.execFcmp
  case gop => exact h.execGop
  case gunpk => exact h.execGunpk
  case movsp => exact h.execMovsp
  case wrsp => exact h.execWrsp
  case vote => exact h.execVote
  case wsync => exact h.execWsync
  case rdx => exact h.execRdx
  case join => exact h.execJoin
  case jwait => exact h.execJwait
  case jwaitt => exact h.execJwaitt
  case jget => exact h.execJget
  case jset => exact h.execJset
  case pf => exact h.execPf
  case binit => exact h.execBinit
  case binitRetire => exact h.execBinitRetire
  case barr => exact h.execBarr
  case bexp => exact h.execBexp
  case bstat => exact h.execBstat
  case bind => exact h.execBind
  case unbind => exact h.execUnbind
  case fence => exact h.execFence
  case fencex => exact h.execFencex
  case fencerec => exact h.execFencerec
  case bget => exact h.execBget
  case bputGet => exact h.execBputGet
  case bputPut => exact h.execBputPut
  case bfree => exact h.execBfree
  case bbindRq => exact h.execBbindRq
  case bbindOff => exact h.execBbindOff
  case dadv => exact h.execDadv
  case ckill => exact h.execCkill
  case relay => exact h.execRelay
  case trapSw => exact h.execTrapSw
  case trapHset => exact h.execTrapHset
  case trapHget => exact h.execTrapHget
  case rte => exact h.execRte
  case rdf => exact h.execRdf
  case brkHit => exact h.execBrkHit
  case brkBp => exact h.execBrkBp
  case brkWp => exact h.execBrkWp
  case setroot => exact h.execSetroot
  case retype => exact h.execRetype
  case tinv => exact h.execTinv
  case evtack => exact h.execEvtack
  case yld => exact h.execYld
  case launch => exact h.execLaunch
  case opreq => exact h.execOpreq
  case killComplete => exact h.execKillComplete
  case registerFill => exact h.execRegisterFill
  case stallDataArrival => exact h.execStallDataArrival
  case strideSlot => exact h.execStrideSlot
  case jwaittExpiry => exact h.execJwaittExpiry
  case bwaittExpiry => exact h.execBwaittExpiry
  case bytesCounted => exact h.execBytesCounted
  case commandEnd => exact h.execCommandEnd
  case receiveLanding => exact h.execReceiveLanding
  case messageArrival => exact h.execMessageArrival
  case teamCommandStart => exact h.execTeamCommandStart
  case matrixCommandStart => exact h.execMatrixCommandStart
  case matrixCommandEnd => exact h.execMatrixCommandEnd
  case storeAtHome => exact h.execStoreAtHome
  case hotWordRetire => exact h.execHotWordRetire
  case invalidation => exact h.execInvalidation
  case invalidationAck => exact h.execInvalidationAck
  case storeAck => exact h.execStoreAck
  case negativeAck => exact h.execNegativeAck
  case ackTimeout => exact h.execAckTimeout
  case bridgeFailure => exact h.execBridgeFailure
  case releaseMarker => exact h.releaseMarker
  case relayArrival => exact h.execRelayArrival
  case tableStoreAdmission => exact h.execTableStoreAdmission
  case purge => exact h.execPurge
  case tinvComplete => exact h.execTinvComplete
  case setrootComplete => exact h.execSetrootComplete
  case retypeAtHome => exact h.execRetypeAtHome
  case frameMigration => exact h.execFrameMigration
  case migrationSwitch => exact h.execMigrationSwitch
  case dispatchRound => exact h.execDispatchRound
  case launchCompletion => exact h.execLaunchCompletion
  case clockGate => exact h.execClockGate
  case wake => exact h.execWake
  case preemptRequest => exact h.execPreemptRequest
  case noticeExpiry => exact h.execNoticeExpiry
  case sealGang => exact h.execSeal
  case resume => exact h.execResume
  case opEvacuateScratchpad => exact h.execOpEvacuateScratchpad
  case opEvacuateSlices => exact h.execOpEvacuateSlices
  case opSwitch => exact h.execOpSwitch
  case rowRetire => exact h.execRowRetire
  case softPpr => exact h.execSoftPpr
  case softPprComplete => exact h.execSoftPprComplete
  case scrub => exact h.execScrub
  case patrol => exact h.execPatrol
  case spareTakeover => exact h.execSpareTakeover
  case environmentalAlarm => exact h.execEnvironmentalAlarm
  case alarmResend => exact h.execAlarmResend
  case controlTakeover => exact h.execControlTakeover
  case baseRd => exact h.execBaseRd
  case baseWr => exact h.execBaseWr
  case baseWrm => exact h.execBaseWrm
  case baseRsp => exact h.execBaseRsp
  case baseAck => exact h.execBaseAck
  case flitData => exact h.execFlitData
  case flitIdle => exact h.execFlitIdle
  case flitMarker => exact h.execFlitMarker
  case flitNak => exact h.execFlitNak
  case flitVoid => exact h.execFlitVoid
  case keyLoad => exact h.execKeyLoad
  case linkFailure => exact h.execLinkFailure
  case functionLevelReset => exact h.execFunctionLevelReset
  case queueOpen => exact h.execQueueOpen
  case queueClose => exact h.execQueueClose
  case deviceReset => exact execDeviceReset
  case keysAndFill => exact h.execKeysAndFill
  case imageVerify => exact h.execImageVerify
  case resetGo => exact execResetGo
  case responseWrite => exact h.execResponseWrite
  case registerWrite => exact h.execRegisterWrite
  case attestationRequest => exact h.execAttestationRequest
  case logHeadAdvance => exact h.execLogHeadAdvance
  case linkTraining => exact h.execLinkTraining
  case newWorldKey => exact h.execNewWorldKey
  case grantOwnerChange => exact h.execGrantOwnerChange
  case launchQueueWrite => exact h.execLaunchQueueWrite
  case enrolment => exact h.execEnrolment
  case call | callx =>
    dsimp only [execCall, execCallx]
    exact h.run fun _ _ => h.callForm
  case iadd | isub | imul | imulh | imin | imax =>
    dsimp only [execIadd, execIsub, execImul, execImulh, execImin, execImax]
    exact h.arith2
  case imad | imad64 | iabs | lea | lmux | fsh | bfi | brev | bperm | gpack | sel | mov | movi | acs2 | cvt | dstat =>
    dsimp only [execImad, execImad64, execIabs, execLea, execLmux, execFsh, execBfi, execBrev, execBperm, execGpack, execSel, execMov,
      execMovi, execAcs2, execCvt, execDstat]
    exact h.plain
  case idiv | irem =>
    dsimp only [execIdiv, execIrem]
    exact h.longArith
  case and | or | xor | andn =>
    dsimp only [execAnd, execOr, execXor, execAndn]
    exact h.logic2
  case shl | shr | sar | rotl | bfx =>
    dsimp only [execShl, execShr, execSar, execRotl, execBfx]
    exact h.shiftForm
  case popc | clz =>
    dsimp only [execPopc, execClz]
    exact h.countForm
  case icmp | ucmp =>
    dsimp only [execIcmp, execUcmp]
    exact h.compareForm
  case fadd | fsub | fmul | ffma | fmin | fmax | fdiv | frcp | fsqrt | frsq | fexp2 | flog2 | frnd | fclass | fscale | cvtp | cvtn | cvtw |
    scl =>
    dsimp only [execFadd, execFsub, execFmul, execFfma, execFmin, execFmax, execFdiv, execFrcp, execFsqrt, execFrsq, execFexp2, execFlog2,
      execFrnd, execFclass, execFscale, execCvtp, execCvtn, execCvtw, execScl]
    exact h.floatForm
  case hadd2 | hmul2 | hfma2 | hmin2 | hmax2 =>
    dsimp only [execHadd2, execHmul2, execHfma2, execHmin2, execHmax2]
    exact h.packedFloat
  case vadd2 | vsub2 | vmin2 | vmax2 | vabsd2 | vadd4 | vsub4 | vmin4 | vmax4 =>
    dsimp only [execVadd2, execVsub2, execVmin2, execVmax2, execVabsd2, execVadd4, execVsub4, execVmin4, execVmax4]
    exact h.packedInt
  case dot4 | dot8 =>
    dsimp only [execDot4, execDot8]
    exact h.dotForm
  case hqs | hq | hdq =>
    dsimp only [execHqs, execHq, execHdq]
    exact h.rowForm
  case shfl | shflw | bcast | vread =>
    dsimp only [execShfl, execShflw, execBcast, execVread]
    exact h.exchange
  case ld | ldo =>
    dsimp only [execLd, execLdo]
    exact h.loadForm
  case st | sto =>
    dsimp only [execSt, execSto]
    exact h.storeForm
  case atom | ared | acas =>
    dsimp only [execAtom, execAred, execAcas]
    exact h.atomForm
  case bwait | bwaitt =>
    dsimp only [execBwait, execBwaitt]
    exact h.waitForm
  case cpy | cpyt | cpyg | cpyn | nget | nred | ncvt =>
    dsimp only [execCpy, execCpyt, execCpyg, execCpyn, execNget, execNred, execNcvt]
    exact h.startForm
  case mxm | mxc | msca | mzero | ldf | stf | mxrd =>
    dsimp only [execMxm, execMxc, execMsca, execMzero, execLdf, execStf, execMxrd]
    exact h.mForm

/-! ### Machine/Fetch and Step -/

theorem enter (h : s.shaped) {x : Slot} {ins : Instr} : (s.enter x ins).shaped :=
  State.shaped.modWarp (State.shaped.cacheTlb h.frame) fun w => w.form_mapThreads fun th => th.form_settleFor ..

theorem spendLine (h : s.shaped) {core q : Nat} : (s.spendLine core q).shaped := by
  unfold State.spendLine
  split
  · exact h.frame
  · exact h

theorem after (h : s.shaped) {t : State} (ht : t.shaped) {core q : Nat} {x : Slot} {w : IWord} : (s.after t core q x w).shaped := by
  unfold State.after
  extract_lets on u
  have hu : u.shaped := by
    simp only [u]
    split
    · exact .ite (State.shaped.trap h.frame) ht
    · exact ht
  exact hu.unreachTeam.frame

theorem meet (h : s.shaped) {core q : Nat} {x : Slot} {b : Before} : (s.meet core q x b).shaped := by
  unfold State.meet
  extract_lets struck s'
  have h' : s'.shaped := h.spendLine
  split
  · exact h
  · exact State.shaped.trapAs (.ite h'.modWarp h')
  · exact h'.modWarp.endStride
  · exact h'

theorem move (h : s.shaped) {t : Turn} : (s.move t).shaped := by
  unfold State.move
  split
  case h_2 =>
    split
    · exact h.performFlight.reap
    · exact h
  case h_3 => exact h.forward
  case h_4 => exact h.modGang
  case h_6 => exact h.relook
  case h_13 => exact .ite h.frame h
  all_goals exact h.frame

theorem issueOf (h : s.shaped) {core q : Nat} : OutShaped (issueOf core q s) := by
  unfold Machine.issueOf
  split
  · exact .next h
  · refine .ite (.next h.endStride) ?_
    split
    · split
      · exact .next h.meet
      · have entered {x : Slot} {i : Instr} := (h.spendLine (core := core) (q := q)).enter (x := x) (ins := i)
        split
        · next t ht => exact .next (entered.after (entered.exec _ t ht))
        · exact .fault _
        · exact .refused _
    · exact .next h.meet

theorem take (h : s.shaped) {t : Turn} : OutShaped (take t s) := by
  unfold Machine.take
  split
  · exact h.issueOf
  · exact h.exec _
  · exact .next h.move

theorem nextTurn (h : s.shaped) : s.nextTurn.2.shaped := by
  unfold State.nextTurn
  split
  · exact h.frame
  · exact h

theorem step (h : s.shaped) : OutShaped (step s) := by
  unfold Machine.step
  split
  · next t ht => exact .next (State.shaped.frame (h.nextTurn.take t ht))
  · exact .fault _
  · exact .refused _

end State.shaped

/-- Settles O54: every operation a step may call keeps the register files, so the step does. -/
theorem stepKeepsShape : Obligations.StepKeepsShape := fun _ t h e => h.step t e

end Sys2Proof.Machine
end

section
set_option Elab.async false
namespace Sys2Proof.Machine

/-! ### One step by its turn -/

theorem step_next {s u : State} {t : Turn} {rest : List Turn} (ha : s.agenda = t :: rest) (h : take t { s with agenda := rest } = .next u) :
    step s = .next u.tock := by
  simp only [step, State.nextTurn, ha, h]

theorem step_fault {s : State} {t : Turn} {rest : List Turn} {f : Fault} (ha : s.agenda = t :: rest)
    (h : take t { s with agenda := rest } = .fault f) : step s = .fault f := by
  simp only [step, State.nextTurn, ha, h]

theorem step_refused {s : State} {t : Turn} {rest : List Turn} {r : Refusal} (ha : s.agenda = t :: rest)
    (h : take t { s with agenda := rest } = .refused r) : step s = .refused r := by
  simp only [step, State.nextTurn, ha, h]

/-- What stands ready for an issue: its line can be read and is read whole, and nothing comes before its instruction (R33 to R38, R326). -/
structure State.Fetches (s : State) (core q : Nat) (x : Slot) (line : List Byte) : Prop where
  slot : s.slot? core q = some x
  act : x.act ≠ []
  reads : s.lineWaits x = false
  due : dueUnreach x.act = []
  deferred : x.deferred = []
  unhit : x.breakAt = none
  entry : x.w.entry = none
  fetch : s.fetch x.g x.w.core x.pc.toNat = .ok line
  sound : Machine.lineFault line (s.struckLine core q) = none

/-- The word an issue decodes: that of its slot in the line. -/
def Slot.wordIn (x : Slot) (line : List Byte) : IWord := wordOfBytes (line.drop (12 * pcSlot x.pc))

namespace State.Fetches

variable {s : State} {core q : Nat} {x : Slot} {line : List Byte}

/-- Nothing comes before the word. -/
theorem before_word (h : s.Fetches core q x line) : s.before core q x = .word (x.wordIn line) := by
  simp [State.before, h.reads, h.due, h.deferred, h.unhit, h.entry, h.fetch, h.sound, Slot.wordIn]

theorem issueOf_next (h : s.Fetches core q x line) {i : Instr} {t : State} (hd : decodeWord x.g.decodes (x.wordIn line) = .ok i)
    (hx : exec i ((s.spendLine core q).enter x i) = .next t) :
    issueOf core q s = .next (State.after ((s.spendLine core q).enter x i) t core q x (x.wordIn line)) := by
  simp only [issueOf, h.slot, h.act, h.before_word, hd, hx, if_false]

theorem issueOf_fault (h : s.Fetches core q x line) {i : Instr} {f : Fault} (hd : decodeWord x.g.decodes (x.wordIn line) = .ok i)
    (hx : exec i ((s.spendLine core q).enter x i) = .fault f) : issueOf core q s = .fault f := by
  simp only [issueOf, h.slot, h.act, h.before_word, hd, hx, if_false]

theorem issueOf_refused (h : s.Fetches core q x line) {i : Instr} {r : Refusal} (hd : decodeWord x.g.decodes (x.wordIn line) = .ok i)
    (hx : exec i ((s.spendLine core q).enter x i) = .refused r) : issueOf core q s = .refused r := by
  simp only [issueOf, h.slot, h.act, h.before_word, hd, hx, if_false]

/-- A word that is no instruction traps the active set. -/
theorem issueOf_bad (h : s.Fetches core q x line) {f : DecFault} (hd : decodeWord x.g.decodes (x.wordIn line) = .bad f) :
    issueOf core q s = .next (s.meet core q x (.trap (x.all (decodeFlt f)) false)) := by
  simp only [issueOf, h.slot, h.act, h.before_word, hd, if_false]

end State.Fetches

/-- Settles O55: with nothing before the word, the issue is `exec` of what the word decodes to, and an event's turn is `exec` of it. -/
theorem stepRunsDecoded : Obligations.StepRunsDecoded := by
  refine ⟨?_, fun s i rest ha => ⟨fun t ht => step_next ha ht, fun f hf => step_fault ha hf⟩⟩
  rintro s core q rest x line i e ha slot act wait due deferred unhit entry fetch sound rfl
  have h : State.Fetches { s with agenda := rest } core q x line := ⟨slot, act, wait, due, deferred, unhit, entry, fetch, sound⟩
  refine ⟨fun hd => ⟨fun t ht => ?_, fun f hf => ?_, fun r hr => ?_⟩, fun f hd => ?_⟩
  · exact step_next ha (h.issueOf_next hd ht)
  · exact step_fault ha (h.issueOf_fault hd hf)
  · exact step_refused ha (h.issueOf_refused hd hr)
  · exact step_next ha (h.issueOf_bad hd)

end Sys2Proof.Machine
end

section
set_option Elab.async false
namespace Sys2Proof.Machine

/-! ### An issue in which no guard is true (R39) -/

/-- Every instruction's meaning is what it does with its issue, behind `run`'s test of the guards. -/
theorem exec_eq_run {ins : Instr} {h : Hdr} {d a b c : Opnd} {s : State} {i : Iss} (ho : ins.opnds = some (h, d, a, b, c))
    (hi : s.iss? h = some i) : ∃ k, exec ins s = run s h k := by
  cases ins
  case movsp hd x =>
    cases ho
    simp only [exec, execMovsp, hi]
    exact ⟨_, rfl⟩
  case jget hd x jn =>
    cases ho
    simp only [exec, execJget, hi]
    exact ⟨_, rfl⟩
  case wrsp hd x =>
    cases ho
    simp only [exec, execWrsp]
    split
    · exact ⟨_, rfl⟩
    · exact ⟨_, rfl⟩
  all_goals cases ho <;> exact ⟨_, rfl⟩

theorem State.endStride_stride {s : State} {r : WRef} {w : Warp} (hw : (s.endStride r).warp? r = some w) : w.stride = none := by
  rw [State.endStride_warp?] at hw
  obtain ⟨v, -, rfl⟩ := Option.map_eq_some_iff.1 hw
  rfl

/-- An issue at E leaves its warp without a stride (R38). -/
theorem State.closeIssue_stride {s : State} {i : Iss} {w : Warp} {extra : Nat} {busy : Bool}
    (hw : (s.closeIssue i true extra busy).warp? i.r = some w) : w.stride = none := by
  cases h : s.warp? i.r with
  | none => simp [State.closeIssue, h] at hw
  | some v =>
    simp only [State.closeIssue, h, Bool.true_or, if_true] at hw
    split at hw
    · exact State.endStride_stride hw
    · exact State.endStride_stride hw

theorem exec_guardFalse {ins : Instr} {h : Hdr} {d a b c : Opnd} {s : State} {i : Iss} (ho : ins.opnds = some (h, d, a, b, c))
    (hi : Issues s h i) (hon : i.on = []) : exec ins s = .next ((s.advance i).closeIssue i h.e 0 false) := by
  obtain ⟨k, hk⟩ := exec_eq_run ho hi.1
  rw [hk]
  simp [run, hi.1, hon]

/-- Settles O59: an issue without a true guard ends at `run`'s test, whatever its instruction; a word that decodes to none traps. -/
theorem guardFalseDoesNothing : Obligations.GuardFalseDoesNothing := by
  refine ⟨fun ins h d a b c s i ho hi hon => ⟨_, exec_guardFalse ho hi hon, ?_⟩, ?_⟩
  · have kept := State.advance_closes hi.1 hi.2 h.e 0 false
    refine ⟨kept, fun he => ?_⟩
    obtain ⟨w, hw, -⟩ := kept.warp
    exact ⟨w, hw, State.closeIssue_stride (he ▸ hw)⟩
  · rintro s core q rest x line f ha slot act wait due deferred unhit entry fetch sound hd
    have h : State.Fetches { s with agenda := rest } core q x line := ⟨slot, act, wait, due, deferred, unhit, entry, fetch, sound⟩
    exact step_next ha (h.issueOf_bad hd)

end Sys2Proof.Machine
end

/-!
Accesses on their way: what a state that has sent some differs in from the state before, as one relation that composes, with a rule per
operation; and from it what `Sends` asks of the issue that sent them.
-/
section
set_option Elab.async false
namespace Sys2Proof.Machine

/-- From `s` to `t` accesses were sent on their way and one warp changed by `F`; every access under way is still. -/
structure Departs (s t : State) (r : WRef) (F : Warp → Warp) : Prop where
  gangs : ∀ gid, (t.gang? gid).map Gang.outside = (s.gang? gid).map Gang.outside
  warps : ∀ q, q ≠ r → t.warp? q = s.warp? q
  cores : ∀ c, (t.core c).outside = (s.core c).outside
  warp : t.warp? r = (s.warp? r).map F
  still : t.still = s.still
  flights : s.flights.map Flight.sent <+: t.flights.map Flight.sent
  ids : s.nextId ≤ t.nextId

/-- An access with these properties is on its way, numbered `n` or later. -/
def State.carriesNew (t : State) (n : Nat) (P : Flight → Prop) : Prop := ∃ f ∈ t.flights, n ≤ f.id ∧ P f.sent

theorem State.carriesNew.mono {s t : State} {n k : Nat} {P : Flight → Prop} (h : s.carriesNew k P) (hn : n ≤ k)
    (hp : s.flights.map Flight.sent <+: t.flights.map Flight.sent) : t.carriesNew n P := by
  obtain ⟨f, hf, hk, hP⟩ := h
  obtain ⟨g, hg, e⟩ := List.mem_map.1 (hp.subset (List.mem_map_of_mem (f := Flight.sent) hf))
  have hid : g.sent.id = f.sent.id := by rw [e]
  exact ⟨g, hg, (hn.trans hk).trans_eq hid.symm, e ▸ hP⟩

/-! ### What holds of departures -/

namespace Departs

variable {s t u : State} {r : WRef} {F G : Warp → Warp}

theorem rfl : Departs s s r fun w => w :=
  ⟨fun _ => Eq.refl _, fun _ _ => Eq.refl _, fun _ => Eq.refl _, by simp, Eq.refl _, List.prefix_refl _, Nat.le_refl _⟩

theorem trans (h : Departs s t r F) (k : Departs t u r G) : Departs s u r fun w => G (F w) where
  gangs gid := (k.gangs gid).trans (h.gangs gid)
  warps q hq := (k.warps q hq).trans (h.warps q hq)
  cores c := (k.cores c).trans (h.cores c)
  warp := by rw [k.warp, h.warp, Option.map_map]; exact Eq.refl _
  still := k.still.trans h.still
  flights := h.flights.trans k.flights
  ids := h.ids.trans k.ids

theorem modWarp (hwi : ∀ w, (F w).wi = w.wi) : Departs s (s.modWarp r F) r F where
  gangs := State.modWarp_gang_outside s r F
  warps _ hq := State.warp?_modWarp_ne s F hq hwi
  cores _ := Eq.refl _
  warp := State.warp?_modWarp s r F hwi
  still := Eq.refl _
  flights := List.prefix_refl _
  ids := Nat.le_refl _

/-- A change of flights, numbers, cached translations and copies alone. -/
theorem frame (hg : t.gangs = s.gangs := by first | rfl | assumption) (hc : t.cores = s.cores := by first | rfl | assumption) (hs : t.still = s.still)
    (hf : s.flights.map Flight.sent <+: t.flights.map Flight.sent) (hi : s.nextId ≤ t.nextId) : Departs s t r fun w => w where
  gangs gid := by rw [State.gang?, hg]; exact Eq.refl _
  warps q _ := by rw [State.warp?, State.gang?, hg]; exact Eq.refl _
  cores c := by rw [State.core, hc]; exact Eq.refl _
  warp := by rw [State.warp?, State.gang?, hg]; simp [State.warp?, State.gang?]
  still := hs
  flights := hf
  ids := hi

/-! ### Operations -/

theorem cacheTlb {core world va : Nat} {root : Option Nat} : Departs s (s.cacheTlb core world root va) r fun w => w := by
  unfold State.cacheTlb
  split
  · exact .rfl
  · split
    · exact .rfl
    · exact frame (Eq.refl _) (Eq.refl _) (Eq.refl _) (List.prefix_refl _) (Nat.le_refl _)

/-- What departs in each step of a fold departs in the fold. -/
theorem foldl {α : Type} {f : State → α → State} {E : α → Warp → Warp} (hf : ∀ t a, Departs t (f t a) r (E a)) (l : List α) (s : State) :
    Departs s (l.foldl f s) r fun w => l.foldl (fun w a => E a w) w := by
  induction l generalizing s with
  | nil => exact .rfl
  | cons a l ih => exact (hf s a).trans (ih _)

theorem cacheAll {i : Iss} {p : Spc} {as : List Nat} : Departs s (s.cacheAll i p as) r fun w => w := by
  unfold State.cacheAll
  split
  · have := Departs.foldl (r := r) (fun t a => cacheTlb (s := t) (core := i.w.core) (world := i.g.world) (root := i.g.root) (va := a)) as s
    have same : ∀ w : Warp, as.foldl (fun w _ => w) w = w := fun w => foldl_keeps id _ (fun _ _ => Eq.refl _) as w
    simpa only [same] using this
  · exact .rfl

/-- Copies dropped. -/
theorem dropCopies {p : Copy → Bool} : Departs s { s with copies := s.copies.filter p } r fun w => w :=
  frame (Eq.refl _) (Eq.refl _) (Eq.refl _) (List.prefix_refl _) (Nat.le_refl _)

/-- Flights changed in what `Flight.sent` leaves out. -/
theorem mapFlights {f : Flight → Flight} (hf : ∀ k, (f k).sent = k.sent) : Departs s { s with flights := s.flights.map f } r fun w => w :=
  frame (Eq.refl _) (Eq.refl _) (Eq.refl _) (by rw [map_key_map hf]) (Nat.le_refl _)

theorem forward {id : Nat} : Departs s (s.forward id) r fun w => w := by
  unfold State.forward
  split
  · split
    · split
      · exact mapFlights fun k => by split <;> exact Eq.refl _
      · exact .rfl
    · exact .rfl
  · exact .rfl

theorem intoCopy {id : Nat} {f : Flight} : Departs s (s.intoCopy id f) r fun w => w := by
  unfold State.intoCopy
  split
  · split
    · exact forward
    · exact .rfl
  · exact .rfl

/-- A core changed in what `Core.outside` leaves out. -/
theorem modCore {c : Nat} {f : Core → Core} (hf : ∀ k, (f k).outside = k.outside) : Departs s (s.modCore c f) r fun w => w where
  gangs _ := Eq.refl _
  warps _ _ := Eq.refl _
  cores k := by
    by_cases h : k = c
    · rw [h, State.core_modCore, hf]
    · rw [State.core_modCore_ne _ _ h]
  warp := by simp
  still := Eq.refl _
  flights := List.prefix_refl _
  ids := Nat.le_refl _

theorem grantOst {core n : Nat} : Departs s (s.grantOst core n) r fun w => w := by
  induction n generalizing s with
  | zero => exact .rfl
  | succ n ih =>
    unfold State.grantOst
    split
    · exact .rfl
    · split
      · exact .rfl
      · refine trans (trans (mapFlights fun k => ?_) (modCore fun k => ?_)) ih
        · split <;> exact Eq.refl _
        · exact Eq.refl _

/-- A flight more. -/
theorem addFlight {g : Flight} : Departs s { s with nextId := s.nextId + 1, flights := s.flights ++ [g] } r fun w => w :=
  frame (Eq.refl _) (Eq.refl _) (Eq.refl _) (by simp) (Nat.le_succ _)

theorem launchFlight {g : Flight} : Departs s (s.launchFlight g) r fun w => w :=
  (addFlight.trans intoCopy).trans grantOst

theorem emptyDst {k : Nat} {d : Dst} : Departs s (s.emptyDst r k d) r fun w => w.onDst k d emptyRegs :=
  modWarp fun w => by cases d <;> exact Eq.refl _

end Departs

/-- A launched access is on its way. -/
theorem State.launchFlight_carries {s : State} {g : Flight} {P : Flight → Prop} (h : P { g with id := s.nextId, route := s.routeFor g }.sent) :
    (s.launchFlight g).carriesNew s.nextId P := by
  have added : State.carriesNew { s with nextId := s.nextId + 1, flights := s.flights ++ [{ g with id := s.nextId, route := s.routeFor g }] }
      s.nextId P := ⟨_, List.mem_append_right _ (List.mem_singleton.2 rfl), Nat.le_refl _, h⟩
  exact added.mono (Nat.le_refl _) (Departs.trans (r := (0, 0)) Departs.intoCopy Departs.grantOst).flights

/-- Where each step of a fold sends its access on its way, all of them are after it. -/
theorem Departs.foldl_carries {α : Type} {r : WRef} {f : State → α → State} {E : α → Warp → Warp} (hf : ∀ t a, Departs t (f t a) r (E a))
    {P : α → Flight → Prop} {l : List α} (hc : ∀ t, ∀ a ∈ l, (f t a).carriesNew t.nextId (P a)) {n : Nat} {s : State} (hn : n ≤ s.nextId) :
    ∀ a ∈ l, (l.foldl f s).carriesNew n (P a) := by
  induction l generalizing s with
  | nil => exact fun a ha => nomatch ha
  | cons b l ih =>
    intro a ha
    rcases List.mem_cons.1 ha with rfl | ha
    · exact (hc s a List.mem_cons_self).mono hn (Departs.foldl hf l (f s a)).flights
    · exact ih (fun t a ha => hc t a (List.mem_cons_of_mem _ ha)) (hn.trans (hf s b).ids) a ha

/-! ### The issue that sent them -/

@[simp] theorem State.closeIssue_flights (t : State) (i : Iss) (e : Bool) (extra : Nat) (busy : Bool) :
    (t.closeIssue i e extra busy).flights = t.flights := by
  have h : (t.closeIssue i e extra busy).outside.flights = t.outside.flights := by rw [State.closeIssue_outside]
  exact h

/-- An issue closed behind its departures, as `Sends` has it. -/
theorem Departs.closeIssue_sends {s t : State} {i : Iss} {F : Warp → Warp} {W : Warp} {upd : Thread → Thread} (h : Departs s t i.r F)
    (hw : s.warp? i.r = some i.w) (ho : (F i.w).outside = W.outside) (hs : (F i.w).s = W.s)
    (hth : ∀ th ∈ i.w.threads, (F i.w).thread? th.t = some (upd th)) (e : Bool) (extra : Nat) (busy : Bool) :
    Sends s (t.closeIssue i e extra busy) i W upd where
  toLeaves := State.closeIssue_leaves ⟨h.gangs, h.warps, h.cores, F i.w, by rw [h.warp, hw]; rfl, ho, hs, hth⟩ e extra busy
  still := by rw [State.still, State.closeIssue_outside]; exact h.still
  flights := by rw [State.closeIssue_flights]; exact h.flights

/-- A flight of a thread of the issue with these properties. -/
def Iss.sentBy (i : Iss) (th : Thread) (P : Flight → Prop) (f : Flight) : Prop := f.gid = i.r.1 ∧ f.wi = i.r.2 ∧ f.t = th.t ∧ P f

/-- Where each step of a fold over threads of the issue sends an access, their accesses are on their way once the issue is closed. -/
theorem Departs.foldl_flies {s u : State} {i : Iss} {f : State → Thread → State} {E : Thread → Warp → Warp} {P : Thread → Flight → Prop}
    {l : List Thread} (hf : ∀ t th, Departs t (f t th) i.r (E th))
    (hc : ∀ t, ∀ th ∈ l, (f t th).carriesNew t.nextId (i.sentBy th (P th))) (hn : s.nextId ≤ u.nextId) (e : Bool) (extra : Nat) (busy : Bool)
    (hP : ∀ th k, P th k.sent → P th k := by exact fun _ _ h => h) :
    ∀ th ∈ l, i.flies s ((l.foldl f u).closeIssue i e extra busy) th (P th) := by
  intro th hth
  obtain ⟨k, hk, hid, hg, hw, ht, hp⟩ := Departs.foldl_carries hf hc hn th hth
  exact ⟨k, (State.closeIssue_flights ..).symm ▸ hk, hid, hg, hw, ht, hP th k hp⟩

/-- An issue that changed nothing but its own warp sent nothing. -/
theorem Keeps.sends {s t : State} {i : Iss} {W : Warp} {upd : Thread → Thread} (h : Keeps s t i W upd) : Sends s t i W upd where
  toLeaves := h.toLeaves
  still := by rw [State.still, h.outside]; rfl
  flights := by
    have kept : t.outside.flights = s.outside.flights := by rw [h.outside]
    rw [show t.flights = s.flights from kept]

/-! ### Destinations that empty -/

/-- A destination of `n` registers emptied for a thread. -/
def Warp.vacate (w : Warp) (t : Nat) (d : Opnd) (n : Nat) : Warp :=
  match opDst d n with
  | some dst => w.onDst t dst emptyRegs
  | none => w

@[simp] theorem Warp.vacate_outside (w : Warp) (t : Nat) (d : Opnd) (n : Nat) : (w.vacate t d n).outside = w.outside := by cases d <;> rfl

theorem Thread.vacate_t (th : Thread) (d : Opnd) (n : Nat) : (th.vacate d n).t = th.t := by cases d <;> rfl

theorem Warp.vacate_threads (w : Warp) (t : Nat) (d : Opnd) (n : Nat) :
    (w.vacate t d n).threads = (w.modThread t fun th => th.vacate d n).threads := by
  cases d <;> simp [Warp.vacate, opDst, Warp.onDst, Thread.vacate, Warp.modThread]

/-- Of the threads, emptying destinations changes what `Thread.vacate` says. -/
theorem Warp.foldl_vacate_thread? (who : List Thread) (d : Opnd) (n : Nat) (w : Warp) (k : Nat) :
    (who.foldl (fun w th => w.vacate th.t d n) w).thread? k = (who.foldl (fun w th => w.modThread th.t fun u => u.vacate d n) w).thread? k := by
  have same : ∀ (l : List Thread) (v v' : Warp), v.threads = v'.threads →
      (l.foldl (fun w th => w.vacate th.t d n) v).threads = (l.foldl (fun w th => w.modThread th.t fun u => u.vacate d n) v').threads := by
    intro l
    induction l with
    | nil => exact fun _ _ e => e
    | cons a l ih => exact fun v v' e => ih _ _ (by rw [Warp.vacate_threads]; simp only [Warp.modThread, e])
  unfold Warp.thread?
  rw [same who w w rfl]

/-- The scalar registers after the destinations of an issue's writers have emptied: at most one writer has one. -/
theorem Iss.foldl_vacate_s (i : Iss) (d : Opnd) (n : Nat) {w : Warp} (hs : w.s = i.w.s) :
    ((i.writers d).foldl (fun w th => w.vacate th.t d n) w).s = (i.vacated d n).s := by
  cases d
  case s k wt =>
    simp only [Iss.vacated, Iss.writers, Opnd.cls, if_true]
    cases i.on with
    | nil => exact hs
    | cons th r => simp [Warp.vacate, opDst, Warp.onDst, hs]
  all_goals exact (foldl_keeps Warp.s (fun (w : Warp) (th : Thread) => w.vacate th.t _ n) (fun _ _ => rfl) _ w).trans hs

theorem Iss.vacated_outside (i : Iss) (d : Opnd) (n : Nat) : (i.vacated d n).outside = i.w.outside := by
  unfold Iss.vacated
  split <;> rfl

/-- The threads of an issue after its writers' destinations have emptied. -/
theorem Iss.foldl_vacate_threads {s : State} {h : Hdr} {i : Iss} (hi : Issues s h i) (d : Opnd) (n : Nat) {w : Warp} {B : Thread → Thread}
    (hB : ∀ th ∈ i.w.threads, w.thread? th.t = some (B th)) {th : Thread} (hm : th ∈ i.w.threads) :
    ((i.writers d).foldl (fun w th => w.vacate th.t d n) w).thread? th.t =
      some (if th ∈ i.writers d then (B th).vacate d n else B th) := by
  have hnum := mem_of_number hi.2 (k := i.writers d)
    (fun u hu => Iss.mem_threads_of_act hi.1 (Iss.mem_act_of_on hi.1 (Iss.writers_on hu))) hm
  rw [Warp.foldl_vacate_thread?, Warp.foldl_modThread _ (fun _ u => u.vacate d n) (fun _ u => u.vacate_t d n)
    (Iss.writers_nodup hi.1 hi.2 d), hB th hm, Option.map_some]
  by_cases hw : th ∈ i.writers d
  · rw [find?_thread (Iss.writers_nodup hi.1 hi.2 d) hw, if_pos hw]
  · have hnone : (i.writers d).find? (fun u => u.t = th.t) = none := by
      rw [List.find?_eq_none]
      exact fun u hu e => hw (hnum.1 (List.mem_map.2 ⟨u, hu, by simpa using e⟩))
    rw [hnone, if_neg hw]

end Sys2Proof.Machine
end

section
set_option Elab.async false
namespace Sys2Proof.Machine

/-! ### Results on their way -/

/-- The active set advanced and $pwerr set, as one change of the warp. -/
theorem State.advance_noteOver (s : State) (i : Iss) (past : BitVec 8) :
    (s.advance i).noteOver i past = s.modWarp i.r (i.base s.tick past) := by
  simp only [State.noteOver, State.advance, State.modThreads]
  rw [State.modWarp_modWarp _ _ _ _ (by intro w; rfl)]
  congr 1
  funext w
  simp only [Iss.base, Warp.mapThreads, List.map_map]
  congr 1
  apply List.map_congr_left
  intro th _
  cases hts : i.ts.contains th.t <;> simp only [Function.comp, hts, if_true, if_false, Bool.false_eq_true]

namespace Departs

variable {s : State}

theorem advance_noteOver {i : Iss} {past : BitVec 8} : Departs s ((s.advance i).noteOver i past) i.r (i.base s.tick past) := by
  rw [State.advance_noteOver]
  exact modWarp fun _ => Eq.refl _

theorem later {i : Iss} {th : Thread} {d : Opnd} {n v : Nat} : Departs s (s.later i th d n v) i.r fun w => w.vacate th.t d n := by
  unfold State.later Warp.vacate
  cases opDst d n with
  | none => exact .rfl
  | some dst => exact trans addFlight emptyDst

end Departs

/-- A result sent to a destination is on its way. -/
theorem State.later_carries {s : State} {i : Iss} {th : Thread} {d : Opnd} {n v : Nat} {dst : Dst} (hd : opDst d n = some dst) {P : Flight → Prop}
    (hP : ∀ id now, P { i.flight now th (.value v) .reg (4 * n) with id := id, dst := some dst }.sent) :
    (s.later i th d n v).carriesNew s.nextId P := by
  simp only [State.later, hd]
  exact ⟨_, List.mem_append_right _ (List.mem_singleton.2 rfl), Nat.le_refl _, hP _ _⟩

theorem opDst_some {d : Opnd} (h : d.cls = .m ∨ d.cls = .s) (n : Nat) : ∃ dst, opDst d n = some dst := by
  cases d
  case m => exact ⟨_, rfl⟩
  case s => exact ⟨_, rfl⟩
  all_goals exact absurd h (by simp [Opnd.cls])

/-- The threads of an issue whose results are on their way. -/
theorem Iss.base_vacate_thread? {s : State} {h : Hdr} {i : Iss} (hi : Issues s h i) (d : Opnd) (n : Nat) (past : BitVec 8) {th : Thread}
    (hm : th ∈ i.w.threads) : ((i.writers d).foldl (fun w th => w.vacate th.t d n) (i.base s.tick past i.w)).thread? th.t =
      some (i.owed s.tick d n past th) :=
  Iss.foldl_vacate_threads hi d n (fun _ hu => Iss.base_thread hi.1 hi.2 past hu) hm

theorem Iss.vacated_of_none {i : Iss} (hon : i.on = []) (d : Opnd) (n : Nat) : i.vacated d n = i.w := by
  unfold Iss.vacated
  split
  · next e => simp [Iss.writers, hon] at e
  · rfl

theorem Iss.owed_of_none {i : Iss} (hon : i.on = []) (tick : Nat) (d : Opnd) (n : Nat) (past : BitVec 8) : i.owed tick d n past = i.moved tick := by
  funext th
  simp [Iss.owed, Iss.writers, hon]

/-- What holds of the writers of an issue holds where no guard is true. -/
theorem Iss.writers_of_none {i : Iss} (hon : i.on = []) {d : Opnd} {P : Thread → Prop} : ∀ th ∈ i.writers d, P th := by
  simp [Iss.writers, hon]

theorem foldl_outside_vacate (l : List Thread) (d : Opnd) (n : Nat) (w : Warp) : (l.foldl (fun w th => w.vacate th.t d n) w).outside = w.outside :=
  foldl_keeps Warp.outside _ (fun w th => w.vacate_outside th.t d n) l w

/-- Long-latency arithmetic completes at once, its results on their way (R28). -/
theorem State.longArith_sends {s : State} {h : Hdr} {i : Iss} (hi : Issues s h i) (x : VOps) (t : Ty) (f : Nat → Nat → Nat)
    (hd : x.d.cls = .m ∨ x.d.cls = .s)
    (hr : ∀ th ∈ i.writers x.d, i.ready s [⟨x.a, t.words⟩, ⟨x.b, t.words⟩] [⟨x.d, t.words⟩] false x.imm th) :
    ∃ u, s.longArith h x t f = .next u ∧
      Sends s u i (i.vacated x.d t.words) (i.owed s.tick x.d t.words (s.windowOver i.g i.w [⟨x.a, t.words⟩, ⟨x.b, t.words⟩] x.imm)) ∧
      ∀ th ∈ i.writers x.d, i.flies s u th fun k => k.act = .value (f (i.arg s x.imm x.a t.words th) (i.arg s x.imm x.b t.words th)) ∧
        k.dst = opDst x.d t.words ∧ k.len = 4 * t.words ∧ k.place = .reg := by
  obtain ⟨dst, hdst⟩ := opDst_some hd t.words
  by_cases hon : i.on = []
  · obtain ⟨u, hu, hk⟩ := run_guardFalse hi.1 hi.2 hon _
    refine ⟨u, hu, ?_, Iss.writers_of_none hon⟩
    rw [Iss.vacated_of_none hon, Iss.owed_of_none hon]
    exact hk.sends
  · obtain ⟨-, -, hw, -, -, -⟩ := State.iss?_some hi.1
    have hgate := State.gate_go (chk := fun _ => none) hr fun _ _ => rfl
    unfold State.longArith run
    simp only [hi.1, hon, if_false, show (if x.d.cls = .s then i.on.take 1 else i.on) = i.writers x.d from rfl, hgate, State.through]
    refine ⟨_, rfl, Departs.closeIssue_sends (Departs.advance_noteOver.trans
        (Departs.foldl (E := fun th w => w.vacate th.t x.d t.words) (fun _ _ => Departs.later) _ _)) hw ?_ ?_ ?_ h.e 0 false,
      Departs.foldl_flies (E := fun th w => w.vacate th.t x.d t.words) (fun _ _ => Departs.later) (fun _ _ _ => ?_)
        Departs.advance_noteOver.ids h.e 0 false⟩
    · rw [foldl_outside_vacate, Iss.vacated_outside]
      rfl
    · exact i.foldl_vacate_s x.d t.words rfl
    · exact fun th hm => Iss.base_vacate_thread? hi x.d t.words _ hm
    · exact State.later_carries hdst fun _ _ => ⟨rfl, rfl, rfl, rfl, hdst.symm, rfl, rfl⟩

/-! ### Quotients and remainders (R93) -/

theorem lowN_of_lt {w v : Nat} (h : v < 2 ^ w) : lowN w v = v := Nat.mod_eq_of_lt h

theorem words_pos (t : Ty) : 0 < t.words := by cases t <;> exact Nat.succ_pos _

theorem quotRem_eq {t : Ty} {a b : Nat} (ha : a < 2 ^ tyBits t) : quotRem t a b =
    if numOf t b = 0 then (2 ^ tyBits t - 1, a)
    else if tySigned t ∧ numOf t a = -2 ^ (tyBits t - 1) ∧ numOf t b = -1 then (a, 0)
    else (wrapN (tyBits t) ((numOf t a).tdiv (numOf t b)), wrapN (tyBits t) ((numOf t a).tmod (numOf t b))) := by
  simp only [quotRem, lowN_of_lt ha, Int.tmod_def, Nat.cast_pow, Nat.cast_ofNat, mul_comm (numOf t b)]

/-- Settles O12: a division is long-latency arithmetic, its values those of `quotRem`. -/
theorem divisionsDepart : Obligations.DivisionsDepart := by
  intro h x t s i hi hint hd w hr sends a num b least
  have bound (th : Thread) : i.arg s x.imm x.a t.words th < 2 ^ tyBits t := Iss.arg_lt i s x.imm x.a (words_pos t) th
  constructor
  · obtain ⟨u, hu, hs, hf⟩ := State.longArith_sends hi x t (fun a b => (quotRem t a b).1) hd hr
    refine ⟨u, hu, hs, fun th hth => ?_⟩
    have := hf th hth
    simp only [quotRem_eq (bound th), apply_ite Prod.fst] at this
    exact this
  · obtain ⟨u, hu, hs, hf⟩ := State.longArith_sends hi x t (fun a b => (quotRem t a b).2) hd hr
    refine ⟨u, hu, hs, fun th hth => ?_⟩
    have := hf th hth
    simp only [quotRem_eq (bound th), apply_ite Prod.snd] at this
    exact this

end Sys2Proof.Machine
end

section
set_option Elab.async false
namespace Sys2Proof.Machine

/-! ### Registers behind a write -/

theorem nth_putRegs_lt (rs : List Reg) (ws : List Word) {i k : Nat} (h : k < i) : nth (putRegs rs i ws) k {} = nth rs k {} := by
  induction ws generalizing rs i with
  | nil => rfl
  | cons v r ih => rw [putRegs, ih _ (by omega), nth_modAt, if_neg (by omega)]

/-- A register of the range written holds its word, full and unpoisoned. -/
theorem nth_putRegs (rs : List Reg) (ws : List Word) {i j : Nat} (hi : i + ws.length ≤ rs.length) (hj : j < ws.length) :
    nth (putRegs rs i ws) (i + j) {} = { v := nth ws j 0 } := by
  induction ws generalizing rs i j with
  | nil => exact absurd hj (Nat.not_lt_zero j)
  | cons v r ih =>
    simp only [List.length_cons] at hi hj
    cases j with
    | zero =>
      simp only [Nat.add_zero]
      rw [putRegs, nth_putRegs_lt _ _ (Nat.lt_succ_self i), nth_modAt, if_pos ⟨rfl, by omega⟩]
      rfl
    | succ j =>
      rw [putRegs, ← Nat.add_assoc, Nat.add_right_comm, ih _ (by simpa using by omega) (by omega)]
      rfl

theorem nth_poisonRegs_lt (rs : List Reg) (n : Nat) (p : Poison) {i k : Nat} (h : k < i) :
    nth (poisonRegs rs i n p) k {} = nth rs k {} := by
  induction n generalizing rs i with
  | zero => rfl
  | succ n ih => rw [poisonRegs, ih _ (by omega), nth_modAt, if_neg (by omega)]

/-- A register of the range poisoned is. -/
theorem nth_poisonRegs_bad (rs : List Reg) (p : Poison) {i j n : Nat} (hi : i + n ≤ rs.length) (hj : j < n) :
    (nth (poisonRegs rs i n p) (i + j) {}).bad = some p := by
  induction n generalizing rs i j with
  | zero => exact absurd hj (Nat.not_lt_zero j)
  | succ n ih =>
    cases j with
    | zero =>
      simp only [Nat.add_zero]
      rw [poisonRegs, nth_poisonRegs_lt _ _ _ (Nat.lt_succ_self i), nth_modAt, if_pos ⟨rfl, by omega⟩]
    | succ j => rw [poisonRegs, ← Nat.add_assoc, Nat.add_right_comm, ih _ (by simpa using by omega) (by omega)]

@[simp] theorem natWords_length (n v : Nat) : (natWords n v).length = n := by
  induction n generalizing v with
  | zero => rfl
  | succ n ih => simp [natWords, ih]

/-! ### A destination filled -/

@[simp] theorem State.wakeCause_outside (s : State) (r : WRef) (bit : Nat) : (s.wakeCause r bit).outside = s.outside := by
  unfold State.wakeCause
  split <;> rfl

theorem State.wakeCause_warp? (s : State) (r q : WRef) (bit : Nat) : (s.wakeCause r bit).warp? q = s.warp? q := by
  unfold State.wakeCause
  split <;> rfl

@[simp] theorem State.filled_outside (s : State) (r : WRef) (t : Nat) (d : Dst) (f : List Reg → Nat → Nat → List Reg) :
    (s.filled r t d f).outside = s.outside := by
  unfold State.filled
  split
  · rfl
  · dsimp only
    split
    · rw [State.wakeCause_outside]; rfl
    · rfl

/-- A warp whose destination is filled: besides it change its threads that waited for it, and what the scheduler keeps. -/
theorem State.filled_warp? {s : State} {r : WRef} {w : Warp} (hw : s.warp? r = some w) (t : Nat) (d : Dst) (f : List Reg → Nat → Nat → List Reg) :
    ∃ a b, (s.filled r t d f).warp? r = some { (w.onDst t d f).refilled with demoted := a, spinBusy := b } := by
  have changed (a b : Warp → Bool) : (s.modWarp r fun w => { (w.onDst t d f).refilled with demoted := a w, spinBusy := b w }).warp? r =
      some { (w.onDst t d f).refilled with demoted := a w, spinBusy := b w } := by
    rw [State.warp?_modWarp _ _ _ fun w => by cases d <;> rfl, hw]
    rfl
  unfold State.filled
  simp only [hw]
  split
  · exact ⟨_, _, by rw [State.wakeCause_warp?]; exact changed (fun w => w.demoted && _) fun w => w.spinBusy || _⟩
  · exact ⟨_, _, changed (fun w => w.demoted && _) fun w => w.spinBusy || _⟩

/-- A thread of a refilled warp: its registers are as they were. -/
theorem Warp.refilled_thread? (w : Warp) (t : Nat) : ∃ f : Thread → Thread, w.refilled.thread? t = (w.thread? t).map f ∧
    ∀ th, (f th).m = th.m ∧ (f th).exited = th.exited := by
  refine ⟨_, Warp.thread?_mapThreads w t _ fun th => ?_, fun th => ?_⟩
  · split
    · split <;> rfl
    · rfl
  · split
    · split <;> exact ⟨rfl, rfl⟩
    · exact ⟨rfl, rfl⟩

/-- The thread of a destination in m, filled. -/
theorem Warp.refilled_onDst_m {w : Warp} {t : Nat} {th : Thread} (h : w.thread? t = some th) (k n : Nat) (g : List Reg → Nat → Nat → List Reg) :
    ∃ u, (w.onDst t (.m k n) g).refilled.thread? t = some u ∧ u.m = g th.m k n := by
  obtain ⟨f, hf, hk⟩ := (w.onDst t (.m k n) g).refilled_thread? t
  rw [hf, Warp.onDst, Warp.thread?_modThread _ _ _ (by intro u; rfl), h]
  exact ⟨_, rfl, (hk _).1⟩

/-- A warp with a thread that runs on has one when a destination has been filled. -/
theorem Warp.refilled_onDst_runs {w : Warp} (h : ∃ th ∈ w.threads, th.exited = false) (t : Nat) (d : Dst) (g : List Reg → Nat → Nat → List Reg) :
    ∃ th ∈ (w.onDst t d g).refilled.threads, th.exited = false := by
  have kept : (w.onDst t d g).refilled.threads.map Thread.exited = w.threads.map Thread.exited := by
    refine (map_key_map (fun th => ?_) _).trans ?_
    · split
      · split <;> rfl
      · rfl
    · cases d
      case m k n =>
        refine map_key_ite (fun th => th.t = t) (fun th => ?_) w.threads
        rfl
      case s => rfl
  obtain ⟨th, hm, he⟩ := h
  obtain ⟨u, hu, e⟩ := List.mem_map.1 (kept ▸ List.mem_map_of_mem (f := Thread.exited) hm)
  exact ⟨u, hu, e.trans he⟩

/-- A gang with a thread that runs on is not reaped. -/
theorem State.reap_of_runs {s : State} {gid wi : Nat} {w : Warp} (hw : s.warp? (gid, wi) = some w) (h : ∃ th ∈ w.threads, th.exited = false) :
    s.reap gid = s := by
  obtain ⟨g, hg, hwg⟩ := Option.bind_eq_some_iff.1 (show (s.gang? gid).bind (fun g => g.warp? wi) = some w from hw)
  obtain ⟨th, hm, he⟩ := h
  have runs : g.warps.all (fun w => w.threads.all fun th => th.exited) = false := by
    rw [List.all_eq_false]
    refine ⟨w, List.mem_of_find?_eq_some hwg, ?_⟩
    simpa using ⟨th, hm, he⟩
  simp [State.reap, hg, runs]

/-- Words of a destination, one for each of its registers. -/
def Dst.count : Dst → Nat
  | .m _ n => n
  | .s _ n => n

/-- A result that arrives fills its destination, and its gang stays. -/
theorem State.fill_holds {s : State} {gid wi t : Nat} {d : Dst} {w : Warp} (hw : s.warp? (gid, wi) = some w) (hd : w.hasDst t d)
    (hl : ∃ th ∈ w.threads, th.exited = false) {ws : List Word} (hn : ws.length = Dst.count d) :
    ∃ w', ((s.fill (gid, wi) t d ws).reap gid).warp? (gid, wi) = some w' ∧ w'.holds t d ws ∧
      ((s.fill (gid, wi) t d ws).reap gid).outside = s.outside := by
  have open_ : s.fill (gid, wi) t d ws = s.filled (gid, wi) t d fun rs i _ => putRegs rs i ws := by
    cases d
    case m k n =>
      obtain ⟨th, ht, he, -⟩ := hd
      simp [State.fill, hw, ht, he]
    case s => simp [State.fill]
  obtain ⟨a, b, hf⟩ := State.filled_warp? hw t d fun rs i _ => putRegs rs i ws
  rw [open_, State.reap_of_runs hf (Warp.refilled_onDst_runs hl t d _)]
  refine ⟨_, hf, ?_, State.filled_outside ..⟩
  cases d
  case m k n =>
    obtain ⟨th, ht, -, hk⟩ := hd
    obtain ⟨u, hu, hm⟩ := Warp.refilled_onDst_m ht k n fun rs i _ => putRegs rs i ws
    exact ⟨u, hu, fun j hj => by rw [hm]; exact nth_putRegs _ _ (by rw [hn]; exact hk) hj⟩
  case s k n => exact fun j hj => nth_putRegs _ _ (by rw [hn]; exact hd) hj

/-- A destination that fills poisoned. -/
theorem State.fillBad_poisons {s : State} {gid wi t : Nat} {d : Dst} {w : Warp} (hw : s.warp? (gid, wi) = some w) (hd : w.hasDst t d)
    (hl : ∃ th ∈ w.threads, th.exited = false) (p : Poison) :
    ∃ w', ((s.fillBad (gid, wi) t d p).reap gid).warp? (gid, wi) = some w' ∧
      (match d with
        | .m k n => ∃ u, w'.thread? t = some u ∧ ∀ j < n, (nth u.m (k + j) {}).bad = some p
        | .s k n => ∀ j < n, (nth w'.s (k + j) {}).bad = some p) ∧
      ((s.fillBad (gid, wi) t d p).reap gid).outside = s.outside := by
  obtain ⟨a, b, hf⟩ := State.filled_warp? hw t d fun rs i n => poisonRegs rs i n p
  rw [State.fillBad, State.reap_of_runs hf (Warp.refilled_onDst_runs hl t d _)]
  refine ⟨_, hf, ?_, State.filled_outside ..⟩
  cases d
  case m k n =>
    obtain ⟨th, ht, -, hk⟩ := hd
    obtain ⟨u, hu, hm⟩ := Warp.refilled_onDst_m ht k n fun rs i n => poisonRegs rs i n p
    exact ⟨u, hu, fun j hj => by rw [hm]; exact nth_poisonRegs_bad _ _ hk hj⟩
  case s k n => exact fun j hj => nth_poisonRegs_bad _ _ hd hj

end Sys2Proof.Machine
end

section
set_option Elab.async false
namespace Sys2Proof.Machine

/-! ### What a load reads -/

/-- Two's complement of `w` bits (R82) is a bit vector's. -/
theorem signedN_eq_toInt (w v : Nat) : signedN w v = (BitVec.ofNat w v).toInt := by
  simp only [signedN, BitVec.toInt, BitVec.toNat_ofNat]
  cases w with
  | zero => simp [Nat.mod_one]
  | succ w =>
    have : 2 ^ (w + 1) = 2 * 2 ^ w := by rw [Nat.pow_succ, Nat.mul_comm]
    simp only [Nat.add_sub_cancel]
    split <;> split <;> omega

/-- The number a load extends to (R107) is a bit vector's sign extension. -/
theorem extend_eq (signed : Bool) (len v : Nat) :
    extend signed len v = if signed then ((BitVec.ofNat (8 * len) v).signExtend 32).toNat else v := by
  cases signed with
  | false => rfl
  | true => simp only [extend, if_true, BitVec.signExtend, BitVec.toNat_ofInt, wrapN, signedN_eq_toInt]

theorem leNat_replicate_zero (n : Nat) : leNat (List.replicate n 0) = 0 := by
  induction n with
  | zero => rfl
  | succ n ih => rw [List.replicate_succ, leNat, ih]; rfl

theorem Flight.span_zero (f : Flight) : f.span 0 = (0, f.len) := by
  by_cases h : f.len = 16 <;> simp [Flight.span, h]

/-- A sample has a byte for each it was asked for, or none at all. -/
theorem State.sample_length (s : State) (f : Flight) (off n : Nat) : (s.sample f off n).length = n ∨ s.sample f off n = [] := by
  unfold State.sample
  split
  · exact .inl (by simp)
  · split
    · exact .inl (by simp)
    · exact .inl (by simp)
  · exact .inr rfl

/-- The bytes of a load taken at once are its sample. -/
theorem State.leNat_partBytes_zero (s : State) (f : Flight) : leNat (s.partBytes f 0) = leNat (s.sample f 0 f.len) := by
  have whole : s.partBytes f 0 = (List.range f.len).map fun k => nth (s.sample f 0 f.len) k 0 := by
    simp only [State.partBytes, Flight.span_zero]
    refine List.map_congr_left fun k hk => ?_
    rw [if_pos ⟨Nat.zero_le k, by simpa using List.mem_range.1 hk⟩, Nat.sub_zero]
  rw [whole]
  rcases s.sample_length f 0 f.len with h | h
  · congr 1
    refine List.ext_getElem (by simp [h]) fun k h1 h2 => ?_
    simp [nth, h2]
  · rw [h, show (fun k => nth ([] : List Byte) k 0) = fun _ => 0 from funext fun k => by simp [nth], List.map_const', List.length_range,
      leNat_replicate_zero]
    rfl

/-! ### A load that takes its value -/

/-- What looking at memory may change: which accesses have been seen, and copies and veils. -/
structure Looks (s t : State) : Prop where
  mem : t.mem = s.mem
  flights : t.flights.map Flight.sent = s.flights.map Flight.sent
  warps : ∀ r, t.warp? r = s.warp? r

/-- The state once a load has taken its bytes, before its destination fills. -/
def State.sampled (s : State) (f : Flight) : State :=
  match f.place with
  | .phys pa => if f.observed then (s.bareGl pa f.len).freshen pa f.die else (s.markSeen f).fetchCopy f
  | .pad gc o => if f.observed then s.modGang f.gid fun g => g.bare gc o f.len else s
  | .reg => s

theorem State.mem_of_outside {s t : State} (h : t.outside = s.outside) : t.mem = s.mem := by
  have e : t.outside.mem = s.outside.mem := by rw [h]
  exact e

theorem State.flights_of_outside {s t : State} (h : t.outside = s.outside) : t.flights = s.flights := by
  have e : t.outside.flights = s.outside.flights := by rw [h]
  exact e

theorem State.freshen_looks (s : State) (pa die : Nat) : Looks s (s.freshen pa die) := by
  unfold State.freshen State.refreshCopy
  split <;> exact ⟨rfl, rfl, fun _ => rfl⟩

theorem State.fetchCopy_looks (s : State) (f : Flight) : Looks s (s.fetchCopy f) := by
  unfold State.fetchCopy
  split
  · split <;> exact ⟨rfl, rfl, fun _ => rfl⟩
  · exact ⟨rfl, rfl, fun _ => rfl⟩

theorem State.markSeen_flights (s : State) (f : Flight) : (s.markSeen f).flights.map Flight.sent = s.flights.map Flight.sent :=
  map_key_map (fun k => by split <;> rfl) s.flights

theorem State.warp?_modGang_bare (s : State) (gid gc o n : Nat) (r : WRef) : (s.modGang gid fun g => g.bare gc o n).warp? r = s.warp? r := by
  unfold State.warp?
  by_cases h : r.1 = gid
  · rw [h, State.gang?_modGang _ _ _ (by intro g; rfl), Option.bind_map]
    rfl
  · rw [State.gang?_modGang_ne _ _ h (by intro g; rfl)]

theorem State.sampled_looks (s : State) (f : Flight) : Looks s (s.sampled f) := by
  unfold State.sampled
  cases f.place with
  | phys pa =>
    dsimp only
    split
    · have h := State.freshen_looks (s.bareGl pa f.len) pa f.die
      exact ⟨h.mem, h.flights, h.warps⟩
    · have h := State.fetchCopy_looks (s.markSeen f) f
      exact ⟨h.mem, h.flights.trans (s.markSeen_flights f), h.warps⟩
  | pad gc o =>
    dsimp only
    split
    · exact ⟨rfl, rfl, State.warp?_modGang_bare s _ _ _ _⟩
    · exact ⟨rfl, rfl, fun _ => rfl⟩
  | reg => exact ⟨rfl, rfl, fun _ => rfl⟩

theorem State.dropFlight_sent {s t : State} (h : t.flights.map Flight.sent = s.flights.map Flight.sent) (id : Nat) :
    (t.dropFlight id).flights.map Flight.sent = (s.flights.filter fun k => k.id ≠ id).map Flight.sent := by
  have commutes (l : List Flight) : (l.filter fun k => k.id ≠ id).map Flight.sent = (l.map Flight.sent).filter fun k => k.id ≠ id :=
    (List.filter_map (f := Flight.sent) (p := fun k => decide (k.id ≠ id))).symm
  rw [State.dropFlight, commutes, h, commutes]

/-- All of a load taken at once completes it. -/
theorem Flight.done_whole {f : Flight} (h : f.done ≤ f.parts) : f.done ||| (if f.len = 16 then 3 else 1) = f.parts := by
  unfold Flight.parts at *
  by_cases hl : f.len = 16
  · simp only [hl, if_true] at *
    interval_cases f.done <;> rfl
  · simp only [hl, if_false] at *
    interval_cases f.done <;> rfl

/-- A load that takes all its bytes is over, its destination filled. -/
theorem State.fillLoad_whole {s : State} {f : Flight} {d : Dst} (hm : s.maySample f = true) (hd : f.dst = some d) (hf : f.done ≤ f.parts)
    (sg : Bool) : s.fillLoad f sg 0 =
      if s.sampleBad f then ((s.sampled f).dropFlight f.id).fillBad (f.gid, f.wi) f.t d .ecc
      else ((s.sampled f).dropFlight f.id).fill (f.gid, f.wi) f.t d
        (natWords ((f.len + 3) / 4) (extend sg f.len (leNat (s.sample f 0 f.len)))) := by
  have hw := Flight.done_whole hf
  simp only [State.fillLoad, hm, Bool.not_true, Bool.false_eq_true, if_false, if_true, hw, true_or, hd, s.leNat_partBytes_zero]
  rfl

/-- Settles O15: a fill is the fill of its destination, and a load's value its sample. -/
theorem fillsDeliver : Obligations.FillsDeliver := by
  intro s id f d w hf hd hw hdst hruns hrel n fills
  have hid : f.id = id := by simpa using List.find?_some (show s.flights.find? (fun k => k.id = id) = some f from hf)
  refine ⟨fun v ha hl => ?_, fun sg ha hdone hl hm => ?_⟩
  · obtain ⟨w', hw', hh, ho⟩ := State.fill_holds (s := s.dropFlight id) hw hdst hruns (ws := natWords n v) (natWords_length n v)
    refine ⟨_, w', ?_, (State.mem_of_outside ho).trans rfl, ?_, hw', hh⟩
    · simp [exec, execRegisterFill, hf, ha, hd, hw, hrel, hl]
    · rw [State.flights_of_outside ho]
      rfl
  · have looks := s.sampled_looks f
    have hw1 : ((s.sampled f).dropFlight id).warp? (f.gid, f.wi) = some w := (looks.warps _).trans hw
    have whole := State.fillLoad_whole hm hd hdone sg
    rw [hid] at whole
    refine ⟨fun hb => ?_, fun hb => ?_⟩
    · obtain ⟨w', hw', hh, ho⟩ := State.fill_holds hw1 hdst hruns (natWords_length n _)
      refine ⟨_, w', ?_, (State.mem_of_outside ho).trans looks.mem, ?_, hw', hh⟩
      · simp [exec, execRegisterFill, hf, ha, hd, whole, hl, hb, extend_eq]
      · rw [State.flights_of_outside ho]
        exact State.dropFlight_sent looks.flights id
    · obtain ⟨w', hw', hh, ho⟩ := State.fillBad_poisons hw1 hdst hruns .ecc
      refine ⟨_, w', ?_, (State.mem_of_outside ho).trans looks.mem, ?_, hw', ?_⟩
      · simp [exec, execRegisterFill, hf, ha, hd, whole, hb]
      · rw [State.flights_of_outside ho]
        exact State.dropFlight_sent looks.flights id
      · cases d <;> exact hh

end Sys2Proof.Machine
end

/-!
The return from a handler (R315): the issue's threads put back to wait, the return once every thread of AMASK waits, and the completion of
an issue in which some threads wait.
-/
section
set_option Elab.async false
namespace Sys2Proof.Machine

/-! ### Threads put back to wait -/

/-- The same change of several threads, one after another, is one change of the warp. -/
theorem Warp.foldl_modThread_same {f : Thread → Thread} (ht : ∀ u, (f u).t = u.t) (hf : ∀ u, f (f u) = f u) (ts : List Nat) (w : Warp) :
    ts.foldl (fun w t => w.modThread t f) w = w.mapThreads fun u => if ts.contains u.t then f u else u := by
  induction ts generalizing w with
  | nil => simp [Warp.mapThreads]
  | cons t ts ih =>
    rw [List.foldl_cons, ih]
    simp only [Warp.modThread, Warp.mapThreads, List.map_map]
    congr 1
    refine List.map_congr_left fun u _ => ?_
    by_cases h : u.t = t
    · by_cases hc : t ∈ ts <;> simp [h, ht, hf, hc]
    · simp [h]

/-- A thread of an issue whose guard-true threads are put back to wait `wt`. -/
def Iss.awaits (i : Iss) (tick : Nat) (wt : Wait) (th : Thread) : Thread :=
  if th ∈ i.on then { i.moved tick th with pc := i.pc, wait := wt } else i.moved tick th

/-- The same of a warp, by the numbers of the threads. -/
def Iss.awaitsIn (i : Iss) (tick : Nat) (wt : Wait) (w : Warp) : Warp :=
  w.mapThreads fun u =>
    let a := if i.ts.contains u.t then { u with pc := nextPc i.pc, lastIssue := tick + 1, wait := .none } else u
    if (i.on.map (·.t)).contains u.t then { a with pc := i.pc, wait := wt } else a

/-- Advancing an issue and putting its guard-true threads back is one change of its warp. -/
theorem State.advance_stay (s : State) (i : Iss) (wt : Wait) :
    (i.on.map (·.t)).foldl (fun s t => s.stay i t wt) (s.advance i) = s.modWarp i.r (i.awaitsIn s.tick wt) := by
  rw [show (fun (s : State) t => s.stay i t wt) =
      fun s t => s.modWarp i.r fun w => w.modThread t fun th => { th with pc := i.pc, wait := wt } from rfl,
    State.foldl_modWarp _ _ (by intro _ w; rfl), State.advance, State.modThreads, State.modWarp_modWarp _ _ _ _ (by intro w; rfl)]
  congr 1
  funext w
  rw [Warp.foldl_modThread_same (by intro u; rfl) (by intro u; rfl)]
  simp only [Iss.awaitsIn, Warp.mapThreads, List.map_map]
  congr 1
  refine List.map_congr_left fun u _ => ?_
  by_cases h : u.t ∈ i.ts <;> simp [h]

theorem Iss.awaits_t (i : Iss) (tick : Nat) (wt : Wait) (th : Thread) : (i.awaits tick wt th).t = th.t := by
  unfold Iss.awaits Iss.moved
  split <;> split <;> rfl

theorem Iss.awaits_exited (i : Iss) (tick : Nat) (wt : Wait) (th : Thread) : (i.awaits tick wt th).exited = th.exited := by
  unfold Iss.awaits Iss.moved
  split <;> split <;> rfl

/-- In the issuing warp the numbers name the threads. -/
theorem Iss.awaitsIn_eq {s : State} {h : Hdr} {i : Iss} (hi : Issues s h i) (wt : Wait) :
    i.awaitsIn s.tick wt i.w = i.w.mapThreads (i.awaits s.tick wt) := by
  unfold Iss.awaitsIn Warp.mapThreads
  congr 1
  refine List.map_congr_left fun th hm => ?_
  have act := Iss.ts_contains hi.1 hi.2 hm
  have on := mem_of_number hi.2 (fun u hu => Iss.mem_threads_of_act hi.1 (Iss.mem_act_of_on hi.1 hu)) hm
  simp only [act, List.contains_eq_mem, on, decide_eq_true_eq, Iss.awaits, Iss.moved]

theorem Iss.exited_of_on {s : State} {h : Hdr} {i : Iss} (hi : s.iss? h = some i) {th : Thread} (hm : th ∈ i.on) : th.exited = false := by
  obtain ⟨-, -, -, -, ha, -⟩ := State.iss?_some hi
  have hact := Iss.mem_act_of_on hi hm
  rw [ha, Warp.active, List.mem_filter] at hact
  simp_all [Warp.eligible]

/-! ### The return -/

/-- A warp whose threads of AMASK return from the handler. -/
def Warp.returned (hit : Bool) (w : Warp) : Warp :=
  { w.mapThreads fun th => if w.recMask.getLsbD th.t then th.leave w.recPc else th with
    inh := false, noHit := if hit then some w.recPc else w.noHit }

theorem State.rteReturn_of_ready {s : State} {r : WRef} {w : Warp} (hw : s.warp? r = some w) (hi : w.inh = true) (hr : w.rteReady = true) :
    ∃ hit, s.rteReturn r = s.modWarp r (Warp.returned hit) := by
  simp only [State.rteReturn, hw, hi, hr, Bool.and_self, if_true]
  exact ⟨_, rfl⟩

theorem State.rteReturn_of_waiting {s : State} {r : WRef} {w : Warp} (hw : s.warp? r = some w) (hr : w.rteReady = false) : s.rteReturn r = s := by
  simp [State.rteReturn, hw, hr]

/-- What one thread of a handler's warp becomes when the handler's threads return. -/
def Iss.returns (i : Iss) (tick : Nat) (skip : Bool) (th : Thread) : Thread :=
  if i.w.recMask.getLsbD th.t then (i.awaits tick (.rte skip) th).leave i.w.recPc else i.awaits tick (.rte skip) th

/-! ### Waits that can end -/

/-- While a live thread of the warp does not wait to rejoin, no wait of the warp is hopeless (R159). -/
theorem State.unreachWarp_of_running {s : State} {r : WRef} {w : Warp} (hw : s.warp? r = some w) {u : Thread} (hu : u ∈ w.live)
    (h : u.wait.rejoin = false) : s.unreachWarp r = s := by
  have hall : (w.live.all fun th => th.wait.rejoin && !th.wait.overdue (s.now w.core)) = false :=
    List.all_eq_false.2 ⟨u, hu, by simp [h]⟩
  unfold State.unreachWarp
  split
  · next g v _ hv =>
    cases hw.symm.trans hv
    simp [hall]
  · rfl

theorem State.warp?_mem {s : State} {r : WRef} {w : Warp} (hw : s.warp? r = some w) : ∃ g, s.gang? r.1 = some g ∧ w ∈ g.warps := by
  simp only [State.warp?, Option.bind_eq_some_iff] at hw
  obtain ⟨g, hg, hw⟩ := hw
  exact ⟨g, hg, List.mem_of_find?_eq_some hw⟩

/-- While a live thread of a warp waits for nothing of its block, no wait of the block is hopeless (R254). -/
theorem State.unreachBlock_of_running {s : State} {r : WRef} {w : Warp} (hw : s.warp? r = some w) {u : Thread} (hu : u ∈ w.live)
    (h : u.wait.blockWide = false) : s.unreachBlock r.1 = s := by
  obtain ⟨g, hg, hwg⟩ := State.warp?_mem hw
  have hany : ((g.warps.flatMap Warp.live).any fun th => !th.wait.blockWide) = true :=
    List.any_eq_true.2 ⟨u, List.mem_flatMap.2 ⟨w, hwg, hu⟩, by simp [h]⟩
  simp only [State.unreachBlock, hg, hany, Bool.or_true, Bool.true_or, if_true]

/-- A wait on no object is never hopeless in the block (R254): such a thread and whether its warp is in a handler stay. -/
theorem State.unreachBlock_keeps {s : State} {r : WRef} {w : Warp} (hw : s.warp? r = some w) :
    ∃ v, (s.unreachBlock r.1).warp? r = some v ∧ v.inh = w.inh ∧
      ∀ k u, w.thread? k = some u → u.wait.object = none → v.thread? k = some u := by
  obtain ⟨g, hg, hwg⟩ := State.warp?_mem hw
  have hgw : g.warp? r.2 = some w := by simpa [State.warp?, hg] using hw
  have same : ∃ v, s.warp? r = some v ∧ v.inh = w.inh ∧ ∀ k u, w.thread? k = some u → u.wait.object = none → v.thread? k = some u :=
    ⟨w, hw, rfl, fun _ _ h _ => h⟩
  simp only [State.unreachBlock, hg]
  split
  · exact same
  · split
    · rw [State.warp?, State.gang?_modGang _ _ _ (by intro g; rfl), hg]
      refine ⟨_, (find?_map_key Warp.wi _ g.warps r.2 fun v _ => ?_).trans (congrArg _ hgw), ?_, fun k u hu ho => ?_⟩
      · exact foldl_keeps Warp.wi _ (fun v th => by split <;> rfl) _ v
      · exact foldl_keeps Warp.inh _ (fun v th => by split <;> rfl) _ w
      · rw [Warp.thread?_mapThreads _ _ _ (fun th => ?_), Warp.thread?,
          foldl_keeps Warp.threads _ (fun v th => by split <;> rfl) _ w]
        · rw [show w.threads.find? (fun th => th.t = k) = some u from hu, Option.map_some, ho]
          rfl
        · split
          · split
            · rfl
            · dsimp only
              split <;> rfl
          · rfl
    · exact same

@[simp] theorem State.unreachBlock_mem (s : State) (gid : Nat) : (s.unreachBlock gid).mem = s.mem := by
  unfold State.unreachBlock
  split
  · rfl
  · extract_lets
    split
    · rfl
    · split <;> rfl

/-! ### The completion of an issue in which some threads wait -/

/-- A stride that ends leaves what was made. -/
theorem Made.endStride {s t : State} {i : Iss} {W : Warp} {upd : Thread → Thread} (h : Made s t i W upd) : Leaves s (t.endStride i.r) i W upd := by
  obtain ⟨w, hw, ho, hs, hth⟩ := h.warp
  refine ⟨fun gid => ?_, fun r hr => ?_, fun c => ?_, w.ended, ?_, ho, hs, fun th hm => ⟨(upd th).clearOl, ?_, rfl⟩⟩
  · rw [State.endStride_gang_outside, h.gangs]
  · rw [State.endStride_warp?_ne _ hr, h.warps r hr]
  · rw [State.endStride_core_outside, h.cores]
  · rw [State.endStride_warp?, hw]
    rfl
  · rw [show w.ended.thread? th.t = (w.thread? th.t).map Thread.clearOl from Warp.thread?_mapThreads w th.t _ (by intro u; rfl), hth th hm]
    rfl

/-- What `Made` says holds of the issue of some of the threads. -/
theorem Made.ofSome {s t : State} {i : Iss} {W : Warp} {upd : Thread → Thread} (h : Made s t i W upd) (act : List Thread) :
    Made s t { i with act := act } W upd := ⟨h.gangs, h.warps, h.cores, h.warp⟩

theorem Made.modWarp {s t : State} {i : Iss} {W : Warp} {upd : Thread → Thread} (h : Made s t i W upd) {F : Warp → Warp}
    (hwi : ∀ w, (F w).wi = w.wi) (ho : ∀ w, (F w).outside = w.outside) (hs : ∀ w, (F w).s = w.s) (hth : ∀ w, (F w).threads = w.threads) :
    Made s (t.modWarp i.r F) i W upd := by
  obtain ⟨w, hw, hwo, hws, hwth⟩ := h.warp
  refine ⟨fun gid => ?_, fun r hr => ?_, fun c => ?_, F w, ?_, (ho w).trans hwo, (hs w).trans hws, fun th hm => ?_⟩
  · rw [State.modWarp_gang_outside, h.gangs]
  · rw [State.warp?_modWarp_ne _ _ hr hwi, h.warps r hr]
  · rw [State.core_modWarp, h.cores]
  · rw [State.warp?_modWarp _ _ _ hwi, hw]
    rfl
  · rw [Warp.thread?, hth]
    exact hwth th hm

/-- Completing an issue in which some threads wait leaves what was made. -/
theorem Made.closeSome {s t : State} {h : Hdr} {i : Iss} {W : Warp} {upd : Thread → Thread} (hm : Made s t i W upd) (waiting : List Nat)
    (extra : Nat) (busy : Bool) : Leaves s (t.closeSome h i waiting extra busy) i W upd := by
  unfold State.closeSome
  extract_lets go
  split
  · exact State.closeIssue_leaves hm _ _ _
  · split
    · exact (hm.modWarp (by intro w; rfl) (by intro w; rfl) (by intro w; rfl) (by intro w; rfl)).endStride
    · obtain ⟨gangs, warps, cores, warp⟩ := State.closeIssue_leaves (hm.ofSome go.act) true extra busy
      exact ⟨gangs, warps, cores, warp⟩

@[simp] theorem State.closeSome_outside (s : State) (h : Hdr) (i : Iss) (waiting : List Nat) (extra : Nat) (busy : Bool) :
    (s.closeSome h i waiting extra busy).outside = s.outside := by
  unfold State.closeSome
  extract_lets go
  split
  · exact State.closeIssue_outside ..
  · split
    · rw [State.endStride_outside]
      rfl
    · exact State.closeIssue_outside ..

theorem Iss.awaitsIn_rteReady {s : State} {h : Hdr} {i : Iss} (hi : Issues s h i) (skip : Bool) :
    (i.awaitsIn s.tick (.rte skip) i.w).rteReady = true ↔
      ∀ th ∈ i.w.live, i.w.recMask.getLsbD th.t = true → ∃ k, (i.awaits s.tick (.rte skip) th).wait = .rte k := by
  rw [Iss.awaitsIn_eq hi]
  simp only [Warp.rteReady, Warp.mapThreads, List.all_map, List.all_eq_true, Function.comp, Iss.awaits_t, Iss.awaits_exited, Bool.or_eq_true, 
    Bool.not_eq_true', Warp.live, List.mem_filter]
  refine forall_congr' fun th => ?_
  generalize (i.awaits s.tick (.rte skip) th).wait = wt
  cases i.w.recMask.getLsbD th.t <;> cases th.exited <;> cases wt <;> simp

end Sys2Proof.Machine
end

section
set_option Elab.async false
namespace Sys2Proof.Machine

/-! ### rte (R315) -/

/-- An rte whose checks pass, before the completion of its issue. -/
theorem execRte_of_sound {s : State} {h : Hdr} {i : Iss} (hi : Issues s h i) (x : VOps) (skip : Bool) (hon : i.on ≠ []) (hin : i.w.inh = true)
    (hmask : ∀ th ∈ i.on, i.w.recMask.getLsbD th.t = true) (hflt : s.rteFault i skip = none)
    (hheld : s.fetchHeld i.g i.w.core (i.rteTo skip) = false) :
    exec (.rte h x skip) s = .next
      (let s2 := (s.modWarp i.r (i.awaitsIn s.tick (.rte skip))).rteReturn i.r
       ((s2.closeSome h i (s2.waitingOf i) 0 false).unreachWarp i.r).unreachBlock i.r.1) := by
  have none : faultsOf i.on (fun th => if i.w.inh && i.w.recMask.getLsbD th.t then s.rteFault i skip else
      some ({ code := fIllop, addr := 0x381 } : Flt)) = [] :=
    faultsOf_eq_nil fun th hth => by simp [hin, hmask th hth, hflt]
  simp only [exec, execRte, run, hi.1, hon, if_false, hheld, Bool.and_false, Bool.false_eq_true, none, State.advance_stay]

/-- An rte outside a handler traps with F_ILLOP. -/
theorem execRte_of_outside {s : State} {h : Hdr} {i : Iss} (hi : Issues s h i) (x : VOps) (skip : Bool) (hon : i.on ≠ []) (hin : i.w.inh = false) :
    exec (.rte h x skip) s = .next (s.trap i.r i.pc i.ts (i.on.map fun th => (th.t, { code := fIllop, addr := 0x381 }))) := by
  obtain ⟨th, rest, hcons⟩ := List.exists_cons_of_ne_nil hon
  have all : faultsOf i.on (fun th => if i.w.inh && i.w.recMask.getLsbD th.t then s.rteFault i skip else
      some ({ code := fIllop, addr := 0x381 } : Flt)) = i.on.map fun th => (th.t, { code := fIllop, addr := 0x381 }) := by
    simp [faultsOf, hin]
  simp only [exec, execRte, run, hi.1, hon, if_false, hin, Bool.false_and, Bool.false_eq_true]
  simp only [hin, Bool.false_and, Bool.false_eq_true, if_false] at all
  rw [all, hcons]
  simp [State.trapIss, fIllop, fWatch]

/-- A handler's warp in which every live thread of AMASK executes rte: they wait, and all return. -/
def Iss.returnedIn (i : Iss) (tick : Nat) (skip hit : Bool) (w : Warp) : Warp := (i.awaitsIn tick (.rte skip) w).returned hit

theorem State.warp?_awaits {s : State} {i : Iss} (hw : s.warp? i.r = some i.w) (wt : Wait) :
    (s.modWarp i.r (i.awaitsIn s.tick wt)).warp? i.r = some (i.awaitsIn s.tick wt i.w) := by
  rw [State.warp?_modWarp _ _ _ (by intro w; rfl), hw]
  rfl

theorem State.rteReturn_awaits {s : State} {h : Hdr} {i : Iss} (hi : Issues s h i) (skip : Bool) (hin : i.w.inh = true)
    (hall : ∀ th ∈ i.w.live, i.w.recMask.getLsbD th.t = true → th ∈ i.on) :
    ∃ hit, (s.modWarp i.r (i.awaitsIn s.tick (.rte skip))).rteReturn i.r = s.modWarp i.r (i.returnedIn s.tick skip hit) := by
  obtain ⟨-, -, hw, -, -, -⟩ := State.iss?_some hi.1
  have ready : (i.awaitsIn s.tick (.rte skip) i.w).rteReady = true :=
    (Iss.awaitsIn_rteReady hi skip).2 fun th hl hm => ⟨skip, by simp [Iss.awaits, hall th hl hm]⟩
  obtain ⟨hit, ret⟩ := State.rteReturn_of_ready (State.warp?_awaits hw _) hin ready
  exact ⟨hit, ret.trans (State.modWarp_modWarp _ _ _ _ (by intro w; rfl))⟩

theorem Iss.returnedIn_threads {s : State} {h : Hdr} {i : Iss} (hi : Issues s h i) (skip hit : Bool) :
    (i.returnedIn s.tick skip hit i.w).threads = i.w.threads.map (i.returns s.tick skip) := by
  rw [Iss.returnedIn, Iss.awaitsIn_eq hi]
  simp only [Warp.returned, Warp.mapThreads, List.map_map]
  refine List.map_congr_left fun th _ => ?_
  simp only [Function.comp, Iss.awaits_t, Iss.returns]

/-- A thread that executed rte continues at the recorded program counter or after it, with the o and l registers of its record. -/
theorem Iss.returns_of_on {i : Iss} {tick : Nat} {skip : Bool} {th : Thread} (hon : th ∈ i.on) (hm : i.w.recMask.getLsbD th.t = true) :
    i.returns tick skip th = { i.moved tick th with
      o := (i.moved tick th).recO, l := (i.moved tick th).recL, badOl := (i.moved tick th).recBad,
      pc := if skip then nextPc i.w.recPc else i.w.recPc, wait := .none } := by
  simp [Iss.returns, hm, Iss.awaits, hon, Thread.leave]

theorem Iss.returns_wait {i : Iss} {tick : Nat} {skip : Bool} {th : Thread} (ha : th ∈ i.act)
    (hm : th ∈ i.on → i.w.recMask.getLsbD th.t = true) :
    (i.returns tick skip th).wait = .none := by
  by_cases hon : th ∈ i.on
  · rw [Iss.returns_of_on hon (hm hon)]
  · simp only [Iss.returns, Iss.awaits, hon, if_false, Iss.moved, ha, if_true, Thread.leave]
    split <;> rfl

theorem Iss.returns_t (i : Iss) (tick : Nat) (skip : Bool) (th : Thread) : (i.returns tick skip th).t = th.t := by
  unfold Iss.returns
  split
  · rw [Thread.leave_t, Iss.awaits_t]
  · rw [Iss.awaits_t]

theorem State.warp?_returned {s : State} {i : Iss} (hw : s.warp? i.r = some i.w) (skip hit : Bool) :
    (s.modWarp i.r (i.returnedIn s.tick skip hit)).warp? i.r = some (i.returnedIn s.tick skip hit i.w) := by
  rw [State.warp?_modWarp _ _ _ (by intro w; rfl), hw]
  rfl

/-- After the return no thread of the issue waits. -/
theorem State.waitingOf_returned {s : State} {h : Hdr} {i : Iss} (hi : Issues s h i) (skip hit : Bool)
    (hm : ∀ th ∈ i.on, i.w.recMask.getLsbD th.t = true) : (s.modWarp i.r (i.returnedIn s.tick skip hit)).waitingOf i = [] := by
  obtain ⟨-, -, hw, -, -, -⟩ := State.iss?_some hi.1
  simp only [State.waitingOf, State.warp?_returned hw, Iss.returnedIn_threads hi, List.map_eq_nil_iff, List.filter_eq_nil_iff, List.mem_map]
  rintro u ⟨th, hth, rfl⟩
  rw [Iss.returns_t, Iss.ts_contains hi.1 hi.2 hth]
  by_cases ha : th ∈ i.act
  · simp [Thread.waits, Iss.returns_wait (tick := s.tick) (skip := skip) ha (hm th)]
  · simp [ha]

theorem Warp.thread?_of_threads {w v : Warp} (hn : (w.threads.map (·.t)).Nodup) {f : Thread → Thread} (ht : ∀ th, (f th).t = th.t)
    (hv : v.threads = w.threads.map f) {th : Thread} (hm : th ∈ w.threads) : v.thread? th.t = some (f th) := by
  have := Warp.thread?_mapThreads w th.t f ht
  rw [Warp.thread?_of_mem w hn hm] at this
  rw [Warp.thread?, hv]
  exact this

/-- A state whose issuing warp has returned from the handler. -/
theorem State.returned_made {s : State} {h : Hdr} {i : Iss} (hi : Issues s h i) (skip hit : Bool) :
    Made s (s.modWarp i.r (i.returnedIn s.tick skip hit)) i { i.w with inh := false } (i.returns s.tick skip) := by
  obtain ⟨-, -, hw, -, -, -⟩ := State.iss?_some hi.1
  exact Made.of_modWarp (W := { i.w with inh := false }) hw _ (by intro w; rfl) rfl rfl fun th hm =>
    Warp.thread?_of_threads hi.2 (i.returns_t s.tick skip) (Iss.returnedIn_threads hi skip hit) hm

/-- A state whose issuing warp waits in the handler. -/
theorem State.awaits_made {s : State} {h : Hdr} {i : Iss} (hi : Issues s h i) (wt : Wait) :
    Made s (s.modWarp i.r (i.awaitsIn s.tick wt)) i i.w (i.awaits s.tick wt) := by
  obtain ⟨-, -, hw, -, -, -⟩ := State.iss?_some hi.1
  exact Made.of_modWarp (W := i.w) hw _ (by intro w; rfl) rfl rfl fun th hm =>
    Warp.thread?_of_threads hi.2 (i.awaits_t s.tick wt) (congrArg Warp.threads (Iss.awaitsIn_eq hi wt)) hm

/-- What a completed issue leaves of one thread, but for its o and l registers. -/
theorem Leaves.thread {s t : State} {i : Iss} {W : Warp} {upd : Thread → Thread} (hl : Leaves s t i W upd) :
    ∃ w, t.warp? i.r = some w ∧ w.inh = W.inh ∧ w.s = W.s ∧ ∀ th ∈ i.w.threads, ∃ u, w.thread? th.t = some u ∧
      u.pc = (upd th).pc ∧ u.wait = (upd th).wait ∧ u.m = (upd th).m ∧ u.g = (upd th).g ∧ u.exited = (upd th).exited ∧
      (w.stride ≠ none → u.o = (upd th).o ∧ u.l = (upd th).l) := by
  obtain ⟨w, hw, ho, hs, hth⟩ := hl.warp
  have inh : w.outside.inh = W.outside.inh := by rw [ho]
  refine ⟨w, hw, inh, hs, fun th hm => ?_⟩
  obtain ⟨u, hu, e⟩ := hth th hm
  refine ⟨u, hu, ?_⟩
  have fields : ∀ v : Thread, u.outside = v.outside → u.pc = v.pc ∧ u.wait = v.wait ∧ u.m = v.m ∧ u.g = v.g ∧
      u.exited = v.exited ∧ u.o = v.o ∧ u.l = v.l := fun v e => by
    simp only [Thread.outside, Thread.mk.injEq] at e
    simp [e]
  split at e
  · next hst =>
    obtain ⟨pc, wait, m, g, exited, -, -⟩ := fields _ e
    exact ⟨pc, wait, m, g, exited, fun hne => absurd hst hne⟩
  · obtain ⟨pc, wait, m, g, exited, o, l⟩ := fields _ e
    exact ⟨pc, wait, m, g, exited, fun _ => ⟨o, l⟩⟩

theorem Warp.mem_live {w : Warp} {k : Nat} {u : Thread} (hu : w.thread? k = some u) (he : u.exited = false) : u ∈ w.live :=
  List.mem_filter.2 ⟨List.mem_of_find?_eq_some hu, by simp [he]⟩


section
variable {s : State} {h : Hdr} {i : Iss} (hi : Issues s h i) (x : VOps) (skip : Bool) (hon : i.on ≠ []) (hin : i.w.inh = true)
  (hmask : ∀ th ∈ i.on, i.w.recMask.getLsbD th.t = true) (hflt : s.rteFault i skip = none)
  (hheld : s.fetchHeld i.g i.w.core (i.rteTo skip) = false)
include hi hon hin hmask hflt hheld

/-- An rte of every live thread of AMASK returns. -/
theorem execRte_returns (hall : ∀ th ∈ i.w.live, i.w.recMask.getLsbD th.t = true → th ∈ i.on) :
    ∃ t w, exec (.rte h x skip) s = .next t ∧ t.mem = s.mem ∧ t.warp? i.r = some w ∧ w.inh = false ∧ w.s = i.w.s ∧
      ∀ th ∈ i.on, ∃ u, w.thread? th.t = some u ∧ u.pc = (if skip then nextPc i.w.recPc else i.w.recPc) ∧ u.wait = .none ∧ u.m = th.m ∧
        u.g = th.g ∧ (w.stride ≠ none → u.o = th.recO ∧ u.l = th.recL) := by
  obtain ⟨hit, ret⟩ := State.rteReturn_awaits hi skip hin hall
  rw [execRte_of_sound hi x skip hon hin hmask hflt hheld, ret]
  dsimp only
  rw [State.waitingOf_returned hi skip hit hmask]
  obtain ⟨w, hw, hinh, hs, hth⟩ := ((State.returned_made hi skip hit).closeSome (h := h) [] 0 false).thread
  have outside : ((s.modWarp i.r (i.returnedIn s.tick skip hit)).closeSome h i [] 0 false).outside = s.outside := State.closeSome_outside ..
  generalize (s.modWarp i.r (i.returnedIn s.tick skip hit)).closeSome h i [] 0 false = t at hw outside
  have on : ∀ th ∈ i.on, ∃ u, w.thread? th.t = some u ∧ u.pc = (if skip then nextPc i.w.recPc else i.w.recPc) ∧ u.wait = .none ∧
      u.m = th.m ∧ u.g = th.g ∧ u.exited = false ∧ (w.stride ≠ none → u.o = th.recO ∧ u.l = th.recL) := by
    intro th hon
    obtain ⟨u, hu, hpc, hwait, hm, hg, he, hol⟩ := hth th (Iss.mem_threads_of_act hi.1 (Iss.mem_act_of_on hi.1 hon))
    rw [Iss.returns_of_on hon (hmask th hon)] at hpc hwait hm hg he hol
    simp only [Iss.moved, Iss.mem_act_of_on hi.1 hon, if_true] at hm hg he hol
    exact ⟨u, hu, hpc, hwait, hm, hg, he.trans (Iss.exited_of_on hi.1 hon), hol⟩
  obtain ⟨th, hth0⟩ := List.exists_mem_of_ne_nil _ hon
  obtain ⟨u, hu, -, hwait, -, -, he, -⟩ := on th hth0
  have live : u ∈ w.live := Warp.mem_live hu he
  rw [State.unreachWarp_of_running hw live (by rw [hwait]; rfl), State.unreachBlock_of_running hw live (by rw [hwait]; rfl)]
  refine ⟨t, w, rfl, State.mem_of_outside outside, hw, hinh, hs, fun th hth => ?_⟩
  obtain ⟨u, hu, hpc, hwait, hm, hg, -, hol⟩ := on th hth
  exact ⟨u, hu, hpc, hwait, hm, hg, hol⟩

/-- While a live thread of AMASK is still due, those that executed rte wait at it. -/
theorem execRte_waits {v : Thread} (hlive : v ∈ i.w.live) (hvm : i.w.recMask.getLsbD v.t = true) (hvon : v ∉ i.on)
    (hvw : ∀ k, v.wait ≠ .rte k) :
    ∃ t w, exec (.rte h x skip) s = .next t ∧ t.mem = s.mem ∧ t.warp? i.r = some w ∧ w.inh = true ∧
      ∀ th ∈ i.on, ∃ u, w.thread? th.t = some u ∧ u.pc = i.pc ∧ u.wait = .rte skip := by
  obtain ⟨-, -, hw0, -, -, -⟩ := State.iss?_some hi.1
  have waits : (i.awaitsIn s.tick (.rte skip) i.w).rteReady = false := by
    rw [← Bool.not_eq_true, Iss.awaitsIn_rteReady hi skip]
    intro ready
    obtain ⟨k, hk⟩ := ready v hlive hvm
    simp only [Iss.awaits, hvon, if_false, Iss.moved] at hk
    split at hk
    · cases hk
    · exact hvw k hk
  rw [execRte_of_sound hi x skip hon hin hmask hflt hheld, State.rteReturn_of_waiting (State.warp?_awaits hw0 _) waits]
  dsimp only
  generalize (s.modWarp i.r (i.awaitsIn s.tick (.rte skip))).waitingOf i = waiting
  obtain ⟨w, hw, hinh, -, hth⟩ := ((State.awaits_made hi (.rte skip)).closeSome (h := h) waiting 0 false).thread
  have outside : ((s.modWarp i.r (i.awaitsIn s.tick (.rte skip))).closeSome h i waiting 0 false).outside = s.outside := State.closeSome_outside ..
  generalize (s.modWarp i.r (i.awaitsIn s.tick (.rte skip))).closeSome h i waiting 0 false = t at hw outside
  have on : ∀ th ∈ i.on, ∃ u, w.thread? th.t = some u ∧ u.pc = i.pc ∧ u.wait = .rte skip ∧ u.exited = false := by
    intro th hon
    obtain ⟨u, hu, hpc, hwait, -, -, he, -⟩ := hth th (Iss.mem_threads_of_act hi.1 (Iss.mem_act_of_on hi.1 hon))
    rw [Iss.awaits_exited] at he
    simp only [Iss.awaits, hon, if_true] at hpc hwait
    exact ⟨u, hu, hpc, hwait, he.trans (Iss.exited_of_on hi.1 hon)⟩
  obtain ⟨th, hth0⟩ := List.exists_mem_of_ne_nil _ hon
  obtain ⟨u, hu, -, hwait, he⟩ := on th hth0
  rw [State.unreachWarp_of_running hw (Warp.mem_live hu he) (by rw [hwait]; rfl)]
  obtain ⟨w2, hw2, hinh2, hkeep⟩ := State.unreachBlock_keeps hw
  refine ⟨_, w2, rfl, ?_, hw2, hinh2.trans (hinh.trans hin), fun th hth => ?_⟩
  · rw [State.unreachBlock_mem]
    exact State.mem_of_outside outside
  · obtain ⟨u, hu, hpc, hwait, -⟩ := on th hth
    exact ⟨u, hkeep _ _ hu (by rw [hwait]; rfl), hpc, hwait⟩

end

/-- Settles O36: the issue's threads wait at the rte; where they are all of AMASK, the warp returns before the issue is completed. -/
theorem rteReturns : Obligations.RteReturns := by
  intro h x skip s i hi back
  refine ⟨fun hon => ?_, fun hon hin hmask hflt hheld => ⟨execRte_returns hi x skip hon hin hmask hflt hheld, ?_⟩,
    fun hon hin => execRte_of_outside hi x skip hon hin⟩
  · have kept := State.advance_closes hi.1 hi.2 h.e 0 false
    exact ⟨_, exec_guardFalse (ins := .rte h x skip) rfl hi hon, State.mem_of_outside kept.outside, kept.outside⟩
  · rintro ⟨v, hlive, hvm, hvon, hvw⟩
    exact execRte_waits hi x skip hon hin hmask hflt hheld hlive hvm hvon hvw

end Sys2Proof.Machine
end

section
set_option Elab.async false
namespace Sys2Proof.Machine

/-! ### STORE_AT_HOME of a load -/

/-- A load of another world's frame on its way. -/
def strayLoad : Flight :=
  { id := 0, gid := 0, wi := 0, t := 0, core := 0, die := 0, world := 1, pc := 0, act := .load false, place := .phys 0, len := 4 }

/-- The device after reset with that load on its way. -/
def strayState : State := { State.reset with flights := [strayLoad] }

/-- A flight that writes nothing does not concern STORE_AT_HOME. -/
theorem execStoreAtHome_of_reads {s : State} {id part : Nat} {f : Flight} (hf : s.flight? id = some f) (hr : f.writes = false) :
    exec (.storeAtHome id part) s = .next s := by
  simp only [exec, execStoreAtHome, hf, hr]
  split <;> simp

/-- The home die of `strayLoad` would refuse it. -/
theorem strayState_refuses : strayState.refusal strayLoad 0 = some 1 := by decide

/-- Refutes O18: its clause about a refused access holds of every flight, also of a load. STORE_AT_HOME of `strayLoad`, whose home die
refuses its world, changes nothing, and the load is not marked refused. -/
theorem not_storesReachHome : ¬ Obligations.StoresReachHome := by
  intro h
  obtain ⟨-, -, refused⟩ := h strayState 0 0 0 strayLoad (by rfl) (by rfl) (by rfl) (by decide) (by decide) (by rfl)
  obtain ⟨t, f, ht, -, hf, hr⟩ := refused 1 (by rfl) strayState_refuses
  have unchanged : exec (.storeAtHome 0 0) strayState = .next strayState := execStoreAtHome_of_reads (f := strayLoad) (by rfl) (by rfl)
  cases unchanged.symm.trans ht
  cases hf
  exact Bool.false_ne_true hr

end Sys2Proof.Machine
end

/-!
Stores on their way: what the issue leaves that sent them (R28, R108, R235).
-/
section
set_option Elab.async false
namespace Sys2Proof.Machine

/-! ### The active set moves on -/

theorem State.noteOver_zero (s : State) (i : Iss) : s.noteOver i 0 = s := by
  have same : ∀ w : Warp, (w.mapThreads fun th => if (i.on.map (·.t)).contains th.t then { th with pwerr := th.pwerr ||| 0 } else th) = w := by
    intro w
    simp [Warp.mapThreads]
  simp only [State.noteOver, State.modThreads, same, State.modWarp_id]

theorem Iss.base_zero_thread? {s : State} {h : Hdr} {i : Iss} (hi : Issues s h i) {th : Thread} (hm : th ∈ i.w.threads) :
    (i.base s.tick 0 i.w).thread? th.t = some (i.moved s.tick th) := by
  rw [Iss.base_thread hi.1 hi.2 0 hm]
  congr 1
  unfold Iss.moved
  split <;> split <;> simp

/-- What `Iss.base` makes of one thread. -/
def Iss.step (i : Iss) (tick : Nat) (th : Thread) : Thread :=
  if i.ts.contains th.t then { th with pc := nextPc i.pc, lastIssue := tick + 1, wait := .none } else th

theorem Iss.step_t (i : Iss) (tick : Nat) (th : Thread) : (i.step tick th).t = th.t := by
  unfold Iss.step
  split <;> rfl

theorem Iss.step_outside (i : Iss) (tick : Nat) (th : Thread) : (i.step tick th).outside = i.step tick th.outside := by
  by_cases h : i.ts.contains th.t = true
  · rw [Iss.step, if_pos h, Iss.step, if_pos (show i.ts.contains th.outside.t = true from h)]
    rfl
  · rw [Iss.step, if_neg h, Iss.step, if_neg (show ¬ i.ts.contains th.outside.t = true from h)]

theorem Thread.clearOl_outside (th : Thread) : th.clearOl.outside = th.outside.clearOl := rfl

namespace Departs

variable {s t : State} {r : WRef} {F : Warp → Warp}

theorem tick (h : Departs s t r F) : t.tick = s.tick := by
  have e : t.still.tick = s.still.tick := by rw [h.still]
  exact e

theorem advance {i : Iss} : Departs s (s.advance i) i.r (i.base s.tick 0) := by
  have h := advance_noteOver (s := s) (i := i) (past := 0)
  rwa [State.noteOver_zero] at h

end Departs

/-- What stands before an issue's end decides of a thread only what `Thread.outside` shows. -/
theorem Leaves.congr {s t : State} {i : Iss} {W : Warp} {upd upd' : Thread → Thread} (h : Leaves s t i W upd)
    (hu : ∀ th ∈ i.w.threads, (upd th).outside = (upd' th).outside) : Leaves s t i W upd' := by
  obtain ⟨gangs, warps, cores, w, hw, ho, hs, hth⟩ := h
  refine ⟨gangs, warps, cores, w, hw, ho, hs, fun th hm => ?_⟩
  obtain ⟨u, hu1, hu2⟩ := hth th hm
  refine ⟨u, hu1, hu2.trans ?_⟩
  split
  · rw [Thread.clearOl_outside, hu th hm, Thread.clearOl_outside]
  · exact hu th hm

/-- An issue closed behind departures that left its warp's threads as `upd` says but for their late loads. -/
theorem Departs.closeIssue_sends_outside {s t : State} {i : Iss} {F : Warp → Warp} {upd : Thread → Thread} (h : Departs s t i.r F)
    (hw : s.warp? i.r = some i.w) (ho : (F i.w).outside = i.w.outside) (hs : (F i.w).s = i.w.s)
    (hth : ∀ th ∈ i.w.threads, ((F i.w).thread? th.t).map Thread.outside = some (upd th).outside) (e : Bool) (extra : Nat) (busy : Bool) :
    Sends s (t.closeIssue i e extra busy) i i.w upd := by
  have found : ∀ th ∈ i.w.threads, ∃ u, (F i.w).thread? th.t = some u ∧ u.outside = (upd th).outside := fun th hm =>
    Option.map_eq_some_iff.1 (hth th hm)
  have sends := h.closeIssue_sends (W := i.w) (upd := fun th => ((F i.w).thread? th.t).getD th) hw ho hs
    (fun th hm => by obtain ⟨u, hu, -⟩ := found th hm; rw [hu]; rfl) e extra busy
  refine ⟨sends.toLeaves.congr fun th hm => ?_, sends.still, sends.flights⟩
  obtain ⟨u, hu, e⟩ := found th hm
  simp only [hu, Option.getD_some, e]

/-- What a thread shows of the active set's advance depends on what it showed before. -/
theorem Iss.base_outside {s : State} {h : Hdr} {i : Iss} (hi : Issues s h i) {w : Warp} {th : Thread} (hm : th ∈ i.w.threads)
    (hw : (w.thread? th.t).map Thread.outside = (i.w.thread? th.t).map Thread.outside) :
    ((i.base s.tick 0 w).thread? th.t).map Thread.outside = some (i.moved s.tick th).outside := by
  have shows : ∀ v : Warp, ((i.base s.tick 0 v).thread? th.t).map Thread.outside =
      (((v.thread? th.t).map Thread.outside).map (i.step s.tick)) := by
    intro v
    have same : i.base s.tick 0 v = v.mapThreads (i.step s.tick) := by
      unfold Iss.base Warp.mapThreads
      congr 1
      refine List.map_congr_left fun u _ => ?_
      simp [Iss.step]
    rw [same, Warp.thread?_mapThreads _ _ _ (fun u => ?_), Option.map_map, Option.map_map]
    · exact congrArg (fun g => (v.thread? th.t).map g) (funext fun u => i.step_outside s.tick u)
    · exact i.step_t s.tick u
  rw [shows, hw, ← shows, Iss.base_zero_thread? hi hm, Option.map_some]

/-- Stores sent before the active set moves on, which may settle late loads of its threads. -/
theorem Departs.closes_settled {α : Type} {s t : State} {h : Hdr} {i : Iss} (hi : Issues s h i) (ht : Departs s t i.r fun w => w)
    {f : State → α → State} {E : α → Warp → Warp} (hf : ∀ t a, Departs t (f t a) i.r (E a)) (ho : ∀ w a, (E a w).outside = w.outside)
    (hs : ∀ w a, (E a w).s = w.s) (hth : ∀ k w a, ((E a w).thread? k).map Thread.outside = (w.thread? k).map Thread.outside)
    {l : List α} {thOf : α → Thread} {P : α → Flight → Prop}
    (hc : ∀ t, ∀ a ∈ l, (f t a).carriesNew t.nextId (i.sentBy (thOf a) (P a))) (hP : ∀ a k, P a k.sent → P a k)
    (e : Bool) (extra : Nat) (busy : Bool) :
    let u := ((l.foldl f t).advance i).closeIssue i e extra busy
    Sends s u i i.w (i.moved s.tick) ∧ ∀ a ∈ l, i.flies s u (thOf a) (P a) := by
  obtain ⟨-, -, hw, -, -, -⟩ := State.iss?_some hi.1
  have before := ht.trans (Departs.foldl hf l t)
  have all : Departs s ((l.foldl f t).advance i) i.r fun w => i.base s.tick 0 (l.foldl (fun w a => E a w) w) := by
    have h := before.trans (Departs.advance (i := i))
    rwa [before.tick] at h
  refine ⟨all.closeIssue_sends_outside hw ?_ ?_ ?_ e extra busy, fun a ha => ?_⟩
  · exact foldl_keeps Warp.outside _ ho l i.w
  · exact foldl_keeps Warp.s _ hs l i.w
  · exact fun th hm => Iss.base_outside hi hm (foldl_keeps (fun w => (w.thread? th.t).map Thread.outside) _ (hth th.t) l i.w)
  · obtain ⟨k, hk, hid, hg, hwi, hkt, hp⟩ := Departs.foldl_carries hf hc ht.ids a ha
    exact ⟨k, (State.closeIssue_flights ..).symm ▸ hk, hid, hg, hwi, hkt, hP a k hp⟩

end Sys2Proof.Machine
end

section
set_option Elab.async false
namespace Sys2Proof.Machine

/-! ### Where an access goes (R110) -/

theorem State.padRange_place {s : State} {g : Gang} {k : AccKind} {gc off n a : Nat} {q : Place} (h : s.padRange g k gc off n a = .ok q) :
    q = .pad gc off := by
  unfold State.padRange at h
  split at h
  · cases h
  · split at h
    · cases h
    · split at h
      · cases h
      · cases h
        rfl

theorem State.padRange_map_place {s : State} {g : Gang} {k : AccKind} {gc off n a : Nat} {q : Place} {table : Bool}
    (h : (s.padRange g k gc off n a).map (fun q => (q, false)) = .ok (q, table)) : q = .pad gc off := by
  cases r : s.padRange g k gc off n a with
  | error f => rw [r] at h; cases h
  | ok q' =>
    rw [r] at h
    cases h
    exact State.padRange_place r

/-- An access of gl goes to global memory, one of sp or gw to a scratchpad. -/
theorem State.locate_isPhys {s : State} {g : Gang} {w : Warp} {p : Spc} {k : AccKind} {n a : Nat} {q : Place} {table : Bool}
    (h : s.locate g w p k n a = .ok (q, table)) : q.isPhys = p.isGl ∧ q ≠ .reg := by
  unfold State.locate at h
  split at h
  · cases h
  · split at h
    · rw [State.padRange_map_place h]
      exact ⟨rfl, nofun⟩
    · split at h
      · cases h
      · split at h
        · cases h
        · rw [State.padRange_map_place h]
          exact ⟨rfl, nofun⟩
    · cases h
    · next hsp hgw hpw =>
      have gl : p.isGl = true := by cases p <;> simp_all [Spc.isGl]
      rw [gl]
      split at h
      · cases h
      · split at h
        · cases h
          exact ⟨rfl, nofun⟩
        · split at h
          · cases h
          · split at h
            · cases h
            · cases h
              exact ⟨rfl, nofun⟩

/-- The registers an address takes, and its width (R106). -/
theorem addrWords_of_ne_pw {p : Spc} (h : p ≠ .pw) : (if p = .sp ∨ p = .gw then 1 else 2) = p.addrWords := by
  cases p <;> simp_all [Spc.addrWords]

theorem accAddr_of_ne_pw {p : Spc} (h : p ≠ .pw) (a : Nat) (imm : BitVec 21) :
    wrapN (if p = .sp ∨ p = .gw then 32 else 64) (a + imm.toInt) = accAddr p a imm := by
  cases p <;> simp_all [accAddr, Spc.isGl, immInt]

/-! ### One store of an issue -/

/-- One step of `State.putStores`. -/
def State.putStore (s : State) (i : Iss) (p : Spc) (ga obs : Bool) (now : Nat) (st : St1) : State :=
  if st.table then s
  else match st.place with
    | .pad gc o =>
      let s := s.modThread i.r st.th.t fun th => th.settle gc o st.data.length
      if obs && p = .sp then
        (s.flushPad i.r st.th.t fun f => match f.place with | .pad c q => c = gc && overlaps q f.len o st.data.length | _ => false)
          |>.padWrite i.r.1 gc o st.data
      else
        let f := i.flight now st.th .store st.place st.data.length
        s.launchFlight { f with gw := p = .gw, data := st.data, observed := obs, scope := spcScope p }
    | _ =>
      let f := i.flight now st.th .store st.place st.data.length
      let s := s.launchFlight { f with va := st.addr, data := st.data, observed := obs, scope := spcScope p, ga := ga, needOst := true }
      match st.place with
      | .phys pa => if ga then { s with copies := s.copies.filter fun c =>
          !(c.die = dieOfCore i.w.core && c.line = lineOf pa && homeDie pa ≠ c.die) } else s
      | _ => s

theorem State.putStores_eq (s : State) (i : Iss) (p : Spc) (ga obs : Bool) (sts : List St1) :
    s.putStores i p ga obs sts = sts.foldl (fun t st => t.putStore i p ga obs (s.now i.w.core) st) s := rfl

/-- What a store on its way settles in its warp. -/
def St1.settles (st : St1) (w : Warp) : Warp :=
  match st.place with
  | .pad gc o => w.modThread st.th.t fun th => th.settle gc o st.data.length
  | _ => w

/-- What a store of an issue is on its way. -/
def St1.sent (st : St1) (obs : Bool) (f : Flight) : Prop :=
  f.act = .store ∧ f.place = st.place ∧ f.len = st.data.length ∧ f.data = st.data ∧ f.observed = obs ∧ f.needOst = st.place.isPhys

section
variable {s : State} {i : Iss} {p : Spc} {ga obs : Bool} {now : Nat} {st : St1} (ho : (obs && p = .sp) = false) (ht : st.table = false)
include ho ht

theorem Departs.putStore : Departs s (s.putStore i p ga obs now st) i.r st.settles := by
  unfold State.putStore St1.settles
  simp only [ht, Bool.false_eq_true, if_false, ho]
  cases st.place with
  | pad gc o => exact (Departs.modWarp (by intro w; exact Eq.refl _)).trans Departs.launchFlight
  | phys pa =>
    dsimp only
    split
    · exact Departs.launchFlight.trans Departs.dropCopies
    · exact Departs.launchFlight
  | reg => exact Departs.launchFlight

theorem State.putStore_carries (hp : st.place ≠ .reg) :
    (s.putStore i p ga obs now st).carriesNew s.nextId (i.sentBy st.th (st.sent obs)) := by
  unfold State.putStore
  simp only [ht, Bool.false_eq_true, if_false, ho]
  cases hq : st.place with
  | pad gc o => exact State.launchFlight_carries ⟨rfl, rfl, rfl, rfl, hq.symm, rfl, rfl, rfl, by rw [hq]; rfl⟩
  | phys pa =>
    have sent : State.carriesNew _ s.nextId (i.sentBy st.th (st.sent obs)) :=
      State.launchFlight_carries (g := { i.flight now st.th .store (.phys pa) st.data.length with
        va := st.addr, data := st.data, observed := obs, scope := spcScope p, ga := ga, needOst := true })
        ⟨rfl, rfl, rfl, rfl, hq.symm, rfl, rfl, rfl, by rw [hq]; rfl⟩
    dsimp only
    split
    · exact sent
    · exact sent
  | reg => exact absurd hq hp

end

end Sys2Proof.Machine
end

section
set_option Elab.async false
namespace Sys2Proof.Machine

theorem St1.settles_outside (w : Warp) (st : St1) : (st.settles w).outside = w.outside := by
  unfold St1.settles
  split <;> rfl

theorem St1.settles_s (w : Warp) (st : St1) : (st.settles w).s = w.s := by
  unfold St1.settles
  split <;> rfl

theorem Warp.modThread_thread?_outside (w : Warp) (t k : Nat) {f : Thread → Thread} (hf : ∀ th, (f th).outside = th.outside) :
    ((w.modThread t f).thread? k).map Thread.outside = (w.thread? k).map Thread.outside := by
  have num : ∀ th, (f th).t = th.t := fun th => by
    have e : (f th).outside.t = th.outside.t := by rw [hf]
    exact e
  by_cases h : k = t
  · rw [h, Warp.thread?_modThread _ _ _ num, Option.map_map]
    exact congrArg (fun g => Option.map g _) (funext hf)
  · rw [Warp.thread?_modThread_ne _ _ h num]

theorem St1.settles_thread? (k : Nat) (w : Warp) (st : St1) :
    ((st.settles w).thread? k).map Thread.outside = (w.thread? k).map Thread.outside := by
  unfold St1.settles
  split
  · exact w.modThread_thread?_outside _ _ (by intro th; rfl)
  · rfl

/-- The store of a thread of an issue, to a place found for it. -/
def Iss.storeOf (i : Iss) (s : State) (x : VOps) (z : Sz) (p : Spc) (place : Thread → Place) (th : Thread) : St1 :=
  { th := th, addr := accAddr p (i.arg s x.imm x.a p.addrWords th) x.imm, place := place th, table := false,
    data := leBytes (szLen z) (i.arg s x.imm x.b z.words th) }

theorem leBytes_length (n v : Nat) : (leBytes n v).length = n := by
  induction n generalizing v with
  | zero => rfl
  | succ n ih => simp [leBytes, ih]

theorem State.tableWatch_plain (s : State) (g : Gang) (w : Warp) (a n v : Nat) (q : Place) : s.tableWatch g w a n v (.ok (q, false)) = none := by
  cases q <;> rfl

theorem State.orderPoint_of_none {s : State} {i : Iss} (h : i.w.report? (i.on.map (·.t)) = none) (k : State) : s.orderPoint i k = k := by
  simp only [State.orderPoint, h]

/-- An access whose gate is open goes on, an observed one where no report is due. -/
theorem State.through_go {s : State} {i : Iss} {obs : Bool} (h : obs = true → i.w.report? (i.on.map (·.t)) = none) (k : State) :
    (if obs = true then s.throughPoint i .go k else s.through i .go k) = k := by
  split
  · next ho => exact State.orderPoint_of_none (h ho) k
  · rfl

/-! ### Stores (R108, R235) -/

section
variable {s : State} {h : Hdr} {i : Iss} (hi : Issues s h i) (x : VOps) (z : Sz) (p : Spc) (ga obs : Bool) (place : Thread → Place)
  (hobs : (obs && p = .sp) = false) (hstall : ∀ a, i.w.stall ≠ some (.table [] a))
  (hgo : ∀ th ∈ i.on, i.ready s [⟨x.a, p.addrWords⟩, ⟨x.b, z.words⟩] [] false x.imm th ∧ s.acqWaits i.r th = false ∧
    (obs = true → s.relWaits i.r th = false) ∧
    s.locate i.g i.w p .store (szLen z) (accAddr p (i.arg s x.imm x.a p.addrWords th) x.imm) = .ok (place th, false))
  (hrep : obs = true → i.w.report? (i.on.map (·.t)) = none)
include hgo

/-- The stores of the issue, of which none is a table store. -/
theorem State.storeForm_stores {f : Thread → Option St1}
    (hf : ∀ th ∈ i.on, s.locate i.g i.w p .store (szLen z) (accAddr p (s.value i.g i.w th x.a p.addrWords x.imm) x.imm) = .ok (place th, false) →
      f th = some (i.storeOf s x z p place th)) : i.on.filterMap f = i.on.map (i.storeOf s x z p place) := by
  rw [← List.filterMap_eq_map]
  refine List.filterMap_congr fun th hth => ?_
  obtain ⟨-, -, -, hloc⟩ := hgo th hth
  exact hf th hth hloc

include hi hobs hstall hrep

theorem State.storeForm_sends :
    ∃ t, s.storeForm h x z p ga obs = .next t ∧ Sends s t i i.w (i.moved s.tick) ∧
      ∀ th ∈ i.on, i.flies s t th ((i.storeOf s x z p place th).sent obs) := by
  by_cases hon : i.on = []
  · obtain ⟨t, ht, hk⟩ := run_guardFalse hi.1 hi.2 hon _
    exact ⟨t, ht, hk.sends, by simp [hon]⟩
  · have fences : (i.on.any fun th => s.acqWaits i.r th || (obs && s.relWaits i.r th)) = false := by
      rw [List.any_eq_false]
      intro th hth
      obtain ⟨-, acq, rel, -⟩ := hgo th hth
      cases obs <;> simp_all
    unfold State.storeForm run
    simp only [hi.1, hon, if_false, fences, Bool.false_eq_true]
    rw [State.gate_go (fun th hth => (hgo th hth).1) ?noFault, State.storeForm_stores x z p obs place hgo fun th hth hloc => ?stores]
    case stores =>
      simp only [hloc]
      rfl
    case noFault =>
      intro th hth
      obtain ⟨-, -, -, hloc⟩ := hgo th hth
      simp only [Iss.arg] at hloc
      simp only [hloc, faultIn, State.tableWatch_plain]
      cases obs
      · rfl
      · simp [Iss.reportFlt, hrep rfl]
    have noHeld : ∀ H : Thread → Bool, (∀ th, obs = false → H th = false) → (decide (p = .sp) && i.on.any H) = false := by
      intro H hH
      cases obs
      · simp [List.any_eq_false, hH]
      · simp_all
    have noTable : (i.on.map (i.storeOf s x z p place)).filter (·.table) = [] := by
      rw [List.filter_eq_nil_iff]
      simp [Iss.storeOf]
    have noTableHeld : (i.on.map (i.storeOf s x z p place)).any (s.tableHeld i p obs) = false := by
      simp [State.tableHeld, Iss.storeOf]
    rw [State.through_go hrep, noHeld _ fun th ho => by simp [ho]]
    simp only [noTableHeld, noTable, List.map_nil, Bool.or_false, Bool.false_eq_true, if_false, if_true, State.putStores_eq, List.foldl_map]
    have places : ∀ th ∈ i.on, place th ≠ .reg := fun th hth => by
      obtain ⟨-, -, -, hloc⟩ := hgo th hth
      exact (State.locate_isPhys hloc).2
    exact ⟨_, rfl, Departs.closes_settled hi Departs.cacheAll (E := fun th => (i.storeOf s x z p place th).settles)
      (fun t th => Departs.putStore hobs (Eq.refl _)) (fun w th => St1.settles_outside w _) (fun w th => St1.settles_s w _)
      (fun k w th => St1.settles_thread? k w _) (thOf := fun th => th)
      (fun t th hth => State.putStore_carries hobs (Eq.refl _) (places th hth)) (fun th k hk => hk) ..⟩

end

/-- Settles O16: the stores of an issue leave one after another, and then its active set moves on. -/
theorem storesDepart : Obligations.StoresDepart := by
  intro h x z p ga obs s i hi hpw hsp k n addr place hstall hgo hrep
  have hobs : (obs && p = .sp) = false := by
    cases obs
    · rfl
    · simp [hsp rfl]
  have words : k = p.addrWords := addrWords_of_ne_pw hpw
  have at_ : ∀ th, addr th = accAddr p (i.arg s x.imm x.a p.addrWords th) x.imm := fun th => by
    rw [← words]
    exact accAddr_of_ne_pw hpw _ _
  simp only [words, at_] at hgo
  obtain ⟨t, ht, sends, flies⟩ := State.storeForm_sends hi x z p ga obs place hobs hstall hgo hrep
  refine ⟨t, ?_, sends, fun th hth => ?_⟩
  · rw [← ht]
    cases obs <;> rfl
  · obtain ⟨f, hf, hid, hg, hw, hft, hact, hplace, hlen, hdata, ho, hneed⟩ := flies th hth
    refine ⟨f, hf, hid, hg, hw, hft, hact, hplace, hlen.trans (leBytes_length _ _), hdata, ho, ?_⟩
    obtain ⟨-, -, -, hloc⟩ := hgo th hth
    rw [hneed, Iss.storeOf, (State.locate_isPhys hloc).1]
    cases p <;> simp [Spc.isGl]

end Sys2Proof.Machine
end

section
set_option Elab.async false
namespace Sys2Proof.Machine

/-! ### An atomic whose operand is a parameter window -/

/-- The one thread of the counterexample. -/
def staleThread : Thread := { t := 0, bi := 0, pc := 0, m := [] }

/-- Its warp: s0 and s1 hold an address in page 17. -/
def staleWarp : Warp :=
  { wi := 0, core := 0, quarter := 0, slot := 0, homeCore := 0, homeSlot := 0, s := [{ v := 0x110000 }, {}], stride := some { pc := 0, n := 0 },
    threads := [staleThread] }

/-- Its gang of firmware's world: parameter window 0 is the first word of page 0, and the root table is frame 0. -/
def staleGang : Gang :=
  { gid := 0, bib := 0, world := 0, launch := 0, block := 0, blockT := 1, threadsN := 1, cores := [0], n := 1, spBytes := 0, minop := 0,
    prio := 0, levels := [], windows := [{ base := 0, size := 4, bound := true }], root := some 0, sp := [[]], rowBase := [0],
    warps := [staleWarp] }

/-- A cached translation of page 17 whose level-1 entry is invalid: a valid one has been stored in memory since. -/
def staleEntry : TlbE :=
  { slice := true, at_ := 0, root := 0, world := 0, l1 := false, vpn := 17, e1 := 0, e2 := 0xE400000000000000 }

/-- The root's first entry in memory is valid, readable and its own level-2 table, so page 0 translates to frame 0; the parameter cache holds
7 for the window's word. -/
def staleState : State :=
  { State.reset with
    cur := some (0, 0), gangs := [staleGang], mem := [(7, 0xC0)], tlb := [staleEntry], cores := [(0, { pcache := [(2 ^ 64, 7)] })] }

/-- No guard, no E. -/
def staleHdr : Hdr := { e := false, gn := false, gi := 0 }

/-- The address in s0 and s1, the operand in window 0. -/
def staleOps : VOps := { d := .none, a := .s 0 false, b := .win 0, c := .none, imm := 0 }

/-- The issue of the thread. -/
def staleIss : Iss := { r := (0, 0), g := staleGang, w := staleWarp, pc := 0, act := [staleThread], on := [staleThread] }

theorem staleIss_issues : Issues staleState staleHdr staleIss := ⟨rfl, by decide⟩

theorem staleIss_ready : staleIss.ready staleState [⟨.s 0 false, 2⟩, ⟨.win 0, 1⟩] [] false 0 staleThread := by
  refine ⟨?_, ?_, ?_⟩ <;> decide

theorem staleState_locate : staleState.locate staleGang staleWarp .glDev .atomic 4 0x110000 = .ok (.phys 0, false) := by decide

/-- At the issue the operand reads 7. -/
theorem staleState_value : staleState.value staleGang staleWarp staleThread (.win 0) 1 0 = 7 := by decide

/-- What the accesses on their way after an outcome do. -/
def actsAfter (o : Host.Outcome State Fault Refusal) : List Act :=
  match o with
  | .next u => u.flights.map (·.act)
  | _ => []

/-- Remembering the translation of page 17 caches its stale level-1 entry for page 0 too, so the window no longer translates when the operand
is read. -/
theorem staleState_acts : actsAfter (exec (.ared staleHdr staleOps .uw32 .add .glDev false) staleState) = [.atom .uw32 .add 0 none] := by rfl

/-- Refutes O14 in its clause of atomics: `State.atomForm` reads B behind `State.cacheAll`, which may change what a parameter window reads.
The atomic of `staleIss` is sent with operand 0, where B reads 7 at its issue. -/
theorem not_farAccessesDepart : ¬ Obligations.FarAccessesDepart := by
  rintro ⟨-, atomics, -⟩
  obtain ⟨-, reds, -⟩ := atomics staleHdr staleOps .uw32 .add .glDev false staleState staleIss staleIss_issues (.inr (.inl rfl))
    (fun _ => .phys 0) (by rfl) fun th hth => by
      obtain rfl := List.mem_singleton.1 hth
      exact ⟨by rfl, by rfl, staleState_locate⟩
  obtain ⟨u, hu, -, flies⟩ := reds fun th hth => by
    obtain rfl := List.mem_singleton.1 hth
    exact staleIss_ready
  obtain ⟨f, hf, -, -, -, -, hact, -⟩ := flies staleThread (List.mem_singleton.2 rfl)
  have acts : f.act ∈ actsAfter (exec (.ared staleHdr staleOps .uw32 .add .glDev false) staleState) := by
    rw [hu]
    exact List.mem_map_of_mem hf
  rw [staleState_acts, List.mem_singleton, hact] at acts
  have b : staleState.value staleGang staleWarp staleThread (.win 0) 1 0 = 0 := (Act.atom.inj acts).2.2.1
  rw [staleState_value] at b
  exact absurd b (by decide)

end Sys2Proof.Machine
end

section
/-!
PROOFS. Operand fields as bits (spec/03 R49): a field's class, index and W, and that `Opnd.bits` and `Opnd.ofBits` undo each other
where no must-be-zero or must-be-one bit is broken.
-/
namespace Sys2Proof

/-! ### The parts of a field -/

theorem bit_getLsbD_zero (b : BitVec 1) : bit (b.getLsbD 0) = b := by
  revert b; decide

theorem bit_eq_zero {b : Bool} : bit b = 0#1 ↔ b = false := by
  cases b <;> decide

theorem append_eq_zero_iff {m n : Nat} (x : BitVec m) (y : BitVec n) : x ++ y = 0#(m + n) ↔ x = 0#m ∧ y = 0#n := by
  constructor
  · intro h
    constructor
    · simpa [extract_high] using congrArg (·.extractLsb' n m) h
    · simpa [extract_low] using congrArg (·.extractLsb' 0 n) h
  · rintro ⟨rfl, rfl⟩
    exact BitVec.zero_append_zero

/-- The 12 bits of a class, an index and W (R49). -/
def fieldBits (k : BitVec 3) (i : BitVec 8) (w : Bool) : BitVec 12 := k ++ i ++ bit w

@[simp] theorem fieldBits_class k i w : (fieldBits k i w).extractLsb' 9 3 = k := by
  simp (disch := decide) only [fieldBits, extract_high, BitVec.extractLsb'_eq_self, Nat.reduceSub]

@[simp] theorem fieldBits_index k i w : (fieldBits k i w).extractLsb' 1 8 = i := by
  simp (disch := decide) only [fieldBits, extract_high, extract_low, BitVec.extractLsb'_eq_self, Nat.reduceSub]

@[simp] theorem fieldBits_window k i w : (fieldBits k i w).extractLsb' 6 3 = i.extractLsb' 5 3 := by
  simp (disch := decide) only [fieldBits, extract_high, extract_low, Nat.reduceSub]

@[simp] theorem fieldBits_w k i w : (fieldBits k i w).getLsbD 0 = w := by
  simp (disch := decide) only [fieldBits, getLsbD_low, bit_zero]

@[simp] theorem fieldBits_getElem k i w : (fieldBits k i w)[0] = w := fieldBits_w k i w

theorem exists_fieldBits (f : BitVec 12) : ∃ k i w, f = fieldBits k i w := by
  refine ⟨f.extractLsb' 9 3, f.extractLsb' 1 8, (f.extractLsb' 0 1).getLsbD 0, ?_⟩
  rw [fieldBits, bit_getLsbD_zero, BitVec.extractLsb'_append_extractLsb'_eq_extractLsb' (len₁ := 8) rfl,
    BitVec.extractLsb'_append_extractLsb'_eq_extractLsb' (len₁ := 1) rfl, BitVec.extractLsb'_eq_self]

@[simp] theorem fieldBits_eq_zero {k i w} : fieldBits k i w = 0#12 ↔ k = 0#3 ∧ i = 0#8 ∧ w = false := by
  rw [fieldBits, append_eq_zero_iff, append_eq_zero_iff, and_assoc]
  exact and_congr_right' (and_congr_right' bit_eq_zero)

@[simp] theorem fieldBits_not k i w : ~~~fieldBits k i w = fieldBits (~~~k) (~~~i) (!w) := by
  have hb : ~~~bit w = bit (!w) := by cases w <;> rfl
  rw [fieldBits, fieldBits, BitVec.not_append, BitVec.not_append, hb]

theorem fieldBits_and_mask k i w (mask : BitVec 8) : fieldBits k i w &&& fieldBits 0 mask true = fieldBits 0 (i &&& mask) w := by
  have class_off : k &&& 0 = 0 := BitVec.and_zero
  have w_on : bit w &&& bit true = bit w := by cases w <;> rfl
  rw [fieldBits, fieldBits, fieldBits, BitVec.and_append, BitVec.and_append, class_off, w_on]

@[simp] theorem fieldBits_and_w k i w : fieldBits k i w &&& 1#12 = fieldBits 0 0 w := by
  have index_off : i &&& 0 = 0 := BitVec.and_zero
  rw [show 1#12 = fieldBits 0 0 true from rfl, fieldBits_and_mask, index_off]

@[simp] theorem fieldBits_and_index_w k i w : fieldBits k i w &&& 511#12 = fieldBits 0 i w := by
  rw [show 511#12 = fieldBits 0 (BitVec.allOnes 8) true from rfl, fieldBits_and_mask, BitVec.and_allOnes]

@[simp] theorem fieldBits_and_low_index_w k (i : BitVec 3) (j : BitVec 5) w : fieldBits k (i ++ j) w &&& 63#12 = fieldBits 0 (0#3 ++ j) w := by
  have low : (i ++ j) &&& (0#3 ++ BitVec.allOnes 5) = 0#3 ++ j := by rw [BitVec.and_append, BitVec.and_zero, BitVec.and_allOnes]
  rw [show 63#12 = fieldBits 0 (0#3 ++ BitVec.allOnes 5) true from rfl, fieldBits_and_mask, low]

/-! ### Indexes of fewer than 8 bits -/

theorem toNat_padded {m n : Nat} (i : BitVec n) : (0#m ++ i).toNat = i.toNat := by
  rw [BitVec.toNat_append, BitVec.toNat_ofNat, Nat.zero_mod, Nat.zero_shiftLeft, Nat.zero_or]

theorem toNat_padded_lt {m n : Nat} (i : BitVec n) : (0#m ++ i).toNat < 2 ^ n := by
  rw [toNat_padded]
  exact i.isLt

theorem extract_padded {m n : Nat} (i : BitVec n) : (0#m ++ i).extractLsb' 0 n = i := by
  rw [extract_low _ _ (Nat.zero_add n).le, BitVec.extractLsb'_eq_self]

theorem padded_extract {m n : Nat} {i : BitVec (m + n)} (h : i.toNat < 2 ^ n) : 0#m ++ i.extractLsb' 0 n = i := by
  apply BitVec.eq_of_toNat_eq
  rw [toNat_padded, BitVec.extractLsb'_toNat, Nat.shiftRight_zero, Nat.mod_eq_of_lt h]

/-! ### Operands -/

namespace Opnd

theorem bits_none : bits none = fieldBits 0 0 false := rfl
theorem bits_m i w : bits (m i w) = fieldBits 1 i w := rfl
theorem bits_o i : bits (o i) = fieldBits 2 (0#5 ++ i) true := rfl
theorem bits_l i : bits (l i) = fieldBits 3 (0#7 ++ i) true := rfl
theorem bits_s i w : bits (s i w) = fieldBits 4 (0#2 ++ i) w := rfl
theorem bits_sr i : bits (sr i) = fieldBits 5 i false := rfl
theorem bits_win i : bits (win i) = fieldBits 6 (i ++ 0#5) false := rfl
theorem bits_imm : bits imm = fieldBits 7 0 false := rfl

@[simp] theorem ofBits_bits (x : Opnd) : ofBits x.bits = some x := by
  cases x with
  | none => rfl
  | m i w => simp [ofBits, bits_m]
  | o i =>
    have small : (0#5 ++ i).toNat < 8 := toNat_padded_lt i
    simp only [bits_o, ofBits, fieldBits_class, fieldBits_index, BitVec.reduceToNat, small, if_true, extract_padded (m := 5) i]
  | l i =>
    have small : (0#7 ++ i).toNat < 2 := toNat_padded_lt i
    simp only [bits_l, ofBits, fieldBits_class, fieldBits_index, BitVec.reduceToNat, small, if_true, extract_padded (m := 7) i]
  | s i w =>
    have small : (0#2 ++ i).toNat < 64 := toNat_padded_lt i
    simp only [bits_s, ofBits, fieldBits_class, fieldBits_index, fieldBits_w, BitVec.reduceToNat, small, if_true, extract_padded (m := 2) i]
  | sr i => simp [ofBits, bits_sr]
  | win i => simp [ofBits, bits_win, extract_high i 0#5]
  | imm => rfl

@[simp] theorem badBits_bits (x : Opnd) : badBits x.bits = 0#12 := by
  cases x with
  | none => rfl
  | m i w => simp [badBits, bits_m]
  | o i => simp [badBits, bits_o]
  | l i => simp [badBits, bits_l]
  | s i w => simp [badBits, bits_s]
  | sr i => simp [badBits, bits_sr]
  | win i => simp [badBits, bits_win]
  | imm => rfl

theorem class_cases (k : BitVec 3) : k = 0 ∨ k = 1 ∨ k = 2 ∨ k = 3 ∨ k = 4 ∨ k = 5 ∨ k = 6 ∨ k = 7 := by
  revert k; decide

theorem bits_of_ofBits {f : BitVec 12} {x : Opnd} (h : ofBits f = some x) (clean : badBits f = 0#12) : x.bits = f := by
  obtain ⟨k, i, w, rfl⟩ := exists_fieldBits f
  rcases class_cases k with rfl | rfl | rfl | rfl | rfl | rfl | rfl | rfl
  · obtain ⟨rfl, rfl⟩ : i = 0 ∧ w = false := by simpa [badBits] using clean
    obtain rfl : none = x := by simpa [ofBits] using h
    rfl
  · obtain rfl : m i w = x := by simpa [ofBits] using h
    rfl
  · obtain rfl : w = true := by simpa [badBits] using clean
    obtain ⟨small, rfl⟩ : i.toNat < 8 ∧ o (i.extractLsb' 0 3) = x := by simpa [ofBits] using h
    rw [bits_o, padded_extract (m := 5) small]
  · obtain rfl : w = true := by simpa [badBits] using clean
    obtain ⟨small, rfl⟩ : i.toNat ≤ 1 ∧ l (i.extractLsb' 0 1) = x := by simpa [ofBits] using h
    rw [bits_l, padded_extract (m := 7) (Nat.lt_succ_of_le small)]
  · obtain ⟨small, rfl⟩ : i.toNat < 64 ∧ s (i.extractLsb' 0 6) w = x := by simpa [ofBits] using h
    rw [bits_s, padded_extract (m := 2) small]
  · obtain rfl : w = false := by simpa [badBits] using clean
    obtain rfl : sr i = x := by simpa [ofBits] using h
    rfl
  · obtain ⟨hi, lo, rfl⟩ : ∃ (hi : BitVec 3) (lo : BitVec 5), i = hi ++ lo :=
      ⟨i.extractLsb' 5 3, i.extractLsb' 0 5, (BitVec.extractLsb'_append_extractLsb' (w := 3) (len := 5)).symm⟩
    obtain ⟨low, rfl⟩ : 0#3 ++ lo = 0#8 ∧ w = false := by simpa [badBits] using clean
    obtain rfl : lo = 0#5 := ((append_eq_zero_iff _ _).1 low).2
    obtain rfl : win ((hi ++ 0#5).extractLsb' 5 3) = x := by simpa [ofBits] using h
    rw [bits_win, extract_high hi 0#5 3 le_rfl, BitVec.extractLsb'_eq_self]
  · obtain ⟨rfl, rfl⟩ : i = 0 ∧ w = false := by simpa [badBits] using clean
    obtain rfl : imm = x := by simpa [ofBits] using h
    rfl

/-- What the decoder reads a field for (`fieldOf`) where the field is an operand's. -/
@[simp] theorem fieldOf_bits (x : Opnd) : fieldOf x.bits = x := by
  rw [fieldOf, ofBits_bits, Option.getD_some]

end Opnd

end Sys2Proof
end

section
/-!
PROOFS. Each instruction's place among the words (spec/03 R47 to R60): its opcode, its body, the format of its opcode, and that opcode, body
and FN name it.
-/
namespace Sys2Proof

namespace Body

/-- The header and the operand fields D, A, B and C of a word; a format without a field has none there. -/
def opnds : Body → Hdr × Opnd × Opnd × Opnd × Opnd
  | v h x => (h, x.d, x.a, x.b, x.c)
  | j h x => (h, x.d, x.a, .none, .none)
  | k h x => (h, x.d, .none, .none, .none)

/-- IMM21, which only V and M words have. -/
def imm21 : Body → BitVec 21
  | v _ x => x.imm
  | j _ _ => 0
  | k _ _ => 0

/-- The word of an opcode, a body and an FN. -/
def word (op : BitVec 10) (fn : BitVec 12) : Body → IWord
  | v h x => packV op h x fn
  | j h x => packJ op h x fn
  | k h x => packK op h x fn

/-- The instruction that an opcode, a body and an FN name. -/
def named (op : Nat) (fn : BitVec 12) : Body → Option Instr
  | v h x => mkV op h x fn
  | j h x => mkJ op h x
  | k h x => mkK op h x

/-- The formats of a body: V and M lay a word out alike (R53). -/
inductive Fits : Body → Fmt → Prop
  | v (h : Hdr) (x : VOps) : Fits (.v h x) .v
  | m (h : Hdr) (x : VOps) : Fits (.v h x) .m
  | j (h : Hdr) (x : JOps) : Fits (.j h x) .j
  | k (h : Hdr) (x : KOps) : Fits (.k h x) .k

end Body

namespace Instr

/-- An instruction of the opcode `op` with the body `b`. -/
structure LaidOut (i : Instr) (op : BitVec 10) (b : Body) : Prop where
  op : i.op = some op
  body : i.body = some b
  opnds : i.opnds = some b.opnds
  imm21 : i.imm21 = b.imm21

theorem exists_laidOut {i : Instr} (h : i.opnds.isSome = true) :
    ∃ op b fmt, i.LaidOut op b ∧ opFmt op.toNat = some fmt ∧ b.Fits fmt := by
  cases i
  all_goals try exact (Bool.false_ne_true h).elim
  all_goals exact ⟨_, _, _, ⟨rfl, rfl, rfl, rfl⟩, rfl, by constructor⟩

theorem laidOut_of_mkV {n : Nat} {h : Hdr} {x : VOps} {fn : BitVec 12} {i : Instr} (e : mkV n h x fn = some i) :
    i.LaidOut (BitVec.ofNat 10 n) (.v h x) := by
  unfold mkV at e
  repeat' split at e
  all_goals cases e <;> exact ⟨rfl, rfl, rfl, rfl⟩

theorem laidOut_of_mkJ {n : Nat} {h : Hdr} {x : JOps} {i : Instr} (e : mkJ n h x = some i) : i.LaidOut (BitVec.ofNat 10 n) (.j h x) := by
  unfold mkJ at e
  split at e
  all_goals cases e <;> exact ⟨rfl, rfl, rfl, rfl⟩

theorem laidOut_of_mkK {n : Nat} {h : Hdr} {x : KOps} {i : Instr} (e : mkK n h x = some i) : i.LaidOut (BitVec.ofNat 10 n) (.k h x) := by
  unfold mkK at e
  split at e
  all_goals cases e <;> exact ⟨rfl, rfl, rfl, rfl⟩

theorem laidOut_of_named {op : BitVec 10} {b : Body} {fn : BitVec 12} {i : Instr} (e : b.named op.toNat fn = some i) : i.LaidOut op b := by
  have laid : i.LaidOut (BitVec.ofNat 10 op.toNat) b := by
    cases b with
    | v h x => exact laidOut_of_mkV e
    | j h x => exact laidOut_of_mkJ e
    | k h x => exact laidOut_of_mkK e
  rwa [BitVec.ofNat_toNat, BitVec.setWidth_eq] at laid

end Instr

namespace Laws.Reads

/-- Every instruction's lemma of the family, in the order of the constructors. -/
theorem of_laidOut {i : Instr} {op : BitVec 10} {b : Body} (laid : i.LaidOut op b) : Statement i := by
  obtain ⟨hop, -, -, -⟩ := laid
  cases i
  all_goals try exact (Option.some_ne_none op hop.symm).elim
  exacts [
    bra _ _, brx _ _, call _ _, callx _ _, ret _ _, loopd _ _, exit _ _, nop _ _, iadd _ _ _ _, isub _ _ _ _, iaddc _ _ _ _ _,
    isubb _ _ _ _ _, imul _ _ _, imulh _ _ _, imad _ _ _, imad64 _ _ _, iabs _ _ _ _, imin _ _ _, imax _ _ _, lea _ _ _ _, idiv _ _ _,
    irem _ _ _, and _ _ _, or _ _ _, xor _ _ _, andn _ _ _, lmux _ _ _ _ _, shl _ _ _, shr _ _ _, sar _ _ _, rotl _ _ _, fsh _ _ _,
    bfx _ _ _, bfi _ _ _, popc _ _ _, clz _ _ _, brev _ _ _, bperm _ _ _, icmp _ _ _ _ _ _, ucmp _ _ _ _ _ _, fcmp _ _ _ _ _, gop _ _,
    gpack _ _, gunpk _ _, sel _ _ _ _ _, mov _ _ _, movi _ _, movsp _ _, wrsp _ _, fadd _ _ _, fsub _ _ _, fmul _ _ _, ffma _ _ _,
    fmin _ _, fmax _ _, fdiv _ _ _, frcp _ _ _, fsqrt _ _ _, frsq _ _ _, fexp2 _ _ _, flog2 _ _ _, frnd _ _ _, fclass _ _,
    fscale _ _ _, hadd2 _ _ _ _, hmul2 _ _ _ _, hfma2 _ _ _ _, hmin2 _ _ _, hmax2 _ _ _, vadd2 _ _ _ _, vsub2 _ _ _ _, vmin2 _ _ _,
    vmax2 _ _ _, vabsd2 _ _ _, acs2 _ _ _, vadd4 _ _ _ _, vsub4 _ _ _ _, vmin4 _ _ _, vmax4 _ _ _, dot4 _ _ _ _, dot8 _ _ _ _,
    cvt _ _ _ _ _, cvtp _ _ _ _, cvtn _ _ _ _ _, cvtw _ _ _ _, hqs _ _ _ _, hq _ _ _ _, hdq _ _ _ _ _, scl _ _ _ _ _, shfl _ _ _ _ _,
    shflw _ _ _ _ _, vote _ _ _ _, wsync _ _ _, rdx _ _ _ _ _, join _ _ _ _, jwait _ _ _, jwaitt _ _ _, jget _ _ _, jset _ _ _,
    bcast _ _ _ _, vread _ _ _ _, ld _ _ _ _ _, st _ _ _ _ _, ldo _ _ _ _, sto _ _ _ _ _, pf _ _ _ _, atom _ _ _ _ _ _,
    ared _ _ _ _ _ _, acas _ _ _ _ _, binit _ _ _ _ _ _, binitRetire _ _ _ _, barr _ _ _ _, bexp _ _ _ _, bwait _ _ _, bwaitt _ _ _,
    bstat _ _ _, bind _ _ _, unbind _ _ _, fence _ _ _ _, fencex _ _ _, fencerec _ _ _ _, cpy _ _ _ _ _ _, cpyt _ _ _ _ _ _ _,
    cpyg _ _ _ _ _ _, cpyn _ _ _ _, bget _ _ _, bputGet _ _ _, bputPut _ _ _, bfree _ _ _, bbindRq _ _ _, bbindOff _ _ _, dadv _ _,
    dstat _ _, ckill _ _ _, mxm _ _ _ _ _ _ _, mxc _ _ _ _ _ _ _ _ _, msca _ _ _ _ _ _, mzero _ _ _ _ _ _, ldf _ _ _ _ _,
    stf _ _ _ _ _, mxrd _ _ _ _ _, relay _ _, nget _ _ _, nred _ _ _ _, ncvt _ _ _ _ _, trapSw _ _, trapHset _ _, trapHget _ _,
    rte _ _ _, rdf _ _, brkHit _ _, brkBp _ _, brkWp _ _, setroot _ _, retype _ _, tinv _ _, evtack _ _, yld _ _, launch _ _, opreq _ _]

end Laws.Reads

namespace Instr

theorem named_fn {i : Instr} {op : BitVec 10} {b : Body} (laid : i.LaidOut op b) (mods : i.modsOk = true) : b.named op.toNat i.fn = some i := by
  have reads := Laws.Reads.of_laidOut laid
  obtain ⟨hop, body, -, -⟩ := laid
  simp only [Laws.Reads.Statement, hop, body] at reads
  cases b with
  | v h x => exact reads mods
  | j h x => exact reads
  | k h x => exact reads

theorem encode_eq {i : Instr} {op : BitVec 10} {b : Body} (laid : i.LaidOut op b) : encode i = some (b.word op i.fn) := by
  obtain ⟨hop, body, -, -⟩ := laid
  cases b <;> simp only [encode, hop, body, Body.word]

end Instr

end Sys2Proof
end

section
/-!
PROOFS. The fields of a word (spec/03 R48 to R55): what each format lays out is read again, and a word is what its fields lay out.
-/
namespace Sys2Proof

/-! ### Reading a word that is laid out -/

section
variable (op : BitVec 10) (h : Hdr) (fn : BitVec 12)

theorem packV_op (x : VOps) : (packV op h x fn).extractLsb' 86 10 = op := by
  simp (disch := decide) only [packV, Hdr.bits, extract_high, BitVec.extractLsb'_eq_self, Nat.reduceSub]

theorem packJ_op (x : JOps) : (packJ op h x fn).extractLsb' 86 10 = op := by
  simp (disch := decide) only [packJ, Hdr.bits, extract_high, BitVec.extractLsb'_eq_self, Nat.reduceSub]

theorem packK_op (x : KOps) : (packK op h x fn).extractLsb' 86 10 = op := by
  simp (disch := decide) only [packK, Hdr.bits, extract_high, BitVec.extractLsb'_eq_self, Nat.reduceSub]

theorem packV_hdr (x : VOps) : Hdr.ofWord (packV op h x fn) = h := by
  simp (disch := decide) only [packV, Hdr.ofWord, Hdr.bits, getLsbD_high, getLsbD_low, bit_zero, extract_high, extract_low,
    BitVec.extractLsb'_eq_self, Nat.reduceSub]

theorem packJ_hdr (x : JOps) : Hdr.ofWord (packJ op h x fn) = h := by
  simp (disch := decide) only [packJ, Hdr.ofWord, Hdr.bits, getLsbD_high, getLsbD_low, bit_zero, extract_high, extract_low,
    BitVec.extractLsb'_eq_self, Nat.reduceSub]

theorem packK_hdr (x : KOps) : Hdr.ofWord (packK op h x fn) = h := by
  simp (disch := decide) only [packK, Hdr.ofWord, Hdr.bits, getLsbD_high, getLsbD_low, bit_zero, extract_high, extract_low,
    BitVec.extractLsb'_eq_self, Nat.reduceSub]

theorem packV_opnds (x : VOps) : rawFields .v (packV op h x fn) = (x.d.bits, x.a.bits, x.b.bits, x.c.bits) := by
  simp (disch := decide) only [rawFields, packV, extract_high, extract_low, BitVec.extractLsb'_eq_self, Nat.reduceSub]

theorem packJ_opnds (x : JOps) : rawFields .j (packJ op h x fn) = (x.d.bits, x.a.bits, 0, 0) := by
  simp (disch := decide) only [rawFields, packJ, extract_high, extract_low, BitVec.extractLsb'_eq_self, Nat.reduceSub]

theorem packK_opnds (x : KOps) : rawFields .k (packK op h x fn) = (x.d.bits, 0, 0, 0) := by
  simp (disch := decide) only [rawFields, packK, extract_high, extract_low, BitVec.extractLsb'_eq_self, Nat.reduceSub]

theorem packV_fn (x : VOps) : rawFn .v (packV op h x fn) = fn := by
  simp (disch := decide) only [rawFn, packV, extract_high, extract_low, BitVec.extractLsb'_eq_self, Nat.reduceSub]

theorem packJ_fn (x : JOps) : rawFn .j (packJ op h x fn) = fn := by
  simp (disch := decide) only [rawFn, packJ, extract_high, extract_low, BitVec.extractLsb'_eq_self, Nat.reduceSub]

theorem packK_fn (x : KOps) : rawFn .k (packK op h x fn) = fn := by
  simp (disch := decide) only [rawFn, packK, extract_high, extract_low, BitVec.extractLsb'_eq_self, Nat.reduceSub]

theorem packV_imm (x : VOps) : (packV op h x fn).extractLsb' 0 21 = x.imm := by
  simp (disch := decide) only [packV, extract_low, BitVec.extractLsb'_eq_self]

theorem packJ_target (x : JOps) : (packJ op h x fn).extractLsb' 24 21 = x.off ∧ (packJ op h x fn).extractLsb' 21 3 = x.slot := by
  constructor <;> simp (disch := decide) only [packJ, extract_high, extract_low, BitVec.extractLsb'_eq_self, Nat.reduceSub]

theorem packK_imm (x : KOps) : (packK op h x fn).extractLsb' 37 32 = x.imm := by
  simp (disch := decide) only [packK, extract_high, extract_low, BitVec.extractLsb'_eq_self, Nat.reduceSub]

theorem packJ_zeros (x : JOps) : (packJ op h x fn).extractLsb' 45 12 = 0#12 ∧ (packJ op h x fn).extractLsb' 0 9 = 0#9 := by
  constructor <;> simp (disch := decide) only [packJ, extract_high, extract_low, BitVec.extractLsb'_eq_self, Nat.reduceSub]

theorem packK_zeros (x : KOps) : (packK op h x fn).extractLsb' 0 25 = 0#25 := by
  simp (disch := decide) only [packK, extract_low, BitVec.extractLsb'_eq_self]

end

/-! ### Laying out what a word reads -/

section
variable (w : IWord)

theorem bit_getLsbD (k : Nat) : bit (w.getLsbD k) = w.extractLsb' k 1 := by
  rw [← bit_getLsbD_zero (w.extractLsb' k 1), BitVec.getLsbD_extractLsb', Nat.add_zero, decide_eq_true Nat.one_pos, Bool.true_and]

theorem hdr_ofWord : (Hdr.ofWord w).bits (w.extractLsb' 86 10) = w.extractLsb' 81 15 := by
  rw [Hdr.bits, Hdr.ofWord, bit_getLsbD, bit_getLsbD, BitVec.extractLsb'_append_extractLsb'_eq_extractLsb' (len₁ := 1) rfl,
    BitVec.extractLsb'_append_extractLsb'_eq_extractLsb' (len₁ := 1) rfl, BitVec.extractLsb'_append_extractLsb'_eq_extractLsb' (len₁ := 3) rfl]

variable {w}

theorem packV_ofWord {x : VOps} (d : x.d.bits = w.extractLsb' 69 12) (a : x.a.bits = w.extractLsb' 57 12) (b : x.b.bits = w.extractLsb' 45 12)
    (c : x.c.bits = w.extractLsb' 33 12) (imm : x.imm = w.extractLsb' 0 21) :
    packV (w.extractLsb' 86 10) (Hdr.ofWord w) x (w.extractLsb' 21 12) = w := by
  rw [packV, hdr_ofWord, d, a, b, c, imm]
  iterate 6 rw [BitVec.extractLsb'_append_extractLsb'_eq_extractLsb']
  · exact BitVec.extractLsb'_eq_self
  all_goals rfl

theorem packJ_ofWord {x : JOps} (d : x.d.bits = w.extractLsb' 69 12) (a : x.a.bits = w.extractLsb' 57 12) (off : x.off = w.extractLsb' 24 21)
    (slot : x.slot = w.extractLsb' 21 3) (mid : w.extractLsb' 45 12 = 0#12) (low : w.extractLsb' 0 9 = 0#9) :
    packJ (w.extractLsb' 86 10) (Hdr.ofWord w) x (w.extractLsb' 9 12) = w := by
  rw [packJ, hdr_ofWord, d, a, off, slot, ← mid, ← low]
  iterate 7 rw [BitVec.extractLsb'_append_extractLsb'_eq_extractLsb']
  · exact BitVec.extractLsb'_eq_self
  all_goals rfl

theorem packK_ofWord {x : KOps} (d : x.d.bits = w.extractLsb' 69 12) (imm : x.imm = w.extractLsb' 37 32) (low : w.extractLsb' 0 25 = 0#25) :
    packK (w.extractLsb' 86 10) (Hdr.ofWord w) x (w.extractLsb' 25 12) = w := by
  rw [packK, hdr_ofWord, d, imm, ← low]
  iterate 4 rw [BitVec.extractLsb'_append_extractLsb'_eq_extractLsb']
  · exact BitVec.extractLsb'_eq_self
  all_goals rfl

end

end Sys2Proof
end

section
/-!
PROOFS. What it takes for a word to decode (spec/03 R61), fault by fault: the must-be-zero bits, the operand fields, FN and the checks of
`Instr.wf`.
-/
namespace Sys2Proof

/-! ### F_MBZ -/

theorem highBit_eq_none_iff {w : IWord} : highBit w = none ↔ w = 0 := by
  rw [highBit]
  split <;> simp_all

theorem placed_eq_zero_iff {f : BitVec 12} {k : Nat} (h : k + 12 ≤ 96) : f.setWidth 96 <<< k = 0#96 ↔ f = 0#12 := by
  constructor
  · intro e
    ext n hn
    have bit := congrArg (·.getLsbD (k + n)) e
    simpa [hn, show k + n < 96 by omega] using bit
  · rintro rfl
    simp

theorem setWidth_eq_zero_iff {f : BitVec 21} : f.setWidth 96 = 0#96 ↔ f = 0#21 := by
  constructor
  · intro e
    ext n hn
    have bit := congrArg (·.getLsbD n) e
    simpa [hn, show n < 96 by omega] using bit
  · rintro rfl
    rfl

theorem and_mask_eq_zero_iff {w : IWord} {lo n : Nat} (h : lo + n ≤ 96) :
    w &&& ((BitVec.allOnes n).setWidth 96 <<< lo) = 0#96 ↔ w.extractLsb' lo n = 0#n := by
  constructor
  · intro e
    ext k hk
    have bit := congrArg (·.getLsbD (lo + k)) e
    simpa [hk, show lo + k < 96 by omega] using bit
  · intro e
    ext k hk
    by_cases inside : lo ≤ k ∧ k - lo < n
    · have bit : w[k] = false := by simpa [inside, hk] using congrArg (·.getLsbD (k - lo)) e
      simp [bit]
    · simp
      omega

/-- The format's own must-be-zero bits are zero: the bits of IMM21 that the shape leaves unused (R50), or the spaces of R54 and R55. -/
def OwnClean (fmt : Fmt) (w : IWord) (s : Shape) (taken : Bool) : Prop :=
  match fmt with
  | .v | .m => s.imm.mbz taken &&& w.extractLsb' 0 21 = 0#21
  | .j => w.extractLsb' 45 12 = 0#12 ∧ w.extractLsb' 0 9 = 0#9
  | .k => w.extractLsb' 0 25 = 0#25

/-- Whether a field of these takes IMM21. -/
def anyTakesImm (d a b c : Opnd) : Bool := a.takesImm || b.takesImm || c.takesImm || d.takesImm

section
variable {fmt : Fmt} {w : IWord} {d a b c : BitVec 12}

theorem mbzBits_eq_zero_iff {s : Shape} (raw : rawFields fmt w = (d, a, b, c)) :
    mbzBits fmt w s = 0 ↔ Opnd.badBits d = 0#12 ∧ Opnd.badBits a = 0#12 ∧ Opnd.badBits b = 0#12 ∧ Opnd.badBits c = 0#12 ∧
      OwnClean fmt w s (anyTakesImm (fieldOf d) (fieldOf a) (fieldOf b) (fieldOf c)) := by
  have jOwn : w &&& (0xFFF#96 <<< 45 ||| 0x1FF#96) = 0#96 ↔ w.extractLsb' 45 12 = 0#12 ∧ w.extractLsb' 0 9 = 0#9 := by
    rw [← and_mask_eq_zero_iff (n := 12) (by decide), ← and_mask_eq_zero_iff (n := 9) (by decide), ← BitVec.or_eq_zero_iff,
      ← BitVec.and_or_distrib_left]
    rfl
  have kOwn : w &&& 0x1FFFFFF#96 = 0#96 ↔ w.extractLsb' 0 25 = 0#25 := and_mask_eq_zero_iff (lo := 0) (n := 25) (by decide)
  simp only [mbzBits, raw, BitVec.or_eq_zero_iff, BitVec.ofNat_eq_ofNat, and_assoc, placed_eq_zero_iff (k := 69) (by decide),
    placed_eq_zero_iff (k := 57) (by decide), placed_eq_zero_iff (k := 45) (by decide), placed_eq_zero_iff (k := 33) (by decide)]
  cases fmt <;> simp only [OwnClean, anyTakesImm, setWidth_eq_zero_iff, jOwn, kOwn]

/-! ### F_ILLMOD -/

theorem fieldOk_iff {n : Nat} {u : Use} {f : BitVec 12} : fieldOk n u f = true ↔ ∃ x, Opnd.ofBits f = some x ∧ u.admits n x = true := by
  rw [fieldOk]
  cases Opnd.ofBits f <;> simp

theorem first_fault_eq_none_iff {p : Prop} [Decidable p] {k : Nat} {later : Option Nat} :
    (if p then some k else later) = none ↔ ¬p ∧ later = none := by
  split <;> simp [*]

theorem illmodAt_eq_none_iff {n : Nat} {i : Instr} {good : Bool} (raw : rawFields fmt w = (d, a, b, c)) :
    illmodAt n fmt w i good = none ↔
      good = true ∧ i.immOk = true ∧
        (fieldOk n i.shape.d d = true ∧ fieldOk n i.shape.a a = true ∧ fieldOk n i.shape.b b = true ∧ fieldOk n i.shape.c c = true) ∧
        ((fieldOf a).takesImm && (fieldOf b).takesImm) = false ∧
        ((fieldOf c).takesImm && ((fieldOf a).takesImm || (fieldOf b).takesImm)) = false := by
  simp only [illmodAt, raw, first_fault_eq_none_iff]
  cases good with
  | false => simp
  | true => grind

end

/-! ### The checks in order -/

theorem decodeWord_eq_ok_iff {cx : DecCtx} {w : IWord} {i : Instr} : decodeWord cx w = .ok i ↔
    ∃ fmt, opFmt (w.extractLsb' 86 10).toNat = some fmt ∧ build fmt w (rawFn fmt w) = some i ∧ i.permitted cx = true ∧
      mbzBits fmt w i.shape = 0 ∧ illmodAt cx.n fmt w i (fnOk (rawFn fmt w) i) = none ∧ i.slotOk = true := by
  constructor
  · intro h
    dsimp only [decodeWord] at h
    repeat' split at h
    all_goals cases h
    next fmt assigned _ _ _ built permitted clean fields target =>
      exact ⟨fmt, assigned, built, by simpa using permitted, highBit_eq_none_iff.1 clean, fields, target⟩
  · rintro ⟨fmt, assigned, built, permitted, clean, fields, target⟩
    simp only [decodeWord, assigned, built, permitted, highBit_eq_none_iff.2 clean, fields, target, Bool.not_true, Bool.false_eq_true,
      if_true, if_false]

theorem opndsOk_iff {n : Nat} {i : Instr} {h : Hdr} {d a b c : Opnd} (hi : i.opnds = some (h, d, a, b, c)) :
    i.opndsOk n = true ↔
      (i.shape.d.admits n d = true ∧ i.shape.a.admits n a = true ∧ i.shape.b.admits n b = true ∧ i.shape.c.admits n c = true) ∧
      ((a.takesImm && b.takesImm) = false ∧ (c.takesImm && (a.takesImm || b.takesImm)) = false) ∧
      i.shape.imm.mbz (a.takesImm || b.takesImm || c.takesImm) &&& i.imm21 = 0 := by
  have one : ([a, b, c].filter Opnd.takesImm).length ≤ 1 ↔
      (a.takesImm && b.takesImm) = false ∧ (c.takesImm && (a.takesImm || b.takesImm)) = false := by
    cases ha : a.takesImm <;> cases hb : b.takesImm <;> cases hc : c.takesImm <;> simp [ha, hb, hc]
  simp only [Instr.opndsOk, hi, Bool.and_eq_true, decide_eq_true_eq, one, and_assoc]

end Sys2Proof
end

section
/-!
PROOFS. The decoder and the encoder undo each other (spec/03 R47 to R49, R60, R61): a word laid out of a body decodes to the instruction it
names where that is well formed, and a word that decodes is laid out of a body.
-/
namespace Sys2Proof

/-! ### A destination takes no IMM21 -/

/-- The use accepts neither an immediate nor a window. -/
def Use.noImm : Use → Bool
  | .unused => true
  | .must cs _ | .may cs _ => !cs.contains .win && !cs.contains .imm

theorem Use.takesImm_of_noImm {u : Use} {n : Nat} {x : Opnd} (h : u.noImm = true) (ok : u.admits n x = true) : x.takesImm = false := by
  cases x with
  | win _ => cases u <;> simp_all [Use.noImm, Use.admits, Opnd.fits, Opnd.cls]
  | imm => cases u <;> simp_all [Use.noImm, Use.admits, Opnd.fits, Opnd.cls]
  | _ => rfl

theorem Instr.shape_d_noImm (i : Instr) : i.shape.d.noImm = true := by
  cases i with
  | vote _ _ _ full => cases full <;> rfl
  | rdx _ _ _ _ _ =>
    show Use.noImm (.must (if _ then Cls.dst else Cls.dstT) 1) = true
    split <;> rfl
  | ld _ _ _ spc _ => cases spc <;> rfl
  | ldo _ _ _ spc => cases spc <;> rfl
  | atom _ _ _ _ spc _ => cases spc <;> rfl
  | acas _ _ _ spc _ => cases spc <;> rfl
  | bstat _ _ gw => cases gw <;> rfl
  | fencerec _ _ _ all => cases all <;> rfl
  | mxm _ _ _ _ part => cases part <;> rfl
  | mxc _ _ _ _ _ part => cases part <;> rfl
  | mzero _ _ _ _ tile => cases tile <;> rfl
  | rdf _ _ =>
    show Use.noImm (.must (if _ then [.m, .o, .s] else if _ then Cls.dst else Cls.dstT) _) = true
    split_ifs <;> rfl
  | _ => rfl

/-! ### The word of a body -/

namespace Body
variable {b : Body} {fmt : Fmt}

/-- The operands of a body as the bits of the four fields. -/
def opndBits (b : Body) : BitVec 12 × BitVec 12 × BitVec 12 × BitVec 12 :=
  (b.opnds.2.1.bits, b.opnds.2.2.1.bits, b.opnds.2.2.2.1.bits, b.opnds.2.2.2.2.bits)

section
variable (op : BitVec 10) (fn : BitVec 12)

theorem word_op (b : Body) : (b.word op fn).extractLsb' 86 10 = op := by
  cases b with
  | v h x => exact packV_op op h fn x
  | j h x => exact packJ_op op h fn x
  | k h x => exact packK_op op h fn x

theorem word_fn (fits : b.Fits fmt) : rawFn fmt (b.word op fn) = fn := by
  cases fits with
  | v h x | m h x => exact packV_fn op h fn x
  | j h x => exact packJ_fn op h fn x
  | k h x => exact packK_fn op h fn x

theorem word_opnds (fits : b.Fits fmt) : rawFields fmt (b.word op fn) = b.opndBits := by
  cases fits with
  | v h x | m h x => exact packV_opnds op h fn x
  | j h x => exact packJ_opnds op h fn x
  | k h x => exact packK_opnds op h fn x

theorem build_word (fits : b.Fits fmt) (fn' : BitVec 12) : build fmt (b.word op fn) fn' = b.named op.toNat fn' := by
  cases fits with
  | v h x => simp only [build, word, named, packV_op, packV_opnds, packV_hdr, packV_imm, Opnd.fieldOf_bits]
  | m h x =>
    have raw : rawFields .m (packV op h x fn) = _ := packV_opnds op h fn x
    simp only [build, word, named, packV_op, raw, packV_hdr, packV_imm, Opnd.fieldOf_bits]
  | j h x => simp only [build, word, named, packJ_op, packJ_opnds, packJ_hdr, packJ_target, Opnd.fieldOf_bits]
  | k h x => simp only [build, word, named, packK_op, packK_opnds, packK_hdr, packK_imm, Opnd.fieldOf_bits]

theorem word_ownClean (fits : b.Fits fmt) (s : Shape) (taken : Bool) :
    OwnClean fmt (b.word op fn) s taken ↔ s.imm.mbz taken &&& b.imm21 = 0 := by
  cases fits with
  | v h x | m h x =>
    simp only [OwnClean, word, imm21, packV_imm]
    rfl
  | j h x => simp [OwnClean, word, imm21, packJ_zeros]
  | k h x => simp [OwnClean, word, imm21, packK_zeros]

end

/-- The body is read from the word's own fields. -/
theorem exists_word {fmt : Fmt} {w : IWord} {d a b c : BitVec 12} {x y z u : Opnd} {s : Shape} {taken : Bool}
    (raw : rawFields fmt w = (d, a, b, c)) (hd : x.bits = d) (ha : y.bits = a) (hb : z.bits = b) (hc : u.bits = c)
    (own : OwnClean fmt w s taken) : ∃ body : Body, body.Fits fmt ∧ body.word (w.extractLsb' 86 10) (rawFn fmt w) = w := by
  subst hd ha hb hc
  cases fmt with
  | v | m =>
    obtain ⟨d, a, b, c⟩ : w.extractLsb' 69 12 = x.bits ∧ w.extractLsb' 57 12 = y.bits ∧ w.extractLsb' 45 12 = z.bits ∧
        w.extractLsb' 33 12 = u.bits := by
      simpa [rawFields] using raw
    exact ⟨.v (Hdr.ofWord w) ⟨x, y, z, u, w.extractLsb' 0 21⟩, by constructor, packV_ofWord d.symm a.symm b.symm c.symm rfl⟩
  | j =>
    obtain ⟨d, a, -⟩ : w.extractLsb' 69 12 = x.bits ∧ w.extractLsb' 57 12 = y.bits ∧ _ := by simpa [rawFields] using raw
    obtain ⟨mid, low⟩ := own
    exact ⟨.j (Hdr.ofWord w) ⟨x, y, w.extractLsb' 24 21, w.extractLsb' 21 3⟩, .j _ _, packJ_ofWord d.symm a.symm rfl rfl mid low⟩
  | k =>
    obtain ⟨d, -⟩ : w.extractLsb' 69 12 = x.bits ∧ _ := by simpa [rawFields] using raw
    exact ⟨.k (Hdr.ofWord w) ⟨x, w.extractLsb' 37 32⟩, .k _ _, packK_ofWord d.symm rfl own⟩

end Body

theorem Instr.wf_iff {cx : DecCtx} {i : Instr} : i.wf cx = true ↔
    i.permitted cx = true ∧ i.modsOk = true ∧ i.immOk = true ∧ i.opndsOk cx.n = true ∧ i.slotOk = true := by
  simp only [Instr.wf, Bool.and_eq_true, and_assoc]

theorem fieldOk_bits {n : Nat} {u : Use} {x : Opnd} : fieldOk n u x.bits = u.admits n x := by
  rw [fieldOk, Opnd.ofBits_bits]

theorem decodeWord_word_iff {cx : DecCtx} {op : BitVec 10} {fn : BitVec 12} {b : Body} {fmt : Fmt} {i : Instr}
    (assigned : opFmt op.toNat = some fmt) (fits : b.Fits fmt) :
    decodeWord cx (b.word op fn) = .ok i ↔ b.named op.toNat fn = some i ∧ i.fn = fn ∧ i.wf cx = true := by
  simp only [decodeWord_eq_ok_iff, Body.word_op, assigned, Option.some.injEq, exists_eq_left', Body.build_word op fn fits, Body.word_fn op fn fits]
  refine and_congr_right fun named => ?_
  have laid := Instr.laidOut_of_named named
  have raw := Body.word_opnds op fn fits
  obtain ⟨h, d, a, b', c, opnds⟩ : ∃ h d a b' c, b.opnds = (h, d, a, b', c) := ⟨_, _, _, _, _, rfl⟩
  have noImm : i.shape.d.admits cx.n d = true → d.takesImm = false := Use.takesImm_of_noImm i.shape_d_noImm
  simp only [Body.opndBits, opnds] at raw
  rw [mbzBits_eq_zero_iff raw, illmodAt_eq_none_iff raw]
  simp only [Instr.wf_iff, opndsOk_iff (laid.opnds.trans (congrArg some opnds)), Opnd.fieldOf_bits, Opnd.badBits_bits, fieldOk_bits,
    Body.word_ownClean op fn fits, fnOk, laid.imm21, Bool.and_eq_true, decide_eq_true_eq, anyTakesImm, true_and]
  constructor
  · rintro ⟨permitted, unused, ⟨⟨hfn, mods⟩, imm, ⟨hd, fields⟩, one, two⟩, slot⟩
    rw [noImm hd, Bool.or_false] at unused
    exact ⟨hfn, permitted, mods, imm, ⟨⟨hd, fields⟩, ⟨one, two⟩, unused⟩, slot⟩
  · rintro ⟨hfn, permitted, mods, imm, ⟨⟨hd, fields⟩, ⟨one, two⟩, unused⟩, slot⟩
    rw [noImm hd, Bool.or_false]
    exact ⟨permitted, unused, ⟨⟨hfn, mods⟩, imm, ⟨hd, fields⟩, one, two⟩, slot⟩

theorem exists_word_of_decodeWord {cx : DecCtx} {w : IWord} {i : Instr} (h : decodeWord cx w = .ok i) :
    ∃ (op : BitVec 10) (b : Body) (fmt : Fmt) (fn : BitVec 12), opFmt op.toNat = some fmt ∧ b.Fits fmt ∧ b.word op fn = w := by
  obtain ⟨fmt, assigned, -, -, clean, fields, -⟩ := decodeWord_eq_ok_iff.1 h
  obtain ⟨d, a, b, c, raw⟩ : ∃ d a b c, rawFields fmt w = (d, a, b, c) := ⟨_, _, _, _, rfl⟩
  obtain ⟨-, -, ⟨hd, ha, hb, hc⟩, -⟩ := (illmodAt_eq_none_iff raw).1 fields
  obtain ⟨cd, ca, cb, cc, own⟩ := (mbzBits_eq_zero_iff raw).1 clean
  obtain ⟨x, hx, -⟩ := fieldOk_iff.1 hd
  obtain ⟨y, hy, -⟩ := fieldOk_iff.1 ha
  obtain ⟨z, hz, -⟩ := fieldOk_iff.1 hb
  obtain ⟨u, hu, -⟩ := fieldOk_iff.1 hc
  obtain ⟨body, fits, word⟩ := Body.exists_word raw (Opnd.bits_of_ofBits hx cd) (Opnd.bits_of_ofBits hy ca) (Opnd.bits_of_ofBits hz cb)
    (Opnd.bits_of_ofBits hu cc) own
  exact ⟨_, body, fmt, _, assigned, fits, word⟩

/-- Settles O57: an instruction is laid out of its body, and what its own opcode, body and FN name is the instruction itself. -/
theorem decodeEncode : Obligations.DecodeEncode := by
  intro cx i wf
  obtain ⟨-, mods, -, opnds, -⟩ := Instr.wf_iff.1 wf
  have isInstr : i.opnds.isSome = true := by
    cases h : i.opnds with
    | none => simp [Instr.opndsOk, h] at opnds
    | some _ => rfl
  obtain ⟨op, b, fmt, laid, assigned, fits⟩ := Instr.exists_laidOut isInstr
  exact ⟨b.word op i.fn, Instr.encode_eq laid, (decodeWord_word_iff assigned fits).2 ⟨Instr.named_fn laid mods, rfl, wf⟩⟩

/-- Settles O58: a word that decodes is laid out of a body, which is the body of the instruction that it names. -/
theorem encodeDecode : Obligations.EncodeDecode := by
  intro cx w i h
  obtain ⟨op, b, fmt, fn, assigned, fits, rfl⟩ := exists_word_of_decodeWord h
  obtain ⟨named, rfl, wf⟩ := (decodeWord_word_iff assigned fits).1 h
  exact ⟨wf, Instr.encode_eq (Instr.laidOut_of_named named)⟩

/-- Settles O56: each word is evaluated. -/
theorem wordsDecode : Obligations.WordsDecode := by
  unfold Obligations.WordsDecode
  decide

end Sys2Proof
end


/-!
Integer arithmetic (R90 to R94): each meaning is the plain pattern, and its value the exact result wrapped or clamped.
-/
section
namespace Sys2Proof.Machine

theorem Thread.setGuard_t (th : Thread) (k : BitVec 3) (b : Bool) : (th.setGuard k b).t = th.t := by
  unfold Thread.setGuard
  split <;> rfl

/-- A two-source integer form writes its result, clamped or wrapped. -/
theorem Computes.of_arith2 {ins : Instr} {h : Hdr} {x : VOps} {t : Ty} {sat : Bool} (f : Int → Int → Int)
    (he : ∀ s, exec ins s = s.arith2 h x t sat f) :
    Computes ins h x.d t.words (flds x t.words t.words 0) x.imm fun s i th =>
      let r := f (numOf t (i.arg s x.imm x.a t.words th)) (numOf t (i.arg s x.imm x.b t.words th))
      if sat then satOf t r else wrapN (tyBits t) r :=
  Computes.of_plain (Wid.same t 2)
    (fun u => if sat then satOf t (f (numOf t u.a) (numOf t u.b)) else wrapN (tyBits t) (f (numOf t u.a) (numOf t u.b))) he fun _ _ _ => rfl

/-- A form that writes D and a carry to a guard. -/
theorem Plainly.of_carry {ins : Instr} {h : Hdr} {x : VOps} {t : Ty} {co : BitVec 3} (f : TIn → Nat × Bool)
    (he : ∀ s, exec ins s = s.plain h x (Wid.same t 2) false fun v => { d := some (f v).1, th := fun th => th.setGuard co (f v).2 }) :
    Plainly ins h x.d t.words (flds x t.words t.words 0) x.imm false
      (fun s i th u => u.setGuard co (f (s.tin i x (Wid.same t 2) th)).2) fun s i th => (f (s.tin i x (Wid.same t 2) th)).1 :=
  Plainly.of_plain (Wid.same t 2) _ he (fun _ => nofun) (fun _ _ => Thread.setGuard_t ..) (fun _ _ _ => rfl) fun _ _ _ => rfl

/-- Settles O1: every form is `State.plain`, with the value that the statement writes out. -/
theorem integerArithmeticComputes : Obligations.IntegerArithmeticComputes := by
  constructor
  · intro h x t sat sh w num wrap narrow
    have plain {ins : Instr} := Computes.of_arith2 (ins := ins) (h := h) (x := x) (t := t) (sat := false)
    refine ⟨Computes.of_arith2 (· + ·) fun _ => rfl, Computes.of_arith2 (· - ·) fun _ => rfl, plain (· * ·) fun _ => rfl,
      plain (fun a b => a * b / (2 ^ tyBits t : Nat)) fun _ => rfl, plain min fun _ => rfl, plain max fun _ => rfl, ?mad, ?mad64, ?abs, ?lea⟩
    case mad =>
      exact Computes.of_plain (Wid.same t 3) (fun u => wrapN (tyBits t) (numOf t u.a * numOf t u.b + numOf t u.c)) (fun _ => rfl)
        fun _ _ _ => rfl
    case mad64 =>
      exact Computes.of_plain { d := 2, a := 1, b := 1, c := 2 } (fun u => wrapN 64 (numOf t u.a * numOf t u.b + u.c)) (fun _ => rfl)
        fun _ _ _ => rfl
    case abs =>
      refine Computes.of_plain (Wid.same t 1) (fun u => if sat then satOf t (numOf t u.a).natAbs else wrapN (tyBits t) (numOf t u.a).natAbs)
        (fun _ => rfl) fun s i th => ?_
      simp only [Int.natCast_natAbs]
      rfl
    case lea =>
      refine Computes.of_plain { d := 2, a := 2, b := t.words } (fun u => wrapN 64 (u.a + numOf t u.b * (2 ^ sh.toNat : Nat)))
        (fun _ => rfl) fun s i th => ?_
      simp only [Nat.cast_pow, Nat.cast_ofNat]
      rfl
  · intro h x t ci co w cin sum diff
    exact ⟨Plainly.of_carry (fun v => addCarry (tyBits t) v.a v.b (carryIn v.th ci)) fun _ => rfl,
      Plainly.of_carry (fun v => subBorrow (tyBits t) v.a v.b (carryIn v.th ci)) fun _ => rfl⟩

end Sys2Proof.Machine
end


/-!
Logic and bit manipulation (R95 to R98): each meaning is the plain pattern, and its value that of the bit vector operation, or, bit by bit,
that of its rule.
-/
section
namespace Sys2Proof.Machine

/-! ### Numbers by their bits -/

theorem bitN_eq_testBit (v i : Nat) : bitN v i = v.testBit i := Nat.testBit_eq_decide_div_mod_eq.symm

theorem ofBitsN_succ (w : Nat) (f : Nat → Bool) : ofBitsN (w + 1) f = if f w then ofBitsN w f + 2 ^ w else ofBitsN w f := by
  simp only [ofBitsN, List.range_succ, List.foldl_append, List.foldl_cons, List.foldl_nil]

theorem ofBitsN_lt (w : Nat) (f : Nat → Bool) : ofBitsN w f < 2 ^ w := by
  induction w with
  | zero => exact Nat.one_pos
  | succ w ih =>
    rw [ofBitsN_succ, Nat.pow_succ]
    split <;> omega

theorem testBit_ofBitsN {w k : Nat} (f : Nat → Bool) (hk : k < w) : (ofBitsN w f).testBit k = f k := by
  induction w with
  | zero => exact absurd hk (Nat.not_lt_zero k)
  | succ w ih =>
    rw [ofBitsN_succ]
    rcases Nat.lt_succ_iff_lt_or_eq.1 hk with hlt | rfl
    · split
      · rw [Nat.add_comm, Nat.testBit_two_pow_add_gt hlt, ih hlt]
      · exact ih hlt
    · have top : (ofBitsN k f).testBit k = false := Nat.testBit_lt_two_pow (ofBitsN_lt k f)
      split
      · next h => rw [Nat.add_comm, Nat.testBit_two_pow_add_eq, top, h]; rfl
      · next h => rw [top, Bool.eq_false_iff.2 h]

/-! ### Values of the forms (R95 to R98) -/

section
variable {w a b : Nat} (ha : a < 2 ^ w) (hb : b < 2 ^ w)
include ha hb

theorem lowN_and : lowN w (a &&& b) = (BitVec.ofNat w a &&& BitVec.ofNat w b).toNat := by
  rw [lowN_of_lt (Nat.and_lt_two_pow a hb), BitVec.toNat_and, BitVec.toNat_ofNat, BitVec.toNat_ofNat, Nat.mod_eq_of_lt ha, Nat.mod_eq_of_lt hb]

theorem lowN_or : lowN w (a ||| b) = (BitVec.ofNat w a ||| BitVec.ofNat w b).toNat := by
  rw [lowN_of_lt (Nat.or_lt_two_pow ha hb), BitVec.toNat_or, BitVec.toNat_ofNat, BitVec.toNat_ofNat, Nat.mod_eq_of_lt ha, Nat.mod_eq_of_lt hb]

theorem lowN_xor : lowN w (a ^^^ b) = (BitVec.ofNat w a ^^^ BitVec.ofNat w b).toNat := by
  rw [lowN_of_lt (Nat.xor_lt_two_pow ha hb), BitVec.toNat_xor, BitVec.toNat_ofNat, BitVec.toNat_ofNat, Nat.mod_eq_of_lt ha, Nat.mod_eq_of_lt hb]

theorem lowN_andn : lowN w (a &&& (2 ^ w - 1 - b)) = (BitVec.ofNat w a &&& ~~~BitVec.ofNat w b).toNat := by
  rw [lowN_of_lt (Nat.and_lt_two_pow a (by omega)), BitVec.toNat_and, BitVec.toNat_not, BitVec.toNat_ofNat, BitVec.toNat_ofNat,
    Nat.mod_eq_of_lt ha, Nat.mod_eq_of_lt hb]

/-- Bits of a pair from bit `n` on. -/
theorem lowN_pair (n : Nat) : lowN w ((b * 2 ^ w + a) / 2 ^ n) = (((BitVec.ofNat w b ++ BitVec.ofNat w a) >>> n).setWidth w).toNat := by
  rw [BitVec.toNat_setWidth, BitVec.toNat_ushiftRight, BitVec.toNat_append, BitVec.toNat_ofNat, BitVec.toNat_ofNat, Nat.mod_eq_of_lt ha,
    Nat.mod_eq_of_lt hb, Nat.shiftLeft_eq, Nat.shiftRight_eq_div_pow, Nat.mul_comm b, Nat.two_pow_add_eq_or_of_lt ha]
  rfl

end

section
variable {w a : Nat} (ha : a < 2 ^ w)
include ha

theorem shl_eq (n : Nat) : (if w ≤ n then 0 else lowN w (a * 2 ^ n)) = (BitVec.ofNat w a <<< n).toNat := by
  rw [BitVec.toNat_shiftLeft, BitVec.toNat_ofNat, Nat.mod_eq_of_lt ha, Nat.shiftLeft_eq]
  split
  · next h => exact (Nat.mod_eq_zero_of_dvd ((Nat.pow_dvd_pow 2 h).mul_left a)).symm
  · rfl

theorem shr_eq (n : Nat) : (if w ≤ n then 0 else a / 2 ^ n) = (BitVec.ofNat w a >>> n).toNat := by
  rw [BitVec.toNat_ushiftRight, BitVec.toNat_ofNat, Nat.mod_eq_of_lt ha, Nat.shiftRight_eq_div_pow]
  split
  · next h => exact (Nat.div_eq_of_lt (ha.trans_le (Nat.pow_le_pow_right Nat.two_pos h))).symm
  · rfl

theorem rotlN_eq {n : Nat} (hn : n < w) : rotlN w a n = ((BitVec.ofNat w a).rotateLeft n).toNat := by
  rw [BitVec.toNat_rotateLeft, BitVec.toNat_ofNat, Nat.mod_eq_of_lt ha, Nat.mod_eq_of_lt hn, Nat.shiftLeft_eq, Nat.shiftRight_eq_div_pow, rotlN,
    lowN_of_lt ha]
  have low : a / 2 ^ (w - n) < 2 ^ n := by
    rw [Nat.div_lt_iff_lt_mul (Nat.two_pow_pos _), ← Nat.pow_add, Nat.add_sub_cancel' hn.le]
    exact ha
  have high : lowN w (a * 2 ^ n) = 2 ^ n * (a % 2 ^ (w - n)) := by
    rw [lowN, Nat.mul_comm, ← Nat.mul_mod_mul_left, ← Nat.pow_add, Nat.add_sub_cancel' hn.le]
  rw [high, Nat.two_pow_add_eq_or_of_lt low, ← high]
  rfl

end

theorem clz_eq (w a : Nat) : (if a = 0 then w else w - 1 - Nat.log2 a) = w - a.size := by
  split
  · next h => simp [h]
  · next h =>
    have size : a.size = Nat.log2 a + 1 := le_antisymm (Nat.size_le.2 Nat.lt_log2_self) (Nat.lt_size.2 (Nat.log2_self_le h))
    omega

theorem sar_eq (w a n : Nat) : wrapN w (signedN w a / (2 ^ n : Nat)) = ((BitVec.ofNat w a).sshiftRight n).toNat := by
  rw [signedN_eq_toInt, BitVec.sshiftRight, BitVec.toNat_ofInt, Int.shiftRight_eq_div_pow]
  rfl

theorem brev_eq (w a : Nat) : ofBitsN w (fun i => bitN a (w - 1 - i)) = (BitVec.ofNat w a).reverse.toNat := by
  refine Nat.eq_of_testBit_eq fun k => ?_
  by_cases hk : k < w
  · rw [testBit_ofBitsN _ hk, bitN_eq_testBit, BitVec.testBit_toNat, BitVec.getLsbD_reverse, BitVec.getMsbD_eq_getLsbD, BitVec.getLsbD_ofNat]
    have : w - 1 - k < w := by omega
    simp [hk, this]
  · have hle : 2 ^ w ≤ 2 ^ k := Nat.pow_le_pow_right Nat.two_pos (not_lt.1 hk)
    rw [Nat.testBit_lt_two_pow ((ofBitsN_lt w _).trans_le hle), Nat.testBit_lt_two_pow ((BitVec.isLt _).trans_le hle)]

theorem popc_eq (w a : Nat) : ((List.range w).filter fun i => bitN a i).length = ((List.range w).map fun k => (a.testBit k).toNat).sum := by
  simp only [bitN_eq_testBit]
  generalize List.range w = l
  induction l with
  | nil => rfl
  | cons k l ih => cases h : a.testBit k <;> simp [h, ih, Nat.add_comm]

/-! ### Functions of bits (R96, R97) -/

theorem lmuxN_lt (w : Nat) (f1 f0 : BitVec 4) (a b c : Nat) : lmuxN w f1 f0 a b c < 2 ^ w := ofBitsN_lt _ _

theorem testBit_lmuxN {w : Nat} (f1 f0 : BitVec 4) (a b c : Nat) {k : Nat} (hk : k < w) : (lmuxN w f1 f0 a b c).testBit k =
    (if c.testBit k then f1 else f0).getLsbD (2 * (a.testBit k).toNat + (b.testBit k).toNat) := by
  rw [lmuxN, testBit_ofBitsN _ hk]
  simp only [bitN_eq_testBit]
  cases a.testBit k <;> cases b.testBit k <;> cases c.testBit k <;> rfl

theorem bfiN_lt (w a b desc : Nat) : bfiN w a b desc < 2 ^ w := ofBitsN_lt _ _

theorem testBit_bfiN {w : Nat} (a b desc : Nat) {k : Nat} (hk : k < w) : (bfiN w a b desc).testBit k =
    let pos := desc % 256
    let len := min (desc / 256 % 256) w
    if pos ≤ k ∧ k < pos + len then b.testBit (k - pos) else a.testBit k := by
  rw [bfiN, testBit_ofBitsN _ hk]
  simp only [bitN_eq_testBit]

/-! ### A field extracted (R97) -/

/-- Bit `k` of a number as its type extends it. -/
def extBit (t : Ty) (a k : Nat) : Bool := if k < tyBits t then a.testBit k else tySigned t && a.testBit (tyBits t - 1)

theorem bfxN_eq (t : Ty) (a desc : Nat) : bfxN t a desc =
    let pos := desc % 256
    let len := min (desc / 256 % 256) (tyBits t)
    if len = 0 then 0
    else ofBitsN (tyBits t) fun k => if k < len then extBit t a (pos + k) else tySigned t && extBit t a (pos + len - 1) := by
  simp only [bfxN, bitN_eq_testBit]
  rfl

theorem bfxN_lt (t : Ty) (a desc : Nat) : bfxN t a desc < 2 ^ tyBits t := by
  simp only [bfxN_eq]
  split
  · exact Nat.two_pow_pos _
  · exact ofBitsN_lt _ _

theorem testBit_bfxN {t : Ty} (a desc : Nat) {k : Nat} (hk : k < tyBits t) : (bfxN t a desc).testBit k =
    let pos := desc % 256
    let len := min (desc / 256 % 256) (tyBits t)
    if len = 0 then false else if k < len then extBit t a (pos + k) else tySigned t && extBit t a (pos + len - 1) := by
  simp only [bfxN_eq]
  split
  · exact Nat.zero_testBit k
  · exact testBit_ofBitsN _ hk

/-! ### Bytes (R98) -/

/-- A byte of a pair of words. -/
theorem byte_of_pair {a : Nat} (ha : a < 2 ^ 32) (b : Nat) {j : Nat} (hj : j < 8) :
    bitsN (a + b * 4294967296) (8 * j) 8 = if j < 4 then a / 2 ^ (8 * j) % 256 else b / 2 ^ (8 * (j - 4)) % 256 := by
  unfold bitsN
  interval_cases j <;> simp only [Nat.reduceMul, Nat.reducePow, Nat.reduceSub, Nat.reduceLT, if_true, if_false] at * <;> omega

/-- Whether the top bit of a byte is one. -/
theorem bitN_byte {v : Nat} (hv : v < 256) : (bitN v 7 = true) ↔ 128 ≤ v := by
  simp only [bitN, decide_eq_true_eq, Nat.reducePow]
  omega

/-- What byte `k` of bperm is (R98). -/
def bpermByte (a b c k : Nat) : Nat :=
  let byte := bitsN (a + b * 4294967296) (8 * bitsN c (4 * k) 3) 8
  if bitN c (4 * k + 3) then (if bitN byte 7 then 255 else 0) else byte

theorem bitsN_lt (v lo n : Nat) : bitsN v lo n < 2 ^ n := Nat.mod_lt _ (Nat.two_pow_pos n)

theorem bpermByte_lt (a b c k : Nat) : bpermByte a b c k < 256 := by
  have := bitsN_lt (a + b * 4294967296) (8 * bitsN c (4 * k) 3) 8
  simp only [bpermByte]
  split
  · split <;> omega
  · exact this

theorem bpermByte_eq {a : Nat} (ha : a < 2 ^ 32) (b c k : Nat) : bpermByte a b c k =
    let j := c / 2 ^ (4 * k) % 8
    let byte := if j < 4 then a / 2 ^ (8 * j) % 256 else b / 2 ^ (8 * (j - 4)) % 256
    if c.testBit (4 * k + 3) then (if 128 ≤ byte then 255 else 0) else byte := by
  have hj : bitsN c (4 * k) 3 < 8 := bitsN_lt ..
  have byte := byte_of_pair ha b hj
  have small := bitsN_lt (a + b * 4294967296) (8 * bitsN c (4 * k) 3) 8
  have top := bitN_byte small
  simp only [bpermByte, top, bitN_eq_testBit c]
  rw [byte]
  rfl

theorem bpermN_eq (a b c : Nat) : bpermN a b c =
    bpermByte a b c 0 + bpermByte a b c 1 * 2 ^ 8 + bpermByte a b c 2 * 2 ^ 16 + bpermByte a b c 3 * 2 ^ 24 := by
  simp [bpermN, bpermByte, List.range_succ]

theorem bpermN_lt (a b c : Nat) : bpermN a b c < 2 ^ 32 := by
  have := bpermByte_lt a b c
  have h0 := this 0
  have h1 := this 1
  have h2 := this 2
  have h3 := this 3
  rw [bpermN_eq]
  omega

theorem bpermN_byte (a b c : Nat) {k : Nat} (hk : k < 4) : bpermN a b c / 2 ^ (8 * k) % 256 = bpermByte a b c k := by
  have := bpermByte_lt a b c
  have h0 := this 0
  have h1 := this 1
  have h2 := this 2
  have h3 := this 3
  rw [bpermN_eq]
  interval_cases k <;> simp only [Nat.reduceMul, Nat.reducePow] <;> omega

/-! ### The forms -/

theorem Computes.of_shiftForm {ins : Instr} {h : Hdr} {x : VOps} {t : Ty} (f : Nat → Nat → Nat) (he : ∀ s, exec ins s = s.shiftForm h x t f) :
    Computes ins h x.d t.words (flds x t.words 1 0) x.imm fun s i th => f (i.arg s x.imm x.a t.words th) (i.arg s x.imm x.b 1 th) :=
  Computes.of_plain { d := t.words, a := t.words, b := 1 } (fun u => f u.a u.b) he fun _ _ _ => rfl

theorem Computes.of_logic2 {ins : Instr} {h : Hdr} {x : VOps} {t : Ty} (f : Nat → Nat → Nat) (he : ∀ s, exec ins s = s.logic2 h x t f) :
    Computes ins h x.d t.words (flds x t.words t.words 0) x.imm fun s i th =>
      lowN (tyBits t) (f (i.arg s x.imm x.a t.words th) (i.arg s x.imm x.b t.words th)) :=
  Computes.of_plain (Wid.same t 2) (fun u => lowN (tyBits t) (f u.a u.b)) he fun _ _ _ => rfl

theorem Computes.of_countForm {ins : Instr} {h : Hdr} {x : VOps} {t : Ty} (f : Nat → Nat) (he : ∀ s, exec ins s = s.countForm h x t f) :
    Computes ins h x.d 1 (flds x t.words 0 0) x.imm fun s i th => f (i.arg s x.imm x.a t.words th) :=
  Computes.of_plain { d := 1, a := t.words } (fun u => f u.a) he fun _ _ _ => rfl

/-- A value that is the same number is computed as well. -/
theorem Computes.congr {ins : Instr} {h : Hdr} {d : Opnd} {n : Nat} {src : List Fld} {imm : BitVec 21} {v v' : State → Iss → Thread → Nat}
    (hc : Computes ins h d n src imm v) (hv : ∀ s i th, v s i th = v' s i th) : Computes ins h d n src imm v' := by
  rwa [show v' = v from funext fun s => funext fun i => funext fun th => (hv s i th).symm]

theorem Iss.arg_lt_tyBits (i : Iss) (s : State) (imm : BitVec 21) (o : Opnd) (t : Ty) (th : Thread) :
    i.arg s imm o t.words th < 2 ^ tyBits t := Iss.arg_lt i s imm o (words_pos t) th

theorem tyBits_pos (t : Ty) : 0 < tyBits t := Nat.mul_pos (by decide) (words_pos t)

/-- Settles O2: every form is `State.plain`; its value is the bit vector's or has the bits of its rule. -/
theorem logicComputes : Obligations.LogicComputes := by
  constructor
  · intro h x t _ w bv cnt
    have lt := fun (s : State) (i : Iss) (o : Opnd) (th : Thread) => i.arg_lt_tyBits s x.imm o t th
    refine ⟨?and, ?or, ?xor, ?andn, ?shl, ?shr, ?sar, ?rotl, ?fsh⟩
    case and =>
      exact (Computes.of_logic2 _ fun _ => rfl).congr
        fun s i th => lowN_and (lt s i x.a th) (lt s i x.b th)
    case or =>
      exact (Computes.of_logic2 _ fun _ => rfl).congr
        fun s i th => lowN_or (lt s i x.a th) (lt s i x.b th)
    case xor =>
      exact (Computes.of_logic2 _ fun _ => rfl).congr
        fun s i th => lowN_xor (lt s i x.a th) (lt s i x.b th)
    case andn =>
      exact (Computes.of_logic2 (fun a b => a &&& (2 ^ tyBits t - 1 - b)) fun _ => rfl).congr
        fun s i th => lowN_andn (lt s i x.a th) (lt s i x.b th)
    case shl =>
      exact (Computes.of_shiftForm (fun a b => if tyBits t ≤ b % 256 then 0 else lowN (tyBits t) (a * 2 ^ (b % 256))) fun _ => rfl).congr
        fun s i th => shl_eq (lt s i x.a th) _
    case shr =>
      exact (Computes.of_shiftForm (fun a b => if tyBits t ≤ b % 256 then 0 else a / 2 ^ (b % 256)) fun _ => rfl).congr
        fun s i th => shr_eq (lt s i x.a th) _
    case sar =>
      exact (Computes.of_shiftForm (fun a b => wrapN (tyBits t) (signedN (tyBits t) a / (2 ^ min (b % 256) (tyBits t - 1) : Nat))) fun _ => rfl).congr
        fun s i th => sar_eq _ _ _
    case rotl =>
      exact (Computes.of_shiftForm (fun a b => rotlN (tyBits t) a (b % 256 % tyBits t)) fun _ => rfl).congr
        fun s i th => rotlN_eq (lt s i x.a th) (Nat.mod_lt _ (tyBits_pos t))
    case fsh =>
      exact (Computes.of_plain { d := t.words, a := t.words, b := t.words, c := 1 }
        (fun u => lowN (tyBits t) ((u.b * 2 ^ tyBits t + u.a) / 2 ^ min (u.c % 256) (tyBits t))) (fun _ => rfl) fun _ _ _ => rfl).congr
        fun s i th => lowN_pair (lt s i x.a th) (lt s i x.b th) _
  · intro h x t _ w n bit
    have lt := fun (s : State) (i : Iss) (o : Opnd) (th : Thread) => i.arg_lt_tyBits s x.imm o t th
    refine ⟨fun f1 f0 => ?lmux, ?bfi, ?bfx, ?popc, ?clz, ?brev, ?bperm⟩
    case lmux =>
      exact ⟨_, Computes.of_plain (Wid.same t 3) (fun u => lmuxN (tyBits t) f1 f0 u.a u.b u.c) (fun _ => rfl) fun _ _ _ => rfl,
        fun s i th => ⟨lmuxN_lt .., fun k hk => testBit_lmuxN _ _ _ _ _ hk⟩⟩
    case bfi =>
      exact ⟨_, Computes.of_plain { d := t.words, a := t.words, b := t.words, c := 1 } (fun u => bfiN (tyBits t) u.a u.b u.c) (fun _ => rfl)
        fun _ _ _ => rfl, fun s i th => ⟨bfiN_lt .., fun k hk => testBit_bfiN _ _ _ hk⟩⟩
    case bfx => exact ⟨_, Computes.of_shiftForm (bfxN t) fun _ => rfl, fun s i th => ⟨bfxN_lt t _ _, fun k hk => testBit_bfxN _ _ hk⟩⟩
    case popc =>
      exact (Computes.of_countForm (fun a => ((List.range (tyBits t)).filter fun i => bitN a i).length) fun _ => rfl).congr
        fun s i th => popc_eq _ _
    case clz =>
      exact (Computes.of_countForm (fun a => if a = 0 then tyBits t else tyBits t - 1 - Nat.log2 a) fun _ => rfl).congr
        fun s i th => clz_eq _ _
    case brev =>
      exact (Computes.of_plain (Wid.same t 1) (fun u => ofBitsN (tyBits t) fun i => bitN u.a (tyBits t - 1 - i)) (fun _ => rfl)
        fun _ _ _ => rfl).congr fun s i th => brev_eq _ _
    case bperm =>
      refine ⟨_, Computes.of_plain { d := 1, a := 1, b := 1, c := 1 } (fun u => bpermN u.a u.b u.c) (fun _ => rfl) fun _ _ _ => rfl,
        fun s i th => ⟨bpermN_lt _ _ _, fun k hk => ?_⟩⟩
      exact (bpermN_byte _ _ _ hk).trans (bpermByte_eq (Iss.arg_lt i s x.imm x.a Nat.one_pos th) _ _ _)

end Sys2Proof.Machine
end

/-!
Guards and moves (R99 to R105): compares, guard functions, selections and special registers, all of the plain pattern.
-/
section
namespace Sys2Proof.Machine

/-! ### Effects on a thread -/

theorem Iss.moved_g (i : Iss) (tick : Nat) (th : Thread) : (i.moved tick th).g = th.g := by
  unfold Iss.moved
  split <;> rfl

/-- An effect acts on a thread whose guards are those it had at issue. -/
theorem Iss.plainThread_congr {i : Iss} {s : State} {d : Opnd} {n : Nat} {src : List Fld} {imm : BitVec 21} {eff eff' : Thread → Thread → Thread}
    (he : ∀ th u : Thread, u.g = th.g → eff th u = eff' th u) (v : Thread → Nat) :
    i.plainThread s d n src imm eff v = i.plainThread s d n src imm eff' v := by
  funext th
  unfold Iss.plainThread
  extract_lets th1 th2
  have guards : th2.g = th.g := by
    have moved := i.moved_g s.tick th
    unfold th2
    split <;> exact moved
  rw [he th th2 guards]

theorem Plainly.congr {ins : Instr} {h : Hdr} {d : Opnd} {n : Nat} {src : List Fld} {imm : BitVec 21} {dRead : Bool}
    {eff eff' : State → Iss → Thread → Thread → Thread} {v : State → Iss → Thread → Nat} (hp : Plainly ins h d n src imm dRead eff v)
    (he : ∀ s i, ∀ th u : Thread, u.g = th.g → eff s i th u = eff' s i th u) : Plainly ins h d n src imm dRead eff' v := by
  intro s i hi hr
  obtain ⟨t, ht, hk⟩ := hp s i hi hr
  exact ⟨t, ht, Iss.plainThread_congr (he s i) (v s i) ▸ hk⟩

/-- A form without a destination. -/
theorem Plainly.of_effect {ins : Instr} {h : Hdr} {x : VOps} (n : Wid) (hn : n.d = 0) (f : TIn → Thread → Thread)
    (he : ∀ s, exec ins s = s.plain h x n false fun u => { th := f u }) (ht : ∀ u th, (f u th).t = th.t)
    {eff : State → Iss → Thread → Thread → Thread} (heff : ∀ s i, ∀ th u : Thread, u.g = th.g → f (s.tin i x n th) u = eff s i th u) :
    Plainly ins h x.d 0 (flds x n.a n.b n.c) x.imm false eff fun _ _ _ => 0 := by
  have plain : Plainly ins h x.d n.d (flds x n.a n.b n.c) x.imm false (fun s i th => f (s.tin i x n th)) fun _ _ _ => 0 :=
    Plainly.of_plain n _ he (fun _ _ => hn) (fun v th => ht v th) (fun _ _ _ => rfl) fun _ _ _ => rfl
  rw [hn] at plain
  exact plain.congr heff

/-! ### Compares (R99, R100) -/

theorem condInt_eq (c : Cond) (a b : Int) : condInt c a b =
    match c with
    | .eq => compare a b == .eq | .ne => compare a b != .eq | .lt => compare a b == .lt | .le => compare a b != .gt
    | .gt => compare a b == .gt | .ge => compare a b != .lt | .un => false | .ord => true := by
  rcases lt_trichotomy a b with h | rfl | h
  · rw [compare_lt_iff_lt.2 h]
    cases c <;> simp [condInt, h, h.le, h.ne, h.not_gt, h.not_ge]
  · rw [compare_eq_iff_eq.2 rfl]
    cases c <;> simp [condInt]
  · rw [compare_gt_iff_gt.2 h]
    cases c <;> simp [condInt, h, h.le, h.ne', h.not_gt, h.not_ge]

theorem setCmp_eq {th u : Thread} (hg : u.g = th.g) (dg : BitVec 3) (cm : Cmb) (b : Bool) :
    setCmp u dg cm b = u.setGuard dg (match cm with | .set => b | .and => th.guard dg && b | .or => th.guard dg || b) := by
  simp only [setCmp, Thread.guard, hg]
  cases cm <;> rfl

theorem setCmp_t (th : Thread) (dg : BitVec 3) (cm : Cmb) (b : Bool) : (setCmp th dg cm b).t = th.t := Thread.setGuard_t ..

/-! ### Functions of guards (R101, R102) -/

theorem gopGuard_eq {th u : Thread} (hg : u.g = th.g) (imm : BitVec 21) : gopGuard u imm =
    let g := fun k => (th.guard (imm.extractLsb' k 3)).toNat
    u.setGuard (imm.extractLsb' 0 3) (imm.getLsbD (12 + 4 * g 3 + 2 * g 6 + g 9)) := by
  have field (lo : Nat) : BitVec.ofNat 3 (bitsN imm.toNat lo 3) = imm.extractLsb' lo 3 := by
    apply BitVec.eq_of_toNat_eq
    simp [bitsN, Nat.shiftRight_eq_div_pow]
  have bit (k : Nat) (hk : k < 8) : bitN (bitsN imm.toNat 12 8) k = imm.getLsbD (12 + k) := by
    rw [bitN_eq_testBit, bitsN, Nat.testBit_mod_two_pow, Nat.testBit_div_two_pow, BitVec.testBit_toNat]
    simp [hk, Nat.add_comm]
  have guard (k : BitVec 3) : u.guard k = th.guard k := by simp only [Thread.guard, hg]
  have small (b : Bool) : b.toNat < 2 := Bool.toNat_lt b
  simp only [gopGuard, field, guard]
  rw [bit _ (by split <;> split <;> split <;> omega)]
  cases th.guard (imm.extractLsb' 3 3) <;> cases th.guard (imm.extractLsb' 6 3) <;> cases th.guard (imm.extractLsb' 9 3) <;> rfl

theorem gopGuard_t (th : Thread) (imm : BitVec 21) : (gopGuard th imm).t = th.t := Thread.setGuard_t ..

theorem getLsbD_one_shiftLeft (n : Nat) {j : Nat} (hj : j < 8) : (1#8 <<< n).getLsbD j = decide (j = n) := by
  rw [BitVec.getLsbD_shiftLeft, BitVec.getLsbD_one, Bool.eq_iff_iff]
  simp
  omega

/-- A guard written is the only bit of its thread that changes, and g0 never does. -/
theorem Thread.getLsbD_setGuard (th : Thread) (k : BitVec 3) (b : Bool) {j : Nat} (hj : j < 8) :
    (th.setGuard k b).g.getLsbD j = if k ≠ 0 ∧ j = k.toNat then b else th.g.getLsbD j := by
  rw [Thread.setGuard]
  split
  · next hk => simp [hk]
  · next hk =>
    simp only [ne_eq, hk, not_false_eq_true, true_and]
    cases b
    · simp only [Bool.false_eq_true, if_false, BitVec.getLsbD_and, BitVec.getLsbD_not, getLsbD_one_shiftLeft _ hj, hj, decide_true, Bool.true_and]
      split <;> simp [*]
    · simp only [if_true, BitVec.getLsbD_or, getLsbD_one_shiftLeft _ hj]
      split <;> simp [*]

theorem Thread.setGuard_eq (th : Thread) (k : BitVec 3) (b : Bool) : th.setGuard k b = { th with g := (th.setGuard k b).g } := by
  unfold Thread.setGuard
  split <;> rfl

theorem packGuards_eq (th : Thread) : packGuards th = (th.g ||| 1#8).toNat := by
  have bits : packGuards th = ofBitsN 8 fun k => th.guard (BitVec.ofNat 3 k) := rfl
  rw [bits]
  refine Nat.eq_of_testBit_eq fun k => ?_
  by_cases hk : k < 8
  · rw [testBit_ofBitsN _ hk, BitVec.testBit_toNat]
    unfold Thread.guard
    interval_cases k <;> simp
  · have hle : 2 ^ 8 ≤ 2 ^ k := Nat.pow_le_pow_right Nat.two_pos (not_lt.1 hk)
    rw [Nat.testBit_lt_two_pow ((ofBitsN_lt 8 _).trans_le hle), Nat.testBit_lt_two_pow ((BitVec.isLt _).trans_le hle)]

/-- Guards written one after another from the bits of a number. -/
theorem foldl_setGuard (th : Thread) (v n : Nat) (hn : n ≤ 8) :
    let u := (List.range n).foldl (fun th k => th.setGuard (BitVec.ofNat 3 k) (bitN v k)) th
    u = { th with g := u.g } ∧ ∀ j < 8, u.g.getLsbD j = if j < n ∧ j ≠ 0 then v.testBit j else th.g.getLsbD j := by
  induction n with
  | zero => exact ⟨rfl, fun j _ => by simp⟩
  | succ n ih =>
    obtain ⟨hu, hg⟩ := ih (by omega)
    simp only [List.range_succ, List.foldl_append, List.foldl_cons, List.foldl_nil]
    generalize (List.range n).foldl (fun th k => th.setGuard (BitVec.ofNat 3 k) (bitN v k)) th = u at hu hg
    refine ⟨by rw [Thread.setGuard_eq, hu], fun j hj => ?_⟩
    have num : (BitVec.ofNat 3 n).toNat = n := by simp; omega
    have zero : BitVec.ofNat 3 n ≠ 0 ↔ n ≠ 0 := by rw [Ne, ← BitVec.toNat_inj, num]; rfl
    rw [Thread.getLsbD_setGuard _ _ _ hj, num, hg j hj, bitN_eq_testBit]
    simp only [zero]
    by_cases he : j = n
    · subst he; by_cases h0 : j = 0 <;> simp [h0]
    · have : j < n + 1 ↔ j < n := by omega
      simp [he, this]

theorem unpackGuards_eq (th : Thread) (v : Nat) :
    unpackGuards th v = { th with g := (BitVec.ofNat 8 v &&& 0xFE#8) ||| (th.g &&& 1#8) } := by
  obtain ⟨hu, hg⟩ := foldl_setGuard th v 8 le_rfl
  rw [unpackGuards, hu]
  congr 1
  refine BitVec.eq_of_getLsbD_eq fun j hj => ?_
  rw [hg j hj, BitVec.getLsbD_or, BitVec.getLsbD_and, BitVec.getLsbD_and, BitVec.getLsbD_ofNat]
  interval_cases j <;> simp

theorem unpackGuards_t (th : Thread) (v : Nat) : (unpackGuards th v).t = th.t := by rw [unpackGuards_eq]

/-! ### Special registers (R105) -/

theorem wrspThread_t (th : Thread) (k v : Nat) : (wrspThread th k v).t = th.t := by
  unfold wrspThread
  split
  · rfl
  · split <;> rfl

theorem wrspThread_eq (th : Thread) (k : BitVec 8) (v : Nat) : wrspThread th k.toNat v =
    if k = 0x0D then { th with dcs := BitVec.ofNat 32 v }
    else if k = 0x0C then { th with pwerr := th.pwerr &&& ~~~(BitVec.ofNat 8 v) }
    else th := by
  have num (n : BitVec 8) : k.toNat = n.toNat ↔ k = n := BitVec.toNat_inj
  have h12 := num 0x0C
  have h13 := num 0x0D
  simp only [BitVec.reduceToNat] at h12 h13
  simp only [wrspThread, h12, h13]
  split
  · next hc => rw [hc]; rfl
  · rfl

/-- No special register has an index of 0x30 or more (R25). -/
theorem State.special_none (s : State) (g : Gang) (w : Warp) (th : Thread) {k : Nat} (hk : 0x30 ≤ k) : s.special g w th k = none := by
  unfold State.special
  split
  case h_17 => rw [if_neg (by omega), if_neg (by omega)]
  all_goals omega

theorem State.movspRead_eq (s : State) (i : Iss) (v : TIn) : s.movspRead i v = s.special i.g i.w v.th v.a := by
  unfold State.movspRead
  split
  · rfl
  · rw [State.special_none _ _ _ _ (by omega)]

/-- A special register that is there is read (R105). -/
theorem execMovsp_completes {h : Hdr} {x : VOps} {s : State} {i : Iss} (hi : Issues s h i)
    (hr : ∀ th ∈ i.writers x.d, i.ready s (flds x 1 0 0) [⟨x.d, 1⟩] false x.imm th ∧
      i.arg s x.imm x.a 1 th < 0x100 ∧ s.special i.g i.w th (i.arg s x.imm x.a 1 th) ≠ none) :
    let v := fun th => (s.special i.g i.w th (i.arg s x.imm x.a 1 th)).getD 0
    ∃ t, exec (.movsp h x) s = .next t ∧
      Keeps s t i (i.scalars (i.writers x.d) x.d 1 v) (i.plainThread s x.d 1 (flds x 1 0 0) x.imm (fun _ th => th) v) := by
  intro v
  have read : ∀ th, (s.movspRead i (s.tin i x { d := 1, a := 1 } th)).getD 0 = v th := fun th => by rw [State.movspRead_eq]; rfl
  have noFault : ∀ th ∈ i.writers x.d, (if (s.movspRead i (s.tin i x { d := 1, a := 1 } th)).isNone then
      some ({ code := fIllmod, addr := (s.tin i x { d := 1, a := 1 } th).a } : Flt) else none) = none := fun th hth => by
    obtain ⟨-, -, there⟩ := hr th hth
    rw [State.movspRead_eq]
    exact if_neg fun none => there (Option.isNone_iff_eq_none.1 none)
  obtain ⟨t, ht, hk⟩ := State.plain_completes hi.1 hi.2 x { d := 1, a := 1 } false (fun u => { d := some ((s.movspRead i u).getD 0) })
    (fun u => if (s.movspRead i u).isNone then some { code := fIllmod, addr := u.a } else none)
    (fun th hth => (hr th hth).1) noFault (fun _ => nofun) fun _ _ => rfl
  refine ⟨t, ?_, ?_⟩
  · rw [← ht]
    simp only [exec, execMovsp, hi.1]
  · simp only [Option.getD_some, read] at hk
    exact hk

/-- Settles O3: every form is `State.plain`, its effect on the thread's guards or special registers as the statement writes it out. -/
theorem guardsAndMovesCompute : Obligations.GuardsAndMovesCompute := by
  constructor
  · intro h x t c dg cm w holds writes int
    have cmp : ∀ {ins : Instr}, (∀ s, exec ins s = s.compareForm h x t.words dg cm fun a b => condInt c (numOf t a) (numOf t b)) →
        Plainly ins h x.d 0 (flds x w w 0) x.imm false int fun _ _ _ => 0 := fun he =>
      Plainly.of_effect { d := 0, a := t.words, b := t.words } rfl _ he (fun _ _ => setCmp_t ..) fun s i th u hg => by
        rw [setCmp_eq hg]
        simp only [condInt_eq]
        rfl
    refine ⟨cmp fun _ => rfl, cmp fun _ => rfl, ?_, ?_, ?_, ?_⟩
    · exact Plainly.of_effect { d := 0, a := 1, b := 1 } rfl
        (fun v th => setCmp th dg cm (condFloat c (fp32.decode v.a) (fp32.decode v.b))) (fun _ => rfl) (fun _ _ => setCmp_t ..)
        fun s i th u hg => setCmp_eq hg ..
    · exact Plainly.of_effect { d := 0, a := 0 } rfl (fun _ th => gopGuard th x.imm) (fun _ => rfl) (fun _ _ => gopGuard_t ..)
        fun s i th u hg => gopGuard_eq hg _
    · exact Plainly.of_effect { d := 0, a := 1 } rfl (fun v th => unpackGuards th v.a) (fun _ => rfl) (fun _ _ => unpackGuards_t ..)
        fun s i th u hg => unpackGuards_eq _ _
    · exact Computes.of_plain { d := 1, a := 0 } (fun v => packGuards v.th) (fun _ => rfl) fun s i th => packGuards_eq th
  · intro h x t sg sn w
    refine ⟨?_, ?_, fun k => ?_, fun s i hi hr => execMovsp_completes hi hr, fun k hk => ?_⟩
    · exact Computes.of_plain (Wid.same t 2) (fun v => if v.th.guard sg != sn then v.a else v.b) (fun _ => rfl) fun _ _ _ => rfl
    · exact Computes.of_plain (Wid.same t 1) (fun v => v.a) (fun _ => rfl) fun _ _ _ => rfl
    · exact Computes.of_plain (x := { d := k.d, a := .none, b := .none, c := .none, imm := 0 }) { d := 1, a := 0 } (fun _ => k.imm.toNat)
        (fun _ => rfl) fun _ _ _ => rfl
    · exact Plainly.of_effect { d := 0, a := 1 } rfl (fun v th => wrspThread th k.toNat v.a) (fun s => by simp only [exec, execWrsp, hk])
        (fun _ _ => wrspThread_t ..) fun s i th u _ => wrspThread_eq u k _

end Sys2Proof.Machine
end

section
namespace Sys2Proof.Machine

/-! ### An exit that discards a team command of another warp -/

/-- The thread that exits. -/
def leavingThread : Thread := { t := 0, bi := 0, pc := 0, m := [] }

/-- Its warp, of this thread only. -/
def leavingWarp : Warp :=
  { wi := 0, core := 0, quarter := 0, slot := 0, homeCore := 0, homeSlot := 0, stride := some { pc := 0, n := 0 }, threads := [leavingThread] }

/-- Warp 1, of the same team, with a thread that lives. -/
def stayingWarp : Warp :=
  { wi := 1, core := 0, quarter := 0, slot := 1, homeCore := 0, homeSlot := 1, threads := [{ t := 0, bi := 1, pc := 0, m := [] }] }

/-- An object whose one member is warp 1: it expects an arrival and 1,024 bytes. -/
def staysObj : Obj :=
  { ref := ⟨0, 0⟩, clu := false, scope := .core, expArr := 1, arr := 0, expBytes := 1024, members := 2, bib := 0, exited := 0,
    shortCur := false, keep := false, inflight := 1 }

/-- The gang of the two warps, with the object. -/
def leavingGang : Gang :=
  { gid := 0, bib := 0, world := 0, launch := 0, block := 0, blockT := 2, threadsN := 2, cores := [0], n := 1, spBytes := 64, minop := 0,
    prio := 0, levels := [], windows := [], root := none, sp := [[]], rowBase := [0], objs := [staysObj], warps := [leavingWarp, stayingWarp] }

/-- No guard, no E. -/
def leavingHdr : Hdr := { e := false, gn := false, gi := 0 }

/-- No operands. -/
def noOps : VOps := { d := .none, a := .none, b := .none, c := .none, imm := 0 }

/-- Warp 1's entry of a team command counted on the object, whose other members have not joined it yet. -/
def teamEntry : MCmd :=
  { id := 0, seq := 0, gid := 0, wi := 1, instr := .mxm leavingHdr noOps .f16x2 .af32 false false false, threads := 1, a := [], b := [], c := [],
    cnt := some (false, staysObj.ref) }

/-- The machine with the gang, whose warp 0 stands in the slot, and with the command. -/
def leavingState : State :=
  { State.reset with
    cur := some (0, 0), gangs := [leavingGang], cores := [(0, { quarters := [{ mq := [teamEntry] }, {}, {}, {}] })] }

/-- The exit of warp 0's thread. -/
def leavingIss : Iss := { r := (0, 0), g := leavingGang, w := leavingWarp, pc := 0, act := [leavingThread], on := [leavingThread] }

theorem leavingIss_issues : Issues leavingState leavingHdr leavingIss := ⟨rfl, by decide⟩

/-- What the object has landed after an outcome. -/
def landedAfter (o : Host.Outcome State Fault Refusal) : Option Nat :=
  match o with
  | .next u => (u.gang? 0).bind fun g => (g.obj? staysObj.ref).map (·.landed)
  | _ => none

theorem leavingState_landed : landedAfter (exec (.exit leavingHdr noOps) leavingState) = some 1024 := by decide +kernel

/-- Refutes O9 in its clause of objects of which the warp is no member: a warp's last exit discards the team commands that lack its entry
(`State.teamExit`, R286), and a counted one counts its 1,024 bytes on an object of another warp. -/
theorem not_exitEndsThreads : ¬ Obligations.ExitEndsThreads := by
  intro h
  obtain ⟨t, ht, -, -, objs⟩ := h leavingHdr noOps leavingState leavingIss leavingIss_issues (by decide)
  have landed := leavingState_landed
  rw [ht] at landed
  obtain ⟨g', hg', hobj⟩ := Option.bind_eq_some_iff.1 landed
  have kept : g'.obj? staysObj.ref = some staysObj := (objs g' staysObj hg' (by decide) (by decide) rfl (by decide)).1 (by decide)
  rw [kept] at hobj
  exact absurd hobj (by decide)

end Sys2Proof.Machine
end

section
namespace Sys2Proof.Machine

/-! ### A load beyond a parameter window into a scalar register -/

/-- Thread `t` of the counterexample. -/
def pairThread (t : Nat) : Thread := { t := t, bi := t, pc := 0, m := [] }

/-- Its warp, of two threads at the same instruction. -/
def pairWarp : Warp :=
  { wi := 0, core := 0, quarter := 0, slot := 0, homeCore := 0, homeSlot := 0, stride := some { pc := 0, n := 0 },
    threads := [pairThread 0, pairThread 1] }

/-- Its gang: parameter window 0 is bound and of no bytes. -/
def pairGang : Gang :=
  { gid := 0, bib := 0, world := 0, launch := 0, block := 0, blockT := 2, threadsN := 2, cores := [0], n := 1, spBytes := 0, minop := 0,
    prio := 0, levels := [], windows := [{ base := 0, size := 0, bound := true }], root := none, sp := [[]], rowBase := [0],
    warps := [pairWarp] }

/-- The machine in whose issue slot the warp stands. -/
def pairState : State := { State.reset with cur := some (0, 0), gangs := [pairGang] }

/-- No guard, no E. -/
def pairHdr : Hdr := { e := false, gn := false, gi := 0 }

/-- Offset 0 into s0. -/
def pairOps : VOps := { d := .s 0 false, a := .imm, b := .none, c := .none, imm := 0 }

/-- The issue of both threads. -/
def pairIss : Iss :=
  { r := (0, 0), g := pairGang, w := pairWarp, pc := 0, act := [pairThread 0, pairThread 1], on := [pairThread 0, pairThread 1] }

theorem pairIss_issues : Issues pairState pairHdr pairIss := ⟨rfl, by decide⟩

/-- Thread 0, the one writer of s0, reads beyond the window. -/
theorem pairIss_reads : ∀ th ∈ pairIss.writers pairOps.d,
    pairIss.ready pairState [⟨pairOps.a, 1⟩] [⟨pairOps.d, 1⟩] false 0 th ∧ pairState.acqWaits pairIss.r th = false ∧
      pairState.pwRead pairIss.g pairIss.w.core 0 4 (pairIss.arg pairState 0 pairOps.a 1 th + (0#21).toInt) = .beyond := by
  intro th hth
  obtain rfl : th = pairThread 0 := List.mem_singleton.1 hth
  refine ⟨⟨?_, ?_, ?_⟩, ?_, ?_⟩ <;> decide

/-- The $pwerr of thread 1 after an outcome. -/
def pwerrAfter (o : Host.Outcome State Fault Refusal) : Option Byte :=
  match o with
  | .next u => ((u.warp? (0, 0)).bind fun w => w.thread? 1).map (·.pwerr)
  | _ => none

theorem pairState_pwerr : pwerrAfter (exec (.ld pairHdr pairOps .b32 .pw 0) pairState) = some 1 := by decide +kernel

/-- Refutes O13 in its clause of parameter windows: a scalar D read beyond the bound sets $pwerr in every guard-true thread, not only in the
one that writes D (`State.loadPw`, log entry 14). -/
theorem not_nearLoadsComplete : ¬ Obligations.NearLoadsComplete := by
  rintro ⟨-, -, window⟩
  obtain ⟨t, ht, keeps⟩ := window pairHdr pairOps .b32 0 pairState pairIss pairIss_issues (fun _ => none) pairIss_reads
  obtain ⟨w, hw, -, -, threads⟩ := keeps.warp
  obtain ⟨u, hu, left⟩ := threads (pairThread 1) (by decide)
  have kept : u.pwerr = 0 := by
    refine (congrArg Thread.pwerr left).trans ?_
    split <;> rfl
  have after := pairState_pwerr
  simp only [ht, pwerrAfter, show t.warp? (0, 0) = some w from hw, Option.bind_some, show w.thread? 1 = some u from hu, Option.map_some, kept]
    at after
  exact absurd after (by decide)

end Sys2Proof.Machine
end

/-!
Transfers (R85 to R89): what a taken transfer, a count and the return stack change of the issuing warp, thread by thread.
-/
section
namespace Sys2Proof.Machine

/-! ### Threads of an issue by their numbers -/

theorem find?_number {l k : List Thread} (hN : (l.map (·.t)).Nodup) (hk : ∀ th ∈ k, th ∈ l) {th : Thread} (hm : th ∈ l) :
    k.find? (fun u => u.t = th.t) = if th ∈ k then some th else none := by
  split
  · next hin =>
    obtain ⟨u, hu⟩ : ∃ u, k.find? (fun u => u.t = th.t) = some u := by
      rw [← Option.isSome_iff_exists, List.find?_isSome]
      exact ⟨th, hin, by simp⟩
    have same := find?_thread hN (hk u (List.mem_of_find?_eq_some hu))
    rw [show u.t = th.t by simpa using List.find?_some hu, find?_thread hN hm] at same
    rw [hu, same]
  · next hout =>
    rw [List.find?_eq_none]
    exact fun u hu e => hout ((mem_of_number hN hk hm).1 (List.mem_map.2 ⟨u, hu, by simpa using e⟩))

theorem Iss.mem_threads_of_on {s : State} {h : Hdr} {i : Iss} (hi : s.iss? h = some i) {th : Thread} (hm : th ∈ i.on) : th ∈ i.w.threads :=
  Iss.mem_threads_of_act hi (Iss.mem_act_of_on hi hm)

/-! ### A transfer as a change of the warp -/

/-- A thread sent to its target, if it has one. -/
def Thread.sendTo (th : Thread) (tg : List (Nat × Nat)) : Thread :=
  match tg.find? fun q => q.1 = th.t with
  | some q => { th with pc := BitVec.ofNat 42 q.2 }
  | none => th

theorem Thread.sendTo_t (th : Thread) (tg : List (Nat × Nat)) : (th.sendTo tg).t = th.t := by
  unfold Thread.sendTo
  split <;> rfl

theorem Thread.sendTo_map {u : Thread} {k : Nat} (hk : u.t = k) (l : List Thread) (v : Thread → Nat) :
    u.sendTo (l.map fun th => (th.t, v th)) =
      match l.find? (fun th => th.t = k) with | some th => { u with pc := BitVec.ofNat 42 (v th) } | none => u := by
  subst hk
  have found : (l.map fun th => (th.t, v th)).find? (fun q => q.1 = u.t) = (l.find? fun th => th.t = u.t).map fun th => (th.t, v th) :=
    List.find?_map
  rw [Thread.sendTo, found]
  cases l.find? fun th => th.t = u.t <;> rfl

/-- What `State.goTo` makes of the warp. -/
def Warp.goTo (w : Warp) (pc : VAddr) (tg : List (Nat × Nat)) : Warp :=
  match tg with
  | [] => w
  | p :: _ => (w.mapThreads fun th => th.sendTo tg).pace pc p.2

theorem State.goTo_eq (s : State) (i : Iss) (tg : List (Nat × Nat)) : s.goTo i tg = s.modWarp i.r fun w => w.goTo i.pc tg := by
  cases tg with
  | nil => exact (State.modWarp_id s i.r).symm
  | cons p l => rfl

/-- The pacer's notes alone change. -/
theorem Warp.pace_keeps (w : Warp) (pc : VAddr) (v : Nat) :
    (w.pace pc v).wi = w.wi ∧ (w.pace pc v).outside = w.outside ∧ (w.pace pc v).s = w.s ∧ (w.pace pc v).threads = w.threads := by
  unfold Warp.pace
  dsimp only
  split <;> exact ⟨rfl, rfl, rfl, rfl⟩

/-- Threads and the pacer's notes alone change. -/
theorem Warp.goTo_keeps (w : Warp) (pc : VAddr) (tg : List (Nat × Nat)) :
    (w.goTo pc tg).wi = w.wi ∧ (w.goTo pc tg).outside = w.outside ∧ (w.goTo pc tg).s = w.s := by
  cases tg with
  | nil => exact ⟨rfl, rfl, rfl⟩
  | cons p l =>
    obtain ⟨wi, out, regs, -⟩ := Warp.pace_keeps (w.mapThreads fun th => th.sendTo (p :: l)) pc p.2
    exact ⟨wi, out, regs⟩

theorem Warp.goTo_wi (w : Warp) (pc : VAddr) (tg : List (Nat × Nat)) : (w.goTo pc tg).wi = w.wi := (w.goTo_keeps pc tg).1

theorem Warp.goTo_outside (w : Warp) (pc : VAddr) (tg : List (Nat × Nat)) : (w.goTo pc tg).outside = w.outside := (w.goTo_keeps pc tg).2.1

theorem Warp.goTo_s (w : Warp) (pc : VAddr) (tg : List (Nat × Nat)) : (w.goTo pc tg).s = w.s := (w.goTo_keeps pc tg).2.2

theorem Warp.goTo_thread? (w : Warp) (pc : VAddr) (tg : List (Nat × Nat)) (k : Nat) :
    (w.goTo pc tg).thread? k = (w.thread? k).map fun u => u.sendTo tg := by
  cases tg with
  | nil => exact Option.map_id'.symm
  | cons p l =>
    obtain ⟨-, -, -, threads⟩ := Warp.pace_keeps (w.mapThreads fun th => th.sendTo (p :: l)) pc p.2
    have same : (w.goTo pc (p :: l)).thread? k = (w.mapThreads fun th => th.sendTo (p :: l)).thread? k := by
      rw [Warp.thread?, Warp.goTo, threads]
      rfl
    rw [same, Warp.thread?_mapThreads _ _ _ fun th => th.sendTo_t _]

section
variable {s : State} {h : Hdr} {i : Iss} (hi : Issues s h i) {w : Warp} {B : Thread → Thread}
  (hB : ∀ th ∈ i.w.threads, w.thread? th.t = some (B th)) {th : Thread} (hm : th ∈ i.w.threads)
include hi hB hm

/-- The threads of an issue after those of `l` have gone to their targets. -/
theorem Iss.goTo_thread? {l : List Thread} (hl : ∀ u ∈ l, u ∈ i.on) (v : Thread → Nat) :
    (w.goTo i.pc (l.map fun th => (th.t, v th))).thread? th.t =
      some (if th ∈ l then { B th with pc := BitVec.ofNat 42 (v th) } else B th) := by
  have num : (B th).t = th.t := by simpa using List.find?_some (hB th hm)
  rw [Warp.goTo_thread?, hB th hm, Option.map_some, Thread.sendTo_map num,
    find?_number hi.2 (fun u hu => Iss.mem_threads_of_on hi.1 (hl u hu)) hm]
  by_cases hin : th ∈ l
  · simp only [if_pos hin]
  · simp only [if_neg hin]

/-- The threads of an issue after each guard-true one has written its destination. -/
theorem Iss.writesOf_thread? (d : Opnd) (n : Nat) {eff : Thread → Thread → Thread} (he : ∀ a u, (eff a u).t = u.t) (v : Thread → Nat) :
    (writesOf i.on d n eff v w).thread? th.t = some (if th ∈ i.on then (eff th (B th)).put d n (v th) else B th) := by
  rw [writesOf_thread i.on d n eff v he (Iss.on_nodup hi.1 hi.2), hB th hm, Option.map_some,
    find?_number hi.2 (fun u hu => Iss.mem_threads_of_on hi.1 hu) hm]
  by_cases hin : th ∈ i.on
  · simp only [if_pos hin]
  · simp only [if_neg hin]

end

/-! ### Completion of a change of the warp -/

theorem State.advance_eq (s : State) (i : Iss) : s.advance i = s.modWarp i.r (i.base s.tick 0) := by
  rw [← State.advance_noteOver, State.noteOver_zero]

/-- An issue that changed its warp alone, closed. -/
theorem State.modWarp_closes {s : State} {i : Iss} (hw : s.warp? i.r = some i.w) {F : Warp → Warp} (hwi : ∀ w, (F w).wi = w.wi) {W : Warp}
    (ho : (F i.w).outside = W.outside) (hs : (F i.w).s = W.s) {upd : Thread → Thread}
    (hth : ∀ th ∈ i.w.threads, (F i.w).thread? th.t = some (upd th)) (e : Bool) (extra : Nat) (busy : Bool) :
    Keeps s ((s.modWarp i.r F).closeIssue i e extra busy) i W upd where
  toLeaves := State.closeIssue_leaves (Made.of_modWarp hw F hwi ho hs hth) e extra busy
  outside := by rw [State.closeIssue_outside]; rfl
  seqs c := by rw [State.closeIssue_osSeq, State.core_modWarp]

/-! ### Targets (R54, R85) -/

/-- A target that passes the checks of R85 and whose line can be read. -/
def State.reaches (s : State) (i : Iss) (v : Int) : Prop :=
  0 ≤ v ∧ s.targetFault i.g i.w.core v.toNat true = none ∧ s.fetchHeld i.g i.w.core v.toNat = false

theorem State.reaches.exactFault {s : State} {i : Iss} {v : Int} (h : s.reaches i v) : s.exactFault i v = none := by
  obtain ⟨nonneg, sound, -⟩ := h
  rw [State.exactFault, if_neg (not_lt.2 nonneg), sound]

theorem State.reaches.targetHeld {s : State} {i : Iss} {v : Int} (h : s.reaches i v) : s.targetHeld i v = false := by
  obtain ⟨-, -, free⟩ := h
  rw [State.targetHeld, free, Bool.and_false]

/-- R54 with the line's number multiplied out. -/
theorem jTarget_eq (pc : VAddr) (x : JOps) :
    jTarget pc x = (pc.toNat / 64 * 64 : Int) + 64 * x.off.toInt + 12 * (x.slot.toNat : Int) := by
  simp [jTarget, pcLine, immInt]

section
variable {s : State} {h : Hdr} {i : Iss} (hi : Issues s h i)
include hi

/-! ### bra, brx, loopd and nop -/

/-- The active set moves on and some guard-true threads go to their targets. -/
theorem State.goTo_closes {l : List Thread} (hl : ∀ u ∈ l, u ∈ i.on) (v : Thread → Nat) (e : Bool) (extra : Nat) (busy : Bool) :
    Keeps s (((s.advance i).goTo i (l.map fun th => (th.t, v th))).closeIssue i e extra busy) i i.w fun th =>
      if th ∈ l then { i.moved s.tick th with pc := BitVec.ofNat 42 (v th) } else i.moved s.tick th := by
  obtain ⟨-, -, hw, -, -, -⟩ := State.iss?_some hi.1
  rw [State.advance_eq, State.goTo_eq, State.modWarp_modWarp _ _ _ _ (by intro w; rfl)]
  refine State.modWarp_closes hw (fun w => ?_) ?_ ?_ (fun th hm => ?_) e extra busy
  · exact Warp.goTo_wi ..
  · exact Warp.goTo_outside ..
  · exact Warp.goTo_s ..
  · exact Iss.goTo_thread? hi (fun u hu => Iss.base_zero_thread? hi hu) hm hl v

theorem execBra_completes (x : JOps) (hgo : i.on ≠ [] → s.reaches i (jTarget i.pc x)) :
    ∃ t, exec (.bra h x) s = .next t ∧ Keeps s t i i.w fun th =>
      if th ∈ i.on then { i.moved s.tick th with pc := BitVec.ofNat 42 (jTarget i.pc x).toNat } else i.moved s.tick th := by
  by_cases hon : i.on = []
  · exact ⟨_, exec_guardFalse (ins := .bra h x) rfl hi hon, by simpa [hon] using State.advance_closes hi.1 hi.2 h.e 0 false⟩
  · have go := hgo hon
    refine ⟨_, ?_, State.goTo_closes hi (fun _ hu => hu) (fun _ => (jTarget i.pc x).toNat) h.e 0 false⟩
    simp only [exec, execBra, run, hi.1, hon, go.targetHeld, go.exactFault, if_false, Bool.false_eq_true]

theorem execBra_waits (x : JOps) (hon : i.on ≠ []) (nonneg : 0 ≤ jTarget i.pc x)
    (held : s.fetchHeld i.g i.w.core (jTarget i.pc x).toNat = true) : exec (.bra h x) s = .next s := by
  simp only [exec, execBra, run, hi.1, hon, State.targetHeld, nonneg, held, decide_true, Bool.and_true, if_false, if_true]

theorem execBrx_completes (x : VOps)
    (hgo : ∀ th ∈ i.on, i.ready s [⟨x.a, 2⟩] [] false x.imm th ∧ s.reaches i (i.arg s x.imm x.a 2 th)) :
    ∃ t, exec (.brx h x) s = .next t ∧ Keeps s t i i.w fun th =>
      if th ∈ i.on then { i.moved s.tick th with pc := BitVec.ofNat 42 (i.arg s x.imm x.a 2 th) } else i.moved s.tick th := by
  by_cases hon : i.on = []
  · exact ⟨_, exec_guardFalse (ins := .brx h x) rfl hi hon, by simpa [hon] using State.advance_closes hi.1 hi.2 h.e 0 false⟩
  · have gate := State.gate_go (chk := fun th => s.targetFault i.g i.w.core (s.value i.g i.w th x.a 2 x.imm) true)
      (fun th hth => (hgo th hth).1) fun th hth => by
        obtain ⟨-, -, sound, -⟩ := hgo th hth
        exact sound
    have free : (i.on.any fun th => s.fetchHeld i.g i.w.core (s.value i.g i.w th x.a 2 x.imm)) = false := by
      simp only [List.any_eq_false, Bool.not_eq_true]
      intro th hth
      obtain ⟨-, -, -, free⟩ := hgo th hth
      exact free
    refine ⟨_, ?_, State.goTo_closes hi (fun _ hu => hu) (i.arg s x.imm x.a 2) h.e 0 false⟩
    simp only [exec, execBrx, run, hi.1, hon, gate, State.through, free, if_false, Bool.false_eq_true]
    rfl

/-- The active set's counts written, then those of its threads that `p` holds of gone to their targets. -/
def Iss.counted (i : Iss) (tick : Nat) (d : Opnd) (n : Nat) (c : Thread → Nat) (p : Thread → Bool) (v : Thread → Nat) (w : Warp) : Warp :=
  (writesOf i.on d n (fun _ u => u) c (i.base tick 0 w)).goTo i.pc ((i.on.filter p).map fun th => (th.t, v th))

omit hi in
theorem State.counted_eq (d : Opnd) (n : Nat) (c : Thread → Nat) (p : Thread → Bool) (v : Thread → Nat) :
    (i.on.foldl (fun t th => t.modWarp i.r fun w => w.put th.t d n (c th)) (s.advance i)).goTo i ((i.on.filter p).map fun th => (th.t, v th)) =
      s.modWarp i.r (i.counted s.tick d n c p v) := by
  have puts : (fun w => i.on.foldl (fun w th => Warp.put w th.t d n (c th)) w) = writesOf i.on d n (fun _ u => u) c := by
    funext w
    simp [writesOf, Warp.modThread]
  rw [State.foldl_modWarp _ _ (fun th w => Warp.put_wi ..), State.advance_eq, State.goTo_eq, puts,
    State.modWarp_modWarp _ _ _ _ (by intro w; exact writesOf_wi ..), State.modWarp_modWarp _ _ _ _ (by intro w; rfl)]
  rfl

theorem State.counted_closes (d : Opnd) (n : Nat) (c : Thread → Nat) (p : Thread → Bool) (v : Thread → Nat)
    (e : Bool) (extra : Nat) (busy : Bool) :
    Keeps s ((s.modWarp i.r (i.counted s.tick d n c p v)).closeIssue i e extra busy) i (i.scalars i.on d n c) fun th =>
      if th ∈ i.on then (if th ∈ i.on ∧ p th then { i.moved s.tick th with pc := BitVec.ofNat 42 (v th) } else i.moved s.tick th).put d n (c th)
      else i.moved s.tick th := by
  obtain ⟨-, -, hw, -, -, -⟩ := State.iss?_some hi.1
  have outside : (i.scalars i.on d n c).outside = i.w.outside := by cases d <;> rfl
  have scalars : (i.scalars i.on d n c).s = (writesOf i.on d n (fun _ u => u) c (i.base s.tick 0 i.w)).s := by
    rw [writesOf_s]
    cases d <;> rfl
  refine State.modWarp_closes hw (fun w => ?_) ?_ ?_ (fun th hm => ?_) e extra busy
  · exact (Warp.goTo_wi ..).trans (writesOf_wi ..)
  · exact (Warp.goTo_outside ..).trans ((writesOf_outside ..).trans outside.symm)
  · exact (Warp.goTo_s ..).trans scalars.symm
  · rw [Iss.counted, Iss.goTo_thread? hi (fun u hu => Iss.writesOf_thread? hi (fun u hu => Iss.base_zero_thread? hi hu) hu d n
      (fun _ _ => rfl) c) hm fun u hu => List.mem_of_mem_filter hu]
    by_cases hon : th ∈ i.on
    · simp only [List.mem_filter, hon, true_and]
      split
      · cases d <;> rfl
      · rfl
    · simp only [List.mem_filter, hon, false_and, if_false]

theorem execNop_completes (x : VOps) : ∃ t, exec (.nop h x) s = .next t ∧ Keeps s t i i.w (i.moved s.tick) :=
  ⟨_, by simp only [exec, execNop, run, hi.1, ite_self], State.advance_closes hi.1 hi.2 h.e 0 false⟩

theorem execLoopd_completes (x : JOps)
    (hgo : ∀ th ∈ i.on, i.ready s [⟨x.a, 1⟩] [] false 0 th ∧ (2 ≤ i.arg s 0 x.a 1 th → s.reaches i (jTarget i.pc x))) :
    ∃ t, exec (.loopd h x) s = .next t ∧ Keeps s t i (i.scalars i.on x.a 1 fun th => i.arg s 0 x.a 1 th - 1) fun th =>
      if th ∈ i.on then
        (if th ∈ i.on ∧ decide (2 ≤ i.arg s 0 x.a 1 th) then { i.moved s.tick th with pc := BitVec.ofNat 42 (jTarget i.pc x).toNat }
          else i.moved s.tick th).put x.a 1 (i.arg s 0 x.a 1 th - 1)
      else i.moved s.tick th := by
  by_cases hon : i.on = []
  · refine ⟨_, exec_guardFalse (ins := .loopd h x) rfl hi hon, ?_⟩
    have same : i.scalars i.on x.a 1 (fun th => i.arg s 0 x.a 1 th - 1) = i.w := by
      rw [hon]
      cases x.a <;> rfl
    rw [same]
    simpa [hon] using State.advance_closes hi.1 hi.2 h.e 0 false
  · have gate := State.gate_go (chk := fun th => if 2 ≤ s.value i.g i.w th x.a 1 0 then s.exactFault i (jTarget i.pc x) else none)
      (fun th hth => (hgo th hth).1) fun th hth => by
        split
        · next two => exact ((hgo th hth).2 two).exactFault
        · rfl
    have free : ((i.on.filter fun th => 2 ≤ s.value i.g i.w th x.a 1 0) ≠ [] && s.targetHeld i (jTarget i.pc x)) = false := by
      by_cases none : (i.on.filter fun th => decide (2 ≤ s.value i.g i.w th x.a 1 0)) = []
      · rw [none]
        rfl
      · obtain ⟨th, hth⟩ := List.exists_mem_of_ne_nil _ none
        obtain ⟨hth, two⟩ := List.mem_filter.1 hth
        rw [((hgo th hth).2 (of_decide_eq_true two)).targetHeld, Bool.and_false]
    refine ⟨_, ?_, State.counted_closes hi x.a 1 (fun th => i.arg s 0 x.a 1 th - 1) (fun th => 2 ≤ i.arg s 0 x.a 1 th)
      (fun _ => (jTarget i.pc x).toNat) h.e 0 false⟩
    simp only [exec, execLoopd, run, hi.1, hon, gate, State.through, free, if_false, Bool.false_eq_true]
    rw [← State.counted_eq]
    rfl

end

/-! ### ret (R86) -/

/-- What a ret of one thread pops: the youngest entry, or, once its fill has arrived, the word at the top of its spill area, which nothing
holds back. -/
def State.pops (s : State) (i : Iss) (th : Thread) (v : Nat) : Prop :=
  if th.rs = [] then
    i.w.stall = some (.ret true) ∧ th.k ≠ 0 ∧ ∃ pa, s.locate i.g i.w .glDev .load 8 (i.g.spillAddr th (th.k - 1)) = .ok (.phys pa, false) ∧
      s.homeHeld i.w.core pa true = false ∧ s.acqWaits i.r th = false ∧ (∀ f ∈ s.flights, (s.fillLoadOf i th pa).ownBefore f = false) ∧
      v = s.fillWord i th pa
  else v = (th.rs.getLast?.getD 0).toNat

theorem State.retAddr_of_kept (s : State) (i : Iss) {th : Thread} (h : th.rs ≠ []) : s.retAddr i th = none := by
  simp [State.retAddr, h]

namespace State.pops

variable {s : State} {i : Iss} {th : Thread} {v : Nat} (h : s.pops i th v)
include h

theorem popAddr : s.popAddr i th = .ok v := by
  unfold State.pops at h
  unfold State.popAddr
  split at h
  · next empty =>
    obtain ⟨-, k, pa, loc, -, -, -, word⟩ := h
    simp only [empty, List.getLast?_nil, k, if_false, loc, word]
  · next kept =>
    rw [List.getLast?_eq_some_getLast kept] at h ⊢
    rw [h]
    rfl

/-- A fill has arrived, and nothing holds it back. -/
theorem fill {pa : Nat} (hp : s.retAddr i th = some pa) : i.w.stall = some (.ret true) ∧ s.fillHeld i th pa = false := by
  unfold State.pops at h
  split at h
  · next empty =>
    obtain ⟨stall, k, pa', loc, home, acq, own, -⟩ := h
    simp only [State.retAddr, empty, k, loc, ne_eq, not_true_eq_false, decide_false, Bool.or_false, Bool.false_eq_true, if_false,
      Option.some.injEq] at hp
    subst hp
    refine ⟨stall, ?_⟩
    simp only [State.fillHeld, home, acq, Bool.false_or, List.any_eq_false, Bool.not_eq_true]
    exact own
  · next kept => rw [State.retAddr_of_kept s i kept] at hp; cases hp

end State.pops

/-- A fill's reading only notes what it has seen. -/
theorem State.noteFill_eq (s : State) (i : Iss) (th : Thread) :
    ∃ fl, s.noteFill i th = { s with flights := fl } ∧ fl.map Flight.sent = s.flights.map Flight.sent := by
  unfold State.noteFill
  split
  · exact ⟨_, rfl, State.markSeen_flights ..⟩
  · exact ⟨_, rfl, rfl⟩

theorem State.foldl_noteFill_eq (i : Iss) (l : List Thread) (s : State) :
    ∃ fl, l.foldl (fun t th => t.noteFill i th) s = { s with flights := fl } ∧ fl.map Flight.sent = s.flights.map Flight.sent := by
  induction l generalizing s with
  | nil => exact ⟨_, rfl, rfl⟩
  | cons th l ih =>
    obtain ⟨fl, first, sent⟩ := s.noteFill_eq i th
    obtain ⟨fl', rest, sent'⟩ := ih { s with flights := fl }
    exact ⟨fl', by rw [List.foldl_cons, first, rest], sent'.trans sent⟩

/-- Without a fill nothing is noted. -/
theorem State.foldl_noteFill_of_kept {s : State} {i : Iss} {l : List Thread} (h : ∀ th ∈ l, th.rs ≠ []) :
    l.foldl (fun t th => t.noteFill i th) s = s := by
  induction l with
  | nil => rfl
  | cons th l ih =>
    rw [List.foldl_cons, State.noteFill, State.retAddr_of_kept s i (h th List.mem_cons_self)]
    exact ih fun u hu => h u (List.mem_cons_of_mem _ hu)

/-- Whether a thread's fill must wait. -/
def State.fillWaits (s : State) (i : Iss) (th : Thread) : Bool := match s.retAddr i th with | some pa => s.fillHeld i th pa | none => false

/-- Whether the line that a thread returns to cannot be read now. -/
def State.popWaits (s : State) (i : Iss) (th : Thread) : Bool :=
  match s.popAddr i th with | .ok v => s.fetchHeld i.g i.w.core v | .error _ => false

/-- Where a thread returns to. -/
def State.popTarget (s : State) (i : Iss) (th : Thread) : Nat := match s.popAddr i th with | .ok v => v | .error _ => 0

/-- A thread's return stack after a ret. -/
def Thread.pop (th : Thread) : Thread := if th.rs = [] then { th with k := th.k - 1 } else { th with rs := th.rs.dropLast }

theorem Thread.pop_eq (th : Thread) : th.pop = { th with rs := th.rs.dropLast, k := if th.rs = [] then th.k - 1 else th.k } := by
  unfold Thread.pop
  split
  · next h => simp [h]
  · rfl

section
variable {s : State} {h : Hdr} {i : Iss} (hi : Issues s h i)
include hi

/-- The threads of an issue after a change of the guard-true ones. -/
theorem Iss.mapOn_thread? {w : Warp} {B f : Thread → Thread} (hf : ∀ u, (f u).t = u.t) (hB : ∀ th ∈ i.w.threads, w.thread? th.t = some (B th))
    {th : Thread} (hm : th ∈ i.w.threads) :
    (w.mapThreads fun u => if (i.on.map (·.t)).contains u.t then f u else u).thread? th.t = some (if th ∈ i.on then f (B th) else B th) := by
  have num : (B th).t = th.t := by simpa using List.find?_some (hB th hm)
  have mem := mem_of_number hi.2 (fun u hu => Iss.mem_threads_of_on hi.1 hu) hm
  rw [Warp.thread?_mapThreads _ _ _ (by intro u; split <;> simp [hf]), hB th hm, Option.map_some]
  simp only [num, List.contains_eq_mem, mem, decide_eq_true_eq]

theorem State.popped_closes (v : Thread → Nat) (e : Bool) (extra : Nat) (busy : Bool) :
    Keeps s ((((s.advance i).modThreads i.r (i.on.map (·.t)) Thread.pop).goTo i (i.on.map fun th => (th.t, v th))).closeIssue i e extra busy) i i.w
      fun th => if th ∈ i.on then { (i.moved s.tick th).pop with pc := BitVec.ofNat 42 (v th) } else i.moved s.tick th := by
  obtain ⟨-, -, hw, -, -, -⟩ := State.iss?_some hi.1
  have num : ∀ u : Thread, u.pop.t = u.t := fun u => by rw [Thread.pop_eq]
  rw [State.advance_eq, State.goTo_eq, State.modThreads, State.modWarp_modWarp _ _ _ _ (by intro w; rfl),
    State.modWarp_modWarp _ _ _ _ (by intro w; rfl)]
  refine State.modWarp_closes hw (fun w => ?_) ?_ ?_ (fun th hm => ?_) e extra busy
  · exact Warp.goTo_wi ..
  · exact Warp.goTo_outside ..
  · exact Warp.goTo_s ..
  · rw [Iss.goTo_thread? hi (fun u hu => Iss.mapOn_thread? hi num (fun u hu => Iss.base_zero_thread? hi hu) hu) hm fun _ hu => hu]
    by_cases hon : th ∈ i.on
    · simp only [if_pos hon]
    · simp only [if_neg hon]

/-- A ret goes on where no fill is held back or still to come, no target's line must be awaited and none is at fault. -/
theorem execRet_eq (x : VOps) (held : i.on.any (s.fillWaits i) = false)
    (arrived : ((i.on.any fun th => (s.retAddr i th).isSome) && i.w.stall ≠ some (.ret true)) = false)
    (free : i.on.any (s.popWaits i) = false) (sound : faultsOf i.on (s.retFault i) = []) :
    exec (.ret h x) s = .next (((((i.on.foldl (fun t th => t.noteFill i th) s).advance i).modThreads i.r (i.on.map (·.t)) Thread.pop).goTo i
      (i.on.map fun th => (th.t, s.popTarget i th))).closeIssue i h.e 0 false) := by
  have go : exec (.ret h x) s = .next (if i.on = [] then (s.advance i).closeIssue i h.e 0 false
      else if i.on.any (s.fillWaits i) || (i.on.any (fun th => (s.retAddr i th).isSome) && i.w.stall ≠ some (.ret true)) then
        s.modWarp i.r fun w => { w with stall := some (.ret false) }
      else if i.on.any (s.popWaits i) then s
      else match faultsOf i.on (s.retFault i) with
        | f :: fs => s.trapIss i (f :: fs)
        | [] => (((((i.on.foldl (fun t th => t.noteFill i th) s).advance i).modThreads i.r (i.on.map (·.t)) Thread.pop).goTo i
          (i.on.map fun th => (th.t, s.popTarget i th))).closeIssue i h.e 0 false)) := by
    simp only [exec, execRet, run, hi.1]
    rfl
  rw [go, held, arrived, free, sound]
  by_cases hon : i.on = []
  · simp [hon, State.goTo, State.modThreads, Warp.mapThreads]
  · simp [hon]

/-- A ret whose pops and targets are sound. -/
theorem execRet_completes (x : VOps) {v : Thread → Nat} (hgo : ∀ th ∈ i.on, s.reaches i (v th) ∧ s.pops i th (v th)) :
    ∃ t, exec (.ret h x) s = .next t ∧
      Leaves s t i i.w (fun th =>
        if th ∈ i.on then
          { i.moved s.tick th with
            pc := BitVec.ofNat 42 (v th), rs := th.rs.dropLast, k := if th.rs = [] then th.k - 1 else th.k }
        else i.moved s.tick th) ∧
      { t.outside with flights := [] } = { s.outside with flights := [] } ∧ t.flights.map Flight.sent = s.flights.map Flight.sent ∧
      (∀ c, (t.core c).osSeq = (s.core c).osSeq) ∧ ((∀ th ∈ i.on, th.rs ≠ []) → t.outside = s.outside) := by
  have popped : ∀ th, { (i.moved s.tick th).pop with pc := BitVec.ofNat 42 (v th) } =
      { i.moved s.tick th with pc := BitVec.ofNat 42 (v th), rs := th.rs.dropLast, k := if th.rs = [] then th.k - 1 else th.k } := by
    intro th
    rw [Thread.pop_eq, Iss.moved]
    split <;> rfl
  obtain ⟨fl, noted, sent⟩ := State.foldl_noteFill_eq i i.on s
  have kept := State.popped_closes (s := { s with flights := fl }) hi v h.e 0 false
  simp only [popped] at kept
  have held : i.on.any (s.fillWaits i) = false := by
    simp only [List.any_eq_false, Bool.not_eq_true]
    intro th hth
    unfold State.fillWaits
    split
    · next hp => exact ((hgo th hth).2.fill hp).2
    · rfl
  have arrived : ((i.on.any fun th => (s.retAddr i th).isSome) && i.w.stall ≠ some (.ret true)) = false := by
    rw [Bool.and_eq_false_iff]
    by_cases fills : (i.on.any fun th => (s.retAddr i th).isSome) = true
    · obtain ⟨th, hth, some⟩ := List.any_eq_true.1 fills
      obtain ⟨pa, hp⟩ := Option.isSome_iff_exists.1 some
      exact .inr (by simp [((hgo th hth).2.fill hp).1])
    · exact .inl (Bool.not_eq_true _ ▸ fills)
  have free : i.on.any (s.popWaits i) = false := by
    simp only [List.any_eq_false, Bool.not_eq_true]
    intro th hth
    obtain ⟨⟨-, -, free⟩, pops⟩ := hgo th hth
    rw [State.popWaits, pops.popAddr]
    exact free
  have sound : faultsOf i.on (s.retFault i) = [] := by
    refine faultsOf_eq_nil fun th hth => ?_
    obtain ⟨⟨-, sound, -⟩, pops⟩ := hgo th hth
    rw [State.retFault, pops.popAddr]
    exact sound
  have targets : (i.on.map fun th => (th.t, s.popTarget i th)) = i.on.map fun th => (th.t, v th) :=
    List.map_congr_left fun th hth => by rw [State.popTarget, (hgo th hth).2.popAddr]
  refine ⟨_, by rw [execRet_eq hi x held arrived free sound, noted, targets], ⟨kept.gangs, kept.warps, kept.cores, kept.warp⟩, ?_, ?_,
    kept.seqs, fun full => ?_⟩
  · rw [kept.outside]
    rfl
  · rw [State.flights_of_outside kept.outside]
    exact sent
  · have same : fl = s.flights := by
      rw [State.foldl_noteFill_of_kept full] at noted
      exact (congrArg State.flights noted).symm
    rw [kept.outside, same]

end

/-! ### Spills (R86) -/

/-- What translation reads: a machine but for its gangs, its cores and the accesses on their way. -/
def State.mapped (s : State) : State := { s.outside with flights := [], nextId := 0 }

/-- Where a thread's spill goes. -/
def State.spillTo (s : State) (i : Iss) (th : Thread) : Except Flt (Place × Bool) :=
  s.locate i.g i.w .glDev .plainStore 8 (i.g.spillAddr th th.k)

theorem State.spillTo_of_mapped {s t : State} (h : t.mapped = s.mapped) (i : Iss) (th : Thread) : t.spillTo i th = s.spillTo i th := by
  have reads : ∀ u : State, u.spillTo i th = u.mapped.spillTo i th := fun u => rfl
  rw [reads, h, ← reads]

theorem State.forward_mapped (s : State) (id : Nat) : (s.forward id).mapped = s.mapped := by
  unfold State.forward
  split
  · split
    · split <;> rfl
    · rfl
  · rfl

theorem State.intoCopy_mapped (s : State) (id : Nat) (f : Flight) : (s.intoCopy id f).mapped = s.mapped := by
  unfold State.intoCopy
  split
  · split
    · exact s.forward_mapped id
    · rfl
  · rfl

theorem State.grantOst_mapped (s : State) (core n : Nat) : (s.grantOst core n).mapped = s.mapped := by
  induction n generalizing s with
  | zero => rfl
  | succ n ih =>
    unfold State.grantOst
    split
    · rfl
    · split
      · rfl
      · rw [ih]
        rfl

theorem State.launchFlight_mapped (s : State) (f : Flight) : (s.launchFlight f).mapped = s.mapped :=
  (State.grantOst_mapped ..).trans (State.intoCopy_mapped ..)

/-- A spill sent to a place. -/
def State.sendSpill (s : State) (i : Iss) (th : Thread) (q : Place) : State :=
  s.launchFlight { i.flight (s.now i.w.core) th .store q 8 with
    va := i.g.spillAddr th th.k, data := leBytes 8 (nth th.rs 0 0).toNat, scope := .dev, needOst := true }

theorem State.spill_of_full {s : State} {i : Iss} {th : Thread} {q : Place × Bool} (full : ¬ th.rs.length < 8) (h : s.spillTo i th = .ok q) :
    s.spill i th = s.sendSpill i th q.1 := by
  unfold State.spillTo at h
  simp only [State.spill, full, h, if_false]
  rfl

/-- The place that a thread's spill goes to. -/
def State.spillPlace (s : State) (i : Iss) (th : Thread) : Place := match s.spillTo i th with | .ok q => q.1 | .error _ => .reg

/-- The spills of an issue go to the places found at its start. -/
theorem State.foldl_spill {s : State} {i : Iss} {l : List Thread} (h : ∀ th ∈ l, th.rs.length < 8 ∨ ∃ q, s.spillTo i th = .ok q) {t : State}
    (ht : t.mapped = s.mapped) : l.foldl (fun t th => t.spill i th) t =
      (l.filter fun th => 8 ≤ th.rs.length).foldl (fun t th => t.sendSpill i th (s.spillPlace i th)) t := by
  induction l generalizing t with
  | nil => rfl
  | cons th l ih =>
    have rest := fun u hu => h u (List.mem_cons_of_mem th hu)
    by_cases few : th.rs.length < 8
    · have kept : t.spill i th = t := by simp only [State.spill, few, if_true]
      rw [List.foldl_cons, kept, ih rest ht, List.filter_cons_of_neg (by simpa using few)]
    · obtain ⟨q, hq⟩ := (h th List.mem_cons_self).resolve_left few
      have sent : t.spill i th = t.sendSpill i th (s.spillPlace i th) := by
        rw [State.spill_of_full few ((State.spillTo_of_mapped ht i th).trans hq), State.spillPlace, hq]
      have mapped : (t.sendSpill i th (s.spillPlace i th)).mapped = s.mapped := (State.launchFlight_mapped ..).trans ht
      rw [List.foldl_cons, sent, ih rest mapped, List.filter_cons_of_pos (by simpa using few)]
      rfl

/-! ### call and callx (R86) -/

theorem Thread.push_eq (th : Thread) (ra : DWord) : th.push ra =
    { th with rs := (if th.rs.length < 8 then th.rs else th.rs.drop 1) ++ [ra], k := if th.rs.length < 8 then th.k else th.k + 1 } := by
  unfold Thread.push
  split <;> rfl

/-- The fault of a thread's call (R85, R86). -/
def State.callFault (s : State) (i : Iss) (tg : Thread → Int) (th : Thread) : Option Flt := (s.exactFault i (tg th)).or (s.spillFault i th)

/-- Whether a thread's call must wait. -/
def State.callWaits (s : State) (i : Iss) (tg : Thread → Int) (th : Thread) : Bool :=
  s.targetHeld i (tg th) || (8 ≤ th.rs.length && s.acqWaits i.r th)

/-- The warp after the calls of an issue. -/
def Iss.called (i : Iss) (d : Opnd) (tg : Thread → Int) (w : Warp) : Warp :=
  (writesOf i.on d 2 (fun _ u => u.push (BitVec.ofNat 64 (nextPc i.pc).toNat)) (fun _ => (nextPc i.pc).toNat) w).goTo i.pc
    (i.on.map fun th => (th.t, (tg th).toNat))

/-- A field of two registers, if it is named. -/
def pairField (o : Opnd) : List Fld :=
  match o with
  | .none => []
  | _ => [⟨o, 2⟩]

theorem pairField_eq (o : Opnd) : pairField o = if o = .none then [] else [⟨o, 2⟩] := by cases o <;> rfl

theorem State.callForm_eq (s : State) (h : Hdr) (i : Iss) (d a : Opnd) (tg : Thread → Int) :
    s.callForm h i d a tg = s.through i (s.gate i i.on (pairField a) (pairField d) false 0 (s.callFault i tg))
      (if i.on.any (s.callWaits i tg) then s
        else ((i.on.foldl (fun t th => t.spill i th) (s.advance i)).modWarp i.r (i.called d tg)).closeIssue i h.e 0
          (i.on.any fun th => 8 ≤ th.rs.length)) := by
  have written : ∀ t : State, (i.on.foldl (fun t th => t.modWarp i.r fun w =>
      (w.modThread th.t fun th => th.push (BitVec.ofNat 64 (nextPc i.pc).toNat)).put th.t d 2 (nextPc i.pc).toNat) t).goTo i
        (i.on.map fun th => (th.t, (tg th).toNat)) = t.modWarp i.r (i.called d tg) := by
    intro t
    have once := State.foldl_modWarp i.r (fun (th : Thread) (w : Warp) =>
      (w.modThread th.t fun u => u.push (BitVec.ofNat 64 (nextPc i.pc).toNat)).put th.t d 2 (nextPc i.pc).toNat)
      (fun th w => (Warp.put_wi ..).trans rfl) i.on t
    rw [once, State.goTo_eq, State.modWarp_modWarp _ _ _ _ (by intro w; exact writesOf_wi ..)]
    rfl
  rw [← written]
  rfl

/-- What a call leaves of a guard-true thread but for its target. -/
def Iss.pushed (i : Iss) (tick : Nat) (d : Opnd) (th : Thread) : Thread :=
  ({ i.moved tick th with
    rs := (if th.rs.length < 8 then th.rs else th.rs.drop 1) ++ [(nextPc i.pc).setWidth 64]
    k := if th.rs.length < 8 then th.k else th.k + 1 }).put d 2 (nextPc i.pc).toNat

/-- The store that spills a thread's oldest return address. -/
def Iss.isSpill (i : Iss) (th : Thread) (f : Flight) : Prop :=
  f.act = .store ∧ f.va = i.g.spillAddr th th.k ∧ f.len = 8 ∧ f.data = leBytes 8 (nth th.rs 0 0).toNat

/-- The calls of an issue may be made: operands, targets and spills are sound (R85, R86). -/
def State.callable (s : State) (i : Iss) (d a : Opnd) (tg : Thread → Int) : Prop :=
  ∀ th ∈ i.on, i.ready s (pairField a) (pairField d) false 0 th ∧ s.reaches i (tg th) ∧
    (th.rs.length < 8 ∨ 8 * (th.k + 1) ≤ i.g.spillSize ∧ s.acqWaits i.r th = false ∧ ∃ pa, s.spillTo i th = .ok (.phys pa, false))

/-- What the calls of an issue leave. -/
structure Calls (s t : State) (i : Iss) (d : Opnd) (tg : Thread → Int) : Prop where
  mem : t.mem = s.mem
  leaves : Leaves s t i i.w fun th =>
    if th ∈ i.on then { i.pushed s.tick d th with pc := BitVec.ofInt 42 (tg th) } else i.moved s.tick th
  spills : ∀ th ∈ i.on, 8 ≤ th.rs.length → ∃ f ∈ t.flights, f.gid = i.r.1 ∧ f.wi = i.r.2 ∧ f.t = th.t ∧ i.isSpill th f
  outside : (∀ th ∈ i.on, th.rs.length < 8) → t.outside = s.outside

theorem State.sendSpill_carries (s : State) (i : Iss) (th : Thread) (q : Place) :
    (s.sendSpill i th q).carriesNew s.nextId (i.sentBy th (i.isSpill th)) := State.launchFlight_carries ⟨rfl, rfl, rfl, rfl, rfl, rfl, rfl⟩

section
variable {s : State} {h : Hdr} {i : Iss} (hi : Issues s h i)
include hi

/-- The threads after the calls of an issue. -/
theorem Iss.called_thread? (d : Opnd) {tg : Thread → Int} (ht : ∀ th ∈ i.on, 0 ≤ tg th) {th : Thread} (hm : th ∈ i.w.threads) :
    (i.called d tg (i.base s.tick 0 i.w)).thread? th.t =
      some (if th ∈ i.on then { i.pushed s.tick d th with pc := BitVec.ofInt 42 (tg th) } else i.moved s.tick th) := by
  have num : ∀ u : Thread, (u.push (BitVec.ofNat 64 (nextPc i.pc).toNat)).t = u.t := fun u => by rw [Thread.push_eq]
  rw [Iss.called, Iss.goTo_thread? hi (fun u hu => Iss.writesOf_thread? hi (fun u hu => Iss.base_zero_thread? hi hu) hu d 2
    (fun _ u => num u) _) hm fun _ hu => hu]
  by_cases hon : th ∈ i.on
  · have target : BitVec.ofNat 42 (tg th).toNat = BitVec.ofInt 42 (tg th) := by
      rw [← BitVec.ofInt_natCast, Int.toNat_of_nonneg (ht th hon)]
    have stack : (i.moved s.tick th).rs = th.rs ∧ (i.moved s.tick th).k = th.k := by
      unfold Iss.moved
      split <;> exact ⟨rfl, rfl⟩
    obtain ⟨rs, k⟩ := stack
    simp only [if_pos hon, Iss.pushed, Thread.push_eq, target, rs, k, BitVec.ofNat_toNat]
  · simp only [if_neg hon]

omit hi in
/-- The spills of an issue sent, then its calls made. -/
theorem State.called_departs (d : Opnd) (tg : Thread → Int) (l : List Thread) (place : Thread → Place) :
    Departs s ((l.foldl (fun t th => t.sendSpill i th (place th)) (s.advance i)).modWarp i.r (i.called d tg)) i.r
      fun w => i.called d tg (i.base s.tick 0 w) := by
  have spills := Departs.foldl (r := i.r) (f := fun t th => t.sendSpill i th (place th)) (E := fun _ w => w)
    (fun _ _ => Departs.launchFlight) l (s.advance i)
  have same : (fun w : Warp => l.foldl (fun w _ => w) w) = fun w => w := funext fun w => foldl_keeps id _ (fun _ _ => rfl) l w
  rw [same] at spills
  exact (Departs.advance.trans spills).trans (Departs.modWarp fun w => (Warp.goTo_wi ..).trans (writesOf_wi ..))

/-- A call whose targets and spills are sound. -/
theorem State.callForm_completes (d a : Opnd) {tg : Thread → Int} (hd : d.cls ≠ .s) (hgo : s.callable i d a tg) :
    Calls s (s.callForm h i d a tg) i d tg := by
  obtain ⟨-, -, hw, -, -, -⟩ := State.iss?_some hi.1
  have gate : s.gate i i.on (pairField a) (pairField d) false 0 (s.callFault i tg) = .go := by
    refine State.gate_go (fun th hth => (hgo th hth).1) fun th hth => ?_
    obtain ⟨-, reaches, spill⟩ := hgo th hth
    rw [State.callFault, reaches.exactFault, Option.none_or, State.spillFault]
    split
    · rfl
    · next full =>
      obtain ⟨room, -, pa, place⟩ := spill.resolve_left full
      unfold State.spillTo at place
      simp only [place, if_neg (not_lt.2 room)]
  have free : i.on.any (s.callWaits i tg) = false := by
    simp only [List.any_eq_false, Bool.not_eq_true]
    intro th hth
    obtain ⟨-, reaches, spill⟩ := hgo th hth
    rw [State.callWaits, reaches.targetHeld, Bool.false_or, Bool.and_eq_false_iff]
    rcases spill with few | ⟨-, acq, -⟩
    · exact .inl (by simpa using few)
    · exact .inr acq
  have nonneg : ∀ th ∈ i.on, 0 ≤ tg th := fun th hth => by
    obtain ⟨-, ⟨nonneg, -⟩, -⟩ := hgo th hth
    exact nonneg
  have places : ∀ th ∈ i.on, th.rs.length < 8 ∨ ∃ q, s.spillTo i th = .ok q := fun th hth => by
    obtain ⟨-, -, spill⟩ := hgo th hth
    exact spill.imp_right fun ⟨_, _, pa, place⟩ => ⟨_, place⟩
  have spills := State.foldl_spill places (t := s.advance i) (show (s.advance i).mapped = s.mapped from rfl)
  rw [State.callForm_eq, gate, free, spills]
  have departs := State.called_departs (s := s) (i := i) d tg (i.on.filter fun th => 8 ≤ th.rs.length) (s.spillPlace i)
  have sends := departs.closeIssue_sends (W := i.w) hw ((Warp.goTo_outside ..).trans (writesOf_outside ..)) ?regs
    (fun th hm => Iss.called_thread? hi d nonneg hm) h.e 0 (i.on.any fun th => 8 ≤ th.rs.length)
  case regs =>
    refine (Warp.goTo_s ..).trans ?_
    rw [writesOf_s]
    cases d with
    | s => exact absurd rfl hd
    | _ => rfl
  refine ⟨?_, sends.toLeaves, fun th hth full => ?_, fun few => ?_⟩
  · exact (congrArg State.mem sends.still :)
  · obtain ⟨f, hf, -, hg, hwi, ht, hspill⟩ := Departs.foldl_carries (r := i.r)
      (f := fun t th => t.sendSpill i th (s.spillPlace i th)) (E := fun _ w => w)
      (l := i.on.filter fun th => 8 ≤ th.rs.length) (fun _ _ => Departs.launchFlight)
      (fun t a _ => t.sendSpill_carries i a (s.spillPlace i a)) (le_refl (s.advance i).nextId) th
      (List.mem_filter.2 ⟨hth, decide_eq_true full⟩)
    refine ⟨f, ?_, hg, hwi, ht, hspill⟩
    simp only [State.through, Bool.false_eq_true, if_false, State.closeIssue_flights]
    exact hf
  · have none : (i.on.filter fun th => 8 ≤ th.rs.length) = [] := by
      rw [List.filter_eq_nil_iff]
      exact fun th hth => by simpa using few th hth
    simp only [State.through, Bool.false_eq_true, if_false, State.closeIssue_outside, none, List.foldl_nil]
    rfl

end

/-! ### Transfers go -/

section
variable {s : State} {h : Hdr} {i : Iss} (hi : Issues s h i)
include hi

/-- An instruction that calls, also where no guard is true. -/
theorem exec_calls {ins : Instr} {d o b c : Opnd} (ho : ins.opnds = some (h, d, o, b, c)) (a : Opnd) {tg : Thread → Int}
    (hex : i.on ≠ [] → exec ins s = .next (s.callForm h i d a tg)) (hd : d.cls ≠ .s) (hgo : s.callable i d a tg) :
    ∃ t, exec ins s = .next t ∧ Calls s t i d tg := by
  by_cases hon : i.on = []
  · have kept := State.advance_closes hi.1 hi.2 h.e 0 false
    exact ⟨_, exec_guardFalse ho hi hon, State.mem_of_outside kept.outside, by simpa [hon] using kept.toLeaves, by simp [hon],
      fun _ => kept.outside⟩
  · exact ⟨_, hex hon, State.callForm_completes hi d a hd hgo⟩

theorem execCall_completes (x : JOps) (hd : x.d.cls ≠ .s) (hgo : s.callable i x.d .none fun _ => jTarget i.pc x) :
    ∃ t, exec (.call h x) s = .next t ∧ Calls s t i x.d fun _ => jTarget i.pc x :=
  exec_calls hi (ins := .call h x) rfl .none (fun hon => by simp only [exec, execCall, run, hi.1, hon, if_false]) hd hgo

theorem execCallx_completes (x : VOps) (hd : x.d.cls ≠ .s) (hgo : s.callable i x.d x.a fun th => (i.arg s x.imm x.a 2 th : Int)) :
    ∃ t, exec (.callx h x) s = .next t ∧ Calls s t i x.d fun th => (i.arg s x.imm x.a 2 th : Int) :=
  exec_calls hi (ins := .callx h x) rfl x.a (fun hon => by simp only [exec, execCallx, run, hi.1, hon, if_false, Iss.arg]) hd hgo

end

/-- Settles O8: each transfer is one change of its warp, but that a call's spills depart before it and a ret's fills note what they read. -/
theorem transfersGo : Obligations.TransfersGo := by
  refine ⟨fun h s i hi => ?_, fun h s i hi => ?_⟩
  · dsimp only
    simp only [← jTarget_eq]
    refine ⟨fun x hgo => ?_, fun x => execBra_waits hi x, fun x hgo => ?_, fun x => ?_, fun x hgo => ?_⟩
    · simpa only [and_true] using execBra_completes hi x hgo
    · simpa only [and_true] using execBrx_completes hi x hgo
    · exact execNop_completes hi x
    · exact execLoopd_completes hi x hgo
  · dsimp only
    simp only [← jTarget_eq]
    refine ⟨fun x hd hgo => ?_, fun x ha himm hd hgo => ?_, fun x v hgo => ?_⟩
    · simp only [← pairField_eq] at hgo
      obtain ⟨t, ht, calls⟩ := execCall_completes hi x hd hgo
      exact ⟨t, ht, calls.mem, calls.leaves, calls.spills, calls.outside⟩
    · have fields : pairField x.a = [⟨x.a, 2⟩] := (pairField_eq x.a).trans (if_neg ha)
      simp only [← pairField_eq, ← fields] at hgo
      obtain ⟨t, ht, calls⟩ := execCallx_completes hi x hd (himm ▸ hgo)
      exact ⟨t, ht, calls.mem, himm ▸ calls.leaves, calls.spills, calls.outside⟩
    · exact execRet_completes hi x hgo

end Sys2Proof.Machine
end

/-!
Packed integers, the trellis step and dot products (R124, R138 to R141): each form is the plain pattern with a value made element by element.
-/
section
namespace Sys2Proof.Machine

/-- satE (R138) as a clamp between the bounds of the element's type. -/
theorem satEl_eq (t : Ty) (v : Int) :
    satEl t v =
      let lo : Int := if tySigned t then -2 ^ (elBits t - 1) else 0
      let hi : Int := if tySigned t then 2 ^ (elBits t - 1) - 1 else 2 ^ elBits t - 1
      wrapN (elBits t) (max lo (min hi v)) := by
  simp only [satEl, rangeOf, Nat.cast_pow, Nat.cast_ofNat]
  split <;> rfl

/-- One element of acs2 (R139): the lesser sum survives, the first where they are equal. -/
theorem acsStep_eq (t : Ty) (a b c k : Nat) :
    let c0 := satEl t (elNum t a k + (c / 2 ^ (16 * k) % 256 : Nat))
    let c1 := satEl t (elNum t b k + (c / 2 ^ (16 * k + 8) % 256 : Nat))
    let less := decide (elNum t c1 0 < elNum t c0 0)
    acsStep t a b c k = (if less then c1 else c0, less) := by
  intro c0 c1 less
  have step : acsStep t a b c k = if elNum t c1 0 < elNum t c0 0 then (c1, true) else (c0, false) := rfl
  rw [step]
  by_cases hl : elNum t c1 0 < elNum t c0 0
  · simp only [less, hl, if_true, decide_true]
  · simp only [less, hl, if_false, decide_false, Bool.false_eq_true]

/-- A packed integer form writes its results, clamped or wrapped element by element. -/
theorem Computes.of_packedInt {ins : Instr} {h : Hdr} {x : VOps} {t : Ty} {sat : Bool} (f : Int → Int → Int)
    (he : ∀ s, exec ins s = s.packedInt h x t sat f) :
    Computes ins h x.d 1 (flds x 1 1 0) x.imm fun s i th => mapEls t fun k =>
      let r := f (elNum t (i.arg s x.imm x.a 1 th) k) (elNum t (i.arg s x.imm x.b 1 th) k)
      if sat then satEl t r else wrapN (elBits t) r :=
  Computes.of_plain (Wid.same .f32 2) (fun u => mapEls t fun k =>
    if sat then satEl t (f (elNum t u.a k) (elNum t u.b k)) else wrapN (elBits t) (f (elNum t u.a k) (elNum t u.b k))) he fun _ _ _ => rfl

/-- What acs2 makes of its operands (R139): the survivors, and $dcs shifted by their decisions. -/
def acs2Out (t : Ty) (v : TIn) : TOut :=
  let r := fun i => acsStep t v.a v.b v.c i
  { d := some (mapEls t fun i => (r i).1),
    th := fun th => { th with dcs := BitVec.ofNat 32 (th.dcs.toNat * 4 + 2 * (r 1).2.toNat + (r 0).2.toNat) } }

theorem execAcs2_eq (h : Hdr) (x : VOps) (t : Ty) (s : State) :
    execAcs2 h x t s = s.plain h x (Wid.same .f32 3) false (acs2Out t) := by
  unfold execAcs2
  congr 1
  funext v
  simp only [acs2Out]
  cases (acsStep t v.a v.b v.c 1).2 <;> cases (acsStep t v.a v.b v.c 0).2 <;> rfl

/-- A dot product writes C and the pairwise products, summed in integers or rounded once (R124, R141). -/
theorem Computes.of_dotForm {ins : Instr} {h : Hdr} {x : VOps} {t : Ty} {bt : Option Ty} (n : Nat)
    (he : ∀ s, exec ins s = s.dotForm h x n t bt) :
    Computes ins h x.d 1 (flds x 1 1 1) x.imm fun s i th =>
      let a := i.arg s x.imm x.a 1 th
      let b := i.arg s x.imm x.b 1 th
      let c := i.arg s x.imm x.c 1 th
      if t.isInteger then wrapN 32 ((List.range n).foldl (fun z k => z + elNum t a k * elNum (bt.getD t) b k) (signedN 32 c))
      else fp32.round .rne (dotSum n t (bt.getD t) a b (fp32.decode c)) :=
  Computes.of_plain (Wid.same .f32 3) (fun u =>
    if t.isInteger then wrapN 32 ((List.range n).foldl (fun z k => z + elNum t u.a k * elNum (bt.getD t) u.b k) (signedN 32 u.c))
    else fp32.round .rne (dotSum n t (bt.getD t) u.a u.b (fp32.decode u.c))) he fun _ _ _ => rfl

/-- Settles O6: every form is `State.plain`, its value made element by element as the statement writes it out. -/
theorem packedComputes : Obligations.PackedComputes := by
  intro h x t bt sat a b c lo hi clamp narrow each elems dot c0 c1 less
  have clamps : satEl t = clamp := funext (satEl_eq t)
  -- `.sat` clamps a sum or difference; the other forms only wrap
  have sums {ins : Instr} (f : Int → Int → Int) (he : ∀ s, exec ins s = s.packedInt h x t sat f) :
      elems ins fun u v => narrow (f u v) :=
    (Computes.of_packedInt f he).congr fun s i th => by rw [clamps]
  have wraps {ins : Instr} (f : Int → Int → Int) (he : ∀ s, exec ins s = s.packedInt h x t false f) :
      elems ins fun u v => wrapN (elBits t) (f u v) :=
    (Computes.of_packedInt f he).congr fun s i th => rfl
  have absd : elems (.vabsd2 h x t) fun u v => wrapN (elBits t) |u - v| :=
    (Computes.of_packedInt (fun u v => ((u - v).natAbs : Int)) fun _ => rfl).congr fun s i th => by
      simp only [Int.natCast_natAbs]
      rfl
  have acs (s : State) (i : Iss) (th : Thread) (k : Nat) : acsStep t (a s i th) (b s i th) (c s i th) k =
      (if less s i th k then c1 s i th k else c0 s i th k, less s i th k) := by
    have step := acsStep_eq t (a s i th) (b s i th) (c s i th) k
    rw [clamps] at step
    exact step
  have acs2 : Plainly (.acs2 h x t) h x.d 1 (flds x 1 1 1) x.imm false
      (fun s i th u => { u with dcs := BitVec.ofNat 32 (u.dcs.toNat * 4 + 2 * (less s i th 1).toNat + (less s i th 0).toNat) })
      fun s i th => mapEls t fun k => if less s i th k then c1 s i th k else c0 s i th k := by
    refine Plainly.of_plain (Wid.same .f32 3) (acs2Out t) (execAcs2_eq h x t) (fun _ => nofun) (fun _ _ => rfl)
      (fun s i th => funext fun u => ?dcs) fun s i th => ?survivors
    case dcs =>
      change { u with dcs := BitVec.ofNat 32 (u.dcs.toNat * 4 + 2 * (acsStep t (a s i th) (b s i th) (c s i th) 1).2.toNat +
        (acsStep t (a s i th) (b s i th) (c s i th) 0).2.toNat) } = _
      rw [acs, acs]
    case survivors =>
      change mapEls t (fun k => (acsStep t (a s i th) (b s i th) (c s i th) k).1) = _
      simp only [acs]
  exact ⟨sums (· + ·) fun _ => rfl, sums (· - ·) fun _ => rfl, wraps min fun _ => rfl, wraps max fun _ => rfl, absd,
    sums (· + ·) fun _ => rfl, sums (· - ·) fun _ => rfl, wraps min fun _ => rfl, wraps max fun _ => rfl,
    Computes.of_dotForm 4 fun _ => rfl, Computes.of_dotForm 8 fun _ => rfl, acs2⟩

end Sys2Proof.Machine
end

/-!
Integers of a type (R82, R241): their numbers, wrapped and clamped patterns, in the terms of bit vectors.
-/
section
namespace Sys2Proof.Machine

theorem numOf_eq (t : Ty) (v : Nat) :
    numOf t v = if tySigned t then (BitVec.ofNat (tyBits t) v).toInt else ((BitVec.ofNat (tyBits t) v).toNat : Int) := by
  rw [numOf, signedN_eq_toInt, BitVec.toNat_ofNat]
  rfl

theorem wrapN_eq_toNat (w : Nat) (z : Int) : wrapN w z = (BitVec.ofInt w z).toNat := by rw [BitVec.toNat_ofInt, wrapN]

/-- A pattern is congruent to its number. -/
theorem wrapN_numOf_add (t : Ty) (u v : Nat) : wrapN (tyBits t) (numOf t u + numOf t v) = (u + v) % 2 ^ tyBits t := by
  have ofInt (v : Nat) : BitVec.ofInt (tyBits t) (numOf t v) = BitVec.ofNat (tyBits t) v := by
    rw [numOf_eq]
    split
    · exact BitVec.ofInt_toInt
    · rw [BitVec.ofInt_natCast, BitVec.ofNat_toNat, BitVec.setWidth_eq]
  rw [wrapN_eq_toNat, BitVec.ofInt_add, ofInt, ofInt, ← BitVec.ofNat_add, BitVec.toNat_ofNat]

/-- The least number of an integer type (R82). -/
def tyLo (t : Ty) : Int := if tySigned t then -2 ^ (tyBits t - 1) else 0

/-- The greatest number of an integer type (R82). -/
def tyHi (t : Ty) : Int := if tySigned t then 2 ^ (tyBits t - 1) - 1 else 2 ^ tyBits t - 1

/-- A number in the range of a type comes back from its pattern. -/
theorem numOf_wrapN {t : Ty} {z : Int} (hlo : tyLo t ≤ z) (hhi : z ≤ tyHi t) : numOf t (wrapN (tyBits t) z) = z := by
  have half : (2 : Int) ^ tyBits t = 2 * 2 ^ (tyBits t - 1) := by
    rw [← pow_succ', Nat.sub_add_cancel (tyBits_pos t)]
  have pos : (0 : Int) < 2 ^ (tyBits t - 1) := by positivity
  rw [numOf_eq, wrapN_eq_toNat, BitVec.ofNat_toNat, BitVec.setWidth_eq]
  unfold tyLo at hlo
  unfold tyHi at hhi
  split at hlo
  · next signed =>
    rw [if_pos signed] at hhi ⊢
    rw [BitVec.toInt_ofInt]
    refine Int.bmod_eq_of_le ?_ ?_ <;> push_cast <;> omega
  · next signed =>
    rw [if_neg signed] at hhi ⊢
    rw [BitVec.toNat_ofInt, Int.toNat_of_nonneg (Int.emod_nonneg _ (by positivity))]
    refine Int.emod_eq_of_lt hlo ?_
    push_cast
    omega

theorem tyLo_le_tyHi (t : Ty) : tyLo t ≤ tyHi t := by
  have pos : (0 : Int) < 2 ^ (tyBits t - 1) := by positivity
  have pos' : (0 : Int) < 2 ^ tyBits t := by positivity
  unfold tyLo tyHi
  split <;> omega

theorem satOf_eq (t : Ty) (z : Int) : satOf t z = wrapN (tyBits t) (max (tyLo t) (min z (tyHi t))) := by
  simp only [satOf, tyLo, tyHi, Nat.cast_pow, Nat.cast_ofNat]
  split <;> rfl

theorem numOf_satOf (t : Ty) (z : Int) : numOf t (satOf t z) = if z < tyLo t then tyLo t else if tyHi t < z then tyHi t else z := by
  have range := tyLo_le_tyHi t
  rw [satOf_eq, numOf_wrapN (le_max_left ..) (max_le range (min_le_right ..))]
  split <;> [skip; split] <;> omega

/-- Numbers compare as the signed or unsigned bit vectors. -/
theorem numOf_lt_iff (t : Ty) (u v : Nat) : numOf t u < numOf t v ↔
    ¬(if tySigned t then (BitVec.ofNat (tyBits t) v).sle (BitVec.ofNat (tyBits t) u)
      else (BitVec.ofNat (tyBits t) v).ule (BitVec.ofNat (tyBits t) u)) = true := by
  rw [numOf_eq, numOf_eq]
  split
  · rw [BitVec.sle, decide_eq_true_eq, not_le]
  · rw [BitVec.ule, decide_eq_true_eq, not_le, Int.ofNat_lt]

/-- What an integer atomic writes (R241). -/
theorem atomNew_int {t : Ty} {old b : Nat} (ht : t.isInt = true) (ho : old < 2 ^ tyBits t) (hb : b < 2 ^ tyBits t) :
    let new := fun op => atomNew t op old b none atomFloat
    let n := tyBits t
    let le := fun (u v : Nat) => if tySigned t then (BitVec.ofNat n u).sle (BitVec.ofNat n v) else (BitVec.ofNat n u).ule (BitVec.ofNat n v)
    new .add = (old + b) % 2 ^ n ∧
    new .min = (if le old b then old else b) ∧
    new .max = (if le b old then old else b) ∧
    new .and = (BitVec.ofNat n old &&& BitVec.ofNat n b).toNat ∧
    new .or = (BitVec.ofNat n old ||| BitVec.ofNat n b).toNat ∧
    new .xor = (BitVec.ofNat n old ^^^ BitVec.ofNat n b).toNat ∧
    new .xchg = b ∧
    new .incw = (if old ≥ b then 0 else old + 1) ∧
    ∀ c, atomNew t .xchg old b (some c) atomFloat = if old = c then b else old := by
  intro new n le
  have pick (u v : Nat) : (if numOf t u < numOf t v then u else v) = if le v u then v else u := by
    simp only [numOf_lt_iff, ite_not]
    rfl
  refine ⟨?add, ?min, ?max, ?and, ?or, ?xor, rfl, rfl, fun _ => rfl⟩
  case add => exact (if_pos ht).trans (wrapN_numOf_add t old b)
  case min => exact (if_pos ht).trans (pick b old)
  case max =>
    refine (if_pos ht).trans ?_
    simp only [numOf_lt_iff, ite_not]
    rfl
  case and => exact (lowN_of_lt (Nat.and_lt_two_pow old hb)).symm.trans (lowN_and ho hb)
  case or => exact (lowN_of_lt (Nat.or_lt_two_pow ho hb)).symm.trans (lowN_or ho hb)
  case xor => exact (lowN_of_lt (Nat.xor_lt_two_pow ho hb)).symm.trans (lowN_xor ho hb)

end Sys2Proof.Machine
end

/-!
Exact values and their rounding (R112, R116 to R118, R126): sums and products of dyadics, the magnitude codes of a format, and the code that
a value takes.
-/
section
namespace Sys2Proof.Machine

/-! ### Exact sums and products (R126) -/

theorem dyadic_zero (e : Int) : dyadic 0 e = 0 := by simp [dyadic]

theorem two_zpow_pos (e : Int) : (0 : ℚ) < 2 ^ e := zpow_pos two_pos e

theorem dyadic_ne_zero {n : Int} (hn : n ≠ 0) (e : Int) : dyadic n e ≠ 0 := mul_ne_zero (Int.cast_ne_zero.2 hn) (two_zpow_pos e).ne'

theorem dyadic_neg (n e : Int) : dyadic (-n) e = -dyadic n e := by simp [dyadic]

theorem abs_dyadic (n e : Int) : |dyadic n e| = dyadic n.natAbs e := by
  rw [dyadic, dyadic, abs_mul, abs_of_pos (two_zpow_pos e), Int.natCast_natAbs, Int.cast_abs]

theorem dyadic_mul (a e b k : Int) : dyadic (a * b) (e + k) = dyadic a e * dyadic b k := by
  rw [dyadic, dyadic, dyadic, zpow_add₀ two_ne_zero, Int.cast_mul]
  ring

/-- A dyadic brought to a smaller exponent. -/
theorem dyadic_lower (n : Int) {l e : Int} (h : l ≤ e) : dyadic (n * (2 ^ (e - l).toNat : Nat)) l = dyadic n e := by
  have exp : e = ((e - l).toNat : Int) + l := by omega
  rw [dyadic, dyadic]
  conv_rhs => rw [exp, zpow_add₀ two_ne_zero, zpow_natCast]
  push_cast
  ring

theorem dyadic_addDyadic (a e b k : Int) : dyadic (addDyadic a e b k).1 (addDyadic a e b k).2 = dyadic a e + dyadic b k := by
  unfold addDyadic
  split
  · next ha => rw [ha, dyadic_zero, zero_add]
  · split
    · next hb => rw [hb, dyadic_zero, add_zero]
    · change dyadic (_ + _) (min e k) = _
      rw [← dyadic_lower a (min_le_left e k), ← dyadic_lower b (min_le_right e k), dyadic, dyadic, dyadic, Int.cast_add, add_mul]

theorem Exact.add_num (a e b k : Int) : (Exact.num a e).add (.num b k) = .num (addDyadic a e b k).1 (addDyadic a e b k).2 := rfl

theorem Exact.mul_num {a b : Int} (ha : a ≠ 0) (hb : b ≠ 0) (e k : Int) : (Exact.num a e).mul (.num b k) = .num (a * b) (e + k) :=
  if_neg (not_or.2 ⟨ha, hb⟩)

/-- A zero is one of the two. -/
theorem Exact.isZero_cases {x : Exact} (hx : x.isZero = true) : x = .negZero ∨ ∃ e, x = .num 0 e := by
  cases x with
  | num n e => exact .inr ⟨e, by rw [of_decide_eq_true hx]⟩
  | negZero => exact .inl rfl
  | nan => exact absurd hx (by decide)
  | inf s => exact absurd hx (by simp [Exact.isZero])

/-- A finite value is a number or −0. -/
theorem Exact.finite_cases {y : Exact} (hy : y.isZero = true ∨ ∃ b k, y = .num b k) : y = .negZero ∨ ∃ b k, y = .num b k := by
  rcases hy with hy | hy
  · exact (Exact.isZero_cases hy).imp_right fun ⟨e, he⟩ => ⟨0, e, he⟩
  · exact .inr hy

/-- A zero times a finite value is the zero of their signs (R118). -/
theorem Exact.mul_zero {x y : Exact} (hx : x.isZero = true) (hy : y.isZero = true ∨ ∃ b k, y = .num b k) :
    x.mul y = if x.isNeg = y.isNeg then .num 0 0 else .negZero := by
  have product : x.mul y = Exact.zero (x.isNeg != y.isNeg) := by
    rcases Exact.isZero_cases hx with rfl | ⟨e, rfl⟩ <;> rcases Exact.finite_cases hy with rfl | ⟨b, k, rfl⟩
    · rfl
    · rfl
    · rfl
    · simp only [Exact.mul, true_or, if_true]
  rw [product]
  cases x.isNeg <;> cases y.isNeg <;> rfl

/-- A sum is −0 only of two −0 (R118). -/
theorem Exact.add_eq_negZero {x y : Exact} (hx : x.isZero = true) (hy : y.isZero = true ∨ ∃ b k, y = .num b k) :
    x.add y = .negZero ↔ x = .negZero ∧ y = .negZero := by
  rcases Exact.isZero_cases hx with rfl | ⟨e, rfl⟩ <;> rcases Exact.finite_cases hy with rfl | ⟨b, k, rfl⟩ <;> simp [Exact.add]

/-! ### Magnitude codes (R112) -/

/-- The exponent of a format's smallest magnitude. -/
def Fmt.emin (f : Fmt) : Int := 1 - (f.bias : Int) - f.m

/-- `q` units of size 2^(K + emin) have code K × 2^m + q, also at the power of two behind the last fraction. -/
theorem Fmt.mag_units {f : Fmt} {K q : Nat} (hq : q ≤ 2 ^ (f.m + 1)) (hK : K = 0 ∨ 2 ^ f.m ≤ q) :
    f.mag (K * 2 ^ f.m + q) = dyadic q (K + f.emin) := by
  have pos : 0 < 2 ^ f.m := Nat.two_pow_pos _
  have double : 2 ^ (f.m + 1) = 2 * 2 ^ f.m := pow_succ' 2 f.m
  -- the exponent field K + 1 + (q - 2^m) / 2^m, where the number is normal
  have normal (j r : Nat) (hr : r < 2 ^ f.m) (h : q = (j + 1) * 2 ^ f.m + r) :
      f.mag (K * 2 ^ f.m + q) = dyadic (2 ^ f.m + r : Nat) ((K + j + 1 : Nat) - f.bias - f.m) := by
    have code : K * 2 ^ f.m + q = r + 2 ^ f.m * (K + j + 1) := by rw [h]; ring
    have div : (K * 2 ^ f.m + q) / 2 ^ f.m = K + j + 1 := by
      rw [code, Nat.add_mul_div_left _ _ pos, Nat.div_eq_of_lt hr, Nat.zero_add]
    have mod : (K * 2 ^ f.m + q) % 2 ^ f.m = r := by rw [code, Nat.add_mul_mod_self_left, Nat.mod_eq_of_lt hr]
    rw [Fmt.mag, div, mod, if_neg (Nat.succ_ne_zero _)]
  rcases Nat.lt_or_ge q (2 ^ f.m) with low | high
  · obtain rfl : K = 0 := hK.resolve_right low.not_ge
    rw [Nat.zero_mul, Nat.zero_add, Fmt.mag, Nat.div_eq_of_lt low, if_pos rfl, Fmt.emin, Nat.cast_zero, zero_add]
  · rcases Nat.lt_or_ge q (2 ^ (f.m + 1)) with below | last
    · rw [normal 0 (q - 2 ^ f.m) (by omega) (by omega), Nat.add_sub_cancel' high, Fmt.emin]
      congr 1
      push_cast
      ring
    · obtain rfl : q = 2 ^ (f.m + 1) := le_antisymm hq last
      rw [normal 1 0 pos (by omega), Fmt.emin, double, dyadic, dyadic,
        show ((K + 1 + 1 : Nat) - f.bias - f.m : Int) = 1 + (K + (1 - f.bias - f.m)) by push_cast; ring, zpow_add₀ two_ne_zero]
      push_cast
      ring

/-- Every code counts units of its own exponent. -/
theorem Fmt.exists_units (f : Fmt) (c : Nat) : ∃ K q, c = K * 2 ^ f.m + q ∧ q < 2 ^ (f.m + 1) ∧ (K = 0 ∨ 2 ^ f.m ≤ q) := by
  have split := Nat.div_add_mod c (2 ^ f.m)
  have low : c % 2 ^ f.m < 2 ^ f.m := Nat.mod_lt _ (Nat.two_pow_pos _)
  have double : 2 ^ (f.m + 1) = 2 * 2 ^ f.m := pow_succ' 2 f.m
  cases hE : c / 2 ^ f.m with
  | zero =>
    rw [hE, Nat.mul_zero] at split
    exact ⟨0, c, by omega, by omega, .inl rfl⟩
  | succ K =>
    rw [hE, Nat.mul_succ, Nat.mul_comm] at split
    exact ⟨K, 2 ^ f.m + c % 2 ^ f.m, by omega, by omega, .inr (Nat.le_add_right ..)⟩

theorem Fmt.mag_strictMono (f : Fmt) : StrictMono f.mag := by
  refine strictMono_nat_of_lt_succ fun c => ?_
  obtain ⟨K, q, rfl, hq, hK⟩ := f.exists_units c
  rw [Nat.add_assoc, mag_units hq.le hK, mag_units hq (hK.imp_right Nat.le_succ_of_le), dyadic, dyadic]
  exact mul_lt_mul_of_pos_right (by push_cast; exact lt_add_one _) (two_zpow_pos _)

theorem Fmt.mag_zero (f : Fmt) : f.mag 0 = 0 := by
  rw [Fmt.mag, Nat.zero_div, if_pos rfl]
  exact dyadic_zero _

/-- A size that is a code's takes this code. -/
theorem Fmt.eq_of_takes_mag {f : Fmt} {r : Rnd} {neg : Bool} {c c' : Nat} (h : f.takes r neg (f.mag c) c') : c' = c := by
  rcases h with h | ⟨k, hlt, hgt, -⟩
  · exact f.mag_strictMono.injective h
  · have := f.mag_strictMono.lt_iff_lt.1 hlt
    have := f.mag_strictMono.lt_iff_lt.1 hgt
    omega

/-! ### Codes with a sign (R112) -/

/-- The code of a sign and a magnitude. -/
def Fmt.signed (f : Fmt) (neg : Bool) (c : Nat) : Nat := (if neg then 2 ^ (f.eb + f.m) else 0) + c

/-- Every code below twice the sign bit has a sign and a magnitude. -/
theorem Fmt.exists_signed {f : Fmt} {v : Nat} (hv : v < 2 * f.signBit) : ∃ neg c, c < 2 ^ (f.eb + f.m) ∧ v = f.signed neg c := by
  unfold Fmt.signBit at hv
  rcases Nat.lt_or_ge v (2 ^ (f.eb + f.m)) with h | h
  · exact ⟨false, v, h, (Nat.zero_add v).symm⟩
  · exact ⟨true, v - 2 ^ (f.eb + f.m), by omega, (Nat.add_sub_cancel' h).symm⟩

section
variable {f : Fmt} {c : Nat} (hc : c < 2 ^ (f.eb + f.m)) (neg : Bool)
include hc

theorem Fmt.bitN_signed : bitN (f.signed neg c) (f.eb + f.m) = neg := by
  rw [bitN, Fmt.signed]
  cases neg
  · simp [Nat.div_eq_of_lt hc]
  · simp [Nat.add_div_left, Nat.div_eq_of_lt hc]

theorem Fmt.signed_mod : f.signed neg c % f.signBit = c := by
  rw [Fmt.signed, Fmt.signBit]
  cases neg
  · simp [Nat.mod_eq_of_lt hc]
  · simp [Nat.mod_eq_of_lt hc]

theorem Fmt.decode_signed : f.decode (f.signed neg c) =
    if f.top < c then (if f.inf && c = f.top + 1 then .inf neg else .nan)
    else if c = 0 then (if neg then .negZero else .num 0 0)
    else
      let e := c / 2 ^ f.m
      let n : Nat := if e = 0 then c else 2 ^ f.m + c % 2 ^ f.m
      .num (if neg then -(n : Int) else n) ((max e 1 : Nat) - (f.bias : Int) - f.m) := by
  rw [Fmt.decode, Fmt.bitN_signed hc, Fmt.signed_mod hc]

theorem Fmt.decode_signed_zero (h0 : c = 0) : f.decode (f.signed neg c) = if neg then .negZero else .num 0 0 := by
  rw [Fmt.decode_signed hc, if_neg (by omega), if_pos h0]

theorem Fmt.decode_signed_special (h : f.top < c) : f.decode (f.signed neg c) = if f.inf = true ∧ c = f.top + 1 then .inf neg else .nan := by
  rw [Fmt.decode_signed hc, if_pos h]
  simp only [Bool.and_eq_true, decide_eq_true_eq]

/-- A finite nonzero code has the value of its sign and magnitude. -/
theorem Fmt.decode_signed_finite (h0 : 0 < c) (h : c ≤ f.top) :
    ∃ n e, f.decode (f.signed neg c) = .num n e ∧ dyadic n e = if neg then -f.mag c else f.mag c := by
  rw [Fmt.decode_signed hc, if_neg h.not_gt, if_neg h0.ne']
  refine ⟨_, _, rfl, ?_⟩
  have size : dyadic ((if c / 2 ^ f.m = 0 then c else 2 ^ f.m + c % 2 ^ f.m : Nat) : Int) ((max (c / 2 ^ f.m) 1 : Nat) - (f.bias : Int) - f.m) =
      f.mag c := by
    rw [Fmt.mag]
    split
    · next h => rw [h]; rfl
    · next h => rw [max_eq_left (Nat.one_le_iff_ne_zero.2 h)]
  cases neg
  · exact size
  · exact (dyadic_neg ..).trans (congrArg Neg.neg size)

end

/-! ### Rounding (R116) -/

theorem floorLog2_one (n : Nat) (hn : n ≠ 0) : floorLog2 n 1 = Nat.log2 n := by
  have low : 2 ^ Nat.log2 n ≤ n := Nat.log2_self_le hn
  have one : Nat.log2 1 = 0 := by decide
  have notBelow : ¬n * 2 ^ (-(Nat.log2 n : Int)).toNat < 1 * 2 ^ (Nat.log2 n : Int).toNat := by
    rw [Int.toNat_natCast, show (-(Nat.log2 n : Int)).toNat = 0 by omega]
    omega
  simp only [floorLog2, one, Nat.cast_zero, sub_zero]
  exact if_neg notBelow

/-- A remainder less than half is rounded away from zero by the directed modes alone. -/
theorem roundsUp_of_lt_half {r den : Nat} (hr : 0 < r) (h : 2 * r < den) (mode : Rnd) (neg : Bool) (q : Nat) :
    roundsUp mode neg q r den = match mode with | .rne => false | .rz => false | .ru => !neg | .rd => neg := by
  unfold roundsUp
  rw [if_neg hr.ne']
  cases mode with
  | rne => simp [h.le, h.ne']
  | rz | ru | rd => rfl

/-- A size `q + r / den` units, between the codes `k` and `k + 1` of `q` and `q + 1` units, takes the code that `roundsUp` picks. -/
theorem Fmt.takes_between {f : Fmt} {k q r den : Nat} {u : ℚ} (hu : 0 < u) (hr : r < den) (hpar : k % 2 = q % 2)
    (hk : f.mag k = q * u) (hk' : f.mag (k + 1) = (q + 1) * u) (mode : Rnd) (neg : Bool) :
    f.takes mode neg ((q + r / den) * u) (k + if roundsUp mode neg q r den then 1 else 0) := by
  have hden : (0 : ℚ) < den := Nat.cast_pos.2 (by omega)
  rcases Nat.eq_zero_or_pos r with rfl | hpos
  · exact .inl (by simp [roundsUp, hk])
  have hr' : (r : ℚ) / den < 1 := (div_lt_one hden).2 (Nat.cast_lt.2 hr)
  have hpos' : (0 : ℚ) < r / den := div_pos (Nat.cast_pos.2 hpos) hden
  refine .inr ⟨k, ?_, ?_, ?_⟩
  · rw [hk]; exact mul_lt_mul_of_pos_right (lt_add_of_pos_right _ hpos') hu
  · rw [hk']; exact mul_lt_mul_of_pos_right (add_lt_add_right hr' _) hu
  · -- the distances to the two neighbours, in units
    have below : ((q : ℚ) + r / den) * u - f.mag k = r / den * u := by rw [hk]; ring
    have above : f.mag (k + 1) - ((q : ℚ) + r / den) * u = (1 - r / den) * u := by rw [hk']; ring
    have nearer : (r : ℚ) / den * u < (1 - r / den) * u ↔ 2 * r < den := by
      rw [mul_lt_mul_iff_left₀ hu, lt_sub_iff_add_lt, ← add_div, div_lt_one hden, ← two_mul]
      exact_mod_cast Iff.rfl
    have farther : (1 - (r : ℚ) / den) * u < r / den * u ↔ den < 2 * r := by
      rw [mul_lt_mul_iff_left₀ hu, sub_lt_iff_lt_add, ← add_div, one_lt_div hden, ← two_mul]
      exact_mod_cast Iff.rfl
    rw [below, above]
    simp only [nearer, farther, hpar]
    unfold roundsUp
    rw [if_neg hpos.ne']
    cases mode with
    | rz => rfl
    | ru => cases neg <;> rfl
    | rd => cases neg <;> rfl
    | rne =>
      rcases lt_trichotomy (2 * r) den with h | h | h
      · simp [h, h.not_gt, h.ne']
      · rcases Nat.mod_two_eq_zero_or_one q with hp | hp <;> simp [h, hp]
      · simp [h, h.not_gt, h.ne]

/-- The same with the units of an exponent, the size given as a fraction. -/
theorem Fmt.takes_units {f : Fmt} (hm : 1 ≤ f.m) {K a b : Nat} (hb : 0 < b) (hq : a / b < 2 ^ (f.m + 1)) (hK : K = 0 ∨ 2 ^ f.m ≤ a / b)
    (mode : Rnd) (neg : Bool) :
    f.takes mode neg ((a / b : ℚ) * 2 ^ (K + f.emin))
      (K * 2 ^ f.m + a / b + if roundsUp mode neg (a / b) (a % b) b then 1 else 0) := by
  have frac : (a / b : ℚ) = (a / b : Nat) + (a % b : Nat) / b := by
    have hb' : (b : ℚ) ≠ 0 := Nat.cast_ne_zero.2 hb.ne'
    rw [eq_comm, add_div' _ _ _ hb', ← Nat.cast_mul, ← Nat.cast_add, Nat.div_add_mod']
  have parity : (K * 2 ^ f.m + a / b) % 2 = a / b % 2 := by
    obtain ⟨j, hj⟩ : 2 ∣ K * 2 ^ f.m := (dvd_pow_self 2 (by omega)).mul_left K
    omega
  rw [frac]
  refine Fmt.takes_between (two_zpow_pos _) (Nat.mod_lt a hb) parity ?_ ?_ mode neg
  · rw [mag_units hq.le hK, dyadic, Int.cast_natCast]
  · rw [Nat.add_assoc, mag_units hq (hK.imp_right Nat.le_succ_of_le), dyadic]
    push_cast
    rfl

/-- A number as a fraction of units of a given exponent. -/
theorem dyadic_eq_frac (n : Nat) (e u : Int) :
    dyadic n e = ((n * 2 ^ (e - u).toNat : Nat) / (2 ^ (-(e - u)).toNat : Nat) : ℚ) * 2 ^ u := by
  have exp : e = ((e - u).toNat : Int) - ((-(e - u)).toNat : Int) + u := by omega
  rw [dyadic]
  conv_lhs => rw [exp, zpow_add₀ two_ne_zero, zpow_sub₀ two_ne_zero, zpow_natCast, zpow_natCast]
  push_cast
  ring

/-- The magnitude code of a positive number is the one R116 picks. -/
theorem Fmt.takes_roundMag {f : Fmt} (hm : 1 ≤ f.m) {n : Nat} (hn : n ≠ 0) (e : Int) (mode : Rnd) (neg : Bool) :
    f.takes mode neg (dyadic n e) (f.roundMag mode neg n 1 e) := by
  have low : 2 ^ Nat.log2 n ≤ n := Nat.log2_self_le hn
  have high : n < 2 ^ (Nat.log2 n + 1) := Nat.lt_log2_self
  rw [Fmt.roundMag, floorLog2_one n hn]
  split
  · -- less than a quarter of the smallest magnitude
    next tiny =>
    change (Nat.log2 n : Int) + e < f.emin - 2 at tiny
    have small : 2 * n < 2 ^ (-(e - f.emin)).toNat := by
      calc 2 * n < 2 * 2 ^ (Nat.log2 n + 1) := by omega
        _ = 2 ^ (Nat.log2 n + 2) := (pow_succ' 2 _).symm
        _ ≤ 2 ^ (-(e - f.emin)).toNat := Nat.pow_le_pow_right Nat.two_pos (by omega)
    have lt : n < 2 ^ (-(e - f.emin)).toNat := by omega
    have takes := Fmt.takes_units hm (K := 0) (a := n) (Nat.two_pow_pos (-(e - f.emin)).toNat)
      (by rw [Nat.div_eq_of_lt lt]; exact Nat.two_pow_pos _) (.inl rfl) mode neg
    have quarter : roundsUp mode neg 0 1 4 = roundsUp mode neg 0 n (2 ^ (-(e - f.emin)).toNat) := by
      rw [roundsUp_of_lt_half one_pos (by decide), roundsUp_of_lt_half (Nat.pos_of_ne_zero hn) small]
    rw [Nat.div_eq_of_lt lt, Nat.mod_eq_of_lt lt, ← quarter] at takes
    rw [dyadic_eq_frac n e f.emin, show (e - f.emin).toNat = 0 by omega]
    simpa using takes
  · next large =>
    extract_lets u s a b q
    have hu : f.emin ≤ u := le_max_right _ _
    have hub : (Nat.log2 n : Int) + e - f.m ≤ u := le_max_left _ _
    have pow (i j : Nat) (h : i ≤ j) : 2 ^ i ≤ 2 ^ j := Nat.pow_le_pow_right Nat.two_pos h
    have hbs : b = 2 ^ (-s).toNat := Nat.one_mul _
    have hb : 0 < b := hbs ▸ Nat.two_pow_pos _
    have hq : q < 2 ^ (f.m + 1) := by
      rw [Nat.div_lt_iff_lt_mul hb]
      calc n * 2 ^ s.toNat < 2 ^ (Nat.log2 n + 1) * 2 ^ s.toNat := Nat.mul_lt_mul_of_pos_right high (Nat.two_pow_pos _)
        _ = 2 ^ (Nat.log2 n + 1 + s.toNat) := (pow_add ..).symm
        _ ≤ 2 ^ (f.m + 1 + (-s).toNat) := pow _ _ (by omega)
        _ = 2 ^ (f.m + 1) * b := by rw [hbs, pow_add]
    have hK : (u - f.emin).toNat = 0 ∨ 2 ^ f.m ≤ q := by
      rcases le_total ((Nat.log2 n : Int) + e - f.m) f.emin with h | h
      · exact .inl (by rw [show u = f.emin from max_eq_right h]; simp)
      · refine .inr ((Nat.le_div_iff_mul_le hb).2 ?_)
        have hs : u = (Nat.log2 n : Int) + e - f.m := max_eq_left h
        calc 2 ^ f.m * b = 2 ^ (f.m + (-s).toNat) := by rw [hbs, pow_add]
          _ ≤ 2 ^ (Nat.log2 n + s.toNat) := pow _ _ (by omega)
          _ = 2 ^ Nat.log2 n * 2 ^ s.toNat := pow_add ..
          _ ≤ n * 2 ^ s.toNat := Nat.mul_le_mul_right _ low
    have takes := Fmt.takes_units hm hb hq hK mode neg
    rw [show ((u - f.emin).toNat : Int) + f.emin = u by omega] at takes
    have size : dyadic n e = (a / b : ℚ) * 2 ^ u := by rw [dyadic_eq_frac n e u, hbs]
    rw [size]
    exact takes

/-- The sign of a number is that of its dyadic. -/
theorem dyadic_neg_iff (n e : Int) : dyadic n e < 0 ↔ n < 0 := by
  rw [dyadic, ← zero_mul ((2 : ℚ) ^ e), mul_lt_mul_iff_left₀ (two_zpow_pos e), Int.cast_lt_zero]

/-- What a nonzero number is rounded to (R116): a signed code, or past the largest finite one an infinity or that one. -/
theorem Fmt.round_num {f : Fmt} (hm : 1 ≤ f.m) (hinf : f.inf = true) (r : Rnd) {n : Int} (hn : n ≠ 0) (e : Int) :
    let neg := decide (n < 0)
    ∃ c, f.takes r neg |dyadic n e| c ∧ f.round r (.num n e) =
      if c ≤ f.top then f.signed neg c
      else if r = .rne ∨ (r = .ru ∧ 0 < n) ∨ (r = .rd ∧ n < 0) then f.signed neg (f.top + 1) else f.signed neg f.top := by
  intro neg
  have takes := Fmt.takes_roundMag hm (Int.natAbs_ne_zero.2 hn) e r neg
  rw [← abs_dyadic] at takes
  refine ⟨_, takes, ?_⟩
  have outward : (r = .ru ∧ (!neg) = true) ∨ (r = .rd ∧ neg = true) ↔ (r = .ru ∧ 0 < n) ∨ (r = .rd ∧ n < 0) := by
    have : ¬n < 0 ↔ 0 < n := by omega
    simp only [neg, Bool.not_eq_true', decide_eq_false_iff_not, decide_eq_true_eq, this]
  have infinity : f.infinity neg = f.signed neg (f.top + 1) := by rw [Fmt.infinity, if_pos hinf]; rfl
  have code : f.round r (.num n e) = f.roundQ r neg n.natAbs 1 e := if_neg hn
  rw [code]
  unfold Fmt.roundQ
  extract_lets c
  rcases le_or_gt c f.top with h | h
  · rw [if_neg h.not_gt, if_pos h]
    rfl
  · rw [if_pos h, if_neg h.not_ge, infinity]
    simp only [outward]
    rfl

/-- What a nonzero number is narrowed to (R117): a signed code, at most the largest finite one. -/
theorem Fmt.narrow_num {f : Fmt} (hm : 1 ≤ f.m) (r : Rnd) {n : Int} (hn : n ≠ 0) (e : Int) :
    let neg := decide (n < 0)
    ∃ c, f.takes r neg |dyadic n e| c ∧ f.narrow r (.num n e) = f.signed neg (min c f.top) := by
  intro neg
  have takes := Fmt.takes_roundMag hm (Int.natAbs_ne_zero.2 hn) e r neg
  rw [← abs_dyadic] at takes
  refine ⟨_, takes, ?_⟩
  rw [Fmt.narrow, if_neg hn, Fmt.narrowQ, min_comm]
  rfl

/-- A zero is rounded to the zero of R118. -/
theorem Fmt.zero_eq_signed (f : Fmt) (r : Rnd) : f.zero r = f.signed (r = .rd) 0 := by
  simp only [Fmt.zero, Fmt.signed, Fmt.signBit, decide_eq_true_eq]
  rfl

/-- Rounding the value of a finite nonzero code gives that code back (R116). -/
theorem Fmt.round_decode {f : Fmt} (hm : 1 ≤ f.m) (hinf : f.inf = true) (r : Rnd) {v : Nat} (hv : v < 2 * f.signBit) {n e : Int}
    (h : f.decode v = .num n e) (hn : n ≠ 0) : f.round r (f.decode v) = v := by
  obtain ⟨neg, c, hc, rfl⟩ := Fmt.exists_signed hv
  have hpos : 0 < c := by
    refine Nat.pos_of_ne_zero fun h0 => hn ?_
    rw [Fmt.decode_signed_zero hc neg h0] at h
    cases neg <;> cases h
    rfl
  have htop : c ≤ f.top := by
    refine not_lt.1 fun hlt => ?_
    rw [Fmt.decode_signed_special hc neg hlt] at h
    split at h <;> cases h
  obtain ⟨n', e', h', value⟩ := Fmt.decode_signed_finite hc neg hpos htop
  obtain ⟨rfl, rfl⟩ : n' = n ∧ e' = e := by
    rw [h', Exact.num.injEq] at h
    exact h
  have size : 0 < f.mag c := f.mag_zero ▸ f.mag_strictMono hpos
  have sign : decide (n' < 0) = neg := by
    rw [← Bool.decide_coe neg]
    refine decide_eq_decide.2 ?_
    rw [← dyadic_neg_iff n' e', value]
    cases neg <;> simp [size, size.le]
  have abs : |dyadic n' e'| = f.mag c := by
    rw [value]
    cases neg
    · exact abs_of_pos size
    · exact (abs_neg _).trans (abs_of_pos size)
  obtain ⟨c', takes, rounds⟩ := Fmt.round_num hm hinf r hn e'
  rw [abs] at takes
  rw [Fmt.eq_of_takes_mag takes, if_pos htop, sign] at rounds
  rw [h', rounds]

/-- Rounding a zero that carries its sign gives that zero. -/
theorem Fmt.round_decode_negZero {f : Fmt} (r : Rnd) {v : Nat} (hv : v < 2 * f.signBit) (h : f.decode v = .negZero) :
    f.round r (f.decode v) = v := by
  obtain ⟨neg, c, hc, rfl⟩ := Fmt.exists_signed hv
  rw [h]
  rcases Nat.eq_zero_or_pos c with rfl | hpos
  · rw [Fmt.decode_signed_zero hc neg rfl] at h
    cases neg
    · cases h
    · rfl
  · rcases Nat.lt_or_ge f.top c with hlt | hle
    · rw [Fmt.decode_signed_special hc neg hlt] at h
      split at h <;> cases h
    · obtain ⟨n, e, h', -⟩ := Fmt.decode_signed_finite hc neg hpos hle
      rw [h'] at h
      cases h

end Sys2Proof.Machine
end

section
namespace Sys2Proof.Machine

/-- Settles O4: integers by bit vectors; codes by their units, so that a rounded value is one of two neighbours. -/
theorem numberHelpersAgree : Obligations.NumberHelpersAgree := by
  refine ⟨fun t _ v z => ⟨numOf_eq t v, wrapN_eq_toNat _ z, numOf_satOf t z⟩, ?formats, ?roundTrip,
    fun t old b ht ho hb => atomNew_int ht ho hb⟩
  case formats =>
    intro wide short signed
    have fraction : ∀ f ∈ wide ++ short, 1 ≤ f.m := by decide
    have infinite : ∀ f ∈ wide, f.inf = true := by decide
    have inWide {f : Fmt} (hf : f ∈ wide) : f ∈ wide ++ short := List.mem_append_left _ hf
    have inShort {f : Fmt} (hf : f ∈ short) : f ∈ wide ++ short := List.mem_append_right _ hf
    refine ⟨rfl, rfl, ?codes, ?sums, ?zeros, fun r => ⟨?round, ?narrow, ?infinity, ?numbers⟩⟩
    case codes =>
      exact fun f _ neg c hc => ⟨Fmt.decode_signed_zero hc neg, Fmt.decode_signed_finite hc neg, Fmt.decode_signed_special hc neg⟩
    case sums =>
      exact fun a e b k => ⟨⟨_, _, Exact.add_num a e b k, dyadic_addDyadic a e b k⟩,
        fun ha hb => ⟨_, _, Exact.mul_num ha hb e k, dyadic_mul a e b k⟩⟩
    case zeros => exact fun x y hx hy => ⟨Exact.mul_zero hx hy, Exact.add_eq_negZero hx hy⟩
    case round => exact fun f _ => ⟨rfl, rfl, fun _ => f.zero_eq_signed r⟩
    case narrow => exact fun f _ => ⟨rfl, rfl, fun _ => f.zero_eq_signed r, fun _ => rfl⟩
    case infinity =>
      intro f hf neg
      change f.signed neg (if f.inf then f.top + 1 else f.top) = _
      rw [if_pos (infinite f hf)]
      rfl
    case numbers =>
      exact fun n e hn => ⟨fun f hf => Fmt.round_num (fraction f (inWide hf)) (infinite f hf) r hn e,
        fun f hf => Fmt.narrow_num (fraction f (inShort hf)) r hn e⟩
  case roundTrip =>
    have fraction : ∀ f ∈ [fp32, fp16, bf16, s24], 1 ≤ f.m := by decide
    have infinite : ∀ f ∈ [fp32, fp16, bf16, s24], f.inf = true := by decide
    exact fun f hf r v hv => ⟨fun n e h hn => Fmt.round_decode (fraction f hf) (infinite f hf) r hv h hn, Fmt.round_decode_negZero r hv⟩

end Sys2Proof.Machine
end

/-!
Matrix commands (R125 to R129, R287 to R296): where a C group holds an element, and what is accumulated there.
-/
section
namespace Sys2Proof.Machine

/-! ### Elements of a C group (R287) -/

theorem nth_replicate {α : Type} (a : α) {i n : Nat} (h : i < n) (d : α) : nth (List.replicate n a) i d = a := by
  rw [nth, List.getElem?_replicate_of_lt h, Option.getD_some]

theorem nth_map_range {α : Type} (f : Nat → α) {i n : Nat} (h : i < n) (d : α) : nth ((List.range n).map f) i d = f i := by
  simp [nth, h]

/-- The code at row `r` and column `j` of a C group whose words a function of thread and register gives (R287). -/
def cAt (half solo : Bool) (word : Nat → Nat → Nat) (r j : Nat) : Nat :=
  let per := if solo then 8 else 32
  let n := 4 * r + j / per
  let m := j % per
  if half then word n (m / 2) / 2 ^ (16 * (m % 2)) % 2 ^ 16 else word n m

theorem cCode_eq (half solo : Bool) (regs : List MSrc) (r j : Nat) :
    cCode half solo regs r j = cAt half solo (fun n m => (nth regs m (.cap [] none)).word n) r j := by
  cases half <;> rfl

theorem length_cBuild (half solo : Bool) (f : Nat → Nat → Nat) : (cBuild half solo f).length = 128 := by simp [cBuild]

/-- The word of a register of a group that is built. -/
theorem nth_cBuild (half solo : Bool) (f : Nat → Nat → Nat) {n m : Nat} (hn : n < 128) (hm : m < cWords half solo) :
    let at_ := fun x => f (n / 4) (n % 4 * (if solo then 8 else 32) + x)
    (nth (nth (cBuild half solo f) n []) m 0).toNat =
      (if half then at_ (2 * m) % 65536 + 65536 * (at_ (2 * m + 1) % 65536) else at_ m) % 2 ^ 32 := by
  rw [cBuild, nth_map_range _ hn, nth_map_range _ hm]
  exact BitVec.toNat_ofNat ..

/-- A group built of zeros is zero. -/
theorem nth_cBuild_zero (half solo : Bool) {n : Nat} (hn : n < 128) (m : Nat) :
    (nth (nth (cBuild half solo fun _ _ => 0) n []) m 0).toNat = 0 := by
  rcases Nat.lt_or_ge m (cWords half solo) with hm | hm
  · rw [nth_cBuild half solo _ hn hm]
    cases half <;> rfl
  · rw [cBuild, nth_map_range _ hn]
    simp [nth, hm]

/-- A group that is built holds, at each position, the code it is built of. -/
theorem cAt_cBuild (half solo : Bool) (f : Nat → Nat → Nat) {r j : Nat} (hr : r < 32) (hj : j < if solo then 32 else 128) :
    cAt half solo (fun n m => (nth (nth (cBuild half solo f) n []) m 0).toNat) r j = f r j % 2 ^ (if half then 16 else 32) := by
  unfold cAt
  extract_lets per n m
  have per4 : (if solo then 32 else 128) = 4 * per := by cases solo <;> rfl
  have per_pos : 0 < per := by cases solo <;> decide
  have col : j / per < 4 := by rw [Nat.div_lt_iff_lt_mul per_pos]; omega
  have hm : m < per := Nat.mod_lt _ per_pos
  have thread : n = 4 * r + j / per := rfl
  have hn : n < 128 := by omega
  have row : n / 4 = r := by rw [thread, Nat.mul_add_div (by decide), Nat.div_eq_of_lt col, Nat.add_zero]
  have column : n % 4 * per + m = j := by
    rw [show n % 4 = j / per by omega, Nat.mul_comm]
    exact Nat.div_add_mod j per
  cases half
  · have words : cWords false solo = per := by cases solo <;> rfl
    simp only [Bool.false_eq_true, if_false]
    rw [nth_cBuild false solo f hn (words ▸ hm), row]
    simp only [Bool.false_eq_true, if_false]
    rw [column]
  · have words : 2 * cWords true solo = per := by cases solo <;> rfl
    simp only [if_true]
    rw [nth_cBuild true solo f hn (by omega), row]
    simp only [if_true]
    change (f r (n % 4 * per + 2 * (m / 2)) % 65536 + 65536 * (f r (n % 4 * per + (2 * (m / 2) + 1)) % 65536)) % 2 ^ 32 /
      2 ^ (16 * (m % 2)) % 2 ^ 16 = _
    rcases Nat.mod_two_eq_zero_or_one m with h | h
    · rw [show 2 * (m / 2) = m by omega, column, h]
      omega
    · rw [show 2 * (m / 2) + 1 = m by omega, column, h]
      omega

/-! ### Bounds of codes -/

/-- A rounded value is a code of its format. -/
theorem Fmt.round_lt {f : Fmt} (htop : f.top + 1 < f.signBit) (hnan : f.nan < 2 * f.signBit) (r : Rnd) (x : Exact) :
    f.round r x < 2 * f.signBit := by
  have infinity (s : Bool) : f.infinity s < 2 * f.signBit := by unfold Fmt.infinity; split <;> split <;> omega
  cases x with
  | nan => exact hnan
  | inf s => exact infinity s
  | negZero => change f.signBit < _; omega
  | num n e =>
    change (if n = 0 then f.zero r else f.roundQ r (decide (n < 0)) n.natAbs 1 e) < _
    split
    · unfold Fmt.zero
      split <;> omega
    · unfold Fmt.roundQ
      extract_lets c
      split
      · split
        · exact infinity _
        · split <;> omega
      · split <;> omega

theorem fp32_round_lt (r : Rnd) (x : Exact) : fp32.round r x < 2 ^ 32 := Fmt.round_lt (by decide) (by decide) r x

theorem accFmt_round_lt (acc : Acc) (r : Rnd) (x : Exact) : (accFmt acc).round r x < 2 ^ (if acc.half then 16 else 32) := by
  cases acc <;> exact Fmt.round_lt (by decide) (by decide) r x

/-- The code of an element fits its place in a C group of its type. -/
theorem scaleFmt_round_lt {t : Ty} (ht : t = .f32 ∨ t = .f16x2 ∨ t = .bf16x2) (r : Rnd) (x : Exact) :
    (scaleFmt t).round r x < 2 ^ (if t.half then 16 else 32) := by
  rcases ht with rfl | rfl | rfl <;> exact Fmt.round_lt (by decide) (by decide) r x

theorem leNat_lt (l : List Byte) : leNat l < 256 ^ l.length := by
  induction l with
  | nil => exact Nat.one_pos
  | cons b l ih =>
    have := b.isLt
    rw [leNat, List.length_cons, pow_succ]
    omega

theorem leNat_take_four_lt (l : List Byte) : leNat (l.take 4) < 2 ^ 32 :=
  (leNat_lt _).trans_le (Nat.pow_le_pow_right (by decide) (List.length_take_le 4 l) : _ ≤ 256 ^ 4)

/-! ### Integer sums (R125) -/

/-- The number of an integer element. -/
def Exact.asInt (e : Exact) : Int :=
  match e with
  | .num n _ => n
  | _ => 0

/-- Whether a value is an integer as an element holds it (R114). -/
def Exact.IsInt (e : Exact) : Prop := e = .num e.asInt 0

theorem fragEl_isInt {t : Ty} (ht : t.isInteger = true) (regs : List MSrc) (l k : Nat) : (fragEl t regs l k).IsInt := by
  unfold fragEl elVal
  rw [if_pos ht]
  rfl

theorem elMul_of_isInt {t : Ty} (ht : t.isInteger = true) {x y : Exact} (hx : x.IsInt) (hy : y.IsInt) :
    elMul t x y = .num (x.asInt * y.asInt) 0 := by
  rw [hx, hy, elMul, if_pos ht]
  change (if x.asInt = 0 ∨ y.asInt = 0 then Exact.num 0 0 else .num (x.asInt * y.asInt) (0 + 0)) = .num (x.asInt * y.asInt) 0
  split
  · next h => rw [mul_eq_zero.2 h]
  · rfl

theorem elMul_of_not_integer {t : Ty} (ht : t.isInteger = false) (x y : Exact) : elMul t x y = x.mul y := by
  unfold elMul
  rw [if_neg (by simp [ht])]

theorem Exact.add_int (a b : Int) : (Exact.num a 0).add (.num b 0) = .num (a + b) 0 := by
  change Exact.num (addDyadic a 0 b 0).1 (addDyadic a 0 b 0).2 = _
  unfold addDyadic
  split
  · next h => rw [h, zero_add]
  · split
    · next h => rw [h, add_zero]
    · simp

theorem Exact.sum_int (l : List Int) : Exact.sum (l.map fun z => .num z 0) = .num l.sum 0 := by
  have fold (l : List Int) (z : Int) : (l.map fun z => Exact.num z 0).foldl Exact.add (.num z 0) = .num (z + l.sum) 0 := by
    induction l generalizing z with
    | nil => simp
    | cons y l ih => rw [List.map_cons, List.foldl_cons, Exact.add_int, ih, List.sum_cons, add_assoc]
  cases l with
  | nil => rfl
  | cons z l => exact fold l z

section
variable {t : Ty} {a b : Nat → Exact}

/-- The terms that a command adds to an element: the products of a line and a column. -/
def products (t : Ty) (a b : Nat → Exact) : List Exact := (List.range 32).map fun n => elMul t (a n) (b n)

theorem sum_products_of_isInt (ht : t.isInteger = true) (ha : ∀ n, (a n).IsInt) (hb : ∀ n, (b n).IsInt) :
    Exact.sum (products t a b) = .num ((List.range 32).map fun n => (a n).asInt * (b n).asInt).sum 0 := by
  rw [← Exact.sum_int, products, List.map_map]
  simp only [elMul_of_isInt ht (ha _) (hb _)]
  rfl

theorem products_of_not_integer (ht : t.isInteger = false) : products t a b = (List.range 32).map fun n => (a n).mul (b n) := by
  simp only [products, elMul_of_not_integer ht]

end

/-! ### The sum of R127 -/

/-- A term in units 48 bits below the largest, truncated toward zero (R127). -/
def cutTerm (top : Int) (u : Exact) : Int :=
  match u with
  | .num n e => if top - 48 ≤ e then n * 2 ^ (e - (top - 48)).toNat else n.tdiv (2 ^ (top - 48 - e).toNat)
  | _ => 0

theorem tdiv_eq_sign_mul (n : Int) (d : Nat) : n.tdiv d = (if n < 0 then -1 else 1) * ((n.natAbs / d : Nat) : Int) := by
  split
  · next h =>
    conv_lhs => rw [show n = -(n.natAbs : Int) by omega, Int.neg_tdiv, Int.tdiv_eq_ediv_of_nonneg (Int.natCast_nonneg _)]
    push_cast
    ring
  · next h =>
    conv_lhs => rw [show n = (n.natAbs : Int) by omega, Int.tdiv_eq_ediv_of_nonneg (Int.natCast_nonneg _)]
    push_cast
    ring

theorem truncTerm_eq (top : Int) (u : Exact) : truncTerm (top - 48) u = cutTerm top u := by
  cases u with
  | num n e =>
    have cut := tdiv_eq_sign_mul n (2 ^ (top - 48 - e).toNat)
    simp only [truncTerm, cutTerm, ← cut, Nat.cast_pow, Nat.cast_ofNat]
  | negZero | nan | inf s => rfl

theorem termExp_eq_none_iff (u : Exact) : termExp u = none ↔ ∀ n e, u = .num n e → n = 0 := by
  cases u with
  | num n e => simp [termExp]
  | negZero | nan | inf s => exact ⟨fun _ => nofun, fun _ => rfl⟩

theorem termExp_eq_some_iff (u : Exact) (top : Int) :
    termExp u = some top ↔ ∃ n e, u = .num n e ∧ n ≠ 0 ∧ (Nat.log2 n.natAbs : Int) + e = top := by
  cases u with
  | num n e => simp [termExp]
  | negZero | nan | inf s => exact ⟨nofun, nofun⟩

/-- A fold that keeps the greatest is the greatest. -/
theorem foldl_max_eq_max? {step : Option Int → Int → Option Int} (hn : ∀ e, step none e = some e)
    (hs : ∀ m e, step (some m) e = some (max m e)) (l : List Int) : l.foldl step none = l.max? := by
  have fold (l : List Int) (m : Int) : l.foldl step (some m) = some (l.foldl max m) := by
    induction l generalizing m with
    | nil => rfl
    | cons e l ih => rw [List.foldl_cons, List.foldl_cons, hs, ih]
  cases l with
  | nil => rfl
  | cons e l => rw [List.foldl_cons, hn, fold, List.max?_cons']

section
variable {terms : List Exact}

/-- An infinity or NaN is the sum itself (R126). -/
theorem truncSum_special (hnum : ∀ n e, Exact.sum terms ≠ .num n e) (hz : Exact.sum terms ≠ .negZero) : truncSum terms = Exact.sum terms := by
  unfold truncSum
  cases h : Exact.sum terms with
  | num n e => exact absurd h (hnum n e)
  | negZero => exact absurd h hz
  | nan | inf s => rfl

/-- Of zeros alone there is nothing to truncate. -/
theorem truncSum_of_zeros (h : ∀ u ∈ terms, termExp u = none) : truncSum terms = Exact.sum terms := by
  have none : terms.filterMap termExp = [] := List.filterMap_eq_nil_iff.2 h
  unfold truncSum
  rw [none]
  cases Exact.sum terms <;> rfl

/-- A finite sum is that of the terms truncated below the largest (R127). -/
theorem truncSum_of_max {top : Int} (hnan : Exact.sum terms ≠ .nan) (hinf : ∀ b, Exact.sum terms ≠ .inf b)
    (hmem : ∃ u ∈ terms, termExp u = some top) (hmax : ∀ u ∈ terms, ∀ e, termExp u = some e → e ≤ top) :
    truncSum terms = .num (terms.map (cutTerm top)).sum (top - 48) := by
  have greatest : (terms.filterMap termExp).max? = some top := by
    refine List.max?_eq_some_iff.2 ⟨List.mem_filterMap.2 hmem, fun e he => ?_⟩
    obtain ⟨u, hu, hue⟩ := List.mem_filterMap.1 he
    exact hmax u hu e hue
  unfold truncSum
  rw [foldl_max_eq_max? (fun _ => rfl) fun _ _ => rfl, greatest]
  have cut : (terms.map (truncTerm (top - 48))).foldl (· + ·) 0 = (terms.map (cutTerm top)).sum := by
    rw [← List.sum_eq_foldl, funext (truncTerm_eq top)]
  cases h : Exact.sum terms with
  | nan => exact absurd h hnan
  | inf b => exact absurd h (hinf b)
  | num n e | negZero => exact congrArg (Exact.num · (top - 48)) cut

end

/-! ### The tree of R128 -/

/-- One level of the tree: each pair of neighbours added and rounded to FP32. -/
def pairLevel (v : Nat → Exact) (n : Nat) : Exact := fp32.decode (fp32.round .rne ((v (2 * n)).add (v (2 * n + 1))))

theorem pairTree_succ (j n : Nat) (v : Nat → Exact) :
    pairTree (j + 1) ((List.range (2 * n)).map v) = pairTree j ((List.range n).map (pairLevel v)) := by
  rw [pairTree]
  congr 1
  rw [List.length_map, List.length_range, Nat.mul_div_cancel_left _ Nat.two_pos]
  refine List.map_congr_left fun i hi => ?_
  have := List.mem_range.1 hi
  rw [nth_map_range _ (by omega), nth_map_range _ (by omega), pairLevel]

theorem pairTree_five (v : Nat → Exact) :
    pairTree 5 ((List.range 32).map v) = pairLevel (pairLevel (pairLevel (pairLevel (pairLevel v)))) 0 := by
  rw [pairTree_succ 4 16, pairTree_succ 3 8, pairTree_succ 2 4, pairTree_succ 1 2, pairTree_succ 0 1]
  rfl

/-! ### One new element (R125, R127, R290) -/

section
variable {t : Ty} {acc : Acc} {a b : Nat → Exact}

theorem Ty.not_half_of_isInteger (ht : t.isInteger = true) : t.half = false := by
  revert ht
  cases t <;> decide

theorem accEl_integer (ht : t.isInteger = true) (ha : ∀ n, (a n).IsInt) (hb : ∀ n, (b n).IsInt) (old : Nat) :
    accEl t .aw32 old (products t a b) = wrapN 32 (old + ((List.range 32).map fun n => (a n).asInt * (b n).asInt).sum) := by
  unfold accEl
  rw [if_neg (by simp [Ty.not_half_of_isInteger ht]), sum_products_of_isInt ht ha hb]
  simp

theorem accEl_float (ht : t.half = false) (hacc : acc ≠ .aw32) (old : Nat) (terms : List Exact) :
    accEl t acc old terms = (accFmt acc).round .rne (((accFmt acc).decode old).add (Exact.sum terms)) := by
  unfold accEl
  rw [if_neg (by simp [ht])]
  cases acc with
  | aw32 => exact absurd rfl hacc
  | af32 | af16 | abf16 => rfl

theorem accEl_half (ht : t.half = true) (old : Nat) (terms : List Exact) :
    accEl t acc old terms = fp32.round .rne (truncSum (terms ++ [fp32.decode old])) := by
  unfold accEl
  rw [if_pos ht]

end

/-! ### Results of the commands (R290 to R296) -/

section
variable {k : MCmd} {h : Hdr} {x : VOps} {t : Ty} {acc : Acc} {pt solo : Bool} (bs : List (List MSrc)) (tiles : List Tile)

/-- The element of a command's C group at a row and a column. -/
def MCmd.oldAt (k : MCmd) (half solo : Bool) (r j : Nat) : Nat := cAt half solo (fun n m => (nth k.c m (.cap [] none)).word n) r j

/-- Row `r` of A. -/
def MCmd.rowOf (k : MCmd) (t : Ty) (r n : Nat) : Exact := fragEl t k.a r n

/-- Column `j` of B, of the team's fragments. -/
def colOf (t : Ty) (bs : List (List MSrc)) (j n : Nat) : Exact := fragEl t (nth bs (j / 32) []) (j % 32) n

/-- Column `j` of a constant B (R291). -/
def MCmd.konstOf (k : MCmd) (c : Konst) (j n : Nat) : Exact := if konstAt c k.data n j then .num 1 0 else .num 0 0

theorem MCmd.konstOf_isInt (k : MCmd) (c : Konst) (j n : Nat) : (k.konstOf c j n).IsInt := by
  unfold konstOf
  split <;> rfl

theorem MCmd.out_mxm (hk : k.instr = .mxm h x t acc false pt solo) :
    k.out bs tiles = .regs (cBuild acc.half solo fun r j =>
      accEl t acc (k.oldAt acc.half solo r j) (products t (k.rowOf t r) (colOf t bs j))) := by
  unfold MCmd.out
  rw [hk]
  simp only [mProduct, Bool.false_eq_true, if_false, cCode_eq]
  rfl

theorem MCmd.out_mxm_part (hk : k.instr = .mxm h x t acc true pt solo) :
    k.out bs tiles = .tile pt.toNat ((List.range 32).map fun r => (List.range 128).map fun j =>
      Exact.sum (products t (k.rowOf t r) (colOf t bs j))) := by
  unfold MCmd.out
  rw [hk]
  rfl

/-- The new element of mxc at a row and a column of the product (R128, R291). -/
def MCmd.konstEl (k : MCmd) (t : Ty) (acc : Acc) (solo : Bool) (c : Konst) (r j : Nat) : Nat :=
  let old := k.oldAt acc.half solo r j
  if t.half && c = .ones then fp32.round .rne ((fp32.decode old).add (pairTree 5 ((List.range 32).map (k.rowOf t r))))
  else accEl t acc old (products t (k.rowOf t r) (k.konstOf c j))

theorem MCmd.out_mxc {tr : Bool} {c : Konst} (hk : k.instr = .mxc h x t tr acc false pt solo c) :
    k.out bs tiles = .regs (cBuild acc.half solo fun r j =>
      k.konstEl t acc solo c (if tr then j % 32 else r) (if tr then j / 32 * 32 + r else j)) := by
  unfold MCmd.out
  rw [hk]
  simp only [cCode_eq, Bool.false_eq_true, if_false]
  cases tr <;> rfl

theorem MCmd.out_mxc_part {tr : Bool} {c : Konst} (hk : k.instr = .mxc h x t tr acc true pt solo c) :
    k.out bs tiles = .tile pt.toNat ((List.range 32).map fun r => (List.range 128).map fun j =>
      Exact.sum (products t (k.rowOf t r) (k.konstOf c j))) := by
  unfold MCmd.out
  rw [hk]
  rfl

theorem MCmd.out_msca {keep : Bool} {div : Div} (hk : k.instr = .msca h x t pt keep div) :
    k.out bs tiles = .regs (cBuild t.half false fun r j =>
      (scaleFmt t).round .rne (((scaleFmt t).decode (k.oldAt t.half false r j)).add
        (((((nth tiles pt.toNat {}).at_ r j).mul (scaleAt k.data r)).mul (scaleAt k.data (32 + j))).scale (-(divLog2 div : Int))))) := by
  unfold MCmd.out
  rw [hk]
  simp only [cCode_eq]
  rfl

theorem MCmd.out_mxrd {keep : Bool} (hk : k.instr = .mxrd h x t pt keep) :
    k.out bs tiles = .regs (cBuild t.half false fun r j =>
      if t.isInt then wrapN 32 (toRange .rne (-(2 ^ 31)) (2 ^ 31 - 1) ((nth tiles pt.toNat {}).at_ r j))
      else (scaleFmt t).round .rne ((nth tiles pt.toNat {}).at_ r j)) := by
  unfold MCmd.out
  rw [hk]
  rfl

theorem MCmd.out_mzero (hk : k.instr = .mzero h x t pt false solo) : k.out bs tiles = .regs (cBuild t.half solo fun _ _ => 0) := by
  unfold MCmd.out
  rw [hk]
  rfl

theorem MCmd.out_mzero_tile (hk : k.instr = .mzero h x t pt true solo) :
    k.out bs tiles = .tile pt.toNat ((List.range 32).map fun _ => List.replicate 128 (.num 0 0)) := by
  unfold MCmd.out
  rw [hk]
  rfl

theorem MCmd.out_ldf {cc : Bool} (hk : k.instr = .ldf h x t cc solo) :
    k.out bs tiles = .regs ((List.range 128).map fun th => (List.range (lineBytes t cc solo / 16)).map fun j => BitVec.ofNat 32
      (leNat ((k.data.drop (th / 4 * lineBytes t cc solo + th % 4 * (lineBytes t cc solo / 4) + 4 * j)).take 4))) := by
  unfold MCmd.out
  rw [hk]

theorem MCmd.out_stf {cc : Bool} (hk : k.instr = .stf h x t cc solo) :
    k.out bs tiles = .stores ((List.range 128).map fun th => (k.addr + th / 4 * k.addr2 + th % 4 * (lineBytes t cc solo / 4),
      k.b.flatMap fun m => leBytes 4 (m.word th))) := by
  unfold MCmd.out
  rw [hk]

end

end Sys2Proof.Machine
end

section
namespace Sys2Proof.Machine

/-- Settles O33: a C group holds at each position the code it is built of, which is the element R125, R127 or R128 makes; the other
commands yield what their definitions say. -/
theorem productsAccumulate : Obligations.ProductsAccumulate := by
  constructor
  · intro k h x t acc pt solo bs tiles r j hr hj per at_ old int made exact_ row col
    have j128 : j < 128 := hj.trans_le (by cases solo <;> decide)
    -- every element of an accumulation is one that R125 or R127 makes
    have makes (a b : Nat → Exact) (ha : t.isInteger = true → ∀ n, (a n).IsInt) (hb : t.isInteger = true → ∀ n, (b n).IsInt) (old : Nat) :
        made a b old (accEl t acc old (products t a b) % 2 ^ (if acc.half then 16 else 32)) := by
      refine ⟨fun hint hacc => ?integer, fun hint hhalf f hf => ?float, fun hhalf hacc => ?half⟩
      case integer =>
        subst hacc
        rw [accEl_integer hint (ha hint) (hb hint)]
        exact Nat.mod_eq_of_lt (wrapN_lt 32 _)
      case float =>
        obtain ⟨hacc, rfl⟩ : acc ≠ .aw32 ∧ f = accFmt acc := by
          rcases hf with ⟨rfl, rfl⟩ | ⟨rfl, rfl⟩ | ⟨rfl, rfl⟩ <;> exact ⟨by decide, rfl⟩
        rw [accEl_float hhalf hacc, Nat.mod_eq_of_lt (accFmt_round_lt ..), products_of_not_integer hint]
      case half =>
        subst hacc
        have hint : t.isInteger = false := Bool.eq_false_iff.2 fun hint => by simp [Ty.not_half_of_isInteger hint] at hhalf
        rw [accEl_half hhalf, products_of_not_integer hint]
        refine (Nat.mod_eq_of_lt (fp32_round_lt ..)).symm ▸ ⟨fun hnum hz => ?_, fun zeros => ?_, fun top hnan hinf hmem hmax => ?_⟩
        · rw [truncSum_special hnum hz]
        · rw [truncSum_of_zeros fun u hu => (termExp_eq_none_iff u).2 (zeros u hu)]
        · rw [truncSum_of_max hnan hinf]
          · rfl
          · obtain ⟨u, hu, n, e, he⟩ := hmem
            exact ⟨u, hu, (termExp_eq_some_iff u top).2 ⟨n, e, he⟩⟩
          · intro u hu e' he'
            obtain ⟨n, e, hue, hn, rfl⟩ := (termExp_eq_some_iff u e').1 he'
            exact hmax u hu n e hue hn
    -- a tile takes the sum itself
    have takes (a b : Nat → Exact) (ha : t.isInteger = true → ∀ n, (a n).IsInt) (hb : t.isInteger = true → ∀ n, (b n).IsInt) :
        exact_ a b (Exact.sum (products t a b)) :=
      ⟨fun hint => ⟨_, 0, sum_products_of_isInt hint (ha hint) (hb hint), le_rfl, mul_one _⟩,
        fun hint => by rw [products_of_not_integer hint]⟩
    have rowInt (r : Nat) (hint : t.isInteger = true) (n : Nat) : (k.rowOf t r n).IsInt := fragEl_isInt hint k.a r n
    have colInt (hint : t.isInteger = true) (n : Nat) : (colOf t bs j n).IsInt := fragEl_isInt hint _ _ n
    refine ⟨fun hk => ?mxm, fun hk => ?mxmPart, fun tr c => ?mxc⟩
    case mxm =>
      refine ⟨_, MCmd.out_mxm bs tiles hk, length_cBuild .., ?_⟩
      have made := makes _ _ (rowInt r) colInt (k.oldAt acc.half solo r j)
      rw [← cAt_cBuild acc.half solo (fun r j => accEl t acc (k.oldAt acc.half solo r j) (products t (k.rowOf t r) (colOf t bs j))) hr hj] at made
      exact made
    case mxmPart =>
      refine ⟨_, MCmd.out_mxm_part bs tiles hk, ?_⟩
      rw [nth_map_range _ hr, nth_map_range _ j128]
      exact takes _ _ (rowInt r) colInt
    case mxc =>
      intro one r' j'
      have column (j : Nat) : one j = k.konstOf c j := by
        funext n
        simp only [one, MCmd.konstOf]
        cases c <;> simp [konstAt]
      refine ⟨fun hk => ⟨_, MCmd.out_mxc bs tiles hk, length_cBuild .., ?_⟩, fun hk => ⟨_, MCmd.out_mxc_part bs tiles hk, ?_⟩⟩
      · intro new
        have element : new = k.konstEl t acc solo c r' j' % 2 ^ (if acc.half then 16 else 32) := cAt_cBuild acc.half solo
          (fun r j => k.konstEl t acc solo c (if tr then j % 32 else r) (if tr then j / 32 * 32 + r else j)) hr hj
        refine ⟨fun plain => ?_, fun hhalf hones hacc => ?_⟩
        · rw [element, MCmd.konstEl, if_neg (by simpa using plain), column]
          exact makes _ _ (rowInt r') (fun _ => k.konstOf_isInt c j') _
        · subst hacc
          rw [element, MCmd.konstEl, if_pos (by simp [hhalf, hones]), pairTree_five]
          exact Nat.mod_eq_of_lt (fp32_round_lt ..)
      · rw [nth_map_range _ hr, nth_map_range _ j128, column]
        exact takes _ _ (rowInt r) fun _ => k.konstOf_isInt c j
  · intro k h x t pt bs tiles r j n hr hj hn at_ yields el old f scale
    have built (f : Nat → Nat → Nat) : at_ (fun n m => (nth (nth (cBuild t.half false f) n []) m 0).toNat) =
        f r j % 2 ^ (if t.half then 16 else 32) := cAt_cBuild t.half false f hr hj
    have format (ht : t = .f32 ∨ t = .f16x2 ∨ t = .bf16x2) : scaleFmt t = f := by
      rcases ht with rfl | rfl | rfl <;> rfl
    have scales (i : Nat) : scaleAt k.data i = scale i := by
      change s24.decode (_ % 2 ^ 32 / 256) = _
      rw [Nat.mod_eq_of_lt (leNat_take_four_lt _)]
    refine ⟨fun keep div ht hk => ?msca, fun keep hk => ⟨fun ht => ?mxrd, fun ht => ?mxrdInt⟩, fun solo hk => ?mzero, fun solo hk => ?mzeroTile,
      fun cc solo => ⟨fun hk => ?ldf, fun hk => ?stf⟩⟩
    case msca =>
      refine ⟨_, MCmd.out_msca bs tiles hk, length_cBuild .., (built _).trans ?_⟩
      rw [Nat.mod_eq_of_lt (scaleFmt_round_lt ht ..), format ht, scales, scales]
      cases div <;> rfl
    case mxrd =>
      have notInt : t.isInt = false := by rcases ht with rfl | rfl | rfl <;> rfl
      refine ⟨_, MCmd.out_mxrd bs tiles hk, length_cBuild .., (built _).trans ?_⟩
      rw [if_neg (by simp [notInt]), Nat.mod_eq_of_lt (scaleFmt_round_lt ht ..), format ht]
      rfl
    case mxrdInt =>
      refine ⟨_, MCmd.out_mxrd bs tiles hk, length_cBuild .., (built _).trans ?_⟩
      subst ht
      exact Nat.mod_eq_of_lt (wrapN_lt 32 _)
    case mzero => exact ⟨_, MCmd.out_mzero bs tiles hk, length_cBuild .., nth_cBuild_zero t.half solo hn⟩
    case mzeroTile =>
      refine ⟨_, MCmd.out_mzero_tile bs tiles hk, ?_⟩
      rw [nth_map_range _ hr, nth_replicate _ hj]
    case ldf =>
      refine ⟨_, MCmd.out_ldf bs tiles hk, by simp only [List.length_map, List.length_range], fun m hm => ?_⟩
      have piece : m < lineBytes t cc solo / 16 := hm
      beta_reduce
      rw [nth_map_range _ hn, nth_map_range _ piece]
      exact (BitVec.toNat_ofNat ..).trans (Nat.mod_eq_of_lt (leNat_take_four_lt _))
    case stf =>
      refine ⟨_, MCmd.out_stf bs tiles hk, by simp only [List.length_map, List.length_range], ?_⟩
      rw [List.getElem?_map, List.getElem?_range hn]
      rfl

end Sys2Proof.Machine
end

/-!
Rounding in order (R116): the code that a quotient takes, which never falls where the value grows, and which is one for all values between two
neighbours of a finer grid.
-/
section
namespace Sys2Proof.Machine

/-! ### The code of a quotient -/

/-- The floor of the binary logarithm of a positive fraction. -/
theorem floorLog2_spec {n d : Nat} (hn : n ≠ 0) (hd : d ≠ 0) :
    (2 : ℚ) ^ floorLog2 n d ≤ n / d ∧ (n / d : ℚ) < 2 ^ (floorLog2 n d + 1) := by
  have dpos : (0 : ℚ) < d := Nat.cast_pos.2 (Nat.pos_of_ne_zero hd)
  have cast (a : Nat) : (2 : ℚ) ^ (a : Int) = (2 ^ a : Nat) := by rw [zpow_natCast]; push_cast; rfl
  have nlow : (2 : ℚ) ^ (Nat.log2 n : Int) ≤ n := by rw [cast]; exact_mod_cast Nat.log2_self_le hn
  have nhigh : (n : ℚ) < 2 ^ ((Nat.log2 n : Int) + 1) := by
    rw [← Nat.cast_succ, cast]; exact_mod_cast Nat.lt_log2_self
  have dlow : (2 : ℚ) ^ (Nat.log2 d : Int) ≤ d := by rw [cast]; exact_mod_cast Nat.log2_self_le hd
  have dhigh : (d : ℚ) < 2 ^ ((Nat.log2 d : Int) + 1) := by
    rw [← Nat.cast_succ, cast]; exact_mod_cast Nat.lt_log2_self
  unfold floorLog2
  extract_lets a
  have below : n * 2 ^ (-a).toNat < d * 2 ^ a.toNat ↔ (n / d : ℚ) < 2 ^ a := by
    have exp : a = (a.toNat : Int) - (-a).toNat := by omega
    have pow : (2 : ℚ) ^ a = (2 ^ a.toNat : Nat) / (2 ^ (-a).toNat : Nat) := by
      conv_lhs => rw [exp, zpow_sub₀ two_ne_zero, zpow_natCast, zpow_natCast]
      push_cast
      rfl
    rw [pow, div_lt_div_iff₀ dpos (Nat.cast_pos.2 (Nat.two_pow_pos _)), mul_comm ((2 ^ a.toNat : Nat) : ℚ)]
    exact_mod_cast Iff.rfl
  have split : (2 : ℚ) ^ (a - 1) * 2 ^ ((Nat.log2 d : Int) + 1) = 2 ^ (Nat.log2 n : Int) := by
    rw [← zpow_add₀ two_ne_zero]; congr 1; omega
  have split' : (2 : ℚ) ^ (a + 1) * 2 ^ (Nat.log2 d : Int) = 2 ^ ((Nat.log2 n : Int) + 1) := by
    rw [← zpow_add₀ two_ne_zero]; congr 1; omega
  split
  · next h =>
    refine ⟨?_, by rw [sub_add_cancel]; exact below.1 h⟩
    rw [le_div_iff₀ dpos]
    calc (2 : ℚ) ^ (a - 1) * d ≤ 2 ^ (a - 1) * 2 ^ ((Nat.log2 d : Int) + 1) := mul_le_mul_of_nonneg_left dhigh.le (two_zpow_pos _).le
      _ ≤ n := split ▸ nlow
  · next h =>
    refine ⟨not_lt.1 (below.not.1 h), ?_⟩
    rw [div_lt_iff₀ dpos]
    calc (n : ℚ) < 2 ^ (a + 1) * 2 ^ (Nat.log2 d : Int) := split' ▸ nhigh
      _ ≤ 2 ^ (a + 1) * d := mul_le_mul_of_nonneg_left dlow (two_zpow_pos _).le

/-- A fraction times a power of two, in units of a given exponent. -/
theorem fraction_units (n d : Nat) (e u : Int) :
    (n / d : ℚ) * 2 ^ e = ((n * 2 ^ (e - u).toNat : Nat) / (d * 2 ^ (-(e - u)).toNat : Nat) : ℚ) * 2 ^ u := by
  have units := dyadic_eq_frac n e u
  rw [dyadic, Int.cast_natCast, Nat.cast_mul] at units
  rw [div_mul_eq_mul_div, units]
  push_cast
  ring

/-- The magnitude code of a positive fraction is the one R116 picks. -/
theorem Fmt.takes_roundMag_div {f : Fmt} (hm : 1 ≤ f.m) {n d : Nat} (hn : n ≠ 0) (hd : d ≠ 0) (e : Int) (mode : Rnd) (neg : Bool) :
    f.takes mode neg ((n / d : ℚ) * 2 ^ e) (f.roundMag mode neg n d e) := by
  obtain ⟨low, high⟩ := floorLog2_spec hn hd
  have low' : (2 : ℚ) ^ (floorLog2 n d + e) ≤ n / d * 2 ^ e := by
    rw [zpow_add₀ two_ne_zero]; exact mul_le_mul_of_nonneg_right low (two_zpow_pos e).le
  have high' : (n / d * 2 ^ e : ℚ) < 2 ^ (floorLog2 n d + e + 1) := by
    rw [show floorLog2 n d + e + 1 = floorLog2 n d + 1 + e by ring, zpow_add₀ two_ne_zero (_ + 1)]
    exact mul_lt_mul_of_pos_right high (two_zpow_pos e)
  unfold Fmt.roundMag
  extract_lets emin l u s a b q
  change (2 : ℚ) ^ l ≤ _ at low'
  change _ < (2 : ℚ) ^ (l + 1) at high'
  have pos (k : Int) : 0 < d * 2 ^ k.toNat := Nat.mul_pos (Nat.pos_of_ne_zero hd) (Nat.two_pow_pos _)
  have ratio {x : Nat} (y z : Nat) (hz : 0 < z) : y / z < x ↔ (y / z : ℚ) < x := by
    rw [Nat.div_lt_iff_lt_mul hz, div_lt_iff₀ (Nat.cast_pos.2 hz)]
    exact_mod_cast Iff.rfl
  split
  · -- less than a quarter of the smallest magnitude
    next tiny =>
    have hy : 0 < d * 2 ^ (-(e - emin)).toNat := pos _
    have hx : 0 < n * 2 ^ (e - emin).toNat := Nat.mul_pos (Nat.pos_of_ne_zero hn) (Nat.two_pow_pos _)
    have units := fraction_units n d e emin
    generalize n * 2 ^ (e - emin).toNat = x at units hx
    generalize d * 2 ^ (-(e - emin)).toNat = y at units hy
    have small : (x / y : ℚ) < 1 / 2 := by
      have : (x / y : ℚ) * 2 ^ emin < 1 / 2 * 2 ^ emin := by
        calc (x / y : ℚ) * 2 ^ emin < 2 ^ (l + 1) := units ▸ high'
          _ ≤ 2 ^ (emin - 1) := zpow_le_zpow_right₀ one_le_two (by omega)
          _ = 1 / 2 * 2 ^ emin := by rw [zpow_sub₀ two_ne_zero, zpow_one]; ring
      exact lt_of_mul_lt_mul_right this (two_zpow_pos _).le
    have half : 2 * x < y := by
      rw [div_lt_div_iff₀ (Nat.cast_pos.2 hy) two_pos] at small
      have : x * 2 < 1 * y := by exact_mod_cast small
      omega
    have lt : x < y := by omega
    have takes := Fmt.takes_units hm (K := 0) (a := x) hy (by rw [Nat.div_eq_of_lt lt]; exact Nat.two_pow_pos _) (.inl rfl) mode neg
    have quarter : roundsUp mode neg 0 1 4 = roundsUp mode neg 0 x y := by
      rw [roundsUp_of_lt_half one_pos (by decide), roundsUp_of_lt_half hx half]
    rw [Nat.div_eq_of_lt lt, Nat.mod_eq_of_lt lt, ← quarter] at takes
    simp only [Nat.cast_zero, zero_add, Nat.zero_mul] at takes
    rw [units]
    exact takes
  · next large =>
    have hu : f.emin ≤ u := le_max_right _ _
    have hub : l - f.m ≤ u := le_max_left _ _
    have hb : 0 < b := pos _
    have units : (n / d : ℚ) * 2 ^ e = (a / b : ℚ) * 2 ^ u := fraction_units n d e u
    have hq : q < 2 ^ (f.m + 1) := by
      rw [ratio a b hb]
      refine lt_of_mul_lt_mul_right ?_ (two_zpow_pos u).le
      calc (a / b : ℚ) * 2 ^ u < 2 ^ (l + 1) := units ▸ high'
        _ ≤ 2 ^ ((f.m + 1 : Nat) + u) := zpow_le_zpow_right₀ one_le_two (by push_cast; omega)
        _ = (2 ^ (f.m + 1) : Nat) * 2 ^ u := by rw [zpow_add₀ two_ne_zero, zpow_natCast]; push_cast; rfl
    have hK : (u - f.emin).toNat = 0 ∨ 2 ^ f.m ≤ q := by
      rcases le_total (l - f.m) f.emin with h | h
      · exact .inl (by rw [show u = f.emin from max_eq_right h]; simp)
      · refine .inr (not_lt.1 ((ratio a b hb).not.2 (not_lt.2 ?_)))
        have hs : u = l - f.m := max_eq_left h
        refine le_of_mul_le_mul_right ?_ (two_zpow_pos u)
        calc ((2 ^ f.m : Nat) : ℚ) * 2 ^ u = 2 ^ ((f.m : Int) + u) := by rw [zpow_add₀ two_ne_zero, zpow_natCast]; push_cast; rfl
          _ = 2 ^ l := by congr 1; omega
          _ ≤ (a / b : ℚ) * 2 ^ u := units ▸ low'
    have takes := Fmt.takes_units hm hb hq hK mode neg
    rw [show ((u - f.emin).toNat : Int) + f.emin = u by omega] at takes
    rw [units]
    exact takes

/-! ### The order of rounded values -/

/-- Which of the two codes `k` and `k + 1` a size strictly between them takes (R116). -/
def Fmt.choice (f : Fmt) (r : Rnd) (neg : Bool) (a : ℚ) (k : Nat) : Nat :=
  match r with
  | .rz => k
  | .ru => if neg then k else k + 1
  | .rd => if neg then k + 1 else k
  | .rne =>
    if a - f.mag k < f.mag (k + 1) - a then k else if f.mag (k + 1) - a < a - f.mag k then k + 1 else if k % 2 = 0 then k else k + 1

section
variable {f : Fmt} {r : Rnd} {neg : Bool} {a b : ℚ} {c c' k : Nat}

theorem Fmt.takes_iff : f.takes r neg a c ↔ f.mag c = a ∨ ∃ k, f.mag k < a ∧ a < f.mag (k + 1) ∧ c = f.choice r neg a k := by
  cases r <;> rfl

theorem Fmt.choice_mem (f : Fmt) (r : Rnd) (neg : Bool) (a : ℚ) (k : Nat) : f.choice r neg a k = k ∨ f.choice r neg a k = k + 1 := by
  unfold Fmt.choice
  split
  · exact .inl rfl
  · exact (ite_eq_or_eq ..)
  · exact (ite_eq_or_eq ..).symm
  · split
    · exact .inl rfl
    · split
      · exact .inr rfl
      · exact (ite_eq_or_eq ..)

/-- Sizes between the same two codes are rounded in order. -/
theorem Fmt.choice_mono (hab : a ≤ b) : f.choice r neg a k ≤ f.choice r neg b k := by
  cases r with
  | rz | ru | rd => exact le_rfl
  | rne =>
    have upper := f.choice_mem .rne neg a k
    have lower := f.choice_mem .rne neg b k
    by_cases ha : f.choice .rne neg a k = k
    · omega
    · -- `a` is no nearer to `k`, and `b` lies no lower
      have far : f.mag (k + 1) - a ≤ a - f.mag k := by
        by_contra near
        exact ha (if_pos (not_le.1 near))
      have hb : ¬b - f.mag k < f.mag (k + 1) - b := by linarith
      unfold Fmt.choice at ha ⊢
      simp only [hb, if_false, not_lt.2 far] at ha ⊢
      split_ifs at ha ⊢ <;> first | omega | linarith

/-- The codes beside the one a size takes lie on either side of it. -/
theorem Fmt.takes.beside (h : f.takes r neg a c) : (0 < c → f.mag (c - 1) < a) ∧ a < f.mag (c + 1) := by
  rcases Fmt.takes_iff.1 h with rfl | ⟨k, hlo, hhi, rfl⟩
  · exact ⟨fun h0 => f.mag_strictMono (by omega), f.mag_strictMono (Nat.lt_succ_self c)⟩
  · rcases f.choice_mem r neg a k with e | e <;> rw [e]
    · exact ⟨fun h0 => (f.mag_strictMono (by omega)).trans hlo, hhi⟩
    · exact ⟨fun _ => hlo, hhi.trans (f.mag_strictMono (Nat.lt_succ_self _))⟩

/-- Strictly between two neighbours, a size takes the code that the mode picks. -/
theorem Fmt.takes.eq_choice (h : f.takes r neg a c) (hlo : f.mag k < a) (hhi : a < f.mag (k + 1)) : c = f.choice r neg a k := by
  have between {j : Nat} (h1 : f.mag k < f.mag (j + 1)) (h2 : f.mag j < f.mag (k + 1)) : j = k := by
    have := f.mag_strictMono.lt_iff_lt.1 h1
    have := f.mag_strictMono.lt_iff_lt.1 h2
    omega
  rcases Fmt.takes_iff.1 h with rfl | ⟨j, hlo', hhi', rfl⟩
  · have := f.mag_strictMono.lt_iff_lt.1 hlo
    have := f.mag_strictMono.lt_iff_lt.1 hhi
    omega
  · rw [between (hlo.trans hhi') (hlo'.trans hhi)]

/-- Rounding keeps the order of sizes. -/
theorem Fmt.takes_mono (hab : a ≤ b) (ha : f.takes r neg a c) (hb : f.takes r neg b c') : c ≤ c' := by
  by_contra hlt
  obtain ⟨below, -⟩ := ha.beside
  obtain ⟨-, above⟩ := hb.beside
  have next : c - 1 < c' + 1 := f.mag_strictMono.lt_iff_lt.1 ((below (by omega)).trans (hab.trans_lt above))
  obtain rfl : c = c' + 1 := by omega
  have lo : f.mag c' < a := below (by omega)
  have ca := ha.eq_choice lo (hab.trans_lt above)
  have cb := hb.eq_choice (lo.trans_le hab) above
  have := Fmt.choice_mono (f := f) (r := r) (neg := neg) (k := c') hab
  omega

/-- Toward zero no mode gives less, away from it none more, where the number is positive. -/
theorem Fmt.takes_rz_le (h : f.takes .rz false a c) (h' : f.takes r false a c') : c ≤ c' := by
  rcases Fmt.takes_iff.1 h with rfl | ⟨k, hlo, hhi, hc⟩
  · exact (Fmt.eq_of_takes_mag h').ge
  · have low : c = k := hc
    have := f.choice_mem r false a k
    rw [h'.eq_choice hlo hhi]
    omega

theorem Fmt.takes_le_ru (h : f.takes r false a c) (h' : f.takes .ru false a c') : c ≤ c' := by
  rcases Fmt.takes_iff.1 h' with rfl | ⟨k, hlo, hhi, hc⟩
  · exact (Fmt.eq_of_takes_mag h).le
  · have high : c' = k + 1 := hc
    have := f.choice_mem r false a k
    rw [h.eq_choice hlo hhi]
    omega

end

/-! ### A grid finer than the codes -/

section
variable {f : Fmt} {R : Nat} {j : Int}

/-- A number of few bits lies on no open step of a grid of numbers with many. -/
theorem dyadic_off_step {m N : Nat} (hN : N ≤ 2 ^ (m + 2)) (hR : 2 ^ (m + 1) ≤ R) (E : Int) :
    dyadic N E ≤ dyadic R j ∨ dyadic (R + 1 : Nat) j ≤ dyadic N E := by
  have le_iff (x y : Nat) : dyadic x j ≤ dyadic y j ↔ x ≤ y := by
    rw [dyadic, dyadic, mul_le_mul_iff_left₀ (two_zpow_pos j)]
    exact_mod_cast Iff.rfl
  rcases le_or_gt j E with h | h
  · have multiple : dyadic N E = dyadic (N * 2 ^ (E - j).toNat : Nat) j := by rw [← dyadic_lower _ h]; push_cast; rfl
    rw [multiple, le_iff, le_iff]
    omega
  · left
    have step : dyadic (2 ^ (m + 2) : Nat) (j - 1) = dyadic (2 ^ (m + 1) : Nat) j := by
      rw [dyadic, dyadic, zpow_sub₀ two_ne_zero, zpow_one]
      push_cast
      ring
    calc dyadic N E ≤ dyadic (2 ^ (m + 2) : Nat) E := mul_le_mul_of_nonneg_right (by exact_mod_cast hN) (two_zpow_pos E).le
      _ ≤ dyadic (2 ^ (m + 2) : Nat) (j - 1) := mul_le_mul_of_nonneg_left (zpow_le_zpow_right₀ one_le_two (by omega)) (by positivity)
      _ ≤ dyadic R j := by rw [step, le_iff]; exact hR

/-- Neither a code nor a point midway between two lies on such an open step. -/
theorem Fmt.mag_off_step (hR : 2 ^ (f.m + 1) ≤ R) (c : Nat) :
    (f.mag c ≤ dyadic R j ∨ dyadic (R + 1 : Nat) j ≤ f.mag c) ∧
      (f.mag c + f.mag (c + 1) ≤ 2 * dyadic R j ∨ 2 * dyadic (R + 1 : Nat) j ≤ f.mag c + f.mag (c + 1)) := by
  obtain ⟨K, q, rfl, hq, hK⟩ := f.exists_units c
  have double : 2 ^ (f.m + 2) = 2 * 2 ^ (f.m + 1) := pow_succ' 2 _
  have hc := mag_units hq.le hK
  have hc' : f.mag (K * 2 ^ f.m + q + 1) = dyadic (q + 1 : Nat) (K + f.emin) := by
    rw [Nat.add_assoc, mag_units hq (hK.imp_right Nat.le_succ_of_le)]
  have mid : f.mag (K * 2 ^ f.m + q) + f.mag (K * 2 ^ f.m + q + 1) = 2 * dyadic (2 * q + 1 : Nat) (K + f.emin - 1) := by
    rw [hc, hc', dyadic, dyadic, dyadic, zpow_sub₀ two_ne_zero, zpow_one]
    push_cast
    ring
  rw [mid, hc, mul_le_mul_iff_right₀ two_pos, mul_le_mul_iff_right₀ two_pos]
  exact ⟨dyadic_off_step (by omega) hR _, dyadic_off_step (by omega) hR _⟩

/-- All sizes on one open step of a grid of numbers with more bits than the codes take one code. -/
theorem Fmt.takes_step (hR : 2 ^ (f.m + 1) ≤ R) {r : Rnd} {neg : Bool} {a b : ℚ} {c c' : Nat} (ha : dyadic R j < a ∧ a < dyadic (R + 1 : Nat) j)
    (hb : dyadic R j < b ∧ b < dyadic (R + 1 : Nat) j) (hc : f.takes r neg a c) (hc' : f.takes r neg b c') : c = c' := by
  obtain ⟨alo, ahi⟩ := ha
  obtain ⟨blo, bhi⟩ := hb
  rcases Fmt.takes_iff.1 hc with rfl | ⟨k, hlo, hhi, rfl⟩
  · rcases (f.mag_off_step (j := j) hR c).1 with h | h <;> linarith
  · have below : f.mag k ≤ dyadic R j := (f.mag_off_step hR k).1.resolve_right fun h => by linarith
    have above : dyadic (R + 1 : Nat) j ≤ f.mag (k + 1) := (f.mag_off_step hR (k + 1)).1.resolve_left fun h => by linarith
    rw [hc'.eq_choice (below.trans_lt blo) (bhi.trans_le above)]
    have side : (a - f.mag k < f.mag (k + 1) - a ↔ b - f.mag k < f.mag (k + 1) - b) ∧
        (f.mag (k + 1) - a < a - f.mag k ↔ f.mag (k + 1) - b < b - f.mag k) := by
      rcases (f.mag_off_step (j := j) hR k).2 with h | h
      · exact ⟨⟨fun _ => by linarith, fun _ => by linarith⟩, ⟨fun _ => by linarith, fun _ => by linarith⟩⟩
      · exact ⟨⟨fun _ => by linarith, fun _ => by linarith⟩, ⟨fun _ => by linarith, fun _ => by linarith⟩⟩
    cases r with
    | rz | ru | rd => rfl
    | rne => simp only [Fmt.choice, side]

end

end Sys2Proof.Machine
end

/-!
FP32 codes in the order of their values (R116, R119): rounding keeps the order, so a quotient or a root rounded once lies between the rounded
values on either side of it.
-/
section
namespace Sys2Proof.Machine

/-! ### Overflow (R116) -/

/-- The magnitude code that overflow() gives: the infinity's, or the largest finite one. -/
def Fmt.overflow (f : Fmt) (r : Rnd) (neg : Bool) : Nat := if r = .rne ∨ (r = .ru ∧ !neg) ∨ (r = .rd ∧ neg) then f.top + 1 else f.top

/-- A magnitude code after overflow. -/
def Fmt.bounded (f : Fmt) (r : Rnd) (neg : Bool) (c : Nat) : Nat := if f.top < c then f.overflow r neg else c

theorem Fmt.roundQ_eq {f : Fmt} (hinf : f.inf = true) (r : Rnd) (neg : Bool) (n d : Nat) (e : Int) :
    f.roundQ r neg n d e = f.signed neg (f.bounded r neg (f.roundMag r neg n d e)) := by
  have infinity : f.infinity neg = f.signed neg (f.top + 1) := by rw [Fmt.infinity, if_pos hinf]; rfl
  unfold Fmt.roundQ Fmt.bounded Fmt.overflow
  extract_lets c
  rw [infinity]
  split
  · split <;> rfl
  · rfl

theorem Fmt.overflow_mem (f : Fmt) (r : Rnd) (neg : Bool) : f.overflow r neg = f.top + 1 ∨ f.overflow r neg = f.top := ite_eq_or_eq ..

theorem Fmt.bounded_mono (f : Fmt) (r : Rnd) (neg : Bool) {c c' : Nat} (h : c ≤ c') : f.bounded r neg c ≤ f.bounded r neg c' := by
  have past := f.overflow_mem r neg
  unfold Fmt.bounded
  split <;> split <;> omega

theorem Fmt.bounded_le (f : Fmt) (r : Rnd) (neg : Bool) (c : Nat) : f.bounded r neg c ≤ f.top + 1 := by
  have past := f.overflow_mem r neg
  unfold Fmt.bounded
  split <;> omega

/-- Where the number is positive, no mode overflows less than toward zero, and none more than upward. -/
theorem Fmt.bounded_rz_le (f : Fmt) (r : Rnd) (c : Nat) : f.bounded .rz false c ≤ f.bounded r false c := by
  have past := f.overflow_mem r false
  have rz : f.overflow .rz false = f.top := if_neg (by decide)
  unfold Fmt.bounded
  split <;> omega

theorem Fmt.bounded_le_ru (f : Fmt) (r : Rnd) (c : Nat) : f.bounded r false c ≤ f.bounded .ru false c := by
  have past := f.overflow_mem r false
  have ru : f.overflow .ru false = f.top + 1 := if_pos (by decide)
  unfold Fmt.bounded
  split <;> omega

/-! ### The order of FP32 codes -/

/-- The place of an FP32 code in the order of values, both zeros at 0. -/
def place (c : Nat) : Int := if c < 2 ^ 31 then (c : Int) else 2 ^ 31 - c

theorem place_signed {c : Nat} (hc : c < 2 ^ 31) (neg : Bool) : place (fp32.signed neg c) = if neg then -(c : Int) else c := by
  have weight : fp32.signed neg c = (if neg then 2 ^ 31 else 0) + c := rfl
  rw [weight, place]
  cases neg
  · rw [if_neg Bool.false_ne_true, Nat.zero_add, if_pos hc, if_neg Bool.false_ne_true]
  · rw [if_pos rfl, if_neg (by omega), if_pos rfl]
    push_cast
    ring

theorem testBit_signed {c : Nat} (hc : c < 2 ^ 31) (neg : Bool) : (fp32.signed neg c).testBit 31 = neg := by
  rw [← bitN_eq_testBit]
  exact Fmt.bitN_signed (f := fp32) hc neg

theorem fp32_bounded_lt (r : Rnd) (neg : Bool) (c : Nat) : fp32.bounded r neg c < 2 ^ 31 :=
  (fp32.bounded_le r neg c).trans_lt (by decide)

/-- A number of this sign and size rounds to a code at place `k`. -/
def PlacedAt (r : Rnd) (x : ℚ) (k : Int) : Prop :=
  (x = 0 ∧ k = 0) ∨ ∃ neg a c, 0 < a ∧ x = (if neg then -a else a) ∧ fp32.takes r neg a c ∧
    k = if neg then -(fp32.bounded r neg c : Int) else fp32.bounded r neg c

section
variable {r : Rnd} {x y : ℚ} {k l : Int}

/-- Rounding keeps the order of numbers. -/
theorem PlacedAt.mono (hk : PlacedAt r x k) (hl : PlacedAt r y l) (hxy : x ≤ y) : k ≤ l := by
  rcases hk with ⟨rfl, rfl⟩ | ⟨neg, a, c, ha, rfl, hc, rfl⟩ <;> rcases hl with ⟨rfl, rfl⟩ | ⟨neg', b, c', hb, rfl, hc', rfl⟩
  · exact le_rfl
  · cases neg'
    · exact Int.natCast_nonneg _
    · exact absurd hxy (by simpa using hb)
  · cases neg
    · exact absurd hxy (by simpa using ha)
    · exact neg_nonpos.2 (Int.natCast_nonneg _)
  · cases neg <;> cases neg'
    · exact Int.ofNat_le.2 (fp32.bounded_mono r false (Fmt.takes_mono hxy hc hc'))
    · simp only [Bool.false_eq_true, if_false, if_true] at hxy
      linarith
    · exact (neg_nonpos.2 (Int.natCast_nonneg _)).trans (Int.natCast_nonneg _)
    · exact neg_le_neg (Int.ofNat_le.2 (fp32.bounded_mono r true (Fmt.takes_mono (neg_le_neg_iff.1 hxy) hc' hc)))

/-- Numbers on one open step of a fine grid round to one code. -/
theorem PlacedAt.step {R : Nat} {j : Int} (hR : 2 ^ 24 ≤ R) (hx : dyadic R j < x ∧ x < dyadic (R + 1 : Nat) j)
    (hy : dyadic R j < y ∧ y < dyadic (R + 1 : Nat) j) (hk : PlacedAt r x k) (hl : PlacedAt r y l) : k = l := by
  have pos : 0 < dyadic R j := mul_pos (by exact_mod_cast (by omega : 0 < R)) (two_zpow_pos j)
  have positive {z : ℚ} {k : Int} (hz : dyadic R j < z) (h : PlacedAt r z k) : ∃ c, fp32.takes r false z c ∧ k = fp32.bounded r false c := by
    rcases h with ⟨rfl, -⟩ | ⟨neg, a, c, ha, rfl, hc, rfl⟩
    · exact absurd hz pos.not_gt
    · cases neg
      · exact ⟨c, hc, rfl⟩
      · simp only [if_true] at hz
        linarith
  obtain ⟨c, hc, rfl⟩ := positive hx.1 hk
  obtain ⟨c', hc', rfl⟩ := positive hy.1 hl
  rw [Fmt.takes_step (f := fp32) hR hx hy hc hc']

/-- The place of a fraction, rounded. -/
theorem placedAt_roundQ (r : Rnd) (neg : Bool) {n d : Nat} (hn : n ≠ 0) (hd : d ≠ 0) (e : Int) :
    PlacedAt r (if neg then -((n / d : ℚ) * 2 ^ e) else n / d * 2 ^ e) (place (fp32.roundQ r neg n d e)) := by
  refine .inr ⟨neg, _, _, ?_, rfl, Fmt.takes_roundMag_div (f := fp32) (by decide) hn hd e r neg, ?_⟩
  · have : (0 : ℚ) < n := Nat.cast_pos.2 (Nat.pos_of_ne_zero hn)
    have : (0 : ℚ) < d := Nat.cast_pos.2 (Nat.pos_of_ne_zero hd)
    have := two_zpow_pos e
    positivity
  · rw [Fmt.roundQ_eq rfl, place_signed (fp32_bounded_lt ..)]

theorem place_round_zero (r : Rnd) {x : Exact} (hx : x.isZero = true) : place (fp32.round r x) = 0 := by
  rcases Exact.isZero_cases hx with rfl | ⟨e, rfl⟩
  · change place fp32.signBit = 0
    decide
  · change place (fp32.zero r) = 0
    cases r <;> decide

/-- The place of a number, rounded. -/
theorem placedAt_round (r : Rnd) (n e : Int) : PlacedAt r (dyadic n e) (place (fp32.round r (.num n e))) := by
  by_cases hn : n = 0
  · subst hn
    exact .inl ⟨dyadic_zero e, place_round_zero r rfl⟩
  · have h := placedAt_roundQ r (decide (n < 0)) (Int.natAbs_ne_zero.2 hn) one_ne_zero e
    have value : (if decide (n < 0) = true then -((n.natAbs / (1 : Nat) : ℚ) * 2 ^ e) else n.natAbs / (1 : Nat) * 2 ^ e) = dyadic n e := by
      rw [Nat.cast_one, div_one, Nat.cast_natAbs, dyadic]
      simp only [decide_eq_true_eq]
      split
      · next h => rw [abs_of_neg h]; push_cast; ring
      · next h => rw [abs_of_nonneg (not_lt.1 h)]
    rw [value] at h
    rw [show fp32.round r (.num n e) = fp32.roundQ r (decide (n < 0)) n.natAbs 1 e from if_neg hn]
    exact h

end

end Sys2Proof.Machine
end

/-!
The correctly rounded functions (R119): quotients, roots, powers of two and logarithms between the rounded values on either side.
-/
section
namespace Sys2Proof.Machine

/-- A code is what a number rounds to once (R119): no number of `below` rounds above it, and none of `above` below it. -/
def RoundsOnce (r : Rnd) (c : Nat) (below above : ℚ → Prop) : Prop :=
  ∀ p q : Int, (below (dyadic p q) → place (fp32.round r (.num p q)) ≤ place c) ∧ (above (dyadic p q) → place c ≤ place (fp32.round r (.num p q)))

theorem PlacedAt.roundsOnce {r : Rnd} {x : ℚ} {c : Nat} (h : PlacedAt r x (place c)) : RoundsOnce r c (· ≤ x) (x ≤ ·) :=
  fun p q => ⟨(placedAt_round r p q).mono h, h.mono (placedAt_round r p q)⟩

/-! ### Quotients -/

section
variable (r : Rnd) {n m : Int} (hn : n ≠ 0) (hm : m ≠ 0) (e k : Int)
include hn hm

theorem fdivN_num : fdivN r (.num n e) (.num m k) = fp32.roundQ r (decide (n < 0) != decide (m < 0)) n.natAbs m.natAbs (e - k) := by
  simp only [fdivN, Exact.isZero, Exact.isNeg, hn, hm, decide_false, Bool.false_eq_true, if_false]

theorem placedAt_fdivN : PlacedAt r (dyadic n e / dyadic m k) (place (fdivN r (.num n e) (.num m k))) := by
  have placed := placedAt_roundQ r (decide (n < 0) != decide (m < 0)) (Int.natAbs_ne_zero.2 hn) (Int.natAbs_ne_zero.2 hm) (e - k)
  have size : (n.natAbs / m.natAbs : ℚ) * 2 ^ (e - k) = |dyadic n e / dyadic m k| := by
    rw [abs_div, abs_dyadic, abs_dyadic, dyadic, dyadic, zpow_sub₀ two_ne_zero, Int.cast_natCast, Int.cast_natCast, mul_div_mul_comm]
  have value : (if (decide (n < 0) != decide (m < 0)) = true then -|dyadic n e / dyadic m k| else |dyadic n e / dyadic m k|) =
      dyadic n e / dyadic m k := by
    have hx := dyadic_neg_iff n e
    have hy := dyadic_neg_iff m k
    rw [abs_div]
    by_cases h1 : n < 0 <;> by_cases h2 : m < 0 <;> simp only [h1, h2, iff_true, iff_false, not_lt] at hx hy <;>
      simp [h1, h2, hx, hy, abs_of_neg, abs_of_nonneg, neg_div, div_neg]
  rw [fdivN_num r hn hm, ← value, ← size]
  exact placed

theorem testBit_fdivN : (fdivN r (.num n e) (.num m k)).testBit 31 = (decide (n < 0) != decide (m < 0)) := by
  rw [fdivN_num r hn hm, Fmt.roundQ_eq rfl, testBit_signed (fp32_bounded_lt ..)]

end

theorem Exact.isZero_zero (neg : Bool) : (Exact.zero neg).isZero = true := by cases neg <;> rfl

theorem fp32_infinity (neg : Bool) : fp32.infinity neg = if neg then 0xFF800000 else 0x7F800000 := by cases neg <;> decide

section
variable (r : Rnd) {y z : Exact} (finite : ∀ s, y ≠ .nan ∧ y ≠ .inf s)
include finite

/-- An infinity by a finite value (log entry 27). -/
theorem fdivN_inf (s : Bool) : fdivN r (.inf s) y = fp32.infinity (s != y.isNeg) := by
  cases y with
  | num n e | negZero => rfl
  | nan => exact absurd rfl (finite false).1
  | inf t => exact absurd rfl (finite t).2

/-- A finite value by an infinity (log entry 27). -/
theorem fdivN_by_inf (s : Bool) : fdivN r y (.inf s) = fp32.round r (Exact.zero (s != y.isNeg)) := by
  cases y with
  | num n e | negZero => rfl
  | nan => exact absurd rfl (finite false).1
  | inf t => exact absurd rfl (finite t).2

theorem place_fdivN_by_inf (s : Bool) : place (fdivN r y (.inf s)) = 0 :=
  (congrArg place (fdivN_by_inf r finite s)).trans (place_round_zero r (Exact.isZero_zero _))

theorem fdivN_zero (hz : z.isZero = true) : fdivN r y z = if y.isZero then fp32.nan else fp32.infinity (y.isNeg != z.isNeg) := by
  rcases Exact.isZero_cases hz with rfl | ⟨k, rfl⟩ <;> cases y with
  | num n e | negZero => simp only [fdivN, Exact.isZero, decide_true, if_true]
  | nan => exact absurd rfl (finite false).1
  | inf t => exact absurd rfl (finite t).2

end

theorem Exact.finite_of_isZero {y : Exact} (hy : y.isZero = true) (s : Bool) : y ≠ .nan ∧ y ≠ .inf s := by
  rcases Exact.isZero_cases hy with rfl | ⟨k, rfl⟩ <;> exact ⟨nofun, nofun⟩

theorem frcpN_eq (r : Rnd) {x : Exact} (hx : ∀ s, x ≠ .inf s) : frcpN r x = fdivN r (.num 1 0) x := by
  cases x with
  | inf s => exact absurd rfl (hx s)
  | num n e | negZero | nan => rfl

/-! ### Integer square roots -/

/-- A Newton step from above the root stays there, and halves the distance (R119). -/
theorem newton_step {n x : Nat} (hx : Nat.sqrt n < x) : Nat.sqrt n ≤ (x + n / x) / 2 ∧ (x + n / x) / 2 - Nat.sqrt n ≤ (x - Nat.sqrt n) / 2 := by
  have low : Nat.sqrt n * Nat.sqrt n ≤ n := Nat.sqrt_le n
  have high : n / x ≤ Nat.sqrt n := by
    have lt : n / x < Nat.sqrt n + 1 := by
      rw [Nat.div_lt_iff_lt_mul (by omega)]
      exact (Nat.lt_succ_sqrt n).trans_le (Nat.mul_le_mul_left _ hx)
    omega
  have mean : 2 * Nat.sqrt n ≤ x + n / x := by
    rcases le_total (2 * Nat.sqrt n) x with h | h
    · exact Nat.le_add_right_of_le h
    · have : (2 * Nat.sqrt n - x) * x ≤ n := by
        refine le_trans ?_ low
        zify [h]
        nlinarith [sq_nonneg ((Nat.sqrt n : Int) - x)]
      have := (Nat.le_div_iff_mul_le (by omega : 0 < x)).2 this
      omega
  omega

theorem sqrtLoop_eq {n : Nat} (fuel : Nat) {x : Nat} (hlow : Nat.sqrt n ≤ x) (hfuel : x < Nat.sqrt n + 2 ^ fuel) :
    sqrtLoop n fuel x = Nat.sqrt n := by
  induction fuel generalizing x with
  | zero =>
    change x = _
    omega
  | succ fuel ih =>
    rw [sqrtLoop]
    rcases hlow.eq_or_lt with rfl | h
    · -- at the root a step falls no further
      refine if_neg (not_lt.2 ?_)
      rcases Nat.eq_zero_or_pos (Nat.sqrt n) with h0 | hpos
      · rw [h0]; exact Nat.zero_le _
      · have : Nat.sqrt n ≤ n / Nat.sqrt n := (Nat.le_div_iff_mul_le hpos).2 (Nat.sqrt_le n)
        omega
    · obtain ⟨low, half⟩ := newton_step h
      have double : 2 ^ (fuel + 1) = 2 * 2 ^ fuel := pow_succ' 2 fuel
      rw [if_pos (by omega)]
      exact ih low (by omega)

theorem isqrt_eq (n : Nat) : isqrt n = Nat.sqrt n := by
  unfold isqrt
  split
  · next h => rw [h, Nat.sqrt_zero]
  · have start : Nat.sqrt n < 2 ^ (Nat.log2 n / 2 + 1) := by
      rw [Nat.sqrt_lt, ← pow_add]
      exact Nat.lt_log2_self.trans_le (Nat.pow_le_pow_right Nat.two_pos (by omega))
    refine sqrtLoop_eq _ start.le ?_
    have : 2 ^ (Nat.log2 n / 2 + 1) < 2 ^ (2 * Nat.log2 n + 8) := Nat.pow_lt_pow_right (by decide) (by omega)
    omega

end Sys2Proof.Machine
end

section
namespace Sys2Proof.Machine

/-! ### Roots -/

/-- The value that stands for a root between two steps of a grid lies on the step, or is the root. -/
theorem stickyVal_value (R : Nat) (exact : Bool) (j : Int) : ∃ n e, stickyVal R exact j = .num n e ∧
    (exact = true → dyadic n e = dyadic R j) ∧ (exact = false → dyadic R j < dyadic n e ∧ dyadic n e < dyadic (R + 1 : Nat) j) := by
  have half (n : Nat) : dyadic n (j - 1) = n / 2 * 2 ^ j := by
    rw [dyadic, zpow_sub₀ two_ne_zero, zpow_one, Int.cast_natCast]
    ring
  have pos := two_zpow_pos j
  refine ⟨_, _, rfl, fun h => ?_, fun h => ?_⟩
  · rw [h, if_pos rfl, half, dyadic]
    push_cast
    ring
  · rw [h, if_neg Bool.false_ne_true, half, dyadic, dyadic, mul_lt_mul_iff_left₀ pos, mul_lt_mul_iff_left₀ pos]
    push_cast
    constructor <;> linarith

/-- A root of `Y` in units of 2^j, found between `R` and `R + 1`, is rounded once (R119). -/
theorem roundsOnce_root (r : Rnd) {R : Nat} (hR : 2 ^ 24 ≤ R) {Y : ℚ} (j : Int) {exact : Bool} (low : (R * R : ℚ) ≤ Y)
    (high : Y < (R + 1) * (R + 1)) (hexact : exact = true ↔ (R * R : ℚ) = Y) :
    RoundsOnce r (fp32.round r (stickyVal R exact j)) (fun z => z ≤ 0 ∨ z * z ≤ Y * (2 ^ j * 2 ^ j))
      (fun z => 0 ≤ z ∧ Y * (2 ^ j * 2 ^ j) ≤ z * z) := by
  intro p q
  obtain ⟨n, e, hv, onGrid, between⟩ := stickyVal_value R exact j
  rw [hv]
  have placedV := placedAt_round r n e
  have placedZ := placedAt_round r p q
  generalize dyadic p q = z at *
  generalize dyadic n e = v at *
  have pos := two_zpow_pos j
  have hRpos : (0 : ℚ) < R := by exact_mod_cast (by omega : 0 < R)
  have hstep : dyadic R j = R * 2 ^ j := rfl
  have hstep' : dyadic (R + 1 : Nat) j = (R + 1) * 2 ^ j := by rw [dyadic]; push_cast; rfl
  -- a size compares with the root as their squares do
  have lt_of_sq {x y : ℚ} (hy : 0 ≤ y) (h : x * x < y * y) : x < y := lt_of_mul_self_lt_mul_self₀ hy h
  have le_of_sq {x y : ℚ} (hy : 0 ≤ y) (h : x * x ≤ y * y) : x ≤ y := nonneg_le_nonneg_of_sq_le_sq hy h
  cases exact with
  | true =>
    have root : v * v = Y * (2 ^ j * 2 ^ j) := by rw [onGrid rfl, hstep, ← hexact.1 rfl]; ring
    have vpos : 0 ≤ v := by rw [onGrid rfl, hstep]; positivity
    refine ⟨fun h => placedZ.mono placedV ?_, fun ⟨h0, h⟩ => placedV.mono placedZ (le_of_sq h0 (root ▸ h))⟩
    rcases h with h | h
    · exact h.trans vpos
    · exact le_of_sq vpos (root ▸ h)
  | false =>
    obtain ⟨vlo, vhi⟩ := between rfl
    have strict : (R * R : ℚ) < Y := lt_of_le_of_ne low fun h => Bool.false_ne_true (hexact.2 h)
    have unit : (0 : ℚ) < 2 ^ j * 2 ^ j := mul_pos pos pos
    constructor
    · intro h
      rcases le_or_gt z v with hz | hz
      · exact placedZ.mono placedV hz
      · have zpos : 0 < z := lt_trans (lt_trans (by rw [hstep]; positivity) vlo) hz
        have zhi : z < dyadic (R + 1 : Nat) j := by
          rw [hstep']
          refine lt_of_sq (by positivity) ((h.resolve_left zpos.not_ge).trans_lt ?_)
          calc Y * (2 ^ j * 2 ^ j) < (R + 1) * (R + 1) * (2 ^ j * 2 ^ j) := mul_lt_mul_of_pos_right high unit
            _ = (R + 1) * 2 ^ j * ((R + 1) * 2 ^ j) := by ring
        exact (placedZ.step hR ⟨vlo.trans hz, zhi⟩ ⟨vlo, vhi⟩ placedV).le
    · rintro ⟨h0, h⟩
      rcases le_or_gt v z with hz | hz
      · exact placedV.mono placedZ hz
      · have zlo : dyadic R j < z := by
          rw [hstep]
          refine lt_of_sq h0 (lt_of_lt_of_le ?_ h)
          calc (R : ℚ) * 2 ^ j * (R * 2 ^ j) = R * R * (2 ^ j * 2 ^ j) := by ring
            _ < Y * (2 ^ j * 2 ^ j) := mul_lt_mul_of_pos_right strict unit
        exact (placedV.step hR ⟨vlo, vhi⟩ ⟨zlo, hz.trans vhi⟩ placedZ).le

/-- An even exponent, for the same number. -/
theorem evenExp_spec (n : Nat) (e : Int) : ∃ h, (evenExp n e).2 = 2 * h ∧ dyadic (evenExp n e).1 (2 * h) = dyadic n e ∧
    n ≤ (evenExp n e).1 ∧ (evenExp n e).1 ≤ 2 * n := by
  unfold evenExp
  split
  · next he =>
    refine ⟨e / 2, ?_, ?_, le_rfl, ?_⟩
    · change e = _
      omega
    · rw [show 2 * (e / 2) = e by omega]
    · change n ≤ _
      omega
  · next he =>
    refine ⟨(e - 1) / 2, ?_, ?_, ?_, le_rfl⟩
    · change e - 1 = _
      omega
    · rw [show 2 * ((e - 1) / 2) = e - 1 by omega, dyadic, dyadic, zpow_sub₀ two_ne_zero, zpow_one]
      push_cast
      ring
    · change n ≤ 2 * n
      omega

theorem fsqrtN_num (r : Rnd) {n : Int} (hn : 0 < n) (e : Int) :
    let p := evenExp n.natAbs e
    let R := Nat.sqrt (p.1 * 2 ^ 64)
    fsqrtN r (.num n e) = fp32.round r (stickyVal R (decide (R * R = p.1 * 2 ^ 64)) (p.2 / 2 - 32)) := by
  simp only [fsqrtN, hn.ne', hn.not_gt, if_false, isqrt_eq]

theorem frsqN_num (r : Rnd) {n : Int} (hn : 0 < n) (e : Int) :
    let p := evenExp n.natAbs e
    let R := Nat.sqrt (2 ^ 128 / p.1)
    frsqN r (.num n e) = fp32.round r (stickyVal R (decide (R * R * p.1 = 2 ^ 128)) (-(p.2 / 2) - 64)) := by
  simp only [frsqN, hn.ne', hn.not_gt, if_false, isqrt_eq]

theorem fsqrtN_roundsOnce (r : Rnd) {n : Int} (hn : 0 < n) (e : Int) :
    RoundsOnce r (fsqrtN r (.num n e)) (fun z => z ≤ 0 ∨ z * z ≤ dyadic n e) (fun z => 0 ≤ z ∧ dyadic n e ≤ z * z) := by
  obtain ⟨h, hk, value, hle, -⟩ := evenExp_spec n.natAbs e
  rw [fsqrtN_num r hn]
  generalize evenExp n.natAbs e = p at *
  obtain ⟨a, k⟩ := p
  obtain rfl : k = 2 * h := hk
  dsimp only at value hle ⊢
  have size : dyadic n e = (a * 2 ^ 64 : Nat) * (2 ^ (2 * h / 2 - 32) * 2 ^ (2 * h / 2 - 32)) := by
    rw [show n = (n.natAbs : Int) by omega, ← value, dyadic, ← zpow_add₀ two_ne_zero,
      show 2 * h / 2 - 32 + (2 * h / 2 - 32) = 2 * h - (64 : Nat) by omega, zpow_sub₀ two_ne_zero, zpow_natCast]
    push_cast
    field_simp
    norm_num
  have large : 2 ^ 24 ≤ Nat.sqrt (a * 2 ^ 64) := Nat.le_sqrt.2 (by omega)
  rw [size]
  refine roundsOnce_root r large _ (by exact_mod_cast Nat.sqrt_le _) (by exact_mod_cast Nat.lt_succ_sqrt _) ?_
  rw [decide_eq_true_eq]
  exact_mod_cast Iff.rfl

theorem frsqN_roundsOnce (r : Rnd) {n : Int} (hn : 0 < n) (hn' : n < 2 ^ 24) (e : Int) :
    RoundsOnce r (frsqN r (.num n e)) (fun z => z ≤ 0 ∨ z * z * dyadic n e ≤ 1) (fun z => 0 ≤ z ∧ 1 ≤ z * z * dyadic n e) := by
  obtain ⟨h, hk, value, hle, hge⟩ := evenExp_spec n.natAbs e
  rw [frsqN_num r hn]
  generalize evenExp n.natAbs e = p at *
  obtain ⟨a, k⟩ := p
  obtain rfl : k = 2 * h := hk
  dsimp only at value hle hge ⊢
  have apos : 0 < a := by omega
  have apos' : (0 : ℚ) < a := Nat.cast_pos.2 apos
  have size : 1 / dyadic n e = (2 ^ 128 / a : ℚ) * (2 ^ (-(2 * h / 2) - 64) * 2 ^ (-(2 * h / 2) - 64)) := by
    rw [show n = (n.natAbs : Int) by omega, ← value, dyadic, ← zpow_add₀ two_ne_zero,
      show -(2 * h / 2) - 64 + (-(2 * h / 2) - 64) = -(2 * h) - (128 : Nat) by omega, zpow_sub₀ two_ne_zero, zpow_neg, zpow_natCast]
    push_cast
    field_simp
  have npos : 0 < dyadic n e := mul_pos (by exact_mod_cast hn) (two_zpow_pos e)
  have large : 2 ^ 24 ≤ Nat.sqrt (2 ^ 128 / a) := by
    rw [Nat.le_sqrt, Nat.le_div_iff_mul_le apos]
    omega
  have low := Nat.sqrt_le (2 ^ 128 / a)
  have high := Nat.lt_succ_sqrt (2 ^ 128 / a)
  generalize Nat.sqrt (2 ^ 128 / a) = R at *
  rw [Nat.le_div_iff_mul_le apos] at low
  rw [Nat.div_lt_iff_lt_mul apos] at high
  have root := roundsOnce_root r large (Y := 2 ^ 128 / a) (-(2 * h / 2) - 64) (exact := decide (R * R * a = 2 ^ 128))
    (by rw [le_div_iff₀ apos']; exact_mod_cast low) (by rw [div_lt_iff₀ apos']; exact_mod_cast high)
    (by rw [decide_eq_true_eq, eq_div_iff apos'.ne']; exact_mod_cast Iff.rfl)
  rw [← size] at root
  simp only [le_div_iff₀ npos, div_le_iff₀ npos] at root
  exact root

end Sys2Proof.Machine
end

section
namespace Sys2Proof.Machine

/-! ### Powers of two (R119) -/

section
variable {r r' : Rnd} {x : ℚ} {k l : Int}

/-- A positive number's code, by the size alone. -/
theorem PlacedAt.of_pos (hx : 0 < x) (h : PlacedAt r x k) : ∃ c, fp32.takes r false x c ∧ k = fp32.bounded r false c := by
  rcases h with ⟨rfl, -⟩ | ⟨neg, a, c, ha, rfl, hc, rfl⟩
  · exact absurd hx (lt_irrefl _)
  · cases neg
    · exact ⟨c, hc, rfl⟩
    · simp only [if_true] at hx
      linarith

/-- Of a positive number no mode makes less than rounding toward zero does. -/
theorem PlacedAt.rz_le (hx : 0 < x) (hk : PlacedAt .rz x k) (hl : PlacedAt r x l) : k ≤ l := by
  obtain ⟨c, hc, rfl⟩ := hk.of_pos hx
  obtain ⟨c', hc', rfl⟩ := hl.of_pos hx
  exact Int.ofNat_le.2 ((fp32.bounded_mono .rz false (Fmt.takes_rz_le hc hc')).trans (fp32.bounded_rz_le r c'))

/-- Of a positive number no mode makes more than rounding up does. -/
theorem PlacedAt.le_ru (hx : 0 < x) (hk : PlacedAt r x k) (hl : PlacedAt .ru x l) : k ≤ l := by
  obtain ⟨c, hc, rfl⟩ := hk.of_pos hx
  obtain ⟨c', hc', rfl⟩ := hl.of_pos hx
  exact Int.ofNat_le.2 ((fp32.bounded_mono r false (Fmt.takes_le_ru hc hc')).trans (fp32.bounded_le_ru r c'))

end

theorem dyadic_natural (n : Int) (k : Nat) : dyadic n k = (n * (2 ^ k : Nat) : Int) := by
  rw [dyadic, zpow_natCast]
  push_cast
  rfl

theorem dyadic_fraction (n : Int) (k : Nat) : dyadic n (-k) = n / (2 ^ k : Nat) := by
  rw [dyadic, zpow_neg, zpow_natCast]
  push_cast
  rfl

/-- The integer below a number. -/
theorem floor_dyadic (n e : Int) : ⌊dyadic n e⌋ = if 0 ≤ e then n * (2 ^ e.toNat : Nat) else n / (2 ^ (-e).toNat : Nat) := by
  split
  · next h =>
    obtain ⟨k, rfl⟩ := Int.eq_ofNat_of_zero_le h
    rw [dyadic_natural, Int.floor_intCast, Int.toNat_natCast]
  · next h =>
    obtain ⟨k, rfl⟩ : ∃ k : Nat, e = -k := ⟨(-e).toNat, by omega⟩
    rw [dyadic_fraction, Rat.floor_intCast_div_natCast, neg_neg, Int.toNat_natCast]

/-- Whether a number is an integer. -/
theorem dyadic_eq_floor_iff (n e : Int) : dyadic n e = ⌊dyadic n e⌋ ↔ (if 0 ≤ e then 0 else (n % (2 ^ (-e).toNat : Nat)).toNat) = 0 := by
  rw [floor_dyadic]
  split
  · next h =>
    obtain ⟨k, rfl⟩ := Int.eq_ofNat_of_zero_le h
    simp only [dyadic_natural, Int.toNat_natCast]
  · next h =>
    obtain ⟨k, rfl⟩ : ∃ k : Nat, e = -k := ⟨(-e).toNat, by omega⟩
    have pos : (0 : Int) < (2 ^ k : Nat) := by exact_mod_cast Nat.two_pow_pos k
    have hmod := Int.emod_nonneg n pos.ne'
    have hdiv := Int.mul_ediv_add_emod n (2 ^ k : Nat)
    have zero : n % (2 ^ k : Nat) = 0 ↔ n = (2 ^ k : Nat) * (n / (2 ^ k : Nat)) := by omega
    rw [neg_neg, Int.toNat_natCast, show (n % (2 ^ k : Nat)).toNat = 0 ↔ n % (2 ^ k : Nat) = 0 by omega, zero, dyadic_fraction,
      div_eq_iff (by positivity), mul_comm]
    exact_mod_cast Iff.rfl

/-- An odd power of two is no square. -/
theorem square_ne_two_mul_square (R k : Nat) : R * R ≠ 2 * 2 ^ k * 2 ^ k := by
  have odd : 2 * 2 ^ k * 2 ^ k = 2 ^ (2 * k + 1) := by ring
  intro h
  rw [odd] at h
  obtain ⟨i, -, rfl⟩ := (Nat.dvd_prime_pow Nat.prime_two).1 (h ▸ Nat.dvd_mul_right R R)
  rw [← pow_add] at h
  have := Nat.pow_right_injective le_rfl h
  omega

section
variable {B : Nat} (hB : B = 2 ^ 256)
include hB

theorem exp2Loop_cons (b : Bool) (bits : List Bool) (root acc : Nat) : exp2Loop (b :: bits) root acc =
    exp2Loop bits (Nat.sqrt (root * B)) (if b then acc * Nat.sqrt (root * B) / B else acc) := by
  rw [exp2Loop, isqrt_eq, hB]

/-- Fractional powers of two, found by square roots, stay between 1 and 2. -/
theorem exp2Loop_bounds (bits : List Bool) {root acc : Nat} (hroot : B ≤ root) (hacc : B ≤ acc) (hprod : acc * root < 2 * B * B) :
    B ≤ exp2Loop bits root acc ∧ exp2Loop bits root acc < 2 * B := by
  have pos : 0 < B := hB ▸ Nat.two_pow_pos 256
  induction bits generalizing root acc with
  | nil => exact ⟨hacc, lt_of_mul_lt_mul_right ((Nat.mul_le_mul_left acc hroot).trans_lt hprod) (Nat.zero_le _)⟩
  | cons b bits ih =>
    have low := Nat.sqrt_le (root * B)
    have one : B ≤ Nat.sqrt (root * B) := Nat.le_sqrt.2 (Nat.mul_le_mul_right _ hroot)
    rw [exp2Loop_cons hB]
    generalize Nat.sqrt (root * B) = root' at *
    have falls : root' ≤ root := nonneg_le_nonneg_of_sq_le_sq (Nat.zero_le _) (low.trans (Nat.mul_le_mul_left _ hroot))
    cases b with
    | false => exact ih one hacc ((Nat.mul_le_mul_left acc falls).trans_lt hprod)
    | true =>
      refine ih one ((Nat.le_div_iff_mul_le pos).2 (Nat.mul_le_mul hacc one)) (lt_of_le_of_lt ?_ hprod)
      refine le_of_mul_le_mul_right ?_ pos
      calc acc * root' / B * root' * B = acc * root' / B * B * root' := by ring
        _ ≤ acc * root' * root' := Nat.mul_le_mul_right _ (Nat.div_mul_le_self _ _)
        _ = acc * (root' * root') := Nat.mul_assoc ..
        _ ≤ acc * (root * B) := Nat.mul_le_mul_left _ low
        _ = acc * root * B := (Nat.mul_assoc ..).symm

/-- A power with a fraction in its exponent lies between 1 and 2, below 2 itself. -/
theorem exp2Loop_start (bits : List Bool) (hbits : bits ≠ []) : B ≤ exp2Loop bits (2 * B) B ∧ exp2Loop bits (2 * B) B < 2 * B := by
  have pos : 0 < B := hB ▸ Nat.two_pow_pos 256
  cases bits with
  | nil => exact absurd rfl hbits
  | cons b bits =>
    have strict := lt_of_le_of_ne (Nat.sqrt_le (2 * B * B)) (hB ▸ square_ne_two_mul_square _ 256)
    have one : B ≤ Nat.sqrt (2 * B * B) := Nat.le_sqrt.2 (Nat.mul_le_mul_right _ (Nat.le_mul_of_pos_left B two_pos))
    rw [exp2Loop_cons hB]
    generalize Nat.sqrt (2 * B * B) = root at *
    have below : root < 2 * B := by
      by_contra h
      exact absurd strict (not_lt.2 (Nat.mul_le_mul (not_lt.1 h) one))
    cases b with
    | false => exact exp2Loop_bounds hB bits one le_rfl (by rw [Nat.mul_comm]; exact Nat.mul_lt_mul_of_pos_right below pos)
    | true =>
      refine exp2Loop_bounds hB bits one ?_ ?_ <;> rw [if_pos rfl, Nat.mul_div_cancel_left _ pos]
      · exact one
      · exact strict

end

end Sys2Proof.Machine
end

section
namespace Sys2Proof.Machine

/-- The bits of a number's fraction part. -/
def fractionBits (n e : Int) : List Bool :=
  (List.range (-e).toNat).map fun j => bitN (n % (2 ^ (-e).toNat : Nat)).toNat ((-e).toNat - 1 - j)

/-- fexp2 of a number: the power of the integer below, or, where there is a fraction, what its bits make of it. -/
theorem fexp2N_num (r : Rnd) (n e : Int) {B : Nat} (hB : B = 2 ^ 256) :
    let i := max (-400) (min 400 ⌊dyadic n e⌋)
    fexp2N r (.num n e) = fp32.round r (if dyadic n e = ⌊dyadic n e⌋ then .num 1 i
      else stickyVal (exp2Loop (fractionBits n e) (2 * B) B) false (i - 256)) := by
  have root : 2 * B = 2 ^ 257 := by rw [hB, show 257 = 256 + 1 from rfl, pow_succ' 2 256]
  intro i
  have hi : i = max (-400) (min 400 (if 0 ≤ e then n * (2 ^ e.toNat : Nat) else n / (2 ^ (-e).toNat : Nat))) := by rw [← floor_dyadic]
  rw [root, hB, hi]
  simp only [dyadic_eq_floor_iff]
  unfold fexp2N
  dsimp only
  by_cases hfr : (if 0 ≤ e then 0 else (n % (2 ^ (-e).toNat : Nat)).toNat) = 0
  · rw [if_pos hfr, if_pos hfr]
  · have he : ¬0 ≤ e := fun h => hfr (if_pos h)
    rw [if_neg hfr, if_neg hfr]
    simp only [he, if_false]
    rfl

theorem fractionBits_ne_nil {n e : Int} (h : dyadic n e ≠ ⌊dyadic n e⌋) : fractionBits n e ≠ [] := by
  have he : ¬0 ≤ e := fun he => (dyadic_eq_floor_iff n e).not.1 h (if_pos he)
  rw [ne_eq, fractionBits, List.map_eq_nil_iff, List.range_eq_nil]
  omega

theorem fexp2N_integer (r : Rnd) {n e m : Int} (h : dyadic n e = m) :
    fexp2N r (.num n e) = fp32.round r (.num 1 (max (-400) (min 400 m))) := by
  have floor : ⌊dyadic n e⌋ = m := by rw [h, Int.floor_intCast]
  rw [fexp2N_num r n e rfl, if_pos (floor ▸ h), floor]

/-- Between two integers the power lies between those of the integers. -/
theorem fexp2N_between (r : Rnd) {n e m : Int} (lo : m < dyadic n e) (hi : dyadic n e < m + 1) (hm : -400 < m) (hm' : m < 400) :
    place (fp32.round .rz (.num 1 m)) ≤ place (fexp2N r (.num n e)) ∧
      place (fexp2N r (.num n e)) ≤ place (fp32.round .ru (.num 1 (m + 1))) := by
  have floor : ⌊dyadic n e⌋ = m := Int.floor_eq_iff.2 ⟨lo.le, hi⟩
  have fraction : dyadic n e ≠ ⌊dyadic n e⌋ := by rw [floor]; exact lo.ne'
  obtain ⟨B, hB⟩ : ∃ B, B = 2 ^ 256 := ⟨_, rfl⟩
  obtain ⟨low, high⟩ := exp2Loop_start hB _ (fractionBits_ne_nil fraction)
  rw [fexp2N_num r n e hB, if_neg fraction, floor, show max (-400) (min 400 m) = m by omega]
  generalize exp2Loop (fractionBits n e) (2 * B) B = A at *
  obtain ⟨a, k, hv, -, between⟩ := stickyVal_value A false (m - 256)
  obtain ⟨above, below⟩ := between rfl
  have unit : dyadic B (m - 256) = dyadic 1 m := by
    have lower := dyadic_lower 1 (show m - 256 ≤ m by omega)
    rw [show (m - (m - 256)).toNat = 256 by omega, ← hB, one_mul] at lower
    exact lower
  have double : dyadic (2 * B : Nat) (m - 256) = dyadic 1 (m + 1) := by
    rw [dyadic, Nat.cast_mul, Int.cast_mul, mul_assoc, ← dyadic, unit, dyadic, dyadic, zpow_add_one₀ two_ne_zero]
    push_cast
    ring
  have le {x y : Nat} (h : x ≤ y) : dyadic x (m - 256) ≤ dyadic y (m - 256) :=
    mul_le_mul_of_nonneg_right (by exact_mod_cast h) (two_zpow_pos _).le
  have one : 0 < dyadic 1 m := mul_pos (by norm_num) (two_zpow_pos m)
  have vlo : dyadic 1 m ≤ dyadic a k := unit ▸ (le low).trans above.le
  have vhi : dyadic a k ≤ dyadic 1 (m + 1) := double ▸ below.le.trans (le high)
  rw [hv]
  exact ⟨((placedAt_round .rz 1 m).rz_le one (placedAt_round r 1 m)).trans ((placedAt_round r 1 m).mono (placedAt_round r a k) vlo),
    ((placedAt_round r a k).mono (placedAt_round r 1 (m + 1)) vhi).trans
      ((placedAt_round r 1 (m + 1)).le_ru (one.trans_le (vlo.trans vhi)) (placedAt_round .ru 1 (m + 1)))⟩

theorem fexp2N_zero (r : Rnd) {z : Exact} (hz : z.isZero = true) : fexp2N r z = 0x3F800000 := by
  have one : fp32.round r (.num 1 0) = 0x3F800000 := by cases r <;> decide
  rcases Exact.isZero_cases hz with rfl | ⟨e, rfl⟩
  · exact one
  · rw [fexp2N_integer r (m := 0) (by rw [dyadic_zero, Int.cast_zero])]
    exact one

/-! ### Logarithms (R119) -/

theorem log2Loop_lt (fuel m acc : Nat) : log2Loop fuel m acc < (acc + 1) * 2 ^ fuel := by
  induction fuel generalizing m acc with
  | zero => rw [log2Loop, pow_zero]; omega
  | succ fuel ih =>
    have double : 2 ^ (fuel + 1) = 2 * 2 ^ fuel := pow_succ' 2 fuel
    rw [log2Loop, double]
    split
    · exact (ih _ _).trans_eq (by ring)
    · refine (ih _ _).trans_le ?_
      rw [← mul_assoc]
      exact Nat.mul_le_mul_right _ (by omega)

/-- flog2 of a positive number: the exponent of its highest bit, and a fraction unless it is a power of two. -/
theorem flog2N_num (r : Rnd) {n : Int} (hn : 0 < n) (e : Int) :
    let l := Nat.log2 n.natAbs
    (n.natAbs = 2 ^ l → flog2N r (.num n e) = if (l : Int) + e = 0 then 0 else fp32.round r (.num (l + e) 0)) ∧
      (n.natAbs ≠ 2 ^ l → ∃ L : Nat, L < 2 ^ 160 ∧ flog2N r (.num n e) = fp32.round r (.num (2 * ((l + e) * (2 ^ 160 : Nat) + L) + 1) (-161))) := by
  intro l
  have bound (m : Nat) : log2Loop 160 m 0 < 2 ^ 160 := (log2Loop_lt 160 m 0).trans_eq (Nat.one_mul _)
  unfold flog2N
  simp only [hn.ne', hn.not_gt, if_false]
  exact ⟨fun h => if_pos h, fun h => ⟨_, bound _, if_neg h⟩⟩

/-- The exponent of a number's highest bit is that of the power of two at or below it. -/
theorem log2_eq_of_dyadic {n e m : Int} (hn : 0 < n) (lo : (2 : ℚ) ^ m ≤ dyadic n e) (hi : dyadic n e < 2 ^ (m + 1)) :
    (Nat.log2 n.natAbs : Int) + e = m := by
  have size : dyadic n e = (n.natAbs : ℚ) * 2 ^ e := by rw [dyadic, Nat.cast_natAbs, abs_of_pos hn]
  have low : (2 : ℚ) ^ ((Nat.log2 n.natAbs : Int) + e) ≤ dyadic n e := by
    rw [size, zpow_add₀ two_ne_zero, zpow_natCast]
    exact mul_le_mul_of_nonneg_right (by exact_mod_cast Nat.log2_self_le (by omega)) (two_zpow_pos e).le
  have high : dyadic n e < 2 ^ ((Nat.log2 n.natAbs : Int) + e + 1) := by
    rw [size, show (Nat.log2 n.natAbs : Int) + e + 1 = ((Nat.log2 n.natAbs + 1 : Nat) : Int) + e by push_cast; ring,
      zpow_add₀ two_ne_zero, zpow_natCast]
    exact mul_lt_mul_of_pos_right (by exact_mod_cast Nat.lt_log2_self) (two_zpow_pos e)
  have h1 := (zpow_lt_zpow_iff_right₀ (one_lt_two (α := ℚ))).1 (lo.trans_lt high)
  have h2 := (zpow_lt_zpow_iff_right₀ (one_lt_two (α := ℚ))).1 (low.trans_lt hi)
  omega

theorem dyadic_eq_two_zpow_iff {n e : Int} (hn : 0 < n) (l : Nat) : dyadic n e = 2 ^ ((l : Int) + e) ↔ n.natAbs = 2 ^ l := by
  rw [dyadic, zpow_add₀ two_ne_zero, mul_left_inj' (two_zpow_pos e).ne', zpow_natCast, show (n : ℚ) = n.natAbs by rw [Nat.cast_natAbs, abs_of_pos hn]]
  exact_mod_cast Iff.rfl

theorem flog2N_power (r : Rnd) {n e m : Int} (hn : 0 < n) (h : dyadic n e = 2 ^ m) :
    flog2N r (.num n e) = if m = 0 then 0 else fp32.round r (.num m 0) := by
  have hm := log2_eq_of_dyadic hn h.ge (h.trans_lt (zpow_lt_zpow_right₀ one_lt_two (lt_add_one m)))
  subst hm
  exact (flog2N_num r hn e).1 ((dyadic_eq_two_zpow_iff hn _).1 h)

/-- Between two powers of two the logarithm lies between their exponents. -/
theorem flog2N_between (r : Rnd) {n e m : Int} (lo : (2 : ℚ) ^ m < dyadic n e) (hi : dyadic n e < 2 ^ (m + 1)) :
    place (fp32.round r (.num m 0)) ≤ place (flog2N r (.num n e)) ∧ place (flog2N r (.num n e)) ≤ place (fp32.round r (.num (m + 1) 0)) := by
  have hn : 0 < n := by
    rcases lt_trichotomy n 0 with h | rfl | h
    · exact absurd ((two_zpow_pos m).trans lo) ((dyadic_neg_iff n e).2 h).not_gt
    · exact absurd ((two_zpow_pos m).trans lo) (dyadic_zero e).not_gt
    · exact h
  have hm := log2_eq_of_dyadic hn lo.le hi
  subst hm
  obtain ⟨L, hL, hlog⟩ := (flog2N_num r hn e).2 ((dyadic_eq_two_zpow_iff hn _).not.1 lo.ne')
  rw [hlog]
  have units (z : Int) : dyadic z 0 = dyadic (z * (2 ^ 161 : Nat)) (-161) := (dyadic_lower z (by decide : (-161 : Int) ≤ 0)).symm
  have le {x y : Int} (h : x ≤ y) : dyadic x (-161) ≤ dyadic y (-161) :=
    mul_le_mul_of_nonneg_right (by exact_mod_cast h) (two_zpow_pos _).le
  generalize (Nat.log2 n.natAbs : Int) + e = m at *
  refine ⟨(placedAt_round r m 0).mono (placedAt_round r _ _) ?_, (placedAt_round r _ _).mono (placedAt_round r (m + 1) 0) ?_⟩ <;>
    rw [units] <;> exact le (by omega)

end Sys2Proof.Machine
end

/-!
Rounding to an integer (R117, R135), and values that a format holds exactly.
-/
section
namespace Sys2Proof.Machine

/-! ### Integers (R117, R135) -/

/-- The natural number that a size, of a number of this sign, rounds to. -/
def sizeRoundsTo (r : Rnd) (neg : Bool) (x : ℚ) (Q : Nat) : Prop :=
  match r with
  | .rz => (Q : Int) = ⌊x⌋
  | .ru => (Q : Int) = if neg then ⌊x⌋ else ⌈x⌉
  | .rd => (Q : Int) = if neg then ⌈x⌉ else ⌊x⌋
  | .rne => |x - Q| ≤ 1 / 2 ∧ (|x - Q| = 1 / 2 → Q % 2 = 0)

section
variable {q s b : Nat} (hs : s < b)
include hs

theorem floor_add_fraction : ⌊(q + s / b : ℚ)⌋ = q := by
  have : (s / b : ℚ) < 1 := (div_lt_one (Nat.cast_pos.2 (by omega))).2 (Nat.cast_lt.2 hs)
  have : (0 : ℚ) ≤ s / b := by positivity
  rw [Int.floor_eq_iff, Int.cast_natCast]
  constructor <;> linarith

theorem ceil_add_fraction : ⌈(q + s / b : ℚ)⌉ = (q + if s = 0 then 0 else 1 : Nat) := by
  have : (s / b : ℚ) < 1 := (div_lt_one (Nat.cast_pos.2 (by omega))).2 (Nat.cast_lt.2 hs)
  split
  · next h => rw [h, Nat.cast_zero, zero_div, add_zero, Int.ceil_natCast]; rfl
  · next h =>
    have : (0 : ℚ) < s / b := div_pos (Nat.cast_pos.2 (Nat.pos_of_ne_zero h)) (Nat.cast_pos.2 (by omega))
    rw [Int.ceil_eq_iff]
    push_cast
    constructor <;> linarith

/-- A tie goes to the even neighbour, any other fraction to the nearer one. -/
theorem sizeRoundsTo_nearest (neg : Bool) : sizeRoundsTo .rne neg (q + s / b) (q + if roundsUp .rne neg q s b then 1 else 0) := by
  have hb : (0 : ℚ) < b := Nat.cast_pos.2 (by omega)
  have half : (s / b : ℚ) < 1 / 2 ↔ 2 * s < b := by
    rw [div_lt_div_iff₀ hb two_pos, one_mul, mul_comm]; exact_mod_cast Iff.rfl
  have half' : 1 / 2 < (s / b : ℚ) ↔ b < 2 * s := by
    rw [div_lt_div_iff₀ two_pos hb, one_mul, mul_comm]; exact_mod_cast Iff.rfl
  have nonneg : (0 : ℚ) ≤ s / b := by positivity
  have less : (s / b : ℚ) < 1 := (div_lt_one hb).2 (Nat.cast_lt.2 hs)
  have rounds : roundsUp .rne neg q s b = true ↔ b < 2 * s ∨ (b = 2 * s ∧ q % 2 = 1) := by
    unfold roundsUp
    split
    · next h => simp only [Bool.false_eq_true, false_iff]; omega
    · simp only [Bool.or_eq_true, Bool.and_eq_true, decide_eq_true_eq]
  change |_| ≤ _ ∧ (|_| = _ → _)
  generalize (s / b : ℚ) = t at *
  by_cases h : roundsUp .rne neg q s b = true
  · have ht : 1 / 2 ≤ t := not_lt.1 (half.not.2 (by have := rounds.1 h; omega))
    have dist : |(q + t : ℚ) - (q + 1 : Nat)| = 1 - t := by
      rw [abs_sub_comm, abs_of_nonneg] <;> push_cast <;> linarith
    rw [if_pos h, dist]
    refine ⟨by linarith, fun he => ?_⟩
    have odd := rounds.1 h
    have := half'.not.1 (not_lt.2 (by linarith : t ≤ 1 / 2))
    omega
  · have ht : t ≤ 1 / 2 := not_lt.1 (half'.not.2 fun h' => h (rounds.2 (.inl h')))
    have dist : |(q + t : ℚ) - (q + 0 : Nat)| = t := by rw [Nat.add_zero, add_sub_cancel_left, abs_of_nonneg nonneg]
    rw [if_neg h, dist]
    refine ⟨ht, fun he => ?_⟩
    have even := rounds.not.1 h
    have := half.not.1 (not_lt.2 he.ge)
    have := half'.not.1 (not_lt.2 he.le)
    omega

theorem sizeRoundsTo_roundsUp (r : Rnd) (neg : Bool) : sizeRoundsTo r neg (q + s / b) (q + if roundsUp r neg q s b then 1 else 0) := by
  have floor := floor_add_fraction (q := q) hs
  have ceil := ceil_add_fraction (q := q) hs
  cases r with
  | rne => exact sizeRoundsTo_nearest hs neg
  | rz => change ((_ : Nat) : Int) = ⌊_⌋; rw [floor]; simp [roundsUp]
  | ru => change ((_ : Nat) : Int) = if neg then ⌊_⌋ else ⌈_⌉; rw [floor, ceil]; cases neg <;> by_cases h : s = 0 <;> simp [roundsUp, h]
  | rd => change ((_ : Nat) : Int) = if neg then ⌈_⌉ else ⌊_⌋; rw [floor, ceil]; cases neg <;> by_cases h : s = 0 <;> simp [roundsUp, h]

end

/-- A number rounds as its size does. -/
theorem roundsTo_of_size {r : Rnd} {neg : Bool} {x : ℚ} {Q : Nat} (h : sizeRoundsTo r neg x Q) (h0 : 0 ≤ x) (hneg : neg = true → 0 < x) :
    roundsTo r (if neg then -x else x) (if neg then -(Q : Int) else Q) := by
  cases neg with
  | false =>
    cases r with
    | rz => exact Eq.trans (b := ⌊x⌋) h (if_pos h0).symm
    | ru | rd => exact h
    | rne => exact ⟨h.1, fun he => by have := h.2 he; simp only [Bool.false_eq_true, if_false]; omega⟩
  | true =>
    have below : ¬0 ≤ -x := by have := hneg rfl; linarith
    cases r with
    | rz => exact ((congrArg Neg.neg h).trans Int.ceil_neg.symm).trans (if_neg below).symm
    | ru => exact (congrArg Neg.neg h).trans Int.ceil_neg.symm
    | rd => exact (congrArg Neg.neg h).trans Int.floor_neg.symm
    | rne =>
      have dist : |-x - (-(Q : Int) : Int)| = |x - Q| := by
        push_cast
        rw [← abs_neg]
        congr 1
        ring
      refine ⟨dist.trans_le h.1, fun he => ?_⟩
      have := h.2 (dist.symm.trans he)
      simp only [if_true]
      omega

/-- The integer of a mode is the one the rules name (R117, R135). -/
theorem roundsTo_roundInt (r : Rnd) (n e : Int) : roundsTo r (dyadic n e) (roundInt r n e) := by
  by_cases he : 0 ≤ e
  · obtain ⟨k, rfl⟩ := Int.eq_ofNat_of_zero_le he
    rw [roundInt, if_pos he, Int.toNat_natCast, dyadic_natural]
    generalize n * (2 ^ k : Nat) = z
    cases r with
    | rz => exact (by simp : z = if 0 ≤ (z : ℚ) then ⌊(z : ℚ)⌋ else ⌈(z : ℚ)⌉)
    | ru => exact (Int.ceil_intCast z).symm
    | rd => exact (Int.floor_intCast z).symm
    | rne => exact (by norm_num : |(z : ℚ) - z| ≤ 1 / 2 ∧ (|(z : ℚ) - z| = 1 / 2 → z % 2 = 0))
  · obtain ⟨k, rfl⟩ : ∃ k : Nat, e = -k := ⟨(-e).toNat, by omega⟩
    have pos : (0 : ℚ) < (2 ^ k : Nat) := Nat.cast_pos.2 (Nat.two_pow_pos k)
    have frac : (n.natAbs / 2 ^ k : Nat) + (n.natAbs % 2 ^ k : Nat) / (2 ^ k : Nat) = (n.natAbs : ℚ) / (2 ^ k : Nat) := by
      rw [add_div' _ _ _ pos.ne', ← Nat.cast_mul, ← Nat.cast_add, Nat.div_add_mod']
    have size := sizeRoundsTo_roundsUp (Nat.mod_lt n.natAbs (Nat.two_pow_pos k)) r (decide (n < 0)) (q := n.natAbs / 2 ^ k)
    rw [frac] at size
    have value : dyadic n (-k) = if decide (n < 0) = true then -((n.natAbs : ℚ) / (2 ^ k : Nat)) else n.natAbs / (2 ^ k : Nat) := by
      rw [dyadic_fraction, Nat.cast_natAbs]
      simp only [decide_eq_true_eq]
      split
      · next h => rw [abs_of_neg h]; push_cast; ring
      · next h => rw [abs_of_nonneg (not_lt.1 h)]
    rw [roundInt, if_neg he, neg_neg, Int.toNat_natCast, value]
    exact roundsTo_of_size size (by positivity) fun h =>
      div_pos (Nat.cast_pos.2 (by have := of_decide_eq_true h; omega)) pos

end Sys2Proof.Machine
end

section
namespace Sys2Proof.Machine

/-! ### Values that a format holds -/

section
variable {f : Fmt}

/-- A number of few bits, no finer than the smallest magnitude, is a code's size. -/
theorem Fmt.exists_mag {N : Nat} {E : Int} (hN : N < 2 ^ (f.m + 1)) (hE : f.emin ≤ E) : ∃ c, f.mag c = dyadic N E := by
  rcases Nat.eq_zero_or_pos N with rfl | hpos
  · exact ⟨0, by rw [f.mag_zero, Nat.cast_zero, dyadic_zero]⟩
  have low : 2 ^ Nat.log2 N ≤ N := Nat.log2_self_le hpos.ne'
  have bits : Nat.log2 N ≤ f.m := by
    have := (Nat.pow_lt_pow_iff_right (by decide : 1 < 2)).1 (low.trans_lt hN)
    omega
  -- the number shifted left until it is normal, or in units of the smallest magnitude
  obtain ⟨s, hs⟩ : ∃ s, s = min (E - f.emin).toNat (f.m - Nat.log2 N) := ⟨_, rfl⟩
  have q : N * 2 ^ s < 2 ^ (f.m + 1) := by
    calc N * 2 ^ s < 2 ^ (Nat.log2 N + 1) * 2 ^ s := Nat.mul_lt_mul_of_pos_right Nat.lt_log2_self (Nat.two_pow_pos _)
      _ = 2 ^ (Nat.log2 N + 1 + s) := (pow_add ..).symm
      _ ≤ 2 ^ (f.m + 1) := Nat.pow_le_pow_right Nat.two_pos (by omega)
  have normal : (E - f.emin).toNat - s = 0 ∨ 2 ^ f.m ≤ N * 2 ^ s := by
    rcases le_total (E - f.emin).toNat (f.m - Nat.log2 N) with h | h
    · exact .inl (by omega)
    · right
      calc 2 ^ f.m = 2 ^ Nat.log2 N * 2 ^ s := by rw [← pow_add]; congr 1; omega
        _ ≤ N * 2 ^ s := Nat.mul_le_mul_right _ low
  refine ⟨((E - f.emin).toNat - s) * 2 ^ f.m + N * 2 ^ s, ?_⟩
  have lower := dyadic_lower (N : Int) (show E - s ≤ E by omega)
  rw [mag_units q.le normal, ← lower, show (E - (E - s)).toNat = s by omega]
  push_cast
  congr 1
  omega

/-- A nonzero number of a code's size rounds to that code, with its sign. -/
theorem Fmt.round_of_mag (hm : 1 ≤ f.m) (hinf : f.inf = true) (r : Rnd) {n e : Int} (hn : n ≠ 0) {c : Nat} (hc : |dyadic n e| = f.mag c)
    (htop : c ≤ f.top) : f.round r (.num n e) = f.signed (decide (n < 0)) c := by
  obtain ⟨c', takes, rounds⟩ := Fmt.round_num hm hinf r hn e
  rw [hc] at takes
  rw [rounds, Fmt.eq_of_takes_mag takes, if_pos htop]

theorem Fmt.narrow_of_mag (hm : 1 ≤ f.m) (r : Rnd) {n e : Int} (hn : n ≠ 0) {c : Nat} (hc : |dyadic n e| = f.mag c) (htop : c ≤ f.top) :
    f.narrow r (.num n e) = f.signed (decide (n < 0)) c := by
  obtain ⟨c', takes, rounds⟩ := Fmt.narrow_num hm r hn e
  rw [hc] at takes
  rw [rounds, Fmt.eq_of_takes_mag takes, min_eq_left htop]

/-- The number of a finite code: few bits, and of the size of the code without its sign. -/
theorem Fmt.decode_num {v : Nat} {n e : Int} (h : f.decode v = .num n e) :
    n.natAbs < 2 ^ (f.m + 1) ∧ (n ≠ 0 → f.emin ≤ e ∧ |dyadic n e| = f.mag (v % f.signBit) ∧
      v % f.signBit ≤ f.top ∧ (n < 0 ↔ bitN v (f.eb + f.m) = true)) := by
  have double : 2 ^ (f.m + 1) = 2 * 2 ^ f.m := pow_succ' 2 f.m
  have low := Nat.mod_lt (v % f.signBit) (Nat.two_pow_pos f.m)
  have split := Nat.div_add_mod (v % f.signBit) (2 ^ f.m)
  unfold Fmt.decode at h
  extract_lets neg c E N at h
  change c % 2 ^ f.m < 2 ^ f.m at low
  change 2 ^ f.m * E + c % 2 ^ f.m = c at split
  have bits : N < 2 ^ (f.m + 1) := by
    unfold N
    split_ifs with hE
    · rw [hE, Nat.mul_zero] at split
      omega
    · omega
  have size : dyadic N ((max E 1 : Nat) - (f.bias : Int) - f.m) = f.mag c := by
    unfold Fmt.mag N
    change dyadic ((if E = 0 then c else 2 ^ f.m + c % 2 ^ f.m : Nat) : Int) _ = if E = 0 then _ else dyadic (2 ^ f.m + c % 2 ^ f.m : Nat) (E - _ - _)
    split_ifs with hE
    · rw [hE]; rfl
    · rw [max_eq_left (Nat.one_le_iff_ne_zero.2 hE)]
  split at h
  · split at h <;> cases h
  · next hle =>
    split at h
    · next hc =>
      split at h
      · cases h
      · cases h
        exact ⟨Nat.two_pow_pos _, fun hn => absurd rfl hn⟩
    · obtain ⟨rfl, rfl⟩ := Exact.num.inj h
      refine ⟨by split <;> simpa using bits, fun hn => ⟨?_, ?_, not_lt.1 hle, ?_⟩⟩
      · rw [Fmt.emin]; omega
      · rw [abs_dyadic, ← size]
        congr 1
        split <;> simp
      · split
        · next hneg =>
          rw [if_pos hneg] at hn
          exact iff_of_true (by omega) hneg
        · next hneg => exact iff_of_false (by omega) hneg

end

end Sys2Proof.Machine
end

section
namespace Sys2Proof.Machine

section
variable {f : Fmt}

theorem Fmt.signed_eta {v : Nat} (hv : v < 2 * f.signBit) : f.signed (bitN v (f.eb + f.m)) (v % f.signBit) = v := by
  obtain ⟨neg, c, hc, rfl⟩ := Fmt.exists_signed hv
  rw [Fmt.bitN_signed hc, Fmt.signed_mod hc]

/-- A finite code without a sign has its own size. -/
theorem Fmt.decode_size {c : Nat} (hc : c < 2 ^ (f.eb + f.m)) (htop : c ≤ f.top) : ∃ p q, f.decode c = .num p q ∧ dyadic p q = f.mag c := by
  have plain : f.signed false c = c := Nat.zero_add c
  rcases Nat.eq_zero_or_pos c with rfl | hpos
  · refine ⟨0, 0, ?_, by rw [dyadic_zero, f.mag_zero]⟩
    have zero := Fmt.decode_signed_zero hc false rfl
    rwa [plain] at zero
  · have finite := Fmt.decode_signed_finite hc false hpos htop
    rwa [plain] at finite

end

/-! ### frnd (R135) -/

/-- A mode gives no integer of the opposite sign. -/
theorem roundInt_sign (r : Rnd) (n e : Int) : (0 < n → 0 ≤ roundInt r n e) ∧ (n < 0 → roundInt r n e ≤ 0) := by
  unfold roundInt
  split
  · have pos : (0 : Int) ≤ (2 ^ e.toNat : Nat) := Int.natCast_nonneg _
    exact ⟨fun h => mul_nonneg h.le pos, fun h => mul_nonpos_of_nonpos_of_nonneg h.le pos⟩
  · extract_lets k neg a b q
    constructor
    · intro h
      rw [if_neg (by simp [neg, h.le])]
      exact Int.natCast_nonneg q
    · intro h
      rw [if_pos (by simp [neg, h])]
      exact neg_nonpos.2 (Int.natCast_nonneg q)

theorem roundInt_of_nonneg (r : Rnd) (n : Int) {e : Int} (he : 0 ≤ e) : dyadic (roundInt r n e) 0 = dyadic n e := by
  obtain ⟨k, rfl⟩ := Int.eq_ofNat_of_zero_le he
  rw [roundInt, if_pos he, Int.toNat_natCast, dyadic_natural, dyadic, zpow_zero, mul_one]

/-- Below the point at least one bit is dropped, and no more than one unit added. -/
theorem natAbs_roundInt_le (r : Rnd) (n : Int) {e : Int} (he : e < 0) : (roundInt r n e).natAbs ≤ n.natAbs / 2 + 1 := by
  rw [roundInt, if_neg (by omega)]
  extract_lets k neg a b q
  have two : 2 ≤ b := (Nat.pow_le_pow_right Nat.two_pos (by omega : 1 ≤ k) : 2 ^ 1 ≤ 2 ^ k)
  have quotient : a / b ≤ a / 2 := Nat.div_le_div_left two Nat.two_pos
  have size : q ≤ a / b + 1 := by unfold q; split <;> omega
  have abs : (if neg = true then -(q : Int) else q).natAbs = q := by split <;> simp only [Int.natAbs_neg, Int.natAbs_natCast]
  rw [abs]
  change q ≤ a / 2 + 1
  omega

theorem fp32_mag_top : (2 : ℚ) ^ 24 ≤ fp32.mag fp32.top := by
  norm_num [fp32, Fmt.mag, dyadic]

section
variable (r : Rnd) {a : Nat} {n e : Int} (ha : a < 2 ^ 32) (h : fp32.decode a = .num n e) (hn : n ≠ 0)
include h hn

theorem frndN_num : frndN r a = if roundInt r n e = 0 then (if n < 0 then fp32.signBit else 0) else fp32.round r (.num (roundInt r n e) 0) := by
  unfold frndN
  rw [h]
  exact if_neg hn

/-- What frnd writes: the number's sign, and the size of its integer (R135). -/
theorem frndN_code : ∃ c, c ≤ fp32.top ∧ fp32.mag c = |dyadic (roundInt r n e) 0| ∧ frndN r a = fp32.signed (decide (n < 0)) c := by
  obtain ⟨bits, rest⟩ := Fmt.decode_num h
  obtain ⟨-, own, finite, -⟩ := rest hn
  obtain ⟨keepsPos, keepsNeg⟩ := roundInt_sign r n e
  rw [frndN_num r h hn]
  by_cases hR : roundInt r n e = 0
  · refine ⟨0, Nat.zero_le _, by rw [hR, dyadic_zero, abs_zero, fp32.mag_zero], ?_⟩
    rw [if_pos hR, Fmt.signed]
    simp only [decide_eq_true_eq]
    rfl
  · have sign : decide (roundInt r n e < 0) = decide (n < 0) := decide_eq_decide.2 (by omega)
    obtain ⟨c, htop, size⟩ : ∃ c, c ≤ fp32.top ∧ |dyadic (roundInt r n e) 0| = fp32.mag c := by
      rcases le_or_gt 0 e with he | he
      · exact ⟨_, finite, by rw [roundInt_of_nonneg r n he]; exact own⟩
      · have small := natAbs_roundInt_le r n he
        have few : (roundInt r n e).natAbs < 2 ^ 24 := by
          have : n.natAbs < 2 ^ 24 := bits
          omega
        obtain ⟨c, hc⟩ := Fmt.exists_mag (f := fp32) (E := 0) few (by decide)
        refine ⟨c, fp32.mag_strictMono.le_iff_le.1 (le_trans ?_ fp32_mag_top), by rw [abs_dyadic, hc]⟩
        rw [hc, dyadic, zpow_zero, mul_one]
        exact_mod_cast few.le
    refine ⟨c, htop, size.symm, ?_⟩
    rw [if_neg hR, Fmt.round_of_mag (by decide) rfl r hR size htop, sign]

include ha

/-- An integer stays as it is. -/
theorem frndN_large (large : 2 ^ 23 ≤ |dyadic n e|) : frndN r a = a := by
  obtain ⟨bits, rest⟩ := Fmt.decode_num h
  obtain ⟨-, size, finite, neg⟩ := rest hn
  have he : 0 ≤ e := by
    by_contra he
    rw [abs_dyadic, dyadic] at large
    have few : (n.natAbs : ℚ) < 2 ^ 24 := by exact_mod_cast (bits : n.natAbs < 2 ^ 24)
    have half : (2 : ℚ) ^ e ≤ 2 ^ (-1 : Int) := zpow_le_zpow_right₀ one_le_two (by omega)
    have := two_zpow_pos e
    rw [zpow_neg_one] at half
    rw [Int.cast_natCast] at large
    nlinarith
  obtain ⟨c, -, hc, code⟩ := frndN_code r h hn
  rw [roundInt_of_nonneg r n he, size] at hc
  have hneg : decide (n < 0) = bitN a (fp32.eb + fp32.m) := by rw [Bool.eq_iff_iff, decide_eq_true_eq]; exact neg
  rw [code, fp32.mag_strictMono.injective hc, hneg]
  exact Fmt.signed_eta (f := fp32) ha

end

/-- The integer that frnd writes, and its sign. -/
theorem frndN_integer (r : Rnd) {a : Nat} {n e : Int} (h : fp32.decode a = .num n e) (hn : n ≠ 0) :
    (frndN r a < 2 ^ 31 ↔ 0 < n) ∧ ∃ p q, fp32.decode (frndN r a % 2 ^ 31) = .num p q ∧ dyadic p q = |(roundInt r n e : ℚ)| := by
  obtain ⟨c, htop, hc, code⟩ := frndN_code r h hn
  have bound : c < 2 ^ 31 := htop.trans_lt (by decide)
  rw [dyadic, zpow_zero, mul_one] at hc
  have low : frndN r a % 2 ^ 31 = c := by
    rw [code]
    exact Fmt.signed_mod (f := fp32) bound _
  refine ⟨?_, ?_⟩
  · have weight : frndN r a = (if decide (n < 0) = true then 2 ^ 31 else 0) + c := code
    rw [weight]
    simp only [decide_eq_true_eq]
    split <;> omega
  · rw [low, ← hc]
    exact Fmt.decode_size (f := fp32) bound htop

end Sys2Proof.Machine
end

/-!
Float arithmetic (R132 to R137): each form is the plain pattern, and its value the exact result rounded once, a selection, or the function of
its name.
-/
section
namespace Sys2Proof.Machine

/-! ### The forms (R132 to R137) -/

/-- A float form of `k` sources writes what it makes of them. -/
theorem Computes.of_floatForm {ins : Instr} {h : Hdr} {x : VOps} (k : Nat) (f : Nat → Nat → Nat → Nat)
    (he : ∀ s, exec ins s = s.floatForm h x k fun v => f v.a v.b v.c) :
    Computes ins h x.d 1 (flds x 1 (if 2 ≤ k then 1 else 0) (if 3 ≤ k then 1 else 0)) x.imm fun s i th =>
      f (i.arg s x.imm x.a 1 th) (i.arg s x.imm x.b (if 2 ≤ k then 1 else 0) th) (i.arg s x.imm x.c (if 3 ≤ k then 1 else 0) th) :=
  Computes.of_plain (Wid.same .f32 k) (fun v => f v.a v.b v.c) he fun _ _ _ => rfl

/-- Which code fmin and fmax select (R134). -/
theorem Fmt.minMax_eq (f : Fmt) (mx : Bool) (p q : Nat) : f.minMax mx p q =
    match f.decode p, f.decode q with
    | .nan, .nan => f.nan
    | .nan, _ => q
    | _, .nan => p
    | u, v =>
      match u.cmp v with
      | some .lt => if mx then q else p
      | some .gt => if mx then p else q
      | _ => if u.isNeg = v.isNeg then p else if u.isNeg = mx then q else p := by
  unfold Fmt.minMax
  cases f.decode p <;> cases f.decode q <;> rfl

/-- The class of a code by its fields (R136). -/
theorem fclassN_eq (a : Nat) : fclassN a =
    let e := a / 2 ^ 23 % 256
    let f := a % 2 ^ 23
    let sign := a.testBit 31
    2 ^ (if e = 255 ∧ f = 0 then (if sign then 0 else 7)
      else if e = 255 then (if f < 2 ^ 22 then 8 else 9)
      else if e = 0 ∧ f = 0 then (if sign then 3 else 4)
      else if e = 0 then (if sign then 2 else 5)
      else if sign then 1 else 6) := by
  have field : bitsN a 23 8 = a / 2 ^ 23 % 256 := rfl
  have fraction : bitsN a 0 23 = a % 2 ^ 23 := by rw [bitsN, pow_zero, Nat.div_one]
  have quiet : bitN a 22 = true ↔ ¬a % 2 ^ 23 < 2 ^ 22 := by
    rw [bitN, decide_eq_true_eq]
    omega
  simp only [fclassN, field, fraction, quiet, bitN_eq_testBit a 31, ne_eq, ite_not]
  generalize a / 2 ^ 23 % 256 = e
  generalize a % 2 ^ 23 = f
  by_cases he : e = 255
  · by_cases hf : f = 0 <;> simp only [he, hf, true_and, if_true, if_false]
  · by_cases he' : e = 0
    · by_cases hf : f = 0 <;> simp only [he', hf, true_and, false_and, if_true, if_false, OfNat.zero_ne_ofNat]
    · simp only [he, he', false_and, if_false]

theorem fscaleN_eq (r : Rnd) (a b : Nat) : fscaleN r a (signedN 32 b) =
    match fp32.decode a with
    | .nan => 0x7FC00000
    | .num n e => if n = 0 then a else fp32.round r (.num n (e + (BitVec.ofNat 32 b).toInt))
    | _ => a := by
  rw [fscaleN, signedN_eq_toInt]
  rfl

/-- The integer toward zero is the greatest no larger in size. -/
theorem abs_of_roundsTo_rz {z : ℚ} {m : Int} (h : roundsTo .rz z m) : |(m : ℚ)| ≤ |z| ∧ |z| < |(m : ℚ)| + 1 := by
  obtain rfl : m = if 0 ≤ z then ⌊z⌋ else ⌈z⌉ := h
  split
  · next hz =>
    have floor : (0 : ℚ) ≤ ⌊z⌋ := Int.cast_nonneg (Int.floor_nonneg.2 hz)
    rw [abs_of_nonneg hz, abs_of_nonneg floor]
    exact ⟨Int.floor_le z, Int.lt_floor_add_one z⟩
  · next hz =>
    have ceil : ((⌈z⌉ : Int) : ℚ) ≤ 0 := Int.cast_nonpos.2 (Int.ceil_nonpos.2 (not_le.1 hz).le)
    have below := Int.le_ceil z
    have above := Int.ceil_lt_add_one z
    rw [abs_of_neg (not_le.1 hz), abs_of_nonpos ceil]
    constructor <;> linarith

/-- Settles O5: every form is `State.plain`; a quotient or a root has its place among the rounded numbers, since rounding keeps their order and
makes one code of all numbers between two steps of a fine grid. -/
theorem floatComputes : Obligations.FloatComputes := by
  refine ⟨fun h x t r => ?forms, fun h x r => ?functions, fun r => ?values⟩
  case forms =>
    intro a b c val selects
    have picks (mx : Bool) (f : Machine.Fmt) (p q : Nat) : f.minMax mx p q = selects mx f p q := f.minMax_eq mx p q
    refine ⟨Computes.of_floatForm 2 (fun a b _ => fp32.addN r a b) fun _ => rfl,
      Computes.of_floatForm 2 (fun a b _ => fp32.round r ((fp32.decode a).add (fp32.decode b).neg)) fun _ => rfl,
      Computes.of_floatForm 2 (fun a b _ => fp32.mulN r a b) fun _ => rfl,
      Computes.of_floatForm 3 (fun a b c => fp32.fmaN r a b c) fun _ => rfl, ?fmin, ?fmax,
      Computes.of_floatForm 2 (fun a b _ => mapEls t fun k => (fmtOf t).addN r (elem t a k) (elem t b k)) fun _ => rfl,
      Computes.of_floatForm 2 (fun a b _ => mapEls t fun k => (fmtOf t).mulN r (elem t a k) (elem t b k)) fun _ => rfl,
      Computes.of_floatForm 3 (fun a b c => mapEls t fun k => (fmtOf t).fmaN r (elem t a k) (elem t b k) (elem t c k)) fun _ => rfl,
      ?hmin, ?hmax⟩
    case fmin => exact (Computes.of_floatForm 2 (fun a b _ => fp32.minMax false a b) fun _ => rfl).congr fun s i th => picks ..
    case fmax => exact (Computes.of_floatForm 2 (fun a b _ => fp32.minMax true a b) fun _ => rfl).congr fun s i th => picks ..
    case hmin =>
      exact (Computes.of_floatForm 2 (fun a b _ => mapEls t fun k => (fmtOf t).minMax false (elem t a k) (elem t b k)) fun _ => rfl).congr
        fun s i th => congrArg (mapEls t) (funext fun k => picks ..)
    case hmax =>
      exact (Computes.of_floatForm 2 (fun a b _ => mapEls t fun k => (fmtOf t).minMax true (elem t a k) (elem t b k)) fun _ => rfl).congr
        fun s i th => congrArg (mapEls t) (funext fun k => picks ..)
  case functions =>
    intro a b
    exact ⟨Computes.of_floatForm 2 (fun a b _ => fdivN r (fp32.decode a) (fp32.decode b)) fun _ => rfl,
      Computes.of_floatForm 1 (fun a _ _ => frcpN r (fp32.decode a)) fun _ => rfl,
      Computes.of_floatForm 1 (fun a _ _ => fsqrtN r (fp32.decode a)) fun _ => rfl,
      Computes.of_floatForm 1 (fun a _ _ => frsqN r (fp32.decode a)) fun _ => rfl,
      Computes.of_floatForm 1 (fun a _ _ => fexp2N r (fp32.decode a)) fun _ => rfl,
      Computes.of_floatForm 1 (fun a _ _ => flog2N r (fp32.decode a)) fun _ => rfl,
      Computes.of_floatForm 1 (fun a _ _ => frndN r a) fun _ => rfl,
      ⟨_, Computes.of_floatForm 1 (fun a _ _ => fclassN a) fun _ => rfl, fun s i th => fclassN_eq _⟩,
      ⟨_, Computes.of_floatForm 2 (fun a b _ => fscaleN r a (signedN 32 b)) fun _ => rfl, fun s i th => fscaleN_eq r _ _⟩⟩
  case values =>
    intro val key inf zero finite rounds
    have once {c : Nat} {below above : ℚ → Prop} (h : RoundsOnce r c below above) : rounds c below above := h
    refine ⟨?nan, ?infinities, ?zeros, ?quotients, rfl, ?rcpInf, ?rcpZero, ?rcp, rfl, rfl, rfl, rfl, rfl, ?rsqZero, rfl, rfl, ?roots,
      rfl, rfl, rfl, ?expZero, rfl, rfl, rfl, ?rndNan, ?rndSpecial, ?rnd⟩
    case nan => exact fun y => ⟨rfl, by cases y <;> rfl⟩
    case infinities =>
      exact fun s s' y => ⟨rfl, fun hy => ⟨(fdivN_inf r hy s).trans (fp32_infinity _), place_fdivN_by_inf r hy s⟩⟩
    case zeros =>
      refine fun y z hz => ⟨fun hy => ?_, fun hy finite => ?_⟩
      · rw [fdivN_zero r (Exact.finite_of_isZero hy) hz, if_pos hy]
        rfl
      · rw [fdivN_zero r finite hz, if_neg (by simp [hy]), fp32_infinity]
    case quotients =>
      exact fun a b n e m k _ _ hn hm => ⟨testBit_fdivN r hn hm e k, once (placedAt_fdivN r hn hm e k).roundsOnce⟩
    case rcpInf => exact fun s => rfl
    case rcpZero =>
      intro z hz
      have one : ∀ s, Exact.num 1 0 ≠ .nan ∧ Exact.num 1 0 ≠ .inf s := fun _ => ⟨nofun, nofun⟩
      have finite := fun s => (Exact.finite_of_isZero hz s).2
      rw [frcpN_eq r finite, fdivN_zero r one hz, if_neg (by decide), fp32_infinity]
      simp [Exact.isNeg, inf]
    case rcp =>
      intro b m k _ hm
      have one : dyadic 1 0 = 1 := by rw [dyadic, zpow_zero, mul_one, Int.cast_one]
      have quotient := (placedAt_fdivN r one_ne_zero hm 0 k).roundsOnce
      rw [one, ← frcpN_eq r (x := .num m k) fun _ => nofun] at quotient
      exact once quotient
    case rsqZero =>
      intro z hz
      rcases Exact.isZero_cases hz with rfl | ⟨e, rfl⟩
      · exact fp32_infinity true
      · exact fp32_infinity false
    case roots =>
      intro a n e ha hn
      obtain ⟨bits, -⟩ := Fmt.decode_num ha
      refine ⟨fun h => ?_, fun h => ?_, fun m hm => fexp2N_integer r hm, fun m lo hi hm hm' => fexp2N_between r lo hi hm hm',
        fun m h hm => flog2N_power r h hm, fun m lo hi => flog2N_between r lo hi⟩
      · simp only [fsqrtN, frsqN, flog2N, hn, h, if_true, if_false]
        exact ⟨rfl, rfl, rfl⟩
      · have small : n.natAbs < 2 ^ 24 := bits
        exact ⟨once (fsqrtN_roundsOnce r h e), once (frsqN_roundsOnce r h (by omega) e)⟩
    case expZero =>
      intro z hz
      refine ⟨fexp2N_zero r hz, ?_⟩
      rcases Exact.isZero_cases hz with rfl | ⟨e, rfl⟩
      · exact fp32_infinity true
      · exact fp32_infinity true
    case rndNan => exact fun a ha => by rw [frndN, ha]; rfl
    case rndSpecial =>
      rintro a (⟨s, ha⟩ | ha)
      · rw [frndN, ha]
      · rw [frndN]
        rcases Exact.isZero_cases ha with ha | ⟨e, ha⟩ <;> rw [ha]
        exact if_pos rfl
    case rnd =>
      intro a n e ha h hn
      obtain ⟨sign, p, q, hp, size⟩ := frndN_integer r h hn
      obtain ⟨keepsPos, keepsNeg⟩ := roundInt_sign r n e
      have mode := roundsTo_roundInt r n e
      refine ⟨frndN_large r ha h hn, sign, roundInt r n e, ⟨p, q, hp, size.trans Int.cast_abs.symm⟩, keepsPos, keepsNeg, ?rz, ?ru, ?rd, ?rne⟩
      case rz =>
        rintro rfl
        exact abs_of_roundsTo_rz mode
      case ru => rintro rfl; exact mode
      case rd => rintro rfl; exact mode
      case rne => rintro rfl; exact mode

end Sys2Proof.Machine
end

/-!
Packed elements (R114): a register built of its elements, and one read back.
-/
section
namespace Sys2Proof.Machine

theorem packEls_succ (w n : Nat) (f : Nat → Nat) : packEls w (n + 1) f = packEls w n f + lowN w (f n) * 2 ^ (w * n) := by
  simp only [packEls, List.range_succ, List.foldl_append, List.foldl_cons, List.foldl_nil]

theorem packEls_lt (w n : Nat) (f : Nat → Nat) : packEls w n f < 2 ^ (w * n) := by
  induction n with
  | zero => exact Nat.one_pos
  | succ n ih =>
    have low := lowN_lt w (f n)
    rw [packEls_succ, Nat.mul_succ, pow_add]
    calc packEls w n f + lowN w (f n) * 2 ^ (w * n) < 2 ^ (w * n) + lowN w (f n) * 2 ^ (w * n) := Nat.add_lt_add_right ih _
      _ = 2 ^ (w * n) * (lowN w (f n) + 1) := by ring
      _ ≤ 2 ^ (w * n) * 2 ^ w := Nat.mul_le_mul_left _ low

/-- An element read back. -/
theorem bitsN_packEls {w n k : Nat} (f : Nat → Nat) (hk : k < n) : bitsN (packEls w n f) (w * k) w = lowN w (f k) := by
  induction n with
  | zero => exact absurd hk (Nat.not_lt_zero k)
  | succ n ih =>
    have pos := Nat.two_pow_pos (w * k)
    rw [packEls_succ]
    rcases Nat.lt_succ_iff_lt_or_eq.1 hk with hlt | rfl
    · -- the element above leaves the lower ones as they are
      obtain ⟨j, rfl⟩ := Nat.exists_eq_add_of_lt hlt
      have above : lowN w (f (k + j + 1)) * 2 ^ (w * (k + j + 1)) = 2 ^ (w * k) * (2 ^ w * (lowN w (f (k + j + 1)) * 2 ^ (w * j))) := by
        rw [Nat.mul_add, Nat.mul_add, pow_add, pow_add, Nat.mul_one]
        ring
      rw [above, bitsN, Nat.add_mul_div_left _ _ pos, Nat.add_mul_mod_self_left]
      exact ih hlt
    · rw [bitsN, Nat.add_mul_div_right _ _ pos, Nat.div_eq_of_lt (packEls_lt w k f), Nat.zero_add]
      exact Nat.mod_mod _ _

theorem packEls_congr {w n : Nat} {f g : Nat → Nat} (h : ∀ k < n, lowN w (f k) = lowN w (g k)) : packEls w n f = packEls w n g := by
  induction n with
  | zero => rfl
  | succ n ih => rw [packEls_succ, packEls_succ, ih fun k hk => h k (Nat.lt_succ_of_lt hk), h n (Nat.lt_succ_self n)]

theorem lowN_lowN (w v : Nat) : lowN w (lowN w v) = lowN w v := Nat.mod_mod _ _

theorem elem_setElem (t : Ty) (v i x : Nat) {k : Nat} (hk : k < elCount t) :
    elem t (setElem t v i x) k = lowN (elBits t) (if k = i then x else elem t v k) := bitsN_packEls _ hk

/-- Two elements replaced, one after the other. -/
theorem setElem_setElem (t : Ty) (v i x j y : Nat) :
    setElem t (setElem t v i x) j y = mapEls t fun k => if k = j then y else if k = i then x else elem t v k := by
  refine packEls_congr fun k hk => ?_
  split
  · rfl
  · rw [elem_setElem t v i x hk, lowN_lowN]

end Sys2Proof.Machine
end

/-!
What conversions compute (R117, R142 to R145): integers clamped to their range, and widenings, which keep every value.
-/
section
namespace Sys2Proof.Machine

/-! ### Integers of a width (R82, R114, R117) -/

/-- The least number of `w` bits. -/
def intLo (signed : Bool) (w : Nat) : Int := if signed then -2 ^ (w - 1) else 0

/-- The greatest number of `w` bits. -/
def intHi (signed : Bool) (w : Nat) : Int := if signed then 2 ^ (w - 1) - 1 else 2 ^ w - 1

theorem rangeOf_eq (signed : Bool) (w : Nat) : rangeOf signed w = (intLo signed w, intHi signed w) := by
  cases signed <;> simp [rangeOf, intLo, intHi]

/-- A pattern of `w` bits and the number it stands for. -/
def Becomes (signed : Bool) (w v : Nat) (m : Int) : Prop := v < 2 ^ w ∧ m = if signed then (BitVec.ofNat w v).toInt else (v : Int)

section
variable {signed : Bool} {w : Nat}

theorem intLo_nonpos_le_intHi : intLo signed w ≤ 0 ∧ 0 ≤ intHi signed w := by
  have pos : (0 : Int) < 2 ^ (w - 1) := by positivity
  have pos' : (0 : Int) < 2 ^ w := by positivity
  cases signed <;> simp only [intLo, intHi, Bool.false_eq_true, if_true, if_false] <;> omega

/-- The number of a pattern is in range. -/
theorem Becomes.mem_range {v : Nat} {m : Int} (h : Becomes signed w v m) : intLo signed w ≤ m ∧ m ≤ intHi signed w := by
  obtain ⟨hv, rfl⟩ := h
  cases signed with
  | true =>
    rw [if_pos rfl]
    have lo := BitVec.le_toInt (x := BitVec.ofNat w v)
    have hi := BitVec.toInt_lt (x := BitVec.ofNat w v)
    exact ⟨lo, Int.le_sub_one_of_lt hi⟩
  | false =>
    rw [if_neg Bool.false_ne_true]
    have : (v : Int) < (2 ^ w : Nat) := Int.ofNat_lt.2 hv
    push_cast at this
    exact ⟨Int.natCast_nonneg v, Int.le_sub_one_of_lt this⟩

variable (hw : 0 < w)
include hw

/-- A number in range comes back from its pattern. -/
theorem becomes_wrapN {z : Int} (hlo : intLo signed w ≤ z) (hhi : z ≤ intHi signed w) : Becomes signed w (wrapN w z) z := by
  refine ⟨wrapN_lt w z, ?_⟩
  have half : (2 : Int) ^ w = 2 * 2 ^ (w - 1) := by rw [← pow_succ', Nat.sub_add_cancel hw]
  cases signed with
  | true =>
    rw [if_pos rfl, wrapN_eq_toNat, BitVec.ofNat_toNat, BitVec.setWidth_eq, BitVec.toInt_ofInt]
    simp only [intLo, intHi, if_true] at hlo hhi
    refine (Int.bmod_eq_of_le ?_ ?_).symm <;> push_cast <;> omega
  | false =>
    simp only [intLo, intHi, Bool.false_eq_true, if_false] at hlo hhi
    rw [if_neg Bool.false_ne_true, wrapN, Int.toNat_of_nonneg (Int.emod_nonneg _ (by positivity))]
    refine (Int.emod_eq_of_lt hlo ?_).symm
    push_cast
    omega

/-- A value becomes an integer by its mode, clamped to the range; NaN becomes 0 (R117). -/
theorem becomes_toRange (r : Rnd) {f : Exact → Nat} (hf : ∀ x, f x = wrapN w (toRange r (rangeOf signed w).1 (rangeOf signed w).2 x)) :
    Becomes signed w (f .nan) 0 ∧ Becomes signed w (f .negZero) 0 ∧ Becomes signed w (f (.inf false)) (intHi signed w) ∧
      Becomes signed w (f (.inf true)) (intLo signed w) ∧
      ∀ n e, ∃ m, roundsTo r (dyadic n e) m ∧ Becomes signed w (f (.num n e)) (max (intLo signed w) (min (intHi signed w) m)) := by
  obtain ⟨lo, hi⟩ := intLo_nonpos_le_intHi (signed := signed) (w := w)
  simp only [hf, rangeOf_eq]
  exact ⟨becomes_wrapN hw lo hi, becomes_wrapN hw lo hi, becomes_wrapN hw (lo.trans hi) le_rfl, becomes_wrapN hw le_rfl (lo.trans hi),
    fun n e => ⟨_, roundsTo_roundInt r n e, becomes_wrapN hw (le_max_left ..) (max_le (lo.trans hi) (min_le_left ..))⟩⟩

end

theorem toScalar_isInt {t : Ty} (ht : t.isInt = true) (r : Rnd) (x : Exact) :
    toScalar t r x = wrapN (tyBits t) (toRange r (rangeOf (tySigned t) (tyBits t)).1 (rangeOf (tySigned t) (tyBits t)).2 x) := by
  cases t with
  | f32 | s24 => exact absurd ht (by decide)
  | _ => rfl

theorem toElem_isInteger {t : Ty} (ht : t.isInteger = true) (r : Rnd) (x : Exact) :
    toElem t r x = wrapN (elBits t) (toRange r (rangeOf (tySigned t) (elBits t)).1 (rangeOf (tySigned t) (elBits t)).2 x) := if_pos ht

theorem elBits_pos (t : Ty) : 0 < elBits t := by cases t <;> exact Nat.succ_pos _

theorem becomes_elNum (t : Ty) (v k : Nat) : Becomes (tySigned t) (elBits t) (elem t v k) (elNum t v k) := by
  refine ⟨bitsN_lt .., ?_⟩
  rw [elNum, signedN_eq_toInt]

theorem elVal_isInteger {t : Ty} (ht : t.isInteger = true) (v k : Nat) : elVal t v k = .num (elNum t v k) 0 := if_pos ht

/-- A wider integer element keeps the number of a narrower one. -/
theorem elNum_toElem {t u : Ty} (hu : u.isInteger = true) (hlo : intLo (tySigned u) (elBits u) ≤ intLo (tySigned t) (elBits t))
    (hhi : intHi (tySigned t) (elBits t) ≤ intHi (tySigned u) (elBits u)) (v k : Nat) :
    elNum u (toElem u .rne (.num (elNum t v k) 0)) 0 = elNum t v k := by
  obtain ⟨lo, hi⟩ := (becomes_elNum t v k).mem_range
  generalize elNum t v k = z at *
  have stays : toRange .rne (intLo (tySigned u) (elBits u)) (intHi (tySigned u) (elBits u)) (.num z 0) = z := by
    have exact_ : roundInt .rne z 0 = z := (if_pos le_rfl).trans (mul_one z)
    rw [toRange, exact_]
    omega
  have back := becomes_wrapN (elBits_pos u) (hlo.trans lo) (hi.trans hhi)
  rw [toElem_isInteger hu, rangeOf_eq, stays]
  obtain ⟨small, value⟩ := back
  have low : elem u (wrapN (elBits u) z) 0 = wrapN (elBits u) z := by
    rw [elem, bitsN, Nat.mul_zero, pow_zero, Nat.div_one, Nat.mod_eq_of_lt small]
  rw [elNum, low, signedN_eq_toInt]
  exact value.symm

end Sys2Proof.Machine
end

section
namespace Sys2Proof.Machine

/-! ### Floats into wider ones (R145) -/

/-- A conversion writes what a format holds as its code. -/
structure Fmt.Holds (g : Fmt) (w : Exact → Nat) : Prop where
  nan : w .nan = g.nan
  inf : g.inf = true → ∀ neg, w (.inf neg) = g.signed neg (g.top + 1)
  negZero : w .negZero = g.signed true 0
  zero : ∀ e, w (.num 0 e) = g.signed false 0
  num : ∀ n e c, n ≠ 0 → |dyadic n e| = g.mag c → c ≤ g.top → w (.num n e) = g.signed (decide (n < 0)) c

theorem Fmt.holds_round {g : Fmt} (hm : 1 ≤ g.m) (hinf : g.inf = true) : g.Holds (g.round .rne) where
  nan := rfl
  inf _ neg := by
    change g.signed neg (if g.inf then g.top + 1 else g.top) = _
    rw [if_pos hinf]
  negZero := rfl
  zero _ := rfl
  num n e c hn hc htop := Fmt.round_of_mag hm hinf .rne hn hc htop

theorem Fmt.holds_narrow {g : Fmt} (hm : 1 ≤ g.m) : g.Holds (g.narrow .rne) where
  nan := rfl
  inf hinf neg := by
    change g.signed neg (if g.inf then g.top + 1 else g.top) = _
    rw [if_pos hinf]
  negZero := rfl
  zero _ := rfl
  num n e c hn hc htop := Fmt.narrow_of_mag hm .rne hn hc htop

theorem holds_wideElem : ∀ t ∈ [Ty.f16x2, .bf16x2, .f32, .e4m3x4], (fmtOf t).Holds (wideElem t) := by
  simp only [List.forall_mem_cons]
  exact ⟨Fmt.holds_round (by decide) rfl, Fmt.holds_round (by decide) rfl, Fmt.holds_round (by decide) rfl, Fmt.holds_narrow (by decide),
    List.forall_mem_nil _⟩

/-- A format whose values another holds: no more bits, no finer and no larger. -/
structure Fmt.Within (f g : Fmt) : Prop where
  bits : f.m ≤ g.m
  emin : g.emin ≤ f.emin
  top : f.mag f.top ≤ g.mag g.top
  inf : f.inf = true → g.inf = true
  room : g.top + 1 < 2 ^ (g.eb + g.m)

section
variable {f g : Fmt} (hfg : f.Within g) {w : Exact → Nat} (hw : g.Holds w) {v : Nat}
include hfg hw

/-- The code of a held value is a code of the format, and of no more bits. -/
theorem Fmt.Within.keeps {x : Exact} (hx : f.decode v = x) :
    (x = .nan → w x = g.nan) ∧ (∀ neg, x = .inf neg → w x < 2 * g.signBit ∧ g.decode (w x) = .inf neg) ∧
      (x = .negZero → w x < 2 * g.signBit ∧ g.decode (w x) = .negZero) ∧
      ∀ n e, x = .num n e → w x < 2 * g.signBit ∧ ∃ q k, g.decode (w x) = .num q k ∧ dyadic q k = dyadic n e := by
  have room := hfg.room
  have small {neg : Bool} {c : Nat} (hc : c < 2 ^ (g.eb + g.m)) : g.signed neg c < 2 * g.signBit := by
    rw [Fmt.signed, Fmt.signBit]
    split <;> omega
  have pos := Nat.two_pow_pos (g.eb + g.m)
  refine ⟨fun h => h ▸ hw.nan, fun neg h => ?_, fun h => ?_, fun n e h => ?_⟩
  · have hinf : f.inf = true := by
      rw [h, Fmt.decode] at hx
      split at hx
      · split at hx
        · next hc => exact (Bool.and_eq_true_iff.1 hc).1
        · cases hx
      · split at hx
        · split at hx <;> cases hx
        · cases hx
    rw [h, hw.inf (hfg.inf hinf), Fmt.decode_signed_special room neg (Nat.lt_succ_self _), if_pos ⟨hfg.inf hinf, rfl⟩]
    exact ⟨small room, rfl⟩
  · rw [h, hw.negZero, Fmt.decode_signed_zero pos true rfl]
    exact ⟨small pos, rfl⟩
  · by_cases hn : n = 0
    · subst hn
      rw [h, hw.zero, Fmt.decode_signed_zero pos false rfl]
      exact ⟨small pos, 0, 0, rfl, by rw [dyadic_zero, dyadic_zero]⟩
    · rw [h] at hx ⊢
      obtain ⟨few, rest⟩ := Fmt.decode_num hx
      obtain ⟨coarse, size, finite, -⟩ := rest hn
      obtain ⟨c, hc⟩ := Fmt.exists_mag (f := g) (N := n.natAbs) (E := e)
        (few.trans_le (Nat.pow_le_pow_right Nat.two_pos (Nat.succ_le_succ hfg.bits))) (hfg.emin.trans coarse)
      rw [← abs_dyadic] at hc
      have htop : c ≤ g.top := by
        rw [← g.mag_strictMono.le_iff_le, hc, size]
        exact (f.mag_strictMono.monotone finite).trans hfg.top
      have hpos : 0 < c := by
        rw [← g.mag_strictMono.lt_iff_lt, g.mag_zero, hc]
        exact abs_pos.2 (dyadic_ne_zero hn e)
      have hcs : c < 2 ^ (g.eb + g.m) := by omega
      obtain ⟨q, k, hq, value⟩ := Fmt.decode_signed_finite hcs (decide (n < 0)) hpos htop
      rw [hw.num n e c hn hc.symm htop]
      refine ⟨small hcs, q, k, hq, ?_⟩
      rw [value, hc]
      have sign := dyadic_neg_iff n e
      simp only [decide_eq_true_eq, ← sign]
      split
      · next hneg => rw [abs_of_neg hneg, neg_neg]
      · next hneg => exact abs_of_nonneg (not_lt.1 hneg)

end

/-- An element of a type keeps its value, its sign and its infinity in a wider one. -/
def Widens (p : Ty × Ty) : Prop :=
  ∀ v j,
    let x := elVal p.1 v j
    let y := wideElem p.2 x
    (x = .nan → y = (fmtOf p.2).nan) ∧ (∀ neg, x = .inf neg → elVal p.2 y 0 = .inf neg) ∧ (x = .negZero → elVal p.2 y 0 = .negZero) ∧
      ∀ n e, x = .num n e → ∃ q k, elVal p.2 y 0 = .num q k ∧ dyadic q k = dyadic n e

/-- The pairs of float types that cvtw widens between (R145). -/
def floatWidenings : List (Ty × Ty) :=
  [(.e4m3x4, .f16x2), (.e4m3x4, .bf16x2), (.e4m3x4, .f32), (.e5m2x4, .f16x2), (.e5m2x4, .bf16x2), (.e5m2x4, .f32),
    (.e2m1x8, .e4m3x4), (.e2m1x8, .f16x2), (.e2m1x8, .bf16x2), (.e2m1x8, .f32), (.f16x2, .f32), (.bf16x2, .f32)]

/-- The pairs of integer types that cvtw widens between (R145). -/
def intWidenings : List (Ty × Ty) :=
  [(.n8, .b4), (.n8, .h2), (.n8, .w32), (.b4, .h2), (.b4, .w32), (.ub4, .uh2), (.ub4, .uw32), (.h2, .w32), (.uh2, .uw32)]

/-- The largest sizes of the formats (R112). -/
theorem mag_tops : e2m1.mag e2m1.top = 6 ∧ e4m3.mag e4m3.top = 448 ∧ e5m2.mag e5m2.top = 57344 ∧ fp16.mag fp16.top = 65504 ∧
    bf16.mag bf16.top = 255 * 2 ^ 120 ∧ fp32.mag fp32.top = 16777215 * 2 ^ 104 := by
  norm_num [e2m1, e4m3, e5m2, fp16, bf16, fp32, Fmt.mag, dyadic]

theorem within_of_floatWidenings : ∀ p ∈ floatWidenings, (fmtOf p.1).Within (fmtOf p.2) := by
  obtain ⟨h1, h2, h3, h4, h5, h6⟩ := mag_tops
  have tops : ∀ p ∈ floatWidenings, (fmtOf p.1).mag (fmtOf p.1).top ≤ (fmtOf p.2).mag (fmtOf p.2).top := by
    simp only [floatWidenings, List.forall_mem_cons, fmtOf, h1, h2, h3, h4, h5, h6]
    norm_num
  have fields : ∀ p ∈ floatWidenings, (fmtOf p.1).m ≤ (fmtOf p.2).m ∧ (fmtOf p.2).emin ≤ (fmtOf p.1).emin ∧
      ((fmtOf p.1).inf = true → (fmtOf p.2).inf = true) ∧ (fmtOf p.2).top + 1 < 2 ^ ((fmtOf p.2).eb + (fmtOf p.2).m) := by decide
  intro p hp
  obtain ⟨bits, emin, inf, room⟩ := fields p hp
  exact ⟨bits, emin, tops p hp, inf, room⟩

theorem elVal_float {t : Ty} (hint : t.isInteger = false) (hs : t ≠ .s24) (v k : Nat) : elVal t v k = (fmtOf t).decode (elem t v k) := by
  cases t with
  | s24 => exact absurd rfl hs
  | f32 | f16x2 | bf16x2 | e4m3x4 | e5m2x4 | e2m1x8 => rfl
  | _ => exact absurd hint (by decide)

theorem float_widens : ∀ p ∈ floatWidenings, Widens p := by
  intro p hp v j x y
  have types : ∀ p ∈ floatWidenings, p.1.isInteger = false ∧ p.1 ≠ .s24 ∧ p.2.isInteger = false ∧ p.2 ≠ .s24 ∧
      p.2 ∈ [Ty.f16x2, .bf16x2, .f32, .e4m3x4] ∧ elBits p.2 = (fmtOf p.2).eb + (fmtOf p.2).m + 1 := by decide
  obtain ⟨hint, hs, hint', hs', wide, width⟩ := types p hp
  obtain ⟨nan, inf, negZero, num⟩ := (within_of_floatWidenings p hp).keeps (holds_wideElem p.2 wide) (elVal_float hint hs v j).symm
  have back (hy : y < 2 * (fmtOf p.2).signBit) : elVal p.2 y 0 = (fmtOf p.2).decode y := by
    rw [elVal_float hint' hs', elem, bitsN, Nat.mul_zero, pow_zero, Nat.div_one, Nat.mod_eq_of_lt]
    rwa [width, pow_succ']
  refine ⟨nan, fun neg h => ?_, fun h => ?_, fun n e h => ?_⟩
  · obtain ⟨hy, value⟩ := inf neg h
    exact (back hy).trans value
  · obtain ⟨hy, value⟩ := negZero h
    exact (back hy).trans value
  · obtain ⟨hy, q, k, value, same⟩ := num n e h
    exact ⟨q, k, (back hy).trans value, same⟩

theorem int_widens : ∀ p ∈ intWidenings, Widens p := by
  intro p hp v j x y
  have types : ∀ p ∈ intWidenings, p.1.isInteger = true ∧ p.2.isInteger = true ∧ p.2 ≠ .f32 ∧
      intLo (tySigned p.2) (elBits p.2) ≤ intLo (tySigned p.1) (elBits p.1) ∧
      intHi (tySigned p.1) (elBits p.1) ≤ intHi (tySigned p.2) (elBits p.2) := by decide
  obtain ⟨hint, hint', hf, hlo, hhi⟩ := types p hp
  have number : x = .num (elNum p.1 v j) 0 := elVal_isInteger hint v j
  have wide : wideElem p.2 x = toElem p.2 .rne x := by
    unfold wideElem
    split
    · exact absurd ‹_› hf
    · rfl
  have value : elVal p.2 y 0 = .num (elNum p.1 v j) 0 := by
    rw [elVal_isInteger hint', show y = toElem p.2 .rne x from wide, number, elNum_toElem hint' hlo hhi]
  refine ⟨fun h => ?_, fun neg h => ?_, fun h => ?_, fun n e h => ⟨_, _, value, ?_⟩⟩
  · rw [number] at h; cases h
  · rw [number] at h; cases h
  · rw [number] at h; cases h
  · rw [number] at h
    cases h
    rfl

end Sys2Proof.Machine
end

/-!
Exact values compared (R99, R100), and the scales and codes of quantisation (R123).
-/
section
namespace Sys2Proof.Machine

/-! ### The number of a finite value -/

/-- A finite value is this number, a zero of either sign being 0. -/
def Exact.HasValue (x : Exact) (z : ℚ) : Prop := (x = .negZero ∧ z = 0) ∨ ∃ n e, x = .num n e ∧ dyadic n e = z

namespace Exact.HasValue

variable {x y : Exact} {u v : ℚ}

theorem num (n e : Int) : (Exact.num n e).HasValue (dyadic n e) := .inr ⟨n, e, rfl, rfl⟩

theorem negZero : Exact.negZero.HasValue 0 := .inl ⟨rfl, rfl⟩

theorem unique (h : x.HasValue u) (h' : x.HasValue v) : u = v := by
  rcases h with ⟨rfl, rfl⟩ | ⟨n, e, rfl, rfl⟩ <;> rcases h' with ⟨h, rfl⟩ | ⟨m, k, h, rfl⟩
  · rfl
  · cases h
  · cases h
  · cases h
    rfl

theorem neg (h : x.HasValue u) : x.neg.HasValue (-u) := by
  rcases h with ⟨rfl, rfl⟩ | ⟨n, e, rfl, rfl⟩
  · exact .inr ⟨0, 0, rfl, by rw [dyadic_zero, neg_zero]⟩
  · change (if n = 0 then Exact.negZero else .num (-n) e).HasValue _
    split
    · next h0 => exact .inl ⟨rfl, by rw [h0, dyadic_zero, neg_zero]⟩
    · exact dyadic_neg n e ▸ num (-n) e

theorem add (hx : x.HasValue u) (hy : y.HasValue v) : (x.add y).HasValue (u + v) := by
  rcases hx with ⟨rfl, rfl⟩ | ⟨n, e, rfl, rfl⟩ <;> rcases hy with ⟨rfl, rfl⟩ | ⟨m, k, rfl, rfl⟩
  · exact .inl ⟨rfl, add_zero 0⟩
  · exact .inr ⟨m, k, rfl, (zero_add _).symm⟩
  · exact .inr ⟨n, e, rfl, (add_zero _).symm⟩
  · exact .inr ⟨_, _, rfl, dyadic_addDyadic n e m k⟩

/-- Finite values compare as their numbers. -/
theorem cmp (hx : x.HasValue u) (hy : y.HasValue v) : x.cmp y = some (compare u v) := by
  have difference := hx.add hy.neg
  have shape : x.cmp y = match x.add y.neg with | .num n _ => some (compare n 0) | _ => some .eq := by
    rcases hx with ⟨rfl, -⟩ | ⟨n, e, rfl, -⟩ <;> rcases hy with ⟨rfl, -⟩ | ⟨m, k, rfl, -⟩ <;> rfl
  rw [shape]
  rcases difference with ⟨h, hz⟩ | ⟨n, e, h, hz⟩ <;> rw [h]
  · rw [compare_eq_iff_eq.2 (by linarith : u = v)]
  · have negative := dyadic_neg_iff n e
    have zero : dyadic n e = 0 ↔ n = 0 := ⟨fun h => by_contra fun hn => dyadic_ne_zero hn e h, fun h => h ▸ dyadic_zero e⟩
    rw [hz] at negative zero
    change some (compare n 0) = _
    rcases lt_trichotomy u v with h | rfl | h
    · rw [compare_lt_iff_lt.2 h, compare_lt_iff_lt.2 (negative.1 (by linarith))]
    · rw [compare_eq_iff_eq.2 rfl, compare_eq_iff_eq.2 (zero.1 (by linarith))]
    · rw [compare_gt_iff_gt.2 h, compare_gt_iff_gt.2]
      have : ¬n < 0 := negative.not.1 (by linarith)
      have : n ≠ 0 := zero.not.1 (by intro; linarith)
      omega

end Exact.HasValue

/-- A value that is finite has a number. -/
theorem Exact.hasValue_cases (x : Exact) : x = .nan ∨ (∃ s, x = .inf s) ∨ ∃ z, x.HasValue z := by
  cases x with
  | nan => exact .inl rfl
  | inf s => exact .inr (.inl ⟨s, rfl⟩)
  | negZero => exact .inr (.inr ⟨_, .negZero⟩)
  | num n e => exact .inr (.inr ⟨_, .num n e⟩)

/-! ### The float compare (R99, R100) -/

/-- Where a value stands: below every finite one, among them, or above. -/
def Exact.rank (x : Exact) : Int :=
  match x with
  | .inf neg => if neg then -1 else 1
  | _ => 0

/-- The order of values that are not NaN. -/
def Exact.Less (x y : Exact) : Prop := x.rank < y.rank ∨ (x.rank = 0 ∧ y.rank = 0 ∧ ∃ u v, x.HasValue u ∧ y.HasValue v ∧ u < v)

theorem Exact.HasValue.rank {x : Exact} {u : ℚ} (h : x.HasValue u) : x.rank = 0 := by
  rcases h with ⟨rfl, -⟩ | ⟨n, e, rfl, -⟩ <;> rfl

theorem Exact.less_iff {x y : Exact} {u v : ℚ} (hx : x.HasValue u) (hy : y.HasValue v) : x.Less y ↔ u < v := by
  constructor
  · rintro (h | ⟨-, -, u', v', hu, hv, h⟩)
    · rw [hx.rank, hy.rank] at h
      exact absurd h (lt_irrefl _)
    · rwa [hx.unique hu, hy.unique hv]
  · exact fun h => .inr ⟨hx.rank, hy.rank, u, v, hx, hy, h⟩

/-- Infinities and finite values compare as `Less` says. -/
theorem Exact.cmp_eq {x y : Exact} (hx : x ≠ .nan) (hy : y ≠ .nan) :
    ∃ o, x.cmp y = some o ∧ (o = .lt ↔ x.Less y) ∧ (o = .gt ↔ y.Less x) := by
  have infinite {x y : Exact} (h : x.rank ≠ 0 ∨ y.rank ≠ 0) : x.Less y ↔ x.rank < y.rank :=
    ⟨fun hl => hl.resolve_right fun ⟨h0, h1, _⟩ => h.elim (· h0) (· h1), .inl⟩
  rcases x.hasValue_cases with h | ⟨s, rfl⟩ | ⟨u, hu⟩
  · exact absurd h hx
  · have hs : (Exact.inf s).rank ≠ 0 := by cases s <;> decide
    rw [infinite (.inl hs), infinite (.inr hs)]
    rcases y.hasValue_cases with h | ⟨t, rfl⟩ | ⟨v, hv⟩
    · exact absurd h hy
    · exact ⟨_, rfl, by cases s <;> cases t <;> decide, by cases s <;> cases t <;> decide⟩
    · rw [hv.rank]
      refine ⟨if s then .lt else .gt, ?_, by cases s <;> decide, by cases s <;> decide⟩
      rcases hv with ⟨rfl, -⟩ | ⟨n, e, rfl, -⟩ <;> rfl
  · rcases y.hasValue_cases with h | ⟨t, rfl⟩ | ⟨v, hv⟩
    · exact absurd h hy
    · have ht : (Exact.inf t).rank ≠ 0 := by cases t <;> decide
      rw [infinite (.inl ht), infinite (.inr ht), hu.rank]
      refine ⟨if t then .gt else .lt, ?_, by cases t <;> decide, by cases t <;> decide⟩
      rcases hu with ⟨rfl, -⟩ | ⟨n, e, rfl, -⟩ <;> rfl
    · rw [Exact.less_iff hu hv, Exact.less_iff hv hu]
      exact ⟨_, hu.cmp hv, compare_lt_iff_lt, compare_gt_iff_gt⟩

/-- A NaN meets `.ne` and `.un` only. -/
theorem condFloat_nan {x y : Exact} (h : x = .nan ∨ y = .nan) (c : Cond) : condFloat c x y = true ↔ c = .ne ∨ c = .un := by
  have none : x.cmp y = none := by
    rcases h with rfl | rfl
    · rfl
    · cases x <;> rfl
  unfold condFloat
  rw [none]
  cases c <;> decide

theorem condFloat_ordered {x y : Exact} (hx : x ≠ .nan) (hy : y ≠ .nan) (c : Cond) : condFloat c x y = true ↔
    match c with
    | .eq => ¬x.Less y ∧ ¬y.Less x | .ne => x.Less y ∨ y.Less x | .lt => x.Less y | .le => ¬y.Less x | .gt => y.Less x
    | .ge => ¬x.Less y | .un => False | .ord => True := by
  obtain ⟨o, ho, lt, gt⟩ := Exact.cmp_eq hx hy
  unfold condFloat
  rw [ho]
  simp only [← lt, ← gt]
  cases c <;> cases o <;> decide

end Sys2Proof.Machine
end

section
namespace Sys2Proof.Machine

/-! ### Block scales (R123) -/

/-- The size of a value. -/
def Exact.size (x : Exact) : Exact := if x.isNeg then x.neg else x

theorem Exact.HasValue.size {x : Exact} {z : ℚ} (h : x.HasValue z) : ∃ n e, x.size = .num n e ∧ dyadic n e = |z| := by
  rcases h with ⟨rfl, rfl⟩ | ⟨n, e, rfl, rfl⟩
  · exact ⟨0, 0, rfl, by rw [dyadic_zero, abs_zero]⟩
  · have negative := dyadic_neg_iff n e
    unfold Exact.size Exact.isNeg
    simp only [decide_eq_true_eq]
    split
    · next hn => exact ⟨-n, e, if_neg hn.ne, by rw [dyadic_neg, abs_of_neg (negative.2 hn)]⟩
    · next hn => exact ⟨n, e, rfl, (abs_of_nonneg (not_lt.1 (negative.not.2 hn))).symm⟩

/-- The larger of a size so far and the next value's. -/
def largerSize (b y : Exact) : Exact := if y.size.cmp b = some .gt then y.size else b

/-- A fold over finite values finds the largest size, that of one of them or the one it began with. -/
theorem foldl_largerSize (ys : List Exact) (hy : ∀ y ∈ ys, ∃ z, y.HasValue z) {b : Exact} {n e : Int} (hb : b = .num n e) :
    ∃ m k, ys.foldl largerSize b = .num m k ∧ dyadic n e ≤ dyadic m k ∧ (∀ y ∈ ys, ∀ z, y.HasValue z → |z| ≤ dyadic m k) ∧
      (dyadic m k = dyadic n e ∨ ∃ y ∈ ys, ∃ z, y.HasValue z ∧ |z| = dyadic m k) := by
  induction ys generalizing b n e with
  | nil => exact ⟨n, e, hb, le_rfl, List.forall_mem_nil _, .inl rfl⟩
  | cons y ys ih =>
    obtain ⟨z, hz⟩ := hy y (List.mem_cons_self ..)
    obtain ⟨a, k, ha, size⟩ := hz.size
    have order : y.size.cmp b = some (compare |z| (dyadic n e)) := by
      rw [ha, hb, ← size]
      exact (Exact.HasValue.num a k).cmp (.num n e)
    have rest := fun u hu => hy u (List.mem_cons_of_mem _ hu)
    rw [List.foldl_cons]
    by_cases larger : dyadic n e < |z|
    · have next : largerSize b y = .num a k := by rw [largerSize, order, compare_gt_iff_gt.2 larger, if_pos rfl, ha]
      obtain ⟨m, j, hm, hle, hall, hone⟩ := ih rest next
      refine ⟨m, j, hm, (larger.le.trans size.ge).trans hle, ?_, .inr ?_⟩
      · rw [List.forall_mem_cons]
        exact ⟨fun z' hz' => hz.unique hz' ▸ size ▸ hle, hall⟩
      · rcases hone with h | ⟨u, hu, w, hw, h⟩
        · exact ⟨y, List.mem_cons_self .., z, hz, by rw [h, size]⟩
        · exact ⟨u, List.mem_cons_of_mem _ hu, w, hw, h⟩
    · have next : largerSize b y = .num n e := by
        rw [largerSize, order, if_neg, hb]
        rw [Option.some.injEq, compare_gt_iff_gt]
        exact larger
      obtain ⟨m, j, hm, hle, hall, hone⟩ := ih rest next
      refine ⟨m, j, hm, hle, ?_, ?_⟩
      · rw [List.forall_mem_cons]
        exact ⟨fun z' hz' => hz.unique hz' ▸ (not_lt.1 larger).trans hle, hall⟩
      · rcases hone with h | ⟨u, hu, w, hw, h⟩
        · exact .inl h
        · exact .inr ⟨u, List.mem_cons_of_mem _ hu, w, hw, h⟩

/-- Whether a value is an infinity. -/
def Exact.isInf (x : Exact) : Bool :=
  match x with
  | .inf _ => true
  | _ => false

/-- The scale for a largest size. -/
def scaleOfSize (f : Fmt) (big : Exact) : Nat :=
  match big with
  | .num n e => if n = 0 then 0 else min s24.top (s24.roundMag .ru false n.natAbs (maxFinite f) e)
  | _ => 0

section
variable (f : Fmt) {ys : List Exact}

theorem blockScale_eq (ys : List Exact) : blockScale f ys = if ys.any Exact.isNan then s24.nan
    else if ys.any Exact.isInf then s24.infinity false else scaleOfSize f (ys.foldl largerSize (.num 0 0)) := rfl

theorem blockScale_nan (h : .nan ∈ ys) : blockScale f ys = 0x7FC000 := if_pos (List.any_eq_true.2 ⟨_, h, rfl⟩)

theorem any_isNan_of_not_mem (h : .nan ∉ ys) : ¬ys.any Exact.isNan = true := by
  rw [List.any_eq_true]
  rintro ⟨y, hy, hn⟩
  cases y with
  | nan => exact h hy
  | num n e | negZero | inf s => cases hn

theorem blockScale_inf (h : .nan ∉ ys) (hinf : ∃ neg, .inf neg ∈ ys) : blockScale f ys = 0x7F8000 := by
  obtain ⟨neg, hneg⟩ := hinf
  exact (if_neg (any_isNan_of_not_mem h)).trans (if_pos (List.any_eq_true.2 ⟨_, hneg, rfl⟩))

/-- The scale of finite values is made of their largest size. -/
theorem blockScale_finite (h : ∀ y ∈ ys, ∃ z, y.HasValue z) {n e : Int} (hbig : ys.foldl largerSize (.num 0 0) = .num n e) :
    blockScale f ys = if n = 0 then 0 else min s24.top (s24.roundMag .ru false n.natAbs (maxFinite f) e) := by
  have noNan : ¬ys.any Exact.isNan = true := any_isNan_of_not_mem fun hn => by
    obtain ⟨z, ⟨hz, -⟩ | ⟨n, e, hz, -⟩⟩ := h _ hn <;> cases hz
  have noInf : ¬ys.any Exact.isInf = true := by
    rw [List.any_eq_true]
    rintro ⟨y, hy, hi⟩
    obtain ⟨z, ⟨rfl, -⟩ | ⟨n, e, rfl, -⟩⟩ := h y hy <;> cases hi
  rw [blockScale_eq, if_neg noNan, if_neg noInf, hbig]
  rfl

theorem blockScale_zero (h : ∀ y ∈ ys, y.HasValue 0) : blockScale f ys = 0 := by
  have finite : ∀ y ∈ ys, ∃ z, y.HasValue z := fun y hy => ⟨0, h y hy⟩
  obtain ⟨n, e, hbig, -, -, hone⟩ := foldl_largerSize ys finite (b := .num 0 0) rfl
  have zero : dyadic n e = 0 := by
    rcases hone with h0 | ⟨y, hy, z, hz, h0⟩
    · rw [h0, dyadic_zero]
    · rw [← h0, hz.unique (h y hy), abs_zero]
  rw [blockScale_finite f finite hbig, if_pos]
  by_contra hn
  exact dyadic_ne_zero hn e zero

/-- The scale is the least code not below the largest size over the format's largest finite value (R123). -/
theorem blockScale_least (hF : maxFinite f ≠ 0) {mx : ℚ} {y : Exact} (hpos : 0 < mx) (hy : y ∈ ys) (hval : y.HasValue mx ∨ y.HasValue (-mx))
    (hmax : ∀ u ∈ ys, ∃ z, u.HasValue z ∧ |z| ≤ mx) :
    ∃ c, mx / maxFinite f ≤ s24.mag c ∧ (∀ d < c, s24.mag d < mx / maxFinite f) ∧ blockScale f ys = min c 0x7F7FFF := by
  have finite : ∀ u ∈ ys, ∃ z, u.HasValue z := fun u hu => (hmax u hu).imp fun _ h => h.1
  obtain ⟨n, e, hbig, -, hall, hone⟩ := foldl_largerSize ys finite (b := .num 0 0) rfl
  have atLeast : mx ≤ dyadic n e := by
    rcases hval with h | h
    · exact (le_abs_self mx).trans (hall y hy mx h)
    · exact ((le_abs_self mx).trans_eq (abs_neg mx).symm).trans (hall y hy (-mx) h)
  have value : dyadic n e = mx := by
    rcases hone with h0 | ⟨u, hu, z, hz, h0⟩
    · rw [h0, dyadic_zero] at atLeast
      exact absurd hpos atLeast.not_gt
    · obtain ⟨z', hz', hle⟩ := hmax u hu
      exact le_antisymm (h0 ▸ hz.unique hz' ▸ hle) atLeast
  have hn : n ≠ 0 := fun h => by
    rw [h, dyadic_zero] at value
    exact hpos.ne value
  have quotient : (n.natAbs / maxFinite f : ℚ) * 2 ^ e = mx / maxFinite f := by
    have abs := abs_dyadic n e
    rw [value, abs_of_pos hpos, dyadic, Int.cast_natCast] at abs
    rw [abs]
    ring
  have takes := Fmt.takes_roundMag_div (f := s24) (by decide) (Int.natAbs_ne_zero.2 hn) hF e .ru false
  rw [quotient] at takes
  rw [blockScale_finite f finite hbig, if_neg hn]
  generalize s24.roundMag .ru false n.natAbs (maxFinite f) e = c at *
  refine ⟨c, ?_, fun d hd => ?_, min_comm ..⟩
  · rcases takes with h | ⟨k, -, hk, hc⟩
    · exact h.ge
    · have up : c = k + 1 := hc
      exact up ▸ hk.le
  · have := takes.beside.1 (by omega)
    exact (s24.mag_strictMono.monotone (by omega)).trans_lt this

end

/-! ### Codes under a scale (R123) -/

section
variable (f : Fmt) (y : Exact)

theorem quantCode_of_isZero {z : Exact} (hz : z.isZero = true) : quantCode f y z = 0 := by
  rcases Exact.isZero_cases hz with rfl | ⟨e, rfl⟩
  · rfl
  · simp only [quantCode, if_true]

/-- Under a positive scale a nonzero number takes the code of its quotient, rounded once. -/
theorem quantCode_num (hm : 1 ≤ f.m) {a n : Int} (ha : 0 < a) (hn : n ≠ 0) (k e : Int) :
    ∃ c, f.takes .rne (decide (n < 0)) (|dyadic n e| / dyadic a k) c ∧
      quantCode f (.num n e) (.num a k) = (if n < 0 then f.signBit else 0) + min c f.top := by
  have takes := Fmt.takes_roundMag_div hm (Int.natAbs_ne_zero.2 hn) (Int.natAbs_ne_zero.2 ha.ne') (e - k) .rne (decide (n < 0))
  have quotient : (n.natAbs / a.natAbs : ℚ) * 2 ^ (e - k) = |dyadic n e| / dyadic a k := by
    rw [abs_dyadic, show dyadic a k = dyadic a.natAbs k by rw [Int.natAbs_of_nonneg ha.le], dyadic, dyadic, zpow_sub₀ two_ne_zero,
      Int.cast_natCast, Int.cast_natCast, mul_div_mul_comm]
  rw [quotient] at takes
  refine ⟨_, takes, ?_⟩
  simp only [quantCode, ha.ne', hn, if_false, Fmt.narrowQ, ha.not_gt, decide_false, Bool.bne_false, decide_eq_true_eq, min_comm]

theorem quantCode_special {a : Int} (ha : 0 < a) (k : Int) :
    (y = .nan → quantCode f y (.num a k) = f.nan) ∧
      (∀ neg, y = .inf neg → quantCode f y (.num a k) = (if neg then f.signBit else 0) + if f.inf then f.top + 1 else f.top) ∧
      (y = .negZero → quantCode f y (.num a k) = f.signBit) ∧ ∀ e, y = .num 0 e → quantCode f y (.num a k) = 0 := by
  refine ⟨?_, ?_, ?_, ?_⟩
  · rintro rfl
    exact if_neg ha.ne'
  · rintro neg rfl
    simp only [quantCode, ha.ne', if_false, ha.not_gt, decide_false, Bool.bne_false, Fmt.infinity]
  · rintro rfl
    simp only [quantCode, ha.ne', if_false, ha.not_gt]
  · rintro e rfl
    simp only [quantCode, ha.ne', if_false, if_true, ha.not_gt]

end

end Sys2Proof.Machine
end

/-!
Row instructions (R120, R146 to R150): a full row of sixteen lanes, its Hadamard rotation, and each lane's own destination.
-/
section
namespace Sys2Proof.Machine

/-! ### The Hadamard rotation (R120) -/

/-- A term of a rotation, negated where the two indices share an odd number of bits. -/
def hadamardTerm (k j : Nat) (v : Exact) : Exact :=
  if ((List.range 5).countP fun m => k.testBit m && j.testBit m) % 2 = 1 then v.neg else v

/-- Element `k` of a rotated block. -/
def rotatedAt (v : List Exact) (k : Nat) : Exact := Exact.sum ((List.range v.length).map fun j => hadamardTerm k j (nth v j (.num 0 0)))

theorem foldl_xor_eq_countP {α : Type} (f : α → Bool) (l : List α) (b : Bool) :
    l.foldl (fun p i => p ^^ f i) b = (b ^^ decide (l.countP f % 2 = 1)) := by
  induction l generalizing b with
  | nil => simp
  | cons x l ih =>
    rw [List.foldl_cons, ih, List.countP_cons]
    rcases Nat.mod_two_eq_zero_or_one (l.countP f) with h | h <;> cases f x <;> cases b <;> simp [Nat.add_mod, h]

/-- The parity of a product of indices below 32 is that of its five low bits. -/
theorem parityN_and {i j : Nat} (hi : i < 32) :
    parityN 8 (i &&& j) = decide (((List.range 5).countP fun m => i.testBit m && j.testBit m) % 2 = 1) := by
  have high (m : Nat) (hm : 5 ≤ m) : i.testBit m = false :=
    Nat.testBit_lt_two_pow (hi.trans_le (Nat.pow_le_pow_right Nat.two_pos hm : 2 ^ 5 ≤ 2 ^ m))
  have split : List.range 8 = List.range 5 ++ [5, 6, 7] := by decide
  simp only [parityN, bitN_eq_testBit, Nat.testBit_and]
  rw [foldl_xor_eq_countP, split, List.countP_append, Bool.false_xor]
  have none : ([5, 6, 7].countP fun m => i.testBit m && j.testBit m) = 0 := by
    simp [high 5 le_rfl, high 6 (by decide), high 7 (by decide)]
  rw [none, Nat.add_zero]

theorem hadamard_eq {v : List Exact} (hv : v.length ≤ 32) : hadamard v = (List.range v.length).map (rotatedAt v) := by
  refine List.map_congr_left fun k hk => ?_
  have small : k < 32 := (List.mem_range.1 hk).trans_le hv
  unfold rotatedAt hadamardTerm
  simp only [parityN_and small, decide_eq_true_eq]

theorem nth_hadamard {v : List Exact} (hv : v.length ≤ 32) {k : Nat} (hk : k < v.length) (d : Exact) : nth (hadamard v) k d = rotatedAt v k := by
  rw [hadamard_eq hv, nth_map_range _ hk]

/-! ### A full row (R146) -/

/-- All sixteen lanes of every row that takes part take part. -/
def FullRows (on : List Thread) : Prop := ∀ th ∈ on, ∀ k < 16, ∃ u ∈ on, u.t = th.t / 16 * 16 + k

/-- A list filtered by a function that answers everywhere keeps its places. -/
theorem filterMap_range_of_some {α : Type} {g : Nat → Option α} {n : Nat} (hg : ∀ k < n, (g k).isSome = true) :
    ((List.range n).filterMap g).length = n ∧ ∀ k < n, ((List.range n).filterMap g)[k]? = g k := by
  induction n with
  | zero => exact ⟨rfl, fun k hk => absurd hk (Nat.not_lt_zero k)⟩
  | succ n ih =>
    obtain ⟨len, at_⟩ := ih fun k hk => hg k (Nat.lt_succ_of_lt hk)
    obtain ⟨u, hu⟩ := Option.isSome_iff_exists.1 (hg n (Nat.lt_succ_self n))
    have last : [n].filterMap g = [u] := by simp [hu]
    rw [List.range_succ, List.filterMap_append, last]
    refine ⟨by rw [List.length_append, len]; rfl, fun k hk => ?_⟩
    rcases Nat.lt_succ_iff_lt_or_eq.1 hk with h | rfl
    · rw [List.getElem?_append_left (by omega), at_ k h]
    · rw [List.getElem?_append_right (by omega), len, Nat.sub_self, hu]
      rfl

section
variable {on : List Thread} (hN : (on.map (·.t)).Nodup) (full : FullRows on) {th : Thread} (hm : th ∈ on)
include hN full hm

/-- The mask of a full row is full, so no lane faults. -/
theorem rowFault_of_full : rowFault on th = none := by
  have sum (l : List Thread) (m : Nat) : l.foldl (fun m th => m + 2 ^ (th.t % 16)) m = m + ((l.map (·.t % 16)).map (2 ^ ·)).sum := by
    induction l generalizing m with
    | nil => rfl
    | cons u l ih => rw [List.foldl_cons, ih, List.map_cons, List.map_cons, List.sum_cons, Nat.add_assoc]
  let lanes := (on.filter fun u => u.t / 16 = th.t / 16).map (·.t % 16)
  have perm : lanes.Perm (List.range 16) := by
    refine (List.perm_ext_iff_of_nodup ?_ List.nodup_range).2 fun k => ?_
    · refine List.Nodup.of_map (th.t / 16 * 16 + ·) ?_
      have numbers : lanes.map (th.t / 16 * 16 + ·) = (on.filter fun u => u.t / 16 = th.t / 16).map (·.t) := by
        rw [List.map_map]
        refine List.map_congr_left fun u hu => ?_
        have row : u.t / 16 = th.t / 16 := of_decide_eq_true (List.mem_filter.1 hu).2
        change th.t / 16 * 16 + u.t % 16 = u.t
        omega
      rw [numbers]
      exact hN.sublist (List.filter_sublist.map _)
    · rw [List.mem_range, List.mem_map]
      constructor
      · rintro ⟨u, -, rfl⟩
        exact Nat.mod_lt _ (by decide)
      · intro hk
        obtain ⟨u, hu, ht⟩ := full th hm k hk
        exact ⟨u, List.mem_filter.2 ⟨hu, decide_eq_true (by omega)⟩, by omega⟩
  have mask : rowMask on (th.t / 16) = 65535 := by
    have total := (perm.map (2 ^ ·)).sum_eq
    rw [rowMask, sum, Nat.zero_add, total]
    decide
  exact if_pos mask

/-- A full row has sixteen lanes, each thread at its own. -/
theorem rowOf_full : (rowOf on (th.t / 16)).length = 16 ∧ (rowOf on (th.t / 16))[th.t % 16]? = some th := by
  obtain ⟨len, at_⟩ := filterMap_range_of_some (g := fun k => on.find? fun u => u.t = th.t / 16 * 16 + k) (n := 16) fun k hk => by
    obtain ⟨u, hu, ht⟩ := full th hm k hk
    rw [List.find?_isSome]
    exact ⟨u, hu, decide_eq_true ht⟩
  have own : th.t / 16 * 16 + th.t % 16 = th.t := Nat.div_add_mod' _ _
  refine ⟨len, (at_ _ (Nat.mod_lt _ (by decide))).trans ?_⟩
  rw [own]
  exact find?_thread hN hm

end

/-! ### What a row instruction leaves -/

theorem Iss.plainThread_congr_value {i : Iss} {s : State} {d : Opnd} {n : Nat} {src : List Fld} {imm : BitVec 21}
    {eff : Thread → Thread → Thread} {v v' : Thread → Nat} (h : ∀ th ∈ i.writers d, v th = v' th) :
    i.plainThread s d n src imm eff v = i.plainThread s d n src imm eff v' := by
  funext th
  unfold Iss.plainThread
  by_cases hw : th ∈ i.writers d
  · simp only [hw, if_true, h th hw]
  · simp only [hw, if_false]

theorem Warp.modThread_id (w : Warp) (t : Nat) : w.modThread t id = w := by simp [Warp.modThread]

section
variable {s : State} {h : Hdr} {i : Iss} (hi : Issues s h i) (x : VOps) (n : Wid) (hn : n.d ≠ 0) (dRead : Bool) (f : List TIn → Nat → Nat)
  (hd : x.d.cls ≠ .s)
include hi hn hd

/-- What a lane's row and its place in it make, as a plain instruction's value. -/
theorem State.rowForm_eq_plain : s.rowForm h x n dRead f =
    s.plain h x n dRead (fun u => { d := some (f ((rowOf i.on (u.th.t / 16)).map fun u => s.tin i x n u) (u.th.t % 16)) })
      (fun u => rowFault i.on u.th) := by
  have all : (if x.d.cls = .s then i.on.take 1 else i.on) = i.on := if_neg hd
  have dst : (if n.d = 0 then [] else [(⟨x.d, n.d⟩ : Fld)]) = [⟨x.d, n.d⟩] := if_neg hn
  have past (b : BitVec 8) : (if b = 0 then s.advance i
      else (s.advance i).modThreads i.r (i.on.map (·.t)) fun th => { th with pwerr := th.pwerr ||| b }) = (s.advance i).noteOver i b := by
    split
    · next hb => rw [hb, State.noteOver_zero]
    · rfl
  have write (v t : Nat) : TOut.write { d := some v } t x.d n.d = fun w => w.put t x.d n.d v := by
    funext w
    exact congrArg (fun w : Warp => w.put t x.d n.d v) (w.modThread_id t)
  unfold State.rowForm State.plain run
  simp only [hi.1, all, dst, write, past] <;> rfl

/-- A ROW INSTRUCTION COMPLETES where every lane of its rows takes part and its operands stand ready, and each lane writes its own D. -/
theorem State.rowForm_completes (full : FullRows i.on)
    (hr : ∀ th ∈ i.on, i.ready s (flds x n.a n.b n.c) [⟨x.d, n.d⟩] dRead x.imm th) {v : Thread → Nat}
    (hv : ∀ th ∈ i.on, f ((rowOf i.on (th.t / 16)).map fun u => s.tin i x n u) (th.t % 16) = v th) :
    ∃ t, s.rowForm h x n dRead f = .next t ∧ Keeps s t i i.w (i.plainThread s x.d n.d (flds x n.a n.b n.c) x.imm (fun _ th => th) v) := by
  have all : i.writers x.d = i.on := if_neg hd
  have unchanged (u : Thread → Nat) : i.scalars (i.writers x.d) x.d n.d u = i.w := by
    unfold Iss.scalars
    split
    · next e => exact absurd (by rw [e]; rfl) hd
    · rfl
  obtain ⟨t, ht, hk⟩ := State.plain_completes hi.1 hi.2 x n dRead
    (fun u => { d := some (f ((rowOf i.on (u.th.t / 16)).map fun u => s.tin i x n u) (u.th.t % 16)) }) (fun u => rowFault i.on u.th)
    (by rw [all, if_neg hn]; exact hr) (by rw [all]; exact fun th hm => rowFault_of_full (Iss.on_nodup hi.1 hi.2) full hm)
    (fun _ => nofun) fun _ _ => rfl
  rw [unchanged] at hk
  refine ⟨t, (State.rowForm_eq_plain hi x n hn dRead f hd).trans ht, ?_⟩
  rw [← Iss.plainThread_congr_value (v := fun th => f ((rowOf i.on (th.t / 16)).map fun u => s.tin i x n u) (th.t % 16))
    (by rw [all]; exact hv)]
  exact hk

end

end Sys2Proof.Machine
end

section
namespace Sys2Proof.Machine

/-! ### The row forms (R147 to R150) -/

/-- A field of an immediate that begins at its lowest bit. -/
theorem bitsN_low (v n : Nat) : bitsN v 0 n = v % 2 ^ n := by rw [bitsN, pow_zero, Nat.div_one]

/-- What lane `k` of a row makes of it under hq (R149). -/
def hqLane (imm : BitVec 21) (t : Ty) (n32 : Bool) (row : List TIn) (k : Nat) : Nat :=
  match row[k]? with
  | none => 0
  | some v =>
    let pos := bitsN imm.toNat 0 3
    let code := fun i => quantCode (fmtOf t) (nth (hadamard (rowBlock n32 row)) i (.num 0 0)) (regVal .s24 v.c)
    if n32 then setElem t (setElem t v.d (2 * pos) (code (2 * k))) (2 * pos + 1) (code (2 * k + 1)) else setElem t v.d pos (code k)

theorem execHq_eq (h : Hdr) (x : VOps) (t : Ty) (n32 : Bool) (s : State) : execHq h x t n32 s =
    s.rowForm h x { d := 1, a := 1, b := if n32 then 1 else 0, c := 1 } true (hqLane x.imm t n32) := rfl

/-- The codes stand in the elements POS names, the others are kept. -/
theorem hqLane_eq {imm : BitVec 21} {t : Ty} {n32 : Bool} {row : List TIn} {k : Nat} {v : TIn} (hv : row[k]? = some v) :
    let code := fun i => quantCode (fmtOf t) (nth (hadamard (rowBlock n32 row)) i (.num 0 0)) (regVal .s24 v.c)
    let pos := imm.toNat % 8
    hqLane imm t n32 row k = mapEls t fun j =>
      if n32 then (if j = 2 * pos + 1 then code (2 * k + 1) else if j = 2 * pos then code (2 * k) else elem t v.d j)
      else if j = pos then code k else elem t v.d j := by
  unfold hqLane
  rw [hv, bitsN_low]
  cases n32
  case false => rfl
  case true => exact setElem_setElem ..

/-- The value of a lane's element `p` under the lane's scale (R150). -/
def dequant (t : Ty) (v : TIn) (p : Nat) : Exact := ((fmtOf t).decode (elem t v.a p)).mul (regVal .s24 v.c)

/-- The dequantised values of a row. -/
def rowDequants (imm : BitVec 21) (t : Ty) (n32 : Bool) (row : List TIn) : List Exact :=
  let pos := imm.toNat % 8
  row.flatMap fun v => if n32 then [dequant t v (2 * pos), dequant t v (2 * pos + 1)] else [dequant t v pos]

/-- What lane `k` makes of a block's rotation under hdq (R150). -/
def hdqLane (r : Rnd) (n32 : Bool) (rot : Nat → Exact) (k : Nat) : Nat :=
  let out := fun k => fp32.round r ((rot k).scale (if n32 then -5 else -4))
  if n32 then out (2 * k) + out (2 * k + 1) * 2 ^ 32 else out k

theorem execHdq_eq (h : Hdr) (x : VOps) (t : Ty) (n32 : Bool) (r : Rnd) (s : State) : execHdq h x t n32 r s =
    s.rowForm h x { d := 1 + if n32 then 1 else 0, a := 1, c := 1 } false
      fun row k => hdqLane r n32 (fun j => nth (hadamard (rowDequants x.imm t n32 row)) j (.num 0 0)) k := by
  cases n32 <;> (unfold execHdq hdqLane rowDequants; rw [bitsN_low]; rfl)

/-- A lane uses its own two values of the rotation, or its own one. -/
theorem hdqLane_congr {r : Rnd} {n32 : Bool} {rot rot' : Nat → Exact} {k : Nat} (hk : k < 16)
    (h : ∀ j < (if n32 then 2 else 1) * 16, rot j = rot' j) : hdqLane r n32 rot k = hdqLane r n32 rot' k := by
  cases n32
  case false =>
    have own := h k (by simpa using hk)
    simp only [hdqLane, own, Bool.false_eq_true, if_false]
  case true =>
    have even := h (2 * k) (by simp; omega)
    have odd := h (2 * k + 1) (by simp; omega)
    simp only [hdqLane, even, odd, if_true]

section
variable (i : Iss) (s : State) (x : VOps) (n32 : Bool)

/-- The threads of a lane's row, in lane order. -/
def Iss.rowThreads (i : Iss) (th : Thread) : List Thread := rowOf i.on (th.t / 16)

/-- The block x of a lane's row (R121, R147). -/
def Iss.block (i : Iss) (s : State) (x : VOps) (n32 : Bool) (th : Thread) : List Exact :=
  (i.rowThreads th).flatMap fun u =>
    if n32 then [fp32.decode (i.arg s x.imm x.a 1 u), fp32.decode (i.arg s x.imm x.b (if n32 then 1 else 0) u)]
    else [fp32.decode (i.arg s x.imm x.a 1 u)]

theorem Iss.rowBlock_eq {n : Wid} (ha : n.a = 1) (hb : n.b = if n32 then 1 else 0) (th : Thread) :
    rowBlock n32 ((rowOf i.on (th.t / 16)).map fun u => s.tin i x n u) = i.block s x n32 th := by
  rw [rowBlock, List.flatMap_map]
  simp only [State.tin, ha, hb]
  rfl

/-- The dequantised values of a lane's row (R150). -/
def Iss.dequants (i : Iss) (s : State) (x : VOps) (t : Ty) (n32 : Bool) (th : Thread) : List Exact :=
  let one := fun (u : Thread) (p : Nat) =>
    ((fmtOf t).decode (elem t (i.arg s x.imm x.a 1 u) p)).mul (regVal .s24 (i.arg s x.imm x.c 1 u))
  let pos := x.imm.toNat % 8
  (i.rowThreads th).flatMap fun u => if n32 then [one u (2 * pos), one u (2 * pos + 1)] else [one u pos]

theorem Iss.dequants_eq (t : Ty) {n : Wid} (ha : n.a = 1) (hc : n.c = 1) (th : Thread) :
    rowDequants x.imm t n32 ((rowOf i.on (th.t / 16)).map fun u => s.tin i x n u) = i.dequants s x t n32 th := by
  rw [rowDequants, List.flatMap_map]
  simp only [dequant, State.tin, ha, hc]
  rfl

/-- A block of pairs or of single values from a row. -/
theorem length_flatMap_lanes (l : List Thread) (f g k : Thread → Exact) :
    (l.flatMap fun u => if n32 then [f u, g u] else [k u]).length = (if n32 then 2 else 1) * l.length := by
  cases n32
  · simp
  · simp [Nat.mul_comm]

theorem length_rowOf_le (on : List Thread) (row : Nat) : (rowOf on row).length ≤ 16 := by
  have := List.length_filterMap_le (fun k => on.find? fun u => u.t = row * 16 + k) (List.range 16)
  rwa [List.length_range] at this

theorem Iss.length_block_le (th : Thread) : (i.block s x n32 th).length ≤ 32 := by
  have := length_rowOf_le i.on (th.t / 16)
  rw [Iss.block, length_flatMap_lanes, Iss.rowThreads]
  split <;> omega

end

/-- What a row instruction writes, and that nothing else changes. -/
def Iss.RowCompletes (s : State) (i : Iss) (x : VOps) (ins : Instr) (wd wb wc : Nat) (v : Thread → Nat) : Prop :=
  ∃ u, exec ins s = .next u ∧ Keeps s u i i.w (i.plainThread s x.d wd (flds x 1 wb wc) x.imm (fun _ th => th) v)

section
variable {s : State} {h : Hdr} {i : Iss} (hi : Issues s h i) (full : FullRows i.on) (x : VOps) (t : Ty) (n32 : Bool) (hd : x.d.cls ≠ .s)
include hi full hd

theorem hqs_completes (hr : ∀ th ∈ i.on, i.ready s (flds x 1 (if n32 then 1 else 0) 0) [⟨x.d, 1⟩] false x.imm th) :
    i.RowCompletes s x (.hqs h x t n32) 1 (if n32 then 1 else 0) 0 fun th =>
      blockScale (fmtOf t) ((List.range (i.block s x n32 th).length).map (rotatedAt (i.block s x n32 th))) * 256 := by
  refine State.rowForm_completes hi x { d := 1, a := 1, b := if n32 then 1 else 0 } Nat.one_ne_zero false
    (fun row _ => blockScale (fmtOf t) (hadamard (rowBlock n32 row)) * 256) hd full hr fun th _ => ?_
  rw [Iss.rowBlock_eq i s x n32 rfl rfl, hadamard_eq (i.length_block_le s x n32 th)]

theorem hq_completes (hr : ∀ th ∈ i.on, i.ready s (flds x 1 (if n32 then 1 else 0) 1) [⟨x.d, 1⟩] true x.imm th) :
    i.RowCompletes s x (.hq h x t n32) 1 (if n32 then 1 else 0) 1 fun th =>
      let y := (List.range (i.block s x n32 th).length).map (rotatedAt (i.block s x n32 th))
      let code := fun k => quantCode (fmtOf t) (nth y k (.num 0 0)) (regVal .s24 (i.arg s x.imm x.c 1 th))
      let pos := x.imm.toNat % 8
      let k := th.t % 16
      mapEls t fun j =>
        if n32 then (if j = 2 * pos + 1 then code (2 * k + 1) else if j = 2 * pos then code (2 * k) else elem t (i.arg s x.imm x.d 1 th) j)
        else if j = pos then code k else elem t (i.arg s x.imm x.d 1 th) j := by
  have exec_eq : exec (.hq h x t n32) s = execHq h x t n32 s := rfl
  unfold Iss.RowCompletes
  rw [exec_eq, execHq_eq]
  refine State.rowForm_completes hi x _ Nat.one_ne_zero true _ hd full hr fun th hm => ?_
  obtain ⟨-, own⟩ := rowOf_full (Iss.on_nodup hi.1 hi.2) full hm
  rw [hqLane_eq (List.getElem?_map.trans (congrArg (Option.map _) own)), Iss.rowBlock_eq i s x n32 rfl rfl,
    hadamard_eq (i.length_block_le s x n32 th)]
  rfl

theorem hdq_completes (r : Rnd) (hr : ∀ th ∈ i.on, i.ready s (flds x 1 0 1) [⟨x.d, 1 + if n32 then 1 else 0⟩] false x.imm th) :
    i.RowCompletes s x (.hdq h x t n32 r) (1 + if n32 then 1 else 0) 0 1 fun th =>
      hdqLane r n32 (rotatedAt (i.dequants s x t n32 th)) (th.t % 16) := by
  have words : (1 + if n32 then 1 else 0) ≠ 0 := by omega
  have exec_eq : exec (.hdq h x t n32 r) s = execHdq h x t n32 r s := rfl
  unfold Iss.RowCompletes
  rw [exec_eq, execHdq_eq]
  refine State.rowForm_completes hi x _ words false _ hd full hr fun th hm => hdqLane_congr (Nat.mod_lt _ (by decide)) fun j hj => ?_
  obtain ⟨len, -⟩ := rowOf_full (Iss.on_nodup hi.1 hi.2) full hm
  have values : (i.dequants s x t n32 th).length = (if n32 then 2 else 1) * 16 := by
    rw [Iss.dequants, length_flatMap_lanes, Iss.rowThreads, len]
  rw [Iss.dequants_eq i s x n32 t rfl rfl]
  refine nth_hadamard ?_ ?_ _
  · rw [values]
    split <;> decide
  · rwa [values]

end

/-- Settles O7: every form of one thread is `State.plain`, every row form `State.rowForm`; a widened value is held exactly, a scale is the least
code above the quotient of the largest size, and a code the quotient's. -/
theorem conversionsCompute : Obligations.ConversionsCompute := by
  refine ⟨fun h x t src r div => ?forms, ⟨?integers, ?floats, ?widenings, ?scales, ?codes, ?compares⟩, ?rows⟩
  case forms =>
    intro a b c
    refine ⟨?cvt, ?cvtp, ?cvtn, ?cvtw, ?scl⟩
    case cvt =>
      exact Computes.of_plain { d := t.words, a := src.words } (fun v => toScalar t r (ofScalar src v.a)) (fun _ => rfl) fun _ _ _ => rfl
    case cvtp =>
      refine (Computes.of_floatForm 3 (fun a b c =>
        let conv := fun v => toElem t r (ofScalar (if t.isInteger then .w32 else .f32) v)
        let pos := bitsN x.imm.toNat 0 2
        setElem t (setElem t c (2 * pos) (conv a)) (2 * pos + 1) (conv b)) fun _ => rfl).congr fun s i th => ?_
      have pos : bitsN x.imm.toNat 0 2 = x.imm.toNat % 4 := bitsN_low _ 2
      dsimp only
      rw [setElem_setElem, pos]
      rfl
    case cvtn =>
      exact Computes.of_floatForm 2 (fun a b _ => mapEls t fun k => toElem t r
        (if k < elCount src then elVal src a k else elVal src b (k - elCount src))) fun _ => rfl
    case cvtw =>
      refine (Computes.of_floatForm 1 (fun a _ _ => mapEls t fun k =>
        wideElem t (elVal src a (bitsN x.imm.toNat 0 3 * elCount t + k))) fun _ => rfl).congr fun s i th => ?_
      rw [bitsN, pow_zero, Nat.div_one]
      rfl
    case scl =>
      refine (Computes.of_floatForm 3 (fun a _ c =>
        toScalar t r (((fp32.decode a).mul (regVal .s24 c)).scale (-(divLog2 div : Int)))) fun _ => rfl).congr fun s i th => ?_
      cases div <;> rfl
  case integers =>
    intro r t ht w lo hi becomes converts
    refine ⟨fun hint => ⟨?_, fun v => if_pos hint⟩, fun hint => ?_⟩
    · have hw : w = tyBits t := if_pos hint
      have all := becomes_toRange (tyBits_pos t) r (toScalar_isInt hint r)
      rw [← hw] at all
      exact all
    · have hw : w = elBits t := if_neg (by simp [hint])
      have all := becomes_toRange (elBits_pos t) r (toElem_isInteger ht r)
      rw [← hw] at all
      exact all
  case floats =>
    refine fun r x v => ⟨rfl, Nat.mul_comm .., rfl, fun hv => ?_, rfl, rfl, rfl, rfl, rfl⟩
    change s24.decode (v % 2 ^ 32 / 256) = _
    rw [Nat.mod_eq_of_lt hv]
  case widenings =>
    have all : ∀ p ∈ floatWidenings ++ intWidenings, Widens p :=
      List.forall_mem_append.2 ⟨float_widens, int_widens⟩
    exact fun p hp v j _ _ => all p hp v j
  case scales =>
    intro f hf ys
    have largest : maxFinite f.1 = f.2 ∧ maxFinite f.1 ≠ 0 := by
      revert f
      decide
    refine ⟨blockScale_nan f.1, blockScale_inf f.1, blockScale_zero f.1, fun mx y hpos hy hval hmax => ?_⟩
    rw [← largest.1]
    exact blockScale_least f.1 largest.2 hpos hy hval hmax
  case codes =>
    intro f hf y
    have fraction : ∀ f ∈ [e4m3, e5m2, e2m1], 1 ≤ f.m := by decide
    refine ⟨rfl, fun _ => rfl, fun z hz => quantCode_of_isZero f y hz, fun a k ha => ?_⟩
    obtain ⟨nan, inf, negZero, zero⟩ := quantCode_special f y ha k
    refine ⟨nan, inf, negZero, zero, ?_⟩
    rintro n e rfl hn
    exact quantCode_num f (fraction f hf) ha hn k e
  case compares =>
    exact fun c x y => ⟨fun h => condFloat_nan h c, fun hx hy => condFloat_ordered hx hy c⟩
  case rows =>
    intro h x t n32 r s i hi full hd two row a b scale done sign rotated block y pos
    exact ⟨hqs_completes hi full x t n32 hd, hq_completes hi full x t n32 hd, hdq_completes hi full x t n32 hd r⟩

end Sys2Proof.Machine
end

/-!
The scheduler's moves (R155, R183 to R186): least elements, the warp a quarter chooses, the group a stride begins with, and what arrives
for a warp that stalls.
-/
section
namespace Sys2Proof.Machine

/-! ### Least elements -/

/-- A list that is not empty has a least element under a key. -/
theorem exists_leastBy {α : Type} (key : α → Nat) {l : List α} (h : l ≠ []) :
    ∃ x, leastBy key l = some x ∧ x ∈ l ∧ ∀ y ∈ l, key x ≤ key y := by
  induction l with
  | nil => exact absurd rfl h
  | cons a r ih =>
    by_cases hr : r = []
    · subst hr
      exact ⟨a, rfl, by simp, by simp⟩
    · obtain ⟨x, hx, hm, hle⟩ := ih hr
      simp only [leastBy, hx]
      split
      · next lt => exact ⟨x, rfl, by simp [hm], by simpa using ⟨lt.le, hle⟩⟩
      · next ge => exact ⟨a, rfl, by simp, by simpa using fun y hy => (not_lt.1 ge).trans (hle y hy)⟩

theorem le_foldl_max {α : Type} (f : α → Nat) (l : List α) (b : Nat) :
    b ≤ l.foldl (fun m x => max m (f x)) b ∧ ∀ x ∈ l, f x ≤ l.foldl (fun m x => max m (f x)) b := by
  induction l generalizing b with
  | nil => simp
  | cons a r ih =>
    obtain ⟨start, rest⟩ := ih (max b (f a))
    simp only [List.foldl_cons, List.mem_cons, forall_eq_or_imp]
    exact ⟨(le_max_left ..).trans start, (le_max_right ..).trans start, rest⟩

/-- Of two keys of one weight the first decides, where the second stays below the weight. -/
theorem key_le_iff {a b c d k : Nat} (hb : b < k) (hd : d < k) : a * k + b ≤ c * k + d ↔ a < c ∨ a = c ∧ b ≤ d := by
  constructor
  · intro h
    rcases lt_trichotomy a c with lt | rfl | gt
    · exact .inl lt
    · exact .inr ⟨rfl, by omega⟩
    · have := Nat.mul_le_mul_right k (Nat.succ_le_of_lt gt)
      rw [Nat.succ_mul] at this
      omega
  · rintro (lt | ⟨rfl, le⟩)
    · have := Nat.mul_le_mul_right k (Nat.succ_le_of_lt lt)
      rw [Nat.succ_mul] at this
      omega
    · omega

/-! ### The choice of a warp (R184) -/

/-- The warp that has waited longest by a count has the greatest. -/
theorem exists_longest (f : Warp → Nat) {ws : List (Gang × Warp)} (hne : ws ≠ []) (hs : ∀ v ∈ ws, v.2.slot < 8) :
    ∃ p, longest f ws = some p ∧ p ∈ ws ∧ ∀ v ∈ ws, f v.2 ≤ f p.2 := by
  obtain ⟨-, top⟩ := le_foldl_max (fun p : Gang × Warp => f p.2) ws 0
  obtain ⟨p, hp, hm, least⟩ := exists_leastBy
    (fun p : Gang × Warp => (ws.foldl (fun m p => max m (f p.2)) 0 - f p.2) * 8 + p.2.slot) hne
  refine ⟨p, hp, hm, fun v hv => ?_⟩
  have first := (key_le_iff (hs p hm) (hs v hv)).1 (least v hv)
  have := top p hm
  have := top v hv
  omega

section
variable {rr : Map Nat} {ws : List (Gang × Warp)}

/-- Where some warp's count has reached a bound, the longest of those whose count has is the longest of all. -/
theorem exists_longest_reached (f : Warp → Nat) {k : Nat} (hs : ∀ v ∈ ws, v.2.slot < 8) (hk : ∃ v ∈ ws, k ≤ f v.2) :
    ∃ p ∈ ws, longest f (ws.filter fun p => decide (k ≤ f p.2)) = some p ∧ ∀ v ∈ ws, f v.2 ≤ f p.2 := by
  obtain ⟨v0, hv0, reached⟩ := hk
  obtain ⟨p, hp, hm, most⟩ := exists_longest f (ws := ws.filter fun p => decide (k ≤ f p.2))
    (List.ne_nil_of_mem (List.mem_filter.2 ⟨hv0, by simpa using reached⟩)) fun v hv => hs v (List.mem_filter.1 hv).1
  obtain ⟨hm, bound⟩ := List.mem_filter.1 hm
  refine ⟨p, hm, hp, fun v hv => ?_⟩
  by_cases h : k ≤ f v.2
  · exact most v (List.mem_filter.2 ⟨hv, by simpa using h⟩)
  · exact (not_le.1 h).le.trans (by simpa using bound)

theorem longest_of_under (f : Warp → Nat) {k : Nat} (h : ∀ v ∈ ws, f v.2 < k) :
    longest f (ws.filter fun p => decide (k ≤ f p.2)) = none := by
  rw [List.filter_eq_nil_iff.2 fun v hv => by simpa using h v hv]
  rfl

/-- Rule 1: a warp passed over in 60 slots goes before all others. -/
theorem chooseWarp_passed (hs : ∀ v ∈ ws, v.2.slot < 8) (hp : ∃ v ∈ ws, 60 ≤ v.2.passed) :
    ∃ p ∈ ws, chooseWarp rr ws = some (p, none) ∧ ∀ v ∈ ws, v.2.passed ≤ p.2.passed := by
  obtain ⟨p, hm, hp, most⟩ := exists_longest_reached (·.passed) hs hp
  exact ⟨p, hm, by simp only [chooseWarp, hp], most⟩

/-- Rule 2: else a warp unissued in 256 slots. -/
theorem chooseWarp_unissued (hs : ∀ v ∈ ws, v.2.slot < 8) (hp : ∀ v ∈ ws, v.2.passed < 60) (hu : ∃ v ∈ ws, 256 ≤ v.2.unissued) :
    ∃ p ∈ ws, chooseWarp rr ws = some (p, none) ∧ ∀ v ∈ ws, v.2.unissued ≤ p.2.unissued := by
  obtain ⟨p, hm, hu, most⟩ := exists_longest_reached (·.unissued) hs hu
  exact ⟨p, hm, by simp only [chooseWarp, longest_of_under (·.passed) hp, hu], most⟩

/-- Rule 3: else the greatest class, and in it the next slot behind the one that it served last. -/
theorem chooseWarp_class (hc : ∀ v ∈ ws, v.1.prio < 8) (hne : ws ≠ []) (hp : ∀ v ∈ ws, v.2.passed < 60)
    (hu : ∀ v ∈ ws, v.2.unissued < 256) :
    ∃ p ∈ ws, chooseWarp rr ws = some (p, some (classOf p)) ∧ ∀ v ∈ ws, classOf v < classOf p ∨ classOf v = classOf p ∧
      (p.2.slot + 7 - rr.get (classOf p) 7) % 8 ≤ (v.2.slot + 7 - rr.get (classOf p) 7) % 8 := by
  obtain ⟨p, chosen, hm, least⟩ := exists_leastBy
    (fun p : Gang × Warp => (7 - classOf p) * 8 + (p.2.slot + 7 - rr.get (classOf p) 7) % 8) hne
  refine ⟨p, hm, by simp only [chooseWarp, longest_of_under (·.passed) hp, longest_of_under (·.unissued) hu, chosen,
    Option.map_some], fun v hv => ?_⟩
  have below : ∀ v ∈ ws, classOf v < 8 := fun v hv => by
    unfold classOf
    split
    · decide
    · exact hc v hv
  have := below v hv
  have := below p hm
  rcases (key_le_iff (Nat.mod_lt _ (by decide)) (Nat.mod_lt _ (by decide))).1 (least v hv) with first | ⟨same, next⟩
  · exact .inl (by omega)
  · have same : classOf v = classOf p := by omega
    exact .inr ⟨same, same ▸ next⟩

/-- A quarter with one ready warp chooses it. -/
theorem chooseWarp_only (rr : Map Nat) (p : Gang × Warp) : ∃ turn, chooseWarp rr [p] = some (p, turn) := by
  by_cases h1 : 60 ≤ p.2.passed
  · exact ⟨none, by simp [chooseWarp, h1, longest, leastBy]⟩
  · by_cases h2 : 256 ≤ p.2.unissued
    · exact ⟨none, by simp [chooseWarp, h1, h2, longest, leastBy]⟩
    · exact ⟨some (classOf p), by simp [chooseWarp, h1, h2, longest, leastBy]⟩

end

/-! ### The begin of a stride (R155, R183) -/

theorem Warp.mem_groups {w : Warp} {th : Thread} : th ∈ w.groups ↔ th ∈ w.threads ∧ w.eligible th = true ∧ th.waits = false := by
  simp [Warp.groups]

/-- A warp with a group that may issue begins its stride with the one that has gone longest without issuing. -/
theorem Warp.begin_of_ready {w : Warp} (h : w.groups ≠ []) : ∃ th ∈ w.groups,
    w.begin = { w with stride := some { pc := th.pc, n := 0 }, passed := 0, unissued := 0, yielded := false } ∧
    ∀ u ∈ w.groups, w.groupLast th.pc < w.groupLast u.pc ∨ w.groupLast th.pc = w.groupLast u.pc ∧ th.pc.toNat ≤ u.pc.toNat := by
  obtain ⟨th, ht, hm, least⟩ := exists_leastBy (fun (th : Thread) => w.groupLast th.pc * 2 ^ 42 + th.pc.toNat) h
  exact ⟨th, hm, by simp only [Warp.begin, ht], fun u hu => (key_le_iff th.pc.isLt u.pc.isLt).1 (least u hu)⟩

theorem Gang.groups_of_ready {g : Gang} {w : Warp} (h : g.ready w = true) : w.groups ≠ [] := by
  simp only [Gang.ready, Bool.and_eq_true, decide_eq_true_eq] at h
  exact h.2

theorem State.quarter_modQuarter (s : State) {c q : Nat} (f : Quarter → Quarter) (hq : q < (s.core c).quarters.length) :
    (s.modQuarter c q f).quarter c q = f (s.quarter c q) := by
  rw [State.quarter, State.modQuarter, State.core_modCore, nth_modAt, if_pos ⟨rfl, hq⟩]
  rfl

/-- A free issue slot whose quarter has one ready warp, and no other, goes to it. -/
theorem execStrideSlot_only {s : State} {core q : Nat} {g : Gang} {w : Warp} (hl : s.mgmt.locked = false)
    (hg : (s.core core).gated = false) (hr : (s.quarter core q).running = none) (hws : s.warpsOf core q = [(g, w)])
    (hready : g.ready w = true) : ∃ rr : Quarter → Map Nat,
      execStrideSlot core q s = .next ((s.modWarp (g.gid, w.wi) Warp.begin).modQuarter core q fun k =>
        { k with running := some (g.gid, w.wi), rr := rr k }) := by
  obtain ⟨turn, chosen⟩ := chooseWarp_only (s.quarter core q).rr (g, w)
  have ready : [(g, w)].filter (fun p => p.1.ready p.2) = [(g, w)] := by simp [hready]
  have among : (if [(g, w)].filter (fun p => !p.2.yielded) = [] then [(g, w)] else [(g, w)].filter fun p => !p.2.yielded) = [(g, w)] := by
    cases h : w.yielded <;> simp [h]
  simp only [execStrideSlot, hl, hg, hr, hws, ready, among, chosen, Option.isSome_none, Bool.or_self, Bool.false_eq_true, if_false,
    List.foldl_cons, List.foldl_nil, decide_true, Bool.and_self, if_true]
  cases turn with
  | none => exact ⟨fun k => k.rr, rfl⟩
  | some c => exact ⟨fun k => k.rr.put c w.slot, rfl⟩

/-! ### Data a warp stalls for (R86, R196, R268) -/

theorem Map.get?_put_self {α : Type} (m : Map α) (k : Nat) (v : α) : (m.put k v).get? k = some v := by
  simp [Map.get?, Map.put]

/-- A change of cores only. -/
def State.coresOnly (s t : State) : Prop := ∃ ks, t = { s with cores := ks }

theorem State.coresOnly_readRecord (s : State) (r : WRef) (p : Bool × Nat) : s.coresOnly (s.readRecord r p) := by
  unfold State.readRecord
  split
  · split
    · exact ⟨s.cores, rfl⟩
    · exact ⟨_, rfl⟩
  · exact ⟨s.cores, rfl⟩

theorem State.coresOnly_readRecords (s : State) (r : WRef) (ps : List (Bool × Nat)) :
    s.coresOnly (ps.foldl (fun s p => s.readRecord r p) s) := by
  induction ps generalizing s with
  | nil => exact ⟨s.cores, rfl⟩
  | cons p ps ih =>
    obtain ⟨k1, h1⟩ := s.coresOnly_readRecord r p
    obtain ⟨k2, h2⟩ := ih (s.readRecord r p)
    exact ⟨k2, by rw [List.foldl_cons, h2, h1]⟩

/-- A window's word that can be read enters the parameter cache. -/
theorem State.readParam_of_ok {s : State} {r : WRef} {g : Gang} {w : Warp} {a pa : Nat} {table : Bool} (hg : s.gang? r.1 = some g)
    (hw : s.warp? r = some w) (ht : s.translate w.core g.world g.root a .load = .ok pa table) : s.readParam r a =
      s.modCore w.core fun c => { c with pcache := c.pcache.put (pcKey g a) (BitVec.ofNat 32 (s.mem.num pa 4)) } := by
  simp only [State.readParam, hg, hw, ht]

/-- A state that differs in cores only, and in which a warp's stall has gone on. -/
theorem State.stalled_warp? {s t : State} {r : WRef} {w : Warp} (ht : s.coresOnly t) (hw : s.warp? r = some w) (st : Stall) :
    (t.modWarp r fun w => { w with stall := some st }).outside = s.outside ∧
      (t.modWarp r fun w => { w with stall := some st }).warp? r = some { w with stall := some st } := by
  obtain ⟨ks, rfl⟩ := ht
  refine ⟨rfl, ?_⟩
  rw [State.warp?_modWarp _ _ _ (by intro w; rfl), show State.warp? { s with cores := ks } r = some w from hw]
  rfl

section
variable {s : State} {gid wi : Nat} {w : Warp} (hw : s.warp? (gid, wi) = some w)
include hw

theorem execStallDataArrival_ret {b : Bool} (hst : w.stall = some (.ret b)) : execStallDataArrival gid wi s =
    .next (s.modWarp (gid, wi) fun w => { w with stall := some (.ret true) }) := by
  simp only [execStallDataArrival, hw, Option.bind_some, hst]

theorem execStallDataArrival_param {a : Nat} (hst : w.stall = some (.param [a])) (free : s.heldFor (gid, wi) a = false) :
    execStallDataArrival gid wi s =
      .next ((s.readParam (gid, wi) a).modWarp (gid, wi) fun w => { w with stall := some (.param []) }) := by
  simp [execStallDataArrival, hw, hst, free]

theorem execStallDataArrival_record {rs : List (Bool × Nat)} (hst : w.stall = some (.record rs))
    (free : ∀ p ∈ rs, p.1 = true → ∀ k ∈ [0, 64, 128], s.heldFor (gid, wi) (p.2 + k) = false) : execStallDataArrival gid wi s =
      .next ((rs.foldl (fun s p => s.readRecord (gid, wi) p) s).modWarp (gid, wi) fun w => { w with stall := some (.record []) }) := by
  have none_held : (rs.any fun p => p.1 && [0, 64, 128].any fun k => s.heldFor (gid, wi) (p.2 + k)) = false := by
    rw [List.any_eq_false]
    intro p hp
    cases global : p.1
    · simp
    · simpa using free p hp global
  simp only [execStallDataArrival, hw, Option.bind_some, hst, none_held, Bool.false_eq_true, if_false]

end

/-! ### Clock gating (R186) -/

/-- A core that runs again, with the causes of its wake in $wake. -/
def Core.awake (k : Core) : Core := { k with gated := false, wakeReg := k.causes, wakeAt := none }

section
variable {s : State} {c : Nat}

theorem execClockGate_idle (idle : s.idleCore c = true) (runs : (s.core c).gated = false) :
    execClockGate c s = .next (s.modCore c fun k => { k with gated := true, causes := 0, wakeAt := none }) := by
  simp only [execClockGate, idle, runs, Bool.not_false, Bool.and_self, if_true]

theorem execClockGate_busy (busy : s.idleCore c = false) : execClockGate c s = .next s := by
  simp only [execClockGate, busy, Bool.false_and, Bool.false_eq_true, if_false]

theorem execWake_due {u : Nat} (gated : (s.core c).gated = true) (wakes : (s.core c).wakeAt = some u) (due : u ≤ (s.core c).clock) :
    execWake c s = .next { s.modCore c Core.awake with
      gangs := s.gangs.map fun g =>
        { g with warps := g.warps.map fun (w : Warp) => if w.core = c then { w with woke := true } else w } } := by
  simp only [execWake, gated, wakes, Bool.not_true, Bool.false_eq_true, if_false, due, if_true]
  rfl

theorem execWake_early {u : Nat} (gated : (s.core c).gated = true) (wakes : (s.core c).wakeAt = some u) (early : (s.core c).clock < u) :
    execWake c s = .next s := by
  simp only [execWake, gated, wakes, Bool.not_true, Bool.false_eq_true, if_false, not_le.2 early]

end

/-- Settles O41: the choice by the keys of R184 and R155, the arrivals by what each stall reads, and the clock's two events by their
conditions. -/
theorem slotsAndCoresMove : Obligations.SlotsAndCoresMove := by
  refine ⟨⟨?slot, ?choice⟩, ?arrival, ?clock⟩
  case slot =>
    intro s core q g w hl hg hr hq hws hready hw
    obtain ⟨rr, run⟩ := execStrideSlot_only hl hg hr hws hready
    obtain ⟨th, hm, hbegin, least⟩ := Warp.begin_of_ready (Gang.groups_of_ready hready)
    obtain ⟨hth, eligible, waits⟩ := Warp.mem_groups.1 hm
    have live : th.exited = false := by
      simp only [Warp.eligible, Bool.and_eq_true, Bool.not_eq_true'] at eligible
      exact eligible.1
    refine ⟨_, w.begin, th, run, rfl, ?_, ?_, hbegin, hth, live, waits, fun u hu he hn => least u (Warp.mem_groups.2 ⟨hu, he, hn⟩)⟩
    · rw [State.quarter_modQuarter _ _ (by simpa using hq)]
    · rw [State.modQuarter, State.warp?_modCore, State.warp?_modWarp _ _ _ (fun v => by unfold Warp.begin; split <;> rfl), hw]
      rfl
  case choice =>
    intro rr ws bounds hne cls
    have slots : ∀ v ∈ ws, v.2.slot < 8 := fun v hv => (bounds v hv).2
    by_cases passed : ∃ v ∈ ws, 60 ≤ v.2.passed
    · obtain ⟨p, hp, chosen, most⟩ := chooseWarp_passed (rr := rr) slots passed
      obtain ⟨v, hv, long⟩ := passed
      exact ⟨p, hp, none, chosen, fun _ => most, fun under => absurd (under v hv) (by omega),
        fun under => absurd (under v hv).1 (by omega)⟩
    have under : ∀ v ∈ ws, v.2.passed < 60 := fun v hv => lt_of_not_ge fun long => passed ⟨v, hv, long⟩
    by_cases unissued : ∃ v ∈ ws, 256 ≤ v.2.unissued
    · obtain ⟨p, hp, chosen, most⟩ := chooseWarp_unissued (rr := rr) slots under unissued
      obtain ⟨v, hv, long⟩ := unissued
      exact ⟨p, hp, none, chosen, fun long => absurd long passed, fun _ _ => most, fun under => absurd (under v hv).2 (by omega)⟩
    · have fresh : ∀ v ∈ ws, v.2.unissued < 256 := fun v hv => lt_of_not_ge fun long => unissued ⟨v, hv, long⟩
      obtain ⟨p, hp, chosen, best⟩ := chooseWarp_class (rr := rr) (fun v hv => (bounds v hv).1) hne under fresh
      refine ⟨p, hp, some (cls p), chosen, fun long => absurd long passed, fun _ long => absurd long unissued,
        fun _ => ⟨rfl, fun v hv => ⟨?_, ?_⟩⟩⟩
      · rcases best v hv with lower | ⟨same, -⟩
        · exact lower.le
        · exact same.le
      · rintro last rfl - same
        rcases best v hv with lower | ⟨-, next⟩
        · exact absurd same lower.ne
        · exact next
  case arrival =>
    intro s gid wi g w st hg hw hst arrives
    refine ⟨?_, ?_, ?_⟩
    · rintro b rfl
      obtain ⟨out, warp⟩ := State.stalled_warp? ⟨s.cores, rfl⟩ hw (.ret true)
      exact ⟨_, execStallDataArrival_ret hw hst, out, warp, trivial⟩
    · rintro a pa rfl ht free
      have read := State.readParam_of_ok (r := (gid, wi)) hg hw ht
      obtain ⟨out, warp⟩ := State.stalled_warp? (t := s.readParam (gid, wi) a) (read ▸ ⟨_, rfl⟩) hw (.param [])
      refine ⟨_, execStallDataArrival_param hw hst free, out, warp, ?_⟩
      dsimp only
      rw [State.core_modWarp, read, State.core_modCore]
      exact Map.get?_put_self ..
    · rintro rs rfl free
      obtain ⟨out, warp⟩ := State.stalled_warp? (s.coresOnly_readRecords (gid, wi) rs) hw (.record [])
      exact ⟨_, execStallDataArrival_record hw hst free, out, warp, trivial⟩
  case clock =>
    intro s c
    refine ⟨fun idle runs => ⟨_, execClockGate_idle idle runs, rfl, rfl, State.core_modCore .., fun k hk => State.core_modCore_ne _ _ hk⟩,
      execClockGate_busy, fun u gated wakes => ⟨fun due => ?_, execWake_early gated wakes⟩⟩
    exact ⟨_, execWake_due gated wakes due, rfl, rfl, State.core_modCore s c Core.awake, fun k hk => State.core_modCore_ne s Core.awake hk⟩

end Sys2Proof.Machine
end

/-!
Rejoin masks (R166, R254): an arrival by which a wait elsewhere in the block becomes hopeless.
-/
section
namespace Sys2Proof.Machine

/-! ### A jwait by which another thread's wait at a bobbin becomes hopeless -/

/-- Thread 0, which arrives at j0. -/
def arrivingThread : Thread := { t := 0, bi := 0, pc := 0, m := [{}, {}] }

/-- Thread 1, which waits at a bget for a slot to be filled, its destination m0 and m1 empty meanwhile (R275). -/
def awaitingThread : Thread :=
  { t := 1, bi := 1, pc := 1, m := [{ full := false }, { full := false }], wait := .phase ⟨0, 0⟩ 0 none (.m 0 2) (some 0) }

/-- Their warp: j0 holds both. -/
def stuckWarp : Warp :=
  { wi := 0, core := 0, quarter := 0, slot := 0, homeCore := 0, homeSlot := 0, j := 3 :: List.replicate 15 0,
    stride := some { pc := 0, n := 0 }, threads := [arrivingThread, awaitingThread] }

/-- The object whose phase 0 thread 1 waits on, complete once 1,024 bytes have landed. -/
def stuckObj : Obj :=
  { ref := ⟨0, 0⟩, clu := false, scope := .core, expArr := 1, arr := 0, expBytes := 1024, members := 1, bib := 0, exited := 0,
    shortCur := false, keep := false }

/-- Their gang, of this warp only. -/
def stuckGang : Gang :=
  { gid := 0, bib := 0, world := 0, launch := 0, block := 0, blockT := 2, threadsN := 2, cores := [0], n := 2, spBytes := 64, minop := 0,
    prio := 0, levels := [], windows := [], root := none, sp := [[]], rowBase := [0], objs := [stuckObj], warps := [stuckWarp] }

/-- The machine in whose issue slot the warp stands. -/
def stuckState : State := { State.reset with cur := some (0, 0), gangs := [stuckGang] }

/-- The issue of thread 0. -/
def stuckIss : Iss := { r := (0, 0), g := stuckGang, w := stuckWarp, pc := 0, act := [arrivingThread], on := [arrivingThread] }

theorem stuckIss_issues : Issues stuckState leavingHdr stuckIss := ⟨rfl, by decide⟩

/-- The main registers of thread 1 after an outcome. -/
def awaitingRegs (o : Host.Outcome State Fault Refusal) : Option (List Reg) :=
  match o with
  | .next u => ((u.warp? (0, 0)).bind fun w => w.thread? 1).map (·.m)
  | _ => none

theorem stuckState_refills : awaitingRegs (exec (.jwait leavingHdr noOps 0) stuckState) = some [{}, {}] := by decide +kernel

/-- Refutes O11 in its clause of threads that are not of the issue: an arrival after which no wait of the block can end makes F_UNREACH due
in a thread that waits on an object (`State.unreachBlock`, R254), whose destination is full again. -/
theorem not_rejoinsComplete : ¬ Obligations.RejoinsComplete := by
  rintro ⟨-, arrivals, -⟩
  have limits : ∀ v ∈ stuckWarp.threads, ∀ j z e, v.wait = .jwait j (some (z, e)) → stuckState.now 0 ≤ z := by
    simp [stuckWarp, arrivingThread, awaitingThread]
  obtain ⟨⟨t, w, ht, -, hw, -, -, -, -, threads⟩, -⟩ :=
    arrivals leavingHdr noOps 0 stuckState stuckIss stuckIss_issues (by decide) rfl limits (by simp [stuckIss, arrivingThread])
  obtain ⟨u, hu, -, -, -, -, -, beside⟩ := threads awaitingThread (by decide)
  obtain ⟨-, kept⟩ := beside (by decide) (.inl (by decide))
  have refilled := stuckState_refills
  simp only [ht, awaitingRegs, show t.warp? (0, 0) = some w from hw, Option.bind_some, show w.thread? 1 = some u from hu, Option.map_some,
    kept] at refilled
  exact absurd refilled (by decide)

end Sys2Proof.Machine
end

/-!
Exchanges (R157 to R164): what a synchronising instruction does where every presenting thread's group is whole, and the scratchpad stores
that a wsync performs.
-/
section
namespace Sys2Proof.Machine

/-! ### Whole groups (R157) -/

/-- Every presenting thread is in its own membership, no two memberships overlap and differ, and each member that has not exited is in the
active set. -/
def Iss.whole (i : Iss) (mem : Thread → TMask) : Prop :=
  ∀ th ∈ i.on, (mem th).getLsbD th.t ∧ (∀ u ∈ i.on, (mem u).getLsbD th.t → mem u = mem th) ∧
    ∀ u ∈ i.w.threads, (mem th).getLsbD u.t → u.exited = false → u ∈ i.act

namespace Iss.whole

variable {i : Iss} {mem : Thread → TMask} {th : Thread}

theorem complete (hw : i.whole mem) (hm : th ∈ i.on) : i.complete (mem th) = true := by
  obtain ⟨-, -, members⟩ := hw th hm
  rw [Iss.complete, List.all_eq_true]
  intro u hu
  cases inside : (mem th).getLsbD u.t
  · simp
  cases exited : u.exited
  · simpa using ⟨u, members u hu inside exited, rfl⟩
  · simp

theorem maskFault (hw : i.whole mem) (hN : (i.on.map (·.t)).Nodup) (hm : th ∈ i.on) :
    maskFault (i.on.map fun u => (u.t, mem u)) th = none := by
  obtain ⟨inside, agree, -⟩ := hw th hm
  have own : (i.on.map fun u => (u.t, mem u)).find? (fun p => p.1 = th.t) = some (th.t, mem th) := by
    rw [List.find?_map]
    exact congrArg _ (find?_thread hN hm)
  have overlap : ((i.on.map fun u => (u.t, mem u)).any fun q => q.2 ≠ mem th && (q.2.getLsbD th.t || (mem th).getLsbD q.1)) = false := by
    simp only [List.any_map, List.any_eq_false, Function.comp]
    intro u hu
    by_cases same : mem u = mem th
    · simp [same]
    have apart : (mem u).getLsbD th.t = false := Bool.eq_false_iff.2 fun e => same (agree u hu e)
    have apart' : (mem th).getLsbD u.t = false := Bool.eq_false_iff.2 fun e => same ((hw u hu).2.1 th hm e).symm
    simp [apart, apart']
  simp only [Machine.maskFault, own, inside, Bool.not_true, Bool.false_eq_true, if_false, overlap]

end Iss.whole

/-! ### A synchronising instruction whose groups are whole -/

/-- Where every group is whole, all presenting threads act: they move on, each group has its effect, each writes D, and the issue closes. -/
theorem State.syncForm_of_whole {s : State} {h : Hdr} {i : Iss} (hi : Issues s h i) (hon : i.on ≠ []) (x : VOps) (full : Bool) (n : Wid)
    (extra : Nat) (val : Iss → List Thread → Thread → Nat) (also : Iss → TMask → State → State) (busy : Iss → TMask → Bool)
    (hw : i.whole (s.membership i x full))
    (hr : ∀ th ∈ i.on, i.ready s (flds x n.a n.b (if full then 0 else 4)) (if n.d = 0 then [] else [⟨x.d, n.d⟩]) false x.imm th)
    (hb : ∀ th ∈ i.on, busy i (s.membership i x full th) = false) :
    s.syncForm h x full n extra val also busy = .next
      ((i.on.foldl (fun s1 th => s1.modWarp i.r fun w => w.put th.t x.d n.d (val i (i.mates (s.membership i x full) th) th))
        ((i.on.map (s.membership i x full)).eraseDups.foldl (fun s m => also i m s)
          (s.modWarp i.r (i.base s.tick (s.windowOver i.g i.w (flds x n.a n.b (if full then 0 else 4)) x.imm))))).closeIssue
          i h.e extra false) := by
  have hgate := State.gate_go hr fun th hm => hw.maskFault (Iss.on_nodup hi.1 hi.2) hm
  have acting : (i.on.filter fun th => i.complete (s.membership i x full th)) = i.on :=
    List.filter_eq_self.2 fun th hm => hw.complete hm
  have held : (i.on.filter fun th => !i.complete (s.membership i x full th)) = [] :=
    List.filter_eq_nil_iff.2 fun th hm => by simp [hw.complete hm]
  have group : ∀ m ∈ (i.on.map (s.membership i x full)).eraseDups, ∃ th ∈ i.on, s.membership i x full th = m := fun m hm =>
    List.mem_map.1 (List.mem_eraseDups.1 hm)
  have groups : (i.on.map (s.membership i x full)).eraseDups.filter i.complete = (i.on.map (s.membership i x full)).eraseDups :=
    List.filter_eq_self.2 fun m hm => by
      obtain ⟨th, hth, rfl⟩ := group m hm
      exact hw.complete hth
  have idle : (i.on.map (s.membership i x full)).eraseDups.any (busy i) = false := by
    rw [List.any_eq_false]
    intro m hm
    obtain ⟨th, hth, rfl⟩ := group m hm
    simp [hb th hth]
  unfold flds at hgate
  simp only [State.syncForm, run, hi.1, hon, if_false, hgate, State.through, acting, held, groups, idle, Bool.false_eq_true, List.map_nil,
    List.foldl_nil, State.closeSome, if_true, flds, State.advance_noteOver]

/-- A thread after an exchange: a presenting one carries $pwerr of the windows read beyond their bound, and its value in D. -/
def Iss.exchanged (i : Iss) (s : State) (src : List Fld) (x : VOps) (n : Nat) (v : Thread → Nat) (th : Thread) : Thread :=
  let th1 := i.moved s.tick th
  if th ∈ i.on then ({ th1 with pwerr := th1.pwerr ||| s.windowOver i.g i.w src x.imm }).put x.d n (v th) else th1

/-- AN EXCHANGE COMPLETES where every group is whole and its operands stand ready: it writes D of each presenting thread and nothing else. -/
theorem State.syncForm_completes {s : State} {h : Hdr} {i : Iss} (hi : Issues s h i) (x : VOps) (full : Bool) (n : Wid) (extra : Nat)
    (val : Iss → List Thread → Thread → Nat) {v : Thread → Nat}
    (hw : i.whole (s.membership i x full))
    (hr : ∀ th ∈ i.on, i.ready s (flds x n.a n.b (if full then 0 else 4)) (if n.d = 0 then [] else [⟨x.d, n.d⟩]) false x.imm th)
    (hv : ∀ th ∈ i.on, val i (i.mates (s.membership i x full) th) th = v th) :
    ∃ t, s.syncForm h x full n extra val = .next t ∧
      Keeps s t i (i.scalars i.on x.d n.d v) (i.exchanged s (flds x n.a n.b (if full then 0 else 4)) x n.d v) := by
  obtain ⟨-, -, hwarp, -, -, -⟩ := State.iss?_some hi.1
  by_cases hon : i.on = []
  · obtain ⟨t, ht, keeps⟩ := run_guardFalse hi.1 hi.2 hon _
    refine ⟨t, ht, ?_⟩
    rw [show i.scalars i.on x.d n.d v = i.w by rw [hon]; unfold Iss.scalars; cases x.d <;> rfl,
      show i.exchanged s (flds x n.a n.b (if full then 0 else 4)) x n.d v = i.moved s.tick by funext th; simp [Iss.exchanged, hon]]
    exact keeps
  rw [State.syncForm_of_whole hi hon x full n extra val _ _ hw hr fun _ _ => rfl]
  refine ⟨_, rfl, ?_⟩
  rw [List.foldl_fixed, State.foldl_modWarp i.r _ (fun _ _ => Warp.put_wi ..), State.modWarp_modWarp _ _ _ _ (by intro w; rfl)]
  have written (w : Warp) : i.on.foldl (fun w th => w.put th.t x.d n.d (val i (i.mates (s.membership i x full) th) th)) w =
      writesOf i.on x.d n.d (fun _ u => u) v w := by
    refine List.foldl_ext _ _ _ fun w th hm => ?_
    rw [hv th hm]
    congr 1
    simp [Warp.modThread]
  simp only [written]
  refine State.modWarp_closes hwarp (by intro w; rw [writesOf_wi]; rfl) ?_ ?_ (fun th hm => ?_) h.e extra false
  · rw [writesOf_outside]
    unfold Iss.scalars
    cases x.d <;> rfl
  · rw [writesOf_s]
    unfold Iss.scalars
    cases x.d <;> rfl
  · rw [Iss.writesOf_thread? hi (fun _ hu => Iss.base_thread hi.1 hi.2 _ hu) hm _ _ fun _ _ => rfl]
    by_cases on : th ∈ i.on
    · simp [Iss.exchanged, on, Iss.moved, Iss.mem_act_of_on hi.1 on]
    · simp [Iss.exchanged, on]

/-! ### Values (R160 to R164) -/

/-- The numbers of the present members whose predicate is 1. -/
def votersOf (ps : List Thread) (pred : Thread → Bool) : List Nat := (ps.filter pred).map (·.t)

section
variable (ps : List Thread) (pred : Thread → Bool)

theorem filter_predicates : ((ps.map fun th => (th.t, pred th)).filter (·.2)).map (·.1) = votersOf ps pred := by
  rw [List.filter_map, List.map_map]
  rfl

theorem voteN_count : voteN .count (ps.map fun th => (th.t, pred th)) = (votersOf ps pred).length + 256 * ps.length := by
  simp only [voteN, filter_predicates, List.length_map]

theorem foldl_add_pow (l : List Nat) (n : Nat) : l.foldl (fun n t => n + 2 ^ t) n = n + (l.map fun k => 2 ^ k).sum := by
  induction l generalizing n with
  | nil => rfl
  | cons t l ih => rw [List.foldl_cons, ih, List.map_cons, List.sum_cons, Nat.add_assoc]

theorem voteN_mask : voteN .mask (ps.map fun th => (th.t, pred th)) = ((votersOf ps pred).map fun k => 2 ^ k).sum := by
  simp only [voteN, filter_predicates, foldl_add_pow, Nat.zero_add]

theorem leastBy_id (l : List Nat) : leastBy id l = l.min? := by
  by_cases h : l = []
  · subst h
    rfl
  · obtain ⟨x, hx, hm, least⟩ := exists_leastBy id h
    rw [hx, List.min?_eq_some_iff.2 ⟨hm, least⟩]

theorem voteN_low : voteN .low (ps.map fun th => (th.t, pred th)) = (votersOf ps pred).min?.getD 0xFFFFFFFF := by
  simp only [voteN, filter_predicates, leastBy_id]

theorem foldl_some_max (l : List Nat) (m : Nat) :
    l.foldl (fun (b : Option Nat) t => some (max (b.getD 0) t)) (some m) = some (l.foldl max m) := by
  induction l generalizing m with
  | nil => rfl
  | cons t l ih => exact ih (max m t)

theorem foldl_none_max (l : List Nat) : l.foldl (fun (b : Option Nat) t => some (max (b.getD 0) t)) none = l.max? := by
  cases l with
  | nil => rfl
  | cons t l => rw [List.foldl_cons, Option.getD_none, Nat.zero_max, foldl_some_max, List.max?_cons']

theorem voteN_high : voteN .high (ps.map fun th => (th.t, pred th)) = (votersOf ps pred).max?.getD 0xFFFFFFFF := by
  simp only [voteN, filter_predicates, foldl_none_max]

end

/-- The predicate of a vote, by the fields of IMM21 (R161). -/
theorem votePredicate_eq (th : Thread) (imm : BitVec 21) : (th.guard (BitVec.ofNat 3 (bitsN imm.toNat 0 3)) != bitN imm.toNat 3) =
    xor (th.guard (imm.extractLsb' 0 3)) (imm.getLsbD 3) := by
  have guard : BitVec.ofNat 3 (bitsN imm.toNat 0 3) = imm.extractLsb' 0 3 := by
    apply BitVec.eq_of_toNat_eq
    simp [bitsN]
  rw [guard, bitN_eq_testBit]
  rfl

/-! ### Scratchpad stores performed by a wsync (R162) -/

theorem State.warp?_modGang_of_warps (s : State) (gid : Nat) {f : Gang → Gang} (hg : ∀ g, (f g).gid = g.gid)
    (hw : ∀ g, (f g).warps = g.warps) (r : WRef) : (s.modGang gid f).warp? r = s.warp? r := by
  unfold State.warp?
  by_cases h : r.1 = gid
  · rw [h, State.gang?_modGang _ _ _ hg, Option.bind_map]
    congr 1
    funext g
    simp only [Function.comp, Gang.warp?, hw]
  · rw [State.gang?_modGang_ne _ _ h hg]

/-- Fewer accesses are on their way; global memory and the warps are as before. -/
structure Settles (s t : State) : Prop where
  mem : t.mem = s.mem
  warps : ∀ r, t.warp? r = s.warp? r
  flights : ∀ f ∈ t.flights, f ∈ s.flights

namespace Settles

variable {s t u : State}

theorem rfl : Settles s s := ⟨Eq.refl _, fun _ => Eq.refl _, fun _ h => h⟩

theorem trans (h : Settles s t) (k : Settles t u) : Settles s u :=
  ⟨k.mem.trans h.mem, fun r => (k.warps r).trans (h.warps r), fun f hf => h.flights f (k.flights f hf)⟩

theorem foldl {α : Type} {f : State → α → State} (hf : ∀ t a, Settles t (f t a)) (l : List α) (s : State) : Settles s (l.foldl f s) := by
  induction l generalizing s with
  | nil => exact .rfl
  | cons a l ih => exact (hf s a).trans (ih _)

/-- What a step of a fold leaves of its element, the fold leaves of them all. -/
theorem foldl_gone {α : Type} {f : State → α → State} (hf : ∀ t a, Settles t (f t a)) {gone : α → Flight → Prop}
    (hg : ∀ t a, ∀ k ∈ (f t a).flights, gone a k) (l : List α) (s : State) : ∀ a ∈ l, ∀ k ∈ (l.foldl f s).flights, gone a k := by
  induction l generalizing s with
  | nil => exact fun _ h => nomatch h
  | cons b l ih =>
    intro a ha k hk
    rcases List.mem_cons.1 ha with rfl | ha
    · exact hg s a k ((foldl hf l _).flights k hk)
    · exact ih (f s b) a ha k hk

theorem performPad (k : Flight) : Settles s (s.performPad k) := by
  unfold State.performPad
  split
  · exact ⟨Eq.refl _, fun r => State.warp?_modGang_of_warps s _ (by intro g; exact Eq.refl _) (by intro g; exact Eq.refl _) r,
      fun f hf => List.mem_of_mem_filter hf⟩
  · exact .rfl

theorem flushPads (r : WRef) (want : Flight → Bool) : Settles s (s.flushPads r want) := foldl (fun _ k => performPad k) _ s

theorem unveil (gid : Nat) : Settles s (s.unveil gid) :=
  ⟨Eq.refl _, fun r => State.warp?_modGang_of_warps s _ (by intro g; exact Eq.refl _) (by intro g; exact Eq.refl _) r, fun _ h => h⟩

end Settles

/-- A warp's store to scratchpad. -/
def Flight.isPadStore (r : WRef) (f : Flight) : Prop := f.gid = r.1 ∧ f.wi = r.2 ∧ f.isStore = true ∧ ∃ c o, f.place = .pad c o

theorem State.mem_padStores {s : State} {r : WRef} {want : Flight → Bool} {f : Flight} :
    f ∈ s.padStores r want ↔ f ∈ s.flights ∧ f.isPadStore r ∧ want f = true := by
  simp only [State.padStores, List.mem_filter, Flight.isPadStore]
  cases f.place <;> simp [and_assoc]

/-- Of the stores flushed none is on its way. -/
theorem State.flushPads_gone (s : State) (r : WRef) (want : Flight → Bool) {f : Flight} (hf : f ∈ (s.flushPads r want).flights)
    (hr : f.isPadStore r) : want f = false := by
  rw [Bool.eq_false_iff]
  intro wanted
  have due : f ∈ s.padStores r want := State.mem_padStores.2 ⟨(Settles.flushPads r want).flights f hf, hr, wanted⟩
  obtain ⟨-, -, -, c, o, place⟩ := hr
  refine Settles.foldl_gone (gone := fun k g => (∃ c o, k.place = .pad c o) → g.id ≠ k.id) (fun _ k => Settles.performPad k)
    (fun t k g hg hp => ?_) _ s f due f hf ⟨c, o, place⟩ rfl
  obtain ⟨c, o, hp⟩ := hp
  simp only [State.performPad, hp, State.dropFlight, List.mem_filter, decide_eq_true_eq] at hg
  exact hg.2

/-- What a wsync of a group does beside moving it on. -/
def State.syncPads (s : State) (r : WRef) (m : TMask) : State :=
  (s.flushPads r fun f => m.getLsbD f.t && !f.gw).unveil r.1

theorem Settles.syncPads {s : State} (r : WRef) (m : TMask) : Settles s (s.syncPads r m) := (flushPads r _).trans (unveil r.1)

/-- After the wsync of several groups no scratchpad store of a member is on its way. -/
theorem State.foldl_syncPads (s : State) (r : WRef) (ms : List TMask) :
    Settles s (ms.foldl (fun s m => s.syncPads r m) s) ∧
      ∀ f ∈ (ms.foldl (fun s m => s.syncPads r m) s).flights, f.isPadStore r → f.gw = false → ∀ m ∈ ms, m.getLsbD f.t = false := by
  refine ⟨Settles.foldl (fun _ m => Settles.syncPads r m) ms s, fun f hf hp hgw m hm => ?_⟩
  refine Settles.foldl_gone (gone := fun m f => f.isPadStore r → f.gw = false → m.getLsbD f.t = false) (fun _ m => Settles.syncPads r m)
    (fun t m f hf hp hgw => ?_) ms s m hm f hf hp hgw
  simpa [hgw] using State.flushPads_gone t r _ hf hp

/-- A wsync whose groups are whole and whose stores nothing holds back completes, and its members' scratchpad stores with it. -/
theorem execWsync_completes {s : State} {h : Hdr} {i : Iss} (hi : Issues s h i) (x : VOps) (full : Bool)
    (hw : i.whole (s.membership i x full))
    (hr : ∀ th ∈ i.on, i.ready s (flds x 0 0 (if full then 0 else 4)) [] false x.imm th)
    (free : ∀ th ∈ i.on, s.flushHeld i.r (fun f => (s.membership i x full th).getLsbD f.t && !f.gw) = false) :
    ∃ t, exec (.wsync h x full) s = .next t ∧ t.mem = s.mem ∧ (∀ f ∈ t.flights, f ∈ s.flights) ∧
      (∀ f ∈ t.flights, f.isPadStore i.r → f.gw = false → ∀ th ∈ i.on, (s.membership i x full th).getLsbD f.t = false) ∧
      ∃ w, t.warp? i.r = some w ∧ w.s = i.w.s ∧ ∀ th ∈ i.act, ∃ u, w.thread? th.t = some u ∧ u.pc = nextPc i.pc ∧ u.m = th.m := by
  obtain ⟨-, -, hwarp, -, -, -⟩ := State.iss?_some hi.1
  by_cases hon : i.on = []
  · obtain ⟨t, ht, keeps⟩ := run_guardFalse hi.1 hi.2 hon _
    obtain ⟨w, hw, -, hs, threads⟩ := keeps.thread
    refine ⟨t, ht, State.mem_of_outside keeps.outside, fun f hf => State.flights_of_outside keeps.outside ▸ hf,
      fun _ _ _ _ th hm => by simp [hon] at hm, w, hw, hs, fun th hact => ?_⟩
    obtain ⟨u, hu, hpc, -, hm, -⟩ := threads th (Iss.mem_threads_of_act hi.1 hact)
    exact ⟨u, hu, by simpa [Iss.moved, hact] using hpc, by simpa [Iss.moved, hact] using hm⟩
  have closed := State.syncForm_of_whole hi hon x full { d := 0, a := 0 } 0 (fun _ _ _ => 0) (fun i m s1 => s1.syncPads i.r m)
    (fun i m => s.flushHeld i.r fun f => m.getLsbD f.t && !f.gw) hw hr free
  simp only [Warp.put_zero, State.modWarp_id, List.foldl_fixed] at closed
  refine ⟨_, closed, ?_⟩
  generalize s.windowOver i.g i.w (flds x 0 0 (if full then 0 else 4)) x.imm = past
  obtain ⟨settled, gone⟩ := (s.modWarp i.r (i.base s.tick past)).foldl_syncPads i.r (i.on.map (s.membership i x full)).eraseDups
  generalize (i.on.map (s.membership i x full)).eraseDups.foldl (fun s m => s.syncPads i.r m) (s.modWarp i.r (i.base s.tick past)) = t
    at settled gone
  have moved : t.warp? i.r = some (i.base s.tick past i.w) := by
    rw [settled.warps, State.warp?_modWarp _ _ _ (by intro w; rfl), hwarp]
    rfl
  have made : Made t t i (i.base s.tick past i.w) fun th =>
      if th ∈ i.on then { i.moved s.tick th with pwerr := th.pwerr ||| past } else i.moved s.tick th :=
    ⟨fun _ => rfl, fun _ _ => rfl, fun _ => rfl, _, moved, rfl, rfl, fun th hm => Iss.base_thread hi.1 hi.2 past hm⟩
  obtain ⟨w, hw, -, hs, threads⟩ := (State.closeIssue_leaves made h.e 0 false).thread
  refine ⟨(State.mem_of_outside (State.closeIssue_outside ..)).trans settled.mem, fun f hf => ?_, fun f hf hp hgw th hm => ?_,
    w, hw, hs, fun th hact => ?_⟩
  · rw [State.closeIssue_flights] at hf
    exact settled.flights f hf
  · rw [State.closeIssue_flights] at hf
    exact gone f hf hp hgw _ (List.mem_eraseDups.2 (List.mem_map_of_mem hm))
  · obtain ⟨u, hu, hpc, -, hm, -⟩ := threads th (Iss.mem_threads_of_act hi.1 hact)
    refine ⟨u, hu, hpc.trans ?_, hm.trans ?_⟩
    · split <;> simp [Iss.moved, hact]
    · split <;> simp [Iss.moved, hact]

/-! ### The forms -/

section
variable (h : Hdr) (x : VOps) (t : Ty) (full : Bool) (s : State)

theorem exec_shfl (mode : Shf) : exec (.shfl h x t mode full) s = s.exchange h x t full 0 (shflSrc mode) := rfl

theorem exec_shflw (mode : Shf) : exec (.shflw h x t mode full) s = s.exchange h x t full 8 (shflwSrc mode) := rfl

theorem exec_bcast : exec (.bcast h x t full) s = s.exchange h x t full 1 fun _ b => b % 128 := rfl

theorem exec_vread : exec (.vread h x t full) s = s.exchange h x t full 0 fun k b => b % 8 * 16 + k % 16 := rfl

/-- The value of a vote for a present member (R161). -/
def voteVal (x : VOps) (mode : Vote) (_ : Iss) (ps : List Thread) (_ : Thread) : Nat :=
  voteN mode (ps.map fun th => (th.t, xor (th.guard (x.imm.extractLsb' 0 3)) (x.imm.getLsbD 3)))

theorem exec_vote (mode : Vote) : exec (.vote h x mode full) s =
    s.syncForm h x full { d := match mode with | .mask => 4 | _ => 1, a := 0 } 1 (voteVal x mode) := by
  change execVote h x mode full s = _
  simp only [execVote, votePredicate_eq]
  rfl

/-- The value of a reduction for a present member (R163). -/
def rdxVal (s : State) (x : VOps) (t : Ty) (op : Rdx) (i : Iss) (ps : List Thread) (th : Thread) : Nat :=
  rdxN t op (x.imm.getLsbD 0) (fun u => (ps.find? fun p => p.t = u).map fun p => s.value i.g i.w p x.a 1 x.imm) th.t

theorem exec_rdx (op : Rdx) : exec (.rdx h x t op full) s =
    s.syncForm h x full { d := 1, a := 1 } (if x.imm.getLsbD 0 then 8 else 4) (rdxVal s x t op) := by
  change execRdx h x t op full s = _
  have warp : bitN x.imm.toNat 0 = x.imm.getLsbD 0 := bitN_eq_testBit ..
  simp only [execRdx, warp]
  rfl

end

/-- Settles O10: each form is `State.syncForm` with its own value, and a wsync's effect is the flush of its groups' stores. -/
theorem exchangesComplete : Obligations.ExchangesComplete := by
  refine ⟨?exchanges, ?wsync⟩
  case wsync =>
    intro h x full s i hi mem whole ready free
    obtain ⟨t, ht, mem_eq, fewer, gone, warp⟩ := execWsync_completes hi x full whole ready free
    exact ⟨t, ht, mem_eq, fewer, fun f hf hg hw hs hgw hp th hm _ => gone f hf ⟨hg, hw, hs, hp⟩ hgw th hm, warp⟩
  case exchanges =>
    intro h x t full s i hi mem whole mates from_ writes w b lane pred yes
    have form {ins : Instr} {n a b extra : Nat} {val : Iss → List Thread → Thread → Nat} {v : Thread → Nat}
        (he : exec ins s = s.syncForm h x full { d := n, a := a, b := b } extra val)
        (hv : ∀ th, val i (mates th) th = v th) : writes ins n a b v := by
      intro ready
      obtain ⟨u, hu, keeps⟩ := State.syncForm_completes hi x full { d := n, a := a, b := b } extra val whole ready fun th _ => hv th
      exact ⟨u, he.trans hu, keeps⟩
    have moves {ins : Instr} {extra : Nat} {src : Nat → Nat → Nat} (he : exec ins s = s.exchange h x t full extra src) :
        writes ins w w 1 fun th => from_ w th (src th.t (b th)) := form he fun _ => rfl
    refine ⟨moves (exec_shfl h x t full s .pick), moves (exec_shfl h x t full s .rot), moves (exec_shfl h x t full s .flip),
      moves (exec_shfl h x t full s .seg), moves (exec_shflw h x t full s .pick), moves (exec_shflw h x t full s .rot),
      moves (exec_shflw h x t full s .flip), moves (exec_bcast h x t full s), moves (exec_vread h x t full s),
      form (exec_vote h x full s .count) fun th => voteN_count (mates th) pred,
      form (exec_vote h x full s .mask) fun th => voteN_mask (mates th) pred,
      form (exec_vote h x full s .low) fun th => voteN_low (mates th) pred,
      form (exec_vote h x full s .high) fun th => voteN_high (mates th) pred,
      fun op => form (exec_rdx h x t full s op) fun _ => rfl⟩

end Sys2Proof.Machine
end

/-!
Launch queues and operating-point requests (R178, R182, R208, R323, R324): what a record placed at a queue's tail leaves, and what an
accepted opreq asks for.
-/
section
namespace Sys2Proof.Machine

/-! ### Launch queues (R178) -/

/-- A world's queue by its number is that world's, of that number. -/
theorem State.queue_names (s : State) (world q : Nat) : (s.queue world q).world = world ∧ (s.queue world q).q = q := by
  unfold State.queue
  cases found : s.queues.find? fun k => k.world = world && k.q = q with
  | none => exact ⟨rfl, rfl⟩
  | some k => simpa using List.find?_some found

theorem State.queue_congr {s t : State} (same : t.queues = s.queues) (world q : Nat) : t.queue world q = s.queue world q := by
  rw [State.queue, same, State.queue]

/-- A record at the tail of a queue. -/
def Queue.tailed (k : Queue) (a : Nat) (root : Option Nat) : Queue := { k with records := k.records ++ [(a, root)] }

/-- The queue after a record has been placed there. -/
theorem State.queue_tailed (s : State) (world q a : Nat) (root : Option Nat) :
    (s.putQueue ((s.queue world q).tailed a root)).queue world q = (s.queue world q).tailed a root := by
  obtain ⟨hw, hq⟩ := s.queue_names world q
  generalize s.queue world q = k at hw hq
  simp [State.putQueue, State.queue, Queue.tailed, hw, hq]

theorem State.enqueue_room {s : State} {world q : Nat} (room : (s.queue world q).used < 16) (a : Nat) (root : Option Nat) :
    s.enqueue world q a root = (s.putQueue ((s.queue world q).tailed a root), 0) := if_neg (not_le.2 room)

theorem State.enqueue_full {s : State} {world q : Nat} (full : ¬ (s.queue world q).used < 16) (a : Nat) (root : Option Nat) :
    s.enqueue world q a root = (s, 0x00300000) := if_pos (not_lt.1 full)

/-! ### launch (R323) -/

section
variable {s : State} {h : Hdr} {i : Iss} {x : VOps} {th : Thread}

theorem Iss.on_ne_nil_of_who (who : (if x.d.cls = .m then i.on else i.on.take 1) = [th]) : i.on ≠ [] := by
  rintro empty
  simp [empty] at who

/-- R323: a launch of one thread whose stores are performed places its record, and its status is on its way. -/
theorem execLaunch_one (hi : Issues s h i) (who : (if x.d.cls = .m then i.on else i.on.take 1) = [th])
    (ready : i.ready s [⟨x.a, 2⟩, ⟨x.b, 1⟩] [⟨x.d, 1⟩] false x.imm th) (aligned : i.arg s x.imm x.a 2 th % 256 = 0)
    (number : i.arg s x.imm x.b 1 th < 64) (done : s.writesDone i.r th.t .dev (fun _ => true) = true) :
    ∃ base : State, base.outside = s.outside ∧
      let placed := base.enqueue i.g.world (i.arg s x.imm x.b 1 th) (i.arg s x.imm x.a 2 th) i.g.root
      exec (.launch h x) s = .next ((placed.1.later i th x.d 1 placed.2).closeIssue i h.e 0 false) := by
  have gate := State.gate_go (who := [th])
    (chk := fun th => firstFault [(i.arg s x.imm x.a 2 th % 256 = 0, fAlign, i.arg s x.imm x.a 2 th),
      (decide (i.arg s x.imm x.b 1 th < 64), fIllmod, i.arg s x.imm x.b 1 th)])
    (by simpa using ready) (by simp [firstFault, aligned, number])
  unfold Iss.arg at gate
  refine ⟨s.modWarp i.r (i.base s.tick (s.windowOver i.g i.w [⟨x.a, 2⟩, ⟨x.b, 1⟩] x.imm)), rfl, ?_⟩
  show execLaunch h x s = _
  simp only [execLaunch, run, hi.1, if_neg (Iss.on_ne_nil_of_who who), who, gate, State.through, List.all_cons, List.all_nil, done,
    Bool.and_self, Bool.not_true, Bool.false_eq_true, if_false, List.foldl_cons, List.foldl_nil, State.advance_noteOver]
  rfl

/-- A status sent on its way leaves the memory, the launches and the queues. -/
theorem State.later_closed_frame (t : State) (d : Opnd) (v : Nat) (e : Bool) :
    let u := (t.later i th d 1 v).closeIssue i e 0 false
    u.mem = t.mem ∧ u.launches = t.launches ∧ u.queues = t.queues := by
  intro u
  have still : u.still = t.still := by
    rw [State.still, State.closeIssue_outside]
    exact Departs.later.still
  exact ⟨(congrArg State.mem still :), (congrArg State.launches still :), (congrArg State.queues still :)⟩

theorem State.later_closed_flies {t : State} (from_ : s.nextId ≤ t.nextId) {d : Opnd} (hd : d.cls = .m ∨ d.cls = .s) (v : Nat) (e : Bool) :
    i.flies s ((t.later i th d 1 v).closeIssue i e 0 false) th fun f => f.act = .value v ∧ f.dst = opDst d 1 := by
  obtain ⟨dst, hdst⟩ := opDst_some hd 1
  obtain ⟨f, hf, id, hg, hw, ht, act, dest⟩ := State.later_carries (s := t) (i := i) (th := th) (v := v) hdst
    (P := i.sentBy th fun f => f.act = .value v ∧ f.dst = opDst d 1) fun _ _ => ⟨rfl, rfl, rfl, rfl, hdst.symm⟩
  exact ⟨f, (State.closeIssue_flights ..).symm ▸ hf, from_.trans id, hg, hw, ht, act, dest⟩

end

/-! ### Rows and pre-emptions of a step downward (R182, R208) -/

/-- A change of a gang's warps leaves the rows that are allocated. -/
theorem State.rowsUsed_modWarp (s : State) (r : WRef) (f : Warp → Warp) (c : Nat) : (s.modWarp r f).rowsUsed c = s.rowsUsed c := by
  have same (g : Gang) : (if g.gid = r.1 then g.modWarp r.2 f else g).cores = g.cores ∧
      (if g.gid = r.1 then g.modWarp r.2 f else g).rowsOn c = g.rowsOn c := by split <;> exact ⟨rfl, rfl⟩
  simp only [State.rowsUsed, State.onCore, State.modWarp, State.modGang, ← List.map_append, List.filter_map, List.flatMap_map,
    Function.comp_def, (same _).1, (same _).2]

theorem State.highWater_modWarp (s : State) (r : WRef) (f : Warp → Warp) (c : Nat) : (s.modWarp r f).highWater c = s.highWater c := by
  rw [State.highWater, State.rowsUsed_modWarp, State.highWater]

theorem State.askedFor_modWarp (s : State) (r : WRef) (f : Warp → Warp) (k : Nat) : (s.modWarp r f).askedFor k = s.askedFor k := by
  have same (g : Gang) : (if g.gid = r.1 then g.modWarp r.2 f else g).ctl = g.ctl ∧
      (if g.gid = r.1 then g.modWarp r.2 f else g).minop = g.minop ∧ (if g.gid = r.1 then g.modWarp r.2 f else g).cores = g.cores ∧
      (if g.gid = r.1 then g.modWarp r.2 f else g).gid = g.gid := by split <;> exact ⟨rfl, rfl, rfl, rfl⟩
  have cap (c : Nat) : (s.modWarp r f).capAt c k = s.capAt c k := rfl
  simp only [State.askedFor, State.highWater_modWarp, cap]
  simp only [State.modWarp, State.modGang, List.filter_map, List.map_map, Function.comp_def, same]

/-- Of gangs numbered apart, a step downward asks for those whose MINOP does not reach the point and those whose rows do not fit (R182). -/
theorem State.mem_askedFor {s : State} {g : Gang} (hg : g ∈ s.gangs)
    (tenant : g.ctl = false) (apart : (s.gangs.map (·.gid)).Nodup) (k : Nat) :
    g.gid ∈ s.askedFor k ↔ g.minop < k ∨ ∃ c ∈ g.cores, s.capAt c k < s.highWater c := by
  have named : g.gid ∈ s.askedFor k ↔ g ∈ s.gangs.filter fun g =>
      !g.ctl && (decide (g.minop < k) || g.cores.any fun c => decide (s.capAt c k < s.highWater c)) := by
    refine ⟨fun hm => ?_, fun hm => List.mem_map.2 ⟨g, hm, rfl⟩⟩
    obtain ⟨g', hm', same⟩ := List.mem_map.1 hm
    rwa [← List.inj_on_of_nodup_map apart (List.mem_of_mem_filter hm') hg same]
  rw [named, List.mem_filter]
  simp [hg, tenant]

/-! ### opreq (R324) -/

/-- The step that an opreq of a status begins, or the one that stands. -/
def State.stepAfter (s : State) (status k : Nat) : Option OpStep :=
  if status = 0 then some { target := k, stage := 1, asked := if s.opcur < k then s.askedFor k else [] } else s.opstep

/-- The machine with this step of the operating point, or with none. -/
def State.stepping (s : State) (step : Option OpStep) : State := { s with opstep := step }

/-- The warp of an opreq of one thread, moved on, its status written. -/
def Iss.answered (i : Iss) (tick : Nat) (past : BitVec 8) (t : Nat) (d : Opnd) (status : Nat) (w : Warp) : Warp :=
  (i.base tick past w).put t d 1 status

/-- Its threads: `th` holds the status. -/
def Iss.answeredThread (i : Iss) (tick : Nat) (past : BitVec 8) (th : Thread) (d : Opnd) (status : Nat) (u : Thread) : Thread :=
  let v := if u ∈ i.on then { i.moved tick u with pwerr := u.pwerr ||| past } else i.moved tick u
  if u = th then v.put d 1 status else v

section
variable {s : State} {h : Hdr} {i : Iss} {x : VOps} {th : Thread}

/-- R324: an opreq of one thread writes its status and begins the step it accepts. -/
theorem execOpreq_one (hi : Issues s h i) (who : (if x.d.cls = .m then i.on else i.on.take 1) = [th])
    (ready : i.ready s [⟨x.a, 1⟩] [⟨x.d, 1⟩] false x.imm th) {k : BitVec 2} (point : i.arg s x.imm x.a 1 th = k.toNat) {status : Nat}
    (answer : status = if s.opstep.isSome then 0x00400000 else if k.toNat = s.opcur then 0x00410000 else 0) :
    exec (.opreq h x) s = .next (((s.stepping (s.stepAfter status k.toNat)).modWarp i.r
      (i.answered s.tick (s.windowOver i.g i.w [⟨x.a, 1⟩] x.imm) th.t x.d status)).closeIssue i h.e 0 false) := by
  have gate := State.gate_go (who := [th])
    (chk := fun th => firstFault [(decide (i.arg s x.imm x.a 1 th < 4), fIllmod, i.arg s x.imm x.a 1 th)])
    (by simpa using ready) (by simp [firstFault, point, k.isLt])
  unfold Iss.arg at gate point
  generalize past : s.windowOver i.g i.w [⟨x.a, 1⟩] x.imm = pw
  have written (t : State) := t.modWarp_modWarp i.r (fun w => w.put th.t x.d 1 status) (i.base s.tick pw) fun _ => rfl
  show execOpreq h x s = _
  simp only [execOpreq, run, hi.1, if_neg (Iss.on_ne_nil_of_who who), who, gate, State.through, List.foldl_cons, List.foldl_nil,
    State.advance_noteOver, point, past, State.askedFor_modWarp, State.modWarp_opstep, State.modWarp_opcur, ← answer]
  unfold State.stepAfter
  split
  · exact congrArg (fun u : State => Host.Outcome.next (u.closeIssue i h.e 0 false))
      (written (s.stepping (some { target := k.toNat, stage := 1, asked := if s.opcur < k.toNat then s.askedFor k.toNat else [] })))
  · exact congrArg (fun u : State => Host.Outcome.next (u.closeIssue i h.e 0 false)) (written s)

/-- The issue closes with the status written and nothing else changed. -/
theorem Iss.answered_closes (hi : Issues s h i)
    (who : (if x.d.cls = .m then i.on else i.on.take 1) = [th])
    (past : BitVec 8) (status : Nat) :
    Keeps s ((s.modWarp i.r (i.answered s.tick past th.t x.d status)).closeIssue i h.e 0 false) i (i.scalars [th] x.d 1 fun _ => status)
      (i.answeredThread s.tick past th x.d status) := by
  obtain ⟨-, -, hwarp, -, -, -⟩ := State.iss?_some hi.1
  have acts : th ∈ i.on := by
    have mem : th ∈ (if x.d.cls = .m then i.on else i.on.take 1) := who ▸ List.mem_singleton_self th
    split at mem
    · exact mem
    · exact List.mem_of_mem_take mem
  have written (w : Warp) : i.answered s.tick past th.t x.d status w =
      writesOf [th] x.d 1 (fun _ u => u) (fun _ => status) (i.base s.tick past w) := by
    simp [Iss.answered, writesOf, Warp.modThread]
  have number (w : Warp) := Warp.put_wi (i.base s.tick past w) th.t x.d 1 status
  refine State.modWarp_closes (F := i.answered s.tick past th.t x.d status) hwarp number ?_ ?_ (fun u hu => ?_) h.e 0 false
  · rw [written, writesOf_outside]
    unfold Iss.scalars
    cases x.d <;> rfl
  · rw [written, writesOf_s]
    unfold Iss.scalars
    cases x.d <;> rfl
  · rw [written, writesOf_thread [th] x.d 1 (fun _ u => u) (fun _ => status) (fun _ _ => rfl) (List.nodup_singleton th.t),
      Iss.base_thread hi.1 hi.2 past hu, Option.map_some, find?_number hi.2 (by simpa using Iss.mem_threads_of_on hi.1 acts) hu]
    by_cases same : u = th
    · simp only [Iss.answeredThread, same, List.mem_singleton, if_true]
    · simp only [Iss.answeredThread, same, List.mem_singleton, if_false]

/-- What an issue leaves says nothing of the operating point. -/
theorem Leaves.of_stepping {t : State} {step : Option OpStep} {W : Warp} {upd : Thread → Thread}
    (left : Leaves (s.stepping step) t i W upd) :
    Leaves s t i W upd := ⟨left.gangs, left.warps, left.cores, left.warp⟩

end

/-- Settles O39: one record placed where the queue has room, one step begun where none is pending; a status on its way, or written at
once. -/
theorem launchAndOpreqComplete : Obligations.LaunchAndOpreqComplete := by
  refine ⟨fun h x s i th hi who => ⟨?launch, ?opreq⟩, ?write⟩
  case launch =>
    intro ready aligned number cls done
    obtain ⟨base, outside, run⟩ := execLaunch_one hi who ready aligned number done
    have mem₀ : base.mem = s.mem := State.mem_of_outside outside
    have launches₀ : base.launches = s.launches := (congrArg State.launches outside :)
    have queues₀ : base.queues = s.queues := (congrArg State.queues outside :)
    have same := State.queue_congr queues₀ i.g.world (i.arg s x.imm x.b 1 th)
    have flies (t : State) (from_ : s.nextId ≤ t.nextId) (v : Nat) := State.later_closed_flies (i := i) (th := th) from_ cls v h.e
    have ids : s.nextId ≤ base.nextId := (congrArg State.nextId outside :).ge
    by_cases room : (base.queue i.g.world (i.arg s x.imm x.b 1 th)).used < 16
    · rw [State.enqueue_room room] at run
      obtain ⟨mem, launches, queues⟩ := State.later_closed_frame (i := i) (th := th)
        (base.putQueue ((base.queue i.g.world (i.arg s x.imm x.b 1 th)).tailed (i.arg s x.imm x.a 2 th) i.g.root)) x.d 0 h.e
      refine ⟨_, run, mem.trans mem₀, launches.trans launches₀, ?_⟩
      rw [if_pos (same ▸ room), State.queue_congr queues, State.queue_tailed, ← same]
      exact ⟨rfl, flies (base.putQueue _) ids 0⟩
    · rw [State.enqueue_full room] at run
      obtain ⟨mem, launches, queues⟩ := State.later_closed_frame (i := i) (th := th) base x.d 0x00300000 h.e
      refine ⟨_, run, mem.trans mem₀, launches.trans launches₀, ?_⟩
      rw [if_neg (same ▸ room)]
      exact ⟨queues.trans queues₀, flies base ids 0x00300000⟩
  case opreq =>
    intro k ready point status
    have run := execOpreq_one hi who ready point (status := status) rfl
    have left := Iss.answered_closes (s := s.stepping (s.stepAfter status k.toNat)) hi who (s.windowOver i.g i.w [⟨x.a, 1⟩] x.imm) status
    have mem := State.mem_of_outside left.outside
    have opcur := congrArg State.opcur left.outside
    have step := congrArg State.opstep left.outside
    refine ⟨_, run, mem, opcur, fun refused => step.trans (if_neg refused),
      fun accepted => ⟨_, step.trans (if_pos accepted), rfl, rfl, fun g hg tenant apart => ?_⟩, left.toLeaves.of_stepping⟩
    dsimp only
    split
    · next down => simp [State.mem_askedFor hg tenant apart, down]
    · next up => simp [up]
  case write =>
    intro s world q a root hw hq
    have run : exec (.launchQueueWrite world q a root) s = .next (s.enqueue world q a root).1 :=
      congrArg Host.Outcome.next (if_neg (by omega))
    refine ⟨_, run, ?_⟩
    split
    · next room =>
      rw [State.enqueue_room room]
      exact ⟨congrArg Queue.records (s.queue_tailed world q a root), rfl⟩
    · next full => rw [State.enqueue_full full]

end Sys2Proof.Machine
end

/-!
Waiting threads that become ready (R183, R257, R284), what a gang's release frees (R295, R310, R365), and changes of cores alone.
-/
section
namespace Sys2Proof.Machine

/-! ### Lists -/

theorem eraseDups_of_nodup {l : List Nat} (h : l.Nodup) : l.eraseDups = l := by
  induction l with
  | nil => rfl
  | cons a r ih =>
    obtain ⟨new, rest⟩ := List.nodup_cons.1 h
    have kept : (r.filter fun b => !b == a) = r := List.filter_eq_self.2 fun b hb => by
      have : b ≠ a := fun e => new (e ▸ hb)
      simpa using this
    rw [List.eraseDups_cons, kept, ih rest]

/-- A search for a key that is not the one taken out of a list. -/
theorem find?_without {α : Type} (key : α → Nat) (l : List α) {k j : Nat} (hj : j ≠ k) :
    (l.filter fun x => key x ≠ k).find? (fun x => key x = j) = l.find? fun x => key x = j := by
  rw [List.find?_filter]
  congr 1
  funext x
  by_cases h : key x = j
  · simp [h, hj]
  · simp [h]

theorem find?_taken {α : Type} (key : α → Nat) (l : List α) (k : Nat) :
    (l.filter fun x => key x ≠ k).find? (fun x => key x = k) = none := by
  simp

/-! ### Changes of cores alone -/

namespace State.coresOnly

variable {s t u : State}

theorem rfl : s.coresOnly s := ⟨s.cores, Eq.refl _⟩

theorem trans (h : s.coresOnly t) (k : t.coresOnly u) : s.coresOnly u := by
  obtain ⟨ks, h⟩ := h
  obtain ⟨js, k⟩ := k
  exact ⟨js, by rw [k, h]⟩

theorem modCore (c : Nat) (f : Core → Core) : s.coresOnly (s.modCore c f) := ⟨_, Eq.refl _⟩

theorem foldl {α : Type} {f : State → α → State} (hf : ∀ (t : State) a, t.coresOnly (f t a))
    (l : List α) (s : State) : s.coresOnly (l.foldl f s) := by
  induction l generalizing s with
  | nil => exact .rfl
  | cons a l ih => exact (hf s a).trans (ih _)

theorem mem (h : s.coresOnly t) : t.mem = s.mem := by
  obtain ⟨ks, h⟩ := h
  rw [h]

theorem gangs (h : s.coresOnly t) : t.gangs = s.gangs := by
  obtain ⟨ks, h⟩ := h
  rw [h]

theorem sealed (h : s.coresOnly t) : t.sealed = s.sealed := by
  obtain ⟨ks, h⟩ := h
  rw [h]

end State.coresOnly

/-! ### Threads that become ready (R183, R257, R284) -/

theorem Warp.wakeSlots_threads (w : Warp) (slots entries n : Nat) {u u' : Thread} (hu : w.threads[n]? = some u)
    (hu' : (w.wakeSlots slots entries).threads[n]? = some u') : u' = u ∨ ∃ c, u.wait = .entry c ∧ u' = { u with wait := .none } := by
  simp only [Warp.wakeSlots, Warp.mapThreads, List.getElem?_map, hu, Option.map_some, Option.some.injEq] at hu'
  subst hu'
  split
  · next c waits =>
    split
    · exact .inr ⟨_, waits, rfl⟩
    · exact .inl rfl
  · next waits =>
    split
    · exact .inr ⟨_, waits, rfl⟩
    · exact .inl rfl
  · exact .inl rfl

/-- A gang some of whose warps' threads became ready. -/
theorem Gang.woken_mapWarps (g : Gang) {f : Warp → Warp} (hf : ∀ w, f w = w ∨ ∃ a b, f w = w.wakeSlots a b) :
    g.woken { g with warps := g.warps.map f } := by
  refine ⟨rfl, List.length_map .., fun j v v' hv hv' => ?_⟩
  simp only [List.getElem?_map, hv, Option.map_some, Option.some.injEq] at hv'
  subst hv'
  rcases hf v with same | ⟨a, b, woke⟩
  · rw [same]
    exact ⟨rfl, rfl, fun n u u' hu hu' => .inl (Option.some.inj (hu'.symm.trans hu))⟩
  · rw [woke]
    exact ⟨rfl, List.length_map .., fun n u u' => v.wakeSlots_threads a b n⟩

/-- A gang once the free slots and entries of the selected cores have made its waiting threads ready. -/
def State.wakeGang (s : State) (on : Nat → Bool) (g : Gang) : Gang :=
  { g with warps := g.warps.map fun w =>
      if on w.core then w.wakeSlots (8 - (s.core w.core).slots.length) (8 - (s.quarter w.core w.quarter).mq.length) else w }

theorem State.gang?_wakeOn (s : State) (on : Nat → Bool) (gid : Nat) : (s.wakeOn on).gang? gid = (s.gang? gid).map (s.wakeGang on) :=
  find?_map_key Gang.gid (s.wakeGang on) s.gangs gid fun _ _ => rfl

theorem State.wakeGang_woken (s : State) (on : Nat → Bool) (g : Gang) : g.woken (s.wakeGang on g) := by
  refine g.woken_mapWarps fun w => ?_
  split
  · exact .inr ⟨_, _, rfl⟩
  · exact .inl rfl

/-! ### A gang's release -/

theorem State.gang?_release (s : State) (freed gid : Nat) :
    (s.release freed).gang? gid = (s.gang? gid).map ((s.freeQueues freed).wakeGang (s.queues? freed)) :=
  (s.freeQueues freed).gang?_wakeOn (s.queues? freed) gid

/-- No queue holds a matrix command of a released gang, and no warp of it owns a tile. -/
theorem State.release_frees (s : State) (gid : Nat) : ∀ c ∈ (s.release gid).cores, ∀ q ∈ c.2.quarters,
    (∀ m ∈ q.mq, m.gid ≠ gid) ∧ ∀ x ∈ q.tiles, ∀ r, x.owner = some r → r.1 ≠ gid := by
  intro c hc q hq
  obtain ⟨c, -, rfl⟩ := List.mem_map.1 (show c ∈ (s.freeQueues gid).cores from hc)
  obtain ⟨q, -, rfl⟩ := List.mem_map.1 hq
  refine ⟨fun m hm => by simpa using (List.mem_filter.1 hm).2, fun x hx r owner => ?_⟩
  obtain ⟨y, -, rfl⟩ := List.mem_map.1 hx
  split at owner
  · next w owned =>
    split at owner
    · cases owner
    · next other =>
      cases owned.symm.trans owner
      exact other
  · next free => exact absurd (free.symm.trans owner) nofun

/-- A gang taken out of the resident ones and released: it is gone, and of every other gang only threads that waited may have become
ready. -/
theorem State.released_gangs {s t : State} {gid : Nat} (hg : t.gangs = s.gangs.filter fun h => h.gid ≠ gid) :
    (t.release gid).gang? gid = none ∧
      ∀ h x, h ≠ gid → s.gang? h = some x → ∃ x', (t.release gid).gang? h = some x' ∧ x.woken x' := by
  refine ⟨?_, fun h x hne hx => ⟨(t.freeQueues gid).wakeGang (t.queues? gid) x, ?_, State.wakeGang_woken ..⟩⟩
  · rw [State.gang?_release, State.gang?, hg, find?_taken]
    rfl
  · rw [State.gang?_release, State.gang?, hg, find?_without _ _ hne, ← State.gang?, hx]
    rfl

end Sys2Proof.Machine
end

/-!
Pre-emption (R187, R300, R319, R321, R325 to R328): a request and its notice, what a seal saves and frees, and what a resumption restores.
-/
section
namespace Sys2Proof.Machine

/-! ### Events -/

theorem Gang.post_posted (g : Gang) {bit : Nat} (hb : bit < 4) : ∀ w ∈ (g.post bit).warps, w.evt.getLsbD bit = true := by
  intro w hw
  obtain ⟨v, -, rfl⟩ := List.mem_map.1 hw
  simp [hb]

theorem State.post_of_resident {s : State} {gid : Nat} {g : Gang} (hg : s.gang? gid = some g) (bit : Nat) :
    (s.modGang gid fun g => g.post bit).coresOnly (s.post gid bit) := by
  simp only [State.post, hg]
  exact .foldl (fun _ _ => .modCore _ _) _ _

theorem State.gang?_post {s : State} {gid : Nat} {g : Gang} (hg : s.gang? gid = some g) (bit : Nat) :
    (s.post gid bit).gang? gid = some (g.post bit) := by
  rw [State.gang?, (State.post_of_resident hg bit).gangs, ← State.gang?, State.gang?_modGang _ _ _ (fun g => Gang.post_gid g bit), hg,
    Option.map_some]

/-! ### Requests (R187, R321, R325) -/

/-- A gang whose pre-emption is requested. -/
def Gang.requested (g : Gang) (p : Preempt) : Gang :=
  { g with preempt := some p, warps := g.warps.map fun w => { w with noticeYld := false } }

/-- A gang whose notice period has passed. -/
def Gang.expired (g : Gang) (p : Preempt) : Gang := { g with preempt := some { p with notice := none } }

/-- The machine with a gang's pre-emption requested: its cores have a wake cause, and its NOTICE is posted where one is given. -/
def State.asked (s : State) (g : Gang) (notice : Option Nat) (p : Preempt) : State :=
  let t := (s.modGang g.gid fun g => g.requested p).causeGang g.gid 3
  match notice with
  | some _ => t.post g.gid 2
  | none => t

theorem State.causeGang_coresOnly (s : State) (gid bit : Nat) : s.coresOnly (s.causeGang gid bit) := by
  unfold State.causeGang
  split
  · exact .rfl
  · exact .foldl (fun _ _ => .modCore _ _) _ _

section
variable {s : State} {g : Gang} (hg : s.gang? g.gid = some g) {notice : Option Nat} {frames : List Nat}
include hg

theorem execPreemptRequest_enough (hn : g.preempt = none) (context : ∀ f ∈ frames, (s.frame f).type = 5 ∧ (s.frame f).owner = g.world)
    (apart : frames.Nodup) (enough : g.framesNeeded ≤ frames.length) :
    exec (.preemptRequest g.gid notice frames) s =
      .next (s.asked g notice { notice := notice.map (s.now (nth g.cores 0 0) + ·), frames := frames }) := by
  have fits : (frames.all fun f => (s.frame f).type = 5 && (s.frame f).owner = g.world) = true :=
    List.all_eq_true.2 fun f hf => by simpa using context f hf
  show execPreemptRequest g.gid notice frames s = _
  simp only [execPreemptRequest, hg, hn, fits, eraseDups_of_nodup apart, not_lt.2 enough, Option.isSome_none, Bool.not_true, Bool.or_self,
    ne_eq, not_true_eq_false, decide_false, Bool.false_eq_true, if_false]
  rfl

theorem execPreemptRequest_few (few : frames.length < g.framesNeeded) : exec (.preemptRequest g.gid notice frames) s = .next s := by
  show execPreemptRequest g.gid notice frames s = _
  simp [execPreemptRequest, hg, few]

theorem execNoticeExpiry_noticed {p : Preempt} {u : Nat} (hp : g.preempt = some p) (hu : p.notice = some u) : exec (.noticeExpiry g.gid) s =
    .next (if u ≤ s.now (nth g.cores 0 0) then s.modGang g.gid fun g => g.expired p else s) := by
  show execNoticeExpiry g.gid s = _
  simp only [execNoticeExpiry, hg, hp, hu]
  rfl

/-- The request is marked on the gang, its NOTICE posted where one is given. -/
theorem State.asked_frame (p : Preempt) : (s.asked g notice p).mem = s.mem ∧ ∃ g', (s.asked g notice p).gang? g.gid = some g' ∧
    (g' = g.requested p ∧ notice = none ∨ g' = (g.requested p).post 2) := by
  have caused := State.causeGang_coresOnly (s.modGang g.gid fun g => g.requested p) g.gid 3
  have marked : ((s.modGang g.gid fun g => g.requested p).causeGang g.gid 3).gang? g.gid = some (g.requested p) := by
    rw [State.gang?, caused.gangs, ← State.gang?, State.gang?_modGang _ _ (fun g => g.requested p) fun _ => rfl, hg]
    rfl
  cases notice with
  | none => exact ⟨caused.mem, _, marked, .inl ⟨rfl, rfl⟩⟩
  | some n => exact ⟨(State.post_of_resident marked 2).mem.trans caused.mem, _, State.gang?_post marked 2, .inr rfl⟩

end

/-! ### Sealing (R326) -/

/-- What a seal keeps of a warp and its registers. -/
def Warp.saved (w : Warp) := (w.wi, w.s, w.j, w.hentry, w.evt, w.threads.map fun th => (th.t, th.pc, th.m, th.o, th.l, th.g, th.rs))

/-- A warp as it is sealed: its limits counted from the seal, its late loads settled. -/
def State.sealWarp (s : State) (w : Warp) : Warp :=
  (w.mapLimits fun l => l - s.now w.core).mapThreads fun th => { th with lates := [] }

theorem State.sealWarp_saved (s : State) (w : Warp) : (s.sealWarp w).saved = w.saved := by
  simp [State.sealWarp, Warp.saved, Warp.mapLimits, Warp.mapThreads, Function.comp_def]

/-- A gang as it is sealed on its frames. -/
def State.sealOf (s : State) (g : Gang) (frames : List Nat) : Sealed :=
  { gang := { g with preempt := none, veils := [], warps := g.warps.map s.sealWarp }
    mq := s.queuedMatrix g.gid, tiles := s.ownedTiles g.gid, frames := frames, image := s.nextId
    tag := Config.imageTag s.mgmt.sealKey s.nextId g.world g.bib }

/-- The machine with the gang saved and no longer resident. -/
def State.withSealed (s : State) (g : Gang) (frames : List Nat) : State :=
  { s with nextId := s.nextId + 1, gangs := s.gangs.filter (fun h => h.gid ≠ g.gid), glVeils := [],
           sealed := s.sealed ++ [s.sealOf g frames] }

section
variable {s : State} {g : Gang} (hg : s.gang? g.gid = some g) {p : Preempt} (hp : g.preempt = some p) (ended : p.notice = none)
  (unlocked : s.mgmt.locked = false) (stopped : ∀ w ∈ g.warps, w.stride = none ∧ w.stall = none ∧ w.relayTo = none)
include hg hp ended unlocked stopped

theorem execSeal_drained (drained : s.drained g.gid = true) (home : ∀ f ∈ s.flights, f.seen = true → f.finished = true) :
    exec (.sealGang g.gid) s = .next ((s.withSealed g p.frames).release g.gid) := by
  have sealing : g.sealing = true := by simp [Gang.sealing, hp, ended]
  have boundary : g.atBoundary = true := List.all_eq_true.2 fun w hw => by simp [stopped w hw]
  have settled : (s.flights.any fun f => f.seen && !f.finished) = false := List.any_eq_false.2 fun f hf => by simpa using home f hf
  show execSeal g.gid s = _
  simp only [execSeal, hg, hp, unlocked, sealing, boundary, drained, settled, Bool.not_true, Bool.or_self, Bool.false_eq_true, if_false]
  rfl

end

theorem execSeal_waits {s : State} {g : Gang} (hg : s.gang? g.gid = some g)
    (busy : s.drained g.gid = false ∨ ∃ f ∈ s.flights, f.seen = true ∧ f.finished = false) : exec (.sealGang g.gid) s = .next s := by
  have waits : (!s.drained g.gid || s.flights.any fun f => f.seen && !f.finished) = true := by
    rcases busy with busy | ⟨f, hf, seen, away⟩
    · simp [busy]
    · rw [List.any_eq_true.2 ⟨f, hf, by simp [seen, away]⟩, Bool.or_true]
  show execSeal g.gid s = _
  simp only [execSeal, hg, Bool.or_assoc, waits, Bool.or_true, if_true]

/-! ### Seats of a resumed gang (R328, R365) -/

/-- What a resumption restores of a warp, but for its events. -/
def Warp.kept (w : Warp) := (w.wi, w.s, w.j, w.hentry, w.threads.map fun th => (th.t, th.pc, th.m, th.g, th.rs))

theorem Warp.kept_mapLimits (w : Warp) (f : Nat → Nat) : (w.mapLimits f).kept = w.kept := by
  simp [Warp.kept, Warp.mapLimits, Warp.mapThreads, Function.comp_def]

theorem Gang.post_kept (g : Gang) (bit : Nat) : (g.post bit).warps.map Warp.kept = g.warps.map Warp.kept := by
  rw [Gang.post, List.map_map]
  rfl

theorem State.reseat_frame (s : State) (gid : Nat) (home : Nat → Nat × Nat) (w : Warp) :
    s.coresOnly (s.reseat gid home w).1 ∧ (s.reseat gid home w).2.kept = w.kept ∧
      (w.slot ≠ 4 → (s.reseat gid home w).2.core = (home w.wi).1) := by
  unfold State.reseat
  dsimp only
  split
  · next c found =>
    refine ⟨⟨_, rfl⟩, Warp.kept_mapLimits .., fun athome => ?_⟩
    simp [Warp.away, athome] at found
  · exact ⟨.rfl, Warp.kept_mapLimits .., fun _ => rfl⟩

theorem State.reseatAll_frame (s : State) (gid : Nat) (home : Nat → Nat × Nat) (ws : List Warp) :
    s.coresOnly (s.reseatAll gid home ws).1 ∧ (s.reseatAll gid home ws).2.map Warp.kept = ws.map Warp.kept ∧
      ((∀ w ∈ ws, w.slot ≠ 4) → ∀ v ∈ (s.reseatAll gid home ws).2, v.core = (home v.wi).1) := by
  induction ws generalizing s with
  | nil => exact ⟨.rfl, rfl, fun _ _ hv => nomatch hv⟩
  | cons w r ih =>
    obtain ⟨core, kept, seat⟩ := s.reseat_frame gid home w
    obtain ⟨cores, allKept, seats⟩ := ih (s.reseat gid home w).1
    refine ⟨core.trans cores, by simp only [State.reseatAll, List.map_cons, kept, allKept], fun athome v hv => ?_⟩
    obtain ⟨hw, hr⟩ := List.forall_mem_cons.1 athome
    rcases List.mem_cons.1 (show v ∈ (s.reseat gid home w).2 :: ((s.reseat gid home w).1.reseatAll gid home r).2 from hv) with first | hv
    · rw [first, seat hw, show (s.reseat gid home w).2.wi = w.wi from congrArg Prod.fst kept]
    · exact seats hr v hv

/-! ### Resumption (R328) -/

/-- The machine without a sealed gang. -/
def State.unsealed (s : State) (gid : Nat) : State := { s with sealed := s.sealed.filter fun j => j.gang.gid ≠ gid }

/-- A sealed gang on the cores offered. -/
def State.resumed (s : State) (k : Sealed) (cores : List Nat) : Gang :=
  { k.gang with cores := cores, rowBase := s.baseRows k.gang.need cores, warps := ((s.unsealed k.gang.gid).seats k cores).2 }

theorem State.requeue_coresOnly (s : State) (gid : Nat) (m : MCmd) : s.coresOnly (s.requeue gid m) := by
  unfold State.requeue
  split
  · exact .modCore _ _
  · exact .rfl

theorem State.retile_coresOnly (s : State) (gid : Nat) (p : Nat × Nat × Tile) : s.coresOnly (s.retile gid p) := by
  unfold State.retile
  split
  · exact ⟨_, rfl⟩
  · exact .rfl

/-- The seats taken on cores change the cores alone. -/
theorem State.seats_coresOnly (s : State) (k : Sealed) (cores : List Nat) : s.coresOnly (s.seats k cores).1 :=
  (s.reseatAll_frame k.gang.gid _ k.gang.warps).1

/-- The copies of the dies of a gang's warps take their homes' values. -/
def State.freshened (s : State) (ws : List Warp) : State := (ws.map fun w => dieOfCore w.core).eraseDups.foldl State.freshenDie s

/-- The machine with one more resident gang. -/
def State.beside (s : State) (g : Gang) : State := { s with gangs := s.gangs ++ [g] }

/-- A sealed gang's matrix commands and tiles back in their quarters. -/
def State.reloaded (s : State) (k : Sealed) : State :=
  k.tiles.foldl (fun s p => s.retile k.gang.gid p) (k.mq.foldl (fun s m => s.requeue k.gang.gid m) s)

/-- The machine with a sealed gang resident again, before RELOC is posted. -/
def State.reseated (s : State) (k : Sealed) (cores : List Nat) : State :=
  let p := (s.unsealed k.gang.gid).seats k cores
  ((p.1.freshened p.2).beside (s.resumed k cores)).reloaded k

theorem State.restore_eq (s : State) (k : Sealed) (cores : List Nat) : ∃ moved : Bool, (k.gang.cores ≠ cores → moved = true) ∧
    s.restore k cores = if moved then (s.reseated k cores).post k.gang.gid 3 else s.reseated k cores := by
  let seats := fun (ws : List Warp) => (ws.filter fun w => w.live ≠ []).map (·.core)
  exact ⟨k.gang.cores ≠ cores || seats (s.resumed k cores).warps ≠ seats k.gang.warps, fun differ => by simp [differ], rfl⟩

theorem State.freshened_frame (s : State) (ws : List Warp) :
    (s.freshened ws).mem = s.mem ∧ (s.freshened ws).gangs = s.gangs ∧ (s.freshened ws).sealed = s.sealed :=
  ⟨foldl_keeps State.mem State.freshenDie (fun _ _ => rfl) _ s, foldl_keeps State.gangs State.freshenDie (fun _ _ => rfl) _ s,
    foldl_keeps State.sealed State.freshenDie (fun _ _ => rfl) _ s⟩

theorem State.reloaded_coresOnly (s : State) (k : Sealed) : s.coresOnly (s.reloaded k) :=
  (State.coresOnly.foldl (fun t m => t.requeue_coresOnly k.gang.gid m) k.mq s).trans
    (.foldl (fun t p => t.retile_coresOnly k.gang.gid p) k.tiles _)

/-- The resumed gang stands beside the others and is sealed no more. -/
theorem State.reseated_frame (s : State) (k : Sealed) (cores : List Nat) : (s.reseated k cores).mem = s.mem ∧
    (s.reseated k cores).gangs = s.gangs ++ [s.resumed k cores] ∧ (s.reseated k cores).sealed = (s.unsealed k.gang.gid).sealed := by
  have seated := (s.unsealed k.gang.gid).seats_coresOnly k cores
  obtain ⟨mem, gangs, sealed⟩ := State.freshened_frame ((s.unsealed k.gang.gid).seats k cores).1 ((s.unsealed k.gang.gid).seats k cores).2
  have loaded := State.reloaded_coresOnly
    ((((s.unsealed k.gang.gid).seats k cores).1.freshened ((s.unsealed k.gang.gid).seats k cores).2).beside (s.resumed k cores)) k
  exact ⟨loaded.mem.trans (mem.trans seated.mem), loaded.gangs.trans (congrArg (· ++ [s.resumed k cores]) (gangs.trans seated.gangs)),
    loaded.sealed.trans (sealed.trans seated.sealed)⟩

/-- What the image of a sealed gang restores of its warps. -/
theorem State.resumed_warps (s : State) (k : Sealed) (cores : List Nat) :
    (s.resumed k cores).warps.map Warp.kept = k.gang.warps.map Warp.kept ∧
      ((∀ w ∈ k.gang.warps, w.slot ≠ 4) → ∀ w ∈ (s.resumed k cores).warps, w.core = nth cores (w.wi / warpsPerCore k.gang.n) 0) :=
  ((s.unsealed k.gang.gid).reseatAll_frame k.gang.gid _ k.gang.warps).2

/-- A gang that is not resident is, once it is resumed, the resumed one, with RELOC where its cores differ. -/
theorem State.restore_gang? {s : State} {k : Sealed} (absent : s.gang? k.gang.gid = none) (cores : List Nat) :
    ∃ g, (s.restore k cores).gang? k.gang.gid = some g ∧ (g = s.resumed k cores ∧ k.gang.cores = cores ∨ g = (s.resumed k cores).post 3) ∧
      (s.restore k cores).mem = s.mem ∧ (s.restore k cores).sealed = (s.unsealed k.gang.gid).sealed := by
  obtain ⟨mem, gangs, sealed⟩ := s.reseated_frame k cores
  have resident : (s.reseated k cores).gang? k.gang.gid = some (s.resumed k cores) := by
    rw [State.gang?, gangs, List.find?_append, ← State.gang?, absent]
    simp [State.resumed]
  obtain ⟨moved, differs, run⟩ := s.restore_eq k cores
  rw [run]
  cases moved with
  | false => exact ⟨_, resident, .inl ⟨rfl, by simpa using differs⟩, mem, sealed⟩
  | true =>
    have posted := State.post_of_resident resident 3
    exact ⟨_, State.gang?_post resident 3, .inr rfl, posted.mem.trans mem, posted.sealed.trans sealed⟩

/-! ### A seal that fails its check (R312, R328) -/

/-- A state with this one's memory, resident gangs, sealed gangs and launches. -/
structure State.sameWork (s t : State) : Prop where
  mem : t.mem = s.mem
  gangs : t.gangs = s.gangs
  sealed : t.sealed = s.sealed
  launches : t.launches = s.launches

namespace State.sameWork

variable {s t u : State}

theorem rfl : s.sameWork s := ⟨Eq.refl _, Eq.refl _, Eq.refl _, Eq.refl _⟩

theorem trans (h : s.sameWork t) (k : t.sameWork u) : s.sameWork u :=
  ⟨k.mem.trans h.mem, k.gangs.trans h.gangs, k.sealed.trans h.sealed, k.launches.trans h.launches⟩

theorem withMgmt (h : s.sameWork t) (m : Mgmt) : s.sameWork { t with mgmt := m } := ⟨h.mem, h.gangs, h.sealed, h.launches⟩

theorem logEntry (die : Nat) (e : LogE) : s.sameWork (s.logEntry die e) :=
  ⟨State.logEntry_mem .., State.logEntry_gangs .., State.logEntry_sealed .., State.logEntry_launches ..⟩

theorem sendAlarm : s.sameWork s.sendAlarm := by
  unfold State.sendAlarm
  dsimp only
  split
  · exact .withMgmt .rfl _
  · exact .rfl

/-- Lock-down leaves what the device holds. -/
theorem lockDown (kind code world die pcore pc addr : Nat) : s.sameWork (s.lockDown kind code world die pcore pc addr) := by
  unfold State.lockDown
  dsimp only
  split
  · exact logEntry ..
  · refine .trans (.withMgmt ?_ _) sendAlarm
    split
    · exact logEntry ..
    · exact .rfl

theorem drop (fn : Nat) : s.sameWork (s.drop fn) := by
  unfold State.drop
  dsimp only
  split <;> exact ⟨Eq.refl _, Eq.refl _, Eq.refl _, Eq.refl _⟩

end State.sameWork

/-- A killed context ends: it is gone, one more block of its launch has ended, and of every other gang only threads that waited may have
become ready. -/
theorem State.endKilled_frame (s : State) (g : Gang) :
    (s.endKilled g).mem = s.mem ∧ (s.endKilled g).sealed = s.sealed ∧ (s.endKilled g).launches = (s.blockEnded g.launch).launches ∧
      (s.endKilled g).gang? g.gid = none ∧
      ∀ h x, h ≠ g.gid → s.gang? h = some x → ∃ x', (s.endKilled g).gang? h = some x' ∧ x.woken x' := by
  obtain ⟨u, run, same⟩ : ∃ u : State, s.endKilled g = u.retire g ∧ s.sameWork u := by
    unfold State.endKilled
    cases g.root with
    | none => exact ⟨_, rfl, .rfl⟩
    | some f => exact ⟨_, rfl, .drop f⟩
  have gone := State.released_gangs (s := s) (gid := g.gid) (t := { u with
    gangs := u.gangs.filter fun h => h.gid ≠ g.gid, dying := u.dying.filter fun h => h.gid ≠ g.gid }) (by rw [same.gangs])
  rw [run]
  exact ⟨same.mem, same.sealed, congrArg (List.map _) same.launches, gone⟩

/-- The launch of a context that is killed is marked, and marked it stays. -/
theorem State.launches_killed (s : State) (lid : Nat) :
    ∀ l ∈ ((s.modLaunch lid fun l => { l with killed := true }).blockEnded lid).launches, l.lid = lid → l.killed = true := by
  intro l hl same
  obtain ⟨k, hk, rfl⟩ := List.mem_map.1 hl
  obtain ⟨j, -, rfl⟩ := List.mem_map.1 hk
  by_cases h : j.lid = lid
  · simp [h]
  · simp [h] at same

theorem State.sealFails_frame (s : State) (k : Sealed) :
    (s.sealFails k).mem = s.mem ∧ (s.sealFails k).sealed = (s.unsealed k.gang.gid).sealed ∧
      (∀ l ∈ (s.sealFails k).launches, l.lid = k.gang.launch → l.killed = true) ∧ (s.sealFails k).gang? k.gang.gid = none ∧
      ∀ h x, h ≠ k.gang.gid → s.gang? h = some x → ∃ x', (s.sealFails k).gang? h = some x' ∧ x.woken x' := by
  obtain ⟨u, logged, locked⟩ : ∃ u : State, (s.unsealed k.gang.gid).sameWork u ∧
      ((u.modLaunch k.gang.launch fun l => { l with killed := true }).endKilled k.gang).sameWork (s.sealFails k) := by
    refine ⟨_, .logEntry s.mgmt.ctlDie { src := 6, srcId := s.mgmt.ctlDie, code := 0, world := k.gang.world, cls := 2 }, ?_⟩
    unfold State.sealFails
    dsimp only
    split
    · exact .lockDown ..
    · exact .rfl
  obtain ⟨mem, sealed, launches, gone, others⟩ :=
    (u.modLaunch k.gang.launch fun l => { l with killed := true }).endKilled_frame k.gang
  have same (gid : Nat) : (s.sealFails k).gang? gid =
      ((u.modLaunch k.gang.launch fun l => { l with killed := true }).endKilled k.gang).gang? gid := by
    rw [State.gang?, locked.gangs, ← State.gang?]
  refine ⟨(locked.mem.trans mem).trans logged.mem, (locked.sealed.trans sealed).trans logged.sealed, ?_, (same _).trans gone,
    fun h x hne hx => ?_⟩
  · rw [locked.launches, launches]
    exact u.launches_killed k.gang.launch
  · rw [same]
    refine others h x hne ?_
    rw [State.gang?, State.modLaunch_gangs, logged.gangs]
    exact hx

/-! ### The check of a seal (R328) -/

section
variable {s : State} {k : Sealed} (hk : s.sealed.find? (fun j => j.gang.gid = k.gang.gid) = some k) (unlocked : s.mgmt.locked = false)
  {cores : List Nat}
include hk unlocked

theorem execResume_agrees (tag : Config.imageTag s.mgmt.sealKey (s.imageIn k) k.gang.world k.gang.bib = k.tag) :
    exec (.resume k.gang.gid cores) s = .next (if s.suits k cores then s.restore k cores else s) := by
  show execResume k.gang.gid cores s = _
  simp only [execResume, hk, unlocked, tag, ne_eq, not_true_eq_false, Bool.false_eq_true, if_false]

theorem execResume_fails (tag : Config.imageTag s.mgmt.sealKey (s.imageIn k) k.gang.world k.gang.bib ≠ k.tag) :
    exec (.resume k.gang.gid cores) s = .next (s.sealFails k) := by
  show execResume k.gang.gid cores s = _
  simp only [execResume, hk, unlocked, ne_eq, tag, not_false_eq_true, Bool.false_eq_true, if_false, if_true]

end

theorem State.mem_unsealed {s : State} {gid : Nat} {j : Sealed} (hj : j ∈ (s.unsealed gid).sealed) : j.gang.gid ≠ gid := by
  simpa using (List.mem_filter.1 hj).2

/-- Settles O45: a request marks its gang, a seal saves it and frees what it held, and a resumption restores what the seal saved, or
nothing where the tag fails. -/
theorem contextsMove : Obligations.ContextsMove := by
  refine ⟨fun s g hg => ⟨fun notice frames hn context apart => ⟨fun enough => ?request, execPreemptRequest_few hg⟩,
    fun p u hp hu => ⟨fun due => ?expiry, fun early => ?early⟩,
    fun p hp ended unlocked stopped => ⟨fun drained home => ?seals, execSeal_waits hg⟩⟩,
    fun s k cores hk unlocked absent => ⟨fun tag suits => ?resumes, fun tag unfit => ?unfit, fun tag => ?fails⟩⟩
  case request =>
    obtain ⟨mem, g', marked, which⟩ := State.asked_frame hg (notice := notice)
      { notice := notice.map (s.now (nth g.cores 0 0) + ·), frames := frames }
    have quiet (p : Preempt) : ∀ w ∈ (g.requested p).warps, w.noticeYld = false := fun w hw => by
      obtain ⟨v, -, rfl⟩ := List.mem_map.1 hw
      rfl
    refine ⟨_, g', execPreemptRequest_enough hg hn context apart enough, mem, marked, ?_⟩
    rcases which with ⟨rfl, unnoticed⟩ | rfl
    · exact ⟨rfl, rfl, rfl, fun w hw => ⟨quiet _ w hw, fun given => absurd unnoticed given⟩⟩
    · refine ⟨rfl, rfl, rfl, fun w hw => ⟨?_, fun _ => Gang.post_posted _ (by decide) w hw⟩⟩
      obtain ⟨v, hv, rfl⟩ := List.mem_map.1 hw
      exact quiet _ v hv
  case expiry =>
    refine ⟨_, (execNoticeExpiry_noticed hg hp hu).trans (congrArg Host.Outcome.next (if_pos due)), rfl, ?_⟩
    rw [State.gang?_modGang _ _ (fun g => g.expired p) fun _ => rfl, hg]
    rfl
  case early => exact (execNoticeExpiry_noticed hg hp hu).trans (congrArg Host.Outcome.next (if_neg (not_le.2 early)))
  case seals =>
    obtain ⟨gone, others⟩ := State.released_gangs (s := s) (t := s.withSealed g p.frames) rfl
    have saved : (s.sealOf g p.frames).gang.warps.map Warp.saved = g.warps.map Warp.saved := by
      simp only [State.sealOf, List.map_map, Function.comp_def, State.sealWarp_saved]
    exact ⟨_, s.sealOf g p.frames, execSeal_drained hg hp ended unlocked stopped drained home,
      rfl, gone, others, rfl, rfl, rfl, rfl, rfl, rfl,
      rfl, rfl, rfl, rfl, saved, State.release_frees _ g.gid⟩
  case resumes =>
    obtain ⟨g, resident, which, mem, sealed⟩ := State.restore_gang? absent cores
    obtain ⟨kept, seats⟩ := s.resumed_warps k cores
    refine ⟨_, g, (execResume_agrees hk unlocked tag).trans (congrArg Host.Outcome.next (if_pos suits)), mem, resident, ?_⟩
    have unsealed : ∀ j ∈ (s.restore k cores).sealed, j.gang.gid ≠ k.gang.gid := fun j hj => State.mem_unsealed (sealed ▸ hj)
    rcases which with ⟨rfl, same⟩ | rfl
    · exact ⟨rfl, rfl, rfl, rfl, unsealed, kept, seats, fun differ => absurd same differ⟩
    · refine ⟨rfl, rfl, rfl, rfl, unsealed, (Gang.post_kept _ 3).trans kept, fun home w hw => ?_, fun _ => Gang.post_posted _ (by decide)⟩
      obtain ⟨v, hv, rfl⟩ := List.mem_map.1 hw
      exact seats home v hv
  case unfit =>
    refine (execResume_agrees hk unlocked tag).trans (congrArg Host.Outcome.next (if_neg ?_))
    simp [unfit]
  case fails =>
    obtain ⟨mem, sealed, launches, gone, others⟩ := s.sealFails_frame k
    refine ⟨_, execResume_fails hk unlocked tag, mem, gone, fun h x hx => others h x ?_ hx, launches, fun j hj => ?_⟩
    · rintro rfl
      cases absent.symm.trans hx
    · exact State.mem_unsealed (sealed ▸ hj)

end Sys2Proof.Machine
end

/-!
What every move of the machine keeps of its byte stores (`State.memWf`): first the changes that the operations are made of, then one rule for
each operation of the model, in the order of the definitions. A rule `State.memWf.f` says that `f` keeps every store in canonical form, so a
proof names the operations that `f` consists of. Bytes change only in `padWrite`, `memWrite`, `placeWrite`, `zeroFrame`, `loadImage`, and
where a grant changes its owner, memory is filled or the flash is written; gangs come with empty scratchpads or with those of a sealed one.
-/
section
set_option Elab.async false
namespace Sys2Proof.Machine

namespace State.memWf

variable {s t : State}

/-! ### The changes that operations are made of -/

/-- A change of what holds no bytes. -/
theorem frame (h : s.memWf) (hm : t.mem = s.mem := by rfl) (hb : t.bb = s.bb := by rfl) (hf : t.mgmt.flash = s.mgmt.flash := by rfl)
    (hg : t.allGangs = s.allGangs := by rfl) : t.memWf :=
  State.memWf_of_gangs h hm hb hf fun g hk => ⟨g, hg ▸ hk, rfl⟩

/-- A gang changed but for its scratchpads. -/
theorem modGang (h : s.memWf) {gid : Nat} {f : Gang → Gang} (hf : ∀ g, (f g).sp = g.sp := by intro; rfl) : (s.modGang gid f).memWf :=
  State.memWf_modGang h gid fun g hg => by rwa [Gang.memWf, hf]

theorem modWarp (h : s.memWf) {r : WRef} {f : Warp → Warp} : (s.modWarp r f).memWf := State.memWf_modWarp h r f

theorem modThread (h : s.memWf) {r : WRef} {k : Nat} {f : Thread → Thread} : (s.modThread r k f).memWf := h.modWarp

theorem modThreads (h : s.memWf) {r : WRef} {ts : List Nat} {f : Thread → Thread} : (s.modThreads r ts f).memWf := h.modWarp

theorem modCore (h : s.memWf) {c : Nat} {f : Core → Core} : (s.modCore c f).memWf := h

theorem modFrame (h : s.memWf) {k : Nat} {f : FrameE → FrameE} : (s.modFrame k f).memWf := h

/-- Every resident gang changed but for its scratchpads. -/
theorem mapGangs (h : s.memWf) {f : Gang → Gang} (hf : ∀ g, (f g).sp = g.sp := by intro; rfl) :
    ({ s with gangs := s.gangs.map f } : State).memWf := by
  refine State.memWf_of_gangs h rfl rfl rfl fun g hm => ?_
  simp only [State.mem_allGangs, List.mem_map] at hm ⊢
  rcases hm with ⟨k, hk, rfl⟩ | hm
  · exact ⟨k, .inl hk, hf k⟩
  · exact ⟨g, .inr hm, rfl⟩

/-- Other resident gangs: some of those there were, and some whose scratchpads are canonical. -/
theorem regang (h : s.memWf) {gs : List Gang} (hg : ∀ g ∈ gs, g ∈ s.gangs ∨ g.memWf) : ({ s with gangs := gs } : State).memWf := by
  obtain ⟨hm, hb, hf, hs⟩ := h
  refine ⟨hm, hb, hf, fun g hk => ?_⟩
  simp only [State.mem_allGangs] at hk hs
  rcases hk with hk | hk
  · exact (hg g hk).elim (fun hk => hs g (.inl hk)) id
  · exact hs g (.inr hk)

/-- A resident gang more. -/
theorem addGang (h : s.memWf) {g : Gang} (hg : g.memWf) : ({ s with gangs := s.gangs ++ [g] } : State).memWf :=
  h.regang fun k hk => by
    rcases List.mem_append.1 hk with hk | hk
    · exact .inl hk
    · exact .inr (List.mem_singleton.1 hk ▸ hg)

/-- Fewer resident and dying gangs. -/
theorem filter (h : s.memWf) {p q : Gang → Bool} : ({ s with gangs := s.gangs.filter p, dying := s.dying.filter q } : State).memWf := by
  refine State.memWf_of_gangs h rfl rfl rfl fun g hm => ⟨g, ?_, rfl⟩
  simp only [State.mem_allGangs, List.mem_filter] at hm ⊢
  exact hm.imp And.left (Or.imp_left And.left)

/-- Other sealed gangs, each with the scratchpads of one that was there. -/
theorem reseal (h : s.memWf) {ks : List Sealed} (hk : ∀ k ∈ ks, ∃ g ∈ s.allGangs, k.gang.sp = g.sp) :
    ({ s with sealed := ks } : State).memWf := by
  refine State.memWf_of_gangs h rfl rfl rfl fun g hm => ?_
  simp only [State.mem_allGangs] at hm hk ⊢
  rcases hm with hm | hm | ⟨k, hm, rfl⟩
  · exact ⟨g, .inl hm, rfl⟩
  · exact ⟨g, .inr (.inl hm), rfl⟩
  · exact hk k hm

/-- Fewer sealed gangs. -/
theorem fewerSealed (h : s.memWf) {p : Sealed → Bool} : ({ s with sealed := s.sealed.filter p } : State).memWf :=
  h.reseal fun k hk => ⟨k.gang, (State.mem_allGangs ..).2 (.inr (.inr ⟨k, (List.mem_filter.1 hk).1, rfl⟩)), rfl⟩

/-- What each step of a fold keeps, the fold keeps. -/
theorem foldl {α : Type} (h : s.memWf) {f : State → α → State} {l : List α} (hf : ∀ t a, t.memWf → (f t a).memWf) : (l.foldl f s).memWf :=
  List.foldlRecOn l f h fun t ht a _ => hf t a ht

/-- As `foldl`, for a fold that carries a value beside the state. -/
theorem foldl_fst {α β : Type} {p : State × β} (h : p.1.memWf) {f : State × β → α → State × β} {l : List α}
    (hf : ∀ q a, q.1.memWf → (f q a).1.memWf) : (l.foldl f p).1.memWf :=
  List.foldlRecOn (motive := fun q => State.memWf q.1) l f h fun q hq a _ => hf q a hq

theorem ite {p : Prop} [Decidable p] (hs : s.memWf) (ht : t.memWf) : (if p then s else t).memWf := by
  split
  · exact hs
  · exact ht

theorem ite_fst {α : Type} {p : Prop} [Decidable p] {a b : State × α} (ha : a.1.memWf) (hb : b.1.memWf) : (if p then a else b).1.memWf := by
  split
  · exact ha
  · exact hb

end State.memWf

/-- An outcome's next state, if it has one, has its byte stores in canonical form. -/
def OutMemWf (o : Host.Outcome State Fault Refusal) : Prop := ∀ t, o = .next t → t.memWf

theorem OutMemWf.next {t : State} (h : t.memWf) : OutMemWf (.next t) := fun _ e => Host.Outcome.next.inj e ▸ h

theorem OutMemWf.ite {p : Prop} [Decidable p] {a b : Host.Outcome State Fault Refusal} (ha : OutMemWf a) (hb : OutMemWf b) :
    OutMemWf (if p then a else b) := by
  split
  · exact ha
  · exact hb

theorem OutMemWf.fault (f : Fault) : OutMemWf (.fault f) := fun _ e => nomatch e

theorem OutMemWf.refused (f : Refusal) : OutMemWf (.refused f) := fun _ e => nomatch e

namespace State.memWf

variable {s : State}

/-! ### Machine/Acc, Trans and Ops -/

theorem fill (h : s.memWf) {r : WRef} {t : Nat} {d : Dst} {ws : List Word} : (s.fill r t d ws).memWf := State.memWf_fill h r t d ws

theorem fillBad (h : s.memWf) {r : WRef} {t : Nat} {d : Dst} {p : Poison} : (s.fillBad r t d p).memWf := State.memWf_fillBad h r t d p

theorem refill (h : s.memWf) {r : WRef} {t : Nat} {d : Dst} : (s.refill r t d).memWf := State.memWf_refill h r t d

theorem emptyDst (h : s.memWf) {r : WRef} {t : Nat} {d : Dst} : (s.emptyDst r t d).memWf := h.modWarp

theorem wakeCause (h : s.memWf) {r : WRef} {bit : Nat} : (s.wakeCause r bit).memWf := State.memWf_wakeCause h r bit

theorem wakeCore (h : s.memWf) {c : Nat} : (s.wakeCore c).memWf := State.memWf_wakeOn h _

theorem drop (h : s.memWf) {fn : Nat} : (s.drop fn).memWf := by
  unfold State.drop
  exact .ite h h

theorem logEntry (h : s.memWf) {die : Nat} {e : LogE} : (s.logEntry die e).memWf := State.memWf_logEntry h die e

theorem lockDown (h : s.memWf) {a b c d e f g : Nat} : (s.lockDown a b c d e f g).memWf := State.memWf_lockDown h a b c d e f g

theorem post (h : s.memWf) {gid bit : Nat} : (s.post gid bit).memWf := by
  unfold State.post
  split
  · exact h
  · exact h.modGang.foldl fun _ _ ht => ht.modCore

theorem postResident (h : s.memWf) {bit : Nat} : (s.postResident bit).memWf := h.foldl fun _ _ ht => ht.post

theorem postAll (h : s.memWf) {bit : Nat} : (s.postAll bit).memWf :=
  h.postResident.reseal fun k hk => by
    obtain ⟨j, hj, rfl⟩ := List.mem_map.1 hk
    exact ⟨j.gang, (State.mem_allGangs ..).2 (.inr (.inr ⟨j, hj, rfl⟩)), rfl⟩

theorem endStride (h : s.memWf) {r : WRef} : (s.endStride r).memWf := State.memWf_endStride h r

theorem release (h : s.memWf) {gid : Nat} : (s.release gid).memWf := State.memWf_release h gid

theorem retire (h : s.memWf) {g : Gang} : (s.retire g).memWf := State.memWf.release h.filter

theorem endKilled (h : s.memWf) {g : Gang} : (s.endKilled g).memWf := by
  unfold State.endKilled
  split
  · exact h.drop.retire
  · exact h.retire

theorem reap (h : s.memWf) {gid : Nat} : (s.reap gid).memWf := by
  unfold State.reap
  split
  · exact h
  · exact .ite h.retire h

theorem kill (h : s.memWf) {gid : Nat} {f : Flt} {pc core : Nat} : (s.kill gid f pc core).memWf := State.memWf_kill h gid f pc core

theorem trapAs (h : s.memWf) {r : WRef} {pc : VAddr} {act : List Nat} {fs : List (Nat × Flt)} {defer : Bool} :
    (s.trapAs r pc act fs defer).memWf := State.memWf_trapAs h r pc act fs defer

theorem rteReturn (h : s.memWf) {r : WRef} : (s.rteReturn r).memWf := State.memWf_rteReturn h r

/-! ### Machine/Issue -/

theorem noteOver (h : s.memWf) {i : Iss} {past : BitVec 8} : (s.noteOver i past).memWf := h.modThreads

theorem blockFor (h : s.memWf) {i : Iss} {for_ : Wait} : (s.blockFor i for_).memWf := h.modThreads.modWarp.endStride

theorem trapIss (h : s.memWf) {i : Iss} {fs : List (Nat × Flt)} : (s.trapIss i fs).memWf := .ite h.modWarp.endStride h.trapAs

theorem through (h : s.memWf) {i : Iss} {gt : Gate} {k : State} (hk : k.memWf) : (s.through i gt k).memWf := by
  cases gt with
  | trap fs => exact h.trapIss
  | block owed => exact h.blockFor
  | stall ws => exact h.modWarp
  | go => exact hk

theorem advance (h : s.memWf) {i : Iss} : (s.advance i).memWf := h.modThreads

theorem closeIssue (h : s.memWf) {i : Iss} {e : Bool} {extra : Nat} {busy : Bool} : (s.closeIssue i e extra busy).memWf := by
  have clocked {f : Warp → Warp} {c : Nat} {k : Core → Core} : ((s.modWarp i.r f).modCore c k).memWf := h.modWarp.modCore
  unfold State.closeIssue
  split
  · exact h
  · dsimp only
    split
    · exact clocked.endStride
    · exact .ite clocked.endStride clocked.modWarp

theorem closeSome (h : s.memWf) {hd : Hdr} {i : Iss} {waiting : List Nat} {extra : Nat} {busy : Bool} :
    (s.closeSome hd i waiting extra busy).memWf := .ite h.closeIssue (.ite h.modWarp.endStride h.closeIssue)

theorem stay (h : s.memWf) {i : Iss} {t : Nat} {w : Wait} : (s.stay i t w).memWf := h.modThread

theorem later (h : s.memWf) {i : Iss} {th : Thread} {d : Opnd} {n v : Nat} : (s.later i th d n v).memWf := by
  unfold State.later
  split
  · exact h
  · exact State.memWf.emptyDst h.frame

/-- A warp changed for each of some threads. -/
theorem foldWarp (h : s.memWf) {α : Type} {l : List α} {r : α → WRef} {f : α → Warp → Warp} :
    (l.foldl (fun s a => s.modWarp (r a) (f a)) s).memWf := h.foldl fun _ _ ht => ht.modWarp

theorem unreachWarp (h : s.memWf) {r : WRef} : (s.unreachWarp r).memWf := by
  unfold State.unreachWarp
  split
  · exact .ite h.modWarp h
  · exact h

/-- An instruction keeps the byte stores where what it does with its issue does. -/
theorem run (h : s.memWf) {hd : Hdr} {k : Iss → State} (hk : ∀ i, (k i).memWf) : OutMemWf (run s hd k) := by
  unfold Machine.run
  split
  · exact .fault _
  · exact .next (.ite h.advance.closeIssue (hk _))

/-- A PLAIN INSTRUCTION keeps the byte stores. -/
theorem plain (h : s.memWf) {hd : Hdr} {x : VOps} {n : Wid} {dRead : Bool} {f : TIn → TOut} {chk : TIn → Option Flt} :
    OutMemWf (s.plain hd x n dRead f chk) :=
  h.run fun _ => h.through <| State.memWf.closeIssue <| State.memWf.foldWarp <| .ite h.advance h.advance.modThreads

end State.memWf
end Sys2Proof.Machine
end

section
set_option Elab.async false
namespace Sys2Proof.Machine

/-- Scratchpad bytes seen by all leave the bytes as they were. -/
theorem Gang.sp_bares {α : Type} (g : Gang) (l : List α) (gc n : Nat) (off : α → Nat) :
    (l.foldl (fun g a => g.bare gc (off a) n) g).sp = g.sp := foldl_keeps Gang.sp (fun g a => g.bare gc (off a) n) (fun _ _ => rfl) l g

namespace State.memWf

variable {s : State}

/-! ### Machine/Traffic -/

theorem cacheTlb (h : s.memWf) {core world va : Nat} {root : Option Nat} : (s.cacheTlb core world root va).memWf := by
  unfold State.cacheTlb
  split
  · exact h
  · split
    · exact h
    · exact h

theorem unveil (h : s.memWf) {gid : Nat} : (s.unveil gid).memWf := h.modGang (gid := gid) (f := fun g => { g with veils := [] })

theorem padWrite (h : s.memWf) {gid gc a : Nat} {bs : List Byte} : (s.padWrite gid gc a bs).memWf := State.memWf_padWrite h gid gc a bs

theorem padVeil (h : s.memWf) {gid gc a : Nat} {bs : List Byte} {b : Option (Nat × Nat)} : (s.padVeil gid gc a bs b).memWf :=
  State.memWf_padVeil h gid gc a bs b

theorem memWrite (h : s.memWf) {pa : Nat} {bs : List Byte} : (s.memWrite pa bs).memWf := State.memWf_memWrite h pa bs

theorem dropFlight (h : s.memWf) {id : Nat} : (s.dropFlight id).memWf := h

theorem forward (h : s.memWf) {id : Nat} : (s.forward id).memWf := by
  unfold State.forward
  split
  · split
    · exact .ite h h
    · exact h
  · exact h

theorem fetchCopy (h : s.memWf) {f : Flight} : (s.fetchCopy f).memWf := by
  unfold State.fetchCopy
  split
  · exact .ite h h
  · exact h

theorem freshen (h : s.memWf) {pa die : Nat} : (s.freshen pa die).memWf := .ite h h

theorem grantOst (h : s.memWf) {core n : Nat} : (s.grantOst core n).memWf := by
  induction n generalizing s with
  | zero => exact h
  | succ k ih =>
    unfold State.grantOst
    split
    · exact h
    · split
      · exact h
      · exact ih h

theorem intoCopy (h : s.memWf) {id : Nat} {f : Flight} : (s.intoCopy id f).memWf := by
  unfold State.intoCopy
  split
  · exact .ite h.forward h
  · exact h

theorem launchFlight (h : s.memWf) {f : Flight} : (s.launchFlight f).memWf := by
  unfold State.launchFlight State.fresh
  exact State.memWf.grantOst <| State.memWf.intoCopy h.frame

theorem performPad (h : s.memWf) {f : Flight} : (s.performPad f).memWf := by
  unfold State.performPad
  split
  · exact h.padWrite.dropFlight
  · exact h

theorem flushPads (h : s.memWf) {r : WRef} {want : Flight → Bool} : (s.flushPads r want).memWf := h.foldl fun _ _ ht => ht.performPad

theorem flushPad (h : s.memWf) {r : WRef} {t : Nat} {want : Flight → Bool} : (s.flushPad r t want).memWf := h.flushPads

/-! ### Machine/Mem -/

theorem orderPoint (h : s.memWf) {i : Iss} {k : State} (hk : k.memWf) : (s.orderPoint i k).memWf := by
  unfold State.orderPoint
  split
  · exact hk
  · exact h.modWarp.trapIss

theorem throughPoint (h : s.memWf) {i : Iss} {gt : Gate} {k : State} (hk : k.memWf) : (s.throughPoint i gt k).memWf := by
  unfold State.throughPoint
  split
  · refine State.memWf.trapIss ?_
    split
    · exact .ite h.modWarp h
    · exact h
  · exact h.through (h.orderPoint hk)

theorem cacheAll (h : s.memWf) {i : Iss} {p : Spc} {as : List Nat} : (s.cacheAll i p as).memWf :=
  .ite (h.foldl fun _ _ ht => ht.cacheTlb) h

theorem loadPw (h : s.memWf) {hd : Hdr} {x : VOps} {z : Sz} {win : BitVec 3} {i : Iss} {who : List Thread} :
    (s.loadPw hd x z win i who).memWf := .ite h.modWarp h.advance.modThreads.foldWarp.closeIssue

theorem relook (h : s.memWf) {r : WRef} {t k : Nat} : (s.relook r t k).memWf := by
  unfold State.relook
  split
  · exact .ite h (State.memWf_filled h ..)
  · exact h

theorem loadPad (h : s.memWf) {hd : Hdr} {x : VOps} {z : Sz} {obs : Bool} {i : Iss} {locs : List (Thread × Nat)} :
    (s.loadPad hd x z obs i locs).memWf := by
  unfold State.loadPad
  extract_lets n gc s0 s1 g s2
  have flushed : s0.memWf := .ite (h.foldl fun _ _ ht => ht.flushPad) h
  have bared : s1.memWf := .ite (flushed.modGang fun g => g.sp_bares ..) flushed
  have loaded : s2.memWf := bared.advance.foldl fun _ _ ht => ht.modWarp
  exact .ite h loaded.closeIssue

theorem loadFar (h : s.memWf) {hd : Hdr} {x : VOps} {p : Spc} {z : Sz} {obs : Bool} {i : Iss} {locs : List (Thread × Place × Nat)} :
    (s.loadFar hd x p z obs i locs).memWf := by
  refine State.memWf.closeIssue <| h.advance.foldl fun _ _ ht => ?_
  split
  · exact ht
  · exact ht.launchFlight.emptyDst

theorem loadForm (h : s.memWf) {hd : Hdr} {x : VOps} {z : Sz} {p : Spc} {win : BitVec 3} {obs : Bool} :
    OutMemWf (s.loadForm hd x z p win obs) :=
  h.run fun _ => .ite h <| h.through <| .ite h.loadPw <| .ite h.loadPad h.cacheAll.loadFar

theorem putStores (h : s.memWf) {i : Iss} {p : Spc} {ga obs : Bool} {sts : List St1} : (s.putStores i p ga obs sts).memWf := by
  refine h.foldl fun t st ht => .ite ht ?_
  split
  · exact .ite ht.modThread.flushPad.padWrite ht.modThread.launchFlight
  · dsimp only
    split
    · exact .ite ht.launchFlight ht.launchFlight
    · exact ht.launchFlight

theorem tableDone (h : s.memWf) {hd : Hdr} {x : VOps} {i : Iss} {answers : List (Nat × Nat)} : (s.tableDone hd x i answers).memWf := by
  unfold State.tableDone
  dsimp only
  split
  · exact h.modWarp.advance.closeIssue
  · exact h.trapIss

theorem storeForm (h : s.memWf) {hd : Hdr} {x : VOps} {z : Sz} {p : Spc} {ga obs : Bool} : OutMemWf (s.storeForm hd x z p ga obs) := by
  refine h.run fun i => ?_
  split
  · exact h.tableDone
  · have put {sts : List St1} {e : Bool} {n : Nat} {b : Bool} {as : List Nat} :
        ((((s.cacheAll i p as).putStores i p ga obs sts).advance i).closeIssue i e n b).memWf := h.cacheAll.putStores.advance.closeIssue
    exact .ite h (.ite (h.throughPoint <| .ite h <| .ite put h.cacheAll.putStores.modWarp)
      (h.through <| .ite h <| .ite put h.cacheAll.putStores.modWarp))

theorem execPf (h : s.memWf) {hd : Hdr} {x : VOps} {sys wr : Bool} : OutMemWf (execPf hd x sys wr s) :=
  h.run fun _ => .ite h.blockFor h.advance.closeIssue

/-! ### Machine/Atomic -/

theorem clearStrike (h : s.memWf) {core q v : Nat} : (s.clearStrike core q v).memWf := h

theorem poisonPad (h : s.memWf) {gid gc off n core world : Nat} : (s.poisonPad gid gc off n core world).memWf :=
  State.memWf.logEntry h.frame

theorem atomPad (h : s.memWf) {i : Iss} {th : Thread} {gc off n : Nat} {f : Flight} {d : Opnd} {bad : Bool} :
    (s.atomPad i th gc off n f d bad).memWf := by
  have put {t : State} (old : Nat) (ht : t.memWf) :
      (match d with | .none => t | _ => t.modWarp i.r fun w => w.put th.t d ((n + 3) / 4) old).memWf := by
    split
    · exact ht
    · exact ht.modWarp
  unfold State.atomPad
  dsimp only
  split
  · split
    · exact (put _ h.flushPad.poisonPad).fillBad
    · exact put _ h.flushPad.poisonPad
  · exact put _ h.flushPad.padWrite

/-- A change of the copies that the place of an access decides. -/
theorem copiesAt (h : s.memWf) {pl : Place} {ga : Bool} {keep : Nat → Copy → Bool} :
    (match pl with | .phys pa => if ga then { s with copies := s.copies.filter (keep pa) } else s | _ => s : State).memWf := by
  split
  · exact .ite h h
  · exact h

theorem atomForm (h : s.memWf) {hd : Hdr} {x : VOps} {t : Ty} {op : AOp} {p : Spc} {ga hasD hasC : Bool} :
    OutMemWf (s.atomForm hd x t op p ga hasD hasC) := by
  refine h.run fun i => .ite h <| h.throughPoint <| .ite h ?_
  dsimp only
  generalize made : List.foldl _ ((s.cacheAll i p _).advance i) _ = u
  have hu : u.memWf := by
    subst made
    refine h.cacheAll.advance.foldl fun t th ht => ?_
    split
    · exact ht
    · split
      · exact ht.atomPad
      · split
        · exact ht.copiesAt.launchFlight.emptyDst
        · exact ht.copiesAt.launchFlight
  exact State.memWf.closeIssue (.ite hu.clearStrike hu)

theorem performFlight (h : s.memWf) {id : Nat} : (s.performFlight id).memWf := by
  unfold State.performFlight
  split
  · exact h
  · split
    · split
      · exact h
      · split
        · exact h.padVeil.dropFlight
        · split
          · exact h.dropFlight
          · dsimp only
            split
            · exact State.memWf.dropFlight <| .ite h.clearStrike.poisonPad (.ite h h.padWrite)
            · exact .ite h.clearStrike.poisonPad (.ite h h.padWrite)
        · exact h
    · exact h

/-! ### Machine/Barrier -/

theorem poisonObj (h : s.memWf) {g : Gang} {r : ObjRef} : (s.poisonObj g r).memWf := h.clearStrike.modGang.logEntry

end State.memWf

theorem Gang.sp_countHeld (g : Gang) (o : Obj) : (g.countHeld o).sp = g.sp := by
  unfold Gang.countHeld
  split <;> rfl

theorem Gang.sp_settle (g : Gang) (clock : Nat → Nat) (fuel : Nat) (r : ObjRef) (evt : Bool) : (g.settle clock fuel r evt).sp = g.sp := by
  induction fuel generalizing g evt with
  | zero => rfl
  | succ k ih =>
    unfold Gang.settle
    split
    · rfl
    · split
      · exact (ih ..).trans rfl
      · split
        · rw [ih, Gang.sp_countHeld]
        · rfl

namespace State.memWf

variable {s : State}

/-- A gang replaced by one with a resident one's scratchpads. -/
theorem setGang (h : s.memWf) {gid : Nat} {g k : Gang} (hg : s.gang? gid = some g) (hk : k.sp = g.sp) : (s.modGang gid fun _ => k).memWf :=
  State.memWf_modGang h gid fun _ _ => by
    obtain ⟨-, -, -, hs⟩ := h
    rw [Gang.memWf, hk]
    exact hs g (State.mem_allGangs_of_gang? hg)

theorem objEvent (h : s.memWf) {gid : Nat} {r : ObjRef} {f : Obj → Obj} : (s.objEvent gid r f).memWf := by
  unfold State.objEvent
  split
  · exact h
  · next g hg =>
    split
    · exact h
    · next o _ =>
      split
      · exact h.poisonObj
      · have settled := h.setGang hg (Gang.sp_settle (g.modObj r f) s.now (2 * o.held.length + 4) r true)
        refine State.memWf.foldl (.ite settled.unveil settled) fun t w ht => ?_
        split <;> exact ht

theorem countBytes (h : s.memWf) {gid : Nat} {r : ObjRef} {n : Nat} : (s.countBytes gid r n).memWf := h.objEvent

theorem unreachBlock (h : s.memWf) {gid : Nat} : (s.unreachBlock gid).memWf := by
  unfold State.unreachBlock
  split
  · exact h
  · exact .ite h (.ite h.modGang h)

theorem execReleaseMarker (h : s.memWf) {k : Nat} : OutMemWf (execReleaseMarker k s) := by
  refine .next ?_
  split
  · exact h
  · exact .ite h h

theorem arrive (h : s.memWf) {i : Iss} {th : Thread} {r : ObjRef} {d : Option Dst} {upd : Option (Obj → Obj)} :
    (s.arrive i th r d upd).1.memWf := by
  unfold State.arrive
  split
  · split
    · exact h
    · split
      · exact h.stay
      · split
        · dsimp only
          split
          · exact h.modGang.stay.objEvent
          · exact h.modGang.stay
        · exact h.modThread.objEvent
  · exact h

theorem stayBeside (h : s.memWf) {i : Iss} {who : List Thread} : (s.stayBeside i who).memWf := by
  refine .ite h ?_
  split
  · exact h
  · split
    · exact h
    · exact .ite (h.foldl fun _ _ ht => ht.stay) h

theorem noteLater (h : s.memWf) {i : Iss} {past : BitVec 8} : (s.noteLater i past).memWf := .ite h h.modThreads

theorem arrivals (h : s.memWf) {hd : Hdr} {i : Iss} {past : BitVec 8} {who : List Thread} {d : Opnd} {ref : Thread → ObjRef}
    {upd : Thread → Option (Obj → Obj)} : (s.arrivals hd i past who d ref upd).memWf := by
  refine State.memWf.unreachBlock <| State.memWf.closeSome <| State.memWf.noteLater <| State.memWf.stayBeside <|
    h.advance.foldl fun _ _ ht => ?_
  dsimp only
  split
  · exact ht.arrive.later
  · exact ht.arrive

theorem releaseOver (h : s.memWf) {r : WRef} {ts : List Nat} {sc : Scope} {want : Nat → Flight → Bool} :
    (s.releaseOver r ts sc want).memWf := h

theorem arrivalsReleased (h : s.memWf) {i : Iss} {who : List Thread} {ref : Thread → ObjRef} {rel : ArrRel} :
    (s.arrivalsReleased i who ref rel).memWf := by
  refine h.foldl fun _ _ ht => ?_
  split
  · exact .ite ht ht.releaseOver
  · exact ht

/-- Arrivals behind their releases. -/
theorem arrivalsDue (h : s.memWf) {hd : Hdr} {i : Iss} {past : BitVec 8} {who : List Thread} {d : Opnd} {ref : Thread → ObjRef}
    {upd : Thread → Option (Obj → Obj)} {rel : ArrRel} {due : Option Scope} {waits : Bool} :
    (if waits then s else match due with
      | some sc => s.sendMarkers i sc
      | none => (s.arrivalsReleased i who ref rel).arrivals hd i past who d ref upd).memWf := by
  refine .ite h ?_
  split
  · exact h
  · exact h.arrivalsReleased.arrivals

theorem execBarr (h : s.memWf) {hd : Hdr} {x : VOps} {gw : Bool} {rel : ArrRel} : OutMemWf (execBarr hd x gw rel s) :=
  h.run fun _ => .ite (h.through h.arrivalsDue) (h.throughPoint h.arrivalsDue)

theorem execBexp (h : s.memWf) {hd : Hdr} {x : VOps} {gw arr : Bool} : OutMemWf (execBexp hd x gw arr s) := by
  refine h.run fun i => ?_
  cases arr with
  | true => exact h.throughPoint h.arrivalsDue
  | false => exact h.through <| (h.noteOver.advance.foldl fun _ _ ht => ht.objEvent.later).closeIssue.unreachBlock

theorem waitPhase (h : s.memWf) {i : Iss} {th : Thread} {o : Obj} {p : Word} {limit : Option Nat} {now : Nat} {d : Opnd}
    {slot : Option Word} : (s.waitPhase i th o p limit now d slot).memWf := by
  refine .ite h.unveil.later ?_
  split
  · exact .ite h.later h.stay
  · exact State.memWf.stay (.ite h.emptyDst h)
  · exact h

theorem waitForm (h : s.memWf) {hd : Hdr} {x : VOps} {gw limited : Bool} : OutMemWf (s.waitForm hd x gw limited) := by
  refine h.run fun i => h.through <| State.memWf.unreachBlock <| State.memWf.closeSome <| State.memWf.noteLater <|
    h.advance.foldl fun _ _ ht => ?_
  dsimp only
  split
  · exact ht
  · exact ht.waitPhase

theorem execBwaittExpiry (h : s.memWf) {gid wi t : Nat} : OutMemWf (execBwaittExpiry gid wi t s) := by
  refine .next ?_
  split
  · exact h
  · split
    · exact h
    · split
      · exact .ite h h.modWarp.modCore
      · exact h

theorem execBstat (h : s.memWf) {hd : Hdr} {x : VOps} {gw : Bool} : OutMemWf (execBstat hd x gw s) := by
  refine h.run fun i => h.through <| State.memWf.closeIssue <| h.advance.foldl fun _ _ ht => ?_
  exact .ite (State.memWf.later (.ite ht.modGang ht)) (State.memWf.modWarp (.ite ht.modGang ht))

/-- What `bind` and `unbind` do: the gangs change, but for their scratchpads. -/
theorem execBind (h : s.memWf) {hd : Hdr} {x : VOps} {gw : Bool} : OutMemWf (execBind hd x gw s) :=
  h.run fun _ => h.through (h.advance.foldl fun _ _ ht => ht.modGang).closeIssue

theorem execUnbind (h : s.memWf) {hd : Hdr} {x : VOps} {gw : Bool} : OutMemWf (execUnbind hd x gw s) :=
  h.run fun _ => h.through (h.advance.foldl fun _ _ ht => ht.modGang).closeIssue

theorem makeObj (h : s.memWf) {gid : Nat} {r : ObjRef} {gw : Bool} {scope : Scope} {keep : Bool} {counts : Nat} {m : TMask} :
    (s.makeObj gid r gw scope keep counts m).1.memWf := by
  unfold State.makeObj
  split
  · exact h
  · exact .ite_fst h <| .ite_fst h <| .ite_fst h h.padWrite.modGang

theorem retireObj (h : s.memWf) {gid : Nat} {r : ObjRef} : (s.retireObj gid r).1.memWf := by
  unfold State.retireObj
  split
  · exact h
  · split
    · exact h
    · dsimp only
      split
      · exact h
      · exact h.modGang.padWrite

theorem binitForm (h : s.memWf) {hd : Hdr} {x : VOps} {gw : Bool} {src : List Fld} {f : State → Iss → Thread → ObjRef → State × Nat}
    (hf : ∀ t i th r, t.memWf → (f t i th r).1.memWf) : OutMemWf (s.binitForm hd x gw src f) :=
  h.run fun _ => h.through <| State.memWf.closeIssue <| h.advance.noteOver.foldl fun _ _ ht => (hf _ _ _ _ ht).later

theorem execBinit (h : s.memWf) {hd : Hdr} {x : VOps} {gw keep full : Bool} {scope : Scope} :
    OutMemWf (execBinit hd x gw scope keep full s) := h.binitForm fun _ _ _ _ ht => ht.makeObj

theorem execBinitRetire (h : s.memWf) {hd : Hdr} {x : VOps} {gw : Bool} {scope : Scope} :
    OutMemWf (execBinitRetire hd x gw scope s) := by
  refine h.binitForm fun t i th r ht => ?_
  split
  · exact ht.retireObj
  · exact ht

/-! ### Machine/Control, Convert and Fence -/

theorem longArith (h : s.memWf) {hd : Hdr} {x : VOps} {t : Ty} {f : Nat → Nat → Nat} : OutMemWf (s.longArith hd x t f) :=
  h.run fun _ => h.through (h.advance.noteOver.foldl fun _ _ ht => ht.later).closeIssue

theorem goTo (h : s.memWf) {i : Iss} {tg : List (Nat × Nat)} : (s.goTo i tg).memWf := by
  unfold State.goTo
  split
  · exact h
  · exact h.modWarp

theorem execBra (h : s.memWf) {hd : Hdr} {x : JOps} : OutMemWf (execBra hd x s) := by
  refine h.run fun i => .ite h ?_
  split
  · exact h.trapIss
  · exact h.advance.goTo.closeIssue

theorem execBrx (h : s.memWf) {hd : Hdr} {x : VOps} : OutMemWf (execBrx hd x s) :=
  h.run fun _ => h.through <| .ite h h.advance.goTo.closeIssue

theorem spill (h : s.memWf) {i : Iss} {th : Thread} : (s.spill i th).memWf := by
  refine .ite h ?_
  split
  · exact h
  · exact h.launchFlight

theorem callForm (h : s.memWf) {hd : Hdr} {i : Iss} {d a : Opnd} {tg : Thread → Int} : (s.callForm hd i d a tg).memWf :=
  h.through <| .ite h (h.advance.foldl fun _ _ ht => ht.spill).foldWarp.goTo.closeIssue

theorem noteFill (h : s.memWf) {i : Iss} {th : Thread} : (s.noteFill i th).memWf := by
  unfold State.noteFill
  split <;> exact h

theorem execRet (h : s.memWf) {hd : Hdr} {x : VOps} : OutMemWf (execRet hd x s) := by
  refine h.run fun i => .ite h.modWarp <| .ite h ?_
  split
  · exact h.trapIss
  · exact (h.foldl fun _ _ ht => ht.noteFill).advance.modThreads.goTo.closeIssue

theorem execLoopd (h : s.memWf) {hd : Hdr} {x : JOps} : OutMemWf (execLoopd hd x s) :=
  h.run fun _ => h.through <| .ite h h.advance.foldWarp.goTo.closeIssue

theorem rowForm (h : s.memWf) {hd : Hdr} {x : VOps} {n : Wid} {dRead : Bool} {f : List TIn → Nat → Nat} :
    OutMemWf (s.rowForm hd x n dRead f) := h.run fun _ => h.through h.advance.noteOver.foldWarp.closeIssue

theorem acquire (h : s.memWf) {i : Iss} : (s.acquire i).memWf := h.modThreads.unveil

theorem execFence (h : s.memWf) {hd : Hdr} {x : VOps} {sc : Scope} {k : Fence} : OutMemWf (execFence hd x sc k s) := by
  have acquired {t : State} {i : Iss} (ht : t.memWf) : (if k = .rel then t else t.acquire i).memWf := .ite ht ht.acquire
  exact h.run fun i => .ite (acquired h.advance).closeIssue <| h.orderPoint <|
    .ite (acquired h.advance.releaseOver.modThreads).closeIssue h

theorem execFencex (h : s.memWf) {hd : Hdr} {x : VOps} {sc : Scope} : OutMemWf (execFencex hd x sc s) :=
  h.run fun _ => h.orderPoint <| .ite (State.memWf.acquire (.ite h.advance.releaseOver h.advance)).closeIssue h

theorem execFencerec (h : s.memWf) {hd : Hdr} {x : VOps} {gl all : Bool} : OutMemWf (execFencerec hd x gl all s) :=
  h.run fun _ => h.throughPoint <| .ite h.advance.noteOver.modCore.closeIssue h

end State.memWf
end Sys2Proof.Machine
end

section
set_option Elab.async false
namespace Sys2Proof.Machine

/-! ### Machine/Engine -/

/-- What an engine's access answers, if it does not fail, carries a state whose byte stores are in canonical form. -/
def OkMemWf {α : Type} (st : α → State) (e : Except EngErr α) : Prop := ∀ a, e = .ok a → (st a).memWf

namespace OkMemWf

variable {α β : Type} {st : α → State}

theorem ok {a : α} (h : (st a).memWf) : OkMemWf st (.ok a) := fun _ e => Except.ok.inj e ▸ h

theorem bind {e : Except EngErr β} {f : β → Except EngErr α} (h : ∀ b, e = .ok b → OkMemWf st (f b)) : OkMemWf st (e >>= f) := by
  cases e with
  | error x => exact fun _ e => nomatch e
  | ok b => exact h b rfl

theorem ite {p : Prop} [Decidable p] {a b : Except EngErr α} (ha : OkMemWf st a) (hb : OkMemWf st b) : OkMemWf st (if p then a else b) := by
  split
  · exact ha
  · exact hb

/-- A fold of accesses, each of which keeps the byte stores. -/
theorem foldlM {f : α → β → Except EngErr α} (hf : ∀ a b, (st a).memWf → OkMemWf st (f a b)) (l : List β) (a : α) (h : (st a).memWf) :
    OkMemWf st (l.foldlM f a) := by
  induction l generalizing a with
  | nil => exact .ok h
  | cons b l ih => exact .bind fun a' e => ih a' (hf a b h a' e)

end OkMemWf

namespace State.memWf

variable {s : State}

theorem freshenDie (h : s.memWf) {die : Nat} : (s.freshenDie die).memWf := h

theorem engCache (h : s.memWf) {e : Eng} {spc : CSpc} {a : Nat} : (s.engCache e spc a).memWf := by
  unfold State.engCache
  split
  · exact h.freshenDie.cacheTlb
  · exact h

theorem placeWrite (h : s.memWf) {e : Eng} {p : EPlace} {bs : List Byte} : (s.placeWrite e p bs).memWf := State.memWf_placeWrite h e p bs

theorem engWrite (h : s.memWf) {e : Eng} {spc : CSpc} {a : Nat} {bs : List Byte} : OkMemWf id (s.engWrite e spc a bs) :=
  .bind fun _ _ => .ok h.engCache.placeWrite

theorem engMask (h : s.memWf) {e : Eng} {spc : CSpc} {a v mask : Nat} : OkMemWf id (s.engMask e spc a v mask) :=
  .ite h.engWrite <| .bind fun _ _ => .ok <| h.engCache.foldl fun _ _ ht => ht.placeWrite

theorem readWord {core : Nat} {x : State × Cmd} (h : x.1.memWf) {w : CSpc × Nat} : OkMemWf Prod.fst (State.readWord core x w) := by
  obtain ⟨s, k⟩ := x
  unfold State.readWord
  dsimp only
  split
  · exact .ok h
  · exact .bind fun _ _ => .ok (State.memWf.engCache h)

theorem readWords {core : Nat} {x : State × Cmd} (h : x.1.memWf) {ws : List (CSpc × Nat)} :
    OkMemWf Prod.fst (State.readWords core x ws) := OkMemWf.foldlM (fun _ _ ha => readWord ha) ws x h

theorem pieceWrite (h : s.memWf) {e : Eng} {k : CmdKind} {p v : Nat} : OkMemWf id (s.pieceWrite e k p v) := by
  unfold State.pieceWrite
  split
  · exact .ok h
  · split <;> dsimp only <;> split
    · exact .bind fun _ _ => h.engMask
    · exact h.engMask
    · exact .bind fun _ _ => h.engWrite
    · exact h.engWrite

theorem cleanGranule (h : s.memWf) {e : Eng} {k : CmdKind} {done : List Nat} {p : Nat} : (s.cleanGranule e k done p).memWf := by
  refine .ite h ?_
  split
  · refine .ite h ?_
    split <;> exact h
  · exact h

theorem startGather (h : s.memWf) {core : Nat} {k : Cmd} {list n : Nat} {ssp : CSpc} {dst : EAddr} :
    (s.startGather core k list n ssp dst).1.memWf := by
  unfold State.startGather
  dsimp only
  split
  · dsimp only
    split
    · exact h.engWrite _ ‹_›
    · exact h
  · exact .ite_fst h h

theorem prepare (h : s.memWf) {core : Nat} {k : Cmd} : (s.prepare core k).1.memWf := by
  refine .ite_fst h <| .ite_fst h ?_
  have read : OkMemWf Prod.fst (do let x ← State.readWords core (s, k) k.first; State.readWords core x x.2.first) :=
    .bind fun x e => readWords (readWords h x e)
  split
  · exact h
  · exact h
  · next t j e =>
    have ht : t.memWf := read _ e
    split
    · exact ht.startGather
    · exact ht

theorem countDue (h : s.memWf) {core : Nat} {k : Cmd} : (s.countDue core k).1.memWf := by
  unfold State.countDue
  split
  · exact .ite_fst h h.countBytes
  · exact h

theorem doPiece {core : Nat} {x : State × Cmd} (h : x.1.memWf) {p : Nat} : (State.doPiece core x p).1.memWf := by
  obtain ⟨s, k⟩ := x
  refine .ite_fst h ?_
  split
  · exact h
  · split
    · exact h
    · exact h
    · next t j e =>
      have ht : t.memWf := readWords h _ e
      split
      · exact h
      · exact h
      · next u e2 =>
        have hu : u.memWf := ht.pieceWrite _ e2
        dsimp only
        split
        · exact hu.cleanGranule.countDue
        · exact hu.cleanGranule

theorem readAhead {core : Nat} {x : State × Cmd} (h : x.1.memWf) {p j : Nat} : (State.readAhead core x p j).1.memWf := by
  obtain ⟨s, k⟩ := x
  refine .ite_fst h ?_
  split
  · exact h
  · split
    · exact h
    · exact h
    · next y e => exact readWord h y e

theorem putCmd (h : s.memWf) {core : Nat} {k : Cmd} : (s.putCmd core k).memWf := h

theorem execBytesCounted (h : s.memWf) {core slot : Nat} {pieces : List Nat} : OutMemWf (execBytesCounted core slot pieces s) := by
  refine .next ?_
  split
  · exact h
  · exact State.memWf.putCmd <| countDue <| foldl_fst (.ite_fst h h.prepare) fun _ _ hq => .ite_fst (readAhead hq) (doPiece hq)

theorem endCount (h : s.memWf) {gid : Nat} {r : ObjRef} {rest : Nat} {err : Option DWord} : (s.endCount gid r rest err).memWf := by
  have recorded : (match err with | some d => s.modGang gid fun g => g.modObj r fun o => o.record d | none => s).memWf := by
    split
    · exact h.modGang
    · exact h
  exact State.memWf.modGang (.ite recorded recorded.countBytes)

theorem killsDone (h : s.memWf) {core : Nat} {seq : Word} : (s.killsDone core seq).memWf :=
  State.memWf.foldl h.frame fun _ _ ht => ht.fill

theorem finishCmd (h : s.memWf) {core : Nat} {k : Cmd} {status : Nat} : (s.finishCmd core k status).memWf := by
  refine State.memWf.reap <| State.memWf.unreachBlock <| State.memWf.killsDone <| State.memWf.wakeCore <| State.memWf.fill ?_
  split
  · exact h.modCore.endCount
  · exact h.modCore

theorem accept (h : s.memWf) {world q : Nat} {k : Cmd} {len : Nat} : (s.accept world q k len).memWf := h

theorem execCommandEnd (h : s.memWf) {core slot : Nat} : OutMemWf (execCommandEnd core slot s) := by
  refine .next ?_
  split
  · exact h
  · next k _ =>
    refine .ite (.ite h h.finishCmd) ?_
    split
    · exact .ite h h.finishCmd
    · have moved : ((List.range (s.prepare core k).2.kind.count).foldl (State.doPiece core) (s.prepare core k)).1.memWf :=
        foldl_fst h.prepare fun _ _ hq => doPiece hq
      refine .ite moved.putCmd ?_
      split
      · exact moved.finishCmd
      · refine .ite moved.putCmd ?_
        split
        · exact .ite moved.putCmd (.ite moved.finishCmd moved.accept.finishCmd)
        · exact moved.finishCmd

/-! ### Machine/Copy -/

theorem useRec (h : s.memWf) {i : Iss} {p : Option (Bool × Nat)} : (s.useRec i p).memWf := by
  unfold State.useRec
  split <;> exact h

theorem readRecord (h : s.memWf) {r : WRef} {p : Bool × Nat} : (s.readRecord r p).memWf := by
  unfold State.readRecord
  split
  · exact .ite h h
  · exact h

theorem takeCounter (h : s.memWf) {gid : Nat} {cnt : Option (Bool × ObjRef)} : (s.takeCounter gid cnt).memWf := by
  unfold State.takeCounter
  split
  · exact h.modGang
  · exact h

theorem startCmd (h : s.memWf) {i : Iss} {f : CmdForm} {th : Thread} {draft : Bool} : (s.startCmd i f th draft).memWf := by
  unfold State.startCmd
  split
  · exact h.modCore.useRec.emptyDst.takeCounter
  · exact h

theorem startForm (h : s.memWf) {hd : Hdr} {f : CmdForm} : OutMemWf (s.startForm hd f) := by
  refine h.run fun i => ?_
  dsimp only
  split
  · exact h.blockFor
  · exact h.modWarp
  · exact h.through <| .ite h.blockFor <| (h.advance.foldl fun _ _ ht => ht.startCmd).closeIssue

theorem bobbinForm (h : s.memWf) {hd : Hdr} {x : VOps} {gw hasB : Bool} {nd : Nat} {more : Bobbin → Obj → Thread → Option Flt}
    {k : Iss → List Thread → State} (hk : ∀ i who, (k i who).memWf) : OutMemWf (s.bobbinForm hd x gw nd hasB more k) :=
  h.run fun _ => h.through (hk _ _)

theorem slotWaits (h : s.memWf) {hd : Hdr} {x : VOps} {gw : Bool} {i : Iss} {who : List Thread}
    {on : Bobbin → Obj → Obj → Nat → Option (Obj × Word)} : (s.slotWaits hd x gw i who on).memWf := by
  refine State.memWf.unreachBlock <| State.memWf.closeSome <| State.memWf.noteLater <| State.memWf.stayBeside <|
    h.advance.foldl fun _ _ ht => ?_
  dsimp only
  split
  · exact ht
  · split
    · exact ht.waitPhase
    · exact ht.later

theorem execBget (h : s.memWf) {hd : Hdr} {x : VOps} {gw : Bool} : OutMemWf (execBget hd x gw s) := h.bobbinForm fun _ _ => h.slotWaits

theorem execBputGet (h : s.memWf) {hd : Hdr} {x : VOps} {gw : Bool} : OutMemWf (execBputGet hd x gw s) :=
  h.bobbinForm fun _ _ => h.slotWaits

theorem execBputPut (h : s.memWf) {hd : Hdr} {x : VOps} {gw : Bool} : OutMemWf (execBputPut hd x gw s) := by
  refine h.bobbinForm fun i who => ?_
  dsimp only
  split
  · exact h
  · refine State.memWf.unreachBlock <| State.memWf.closeIssue <| h.advance.noteOver.foldl fun _ _ ht => ?_
    split
    · exact ht
    · exact ht.releaseOver.countBytes

theorem execBfree (h : s.memWf) {hd : Hdr} {x : VOps} {gw : Bool} : OutMemWf (execBfree hd x gw s) :=
  h.run fun _ => h.throughPoint <| .ite h.arrivals h

theorem bindQueue (h : s.memWf) {i : Iss} {q : Nat} {b : Bobbin} {fill free : ObjRef} : (s.bindQueue i q b fill free).1.memWf := by
  unfold State.bindQueue
  split
  · exact h
  · split
    · exact .ite_fst h <| .ite_fst h <| .ite_fst h <| .ite_fst h h.modGang
    · exact h

theorem execBbindRq (h : s.memWf) {hd : Hdr} {x : VOps} {gw : Bool} : OutMemWf (execBbindRq hd x gw s) := by
  refine h.run fun i => h.through <| State.memWf.closeIssue <| h.advance.noteOver.foldl fun _ _ ht => ?_
  split
  · exact ht
  · exact ht.bindQueue.later

theorem execBbindOff (h : s.memWf) {hd : Hdr} {x : VOps} {gw : Bool} : OutMemWf (execBbindOff hd x gw s) := by
  refine h.bobbinForm fun i who => State.memWf.unreachBlock <| State.memWf.closeIssue <| h.advance.noteOver.foldl fun _ _ ht => ?_
  split
  · exact ht
  · exact State.memWf.later (ht.modGang fun g => by split <;> rfl)

theorem execReceiveLanding (h : s.memWf) {core k : Nat} : OutMemWf (execReceiveLanding core k s) := by
  refine .next ?_
  split
  · exact h
  · split
    · split
      · exact h
      · have took {f : List NetQueue} {gid : Nat} {step : Binding → Binding} :
            (({ s with recvQs := f } : State).modGang gid fun g => { g with binds := g.binds.map step }).memWf :=
          State.memWf.modGang h.frame
        exact .ite h (State.memWf.countBytes (.ite took.modGang took.padVeil))
    · exact h

theorem execDadv (h : s.memWf) {hd : Hdr} {x : VOps} : OutMemWf (execDadv hd x s) := by
  refine h.run fun i => ?_
  split
  · exact h.advance.closeIssue
  · refine h.through <| .ite h.advance.later.closeIssue ?_
    dsimp only
    split
    · exact h.trapIss
    · exact h.modWarp
    · exact h.blockFor
    · exact .ite h.blockFor ((h.advance.foldl fun _ _ ht => ht.startCmd).modGang).later.closeIssue

theorem ckillOne (h : s.memWf) {i : Iss} {th : Thread} {which : Kill} {d : Opnd} : (s.ckillOne i th which d).memWf := by
  have marked {cs : Map Core} : ({ s with cores := cs } : State).memWf := h
  have stopped {cs : Map Core} : (if which = .draft then ({ s with cores := cs } : State).modGang i.r.1 fun g => { g with nextStage := g.nstage }
      else { s with cores := cs }).memWf := .ite marked.modGang marked
  unfold State.ckillOne
  dsimp only
  split
  · exact stopped.later
  · exact stopped
  · exact State.memWf.emptyDst stopped.frame

theorem execCkill (h : s.memWf) {hd : Hdr} {x : VOps} {which : Kill} : OutMemWf (execCkill hd x which s) :=
  h.run fun _ => h.through (h.advance.foldl fun _ _ ht => ht.ckillOne).closeIssue

/-! ### Machine/Matrix -/

theorem putRegsOf (h : s.memWf) {core q : Nat} {k : MCmd} {f : Thread → Nat → Reg → Reg} : (s.putRegsOf core q k f).memWf := by
  unfold State.putRegsOf
  dsimp only
  split
  · exact .ite h.modWarp.wakeCause h.modWarp
  · exact h.modWarp

theorem feedBy (h : s.memWf) {core q : Nat} {k : MCmd} {give : Nat → MSrc} : (s.feedBy core q k give).memWf := h

theorem countM (h : s.memWf) {q : Nat} {k : MCmd} {code : Nat} : (s.countM q k code).memWf := by
  unfold State.countM
  split
  · exact h.endCount
  · exact h

theorem dropM (h : s.memWf) {core q id : Nat} : (s.dropM core q id).memWf := State.memWf.wakeCore h.frame

theorem freeTiles (h : s.memWf) {r : WRef} : (s.freeTiles r).memWf := by
  unfold State.freeTiles
  split
  · exact h
  · exact .ite h h

theorem discardM (h : s.memWf) {e : Nat × Nat × MCmd} : (s.discardM e).memWf := h.putRegsOf.feedBy.dropM.freeTiles.countM

theorem teamExit (h : s.memWf) {gid wi : Nat} : (s.teamExit gid wi).memWf := h.foldl fun _ _ ht => ht.discardM

theorem placeCmd (h : s.memWf) {i : Iss} {f : MForm} {th : Thread} : (s.placeCmd i f th).memWf := by
  have queued {g : Quarter → Quarter} : (s.fresh.2.modQuarter i.w.core i.w.quarter g).memWf := h.frame
  refine State.memWf.takeCounter ?_
  split
  · exact State.memWf.foldl (.ite queued.modWarp queued) fun _ _ ht => ht.emptyDst
  · exact .ite queued.modWarp queued

theorem mForm (h : s.memWf) {hd : Hdr} {f : MForm} : OutMemWf (s.mForm hd f) := by
  refine h.run fun i => h.through ?_
  split
  · exact h.advance.closeIssue
  · exact .ite h.blockFor <| State.memWf.closeIssue <| .ite (h.advance.placeCmd.foldl fun _ _ ht => ht.teamExit) h.advance.placeCmd

theorem startM (h : s.memWf) {core q : Nat} {k : MCmd} : (s.startM core q k).memWf := by
  unfold State.startM
  dsimp only
  split <;> exact h

theorem execMatrixCommandStart (h : s.memWf) {core q id : Nat} : OutMemWf (execMatrixCommandStart core q id s) := by
  refine .next ?_
  split
  · exact h
  · exact .ite h h.startM

theorem execTeamCommandStart (h : s.memWf) {gid team : Nat} : OutMemWf (execTeamCommandStart gid team s) :=
  .next <| .ite (h.foldl fun _ _ ht => ht.startM) h

theorem stfWrite (h : s.memWf) {k : MCmd} {bad : Bool} {th a : Nat} {bs : List Byte} : (s.stfWrite k bad th a bs).memWf := by
  unfold State.stfWrite
  split
  · exact h
  · exact .ite h <| h.foldl fun _ _ ht => .ite ht <| .ite ht.padWrite ht.padWrite

theorem endM (h : s.memWf) {core q : Nat} {k : MCmd} {bad : Option Poison} {out : MOut} : (s.endM core q k bad out).memWf := by
  have done {t : State} (ht : t.memWf) : (match mReads k.instr with
      | some (pt, false) =>
        if k.stray then t else t.modQuarter core q fun r => { r with tiles := modAt r.tiles pt fun t => { t with owner := none } }
      | _ => t).memWf := by
    split
    · exact .ite ht ht
    · exact ht
  refine State.memWf.reap <| State.memWf.unreachBlock <| State.memWf.countM <| State.memWf.freeTiles <| State.memWf.dropM <| done ?_
  cases out with
  | regs v => exact h.putRegsOf.feedBy
  | tile pt x => exact h
  | stores v =>
    refine h.foldl fun _ _ ht => ?_
    split
    · exact ht.stfWrite
    · exact ht

theorem execMatrixCommandEnd (h : s.memWf) {core q id detections : Nat} : OutMemWf (execMatrixCommandEnd core q id detections s) := by
  refine .next ?_
  split
  · exact h
  · exact .ite h <| h.foldl fun _ _ ht => ht.endM

theorem unreachTeam (h : s.memWf) {r : WRef} : (s.unreachTeam r).memWf := by
  unfold State.unreachTeam
  split
  · exact h
  · exact .ite h <| State.memWf.foldl (h.foldl fun _ _ ht => ht.discardM) fun _ _ ht => ht.modThreads

/-! ### Machine/WarpOps -/

theorem syncForm (h : s.memWf) {hd : Hdr} {x : VOps} {full : Bool} {n : Wid} {extra : Nat} {val : Iss → List Thread → Thread → Nat}
    {also : Iss → TMask → State → State} {busy : Iss → TMask → Bool} (ha : ∀ i m t, t.memWf → (also i m t).memWf) :
    OutMemWf (s.syncForm hd x full n extra val also busy) := by
  refine h.run fun i => h.through <| .ite h ?_
  extract_lets s1 s2 s3 s4 s5
  have acted : s2.memWf := h.advance.noteOver.foldl fun t m ht => ha i m t ht
  have closed : s5.memWf := (acted.foldWarp.foldl fun _ _ ht => ht.stay).closeSome
  exact .ite closed closed.unreachWarp.unreachBlock

theorem execVote (h : s.memWf) {hd : Hdr} {x : VOps} {mode : Vote} {full : Bool} : OutMemWf (execVote hd x mode full s) := by
  unfold Machine.execVote
  exact h.syncForm fun _ _ _ ht => ht

theorem execWsync (h : s.memWf) {hd : Hdr} {x : VOps} {full : Bool} : OutMemWf (execWsync hd x full s) := by
  unfold Machine.execWsync
  exact h.syncForm fun _ _ _ ht => ht.flushPads.unveil

theorem execJset (h : s.memWf) {hd : Hdr} {x : VOps} {jn : BitVec 4} : OutMemWf (execJset hd x jn s) := by
  refine h.run fun i => h.through <| State.memWf.closeIssue ?_
  split
  · exact h.advance
  · exact h.advance.modWarp

theorem arriveJoin (h : s.memWf) {hd : Hdr} {i : Iss} {past : BitVec 8} {jn : Nat} {lim : Thread → Option (Nat × Nat)} :
    (s.arriveJoin hd i past jn lim).memWf := by
  unfold State.arriveJoin
  extract_lets now jm mine ts go out s1 arrive quit owe s1' s2 left s3 s4
  have recorded : s1.memWf := h.advance.foldl fun _ _ ht => ht.modThread
  have noted : s1'.memWf := .ite recorded recorded.modThreads
  have answered : s4.memWf := noted.modWarp.modThreads.foldl fun _ _ ht => by
    split
    · exact ht.later
    · exact ht
  exact answered.closeSome.unreachWarp.unreachBlock

theorem execJwaittExpiry (h : s.memWf) {gid wi t : Nat} : OutMemWf (execJwaittExpiry gid wi t s) := by
  refine .next ?_
  split
  · exact h
  · split
    · exact h
    · split
      · exact .ite h h.modWarp.modCore
      · exact h

/-! ### Machine/Exit -/

theorem exitThread (h : s.memWf) {r : WRef} {t : Nat} : (s.exitThread r t).memWf := by
  unfold State.exitThread
  split
  · exact h.modThread.modWarp.foldl fun _ _ ht => ht.objEvent
  · exact h

theorem afterExit (h : s.memWf) {r : WRef} : (s.afterExit r).memWf := by
  unfold State.afterExit
  extract_lets u
  have hu : u.memWf := h.modWarp
  split
  · exact hu
  · exact .ite hu hu.teamExit.freeTiles.modCore

theorem execExit (h : s.memWf) {hd : Hdr} {x : VOps} : OutMemWf (execExit hd x s) :=
  h.run fun _ => h.orderPoint <|
    (h.advance.foldl fun _ _ ht => ht.exitThread).afterExit.closeIssue.rteReturn.unreachWarp.unreachBlock.reap

theorem putTile (h : s.memWf) {core q : Nat} {p : Nat × Tile} : (s.putTile core q p).memWf := h

theorem depart (h : s.memWf) {r : WRef} {dest : Nat × Nat × Nat} : (s.depart r dest).memWf := by
  unfold State.depart
  split
  · exact h
  · refine State.memWf.modWarp <| State.memWf.foldl ?_ fun _ _ ht => ht.putTile
    exact .ite h.endStride.modCore.modCore h.endStride.modCore

theorem execRelay (h : s.memWf) {hd : Hdr} {x : VOps} : OutMemWf (execRelay hd x s) := by
  refine h.run fun i => h.through ?_
  split
  · exact h.advance.closeIssue
  · refine h.orderPoint <| .ite h ?_
    extract_lets die c s1 s2
    have answered : s1.memWf := h.advance.foldl fun _ _ ht => ht.later
    split
    · exact answered.closeIssue
    · exact answered.closeIssue.depart

theorem execRelayArrival (h : s.memWf) {gid wi : Nat} : OutMemWf (execRelayArrival gid wi s) := by
  refine .next ?_
  split
  · exact h
  · split
    · exact h
    · refine .ite h ?_
      extract_lets s1 s2 mine s3
      have seated : s2.memWf := State.memWf.foldl (h.modWarp : s1.memWf) fun _ _ ht => ht.putTile
      have answered : s3.memWf := seated.foldl fun _ _ ht => by
        split
        · exact ht.fill
        · exact ht
      exact answered

/-! ### Machine/Home -/

theorem markSeen (h : s.memWf) {f : Flight} : (s.markSeen f).memWf := h

theorem fillLoad (h : s.memWf) {f : Flight} {signed : Bool} {part : Nat} : (s.fillLoad f signed part).memWf := by
  refine .ite h ?_
  extract_lets bits bs bad u
  have read : u.memWf := by
    simp only [u]
    split
    · exact .ite (State.memWf.freshen h.frame) h.markSeen.fetchCopy
    · exact .ite h.modGang h
    · exact h
  refine .ite ?_ read
  split
  · exact read.dropFlight
  · exact .ite read.dropFlight.fillBad read.dropFlight.fill

theorem execRegisterFill (h : s.memWf) {id part : Nat} : OutMemWf (execRegisterFill id part s) := by
  have delivered {pl : Place} : (match pl with
      | .phys _ => s.modFlight id fun f => { f with dst := none }
      | _ => s.dropFlight id).memWf := by
    split <;> exact h
  refine .next ?_
  split
  · exact h
  · split
    · exact .ite h h.dropFlight.fill.reap
    · exact h.fillLoad.reap
    · exact .ite h (.ite delivered.fillBad.reap delivered.fill.reap)
    · exact h

theorem logPut (h : s.memWf) {die : Nat} {e : LogE} : (s.logPut die e).memWf := h

theorem modFlight (h : s.memWf) {id : Nat} {f : Flight → Flight} : (s.modFlight id f).memWf := h

theorem refuseAt (h : s.memWf) {f : Flight} {pa cause : Nat} : (s.refuseAt f pa cause).memWf := h.logPut.modFlight.freshen

theorem ownCopy (h : s.memWf) {f : Flight} {pa : Nat} : (s.ownCopy f pa).memWf := .ite h h.freshen

theorem sendInvals (h : s.memWf) {pa die store : Nat} {hold : Bool} : (s.sendInvals pa die store hold).memWf := h

theorem applyStore (h : s.memWf) {f : Flight} {pa part : Nat} : (s.applyStore f pa part).memWf :=
  .ite h h.memWrite.modFlight.sendInvals.ownCopy

theorem applyAtom (h : s.memWf) {f : Flight} {pa : Nat} : (s.applyAtom f pa).memWf := .ite h h.memWrite.modFlight.sendInvals.ownCopy

theorem poisonAtom (h : s.memWf) {f : Flight} {pa : Nat} : (s.poisonAtom f pa).memWf :=
  State.memWf.modFlight (State.memWf.logEntry h.frame)

theorem joinHot (h : s.memWf) {f : Flight} {pa : Nat} : (s.joinHot f pa).memWf := by
  unfold State.joinHot
  split
  · exact .ite h h
  · exact .ite h h

theorem execStoreAtHome (h : s.memWf) {id part : Nat} : OutMemWf (execStoreAtHome id part s) := by
  refine .next ?_
  split
  · exact h
  · split
    · refine .ite h ?_
      split
      · exact h.refuseAt
      · exact .ite h.applyStore <| .ite (.ite h.joinHot <| .ite h <| .ite h.poisonAtom h.applyAtom) h
    · exact h

theorem execHotWordRetire (h : s.memWf) {addr : Nat} {ids : List Nat} : OutMemWf (execHotWordRetire addr ids s) := by
  refine .next ?_
  split
  · exact h
  · refine .ite h ?_
    extract_lets slice u left
    have retired : u.memWf := h.foldl fun t d ht => by
      split
      · split
        · refine .ite ht ?_
          split
          · exact ht.refuseAt
          · exact .ite ht.clearStrike.poisonAtom ht.applyAtom
        · exact ht
      · exact ht
    exact retired

theorem execInvalidation (h : s.memWf) {die line : Nat} : OutMemWf (execInvalidation die line s) := by
  refine .next ?_
  split <;> exact h

theorem execInvalidationAck (h : s.memWf) {die line : Nat} : OutMemWf (execInvalidationAck die line s) := by
  refine .next ?_
  split <;> exact h

theorem report (h : s.memWf) {f : Flight} {code : Nat} : (s.report f code).memWf := by
  unfold State.report
  dsimp only
  split
  · exact .ite h.modWarp h.logPut
  · exact h.logPut

theorem refillFlight (h : s.memWf) {f : Flight} : (s.refillFlight f).memWf := by
  unfold State.refillFlight
  split
  · exact h.refill
  · exact h

theorem entryFreed (h : s.memWf) {f : Flight} : (s.entryFreed f).memWf := h.grantOst.reap

theorem execStoreAck (h : s.memWf) {id : Nat} : OutMemWf (execStoreAck id s) := by
  refine .next ?_
  split
  · exact h
  · exact .ite h.dropFlight.entryFreed h

theorem execNegativeAck (h : s.memWf) {id : Nat} : OutMemWf (execNegativeAck id s) := by
  refine .next ?_
  split
  · exact h
  · exact .ite h h.dropFlight.refillFlight.report.entryFreed

theorem declareLost (h : s.memWf) {f : Flight} : (s.declareLost f).memWf := by
  unfold State.declareLost
  refine .ite h (State.memWf.entryFreed <| State.memWf.report <| State.memWf.refillFlight ?_)
  split
  · exact State.memWf.freshen h.frame
  · exact h

end State.memWf
end Sys2Proof.Machine
end

section
set_option Elab.async false
namespace Sys2Proof.Machine

namespace State.memWf

variable {s : State}

/-! ### Machine/System -/

theorem execTrapHset (h : s.memWf) {hd : Hdr} {x : VOps} : OutMemWf (execTrapHset hd x s) := by
  refine h.run fun i => h.through <| State.memWf.closeIssue ?_
  split
  · exact h.advance.noteOver
  · exact h.advance.noteOver.modWarp

theorem execRte (h : s.memWf) {hd : Hdr} {x : VOps} {skip : Bool} : OutMemWf (execRte hd x skip s) := by
  refine h.run fun i => .ite h ?_
  split
  · exact h.trapIss
  · exact (State.memWf.rteReturn (h.advance.foldl fun _ _ ht => ht.stay)).closeSome.unreachWarp.unreachBlock

/-- Breakpoints and watchpoints set: the gang changes but for its scratchpads. -/
theorem execBrkBp (h : s.memWf) {hd : Hdr} {x : VOps} : OutMemWf (execBrkBp hd x s) :=
  h.run fun _ => h.through (h.advance.foldl fun _ _ ht => ht.modGang).closeIssue

theorem execBrkWp (h : s.memWf) {hd : Hdr} {x : VOps} : OutMemWf (execBrkWp hd x s) :=
  h.run fun _ => h.through (h.advance.foldl fun _ _ ht => ht.modGang).closeIssue

theorem execEvtack (h : s.memWf) {hd : Hdr} {x : VOps} : OutMemWf (execEvtack hd x s) :=
  h.run fun _ => h.through (h.advance.noteOver.foldl fun _ _ ht => ht.modWarp).closeIssue

theorem ask (h : s.memWf) {i : Iss} {th : Thread} {d : Opnd} {req : Req} : (s.ask i th d req).memWf := by
  unfold State.ask
  split
  · exact h
  · exact State.memWf.emptyDst h.frame

theorem answer (h : s.memWf) {p : Pending} {v : Nat} : (s.answer p v).memWf := State.memWf.reap <| State.memWf.fill h.frame

theorem requestForm (h : s.memWf) {hd : Hdr} {x : VOps} {src : List Fld} {chk : Iss → Thread → Option Flt}
    {act : Iss → Thread → State → State} (ha : ∀ i th t, t.memWf → (act i th t).memWf) : OutMemWf (s.requestForm hd x src chk act) :=
  h.run fun _ => h.through (h.advance.noteOver.foldl fun _ _ ht => ha _ _ _ ht).closeIssue

theorem takeRoot (h : s.memWf) {gid : Nat} {new : Option Nat} : (s.takeRoot gid new).memWf := by
  unfold State.takeRoot
  split
  · exact h
  · extract_lets s1 s2
    have used : s1.memWf := by
      simp only [s1]
      split <;> exact h
    split
    · exact used.modGang.drop
    · exact used.modGang

theorem execSetroot (h : s.memWf) {hd : Hdr} {x : VOps} : OutMemWf (execSetroot hd x s) :=
  h.requestForm fun _ _ _ ht => .ite ht.takeRoot.ask (State.memWf.ask (.ite ht.takeRoot ht))

theorem execSetrootComplete (h : s.memWf) {id : Nat} : OutMemWf (execSetrootComplete id s) := by
  refine .next ?_
  split
  · exact h
  · split
    · exact h.answer
    · exact h

/-- A retype fills the frame with zeros where its owner changes or it becomes free, and nothing else with it. -/
theorem retypeFrame (h : s.memWf) {f t : Nat} {owner : Option Nat} {fw : Bool} : (s.retypeFrame f t owner fw).memWf :=
  State.memWf.modFrame (.ite (State.memWf_zeroFrame h f) h)

theorem execRetypeAtHome (h : s.memWf) {id : Nat} : OutMemWf (execRetypeAtHome id s) := by
  refine .next ?_
  split
  · exact h
  · split
    · exact State.memWf.answer (.ite h.retypeFrame h)
    · exact h

theorem execTinv (h : s.memWf) {hd : Hdr} {x : VOps} : OutMemWf (execTinv hd x s) := h.requestForm fun _ _ _ ht => ht.modCore.ask

theorem execTinvComplete (h : s.memWf) {id : Nat} : OutMemWf (execTinvComplete id s) := by
  refine .next ?_
  split
  · exact h
  · split
    · exact .ite h (State.memWf.answer h.frame)
    · exact h

theorem tableCommit (h : s.memWf) {t o v : Nat} : (s.tableCommit t o v).memWf := by
  have counted {f : FrameE → FrameE} {k : Nat} {p : Prop} [Decidable p] {bs : List Byte} :
      ((if p then s.modFrame k f else s).deviceWrite (t * 65536 + 8 * o) bs).memWf := State.memWf_deviceWrite (.ite h.modFrame h) ..
  exact State.memWf.modFrame (.ite (State.memWf.drop counted) counted)

theorem execTableStoreAdmission (h : s.memWf) {gid wi : Nat} : OutMemWf (execTableStoreAdmission gid wi s) := by
  refine .next ?_
  split
  · exact h
  · split
    · exact State.memWf.modWarp (.ite h.tableCommit h)
    · exact h

theorem execPurge (h : s.memWf) {slice frame : Nat} : OutMemWf (execPurge slice frame s) := by
  refine .next ?_
  split
  · exact h
  · exact .ite h h

/-! ### Machine/Record and Place -/

theorem enqueue (h : s.memWf) {world q a : Nat} {root : Option Nat} : (s.enqueue world q a root).1.memWf := .ite_fst h h

theorem execLaunch (h : s.memWf) {hd : Hdr} {x : VOps} : OutMemWf (execLaunch hd x s) :=
  h.run fun _ => h.through <| .ite h (h.advance.noteOver.foldl fun _ _ ht => ht.enqueue.later).closeIssue

theorem execOpreq (h : s.memWf) {hd : Hdr} {x : VOps} : OutMemWf (execOpreq hd x s) :=
  h.run fun _ => h.through (h.advance.noteOver.foldl fun _ _ ht => State.memWf.modWarp (.ite ht.frame ht)).closeIssue

theorem takeRecord (h : s.memWf) {k : Queue} {a : Nat} {root : Option Nat} {rest : List (Nat × Option Nat)} :
    (s.takeRecord k a root rest).memWf := by
  unfold State.takeRecord
  split
  · exact State.memWf.logEntry h.frame
  · exact State.memWf.logEntry h.frame
  · dsimp only
    split
    · exact .ite (State.memWf.logEntry h.frame) h
    · exact .ite h h

theorem takeRecords (h : s.memWf) {world q n : Nat} : (s.takeRecords world q n).memWf := by
  induction n generalizing s with
  | zero => exact h
  | succ n ih =>
    unfold State.takeRecords
    dsimp only
    split
    · exact .ite h (ih h.takeRecord)
    · exact h

/-- A gang's root, if it has one, gains a use. -/
theorem useRoot (h : s.memWf) {root : Option Nat} {f : FrameE → FrameE} :
    (match root with | some k => s.modFrame k f | none => s).memWf := by
  split <;> exact h

/-- A placed block comes with empty scratchpads. -/
theorem placeBlock (h : s.memWf) {l : Launch} {cl : Cluster} {cores : List Nat} {draft : List DraftEntry × Nat} :
    (s.placeBlock l cl cores draft).memWf := by
  unfold State.placeBlock
  extract_lets b held auto k
  obtain ⟨gid, s', hs', h'⟩ : ∃ gid s', s.fresh = (gid, s') ∧ s'.memWf := ⟨_, _, rfl, h⟩
  rw [hs']
  dsimp -zeta only
  extract_lets root g s1 s2
  have empty : g.memWf := fun p hp => by rw [List.eq_of_mem_replicate hp, Memory.nil_wf]
  have used : s1.memWf := h'.useRoot
  have added : s2.memWf := .ite used used
  exact State.memWf.frame (added.addGang empty)

theorem placeBlocks (h : s.memWf) {lid n : Nat} {shut : List Nat} {prefs : List (List Nat)} : (s.placeBlocks lid shut prefs n).1.memWf := by
  induction n generalizing s prefs with
  | zero => exact h
  | succ n ih =>
    unfold State.placeBlocks
    split
    · exact h
    · refine .ite_fst h ?_
      split
      · exact h
      · split
        · exact h
        · exact ih h.placeBlock

/-! ### Machine/Sched -/

theorem serve (h : s.memWf) {lid : Nat} {prefs : List (List Nat)} : (s.serve lid prefs).1.memWf := by
  unfold State.serve
  dsimp only
  split
  · exact h.placeBlocks
  · exact .ite_fst h.placeBlocks h.placeBlocks.frame

theorem countPassed (h : s.memWf) {before : List Launch} : (s.countPassed before).memWf := by
  induction before generalizing s with
  | nil => exact h
  | cons l below ih => exact ih (.ite h h)

theorem rotate (h : s.memWf) {before : List Launch} : (s.rotate before).memWf := h.foldl fun _ _ ht => ht

theorem execDispatchRound (h : s.memWf) {prefs : List (List Nat)} : OutMemWf (execDispatchRound prefs s) := by
  refine .next (.ite h ?_)
  exact (State.memWf.foldl_fst (h.foldl fun _ _ ht => ht.takeRecords) fun _ _ hq => hq.serve).countPassed.rotate

theorem execLaunchCompletion (h : s.memWf) {lid : Nat} : OutMemWf (execLaunchCompletion lid s) := by
  refine .next ?_
  split
  · exact h
  · refine .ite h (.ite h ?_)
    split
    · exact State.memWf.memWrite h.frame
    · exact State.memWf.logEntry h.frame

theorem execKillComplete (h : s.memWf) {gid : Nat} : OutMemWf (execKillComplete gid s) := by
  refine .next ?_
  split
  · exact h
  · exact .ite h h.endKilled

theorem execStrideSlot (h : s.memWf) {core q : Nat} : OutMemWf (execStrideSlot core q s) := by
  refine .next (.ite h ?_)
  dsimp only
  split
  · exact h
  · exact (h.foldl fun _ _ ht => .ite ht ht.modWarp).modWarp.modCore

theorem readParam (h : s.memWf) {r : WRef} {a : Nat} : (s.readParam r a).memWf := by
  unfold State.readParam
  split
  · split <;> exact h
  · exact h

theorem execStallDataArrival (h : s.memWf) {gid wi : Nat} : OutMemWf (execStallDataArrival gid wi s) := by
  refine .next ?_
  dsimp only
  split
  · exact h.modWarp
  · exact .ite h (h.foldl fun _ _ ht => ht.readParam).modWarp
  · exact .ite h (h.foldl fun _ _ ht => ht.readRecord).modWarp
  · exact h

theorem execWake (h : s.memWf) {c : Nat} : OutMemWf (execWake c s) := by
  refine .next (.ite h ?_)
  dsimp only
  split
  · exact .ite h.modCore.mapGangs h
  · exact .ite h h

/-! ### Machine/Preempt -/

theorem causeGang (h : s.memWf) {gid bit : Nat} : (s.causeGang gid bit).memWf := by
  unfold State.causeGang
  split
  · exact h
  · exact h.foldl fun _ _ ht => ht.modCore

theorem execPreemptRequest (h : s.memWf) {gid : Nat} {notice : Option Nat} {frames : List Nat} :
    OutMemWf (execPreemptRequest gid notice frames s) := by
  refine .next ?_
  split
  · exact h
  · refine .ite h ?_
    dsimp only
    split
    · exact h.modGang.causeGang.post
    · exact h.modGang.causeGang

theorem execNoticeExpiry (h : s.memWf) {gid : Nat} : OutMemWf (execNoticeExpiry gid s) := by
  refine .next ?_
  split
  · exact h
  · split
    · split
      · exact .ite h.modGang h
      · exact h
    · exact h

/-- A sealed gang keeps the scratchpads it had as a resident. -/
theorem execSeal (h : s.memWf) {gid : Nat} : OutMemWf (execSeal gid s) := by
  refine .next ?_
  split
  · exact h
  · next g hg =>
    refine .ite h (State.memWf.release (State.memWf.frame (State.memWf.regang (h.reseal (ks := _ ++ [_]) fun k hk => ?_)
      fun k hk => .inl (List.mem_filter.1 hk).1)))
    rcases List.mem_append.1 hk with hk | hk
    · exact ⟨k.gang, (State.mem_allGangs ..).2 (.inr (.inr ⟨k, hk, rfl⟩)), rfl⟩
    · exact ⟨g, State.mem_allGangs_of_gang? hg, by rw [List.mem_singleton.1 hk]⟩

theorem reseat (h : s.memWf) {gid : Nat} {home : Nat → Nat × Nat} {w : Warp} : (s.reseat gid home w).1.memWf := by
  unfold State.reseat
  dsimp only
  split <;> exact h

theorem reseatAll (h : s.memWf) {gid : Nat} {home : Nat → Nat × Nat} {ws : List Warp} : (s.reseatAll gid home ws).1.memWf := by
  induction ws generalizing s with
  | nil => exact h
  | cons w r ih => exact ih h.reseat

theorem requeue (h : s.memWf) {gid : Nat} {m : MCmd} : (s.requeue gid m).memWf := by
  unfold State.requeue
  split <;> exact h

theorem retile (h : s.memWf) {gid : Nat} {p : Nat × Nat × Tile} : (s.retile gid p).memWf := by
  unfold State.retile
  split <;> exact h

/-- A restored gang has the scratchpads it was sealed with. -/
theorem restore (h : s.memWf) {k : Sealed} {cores : List Nat} (hk : k.gang.memWf) : (s.restore k cores).memWf := by
  unfold State.restore
  extract_lets gid rows s1 seats src
  obtain ⟨s2, ws, hs, seated⟩ : ∃ s2 ws, s1.seats k cores = (s2, ws) ∧ s2.memWf := ⟨_, _, rfl, State.memWf.reseatAll h.fewerSealed⟩
  rw [hs]
  dsimp -zeta only
  extract_lets moved s3 s4 s5
  have fresh : s3.memWf := seated.foldl fun _ _ ht => ht.freshenDie
  have added : s4.memWf := fresh.addGang hk
  have restored : s5.memWf := (added.foldl fun _ _ ht => ht.requeue).foldl fun _ _ ht => ht.retile
  exact .ite restored.post restored

theorem modLaunch (h : s.memWf) {lid : Nat} {f : Launch → Launch} : (s.modLaunch lid f).memWf := h

theorem sealFails (h : s.memWf) {k : Sealed} : (s.sealFails k).memWf := by
  have ended {l : Nat} {f : Launch → Launch} {p : Sealed → Bool} {d : Nat} {e : LogE} {g : Gang} :
      ((({ s with sealed := s.sealed.filter p } : State).logEntry d e).modLaunch l f |>.endKilled g).memWf :=
    h.fewerSealed.logEntry.modLaunch.endKilled
  exact .ite ended.lockDown ended

theorem execResume (h : s.memWf) {gid : Nat} {cores : List Nat} : OutMemWf (execResume gid cores s) := by
  refine .next ?_
  split
  · exact h
  · next k hk =>
    refine .ite h (.ite h.sealFails (.ite (h.restore ?_) h))
    obtain ⟨-, -, -, hs⟩ := h
    exact hs k.gang ((State.mem_allGangs ..).2 (.inr (.inr ⟨k, List.mem_of_find?_eq_some hk, rfl⟩)))

/-! ### Machine/Repair -/

theorem execOpEvacuateScratchpad (h : s.memWf) : OutMemWf (execOpEvacuateScratchpad s) := by
  refine .next ?_
  split
  · exact .ite h (.ite h h)
  · exact h

theorem execOpEvacuateSlices (h : s.memWf) : OutMemWf (execOpEvacuateSlices s) := by
  refine .next ?_
  split
  · exact .ite h h
  · exact h

theorem execOpSwitch (h : s.memWf) : OutMemWf (execOpSwitch s) := by
  refine .next ?_
  split
  · exact .ite (State.memWf.postResident h.frame) (.ite (State.memWf.postResident h.frame) h)
  · exact h

theorem execRowRetire (h : s.memWf) {slice : Bool} {unit row : Nat} : OutMemWf (execRowRetire slice unit row s) :=
  .next <| .ite h <| .ite h <| .ite h <| .ite (State.memWf.postResident h.frame) h

theorem execSoftPpr (h : s.memWf) {line : Nat} {hard : Bool} : OutMemWf (execSoftPpr line hard s) := by
  refine .next (.ite h ?_)
  extract_lets u
  have recorded : u.memWf := .ite h h
  exact .ite recorded recorded

theorem poison (h : s.memWf) {a : ArrayWord} : (s.poison a).memWf := by
  unfold State.poison
  cases a
  case obj => exact h.modGang
  case main | own => exact h.modThread
  case scalar => exact h.modWarp
  all_goals exact h

theorem arrayError (h : s.memWf) {core : Nat} {e : ArrayWord × Bool} : (s.arrayError core e).memWf :=
  State.memWf.logEntry (.ite h.poison h)

theorem execPatrol (h : s.memWf) {line : Nat} {found : List (Nat × Bool)} {tag : Bool} : OutMemWf (execPatrol line found tag s) := by
  refine .next ?_
  extract_lets die src log hard s1 s2
  have found : s1.memWf := h.foldl fun _ _ ht => ht.logEntry
  have logged : s2.memWf := .ite found.logEntry found
  exact .ite logged logged

theorem takeSpare (h : s.memWf) {k part : Nat} {cl : Cluster} {isUnit : Bool} {t : State} (ht : s.takeSpare k cl isUnit part = some t) :
    t.memWf := by
  unfold State.takeSpare at ht
  dsimp only at ht
  split at ht
  all_goals
    obtain ⟨u, -, rfl⟩ := Option.map_eq_some_iff.1 ht
    exact h

theorem execSpareTakeover (h : s.memWf) {isUnit dead : Bool} {part : Nat} : OutMemWf (execSpareTakeover isUnit part dead s) := by
  refine .next ?_
  dsimp only
  split
  · exact h
  · refine .ite (h.foldl fun _ _ ht => ht.kill) (.ite h ?_)
    split
    · next ht => exact h.takeSpare ht
    · exact .ite h (State.memWf.postAll h.frame)

theorem execEnvironmentalAlarm (h : s.memWf) {cond die : Nat} : OutMemWf (execEnvironmentalAlarm cond die s) :=
  .next <| .ite h <| .ite h.lockDown h.logEntry

theorem execAlarmResend (h : s.memWf) : OutMemWf (execAlarmResend s) := by
  refine .next ?_
  split
  · exact .ite (State.memWf_sendAlarm h) h
  · exact h

theorem loseCmd (h : s.memWf) {core : Nat} {k : Cmd} : (s.loseCmd core k).memWf := h

theorem execAckTimeout (h : s.memWf) {id : Nat} : OutMemWf (execAckTimeout id s) := by
  refine .next ?_
  split
  · exact .ite h.declareLost h
  · split
    · exact .ite h.loseCmd h
    · exact h

theorem execBridgeFailure (h : s.memWf) {bridge : Nat} {dropped : List Nat} {cmds : List (Nat × Nat)} :
    OutMemWf (execBridgeFailure bridge dropped cmds s) := by
  refine .next ?_
  extract_lets lose fail s1 s2
  have lost : s1.memWf := by
    refine State.memWf.foldl (h.foldl fun t id ht => ?_) fun t p ht => ?_
    · simp only [lose]
      split
      · exact ht
      · exact .ite ht.declareLost ht
    · simp only [fail]
      split
      · exact .ite ht.loseCmd ht
      · exact ht
  exact lost

/-! ### Machine/Net -/

theorem baseTake (h : s.memWf) {k : Nat} {r : BaseReq} : (s.baseTake k r).memWf := by
  refine .ite h ?_
  split <;> exact h

theorem execBaseRsp (h : s.memWf) {k port tag : Nat} : OutMemWf (execBaseRsp k port tag s) := by
  refine .next ?_
  split
  · exact h
  · exact .ite h h

theorem execBaseAck (h : s.memWf) {k port tag : Nat} : OutMemWf (execBaseAck k port tag s) := by
  refine .next ?_
  split
  · exact h
  · exact .ite h h

/-- A grant whose owner changes is zero: the cells of its bytes leave the bridge buffer. -/
theorem execGrantOwnerChange (h : s.memWf) {k g world : Nat} : OutMemWf (execGrantOwnerChange k g world s) := by
  obtain ⟨hm, hb, hf, hs⟩ := id h
  exact .next <| .ite h <| .ite h ⟨hm, Memory.filter_wf hb _, hf, hs⟩

theorem modLink (h : s.memWf) {d : Nat} {f : Link → Link} : (s.modLink d f).memWf := h

theorem newFlit (h : s.memWf) {d type world : Nat} {payload : List Byte} {f : Flit} {t : State}
    (e : s.newFlit d type world payload = some (f, t)) : t.memWf := by
  unfold State.newFlit at e
  dsimp only at e
  split at e
  · cases e
  · split at e
    · cases e
    · cases e
      exact h

theorem nextFlit (h : s.memWf) {d type world : Nat} {payload : List Byte} {f : Flit} {t : State}
    (e : s.nextFlit d type world payload = some (f, t)) : t.memWf := by
  unfold State.nextFlit at e
  dsimp only at e
  split at e
  · split at e
    · cases e
      exact h
    · cases e
  · exact h.newFlit e

theorem receive (h : s.memWf) {d : Nat} {f : Flit} {ok : Bool} : (s.receive d f ok).memWf := .ite h <| .ite h h

/-- A flit sent where one can be, and received. -/
theorem sent (h : s.memWf) {o : Option (Flit × State)} (ho : ∀ f t, o = some (f, t) → t.memWf) {d e : Nat} {ok : Bool} {g : Link → Link} :
    (match o with | some (f, t) => (t.modLink e g).receive d f ok | none => s).memWf := by
  match o with
  | some (f, t) => exact (ho f t rfl).modLink.receive
  | none => exact h

/-- As `sent`, with nothing else to note. -/
theorem resent (h : s.memWf) {o : Option (Flit × State)} (ho : ∀ f t, o = some (f, t) → t.memWf) {d : Nat} {ok : Bool} :
    (match o with | some (f, t) => t.receive d f ok | none => s).memWf := by
  match o with
  | some (f, t) => exact (ho f t rfl).receive
  | none => exact h

theorem execFlitData (h : s.memWf) {d : Nat} {ok : Bool} : OutMemWf (execFlitData d ok s) := by
  refine .next ?_
  dsimp only
  split
  · exact h.sent fun _ _ => h.newFlit
  · exact h
  · exact h.resent fun _ _ => h.nextFlit

theorem execFlitVoid (h : s.memWf) {d : Nat} {ok : Bool} : OutMemWf (execFlitVoid d ok s) := by
  refine .next ?_
  dsimp only
  split
  · exact h.sent fun _ _ => h.newFlit
  · exact h
  · exact h.resent fun _ _ => h.nextFlit

theorem execFlitIdle (h : s.memWf) {d : Nat} {ok : Bool} : OutMemWf (execFlitIdle d ok s) := .next <| h.resent fun _ _ => h.nextFlit

theorem execFlitMarker (h : s.memWf) {d : Nat} {ok : Bool} : OutMemWf (execFlitMarker d ok s) := by
  refine .next ?_
  dsimp only
  split
  · next e => exact (h.nextFlit e).modLink.receive
  · exact h

theorem execFlitNak (h : s.memWf) {link : Nat × Bool} : OutMemWf (execFlitNak link s) := by
  refine .next ?_
  dsimp only
  split
  · exact h.sent fun _ _ => h.newFlit
  · exact h
  · exact h.resent fun _ _ => h.nextFlit

theorem reroute (h : s.memWf) {d : Nat} : (s.reroute d).memWf := h

theorem execLinkTraining (h : s.memWf) {k : Nat} : OutMemWf (execLinkTraining k s) :=
  .next <| .ite h <| State.memWf.foldl h.modLink.modLink fun _ _ ht => .ite ht.reroute ht

theorem execLinkFailure (h : s.memWf) {k : Nat} : OutMemWf (execLinkFailure k s) :=
  .next <| .ite h.modLink.modLink.reroute.reroute.logEntry h

theorem killSealed (h : s.memWf) {world : Nat} : (s.killSealed world).memWf :=
  h.foldl fun _ _ ht => State.memWf.endKilled (State.memWf.fewerSealed ht.modLaunch.logEntry)

theorem execFunctionLevelReset (h : s.memWf) {w : Nat} {lost : List Nat} : OutMemWf (execFunctionLevelReset w lost s) := by
  refine .next ?_
  extract_lets s1 s2 s3 void
  have ended : s3.memWf := by
    refine State.memWf.foldl (State.memWf.killSealed (h.foldl fun _ _ ht => ht.kill)) fun t id ht => ?_
    split
    · split
      · exact .ite ht.declareLost ht
      · exact ht
    · exact ht
  exact ended

theorem execQueueOpen (h : s.memWf) {world q peer : Nat} {send rod : Bool} : OutMemWf (execQueueOpen world q send peer rod s) :=
  .next <| .ite h <| .ite h h

theorem execQueueClose (h : s.memWf) {world q : Nat} {send : Bool} : OutMemWf (execQueueClose world q send s) :=
  .next <| .ite h <| .ite h h

/-! ### Machine/Manage -/

/-- A restarted machine has no gang and an empty bridge buffer, and its memory and flash as they were. -/
theorem restart (h : s.memWf) : s.restart.memWf := by
  obtain ⟨hm, -, hf, -⟩ := h
  exact ⟨hm, Memory.nil_wf, hf, List.forall_mem_nil _⟩

/-- Memory filled with zeros lists no cell. -/
theorem execKeysAndFill (h : s.memWf) : OutMemWf (execKeysAndFill s) := by
  obtain ⟨-, hb, hf, hs⟩ := id h
  exact .next <| .ite h ⟨Memory.nil_wf, hb, hf, hs⟩

end State.memWf

/-- What each step of a fold over a memory keeps canonical, the fold keeps. -/
theorem Memory.foldl_wf {α : Type} {f : Memory → α → Memory} (hf : ∀ m a, Memory.wf m = true → Memory.wf (f m a) = true) (l : List α)
    {m : Memory} (h : m.wf = true) : Memory.wf (l.foldl f m) = true :=
  List.foldlRecOn (motive := fun m => Memory.wf m = true) l f h fun m hm a _ => hf m a hm

theorem bootTables_wf {fs : List Nat} {pages : List (Nat × Bool)} {tops : List Nat} {m : Memory} (h : m.wf = true) :
    Memory.wf (bootTables fs pages tops m) = true :=
  Memory.foldl_wf (fun _ _ hm => Memory.writeN_wf hm _ _) _ <| Memory.foldl_wf (fun _ _ hm => Memory.writeN_wf hm _ _) _ h

namespace State.memWf

variable {s : State}

/-- An image loaded: its frames emptied, its tables and its bytes written. -/
theorem loadImage (h : s.memWf) {slot : Nat} : (s.loadImage slot).1.memWf := by
  unfold State.loadImage
  extract_lets pages tops fs put blank entry mem
  obtain ⟨hm, hb, hf, hs⟩ := h
  have written : Memory.wf mem = true :=
    Memory.foldl_wf (fun _ _ hm => Memory.foldl_wf (fun _ _ hm => Memory.write_wf hm _ _) _ hm) _ <|
      bootTables_wf <| Memory.foldl_wf (fun _ _ hm => Memory.filter_wf hm _) _ hm
  have loaded : ({ s with mem := mem, badMem := s.badMem.filter fun w => !fs.contains (w / 16384) } : State).memWf := ⟨written, hb, hf, hs⟩
  dsimp -zeta only
  exact loaded.foldl fun _ _ ht => ht.modFrame

/-- The control cores start with empty scratchpads. -/
theorem startControl (h : s.memWf) {root entry : Nat} : (s.startControl root entry).memWf := by
  have empty (gid core : Nat) : (controlGang gid core root entry).memWf := fun p hp => by
    rw [List.mem_singleton.1 hp, Memory.nil_wf]
  refine State.memWf.frame <| h.regang (gs := s.gangs.filter (fun g => !g.ctl) ++
    (List.range 16).map fun k => controlGang (s.nextId + k) (160 + 16 * s.mgmt.ctlDie + k) root entry) fun g hg => ?_
  rcases List.mem_append.1 hg with hg | hg
  · exact .inl (List.mem_filter.1 hg).1
  · obtain ⟨k, -, rfl⟩ := List.mem_map.1 hg
    exact .inr (empty _ _)

theorem rejectSlot (h : s.memWf) {code : Nat} : (s.rejectSlot code).memWf := State.memWf.logEntry h.frame

theorem boot (h : s.memWf) {slot : Nat} : (s.boot slot).memWf := by
  unfold State.boot
  have loaded := h.loadImage (slot := slot)
  generalize s.loadImage slot = p at loaded ⊢
  obtain ⟨u, root⟩ := p
  exact State.memWf.startControl (State.memWf.frame loaded)

theorem execImageVerify (h : s.memWf) : OutMemWf (execImageVerify s) := by
  refine .next <| .ite h <| .ite h ?_
  extract_lets slot code u
  have rejected : u.memWf := h.rejectSlot
  exact .ite h.boot rejected.frame

theorem execControlTakeover (h : s.memWf) : OutMemWf (execControlTakeover s) :=
  .next <| .ite h <| .ite (State.memWf.frame (h.regang fun _ hg => .inl (List.mem_filter.1 hg).1)) h

theorem execNewWorldKey (h : s.memWf) {w : Nat} : OutMemWf (execNewWorldKey w s) := .next <| .ite h h

theorem execEnrolment (h : s.memWf) {owner port flowMin : Nat} {keyHashes : List (List Byte)} {module_ : Bool} :
    OutMemWf (execEnrolment owner port flowMin keyHashes module_ s) := by
  refine .next ?_
  split <;> exact h

/-! ### Plain instructions by family -/

theorem arith2 (h : s.memWf) {hd : Hdr} {x : VOps} {t : Ty} {sat : Bool} {f : Int → Int → Int} : OutMemWf (s.arith2 hd x t sat f) := h.plain

theorem logic2 (h : s.memWf) {hd : Hdr} {x : VOps} {t : Ty} {f : Nat → Nat → Nat} : OutMemWf (s.logic2 hd x t f) := h.plain

theorem shiftForm (h : s.memWf) {hd : Hdr} {x : VOps} {t : Ty} {f : Nat → Nat → Nat} : OutMemWf (s.shiftForm hd x t f) := h.plain

theorem countForm (h : s.memWf) {hd : Hdr} {x : VOps} {t : Ty} {f : Nat → Nat} : OutMemWf (s.countForm hd x t f) := h.plain

theorem compareForm (h : s.memWf) {hd : Hdr} {x : VOps} {n : Nat} {dg : BitVec 3} {cm : Cmb} {f : Nat → Nat → Bool} :
    OutMemWf (s.compareForm hd x n dg cm f) := h.plain

theorem floatForm (h : s.memWf) {hd : Hdr} {x : VOps} {k : Nat} {f : TIn → Nat} : OutMemWf (s.floatForm hd x k f) := h.plain

theorem packedFloat (h : s.memWf) {hd : Hdr} {x : VOps} {t : Ty} {k : Nat} {f : Nat → Nat → Nat → Nat} :
    OutMemWf (s.packedFloat hd x t k f) := h.floatForm

theorem packedInt (h : s.memWf) {hd : Hdr} {x : VOps} {t : Ty} {sat : Bool} {f : Int → Int → Int} : OutMemWf (s.packedInt hd x t sat f) :=
  h.floatForm

theorem dotForm (h : s.memWf) {hd : Hdr} {x : VOps} {n : Nat} {t : Ty} {bt : Option Ty} : OutMemWf (s.dotForm hd x n t bt) := h.floatForm

theorem execMovsp (h : s.memWf) {hd : Hdr} {x : VOps} : OutMemWf (execMovsp hd x s) := by
  unfold Machine.execMovsp
  split
  · exact .fault _
  · exact h.plain

theorem execWrsp (h : s.memWf) {hd : Hdr} {x : VOps} : OutMemWf (execWrsp hd x s) := by
  unfold Machine.execWrsp
  split <;> exact h.plain

theorem execJget (h : s.memWf) {hd : Hdr} {x : VOps} {jn : BitVec 4} : OutMemWf (execJget hd x jn s) := by
  unfold Machine.execJget
  split
  · exact .fault _
  · exact h.plain

end State.memWf
end Sys2Proof.Machine
end

section
set_option Elab.async false
namespace Sys2Proof.Machine

namespace State.memWf

variable {s : State}

/-! ### Machine/Dispatch -/

/-- EVERY INSTRUCTION AND EVENT keeps the byte stores. -/
theorem exec (h : s.memWf) (i : Instr) : OutMemWf (exec i s) := by
  cases i <;> dsimp only [Machine.exec]
  case iadd | isub | imul | imulh | imin | imax =>
    dsimp only [execIadd, execIsub, execImul, execImulh, execImin, execImax]
    exact h.arith2
  case imad | imad64 | iabs | lea | iaddc | isubb | lmux | fsh | bfi | brev | bperm | gop | gpack | gunpk | sel | mov | movi | acs2 | cvt |
      fcmp | trapHget | rdf | dstat =>
    dsimp only [execImad, execImad64, execIabs, execLea, execIaddc, execIsubb, execLmux, execFsh, execBfi, execBrev, execBperm, execGop,
      execGpack, execGunpk, execSel, execMov, execMovi, execAcs2, execCvt, execFcmp, execTrapHget, execRdf, execDstat]
    exact h.plain
  case idiv | irem =>
    dsimp only [execIdiv, execIrem]
    exact h.longArith
  case and | or | xor | andn =>
    dsimp only [execAnd, execOr, execXor, execAndn]
    exact h.logic2
  case shl | shr | sar | rotl | bfx =>
    dsimp only [execShl, execShr, execSar, execRotl, execBfx]
    exact h.shiftForm
  case popc | clz =>
    dsimp only [execPopc, execClz]
    exact h.countForm
  case icmp | ucmp =>
    dsimp only [execIcmp, execUcmp]
    exact h.compareForm
  case fadd | fsub | fmul | ffma | fmin | fmax | fdiv | frcp | fsqrt | frsq | fexp2 | flog2 | frnd | fclass | fscale | cvtp | cvtn | cvtw |
      scl =>
    dsimp only [execFadd, execFsub, execFmul, execFfma, execFmin, execFmax, execFdiv, execFrcp, execFsqrt, execFrsq, execFexp2, execFlog2,
      execFrnd, execFclass, execFscale, execCvtp, execCvtn, execCvtw, execScl]
    exact h.floatForm
  case hadd2 | hmul2 | hfma2 | hmin2 | hmax2 =>
    dsimp only [execHadd2, execHmul2, execHfma2, execHmin2, execHmax2]
    exact h.packedFloat
  case vadd2 | vsub2 | vmin2 | vmax2 | vabsd2 | vadd4 | vsub4 | vmin4 | vmax4 =>
    dsimp only [execVadd2, execVsub2, execVmin2, execVmax2, execVabsd2, execVadd4, execVsub4, execVmin4, execVmax4]
    exact h.packedInt
  case dot4 | dot8 =>
    dsimp only [execDot4, execDot8]
    exact h.dotForm
  case hqs | hq | hdq =>
    dsimp only [execHqs, execHq, execHdq]
    exact h.rowForm
  case movsp => exact h.execMovsp
  case wrsp => exact h.execWrsp
  case bra => exact h.execBra
  case brx => exact h.execBrx
  case call | callx =>
    dsimp only [execCall, execCallx]
    exact h.run fun _ => h.callForm
  case ret => exact h.execRet
  case loopd => exact h.execLoopd
  case exit => exact h.execExit
  case nop => exact h.run fun _ => h.advance.closeIssue
  case vote => exact h.execVote
  case wsync => exact h.execWsync
  case shfl | shflw | bcast | vread | rdx =>
    dsimp only [execShfl, execShflw, execBcast, execVread, execRdx, State.exchange]
    exact h.syncForm fun _ _ _ ht => ht
  case join => exact h.run fun _ => h.advance.modWarp.closeIssue
  case jwait => exact h.run fun _ => h.arriveJoin
  case jwaitt => exact h.run fun _ => h.through h.arriveJoin
  case jget => exact h.execJget
  case jset => exact h.execJset
  case ld | ldo =>
    dsimp only [execLd, execLdo]
    exact h.loadForm
  case st | sto =>
    dsimp only [execSt, execSto]
    exact h.storeForm
  case atom | ared | acas =>
    dsimp only [execAtom, execAred, execAcas]
    exact h.atomForm
  case pf => exact h.execPf
  case binit => exact h.execBinit
  case binitRetire => exact h.execBinitRetire
  case barr => exact h.execBarr
  case bexp => exact h.execBexp
  case bstat => exact h.execBstat
  case bind => exact h.execBind
  case unbind => exact h.execUnbind
  case bwait | bwaitt =>
    dsimp only [execBwait, execBwaitt]
    exact h.waitForm
  case fence => exact h.execFence
  case fencex => exact h.execFencex
  case fencerec => exact h.execFencerec
  case bget => exact h.execBget
  case bputGet => exact h.execBputGet
  case bputPut => exact h.execBputPut
  case bfree => exact h.execBfree
  case bbindRq => exact h.execBbindRq
  case bbindOff => exact h.execBbindOff
  case dadv => exact h.execDadv
  case ckill => exact h.execCkill
  case cpy | cpyt | cpyg | cpyn | nget | nred | ncvt =>
    dsimp only [execCpy, execCpyt, execCpyg, execCpyn, execNget, execNred, execNcvt]
    exact h.startForm
  case mxm | mxc | msca | mzero | ldf | stf | mxrd =>
    dsimp only [execMxm, execMxc, execMsca, execMzero, execLdf, execStf, execMxrd]
    exact h.mForm
  case relay => exact h.execRelay
  case trapSw | brkHit => exact h.run fun _ => h.trapIss
  case trapHset => exact h.execTrapHset
  case rte => exact h.execRte
  case brkBp => exact h.execBrkBp
  case brkWp => exact h.execBrkWp
  case setroot => exact h.execSetroot
  case retype => exact h.requestForm fun _ _ _ ht => ht.ask
  case tinv => exact h.execTinv
  case evtack => exact h.execEvtack
  case yld => exact h.run fun _ => h.advance.modWarp.closeIssue
  case launch => exact h.execLaunch
  case opreq => exact h.execOpreq
  case killComplete => exact h.execKillComplete
  case registerFill => exact h.execRegisterFill
  case stallDataArrival => exact h.execStallDataArrival
  case strideSlot => exact h.execStrideSlot
  case jwaittExpiry => exact h.execJwaittExpiry
  case bwaittExpiry => exact h.execBwaittExpiry
  case bytesCounted => exact h.execBytesCounted
  case commandEnd => exact h.execCommandEnd
  case receiveLanding => exact h.execReceiveLanding
  case teamCommandStart => exact h.execTeamCommandStart
  case matrixCommandStart => exact h.execMatrixCommandStart
  case matrixCommandEnd => exact h.execMatrixCommandEnd
  case storeAtHome => exact h.execStoreAtHome
  case hotWordRetire => exact h.execHotWordRetire
  case invalidation => exact h.execInvalidation
  case invalidationAck => exact h.execInvalidationAck
  case storeAck => exact h.execStoreAck
  case negativeAck => exact h.execNegativeAck
  case ackTimeout => exact h.execAckTimeout
  case bridgeFailure => exact h.execBridgeFailure
  case releaseMarker => exact h.execReleaseMarker
  case relayArrival => exact h.execRelayArrival
  case tableStoreAdmission => exact h.execTableStoreAdmission
  case purge => exact h.execPurge
  case tinvComplete => exact h.execTinvComplete
  case setrootComplete => exact h.execSetrootComplete
  case retypeAtHome => exact h.execRetypeAtHome
  case dispatchRound => exact h.execDispatchRound
  case launchCompletion => exact h.execLaunchCompletion
  case wake => exact h.execWake
  case preemptRequest => exact h.execPreemptRequest
  case noticeExpiry => exact h.execNoticeExpiry
  case sealGang => exact h.execSeal
  case resume => exact h.execResume
  case opEvacuateScratchpad => exact h.execOpEvacuateScratchpad
  case opEvacuateSlices => exact h.execOpEvacuateSlices
  case opSwitch => exact h.execOpSwitch
  case rowRetire => exact h.execRowRetire
  case softPpr => exact h.execSoftPpr
  case scrub => exact .next (h.foldl fun _ _ ht => ht.arrayError)
  case patrol => exact h.execPatrol
  case spareTakeover => exact h.execSpareTakeover
  case environmentalAlarm => exact h.execEnvironmentalAlarm
  case alarmResend => exact h.execAlarmResend
  case controlTakeover => exact h.execControlTakeover
  case baseRd | baseWr | baseWrm => exact .next h.baseTake
  case baseRsp => exact h.execBaseRsp
  case baseAck => exact h.execBaseAck
  case grantOwnerChange => exact h.execGrantOwnerChange
  case flitData => exact h.execFlitData
  case flitIdle => exact h.execFlitIdle
  case flitMarker => exact h.execFlitMarker
  case flitNak => exact h.execFlitNak
  case flitVoid => exact h.execFlitVoid
  case linkTraining => exact h.execLinkTraining
  case linkFailure => exact h.execLinkFailure
  case functionLevelReset => exact h.execFunctionLevelReset
  case queueOpen => exact h.execQueueOpen
  case queueClose => exact h.execQueueClose
  case deviceReset | resetGo => exact .next h.restart
  case keysAndFill => exact h.execKeysAndFill
  case imageVerify => exact h.execImageVerify
  case enrolment => exact h.execEnrolment
  case softPprComplete | logHeadAdvance => exact .next h
  case frameMigration | migrationSwitch | clockGate | keyLoad | messageArrival | responseWrite | registerWrite | attestationRequest |
      newWorldKey => exact .next (.ite h.frame h.frame)
  case launchQueueWrite => exact .next (.ite h h.enqueue)

/-! ### Machine/Fetch and Step -/

theorem enter (h : s.memWf) {x : Slot} {ins : Instr} : (s.enter x ins).memWf := State.memWf.modWarp (State.memWf.cacheTlb h.frame)

theorem spendLine (h : s.memWf) {core q : Nat} : (s.spendLine core q).memWf := by
  unfold State.spendLine
  split <;> exact h

theorem after (h : s.memWf) {t : State} (ht : t.memWf) {core q : Nat} {x : Slot} {w : IWord} : (s.after t core q x w).memWf := by
  unfold State.after
  extract_lets on u
  have hu : u.memWf := by
    simp only [u]
    split
    · exact .ite (State.memWf.trapAs h.frame) ht
    · exact ht
  exact hu.unreachTeam.frame

theorem meet (h : s.memWf) {core q : Nat} {x : Slot} {b : Before} : (s.meet core q x b).memWf := by
  unfold State.meet
  extract_lets struck u
  have hu : u.memWf := h.spendLine
  split
  · exact h
  · exact State.memWf.trapAs (.ite hu.modWarp hu)
  · exact hu.modWarp.endStride
  · exact hu

/-- EVERY MOVE keeps the byte stores; one of them writes the flash. -/
theorem move (h : s.memWf) {t : Turn} : (s.move t).memWf := by
  unfold State.move
  cases t
  case perform =>
    dsimp only
    split
    · exact h.performFlight.reap
    · exact h
  case forward => exact h.forward
  case unveil => exact h.modGang
  case relook => exact h.relook
  case romTest => exact .ite h h
  case flash =>
    obtain ⟨hm, hb, hf, hs⟩ := h
    exact ⟨hm, hb, Memory.writeN_wf hf _ _, hs⟩
  all_goals exact h

theorem issueOf (h : s.memWf) {core q : Nat} : OutMemWf (issueOf core q s) := by
  unfold Machine.issueOf
  split
  · exact .next h
  · refine .ite (.next h.endStride) ?_
    split
    · split
      · exact .next h.meet
      · have entered {x : Slot} {i : Instr} := (h.spendLine (core := core) (q := q)).enter (x := x) (ins := i)
        split
        · next t ht => exact .next (entered.after (entered.exec _ t ht))
        · exact .fault _
        · exact .refused _
    · exact .next h.meet

theorem take (h : s.memWf) {t : Turn} : OutMemWf (take t s) := by
  unfold Machine.take
  split
  · exact h.issueOf
  · exact h.exec _
  · exact .next h.move

theorem nextTurn (h : s.memWf) : s.nextTurn.2.memWf := by
  unfold State.nextTurn
  split <;> exact h

theorem step (h : s.memWf) : OutMemWf (step s) := by
  unfold Machine.step
  split
  · next t ht => exact .next (State.memWf.frame (h.nextTurn.take t ht))
  · exact .fault _
  · exact .refused _

end State.memWf

/-- Settles O53: every operation a step may call keeps every byte store in canonical form, so the step does. -/
theorem stepKeepsMemory : Obligations.StepKeepsMemory := fun _ t h e => h.step t e

end Sys2Proof.Machine
end

/-!
PROOFS. Events posted to every resident context (R208, R319, R345): what they leave of the state, and that every warp has its own.
-/
section
set_option Elab.async false
namespace Sys2Proof.Machine

/-! ### One context -/

/-- A gang each of whose warps has an event pending. -/
def Gang.posted (g : Gang) (bit : Nat) : Prop := ∀ w ∈ g.warps, w.evt.getLsbD bit = true

theorem State.post_outside (s : State) (gid bit : Nat) : (s.post gid bit).outside = s.outside := by
  cases hg : s.gang? gid with
  | none => simp only [State.post, hg]
  | some g =>
    obtain ⟨ks, posted⟩ := State.post_of_resident hg bit
    rw [posted]
    rfl

theorem State.post_gangs (s : State) (gid bit : Nat) :
    (s.post gid bit).gangs = s.gangs.map fun g => if g.gid = gid then g.post bit else g := by
  cases hg : s.gang? gid with
  | none =>
    have absent : ∀ g ∈ s.gangs, g.gid ≠ gid := by simpa [State.gang?] using hg
    simp only [State.post, hg]
    exact (List.map_id'' (fun _ => rfl) _).symm.trans (List.map_congr_left fun g hm => (if_neg (absent g hm)).symm)
  | some g => exact (State.post_of_resident hg bit).gangs

@[simp] theorem Core.cause_bad (k : Core) (bit : Nat) : (k.cause bit).bad = k.bad := by
  unfold Core.cause
  repeat' split
  all_goals rfl

theorem State.core_modCore_bad (s : State) (u c : Nat) {f : Core → Core} (hf : ∀ k, (f k).bad = k.bad) :
    ((s.modCore u f).core c).bad = (s.core c).bad := by
  by_cases h : c = u
  · rw [h, State.core_modCore, hf]
  · rw [State.core_modCore_ne _ _ h]

theorem State.post_bad (s : State) (gid bit c : Nat) : ((s.post gid bit).core c).bad = (s.core c).bad := by
  unfold State.post
  split
  · rfl
  · exact foldl_keeps (fun s : State => (s.core c).bad) (fun s (w : Warp) => s.modCore w.core fun k => k.cause 2)
      (fun s w => s.core_modCore_bad w.core c fun k => k.cause_bad 2) _ _

/-! ### Every context -/

theorem State.postResident_outside (s : State) (bit : Nat) : (s.postResident bit).outside = s.outside :=
  foldl_keeps State.outside (fun s (g : Gang) => s.post g.gid bit) (fun s g => s.post_outside g.gid bit) s.gangs s

theorem State.postResident_bad (s : State) (bit c : Nat) : ((s.postResident bit).core c).bad = (s.core c).bad :=
  foldl_keeps (fun s : State => (s.core c).bad) (fun s (g : Gang) => s.post g.gid bit) (fun s g => s.post_bad g.gid bit c) s.gangs s

/-- A gang that has the event, or is yet to get it from a list of contexts, has it once the list has had it. -/
theorem State.foldl_post_posted {bit : Nat} (hb : bit < 4) (l : List Gang) (s : State)
    (due : ∀ g ∈ s.gangs, g.posted bit ∨ ∃ k ∈ l, k.gid = g.gid) :
    ∀ g ∈ (l.foldl (fun s g => s.post g.gid bit) s).gangs, g.posted bit := by
  induction l generalizing s with
  | nil => exact fun g hg => (due g hg).resolve_right (by simp)
  | cons k l ih =>
    refine ih _ fun g hg => ?_
    rw [State.post_gangs] at hg
    obtain ⟨h, hm, rfl⟩ := List.mem_map.1 hg
    by_cases same : h.gid = k.gid
    · rw [if_pos same]
      exact .inl (h.post_posted hb)
    · rw [if_neg same]
      refine (due h hm).imp_right fun ⟨j, hj, named⟩ => ⟨j, (List.mem_cons.1 hj).resolve_left ?_, named⟩
      rintro rfl
      exact same named.symm

theorem State.postResident_posted (s : State) {bit : Nat} (hb : bit < 4) : ∀ g ∈ (s.postResident bit).gangs, g.posted bit :=
  State.foldl_post_posted hb s.gangs s fun g hg => .inr ⟨g, hg, rfl⟩

/-- What does not look at gangs or cores is as it was. -/
theorem State.postResident_field {α : Type} (field : State → α) (blind : ∀ t, field t.outside = field t) (s : State) (bit : Nat) :
    field (s.postResident bit) = field s := by
  rw [← blind, State.postResident_outside, blind]

theorem State.postResident_mem (s : State) (bit : Nat) : (s.postResident bit).mem = s.mem :=
  State.postResident_field State.mem (fun _ => rfl) s bit

end Sys2Proof.Machine
end

/-!
PROOFS. Repair while running (R226, R333, R343 to R346): frame migration, soft repair of rows, retired rows, scrubbing and patrol.
-/
section
set_option Elab.async false
namespace Sys2Proof.Machine

/-- An instruction goes on, leaves memory, and reaches a state of which a property holds. -/
def State.does (s : State) (ins : Instr) (P : State → Prop) : Prop := ∃ t, exec ins s = .next t ∧ t.mem = s.mem ∧ P t

/-! ### Frames whose storage moves (R226, R346) -/

@[simp] theorem State.frame_modFrame (s : State) (fn : Nat) (f : FrameE → FrameE) : (s.modFrame fn f).frame fn = f (s.frame fn) :=
  Map.get_put_self ..

theorem State.frameMigration_marks (s : State) {fn : Nat} (real : fn < 0x1800000) (still : (s.frame fn).mig = false)
    (left : s.spares.get (storageOf fn) 0 < spareFrames (storageOf fn)) :
    s.does (.frameMigration fn) fun t => (t.frame fn).mig = true ∧ (∃ m ∈ t.migs, m.frame = fn) ∧ t.gangs = s.gangs ∧
      t.spares.get (storageOf fn) 0 = s.spares.get (storageOf fn) 0 + 1 ∧ ∀ k, k ≠ fn → t.frame k = s.frame k := by
  have starts : ¬(0x1800000 ≤ fn ∨ (s.frame fn).mig = true ∨ spareFrames (storageOf fn) ≤ s.spares.get (storageOf fn) 0) := by
    simp only [still, Bool.false_eq_true, not_or, not_le, not_false_eq_true, true_and]
    exact ⟨real, left⟩
  refine ⟨_, congrArg Host.Outcome.next (if_neg starts), rfl, ?_, ?_, rfl, Map.get_put_self .., fun k hk => Map.get_put_ne _ _ _ hk⟩
  · exact congrArg FrameE.mig (s.frame_modFrame fn fun e => { e with mig := true })
  · exact ⟨_, List.mem_append_right _ List.mem_cons_self, rfl⟩

theorem State.migrationSwitch_ends (s : State) {fn : Nat} (moving : ∃ m ∈ s.migs, m.frame = fn) :
    s.does (.migrationSwitch fn) fun t => (t.frame fn).mig = false ∧ (∀ m ∈ t.migs, m.frame ≠ fn) ∧ t.gangs = s.gangs ∧
      ∀ k, k ≠ fn → t.frame k = s.frame k := by
  have stands : (s.migs.any fun m => decide (m.frame = fn)) = true := by simpa using moving
  refine ⟨_, congrArg Host.Outcome.next (if_pos stands), rfl, ?_, fun m hm => ?_, rfl, fun k hk => Map.get_put_ne _ _ _ hk⟩
  · exact congrArg FrameE.mig (s.frame_modFrame fn fun e => { e with mig := false })
  · simpa using (List.mem_filter.1 hm).2

/-! ### Soft repair of a row (R346) -/

theorem mem_joined (x : Nat) (l : List Nat) : x ∈ joined x l := by
  unfold joined
  split
  next h => simpa using h
  next => exact List.mem_cons_self

/-- A repair recorded for the next reset, where one is asked for. -/
def State.recorded (s : State) (hard : Bool) (bank : Nat) : State :=
  if hard then { s with hardRepairs := joined bank s.hardRepairs } else s

theorem State.mem_hardRepairs_recorded (s : State) (bank : Nat) {hard : Bool} (h : hard = true) :
    bank ∈ (s.recorded hard bank).hardRepairs := by
  subst h
  exact mem_joined ..

/-- SOFT_PPR of a row of a stack whose bank has no repair burned in. -/
theorem exec_softPpr (s : State) {line : Nat} (hard : Bool) (stack : storageOf (frameOf (128 * line)) < 8)
    (unburned : Config.dramBank line ∉ s.burned) :
    exec (.softPpr line hard) s = .next (
      if Config.dramBank line ∈ s.rowSpares ∨ hard = true ∧ (s.frame (frameOf (128 * line))).mig = true then
        s.recorded hard (Config.dramBank line)
      else { s.recorded hard (Config.dramBank line) with
        quiesced := joined (Config.dramChannel line) s.quiesced, rowSpares := Config.dramBank line :: s.rowSpares }) := by
  have goes : ¬(8 ≤ storageOf (frameOf (128 * line)) ∨ s.burned.contains (Config.dramBank line) = true) := by
    simpa [stack] using unburned
  refine congrArg Host.Outcome.next ((if_neg goes).trans ?_)
  cases hard <;> simp [State.recorded]

theorem storageOf_stack {line : Nat} (h : 128 * line / 65536 < 0x800000) : storageOf (frameOf (128 * line)) < 8 := by
  unfold storageOf frameOf
  rw [if_pos h]
  omega

section SoftPpr

variable (s : State) {line : Nat} (hard : Bool) (low : 128 * line / 65536 < 0x800000)
include low

theorem State.softPpr_quiesces (spare : Config.dramBank line ∉ s.rowSpares) (unburned : Config.dramBank line ∉ s.burned)
    (stays : ¬(hard = true ∧ (s.frame (128 * line / 65536)).mig = true)) :
    s.does (.softPpr line hard) fun t => Config.dramChannel line ∈ t.quiesced ∧ Config.dramBank line ∈ t.rowSpares ∧
      (hard = true → Config.dramBank line ∈ t.hardRepairs) ∧ t.gangs = s.gangs ∧
      t.outside = { s.outside with quiesced := t.quiesced, rowSpares := t.rowSpares, hardRepairs := t.hardRepairs } := by
  have ran := exec_softPpr s hard (storageOf_stack low) unburned
  rw [frameOf] at ran
  rw [if_neg (not_or.2 ⟨spare, stays⟩)] at ran
  refine ⟨_, ran, ?_, mem_joined .., List.mem_cons_self, s.mem_hardRepairs_recorded _, ?_⟩
  all_goals cases hard
  · rfl
  · rfl
  · exact ⟨rfl, rfl⟩
  · exact ⟨rfl, rfl⟩

theorem State.softPpr_records (unburned : Config.dramBank line ∉ s.burned)
    (held : Config.dramBank line ∈ s.rowSpares ∨ hard = true ∧ (s.frame (128 * line / 65536)).mig = true) (asked : hard = true) :
    s.does (.softPpr line hard) fun t => Config.dramBank line ∈ t.hardRepairs ∧ { t with hardRepairs := s.hardRepairs } = s := by
  have ran := exec_softPpr s hard (storageOf_stack low) unburned
  rw [frameOf] at ran
  rw [if_pos held] at ran
  subst asked
  exact ⟨_, ran, rfl, s.mem_hardRepairs_recorded _ rfl, rfl⟩

theorem State.softPpr_stays (done : Config.dramBank line ∈ s.burned ∨ Config.dramBank line ∈ s.rowSpares ∧ hard = false) :
    exec (.softPpr line hard) s = .next s := by
  by_cases burned : Config.dramBank line ∈ s.burned
  · exact congrArg Host.Outcome.next (if_pos (.inr (by simpa using burned)))
  · obtain ⟨used, rfl⟩ := done.resolve_left burned
    rw [exec_softPpr s false (storageOf_stack low) burned, if_pos (.inl used)]
    rfl

end SoftPpr

theorem State.softPprComplete_frees (s : State) (line : Nat) :
    s.does (.softPprComplete line) fun t => (∀ c, c ∈ t.quiesced ↔ c ∈ s.quiesced ∧ c ≠ Config.dramChannel line) ∧ t.gangs = s.gangs :=
  ⟨_, rfl, rfl, fun c => by simp, rfl⟩

/-! ### Retired rows (R205, R345) -/

theorem Core.moveRows_bad (k : Core) (p limit : Nat) : (k.moveRows p limit).bad = k.bad := by
  refine foldl_keeps Core.bad _ (fun k l => ?_) _ _
  split <;> rfl

theorem Core.cutRows_bad (k : Core) (limit : Nat) : (k.cutRows limit).bad = k.bad := rfl

/-- A core one of whose rows is good at no point. -/
def Core.lacking (k : Core) (row : Nat) : Core := { k with bad := k.bad.map fun b => if b.contains row then b else row :: b }

theorem Core.lacking_bad {k : Core} {row : Nat} (fresh : ∀ b ∈ k.bad, row ∉ b) : (k.lacking row).bad = k.bad.map (row :: ·) :=
  List.map_congr_left fun b hb => if_neg (by simpa using fresh b hb)

/-- The rows that a core keeps at the current point once a row is retired (R205). -/
def State.roomWithout (s : State) (core row : Nat) : Nat := min 2048 (2176 - (((s.core core).lacking row).badAt s.opcur).length)

theorem State.roomWithout_eq (s : State) {core row : Nat} (points : (s.core core).bad.length = 4)
    (fresh : ∀ b ∈ (s.core core).bad, row ∉ b) (cur : s.opcur < 4) :
    s.roomWithout core row = min 2048 (2176 - ((nth (s.core core).bad s.opcur []).length + 1)) := by
  have inside : s.opcur < (s.core core).bad.length := points ▸ cur
  simp only [State.roomWithout, Core.badAt, Core.lacking_bad fresh, nth, List.getElem?_map, List.getElem?_eq_getElem inside,
    Option.map_some, Option.getD_some, List.length_cons]

/-- A core with a row retired: the logical rows in use are moved off it, and those that no longer fit are gone. -/
def State.coreWithout (s : State) (core row : Nat) : Core :=
  let cap := s.roomWithout core row
  let moved := ((s.core core).lacking row).moveRows s.opcur cap
  if cap < s.capAt core s.opcur then moved.cutRows cap else moved

theorem State.coreWithout_bad (s : State) (core row : Nat) : (s.coreWithout core row).bad = ((s.core core).lacking row).bad := by
  unfold State.coreWithout
  dsimp only
  split
  · rw [Core.cutRows_bad, Core.moveRows_bad]
  · rw [Core.moveRows_bad]

/-- A row retired. -/
def State.retired (s : State) (core row : Nat) : State :=
  { s.modCore core fun _ => s.coreWithout core row with retiring := s.retiring.filter fun r => r ≠ (core, row) }

theorem State.core_retired (s : State) (core row : Nat) : (s.retired core row).core core = s.coreWithout core row :=
  s.core_modCore core fun _ => s.coreWithout core row

theorem State.capAt_retired (s : State) (core row : Nat) : (s.retired core row).capAt core s.opcur = s.roomWithout core row := by
  rw [State.capAt, State.core_retired, State.coreWithout_bad, State.roomWithout, Core.badAt]

/-- ROW_RETIRE of a row of a core that is good at some point. -/
theorem exec_rowRetire (s : State) {core row : Nat} (real : core < 160) (inside : row < 2176) (points : (s.core core).bad.length = 4)
    (fresh : ∀ b ∈ (s.core core).bad, row ∉ b) :
    exec (.rowRetire false core row) s = .next (
      if s.roomWithout core row < s.capAt core s.opcur ∧ s.roomWithout core row < s.highWater core then
        { s with retiring := if s.retiring.contains (core, row) then s.retiring else (core, row) :: s.retiring }
      else if s.roomWithout core row < s.capAt core s.opcur then (s.retired core row).postResident 1
      else s.retired core row) := by
  have good : ((s.core core).bad.all fun b => b.contains row) = false := by
    obtain ⟨b, hb⟩ := List.exists_mem_of_length_pos (points ▸ (by decide : 0 < 4))
    rw [List.all_eq_false]
    exact ⟨b, hb, by simpa using fresh b hb⟩
  have goes : ¬(160 ≤ core ∨ 2176 ≤ row ∨ ((s.core core).bad.all fun b => b.contains row) = true) := by
    simp only [good, Bool.false_eq_true, or_false, not_or, not_le]
    exact ⟨real, inside⟩
  refine congrArg Host.Outcome.next ((if_neg goes).trans ?_)
  change (if (decide (s.roomWithout core row < s.capAt core s.opcur) && decide (s.roomWithout core row < s.highWater core)) = true then _
    else _) = _
  simp only [Bool.and_eq_true, decide_eq_true_eq]
  rfl

theorem State.rowRetire_retires (s : State) {core row : Nat} (real : core < 160) (inside : row < 2176)
    (points : (s.core core).bad.length = 4) (fresh : ∀ b ∈ (s.core core).bad, row ∉ b)
    (fits : s.highWater core ≤ s.roomWithout core row) :
    s.does (.rowRetire false core row) fun t => (t.core core).bad = (s.core core).bad.map (row :: ·) ∧ (core, row) ∉ t.retiring ∧
      (t.capAt core s.opcur < s.capAt core s.opcur → ∀ g ∈ t.gangs, ∀ w ∈ g.warps, w.evt.getLsbD 1 = true) := by
  have ran := exec_rowRetire s real inside points fresh
  rw [if_neg fun h => absurd h.2 (not_lt.2 fits)] at ran
  have bads : ((s.retired core row).core core).bad = (s.core core).bad.map (row :: ·) := by
    rw [State.core_retired, State.coreWithout_bad, Core.lacking_bad fresh]
  have done : (core, row) ∉ (s.retired core row).retiring := fun h => by simpa using (List.mem_filter.1 h).2
  by_cases fell : s.roomWithout core row < s.capAt core s.opcur
  · rw [if_pos fell] at ran
    refine ⟨_, ran, State.postResident_mem .., (State.postResident_bad ..).trans bads, ?_, fun _ => State.postResident_posted _ (by decide)⟩
    rwa [State.postResident_field State.retiring fun _ => rfl]
  · rw [if_neg fell] at ran
    exact ⟨_, ran, rfl, bads, done, fun less => absurd (s.capAt_retired core row ▸ less) fell⟩

theorem State.rowRetire_waits (s : State) {core row : Nat} (real : core < 160) (inside : row < 2176)
    (points : (s.core core).bad.length = 4) (fresh : ∀ b ∈ (s.core core).bad, row ∉ b)
    (fell : s.roomWithout core row < s.capAt core s.opcur) (full : s.roomWithout core row < s.highWater core) :
    s.does (.rowRetire false core row) fun t => (core, row) ∈ t.retiring ∧ t.cores = s.cores ∧ t.gangs = s.gangs := by
  have ran := exec_rowRetire s real inside points fresh
  rw [if_pos ⟨fell, full⟩] at ran
  refine ⟨_, ran, rfl, ?_, rfl, rfl⟩
  dsimp only
  split
  next stands => simpa using stands
  next => exact List.mem_cons_self

theorem State.rowRetire_slice (s : State) {u row : Nat} (fresh : row ∉ s.slicesBad.get u []) :
    s.does (.rowRetire true u row) fun t => t.slicesBad.get u [] = row :: s.slicesBad.get u [] ∧ t.gangs = s.gangs :=
  ⟨_, rfl, rfl, (Map.get_put_self ..).trans (if_neg (by simpa using fresh)), rfl⟩

/-! ### Scrubbing and patrol (R333, R343, R344) -/

/-- The words of a line are those that the line's number begins. -/
theorem mem_wordsIn_line {v line : Nat} (h : v / 32 = line) : v ∈ wordsIn (128 * line) 128 := by
  refine List.mem_eraseDups.2 (List.mem_map.2 ⟨4 * (v % 32), List.mem_range.2 (by omega), ?_⟩)
  omega

/-- SCRUB of one corrected error: an entry of class 0, and no more (R344). -/
theorem exec_scrub_corrected (s : State) (core : Nat) (a : ArrayWord) :
    exec (.scrub core [(a, false)]) s = .next (s.logEntry (arraySource core a).2.2
      { src := (arraySource core a).1, srcId := (arraySource core a).2.1, code := fEcc, cls := 0 }) := rfl

/-- SCRUB of one error that cannot be corrected: its granule is poisoned, and an entry of class 2 (R343, R344). -/
theorem exec_scrub_poisoned (s : State) (core : Nat) (a : ArrayWord) :
    exec (.scrub core [(a, true)]) s = .next ((s.poison a).logEntry (arraySource core a).2.2
      { src := (arraySource core a).1, srcId := (arraySource core a).2.1, code := fEcc, cls := 2 }) := rfl

section Scrub

variable (s : State) {core : Nat}

theorem State.scrub_corrects (room : s.logRoom (dieOfCore core)) (gid gc w : Nat) :
    s.does (.scrub core [(.pad gid gc w, false)]) fun t => t.badPad = s.badPad ∧ t.gangs = s.gangs ∧
      s.logged t (dieOfCore core) fun e => e.cls = 0 ∧ e.code = 0x5002 ∧ e.src = 1 ∧ e.srcId = core :=
  ⟨_, exec_scrub_corrected .., s.logEntry_mem .., s.logEntry_badPad .., s.logEntry_gangs ..,
    State.logged_logEntry room fun _ => ⟨rfl, rfl, rfl, rfl⟩⟩

theorem State.scrub_poisons_pad (room : s.logRoom (dieOfCore core)) (gid gc w : Nat) :
    s.does (.scrub core [(.pad gid gc w, true)]) fun t => (gid, gc, w) ∈ t.badPad ∧
      s.logged t (dieOfCore core) fun e => e.cls = 2 ∧ e.code = 0x5002 := by
  refine ⟨_, exec_scrub_poisoned .., State.logEntry_mem .., ?_,
    State.logged_logEntry (s := s.poison (.pad gid gc w)) room fun _ => ⟨rfl, rfl⟩⟩
  rw [State.logEntry_badPad]
  exact List.mem_eraseDups.2 (List.mem_append_right _ List.mem_cons_self)

theorem State.scrub_poisons_slice {w : Nat} (room : s.logRoom (homeDie (4 * w))) :
    s.does (.scrub core [(.slice w, true)]) fun t => (∀ v, v / 32 = w / 32 → v ∈ t.badMem) ∧
      s.logged t (homeDie (4 * w)) fun e => e.cls = 2 ∧ e.code = 0x5002 ∧ e.src = 2 := by
  refine ⟨_, exec_scrub_poisoned .., State.logEntry_mem .., fun v hv => ?_,
    State.logged_logEntry (s := s.poison (.slice w)) room fun _ => ⟨rfl, rfl, rfl⟩⟩
  have line : lineOf (4 * w) = w / 32 := by
    unfold lineOf
    omega
  rw [State.logEntry_badMem]
  refine List.mem_eraseDups.2 (List.mem_append_right _ ?_)
  rw [line, mul_comm]
  exact mem_wordsIn_line hv

end Scrub

/-- A line of memory poisoned in its home slice (R343). -/
def State.poisonLine (s : State) (line : Nat) : State := { s with badMem := (s.badMem ++ wordsIn (128 * line) 128).eraseDups }

theorem State.mem_badMem_poisonLine (s : State) {line v : Nat} (h : v / 32 = line) : v ∈ (s.poisonLine line).badMem :=
  List.mem_eraseDups.2 (List.mem_append_right _ (mem_wordsIn_line h))

/-- What PATROL writes into the log of a line's home die (R344). -/
def State.patrolLogged (s : State) (line code cls addr : Nat) : State :=
  s.logEntry (homeDie (128 * line)) { src := 5, srcId := storageOf (frameOf (128 * line)), code := code, cls := cls, addr := addr }

theorem State.logged_patrolLogged {s : State} {line : Nat} (room : s.logRoom (homeDie (128 * line))) (code cls addr : Nat) :
    s.logged (s.patrolLogged line code cls addr) (homeDie (128 * line)) fun e => e.cls = cls ∧ e.code = code ∧ e.addr = addr ∧ e.src = 5 :=
  State.logged_logEntry room fun _ => ⟨rfl, rfl, rfl, rfl⟩

section Patrol

variable (s : State) {line k : Nat}

theorem exec_patrol_uncorrected (hk : k < 4) :
    exec (.patrol line [(k, true)] false) s = .next ((s.patrolLogged line 0x5002 2 (128 * line + 32 * k)).poisonLine line) := by
  have same : k % 4 = k := Nat.mod_eq_of_lt hk
  conv_rhs => rw [← same]
  rfl

theorem exec_patrol_corrected (hk : k < 4) :
    exec (.patrol line [(k, false)] false) s = .next (s.patrolLogged line 0x5002 0 (128 * line + 32 * k)) := by
  have same : k % 4 = k := Nat.mod_eq_of_lt hk
  conv_rhs => rw [← same]
  rfl

theorem exec_patrol_mismatch : exec (.patrol line [] true) s = .next ((s.patrolLogged line 0 2 (128 * line)).poisonLine line) := rfl

variable (room : s.logRoom (homeDie (128 * line)))
include room

/-- A finding of PATROL that leaves its line poisoned. -/
theorem State.patrol_poisons {found : List (Nat × Bool)} {tag : Bool} {code cls addr : Nat}
    (ran : exec (.patrol line found tag) s = .next ((s.patrolLogged line code cls addr).poisonLine line)) :
    s.does (.patrol line found tag) fun t => (∀ v, v / 32 = line → v ∈ t.badMem) ∧
      s.logged t (homeDie (128 * line)) fun e => e.cls = cls ∧ e.code = code ∧ e.addr = addr ∧ e.src = 5 :=
  ⟨_, ran, State.logEntry_mem .., fun _ hv => State.mem_badMem_poisonLine _ hv, (State.logged_patrolLogged room ..).of_logs rfl⟩

/-- A finding of PATROL that it corrects. -/
theorem State.patrol_corrects {found : List (Nat × Bool)} {tag : Bool} {code cls addr : Nat}
    (ran : exec (.patrol line found tag) s = .next (s.patrolLogged line code cls addr)) :
    s.does (.patrol line found tag) fun t => t.badMem = s.badMem ∧
      s.logged t (homeDie (128 * line)) fun e => e.cls = cls ∧ e.code = code ∧ e.addr = addr ∧ e.src = 5 :=
  ⟨_, ran, State.logEntry_mem .., State.logEntry_badMem .., State.logged_patrolLogged room ..⟩

end Patrol

/-! ### The repairs -/

/-- Settles O47: each repair by the rule of its instruction. -/
theorem repairsRun : Obligations.RepairsRun := by
  unfold Obligations.RepairsRun
  intro s
  refine ⟨fun fn => s.frameMigration_marks, fun fn => s.migrationSwitch_ends, fun line hard low => ⟨s.softPpr_quiesces hard low,
    s.softPpr_records hard low, s.softPpr_stays hard low, s.softPprComplete_frees line⟩, ?_, ?_, fun u row => s.rowRetire_slice,
    fun core w _ own home => ⟨fun gid gc => s.scrub_corrects own gid gc w, fun gid gc => s.scrub_poisons_pad own gid gc w,
      s.scrub_poisons_slice home⟩,
    fun line k hk room => ⟨s.patrol_poisons room (exec_patrol_uncorrected s hk), s.patrol_corrects room (exec_patrol_corrected s hk),
      s.patrol_poisons room (exec_patrol_mismatch s)⟩⟩
  · intro core row real inside points fresh cur fits
    exact s.rowRetire_retires real inside points fresh (s.roomWithout_eq points fresh cur ▸ fits)
  · intro core row real inside points fresh cur
    dsimp only
    rw [← s.roomWithout_eq points fresh cur]
    exact s.rowRetire_waits real inside points fresh

end Sys2Proof.Machine
end

/-!
PROOFS. Several contexts killed at once (R310, R348): which gangs are left, and that what is left of a gang is as it was.
-/
section
set_option Elab.async false
namespace Sys2Proof.Machine

/-! ### Threads that became ready, in several steps -/

theorem Gang.woken_refl (g : Gang) : g.woken g :=
  ⟨rfl, rfl, fun _ _ _ hv hv' => by
    cases hv.symm.trans hv'
    exact ⟨rfl, rfl, fun _ _ _ hu hu' => .inl (Option.some.inj (hu'.symm.trans hu))⟩⟩

theorem Gang.woken.trans {g h k : Gang} (first : g.woken h) (second : h.woken k) : g.woken k := by
  obtain ⟨out, count, each⟩ := first
  obtain ⟨out', count', each'⟩ := second
  refine ⟨out'.trans out, count'.trans count, fun j v v'' hv hv'' => ?_⟩
  have inside : j < h.warps.length := count ▸ (List.getElem?_eq_some_iff.1 hv).1
  have hv' := List.getElem?_eq_getElem inside
  generalize h.warps[j] = v' at hv'
  obtain ⟨same, threads, ready⟩ := each j v v' hv hv'
  obtain ⟨same', threads', ready'⟩ := each' j v' v'' hv' hv''
  refine ⟨?_, threads'.trans threads, fun n u u'' hu hu'' => ?_⟩
  · rw [← same, ← same']
  · have inner : n < v'.threads.length := threads ▸ (List.getElem?_eq_some_iff.1 hu).1
    have hu' := List.getElem?_eq_getElem inner
    generalize v'.threads[n] = u' at hu'
    rcases ready' n u' u'' hu' hu'' with rfl | ⟨c, waits, rfl⟩
    · exact ready n u _ hu hu'
    · rcases ready n u u' hu hu' with rfl | ⟨d, waited, rfl⟩
      · exact .inr ⟨c, waits, rfl⟩
      · exact absurd waits nofun

/-! ### One context killed -/

/-- The gangs of a state are gangs of an earlier one, on the cores that they had. -/
def State.remains (s t : State) : Prop := ∀ g' ∈ t.gangs, ∃ g ∈ s.gangs, g'.gid = g.gid ∧ g'.cores = g.cores

theorem State.remains.rfl {s : State} : s.remains s := fun g hg => ⟨g, hg, Eq.refl _, Eq.refl _⟩

theorem State.remains.trans {s t u : State} (first : s.remains t) (second : t.remains u) : s.remains u := by
  intro g'' hg''
  obtain ⟨g', hg', gid', cores'⟩ := second g'' hg''
  obtain ⟨g, hg, gid, cores⟩ := first g' hg'
  exact ⟨g, hg, gid'.trans gid, cores'.trans cores⟩

section Kill

variable (s : State) (gid : Nat) (f : Flt) (pc core : Nat)

theorem State.kill_of_none (h : s.gang? gid = none) : s.kill gid f pc core = s := by simp only [State.kill, h]

/-- What is left once a resident context is stopped and logged, and before its queues are freed. -/
def State.stopped (g : Gang) : State :=
  (s.logEntry (dieOfCore core)
    { src := 1, srcId := core, code := f.code, world := g.world, cls := faultClass f.code, addr := f.addr, pc := pc }).stopGang g

theorem State.kill_of_some {g : Gang} (h : s.gang? gid = some g) : s.kill gid f pc core = (s.stopped f pc core g).release gid := by
  simp only [State.kill, h, State.stopped]

theorem State.stopped_gangs (g : Gang) : (s.stopped f pc core g).gangs = s.gangs.filter fun h => h.gid ≠ g.gid :=
  congrArg (List.filter fun h : Gang => h.gid ≠ g.gid) (s.logEntry_gangs ..)

theorem State.gid_of_gang? {s : State} {gid : Nat} {g : Gang} (h : s.gang? gid = some g) : g.gid = gid := by
  simpa using List.find?_some h

theorem State.kill_mem : (s.kill gid f pc core).mem = s.mem := by
  cases h : s.gang? gid with
  | none => rw [s.kill_of_none _ _ _ _ h]
  | some g =>
    rw [s.kill_of_some _ _ _ _ h]
    exact s.logEntry_mem ..

theorem State.kill_clusters : (s.kill gid f pc core).clusters = s.clusters := by
  cases h : s.gang? gid with
  | none => rw [s.kill_of_none _ _ _ _ h]
  | some g =>
    rw [s.kill_of_some _ _ _ _ h]
    exact s.logEntry_clusters ..

theorem State.kill_remains : s.remains (s.kill gid f pc core) := by
  cases h : s.gang? gid with
  | none =>
    rw [s.kill_of_none _ _ _ _ h]
    exact .rfl
  | some g =>
    rw [s.kill_of_some _ _ _ _ h]
    intro k' hk'
    obtain ⟨k, hk, rfl⟩ := List.mem_map.1 (show k' ∈ (s.stopped f pc core g).gangs.map _ from hk')
    rw [State.stopped_gangs] at hk
    exact ⟨k, (List.mem_filter.1 hk).1, rfl, rfl⟩

theorem State.kill_gone : (s.kill gid f pc core).gang? gid = none := by
  cases h : s.gang? gid with
  | none => rw [s.kill_of_none _ _ _ _ h, h]
  | some g =>
    rw [s.kill_of_some _ _ _ _ h]
    have left := s.stopped_gangs f pc core g
    rw [State.gid_of_gang? h] at left
    exact (State.released_gangs left).1

theorem State.kill_woken {h : Nat} (other : h ≠ gid) {x : Gang} (hx : s.gang? h = some x) :
    ∃ x', (s.kill gid f pc core).gang? h = some x' ∧ x.woken x' := by
  cases hg : s.gang? gid with
  | none =>
    rw [s.kill_of_none _ _ _ _ hg]
    exact ⟨x, hx, x.woken_refl⟩
  | some g =>
    rw [s.kill_of_some _ _ _ _ hg]
    have left := s.stopped_gangs f pc core g
    rw [State.gid_of_gang? hg] at left
    exact (State.released_gangs left).2 h x other hx

end Kill

/-! ### Every gang of a list killed (R348) -/

/-- The gangs of a list killed for a failed part of their cores. -/
def State.killEach (s : State) (l : List Gang) : State := l.foldl (fun s g => s.kill g.gid { code := 0 } 0 (nth g.cores 0 0)) s

theorem State.killEach_cons (s : State) (k : Gang) (l : List Gang) :
    s.killEach (k :: l) = (s.kill k.gid { code := 0 } 0 (nth k.cores 0 0)).killEach l := rfl

theorem State.killEach_mem (l : List Gang) (s : State) : (s.killEach l).mem = s.mem :=
  foldl_keeps State.mem (fun s (g : Gang) => s.kill g.gid { code := 0 } 0 (nth g.cores 0 0)) (fun s _ => s.kill_mem ..) l s

theorem State.killEach_clusters (l : List Gang) (s : State) : (s.killEach l).clusters = s.clusters :=
  foldl_keeps State.clusters (fun s (g : Gang) => s.kill g.gid { code := 0 } 0 (nth g.cores 0 0)) (fun s _ => s.kill_clusters ..) l s

theorem State.killEach_remains (l : List Gang) (s : State) : s.remains (s.killEach l) := by
  induction l generalizing s with
  | nil => exact .rfl
  | cons k l ih => exact (s.kill_remains _ _ _ _).trans (ih _)

theorem State.ne_of_gone {s t : State} {gid : Nat} (gone : s.gang? gid = none) (left : s.remains t) : ∀ g ∈ t.gangs, g.gid ≠ gid := by
  intro g hg same
  obtain ⟨h, hh, named, -⟩ := left g hg
  have absent : ∀ x ∈ s.gangs, x.gid ≠ gid := by simpa [State.gang?] using gone
  exact absent h hh (named.symm.trans same)

theorem State.killEach_gone (l : List Gang) (s : State) : ∀ g ∈ (s.killEach l).gangs, ∀ k ∈ l, g.gid ≠ k.gid := by
  induction l generalizing s with
  | nil => exact fun _ _ _ hk => absurd hk List.not_mem_nil
  | cons k l ih =>
    intro g hg j hj
    rw [State.killEach_cons] at hg
    rcases List.mem_cons.1 hj with rfl | later
    · exact State.ne_of_gone (s.kill_gone ..) (State.killEach_remains l _) g hg
    · exact ih _ g hg j later

theorem State.killEach_woken (l : List Gang) (s : State) {gid : Nat} (spared : ∀ k ∈ l, k.gid ≠ gid) {x : Gang}
    (hx : s.gang? gid = some x) : ∃ x', (s.killEach l).gang? gid = some x' ∧ x.woken x' := by
  induction l generalizing s x with
  | nil => exact ⟨x, hx, x.woken_refl⟩
  | cons k l ih =>
    obtain ⟨y, hy, first⟩ := s.kill_woken k.gid { code := 0 } 0 (nth k.cores 0 0) (spared k List.mem_cons_self).symm hx
    obtain ⟨z, hz, second⟩ := ih _ (fun j hj => spared j (List.mem_cons_of_mem _ hj)) hy
    exact ⟨z, hz, first.trans second⟩

end Sys2Proof.Machine
end

/-!
PROOFS. Steps of the operating point (R205 to R209), spare takeover (R12, R347, R348), and bridge failures (R8, R360, R361).
-/
section
set_option Elab.async false
namespace Sys2Proof.Machine

/-! ### The operating point (R208) -/

/-- The stage that OP_EVACUATE_SCRATCHPAD waits for: a step down at stage 1, with every core's rows fitting the target. -/
theorem exec_opEvacuateScratchpad {s : State} {st : OpStep} (step : s.opstep = some st) (first : st.stage = 1)
    (down : s.opcur < st.target) :
    exec .opEvacuateScratchpad s = .next (
      if ∀ c < 160, s.highWater c ≤ s.capAt c st.target then
        { s.mapCores (fun _ k => k.moveRows st.target (min 2048 (2176 - (k.badAt st.target).length))) with
          opstep := some { st with stage := 2 } }
      else s) := by
  have goes : ¬(st.stage ≠ 1 ∨ st.target ≤ s.opcur) := by simp [first, down]
  have all : ((List.range 160).all fun c => decide (s.highWater c ≤ s.capAt c st.target)) = true ↔
      ∀ c < 160, s.highWater c ≤ s.capAt c st.target := by
    simp only [List.all_eq_true, List.mem_range, decide_eq_true_eq]
  simp only [exec, execOpEvacuateScratchpad, step, if_neg goes, all]

/-- The point switched, with the rows of every core changed and OPCHG posted. -/
def State.switched (s : State) (target : Nat) (rows : Nat → Core → Core) : State :=
  ({ s.mapCores rows with opcur := target, opstep := none }).postResident 1

/-- A switch of the point, however the rows change. -/
theorem State.switched_reaches {s : State} {target : Nat} {rows : Nat → Core → Core}
    (ran : exec .opSwitch s = .next (s.switched target rows)) :
    ∃ t, exec .opSwitch s = .next t ∧ t.mem = s.mem ∧ t.opstep = none ∧ t.opcur = target ∧ t.sealed = s.sealed ∧
      ∀ g ∈ t.gangs, ∀ w ∈ g.warps, w.evt.getLsbD 1 = true := by
  have kept {α : Type} (field : State → α) (blind : ∀ t, field t.outside = field t) :
      field (s.switched target rows) = field { s.mapCores rows with opcur := target, opstep := none } :=
    State.postResident_field field blind _ 1
  exact ⟨_, ran, kept State.mem fun _ => rfl, kept State.opstep fun _ => rfl, kept State.opcur fun _ => rfl,
    kept State.sealed fun _ => rfl, State.postResident_posted _ (by decide)⟩

section OpStep

variable {s : State} {st : OpStep} (step : s.opstep = some st)
include step

theorem State.opEvacuateScratchpad_moves (first : st.stage = 1) (down : s.opcur < st.target)
    (fits : ∀ c < 160, s.highWater c ≤ s.capAt c st.target) :
    ∃ t, exec .opEvacuateScratchpad s = .next t ∧ t.mem = s.mem ∧ t.opstep = some { st with stage := 2 } ∧ t.opcur = s.opcur ∧
      t.gangs = s.gangs := by
  have ran := exec_opEvacuateScratchpad step first down
  rw [if_pos fits] at ran
  exact ⟨_, ran, rfl, rfl, rfl, rfl⟩

theorem State.opEvacuateScratchpad_waits (first : st.stage = 1) (down : s.opcur < st.target)
    (full : ∃ c < 160, s.capAt c st.target < s.highWater c) : exec .opEvacuateScratchpad s = .next s := by
  obtain ⟨c, real, less⟩ := full
  rw [exec_opEvacuateScratchpad step first down, if_neg fun fits => absurd (fits c real) (not_le.2 less)]

theorem State.opEvacuateSlices_goes (second : st.stage = 2) :
    ∃ t, exec .opEvacuateSlices s = .next t ∧ t.mem = s.mem ∧ t.opstep = some { st with stage := 3 } ∧ t.opcur = s.opcur ∧
      t.gangs = s.gangs := by
  refine ⟨{ s with opstep := some { st with stage := 3 } }, ?_, rfl, rfl, rfl, rfl⟩
  simp only [exec, execOpEvacuateSlices, step, second, if_true]

theorem State.opSwitch_down (third : st.stage = 3) (down : s.opcur < st.target) :
    ∃ t, exec .opSwitch s = .next t ∧ t.mem = s.mem ∧ t.opstep = none ∧ t.opcur = st.target ∧ t.sealed = s.sealed ∧
      ∀ g ∈ t.gangs, ∀ w ∈ g.warps, w.evt.getLsbD 1 = true := by
  refine State.switched_reaches (rows := fun _ k => k.cutRows (min 2048 (2176 - (k.badAt st.target).length))) ?_
  simp only [exec, execOpSwitch, step, if_pos (And.intro down third), State.switched]

theorem State.opSwitch_up (up : st.target < s.opcur) :
    ∃ t, exec .opSwitch s = .next t ∧ t.mem = s.mem ∧ t.opstep = none ∧ t.opcur = st.target ∧ t.sealed = s.sealed ∧
      ∀ g ∈ t.gangs, ∀ w ∈ g.warps, w.evt.getLsbD 1 = true := by
  refine State.switched_reaches (rows := fun _ k => k.addRows st.target (min 2048 (2176 - (k.badAt s.opcur).length))
    (min 2048 (2176 - (k.badAt st.target).length) - min 2048 (2176 - (k.badAt s.opcur).length))) ?_
  simp only [exec, execOpSwitch, step, if_neg fun h : s.opcur < st.target ∧ st.stage = 3 => lt_asymm up h.1, if_pos up, State.switched]

theorem State.opSwitch_waits (early : st.stage ≠ 3) (down : s.opcur < st.target) : exec .opSwitch s = .next s := by
  simp only [exec, execOpSwitch, step, if_neg fun h : s.opcur < st.target ∧ st.stage = 3 => early h.2, if_neg (lt_asymm down)]

end OpStep

/-! ### The part that failed (R347) -/

/-- Whether a part, a cluster unit or a core, is a cluster's. -/
def Cluster.holds (cl : Cluster) (isUnit : Bool) (part : Nat) : Prop := if isUnit then cl.unit = part else cl.cores.contains part = true

/-- A visible cluster is the only one that a part is of. -/
structure State.houses (s : State) (k : Nat) (cl : Cluster) (isUnit : Bool) (part : Nat) : Prop where
  stands : s.clusters[k]? = some cl
  holds : cl.holds isUnit part
  only : ∀ j cl', s.clusters[j]? = some cl' → cl'.holds isUnit part → j = k

theorem State.houses_core {s : State} {k part : Nat} {cl : Cluster} (stands : s.clusters[k]? = some cl) (mem : part ∈ cl.cores)
    (only : ∀ j cl', s.clusters[j]? = some cl' → part ∈ cl'.cores → j = k) : s.houses k cl false part where
  stands := stands
  holds := List.contains_iff_mem.2 mem
  only j cl' hj hold := only j cl' hj (List.contains_iff_mem.1 hold)

theorem State.houses_unit {s : State} {k : Nat} {cl : Cluster} (stands : s.clusters[k]? = some cl)
    (only : ∀ j cl', s.clusters[j]? = some cl' → cl'.unit = cl.unit → j = k) : s.houses k cl true cl.unit where
  stands := stands
  holds := rfl
  only j cl' hj hold := only j cl' hj hold

/-- The last visible cluster. -/
def State.lastCluster (s : State) (cl : Cluster) : Cluster := (s.clusters[s.clusters.length - 1]?).getD cl

/-- What SPARE_TAKEOVER makes of a state for a part of the cluster `cl` at `k` (R348). -/
def State.takeover (s : State) (k : Nat) (cl : Cluster) (isUnit : Bool) (part : Nat) (dead : Bool) : State :=
  if dead then s.killOn cl isUnit part
  else if s.resides cl then s
  else (s.takeSpare k cl isUnit part).getD (if s.resides (s.lastCluster cl) then s else s.shrink k cl isUnit part)

section Takeover

variable {s : State} {k part : Nat} {cl : Cluster} {isUnit : Bool} (house : s.houses k cl isUnit part)
include house

theorem exec_spareTakeover (dead : Bool) : exec (.spareTakeover isUnit part dead) s = .next (s.takeover k cl isUnit part dead) := by
  have inside : k < s.clusters.length := (List.getElem?_eq_some_iff.1 house.stands).1
  refine congrArg Host.Outcome.next ?_
  dsimp only
  split
  next missed =>
    have miss := List.find?_eq_none.1 missed k (List.mem_range.2 inside)
    rw [house.stands] at miss
    exact absurd (by simpa [Cluster.holds] using house.holds) miss
  next j found =>
    have hit := List.find?_some found
    have same : j = k := by
      cases hj : s.clusters[j]? with
      | none => simp [hj] at hit
      | some c =>
        rw [hj] at hit
        exact house.only j c hj (by simpa [Cluster.holds] using hit)
    rw [same, house.stands, Option.getD_some]
    unfold State.takeover State.lastCluster
    cases s.takeSpare k cl isUnit part <;> rfl

theorem exec_spareTakeover_dead : exec (.spareTakeover isUnit part true) s = .next (s.killOn cl isUnit part) := exec_spareTakeover house true

variable (empty : s.resides cl = false)
include empty

theorem exec_spareTakeover_spare {t : State} (spare : s.takeSpare k cl isUnit part = some t) :
    exec (.spareTakeover isUnit part false) s = .next t := by
  rw [exec_spareTakeover house false]
  simp [State.takeover, empty, spare]

theorem exec_spareTakeover_none (unspared : s.takeSpare k cl isUnit part = none) (apart : s.resides (s.lastCluster cl) = false) :
    exec (.spareTakeover isUnit part false) s = .next (s.shrink k cl isUnit part) := by
  rw [exec_spareTakeover house false]
  simp [State.takeover, empty, unspared, apart]

end Takeover

/-! ### A spare of the same kind and die (R348) -/

/-- A pool's spare of a die: the lowest. -/
theorem leastBy_spare {p : Nat → Bool} {l : List Nat} {c : Nat} (mem : c ∈ l) (fits : p c = true)
    (least : ∀ d ∈ l, p d = true → c ≤ d) : leastBy id (l.filter p) = some c := by
  rw [leastBy_id, List.min?_eq_some_iff]
  refine ⟨List.mem_filter.2 ⟨mem, fits⟩, fun d hd => ?_⟩
  obtain ⟨inPool, fit⟩ := List.mem_filter.1 hd
  exact least d inPool fit

theorem leastBy_none {p : Nat → Bool} {l : List Nat} (no : ∀ d ∈ l, ¬p d = true) : leastBy id (l.filter p) = none := by
  rw [List.filter_eq_nil_iff.2 no]
  rfl

/-- A cluster with a core in the place of another. -/
def Cluster.withCore (cl : Cluster) (part c : Nat) : Cluster := { cl with cores := ascending (c :: cl.cores.filter fun d => d ≠ part) }

theorem Cluster.mem_withCore {cl : Cluster} {part c : Nat} (real : c < 160) (reals : ∀ d ∈ cl.cores, d < 160) (d : Nat) :
    d ∈ (cl.withCore part c).cores ↔ d = c ∨ d ∈ cl.cores ∧ d ≠ part := by
  simp only [Cluster.withCore, ascending, List.mem_filter, List.mem_range, List.contains_iff_mem, List.mem_cons, decide_eq_true_eq]
  refine ⟨And.right, fun h => ⟨?_, h⟩⟩
  rcases h with rfl | ⟨own, -⟩
  · exact real
  · exact reals d own

/-- A spare core put in the place of a cluster's. -/
def State.withCore (s : State) (k part c : Nat) : State :=
  { s with clusters := modAt s.clusters k fun cl => cl.withCore part c, poolCores := s.poolCores.filter fun d => d ≠ c }

/-- A spare unit put in the place of a cluster's. -/
def State.withUnit (s : State) (k u : Nat) : State :=
  { s with clusters := modAt s.clusters k fun c => { c with unit := u }, poolUnits := s.poolUnits.filter fun v => v ≠ u }

theorem State.takeSpare_core {s : State} {cl : Cluster} {c : Nat} (mem : c ∈ s.poolCores) (die : dieOfCore c = cl.unit / 10)
    (least : ∀ d ∈ s.poolCores, dieOfCore d = cl.unit / 10 → c ≤ d) (k part : Nat) :
    s.takeSpare k cl false part = some (s.withCore k part c) := by
  have found := leastBy_spare (p := fun c => decide (dieOfCore c = cl.unit / 10)) mem (by simpa using die) (by simpa using least)
  simp only [State.takeSpare, Bool.false_eq_true, if_false, found, Option.map_some]
  rfl

theorem State.takeSpare_unit {s : State} {cl : Cluster} {u : Nat} (mem : u ∈ s.poolUnits) (die : u / 10 = cl.unit / 10)
    (least : ∀ v ∈ s.poolUnits, v / 10 = cl.unit / 10 → u ≤ v) (k part : Nat) :
    s.takeSpare k cl true part = some (s.withUnit k u) := by
  have found := leastBy_spare (p := fun u => decide (u / 10 = cl.unit / 10)) mem (by simpa using die) (by simpa using least)
  simp only [State.takeSpare, if_true, found, Option.map_some, State.withUnit]

theorem State.takeSpare_core_none {s : State} {cl : Cluster} (no : ∀ c ∈ s.poolCores, dieOfCore c ≠ cl.unit / 10) (k part : Nat) :
    s.takeSpare k cl false part = none := by
  have missed := leastBy_none (p := fun c => decide (dieOfCore c = cl.unit / 10)) (l := s.poolCores) (by simpa using no)
  simp only [State.takeSpare, Bool.false_eq_true, if_false, missed, Option.map_none]

theorem State.takeSpare_unit_none {s : State} {cl : Cluster} (no : ∀ u ∈ s.poolUnits, u / 10 ≠ cl.unit / 10) (k part : Nat) :
    s.takeSpare k cl true part = none := by
  have missed := leastBy_none (p := fun u => decide (u / 10 = cl.unit / 10)) (l := s.poolUnits) (by simpa using no)
  simp only [State.takeSpare, if_true, missed, Option.map_none]

theorem modAt_get?_ne {α : Type} (l : List α) {i j : Nat} (f : α → α) (h : j ≠ i) : (modAt l i f)[j]? = l[j]? := by
  rw [modAt_get?, if_neg h.symm]

theorem modAt_get?_self {α : Type} {l : List α} {i : Nat} {x : α} (h : l[i]? = some x) (f : α → α) : (modAt l i f)[i]? = some (f x) := by
  rw [modAt_get?, if_pos rfl, h, Option.map_some]

/-! ### A cluster fewer (R12, R348) -/

/-- The visible clusters without the one at `k`, whose number the last one takes. -/
def withoutCluster (cs : List Cluster) (k : Nat) (last : Cluster) : List Cluster := (modAt cs k fun _ => last).take (cs.length - 1)

theorem length_withoutCluster {cs : List Cluster} {k : Nat} (inside : k < cs.length) (last : Cluster) :
    (withoutCluster cs k last).length + 1 = cs.length := by
  simp only [withoutCluster, List.length_take, modAt_length]
  omega

/-- The failed part is of no cluster that is left. -/
theorem State.houses.gone {s : State} {k part : Nat} {cl last : Cluster} {isUnit : Bool} (house : s.houses k cl isUnit part)
    (ends : s.clusters[s.clusters.length - 1]? = some last) : ∀ l ∈ withoutCluster s.clusters k last, ¬l.holds isUnit part := by
  intro l hl hold
  obtain ⟨j, hj⟩ := List.mem_iff_getElem?.1 hl
  rw [withoutCluster, List.getElem?_take] at hj
  split at hj
  next before =>
    by_cases same : j = k
    · subst same
      rw [modAt_get?_self house.stands] at hj
      cases hj
      exact absurd (house.only _ _ ends hold) before.ne'
    · rw [modAt_get?_ne _ _ same] at hj
      exact same (house.only _ _ hj hold)
  next => cases hj

/-- The machine without a cluster, its healthy parts in the pool. -/
def State.lessCluster (s : State) (k : Nat) (cl last : Cluster) (isUnit : Bool) (part : Nat) : State :=
  { s with
    clusters := withoutCluster s.clusters k last,
    poolCores := s.poolCores ++ (if isUnit then cl.cores else cl.cores.filter fun c => c ≠ part),
    poolUnits := if isUnit then s.poolUnits else s.poolUnits ++ [cl.unit] }

theorem State.shrink_eq {s : State} {last : Cluster} (ends : s.clusters[s.clusters.length - 1]? = some last) (k : Nat) (cl : Cluster)
    (isUnit : Bool) (part : Nat) : s.shrink k cl isUnit part = (s.lessCluster k cl last isUnit part).postAll 0 := by
  simp only [State.shrink, ends]
  rfl

/-- A part whose kind has no spare on its die, with the clusters empty: what every kind of part has in common. -/
theorem State.shrinks {s : State} {k part : Nat} {cl : Cluster} {isUnit : Bool} (house : s.houses k cl isUnit part)
    (unspared : s.takeSpare k cl isUnit part = none) (empty : ∀ l ∈ s.clusters, s.resides l = false) :
    ∃ t, exec (.spareTakeover isUnit part false) s = .next t ∧ t.mem = s.mem ∧ t.clusters.length + 1 = s.clusters.length ∧
      (∀ l ∈ t.clusters, ¬l.holds isUnit part) ∧
      t.poolCores = s.poolCores ++ (if isUnit then cl.cores else cl.cores.filter fun c => c ≠ part) ∧
      ∀ g ∈ t.gangs, ∀ w ∈ g.warps, w.evt.getLsbD 0 = true := by
  have inside : k < s.clusters.length := (List.getElem?_eq_some_iff.1 house.stands).1
  have ends := List.getElem?_eq_getElem (Nat.sub_one_lt_of_lt inside)
  generalize s.clusters[s.clusters.length - 1] = last at ends
  have apart : s.resides (s.lastCluster cl) = false := by
    rw [State.lastCluster, ends, Option.getD_some]
    exact empty last (List.mem_of_getElem? ends)
  have ran := exec_spareTakeover_none house (empty cl (List.mem_of_getElem? house.stands)) unspared apart
  rw [State.shrink_eq ends] at ran
  have kept {α : Type} (field : State → α) (blind : ∀ t, field t.outside = field t) :
      field ((s.lessCluster k cl last isUnit part).postResident 0) = field (s.lessCluster k cl last isUnit part) :=
    State.postResident_field field blind _ 0
  have left : ((s.lessCluster k cl last isUnit part).postAll 0).clusters = withoutCluster s.clusters k last :=
    kept State.clusters fun _ => rfl
  refine ⟨_, ran, kept State.mem fun _ => rfl, ?_, ?_, kept State.poolCores fun _ => rfl, State.postResident_posted _ (by decide)⟩
  · rw [left, length_withoutCluster inside]
  · rw [left]
    exact house.gone ends

/-! ### A dead part (R310, R348) -/

/-- Whether a gang has a part: a core, or any core of a failed unit's cluster. -/
def Gang.usesPart (cl : Cluster) (isUnit : Bool) (part : Nat) (g : Gang) : Bool :=
  if isUnit then g.cores.any cl.cores.contains else g.cores.contains part || g.warps.any fun w => w.core = part

theorem State.killOn_eq (s : State) (cl : Cluster) (isUnit : Bool) (part : Nat) :
    s.killOn cl isUnit part = s.killEach (s.gangs.filter (Gang.usesPart cl isUnit part)) := rfl

/-- A dead part: the gangs that have it are gone, and of a gang none of whose name has it only threads that waited may have become
ready. -/
theorem State.killOn_kills {s : State} {k part : Nat} {cl : Cluster} {isUnit : Bool} (house : s.houses k cl isUnit part) :
    ∃ t, exec (.spareTakeover isUnit part true) s = .next t ∧ t.mem = s.mem ∧ t.clusters = s.clusters ∧
      (∀ g' ∈ t.gangs, ∃ g ∈ s.gangs, g'.cores = g.cores ∧ g.usesPart cl isUnit part = false) ∧
      ∀ g ∈ s.gangs, (∀ h ∈ s.gangs, h.gid = g.gid → h.usesPart cl isUnit part = false) →
        ∀ x, s.gang? g.gid = some x → ∃ x', t.gang? g.gid = some x' ∧ x.woken x' := by
  refine ⟨_, exec_spareTakeover_dead house, ?_⟩
  rw [State.killOn_eq]
  refine ⟨State.killEach_mem .., State.killEach_clusters .., fun g' hg' => ?_, fun g _ spared x hx => State.killEach_woken _ _ ?_ hx⟩
  · obtain ⟨g, hg, named, same⟩ := State.killEach_remains _ _ g' hg'
    refine ⟨g, hg, same, Bool.eq_false_iff.2 fun uses => ?_⟩
    exact State.killEach_gone _ _ g' hg' g (List.mem_filter.2 ⟨hg, uses⟩) named
  · intro h hh named
    obtain ⟨res, uses⟩ := List.mem_filter.1 hh
    exact absurd uses (by simp [spared h res named])

theorem Gang.usesPart_core_eq_false {cl : Cluster} {part : Nat} {g : Gang} :
    g.usesPart cl false part = false ↔ part ∉ g.cores ∧ ∀ w ∈ g.warps, w.core ≠ part := by
  simp [Gang.usesPart]

theorem Gang.usesPart_unit_eq_false {cl : Cluster} {part : Nat} {g : Gang} :
    g.usesPart cl true part = false ↔ ∀ c ∈ g.cores, c ∉ cl.cores := by
  simp [Gang.usesPart]

/-! ### The two kinds of parts -/

section CorePart

variable {s : State} {k part : Nat} {cl : Cluster} (house : s.houses k cl false part)
include house

theorem State.core_replaced (empty : s.resides cl = false) {c : Nat} (mem : c ∈ s.poolCores) (die : dieOfCore c = cl.unit / 10)
    (least : ∀ d ∈ s.poolCores, dieOfCore d = cl.unit / 10 → c ≤ d) (real : c < 160) (reals : ∀ d ∈ cl.cores, d < 160) :
    ∃ t cl', exec (.spareTakeover false part false) s = .next t ∧ t.mem = s.mem ∧ t.gangs = s.gangs ∧
      t.clusters.length = s.clusters.length ∧ t.clusters[k]? = some cl' ∧ cl'.unit = cl.unit ∧
      (∀ d, d ∈ cl'.cores ↔ d = c ∨ (d ∈ cl.cores ∧ d ≠ part)) ∧ (∀ j, j ≠ k → t.clusters[j]? = s.clusters[j]?) ∧
      ∀ d, d ∈ t.poolCores ↔ d ∈ s.poolCores ∧ d ≠ c :=
  ⟨_, _, exec_spareTakeover_spare house empty (State.takeSpare_core mem die least k part), rfl, rfl, modAt_length ..,
    modAt_get?_self house.stands _, rfl, Cluster.mem_withCore real reals, fun _ hj => modAt_get?_ne _ _ hj,
    fun d => by simp [State.withCore]⟩

theorem State.core_unspared (no : ∀ c ∈ s.poolCores, dieOfCore c ≠ cl.unit / 10) (empty : ∀ l ∈ s.clusters, s.resides l = false) :
    ∃ t, exec (.spareTakeover false part false) s = .next t ∧ t.mem = s.mem ∧ t.clusters.length + 1 = s.clusters.length ∧
      (∀ l ∈ t.clusters, part ∉ l.cores) ∧ (∀ d ∈ cl.cores, d ≠ part → d ∈ t.poolCores) ∧
      ∀ g ∈ t.gangs, ∀ w ∈ g.warps, w.evt.getLsbD 0 = true := by
  obtain ⟨t, ran, mem, fewer, gone, pool, posted⟩ := State.shrinks house (State.takeSpare_core_none no k part) empty
  refine ⟨t, ran, mem, fewer, fun l hl own => gone l hl (List.contains_iff_mem.2 own), fun d own other => ?_, posted⟩
  rw [pool]
  exact List.mem_append_right _ (List.mem_filter.2 ⟨own, decide_eq_true other⟩)

theorem State.core_dead :
    ∃ t, exec (.spareTakeover false part true) s = .next t ∧ t.mem = s.mem ∧ t.clusters = s.clusters ∧
      (∀ g ∈ t.gangs, part ∉ g.cores) ∧
      ∀ g ∈ s.gangs, (∀ h ∈ s.gangs, h.gid = g.gid → part ∉ h.cores ∧ ∀ w ∈ h.warps, w.core ≠ part) →
        ∀ x, s.gang? g.gid = some x → ∃ x', t.gang? g.gid = some x' ∧ x.woken x' := by
  obtain ⟨t, ran, mem, clusters, left, others⟩ := State.killOn_kills house
  refine ⟨t, ran, mem, clusters, fun g' hg' => ?_, fun g hg spared =>
    others g hg fun h hh named => Gang.usesPart_core_eq_false.2 (spared h hh named)⟩
  obtain ⟨g, -, same, free⟩ := left g' hg'
  rw [same]
  exact (Gang.usesPart_core_eq_false.1 free).1

end CorePart

section UnitPart

variable {s : State} {k : Nat} {cl : Cluster} (house : s.houses k cl true cl.unit)
include house

theorem State.unit_replaced (empty : s.resides cl = false) {u : Nat} (mem : u ∈ s.poolUnits) (die : u / 10 = cl.unit / 10)
    (least : ∀ v ∈ s.poolUnits, v / 10 = cl.unit / 10 → u ≤ v) :
    ∃ t, exec (.spareTakeover true cl.unit false) s = .next t ∧ t.mem = s.mem ∧ t.gangs = s.gangs ∧
      t.clusters.length = s.clusters.length ∧ t.clusters[k]? = some { cl with unit := u } ∧
      (∀ j, j ≠ k → t.clusters[j]? = s.clusters[j]?) ∧ ∀ v, v ∈ t.poolUnits ↔ v ∈ s.poolUnits ∧ v ≠ u :=
  ⟨_, exec_spareTakeover_spare house empty (State.takeSpare_unit mem die least k cl.unit), rfl, rfl, modAt_length ..,
    modAt_get?_self house.stands _, fun _ hj => modAt_get?_ne _ _ hj, fun v => by simp [State.withUnit]⟩

theorem State.unit_unspared (no : ∀ u ∈ s.poolUnits, u / 10 ≠ cl.unit / 10) (empty : ∀ l ∈ s.clusters, s.resides l = false) :
    ∃ t, exec (.spareTakeover true cl.unit false) s = .next t ∧ t.mem = s.mem ∧ t.clusters.length + 1 = s.clusters.length ∧
      (∀ l ∈ t.clusters, l.unit ≠ cl.unit) ∧ (∀ d ∈ cl.cores, d ∈ t.poolCores) ∧
      ∀ g ∈ t.gangs, ∀ w ∈ g.warps, w.evt.getLsbD 0 = true := by
  obtain ⟨t, ran, mem, fewer, gone, pool, posted⟩ := State.shrinks house (State.takeSpare_unit_none no k cl.unit) empty
  refine ⟨t, ran, mem, fewer, gone, fun d own => ?_, posted⟩
  rw [pool]
  exact List.mem_append_right _ own

theorem State.unit_dead :
    ∃ t, exec (.spareTakeover true cl.unit true) s = .next t ∧ t.mem = s.mem ∧ t.clusters = s.clusters ∧
      (∀ g ∈ t.gangs, ∀ c ∈ g.cores, c ∉ cl.cores) ∧
      ∀ g ∈ s.gangs, (∀ h ∈ s.gangs, h.gid = g.gid → ∀ c ∈ h.cores, c ∉ cl.cores) →
        ∀ x, s.gang? g.gid = some x → ∃ x', t.gang? g.gid = some x' ∧ x.woken x' := by
  obtain ⟨t, ran, mem, clusters, left, others⟩ := State.killOn_kills house
  refine ⟨t, ran, mem, clusters, fun g' hg' => ?_, fun g hg spared =>
    others g hg fun h hh named => Gang.usesPart_unit_eq_false.2 (spared h hh named)⟩
  obtain ⟨g, -, same, free⟩ := left g' hg'
  rw [same]
  exact Gang.usesPart_unit_eq_false.1 free

end UnitPart

/-! ### Bridges (R8, R360, R361) -/

/-- The machine with a bridge out of service: an access that no core has sent yet takes the new route. -/
def State.rerouted (s : State) (b : Nat) : State :=
  let t := { s with bridges := modAt s.bridges b fun _ => false }
  { t with flights := s.flights.map fun f => if f.seq.isNone && f.done = 0 then { f with route := t.routeFor f } else f }

theorem exec_bridgeFailure_alone (s : State) (b : Nat) : exec (.bridgeFailure b [] []) s = .next (s.rerouted b) := rfl

theorem State.rerouted_down {s : State} {b : Nat} (inside : b < s.bridges.length) : nth (s.rerouted b).bridges b true = false := by
  refine (nth_modAt s.bridges b b _ true).trans ?_
  rw [if_pos ⟨rfl, inside⟩]

theorem State.rerouted_flight {s : State} {b j : Nat} {f f' : Flight} (hf : s.flights[j]? = some f)
    (hf' : (s.rerouted b).flights[j]? = some f') :
    f' = if f.seq = none ∧ f.done = 0 then { f with route := (s.rerouted b).routeFor f } else f := by
  simp only [State.rerouted, List.getElem?_map, hf, Option.map_some, Option.some.injEq, Bool.and_eq_true, Option.isNone_iff_eq_none,
    decide_eq_true_eq] at hf'
  exact hf'.symm

/-- The command in a slot once its record is replaced by one of the same slot. -/
theorem State.cmd?_putCmd {s : State} {core slot : Nat} {k k' : Cmd} (found : s.cmd? core slot = some k) (same : k'.slot = slot) :
    (s.putCmd core k').cmd? core slot = some k' := by
  subst same
  have named : k.slot = k'.slot := by simpa using List.find?_some found
  have put := find?_map_key Cmd.slot (fun j => if j.slot = k'.slot then k' else j) (s.core core).slots k'.slot fun j _ => by
    split
    next here => exact here.symm
    next => rfl
  rw [State.cmd?, State.putCmd, State.core_modCore]
  refine put.trans ?_
  rw [show (s.core core).slots.find? (fun j => j.slot = k'.slot) = some k from found, Option.map_some, if_pos named]

/-- A command's record once it is lost (R360). -/
theorem State.cmd?_loseCmd {s : State} {core slot : Nat} {k : Cmd} (found : s.cmd? core slot = some k) (unended : k.status = none) :
    (s.loseCmd core k).cmd? core slot = some { k with status := some 0x2202 } := by
  have named : k.slot = slot := by simpa using List.find?_some found
  have put := State.cmd?_putCmd (s := { s with invals := s.invals.map fun v => if v.store = k.mark core then { v with store := 0 } else v })
    (k' := { k with status := some (k.status.getD fAcklost) }) found named
  rw [unended] at put
  rw [State.loseCmd, unended]
  exact put

theorem exec_bridgeFailure_command {s : State} {b core slot : Nat} {k : Cmd} (found : s.cmd? core slot = some k)
    (alive : k.killed = false) (carried : s.cmdCarried b core k = true) :
    exec (.bridgeFailure b [] [(core, slot)]) s = .next ((s.loseCmd core k).rerouted b) := by
  refine congrArg Host.Outcome.next ?_
  dsimp only [List.foldl]
  rw [found]
  dsimp only
  rw [alive, carried]
  rfl

theorem State.bridgeFailure_loses {s : State} {b core slot : Nat} {k : Cmd} (inside : b < s.bridges.length)
    (found : s.cmd? core slot = some k) (unended : k.status = none) (alive : k.killed = false) (carried : s.cmdCarried b core k = true) :
    ∃ t, exec (.bridgeFailure b [] [(core, slot)]) s = .next t ∧ t.mem = s.mem ∧ nth t.bridges b true = false ∧
      t.cmd? core slot = some { k with status := some 0x2202 } :=
  ⟨_, exec_bridgeFailure_command found alive carried, rfl, State.rerouted_down (s := s.loseCmd core k) inside,
    State.cmd?_loseCmd found unended⟩

theorem State.bridgeFailure_reroutes {s : State} {b : Nat} (inside : b < s.bridges.length) :
    ∃ t, exec (.bridgeFailure b [] []) s = .next t ∧ nth t.bridges b true = false ∧ (∀ j, j ≠ b → t.bridges[j]? = s.bridges[j]?) ∧
      t = { s with bridges := t.bridges, flights := t.flights } ∧ t.flights.length = s.flights.length ∧
      ∀ (j : Nat) (f f' : Flight), s.flights[j]? = some f → t.flights[j]? = some f' →
        f' = if f.seq = none ∧ f.done = 0 then { f with route := t.routeFor f } else f :=
  ⟨_, exec_bridgeFailure_alone s b, State.rerouted_down inside, fun _ hj => modAt_get?_ne _ _ hj, rfl, List.length_map ..,
    fun _ _ _ => State.rerouted_flight⟩

/-! ### The steps and replacements -/

/-- Settles O46: each stage of a step, each kind of part and each outcome of its failure, and a bridge, by its own rule. -/
theorem pointsStepAndPartsAreReplaced : Obligations.PointsStepAndPartsAreReplaced := by
  unfold Obligations.PointsStepAndPartsAreReplaced
  refine ⟨fun s st step => ⟨State.opEvacuateScratchpad_moves step, State.opEvacuateScratchpad_waits step,
    State.opEvacuateSlices_goes step, State.opSwitch_down step, State.opSwitch_up step, State.opSwitch_waits step⟩,
    fun s k part cl stands own only => ?_,
    fun s b inside => ⟨State.bridgeFailure_reroutes inside, fun core slot k => State.bridgeFailure_loses inside⟩⟩
  have core := State.houses_core stands own only
  exact ⟨fun empty c mem die least real => State.core_replaced core empty mem die least real, fun _ => State.core_unspared core,
    fun empty u mem die least sole => State.unit_replaced (State.houses_unit stands sole) empty mem die least,
    fun _ no empty sole => State.unit_unspared (State.houses_unit stands sole) no empty,
    fun sole => State.unit_dead (State.houses_unit stands sole), State.core_dead core⟩

end Sys2Proof.Machine
end
